-- ==== Sys2Proof/Word.lean ====
section
/-! DEFINITION. The word types of the block and the finite tables its state is kept in. -/

namespace Sys2Proof

/-- A byte. -/
abbrev Byte := BitVec 8

/-- A register of the unit: 64 bits (chapter 0, "Registers and access codes"). -/
abbrev Word := BitVec 64

/-- A finite table by number: entries with strictly rising keys. An entry that is not listed has
the default its reader names. -/
abbrev Tbl (α : Type) := List (Nat × α)

/-- A byte-addressed memory in canonical form: strictly rising addresses, no listed zero byte. -/
abbrev Memory := List (Nat × Byte)

/-- Time in nanoseconds of the timebase, the calendar or Warren time. -/
abbrev Ns := Nat

end Sys2Proof
end

