-- ==== Sys2Proof/Syntax.lean ====
section
/-! DEFINITION. The commands and events the unit takes: one constructor of `Instr` per row of
spec/opcode_table.json, and the plain data types of their operands. -/

namespace Sys2Proof

/-- Who accesses a register (R29: each LD and the administrator BAR2 are separate requesters). -/
inductive Requester where
  | bar0 (ld : Nat)
  | bar2
deriving DecidableEq, Repr

/-- How a command reached the unit (Table 18.4 `PNL_IDENT.SOURCE`; R374; R385). -/
inductive Via where
  | button
  | register
  | redfish
deriving DecidableEq, Repr

/-- What a host read asks to cache (Table 12.6, `READ` byte 34). -/
inductive Want where
  | none
  | shared
  | exclusive
deriving DecidableEq, Repr

/-- The answer of a host to a Back-Invalidate (Table 12.6, `BIRSP` byte 24). -/
inductive SnoopAns where
  | invalid
  | shared
deriving DecidableEq, Repr

/-- A repair entry (Table 5.4). -/
structure RepairEntry where
  cls : Nat
  grp : Nat
  elt : Nat
deriving DecidableEq, Repr

/-- A fuse command as it lies in the command buffer, command code apart (Table 3.4). The code is
the row's own. -/
structure FuseCmd where
  format : Nat
  payloadLen : Nat
  dieLo : BitVec 64
  dieHi : BitVec 64
  nonce : BitVec 128
  reserved : BitVec 64
  payload : List Byte
  mldsaKey : List Byte
  ecKey : List Byte
  mldsaSig : List Byte
  ecSig : List Byte
deriving DecidableEq, Repr

/-- What a training host link finds at its partner (R100, R102). -/
structure LinkPartner where
  rate : Nat
  width : Nat
  flit256 : Bool
  cxl : Bool
  equalised : Bool
  switched : Bool
deriving DecidableEq, Repr

/-- The body of a `HELLO` link message (Table 12.6, opcode 0x20), with the sender's unit number. -/
structure Hello where
  src : Nat
  dieLo : BitVec 64
  dieHi : BitVec 64
  port : Nat
  lanes : Nat
  slots : Nat
  cr0 : Nat
  cr1 : Nat
  cr3 : Nat
  cr4 : Nat
  cr5 : Nat
  digest : BitVec 64
  gen : Nat
deriving DecidableEq, Repr

/-- A chunk on a Drey as its page headers give it (R225), with its plaintext and its place. -/
structure DreyChunk where
  stripe : Nat
  idx : Nat
  k : Nat
  m : Nat
  kind : Nat
  crc : BitVec 32
  die : Nat
  block : Nat
  page : Nat
  bytes : List Byte
deriving DecidableEq, Repr

/-- The contents of a Drey's record store that an insertion reads (Tables 11.2 and 17.5, R223). -/
structure DreyId where
  serial : BitVec 128
  copiesOk : Nat
  owned : Bool
  owner : BitVec 128
  fabric : BitVec 64
  wrapped : List Byte
  membership : Nat
  bayLast : Nat
  clean : Bool
  lastSeen : Ns
  formatTime : Ns
  post : Bool
  /-- The die map (R223): failed dies, each with the spare that took its place, if one did; the newest pair counts. -/
  failedDies : List (Nat × Option Nat)
  /-- Spares that failed. -/
  failedSpares : List Nat
  wearSeq : Nat
  wearUpdate : Ns
  pagesProg : Nat
  pagesRead : Nat
  hoursMounted : Nat
  insertions : Nat
  tempHist : List Nat
  eraseMean : List Nat
  /-- The chunks its page directory or page headers name. -/
  chunks : List DreyChunk
  /-- The wrapped key unwraps under this unit's root key (R244, NIST SP 800-38F). -/
  unwraps : Bool
deriving DecidableEq, Repr

/-- A 64 B checkpoint root record (R228). -/
structure RootRec where
  writer : Nat
  stripes : List Nat
  lastSeq : Nat
deriving DecidableEq, Repr

/-- A host link that answers during phase 9, and a Warren port's partner during phase 7. -/
structure StartEnv where
  /-- Either firmware bank verifies (R77). -/
  fwOk : Bool
  /-- Cores that fail the phase-2 test, and elements whose phase-3 test gives FAIL, then SLOW. -/
  fails : List RepairEntry
  slows : List RepairEntry
  /-- Elements of active field entries that gave PASS twice under `RETEST` (R94). -/
  retestPass : List RepairEntry
  /-- Monitors out of their median margins (R31): kind 0 sensor, 1 voltage, 2 pacer; index. -/
  badMonitors : List (Nat × Nat)
  /-- Fuse words read corrected, and uncorrectable (R38). -/
  fuseCorrected : List Nat
  fuseBad : List Nat
  /-- Physical SIDs that fail in phase 6 (R200). -/
  badSids : List Nat
  /-- Warren time heard from a peer in phase 7, if any (R80), or PTP lock (R386). -/
  warrenTime : Option Ns
  ptpTime : Option Ns
  /-- Ports that trained, with the peer's HELLO (R282). -/
  hellos : List (Nat × Hello)
  /-- Dreys found in the bays (R246). -/
  dreys : List (Nat × DreyId)
  /-- Tiles found by replay: tenant, tile number within the tenant, stripe, offset, length (R229). -/
  replayed : List (Nat × Nat × Nat × Nat × Nat)
  /-- Links that trained, with their partners (R100). -/
  links : List (Nat × LinkPartner)
  /-- Time each phase took, ms, phases 1 to 9 (Table 5.8). -/
  phaseMs : List Nat
deriving DecidableEq, Repr

/-- The result of one symbol read wrong: line of the unit (by order), symbol 0-31 of the data, or a
check symbol, and the exclusive-or error (R197-R199). Lanes: 0 data, 1 P, 2 Q, 3 R. -/
structure SymErr where
  line : Nat
  lane : Nat
  idx : Nat
  err : BitVec 16
deriving DecidableEq, Repr

/-- A PTP message as the management port classes it (R386). -/
inductive Ptp where
  | sync (offset : Int)
  | announce (taiUtc : Nat)
  | lost
deriving DecidableEq, Repr

/-- The regulator readings of one control period (R367): READ_VOUT in 0.125 mV, output power in
0.1 W, and whether a fault bit stands. -/
structure RegReading where
  vout : Nat
  power : Nat
deriving DecidableEq, Repr

/-- The commands and events of the unit, one per row of spec/opcode_table.json. An operand named
`stamp` is the ingress stamp of R28; `now` operands do not occur: the present is the timebase. -/
inductive Instr where
  -- registers (chapters 0 and 21)
  | registerWrite (rq : Requester) (off size : Nat) (val : Word)
  | registerAccessRefused (rq : Requester) (off size : Nat) (isWrite : Bool) (val : Word)
  | islandOffAccess (off size : Nat) (isWrite : Bool) (val : Word)
  -- the data path (chapters 1, 9)
  | hostMemRead (id ld dpa : Nat) (want : Want) (stamp : Ns)
  | fillBlockLanded (tenant tile blk : Nat) (bmw : BitVec 96) (masks : List Byte) (stored : List Byte)
  | hostMemWrite (id ld dpa : Nat) (be : BitVec 64) (data : List Byte) (poison evict : Bool) (stamp : Ns)
  | stripWriteback (tenant block strip : Nat)
  | writebackComplete (tenant block : Nat)
  | operandTileFetch (engine tenant tile : Nat)
  -- monitors (chapter 2)
  | tempSensorConversion (n : Nat) (reading : BitVec 16) (converted : Bool)
  | voltageMonitorConversion (n : Nat) (reading : BitVec 16) (converted : Bool)
  | pacerWindow (n : Nat) (pace : BitVec 16) (converted : Bool)
  | monTimebaseReadLow (rq : Requester)
  | monCtlWrite (val : Word)
  -- fuse commands (chapter 3)
  | setOwner (c : FuseCmd)
  | programSlot (c : FuseCmd)
  | revokeSlot (c : FuseCmd)
  | revokeSlotDeferred
  | advanceArb (c : FuseCmd)
  | tightenDebug (c : FuseCmd)
  | programPolicy (c : FuseCmd)
  | fuseSeal (c : FuseCmd)
  | retire (c : FuseCmd)
  | debugUnlock (c : FuseCmd)
  -- images (chapter 4)
  | validate (len : Nat) (distribute : Bool)
  | update (len : Nat) (distribute : Bool)
  | nextStart (len : Nat) (distribute : Bool)
  | loadModeRefused (len : Nat) (distribute : Bool)
  | redfishImageAction (image : List Byte) (mode : Nat) (distribute : Bool)
  | distributionTimeout
  | imagePart (src offset total mode : Nat) (bytes : List Byte)
  | imageVerdict (src code : Nat)
  | vqCtlAbort (val : Word)
  -- start-up and repair (chapter 5)
  | coldStart (env : StartEnv)
  | phaseBound (phase : Nat)
  | engineKatTimer (engine : Nat) (failed : List Nat)
  | engKatRun (run : BitVec 4) (pass : BitVec 4)
  | codecKatTimer (phys : Nat) (pass : Bool)
  | sramRowError (bank row : Nat) (uncorrectable mirrorOk : Bool)
  | shrewCoreFailure (core : Nat)
  | paceScan (slow : List RepairEntry)
  | engineRepairComplete (engine : Nat)
  | firmwareRestart
  | firmwareRestartComplete
  -- host ports (chapter 6)
  | linkUp (link : Nat) (p : LinkPartner)
  | linkDown (link : Nat)
  | linkRateLowering (lower : Bool)
  | getLdInfo (link : Nat)
  | getLdAllocations (link : Nat)
  | setLdAllocations (link : Nat)
  | addDynamicCapacityResponse (ld ext : Nat) (reader accept : Bool)
  | releaseDynamicCapacity (ld ext : Nat)
  | releaseTimeout (ld ext : Nat)
  | hdmDecoderCommit (ld idx base size ways gran skip : Nat) (bi : Bool)
  | hstLeaseRenew (ld : Nat) (val : Word) (stamp : Ns)
  | identifyMemoryDevice (ld : Nat)
  | getSupportedLogs (ld : Nat)
  | getLog (ld : Nat) (vendor : Bool) (offset len : Nat)
  | getEventRecords (ld log : Nat)
  | clearEventRecords (ld log : Nat) (all : Bool) (handles : List Nat)
  | getEventInterruptPolicy (ld : Nat)
  | setEventInterruptPolicy (ld : Nat) (msgs : List Nat)
  | getHealthInfo (ld : Nat)
  | getPoisonList (ld dpa len : Nat)
  | injectPoison (ld dpa : Nat)
  | clearPoison (ld dpa : Nat) (data : List Byte)
  | getDynamicCapacityConfiguration (ld : Nat)
  | getDynamicCapacityExtentList (ld : Nat)
  | getTimestamp (ld : Nat)
  | setTimestamp (ld : Nat) (t : Ns)
  | getFwInfo (ld : Nat)
  | unsupportedMailboxCommand (ld opcode : Nat)
  | spdmRequest (ld code : Nat) (msg : List Byte)
  | ideKeyProgramming (link : Nat) (mem io : Bool) (skid : Bool)
  | ideCheckFail (link : Nat) (mem : Bool)
  | deferrableMemoryWrite (ld off size : Nat)
  | responseWatchdog (id : Nat)
  | functionLevelReset (ld : Nat)
  | hotReset (link : Nat)
  -- mailboxes (chapter 7)
  | mbxSend (ld : Nat) (val : Word) (stamp : Ns)
  | mbxSendHalf (ld : Nat) (val : BitVec 32)
  | mbxDmwrPointer (ld : Nat) (ptr notice : Word) (stamp : Ns)
  | mbxDmwrWord (ld : Nat) (val : Word) (stamp : Ns)
  | mbxRecvPop (ld : Nat) (val : Word)
  | mbxDbClear (ld : Nat) (val : Word)
  | mbxDbMaskWrite (ld : Nat) (val : Word)
  | ping (ld core : Nat)
  | leaseInfo (ld core : Nat)
  | extentState (ld core : Nat)
  | reserveLevels (ld core : Nat)
  | imageReq (ld core : Nat)
  | unknownOp (ld core : Nat)
  | f2hDeferredEnqueue (ld : Nat)
  | mailboxFault (ld : Nat) (internal h2f : Bool)
  | mbx (src tag box : Nat) (pointer : Bool) (stampWord : Word) (p0 p1 : Word)
  | mbxAns (src tag status : Nat)
  -- extents and leases (chapter 8)
  | sealExtent (ringUnit ring sqIndex : Nat)
  | sealComplete (ext : Nat)
  | hostBirsp (ld addr : Nat) (ans : SnoopAns) (stamp : Ns)
  | biConflict (ld addr : Nat)
  | leaseRenew (src tenant : Nat) (stamp : Ns)
  | leaseGrantDue (tenant : Nat)
  | leaseGrant (src tenant : Nat) (expiry : Ns)
  | leaseGuardReached (tenant : Nat)
  | leaseExpiry (tenant : Nat)
  | leaseReclaimTimer (tenant : Nat)
  | leaseReclaim (src tenant : Nat) (t : Ns)
  | leaseReport (src tenant : Nat) (ext orphans : Nat) (last : Bool) (sealAbandoned : Bool)
  | extOlogTailWrite (val : Word)
  | release (ext : Nat)
  | scrub (ext : Nat)
  | scrubComplete (ext : Nat)
  -- the DRAM tier (chapter 10)
  | dramAdmission (pc : Nat) (rfm : Bool)
  | dramUnitComplete (uid : Nat) (errs : List SymErr)
  | sidRetireComplete
  | poolRemapComplete
  | unfreeze (val : Word)
  | refreshDeadline (pc bank : Nat)
  | refreshOpportunity (pc : Nat)
  | stackTempRead (stack : Nat) (temp : BitVec 16)
  | dramScrub (sid : Nat) (addr : Nat) (corrected : Nat) (uncorrectable : Bool)
  | dataRateChange (target : Nat)
  -- the Hoard (chapter 11)
  | chunkGet (src tag stripe chunk offset len : Nat)
  | chunkData (src tag status : Nat) (bytes : List Byte)
  | chunkPut (src tag stripe chunk k m kind : Nat) (crc : BitVec 32) (bytes : List Byte)
  | chunkAck (src tag status : Nat)
  | chunkAckTimeout (stripe chunk : Nat)
  | chunkGetTimeout (tag : Nat)
  | commitTimer (tenant tile : Nat)
  | checkpoint
  | compaction (stripe : Nat)
  | flashReclaim (bay die : Nat)
  | weightedAgeTick (bay : Nat) (meanTemp : BitVec 16)
  | hoardScrub (bay stripe chunk : Nat) (weak fails : Bool)
  | flashDieFailure (bay die : Nat)
  | chunkRebuild (stripe chunk : Nat) (gathered : List (Nat × List Byte))
  | rebuildDelayExpired (unit bay : Nat)
  | dreyInserted (bay : Nat) (d : DreyId)
  | dreyMounted (bay : Nat)
  | bayButtonPress (bay : Nat)
  | approve (bay : Nat)
  | approvalTimeout (bay : Nat)
  | removalWindowExpired (bay : Nat)
  | dreyPulled (bay : Nat)
  | dreyForcedOut (bay : Nat)
  | evacuate (bay : Nat)
  | evacuationComplete (bay : Nat)
  | adopt (bay : Nat)
  | adoptLapse (bay : Nat)
  | adoptionComplete (bay : Nat)
  -- the Warren (chapter 12)
  | flitReceived (port : Nat) (fecOk : Bool) (flit : List Byte)
  | replayTimeout (port : Nat)
  | laneFailure (port lane : Nat)
  | read (src dst tag hops tenant addr : Nat) (stamp : Ns) (ident : Nat) (want : Want) (port : Nat)
  | readData (src tag status grant strip form : Nat) (bmw : BitVec 96) (masks : List Byte) (stored : List Byte)
  | write (src dst tag hops tenant addr : Nat) (stamp : Ns) (ident : Nat) (poison : Bool) (be : BitVec 64)
      (data : List Byte) (port : Nat)
  | writeDone (src tag status : Nat)
  | bisnp (src tag tenant addr : Nat) (data : Bool) (ld : Nat)
  | birsp (src tag tenant addr : Nat) (ans : SnoopAns)
  | opFwd (src tag ring sq tenant : Nat) (desc : List Byte)
  | opDone (src tag : Nat) (record : List Byte)
  | opFwdResend (tag : Nat)
  | reserve (port src tag len : Nat)
  | grant (port tag : Nat) (yieldFlag : Bool) (withdrawn : Nat)
  | bulkSlotFreed (port slot : Nat)
  | presenceProbe (src st : Nat)
  | presenceAnswer (src st : Nat)
  | presenceProbeTimer (peer : Nat)
  | unreachableTimeout (peer : Nat)
  | transitTimeout (port tag : Nat)
  | requestRetryTimer (tag : Nat)
  | routeRestore (dst : Nat)
  | timeSyncTimer
  | delayReqTimer
  | timeSync (port src depth : Nat) (aligned : Bool) (t : Ns) (arrival : Ns)
  | delayReq (port src : Nat) (t : Ns) (arrival : Ns)
  | delayResp (port src : Nat) (t1 t4 : Ns)
  | portDown (port : Nat)
  | cablePlugged (port lanes : Nat)
  | hello (port : Nat) (h : Hello)
  | credit (port vc count : Nat)
  | retrain (port : Nat)
  | disable (port : Nat)
  | enable (port : Nat)
  -- engines and operators (chapters 13, 14)
  | engineBlockDispatch (engine : Nat)
  | outputBlockDrain (engine : Nat) (badColumns : List Nat)
  | ringEnable (ld ring : Nat) (stamp : Ns)
  | ringDisable (ld ring : Nat)
  | sqDoorbell (ld ring : Nat) (tail : BitVec 32) (dmwr : Bool) (stamp : Ns)
  | cqDoorbell (ld ring : Nat) (head : BitVec 32) (dmwr : Bool)
  | descriptorTake
  | copy (ringUnit ring sqIndex : Nat)
  | prefetch (ringUnit ring sqIndex : Nat)
  | pin (ringUnit ring sqIndex : Nat)
  | unpin (ringUnit ring sqIndex : Nat)
  | migrate (ringUnit ring sqIndex : Nat)
  | gather (ringUnit ring sqIndex : Nat)
  | scatter (ringUnit ring sqIndex : Nat)
  | gemm (ringUnit ring sqIndex : Nat)
  | groupedGemm (ringUnit ring sqIndex : Nat)
  | expertRoute (ringUnit ring sqIndex : Nat)
  | expertFfn (ringUnit ring sqIndex : Nat)
  | reduceExact (ringUnit ring sqIndex : Nat)
  | checksum (ringUnit ring sqIndex : Nat)
  | exportCompressed (ringUnit ring sqIndex : Nat)
  | abort (ringUnit ring sqIndex : Nat)
  | operatorTimeout (ringUnit ring sqIndex : Nat)
  -- reconfiguration (chapter 15)
  | epochPrepare (src epoch : Nat) (digest : BitVec 128)
  | epochPrepared (src epoch : Nat)
  | epochRefused (src epoch code : Nat)
  | prepareTimeout
  | epochCommit (src epoch : Nat) (ts : Ns)
  | epochRollback (src epoch : Nat)
  | epochDone (src epoch : Nat) (t : Nat)
  | commitResendTimer
  | preparedResend
  | stagedSwitch
  | migrationSettled
  -- power (chapter 16)
  | powerControlTick (regs : List RegReading)
  | comparatorTrip
  | regulatorFault (island : Nat) (status : Nat)
  | inputLost (b : Bool)
  | inputRestored (b : Bool)
  | bothInputsLost
  | standbyPowerApplied (autoRestore : Bool)
  | start (via : Via)
  | drain (via : Via)
  | drained
  | resume
  | dormouse
  | wake (via : Via)
  | powerOff (via : Via)
  | drainFaultTimeout
  -- calendar and lifetime record (chapter 17)
  | calendarCompare
  | calendarTrimUpdate (ppt : Int)
  | setCal (via : Via) (t : Nat)
  | setUtc (s : Nat)
  | ptpMessage (m : Ptp)
  | historySample (period : Nat) (samples : List (Nat × Nat))
  | poweredHour
  | wearRecordWrite (bay : Nat)
  | coinCellRemoved
  -- the panel (chapter 18)
  | displayRefresh
  | homeTimeout
  | slide (right : Bool)
  | prev
  | next
  | locate
  | removeKey
  | adoptConfirmation
  | confirm
  | stripRejection
  | select (held : Bool)
  | ident
  | locateExpired (bay : Bool)
  | hold
  | switchTurn (position : Nat)
  | coverOpened
  | coverClosed
  | identOn (via : Via)
  | identOff (via : Via)
  | bayLocate (bay : Nat)
  | refresh
  -- faults (chapter 19)
  | eventMergeWindow (code scopeKind scopeIdx tenant : Nat)
  | faultResume
  | fltLdTailWrite (ld : Nat) (val : BitVec 32)
  -- rows added at the end of the table
  | dreyReleased (bay : Nat)
  | lifCalReadLow (rq : Requester)
  | rootRecord (src : Nat) (r : RootRec)
deriving DecidableEq, Repr

end Sys2Proof
end

