-- ==== Sys2Proof/Machine/Util.lean ====
section
/-! DEFINITION. Finite tables, byte memories in canonical form, little-endian fields (R5) and the
saturating counters of the register tables. -/

namespace Sys2Proof.Machine

/-- The entry of a table, if it is listed. -/
def tfind {α : Type} : Tbl α → Nat → Option α
  | [], _ => none
  | (j, v) :: r, k => if j = k then some v else tfind r k

/-- The entry of a table, or the given default. -/
def tget {α : Type} (d : α) (t : Tbl α) (k : Nat) : α := (tfind t k).getD d

/-- Set an entry, keeping the keys strictly rising. -/
def tset {α : Type} (k : Nat) (v : α) : Tbl α → Tbl α
  | [] => [(k, v)]
  | (j, w) :: r =>
    if k < j then (k, v) :: (j, w) :: r
    else if k = j then (k, v) :: r
    else (j, w) :: tset k v r

/-- Remove an entry. -/
def tdel {α : Type} (k : Nat) (t : Tbl α) : Tbl α := t.filter fun e => e.1 != k

/-- Change one entry of a table, read with its default. -/
def tmod {α : Type} (d : α) (k : Nat) (f : α → α) (t : Tbl α) : Tbl α := tset k (f (tget d t k)) t

/-- Add to a counter in a table. -/
def tinc (k n : Nat) (t : Tbl Nat) : Tbl Nat := tmod 0 k (· + n) t

/-- One byte of a memory; an unlisted address reads as zero. -/
def mget (m : Memory) (a : Nat) : Byte := tget 0 m a

/-- Write one byte, keeping the canonical form: a zero byte is not listed. -/
def mset (a : Nat) (b : Byte) : Memory → Memory
  | [] => if b = 0 then [] else [(a, b)]
  | (j, w) :: r =>
    if a < j then (if b = 0 then (j, w) :: r else (a, b) :: (j, w) :: r)
    else if a = j then (if b = 0 then r else (a, b) :: r)
    else (j, w) :: mset a b r

/-- The canonical form of a memory: strictly rising addresses, no listed zero. -/
def memWf : Memory → Bool
  | [] => true
  | (_, b) :: [] => b != 0
  | (a, b) :: (a', b') :: r => b != 0 && decide (a < a') && memWf ((a', b') :: r)

/-- Write bytes at consecutive addresses, lowest first. -/
def mwrite (a : Nat) : List Byte → Memory → Memory
  | [], m => m
  | b :: bs, m => mwrite (a + 1) bs (mset a b m)

/-- Read bytes at consecutive addresses. -/
def mread (m : Memory) (a n : Nat) : List Byte := (List.range n).map fun i => mget m (a + i)

/-- A little-endian field of bytes as a number (R5). -/
def leNat : List Byte → Nat
  | [] => 0
  | b :: bs => b.toNat + 256 * leNat bs

/-- A number as `n` little-endian bytes (R5). -/
def leBytes : Nat → Nat → List Byte
  | 0, _ => []
  | n + 1, v => BitVec.ofNat 8 v :: leBytes n (v / 256)

/-- `n` bytes of a list from offset `o`. -/
def slice {α : Type} (l : List α) (o n : Nat) : List α := (l.drop o).take n

/-- The little-endian field of `n` bytes at offset `o`; bytes beyond the end read as zero. -/
def fld (l : List Byte) (o n : Nat) : Nat := leNat (slice l o n)

/-- The bits `[h:l]` of a number. -/
def bits (v h l : Nat) : Nat := (v >>> l) % 2 ^ (h + 1 - l)

/-- One bit of a number. -/
def bit (v i : Nat) : Bool := v.testBit i

/-- A flag as a number. -/
def b2n (b : Bool) : Nat := if b then 1 else 0

/-- A count that stops at its field's largest value. -/
def sat (w v : Nat) : Nat := min v (2 ^ w - 1)

/-- An integer in two's complement of `w` bits. -/
def twos (w : Nat) (v : Int) : Nat := (v % (2 ^ w : Int)).toNat

/-- A two's complement field of `w` bits as an integer. -/
def untwos (w v : Nat) : Int := if v % 2 ^ w < 2 ^ (w - 1) then (v % 2 ^ w : Nat) else (v % 2 ^ w : Nat) - (2 ^ w : Int)

/-- All of a list's bytes are zero. -/
def allZero (l : List Byte) : Bool := l.all (· == 0)

/-- A list cut or filled with a value to a length. -/
def padTo {α : Type} (n : Nat) (d : α) (l : List α) : List α := (l ++ List.replicate n d).take n

/-- Replace `new.length` entries of a list from offset `o`. -/
def splice {α : Type} (l : List α) (o : Nat) (new : List α) : List α :=
  l.take o ++ new ++ l.drop (o + new.length)

/-- The first element of a list that satisfies a test is changed. -/
def modFirst {α : Type} (p : α → Bool) (f : α → α) : List α → List α
  | [] => []
  | x :: xs => if p x then f x :: xs else x :: modFirst p f xs

/-- Ceiling division. -/
def cdiv (a b : Nat) : Nat := (a + b - 1) / b

/-- Add an element to a list that holds none twice. -/
def addNew {α : Type} [BEq α] (x : α) (l : List α) : List α := if l.contains x then l else l ++ [x]

/-- Insert a number in an ascending list that holds none twice. -/
def insAsc (x : Nat) : List Nat → List Nat
  | [] => [x]
  | y :: ys => if x < y then x :: y :: ys else if x = y then y :: ys else y :: insAsc x ys

/-- One millisecond, one second, one minute, one hour and one day, in nanoseconds. -/
def msNs : Nat := 1000000
def secNs : Nat := 1000000000
def minNs : Nat := 60000000000
def hourNs : Nat := 3600000000000
def dayNs : Nat := 86400000000000

/-- The calendar's valid range: 2020-01-01 up to 2120-01-01, TAI (R382). -/
def calInRange (t : Ns) : Bool := decide (1577836800 * secNs ≤ t) && decide (t < 4733510400 * secNs)

end Sys2Proof.Machine
end

