-- ==== Sys2Proof/Machine/Codec.lean ====
section
/-! DEFINITION. The exponent codec (chapter 9): block metadata words, the seven tables, the encoder of R181 and
the decoder with the checks of Table 9.5. -/

namespace Sys2Proof.Machine

/-! ### The block metadata word (Table 9.2) -/

/-- Length code of strip `k`. -/
def bmwLen (w : BitVec 96) (k : Nat) : Nat := bits w.toNat (5 * k + 4) (5 * k)

/-- Element format, integrity mode (1 LENCRC), reserved bits, block CRC. -/
def bmwFmt (w : BitVec 96) : Nat := bits w.toNat 43 40
def bmwMode (w : BitVec 96) : Nat := bits w.toNat 47 44
def bmwResv (w : BitVec 96) : Nat := bits w.toNat 63 48
def bmwCrc (w : BitVec 96) : BitVec 32 := BitVec.ofNat 32 (bits w.toNat 95 64)

/-- A BMW of its fields. -/
def mkBmw (lens : List Nat) (fmt mode : Nat) (crc : BitVec 32) : BitVec 96 :=
  BitVec.ofNat 96 (((List.range 8).map fun k => lens.getD k 0 * 2 ^ (5 * k)).sum + fmt * 2 ^ 40 + mode * 2 ^ 44
    + crc.toNat * 2 ^ 64)

/-- Bytes read or written for a length code (Table 9.3). -/
def storedLen (code : Nat) : Nat :=
  if code = 0 then 0 else if code ≤ 15 then 32 * code else if code = 16 ∨ code = 31 then 512 else 0

/-! ### Bit streams, most significant bit first (R5, R176) -/

/-- The bits of bytes, bit 7 of each byte first. -/
def toBits (l : List Byte) : List Bool := l.flatMap fun b => (List.range 8).map fun i => b.getLsbD (7 - i)

/-- Bits to a number, first bit most significant. -/
def ofBits (l : List Bool) : Nat := l.foldl (fun a b => 2 * a + b2n b) 0

/-- `w` bits of a number, most significant first. -/
def natBits (w v : Nat) : List Bool := (List.range w).map fun i => v.testBit (w - 1 - i)

/-- Bits to bytes; `n` bytes, filled with zero bits. -/
def fromBits : Nat → List Bool → List Byte
  | 0, _ => []
  | n + 1, l => BitVec.ofNat 8 (ofBits (padTo 8 false l)) :: fromBits n (l.drop 8)

/-! ### Element formats (Table 9.1) -/

/-- Element size in bytes, exponent width E, sign and mantissa width W of a format. -/
def fmtInfo (fmt : Nat) : Nat × Nat × Nat :=
  match fmt with
  | 1 => (2, 8, 8)
  | 2 => (2, 5, 11)
  | 3 => (4, 8, 24)
  | 4 => (1, 4, 4)
  | _ => (1, 5, 3)

/-- Elements per strip, section size, smallest coded length. -/
def fmtN (fmt : Nat) : Nat := 512 / (fmtInfo fmt).1
def fmtS (fmt : Nat) : Nat := fmtN fmt * (fmtInfo fmt).2.2 / 8
def fmtMin (fmt : Nat) : Nat := cdiv (2 + fmtS fmt + cdiv (fmtN fmt) 8) 32

/-- The elements of a strip (R175). -/
def elements (fmt : Nat) (strip : List Byte) : List Nat :=
  (List.range (fmtN fmt)).map fun i => fld strip (i * (fmtInfo fmt).1) (fmtInfo fmt).1

/-- Exponent field of an element, and its sign-and-mantissa bits, sign first. -/
def elExp (fmt v : Nat) : Nat :=
  let (_, e, w) := fmtInfo fmt
  bits v (w - 1 + e - 1) (w - 1)
def elSm (fmt v : Nat) : List Bool :=
  let (_, e, w) := fmtInfo fmt
  v.testBit (w - 1 + e) :: natBits (w - 1) (v % 2 ^ (w - 1))

/-- An element of its parts. -/
def mkEl (fmt : Nat) (sm : List Bool) (e : Nat) : Nat :=
  let (_, ew, w) := fmtInfo fmt
  b2n (sm.headD false) * 2 ^ (w - 1 + ew) + e * 2 ^ (w - 1) + ofBits sm.tail

/-! ### The tables (R179, R180) -/

/-- The zigzag value of d = e − b. -/
def zigzag (e b : Nat) : Nat := if b ≤ e then 2 * (e - b) else 2 * (b - e) - 1

/-- Rice parameter of a table, and whether it carries a flag bit. -/
def tblK (t : Nat) : Nat := if t ≤ 4 then t - 1 else t - 5
def tblFlag (t : Nat) : Bool := decide (5 ≤ t)

/-- The Rice code of an exponent, or its escape. -/
def riceBits (ew k e b : Nat) : List Bool :=
  let z := zigzag e b
  let q := z >>> k
  if 12 ≤ q then List.replicate 12 true ++ natBits ew e
  else List.replicate q true ++ [false] ++ natBits k (z % 2 ^ k)

/-- The code of an exponent under a table (Table 9.4). -/
def codeBits (ew t b e : Nat) : List Bool :=
  if tblFlag t then (if e = 0 then [false] else true :: riceBits ew (tblK t) e b) else riceBits ew (tblK t) e b

/-- The length of that code (R182). -/
def codeLen (ew t b e : Nat) : Nat :=
  let z := zigzag e b
  let q := z >>> tblK t
  let r := if 12 ≤ q then 12 + ew else q + 1 + tblK t
  if tblFlag t then (if e = 0 then 1 else 1 + r) else r

/-- The mode of exponents: the smallest of those that occur most often, 0 when there is none. -/
def modeOf (es : List Nat) : Nat :=
  (es.foldl (fun t e => tinc e 1 t) ([] : Tbl Nat)).foldl
    (fun (best : Nat × Nat) p => if best.2 < p.2 then p else best) (0, 0) |>.1

/-- The base of a table (Table 9.4). -/
def tblBase (t : Nat) (es : List Nat) : Nat := if tblFlag t then modeOf (es.filter (· != 0)) else modeOf es

/-- The bit count P of a strip under a table. -/
def pBits (fmt t : Nat) (es : List Nat) : Nat :=
  let b := tblBase t es
  16 + 8 * fmtS fmt + (es.map fun e => codeLen (fmtInfo fmt).2.1 t b e).sum

/-- STRIP_ENCODE (R181): the length code and the stored bytes of a strip without poison. -/
def encodeStrip (fmt : Nat) (strip : List Byte) : Nat × List Byte :=
  if allZero strip then (0, [])
  else if fmt = 0 ∨ 5 < fmt then (16, strip)
  else
    let els := elements fmt strip
    let es := els.map (elExp fmt)
    let best := [2, 3, 4, 5, 6, 7].foldl
      (fun (p : Nat × Nat) t => if pBits fmt t es < p.2 then (t, pBits fmt t es) else p) (1, pBits fmt 1 es)
    let n := cdiv best.2 256
    if n < 16 then
      let b := tblBase best.1 es
      (n, leBytes 2 (best.1 * 2 ^ 13 + b * 2 ^ 5)
        ++ fromBits (32 * n - 2) (els.flatMap (elSm fmt) ++ es.flatMap (codeBits (fmtInfo fmt).2.1 best.1 b)))
    else (16, strip)

/-! ### Decoding (R183) -/

/-- A failed check: reason of Table 9.5, strip, and whether it is a check fault. -/
structure DecFault where
  reason : Nat
  strip : Nat
  isCheck : Bool
deriving DecidableEq, Repr

/-- Read up to twelve one-bits: how many, and the rest; none when the bits run out. -/
def takeOnes : Nat → List Bool → Nat → Option (Nat × List Bool)
  | 0, l, n => some (n, l)
  | f + 1, true :: l, n => takeOnes f l (n + 1)
  | _ + 1, false :: l, n => some (n, l)
  | _ + 1, [], _ => none

/-- Read a number of `w` bits. -/
def takeNat (w : Nat) (l : List Bool) : Option (Nat × List Bool) :=
  if l.length < w then none else some (ofBits (l.take w), l.drop w)

/-- Inverse zigzag added to the base. -/
def unzig (b z : Nat) : Int := if z % 2 = 0 then (b : Int) + (z / 2 : Nat) else (b : Int) - ((z + 1) / 2 : Nat)

/-- Read one Rice code: the exponent as a signed integer. -/
def takeRice (ew k b : Nat) (l : List Bool) : Option (Int × List Bool) :=
  match takeOnes 12 l 0 with
  | none => none
  | some (12, r) => (takeNat ew r).map fun p => ((p.1 : Int), p.2)
  | some (q, r) => (takeNat k r).map fun p => (unzig b (q * 2 ^ k + p.1), p.2)

/-- Read the code of one element under a table. -/
def takeCode (ew t b : Nat) (l : List Bool) : Option (Int × List Bool) :=
  if tblFlag t then
    match l with
    | [] => none
    | false :: r => some (0, r)
    | true :: r => takeRice ew (tblK t) b r
  else takeRice ew (tblK t) b l

/-- Read `n` exponents (steps 9 and 10): the exponents in reverse and the rest, or the reason. -/
def takeExps (ew t b : Nat) : Nat → List Bool → List Nat → Except Nat (List Nat × List Bool)
  | 0, l, acc => .ok (acc, l)
  | n + 1, l, acc =>
    match takeCode ew t b l with
    | none => .error 0x14
    | some (e, r) => if e < 0 ∨ (2 ^ ew : Int) ≤ e then .error 0x15 else takeExps ew t b n r (e.toNat :: acc)

/-- The sign-and-mantissa groups of a section. -/
def smGroups (w : Nat) : Nat → List Bool → List (List Bool)
  | 0, _ => []
  | n + 1, l => l.take w :: smGroups w n (l.drop w)

/-- Steps 4 to 12 on a strip: its 512 bytes, or the reason. -/
def decodeStrip (fmt code : Nat) (stored : List Byte) : Except Nat (List Byte) :=
  if code = 0 then .ok (List.replicate 512 0)
  else if 15 < code then .ok (padTo 512 0 stored)
  else if fmt = 0 ∨ 5 < fmt then .error 0x18
  else if code < fmtMin fmt then .error 0x13
  else
    let (sz, ew, w) := fmtInfo fmt
    let h := fld stored 0 2
    let t := h / 2 ^ 13
    let b := bits h 12 5
    if t = 0 then .error 0x10
    else if h % 32 ≠ 0 then .error 0x11
    else if 2 ^ ew ≤ b then .error 0x12
    else
      match takeExps ew t b (fmtN fmt) (toBits ((padTo (32 * code) 0 stored).drop (2 + fmtS fmt))) [] with
      | .error r => .error r
      | .ok (es, rest) =>
        if 256 ≤ rest.length then .error 0x17
        else if rest.any id then .error 0x16
        else
          .ok ((List.zipWith (mkEl fmt) (smGroups w (fmtN fmt) (toBits (slice stored 2 (fmtS fmt)))) es.reverse).flatMap
            (leBytes sz))

/-- Steps 1 and 2 on the BMW. -/
def checkBmw (w : BitVec 96) : Option Nat :=
  if bmwResv w ≠ 0 then some 0x02
  else if 5 < bmwFmt w then some 0x03
  else if 1 < bmwMode w then some 0x04
  else none

/-- Step 3 on a strip. -/
def checkLen (code : Nat) (mask : Byte) : Option Nat :=
  if 17 ≤ code ∧ code ≤ 30 then some 0x01
  else if code = 31 ∧ mask = 0 then some 0x06
  else none

/-- Decode strips `ks` of a block in ascending order, then step 13 under LENCRC (R183). `stored k` are the
stored bytes of strip `k`. -/
def decodeStrips (w : BitVec 96) (masks : List Byte) (stored : List (List Byte)) (ks : List Nat) :
    Except DecFault (List (Nat × List Byte)) :=
  match checkBmw w with
  | some r => .error ⟨r, ks.headD 0, true⟩
  | none =>
    match ks.findSome? fun k => (checkLen (bmwLen w k) (masks.getD k 0)).map fun r => (⟨r, k, true⟩ : DecFault) with
    | some f => .error f
    | none =>
      let out := ks.map fun k => (k, decodeStrip (bmwFmt w) (bmwLen w k) (stored.getD k []))
      match out.findSome? fun p => match p.2 with
          | .error r => some (⟨r, p.1, false⟩ : DecFault)
          | .ok _ => none with
      | some f => .error f
      | none =>
        let res := out.map fun p => (p.1, match p.2 with
          | .ok b => b
          | .error _ => [])
        if bmwMode w = 1 ∧ crc32c (res.flatMap (·.2)) ≠ bmwCrc w then .error ⟨0x05, ks.headD 0, true⟩
        else .ok res

/-- The strips that a read of strip `k` decodes (R184). -/
def stripsFor (w : BitVec 96) (k : Nat) : List Nat := if bmwMode w = 1 then List.range 8 else [k]

/-- The stored bytes of a block cut by its BMW into strips, for stored bytes in one run. -/
def cutStored (w : BitVec 96) (l : List Byte) : List (List Byte) :=
  ((List.range 8).foldl (fun (p : List (List Byte) × List Byte) k =>
    (p.1 ++ [p.2.take (storedLen (bmwLen w k))], p.2.drop (storedLen (bmwLen w k)))) ([], l)).1

/-- Store a strip (R178, R181): length code, stored bytes. `mask` names its poisoned lines. -/
def storeStrip (fmt : Nat) (mask : Byte) (strip : List Byte) : Nat × List Byte :=
  if mask ≠ 0 then (31, strip) else encodeStrip fmt strip

/-- The mask of strip `k` in a block's 64 line flags. -/
def stripMask (poison : BitVec 64) (k : Nat) : Byte := (poison >>> (8 * k)).setWidth 8

/-- A whole block coded: BMW, masks and the stored bytes of each strip. -/
def encodeBlock (fmt : Nat) (crcMode : Bool) (data : List Byte) (poison : BitVec 64) :
    BitVec 96 × List Byte × List (List Byte) :=
  let st := (List.range 8).map fun k => storeStrip fmt (stripMask poison k) (slice data (512 * k) 512)
  (mkBmw (st.map (·.1)) fmt (b2n crcMode) (if crcMode then crc32c data else 0),
   (List.range 8).map (stripMask poison), st.map (·.2))

end Sys2Proof.Machine
end

