-- ==== Sys2Proof/Machine/Exact.lean ====
section
/-! DEFINITION. The exact arithmetic of the matrix engines (chapter 13): input elements (R287), products and sums of special
values (R293, R294), the long-sum format (R300 to R302), and the single rounding (R297 to R299). -/

namespace Sys2Proof.Machine

/-- An accumulator entry (R293): class 0 FINITE, 1 +INF, 2 −INF, 3 NaN; the value of a finite one is `l` × 2^-300. -/
structure Entry where
  cls : Nat := 0
  l : Int := 0
  range : Bool := false
  nanIn : Bool := false
  invalid : Bool := false
  poison : Bool := false
deriving DecidableEq, Repr

/-- An input element: a class, and for a finite one its significand and exponent. -/
structure El where
  cls : Nat := 0
  m : Int := 0
  w : Int := 0
deriving DecidableEq, Repr

/-- A value of an IEEE 754 format of `e` exponent and `m` mantissa bits (R287). -/
def ieeeEl (e m v : Nat) : El :=
  let neg := v.testBit (e + m)
  let x := bits v (e + m - 1) m
  let f := v % 2 ^ m
  let bias : Int := 2 ^ (e - 1) - 1
  let sg (n : Nat) : Int := if neg then -(n : Int) else n
  if x = 2 ^ e - 1 then (if f = 0 then { cls := if neg then 2 else 1 } else { cls := 3 })
  else if x = 0 then { m := sg f, w := 1 - bias - m }
  else { m := sg (2 ^ m + f), w := (x : Int) - bias - m }

/-- An element of an input format (Table 13.1); code 3 is FP32, which only seeds and scores take. -/
def inputEl (fmt v : Nat) : El :=
  match fmt with
  | 1 => ieeeEl 8 7 v
  | 2 => ieeeEl 5 10 v
  | 3 => ieeeEl 8 23 v
  | 4 =>
    if v % 128 = 127 then { cls := 3 }
    else
      let x := bits v 6 3
      let f := v % 8
      let n : Nat := if x = 0 then f else 8 + f
      { m := if v.testBit 7 then -(n : Int) else n, w := (if x = 0 then 1 else (x : Int)) - 10 }
  | 5 => ieeeEl 5 2 v
  | _ => { m := untwos 8 v, w := 0 }

/-- Bytes of an element of an input format. -/
def inputSize (fmt : Nat) : Nat := if fmt = 1 ∨ fmt = 2 then 2 else if fmt = 3 then 4 else 1

/-- The bound of L (R293): 2^307 in units of 2^-300. -/
def lBound : Int := 2 ^ 607

/-- A finite entry, or NaN with RANGE where the exact result leaves the range (Table 13.2). -/
def finiteEntry (l : Int) : Entry :=
  if -lBound ≤ l ∧ l < lBound then { l := l } else { cls := 3, range := true }

/-- The product of two elements (R293, Table 13.2). -/
def product (a b : El) : Entry :=
  if a.cls = 3 ∨ b.cls = 3 then { cls := 3, nanIn := true }
  else if a.cls = 0 ∧ b.cls = 0 then { l := a.m * b.m * 2 ^ (a.w + b.w + 300).toNat }
  else
    let zero (x : El) : Bool := x.cls == 0 && x.m == 0
    let neg (x : El) : Bool := x.cls == 2 || (x.cls == 0 && decide (x.m < 0))
    if zero a || zero b then { cls := 3, invalid := true }
    else { cls := if neg a == neg b then 1 else 2 }

/-- The combination of two entries (R302, Table 13.2). -/
def addEntry (a b : Entry) : Entry :=
  let r : Entry :=
    if a.cls = 3 ∨ b.cls = 3 then { cls := 3 }
    else if a.cls = 0 ∧ b.cls = 0 then finiteEntry (a.l + b.l)
    else if a.cls = 0 then { cls := b.cls }
    else if b.cls = 0 ∨ a.cls = b.cls then { cls := a.cls }
    else { cls := 3, invalid := true }
  { r with
    range := r.range || a.range || b.range
    nanIn := r.nanIn || a.nanIn || b.nanIn
    invalid := r.invalid || a.invalid || b.invalid
    poison := a.poison || b.poison }

/-- An element as an OUT seed (Table 13.3). -/
def seedEntry (x : El) : Entry :=
  match x.cls with
  | 0 => { l := x.m * 2 ^ (x.w + 300).toNat }
  | 3 => { cls := 3, nanIn := true }
  | c => { cls := c }

/-! ### The long-sum format (Table 13.5) -/

/-- The 80 bytes of a long sum. -/
def longBytes (e : Entry) : List Byte :=
  leBytes 76 (twos 608 e.l) ++ leBytes 1 (e.cls + 4 * b2n e.range + 8 * b2n e.nanIn + 16 * b2n e.invalid + 32 * b2n e.poison)
    ++ [0, 1, 0]

/-- A long sum as read, or the reason it is malformed (R301). -/
def readLong (b : List Byte) : Except Nat Entry :=
  let f := fld b 76 1
  let l := untwos 608 (fld b 0 76)
  let c := f % 4
  if fld b 78 2 ≠ 1 then .error 1
  else if fld b 77 1 ≠ 0 ∨ 64 ≤ f then .error 2
  else if c ≠ 0 ∧ l ≠ 0 then .error 3
  else if bit f 2 ∧ c ≠ 3 then .error 4
  else .ok { cls := c, l := l, range := bit f 2, nanIn := bit f 3, invalid := bit f 4, poison := bit f 5 }

/-! ### Rounding (R297, R298) -/

/-- Exponent bits and mantissa bits of an output format (Table 13.4). -/
def outFmt (o : Nat) : Nat × Nat :=
  match o with
  | 0 => (8, 7)
  | 1 => (5, 10)
  | 2 => (8, 23)
  | _ => (11, 52)

/-- Bytes of a rounded output element. -/
def outSize (o : Nat) : Nat := match o with
  | 0 => 2
  | 1 => 2
  | 2 => 4
  | _ => 8

/-- A rounded result with its flags. -/
structure Rounded where
  val : Nat
  inexact : Bool := false
  overflow : Bool := false
  underflow : Bool := false
deriving DecidableEq, Repr

/-- Whether a magnitude of quotient `n` and remainder `r` of 2^d is rounded away from zero: 0 RNE, 1 RTZ, 2 RUP, 3 RDN. -/
def roundUp (mode : Nat) (neg : Bool) (n r d : Nat) : Bool :=
  match mode with
  | 0 => decide (2 ^ d < 2 * r) || (2 * r == 2 ^ d && n % 2 == 1)
  | 1 => false
  | 2 => r != 0 && !neg
  | _ => r != 0 && neg

/-- A magnitude `a` × 2^x rounded to a multiple of 2^q: the quotient, and whether it is inexact. -/
def roundAt (mode : Nat) (neg : Bool) (a : Nat) (x q : Int) : Nat × Bool :=
  if q ≤ x then (a * 2 ^ (x - q).toNat, false)
  else
    let d := (q - x).toNat
    (a / 2 ^ d + b2n (roundUp mode neg (a / 2 ^ d) (a % 2 ^ d) d), a % 2 ^ d != 0)

/-- The rounded value of `l` × 2^(s − 300) (R297, R298). -/
def roundEntry (o mode : Nat) (s : Int) (l : Int) : Rounded :=
  let (e, m) := outFmt o
  let neg := decide (l < 0)
  let sign (v : Nat) : Nat := if neg then v + 2 ^ (e + m) else v
  if l = 0 then { val := if mode = 3 then 2 ^ (e + m) else 0 }
  else
    let a := l.natAbs
    let x := s - 300
    let bias : Int := 2 ^ (e - 1) - 1
    let emin := 1 - bias
    let e0 : Int := (a.log2 : Int) + x
    let q := max (e0 - m) (emin - m)
    let r := roundAt mode neg a x q
    let n := if r.1 = 2 ^ (m + 1) then 2 ^ m else r.1
    let q := if r.1 = 2 ^ (m + 1) then q + 1 else q
    if 2 ^ m ≤ n ∧ bias < q + m then
      let inf := mode = 0 ∨ (mode = 2 ∧ neg = false) ∨ (mode = 3 ∧ neg = true)
      { val := sign ((2 ^ e - 1) * 2 ^ m - if inf then 0 else 1), inexact := true, overflow := true }
    else
      let big := roundAt mode neg a x (e0 - m)
      let tiny := decide (e0 < emin) && !(e0 == emin - 1 && big.1 == 2 ^ (m + 1))
      { val := sign (if n < 2 ^ m then n else (q + m + bias).toNat * 2 ^ m + (n - 2 ^ m)), inexact := r.2, underflow := tiny && r.2 }

/-- An entry as a rounded output element (R298). -/
def deliverEntry (o mode : Nat) (s : Int) (x : Entry) : Rounded :=
  let (e, m) := outFmt o
  match x.cls with
  | 0 => roundEntry o mode s x.l
  | 1 => { val := (2 ^ e - 1) * 2 ^ m }
  | 2 => { val := 2 ^ (e + m) + (2 ^ e - 1) * 2 ^ m }
  | _ => { val := (2 ^ e - 1) * 2 ^ m + 2 ^ (m - 1) }

/-- Byte 14 of a record (Table 14.3) for an entry and its rounding (R299). -/
def entryFlags (x : Entry) (r : Rounded) : Nat :=
  b2n r.inexact + 2 * b2n r.overflow + 4 * b2n r.underflow + 8 * b2n x.invalid + 16 * b2n x.nanIn + 32 * b2n x.poison + 64 * b2n x.range

end Sys2Proof.Machine
end

