-- ==== Sys2Proof/Config.lean ====
section
/-! DEFINITION. What the spec leaves open: free values, each an opaque constant with no body, applied to the
operands it depends on or to the counter `State.free`. -/

namespace Sys2Proof.Config

/-- ML-DSA-65 verification of a digest (R41 step 6, R63 step 5): key, message, signature. -/
opaque mldsaVerify : List Byte → List Byte → List Byte → Bool

/-- ECDSA P-384 verification (R41 step 6, R63 step 5): key, message, signature. -/
opaque ecdsaVerify : List Byte → List Byte → List Byte → Bool

/-- 128 bits of the entropy source (R42). -/
opaque entropy : Nat → BitVec 128

/-- A fuse bit reads back blown after it is programmed (R41 step 9, R47): draw, word, bit. -/
opaque fuseBlows : Nat → Nat → Nat → Bool

/-- Bytes of a tile or block whose content is held outside this unit, or that the spec leaves open. -/
opaque bytes : Nat → Nat → List Byte

/-- A number the spec leaves open, drawn by the counter. -/
opaque number : Nat → Nat

/-- A flag the spec leaves open, drawn by the counter. -/
opaque flag : Nat → Bool

/-- The standard's own reply to a command or request the spec takes from the standard. -/
opaque standardReply : Nat → List Nat → List Nat

/-- The initial refresh-management threshold a stack reports in its mode registers (R211). -/
opaque rfmInitial : Nat → Nat

/-- Metadata lines of the snoop-filter mirror, the Orphan Log and the error log, whose sizes R202 leaves open. -/
opaque metaRest : Nat

end Sys2Proof.Config
end

