-- ==== Sys2Proof/Machine/State.lean ====
section
/-! DEFINITION. The state of one RY-48 unit: every register, queue, table, buffer and store the spec gives
it, block by block in the order of the administrator BAR2 (Table 21.1), the queue of waiting commands, and
what has left the unit. Each field's doc names the rule that gives it; its default is its value at reset. -/

namespace Sys2Proof.Machine

/-- The unit states (Table 0.4; codes of `UNI_STATE.STATE`, Table 5.8). -/
inductive UnitState where
  | off
  | standby
  | starting
  | serving
  | draining
  | held
  | dormouse
  | faulted
deriving DecidableEq, Repr

/-- A Warren message body (Table 12.6). The last four stand for exchanges that the spec describes and for
which its catalogue gives no message (log entry 12). -/
inductive Msg where
  | read (addr : Nat) (stamp : Ns) (ident : Nat) (want : Want)
  | readData (status grant strip form : Nat) (bmw : BitVec 96) (masks stored : List Byte)
  | write (addr : Nat) (stamp : Ns) (ident : Nat) (poison : Bool) (be : BitVec 64) (data : List Byte)
  | writeDone (status : Nat)
  | bisnp (addr : Nat) (data : Bool) (ld : Nat)
  | birsp (addr : Nat) (ans : SnoopAns)
  | chunkGet (stripe chunk offset len : Nat)
  | chunkData (status : Nat) (bytes : List Byte)
  | chunkPut (stripe chunk k m kind : Nat) (bytes : List Byte)
  | chunkAck (status : Nat)
  /-- `sq` is the SQ index, for which the message has no place (log entry 28). -/
  | opFwd (desc : List Byte) (ring sq : Nat)
  | opDone (record : List Byte)
  | lease (kind : Nat) (time : Ns) (ext orphans : Nat)
  | reserve (len : Nat)
  | grant (yieldFlag : Bool) (withdrawn : Nat)
  | epochPrepare (kind code epoch : Nat) (digest : BitVec 128)
  | epochCommit (kind epoch : Nat) (ts : Nat)
  | imagePart (offset total mode : Nat) (bytes : List Byte)
  | imageVerdict (code : Nat)
  | presence (answer : Bool) (st : Nat)
  | time (kind : Nat) (aligned : Bool) (depth : Nat) (t : Ns) (rx : Ns)
  | mbx (box : Nat) (pointer : Bool) (stampWord p0 p1 : Word)
  | mbxAns (status : Nat)
  | root (r : RootRec)
  | extState (ext st : Nat) (unknown : Bool)
  | sealReport (ext : Nat)
  | tileWork (kind tenant tile : Nat)
  /-- The bytes of a message in transit to another unit. -/
  | raw (bytes : List Byte)
deriving DecidableEq, Repr

/-- A Warren message with its header (Table 12.5). -/
structure Envelope where
  dst : Nat
  src : Nat
  tag : Nat
  hops : Nat
  tenant : Nat
  retry : Bool
  msg : Msg
deriving DecidableEq, Repr

/-- What the unit has sent or driven: answers to hosts, messages, interrupts, commands to the board. -/
inductive Out where
  | memData (id ld : Nat) (data : List Byte) (poison : Bool) (grant : Nat)
  | memDone (id ld : Nat)
  | readAbort (rq : Requester) (off : Nat)
  | regRead (rq : Requester) (off : Nat) (val : Word)
  | dmwrSuccess (ld : Nat)
  | dmwrRetry (ld : Nat)
  | dmwrUnsupported (ld : Nat)
  | dmwrAbort (ld : Nat)
  | msix (ld vector : Nat)
  | coreInterrupt (box bit : Nat)
  | mailboxReply (ld code : Nat) (payload : List Nat)
  | fmReply (link code : Nat) (payload : List Nat)
  | doeReply (ld code : Nat) (payload : List Nat)
  | bisnp (ld addr : Nat) (data : Bool)
  | biConflictAck (ld addr : Nat)
  | warren (port : Nat) (e : Envelope)
  | linkHello (port : Nat) (h : Hello)
  | linkCredit (port vc count : Nat)
  | phy (port : Nat) (trains : Bool)
  | flitAck (port ack : Nat) (nak : Bool)
  | flitSent (port seq : Nat) (bytes : List Byte)
  | redfish (code : Nat) (payload : List Nat)
  | dramCommand (pc sid bank kind : Nat)
  | volt (island code : Nat) (on : Bool)
  | latch (bay : Nat) (isOpen : Bool)
  | dreyPower (bay : Nat) (on : Bool)
  | agentReset (kind idx : Nat)
deriving DecidableEq, Repr

/-- A record of an image (Table 4.2): its body is the bytes after the 8-byte record header. -/
structure Record where
  typ : Nat
  version : Nat
  inst : Nat
  scope : Nat
  body : List Byte
deriving DecidableEq, Repr

/-- A Vuique image (R59, R60), with its bytes and its SHA-384 digest (R62). -/
structure Image where
  raw : List Byte
  rollback : Nat
  slot : Nat
  fabric : BitVec 64
  gen : Nat
  parent : List Byte
  records : List Record
  digest : List Byte
deriving DecidableEq, Repr

/-! ### UNI: start-up and self-repair -/

/-- A field repair entry (Table 5.5). -/
structure FieldEntry where
  entry : RepairEntry
  cause : Nat
  cleared : Bool
  time : Ns
deriving DecidableEq, Repr

/-- The UNI block and the start-up state (Tables 1.11, 1.12, 5.8). -/
structure Uni where
  /-- `UNI_PRODUCT.HW_ISSUE`, 8 bits (R18). -/
  hwIssue : Nat := 0
  /-- `UNI_PRODUCT.MEDIA`, 1 bit (R18). -/
  media : Bool := false
  /-- `UNI_PRODUCT.SER_YYWW`, 16 bits (R18). -/
  serYyww : Nat := 0
  /-- `UNI_PRODUCT.SER_SEQ`, 16 bits (R18). -/
  serSeq : Nat := 0
  /-- `UNI_VERSION.SER_SEQ_HI`, 4 bits (R18). -/
  serSeqHi : Nat := 0
  /-- `UNI_VERSION.LIB`, 32 bits (R18). -/
  lib : BitVec 32 := 0
  /-- `UNI_VERSION.FW_MAJOR`, 8 bits (R18). -/
  fwMajor : Nat := 0
  /-- `UNI_VERSION.FW_MINOR`, 8 bits (R18). -/
  fwMinor : Nat := 0
  /-- `UNI_VERSION.FW_PATCH`, 12 bits (R18). -/
  fwPatch : Nat := 0
  /-- `UNI_STATE.STATE`, 4 bits (R97): reset 2, STARTING. -/
  st : UnitState := .starting
  /-- `UNI_STATE.PHASE`, 4 bits (R97): reset 1. -/
  phase : Nat := 1
  /-- `UNI_STATE.FAIL_PHASE`, 8 bits (R97). -/
  failPhase : Nat := 0
  /-- `UNI_START.DURATION`, 32 bits, ms (R97). -/
  durationMs : Nat := 0
  /-- `UNI_START.CAUSE`, 4 bits (R97). -/
  cause : Nat := 0
  /-- `UNI_START.IMAGE`, 4 bits (R97). -/
  imageUsed : Nat := 0
  /-- `UNI_START.NEXT_CODE`, 8 bits (R97). -/
  nextCode : Nat := 0
  /-- `UNI_PHASE_n.TIME`, n = 1-9, 32 bits, ms (R97). -/
  phaseMs : Tbl Nat := []
  /-- `UNI_REPAIR.RETEST`, 1 bit, RWS (R94, R97). -/
  retest : Bool := false
  /-- The start-up interval counter, ns (R80). -/
  interval : Ns := 0
  /-- HOLD was pressed during STARTING (R79). -/
  holdWanted : Bool := false
  /-- The state a HOLD was entered from (R403). -/
  beforeHold : UnitState := .serving
  /-- When a DRAIN_FAULT becomes FAULTED (R415). -/
  drainFaultDue : Option Ns := none
  /-- The code that asked for it (R416, STATE_CHANGE). -/
  drainFaultCause : Nat := 0
  /-- A firmware restart is in progress (R96). -/
  restarting : Bool := false
  /-- Elements out of service (R87, R91). -/
  outOfService : List RepairEntry := []
  /-- Elements found SLOW and kept in service, or spares found SLOW (R87, R95). -/
  slow : List RepairEntry := []
  /-- Physical core of logical Shrew core i, 0-7 (R84, R89). -/
  coreMap : Tbl Nat := []
  /-- Replaced SRAM rows: bank, row, spare row 0-7 (R84). -/
  rowMap : List (Nat × Nat × Nat) := []
  /-- SRAM banks withdrawn, class 6 (R91). -/
  banksOut : List Nat := []
  /-- Times of corrected errors on an SRAM row within 24 h (R88): key 2^13 × bank + row. -/
  rowErrors : Tbl (List Ns) := []
  /-- The reserve level last reported for each class (R90). -/
  levels : Tbl Nat := []
  /-- What a start found, for the phases that wait for a source of time (R395). -/
  waiting : Option StartEnv := none
deriving DecidableEq, Repr

/-! ### FUS: fused protection -/

/-- How a fuse word reads (R38). -/
inductive FuseRead where
  | clean
  | corrected
  | uncorrectable
deriving DecidableEq, Repr

/-- One fuse word: the bits it reads, and its check's verdict (R38). -/
structure FuseWord where
  bits : BitVec 64 := 0
  read : FuseRead := .clean
deriving DecidableEq, Repr

/-- The FUS block (Tables 3.1 and 3.8). -/
structure Fus where
  /-- Fuse words 0-255 of 64 bits (R37); unlisted words are unblown. Reset: fuse. -/
  words : Tbl FuseWord := [(0, ⟨0x49, .clean⟩), (6, ⟨0xBE3E800000, .clean⟩)]
  /-- `FUS_NONCE`, 128 bits (R42). -/
  nonce : BitVec 128 := 0
  /-- Debug bits lifted: 0 = bit 1, 1 = bit 2, 2 = bit 3, 3 = bit 5 (R48, R55). -/
  lifted : BitVec 4 := 0
  /-- The 16 KiB command buffer (R56). -/
  buf : Memory := []
  /-- `FUS_CMD.LEN`, 16 bits (R56). -/
  len : Nat := 0
  /-- `FUS_CMD_STATUS.BUSY` (R43). -/
  busy : Bool := false
  /-- `FUS_CMD_STATUS.STATUS`, 8 bits (R56). -/
  status : Nat := 0
  /-- `FUS_DIGEST`, 32 bits (R55). -/
  digest : BitVec 32 := 0
  /-- The slot of a REVOKE_SLOT waiting for an epoch (R58). -/
  deferred : Option Nat := none
  /-- `FUS_STATE.ECC_FAULT` (R38). -/
  eccFault : Bool := false
deriving DecidableEq, Repr

/-! ### VQ: images and epochs -/

/-- A distributed load in progress (R69). -/
structure Dist where
  mode : Nat
  image : Option Image
  asked : List Nat
  verdicts : Tbl Nat
  deadline : Ns
deriving DecidableEq, Repr

/-- What the coordinator of an epoch holds (Table 15.2). -/
structure Coord where
  epoch : Nat
  digest : BitVec 128
  members : List Nat
  prepared : List Nat
  refused : Tbl Nat
  /-- The decision: COMMIT or ROLLBACK, once recorded (R347). -/
  decision : Option Bool
  ts : Ns
  acked : List Nat
  settled : List Nat
  deadline : Ns
  reversal : Bool
deriving DecidableEq, Repr

/-- The migration registers `VQ_MIG`, `VQ_MIG_GRAN`, `VQ_MIG_STRIPE` (Table 15.7). -/
structure Mig where
  map : Bool := false
  part : Bool := false
  gran : Bool := false
  stripe : Bool := false
  phase : Nat := 0
  hold : Bool := false
  band : Nat := 0
  bands : Nat := 0
  slot : Nat := 0
  reverse : Bool := false
  mark : Nat := 0
  ext : Nat := 0
  granule : Nat := 0
  left : Nat := 0
  code : Nat := 0
  /-- Granules are routed by the predecessor's TIERING records until the update is settled (R359). -/
  routeOld : Bool := false
  /-- This unit has handed over the granules that leave it (R358 step 3). -/
  handed : Bool := false
deriving DecidableEq, Repr

/-- The VQ block (Tables 4.30 and 15.7), the image store (R72) and the epoch state (chapter 15). -/
structure Vq where
  /-- `VQ_STATUS.BUSY` (R73). -/
  busy : Bool := false
  /-- `VQ_STATUS.REFUSED`, RW1C (R74). -/
  refused : Bool := false
  /-- `VQ_STATUS.PHASE`, 4 bits (R73). -/
  phase : Nat := 0
  /-- `VQ_STATUS.CODE`, 8 bits (R73). -/
  code : Nat := 0
  /-- `VQ_LOAD.LEN`, 25 bits (R73). -/
  loadLen : Nat := 0
  /-- `VQ_LOAD.MODE`, 2 bits (R73). -/
  loadMode : Nat := 0
  /-- `VQ_LOAD.DISTRIBUTE` (R73). -/
  loadDist : Bool := false
  /-- `VQ_WIN_PAGE.PAGE`, 4 bits (R73). -/
  page : Nat := 0
  /-- `VQ_DETAIL.RECORD`, 32 bits (R73). -/
  detailRecord : Nat := 0
  /-- `VQ_DETAIL.FIELD`, 16 bits (R73). -/
  detailField : Nat := 0
  /-- `VQ_DETAIL.UNIT`, 10 bits (R73). -/
  detailUnit : Nat := 0
  /-- The 16 MiB load buffer (chapter 4, "Loading and distribution"). -/
  buf : Memory := []
  /-- The image in force, the active STAGED set (R346); `VQ_DIGEST`, `VQ_GEN`, `VQ_IMAGE` show it. -/
  active : Option Image := none
  /-- The shadow set (R350): a prepared image, or the predecessor after a switch. -/
  shadow : Option Image := none
  /-- The image whose LIVE records are in force (R351). -/
  live : Option Image := none
  /-- Doorbell masks held when an update was prepared (R351). -/
  masksBefore : Tbl (BitVec 32) := []
  /-- Image store bank A (R72). -/
  bankA : Option Image := none
  /-- Image store bank B (R72). -/
  bankB : Option Image := none
  /-- The bank marker: the current bank is B (R72). -/
  currentB : Bool := false
  /-- The bank marker: the other bank holds a next image; `VQ_IMAGE.NEXT` (R72). -/
  nextMarked : Bool := false
  /-- `VQ_UNIT.NUMBER`, 10 bits (R73). -/
  number : Nat := 0
  /-- `VQ_UNIT.VALID` (R73). -/
  valid : Bool := false
  /-- A distributed load of this unit (R69). -/
  dist : Option Dist := none
  /-- Source, total and mode of a distributed copy being received (R69). -/
  rx : Option (Nat × Nat × Nat) := none
  /-- The byte ranges of a distributed copy received so far. -/
  rxParts : List (Nat × Nat) := []
  /-- When that copy began to arrive. -/
  rxSince : Ns := 0
  /-- An image that passed validation here and is not stored yet (R76): the distributing unit, its mode, the image. -/
  staged : Option (Nat × Nat × Image) := none
  /-- `VQ_EPOCH.NUMBER`, 48 bits (R365). -/
  epoch : Nat := 0
  /-- `VQ_EPOCH.STATE`, 3 bits (R365). -/
  epochState : Nat := 0
  /-- `VQ_EPOCH.LATE` (R348). -/
  late : Bool := false
  /-- `VQ_EPOCH.COORD`, with the coordinator's record (R347). -/
  coord : Option Coord := none
  /-- `VQ_EPOCH.COORD_UNIT`, 10 bits (R365). -/
  coordUnit : Nat := 0
  /-- The epoch number prepared, and when (R348). -/
  preparedEpoch : Nat := 0
  preparedAt : Ns := 0
  /-- `VQ_EPOCH_INFO.REFUSAL`, 8 bits (R365). -/
  refusal : Nat := 0
  /-- `VQ_EPOCH_INFO.REFUSER`, 10 bits (R365). -/
  refuser : Nat := 0
  /-- The COMMIT received and its switch time Ts, while the switch is due (R346). -/
  switchDue : Option Ns := none
  /-- `VQ_SWITCH`, 64 bits (R365). -/
  switchTs : Ns := 0
  /-- The prepared epoch is a reversal (R362). -/
  reversing : Bool := false
  /-- The epochs this unit has committed or rolled back, with the outcome (R348). -/
  decided : List (Nat × Bool × Ns) := []
  /-- `VQ_GEN_FLOOR`, 64 bits (R365). -/
  genFloor : Nat := 0
  /-- `VQ_MIG`, `VQ_MIG_GRAN`, `VQ_MIG_STRIPE` (R365). -/
  mig : Mig := {}
  /-- A start from phase 5 is due (R71, R93, R345). -/
  restart5 : Bool := false
deriving DecidableEq, Repr

/-! ### MON: monitors and timebase -/

/-- A monitor: latest reading, its extremes since `PEAK_EPOCH` changed (Tables 2.8-2.10). -/
structure Monitor where
  val : BitVec 16 := 0
  valid : Bool := false
  failed : Bool := false
  hi : BitVec 16 := 0
  lo : BitVec 16 := 0
  /-- The extremes restart from the next reading (R33). -/
  restart : Bool := true
deriving DecidableEq, Repr

/-- The MON block (Table 2.7). -/
structure Mon where
  /-- `MON_TS_n`, n = 0-63 (R33). -/
  ts : Tbl Monitor := []
  /-- `MON_VM_n`, n = 0-31 (R33). -/
  vm : Tbl Monitor := []
  /-- `MON_PC_n`, n = 0-255 (R33). -/
  pc : Tbl Monitor := []
  /-- `MON_TIMEBASE`, 64 bits (R27): 0 before loading. -/
  timebase : Ns := 0
  /-- The timebase has been loaded (R27, R80). -/
  loaded : Bool := false
  /-- `MON_TB_STATUS.LOCKED` (R33). -/
  locked : Bool := false
  /-- `MON_TB_STATUS.DISCIPLINED` (R33, R277). -/
  disciplined : Bool := false
  /-- `MON_TB_STATUS.RATE_PPB`, 32 bits two's complement (R33). -/
  ratePpb : Int := 0
  /-- `MON_CTL.PEAK_EPOCH`, 8 bits (R33). -/
  peakEpoch : BitVec 8 := 0
  /-- `MON_ALERT`, bits [31:0], RW1C (R33). -/
  alert : BitVec 32 := 0
  /-- The latched upper half of `MON_TIMEBASE` by requester (R29). -/
  latch : List (Requester × BitVec 32) := []
deriving DecidableEq, Repr

/-! ### PWR: power and heat -/

/-- One island of `PWR_ISL_i` (Table 16.9). -/
structure Isl where
  /-- `VSET`, in mV. -/
  vset : Nat := 800
  target : Nat := 0
  power : Nat := 0
  limiter : Nat := 0
  on : Bool := true
  /-- Since when the engine of the island has had no block dispatched (Table 16.1). -/
  idleSince : Ns := 0
deriving DecidableEq, Repr

/-- The PWR block (Table 16.9). -/
structure Pwr where
  /-- `PWR_STATE.DRAINED` (R375). -/
  drained : Bool := false
  /-- `PWR_STATE.INPUT_A` (R380). -/
  inputA : Bool := true
  /-- `PWR_STATE.INPUT_B` (R380). -/
  inputB : Bool := true
  /-- `PWR_STATE.REFUSE`, 4 bits (R376). -/
  refuse : Nat := 0
  /-- `PWR_STATE.THERM`, 3 bits (R371). -/
  therm : Nat := 0
  /-- `PWR_STATE.POWER_LIMITED` (R381). -/
  limited : Bool := false
  /-- `PWR_CMD.ACTION`, 4 bits (R381). -/
  action : Nat := 0
  /-- `PWR_CMD_STATUS.BUSY` (R381). -/
  busy : Bool := false
  /-- `PWR_CMD_STATUS.STATUS`, 8 bits (R381). -/
  status : Nat := 0
  /-- `PWR_POLICY.AUTO_START`, RWS, reset 1 (R381). -/
  autoStart : Bool := true
  /-- Die power of the last control periods, 0.1 W, newest first (R370: averaged over 10 ms). -/
  dieSamples : List Nat := []
  /-- `PWR_DIE.PEAK`, 16 bits, 0.1 W (R381). -/
  peak : Nat := 0
  /-- `PWR_INPUT`, input A, 16 bits, W (R381). -/
  inA : Nat := 0
  /-- `PWR_INPUT`, input B, 16 bits, W (R381). -/
  inB : Nat := 0
  /-- `PWR_ISL_i`, i = 0-7 (R381). -/
  isl : Tbl Isl := []
  /-- `PWR_STK_s` power, 0.1 W, s = 0-7 (R381). -/
  stkPower : Tbl Nat := []
  /-- `PWR_DREY_b`, power in 0.1 W and ON, b = 0-15 (R381). -/
  drey : Tbl (Nat × Bool) := []
  /-- Since when the reading has stood 1 °C below the level's entry point (R371). -/
  coolSince : Option Ns := none
  /-- Since when a sensor has read 105 °C or more (R371). -/
  tripSince : Option Ns := none
  /-- When a level or stack threshold last held (R372). -/
  heatLast : Ns := 0
  /-- DRAM states dropped for heat (R372). -/
  dropped : Nat := 0
  /-- Host links hold at 32 GT/s, for VI7 below 0.66 V (R101). -/
  linksLow : Bool := false
deriving DecidableEq, Repr

/-! ### HST: host ports -/

/-- One host link, `HST_LINK_l` (Table 6.9). -/
structure Link where
  st : Nat := 0
  width : Nat := 0
  rate : Nat := 0
  ideMem : Bool := false
  ideIo : Bool := false
  skid : Bool := false
  insecure : Bool := false
  switched : Bool := false
  failCause : Nat := 0
  downs : Nat := 0
  /-- A rate change for VI7 took this link from 64 GT/s (R101). -/
  lowered : Bool := false
  /-- Back-Invalidates waiting for a down link, in the order raised: LD, line, data kind (R124). -/
  waiting : List (Nat × Nat × Bool) := []
deriving DecidableEq, Repr

/-- An HDM decoder of an LD (R108). -/
structure Hdm where
  base : Nat := 0
  size : Nat := 0
  ways : Nat := 1
  gran : Nat := 256
  skip : Nat := 0
  bi : Bool := false
  committed : Bool := false
  error : Bool := false
deriving DecidableEq, Repr

/-- An entry of the MSI-X table (R111, the standard). -/
structure Msix where
  addr : Word := 0
  data : BitVec 32 := 0
  masked : Bool := true
deriving DecidableEq, Repr

/-- One LD (Tables 6.5 and 6.9, R105, R106). -/
structure Ld where
  present : Bool := false
  inReset : Bool := false
  wd : Nat := 0
  noExtent : Nat := 0
  /-- Extents accepted: extent ID, as reader (R105). -/
  accepted : List (Nat × Bool) := []
  /-- Extents offered and not yet accepted (R105). -/
  offered : List (Nat × Bool) := []
  /-- Release Capacity sent: extent ID, as reader, deadline (R106). -/
  releasing : List (Nat × Bool × Ns) := []
  /-- The two HDM decoders (R108). -/
  hdm : Tbl Hdm := []
  /-- Message numbers of the four CXL event logs and the dynamic capacity log (R111). -/
  evPolicy : List Nat := [1, 1, 1, 1, 1]
  /-- The MSI-X table, 64 entries (R111). -/
  vecs : Tbl Msix := []
  /-- The MSI-X pending-bit array (R111). -/
  pba : BitVec 64 := 0
  /-- A secured SPDM session stands (R113). -/
  spdm : Bool := false
  /-- Other LD-scoped register state of the standard's component and device pages. -/
  pages : Memory := []
deriving DecidableEq, Repr

/-- A CXL.mem request in service. -/
structure MemReq where
  id : Nat
  ld : Nat
  isWrite : Bool
  tenant : Nat
  addr : Nat
  stamp : Ns
  want : Want
  be : BitVec 64
  data : List Byte
  poison : Bool
  /-- 0 waits for a fill, 1 for a remote unit, 2 for a snoop, 3 held (R423), 4 for a write to the line. -/
  wait : Nat
  /-- The Warren tag of a forwarded request. -/
  tag : Nat
  /-- The attached unit when the request was forwarded here, and its tag; `none` for a local host. -/
  origin : Option (Nat × Nat)
  /-- The response has been sent by the watchdog (R119). -/
  answered : Bool
  /-- The data have been asked for again after a fault (R185 step 2). -/
  again : Bool := false
deriving DecidableEq, Repr

/-- The HST block (Table 6.9) and the requests in service. -/
structure Hst where
  /-- `HST_POLICY.IDE_REQUIRED`, RWL (R125). -/
  ideRequired : Bool := false
  /-- `HST_POLICY.POISON_INJECT`, RWL (R125). -/
  poisonInject : Bool := false
  /-- `HST_LINK_l`, l = 0-15 (R125). -/
  links : Tbl Link := []
  /-- `HST_LDS_i`, i = 0-255, and the LD's own state (R125). -/
  lds : Tbl Ld := []
  /-- CXL.mem requests in service, oldest first. -/
  reqs : List MemReq := []
deriving DecidableEq, Repr

/-! ### MBX: mailboxes -/

/-- A mailbox message: stamp word, then payload (Table 7.2). -/
structure MbxMsg where
  stamp : Word
  p0 : Word
  p1 : Word
deriving DecidableEq, Repr

/-- One host mailbox (R126, Tables 7.8 and 7.9). -/
structure HostBox where
  pointer : Bool := false
  h2f : List MbxMsg := []
  f2h : List MbxMsg := []
  /-- Messages the firmware holds for a full F2H queue (R134). -/
  unsent : List MbxMsg := []
  /-- Requests taken and not yet answered: host epoch, message (R138). -/
  taken : List MbxMsg := []
  epoch : Nat := 0
  /-- The held lower half of `MBX_SEND` (R130). -/
  low : Option (BitVec 32) := none
  /-- `MBX_SEND_PTR` (R130). -/
  ptr : Word := 0
  ovr : Bool := false
  overruns : Nat := 0
  discarded : Nat := 0
  repliesDiscarded : Nat := 0
  /-- `MBX_DB`, bits 1-31 (bit 0 is level-held, R132). -/
  db : BitVec 32 := 0
  /-- `MBX_DB_MASK` (R133). -/
  mask : BitVec 32 := 0
  /-- A send was refused or dropped for fullness (Table 7.4, SPACE). -/
  spaceOwed : Bool := false
deriving DecidableEq, Repr

/-- One internal mailbox (Table 7.9, `MBX_INT_j`). -/
structure IntBox where
  pointer : Bool := false
  inQ : List MbxMsg := []
  outQ : List MbxMsg := []
  epoch : Nat := 0
  full : Nat := 0
  absent : Nat := 0
  db : BitVec 32 := 0
  /-- The tag of the MBX whose answer the sender waits for (R134). -/
  sent : Option Nat := none
deriving DecidableEq, Repr

/-- The MBX block: 256 host mailboxes, 64 internal mailboxes (R126). -/
structure Mbx where
  host : Tbl HostBox := []
  internal : Tbl IntBox := []
  /-- The firmware epoch, 4 bits (R136). -/
  fwEpoch : Nat := 0
  /-- Sender epochs of the engine sequencers E0-E3 (R136). -/
  engEpoch : Tbl Nat := []
deriving DecidableEq, Repr

/-! ### EXT: extents, snoop filter, leases -/

/-- The runtime state of an extent, `EXT_STATE_x` (Table 8.9). -/
structure ExtSt where
  st : Nat := 0
  unknown : Bool := false
  overflow : Bool := false
  withheld : Bool := false
  tenant : Nat := 0
  orphans : Nat := 0
  sealedWr : Nat := 0
deriving DecidableEq, Repr

/-- An entry of the snoop filter (R154). -/
structure SfEntry where
  tenant : Nat
  addr : Nat
  ext : Nat
  excl : Bool
  /-- Holders: attached unit, LD index. -/
  holders : List (Nat × Nat)
  broad : Bool
  created : Ns
deriving DecidableEq, Repr

/-- Why a Back-Invalidate runs (Table 8.4, R150, R155, R171). -/
inductive SnoopCause where
  | host (id : Nat)
  | engine (tenant addr : Nat)
  | sealing (ext : Nat)
  | evict
  | move
deriving DecidableEq, Repr

/-- A Back-Invalidate flow that waits for its holders (R156, R157). -/
structure Snoop where
  tenant : Nat
  addr : Nat
  data : Bool
  waiting : List (Nat × Nat)
  cause : SnoopCause
deriving DecidableEq, Repr

/-- An Orphan Log entry (Table 8.7). -/
structure Orphan where
  addr : Nat
  ext : Nat
  tenant : Nat
  ld : Nat
  unit : Nat
  acquired : Ns
  reclaimed : Ns
deriving DecidableEq, Repr

/-- The lease of a tenant, as this unit holds it, and the home unit's record of it (R161-R166, R172). -/
structure Lease where
  /-- The local expiry E; 0 with `granted` false when none has been granted. -/
  expiry : Ns := 0
  granted : Bool := false
  /-- `HST_LEASE.STATE`, 2 bits (R162). -/
  st : Nat := 0
  /-- This unit owes a reclaim it has heard of, or has carried one out (R165, R172). -/
  owed : Bool := false
  /-- Home: the expiry E of the lease. -/
  homeE : Ns := 0
  homeRunning : Bool := false
  /-- Home: the end of the 1 ms merging window (R161). -/
  window : Option Ns := none
  /-- Home: a reclaim is running, with the units that have not reported (R166). -/
  reclaiming : Bool := false
  awaiting : List Nat := []
  /-- Home: orphans by extent, and seals abandoned. -/
  orphans : Tbl Nat := []
  abandoned : List Nat := []
  /-- Home: renewals that start the next lease (R172). -/
  late : List Ns := []
  /-- Home: units that a reclaim has not reached (R165), and its time E + g. -/
  undelivered : List Nat := []
  reclaimAt : Ns := 0
deriving DecidableEq, Repr

/-- A Back-Invalidate that the attached unit has passed to a host for a serving unit (R274). -/
structure Passed where
  src : Nat
  tag : Nat
  tenant : Nat
  addr : Nat
  data : Bool
  ld : Nat
deriving DecidableEq, Repr

/-- A seal in progress on this serving unit (R150). -/
structure SealRun where
  ext : Nat
  tenant : Nat
  point : Ns
  /-- This unit's own part, steps 2 to 6, is done. -/
  done : Bool
  ringUnit : Nat
  ring : Nat
  sqIndex : Nat
  coordinator : Bool
  /-- The CRCs of the tiles done so far, by tile of the extent (R150 step 5). -/
  sums : Tbl (BitVec 32) := []
deriving DecidableEq, Repr

/-- The EXT block (Table 8.9), the snoop filter and the leases. -/
structure Ext where
  exts : Tbl ExtSt := []
  /-- The snoop filter, up to 2,097,152 entries (R154). -/
  sf : List SfEntry := []
  snoops : List Snoop := []
  /-- `EXT_SF.VICTIMS`, 32 bits (R155). -/
  victims : Nat := 0
  /-- The Orphan Log by entry position, modulo 2^21 (R168). -/
  olog : Tbl Orphan := []
  /-- `EXT_OLOG_HEAD`, 21 bits. -/
  head : Nat := 0
  /-- `EXT_OLOG_TAIL`, 21 bits. -/
  tail : Nat := 0
  /-- `EXT_OLOG_LOST`, 32 bits (R169). -/
  lost : Nat := 0
  /-- `EXT_OLOG_PAGE.PAGE`, 6 bits. -/
  page : Nat := 0
  /-- `EXT_CMD.EXTENT`, 16 bits. -/
  cmdExt : Nat := 0
  /-- `EXT_CMD.ACTION`, 4 bits. -/
  cmdAction : Nat := 0
  /-- `EXT_CMD_STATUS.BUSY`. -/
  busy : Bool := false
  /-- `EXT_CMD_STATUS.STATUS`, 8 bits. -/
  status : Nat := 0
  /-- Leases by tenant (R161). -/
  leases : Tbl Lease := []
  seals : List SealRun := []
  /-- Seal points and manifests of the extents sealed here: extent, CRC-32C by tile (R151). -/
  manifests : Tbl (Tbl (BitVec 32)) := []
  /-- BIRsps held for earlier writes of the LD to the line: LD, tenant, line, answer, stamp (R159). -/
  heldRsp : List (Nat × Nat × Nat × SnoopAns × Ns) := []
  /-- BIConflicts waiting for the crossing write (Table 8.5). -/
  conflicts : List (Nat × Nat × Nat) := []
  /-- Back-Invalidates passed to this unit's hosts for a serving unit (R274). -/
  passed : List Passed := []
  /-- The EXTENT and TIERING records of extents that are RELEASING, as they were for their old owner (R171). -/
  leaving : List Record := []
  /-- Orphaned lines whose tile is not in DRAM yet: tenant, line; poisoned when it lands (R166). -/
  owedPoison : List (Nat × Nat) := []
deriving DecidableEq, Repr

/-! ### CDC: codec and staging -/

/-- One strip of a staging entry (R186). -/
structure StgStrip where
  present : Bool := false
  dirty : Bool := false
  lastWrite : Ns := 0
  /-- Stream code that the write-back is encoded on (Table 9.6). -/
  stream : Nat := 0x20
  /-- A write-back of a snapshot is in progress (R187, R190). -/
  writing : Bool := false
deriving DecidableEq, Repr

/-- One entry of the strip staging buffer (R186): one block, its 4,096 bytes, line poison flags. -/
structure StgEntry where
  tenant : Nat
  block : Nat
  strips : List StgStrip
  data : List Byte
  poison : BitVec 64
  lastUse : Ns
deriving DecidableEq, Repr

/-- The CDC block (Table 9.9) and the strip staging buffer. -/
structure Cdc where
  /-- Physical engine of logical engine i (R84, R89): `CDC_ENG_i`. -/
  engMap : Tbl Nat := []
  codeFaults : Tbl Nat := []
  checkFaults : Tbl Nat := []
  /-- `CDC_DEC_i`, 64 bits. -/
  dec : Tbl Nat := []
  /-- `CDC_ENC_i`, 64 bits. -/
  enc : Tbl Nat := []
  /-- `CDC_UNITS_IN`, 64 bits. -/
  unitsIn : Nat := 0
  /-- `CDC_UNITS_OUT`, 64 bits. -/
  unitsOut : Nat := 0
  /-- The strip staging buffer, at most 4,096 entries (R186). -/
  stg : List StgEntry := []
  /-- `CDC_STG.WRITEBACKS`, 32 bits. -/
  writebacks : Nat := 0
  /-- `CDC_FAULT_ADDR`, 64 bits. -/
  faultAddr : Nat := 0
  /-- `CDC_FAULT_INFO.VALID`, RW1C. -/
  faultValid : Bool := false
  faultStrip : Nat := 0
  faultCheck : Bool := false
  faultReason : Nat := 0
  faultOutcome : Nat := 0
  faultTenant : Nat := 0
deriving DecidableEq, Repr

/-! ### DRT: the DRAM tier -/

/-- A block record: the BMW and the poison masks of strips 0-7 (R202). -/
structure BlockRec where
  bmw : BitVec 96 := 0
  masks : List Byte := [0, 0, 0, 0, 0, 0, 0, 0]
deriving DecidableEq, Repr

/-- A way of the cache (Table 10.2), with its operations in flight and its pin (R206, R331). -/
structure Way where
  key : Nat := 0
  valid : Bool := false
  dirty : Bool := false
  ref : Bool := false
  busy : Nat := 0
  pinned : Bool := false
  /-- The blocks of a fill that have landed (R14). -/
  landed : List Nat := []
  filling : Bool := false
deriving DecidableEq, Repr

/-- An admission unit (R207). -/
structure AUnit where
  uid : Nat
  q : Nat
  addr : Nat
  len : Nat
  isWrite : Bool
  data : List Byte
  entered : Ns
  pc : Nat
  sid : Nat
  bank : Nat
  row : Nat
  column : Nat
deriving DecidableEq, Repr

/-- A physical SID, `DRT_SID_s` (Table 10.6). -/
structure Sid where
  st : Nat := 0
  /-- Corrected symbols with their times; those of the last 24 h count. -/
  ce : List (Ns × Nat) := []
  ue : Nat := 0
deriving DecidableEq, Repr

/-- A stack: `DRT_STK_s`, `PWR_STK_s` temperature. -/
structure Stk where
  forced : Nat := 0
  rfm : Nat := 0
  temp : BitVec 16 := 0
deriving DecidableEq, Repr

/-- A retirement in progress (R219). -/
structure Retire where
  lsid : Nat
  phys : Nat
  spare : Option Nat
deriving DecidableEq, Repr

/-- The DRT block (Table 10.6) and the tier's contents. -/
structure Drt where
  /-- `DRT_STATE.RATE`: 0 A, 1 B, 2 C. -/
  rate : Nat := 0
  switching : Bool := false
  stack : Nat := 0
  noCache : Bool := false
  nextRate : Nat := 0
  /-- `DRT_MIG.MARK`, 40 bits. -/
  mark : Nat := 0
  /-- `DRT_MIG.LSID`, 6 bits. -/
  lsid : Nat := 0
  /-- `DRT_MIG.ACTIVE`. -/
  active : Bool := false
  /-- The number L of logical SIDs in service; `DRT_CFG.L`. -/
  logical : Nat := 0
  /-- `DRT_SIDMAP_ℓ.PHYS`. -/
  sidmap : Tbl Nat := []
  sids : Tbl Sid := []
  stks : Tbl Stk := []
  /-- `DRT_REQ_q.MAX_WAIT`, 32 bits. -/
  maxWait : Tbl Nat := []
  /-- `DRT_FRZ_ADDR`, 64 bits. -/
  frzAddr : Nat := 0
  frzPc : Nat := 0
  frzBank : Nat := 0
  frzRow : Nat := 0
  frzColumn : Nat := 0
  frzStack : Nat := 0
  /-- `DRT_FRZ_INFO.VALID`, RW1C. -/
  frzValid : Bool := false
  frzSynd : BitVec 32 := 0
  /-- Tier controllers halted by FREEZE, 0-63; controller c serves PCs 4c to 4c + 3 (R218). -/
  frozen : List Nat := []
  /-- Metadata lines written during a freeze, whose first copy is stale (R218). -/
  staleMeta : List Nat := []
  /-- The contents of the tier by tier address: stored bytes of strips (R174). -/
  tier : Memory := []
  /-- Block records by tier block number (R202). -/
  blocks : Tbl BlockRec := []
  /-- Cache ways by 16 × set + way (R205). -/
  ways : Tbl Way := []
  /-- Pinned-pool slots: slot to extent and granule (R203). -/
  pinned : Tbl (Nat × Nat) := []
  /-- Volatile-pool slots: slot to extent and granule (R203). -/
  volatile : Tbl (Nat × Nat) := []
  /-- Pinned-pool tiles that differ from the Hoard: tenant, tile (R233). -/
  dirtyPinned : List (Nat × Nat) := []
  /-- Tiles of pinned granules whose fill from the Hoard has not landed: tenant, tile (R229). -/
  unfilled : List (Nat × Nat) := []
  /-- The blocks of such a tile that have landed: tenant, tile, block (R14). -/
  landedPinned : List (Nat × Nat × Nat) := []
  /-- Units waiting in the requester queues, in order made (R207). -/
  queue : List AUnit := []
  /-- Units admitted and unfinished, in order of admission (R207). -/
  admitted : List AUnit := []
  /-- Round-robin pointer of each PC, 0-255 (R208). -/
  pointer : Tbl Nat := []
  /-- Migration credit of each stack, 10^-3 B, and when it was last brought up to date (R208). -/
  credit : Tbl Int := []
  creditAt : Tbl Ns := []
  /-- Refresh debt of each bank: key 64 × PC + 16 × SID + bank (R212). -/
  debt : Tbl Nat := []
  /-- Activations since the last management command of each bank (R211). -/
  acts : Tbl Nat := []
  /-- Lines recorded uncorrectable, by tier address (R218). -/
  badLines : List Nat := []
  retire : Option Retire := none
  /-- SIDs waiting to retire, ascending (R219). -/
  retireQueue : List Nat := []
  /-- The map is shrinking under R220. -/
  shrinking : Bool := false
deriving DecidableEq, Repr

/-! ### HRD: the Hoard -/

/-- A chunk on a Drey: its place and its plaintext (R226, R227). -/
structure Chunk where
  stripe : Nat
  idx : Nat
  k : Nat
  m : Nat
  kind : Nat
  crc : BitVec 32
  bytes : List Byte
  die : Nat
  block : Nat
  page : Nat
  damaged : Bool
deriving DecidableEq, Repr

/-- A flash erase block in use (R236, R241). -/
structure FlashBlock where
  die : Nat
  block : Nat
  erases : Nat
  /-- Weighted age, 10^-6 h. -/
  age : Nat
  /-- Pages programmed since the last erase. -/
  written : Nat
deriving DecidableEq, Repr

/-- A lost or damaged chunk (R250), with the bay it is rebuilt onto where it is rebuilt in place. -/
structure LostChunk where
  stripe : Nat
  idx : Nat
  k : Nat
  m : Nat
  kind : Nat
  crc : BitVec 32
  /-- The holding unit that lost it, and the serial of the Drey it was on. -/
  unit : Nat
  serial : BitVec 128
  /-- The die it was on, and the bay it is rebuilt onto in place, if it is. -/
  die : Nat
  bay : Option Nat
deriving DecidableEq, Repr

/-- Bytes of a chunk that a read has gathered (R239): a whole chunk, or the part one tile needs. -/
structure Gathered where
  stripe : Nat
  chunk : Nat
  tenant : Nat
  tile : Nat
  full : Bool
  rebuilt : Bool
  bytes : List Byte
deriving DecidableEq, Repr

/-- A bay, `HRD_BAY_b` (Table 11.8), and the Drey in it. -/
structure Bay where
  st : Nat := 0
  cls : Nat := 0
  reason : Nat := 0
  diesOk : Nat := 0
  wear : Nat := 0
  temp : BitVec 16 := 0
  adoptPanel : Option Ns := none
  adoptAdmin : Option Ns := none
  drey : Option DreyId := none
  chunks : List Chunk := []
  blocks : List FlashBlock := []
  /-- The step of R247 a removal of this bay stands at, 0 when none, and when it was entered. -/
  removal : Nat := 0
  removalAt : Ns := 0
  /-- The bay state a removal or an evacuation started from. -/
  before : Nat := 0
  forcedOut : Bool := false
  latchOpen : Bool := false
  /-- Chunks are being rebuilt onto this Drey (R247 code 4). -/
  rebuilding : Bool := false
  /-- When a rebuild of the chunks of the Drey that left starts (R250). -/
  rebuildDue : Option Ns := none
  /-- Chunks lost with the Drey that left (R250). -/
  lostChunks : List LostChunk := []
  /-- Serial of the Drey that left. -/
  lastSerial : BitVec 128 := 0
  /-- A removal was cut short by a turn to LOCKED (R411). -/
  cut : Bool := false
  wear80 : Bool := false
  wear95 : Bool := false
  /-- Erases of each die since its mean erase count was last brought up to date (Table 17.5). -/
  erased : Tbl Nat := []
deriving DecidableEq, Repr

/-- An entry of the list of known Dreys (R246). -/
structure Known where
  serial : BitVec 128
  membership : Nat
  lastSeen : Ns
deriving DecidableEq, Repr

/-- A tile packed in a stripe. -/
structure Packed where
  tenant : Nat
  tile : Nat
  offset : Nat
  len : Nat
deriving DecidableEq, Repr

/-- A stripe this unit writes (R227, R234): 0 open, 1 committing, 2 committed. -/
structure Stripe where
  code : Nat
  k : Nat
  m : Nat
  st : Nat
  data : List Byte
  tiles : List Packed
  holders : List Nat
  acked : List Nat
  kind : Nat
  started : Ns
deriving DecidableEq, Repr

/-- A tile directory entry (R227). -/
structure DirEntry where
  tenant : Nat
  tile : Nat
  stripe : Nat
  offset : Nat
  len : Nat
  zero : Bool
deriving DecidableEq, Repr

/-- A chunk request that is out (R238, R239, R250). -/
structure ChunkReq where
  tag : Nat
  stripe : Nat
  chunk : Nat
  offset : Nat
  len : Nat
  tenant : Nat
  tile : Nat
  /-- 0 a fill's own chunk, 1 a chunk gathered to rebuild. -/
  rebuild : Bool
  sent : Ns
deriving DecidableEq, Repr

/-- The HRD block (Table 11.8), the Dreys and the directories. -/
structure Hrd where
  bays : Tbl Bay := []
  /-- The list of known Dreys, 64 entries, in the lifetime store (R246). -/
  known : List Known := []
  /-- Chunks awaiting rebuild here (R250). -/
  rebuild : List LostChunk := []
  /-- Chunks of other holders that were answered LOST: stripe, index (R239). -/
  lost : List (Nat × Nat) := []
  /-- The stripe codes in use with fewer than k + m units SERVING; `HRD_STATUS.BELOW_KM` while there is one (R253). -/
  belowCodes : List Nat := []
  /-- `HRD_SEQ.SEQ`, 54 bits: last committed sequence of this writer. -/
  seq : Nat := 0
  /-- The sequence of the next stripe opened. -/
  nextSeq : Nat := 1
  /-- Stripes written here, by stripe ID. -/
  stripes : Tbl Stripe := []
  /-- The tile directory (R227). -/
  dir : List DirEntry := []
  /-- Bytes gathered for fills and rebuilds (R239). -/
  gathered : List Gathered := []
  /-- Packed records that failed their check: tenant, tile, chunk, reason (R442). -/
  suspect : List (Nat × Nat × Nat × Nat) := []
  /-- Tiles whose stripe has been asked for its other chunks (R239): tenant, tile. -/
  asked : List (Nat × Nat) := []
  /-- Directory pages changed since the last checkpoint: tenant, page of 1,024 tiles (R228). -/
  dirtyPages : List (Nat × Nat) := []
  /-- The stripes of the checkpoint in progress, and the last sequence it covers (R228). -/
  checkpoint : Option (List Nat × Nat) := none
  /-- Granules taken over from another unit whose directory entries that unit's stripes hold (R229): extent, granule. -/
  foreign : List (Nat × Nat) := []
  /-- Tiles to be packed again once they stand in the tier (R235, R360): tenant, tile. -/
  repack : List (Nat × Nat) := []
  gets : List ChunkReq := []
  /-- The newest root record of each writer (R228). -/
  roots : Tbl RootRec := []
  /-- The placement counter x (R231). -/
  place : Nat := 0
  /-- The first write of each tile since its last commit: tenant, tile, time (R233). -/
  firstWrite : List (Nat × Nat × Ns) := []
  /-- Tiles whose copy in the Hoard is unreadable: tenant, tile (R239, R442). -/
  unreadable : List (Nat × Nat) := []
  /-- `HRD_CMD.BAY`, 4 bits. -/
  cmdBay : Nat := 0
  /-- `HRD_CMD.ACTION`, 4 bits. -/
  cmdAction : Nat := 0
  busy : Bool := false
  status : Nat := 0
  /-- `HRD_RETAIN.SCRUB_DAYS`: the time each chunk was last scrubbed, by bay. -/
  scrubbed : List (Nat × Nat × Nat × Ns) := []
  /-- The last checkpoint (R228). -/
  checkpointAt : Ns := 0
deriving DecidableEq, Repr

/-! ### WRN: the Warren -/

/-- A bulk slot of a port: 0 free, 1 claimed for sending, 2 landing (R278). -/
structure Slot where
  use : Nat := 0
  tag : Nat := 0
  len : Nat := 0
  granted : Bool := false
deriving DecidableEq, Repr

/-- A flit that waits for its acknowledgement (R264): kind, VC, sequence, `FMO` and the bytes of messages in its body;
on the last flit of a message, the message. -/
structure TxFlit where
  kind : Nat
  vc : Nat
  seq : Nat
  fmo : Nat
  body : List Byte
  env : Option Envelope
deriving DecidableEq, Repr

/-- A Warren port: `WRN_PORT_n`, `WRN_PERR_n` (Table 12.9) and its link state. -/
structure Port where
  st : Nat := 1
  lanes : Nat := 0
  laneFail : BitVec 4 := 0
  peerUnit : Nat := 0
  peerPort : Nat := 0
  replays : Nat := 0
  drops : Nat := 0
  disabled : Bool := false
  fecCorr : Nat := 0
  fecUncorr : Nat := 0
  crcFail : Nat := 0
  /-- The next sequence expected; none before the first flit in order (R263). -/
  rxSeq : Nat := 0
  rxAny : Bool := false
  nakSent : Bool := false
  txSeq : Nat := 0
  /-- Unacknowledged flits, oldest first (R264). -/
  replay : List TxFlit := []
  /-- When an `ACK` last made progress, or the oldest of these flits was first sent (R264). -/
  ackAt : Ns := 0
  /-- Fruitless replays and when the first of them was (R264). -/
  fruitless : Nat := 0
  fruitlessAt : Ns := 0
  /-- Bytes of the message being received on each VC (R262). -/
  stream : Tbl (List Byte) := []
  /-- VCs whose next message starts at the next FMO (R262). -/
  skip : List Nat := []
  /-- Messages delivered by this port, oldest first: VC or 6 for a link message, bytes. -/
  delivered : List (Nat × List Byte) := []
  /-- Credits held for sending on VCs 0, 1, 3, 4, 5 (R266). -/
  credits : Tbl Nat := []
  slots : Tbl Slot := []
  /-- Queued RESERVEs of the peer: tag, length (R278). -/
  reserveQ : List (Nat × Nat) := []
  /-- RESERVE of the peer held by the lower-numbered unit (R279). -/
  heldReserve : List (Nat × Nat) := []
  /-- Times of protocol drops within 1 s (R270). -/
  dropTimes : List Ns := []
  /-- The `HELLO` of the peer (R282). -/
  hello : Option Hello := none
  upSince : Option Ns := none
deriving DecidableEq, Repr

/-- A request of this unit that has no response yet (R273). -/
structure Outst where
  tag : Nat
  env : Envelope
  sentAt : Ns
  tries : Nat
deriving DecidableEq, Repr

/-- A request of a peer, in progress or answered (R273). -/
structure Dup where
  src : Nat
  tag : Nat
  answered : Option (Ns × Msg)
deriving DecidableEq, Repr

/-- A message that waits to leave by a port: when it arrived, and the tag of its RESERVE once one is out. -/
structure Waiting where
  port : Nat
  arrived : Ns
  rtag : Option Nat
  env : Envelope
deriving DecidableEq, Repr

/-- The WRN block (Table 12.9). -/
structure Wrn where
  aligned : Bool := false
  parent : Nat := 0
  parentPort : Nat := 0
  hasParent : Bool := false
  depth : Nat := 0
  /-- `WRN_TIME.OFFSET`, 2^-8 ns. -/
  offset : Int := 0
  /-- `WRN_TIME.DELAY`, 2^-8 ns. -/
  delay : Nat := 0
  /-- Last SYNC of the parent: its t and its arrival (R276). -/
  syncT : Ns := 0
  syncRx : Ns := 0
  /-- When the last DELAY_REQ left (R276). -/
  reqTx : Ns := 0
  /-- When the last SYNCs left (R276). -/
  syncTx : Ns := 0
  /-- Since when the offset has stayed within 2 ns (R276). -/
  within : Option Ns := none
  cmdPort : Nat := 0
  cmdAction : Nat := 0
  busy : Bool := false
  status : Nat := 0
  /-- `WRN_XFER`. -/
  resends : Nat := 0
  yields : Nat := 0
  lostWrites : Nat := 0
  ports : Tbl Port := []
  /-- When each peer was last heard from (R272). -/
  heard : Tbl Ns := []
  /-- The state each peer last answered. -/
  peerState : Tbl Nat := []
  unreachable : List Nat := []
  /-- Destinations on their alternate port (R271). -/
  alt : List Nat := []
  reqs : List Outst := []
  dups : List Dup := []
  nextTag : Nat := 1
  /-- Messages that wait to leave by a port (R272, R278). -/
  transit : List Waiting := []
  split : Bool := false
deriving DecidableEq, Repr

/-! ### ENG: matrix engines -/

/-- A coded operand tile held in operand SRAM (R292). -/
structure SramTile where
  tenant : Nat
  tile : Nat
  units : Nat
  lastUse : Ns
deriving DecidableEq, Repr

/-- An engine: `ENG_*_e` (Table 13.7). -/
structure Engine where
  st : Nat := 0
  blocks : Nat := 0
  periods : Nat := 0
  starved : Nat := 0
  residue : Nat := 0
  katFail : Nat := 0
  malformed : Nat := 0
  lastReason : Nat := 0
  nanOut : Nat := 0
  ovfOut : Nat := 0
  sram : List SramTile := []
  /-- The output block being worked: ring unit, ring, SQ index, block (R324). -/
  block : Option (Nat × Nat × Nat × Nat) := none
  /-- Columns and decoders to be replaced when the repair completes (R88). -/
  failing : List RepairEntry := []
  cause : Nat := 0
deriving DecidableEq, Repr

/-- The ENG block. -/
structure Eng where
  engines : Tbl Engine := []
  /-- `ENG_KAT.RUN` waiting for an idle point. -/
  katWanted : BitVec 4 := 0
  /-- `ENG_KAT.PASS`. -/
  katPass : BitVec 4 := 0
deriving DecidableEq, Repr

/-! ### OPQ: rings and operators -/

/-- A ring pair (Tables 14.1 and 14.10). -/
structure Ring where
  sqBase : Nat := 0
  cqBase : Nat := 0
  sqLog : Nat := 0
  cqLog : Nat := 0
  vector : Nat := 0
  enable : Bool := false
  error : Nat := 0
  ld : Nat := 0
  sqHead : Nat := 0
  cqTail : Nat := 0
  tail : Nat := 0
  head : Nat := 0
  /-- Records owed: operators taken and not sealed (R313). -/
  owed : Nat := 0
  /-- Records held for an extent that is not ACTIVE, with their IRQ flag, in sealing order (R315). -/
  held : List (List Byte × Bool) := []
  dropped : Nat := 0
  /-- The tenant that holds the ring, while its context is in use. -/
  tenant : Nat := 0
  /-- Descriptors marked by an ABORT before they were taken: SQ index (R339). -/
  marks : List Nat := []
  /-- The ring has passed to another tenant, and its context returns to zero once `STOPPED` reads 1 (R352). -/
  leaving : Bool := false
  /-- Doorbell writes whose descriptors are not all taken: `TAIL` and ingress stamp (R149, R314). -/
  stamps : List (Nat × Ns) := []
deriving DecidableEq, Repr

/-- An entry of a group table or of a source list, as the operator read it when it started (R332 to R335). -/
structure Group where
  m : Nat := 0
  a : Nat := 0
  b : Nat := 0
  c : Nat := 0
deriving DecidableEq, Repr

/-- An operator that is taken here or runs here (R322). -/
structure Op where
  ringUnit : Nat
  ring : Nat
  sqIndex : Nat
  tenant : Nat
  desc : List Byte
  execUnit : Nat
  /-- The tag of the OP_FWD it came or went by. -/
  tag : Nat
  started : Option Ns
  taken : Ns
  /-- The gate has been reached: 0 no, 1 completed, 2 aborted, 3 failed or refused. -/
  gate : Nat
  cause : Nat
  progress : Nat
  /-- Output blocks dispatched (R324). -/
  dispatched : Nat
  irq : Bool
  fence : Bool
  /-- The ingress stamp of the doorbell that covers the descriptor (R149); none for a forwarded operator. -/
  stamp : Option Ns := none
  /-- Bytes 11 and 14 of the record so far, and result 1 (Table 14.3). -/
  flags11 : Nat := 0
  flags14 : Nat := 0
  r1 : Nat := 0
  /-- What the operator has accumulated: a CRC, bytes written or tiles counted (R331, R336, R337). -/
  acc : Nat := 0
  /-- Its lists have been read and its operands checked (R325). -/
  checked : Bool := false
  groups : List Group := []
  /-- Tags of its writes to other units that are not done (R338). -/
  writes : List Nat := []
deriving DecidableEq, Repr

/-- A line that an agent of this unit reads from the unit that serves it: the tag of its `READ`, whether it was asked for
again (R185 step 2), and its data and poison flag once they have come. -/
structure AgentLine where
  tenant : Nat
  line : Nat
  tag : Nat
  again : Bool := false
  data : Option (List Byte × Bool) := none
deriving DecidableEq, Repr

/-- The OPQ block. -/
structure Opq where
  rings : Tbl Ring := []
  /-- Operators of this unit's rings that are taken and run here, and operators forwarded to it. -/
  ops : List Op := []
  /-- The forward table (R322). -/
  fwd : List Op := []
  /-- OP_FWDs that cannot start yet (R322). -/
  intake : List Op := []
  /-- Doorbell updates in the intake: ring (R314). -/
  dbIntake : List Nat := []
  retired : Nat := 0
  abHost : Nat := 0
  abLease : Nat := 0
  abFw : Nat := 0
  abTimeout : Nat := 0
  refused : Nat := 0
  refReason : Nat := 0
  refTenant : Nat := 0
  failed : Nat := 0
  failReason : Nat := 0
  /-- The round-robin pointer over rings (R320). -/
  pointer : Nat := 0
  /-- Records that wait for the end of a firmware restart (R340). -/
  waiting : List (Nat × List Byte × Bool) := []
  /-- Lines of other units that this unit's agents have asked for with `READ` (Table 1.6, R329). -/
  lines : List AgentLine := []
deriving DecidableEq, Repr

/-! ### LIF: calendar and lifetime store -/

/-- A Drey history event (R394). -/
structure DreyEvent where
  time : Ns
  bay : Nat
  code : Nat
  serial : BitVec 128
deriving DecidableEq, Repr

/-- The LIF block (Table 17.6) and the lifetime store (Table 17.2). -/
structure Lif where
  /-- `LIF_CAL`, 64 bits, TAI ns (R382). -/
  cal : Ns := 0
  calValid : Bool := false
  /-- When the calendar was last stepped to the timebase; `DISCIPLINED` stands for 2 s after it. -/
  steppedAt : Option Ns := none
  /-- The coin-cell tray is withdrawn (R383, R430). -/
  coinOut : Bool := false
  ptpLock : Bool := false
  ptpFar : Bool := false
  coinLow : Bool := false
  taiUtc : Nat := 0
  /-- `LIF_CAL_STATUS.LAST_STEP`, µs. -/
  lastStep : Int := 0
  /-- `LIF_CAL_TRIM`, 10^-12. -/
  trim : Int := 0
  action : Nat := 0
  arg : Word := 0
  busy : Bool := false
  status : Nat := 0
  hours : Nat := 0
  serving : Nat := 0
  coldStarts : Nat := 0
  fwRestarts : Nat := 0
  dormice : Nat := 0
  trips : Nat := 0
  reached : Bool := false
  lost : Bool := false
  oneCopy : Nat := 0
  /-- `LIF_HIST_SEL.QTY`, `RING`. -/
  qty : Nat := 0
  ring : Nat := 0
  /-- Ring histories, newest first, by 64 × ring + quantity: the sample or none (R389). -/
  hist : Tbl (List (Option Nat)) := []
  /-- Newest sample of each history ring, calendar minutes since 2020-01-01. -/
  newest : Tbl Nat := []
  /-- Time-at-temperature bins by 32 × sensor + bin (R389). -/
  bins : Tbl Nat := []
  /-- The field repair map, 1,024 entries, in order written (R86). -/
  fieldMap : List FieldEntry := []
  mapFull : Bool := false
  /-- RWL values latched at SEAL: IDE_REQUIRED, POISON_INJECT (R11). -/
  latched : Option (Bool × Bool) := none
  /-- Drey history, newest first, 4,096 events (R394). -/
  dreyHist : List DreyEvent := []
  /-- Repairs by class, input losses by input (Table 17.3). -/
  repairs : Tbl Nat := []
  lossesA : Nat := 0
  lossesB : Nat := 0
  /-- The latched upper half of `LIF_CAL` by requester (R397). -/
  latch : List (Requester × BitVec 32) := []
  /-- The unit waits in HELD for a source of time (R395). -/
  noTime : Bool := false
  /-- Islands whose pace drift has been reported at -3 % (R390). -/
  driftLow : List Nat := []
deriving DecidableEq, Repr

/-! ### PNL: the panel -/

/-- The PNL block (Table 18.4). -/
structure Pnl where
  /-- `PNL_STATUS.SWITCH`: 0 LOCKED, 1 OPERATE, 2 SERVICE. -/
  switch : Nat := 0
  cover : Bool := false
  /-- `PNL_STATUS.PAGE`, in Table 18.1 order. -/
  page : Nat := 0
  focus : Nat := 0
  /-- `PNL_STATUS.REFRESHED`, calendar minutes since 2020-01-01. -/
  refreshed : Nat := 0
  identOn : Bool := false
  identSource : Nat := 0
  identUntil : Ns := 0
  bayOn : Bool := false
  bay : Nat := 0
  bayUntil : Ns := 0
  /-- `PNL_CONFIRM.NEXT_OK`, `NEXT_DIGEST`, in the lifetime store (R406). -/
  nextOk : Bool := false
  nextDigest : BitVec 32 := 0
  rejected : Nat := 0
  refused : Nat := 0
  holds : Nat := 0
  lastAction : Nat := 0
  lastBay : Nat := 0
  lastResult : Nat := 0
  lastTime : Nat := 0
  /-- `PNL_CMD`. -/
  action : Nat := 0
  cmdBay : Nat := 0
  /-- The refusal banner and when it ends (R400). -/
  refusalUntil : Ns := 0
  refusalBay : Option Nat := none
  lastTouch : Ns := 0
deriving DecidableEq, Repr

/-! ### FLT: events -/

/-- An event record (Table 19.4), CRC apart. -/
structure EventRec where
  cls : Nat
  disp : Nat
  code : Nat
  unit : Nat
  seq : Nat
  time : Ns
  tenant : Nat
  scopeKind : Nat
  scopeIdx : Nat
  count : Nat
  addr : Nat
  d0 : Nat
  d1 : Nat
  early : Bool
  lost : Bool
deriving DecidableEq, Repr

/-- A dynamic capacity event record (R105, R106): kind 0 Add, 1 Release, 2 Forced removal. -/
structure DcEvent where
  kind : Nat
  ext : Nat
  dpa : Nat
  len : Nat
  tag : List Byte
deriving DecidableEq, Repr

/-- The event window of an LD and its CXL vendor log (R422). -/
structure LdLog where
  head : Nat := 0
  tail : Nat := 0
  lost : Nat := 0
  /-- Records by index modulo 131,072. -/
  recs : Tbl EventRec := []
  /-- The dynamic capacity log. -/
  dc : List DcEvent := []
deriving DecidableEq, Repr

/-- The FLT block (Table 19.7) and the logs. -/
structure Flt where
  /-- The unit log by index modulo 65,536. -/
  log : Tbl EventRec := []
  /-- `FLT_LOG.HEAD`, 32 bits. -/
  head : Nat := 0
  /-- `FLT_LOG.LOST`, 32 bits. -/
  lost : Nat := 0
  /-- The standby log, newest first, 1,024 records (R420). -/
  standby : List EventRec := []
  lds : Tbl LdLog := []
  /-- Records whose 1 s merge window is open (R418). -/
  opened : List EventRec := []
  /-- The sequence of the last record written (R416). -/
  seq : Nat := 0
  byHold : Bool := false
  byFault : Bool := false
  /-- Causes of a fault-caused HELD, first one first (R426). -/
  causes : List Nat := []
  action : Nat := 0
  busy : Bool := false
  status : Nat := 0
  /-- `FLT_COUNT_c`, c = 1-5. -/
  counts : Tbl Nat := []
deriving DecidableEq, Repr

/-- Why a command stops the block. The spec gives every command of the table an effect, and an access to
an offset that holds no register reads as zero and ignores writes (R12), so no meaning raises a fault. -/
inductive Fault where
  /-- Raised by no meaning: kept so that the type has a value. Safe. -/
  | none
deriving DecidableEq, Repr

/-- Why a command is refused by the model. -/
inductive Refusal where
  /-- Raised by an arm of `exec` whose command has no meaning yet. Safe: nothing is claimed of it. -/
  | notModelled (mnemonic : String)
deriving DecidableEq, Repr

/-- The state of one unit, the queue of waiting commands, and what has left the unit. -/
structure State where
  uni : Uni := {}
  fus : Fus := {}
  vq : Vq := {}
  mon : Mon := {}
  pwr : Pwr := {}
  hst : Hst := {}
  mbx : Mbx := {}
  ext : Ext := {}
  cdc : Cdc := {}
  drt : Drt := {}
  hrd : Hrd := {}
  wrn : Wrn := {}
  eng : Eng := {}
  opq : Opq := {}
  lif : Lif := {}
  pnl : Pnl := {}
  flt : Flt := {}
  /-- What the unit has sent, newest first (the model's own field). -/
  out : List Out := []
  /-- The counter that free values are drawn by (the model's own field). -/
  free : Nat := 0
  /-- Commands that wait, first in, first out. -/
  pending : List Instr := []
deriving DecidableEq, Repr

/-- The unit right after reset: every field at the default of its structure. -/
def State.reset : State := {}

end Sys2Proof.Machine
end

