-- ==== Sys2Proof/Machine/FuseRead.lean ====
section
/-! DEFINITION. How the fuse fields read (R37-R39, Table 3.1) and the fuse-configuration digest (R55). -/

namespace Sys2Proof.Machine

/-- The bits of fuse word `w` as read. -/
def fuseBits (f : Fus) (w : Nat) : BitVec 64 := (tget {} f.words w).bits

/-- Fuse word `w` reads uncorrectable (R38). -/
def fuseBad (f : Fus) (w : Nat) : Bool := (tget {} f.words w).read == .uncorrectable

/-- The bitwise majority of three copies (R39). -/
def maj3 (a b c : Nat) : Nat := (a &&& b) ||| (a &&& c) ||| (b &&& c)

/-- The majority of three copies of `w` bits that start at bit `lo` of a word (R39). -/
def fuseMaj (v lo w : Nat) : Nat :=
  maj3 (bits v (lo + w - 1) lo) (bits v (lo + 2 * w - 1) (lo + w)) (bits v (lo + 3 * w - 1) (lo + 2 * w))

/-- The lifecycle state: 0 BLANK, 1 PROVISIONED, 2 SEALED, 3 RETIRED, by the highest blown bit (R39). -/
def lifecycle (f : Fus) : Nat :=
  let m := fuseMaj (fuseBits f 0).toNat 0 3
  if bit m 2 then 3 else if bit m 1 then 2 else if bit m 0 then 1 else 0

/-- The revoked slots, 4 bits (Table 3.1). -/
def slotsRevoked (f : Fus) : Nat := fuseMaj (fuseBits f 0).toNat 16 4

/-- The anti-rollback counter (R39): one plus the index of its highest blown bit. -/
def arb (f : Fus) : Nat :=
  let v := (fuseBits f 1).toNat + 2 ^ 64 * (fuseBits f 2).toNat
  if v = 0 then 0 else v.log2 + 1

/-- The debug policy, 16 bits (Tables 3.1 and 3.6). -/
def debugPolicy (f : Fus) : Nat := fuseMaj (fuseBits f 3).toNat 0 16

/-- A debug bit forbids its path: blown and not lifted (R48). -/
def debugForbids (f : Fus) (b : Nat) : Bool :=
  bit (debugPolicy f) b &&
    !(match b with
      | 1 => f.lifted.getLsbD 0
      | 2 => f.lifted.getLsbD 1
      | 3 => f.lifted.getLsbD 2
      | 5 => f.lifted.getLsbD 3
      | _ => false)

/-- The die identity, low word then high word. -/
def dieLo (f : Fus) : BitVec 64 := fuseBits f 4
def dieHi (f : Fus) : BitVec 64 := fuseBits f 5

/-- The pace grade, the factory pace in 0.1 M steps/s, and the `VMAX` code, with the readings of Table 3.1
for an uncorrectable word 6. -/
def paceGrade (f : Fus) : Nat := if fuseBad f 6 then 0 else bits (fuseBits f 6).toNat 1 0
def factPace (f : Fus) : Nat := if fuseBad f 6 then 16000 else bits (fuseBits f 6).toNat 31 16
def vmaxCode (f : Fus) : Nat := if fuseBad f 6 then 60 else bits (fuseBits f 6).toNat 39 32

/-- A group of six fuse words as 48 bytes. -/
def fuseHash (f : Fus) (w : Nat) : List Byte :=
  (List.range 6).flatMap fun i => leBytes 8 (fuseBits f (w + i)).toNat

/-- Any of a group of words is uncorrectable, or has a blown bit. -/
def anyBad (f : Fus) (w n : Nat) : Bool := (List.range n).any fun i => fuseBad f (w + i)
def anyBlown (f : Fus) (w n : Nat) : Bool := (List.range n).any fun i => fuseBits f (w + i) != 0

/-- The owner key hash stands (Table 3.1: absent when uncorrectable). -/
def ownerSet (f : Fus) : Bool := anyBlown f 8 6 && !anyBad f 8 6

/-- Signing slot `k` is programmed; a slot of an uncorrectable word is treated as revoked (Table 3.1). -/
def slotProgrammed (f : Fus) (k : Nat) : Bool := anyBlown f (18 + 6 * k) 6
def slotRevoked (f : Fus) (k : Nat) : Bool := bit (slotsRevoked f) k || anyBad f (18 + 6 * k) 6

/-- The protection-map code of a record type (R50, Table 3.1). -/
def pmapCode (f : Fus) (t : Nat) : Nat :=
  let w := 42 + t / 32
  if fuseBad f w then 2 else bits (fuseBits f w).toNat (2 * (t % 32) + 1) (2 * (t % 32))

/-- A Warren port, or the administrator BAR2 on a host port, is forbidden (word 44). -/
def portForbidden (f : Fus) (n : Nat) : Bool := fuseBad f 44 || (fuseBits f 44).getLsbD n
def adminForbidden (f : Fus) (p : Nat) : Bool := fuseBad f 44 || (fuseBits f 44).getLsbD (48 + p)

/-- Tenant `t` is forbidden on host port `p` (words 45-76). -/
def bindForbidden (f : Fus) (p t : Nat) : Bool :=
  let w := 45 + 4 * p + t / 64
  fuseBad f w || (fuseBits f w).getLsbD (t % 64)

/-- The root key is readable to the key engine (Table 3.1, R53). -/
def rootKeyOk (f : Fus) : Bool := !anyBad f 14 4

/-- `FUS_DIGEST` (R55): the first 32 bits of the digest of the fuse words and the lifted bits. -/
def fuseDigest (f : Fus) : BitVec 32 :=
  let ws := (List.range 256).flatMap fun w =>
    leBytes 8 (if 14 ≤ w ∧ w ≤ 17 then 0 else (fuseBits f w).toNat)
  BitVec.ofNat 32 (leNat ((sha384 (ws ++ [f.lifted.setWidth 8])).take 4))

/-- `FUS_STATE` (Table 3.8). -/
def fusState (f : Fus) : Nat :=
  lifecycle f
    + 2 ^ 2 * ((List.range 4).map fun k => b2n (slotProgrammed f k) * 2 ^ k).sum
    + 2 ^ 6 * ((List.range 4).map fun k => b2n (slotRevoked f k) * 2 ^ k).sum
    + 2 ^ 10 * arb f + 2 ^ 18 * debugPolicy f + 2 ^ 34 * f.lifted.toNat
    + 2 ^ 38 * b2n (ownerSet f) + 2 ^ 39 * b2n f.eccFault

end Sys2Proof.Machine
end

