-- ==== Sys2Proof/Machine/ImageView.lean ====
section
/-! DEFINITION. The records of an image and the fields they give (R60, R61, R66, Tables 4.6 to 4.28), with the
default of every field an image omits. -/

namespace Sys2Proof.Machine

/-- Little-endian field of a record at the offset its table gives (offsets count from the record header). -/
def rfld (r : Record) (o n : Nat) : Nat := fld r.body (o - 8) n

/-- The record of a type and instance that applies to a unit (R61): its own, else the one at scope 0xFFFF. -/
def look (im : Option Image) (u t i : Nat) : Option Record :=
  match im with
  | none => none
  | some m =>
    match m.records.find? (fun r => r.typ == t && r.inst == i && r.scope == u) with
    | some r => some r
    | none => m.records.find? (fun r => r.typ == t && r.inst == i && r.scope == 0xFFFF)

/-- A field of the record that applies, or the default. -/
def lookFld (im : Option Image) (u t i o n dflt : Nat) : Nat :=
  match look im u t i with
  | some r => rfld r o n
  | none => dflt

/-- All the records of a type. -/
def recsOf (im : Option Image) (t : Nat) : List Record :=
  match im with
  | none => []
  | some m => m.records.filter (·.typ == t)

/-- FABRIC (Table 4.6): unit count, prepare timeout, grandmaster and time source. -/
def fabN (im : Option Image) : Nat := lookFld im 0 0x01 0 8 2 0
def fabTimeout (im : Option Image) : Nat := lookFld im 0 0x01 0 10 2 2000
def fabGm (im : Option Image) : Nat := lookFld im 0 0x01 0 12 2 0
def fabSource (im : Option Image) : Nat := lookFld im 0 0x01 0 14 1 0

/-- UNIT (Table 4.7): a unit's die identity and its HOARD flag. -/
def unitDie (im : Option Image) (u : Nat) : Nat := lookFld im u 0x02 0 8 16 0
def unitHoard (im : Option Image) (u : Nat) : Bool := bit (lookFld im u 0x02 0 24 1 0) 0

/-- The units flagged HOARD, ascending. -/
def hoardUnits (im : Option Image) : List Nat :=
  ((recsOf im 0x02).filter fun r => bit (rfld r 24 1) 0).map (·.scope)

/-- TENANT (Table 4.8). -/
def hasTenant (im : Option Image) (t : Nat) : Bool := (look im 0 0x03 t).isSome
def tenHome (im : Option Image) (t : Nat) : Nat := lookFld im 0 0x03 t 8 2 0
def tenMax (im : Option Image) (t : Nat) : Nat := lookFld im 0 0x03 t 10 2 0
def tenSeal (im : Option Image) (t : Nat) : Bool := bit (lookFld im 0 0x03 t 12 2 0) 0
def tenExportOk (im : Option Image) (t : Nat) : Bool := bit (lookFld im 0 0x03 t 12 2 0) 1

/-- LEASE (Table 4.9), in nanoseconds. -/
def leaseRenewal (im : Option Image) (t : Nat) : Ns := lookFld im 0 0x04 t 8 2 1000 * msNs
def leaseExpiryNs (im : Option Image) (t : Nat) : Ns := lookFld im 0 0x04 t 10 2 10 * secNs
def leaseGuard (im : Option Image) (t : Nat) : Ns := lookFld im 0 0x04 t 12 2 100 * msNs

/-- BINDING (Table 4.10): the tenant of an LD index, if bound; ADMIN. -/
def binding (im : Option Image) (u ld : Nat) : Option Nat := (look im u 0x05 ld).map fun r => rfld r 8 1
def bindAdmin (im : Option Image) (u ld : Nat) : Bool := bit (lookFld im u 0x05 ld 9 1 0) 0

/-- RINGS (Table 4.11): the first ring and the count of a tenant's rings on a unit. -/
def ringRange (im : Option Image) (u t : Nat) : Nat × Nat :=
  match look im u 0x06 t with
  | some r => (rfld r 8 4, rfld r 12 4)
  | none =>
    if (recsOf im 0x06).any (fun r => r.scope == u || r.scope == 0xFFFF) then (0, 0)
    else if hasTenant im t then (256 * t, 256) else (0, 0)

/-- MAILBOX (Table 4.12): a host or internal mailbox runs in POINTER mode. -/
def mbxPointer (im : Option Image) (u i : Nat) : Bool := bit (lookFld im u 0x07 0 8 32 0) i
def mbxIntPointer (im : Option Image) (u j : Nat) : Bool := bit (lookFld im u 0x07 0 40 8 0) j

/-- DOORBELL (Table 4.13). -/
def doorbellMask (im : Option Image) (u ld : Nat) : BitVec 32 := BitVec.ofNat 32 (lookFld im u 0x08 ld 8 4 0)

/-- The default latency targets of Table 10.3, in nanoseconds. -/
def qosDefault (q : Nat) : Nat :=
  if q < 16 then 400 else if q < 20 then 2000 else if q < 24 then 600
  else match q with
    | 24 => 20000
    | 25 => 10000
    | 26 => 20000
    | 27 => 1000000
    | 28 => 10000000
    | 29 => 300
    | 30 => 5000
    | _ => 2000

/-- QOS (Table 4.14): target of requester q in ns; migration share in percent. -/
def qosTarget (im : Option Image) (u q : Nat) : Nat := lookFld im u 0x09 0 (8 + 4 * q) 4 (qosDefault q)
def qosShare (im : Option Image) (u : Nat) : Nat := lookFld im u 0x09 0 136 1 10

/-- PARTITION (Table 4.15), GiB. -/
def partPinned (im : Option Image) (u : Nat) : Nat := lookFld im u 0x0A 0 8 2 0
def partVolatile (im : Option Image) (u : Nat) : Nat := lookFld im u 0x0A 0 10 2 32

/-- INTERLEAVE (Table 4.16): log2 of the grain; fold. -/
def ilGrain (im : Option Image) (u : Nat) : Nat := lookFld im u 0x0B 0 8 1 12
def ilFold (im : Option Image) (u : Nat) : Bool := lookFld im u 0x0B 0 9 1 1 == 1

/-- SPARES (Table 4.17). -/
def spareCount (im : Option Image) (u : Nat) : Nat := lookFld im u 0x0C 0 8 1 1
def sparePref (im : Option Image) (u : Nat) : Nat := lookFld im u 0x0C 0 12 4 0

/-- DRAM (Table 4.18): allowed states, neighbour-refresh N, FREEZE of a stack. -/
def dramStates (im : Option Image) (u : Nat) : Nat := lookFld im u 0x0D 0 8 1 7
def dramN (im : Option Image) (u : Nat) : Nat := lookFld im u 0x0D 0 9 1 10
def dramFreeze (im : Option Image) (u s : Nat) : Bool := bit (lookFld im u 0x0D 0 10 1 0) s

/-- STRIPE (Table 4.19): k and m of a code ID; code 0 has a default. -/
def stripeKM (im : Option Image) (c : Nat) : Option (Nat × Nat) :=
  match look im 0 0x0E c with
  | some r => some (rfld r 8 1, rfld r 9 1)
  | none => if c = 0 then some (12, 4) else none

/-- EXTENT (Table 4.20). -/
structure ExtRec where
  id : Nat
  tenant : Nat
  /-- 1 PRIVATE-COHERENT, 2 PRIVATE-HOST, 3 VOLATILE. -/
  kind : Nat
  fmt : Nat
  /-- LENCRC. -/
  crc : Bool
  code : Nat
  /-- Base and size in GiB. -/
  base : Nat
  size : Nat
  readers : Nat
  /-- Serving units, and PINNED (Table 4.21). -/
  serving : List Nat
  pinned : Bool
deriving DecidableEq, Repr

/-- The EXTENT record `x` with its TIERING record. -/
def extRec (im : Option Image) (x : Nat) : Option ExtRec :=
  match look im 0 0x0F x with
  | none => none
  | some r =>
    let tr := look im 0 0x10 x
    let c := match tr with
      | some t => rfld t 8 1
      | none => 0
    some {
      id := x, tenant := rfld r 8 1, kind := rfld r 9 1, fmt := rfld r 10 1, crc := rfld r 11 1 == 1,
      code := rfld r 12 1, base := rfld r 16 4, size := rfld r 20 4, readers := rfld r 24 32,
      serving := match tr with
        | some t => (List.range c).map fun i => rfld t (16 + 2 * i) 2
        | none => []
      pinned := match tr with
        | some t => rfld t 9 1 == 1
        | none => false }

/-- All the extents of an image, ascending. -/
def extRecs (im : Option Image) : List ExtRec := (recsOf im 0x0F).filterMap fun r => extRec im r.inst

/-- One GiB. -/
def gib : Nat := 2 ^ 30

/-- The extent that covers a tenant address, with the granule number. -/
def extAt (im : Option Image) (t addr : Nat) : Option (ExtRec × Nat) :=
  let g := addr / gib
  ((extRecs im).find? fun e => e.tenant == t && decide (e.base ≤ g) && decide (g < e.base + e.size)).map
    fun e => (e, g - e.base)

/-- The serving unit of granule `g` (Table 4.21). -/
def servingOf (e : ExtRec) (g : Nat) : Nat :=
  if e.serving.length = 0 then 0 else e.serving.getD (g % e.serving.length) 0

/-- CODEC (Table 4.22) with the default schedule (Table 9.7): stream and strips of slot `s` of engine `i`. -/
def codecSlot (im : Option Image) (u i s : Nat) : Nat × Nat :=
  match look im u 0x11 i with
  | some r => (rfld r (8 + 2 * s) 1, rfld r (9 + 2 * s) 1)
  | none =>
    if s < 12 then (2 * i + s % 2 + 1, 16) else if s % 2 = 0 then (0x20, 16) else (0x21, 16)

/-- TOPOLOGY (Table 4.23): peer unit, peer port and minimum lanes of a port in use. -/
def topo (im : Option Image) (u n : Nat) : Option (Nat × Nat × Nat) :=
  match look im u 0x12 0 with
  | none => none
  | some r =>
    let p := rfld r (8 + 4 * n) 2
    if p = 0xFFFF then none else some (p, rfld r (10 + 4 * n) 1, rfld r (11 + 4 * n) 1)

/-- ROUTES (Table 4.24): primary and alternate port to destination `d`; `none` for an entry 0xFFFF. -/
def route (im : Option Image) (u d : Nat) : Option (Nat × Nat) :=
  match look im u 0x13 0 with
  | none => none
  | some r =>
    let p := rfld r (8 + 2 * d) 1
    if p = 0xFF then none else some (p, rfld r (9 + 2 * d) 1)

/-- HOARD (Table 4.25): retention days, scrub days, reference temperature in °C. -/
def hoardRetain (im : Option Image) : Nat := lookFld im 0 0x14 0 8 2 365
def hoardScrubDays (im : Option Image) : Nat := lookFld im 0 0x14 0 10 2 30
def hoardTref (im : Option Image) : Nat := lookFld im 0 0x14 0 12 1 40

/-- POWER (Table 4.26): island maximum voltage code if given, pace target, die limit W, junction limit °C. -/
def powVmax (im : Option Image) (u i : Nat) : Option Nat := (look im u 0x15 0).map fun r => rfld r (8 + 4 * i) 1
def powTarget (im : Option Image) (u i : Nat) : Nat := lookFld im u 0x15 0 (10 + 4 * i) 2 0
def powLimit (im : Option Image) (u : Nat) : Nat := lookFld im u 0x15 0 40 2 700
def powTj (im : Option Image) (u : Nat) : Nat := lookFld im u 0x15 0 42 1 100

/-- PANEL (Table 4.27): IDENT duration in seconds; removal needs administrator approval. -/
def panIdent (im : Option Image) (u : Nat) : Nat := lookFld im u 0x16 0 33 1 30
def panApproval (im : Option Image) (u : Nat) : Bool := lookFld im u 0x16 0 34 1 0 == 1

/-- HOSTPORT (Table 4.28): a port is split; the maximum rate code. -/
def portSplit (im : Option Image) (u p : Nat) : Bool := bit (lookFld im u 0x17 0 8 1 0) p
def portMaxRate (im : Option Image) (u : Nat) : Nat := lookFld im u 0x17 0 9 1 0

/-- The change class of a record type (Table 4.4): 0 LIVE, 1 STAGED, 2 MIGRATING, 3 COLD. -/
def typeClass (t : Nat) : Nat :=
  if t = 0x08 ∨ t = 0x09 ∨ t = 0x15 ∨ t = 0x16 then 0
  else if t = 0x0A ∨ t = 0x0B ∨ t = 0x0C ∨ t = 0x0E ∨ t = 0x10 then 2
  else if t = 0x17 then 3
  else 1

end Sys2Proof.Machine
end

