-- ==== Sys2Proof/Machine/Ops.lean ====
section
/-! DEFINITION. The operations every block shares: the present, what the unit sends, MSI-X messages (R111),
events and their routing (R414 to R422), and the moves into HELD and FAULTED (R425, R426). -/

namespace Sys2Proof.Machine

/-- The outcome of a meaning: the next state. -/
abbrev Res := Host.Outcome State Fault Refusal

/-- The present: the timebase, or the start-up interval counter before it is loaded (R80). -/
def now (s : State) : Ns := if s.mon.loaded then s.mon.timebase else s.uni.interval

/-- This unit's number in the image in force. -/
def me (s : State) : Nat := s.vq.number

/-- The predecessor's TIERING records, by which granules are routed until an update is settled (R359). -/
def oldTiering (s : State) : List Record :=
  if s.vq.mig.routeOld then
    (recsOf s.vq.shadow 0x10).filter fun r => (recsOf s.vq.active 0x10).any fun q => q.inst == r.inst
  else []

/-- The image as extents are served: the image in force, with the EXTENT and TIERING records of the extents that are
RELEASING as they were for the tenant they leave (R146, R171), and the TIERING records of an update that is not settled
as they were before it (R359). -/
def extView (s : State) : Option Image :=
  if s.ext.leaving = [] ∧ s.vq.mig.routeOld = false then s.vq.active
  else s.vq.active.map fun m =>
    let left (r : Record) : Bool := (r.typ == 0x0F || r.typ == 0x10) && s.ext.leaving.any fun l => l.typ == 0x0F && l.inst == r.inst
    let old := (oldTiering s).filter fun r => !left r
    let gone (r : Record) : Bool := left r || (r.typ == 0x10 && old.any fun l => l.inst == r.inst)
    { m with records := s.ext.leaving ++ old ++ m.records.filter fun r => !gone r }

/-- An extent under the other of the two images of a move of granules: the new one while they are routed by the old one, the
image that a reversal leaves otherwise. -/
def otherRec (s : State) (e : ExtRec) : ExtRec := (extRec (if s.vq.mig.routeOld then s.vq.active else s.vq.shadow) e.id).getD e

/-- The unit that serves granule `g` of an extent as this unit routes it (R359): by the old TIERING record until the
update is settled, by the new one for the granules that this unit has handed over (R358 step 3). A reversal routes by its own
record, and a unit that has handed granules over relays for them until it has settled (R362, log entry 30). -/
def serverOf (s : State) (e : ExtRec) (g : Nat) : Nat :=
  if (s.vq.mig.routeOld || s.vq.mig.reverse) && s.vq.mig.handed && servingOf e g == me s then servingOf (otherRec s e) g else servingOf e g

/-- The extent as this unit serves a granule of it, if it does: a request that the old serving unit relays is served by
the new one (R358 steps 3 and 4). -/
def servedHereAs (s : State) (e : ExtRec) (g : Nat) (relayed : Bool) : Option ExtRec :=
  if serverOf s e g = me s then some e
  else if (s.vq.mig.routeOld || s.vq.mig.reverse) && relayed && servingOf (otherRec s e) g == me s then some (otherRec s e) else none

/-- The image whose INTERLEAVE and SPARES records the tier map follows: the old one until the map has moved (R355). -/
def mapImage (s : State) : Option Image := if s.vq.mig.map then s.vq.shadow else s.vq.active

/-- The image whose PARTITION record the pools follow: the old one until the pools have moved (R357). -/
def poolImage (s : State) : Option Image := if s.vq.mig.part then s.vq.shadow else s.vq.active

/-- The image whose LIVE records are in force (R351): a prepared update's, else those of the image in force. -/
def liveView (s : State) : Option Image := s.vq.live <|> s.vq.active

/-- Send or drive something. -/
def emit (o : Out) (s : State) : State := { s with out := o :: s.out }

/-- Take the next number of the free-value counter. -/
def draw (s : State) : State := { s with free := s.free + 1 }

/-- The code of a unit state in `UNI_STATE.STATE` (Table 5.8). -/
def stCode : UnitState → Nat
  | .off => 0
  | .standby => 1
  | .starting => 2
  | .serving => 3
  | .draining => 4
  | .held => 5
  | .dormouse => 6
  | .faulted => 7

/-- The tenant an LD is bound to by the image in force (R103). A unit with no image binds LD 0 to tenant 0, unless its
administrator forbid bit is blown (R93). -/
def ldTenant (s : State) (ld : Nat) : Option Nat :=
  if s.vq.active.isNone then (if ld = 0 ∧ adminForbidden s.fus 0 = false then some 0 else none)
  else binding s.vq.active (me s) ld

/-- The LDs bound to a tenant on this unit, ascending. -/
def ldsOf (s : State) (t : Nat) : List Nat := (List.range 256).filter fun ld => ldTenant s ld == some t

/-- An LD's own state. -/
def ldOf (h : Hst) (ld : Nat) : Ld := tget {} h.lds ld

/-- Send a message of vector `v`, or hold its pending bit while the vector is masked (R111). -/
def msixHst (h : Hst) (ld v : Nat) : Hst :=
  if (tget {} (ldOf h ld).vecs v).masked then
    { h with lds := tmod {} ld (fun l => { l with pba := l.pba ||| (1 <<< v) }) h.lds }
  else h

/-- The message that goes out for vector `v`. -/
def msixOut (h : Hst) (ld v : Nat) : List Out :=
  if (tget {} (ldOf h ld).vecs v).masked then [] else [.msix ld v]

/-- Raise vector `v` of an LD (R111). -/
def sendMsix (ld v : Nat) (s : State) : State :=
  { s with hst := msixHst s.hst ld v, out := msixOut s.hst ld v ++ s.out }

/-! ### Events -/

/-- An occurrence (R414): the fields of its record that its place in Table 19.3 does not fix. `cls` counts for
a GENERAL code only. -/
structure Ev where
  code : Nat
  cls : Nat := 1
  tenant : Nat := 0
  sk : Nat := 0
  si : Nat := 0
  addr : Nat := 0
  d0 : Nat := 0
  d1 : Nat := 0
deriving DecidableEq, Repr

/-- Class and disposition of a code (Table 19.3); a code with no row of its own reads as GENERAL. -/
def codeRow (code dflt : Nat) : Nat × Nat :=
  if code ∈ [0x0002, 0x0004, 0x0005, 0x000B, 0x000E, 0x000F, 0x0101, 0x0103, 0x0201, 0x0301, 0x0401, 0x0404,
      0x0501, 0x0507, 0x0601, 0x0801, 0x0A03, 0x0A08, 0x0B01, 0x0B02, 0x0E01, 0x0E03, 0x0F01] then (1, 0)
  else if code ∈ [0x0003, 0x000D, 0x0010, 0x0203, 0x0204, 0x0302, 0x0504, 0x0802, 0x0901, 0x0903, 0x0A01, 0x0A02,
      0x0A04, 0x0A05, 0x0A07, 0x0A09, 0x0B03, 0x0B04, 0x0C02, 0x0E02] then (2, 0)
  else if code ∈ [0x0007, 0x0502, 0x0503, 0x0505, 0x0506, 0x0508, 0x0509, 0x0701, 0x0702, 0x0703, 0x0704, 0x0705,
      0x0C01, 0x0D01, 0x0D02] then (3, 0)
  else if code ∈ [0x0102, 0x0104, 0x0902] then (4, 0)
  else if code ∈ [0x0009, 0x000A, 0x0E04] then (4, 1)
  else if code ∈ [0x0006, 0x0008, 0x0303] then (4, 2)
  else if code ∈ [0x0001, 0x000C, 0x0402, 0x0403] then (4, 3)
  else if code ∈ [0x0202, 0x0A06, 0x0B05] then (5, 0)
  else (dflt, 0)

/-- The record of an occurrence, with its time (Table 19.4); its sequence is given when it is written. -/
def evRecord (s : State) (e : Ev) : EventRec :=
  let row := codeRow e.code e.cls
  { cls := row.1, disp := row.2, code := e.code, unit := me s, seq := 0, time := now s, tenant := e.tenant,
    scopeKind := e.sk, scopeIdx := e.si, count := 1, addr := e.addr, d0 := e.d0, d1 := e.d1,
    early := !s.mon.loaded, lost := false }

/-- The LDs whose logs a record reaches (R421). -/
def eventLds (s : State) (r : EventRec) : List Nat :=
  (List.range 256).filter fun ld =>
    (match ldTenant s ld with
      | some t => t == 0 || (r.tenant != 0 && t == r.tenant)
      | none => false) || (r.scopeKind == 1 && r.scopeIdx == ld)

/-- The CXL log of a record by class and disposition (Table 19.5): 0 Informational to 3 Fatal. -/
def cxlLog (cls disp : Nat) : Nat :=
  match cls with
  | 1 => 0
  | 2 => 1
  | 3 => 2
  | 4 => if disp = 0 then 2 else 3
  | _ => 1

/-- Append a record to an LD's event window (R422). -/
def ldLogAdd (r : EventRec) (l : LdLog) : LdLog :=
  let full := (l.head + 2 ^ 32 - l.tail) % 2 ^ 32 ≥ 131072
  { l with
    recs := tset (l.head % 131072) { r with lost := full } l.recs
    head := (l.head + 1) % 2 ^ 32
    tail := if full then (l.tail + 1) % 2 ^ 32 else l.tail
    lost := if full then l.lost + 1 else l.lost }

/-- Append a record to the unit log, the standby log and the LD logs (R418, R420). -/
def fltAdd (r : EventRec) (lds : List Nat) (f : Flt) : Flt :=
  let full := (tfind f.log (f.head % 65536)).isSome
  { f with
    seq := f.seq + 1
    log := tset (f.head % 65536) { r with seq := f.seq + 1, lost := full } f.log
    head := (f.head + 1) % 2 ^ 32
    lost := if full then f.lost + 1 else f.lost
    standby :=
      if 2 ≤ r.cls then
        ({ r with seq := f.seq + 1, lost := decide (1024 ≤ f.standby.length) } :: f.standby).take 1024
      else f.standby
    counts := tinc r.cls 1 f.counts
    lds := lds.foldl (fun t ld => tmod {} ld (ldLogAdd { r with seq := f.seq + 1 }) t) f.lds }

/-- The message number of an LD's log (R111). -/
def evVector (h : Hst) (ld log : Nat) : Nat := (ldOf h ld).evPolicy.getD log 1

/-- Write a record to every destination of Table 19.5, with its CXL event interrupts. -/
def writeRec (r : EventRec) (s : State) : State :=
  let lds := eventLds s r
  let log := cxlLog r.cls r.disp
  { s with
    flt := fltAdd r lds s.flt
    hst := lds.foldl (fun h ld => msixHst h ld (evVector h ld log)) s.hst
    out := (if 3 ≤ r.cls then [Out.redfish 0 [r.code, r.cls]] else [])
      ++ lds.flatMap (fun ld => msixOut s.hst ld (evVector s.hst ld log)) ++ s.out }

/-- The same code, scope and tenant (R418). -/
def sameEvent (a b : EventRec) : Bool :=
  a.code == b.code && a.scopeKind == b.scopeKind && a.scopeIdx == b.scopeIdx && a.tenant == b.tenant

/-- Record an occurrence (R418): at once for UNIT and FABRIC, else merged into, or opening, a 1 s window. -/
def record (e : Ev) (s : State) : State :=
  let r := evRecord s e
  if 4 ≤ r.cls then writeRec r s
  else match s.flt.opened.find? (sameEvent r) with
    | some q =>
      if r.time < q.time + secNs then
        { s with flt := { s.flt with opened := modFirst (sameEvent r) (fun x => { x with count := x.count + 1 }) s.flt.opened } }
      else
        let s := { s with flt := { s.flt with opened := s.flt.opened.filter (fun x => !sameEvent r x) ++ [r] } }
        writeRec q s
    | none => { s with flt := { s.flt with opened := s.flt.opened ++ [r] } }

/-- Change the unit state, with its STATE_CHANGE record (code 0x000B). -/
def moveTo (st : UnitState) (cause d0 : Nat) (s : State) : State :=
  if s.uni.st = st then s
  else
    let old := stCode s.uni.st
    record { code := 0x000B, d0 := old + d0 * 2 ^ 8, d1 := stCode st + cause * 2 ^ 16 }
      { s with uni := { s.uni with st := st } }

/-- Enter FAULTED from any state but OFF and STANDBY (R424, R425): held writes are discarded and counted, and
the operators in flight stop. -/
def enterFaulted (cause : Nat) (s : State) : State :=
  if s.uni.st = .off ∨ s.uni.st = .standby ∨ s.uni.st = .faulted then s
  else
    let heldWrites := (s.hst.reqs.filter fun r => r.isWrite && r.wait == 3).length
    moveTo .faulted cause heldWrites
      { s with
        uni := { s.uni with drainFaultDue := none }
        hst := { s.hst with reqs := s.hst.reqs.filter fun r => !(r.isWrite && r.wait == 3 && r.answered) }
        opq := { s.opq with ops := [], intake := [] }
        eng := { s.eng with engines := s.eng.engines.map fun (k, e) => (k, { e with block := none }) }
        pwr := { s.pwr with drained := false } }

/-- Enter HELD for a fault (R425, R426): from STARTING, SERVING or DRAINING, or as a further cause. -/
def enterHeldFault (cause : Nat) (s : State) : State :=
  match s.uni.st with
  | .held => { s with flt := { s.flt with byHold := false, byFault := true, causes := addNew cause s.flt.causes } }
  | .starting | .serving | .draining =>
    moveTo .held cause 0
      { s with
        uni := { s.uni with beforeHold := s.uni.st }
        flt := { s.flt with byHold := false, byFault := true, causes := [cause] } }
  | _ => s

/-- A DRAIN_FAULT (R415, R426): FAULTED at once from HELD; else DRAINING, and FAULTED 60 s later at the latest. -/
def drainFault (cause : Nat) (s : State) : State :=
  match s.uni.st with
  | .held => enterFaulted cause s
  | .off | .standby | .faulted => s
  | st =>
    let s := { s with uni := { s.uni with
      drainFaultDue := s.uni.drainFaultDue <|> some (now s + 60 * secNs)
      drainFaultCause := if s.uni.drainFaultDue.isSome then s.uni.drainFaultCause else cause } }
    if st = .serving then moveTo .draining cause 0 s else s

/-- The disposition of an event (Table 19.2). -/
def dispose (disp cause : Nat) (s : State) : State :=
  match disp with
  | 1 => enterHeldFault cause s
  | 2 => drainFault cause s
  | 3 =>
    if s.uni.st = .held then
      enterFaulted cause { s with flt := { s.flt with causes := addNew cause s.flt.causes } }
    else enterFaulted cause s
  | _ => s

/-- Raise an event: record it, then do what its disposition says. -/
def raise (e : Ev) (s : State) : State := dispose (codeRow e.code e.cls).2 e.code (record e s)

/-- Raise an event under the GENERAL code of block `blk` (R419), whose class its chapter names. -/
def raiseGen (blk cls : Nat) (e : Ev) (s : State) : State :=
  raise { e with code := blk * 256 + 0xFF, cls := cls, d0 := 0, d1 := 0 } s

/-- A write ignored under R11, R169, R313, R362, R422 or R443 (code 0x000F): register detail and value. -/
def writeIgnored (off : Nat) (bar0 : Option Nat) (val : Nat) (s : State) : State :=
  raise { code := 0x000F, sk := if bar0.isSome then 1 else 0, si := bar0.getD 0,
          d0 := off + (if bar0.isSome then 2 ^ 32 else 0), d1 := val } s

/-! ### Fields that several blocks set -/

/-- The effect of a function on one block of the state. -/
def onHst (f : Hst → Hst) (s : State) : State := { s with hst := f s.hst }
def onMbx (f : Mbx → Mbx) (s : State) : State := { s with mbx := f s.mbx }
def onExt (f : Ext → Ext) (s : State) : State := { s with ext := f s.ext }
def onDrt (f : Drt → Drt) (s : State) : State := { s with drt := f s.drt }
def onHrd (f : Hrd → Hrd) (s : State) : State := { s with hrd := f s.hrd }
def onWrn (f : Wrn → Wrn) (s : State) : State := { s with wrn := f s.wrn }
def onEng (f : Eng → Eng) (s : State) : State := { s with eng := f s.eng }
def onOpq (f : Opq → Opq) (s : State) : State := { s with opq := f s.opq }
def onPwr (f : Pwr → Pwr) (s : State) : State := { s with pwr := f s.pwr }
def onLif (f : Lif → Lif) (s : State) : State := { s with lif := f s.lif }
def onPnl (f : Pnl → Pnl) (s : State) : State := { s with pnl := f s.pnl }
def onFlt (f : Flt → Flt) (s : State) : State := { s with flt := f s.flt }
def onVq (f : Vq → Vq) (s : State) : State := { s with vq := f s.vq }
def onUni (f : Uni → Uni) (s : State) : State := { s with uni := f s.uni }
def onCdc (f : Cdc → Cdc) (s : State) : State := { s with cdc := f s.cdc }
def onMon (f : Mon → Mon) (s : State) : State := { s with mon := f s.mon }
def onFus (f : Fus → Fus) (s : State) : State := { s with fus := f s.fus }

/-- The state `s'` when a condition holds, else `s`. -/
def when' (c : Bool) (f : State → State) (s : State) : State := if c then f s else s

/-- The calendar in whole minutes since 2020-01-01 00:00:00 UTC (Tables 17.6, 18.4). -/
def calMinutes (s : State) : Nat := ((s.lif.cal / secNs - s.lif.taiUtc) - 1577836800) / 60

end Sys2Proof.Machine
end

