-- ==== Sys2Proof/Machine/WarrenMsg.lean ====
section
/-! DEFINITION. The bytes of Warren messages and flits (R262, R268, R269): opcodes, virtual channels, the message header,
every body of Table 12.6, and the cutting of a message into flits. -/

namespace Sys2Proof.Machine

/-- Zero bytes. -/
def zs (n : Nat) : List Byte := List.replicate n 0

/-- The opcode of a message (Table 12.6); 0 for the exchanges that the catalogue has no message for (log entry 12). -/
def opcodeOf : Msg → Nat
  | .read .. => 0x01
  | .readData .. => 0x02
  | .write .. => 0x03
  | .writeDone .. => 0x04
  | .bisnp .. => 0x05
  | .birsp .. => 0x06
  | .chunkGet .. => 0x07
  | .chunkData .. => 0x08
  | .chunkPut .. => 0x09
  | .chunkAck .. => 0x0A
  | .opFwd .. => 0x0B
  | .opDone .. => 0x0C
  | .lease .. => 0x10
  | .reserve .. => 0x11
  | .grant .. => 0x12
  | .epochPrepare .. => 0x13
  | .epochCommit .. => 0x14
  | .imagePart .. => 0x15
  | .imageVerdict .. => 0x16
  | .presence .. => 0x17
  | .time .. => 0x18
  | .mbx .. => 0x19
  | .mbxAns .. => 0x1A
  | .raw b => fld b 0 1
  | .root _ | .extState .. | .sealReport _ | .tileWork .. => 0

/-- What a read asks to cache, and the answer to a snoop, as their bytes. -/
def wantByte : Want → Nat
  | .none => 0
  | .shared => 1
  | .exclusive => 2
def ansByte : SnoopAns → Nat
  | .invalid => 0
  | .shared => 1

/-- The body of a message, from offset 16 (Table 12.6). -/
def bodyOf : Msg → List Byte
  | .read a st i w => leBytes 8 a ++ leBytes 8 st ++ leBytes 2 i ++ leBytes 1 (wantByte w) ++ zs 13
  | .readData st g k f w ms b => leBytes 1 st ++ leBytes 1 g ++ leBytes 1 k ++ leBytes 1 f ++ leBytes 2 b.length ++ zs 2
      ++ leBytes 12 w.toNat ++ padTo 8 0 ms ++ zs 4 ++ b
  | .write a st i p be d => leBytes 8 a ++ leBytes 8 st ++ leBytes 2 i ++ leBytes 1 (b2n p) ++ zs 5 ++ leBytes 8 be.toNat ++ padTo 64 0 d
  | .writeDone st => leBytes 1 st ++ zs 7
  | .bisnp a d l => leBytes 8 a ++ leBytes 1 (b2n d) ++ leBytes 1 l ++ zs 6
  | .birsp a r => leBytes 8 a ++ leBytes 1 (ansByte r) ++ zs 7
  | .chunkGet i c o n => leBytes 8 i ++ leBytes 1 c ++ zs 3 ++ leBytes 4 o ++ leBytes 4 n ++ zs 4
  | .chunkData st b => leBytes 1 st ++ zs 7 ++ leBytes 4 b.length ++ zs 4 ++ b
  | .chunkPut i c k m kd b => leBytes 8 i ++ leBytes 1 c ++ leBytes 1 k ++ leBytes 1 m ++ leBytes 1 kd ++ leBytes 4 b.length
      ++ leBytes 4 (if b.isEmpty then 0 else (crc32c b).toNat) ++ zs 12 ++ b
  | .chunkAck st => leBytes 1 st ++ zs 7
  | .opFwd d r _ => padTo 128 0 d ++ leBytes 4 r ++ zs 12
  | .opDone r => padTo 64 0 r
  | .lease k t x o => leBytes 1 k ++ zs 7 ++ leBytes 8 t ++ leBytes 2 x ++ leBytes 4 o ++ zs 2
  | .reserve n => leBytes 4 n ++ zs 4
  | .grant y w => leBytes 1 (b2n y) ++ zs 3 ++ leBytes 4 w
  | .epochPrepare k c e d => leBytes 1 k ++ leBytes 1 c ++ zs 6 ++ leBytes 8 e ++ leBytes 16 d.toNat
  | .epochCommit k e t => leBytes 1 k ++ zs 7 ++ leBytes 8 e ++ leBytes 8 t
  | .imagePart o n m b => leBytes 4 o ++ leBytes 4 n ++ leBytes 1 m ++ zs 3 ++ leBytes 4 b.length ++ b
  | .imageVerdict c => leBytes 1 c ++ zs 7
  | .presence a st => leBytes 1 (b2n a) ++ leBytes 1 st ++ zs 6
  | .time k al dp t rx => leBytes 1 k ++ leBytes 1 (b2n al) ++ leBytes 1 dp ++ zs 5 ++ leBytes 8 t ++ zs 8 ++ leBytes 8 rx ++ zs 8
  | .mbx j ptr w a b => leBytes 1 j ++ leBytes 1 (b2n ptr) ++ zs 6 ++ leBytes 8 w.toNat ++ leBytes 8 a.toNat
      ++ (if ptr then leBytes 8 b.toNat else [])
  | .mbxAns st => leBytes 1 st ++ zs 7
  | .root _ | .extState .. | .sealReport _ | .tileWork .. | .raw _ => []

/-- The header of a message (Table 12.5) in front of its body; a message in transit keeps its bytes, with its hops left
and its `RETRY` as they stand now. -/
def encodeEnv (e : Envelope) : List Byte :=
  match e.msg with
  | .raw b => splice (splice b 1 (leBytes 1 (b2n e.retry))) 12 (leBytes 2 e.hops)
  | m =>
    if opcodeOf m = 0 then []
    else leBytes 1 (opcodeOf m) ++ leBytes 1 (b2n e.retry) ++ leBytes 2 (16 + (bodyOf m).length) ++ leBytes 2 e.dst ++ leBytes 2 e.src
      ++ leBytes 4 e.tag ++ leBytes 2 e.hops ++ leBytes 1 e.tenant ++ zs 1 ++ bodyOf m

/-- `HELLO` and `CREDIT` (Table 12.6) with their header. -/
def linkHeader (op len dst src : Nat) : List Byte := leBytes 1 op ++ zs 1 ++ leBytes 2 len ++ leBytes 2 dst ++ leBytes 2 src ++ zs 8
def helloBytes (dst : Nat) (h : Hello) : List Byte :=
  linkHeader 0x20 64 dst h.src ++ leBytes 8 h.dieLo.toNat ++ leBytes 8 h.dieHi.toNat ++ leBytes 1 h.port ++ leBytes 1 h.lanes
    ++ leBytes 1 h.slots ++ zs 1 ++ leBytes 2 h.cr0 ++ leBytes 2 h.cr1 ++ leBytes 2 h.cr3 ++ leBytes 2 h.cr4 ++ leBytes 2 h.cr5 ++ zs 2
    ++ leBytes 8 h.digest.toNat ++ leBytes 8 h.gen
def creditBytes (dst src vc count : Nat) : List Byte := linkHeader 0x21 24 dst src ++ leBytes 1 vc ++ zs 1 ++ leBytes 2 count ++ zs 4

/-- The VC of a message by its opcode and its length (Table 12.4): a `CHUNK_PUT` without data is a control message. -/
def vcOf (op len : Nat) : Nat :=
  if op ∈ [0x01, 0x03, 0x05, 0x07, 0x0B] then 0
  else if op ∈ [0x02, 0x04, 0x06, 0x0A, 0x0C] then 1
  else if op = 0x08 ∨ (op = 0x09 ∧ 48 < len) then 2
  else if op = 0x18 then 4
  else if op = 0x19 ∨ op = 0x1A then 5
  else 3

/-- A message's length is in range for its opcode (Table 12.6). -/
def lenOk (op len : Nat) : Bool :=
  match op with
  | 0x01 => len == 48
  | 0x02 => decide (48 ≤ len) && decide (len ≤ 4144)
  | 0x03 => len == 112
  | 0x04 | 0x0A | 0x11 | 0x12 | 0x16 | 0x17 | 0x1A | 0x21 => len == 24
  | 0x05 | 0x06 => len == 32
  | 0x07 | 0x10 | 0x14 => len == 40
  | 0x08 => decide (32 ≤ len) && decide (len ≤ 16416)
  | 0x09 => len == 48 || len == 16432
  | 0x0B => len == 160
  | 0x0C => len == 80
  | 0x13 => len == 48
  | 0x15 => decide (40 ≤ len) && decide (len ≤ 1056)
  | 0x18 => len == 56
  | 0x19 => len == 40 || len == 48
  | 0x20 => len == 64
  | _ => false

/-- The opcodes of Table 12.6 that travel in MSG flits, and those that travel in LINK flits. -/
def msgOpcode (op : Nat) : Bool :=
  (decide (0x01 ≤ op) && decide (op ≤ 0x0C)) || (decide (0x10 ≤ op) && decide (op ≤ 0x1A))
def linkOpcode (op : Nat) : Bool := op == 0x20 || op == 0x21

/-- Credits of a message, in 64 B units (R266). -/
def creditsFor (len : Nat) : Nat := cdiv len 64

/-- A message as flits: its first begins the message at body offset 0, and padding fills the last one (R262). -/
def cutFlits (kind vc seq : Nat) (b : List Byte) (e : Option Envelope) : List TxFlit :=
  let n := cdiv b.length 244
  (List.range n).map fun i =>
    { kind := kind, vc := vc, seq := (seq + i) % 4096, fmo := if i = 0 then 0 else 0xFF, body := slice b (244 * i) 244
      env := if i + 1 = n then e else none }

/-- A flit's bytes (Tables 12.2 and 12.3) with the acknowledgement of the moment it leaves. -/
def flitBytes (f : TxFlit) (ack : Nat) (valid nak : Bool) : List Byte :=
  let b := leBytes 8 (f.kind + f.vc * 2 ^ 2 + f.seq * 2 ^ 8 + ack * 2 ^ 20 + b2n valid * 2 ^ 32 + b2n nak * 2 ^ 33 + f.fmo * 2 ^ 34)
    ++ padTo 244 0 f.body
  b ++ leBytes 4 (crc32c b).toNat

/-- The last sequence received in order on a port. -/
def lastAck (p : Port) : Nat := if p.rxAny then (p.rxSeq + 4095) % 4096 else 0

/-- A flit as a port sends it now. -/
def sentFlit (n : Nat) (p : Port) (f : TxFlit) : Out := .flitSent n f.seq (flitBytes f (lastAck p) p.rxAny false)

end Sys2Proof.Machine
end

