-- ==== Sys2Proof/Machine/Send.lean ====
section
/-! DEFINITION. Sending on the Warren: routes (R271), reachability (R272), requests that wait for a response
(R273), and the reservation that a bulk message makes (R278). -/

namespace Sys2Proof.Machine

/-- A port's state. -/
def portOf (w : Wrn) (n : Nat) : Port := tget {} w.ports n

/-- UP or DEGRADED (Table 12.9). -/
def portUsable (p : Port) : Bool := p.st == 3 || p.st == 4

/-- The port a message for unit `d` leaves by (R271): the primary while it is usable and `d` is not on its
alternate, else a usable alternate. -/
def outPort (s : State) (d : Nat) : Option Nat :=
  match route s.vq.active (me s) d with
  | none => none
  | some (p, q) =>
    if portUsable (portOf s.wrn p) && !s.wrn.alt.contains d then some p
    else if q != 0xFF && portUsable (portOf s.wrn q) then some q
    else if portUsable (portOf s.wrn p) then some p else none

/-- A destination is unreachable (R272). -/
def unreachable (s : State) (d : Nat) : Bool := s.wrn.unreachable.contains d || (outPort s d).isNone

/-- The bulk messages (Table 12.4): `CHUNK_PUT` with data and `CHUNK_DATA`; their length. -/
def bulkLen (m : Msg) : Option Nat :=
  match m with
  | .chunkPut _ _ _ _ _ bytes => if bytes.isEmpty then none else some (48 + bytes.length)
  | .chunkData _ bytes => some (32 + bytes.length)
  | .raw b => if vcOf (fld b 0 1) b.length = 2 then some b.length else none
  | _ => none

/-- A free slot of a port's four (R278). -/
def freeBulkSlot (p : Port) : Option Nat := (List.range 4).find? fun i => (tget {} p.slots i).use == 0

/-- Change a port. -/
def onPort (n : Nat) (f : Port → Port) (s : State) : State :=
  { s with wrn := { s.wrn with ports := tmod {} n f s.wrn.ports } }

/-- The VC of a message. -/
def envVc (e : Envelope) : Nat := vcOf (opcodeOf e.msg) (encodeEnv e).length

/-- The replay buffer's size (R264). -/
def replayCap : Nat := 192

/-- A port may begin a message (R264, R266): it holds credits for all of it, and the replay buffer takes its flits. -/
def canLaunch (p : Port) (e : Envelope) : Bool :=
  let b := encodeEnv e
  (b.isEmpty || envVc e == 2 || decide (creditsFor b.length ≤ tget 0 p.credits (envVc e)))
    && decide (p.replay.length + cdiv b.length 244 ≤ replayCap)

/-- Put flits on a port (R264). -/
def putFlits (n : Nat) (fs : List TxFlit) (s : State) : State :=
  { onPort n (fun p => { p with
      txSeq := (p.txSeq + fs.length) % 4096
      replay := p.replay ++ fs
      ackAt := if p.replay.isEmpty then now s else p.ackAt }) s with
    out := ((fs.map (sentFlit n (portOf s.wrn n))).reverse) ++ s.out }

/-- Begin a message on a port, with its credits (R266). -/
def launch (n : Nat) (e : Envelope) (s : State) : State :=
  let b := encodeEnv e
  let v := envVc e
  let s := emit (.warren n e) (putFlits n (cutFlits 1 v (portOf s.wrn n).txSeq b (some e)) s)
  if b.isEmpty || v == 2 then s
  else onPort n (fun p => { p with credits := tset v (tget 0 p.credits v - creditsFor b.length) p.credits }) s

/-- A message waits for a port. -/
def waitPort (x : Waiting) (s : State) : State := { s with wrn := { s.wrn with transit := s.wrn.transit ++ [x] } }

/-- Send a message that is not bulk by a port, behind those of its VC that wait for it (R267). -/
def post (n : Nat) (arrived : Ns) (e : Envelope) (s : State) : State :=
  if canLaunch (portOf s.wrn n) e && !(s.wrn.transit.any fun w => w.port == n && w.rtag.isNone && (bulkLen w.env.msg).isNone && envVc w.env == envVc e)
  then launch n e s
  else waitPort { port := n, arrived := arrived, rtag := none, env := e } s

/-- Claim a slot of a port for sending and send its `RESERVE`, if one is free (R278 step 1); the message waits. -/
def reserveFor (n : Nat) (x : Waiting) (len : Nat) (s : State) : State :=
  match freeBulkSlot (portOf s.wrn n) with
  | none => waitPort x s
  | some i =>
    let tag := s.wrn.nextTag
    post n (now s) { dst := (portOf s.wrn n).peerUnit, src := me s, tag := tag, hops := fabN s.vq.active, tenant := 0, retry := false,
                     msg := .reserve len }
      (onPort n (fun p => { p with slots := tset i { use := 1, tag := tag, len := len, granted := false } p.slots })
        { s with wrn := { s.wrn with
            nextTag := (tag + 1) % 2 ^ 32, transit := s.wrn.transit ++ [{ x with rtag := some tag }] } })

/-- Put an envelope on its way by a port: at once, or after a reservation when it is a bulk message. -/
def sendBy (n : Nat) (arrived : Ns) (e : Envelope) (s : State) : State :=
  match bulkLen e.msg with
  | none => post n arrived e s
  | some len => reserveFor n { port := n, arrived := arrived, rtag := none, env := e } len s

/-- What waits for a port goes on, in the order it became ready (R266, R267). -/
def drainPort (n : Nat) (s : State) : State :=
  let mine (w : Waiting) : Bool := w.port == n && w.rtag.isNone
  (s.wrn.transit.filter mine).foldl (fun s w => sendBy n w.arrived w.env s)
    { s with wrn := { s.wrn with transit := s.wrn.transit.filter fun w => !mine w } }

/-- Send an envelope to its destination, or nothing where the destination is unreachable. -/
def sendEnv (e : Envelope) (s : State) : State :=
  if s.wrn.unreachable.contains e.dst then s
  else match outPort s e.dst with
    | none => s
    | some n => sendBy n (now s) e s

/-- Send a message that expects no response, or is one. -/
def sendMsg (dst tag tenant : Nat) (m : Msg) (s : State) : State :=
  sendEnv { dst := dst, src := me s, tag := tag, hops := fabN s.vq.active, tenant := tenant, retry := false, msg := m } s

/-- Send a request under a new tag, and keep it until its response arrives (R273). -/
def sendReq (dst tenant : Nat) (m : Msg) (s : State) : State :=
  let e : Envelope := { dst := dst, src := me s, tag := s.wrn.nextTag, hops := fabN s.vq.active, tenant := tenant,
                        retry := false, msg := m }
  sendEnv e { s with wrn := { s.wrn with
    nextTag := (s.wrn.nextTag + 1) % 2 ^ 32
    reqs := s.wrn.reqs ++ [{ tag := s.wrn.nextTag, env := e, sentAt := now s, tries := 0 }] } }

/-- Send a message to every other unit of a list. -/
def sendAll (dsts : List Nat) (tenant : Nat) (m : Msg) (s : State) : State :=
  (dsts.filter (· != me s)).foldl (fun s d => sendMsg d s.wrn.nextTag tenant m
    { s with wrn := { s.wrn with nextTag := (s.wrn.nextTag + 1) % 2 ^ 32 } }) s

/-- The request a response answers. -/
def outReq (s : State) (tag : Nat) : Option Outst := s.wrn.reqs.find? (·.tag == tag)

/-- A request is answered or abandoned. -/
def dropReq (tag : Nat) (s : State) : State :=
  { s with wrn := { s.wrn with reqs := s.wrn.reqs.filter (·.tag != tag) } }

/-- The first copy of a request from a peer is in progress (R273). -/
def dupOpen (src tag : Nat) (s : State) : State :=
  { s with wrn := { s.wrn with
      dups := s.wrn.dups.filter (fun d => !(d.src == src && d.tag == tag)) ++ [{ src := src, tag := tag, answered := none }] } }

/-- Answer a request of a peer, and keep the answer for its duplicates (R273). -/
def respond (dst tag tenant : Nat) (m : Msg) (s : State) : State :=
  sendMsg dst tag tenant m { s with wrn := { s.wrn with
    dups := s.wrn.dups.filter (fun d => !(d.src == dst && d.tag == tag)) ++ [{ src := dst, tag := tag, answered := some (now s, m) }] } }

/-- What is known of a request from a peer: not seen, in progress, or answered within 20 ms (R273). -/
def dupOf (s : State) (src tag : Nat) : Option (Option Msg) :=
  match s.wrn.dups.find? fun d => d.src == src && d.tag == tag with
  | none => none
  | some d => match d.answered with
    | none => some none
    | some (t, m) => if now s < t + 20 * msNs then some (some m) else none

/-- The units of the image in force other than this one. -/
def otherUnits (s : State) : List Nat := (List.range (fabN s.vq.active)).filter (· != me s)

/-- A peer counts as SERVING for service decisions: reachable, and its last known state is SERVING (3) or
DRAINING (4); a peer not yet heard from counts while it is reachable. -/
def peerServing (s : State) (u : Nat) : Bool :=
  if u = me s then s.uni.st == .serving || s.uni.st == .draining
  else !unreachable s u && (match tfind s.wrn.peerState u with
    | some st => st == 3 || st == 4
    | none => true)

end Sys2Proof.Machine
end

