-- ==== Sys2Proof/Machine/Intake.lean ====
section
/-! DEFINITION. What a unit does with a message addressed to it before its own chapter's rules: hearing its source
(R272), the checks of source and fields (R270 step 5), duplicates (R273), and the unit states that serve (R444). -/

namespace Sys2Proof.Machine

/-- Something has arrived from a unit (R272). -/
def hear (u : Nat) (s : State) : State :=
  { s with wrn := { s.wrn with heard := tset u (now s) s.wrn.heard, unreachable := s.wrn.unreachable.filter (· != u) } }

/-- Count a drop on a port, with its CORRECTED event (R270): the step of Table 12.7 and the opcode. -/
def dropOn (port step op : Nat) (s : State) : State :=
  raise { code := 0x0B02, sk := 4, si := port, d0 := step, d1 := op }
    (onPort port (fun p => { p with drops := p.drops + 1 }) s)

/-- A drop without an event, for a message that the unit state does not serve (R444). -/
def dropQuiet (src : Nat) (s : State) : State := onPort ((outPort s src).getD 0) (fun p => { p with drops := p.drops + 1 }) s

/-- Drop a message of a source that names no port of its own: counted on the port of its route. -/
def dropFrom (src step op : Nat) (s : State) : State := dropOn ((outPort s src).getD 0) step op s

/-- A source is a unit of the Warren (R270 step 5). -/
def srcOk (s : State) (src : Nat) : Bool := decide (src < fabN s.vq.active)

/-- SERVING or DRAINING (R444). -/
def unitServes (s : State) : Bool := s.uni.st == .serving || s.uni.st == .draining

/-- SERVING, DRAINING or HELD (Table 12.11). -/
def unitServesOrHeld (s : State) : Bool := unitServes s || s.uni.st == .held

/-- A request whose response carries a status byte: its duplicate is answered with the same response, bad fields with
`refused`, a state that does not serve it with `absent`; else it is applied. -/
def peerRequest (src tag tenant : Nat) (fields served : Bool) (refused absent : Msg) (k : State → State) (s : State) : State :=
  let s := hear src s
  match dupOf s src tag with
  | some (some m) => sendMsg src tag tenant m s
  | some none => s
  | none =>
    if !srcOk s src || !fields then respond src tag tenant refused s
    else if !served then respond src tag tenant absent s
    else k (dupOpen src tag s)

/-- A response of a peer to a request of this unit: dropped where its source or fields fail, or nothing waits for it. -/
def peerResponse (src tag op : Nat) (fields : Bool) (k : Outst → State → State) (s : State) : State :=
  let s := hear src s
  if !srcOk s src || !fields then dropFrom src 5 op s
  else match outReq s tag with
    | none => s
    | some o => k o s

end Sys2Proof.Machine
end

