-- ==== Sys2Proof/Machine/Parity.lean ====
section
/-! DEFINITION. The systematic Reed-Solomon code of the stripes (R230) over GF(2^8), and the symbols of the
inline ECC (R197) over GF(2^16). -/

namespace Sys2Proof.Machine

/-- Multiplication in GF(2^w) with reduction polynomial `poly` (without its top term), by `w` steps. -/
def gfMulAux (w poly : Nat) : Nat → Nat → Nat → Nat → Nat
  | 0, _, _, acc => acc
  | n + 1, a, b, acc =>
    gfMulAux w poly n
      (if (2 * a).testBit w then ((2 * a) % 2 ^ w) ^^^ poly else 2 * a) (b / 2)
      (if b % 2 = 1 then acc ^^^ a else acc)

/-- Product in GF(2^8), polynomial x^8 + x^4 + x^3 + x^2 + 1 (R230). -/
def gf8Mul (a b : Nat) : Nat := gfMulAux 8 0x1D 8 a b 0

/-- Product in GF(2^16), polynomial x^16 + x^12 + x^3 + x + 1 (R197). -/
def gf16Mul (a b : Nat) : Nat := gfMulAux 16 0x100B 16 a b 0

/-- A power by repeated multiplication. -/
def gfPow (mul : Nat → Nat → Nat) (a : Nat) : Nat → Nat
  | 0 => 1
  | n + 1 => mul a (gfPow mul a n)

/-- The inverse in GF(2^8): a^254. -/
def gf8Inv (a : Nat) : Nat := gfPow gf8Mul a 254

/-- The coefficient a_{j,i} = 1 / (j ⊕ (m + i)) (R230). -/
def rsCoef (m j i : Nat) : Nat := gf8Inv (j ^^^ (m + i))

/-- A linear combination of byte strings over GF(2^8), `n` bytes. -/
def rsCombine (n : Nat) (terms : List (Nat × List Byte)) : List Byte :=
  terms.foldl (fun acc t =>
    if t.1 = 0 then acc
    else List.zipWith (fun (x y : Byte) => x ^^^ BitVec.ofNat 8 (gf8Mul t.1 y.toNat)) acc (padTo n 0 t.2))
    (List.replicate n 0)

/-- Parity chunk `j` of data chunks. -/
def rsParity (n m j : Nat) (data : List (List Byte)) : List Byte :=
  rsCombine n ((List.range data.length).map fun i => (rsCoef m j i, data.getD i []))

/-- The generator row of chunk `c` of a (k, m) stripe. -/
def rsRow (k m c : Nat) : List Nat :=
  if c < k then (List.range k).map fun i => if i = c then 1 else 0
  else (List.range k).map fun i => rsCoef m (c - k) i

/-- Add a multiple of a row to a row. -/
def rowAdd (f : Nat) (a b : List Nat) : List Nat := List.zipWith (fun x y => x ^^^ gf8Mul f y) a b

/-- Gauss-Jordan elimination over GF(2^8) on rows of length 2k, from column `c` on, by fuel. -/
def gauss : Nat → Nat → List (List Nat) → Option (List (List Nat))
  | 0, _, rows => some rows
  | n + 1, c, rows =>
    match (List.range rows.length).find? fun r => decide (c ≤ r) && (rows.getD r []).getD c 0 != 0 with
    | none => none
    | some p =>
      let pr := rows.getD p []
      let iv := gf8Inv (pr.getD c 0)
      let pr := pr.map (gf8Mul iv)
      let rows := (rows.set p (rows.getD c [])).set c pr
      gauss n (c + 1) ((List.range rows.length).map fun r =>
        if r = c then pr else rowAdd ((rows.getD r []).getD c 0) (rows.getD r []) pr)

/-- Rebuild chunk `c` of a (k, m) stripe from the first k of the chunks given (R230): none with fewer than k. -/
def rsRebuild (n k m c : Nat) (have_ : List (Nat × List Byte)) : Option (List Byte) :=
  let use := have_.take k
  if use.length < k then none
  else
    let rows := (List.range k).map fun r =>
      rsRow k m ((use.getD r (0, [])).1) ++ (List.range k).map fun i => if i = r then 1 else 0
    match gauss k 0 rows with
    | none => none
    | some inv =>
      let data := (List.range k).map fun i =>
        rsCombine n ((List.range k).map fun r => ((inv.getD i []).getD (k + r) 0, (use.getD r (0, [])).2))
      if c < k then some (data.getD c []) else some (rsParity n m (c - k) data)

end Sys2Proof.Machine
end

