-- ==== Sys2Proof/Machine/Tier.lean ====
section
/-! DEFINITION. The DRAM tier as a store: the address map (R201, R202), pools and cache (R203 to R206), block
records and stored strips (R174, R202), and the admission units that an access makes (R207). -/

namespace Sys2Proof.Machine

/-- Bytes of one SID: 11.25 GiB (Table 10.1). -/
def sidBytes : Nat := 45 * 2 ^ 28

/-- A place in the stacks. -/
structure Place where
  lsid : Nat
  pc : Nat
  bank : Nat
  row : Nat
  column : Nat
  half : Nat
deriving DecidableEq, Repr

/-- The fold of a grain index (R201). -/
def foldPc (fold : Bool) (j : Nat) : Nat :=
  if fold then bits j 4 0 ^^^ bits j 9 5 ^^^ bits j 14 10 ^^^ bits j 19 15 else bits j 4 0

/-- The address map of R201: L logical SIDs, grain 2^g. -/
def mapAddr (l g : Nat) (fold : Bool) (a : Nat) : Place :=
  let c := a >>> g
  let o := a % 2 ^ g
  let j := c / l
  let b := (j >>> 5) * 2 ^ g + o
  let q := b >>> 6
  let r := q / 30
  { lsid := c % l, pc := foldPc fold j, bank := r % 16, row := r / 16, column := q % 30, half := bits b 5 5 }

/-- The place of metadata line `m` (R202). -/
def mapMeta (l : Nat) (fold : Bool) (m : Nat) : Place :=
  let j := m / l
  let r := j >>> 5
  { lsid := m % l, pc := foldPc fold j, bank := r % 16, row := r / 16, column := 31, half := 0 }

/-- The metadata byte of the block record of tier address `a` (R202). -/
def recByte (a : Nat) : Nat := 32 * (a >>> 12)

/-- The place of a tier address under the image in force. -/
def placeOf (s : State) (a : Nat) : Place :=
  mapAddr s.drt.logical (ilGrain (mapImage s) (me s)) (ilFold (mapImage s) (me s)) a

/-- The physical SID that backs a logical SID (R200). -/
def physOf (d : Drt) (l : Nat) : Nat := tget 0 d.sidmap l

/-- The unit-wide PC of a place: 32 × stack + PC. -/
def unitPc (d : Drt) (p : Place) : Nat := 32 * (physOf d p.lsid / 4) + p.pc

/-- The tier controller of a tier address is halted by FREEZE (R218). -/
def frozenAt (s : State) (a : Nat) : Bool := s.drt.frozen.contains (unitPc s.drt (placeOf s a) / 4)

/-- The metadata line of the block record of a tier address (R202). -/
def recLine (a : Nat) : Nat := recByte a / 64

/-- The first copy of a metadata line lies on a halted controller (R218). -/
def metaFrozen (s : State) (m : Nat) : Bool :=
  s.drt.frozen.contains (unitPc s.drt (mapMeta s.drt.logical (ilFold (mapImage s) (me s)) m) / 4)

/-! ### Pools and cache -/

/-- The tier address where the cache begins (R203). -/
def cacheBase (s : State) : Nat := (partPinned (poolImage s) (me s) + partVolatile (poolImage s) (me s)) * gib

/-- The number of cache sets (R204). -/
def cacheSets (s : State) : Nat := (s.drt.logical * sidBytes - cacheBase s) / 32768 / 16

/-- The key of a tile (R204). -/
def tileKey (tenant tile : Nat) : Nat := tenant * 2 ^ 35 + tile

/-- A way of the cache. -/
def wayOf (d : Drt) (i : Nat) : Way := tget {} d.ways i

/-- The way that holds a tile, as 16 × set + way. -/
def findWay (s : State) (tenant tile : Nat) : Option Nat :=
  let k := tileKey tenant tile
  let b := 16 * (k % cacheSets s)
  (List.range 16).findSome? fun w =>
    let y := wayOf s.drt (b + w)
    if y.valid && y.key == k then some (b + w) else none

/-- The tier address of a way. -/
def wayAddr (s : State) (i : Nat) : Nat := cacheBase s + i * 32768

/-- The slot of a granule in a pool. -/
def slotOf (pool : Tbl (Nat × Nat)) (ext g : Nat) : Option Nat := (pool.find? fun p => p.2 == (ext, g)).map (·.1)

/-- The lowest free slot of a pool (R203). -/
def freeSlot (pool : Tbl (Nat × Nat)) : Nat :=
  (List.range (pool.length + 1)).find? (fun i => (tfind pool i).isNone) |>.getD pool.length

/-- Where a tile stands. -/
inductive Spot where
  /-- In the tier at this address; the way if it is a cache tile. -/
  | at (addr : Nat) (way : Option Nat)
  | absent
deriving DecidableEq, Repr

/-- The tier address of a tile of granule `g` of extent `e`, if this unit's tier holds it (R203, R204). -/
def locate (s : State) (e : ExtRec) (g tile : Nat) : Spot :=
  let inG := (tile % (gib / 32768)) * 32768
  if e.kind = 3 then
    match slotOf s.drt.volatile e.id g with
    | some i => .at ((partPinned (poolImage s) (me s) + i) * gib + inG) none
    | none => .absent
  else if e.pinned then
    match slotOf s.drt.pinned e.id g with
    | some i =>
      if s.drt.unfilled.contains (e.tenant, tile) then .absent else .at (i * gib + inG) none
    | none => .absent
  else
    match findWay s e.tenant tile with
    | some i => .at (wayAddr s i) (some i)
    | none => .absent

/-- Where a fill of the tile writes its blocks, filled or not. -/
def fillAddr (s : State) (e : ExtRec) (g tile : Nat) : Option Nat :=
  let inG := (tile % (gib / 32768)) * 32768
  if e.kind ≠ 3 ∧ e.pinned = true then (slotOf s.drt.pinned e.id g).map fun i => i * gib + inG
  else match locate s e g tile with
    | .at a _ => some a
    | .absent => none

/-- VICTIM_CHOICE (R206): eligible ways of a set, then the first rule that applies; with the ways whose `REF`
is cleared on the way. `able` rules out DIRTY tiles that cannot commit (R253). -/
def victim (d : Drt) (able : Nat → Bool) (set : Nat) : Option (Nat × Drt) :=
  let ws := (List.range 16).map fun w => 16 * set + w
  let ok := ws.filter fun i => (wayOf d i).busy == 0 && !(wayOf d i).filling && !(wayOf d i).pinned && able i
  match ok.find? fun i => !(wayOf d i).valid with
  | some i => some (i, d)
  | none =>
    match ok.find? fun i => !(wayOf d i).ref with
    | some i => some (i, d)
    | none =>
      match ok with
      | [] => none
      | i :: _ =>
        some (i, { d with ways := ok.foldl (fun t j => tmod {} j (fun y => { y with ref := false }) t) d.ways })

/-! ### Blocks -/

/-- The block record of a tier address (R202). -/
def blockRec (d : Drt) (a : Nat) : BlockRec := tget {} d.blocks (a / 4096)

/-- The stored bytes of each strip of the block at a tier address (R174). -/
def storedStrips (d : Drt) (a : Nat) : List (List Byte) :=
  let base := a / 4096 * 4096
  (List.range 8).map fun k => mread d.tier (base + 512 * k) (storedLen (bmwLen (blockRec d a).bmw k))

/-- Write the stored bytes of strip `k`, and nothing beyond them (R174). -/
def putStrip (a k : Nat) (bytes : List Byte) (d : Drt) : Drt :=
  { d with tier := mwrite (a / 4096 * 4096 + 512 * k) bytes d.tier }

/-- Write a block record. -/
def putRec (a : Nat) (r : BlockRec) (d : Drt) : Drt := { d with blocks := tset (a / 4096) r d.blocks }

/-- Write a whole block: strips, then its record. -/
def putBlock (a : Nat) (bmw : BitVec 96) (masks : List Byte) (strips : List (List Byte)) (d : Drt) : Drt :=
  putRec a { bmw := bmw, masks := masks }
    ((List.range 8).foldl (fun d k => putStrip a k (strips.getD k []) d) d)

/-- Decode the strips of the block at a tier address that a read of strip `k` needs (R184). -/
def readBlock (d : Drt) (a k : Nat) : Except DecFault (List (Nat × List Byte)) :=
  let r := blockRec d a
  decodeStrips r.bmw r.masks (storedStrips d a) (stripsFor r.bmw k)

/-- The poison flags of the lines of strips `ks` of a block: length code 31 with their masks (R178). -/
def recPoison (r : BlockRec) : BitVec 64 :=
  (List.range 8).foldl (fun p k =>
    if bmwLen r.bmw k = 31 then p ||| ((r.masks.getD k 0).setWidth 64 <<< (8 * k)) else p) 0

/-- The record of a block names a format and an integrity mode that exist (Table 9.5, step 2). -/
def recReadable (r : BlockRec) : Bool := decide (bmwFmt r.bmw ≤ 5) && decide (bmwMode r.bmw ≤ 1)

/-- Poison a set of strips of a block, or all of it, under R185 step 4: every line of the strips becomes
poisoned, the strips are rewritten with code 31 and the block CRC is recomputed. -/
def poisonStrips (a : Nat) (ks : List Nat) (lines : Nat → Byte) (d : Drt) : Drt :=
  let r := blockRec d a
  let st := storedStrips d a
  let dec (k : Nat) : List Byte :=
    match decodeStrip (bmwFmt r.bmw) (bmwLen r.bmw k) (st.getD k []) with
    | .ok b => b
    | .error _ => List.replicate 512 0
  let strip (k : Nat) : List Byte :=
    if ks.contains k then
      (List.range 8).flatMap fun j => if (lines k).getLsbD j then List.replicate 64 0 else slice (dec k) (64 * j) 64
    else dec k
  let mask (k : Nat) : Byte :=
    (if bmwLen r.bmw k = 31 then r.masks.getD k 0 else 0) ||| (if ks.contains k then lines k else 0)
  let out := (List.range 8).map fun k =>
    if ks.contains k then (31, strip k) else (bmwLen r.bmw k, st.getD k [])
  let crc := if bmwMode r.bmw = 1 then crc32c ((List.range 8).flatMap strip) else 0
  if recReadable r then
    putBlock a (mkBmw (out.map (·.1)) (bmwFmt r.bmw) (bmwMode r.bmw) crc) ((List.range 8).map mask) (out.map (·.2)) d
  else putBlock a (mkBmw (List.replicate 8 31) 0 0 0) (List.replicate 8 0xFF) (List.replicate 8 (List.replicate 512 0)) d

/-! ### Admission units (R207) -/

/-- The next unit number. -/
def nextUid (d : Drt) : Nat := ((d.queue ++ d.admitted).map (·.uid)).foldl max 0 + 1

/-- Enter an access of requester `q` in its queue: one unit of at most 512 B (R207). -/
def enqueueUnit (q addr len : Nat) (isWrite : Bool) (data : List Byte) (s : State) : State :=
  if len = 0 then s
  else
    let p := placeOf s addr
    { s with drt := { s.drt with queue := s.drt.queue ++ [
      { uid := nextUid s.drt, q := q, addr := addr, len := len, isWrite := isWrite, data := data, entered := now s,
        pc := unitPc s.drt p, sid := physOf s.drt p.lsid, bank := p.bank, row := p.row, column := p.column }] } }

/-- Enter the units of strips of a block. -/
def enqueueStrips (q addr : Nat) (ks : List Nat) (isWrite : Bool) (s : State) : State :=
  ks.foldl (fun s k =>
    enqueueUnit q (addr / 4096 * 4096 + 512 * k) (storedLen (bmwLen (blockRec s.drt addr).bmw k)) isWrite [] s) s

end Sys2Proof.Machine
end

