-- ==== Sys2Proof/Machine/Staging.lean ====
section
/-! DEFINITION. The strip staging buffer (R186 to R191): entries, fills, merges, write-backs and evictions, and
what a codec fault records. -/

namespace Sys2Proof.Machine

/-- The entry of a block. -/
def stgFind (c : Cdc) (tenant block : Nat) : Option StgEntry :=
  c.stg.find? fun e => e.tenant == tenant && e.block == block

/-- The entry is that of a block. -/
def isEntry (tenant block : Nat) (e : StgEntry) : Bool := e.tenant == tenant && e.block == block

/-- Replace the entry of a block. -/
def stgPut (e : StgEntry) (c : Cdc) : Cdc :=
  { c with stg := c.stg.filter (fun x => !isEntry e.tenant e.block x) ++ [e] }

/-- Drop the entry of a block. -/
def stgDrop (tenant block : Nat) (c : Cdc) : Cdc := { c with stg := c.stg.filter fun x => !isEntry tenant block x }

/-- The strip `k` of an entry. -/
def stripOf (e : StgEntry) (k : Nat) : StgStrip := e.strips.getD k {}

/-- An entry has a dirty strip. -/
def entryDirty (e : StgEntry) : Bool := e.strips.any (·.dirty)

/-- The tier address of a block whose tile stands in this unit's tier, or is being filled there, with its extent. -/
def blockSpot (s : State) (tenant block : Nat) : Option (ExtRec × Nat) :=
  match extAt (extView s) tenant (block * 4096) with
  | none => none
  | some (e, g) => (fillAddr s e g (block / 8)).map fun a => (e, a + (block % 8) * 4096)

/-- The logical engines, ascending, that carry a stream. -/
def streamEngines (s : State) (st : Nat) : List Nat :=
  (List.range 8).filter fun i =>
    (tfind s.cdc.engMap i).isSome && (List.range 16).any fun k => (codecSlot s.vq.active (me s) i k).1 == st

/-- The logical engine that does the work of a stream on a block (R193). -/
def engineFor (s : State) (st block : Nat) : Nat :=
  let l := streamEngines s st
  if l.isEmpty then 0 else l.getD (block % l.length) 0

/-- Count strips decoded or encoded by the engine of a stream. -/
def countDec (st block n : Nat) (s : State) : State :=
  { s with cdc := { s.cdc with dec := tinc (engineFor s st block) n s.cdc.dec } }
def countEnc (st block n : Nat) (s : State) : State :=
  { s with cdc := { s.cdc with enc := tinc (engineFor s st block) n s.cdc.enc } }

/-- Record a fault found by the engine of a stream (Table 9.9): the counts, and the capture while none stands. -/
def codecFault (st tenant block : Nat) (f : DecFault) (outcome : Nat) (s : State) : State :=
  let i := engineFor s st block
  let c := s.cdc
  let c := if f.isCheck then { c with checkFaults := tset i (sat 16 (tget 0 c.checkFaults i + 1)) c.checkFaults }
    else { c with codeFaults := tset i (sat 16 (tget 0 c.codeFaults i + 1)) c.codeFaults }
  { s with cdc :=
      if c.faultValid then c
      else { c with faultAddr := block * 4096, faultValid := true, faultStrip := f.strip, faultCheck := f.isCheck,
                    faultReason := f.reason, faultOutcome := outcome, faultTenant := tenant } }

/-- The tile of a block differs from the Hoard from now on: `DIRTY` of its way, or of its pinned tile, and the
time of the first write since the last commit (R233). VOLATILE tiles are never written to the Hoard. -/
def markDirty (tenant tile : Nat) (s : State) : State :=
  match extAt (extView s) tenant (tile * 32768) with
  | none => s
  | some (e, g) =>
    if e.kind = 3 then s
    else
      let first (h : Hrd) : Hrd :=
        if h.firstWrite.any (fun w => w.1 == tenant && w.2.1 == tile) then h
        else { h with firstWrite := h.firstWrite ++ [(tenant, tile, now s)] }
      match locate s e g tile with
      | .at _ (some i) =>
        { s with
          drt := { s.drt with ways := tmod {} i (fun y => { y with dirty := true }) s.drt.ways }
          hrd := first s.hrd, pwr := { s.pwr with drained := false } }
      | _ =>
        { s with
          drt := { s.drt with dirtyPinned := addNew (tenant, tile) s.drt.dirtyPinned }
          hrd := first s.hrd, pwr := { s.pwr with drained := false } }

/-- The data of strip `k` of a block as DRAM holds it; a strip that fails its checks has been poisoned before it is filled
(R185), and reads as zero. -/
def tierStrip (d : Drt) (a k : Nat) : List Byte :=
  let r := blockRec d a
  match decodeStrip (bmwFmt r.bmw) (bmwLen r.bmw k) ((storedStrips d a).getD k []) with
  | .ok b => b
  | .error _ => List.replicate 512 0

/-- Fill the strips `ks` of an entry that are not present from DRAM (R186). -/
def fillStrips (d : Drt) (a : Nat) (ks : List Nat) (e : StgEntry) : StgEntry :=
  ks.foldl (fun e k =>
    if (stripOf e k).present then e
    else
      let r := blockRec d a
      { e with
        data := splice e.data (512 * k) (tierStrip d a k)
        strips := (padTo 8 {} e.strips).set k { stripOf e k with present := true }
        poison := if bmwLen r.bmw k = 31 then e.poison ||| ((r.masks.getD k 0).setWidth 64 <<< (8 * k)) else e.poison }) e

/-- The strips of a list that the entry of a block does not hold yet. -/
def notStaged (s : State) (tenant block : Nat) (ks : List Nat) : List Nat :=
  match stgFind s.cdc tenant block with
  | some x => ks.filter fun k => !(stripOf x k).present
  | none => ks

/-- The first check that a fill of strips from DRAM fails (R183, R186): under LENCRC the block is checked as one. -/
def stripFault (s : State) (tenant block a : Nat) (ks : List Nat) : Option DecFault :=
  let r := blockRec s.drt a
  let ms := notStaged s tenant block ks
  if ms.isEmpty then none
  else match decodeStrips r.bmw r.masks (storedStrips s.drt a) (if bmwMode r.bmw = 1 then List.range 8 else ms) with
    | .error f => some f
    | .ok _ => none

/-- R185 step 4: the failing strip, or the block under LENCRC, becomes poison, with a DEFERRED event. -/
def poisonFault (e : ExtRec) (st block a : Nat) (f : DecFault) (s : State) : State :=
  let s := codecFault st e.tenant block f 3 s
  let ks := if bmwMode (blockRec s.drt a).bmw = 1 then List.range 8 else [f.strip]
  raise { code := 0x0802, tenant := e.tenant, sk := 2, si := e.id, addr := block * 4096, d0 := f.reason, d1 := f.strip }
    { s with drt := poisonStrips a ks (fun _ => 0xFF) s.drt }

/-- Poison the strips of a fill that fail their checks, one fault after another. -/
def poisonFaults (e : ExtRec) (st block a : Nat) (ks : List Nat) : Nat → State → State
  | 0, s => s
  | n + 1, s =>
    match stripFault s e.tenant block a ks with
    | none => s
    | some f => poisonFaults e st block a ks n (poisonFault e st block a f s)

/-- An empty entry for a block. -/
def newEntry (tenant block : Nat) (t : Ns) : StgEntry :=
  { tenant := tenant, block := block, strips := List.replicate 8 {}, data := List.replicate 4096 0, poison := 0, lastUse := t }

/-- The strips that a write-back of strip `k` writes with it (R187, R191): all eight when the block's format or
mode changes, every dirty strip under LENCRC, strip `k` alone under LEN. -/
def writebackSet (e : ExtRec) (r : BlockRec) (x : StgEntry) (ks : List Nat) : List Nat :=
  if bmwFmt r.bmw ≠ e.fmt ∨ bmwMode r.bmw ≠ b2n e.crc then List.range 8
  else if e.crc then (List.range 8).filter fun k => (stripOf x k).dirty || ks.contains k
  else ks

/-- Write back strips of an entry (R187): encode a snapshot, the block CRC, the coded bytes and then the BMW.
The strips stay dirty, marked as being written. On a controller halted by FREEZE the coded bytes are dropped, and the
record goes to its second copy alone (R218). -/
def writeback (tenant block : Nat) (ks : List Nat) (s : State) : State :=
  match stgFind s.cdc tenant block, blockSpot s tenant block with
  | some x, some (e, a) =>
    let ws := writebackSet e (blockRec s.drt a) x ks
    let s := poisonFaults e (stripOf x (ks.headD 0)).stream block a (if e.crc || ws.length == 8 then List.range 8 else ws) 9 s
    let r := blockRec s.drt a
    let x := fillStrips s.drt a (if e.crc || ws.length == 8 then List.range 8 else ws) x
    let st := (List.range 8).map fun k =>
      if ws.contains k then storeStrip e.fmt (stripMask x.poison k) (slice x.data (512 * k) 512)
      else (bmwLen r.bmw k, [])
    let crc := if e.crc then crc32c x.data else 0
    let d := ws.foldl (fun d k => if frozenAt s (a + 512 * k) then d else putStrip a k ((st.getD k (0, [])).2) d) s.drt
    let d := if metaFrozen s (recLine a) then { d with staleMeta := addNew (recLine a) d.staleMeta } else d
    let d := putRec a {
      bmw := mkBmw (st.map (·.1)) e.fmt (b2n e.crc) crc
      masks := (List.range 8).map fun k =>
        if ws.contains k then stripMask x.poison k else r.masks.getD k 0 } d
    let out := (ws.map fun k => storedLen ((st.getD k (0, [])).1) / 32).sum
    let x := { x with
      strips := (List.range 8).map fun k =>
        if ws.contains k then { stripOf x k with writing := true, dirty := true } else stripOf x k }
    let s := { s with
      drt := d
      cdc := stgPut x { s.cdc with
        writebacks := sat 32 (s.cdc.writebacks + ws.length)
        unitsIn := s.cdc.unitsIn + 16 * ws.length, unitsOut := s.cdc.unitsOut + out } }
    let s := ws.foldl (fun s k => countEnc (stripOf x k).stream block 1 s) s
    markDirty tenant (block / 8) (enqueueStrips 26 a ws true s)
  | _, _ => s

/-- The write-back of a block is done (R187 step 4): a strip not written again since becomes clean. -/
def writebackDone (tenant block : Nat) (s : State) : State :=
  match stgFind s.cdc tenant block with
  | none => s
  | some x =>
    { s with
      cdc := stgPut { x with
        strips := x.strips.map fun p => if p.writing then { p with writing := false, dirty := false } else p } s.cdc }

/-- STAGING_FLUSH (R17, R187): write back every dirty strip of a block and complete the write. -/
def flushBlock (tenant block : Nat) (s : State) : State :=
  match stgFind s.cdc tenant block with
  | none => s
  | some x =>
    let ks := (List.range 8).filter fun k => (stripOf x k).dirty
    if ks.isEmpty then s else writebackDone tenant block (writeback tenant block ks s)

/-- Flush the staged blocks of a tile, or of an extent's range of blocks. -/
def flushTile (tenant tile : Nat) (s : State) : State :=
  (List.range 8).foldl (fun s j => flushBlock tenant (tile * 8 + j) s) s
def flushRange (tenant lo hi : Nat) (s : State) : State :=
  (s.cdc.stg.filter fun e => e.tenant == tenant && decide (lo ≤ e.block * 4096) && decide (e.block * 4096 < hi)).foldl
    (fun s e => flushBlock tenant e.block s) s

/-- Drop the staged blocks of a tile. -/
def dropTile (tenant tile : Nat) (s : State) : State :=
  { s with cdc := { s.cdc with stg := s.cdc.stg.filter fun e => !(e.tenant == tenant && e.block / 8 == tile) } }

/-- The DRAM address of an entry's block, for ties (R188). -/
def entryAddr (s : State) (e : StgEntry) : Nat :=
  match blockSpot s e.tenant e.block with
  | some (_, a) => a
  | none => 0

/-- The entry that comes first by a time, ties to the lower DRAM address. -/
def oldestEntry (s : State) (key : StgEntry → Nat) (l : List StgEntry) : Option StgEntry :=
  l.foldl (fun b e => match b with
    | none => some e
    | some x => if key e < key x ∨ (key e = key x ∧ entryAddr s e < entryAddr s x) then some e else some x) none

/-- The last write of an entry. -/
def entryLastWrite (e : StgEntry) : Nat := ((e.strips.filter (·.dirty)).map (·.lastWrite)).foldl max 0

/-- STAGING_ENTRY_EVICTION (R188): one eviction, a clean entry of oldest last use first, else the dirty entry of
oldest last write after its write-back. -/
def evictOne (s : State) : State :=
  match oldestEntry s (·.lastUse) (s.cdc.stg.filter fun e => !entryDirty e) with
  | some e => { s with cdc := stgDrop e.tenant e.block s.cdc }
  | none =>
    match oldestEntry s entryLastWrite s.cdc.stg with
    | some e =>
      let s := flushBlock e.tenant e.block s
      { s with cdc := stgDrop e.tenant e.block s.cdc }
    | none => s

/-- Withdrawn SRAM banks of a region (R91). -/
def banksLost (s : State) (lo hi : Nat) : Nat := (s.uni.banksOut.filter fun b => decide (lo ≤ b) && decide (b < hi)).length

/-- Keep at least 256 of the 4,096 entries free (R188) when one more is to be taken; a withdrawn bank holds 64 (R91). -/
def makeRoom (s : State) : State :=
  if 3840 - 64 * banksLost s 128 192 ≤ s.cdc.stg.length then evictOne s else s

/-- The strips that a write to strip `k` fills (R186): under LENCRC all eight. -/
def fillSet (s : State) (e : ExtRec) (a k : Nat) : List Nat :=
  if e.crc || bmwMode (blockRec s.drt a).bmw == 1 then List.range 8 else [k]

/-- The entry of a block, allocated and filled for a write to strip `k` (R186). -/
def entryFor (tenant block k : Nat) (s : State) : State × StgEntry :=
  match blockSpot s tenant block with
  | none => (s, (stgFind s.cdc tenant block).getD (newEntry tenant block (now s)))
  | some (e, a) =>
    let have_ := (stgFind s.cdc tenant block).isSome
    let s := if have_ then s else makeRoom s
    let x := (stgFind s.cdc tenant block).getD (newEntry tenant block (now s))
    let x := fillStrips s.drt a (fillSet s e a k) x
    (s, { x with lastUse := now s })

/-- Merge bytes into a line under byte enables (R186). -/
def mergeLine (old new : List Byte) (be : BitVec 64) : List Byte :=
  (List.range 64).map fun i => if be.getLsbD i then new.getD i 0 else old.getD i 0

/-- An accepted write invalidates the copies of its tile in operand SRAM (R292). -/
def dropSram (tenant tile : Nat) (s : State) : State :=
  { s with eng := { s.eng with
      engines := s.eng.engines.map fun (k, e) =>
        (k, { e with sram := e.sram.filter fun x => !(x.tenant == tenant && x.tile == tile) }) } }

/-- A write of a line into its entry (R186, R189, R190): `stream` is the stream that encodes it later. -/
def stageWrite (tenant line stream : Nat) (be : BitVec 64) (data : List Byte) (poison : Bool) (s : State) : State :=
  let block := line / 64
  let i := line % 64
  let k := i / 8
  let (s, x) := entryFor tenant block k s
  let old := slice x.data (64 * i) 64
  let new := if poison then List.replicate 64 0 else mergeLine old data be
  let p := if poison then x.poison ||| (1 <<< i)
    else if be = BitVec.allOnes 64 then x.poison &&& ~~~((1 : BitVec 64) <<< i) else x.poison
  let x := { x with
    data := splice x.data (64 * i) (if p.getLsbD i then List.replicate 64 0 else new)
    poison := p
    strips := (padTo 8 {} x.strips).set k
      { stripOf x k with present := true, dirty := true, writing := false, lastWrite := now s, stream := stream } }
  markDirty tenant (block / 8) <| dropSram tenant (block / 8) { s with cdc := stgPut x s.cdc, pwr := { s.pwr with drained := false } }

/-- An operator output that covers a strip (R186): it replaces the whole strip in the block's entry where there is one, and is
encoded to DRAM by the export stream where there is none. -/
def outputStrip (tenant block k : Nat) (data : List Byte) (mask : Byte) (s : State) : State :=
  let staged := (stgFind s.cdc tenant block).isSome
  let x := (stgFind s.cdc tenant block).getD (newEntry tenant block (now s))
  let x := { x with
    data := splice x.data (512 * k) (padTo 512 0 data)
    poison := (x.poison &&& ~~~((0xFF : BitVec 64) <<< (8 * k))) ||| (mask.setWidth 64 <<< (8 * k))
    lastUse := now s
    strips := (padTo 8 {} x.strips).set k
      { present := true, dirty := true, writing := false, lastWrite := now s, stream := 0x21 } }
  let s := markDirty tenant (block / 8) <| dropSram tenant (block / 8)
    { s with cdc := stgPut x s.cdc, pwr := { s.pwr with drained := false } }
  if staged || (blockSpot s tenant block).isNone then s
  else
    let s := writeback tenant block [k] s
    { s with cdc := stgDrop tenant block s.cdc }

end Sys2Proof.Machine
end

