-- ==== Sys2Proof/Machine/HoardCore.lean ====
section
/-! DEFINITION. The Hoard as a store (chapter 11): packing (R225), chunk placement (R231), the writer's stripes
and their commit (R233 to R235), the tile directory (R227) and the reading of packed records (R442). -/

namespace Sys2Proof.Machine

/-- Bytes of a chunk: one page (R223). -/
def chunkBytes : Nat := 16384

/-- A bay. -/
def bayOf (h : Hrd) (b : Nat) : Bay := tget {} h.bays b

/-- Change a bay. -/
def onBay (b : Nat) (f : Bay → Bay) (s : State) : State :=
  { s with hrd := { s.hrd with bays := tmod {} b f s.hrd.bays } }

/-- The bays whose Drey is MOUNTED, ascending. -/
def mountedBays (h : Hrd) : List Nat := (List.range 16).filter fun b => (bayOf h b).st == 3

/-- The chunks of a bay can be read: MOUNTED, EVACUATING or EVACUATED, with its media key loaded (R244). -/
def bayReadable (y : Bay) : Bool :=
  (y.st == 3 || y.st == 6 || y.st == 7) && (match y.drey with
    | some d => d.unwraps
    | none => false)

/-- The name of a stripe: writer and sequence. -/
def stripeId (w n : Nat) : Nat := w * 2 ^ 54 + n
def stripeWriter (i : Nat) : Nat := i / 2 ^ 54
def stripeSeq (i : Nat) : Nat := i % 2 ^ 54

/-- The position of a unit among the HOARD units. -/
def hoardPos (l : List Nat) (u : Nat) : Nat := l.findIdx (· == u)

/-- The holding unit of chunk `c` of a stripe (R231). -/
def holderOf (s : State) (stripe c : Nat) : Nat :=
  let h := hoardUnits s.vq.active
  if h.isEmpty then me s
  else h.getD ((hoardPos h (stripeWriter stripe) + stripeSeq stripe + c) % h.length) 0

/-- The recorded holder of a chunk where this unit wrote the stripe, else that of R231. -/
def holderNow (s : State) (stripe c : Nat) : Nat :=
  match tfind s.hrd.stripes stripe with
  | some r => r.holders.getD c (holderOf s stripe c)
  | none => holderOf s stripe c

/-- A readable chunk held here, with its bay. -/
def findChunk (h : Hrd) (stripe c : Nat) : Option (Nat × Chunk) :=
  (List.range 16).findSome? fun b =>
    let y := bayOf h b
    if bayReadable y then
      (y.chunks.find? fun x => x.stripe == stripe && x.idx == c && !x.damaged).map fun x => (b, x)
    else none

/-- The pages a Drey gives before its free erase blocks stand at the reclaim threshold (R236). -/
def dreyPages : Nat := 128 * 4096 * 2048 * 98 / 100

/-- The Drey in a bay can take a chunk (R231). -/
def canTake (y : Bay) : Bool := y.st == 3 && decide (y.removal < 4) && decide (y.chunks.length < dreyPages)

/-- The spare dies that work and serve no logical die, ascending (R223). -/
def freeSpares (d : DreyId) : List Nat :=
  (List.range 4).map (128 + ·) |>.filter fun x => !d.failedSpares.contains x && !(d.failedDies.any fun p => p.2 == some x)

/-- The physical die of a logical die: itself, or the spare that took its place (R223). -/
def physDie (d : DreyId) (l : Nat) : Nat :=
  match d.failedDies.reverse.find? fun p => p.1 == l with
  | some (_, some x) => x
  | _ => l

/-- The channel of a physical die (R223). -/
def dieChannel (p : Nat) : Nat := if p < 128 then p % 8 else 2 * (p - 128)

/-- The logical dies of a channel. -/
def channelDies (d : DreyId) (c : Nat) : List Nat := (List.range 128).filter fun l => dieChannel (physDie d l) == c

/-- The erase blocks of a die in use or used before. -/
def dieBlocks (y : Bay) (die : Nat) : List FlashBlock := y.blocks.filter (·.die == die)

/-- The free block that is programmed next (R236): fewest erases, then lowest number; `avoid` takes no part. -/
def freeBlock (y : Bay) (die : Nat) (avoid : Option Nat) : FlashBlock :=
  let mine := dieBlocks y die
  let n := ((List.range (mine.length + 1)).find? fun b => !(mine.any (·.block == b))).getD 0
  let fresh : FlashBlock := { die := die, block := n, erases := 0, age := 0, written := 0 }
  (mine.filter fun f => f.written == 0 && avoid != some f.block).foldl (fun b f =>
    if f.erases < b.erases ∨ (f.erases = b.erases ∧ f.block < b.block) then f else b) fresh

/-- The block a die programs next: the one that has pages left, else a free one. -/
def nextBlock (y : Bay) (die : Nat) (avoid : Option Nat) : FlashBlock :=
  match (dieBlocks y die).find? fun f => decide (0 < f.written) && decide (f.written < 2048) && avoid != some f.block with
  | some f => f
  | none => freeBlock y die avoid

/-- Program a chunk into the next page of a die. -/
def programPage (y : Bay) (die : Nat) (avoid : Option Nat) (ch : Chunk) : Bay :=
  let f := nextBlock y die avoid
  let one (d : DreyId) : DreyId := { d with pagesProg := d.pagesProg + 1 }
  { y with
    drey := y.drey.map one
    chunks := y.chunks ++ [{ ch with die := die, block := f.block, page := f.written }]
    blocks := y.blocks.filter (fun g => !(g.die == die && g.block == f.block))
      ++ [{ f with written := f.written + 1, age := if f.written = 0 then 0 else f.age }] }

/-- A page of a Drey is read (Table 17.5). -/
def pageRead (b : Nat) (s : State) : State := onBay b (fun y => { y with drey := y.drey.map fun d => { d with pagesRead := d.pagesRead + 1 } }) s

/-- The wear of a Drey in 0.01 % (R243): the mean erase count of its in-service dies over 3,000 cycles. -/
def wearCenti (y : Bay) : Nat :=
  match y.drey with
  | none => 0
  | some d =>
    let sum := ((List.range 128).map fun l => d.eraseMean.getD (physDie d l) 0).sum
    sum * 10000 / (128 * 3000)

/-- The wear record as it is written (R392, Table 17.5): the older copy takes the next sequence, and the mean erase counts
take in the erases of each die since. -/
def wearWrite (t : Ns) (y : Bay) : Bay :=
  let mean (d : DreyId) : List Nat := (List.range 132).map fun i => d.eraseMean.getD i 0 + tget 0 y.erased i / 4096
  let next (d : DreyId) : DreyId := { d with wearSeq := d.wearSeq + 1, wearUpdate := t, eraseMean := mean d }
  let left : Tbl Nat := y.erased.map fun p => (p.1, p.2 % 4096)
  let y := { y with drey := y.drey.map next, erased := left }
  { y with wear := wearCenti y / 100 }

/-- CHUNK_PLACEMENT (R231): store a chunk on a Drey of this unit; false when no Drey can take it. `avoid` is a bay
that takes no part (an evacuation's own). -/
def storeChunk (stripe c k m kind : Nat) (crc : BitVec 32) (bytes : List Byte) (s : State) : State × Bool :=
  let ms := mountedBays s.hrd
  let d := ms.length
  if d = 0 then (s, false)
  else
    let x := s.hrd.place
    match (List.range d).findSome? fun i =>
        let b := ms.getD ((x + i) % d) 0
        if canTake (bayOf s.hrd b) then some b else none with
    | none => ({ s with hrd := { s.hrd with place := x + 1 } }, false)
    | some b =>
      let y := bayOf s.hrd b
      let dies := (y.drey.map fun i => channelDies i (x / d % 8)).getD []
      let die := dies.getD (x / d / 8 % (if dies.isEmpty then 1 else dies.length)) 0
      let ch : Chunk := { stripe := stripe, idx := c, k := k, m := m, kind := kind, crc := crc, bytes := bytes,
                          die := die, block := 0, page := 0, damaged := crc32c bytes != crc }
      ({ s with hrd := { s.hrd with place := x + 1, bays := tset b (programPage y die none ch) s.hrd.bays } }, true)

/-- Remove a chunk from this unit's Dreys (R235, R252). -/
def releaseChunk (stripe c : Nat) (s : State) : State :=
  { s with hrd := { s.hrd with
      bays := s.hrd.bays.map fun (b, y) =>
        (b, { y with chunks := y.chunks.filter fun x => !(x.stripe == stripe && x.idx == c) }) } }

/-! ### Packing (R225) -/

/-- A packed block record with its payload (Table 11.3). -/
def packBlock (tenant tile j : Nat) (r : BlockRec) (strips : List (List Byte)) : List Byte :=
  let pay := strips.flatMap id
  leBytes 12 r.bmw.toNat ++ padTo 8 0 r.masks ++ leBytes 6 (tileKey tenant tile) ++ leBytes 1 j ++ leBytes 1 1
    ++ leBytes 2 (pay.length / 32) ++ leBytes 2 0 ++ pay

/-- The eight packed blocks of a tile at a tier address. -/
def packTile (d : Drt) (tenant tile a : Nat) : List Byte :=
  (List.range 8).flatMap fun j =>
    packBlock tenant tile j (blockRec d (a + 4096 * j)) (storedStrips d (a + 4096 * j))

/-- A tile all of whose strips are zero (R227, ZERO). -/
def tileZero (d : Drt) (a : Nat) : Bool :=
  (List.range 8).all fun j => (blockRec d (a + 4096 * j)).bmw.toNat % 2 ^ 40 == 0

/-- Check one packed record at an offset of a data area (R442): the reason it fails, or its parts: key, block
number, record, payload length in bytes. `want` is the block number expected under a tile key. -/
def packedRecord (area : List Byte) (o : Nat) (want : Option (Nat × Nat)) :
    Except Nat (Nat × Nat × BlockRec × Nat) :=
  let key := fld area (o + 20) 6
  let j := fld area (o + 26) 1
  let fl := fld area (o + 27) 1
  let bmw := BitVec.ofNat 96 (fld area o 12)
  let masks := slice area (o + 12) 8
  let pay := 32 * fld area (o + 28) 2
  if fl ≠ 1 then .error 1
  else if fld area (o + 30) 2 ≠ 0 ∨ 2 ^ 43 ≤ key then .error 2
  else if 7 < j ∨ (match want with
    | some (k, n) => decide (k = key) && decide (n ≠ j)
    | none => decide (j ≠ 0)) = true then .error 3
  else if (checkBmw bmw).isSome || (List.range 8).any (fun k => (checkLen (bmwLen bmw k) (masks.getD k 0)).isSome) then
    .error 4
  else if pay ≠ ((List.range 8).map fun k => storedLen (bmwLen bmw k)).sum ∨ area.length < o + 32 + pay then .error 5
  else .ok (key, j, { bmw := bmw, masks := masks }, pay)

/-- The tiles packed in a data area in order (R225, R442): tenant, tile, offset, length, and the reason of a record
that fails, which ends the reading. -/
def walkArea (area : List Byte) : Nat → Nat → Option (Nat × Nat) → Nat → List Packed → List Packed × Option Nat
  | 0, _, _, _, acc => (acc.reverse, none)
  | n + 1, o, want, start, acc =>
    if area.length < o + 32 ∨ fld area (o + 27) 1 = 0 then (acc.reverse, none)
    else match packedRecord area o want with
      | .error r => (acc.reverse, some r)
      | .ok (key, j, _, pay) =>
        let start := if j = 0 then o else start
        let o' := o + 32 + pay
        if j = 7 then
          walkArea area n o' none o' ({ tenant := key / 2 ^ 35, tile := key % 2 ^ 35, offset := start, len := o' - start } :: acc)
        else walkArea area n o' (some (key, j + 1)) start acc

/-! ### The tile directory (R227) -/

/-- The directory entry of a tile. -/
def dirFind (h : Hrd) (tenant tile : Nat) : Option DirEntry := h.dir.find? fun d => d.tenant == tenant && d.tile == tile

/-- Set the directory entry of a tile. -/
def dirSet (d : DirEntry) (h : Hrd) : Hrd :=
  { h with
    dirtyPages := addNew (d.tenant, d.tile / 1024) h.dirtyPages
    dir := h.dir.filter (fun x => !(x.tenant == d.tenant && x.tile == d.tile)) ++ [d] }

/-- The live tiles of a stripe, and their bytes. -/
def liveTiles (h : Hrd) (stripe : Nat) : List DirEntry := h.dir.filter fun d => d.stripe == stripe && !d.zero
def liveBytes (h : Hrd) (stripe : Nat) : Nat := ((liveTiles h stripe).map (·.len)).sum

/-- Release every chunk of a stripe of this writer (R235): `CHUNK_PUT` with zero length to each holder. -/
def releaseStripe (id : Nat) (s : State) : State :=
  match tfind s.hrd.stripes id with
  | none => s
  | some r =>
    let s := (List.range (r.k + r.m)).foldl (fun s c =>
      let h := r.holders.getD c (me s)
      if h = me s then releaseChunk id c s
      else sendReq h 0 (.chunkPut id c r.k r.m r.kind []) s) s
    { s with hrd := { s.hrd with stripes := tdel id s.hrd.stripes } }

/-- A stripe with no live tile is released (R235). -/
def releaseIfDead (id : Nat) (s : State) : State :=
  match tfind s.hrd.stripes id with
  | some r => if r.st = 2 ∧ r.kind = 0 ∧ (liveTiles s.hrd id).isEmpty = true then releaseStripe id s else s
  | none => s

/-- The last step of a commit (R234 step 4): directory entries, live counts of the previous stripes, and the
sequence. -/
def commitStripe (id : Nat) (s : State) : State :=
  match tfind s.hrd.stripes id with
  | none => s
  | some r =>
    let prev := r.tiles.filterMap fun p => (dirFind s.hrd p.tenant p.tile).map (·.stripe)
    let h := r.tiles.foldl (fun h p =>
      dirSet { tenant := p.tenant, tile := p.tile, stripe := id, offset := p.offset, len := p.len, zero := false } h) s.hrd
    let s := { s with hrd := { h with
      stripes := tset id { r with st := 2, data := [] } h.stripes, seq := max h.seq (stripeSeq id)
      unreadable := h.unreadable.filter fun t => !(r.tiles.any fun p => (p.tenant, p.tile) == t) } }
    prev.foldl (fun s q => if q = id then s else releaseIfDead q s) s

/-- Chunk `c` of a stripe is acknowledged; the last acknowledgement commits it (R234). -/
def ackChunk (id c : Nat) (s : State) : State :=
  match tfind s.hrd.stripes id with
  | none => s
  | some r =>
    if r.st ≠ 1 then s
    else
      let acked := insAsc c r.acked
      let s := { s with hrd := { s.hrd with stripes := tset id { r with acked := acked } s.hrd.stripes } }
      if acked.length = r.k + r.m then commitStripe id s else s

/-- The bytes of chunk `c` of a closed stripe. -/
def stripeChunk (r : Stripe) (c : Nat) : List Byte :=
  if c < r.k then slice r.data (c * chunkBytes) chunkBytes
  else rsParity chunkBytes r.m (c - r.k) ((List.range r.k).map fun i => slice r.data (i * chunkBytes) chunkBytes)

/-- Send chunk `c` of a stripe to a holder (R234 step 2); the unit's own chunk is stored and acknowledged at once. -/
def sendChunk (id c holder : Nat) (s : State) : State :=
  match tfind s.hrd.stripes id with
  | none => s
  | some r =>
    let bytes := stripeChunk r c
    let s := { s with hrd := { s.hrd with stripes := tset id { r with holders := r.holders.set c holder } s.hrd.stripes } }
    let kind := if c < r.k then r.kind else 1
    if holder = me s then
      let p := storeChunk id c r.k r.m kind (crc32c bytes) bytes s
      if p.2 then ackChunk id c p.1 else p.1
    else sendReq holder 0 (.chunkPut id c r.k r.m kind bytes) s

/-- The next holder for a chunk whose holder cannot take it (R234, R250): the first unit after it in cyclic HOARD
order that is reachable and holds no chunk of the stripe. -/
def nextHolder (s : State) (r : Stripe) (after : Nat) : Option Nat :=
  let h := hoardUnits s.vq.active
  let p := hoardPos h after
  (List.range h.length).findSome? fun i =>
    let u := h.getD ((p + 1 + i) % h.length) 0
    if u = me s ∨ (!unreachable s u) = true then (if r.holders.contains u then none else some u) else none

/-- Close an open stripe (R234 step 1): zero-fill, name the holders, send every chunk. -/
def closeStripe (id : Nat) (s : State) : State :=
  match tfind s.hrd.stripes id with
  | none => s
  | some r =>
    if r.st ≠ 0 then s
    else
      let n := r.k + r.m
      let hs := (List.range n).map fun c => holderOf s id c
      let s := { s with hrd := { s.hrd with
        stripes := tset id { r with st := 1, data := padTo (r.k * chunkBytes) 0 r.data, holders := hs } s.hrd.stripes } }
      (List.range n).foldl (fun s c => sendChunk id c (hs.getD c (me s)) s) s

/-- Enough HOARD units are SERVING for a code (R2, R253). -/
def codeServed (s : State) (code : Nat) : Bool :=
  match stripeKM s.vq.active code with
  | none => false
  | some (k, m) => decide (k + m ≤ ((hoardUnits s.vq.active).filter (peerServing s)).length)

/-- A stripe has other k and m than its code has now (R360). -/
def oldStripe (s : State) (r : Stripe) : Bool := r.kind == 0 && stripeKM s.vq.active r.code != some (r.k, r.m)

/-- The open stripe of a code, opened if there is none (R234): its ID. -/
def openStripe (code kind : Nat) (s : State) : State × Nat :=
  match s.hrd.stripes.find? fun p => p.2.st == 0 && p.2.code == code && p.2.kind == kind with
  | some p => (s, p.1)
  | none =>
    let km := (stripeKM s.vq.active code).getD (12, 4)
    let id := stripeId (me s) s.hrd.nextSeq
    ({ s with hrd := { s.hrd with
        nextSeq := s.hrd.nextSeq + 1
        stripes := tset id { code := code, k := km.1, m := km.2, st := 0, data := [], tiles := [], holders := [],
                             acked := [], kind := kind, started := now s } s.hrd.stripes } }, id)

/-- The open stripe of a code with room for `n` more bytes: a full one is closed first. -/
def stripeFor (code kind n : Nat) (s : State) : State × Nat :=
  let p := openStripe code kind s
  match tfind p.1.hrd.stripes p.2 with
  | none => p
  | some r => if r.k * chunkBytes < r.data.length + n then openStripe code kind (closeStripe p.2 p.1) else p

/-- Append bytes to an open stripe, as a tile or as other contents. -/
def appendStripe (id : Nat) (bytes : List Byte) (t : Option (Nat × Nat)) (s : State) : State :=
  match tfind s.hrd.stripes id with
  | none => s
  | some r =>
    let tiles := match t with
      | some (tenant, tile) => r.tiles ++ [{ tenant := tenant, tile := tile, offset := r.data.length, len := bytes.length }]
      | none => r.tiles
    { s with hrd := { s.hrd with stripes := tset id { r with data := r.data ++ bytes, tiles := tiles } s.hrd.stripes } }

/-- A tile no longer differs from what its stripe will hold (R255). -/
def markClean (tenant tile : Nat) (s : State) : State :=
  { s with
    drt := { s.drt with
      ways := match findWay s tenant tile with
        | some i => tmod {} i (fun y => { y with dirty := false }) s.drt.ways
        | none => s.drt.ways
      dirtyPinned := s.drt.dirtyPinned.filter (· != (tenant, tile)) }
    hrd := { s.hrd with firstWrite := s.hrd.firstWrite.filter fun w => !(w.1 == tenant && w.2.1 == tile) } }

/-- A tile waits in a stripe that has not committed (R234: one commit per tile at a time; R255). -/
def inLog (h : Hrd) (tenant tile : Nat) : Option (Nat × Packed × Stripe) :=
  h.stripes.findSome? fun p =>
    if p.2.st = 2 then none
    else (p.2.tiles.find? fun t => t.tenant == tenant && t.tile == tile).map fun t => (p.1, t, p.2)

/-- Write a tile to the Hoard log (R233, R234): flush its staged strips, pack a snapshot into the open stripe of
its extent's code, and take it as clean until it is written again. A zero tile stores nothing (R227); a tile whose fill goes on
is logged once it has landed. -/
def logTile (tenant tile : Nat) (s : State) : State :=
  match extAt (extView s) tenant (tile * 32768) with
  | none => s
  | some (e, g) =>
    if e.kind = 3 then s
    else
      let s := flushTile tenant tile s
      match locate s e g tile with
      | .absent => s
      | .at a w =>
        if w.any (fun i => (wayOf s.drt i).filling) then s
        else if tileZero s.drt a then
          let prev := (dirFind s.hrd tenant tile).map (·.stripe)
          let s := markClean tenant tile { s with
            hrd := dirSet { tenant := tenant, tile := tile, stripe := 0, offset := 0, len := 0, zero := true } s.hrd }
          match prev with
          | some q => releaseIfDead q s
          | none => s
        else
          let bytes := packTile s.drt tenant tile a
          let p := stripeFor e.code 0 bytes.length s
          markClean tenant tile (appendStripe p.2 bytes (some (tenant, tile)) p.1)

/-- Commit a tile now (R233): log it, unless a commit of it runs, and close its stripe. -/
def commitTile (tenant tile : Nat) (s : State) : State :=
  match extAt (extView s) tenant (tile * 32768) with
  | none => s
  | some (e, _) =>
    if e.kind = 3 ∨ (!codeServed s e.code) = true then s
    else if (match inLog s.hrd tenant tile with
        | some (_, _, r) => r.st == 1
        | none => false) then s
    else
      let s := logTile tenant tile s
      match inLog s.hrd tenant tile with
      | some (id, _, _) => closeStripe id s
      | none => s

/-- The tiles of this unit that differ from the Hoard: dirty cache ways, then dirty pinned tiles. -/
def dirtyTiles (s : State) : List (Nat × Nat) :=
  ((s.drt.ways.filter fun p => p.2.valid && p.2.dirty).map fun p => (p.2.key / 2 ^ 35, p.2.key % 2 ^ 35))
    ++ s.drt.dirtyPinned

/-- Bytes of a stripe that this unit can read by itself: its own open or committing data, or a local chunk. -/
def localChunk (s : State) (stripe c : Nat) : Option (List Byte) :=
  match tfind s.hrd.stripes stripe with
  | some r =>
    if r.st = 2 then (findChunk s.hrd stripe c).map fun p => p.2.bytes
    else if c < r.k then some (slice (padTo (r.k * chunkBytes) 0 r.data) (c * chunkBytes) chunkBytes) else none
  | none => (findChunk s.hrd stripe c).map fun p => p.2.bytes

/-- The page of a chunk held here is read. -/
def chunkRead (stripe c : Nat) (s : State) : State :=
  match findChunk s.hrd stripe c with
  | some (b, _) => pageRead b s
  | none => s

/-- k and m of a stripe, from its record, a chunk of it, or the extent's code. -/
def stripeGeom (s : State) (stripe tenant tile : Nat) : Nat × Nat :=
  match tfind s.hrd.stripes stripe with
  | some r => (r.k, r.m)
  | none =>
    match extAt (extView s) tenant (tile * 32768) with
    | some (e, _) => (stripeKM s.vq.active e.code).getD (12, 4)
    | none => (12, 4)

/-- Chunks of a stripe known to be lost. -/
def lostKnown (s : State) (stripe : Nat) : Nat :=
  ((s.hrd.rebuild.filter (·.stripe == stripe)).map (·.idx) ++ (s.hrd.lost.filter (·.1 == stripe)).map (·.2)).eraseDups.length

/-- A chunk of a bay as a lost chunk. -/
def lostOf (u b : Nat) (y : Bay) (inPlace : Bool) (c : Chunk) : LostChunk :=
  { stripe := c.stripe, idx := c.idx, k := c.k, m := c.m, kind := c.kind, crc := c.crc, unit := u,
    serial := (y.drey.map (·.serial)).getD 0, die := c.die, bay := if inPlace then some b else none }

/-- Add chunks to those awaiting rebuild. -/
def addLost (l : List LostChunk) (h : Hrd) : Hrd := { h with rebuild := l.foldl (fun r x => addNew x r) h.rebuild }

/-- Mark a chunk held here damaged; it awaits rebuild in place (R239, R250). A chunk held elsewhere is noted lost. -/
def markDamaged (stripe c : Nat) (s : State) : State :=
  match findChunk s.hrd stripe c with
  | none => { s with hrd := { s.hrd with lost := addNew (stripe, c) s.hrd.lost } }
  | some (b, x) =>
    { s with hrd := addLost [lostOf (me s) b (bayOf s.hrd b) true x] { s.hrd with
        bays := tmod {} b (fun y => { y with
          chunks := y.chunks.map fun z => if z.stripe == stripe && z.idx == c then { z with damaged := true } else z }) s.hrd.bays } }

end Sys2Proof.Machine
end

