-- ==== Sys2Proof/Machine/ExtCore.lean ====
section
/-! DEFINITION. Extents, lease windows and the snoop filter as the data path uses them (chapter 8). -/

namespace Sys2Proof.Machine

/-- The runtime state of an extent (Table 8.2). -/
def extSt (s : State) (x : Nat) : ExtSt := tget {} s.ext.exts x

/-- Change the runtime state of an extent. -/
def onExtent (x : Nat) (f : ExtSt → ExtSt) (s : State) : State :=
  { s with ext := { s.ext with exts := tmod {} x f s.ext.exts } }

/-- The lease of a tenant as this unit holds it. -/
def leaseOf (s : State) (t : Nat) : Lease := tget {} s.ext.leases t

/-- Change a lease. -/
def onLease (t : Nat) (f : Lease → Lease) (s : State) : State :=
  { s with ext := { s.ext with leases := tmod {} t f s.ext.leases } }

/-- `E − g` of a tenant on this unit. -/
def leaseGuardAt (s : State) (t : Nat) : Ns := (leaseOf s t).expiry - leaseGuard s.vq.active t

/-- A request's ingress stamp lies in the tenant's lease window (R15, R162), and no reclaim is owed (R165). -/
def inWindow (s : State) (t : Nat) (stamp : Ns) : Bool :=
  (leaseOf s t).granted && !(leaseOf s t).owed && decide (stamp < leaseGuardAt s t)

/-- The extent that a tenant's access at an address reaches: its own, or a sealed one it may read (R152). The last
part says that it reads as a reader. -/
def extFor (s : State) (t addr : Nat) : Option (ExtRec × Nat × Bool) :=
  match extAt (extView s) t addr with
  | some (e, g) => some (e, g, false)
  | none =>
    let gr := addr / gib
    ((extRecs (extView s)).find? fun e => e.tenant != t && bit e.readers t && (extSt s e.id).st == 3
      && decide (e.base ≤ gr) && decide (gr < e.base + e.size)).map fun e => (e, gr - e.base, true)

/-- Table 8.3: a read is served. -/
def readOk (st : Nat) (asReader : Bool) : Bool :=
  if asReader then st == 3 else st == 1 || st == 2 || st == 3 || st == 4 || st == 6

/-- The seal point of an extent that is SEALING here. -/
def sealPoint (s : State) (x : Nat) : Option Ns := (s.ext.seals.find? (·.ext == x)).map (·.point)

/-- Table 8.3 and R149: a write is served. -/
def writeOk (s : State) (x : Nat) (stamp : Ns) (answersSeal : Bool) : Bool :=
  match (extSt s x).st with
  | 1 => true
  | 6 => true
  | 2 => answersSeal || (match sealPoint s x with
      | some p => decide (stamp < p)
      | none => false)
  | _ => false

/-- Table 8.3: the unit may grant state E. -/
def grantsE (st : Nat) : Bool := st == 1 || st == 6

/-- The stripe codes of the Hoard-backed extents (R253). -/
def codesInUse (s : State) : List Nat :=
  (((extRecs (extView s)).filter fun e => e.kind != 3).map (·.code)).foldl (fun l c => insAsc c l) []

/-- R253 follows the units that serve: a code that falls below k + m is recorded, and when it is served again commits
resume with the oldest DIRTY tiles. -/
def kmUpdate (s : State) : State :=
  let below := (codesInUse s).filter fun c => !codeServed s c
  let new := below.filter fun c => !s.hrd.belowCodes.contains c
  let back := s.hrd.belowCodes.filter fun c => !below.contains c
  let s := new.foldl (fun s c => raise { code := 0x0A06, d0 := c } s) { s with hrd := { s.hrd with belowCodes := below } }
  if back.isEmpty then s
  else (s.hrd.firstWrite.filter fun w => match extAt (extView s) w.1 (w.2.1 * 32768) with
    | some (e, _) => back.contains e.code
    | none => false).foldl (fun s w => commitTile w.1 w.2.1 s) s

/-- The DIRTY tiles of an extent's code fill half the cache while no stripe of the code commits (R253). -/
def kmFull (s : State) (e : ExtRec) : Bool :=
  e.kind != 3 && !codeServed s e.code && decide (16 * cacheSets s ≤ 2 * (s.drt.ways.filter fun p =>
    p.2.valid && p.2.dirty && (match extAt (extView s) (p.2.key / 2 ^ 35) (p.2.key % 2 ^ 35 * 32768) with
      | some (x, _) => x.code == e.code
      | none => false)).length)

/-! ### The snoop filter (R154 to R156) -/

/-- The entry of a line. -/
def sfFind (x : Ext) (tenant addr : Nat) : Option SfEntry := x.sf.find? fun e => e.tenant == tenant && e.addr == addr

/-- Remove or replace the entry of a line. -/
def sfDrop (tenant addr : Nat) (x : Ext) : Ext := { x with sf := x.sf.filter fun e => !(e.tenant == tenant && e.addr == addr) }
def sfPut (e : SfEntry) (x : Ext) : Ext := { sfDrop e.tenant e.addr x with sf := (sfDrop e.tenant e.addr x).sf ++ [e] }

/-- Every LD of every unit that may have accepted an extent: those bound to its tenant. -/
def tenantLds (s : State) (t : Nat) : List (Nat × Nat) :=
  (List.range (max 1 (fabN s.vq.active))).flatMap fun u =>
    ((List.range 256).filter fun ld => binding s.vq.active u ld == some t).map fun ld => (u, ld)

/-- The holders that a Back-Invalidate of an entry must reach. -/
def snoopTargets (s : State) (e : SfEntry) : List (Nat × Nat) := if e.broad then tenantLds s e.tenant else e.holders

/-- A host link's state. -/
def linkOf (h : Hst) (l : Nat) : Link := tget {} h.links l

/-- The link serves traffic: UP (Table 6.9). -/
def linkUsable (k : Link) : Bool := k.st == 2

/-- Send one Back-Invalidate to a holder: on its link, to wait for a down link (R123, R124), or by `BISNP`. -/
def sendSnoop (tenant addr : Nat) (data : Bool) (h : Nat × Nat) (s : State) : State :=
  if h.1 = me s then
    if linkUsable (linkOf s.hst (h.2 / 16)) then emit (.bisnp h.2 addr data) s
    else { s with hst := { s.hst with
        links := tmod {} (h.2 / 16) (fun k => { k with waiting := k.waiting ++ [(h.2, addr, data)] }) s.hst.links } }
  else sendReq h.1 tenant (.bisnp addr data h.2) s

/-- BACK_INVALIDATE_SEND (R156): start a flow towards the holders given, and wait for their answers. -/
def startSnoop (tenant addr : Nat) (data : Bool) (targets : List (Nat × Nat)) (cause : SnoopCause) (s : State) : State :=
  if s.ext.snoops.any fun n => n.tenant == tenant && n.addr == addr && n.cause == cause then s
  else
    targets.foldl (fun s h => sendSnoop tenant addr data h s)
      { s with ext := { s.ext with snoops := s.ext.snoops ++ [
        { tenant := tenant, addr := addr, data := data, waiting := targets, cause := cause }] } }

/-- Record a grant (R154, Table 8.4): E to one holder, S to up to two, BROAD from the third. -/
def sfGrant (tenant addr ext : Nat) (h : Nat × Nat) (excl : Bool) (s : State) : State :=
  let e := match sfFind s.ext tenant addr with
    | none => ({ tenant := tenant, addr := addr, ext := ext, excl := excl, holders := [h], broad := false, created := now s } : SfEntry)
    | some e =>
      if excl then { e with excl := true, holders := [h], broad := false, created := now s }
      else if e.holders.contains h then { e with excl := e.excl }
      else if 2 ≤ e.holders.length then { e with excl := false, broad := true }
      else { e with excl := false, holders := e.holders ++ [h] }
  { s with ext := sfPut e s.ext }

/-- The oldest entry, the lower tenant address on a tie (R155). -/
def sfOldest (x : Ext) : Option SfEntry :=
  x.sf.foldl (fun b e => match b with
    | none => some e
    | some o => if e.created < o.created ∨ (e.created = o.created ∧ e.addr < o.addr) then some e else some o) none

/-- The filter is full (R154); a withdrawn bank held 65,536 entries (R91). -/
def sfFull (s : State) : Bool :=
  decide (2097152 - 65536 * (s.uni.banksOut.filter fun b => decide (256 ≤ b) && decide (b < 288)).length ≤ s.ext.sf.length)

/-- SNOOP_FILTER_EVICTION (R155). -/
def sfEvict (s : State) : State :=
  match sfOldest s.ext with
  | none => s
  | some o =>
    startSnoop o.tenant o.addr false (snoopTargets s o) .evict
      { s with ext := { s.ext with victims := sat 32 (s.ext.victims + 1) } }

/-- What a host request for a line must wait for (Table 8.4): nothing, or a flow towards other holders. -/
def hostNeeds (s : State) (tenant addr : Nat) (h : Nat × Nat) (excl : Bool) : Option (Bool × List (Nat × Nat)) :=
  match sfFind s.ext tenant addr with
  | none => none
  | some e =>
    let others := (snoopTargets s e).filter (· != h)
    if others.isEmpty then none
    else if excl then some (false, others)
    else if e.excl then some (true, others) else none

/-- A holder has answered (R156): its place in the entry, and the flows it leaves complete. -/
def snoopAnswer (tenant addr : Nat) (h : Nat × Nat) (ans : SnoopAns) (s : State) : State :=
  let x := s.ext
  let x := match sfFind x tenant addr with
    | none => x
    | some e =>
      match ans with
      | .invalid =>
        let hs := e.holders.filter (· != h)
        if hs.isEmpty && !e.broad then sfDrop tenant addr x else sfPut { e with holders := hs } x
      | .shared => sfPut { e with excl := false } x
  let hit (n : Snoop) : Bool := n.tenant == tenant && n.addr == addr
  { s with ext := { x with snoops := x.snoops.map fun n => if hit n then { n with waiting := n.waiting.filter (· != h) } else n } }

/-- The flows that every holder has answered are over: an eviction frees its entry, a BISnpInv of an engine or of
a move leaves no entry (Table 8.4). -/
def snoopsDone (s : State) : State :=
  let done := s.ext.snoops.filter fun n => n.waiting.isEmpty
  let x := done.foldl (fun x n => if n.data then x else
    match n.cause with
    | .host _ => x
    | _ => sfDrop n.tenant n.addr x) s.ext
  { s with ext := { x with snoops := x.snoops.filter fun n => !n.waiting.isEmpty } }

end Sys2Proof.Machine
end

