-- ==== Sys2Proof/Machine/Serve.lean ====
section
/-! DEFINITION. Serving CXL.mem requests (Tables 1.4 to 1.6): fills (R14, R206, R238), the read and write paths on
the serving unit, forwarding, and the answers. -/

namespace Sys2Proof.Machine

/-! ### Fills -/

/-- The blocks of a tile that have landed in a fill under way; every block of a tile that is not filling. -/
def blockLanded (s : State) (e : ExtRec) (g tile j : Nat) : Bool :=
  match locate s e g tile with
  | .at _ (some i) => !(wayOf s.drt i).filling || (wayOf s.drt i).landed.contains j
  | .at _ none => true
  | .absent =>
    e.kind != 3 && e.pinned && (slotOf s.drt.pinned e.id g).isSome && s.drt.landedPinned.contains (e.tenant, tile, j)

/-- The tier address of a block that has landed. -/
def landedAddr (s : State) (e : ExtRec) (g tile j : Nat) : Option Nat :=
  if blockLanded s e g tile j then (fillAddr s e g tile).map (· + 4096 * j) else none

/-- A block of a fill is written into its slot (R14): `DIRTY` stays clear; the eighth block ends the fill. A block that has
landed before is kept, since it may have been written to. -/
def landBlock (tenant tile j : Nat) (bmw : BitVec 96) (masks : List Byte) (strips : List (List Byte)) (s : State) : State :=
  match extAt (extView s) tenant (tile * 32768) with
  | none => s
  | some (e, g) =>
    if blockLanded s e g tile j then s
    else match fillAddr s e g tile with
    | none => s
    | some a =>
      let d := putBlock (a + 4096 * j) bmw masks strips s.drt
      let d := match findWay s tenant tile with
        | some i =>
          let l := insAsc j (wayOf d i).landed
          { d with ways := tmod {} i (fun y => { y with landed := l, filling := y.filling && decide (l.length < 8) }) d.ways }
        | none =>
          let l := addNew (tenant, tile, j) d.landedPinned
          if (l.filter fun x => x.1 == tenant && x.2.1 == tile).length = 8 then
            { d with
              landedPinned := l.filter (fun x => !(x.1 == tenant && x.2.1 == tile))
              unfilled := d.unfilled.filter (· != (tenant, tile)) }
          else { d with landedPinned := l }
      enqueueStrips 24 (a + 4096 * j) (List.range 8) true { s with drt := d }

/-- An all-zero block under an extent's format and mode. -/
def zeroBmw (e : ExtRec) : BitVec 96 :=
  mkBmw [] e.fmt (b2n e.crc) (if e.crc then crc32c (List.replicate 4096 0) else 0)

/-- Mark every line of a block as poisoned, with its event (R185 step 4, R239). -/
def poisonBlockAt (a : Nat) (s : State) : State :=
  { s with drt := poisonStrips a (List.range 8) (fun _ => 0xFF) s.drt }

/-- The last band of the tier space, the bounce of a move of the tier map (R355): 32 KiB of every PC-SID of every logical
SID. -/
def bounceBase (s : State) : Nat := (sidBytes / 2 ^ 20 - 1) * (s.drt.logical * 2 ^ 20)

/-- A way may be a victim: it does not lie in the bounce (R355), and where it is DIRTY its extent's code still commits
(R253). -/
def wayCommits (s : State) (i : Nat) : Bool :=
  let y := wayOf s.drt i
  !(s.vq.mig.map && decide (bounceBase s ≤ wayAddr s i)) && (!y.dirty || match extAt (extView s) (y.key / 2 ^ 35) (y.key % 2 ^ 35 * 32768) with
    | some (e, _) => codeServed s e.code
    | none => true)

/-- Choose and empty a way for a tile (R206): a DIRTY victim goes to the Hoard log first, and its way is given only
once its stripe has committed (R255). Answers none while the fill is deferred. -/
def takeWay (tenant tile : Nat) (s : State) : State × Option Nat :=
  if cacheSets s = 0 ∨ s.drt.noCache = true then (s, none)
  else
    match victim s.drt (wayCommits s) (tileKey tenant tile % cacheSets s) with
    | none => (s, none)
    | some (i, d) =>
      let s := { s with drt := d }
      let y := wayOf s.drt i
      let vt := y.key / 2 ^ 35
      let vk := y.key % 2 ^ 35
      let s := if y.valid then flushTile vt vk s else s
      let s := if y.valid && (wayOf s.drt i).dirty then commitTile vt vk s else s
      if y.valid && ((wayOf s.drt i).dirty || (inLog s.hrd vt vk).isSome) then (s, none)
      else
        let s := if y.valid then dropTile vt vk s else s
        ({ s with drt := { s.drt with
            ways := tset i { key := tileKey tenant tile, valid := true, dirty := false, ref := true, busy := 0,
                             pinned := false, landed := [], filling := true } s.drt.ways } }, some i)

/-- Bytes of a range of a stripe's data area that this unit can read by itself. -/
def localRange (s : State) (stripe off len : Nat) : Option (List Byte) :=
  let c0 := off / chunkBytes
  let c1 := (off + len - 1) / chunkBytes
  let cs := (List.range (c1 + 1 - c0)).map (c0 + ·)
  if cs.all fun c => (localChunk s stripe c).isSome then
    some (slice (cs.flatMap fun c => padTo chunkBytes 0 ((localChunk s stripe c).getD [])) (off - c0 * chunkBytes) len)
  else none

/-- Land the eight packed blocks of a tile found at the start of a byte string (R225, R442): the reason and the offset
of the first record that fails, if any. -/
def landPacked (tenant tile : Nat) (area : List Byte) (s : State) : State × Option (Nat × Nat) :=
  let r := (List.range 8).foldl (fun (p : State × Nat × Option (Nat × Nat)) j =>
    match p.2.2 with
    | some _ => p
    | none =>
      match packedRecord area p.2.1 (if j = 0 then none else some (tileKey tenant tile, j)) with
      | .error e => (p.1, p.2.1, some (e, p.2.1))
      | .ok (_, _, rec, pay) =>
        (landBlock tenant tile j rec.bmw rec.masks (cutStored rec.bmw (slice area (p.2.1 + 32) pay)) p.1, p.2.1 + 32 + pay, none))
    (s, 0, none)
  (r.1, r.2.2)

/-- Keep bytes of a chunk that a fill of a tile needs. -/
def gather (x : Gathered) (s : State) : State :=
  { s with hrd := { s.hrd with
      gathered := s.hrd.gathered.filter (fun y =>
        !(y.stripe == x.stripe && y.chunk == x.chunk && y.tenant == x.tenant && y.tile == x.tile)) ++ [x] } }

/-- Send a `CHUNK_GET` and keep what it is for. -/
def getChunk (holder stripe chunk off len tenant tile : Nat) (rebuild : Bool) (s : State) : State :=
  let tag := s.wrn.nextTag
  sendReq holder 0 (.chunkGet stripe chunk off len)
    { s with hrd := { s.hrd with gets := s.hrd.gets ++ [
      { tag := tag, stripe := stripe, chunk := chunk, offset := off, len := len, tenant := tenant, tile := tile,
        rebuild := rebuild, sent := now s }] } }

/-- Ask for every other chunk of a stripe, to rebuild chunk `c` from the first k that arrive (R239); once for a tile. -/
def askRebuild (stripe c tenant tile : Nat) (s : State) : State :=
  if s.hrd.asked.contains (tenant, tile) then s
  else
    let km := stripeGeom s stripe tenant tile
    (List.range (km.1 + km.2)).foldl (fun s i =>
      if i = c then s
      else match localChunk s stripe i with
        | some b => gather { stripe := stripe, chunk := i, tenant := tenant, tile := tile, full := true, rebuilt := false, bytes := b } (chunkRead stripe i s)
        | none =>
          let h := holderNow s stripe i
          if h = me s ∨ unreachable s h = true ∨ s.hrd.lost.contains (stripe, i) = true then s
          else getChunk h stripe i 0 chunkBytes tenant tile true s)
      { s with hrd := { s.hrd with asked := addNew (tenant, tile) s.hrd.asked } }

/-- The chunks of a tile's packed range. -/
def tileChunks (d : DirEntry) : List Nat :=
  let c0 := d.offset / chunkBytes
  (List.range ((d.offset + d.len - 1) / chunkBytes + 1 - c0)).map (c0 + ·)

/-- Ask the holders for the chunks of a tile's packed range (R238). -/
def askChunks (d : DirEntry) (s : State) : State :=
  (tileChunks d).foldl (fun s c =>
    let lo := (max d.offset (c * chunkBytes) - c * chunkBytes) / 32 * 32
    let hi := min chunkBytes ((min (d.offset + d.len) ((c + 1) * chunkBytes) - c * chunkBytes + 31) / 32 * 32)
    match localChunk s d.stripe c with
    | some b => gather { stripe := d.stripe, chunk := c, tenant := d.tenant, tile := d.tile, full := true, rebuilt := false, bytes := b } (chunkRead d.stripe c s)
    | none =>
      let h := holderNow s d.stripe c
      if h = me s ∨ unreachable s h = true then askRebuild d.stripe c d.tenant d.tile s
      else getChunk h d.stripe c lo (hi - lo) d.tenant d.tile false s) s

/-- Forget what a fill of a tile had gathered and asked for. -/
def fillOver (tenant tile : Nat) (s : State) : State :=
  { s with hrd := { s.hrd with
      gathered := s.hrd.gathered.filter fun y => !(y.tenant == tenant && y.tile == tile)
      gets := s.hrd.gets.filter fun y => !(y.tenant == tenant && y.tile == tile)
      asked := s.hrd.asked.filter (· != (tenant, tile))
      suspect := s.hrd.suspect.filter fun y => !(y.1 == tenant && y.2.1 == tile) } }

/-- The tile's copy in the Hoard is unreadable: its lines are poisoned (R239, R442), but for the blocks that had landed. -/
def failTile (e : ExtRec) (g tile : Nat) (s : State) : State :=
  let js := (List.range 8).filter fun j => !blockLanded s e g tile j
  let s := fillOver e.tenant tile { s with hrd := { s.hrd with unreadable := addNew (e.tenant, tile) s.hrd.unreadable } }
  let s := js.foldl (fun s j =>
    landBlock e.tenant tile j (zeroBmw e) (List.replicate 8 0) (List.replicate 8 []) s) s
  match fillAddr s e g tile with
  | some a => js.foldl (fun s j => poisonBlockAt (a + 4096 * j) s) s
  | none => s

/-- A fill that no reachable chunk can serve ends, and its way is free again (R253), unless a block that landed has been written
to. -/
def cancelFill (tenant tile : Nat) (s : State) : State :=
  match findWay s tenant tile with
  | some i => if (wayOf s.drt i).dirty then fillOver tenant tile s else fillOver tenant tile { s with drt := { s.drt with ways := tmod {} i (fun y => { y with valid := false, filling := false }) s.drt.ways } }
  | none => fillOver tenant tile s

/-- A chunk whose packed record failed and whose rebuilt record passed (R442): marked damaged and rebuilt in place; a
chunk of another holder is put back there (log entry 21). -/
def repairChunk (stripe c tenant tile : Nat) (s : State) : State :=
  match findChunk s.hrd stripe c with
  | some _ => markDamaged stripe c s
  | none =>
    let h := holderNow s stripe c
    match s.hrd.gathered.find? fun y => y.stripe == stripe && y.chunk == c && y.rebuilt && y.tenant == tenant && y.tile == tile with
    | none => s
    | some y =>
      let km := stripeGeom s stripe tenant tile
      if h = me s then s else sendReq h 0 (.chunkPut stripe c km.1 km.2 0 y.bytes) s

/-- Go on with a fill from what has been gathered (R238, R239, R442): land the tile when its chunks are there, rebuild
the ones that are missing from k others, ask for those, or give up. -/
def tryFill (e : ExtRec) (g : Nat) (d : DirEntry) : Nat → State → State
  | 0, s => s
  | n + 1, s =>
    let bad (c : Nat) : Bool := s.hrd.suspect.any fun x => x.1 == d.tenant && x.2.1 == d.tile && x.2.2.1 == c
    let mine (y : Gathered) : Bool := y.stripe == d.stripe && y.tenant == d.tenant && y.tile == d.tile
    let have_ (c : Nat) : Option Gathered := s.hrd.gathered.find? fun y => mine y && y.chunk == c && (y.rebuilt || !bad c)
    let cs := tileChunks d
    match cs.find? fun c => (have_ c).isNone with
    | none =>
      let area := slice (cs.flatMap fun c => padTo chunkBytes 0 (((have_ c).map (·.bytes)).getD [])) (d.offset - cs.headD 0 * chunkBytes) d.len
      let p := landPacked d.tenant d.tile area s
      match p.2 with
      | none =>
        let s := (s.hrd.suspect.filter fun x => x.1 == d.tenant && x.2.1 == d.tile).foldl (fun s x =>
          raise { code := 0x0A08, tenant := d.tenant, addr := d.tile * 32768, d0 := x.2.2.2, d1 := d.stripe }
            (repairChunk d.stripe x.2.2.1 d.tenant d.tile s)) p.1
        if (fillAddr s e g d.tile).isSome then fillOver d.tenant d.tile s else s
      | some (reason, o) =>
        let c := (d.offset + o) / chunkBytes
        if bad c then
          failTile e g d.tile (raise { code := 0x0A09, tenant := d.tenant, addr := d.tile * 32768, d0 := reason, d1 := d.stripe } s)
        else
          tryFill e g d n { s with hrd := { s.hrd with suspect := s.hrd.suspect ++ [(d.tenant, d.tile, c, reason)] } }
    | some c =>
      if s.hrd.gets.any fun q => !q.rebuild && q.stripe == d.stripe && q.chunk == c && q.tenant == d.tenant && q.tile == d.tile then s
      else
        let km := stripeGeom s d.stripe d.tenant d.tile
        let full := s.hrd.gathered.filter fun y => mine y && y.full && !y.rebuilt && y.chunk != c && !bad y.chunk
        if km.1 ≤ full.length then
          match rsRebuild chunkBytes km.1 km.2 c (full.map fun y => (y.chunk, y.bytes)) with
          | some b => tryFill e g d n (gather { stripe := d.stripe, chunk := c, tenant := d.tenant, tile := d.tile,
                                                full := true, rebuilt := true, bytes := b } s)
          | none => s
        else if !s.hrd.asked.contains (d.tenant, d.tile) then tryFill e g d n (askRebuild d.stripe c d.tenant d.tile s)
        else if s.hrd.gets.any fun q => q.rebuild && q.stripe == d.stripe && q.tenant == d.tenant && q.tile == d.tile then s
        else if km.2 < lostKnown s d.stripe then
          failTile e g d.tile (raise { code := 0x0A01, tenant := d.tenant, addr := d.tile * 32768, d0 := d.stripe } s)
        else cancelFill d.tenant d.tile s

/-- A fill of the tile is under way. -/
def fillRunning (s : State) (e : ExtRec) (g tile : Nat) : Bool :=
  match locate s e g tile with
  | .at _ (some i) => (wayOf s.drt i).filling && s.hrd.gets.any fun q => q.tenant == e.tenant && q.tile == tile
  | .at _ none => false
  | .absent => s.hrd.gets.any fun q => q.tenant == e.tenant && q.tile == tile

/-- TILE_MISS (R14, R206, R238): start one fill of a tile, or none while one runs or is deferred. A tile with no
committed copy is zero; a tile in the Hoard log or on this unit's own Dreys lands at once. -/
def startFill (e : ExtRec) (g tile : Nat) (s : State) : State :=
  if fillRunning s e g tile then s
  else
    let slotted := e.kind != 3 && e.pinned
    let s := if slotted || (findWay s e.tenant tile).isSome then s else (takeWay e.tenant tile s).1
    if !slotted && (findWay s e.tenant tile).isNone && !s.drt.noCache then s
    else
      let zero (s : State) : State := (List.range 8).foldl (fun s j =>
        landBlock e.tenant tile j (zeroBmw e) (List.replicate 8 0) (List.replicate 8 []) s) s
      if s.hrd.unreadable.contains (e.tenant, tile) then failTile e g tile s
      else match inLog s.hrd e.tenant tile with
        | some (_, t, r) => (landPacked e.tenant tile (slice r.data t.offset t.len) s).1
        | none =>
          match dirFind s.hrd e.tenant tile with
          | none => if s.hrd.foreign.contains (e.id, g) then s else zero s
          | some d => if d.zero then zero s else tryFill e g d 8 (askChunks d s)

/-- Drop a tile's copy in DRAM, so that the next access fills it again (R185 step 3, R218): a cache way becomes
invalid, a pinned tile unfilled. -/
def dropCopy (tenant tile : Nat) (s : State) : State :=
  let s := dropTile tenant tile s
  match findWay s tenant tile with
  | some i => { s with drt := { s.drt with ways := tmod {} i (fun y => { y with valid := false, filling := false, landed := [] }) s.drt.ways } }
  | none => { s with drt := { s.drt with unfilled := addNew (tenant, tile) s.drt.unfilled } }

/-- A tile is clean and Hoard-backed (R185 step 3, R218). -/
def cleanBacked (s : State) (e : ExtRec) (g tile : Nat) : Bool :=
  match locate s e g tile with
  | .at _ (some i) => e.kind != 3 && !(wayOf s.drt i).dirty && (dirFind s.hrd e.tenant tile).isSome
  | .at _ none => e.kind != 3 && !s.drt.dirtyPinned.contains (e.tenant, tile) && (dirFind s.hrd e.tenant tile).isSome
  | .absent => false

/-! ### Answers -/

/-- The local host's read data. -/
def answerData (r : MemReq) (data : List Byte) (poison : Bool) (grant : Nat) (s : State) : State :=
  if r.answered then s
  else emit (.memData r.id r.ld (if poison then List.replicate 64 0 else data) poison grant) s

/-- Poison for a read: to the host, or as status POISON to the attached unit. -/
def answerPoison (r : MemReq) (s : State) : State :=
  match r.origin with
  | none => answerData r [] true 0 s
  | some (u, tag) => respond u tag r.tenant (.readData 1 0 0 0 0 [] []) s

/-- The end of a write: to the host, or as `WRITE_DONE`. -/
def answerWrite (r : MemReq) (status : Nat) (s : State) : State :=
  match r.origin with
  | none => if r.answered then s else emit (.memDone r.id r.ld) s
  | some (u, tag) => respond u tag r.tenant (.writeDone status) s

/-- The response of a request that is refused: poison for a read, completion or REFUSED for a write. -/
def answerRefused (r : MemReq) (s : State) : State := if r.isWrite then answerWrite r 3 s else answerPoison r s

/-- The stream that decodes or encodes for a request (Table 9.6). -/
def reqStream (r : MemReq) : Nat := if r.origin.isNone then r.ld / 16 + 1 else 0x20

/-- The requester queue of a request (Table 10.3). -/
def reqQueue (r : MemReq) : Nat := if r.origin.isNone then r.ld / 16 else 20

/-- The event scope of a request: its LD where it is a local host's. -/
def reqEv (r : MemReq) (code d0 d1 : Nat) : Ev :=
  { code := code, tenant := r.tenant, sk := if r.origin.isNone then 1 else 0, si := if r.origin.isNone then r.ld else 0,
    addr := r.addr, d0 := d0, d1 := d1 }

/-- The holder that a request speaks for: attached unit and LD. -/
def reqHolder (s : State) (r : MemReq) : Nat × Nat :=
  match r.origin with
  | none => (me s, r.ld)
  | some (u, _) => (u, r.ld)

/-- A request waits in service. -/
def park (r : MemReq) (w : Nat) (s : State) : State :=
  { s with hst := { s.hst with reqs := s.hst.reqs ++ [{ r with wait := w }] } }

/-- Some of the strips `ks` of the block at a tier address lies on a tier controller halted by FREEZE (R218). -/
def frozenStrips (s : State) (a : Nat) (ks : List Nat) : Bool := ks.any fun k => frozenAt s (a / 4096 * 4096 + 512 * k)

/-! ### Reads on the serving unit -/

/-- The data of a line of a landed block (Table 1.4 steps 3 to 6): the staged strip first, else the decoded strip,
with the block's faults handled under R185. -/
inductive LineRead where
  | data (line : List Byte) (poison : Bool)
  | fault (f : DecFault)
deriving DecidableEq, Repr

/-- Read line `i` (0 to 63) of the block at a tier address. -/
def readLine (s : State) (tenant block a i : Nat) : LineRead :=
  let k := i / 8
  match stgFind s.cdc tenant block with
  | some x =>
    if (stripOf x k).present then .data (slice x.data (64 * i) 64) (x.poison.getLsbD i)
    else
      match readBlock s.drt a k with
      | .ok l => .data (slice (((l.find? (·.1 == k)).map (·.2)).getD []) (64 * (i % 8)) 64) ((recPoison (blockRec s.drt a)).getLsbD i)
      | .error f => .fault f
  | none =>
    match readBlock s.drt a k with
    | .ok l => .data (slice (((l.find? (·.1 == k)).map (·.2)).getD []) (64 * (i % 8)) 64) ((recPoison (blockRec s.drt a)).getLsbD i)
    | .error f => .fault f

/-- A block decoded for a read under LENCRC is held in staging as clean data (R13, R188). -/
def holdBlock (tenant block a : Nat) (s : State) : State :=
  if bmwMode (blockRec s.drt a).bmw ≠ 1 ∨ (stgFind s.cdc tenant block).isSome = true then s
  else
    let room := 3840 - 64 * banksLost s 128 192
    let s := if room ≤ s.cdc.stg.length then
        match oldestEntry s (·.lastUse) (s.cdc.stg.filter fun e => !entryDirty e) with
        | some e => { s with cdc := stgDrop e.tenant e.block s.cdc }
        | none => s
      else s
    if room ≤ s.cdc.stg.length then s
    else { s with cdc := stgPut (fillStrips s.drt a (List.range 8) (newEntry tenant block (now s))) s.cdc }

/-- The body of `READ_DATA` for a line (Table 1.6 step 6): the coded strip under LEN, the whole coded block under
LENCRC, from staging where the strip is staged. -/
def readBody (s : State) (e : ExtRec) (tenant block a k grant : Nat) : Msg :=
  match (stgFind s.cdc tenant block).bind fun x => if (stripOf x k).present then some x else none with
  | some x =>
    if e.crc then
      let (w, ms, st) := encodeBlock e.fmt true (fillStrips s.drt a (List.range 8) x).data x.poison
      .readData 0 grant k 1 w ms (st.flatMap id)
    else
      let p := storeStrip e.fmt (stripMask x.poison k) (slice x.data (512 * k) 512)
      .readData 0 grant k 0 (mkBmw ((List.replicate 8 0).set k p.1) e.fmt 0 0)
        ((List.range 8).map fun j => if j = k then stripMask x.poison k else 0) p.2
  | none =>
    let r := blockRec s.drt a
    let st := storedStrips s.drt a
    if bmwMode r.bmw = 1 then .readData 0 grant k 1 r.bmw r.masks (st.flatMap id)
    else .readData 0 grant k 0 r.bmw r.masks (st.getD k [])

/-- Mark the way of a tile as accessed (Table 10.2, REF). -/
def touchTile (tenant tile : Nat) (s : State) : State :=
  match findWay s tenant tile with
  | some i => { s with drt := { s.drt with ways := tmod {} i (fun y => { y with ref := true }) s.drt.ways } }
  | none => s

/-- CODE_FAULT_RECOVERY (R185) on the serving unit, for a coder that gives the same result again: the tile is filled
again where it is clean and Hoard-backed, and otherwise the strip, or the block under LENCRC, becomes poison. Answers
the state, and whether the request may be served again. -/
def recoverFault (e : ExtRec) (g : Nat) (st block a : Nat) (f : DecFault) (s : State) : State × Bool :=
  let tile := block / 8
  if cleanBacked s e g tile then
    let s := codecFault st e.tenant block f 2 s
    let s := raise { code := 0x0801, tenant := e.tenant, sk := 2, si := e.id, addr := block * 4096, d0 := f.reason, d1 := 3 } s
    (startFill e g tile (dropCopy e.tenant tile s), true)
  else (poisonFault e st block a f s, false)

/-- What a write to strip `k` reads from DRAM first (R186): its strips are decoded and checked, with their units in the queue
of requester `q`. A fault is handled under R185; answers false while the tile is filled again. -/
def fillForWrite (e : ExtRec) (g st q block a k : Nat) (s : State) : State × Bool :=
  let ks := notStaged s e.tenant block (fillSet s e a k)
  let counted (a : Nat) (s : State) : State := countDec st block ks.length (enqueueStrips q a ks false s)
  match stripFault s e.tenant block a ks with
  | none => (counted a s, true)
  | some f =>
    if cleanBacked s e g (block / 8) then
      let s := (recoverFault e g st block a f s).1
      match landedAddr s e g (block / 8) (block % 8) with
      | some a => (counted a (poisonFaults e st block a ks 9 s), true)
      | none => (s, false)
    else (counted a (poisonFaults e st block a ks 9 s), true)

/-- The same for the unit's own agents, which take a strip as poisoned where the fill does not land at once. -/
def fillForAgent (e : ExtRec) (g st q block k : Nat) (s : State) : State :=
  match landedAddr s e g (block / 8) (block % 8) with
  | none => s
  | some a =>
    let r := fillForWrite e g st q block a k s
    if r.2 then r.1 else poisonFaults e st block a (fillSet s e a k) 9 s

/-- Answer a read from a landed block. -/
def finishRead (e : ExtRec) (g : Nat) (r : MemReq) (a grant : Nat) (s : State) : State :=
  let block := r.addr / 4096
  let i := r.addr / 64 % 64
  if frozenStrips s a (stripsFor (blockRec s.drt a).bmw (i / 8)) && (match stgFind s.cdc e.tenant block with
      | some x => !(stripOf x (i / 8)).present
      | none => true) then answerPoison r s
  else
    match readLine s e.tenant block a i with
    | .data line p =>
      let s := if (stgFind s.cdc e.tenant block).isSome then s
        else enqueueStrips (reqQueue r) a (stripsFor (blockRec s.drt a).bmw (i / 8)) false s
      let s := countDec (reqStream r) block (stripsFor (blockRec s.drt a).bmw (i / 8)).length s
      let s := touchTile e.tenant (block / 8) s
      if p then answerPoison r s
      else match r.origin with
        | none => answerData r line false grant (holdBlock e.tenant block a s)
        | some (u, tag) => respond u tag r.tenant (readBody s e e.tenant block a (i / 8) grant) s
    | .fault f =>
      let q := recoverFault e g (reqStream r) block a f s
      if q.2 then
        match landedAddr q.1 e g (block / 8) (block % 8) with
        | some a =>
          match readLine q.1 e.tenant block a i with
          | .data line p => if p || r.origin.isSome then answerPoison r q.1 else answerData r line false grant q.1
          | .fault _ => answerPoison r q.1
        | none => park r 0 q.1
      else answerPoison r q.1

/-- A block of a tile that no DRAM slot takes, as the Hoard log or this unit's own Dreys give it (R220). -/
def uncachedBlock (s : State) (e : ExtRec) (tile j : Nat) : Option (BitVec 96 × List Byte × List (List Byte)) :=
  let cut (area : List Byte) : Option (BitVec 96 × List Byte × List (List Byte)) :=
    ((List.range (j + 1)).foldl (fun (p : Option (Nat × Option (BitVec 96 × List Byte × List (List Byte)))) i =>
      match p with
      | none => none
      | some (o, _) =>
        match packedRecord area o (if i = 0 then none else some (tileKey e.tenant tile, i)) with
        | .error _ => none
        | .ok (_, _, rec, pay) => some (o + 32 + pay, some (rec.bmw, rec.masks, cutStored rec.bmw (slice area (o + 32) pay))))
      (some (0, none))).bind (·.2)
  match inLog s.hrd e.tenant tile with
  | some (_, t, r) => cut (slice r.data t.offset t.len)
  | none =>
    match dirFind s.hrd e.tenant tile with
    | none => if s.hrd.foreign.contains (e.id, tile / 32768 - e.base) then none else some (zeroBmw e, List.replicate 8 0, List.replicate 8 [])
    | some d =>
      if d.zero then some (zeroBmw e, List.replicate 8 0, List.replicate 8 [])
      else match localRange s d.stripe d.offset d.len with
        | some a => cut a
        | none =>
          let got (c : Nat) : Option Gathered := s.hrd.gathered.reverse.find? fun y =>
            y.stripe == d.stripe && y.chunk == c && y.tenant == d.tenant && y.tile == d.tile
          if (tileChunks d).all fun c => (got c).isSome then
            cut (slice ((tileChunks d).flatMap fun c => padTo chunkBytes 0 (((got c).map (·.bytes)).getD []))
              (d.offset - d.offset / chunkBytes * chunkBytes) d.len)
          else none

/-- Answer a read from a block that no DRAM slot takes. -/
def answerUncached (r : MemReq) (bmw : BitVec 96) (masks : List Byte) (strips : List (List Byte)) (s : State) : State :=
  match decodeStrips bmw masks strips (List.range 8) with
  | .error _ => answerPoison r s
  | .ok l =>
    let i := r.addr / 64 % 64
    if (recPoison { bmw := bmw, masks := masks }).getLsbD i || s.hrd.unreadable.contains (r.tenant, r.addr / 32768) then
      answerPoison r s
    else match r.origin with
      | none => answerData r (slice (l.flatMap (·.2)) (64 * i) 64) false 0 s
      | some (u, tag) =>
        let k := i / 8
        let m : Msg := if bmwMode bmw = 1 then .readData 0 0 k 1 bmw masks (strips.flatMap id)
          else .readData 0 0 k 0 bmw masks (strips.getD k [])
        respond u tag r.tenant m s

/-- The grant a read asks for under Table 8.3: 0 none, 1 S, 2 E. -/
def grantFor (kind st : Nat) (w : Want) : Nat :=
  if kind ≠ 1 then 0
  else match w with
    | .none => 0
    | .shared => if st = 5 then 0 else 1
    | .exclusive => if grantsE st then 2 else if st = 5 then 0 else 1

/-- The read path on the serving unit, from step 3 of Table 1.4: snoops (Table 8.4), fill, data, grant. -/
def serveRead (e : ExtRec) (g : Nat) (r : MemReq) (s : State) : State :=
  let grant := grantFor e.kind (extSt s e.id).st r.want
  let h := reqHolder s r
  let needs := if e.kind = 1 then hostNeeds s e.tenant (r.addr / 64 * 64) h (grant == 2) else none
  match needs with
  | some (data, targets) =>
    park r 2 (startSnoop e.tenant (r.addr / 64 * 64) data targets (.host r.id) s)
  | none =>
    if grant ≠ 0 ∧ (sfFind s.ext e.tenant (r.addr / 64 * 64)).isNone = true ∧ sfFull s = true then park r 2 (sfEvict s)
    else
      let tile := r.addr / 32768
      let j := r.addr / 4096 % 8
      let s := if (landedAddr s e g tile j).isSome then s else
        if s.uni.restarting then s else startFill e g tile s
      match landedAddr s e g tile j with
      | some a =>
        let s := if grant = 0 then s else sfGrant e.tenant (r.addr / 64 * 64) e.id h (grant == 2) s
        finishRead e g r a grant s
      | none =>
        if s.uni.restarting then answerPoison r (raise (reqEv r 0x0A07 r.stamp 0) s)
        else match if s.drt.noCache then uncachedBlock s e tile j else none with
          | some (bmw, masks, strips) => answerUncached r bmw masks strips s
          | none => park r 0 s

/-! ### Writes on the serving unit -/

/-- A host's eviction gives up its hold on the line (Table 8.5). -/
def evictHold (tenant addr : Nat) (h : Nat × Nat) (s : State) : State :=
  if s.ext.snoops.any fun n => n.tenant == tenant && n.addr == addr then s
  else match sfFind s.ext tenant addr with
    | none => s
    | some e =>
      let hs := e.holders.filter (· != h)
      { s with ext := if hs.isEmpty && !e.broad then sfDrop tenant addr s.ext else sfPut { e with holders := hs } s.ext }

/-- The write answers a Back-Invalidate raised by a seal of the extent (R149). -/
def answersSeal (s : State) (x tenant addr : Nat) (h : Nat × Nat) : Bool :=
  s.ext.snoops.any fun n => n.tenant == tenant && n.addr == addr && n.cause == .sealing x && n.waiting.contains h

/-- The write path on the serving unit (R186): state, fill, staging, completion. -/
def serveWrite (e : ExtRec) (g : Nat) (r : MemReq) (s : State) : State :=
  let st := (extSt s e.id).st
  let h := reqHolder s r
  if !writeOk s e.id r.stamp (answersSeal s e.id e.tenant (r.addr / 64 * 64) h) then
    let s := onExtent e.id (fun x => if st = 3 then { x with sealedWr := sat 16 (x.sealedWr + 1) } else x) s
    answerWrite r 3 (raise (reqEv r 0x0701 st 0) s)
  else if kmFull s e then answerWrite r 3 (raise { reqEv r 0x0502 0 0 with d0 := r.addr } s)
  else
    let tile := r.addr / 32768
    let j := r.addr / 4096 % 8
    let s := if (landedAddr s e g tile j).isSome then s else startFill e g tile s
    match landedAddr s e g tile j with
    | none => park r 0 s
    | some a =>
      if frozenStrips s a [r.addr / 512 % 8] then answerWrite r 0 s
      else
        let f := fillForWrite e g (reqStream r) (reqQueue r) (r.addr / 4096) a (r.addr / 512 % 8) s
        if !f.2 then park r 0 f.1
        else
          let s := stageWrite e.tenant (r.addr / 64) (reqStream r) r.be r.data r.poison f.1
          answerWrite r 0 (touchTile e.tenant tile s)

/-! ### Checks and forwarding -/

/-- Forward a request to its serving unit (Table 1.6 step 3, R274). A read of an unreachable unit is poison with a
DEFERRED event (R272); a write to one is lost (R273). -/
def forwardReq (u : Nat) (r : MemReq) (s : State) : State :=
  if unreachable s u then
    let s := raise { code := 0x0B03, tenant := r.tenant, sk := 11, si := u, addr := r.addr, d0 := u } s
    if r.isWrite then
      answerWrite r 0 (raise { code := 0x0B04, tenant := r.tenant, sk := 11, si := u, addr := r.addr, d0 := s.wrn.nextTag }
        { s with wrn := { s.wrn with lostWrites := s.wrn.lostWrites + 1 } })
    else answerPoison r s
  else if r.isWrite && s.hst.reqs.any (fun q => q.isWrite && q.wait == 1 && q.tenant == r.tenant && q.addr / 64 == r.addr / 64) then
    park r 4 s
  else
    let tag := s.wrn.nextTag
    let m : Msg := if r.isWrite then .write r.addr r.stamp (r.tenant * 256 + r.ld) r.poison r.be r.data
      else .read r.addr r.stamp (r.tenant * 256 + r.ld) r.want
    sendReq u r.tenant m (park { r with tag := tag } 1 s)

/-- A request at its extent (Table 1.4 step 2 and R15): the lease window, the extent state, then this unit's own
tier or the serving unit. `e`, `g` and `rd` are the extent, its granule and whether the tenant reads as a reader. -/
def routeReq (e : ExtRec) (g : Nat) (rd : Bool) (r : MemReq) (s : State) : State :=
  if !inWindow s r.tenant r.stamp then
    answerRefused r (raise (reqEv r 0x0506 r.stamp (leaseGuardAt s r.tenant)) s)
  else if !r.isWrite && !readOk (extSt s e.id).st rd then
    answerPoison r (raise (reqEv r 0x0705 (extSt s e.id).st 0) s)
  else if r.isWrite && rd then
    answerWrite r 3 (raise (reqEv r 0x0701 (extSt s e.id).st 0)
      (onExtent e.id (fun x => { x with sealedWr := sat 16 (x.sealedWr + 1) }) s))
  else match servedHereAs s e g r.origin.isSome with
    | none => forwardReq (serverOf s e g) r s
    | some e => if r.isWrite then serveWrite e g r s else serveRead e g r s

/-- The region of an extent's DPA range for an LD (R104, R152): 0 for PRIVATE-COHERENT, 1 otherwise. -/
def dpaRegion (dpa : Nat) : Nat := dpa / 2 ^ 50

/-- The extent that an LD has accepted and that covers a DPA (R104, R105, R152). -/
def acceptedAt (s : State) (ld dpa : Nat) : Option (ExtRec × Nat × Bool) :=
  let a := dpa % 2 ^ 50
  (ldOf s.hst ld).accepted.findSome? fun (x, rd) =>
    match extRec (extView s) x with
    | none => none
    | some e =>
      if dpaRegion dpa = (if e.kind = 1 ∧ rd = false then 0 else 1) ∧ e.base ≤ a / gib ∧ a / gib < e.base + e.size then
        some (e, a / gib - e.base, rd)
      else none

/-- IDE serves a link's traffic (R115). -/
def ideOk (s : State) (link : Nat) : Bool :=
  !s.hst.ideRequired || ((linkOf s.hst link).ideMem && (linkOf s.hst link).ideIo && !(linkOf s.hst link).insecure)

/-- A write to an LD's BAR0 is taken (R115, R377): its link has the IDE that is required, and the unit is neither unpowered nor
in DORMOUSE. -/
def barTaken (s : State) (ld : Nat) : Bool :=
  ideOk s (ld / 16) && s.uni.st != .off && s.uni.st != .standby && s.uni.st != .dormouse

/-- A CXL.mem request of a host, from its ingress (Tables 1.4 to 1.6; R103, R107, R115, R377, R423, R424). -/
def hostRequest (r : MemReq) (dpa : Nat) (s : State) : State :=
  let w := b2n r.isWrite
  match s.uni.st with
  | .held => park { r with addr := dpa } 3 s
  | .faulted => park { r with addr := dpa } 3 s
  | .dormouse =>
    answerRefused r (raise { code := 0x0010, sk := 1, si := r.ld, addr := dpa, d0 := stCode s.uni.st, d1 := w } s)
  | .serving | .draining =>
    if !ideOk s (r.ld / 16) then
      answerRefused r (raise { code := 0x0508, sk := 1, si := r.ld, d0 := dpa, d1 := w } s)
    else match ldTenant s r.ld with
      | none => answerRefused r (raise { code := 0x0509, sk := 1, si := r.ld, d0 := dpa, d1 := w } s)
      | some t =>
        let r := { r with tenant := t, addr := dpa % 2 ^ 50 }
        match acceptedAt s r.ld dpa with
        | none =>
          answerRefused r (raise { code := 0x0502, tenant := t, sk := 1, si := r.ld, d0 := dpa }
            { s with hst := { s.hst with lds := tmod {} r.ld (fun l => { l with noExtent := sat 16 (l.noExtent + 1) }) s.hst.lds } })
        | some (e, g, rd) => routeReq e g rd r s
  | _ => answerRefused r (raise { code := 0x0010, sk := 1, si := r.ld, addr := dpa, d0 := stCode s.uni.st, d1 := w } s)

/-- Serve a request again that waited in service. -/
def resumeReq (r : MemReq) (s : State) : State :=
  match extFor s r.tenant r.addr with
  | none => answerRefused r s
  | some (e, g, rd) =>
    match servedHereAs s e g r.origin.isSome with
    | none => forwardReq (serverOf s e g) r s
    | some e =>
      if r.isWrite && rd then answerWrite r 3 s
      else if r.isWrite then serveWrite e g r s else serveRead e g r s

/-- Take the waiting requests that a test picks out of the queue and serve them again, oldest first. -/
def resumeWhere (p : MemReq → Bool) (s : State) : State :=
  (s.hst.reqs.filter p).foldl (fun s r => resumeReq { r with wait := 0 } s)
    { s with hst := { s.hst with reqs := s.hst.reqs.filter fun r => !p r } }

/-- The block of a waiting request has landed. -/
def reqReady (s : State) (r : MemReq) : Bool :=
  match extFor s r.tenant r.addr with
  | some (e, g, _) => (landedAddr s e g (r.addr / 32768) (r.addr / 4096 % 8)).isSome
      || (s.drt.noCache && !r.isWrite && (uncachedBlock s e (r.addr / 32768) (r.addr / 4096 % 8)).isSome)
  | none => true

/-- Orphaned lines whose block has landed become poison (R166). -/
def applyOrphans (s : State) : State :=
  s.ext.owedPoison.foldl (fun s p =>
    match extAt (extView s) p.1 (p.2 * 64) with
    | none => { s with ext := { s.ext with owedPoison := s.ext.owedPoison.filter (· != p) } }
    | some (e, g) =>
      if (landedAddr s e g (p.2 / 512) (p.2 / 64 % 8)).isNone then s
      else stageWrite e.tenant p.2 0x20 0 [] true <| fillForAgent e g 0x20 31 (p.2 / 64) (p.2 / 8 % 8) { s with ext := { s.ext with owedPoison := s.ext.owedPoison.filter (· != p) } }) s

/-- Serve every request whose block has landed (R14), and start the fills that were deferred. -/
def settle (s : State) : State :=
  let s := applyOrphans s
  let s := resumeWhere (fun r => r.wait == 0 && reqReady s r) s
  let s := (s.hst.reqs.filter fun r => r.wait == 0).foldl (fun s r =>
    match extFor s r.tenant r.addr with
    | some (e, g, _) => match servedHereAs s e g r.origin.isSome with
      | some e => startFill e g (r.addr / 32768) s
      | none => s
    | none => s) s
  resumeWhere (fun r => r.wait == 0 && reqReady s r) s

/-- Pack a tile again (R235, R360): now if the tier holds it, else once its fill has landed. -/
def repackTile (tenant tile : Nat) (s : State) : State :=
  match extAt (extView s) tenant (tile * 32768) with
  | none => s
  | some (e, g) =>
    let here := (List.range 8).all fun j => (landedAddr s e g tile j).isSome
    if here then
      match locate s e g tile with
      | .at _ _ => { logTile tenant tile s with hrd := { (logTile tenant tile s).hrd with
          repack := (logTile tenant tile s).hrd.repack.filter (· != (tenant, tile)) } }
      | .absent => s
    else startFill e g tile { s with hrd := { s.hrd with repack := addNew (tenant, tile) s.hrd.repack } }

/-- Serve the requests that waited for a Back-Invalidate flow of a line that is over (Table 8.4). -/
def settleSnoops (s : State) : State :=
  let s := snoopsDone s
  resumeWhere (fun r => r.wait == 2 && !(s.ext.snoops.any fun n => n.tenant == r.tenant && n.addr == r.addr / 64 * 64)) s

end Sys2Proof.Machine
end

