-- ==== Sys2Proof/Machine/Agent.lean ====
section
/-! DEFINITION. How the unit's own agents, the firmware and the engines, reach tenant memory: through the serving unit's
tier, its staging buffer and the Back-Invalidate flows here, and by messages for lines that another unit serves. -/

namespace Sys2Proof.Machine

/-- The tiles of a range of tenant addresses. -/
def rangeTiles (addr len : Nat) : List Nat :=
  if len = 0 then [] else (List.range ((addr + len - 1) / 32768 + 1 - addr / 32768)).map (addr / 32768 + ·)

/-- The lines of a range of tenant addresses. -/
def rangeLines (addr len : Nat) : List Nat :=
  if len = 0 then [] else (List.range ((addr + len - 1) / 64 + 1 - addr / 64)).map (addr / 64 + ·)

/-- The extent of an address, when this unit serves it. -/
def ownExt (s : State) (tenant addr : Nat) : Option (ExtRec × Nat) :=
  match extFor s tenant addr with
  | some (e, g, _) => if serverOf s e g = me s then some (e, g) else none
  | none => none

/-- The filter entries of a range that an agent must snoop first (Table 8.4): for a read those that hold E, for a write all. -/
def rangeSnoops (s : State) (tenant addr len : Nat) (write : Bool) : List SfEntry :=
  s.ext.sf.filter fun e => e.tenant == tenant && decide (addr / 64 * 64 ≤ e.addr) && decide (e.addr < addr + len) && (write || e.excl)

/-- The tiles of a range that are not all landed. -/
def missingTiles (s : State) (tenant addr len : Nat) : List Nat :=
  (rangeTiles addr len).filter fun t =>
    match ownExt s tenant (t * 32768) with
    | none => false
    | some (e, g) => (List.range 8).any fun j =>
        decide (addr < t * 32768 + 4096 * (j + 1)) && decide (t * 32768 + 4096 * j < addr + len) && (landedAddr s e g t j).isNone

/-- The lines of a range that other units serve. -/
def remoteLines (s : State) (tenant addr len : Nat) : List Nat :=
  ((rangeTiles addr len).filter fun t =>
    match extFor s tenant (t * 32768) with
    | some (e, g, _) => serverOf s e g != me s
    | none => false).flatMap fun t =>
      ((List.range 512).map (512 * t + ·)).filter fun l => decide (addr < 64 * (l + 1)) && decide (64 * l < addr + len)

/-- What this unit's agents hold of a line that another unit serves. -/
def lineHeld (s : State) (tenant line : Nat) : Option AgentLine := s.opq.lines.find? fun x => x.tenant == tenant && x.line == line

/-- Keep what is known of a line. -/
def keepLine (x : AgentLine) (s : State) : State :=
  { s with opq := { s.opq with lines := s.opq.lines.filter (fun y => !(y.tenant == x.tenant && y.line == x.line)) ++ [x] } }

/-- Forget the lines of a range that have been read. -/
def dropLines (tenant addr len : Nat) (s : State) : State :=
  { s with opq := { s.opq with
      lines := s.opq.lines.filter fun x => !(x.tenant == tenant && decide (addr < 64 * (x.line + 1)) && decide (64 * x.line < addr + len)) } }

/-- Ask the serving unit of a line for it (R274, R329): poison with a DEFERRED event where that unit is unreachable (R272). -/
def askLine (tenant line : Nat) (s : State) : State :=
  if (lineHeld s tenant line).isSome then s
  else match extFor s tenant (line * 64) with
    | none => s
    | some (e, g, _) =>
      let u := serverOf s e g
      if unreachable s u then
        keepLine { tenant := tenant, line := line, tag := 0, data := some (List.replicate 64 0, true) }
          (raise { code := 0x0B03, tenant := tenant, sk := 11, si := u, addr := line * 64, d0 := u } s)
      else
        sendReq u tenant (.read (line * 64) (now s) (tenant * 256) .none) (keepLine { tenant := tenant, line := line, tag := s.wrn.nextTag } s)

/-- Start what an access to a range needs: the snoops and the fills here, and, for a read, the lines of other units. -/
def bringRange (tenant addr len : Nat) (write : Bool) (s : State) : State :=
  let s := (rangeSnoops s tenant addr len write).foldl (fun s e =>
    startSnoop tenant e.addr (!write) (snoopTargets s e) (.engine tenant e.addr) s) s
  let s := (missingTiles s tenant addr len).foldl (fun s t =>
    match ownExt s tenant (t * 32768) with
    | some (e, g) => startFill e g t s
    | none => s) s
  if write then s else (remoteLines s tenant addr len).foldl (fun s l => askLine tenant l s) s

/-- Nothing of a range is left to wait for. -/
def rangeReady (s : State) (tenant addr len : Nat) (write : Bool) : Bool :=
  (rangeSnoops s tenant addr len write).isEmpty && (missingTiles s tenant addr len).isEmpty
    && (write || (remoteLines s tenant addr len).all fun l => (lineHeld s tenant l).any (·.data.isSome))

/-- One line as an agent reads it, with its poison flag: this unit's, or what the unit that serves it has sent; a free value where
neither is at hand (log entry 24). -/
def agentLine (tenant line : Nat) (s : State) : State × List Byte × Bool :=
  match ownExt s tenant (line * 64) with
  | none =>
    match (lineHeld s tenant line).bind (·.data) with
    | some d => (s, d.1, d.2)
    | none => (draw s, padTo 64 0 (Config.bytes s.free line), Config.flag s.free)
  | some (e, g) =>
    let tile := line / 512
    let j := line / 64 % 8
    match landedAddr s e g tile j with
    | none => (s, List.replicate 64 0, true)
    | some a =>
      match readLine s e.tenant (line / 64) a (line % 64) with
      | .data l p => (s, if p then List.replicate 64 0 else l, p)
      | .fault f =>
        let q := recoverFault e g 0x20 (line / 64) a f s
        match (if q.2 then landedAddr q.1 e g tile j else none) with
        | none => (q.1, List.replicate 64 0, true)
        | some a =>
          match readLine q.1 e.tenant (line / 64) a (line % 64) with
          | .data l p => (q.1, if p then List.replicate 64 0 else l, p)
          | .fault _ => (q.1, List.replicate 64 0, true)

/-- The bytes of a range as an agent reads them, and whether any line of it is poisoned. What other units sent of it is used up. -/
def agentRead (tenant addr len : Nat) (s : State) : State × List Byte × Bool :=
  let r := (rangeLines addr len).foldl (fun (p : State × List Byte × Bool) n =>
    let q := agentLine tenant n p.1
    (q.1, p.2.1 ++ q.2.1, p.2.2 || q.2.2)) (s, [], false)
  (dropLines tenant addr len r.1, slice r.2.1 (addr % 64) len, r.2.2)

/-- The lines of a range that starts at a line, each with its poison flag. -/
def agentLines (tenant addr len : Nat) (s : State) : State × List (List Byte × Bool) :=
  (rangeLines addr len).foldl (fun (p : State × List (List Byte × Bool)) n =>
    let q := agentLine tenant n p.1
    (q.1, p.2 ++ [q.2])) (s, [])

/-- Write one line, or part of it, as an agent: into staging here, or by `WRITE` to the unit that serves it. Answers
whether Table 8.3 discarded it. -/
def agentWriteLine (tenant line stream : Nat) (be : BitVec 64) (data : List Byte) (poison : Bool) (s : State) : State × Bool :=
  match extAt (extView s) tenant (line * 64) with
  | none => (s, true)
  | some (e, g) =>
    if !writeOk s e.id (now s) false then (s, true)
    else if serverOf s e g = me s then
      (stageWrite e.tenant line stream be data poison (fillForAgent e g stream 25 (line / 64) (line / 8 % 8) s), false)
    else (sendReq (serverOf s e g) tenant (.write (line * 64) (now s) (tenant * 256) poison be data) s, false)

/-- Write bytes at a tenant address as an agent; whether any of them were discarded. -/
def agentWrite (tenant addr stream : Nat) (bytes : List Byte) (s : State) : State × Bool :=
  (rangeLines addr bytes.length).foldl (fun (p : State × Bool) n =>
    let lo := max addr (n * 64)
    let hi := min (addr + bytes.length) (n * 64 + 64)
    let be : BitVec 64 := BitVec.ofNat 64 ((2 ^ (hi - lo) - 1) * 2 ^ (lo - n * 64))
    let q := agentWriteLine tenant n stream be (List.replicate (lo - n * 64) 0 ++ slice bytes (lo - addr) (hi - lo)
      ++ List.replicate (n * 64 + 64 - hi) 0) false p.1
    (q.1, p.2 || q.2)) (s, false)

end Sys2Proof.Machine
end

