-- ==== Sys2Proof/Machine/MbxCore.lean ====
section
/-! DEFINITION. The mailboxes' shared operations (chapter 7): stamp words (R128), queues of 16 (R134), doorbells (R132,
R133), sender epochs (R136 to R139) and mode changes (R142). -/

namespace Sys2Proof.Machine

/-- The mailbox of an LD, and its update. -/
def boxOf (m : Mbx) (ld : Nat) : HostBox := tget {} m.host ld
def onBox (ld : Nat) (f : HostBox → HostBox) (s : State) : State := { s with mbx := { s.mbx with host := tmod {} ld f s.mbx.host } }

/-- An internal mailbox, and its update. -/
def intOf (m : Mbx) (j : Nat) : IntBox := tget {} m.internal j
def onInt (j : Nat) (f : IntBox → IntBox) (s : State) : State :=
  { s with mbx := { s.mbx with internal := tmod {} j f s.mbx.internal } }

/-- A stamp word (Table 7.2). -/
def stampWord (ident epoch source : Nat) (stamp : Ns) : Word :=
  BitVec.ofNat 64 (ident % 2 ^ 16 + epoch % 16 * 2 ^ 16 + source * 2 ^ 20 + stamp % 2 ^ 32 * 2 ^ 32)

/-- The epoch of a stamp word. -/
def stampEpoch (w : Word) : Nat := bits w.toNat 19 16

/-- The stamp word of a host message (Table 7.3): tenant, then the LD index, which is link and LD-ID. -/
def hostStamp (s : State) (ld : Nat) (stamp : Ns) : Word :=
  stampWord (((ldTenant s ld).getD 0) * 256 + ld) (boxOf s.mbx ld).epoch 0 stamp

/-- The stamp word of a firmware message, by logical Shrew core. -/
def fwStamp (s : State) (core : Nat) : Word := stampWord (core % 16) s.mbx.fwEpoch 1 (now s)

/-- `MBX_DB` as it reads: bit 0 is level-held (R132). -/
def dbBits (b : HostBox) : BitVec 32 := (b.db &&& ~~~ 1#32) ||| (if b.f2h.isEmpty then 0 else 1)

/-- Vector 0 of an LD, when a doorbell bit becomes 1 while it is not masked (R133). -/
def ringBell (ld : Nat) (before after : HostBox) (s : State) : State :=
  if (dbBits after &&& ~~~ dbBits before &&& ~~~ after.mask) != 0 then sendMsix ld 0 s else s

/-- Change a mailbox, with the message that its doorbell bits call for. -/
def onBoxBell (ld : Nat) (f : HostBox → HostBox) (s : State) : State :=
  ringBell ld (boxOf s.mbx ld) (f (boxOf s.mbx ld)) (onBox ld f s)

/-- Set doorbell bits of an LD (Table 7.4). -/
def setDb (ld : Nat) (b : Nat) (s : State) : State := onBoxBell ld (fun x => { x with db := x.db ||| BitVec.ofNat 32 (2 ^ b) }) s

/-- Set a doorbell bit of every LD bound to a tenant here. -/
def setDbTenant (t b : Nat) (s : State) : State := (ldsOf s t).foldl (fun s ld => setDb ld b s) s

/-- A queue holds 16 messages. -/
def queueCap : Nat := 16

/-- The firmware sends to a host: into the F2H queue, or held while it is full (R134). -/
def fwSend (ld : Nat) (m : MbxMsg) (s : State) : State :=
  onBoxBell ld (fun b =>
    if b.f2h.length < queueCap ∧ b.unsent = [] then { b with f2h := b.f2h ++ [m] } else { b with unsent := b.unsent ++ [m] }) s

/-- An entry of the H2F queue is freed (Table 7.4, SPACE). -/
def freeH2f (b : HostBox) : HostBox :=
  { b with h2f := b.h2f.drop 1, db := if b.spaceOwed then b.db ||| 2 else b.db, spaceOwed := false }

/-- Remove the messages that still carry an epoch from a queue: what is left, and how many went (R137). -/
def purge (e : Nat) (q : List MbxMsg) : List MbxMsg × Nat :=
  (q.filter (fun m => stampEpoch m.stamp != e), (q.filter fun m => stampEpoch m.stamp == e).length)

/-- SENDER_EPOCH_ADVANCE of a host LD (R136, R137, R138): its queue loses messages of the epoch it enters, and the
firmware's replies to requests of the epoch it leaves are withheld and counted. -/
def hostEpoch (ld : Nat) (s : State) : State :=
  onBoxBell ld (fun b =>
    let e := (b.epoch + 1) % 16
    let p := purge e b.h2f
    { b with
      epoch := e
      h2f := p.1
      taken := []
      discarded := sat 16 (b.discarded + p.2)
      repliesDiscarded := sat 16 (b.repliesDiscarded + b.taken.length)
      db := if p.2 + b.taken.length = 0 then b.db else b.db ||| 4 }) s

/-- Set doorbell bits of an internal mailbox: each raises a core interrupt of the receiving agent (R133). -/
def intBells (j : Nat) (l : List Nat) (s : State) : State :=
  l.foldl (fun s b => emit (.coreInterrupt j b) (onInt j (fun x => { x with db := x.db ||| BitVec.ofNat 32 (2 ^ b) }) s)) s

/-- SENDER_EPOCH_ADVANCE of the firmware (R136, R137): in every queue it writes, with `PEER_RESET`. -/
def fwEpochAdvance (s : State) : State :=
  let e := (s.mbx.fwEpoch + 1) % 16
  let s := (List.range 64).foldl (fun s j =>
    let q := purge e (intOf s.mbx j).outQ
    intBells j (if q.2 = 0 then [3] else [2, 3]) (onInt j (fun b => { b with outQ := q.1 }) s))
    { s with mbx := { s.mbx with fwEpoch := e } }
  (List.range 256).foldl (fun s ld =>
    onBoxBell ld (fun b =>
      let p := purge e b.f2h
      { b with f2h := p.1, repliesDiscarded := sat 16 (b.repliesDiscarded + p.2), db := b.db ||| (if p.2 = 0 then 8 else 12) }) s) s

/-- SENDER_EPOCH_ADVANCE of an engine sequencer (R136, R137). -/
def engEpochAdvance (e : Nat) (s : State) : State :=
  let v := (tget 0 s.mbx.engEpoch e + 1) % 16
  let p := purge v (intOf s.mbx (9 + e)).inQ
  intBells (9 + e) (if p.2 = 0 then [3] else [2, 3])
    (onInt (9 + e) (fun b => { b with inQ := p.1, epoch := v }) { s with mbx := { s.mbx with engEpoch := tset e v s.mbx.engEpoch } })

/-- MAILBOX_MODE_CHANGE of a host mailbox (R142): both queues are emptied and counted. -/
def modeChange (ld : Nat) (pointer : Bool) (s : State) : State :=
  onBoxBell ld (fun b =>
    { b with
      pointer := pointer
      h2f := []
      f2h := []
      unsent := []
      taken := []
      low := none
      ptr := 0
      discarded := sat 16 (b.discarded + b.h2f.length)
      repliesDiscarded := sat 16 (b.repliesDiscarded + b.f2h.length)
      db := b.db ||| 36 }) s

/-- A mode change of an internal mailbox (R142). -/
def intModeChange (j : Nat) (pointer : Bool) (s : State) : State :=
  intBells j [2, 5] (onInt j (fun b => { b with pointer := pointer, inQ := [], outQ := [] }) s)

/-- The domain of the mailboxes cannot serve (Table 7.6): DORMOUSE, or VI0 unpowered. -/
def mbxDown (s : State) : Bool :=
  s.uni.st == .dormouse || s.uni.st == .off || s.uni.st == .standby || !(tget ({} : Isl) s.pwr.isl 0).on

/-- The event of an access to a domain that is down (R135): mailbox, and the row of Table 7.6. -/
def mbxRefused (box situation : Nat) (ld : Option Nat) (s : State) : State :=
  raise { code := 0x0601, sk := if ld.isSome then 1 else 0, si := ld.getD 0, d0 := box, d1 := situation } s

end Sys2Proof.Machine
end

