-- ==== Sys2Proof/Machine/OpCore.lean ====
section
/-! DEFINITION. Rings, completion records and the retire gate as every block uses them (chapter 14): sealing (R315 to
R319), aborts (R338), and the moves of an extent's state with what follows from them (R146, R167, R315). -/

namespace Sys2Proof.Machine

/-- A ring, and its update. -/
def ringOf (q : Opq) (n : Nat) : Ring := tget {} q.rings n
def onRing (n : Nat) (f : Ring → Ring) (s : State) : State := { s with opq := { s.opq with rings := tmod {} n f s.opq.rings } }

/-- The unit-wide number of a tenant's local ring (R311), if the tenant holds it. -/
def localRing (s : State) (tenant r : Nat) : Option Nat :=
  let p := ringRange s.vq.active (me s) tenant
  if r < p.2 then some (p.1 + r) else none

/-- Records a ring still owes (R313, R315), in whatever place they stand. -/
def ringStopped (q : Opq) (n : Nat) : Bool := !(ringOf q n).enable && (ringOf q n).owed == 0 && (ringOf q n).held.isEmpty

/-! ### Descriptors (Tables 14.2 and 14.4) -/

def descOp (d : List Byte) : Nat := fld d 0 1
def descFence (d : List Byte) : Bool := bit (fld d 1 1) 0
def descIrq (d : List Byte) : Bool := bit (fld d 1 1) 1
def descUnit (d : List Byte) : Nat := fld d 2 2
def descTag (d : List Byte) : Nat := fld d 4 4
def descLimit (d : List Byte) : Nat := fld d 8 4

/-- The class default of a time limit (Table 14.7), in ms. -/
def classLimit (op : Nat) : Nat :=
  if op ≤ 0x07 then 60000
  else if op ≤ 0x14 then 600000
  else if op ≤ 0x21 then 3600000
  else if op = 0x30 then 600000 else 1000

/-- The time limit of an operator, in ns (R328). -/
def opLimit (d : List Byte) : Ns := (if descLimit d = 0 then classLimit (descOp d) else descLimit d) * msNs

/-- A compute operator (Table 14.4). -/
def isCompute (op : Nat) : Bool := decide (0x10 ≤ op) && decide (op ≤ 0x14)

/-! ### Records -/

/-- What a record says of an operator's end (Table 14.3). -/
structure RecVals where
  status : Nat
  detail : Nat := 0
  flags11 : Nat := 0
  flags14 : Nat := 0
  r0 : Nat := 0
  r1 : Nat := 0
deriving DecidableEq, Repr

/-- The provenance stamp (R318). -/
def provenance (s : State) : List Byte :=
  padTo 8 0 (((s.vq.active.map (·.digest)).getD []).take 8) ++ leBytes 4 s.uni.lib.toNat ++ leBytes 4 (fuseDigest s.fus).toNat

/-- The completion record of an operator at its gate (Table 14.3), its `PHASE` clear. -/
def recordOf (s : State) (o : Op) (v : RecVals) : List Byte :=
  leBytes 4 (descTag o.desc) ++ leBytes 4 o.sqIndex ++ leBytes 1 (descOp o.desc) ++ leBytes 1 v.status ++ leBytes 1 v.detail
    ++ leBytes 1 (v.flags11 % 16) ++ leBytes 2 o.execUnit ++ leBytes 1 (v.flags14 % 128) ++ leBytes 1 0
    ++ leBytes 8 v.r0 ++ leBytes 8 v.r1 ++ leBytes 8 (o.started.getD o.taken) ++ leBytes 8 (now s) ++ provenance s

/-- A record as the CQ takes it: `PHASE` is 1 on the first pass and flips at each wrap (R317). -/
def withPhase (r : Ring) (rcd : List Byte) : List Byte :=
  let p := b2n ((r.cqTail / 2 ^ r.cqLog) % 2 == 0)
  rcd.set 11 (BitVec.ofNat 8 (fld rcd 11 1 % 128 + 128 * p))

/-- Write a record into its CQ, with its interrupt (R317, R319). -/
def writeRecord (n : Nat) (rcd : List Byte) (irq : Bool) (s : State) : State :=
  let r := ringOf s.opq n
  let s := (agentWrite r.tenant (r.cqBase + 64 * (r.cqTail % 2 ^ r.cqLog)) 0x21 (withPhase r rcd) s).1
  let s := onRing n (fun r => { r with cqTail := (r.cqTail + 1) % 2 ^ 32, owed := r.owed - 1 }) s
  if irq && r.vector ≠ 0 then sendMsix r.ld r.vector s else s

/-- The state of the extent that an address of a tenant lies in: none where the tenant has it no more. -/
def ownState (s : State) (tenant addr : Nat) : Option Nat := (extAt (extView s) tenant addr).map fun p => (extSt s p.1.id).st

/-- Count the records of a ring that are discarded, with the event of each discard (R315). -/
def discardRecords (n k : Nat) (s : State) : State :=
  if k = 0 then s
  else
    let r := ringOf s.opq n
    raise { code := 0x0D02, tenant := r.tenant, sk := 10, si := n, d0 := n, d1 := k }
      (onRing n (fun r => { r with owed := r.owed - k, dropped := sat 16 (r.dropped + k) }) s)

/-- The context of a ring that has passed to another tenant returns to zero once `STOPPED` reads 1 (R352, R312). -/
def ringsGone (s : State) : State :=
  { s with opq := { s.opq with rings := s.opq.rings.map fun p => (p.1, if p.2.leaving && ringStopped s.opq p.1 then {} else p.2) } }

/-- Go through the records that wait to be written, in sealing order (R315, R317, R340): into the CQ when its extent takes
writes and the line is at hand, to the ring's held records while the extent is not ACTIVE, discarded once the extent has
left the tenant. A record that must wait keeps the later ones of its ring waiting. -/
def flushRecords (s : State) : State :=
  if s.uni.restarting || s.uni.st == .faulted then s
  else
    ringsGone (s.opq.waiting.foldl (fun (p : State × List Nat) w =>
      let n := w.1
      let s := p.1
      let r := ringOf s.opq n
      let keep (s : State) : State × List Nat := ({ s with opq := { s.opq with waiting := s.opq.waiting ++ [w] } }, addNew n p.2)
      if p.2.contains n then keep s
      else match ownState s r.tenant r.cqBase with
        | none => (discardRecords n 1 s, p.2)
        | some st =>
          if (st ≠ 1 ∧ st ≠ 6) ∨ r.held ≠ [] then (onRing n (fun r => { r with held := r.held ++ [(w.2.1, w.2.2)] }) s, p.2)
          else
            let a := r.cqBase + 64 * (r.cqTail % 2 ^ r.cqLog)
            let s := bringRange r.tenant a 64 true s
            if rangeReady s r.tenant a 64 true then (writeRecord n w.2.1 w.2.2 s, p.2) else keep s)
      ({ s with opq := { s.opq with waiting := [] } }, [])).1

/-- Seal a record into a ring of this unit. -/
def deliver (n : Nat) (rcd : List Byte) (irq : Bool) (s : State) : State :=
  flushRecords { s with opq := { s.opq with waiting := s.opq.waiting ++ [(n, rcd, irq)] } }

/-- Count a sealed record (Table 14.10). -/
def countRecord (tenant : Nat) (v : RecVals) (q : Opq) : Opq :=
  let q := { q with retired := q.retired + 1 }
  match v.status with
  | 1 => match v.detail with
    | 1 => { q with abHost := sat 16 (q.abHost + 1) }
    | 2 => { q with abLease := sat 16 (q.abLease + 1) }
    | 3 => { q with abFw := sat 16 (q.abFw + 1) }
    | _ => { q with abTimeout := sat 16 (q.abTimeout + 1) }
  | 2 => { q with refused := sat 32 (q.refused + 1), refReason := v.detail, refTenant := tenant }
  | 3 => { q with failed := sat 32 (q.failed + 1), failReason := v.detail }
  | _ => q

/-- Two operators are the same. -/
def sameOp (a b : Op) : Bool := a.ringUnit == b.ringUnit && a.ring == b.ring && a.sqIndex == b.sqIndex && a.desc == b.desc

/-- Change an operator that runs here. -/
def onOp (o : Op) (f : Op → Op) (s : State) : State :=
  { s with opq := { s.opq with ops := s.opq.ops.map fun x => if sameOp x o then f x else x } }

/-- An operator of this unit's rings that runs or waits here. -/
def findOp (q : Opq) (ringUnit ring sq : Nat) : Option Op :=
  q.ops.find? fun o => o.ringUnit == ringUnit && o.ring == ring && o.sqIndex == sq

/-- Operators that count against the limit of 2,048 in flight (R322). -/
def opsCounted (q : Opq) : Nat := (q.ops.filter fun o => descOp o.desc != 0x7F).length

/-- The intake moves up while there is room (R322). -/
def moveIntake (s : State) : State :=
  match s.opq.intake with
  | [] => s
  | o :: r => if opsCounted s.opq < 2048 then { s with opq := { s.opq with intake := r, ops := s.opq.ops ++ [o] } } else s

/-- Every earlier descriptor of an operator's ring has been sealed (R324, FENCE). -/
def fenceClear (q : Opq) (o : Op) : Bool :=
  let earlier (x : Op) : Bool := x.ringUnit == o.ringUnit && x.ring == o.ring && decide (0 < (o.sqIndex + 2 ^ 32 - x.sqIndex) % 2 ^ 32)
    && decide ((o.sqIndex + 2 ^ 32 - x.sqIndex) % 2 ^ 32 < 2 ^ 31)
  !(q.ops.any earlier) && !(q.fwd.any earlier) && !(q.waiting.any fun w => w.1 == o.ring
    && decide (0 < (o.sqIndex + 2 ^ 32 - fld w.2.1 4 4) % 2 ^ 32) && decide ((o.sqIndex + 2 ^ 32 - fld w.2.1 4 4) % 2 ^ 32 < 2 ^ 31))

/-- Send the `OP_FWD` of an operator of the forward table (R323). -/
def sendFwd (o : Op) (s : State) : State :=
  let tag := s.wrn.nextTag
  let same (x : Op) : Bool := sameOp x o
  sendReq o.execUnit o.tenant (.opFwd o.desc o.ring o.sqIndex)
    { s with opq := { s.opq with fwd := s.opq.fwd.map fun x => if same x then { x with tag := tag, started := none } else x } }

/-- Forwarded operators that waited for their fence are sent (R324); they carry no tag yet. -/
def releaseFences (s : State) : State :=
  (s.opq.fwd.filter fun o => o.tag == 0 && fenceClear s.opq o).foldl (fun s o => sendFwd o s) s

/-- RETIRE_GATE and sealing (R317, R318, R338): the operator leaves, and its record goes to its ring here or in `OP_DONE`.
Every FAILED record, and an abort at the time limit, comes with a CONTAINED event (R328, R341). -/
def retireOp (o : Op) (v : RecVals) (s : State) : State :=
  let rcd := recordOf s o v
  let s := { s with
    opq := countRecord o.tenant v { s.opq with
      ops := s.opq.ops.filter fun x => !sameOp x o
      intake := s.opq.intake.filter fun x => !sameOp x o
      lines := s.opq.lines.filter fun x => x.tenant != o.tenant }
    eng := { s.eng with engines := s.eng.engines.map fun p =>
      (p.1, match p.2.block with
        | some (u, n, q, _) => if u = o.ringUnit ∧ n = o.ring ∧ q = o.sqIndex then { p.2 with block := none } else p.2
        | none => p.2) } }
  let s := if v.status = 3 ∨ (v.status = 1 ∧ v.detail = 4) then
      raise { code := 0x0D01, tenant := o.tenant, sk := 10, si := o.ring, d0 := o.ring, d1 := o.sqIndex + v.detail * 2 ^ 32 } s
    else s
  let s := if o.ringUnit = me s then deliver o.ring rcd o.irq s else respond o.ringUnit o.tag o.tenant (.opDone rcd) s
  releaseFences (moveIntake s)

/-- An abort reaches an operator's gate (R338): before the completion it wins; after it, it sets `ABORT_LATE`. -/
def abortOp (o : Op) (cause : Nat) (s : State) : State :=
  if o.gate = 0 then
    retireOp o { status := 1, detail := cause, flags11 := o.flags11, flags14 := o.flags14, r0 := o.progress } s
  else onOp o (fun x => { x with flags11 := x.flags11 ||| 1 }) s

/-- Abort the operators here that a test picks out, and those of the intake. -/
def abortOps (p : Op → Bool) (cause : Nat) (s : State) : State :=
  ((s.opq.ops ++ s.opq.intake).filter p).foldl (fun s o => abortOp o cause s) s

/-- An operator writes bytes (R326): what Table 8.3 discards sets `WRITE_DISCARDED`, and writes to other units are kept until
they are done. -/
def opWritten (o : Op) (before : List Outst) (discarded : Bool) (s : State) : State :=
  let new := ((s.wrn.reqs.filter fun q => !before.contains q).map (·.tag))
  if new.isEmpty && !discarded then s
  else onOp o (fun x => { x with writes := x.writes ++ new, flags11 := if discarded then x.flags11 ||| 2 else x.flags11 }) s
def opWrite (o : Op) (addr : Nat) (bytes : List Byte) (s : State) : State :=
  let q := agentWrite o.tenant addr 0x21 bytes s
  opWritten o s.wrn.reqs q.2 q.1
def opWriteLine (o : Op) (line : Nat) (be : BitVec 64) (data : List Byte) (poison : Bool) (s : State) : State :=
  let q := agentWriteLine o.tenant line 0x21 be data poison s
  opWritten o s.wrn.reqs q.2 q.1

/-- An operator writes the eight lines of a strip, each under byte enables and with its poison: as a whole strip where it covers
one that this unit serves (R186), and line by line otherwise. -/
def opWriteStrip (o : Op) (strip : Nat) (ls : List (BitVec 64 × List Byte × Bool)) (s : State) : State :=
  let byLine (s : State) : State := (List.range ls.length).foldl (fun s i =>
    let l := ls.getD i (0, [], false)
    if l.1 = 0 then s else opWriteLine o (8 * strip + i) l.1 l.2.1 l.2.2 s) s
  match extAt (extView s) o.tenant (strip * 512) with
  | none => byLine s
  | some (e, g) =>
    if ls.all (fun l => l.1 == BitVec.allOnes 64) && writeOk s e.id (now s) false && serverOf s e g == me s then
      outputStrip e.tenant (strip / 8) (strip % 8) (ls.flatMap fun l => if l.2.2 then List.replicate 64 0 else l.2.1)
        ((List.range 8).foldl (fun (m : Byte) i => if (ls.getD i (0, [], false)).2.2 then m ||| (1#8 <<< i) else m) 0) s
    else byLine s

/-- A write of an operator to another unit is over: discarded there (R147), or lost (R273). -/
def opWriteDone (tag : Nat) (discarded lost : Bool) (s : State) : State :=
  let done (o : Op) : Op := { o with
    writes := o.writes.filter (· != tag)
    flags11 := o.flags11 ||| (if discarded then 2 else 0) ||| (if lost then 4 else 0) }
  { s with opq := { s.opq with ops := s.opq.ops.map fun o => if o.writes.contains tag then done o else o } }

/-! ### Rings and extents (R315) -/

/-- Stop a ring with an error (R314, R315). -/
def ringStop (n err : Nat) (s : State) : State :=
  let r := ringOf s.opq n
  let s := onRing n (fun r => { r with enable := false, error := err }) s
  if err = 5 then raise { code := 0x0D02, tenant := r.tenant, sk := 10, si := n, d0 := n, d1 := 0 } s else s

/-- The rings whose SQ or CQ lies in an extent. -/
def ringsOn (s : State) (x : Nat) : List Nat :=
  (s.opq.rings.filter fun p =>
    let hit (a : Nat) : Bool := (extAt (extView s) p.2.tenant a).any fun q => q.1.id == x
    p.2.enable && (hit p.2.sqBase || hit p.2.cqBase)).map (·.1)

/-- Records held for an extent go on once it is ACTIVE again under the same tenant (R315). -/
def releaseHeld (x : Nat) (s : State) : State :=
  let ns := (s.opq.rings.filter fun p =>
    !p.2.held.isEmpty && ((extAt (extView s) p.2.tenant p.2.cqBase).any fun q => q.1.id == x)).map (·.1)
  flushRecords (ns.foldl (fun s n =>
    { onRing n (fun r => { r with held := [] }) s with
      opq := { (onRing n (fun r => { r with held := [] }) s).opq with
        waiting := ((ringOf s.opq n).held.map fun h => (n, h.1, h.2)) ++ s.opq.waiting } }) s)

/-- An extent moves to a state (R146): the `EXTENT` doorbell of its tenant (Table 7.4), and its rings (R315). -/
def moveExtent (x st : Nat) (s : State) : State :=
  let e := extSt s x
  if e.st = st then s
  else
    let ns := if st = 1 ∨ st = 6 then [] else ringsOn s x
    let s := setDbTenant e.tenant 7 (onExtent x (fun y => { y with st := st }) s)
    let s := ns.foldl (fun s n => ringStop n 5 s) s
    if st = 1 then releaseHeld x s else s

end Sys2Proof.Machine
end

