-- ==== Sys2Proof/Machine/Extents.lean ====
section
/-! DEFINITION. Extents, seals, leases and reclaim (chapter 8): offers (R105, R152), the answers to Back-Invalidates
(R159), the lease at the home unit and at every other unit (R161 to R172), and the administrator's actions (R170). -/

namespace Sys2Proof.Machine

/-! ### Offers (R105, R152) -/

/-- The tag of an offer (Table 6.3). -/
def offerTag (e : ExtRec) (reader : Bool) : List Byte :=
  leBytes 2 e.id ++ leBytes 1 e.kind ++ leBytes 1 e.fmt ++ leBytes 1 (b2n e.crc) ++ leBytes 1 (b2n reader) ++ List.replicate 10 0

/-- The DPA of an offer (R104, R152). -/
def offerDpa (e : ExtRec) (reader : Bool) : Nat := e.base * gib + (if e.kind = 1 ∧ reader = false then 0 else 2 ^ 50)

/-- Add a dynamic capacity event record to an LD's log, with its interrupt and the `EXTENT` doorbell (R105, R111, R132). -/
def dcEvent (ld : Nat) (ev : DcEvent) (s : State) : State :=
  setDb ld 7 (sendMsix ld (evVector s.hst ld 4)
    { s with flt := { s.flt with lds := tmod {} ld (fun l => { l with dc := l.dc ++ [ev] }) s.flt.lds } })

/-- A range of a sealed extent overlaps an extent of the reader (R152): the offer is withheld. -/
def overlapsOwn (s : State) (t : Nat) (e : ExtRec) : Option Nat :=
  ((extRecs (extView s)).find? fun x => x.tenant == t && decide (x.base < e.base + e.size) && decide (e.base < x.base + x.size)).map (·.id)

/-- A tenant may be offered an extent: its own that it is not leaving, or a sealed one that it may read; one backed by the
Hoard while its code is served (R2). -/
def mayOffer (s : State) (t : Nat) (e : ExtRec) (reader : Bool) : Bool :=
  if e.kind != 3 && !codeServed s e.code then false
  else if reader then e.tenant != t && bit e.readers t && (extSt s e.id).st == 3 && (overlapsOwn s t e).isNone
  else e.tenant == t && (extSt s e.id).st != 0 && (extSt s e.id).st != 6

/-- EXTENT_OFFER to one LD (R105): an Add Capacity record, and the offer stands until it is accepted. -/
def offerLd (ld : Nat) (e : ExtRec) (reader : Bool) (s : State) : State :=
  dcEvent ld { kind := 0, ext := e.id, dpa := offerDpa e reader, len := e.size * gib, tag := offerTag e reader }
    { s with hst := { s.hst with lds := tmod {} ld (fun l =>
      { l with offered := if l.accepted.contains (e.id, reader) then l.offered else addNew (e.id, reader) l.offered }) s.hst.lds } }

/-- Offer an extent on every LD of a tenant that has neither accepted it nor been offered it. -/
def offerTenant (t : Nat) (e : ExtRec) (reader : Bool) (s : State) : State :=
  (ldsOf s t).foldl (fun s ld =>
    let l := ldOf s.hst ld
    if mayOffer s t e reader && !l.accepted.contains (e.id, reader) && !l.offered.contains (e.id, reader) then offerLd ld e reader s
    else s) s

/-- Make the offers of R105 on one LD: all of them again after a reset or a replug, or those not yet made. -/
def offerAll (ld : Nat) (again : Bool) (s : State) : State :=
  match ldTenant s ld with
  | none => s
  | some t =>
    (extRecs (extView s)).foldl (fun s e =>
      [false, true].foldl (fun s rd =>
        let l := ldOf s.hst ld
        if mayOffer s t e rd && (again || (!l.accepted.contains (e.id, rd) && !l.offered.contains (e.id, rd))) then offerLd ld e rd s
        else s) s) s

/-- Make the offers not yet made on every LD that is present. -/
def offersGo (s : State) : State :=
  ((List.range 256).filter fun ld => (ldOf s.hst ld).present).foldl (fun s ld => offerAll ld false s) s

/-- R253 and R2 follow the units that serve: extents whose code is served again are offered. -/
def kmGo (s : State) : State :=
  let below := s.hrd.belowCodes
  let s := kmUpdate s
  if (below.all fun c => s.hrd.belowCodes.contains c) then s else offersGo s

/-- The offers of a sealed extent to its readers here, or that they are withheld (R152). -/
def offerReaders (e : ExtRec) (s : State) : State :=
  (List.range 256).foldl (fun s t =>
    if t = e.tenant ∨ bit e.readers t = false ∨ ldsOf s t = [] then s
    else match overlapsOwn s t e with
      | some y =>
        raise { code := 0x0703, tenant := t, sk := 2, si := e.id, d0 := y } (onExtent e.id (fun x => { x with withheld := true }) s)
      | none => offerTenant t e true (onExtent e.id (fun x => { x with withheld := false }) s)) s

/-- Withheld offers whose overlapping extent is gone are made (R152). -/
def offerWithheld (s : State) : State :=
  ((extRecs (extView s)).filter fun e => (extSt s e.id).withheld && (extSt s e.id).st == 3).foldl (fun s e => offerReaders e s) s

/-! ### Answers to Back-Invalidates (R159) -/

/-- Writes of an LD to a line that came in before a time and are not done. -/
def earlierWrites (s : State) (ld tenant addr : Nat) (t : Ns) : Bool :=
  s.hst.reqs.any fun r => r.isWrite && r.ld == ld && r.origin.isNone && r.tenant == tenant && r.addr / 64 == addr / 64 && decide (r.stamp < t)

/-- The granules of an extent that this unit serves. -/
def ownGranules (s : State) (e : ExtRec) : List Nat := (List.range e.size).filter fun g => serverOf s e g == me s

/-- This unit serves a granule of an extent. -/
def servesExt (s : State) (e : ExtRec) : Bool := decide (me s ∈ e.serving) && !(ownGranules s e).isEmpty

/-- The tiles of the granules of an extent that this unit serves, ascending. -/
def ownTiles (s : State) (e : ExtRec) : List Nat :=
  (ownGranules s e).flatMap fun g => (List.range 32768).map fun i => (e.base + g) * 32768 + i

/-- Every block of a tile can be read: in the tier, or from what this unit has of the Hoard. -/
def tileAtHand (s : State) (e : ExtRec) (g tile : Nat) : Bool :=
  (List.range 8).all fun j => (landedAddr s e g tile j).isSome || (uncachedBlock s e tile j).isSome

/-- The uncompressed bytes of a tile at hand: as it stands in the tier, or as this unit's log, its Dreys and the chunks it has
gathered give it. -/
def tileData (s : State) (e : ExtRec) (g tile : Nat) : List Byte :=
  (List.range 8).flatMap fun j =>
    match landedAddr s e g tile j with
    | some a => (List.range 8).flatMap fun k => tierStrip s.drt a k
    | none =>
      match uncachedBlock s e tile j with
      | some (bmw, masks, strips) =>
        match decodeStrips bmw masks strips (List.range 8) with
        | .ok l => l.flatMap (·.2)
        | .error _ => List.replicate 4096 0
      | none => List.replicate 4096 0

/-- Every tile of an extent that this unit serves is committed to the Hoard. -/
def extCommitted (s : State) (e : ExtRec) : Bool :=
  !(dirtyTiles s).any (fun p => (extAt (extView s) p.1 (p.2 * 32768)).any fun q => q.1.id == e.id)
    && !(s.hrd.stripes.any fun r => r.2.st != 2 && r.2.tiles.any fun t => (extAt (extView s) t.tenant (t.tile * 32768)).any fun q => q.1.id == e.id)

/-- The manifest of this unit's tiles and the granules go to the Hoard, and this unit's part of a seal is done (R150 step 6). -/
def sealStore (r : SealRun) (e : ExtRec) (m : Tbl (BitVec 32)) (s : State) : State :=
  let s := { s with ext := { s.ext with
    manifests := tset r.ext m s.ext.manifests
    seals := s.ext.seals.map fun x => if x.ext = r.ext then { x with done := true } else x } }
  let s := ((dirtyTiles s).filter fun p => (extAt (extView s) p.1 (p.2 * 32768)).any fun q => q.1.id == r.ext).foldl
    (fun s p => commitTile p.1 p.2 s) s
  (List.range ((4 * m.length + 16383) / 16384)).foldl (fun s i =>
    let b := slice (m.flatMap fun p => leBytes 4 p.2.toNat) (16384 * i) 16384
    let q := stripeFor e.code 0 b.length s
    appendStripe q.2 b none q.1) s

/-- Steps 4 to 6 of R150 on this unit: flush, manifest, Hoard. The tiles are summed as they come to hand; those that are not are
filled first. -/
def sealRest (r : SealRun) (s : State) : State :=
  match extRec (extView s) r.ext with
  | none => s
  | some e =>
    let s := flushRange e.tenant (e.base * gib) ((e.base + e.size) * gib) s
    let left := (ownTiles s e).filter fun t => (tfind r.sums (t - e.base * 32768)).isNone
    let sums := r.sums ++ ((left.filter fun t => tileAtHand s e (t / 32768 - e.base) t).map fun t =>
      (t - e.base * 32768, crc32c (tileData s e (t / 32768 - e.base) t)))
    match left.filter fun t => !tileAtHand s e (t / 32768 - e.base) t with
    | [] => sealStore r e ((ownTiles s e).map fun t => (t - e.base * 32768, tget 0 sums (t - e.base * 32768))) s
    | ts => ts.foldl (fun s t => startFill e (t / 32768 - e.base) t s)
      { s with ext := { s.ext with seals := s.ext.seals.map fun x => if x.ext = r.ext then { x with sums := sums } else x } }

/-- A seal whose E holders have all answered goes on (R150 step 3). -/
def sealsGo (s : State) : State :=
  (s.ext.seals.filter fun r => !r.done && !(s.ext.snoops.any fun n => n.cause == .sealing r.ext)).foldl (fun s r => sealRest r s) s

/-- What follows once Back-Invalidate flows may be over (Table 8.4, R150, R315). -/
def afterSnoops (s : State) : State := flushRecords (sealsGo (settleSnoops s))

/-- Take a snoop answer as final (R156), or forward it to the serving unit that asked (R274). -/
def finalRsp (ld tenant addr : Nat) (ans : SnoopAns) (s : State) : State :=
  let s := afterSnoops (snoopAnswer tenant addr (me s, ld) ans s)
  match s.ext.passed.find? fun p => p.ld == ld && p.tenant == tenant && p.addr == addr with
  | none => s
  | some p => respond p.src p.tag tenant (.birsp addr ans) { s with ext := { s.ext with passed := s.ext.passed.filter (· != p) } }

/-- Snoop answers and BIConflicts that no earlier write holds back any more go on (R159, Table 8.5). -/
def rspGo (s : State) : State :=
  let s := (s.ext.heldRsp.filter fun h => !earlierWrites s h.1 h.2.1 h.2.2.1 h.2.2.2.2).foldl (fun s h =>
    finalRsp h.1 h.2.1 h.2.2.1 h.2.2.2.1 { s with ext := { s.ext with heldRsp := s.ext.heldRsp.filter (· != h) } }) s
  (s.ext.conflicts.filter fun c => !earlierWrites s c.1 c.2.1 c.2.2 (now s + 1)).foldl (fun s c =>
    emit (.biConflictAck c.1 c.2.2) { s with ext := { s.ext with conflicts := s.ext.conflicts.filter (· != c) } }) s

/-- HOST_BIRSP (R159): `addr` is the line's tenant address. -/
def execHostBirsp (ld addr : Nat) (ans : SnoopAns) (stamp : Ns) (s : State) : Res :=
  match ldTenant s ld with
  | none => .next s
  | some t =>
    let a := addr / 64 * 64
    if earlierWrites s ld t a stamp then
      .next { s with ext := { s.ext with heldRsp := s.ext.heldRsp ++ [(ld, t, a, ans, stamp)] } }
    else .next (finalRsp ld t a ans s)

/-- BICONFLICT (R159): answered after the crossing write. -/
def execBiConflict (ld addr : Nat) (s : State) : Res :=
  match ldTenant s ld with
  | none => .next s
  | some t => .next (rspGo { s with ext := { s.ext with conflicts := addNew (ld, t, addr / 64 * 64) s.ext.conflicts } })

/-! ### Leases (R161 to R165) -/

/-- The units that bind an LD to a tenant or serve one of its extents (R161). -/
def leaseUnits (s : State) (t : Nat) : List Nat :=
  (List.range (fabN s.vq.active)).filter fun u =>
    ((List.range 256).any fun ld => binding s.vq.active u ld == some t)
      || (extRecs (extView s) ++ extRecs s.vq.active).any fun e => e.tenant == t && decide (u ∈ e.serving)

/-- This unit is the home of a tenant (TENANT record). -/
def isHome (s : State) (t : Nat) : Bool := hasTenant s.vq.active t && tenHome s.vq.active t == me s

/-- A renewal at the home unit (R161, R172): the old lease goes on, or the next one waits for the reclaim to be over. A
unit in DRAINING starts no new lease: it drops the renewal, with an event (R375). -/
def renewAtHome (t : Nat) (stamp : Ns) (s : State) : State :=
  let l := leaseOf s t
  if s.uni.st == .draining && !(l.homeRunning && decide (stamp < l.homeE + leaseGuard s.vq.active t)) then
    raiseGen 7 1 { code := 0, tenant := t } s
  else if l.reclaiming || (l.homeRunning && decide (l.homeE + leaseGuard s.vq.active t ≤ stamp)) then
    onLease t (fun l => { l with late := l.late ++ [stamp] }) s
  else
    onLease t (fun l => { l with
      homeE := max (if l.homeRunning then l.homeE else 0) (stamp + leaseExpiryNs s.vq.active t)
      homeRunning := true
      window := some (l.window.getD (now s + msNs)) }) s

/-- A renewal on any unit (R110, R161): to the home unit, or at once when this is it. -/
def renew (t : Nat) (stamp : Ns) (s : State) : State :=
  if !hasTenant s.vq.active t then s
  else if isHome s t then renewAtHome t stamp s
  else sendMsg (tenHome s.vq.active t) s.wrn.nextTag t (.lease 0 stamp 0 0)
    { s with wrn := { s.wrn with nextTag := (s.wrn.nextTag + 1) % 2 ^ 32 } }

/-- A unit takes a granted E as its local expiry, unchanged (R161); a reclaim it owes still stands (R172). -/
def takeGrant (t : Nat) (e : Ns) (s : State) : State :=
  let st := if now s + leaseGuard s.vq.active t < e then 1 else if now s < e then 2 else 3
  let bell := decide (2 ≤ st) && (leaseOf s t).st != st
  let s := onLease t (fun l => { l with expiry := e, granted := true, st := st }) s
  if bell then setDbTenant t 6 s else s

/-- Home duties of a tenant start (R164): E is a given time plus 600 s. -/
def homeInit (t : Nat) (at_ : Ns) (s : State) : State :=
  onLease t (fun l => { l with homeE := at_ + 600 * secNs, homeRunning := true, window := some at_, reclaiming := false,
                               awaiting := [], orphans := [], abandoned := [] }) s

/-- LEASE_RENEW (R161). -/
def execLeaseRenew (src tenant : Nat) (stamp : Ns) (s : State) : Res :=
  let s := hear src s
  if !srcOk s src || !isHome s tenant then .next (dropFrom src 5 0x10 s)
  else if !unitServesOrHeld s then .next (dropQuiet src s)
  else .next (renewAtHome tenant stamp s)

/-- LEASE_GRANT_DUE (R161): at the end of the merging window the new E goes to every unit concerned. -/
def execLeaseGrantDue (tenant : Nat) (s : State) : Res :=
  let l := leaseOf s tenant
  match l.window with
  | none => .next s
  | some w =>
    if now s < w ∨ isHome s tenant = false then .next s
    else
      let us := leaseUnits s tenant
      let s := sendAll us tenant (.lease 1 l.homeE 0 0) (onLease tenant (fun l => { l with window := none }) s)
      .next (if us.contains (me s) then takeGrant tenant l.homeE s else s)

/-- LEASE_GRANT (R161): only from the tenant's home unit. -/
def execLeaseGrant (src tenant : Nat) (expiry : Ns) (s : State) : Res :=
  let s := hear src s
  if !srcOk s src || !hasTenant s.vq.active tenant || tenHome s.vq.active tenant != src then .next (dropFrom src 5 0x10 s)
  else if unitServesOrHeld s || s.uni.st == .starting then .next (takeGrant tenant expiry s)
  else .next (dropQuiet src s)

/-- LEASE_GUARD_REACHED (R162): at E − g. -/
def execLeaseGuardReached (tenant : Nat) (s : State) : Res :=
  let l := leaseOf s tenant
  if l.granted && l.st == 1 && decide (leaseGuardAt s tenant ≤ now s) then
    .next (setDbTenant tenant 6 (onLease tenant (fun l => { l with st := 2 }) s))
  else .next s

/-- LEASE_EXPIRY (R163): at E. -/
def execLeaseExpiry (tenant : Nat) (s : State) : Res :=
  let l := leaseOf s tenant
  if l.granted && l.st != 3 && decide (l.expiry ≤ now s) then
    .next (setDbTenant tenant 6 (onLease tenant (fun l => { l with st := 3 }) s))
  else .next s

/-! ### Release of an extent (R106, R171) -/

/-- Take an extent from an LD: kind 1 asks for its release, kind 2 tells of a forced removal. -/
def dropFromLd (ld x : Nat) (s : State) : State :=
  { s with hst := { s.hst with lds := tmod {} ld (fun l =>
    { l with accepted := l.accepted.filter (·.1 != x), offered := l.offered.filter (·.1 != x),
             releasing := l.releasing.filter (·.1 != x) }) s.hst.lds } }

/-- Some LD here still holds an extent. -/
def heldByLd (s : State) (x : Nat) : Bool := s.hst.lds.any fun p => p.2.accepted.any (·.1 == x)

/-- Drop what this unit keeps of an extent that leaves for good: staging, cache, pools, directory, filter. -/
def forgetExtent (e : ExtRec) (s : State) : State :=
  let mine (t tile : Nat) : Bool := t == e.tenant && decide (e.base * 32768 ≤ tile) && decide (tile < (e.base + e.size) * 32768)
  let dead := ((s.hrd.dir.filter fun d => mine d.tenant d.tile).map (·.stripe)).eraseDups
  let h : Hrd := { s.hrd with
    dir := s.hrd.dir.filter fun d => !mine d.tenant d.tile
    firstWrite := s.hrd.firstWrite.filter fun w => !mine w.1 w.2.1
    unreadable := s.hrd.unreadable.filter fun w => !mine w.1 w.2 }
  let d : Drt := { s.drt with
    ways := s.drt.ways.map fun p =>
      (p.1, if p.2.valid && mine (p.2.key / 2 ^ 35) (p.2.key % 2 ^ 35) then { p.2 with valid := false, dirty := false, pinned := false } else p.2)
    pinned := s.drt.pinned.filter fun p => p.2.1 != e.id
    volatile := s.drt.volatile.filter fun p => p.2.1 != e.id
    dirtyPinned := s.drt.dirtyPinned.filter fun w => !mine w.1 w.2
    unfilled := s.drt.unfilled.filter fun w => !mine w.1 w.2
    landedPinned := s.drt.landedPinned.filter fun w => !mine w.1 w.2.1 }
  let x : Ext := { s.ext with
    sf := s.ext.sf.filter fun f => f.ext != e.id
    manifests := tdel e.id s.ext.manifests
    owedPoison := s.ext.owedPoison.filter fun w => !mine w.1 (w.2 / 512) }
  dead.foldl (fun s i => releaseIfDead i s)
    { s with hrd := h, drt := d, ext := x
             cdc := { s.cdc with stg := s.cdc.stg.filter fun y => !mine y.tenant (y.block / 8) } }

/-- The contents of an extent pass to a new owner as they stand (R171): what this unit keeps under the old tenant's tiles
is kept under the new one's, at the same place in the extent. -/
def rekeyExtent (old new : ExtRec) (s : State) : State :=
  let mine (t tile : Nat) : Bool := t == old.tenant && decide (old.base * 32768 ≤ tile) && decide (tile < (old.base + old.size) * 32768)
  let dst (tile : Nat) : Nat := tile - old.base * 32768 + new.base * 32768
  let s := flushRange old.tenant (old.base * gib) ((old.base + old.size) * gib) s
  let moved := (s.drt.ways.filter fun p => p.2.valid && mine (p.2.key / 2 ^ 35) (p.2.key % 2 ^ 35))
  let s := moved.foldl (fun s p => if p.2.dirty then commitTile old.tenant (p.2.key % 2 ^ 35) s else s) s
  let ent (d : DirEntry) : DirEntry := if mine d.tenant d.tile then { d with tenant := new.tenant, tile := dst d.tile } else d
  let packed (t : Packed) : Packed := if mine t.tenant t.tile then { t with tenant := new.tenant, tile := dst t.tile } else t
  let h : Hrd := { s.hrd with
    dir := s.hrd.dir.map ent
    stripes := s.hrd.stripes.map fun p => (p.1, { p.2 with tiles := p.2.tiles.map packed })
    firstWrite := s.hrd.firstWrite.map fun w => if mine w.1 w.2.1 then (new.tenant, dst w.2.1, w.2.2) else w
    unreadable := s.hrd.unreadable.map fun w => if mine w.1 w.2 then (new.tenant, dst w.2) else w }
  let d : Drt := { s.drt with
    ways := s.drt.ways.map fun p =>
      (p.1, if p.2.valid && mine (p.2.key / 2 ^ 35) (p.2.key % 2 ^ 35) then { p.2 with valid := false, dirty := false } else p.2)
    dirtyPinned := s.drt.dirtyPinned.map fun w => if mine w.1 w.2 then (new.tenant, dst w.2) else w
    unfilled := s.drt.unfilled.map fun w => if mine w.1 w.2 then (new.tenant, dst w.2) else w
    landedPinned := s.drt.landedPinned.map fun w => if mine w.1 w.2.1 then (new.tenant, dst w.2.1, w.2.2) else w }
  { s with hrd := h, drt := d
           cdc := { s.cdc with stg := s.cdc.stg.filter fun y => !mine y.tenant (y.block / 8) } }

/-- A tile of an extent has been written to while its fill goes on. -/
def halfFilled (s : State) (e : ExtRec) : Bool :=
  s.drt.ways.any fun p => p.2.valid && p.2.dirty && p.2.filling && p.2.key / 2 ^ 35 == e.tenant
    && decide (e.base * 32768 ≤ p.2.key % 2 ^ 35) && decide (p.2.key % 2 ^ 35 < (e.base + e.size) * 32768)

/-- Once no LD here holds a RELEASING extent, it leaves its owner (R106, R171): the records that wait for its ring are
discarded (R315), and it is gone, or ACTIVE under the new owner and offered. -/
def releaseDone (x : Nat) (s : State) : State :=
  if (extSt s x).st ≠ 6 ∨ heldByLd s x = true ∨ (extRec (extView s) x).any (halfFilled s) = true then s
  else
    let old := extRec (extView s) x
    let rs := ringsOn s x
    let s := { s with ext := { s.ext with leaving := s.ext.leaving.filter fun r => !((r.typ == 0x0F || r.typ == 0x10) && r.inst == x) } }
    let s := rs.foldl (fun s n => ringStop n 5 s) s
    let s := (s.opq.rings.filter fun p => !p.2.held.isEmpty).foldl (fun s p =>
      if (ownState s p.2.tenant p.2.cqBase).isSome then s
      else discardRecords p.1 p.2.held.length (onRing p.1 (fun r => { r with held := [] }) s)) s
    match old, extRec (extView s) x with
    | some o, some n =>
      let s := if o.tenant = n.tenant ∧ o.base = n.base then s else rekeyExtent o n s
      let s := moveExtent x 1 (onExtent x (fun y => { y with tenant := n.tenant }) s)
      offerWithheld (offerTenant n.tenant n false s)
    | some o, none => offerWithheld (onExtent x (fun _ => {}) (forgetExtent o s))
    | none, _ => onExtent x (fun _ => {}) s

/-- Ask every LD here that accepted an extent to release it (R106), within 60 s. -/
def askRelease (e : ExtRec) (s : State) : State :=
  (List.range 256).foldl (fun s ld =>
    let l := ldOf s.hst ld
    match l.accepted.find? (·.1 == e.id) with
    | none => { s with hst := if l.offered.any (·.1 == e.id) then
        { s.hst with lds := tmod {} ld (fun l => { l with offered := l.offered.filter (·.1 != e.id) }) s.hst.lds } else s.hst }
    | some a =>
      dcEvent ld { kind := 1, ext := e.id, dpa := offerDpa e a.2, len := e.size * gib, tag := offerTag e a.2 }
        { s with hst := { s.hst with lds := tmod {} ld (fun l =>
          { l with releasing := l.releasing ++ [(e.id, a.2, now s + 60 * secNs)] }) s.hst.lds } }) s

/-- A forced removal of an extent from an LD (R106). -/
def forceRemove (ld x : Nat) (s : State) : State :=
  match (ldOf s.hst ld).accepted.find? (·.1 == x), extRec (extView s) x with
  | some a, some e =>
    raise { code := 0x0505, tenant := (ldTenant s ld).getD 0, sk := 1, si := ld, d0 := x }
      (dcEvent ld { kind := 2, ext := x, dpa := offerDpa e a.2, len := e.size * gib, tag := offerTag e a.2 } (dropFromLd ld x s))
  | _, _ => dropFromLd ld x s

/-! ### Reclaim (R166 to R172) -/

/-- Poison an orphaned line: now, or once its tile stands in DRAM. -/
def poisonLine (e : ExtRec) (addr : Nat) (s : State) : State :=
  let g := addr / gib - e.base
  if (landedAddr s e g (addr / 32768) (addr / 4096 % 8)).isSome then
    stageWrite e.tenant (addr / 64) 0x20 0 [] true (fillForAgent e g 0x20 31 (addr / 4096) (addr / 512 % 8) s)
  else startFill e g (addr / 32768) { s with ext := { s.ext with owedPoison := addNew (e.tenant, addr / 64) s.ext.owedPoison } }

/-- The Orphan Log's size as a ring (R168, R169). -/
def ologSize : Nat := 2 ^ 21

/-- Write an Orphan Log entry (Table 8.7), or count the line that the full log cannot take (R169). -/
def logOrphan (f : SfEntry) (s : State) : State :=
  if (s.ext.head + 1) % ologSize = s.ext.tail then
    onExtent f.ext (fun x => { x with overflow := true }) { s with ext := { s.ext with lost := s.ext.lost + 1 } }
  else
    let h := f.holders.headD (0, 0)
    { s with ext := { s.ext with
      olog := tset s.ext.head { addr := f.addr, ext := f.ext, tenant := f.tenant, ld := h.2, unit := h.1,
                                acquired := f.created, reclaimed := now s } s.ext.olog
      head := (s.ext.head + 1) % ologSize } }

/-- The filter entries of an extent, by ascending tenant address. -/
def sfSorted (l : List SfEntry) : List SfEntry :=
  l.foldl (fun r e => r.takeWhile (fun x => decide (x.addr < e.addr)) ++ e :: r.dropWhile (fun x => decide (x.addr < e.addr))) []

/-- ORPHAN_POISONING (R166, Table 8.6): the E lines of a PRIVATE-COHERENT extent are poisoned, logged and freed, its S
entries dropped. -/
def orphanExtent (e : ExtRec) (s : State) : State :=
  let es := sfSorted (s.ext.sf.filter fun f => f.ext == e.id && f.excl)
  let s := es.foldl (fun s f => logOrphan f (poisonLine e f.addr s)) s
  let mine (t a : Nat) : Bool := t == e.tenant && decide (e.base * gib ≤ a) && decide (a < (e.base + e.size) * gib)
  onExtent e.id (fun x => { x with orphans := sat 24 (x.orphans + es.length) })
    { s with ext := { s.ext with
      sf := s.ext.sf.filter fun f => f.ext != e.id
      snoops := s.ext.snoops.filter fun n => !mine n.tenant n.addr } }

/-- Orphaned lines of an extent that this unit has just found: its E entries. -/
def orphanCount (s : State) (e : ExtRec) : Nat := (s.ext.sf.filter fun f => f.ext == e.id && f.excl).length

/-- A seal in progress is abandoned (Table 8.6). -/
def abandonSeal (x : Nat) (s : State) : State :=
  match s.ext.seals.find? (·.ext == x) with
  | none => s
  | some r =>
    let s := { s with ext := { s.ext with
      seals := s.ext.seals.filter (·.ext != x)
      snoops := s.ext.snoops.filter fun n => n.cause != .sealing x
      manifests := tdel x s.ext.manifests } }
    match findOp s.opq r.ringUnit r.ring r.sqIndex with
    | some o => retireOp o { status := 0, flags11 := o.flags11 ||| 1, flags14 := o.flags14, r1 := r.point } s
    | none => s

/-- Writes of a tenant accepted here that are not yet applied. -/
def pendingWrites (s : State) (t : Nat) : Bool :=
  s.hst.reqs.any fun r => r.isWrite && r.tenant == t && (r.wait == 0 || r.wait == 2 || r.wait == 4)

/-- The end of this unit's part of a reclaim: it tells the home unit its orphans and abandoned seals of each extent. -/
def reportReclaim (t : Nat) (counts : List (Nat × Nat × Bool)) (s : State) : State :=
  if isHome s t then
    onLease t (fun l => { l with
      awaiting := l.awaiting.filter (· != me s)
      orphans := counts.foldl (fun o c => tinc c.1 c.2.1 o) l.orphans
      abandoned := (counts.filter (·.2.2)).foldl (fun a c => addNew c.1 a) l.abandoned }) s
  else
    (if counts.isEmpty then [(0xFFFF, 0, false)] else counts).foldl (fun s c =>
      sendMsg (tenHome s.vq.active t) s.wrn.nextTag t (.lease 3 (leaseOf s t).reclaimAt c.1 c.2.1)
        { s with wrn := { s.wrn with nextTag := (s.wrn.nextTag + 1) % 2 ^ 32 } }) s

/-- Steps 2 to 4 of R166 on this unit. -/
def carryOut (t : Nat) (s : State) : State :=
  let s := abortOps (fun o => o.tenant == t && (descOp o.desc != 0x21 || o.gate == 0)) 2 s
  let s := { s with drt := { s.drt with ways := s.drt.ways.map fun p =>
    (p.1, if p.2.key / 2 ^ 35 = t then { p.2 with pinned := false } else p.2) } }
  let es := (extRecs (extView s)).filter fun e => e.tenant == t && servesExt s e
  let r := es.foldl (fun (p : State × List (Nat × Nat × Bool)) e =>
    let st := (extSt p.1 e.id).st
    if st = 1 ∨ st = 2 then
      let n := if e.kind = 1 then orphanCount p.1 e else 0
      let ab := p.1.ext.seals.any (·.ext == e.id)
      let s := abandonSeal e.id p.1
      (if e.kind = 1 then orphanExtent e s else s, p.2 ++ [(e.id, n, ab)])
    else if st = 6 then
      (releaseDone e.id ((List.range 256).foldl (fun s ld => if (ldOf s.hst ld).accepted.any (·.1 == e.id) then forceRemove ld e.id s else s) p.1), p.2)
    else p) (s, [])
  reportReclaim t r.2 (onLease t (fun l => { l with owed := false, granted := false, st := 3 }) (afterSnoops r.1))

/-- A reclaim that this unit has heard of is carried out once its accepted writes are complete (R166 step 1). -/
def reclaimTry (t : Nat) (s : State) : State :=
  if (leaseOf s t).owed && !pendingWrites s t then carryOut t s else s

/-- Reclaims that waited for writes go on. -/
def reclaimsGo (s : State) : State := (s.ext.leases.filter (·.2.owed)).foldl (fun s p => reclaimTry p.1 s) s

/-- The state that a reclaim leaves an extent in (Table 8.6), given the orphans of the whole fabric: with its event, its
doorbells and its rings. -/
def reclaimState (x total : Nat) (abandoned : Bool) (s : State) : State :=
  match extRec (extView s) x with
  | none => s
  | some e =>
    let y := extSt s x
    let quar (unknown : Bool) (s : State) : State :=
      raise { code := 0x0702, tenant := e.tenant, sk := 2, si := x, addr := e.base * gib, d0 := y.orphans, d1 := total + b2n unknown * 2 ^ 63 }
        (moveExtent x 4 (onExtent x (fun z => { z with unknown := unknown }) s))
    let s := if y.st = 2 then { s with ext := { s.ext with seals := s.ext.seals.filter (·.ext != x) } } else s
    if e.kind = 1 ∧ (y.st = 1 ∨ y.st = 2) then
      if total ≠ 0 ∨ abandoned then quar false s else moveExtent x 1 s
    else if e.kind ≠ 1 ∧ (y.st = 1 ∨ y.st = 2) then quar true s
    else s

/-- Once every reachable unit has reported, the home unit sends the resulting extent states, and the renewals that start
the next lease are taken (R166, R172). -/
def concludeReclaim (t : Nat) (s : State) : State :=
  let l := leaseOf s t
  if !l.reclaiming || !l.awaiting.isEmpty then s
  else
    let s := ((extRecs (extView s)).filter fun e => e.tenant == t).foldl (fun s e =>
      let n := tget 0 l.orphans e.id
      let ab := l.abandoned.contains e.id
      let s := sendAll (leaseUnits s t) t (.lease 3 l.reclaimAt e.id (if ab && n = 0 then 1 else n)) s
      reclaimState e.id n ab s) s
    let s := onLease t (fun l => { l with reclaiming := false, homeRunning := false, orphans := [], abandoned := [], late := [] }) s
    l.late.foldl (fun s stamp => renewAtHome t stamp s) s

/-- What goes on once blocks have landed: waiting requests, snoop answers, reclaims, tiles to be packed again, seals, records. -/
def wake (s : State) : State :=
  let s := reclaimsGo (rspGo (settle s))
  let s := (s.ext.exts.filter fun p => p.2.st == 6).foldl (fun s p => releaseDone p.1 s) s
  flushRecords (sealsGo (s.hrd.repack.foldl (fun s p => repackTile p.1 p.2 s) s))

/-- LEASE_RECLAIM_TIMER (R163, R166): at E + g the home unit sends the reclaim to every unit it can reach, and carries out
its own part. -/
def execLeaseReclaimTimer (tenant : Nat) (s : State) : Res :=
  let l := leaseOf s tenant
  let due := l.homeE + leaseGuard s.vq.active tenant
  if !isHome s tenant || !l.homeRunning || l.reclaiming || decide (now s < due) then .next s
  else
    let us := leaseUnits s tenant
    let far := us.filter fun u => u != me s && unreachable s u
    let near := us.filter fun u => u == me s || !unreachable s u
    let s := onLease tenant (fun l => { l with
      reclaiming := true, awaiting := near, undelivered := far, reclaimAt := due, orphans := [], abandoned := [], window := none
      owed := near.contains (me s) }) s
    let s := sendAll near tenant (.lease 2 due 0 0) s
    .next (concludeReclaim tenant (reclaimTry tenant s))

/-- LEASE_RECLAIM (R165, R166). -/
def execLeaseReclaim (src tenant : Nat) (t : Ns) (s : State) : Res :=
  let s := hear src s
  if !srcOk s src || !hasTenant s.vq.active tenant || tenHome s.vq.active tenant != src then .next (dropFrom src 5 0x10 s)
  else if unitServesOrHeld s || s.uni.st == .starting then
    .next (reclaimTry tenant (onLease tenant (fun l => { l with owed := true, reclaimAt := t }) s))
  else .next (dropQuiet src s)

/-- LEASE_REPORT (R166): at the home unit, one extent's orphans of a unit; at another unit, the home's outcome for an
extent, as its fabric-wide orphan count. -/
def execLeaseReport (src tenant ext orphans : Nat) (last sealAbandoned : Bool) (s : State) : Res :=
  let s := hear src s
  if !srcOk s src || !hasTenant s.vq.active tenant then .next (dropFrom src 5 0x10 s)
  else if !unitServesOrHeld s then .next (dropQuiet src s)
  else if isHome s tenant then
    if !(leaseOf s tenant).reclaiming || !(leaseOf s tenant).awaiting.contains src then .next s
    else
      .next (concludeReclaim tenant (onLease tenant (fun l => { l with
        orphans := tinc ext orphans l.orphans
        abandoned := if sealAbandoned then addNew ext l.abandoned else l.abandoned
        awaiting := if last then l.awaiting.filter (· != src) else l.awaiting }) s))
  else if tenHome s.vq.active tenant = src then .next (reclaimState ext orphans sealAbandoned s)
  else .next (dropFrom src 5 0x10 s)

/-- A unit that a reclaim had not reached receives it before anything else (R165, R283). -/
def deliverReclaims (u : Nat) (s : State) : State :=
  (s.ext.leases.filter fun p => p.2.undelivered.contains u).foldl (fun s p =>
    sendMsg u s.wrn.nextTag p.1 (.lease 2 p.2.reclaimAt 0 0)
      (onLease p.1 (fun l => { l with undelivered := l.undelivered.filter (· != u) })
        { s with wrn := { s.wrn with nextTag := (s.wrn.nextTag + 1) % 2 ^ 32 } })) s

/-- A lost filter row whose mirror copy is lost too (R158): every PRIVATE-COHERENT extent served here is QUARANTINED. -/
def filterLost (s : State) : State :=
  ((extRecs (extView s)).filter fun e => e.kind == 1 && servesExt s e).foldl (fun s e =>
    raise { code := 0x0702, tenant := e.tenant, sk := 2, si := e.id, addr := e.base * gib, d0 := (extSt s e.id).orphans, d1 := 2 ^ 63 }
      (moveExtent e.id 4 (onExtent e.id (fun z => { z with unknown := true })
        { s with ext := { s.ext with sf := s.ext.sf.filter fun f => f.ext != e.id } }))) s

/-! ### The Orphan Log's tail and the administrator's actions (R169, R170) -/

/-- EXT_OLOG_TAIL_WRITE (R169). -/
def execExtOlogTailWrite (val : Word) (s : State) : Res :=
  let v := val.toNat % ologSize
  let n := (s.ext.head + ologSize - s.ext.tail) % ologSize
  let k := (v + ologSize - s.ext.tail) % ologSize
  if n < k then .next (writeIgnored 0x07000020 none val.toNat s)
  else .next { s with ext := { s.ext with
    tail := v
    olog := s.ext.olog.filter fun p => decide (k ≤ (p.1 + ologSize - s.ext.tail) % ologSize) } }

/-- Tell every other serving unit of an extent its new state (R146; log entry 12). -/
def tellExtent (x : Nat) (s : State) : State :=
  match extRec (extView s) x with
  | none => s
  | some e => sendAll (leaseUnits s e.tenant) e.tenant (.extState x (extSt s x).st (extSt s x).unknown) s

/-- Submit an `EXT_CMD` action (R170): its status, or what it does. -/
def extCmd (x action : Nat) (f : ExtRec → State → State) (allowed : List Nat) (s : State) : State :=
  let s := { s with ext := { s.ext with cmdExt := x, cmdAction := action } }
  if s.ext.busy then { s with ext := { s.ext with status := 3 } }
  else match extRec (extView s) x with
    | none => { s with ext := { s.ext with status := 1 } }
    | some e =>
      if !allowed.contains (extSt s x).st then { s with ext := { s.ext with status := 2 } }
      else f e { s with ext := { s.ext with status := 0 } }

/-- RELEASE (R170, Table 8.8). -/
def releaseAct (x : Nat) (s : State) : State :=
  extCmd x 1 (fun _ s => tellExtent x (moveExtent x 1 (onExtent x (fun y => { y with unknown := false }) s))) [4] s
def execRelease (ext : Nat) (s : State) : Res := .next (releaseAct ext s)

/-- Zero what this unit holds of an extent (Table 8.8): every strip code of its blocks in the tier, its copies in the
Hoard, and its poison. -/
def zeroExtent (e : ExtRec) (s : State) : State :=
  let keep := ((s.drt.pinned.filter fun p => p.2.1 == e.id).map fun p => (p.1, true))
    ++ ((s.drt.volatile.filter fun p => p.2.1 == e.id).map fun p => (p.1, false))
  let inPool (a : Nat) : Bool := keep.any fun p =>
    let b := (if p.2 then p.1 else partPinned (poolImage s) (me s) + p.1) * gib
    decide (b ≤ a) && decide (a < b + gib)
  let pins := s.drt.pinned.filter fun p => p.2.1 == e.id
  let vols := s.drt.volatile.filter fun p => p.2.1 == e.id
  let s := forgetExtent e s
  { s with drt := { s.drt with
      blocks := s.drt.blocks.filter fun p => !inPool (p.1 * 4096)
      tier := s.drt.tier.filter fun p => !inPool p.1
      pinned := pins.foldl (fun t p => tset p.1 p.2 t) s.drt.pinned
      volatile := vols.foldl (fun t p => tset p.1 p.2 t) s.drt.volatile } }

/-- SCRUB (R170, Table 8.8): holders are snooped out, and every line reads zero from its end on. -/
def scrubAct (x : Nat) (s : State) : State :=
  extCmd x 2 (fun e s =>
    let s := (s.ext.sf.filter fun f => f.ext == x).foldl (fun s f => startSnoop f.tenant f.addr false (snoopTargets s f) .move s) s
    tellExtent x (zeroExtent e (moveExtent x 5 { s with ext := { s.ext with busy := true } }))) [4, 1] s
def execScrub (ext : Nat) (s : State) : Res := .next (scrubAct ext s)

/-- SCRUB_COMPLETE (R170): ACTIVE again, with nothing of what was there. -/
def execScrubComplete (ext : Nat) (s : State) : Res :=
  if (extSt s ext).st ≠ 5 then .next s
  else
    match extRec (extView s) ext with
    | none => .next s
    | some e =>
      .next (tellExtent ext (moveExtent ext 1 (onExtent ext (fun y => { y with unknown := false })
        (zeroExtent e { s with ext := { s.ext with busy := if s.ext.cmdExt = ext then false else s.ext.busy } }))))

end Sys2Proof.Machine
end

