-- ==== Sys2Proof/Machine/OpCheck.lean ====
section
/-! DEFINITION. What a descriptor asks for and whether it may run (chapter 14): the bodies of Table 14.4, the checks of Table
14.5 (R325), the automatic executing unit (Table 14.6), and the products and output blocks of a compute operator (R330 to
R335). -/

namespace Sys2Proof.Machine

/-! ### The compute word (R316) -/

def cwA (d : List Byte) : Nat := bits (fld d 16 8) 3 0
def cwB (d : List Byte) : Nat := bits (fld d 16 8) 7 4
def cwOut (d : List Byte) : Nat := bits (fld d 16 8) 10 8
def cwMode (d : List Byte) : Nat := bits (fld d 16 8) 12 11
def cwSeed (d : List Byte) : Nat := bits (fld d 16 8) 14 13
def cwScale (d : List Byte) : Int := untwos 8 (bits (fld d 16 8) 23 16)

/-- The word's zero bits, its output code and its seed code. -/
def cwFieldOk (d : List Byte) : Bool :=
  bits (fld d 16 8) 15 15 == 0 && bits (fld d 16 8) 63 24 == 0 && decide (cwOut d ≤ 4) && decide (cwSeed d ≤ 2)

/-- The format pairs of R288. -/
def pairOk (a b : Nat) : Bool :=
  (a == b && (a == 1 || a == 2 || a == 6)) || ((a == 4 || a == 5) && (b == 4 || b == 5))

/-! ### Fields (Table 14.4) -/

/-- The opcodes of Table 14.4. -/
def opKnown (op : Nat) : Bool :=
  (decide (1 ≤ op) && decide (op ≤ 7)) || isCompute op || op == 0x20 || op == 0x21 || op == 0x30 || op == 0x7F

/-- The body bytes an operator uses: offset and length. -/
def bodyUsed (d : List Byte) : List (Nat × Nat) :=
  match descOp d with
  | 0x01 => [(16, 24)]
  | 0x02 | 0x03 | 0x04 => [(16, 16)]
  | 0x05 => [(16, 17)]
  | 0x06 => [(16, 32)]
  | 0x07 => [(16, 33)]
  | 0x10 => [(16, 56)]
  | 0x11 => if fld d 24 1 = 1 then [(16, 9), (28, 20)] else [(16, 9), (28, 52)]
  | 0x12 => [(16, 96)]
  | 0x13 => [(16, 9), (28, 44)]
  | 0x14 => [(16, 32)]
  | 0x20 => [(16, 17)]
  | 0x21 => [(16, 2)]
  | 0x30 => [(16, 32)]
  | _ => [(16, 4), (24, 4)]

/-- Every byte that a descriptor does not use is zero (R316). -/
def zeroOk (d : List Byte) : Bool :=
  decide (fld d 1 1 < 4) && (List.range 128).all fun i =>
    decide (i < 12) || (bodyUsed d).any (fun p => decide (p.1 ≤ i) && decide (i < p.1 + p.2)) || d.getD i 0 == 0

/-- A count from 1 to 2^24. -/
def dim (v : Nat) : Bool := decide (1 ≤ v) && decide (v ≤ 2 ^ 24)

/-- Counts and sizes of an operator (Table 14.4). -/
def countsOk (d : List Byte) : Bool :=
  match descOp d with
  | 0x05 => decide (fld d 32 1 ≤ 1)
  | 0x07 => decide (1 ≤ fld d 48 1) && decide (fld d 48 1 ≤ 2)
  | 0x10 => cwFieldOk d && dim (fld d 24 4) && dim (fld d 28 4) && dim (fld d 32 4) && (cwSeed d != 0 || fld d 64 8 == 0)
  | 0x11 => cwFieldOk d && cwSeed d == 0 && decide (fld d 24 1 ≤ 1) && dim (fld d 28 4) && dim (fld d 32 4)
      && decide (1 ≤ fld d 36 4) && decide (fld d 36 4 ≤ 4096)
  | 0x12 => decide (1 ≤ fld d 17 1) && decide (fld d 17 1 ≤ 2) && decide (fld d 17 1 ≤ fld d 18 2) && decide (fld d 18 2 ≤ 1024)
      && dim (fld d 20 4)
  | 0x13 => cwFieldOk d && cwSeed d == 0 && decide (fld d 24 1 ≤ 1) && decide (1 ≤ fld d 28 4) && decide (fld d 28 4 ≤ 1024)
      && dim (fld d 32 4) && dim (fld d 36 4)
  | 0x14 => cwFieldOk d && cwA d == 0 && cwB d == 0 && cwSeed d == 0 && decide (2 ≤ fld d 24 4) && decide (fld d 24 4 ≤ 64)
  | 0x20 => decide (fld d 32 1 ≤ 1) && (fld d 32 1 == 0 || fld d 18 6 == 0)
  | _ => true

/-- Step 4 of Table 14.5. -/
def formatOk (d : List Byte) : Bool :=
  match descOp d with
  | 0x10 => pairOk (cwA d) (cwB d) && !(cwSeed d == 2 && decide (3 ≤ cwOut d))
  | 0x11 => pairOk (cwA d) (cwB d)
  | 0x12 => decide (1 ≤ fld d 16 1) && decide (fld d 16 1 ≤ 3)
  | 0x13 => pairOk (cwA d) (cwB d) && decide (cwB d ≤ 2)
  | _ => true

/-- The addresses that Table 14.4 aligns, each with its alignment. -/
def aligned (d : List Byte) : List (Nat × Nat) :=
  match descOp d with
  | 0x01 => [(fld d 16 8, 64), (fld d 24 8, 64), (fld d 32 8, 64)]
  | 0x02 | 0x03 | 0x04 | 0x05 => [(fld d 16 8, 32768), (fld d 24 8, 32768)]
  | 0x06 | 0x07 => [(fld d 16 8, 32768), (fld d 24 8, 32768), (fld d 32 8, 32768), (fld d 44 4, 256)]
  | 0x10 => [(fld d 40 8, 32768), (fld d 48 8, 32768), (fld d 56 8, 32768), (fld d 64 8, 32768)]
  | 0x11 => [(fld d 40 8, 32768)] ++ (if fld d 24 1 = 1 then [] else
      [(fld d 48 8, 32768), (fld d 56 8, 32768), (fld d 64 8, 32768), (fld d 72 8, 32768)])
  | 0x12 => [(fld d 24 8, 32768), (fld d 32 8, 32768), (fld d 40 8, 32768), (fld d 48 8, 32768), (fld d 56 8, 32768), (fld d 64 8, 32768),
      (fld d 80 8, 32768), (fld d 96 8, 32768)]
  | 0x13 => [(fld d 40 8, 32768), (fld d 48 8, 32768), (fld d 56 8, 32768), (fld d 64 8, 32768)]
  | 0x14 => [(fld d 32 8, 32768), (fld d 40 8, 32768)]
  | 0x20 => if fld d 32 1 = 1 then [] else [(fld d 24 8, 64)]
  | 0x30 => [(fld d 16 8, 32768), (fld d 24 8, 32768), (fld d 40 8, 32)]
  | _ => []

/-- Steps 1 to 4 of Table 14.5 (R325): what depends on the descriptor, the image and the tenant alone. -/
def staticRefusal (s : State) (tenant : Nat) (d : List Byte) : Option Nat :=
  if !opKnown (descOp d) then some 1
  else if !zeroOk d || !countsOk d || decide (3600000 < descLimit d) then some 2
  else if (descOp d == 0x21 && !tenSeal s.vq.active tenant) || (descOp d == 0x30 && !tenExportOk s.vq.active tenant) then some 3
  else if !formatOk d then some 4 else none

/-! ### The executing unit (Table 14.6, R321) -/

/-- The serving unit of a tenant address; this unit where the tenant has no extent there. -/
def servingAt (s : State) (tenant addr : Nat) : Nat :=
  match extFor s tenant addr with
  | some (e, g, _) => serverOf s e g
  | none => me s

/-- The automatic executing unit of a descriptor. -/
def autoUnit (s : State) (tenant : Nat) (d : List Byte) : Nat :=
  let ofExt (x : Nat) : Nat := ((extRec (extView s) x).map fun e => serverOf s e 0).getD (me s)
  match descOp d with
  | 0x01 | 0x06 | 0x07 => servingAt s tenant (fld d 24 8)
  | 0x02 | 0x03 | 0x04 | 0x05 | 0x30 => servingAt s tenant (fld d 16 8)
  | 0x10 => servingAt s tenant (fld d 56 8)
  | 0x11 => servingAt s tenant (if fld d 24 1 = 1 then fld d 40 8 else fld d 72 8)
  | 0x12 => servingAt s tenant (fld d 24 8)
  | 0x13 | 0x14 => servingAt s tenant (fld d 40 8)
  | 0x20 => if fld d 32 1 = 1 then ofExt (fld d 16 2) else servingAt s tenant (fld d 16 8)
  | 0x21 => ofExt (fld d 16 2)
  | _ => me s

/-! ### Ranges (steps 6 to 8 of Table 14.5) -/

/-- The ranges of tenant addresses an operator reads and writes. -/
structure OpRanges where
  reads : List (Nat × Nat) := []
  writes : List (Nat × Nat) := []
deriving DecidableEq, Repr

/-- The GiB granules of a range. -/
def rangeGibs (r : Nat × Nat) : List Nat :=
  if r.2 = 0 then [] else (List.range ((r.1 + r.2 - 1) / gib + 1 - r.1 / gib)).map (r.1 / gib + ·)

/-- Two ranges have a byte in common. -/
def meets (a b : Nat × Nat) : Bool := a.2 != 0 && b.2 != 0 && decide (a.1 < b.1 + b.2) && decide (b.1 < a.1 + a.2)

/-- The kind of the extent at an address; 0 where there is none. -/
def kindAt (s : State) (tenant addr : Nat) : Nat := ((extAt (extView s) tenant addr).map (·.1.kind)).getD 0

/-- Bytes of a band of 128 rows of `c` elements in an input format (R330). -/
def bandBytes (fmt c : Nat) : Nat := 32768 * cdiv c (256 / inputSize fmt)

/-- Bytes of an output block (R330). -/
def blockBytes (o : Nat) : Nat :=
  match o with
  | 0 => 32768
  | 1 => 32768
  | 2 => 65536
  | 3 => 131072
  | _ => 1310720

/-- A product of a compute operator: C = A · Bᵀ with its formats, its seed and its activation (R332, R334). `src` is not empty
for a reduction, whose blocks are sums of the blocks at those addresses (R335). -/
structure Product where
  m : Nat
  n : Nat
  k : Nat
  a : Nat
  b : Nat
  c : Nat
  fa : Nat
  fb : Nat
  out : Nat
  mode : Nat
  scale : Int
  seed : Nat := 0
  seedAt : Nat := 0
  relu : Bool := false
  /-- It reads what the product before it wrote. -/
  after : Bool := false
  src : List Nat := []
deriving DecidableEq, Repr

/-- A product's output blocks by row and column. -/
def prodRows (p : Product) : Nat := cdiv p.m 128
def prodCols (p : Product) : Nat := cdiv p.n 128
def prodBlocks (p : Product) : Nat := prodRows p * prodCols p

/-- The products of an operator in output order, from its descriptor and the entries it has read (R332, R334, R335). -/
def products (o : Op) : List Product :=
  let d := o.desc
  let base (m n k a b c : Nat) : Product :=
    { m := m, n := n, k := k, a := a, b := b, c := c, fa := cwA d, fb := cwB d, out := cwOut d, mode := cwMode d, scale := cwScale d }
  match descOp d with
  | 0x10 => [{ base (fld d 24 4) (fld d 28 4) (fld d 32 4) (fld d 40 8) (fld d 48 8) (fld d 56 8) with seed := cwSeed d, seedAt := fld d 64 8 }]
  | 0x11 => (o.groups.filter fun g => g.m != 0).map fun g => base g.m (fld d 28 4) (fld d 32 4) g.a g.b g.c
  | 0x13 =>
    let h := fld d 36 4
    let dd := fld d 32 4
    (o.groups.foldl (fun (q : List Product × Nat) g =>
      if g.m = 0 then q
      else
        let scr := fld d 56 8 + q.2 * fld d 64 8
        (q.1 ++ [{ base g.m h dd g.a g.b scr with out := if cwB d = 1 then 0 else 1, mode := 0, scale := 0, relu := fld d 24 1 == 1 },
                 { base g.m dd h scr (g.b + fld d 48 8) g.c with after := true }], q.2 + cdiv g.m 128)) ([], 0)).1
  | 0x14 => [{ base (128 * fld d 28 4) 128 0 0 0 (fld d 40 8) with src := o.groups.map (·.a) }]
  | _ => []

/-- All the output blocks of an operator. -/
def opBlocks (o : Op) : Nat := ((products o).map prodBlocks).sum

/-- The product of an output block and the block's number in it. -/
def blockAt : List Product → Nat → Nat → Option (Product × Nat × Nat)
  | [], _, _ => none
  | p :: r, i, first => if i < prodBlocks p then some (p, i, first) else blockAt r (i - prodBlocks p) (first + prodBlocks p)

/-- The ranges of a product. -/
def prodRanges (p : Product) : OpRanges :=
  if p.src ≠ [] then
    { reads := p.src.map fun a => (a, 1310720 * prodRows p), writes := [(p.c, blockBytes p.out * prodRows p)] }
  else
    { reads := [(p.a, prodRows p * bandBytes p.fa p.k), (p.b, prodCols p * bandBytes p.fb p.k)]
        ++ (if p.seed = 0 then [] else [(p.seedAt, prodBlocks p * (if p.seed = 1 then 1310720 else blockBytes p.out))])
      writes := [(p.c, prodBlocks p * blockBytes p.out)] }

/-- Rows of a tiled matrix that lists name: the range from the base to the end of the last band. -/
def rowsRange (base rowBytes last : Nat) : Nat × Nat := (base, 32768 * (rowBytes / 256) * (last / 128 + 1))

/-- The list range of an operator that it must read before it can be checked. -/
def listRange (o : Op) : Nat × Nat :=
  let d := o.desc
  match descOp d with
  | 0x06 | 0x07 => (fld d 32 8, 8 * fld d 40 4)
  | 0x11 => (fld d 40 8, if fld d 24 1 = 1 then 32 * fld d 36 4 else 4 * fld d 36 4)
  | 0x13 => (fld d 40 8, 32 * fld d 28 4)
  | 0x14 => (fld d 32 8, 8 * fld d 24 4)
  | _ => (0, 0)

/-- The entries of a list as read: for `GATHER` and `SCATTER` the source row in `a` and the destination row in `b` (R331). -/
def listGroups (o : Op) (l : List Byte) : List Group :=
  let d := o.desc
  match descOp d with
  | 0x06 => (List.range (fld d 40 4)).map fun i => { a := fld l (8 * i) 3, b := fld l (8 * i + 4) 4 }
  | 0x07 => (List.range (fld d 40 4)).map fun i => { a := fld l (8 * i + 4) 4, b := fld l (8 * i) 3 * fld d 48 1 + fld l (8 * i + 3) 1 }
  | 0x11 =>
    if fld d 24 1 = 1 then (List.range (fld d 36 4)).map fun i =>
      { m := fld l (32 * i) 4, a := fld l (32 * i + 8) 8, b := fld l (32 * i + 16) 8, c := fld l (32 * i + 24) 8 }
    else
      ((List.range (fld d 36 4)).foldl (fun (q : List Group × Nat) i =>
        let m := fld l (4 * i) 4
        (q.1 ++ [{ m := m, a := fld d 48 8 + q.2 * bandBytes (cwA d) (fld d 32 4), b := fld d 56 8 + i * fld d 64 8,
                   c := fld d 72 8 + q.2 * (cdiv (fld d 28 4) 128 * blockBytes (cwOut d)) }], q.2 + cdiv m 128)) ([], 0)).1
  | 0x13 => (List.range (fld d 28 4)).map fun i =>
      { m := fld l (32 * i) 4, a := fld l (32 * i + 8) 8, b := fld l (32 * i + 16) 8, c := fld l (32 * i + 24) 8 }
  | 0x14 => (List.range (fld d 24 4)).map fun i => { a := fld l (8 * i) 8 }
  | _ => []

/-- Reserved bytes and sizes in a list that was read (R332). -/
def listFieldsOk (o : Op) (l : List Byte) : Bool :=
  let d := o.desc
  let table (n : Nat) : Bool := (List.range n).all fun i => fld l (32 * i + 4) 4 == 0 && decide (fld l (32 * i) 4 ≤ 2 ^ 24)
  match descOp d with
  | 0x11 => if fld d 24 1 = 1 then table (fld d 36 4) else (List.range (fld d 36 4)).all fun i => decide (fld l (4 * i) 4 ≤ 2 ^ 24)
  | 0x13 => table (fld d 28 4)
  | _ => true

/-- The addresses of the entries that were read are aligned (Table 14.4). -/
def groupsAligned (o : Op) : Bool :=
  match descOp o.desc with
  | 0x11 | 0x13 => o.groups.all fun g => g.m == 0 || (g.a % 32768 == 0 && g.b % 32768 == 0 && g.c % 32768 == 0)
  | 0x14 => o.groups.all fun g => g.a % 32768 == 0
  | _ => true

/-- Bytes of a score (R333). -/
def scoreSize (d : List Byte) : Nat := if fld d 16 1 = 3 then 4 else 2

/-- The ranges of an operator (R325), once its list has been read. -/
def opRanges (o : Op) : OpRanges :=
  let d := o.desc
  let last (f : Group → Nat) : Nat := (o.groups.map f).foldl max 0
  let own : OpRanges :=
    match descOp d with
    | 0x01 => { reads := [(fld d 16 8, fld d 32 8)], writes := [(fld d 24 8, fld d 32 8)] }
    | 0x02 | 0x03 | 0x04 | 0x05 => { reads := [(fld d 16 8, fld d 24 8)] }
    | 0x06 | 0x07 =>
      if o.groups = [] then {}
      else { reads := [rowsRange (fld d 16 8) (fld d 44 4) (last (·.a))], writes := [rowsRange (fld d 24 8) (fld d 44 4) (last (·.b))] }
    | 0x12 =>
      let t := fld d 20 4
      let e := fld d 18 2
      let k := fld d 17 1
      { reads := [(fld d 24 8, t * e * scoreSize d)]
        writes := [(fld d 32 8, 8 * t * k), (fld d 40 8, 4 * e), (fld d 48 8, 8 * t * k), (fld d 56 8, 32 * e)] }
    | 0x20 => if fld d 32 1 = 1 then {} else { reads := [(fld d 16 8, fld d 24 8)] }
    | 0x30 => { reads := [(fld d 16 8, fld d 24 8)], writes := [(fld d 32 8, fld d 40 8)] }
    | _ =>
      { reads := (products o).flatMap fun p => if p.after then (prodRanges p).reads.drop 1 else (prodRanges p).reads
        writes := (products o).flatMap fun p => (prodRanges p).writes }
  if (listRange o).2 = 0 then own else { own with reads := listRange o :: own.reads }

/-- Step 6 of Table 14.5: ranges read lie in the tenant's own extents or in sealed ones it may read, ranges written in its own,
and the kind rules of Table 14.4 hold. -/
def rangeOk (s : State) (o : Op) : Bool :=
  let d := o.desc
  let r := opRanges o
  (r.reads.all fun x => (rangeGibs x).all fun g => (extFor s o.tenant (g * gib)).isSome)
    && (r.writes.all fun x => (rangeGibs x).all fun g => (extAt (extView s) o.tenant (g * gib)).isSome)
    && (match descOp d with
      | 0x05 => (rangeGibs (fld d 16 8, fld d 24 8)).all fun g => kindAt s o.tenant (g * gib) != 3
      | 0x13 => (products o).all fun p => !p.after || kindAt s o.tenant p.a == 3
      | 0x20 => fld d 32 1 == 0 || ((extRec (extView s) (fld d 16 2)).any fun e => e.tenant == o.tenant || bit e.readers o.tenant)
      | 0x21 => (extRec (extView s) (fld d 16 2)).any fun e => e.tenant == o.tenant && e.kind != 3
      | 0x30 => (rangeGibs (fld d 32 8, fld d 40 8)).all fun g => ((extAt (extView s) o.tenant (g * gib)).map (·.1.fmt)) == some 0
      | _ => true)

/-- Step 7 of Table 14.5: Table 8.3 allows the accesses in the extents' present states. -/
def stateOk (s : State) (o : Op) : Bool :=
  let d := o.desc
  let r := opRanges o
  (r.reads.all fun x => (rangeGibs x).all fun g => match extFor s o.tenant (g * gib) with
      | some (e, _, rd) => readOk (extSt s e.id).st rd
      | none => true)
    && (r.writes.all fun x => (rangeGibs x).all fun g => match extAt (extView s) o.tenant (g * gib) with
      | some (e, _) => writeOk s e.id (now s) false
      | none => true)
    && (match descOp d with
      | 0x20 => fld d 32 1 == 0 || (extSt s (fld d 16 2)).st == 3
      | 0x21 => (extSt s (fld d 16 2)).st == 1
      | _ => true)

/-- Step 8 of Table 14.5: no output overlaps an operand, seed, list or table range (R309). -/
def overlapOk (o : Op) : Bool :=
  let r := opRanges o
  r.writes.all fun w => r.reads.all fun x => !meets w x

/-- An engine in SERVING (Table 13.7). -/
def engineServing (s : State) : Bool := (List.range 4).any fun e => (tget ({} : Engine) s.eng.engines e).st == 0

/-- Steps 5 to 10 of Table 14.5 at start, once the list has been read. -/
def startRefusal (s : State) (o : Op) (l : List Byte) : Option Nat :=
  if !listFieldsOk o l then some 2
  else if !((aligned o.desc).all fun p => p.1 % p.2 == 0) || !groupsAligned o then some 5
  else if !rangeOk s o then some 6
  else if !stateOk s o then some 7
  else if !overlapOk o then some 8
  else if isCompute (descOp o.desc) && !engineServing s then some 10 else none

/-! ### Running -/

/-- Operators run in SERVING and DRAINING, and not from E − g of their tenant's lease on (R327, R423). -/
def opRuns (s : State) (o : Op) : Bool :=
  unitServes s && !s.uni.restarting && (leaseOf s o.tenant).granted && !(leaseOf s o.tenant).owed
    && decide (now s < leaseGuardAt s o.tenant)

/-- The record of an operator that ends at its gate. -/
def endOp (o : Op) (status detail : Nat) (s : State) : State :=
  retireOp o { status := status, detail := detail, flags11 := o.flags11, flags14 := o.flags14, r0 := o.progress, r1 := o.r1 } s

/-- START (R325, R327): an operator of this unit that may begin. Its list is read, and the checks of Table 14.5 that are made at
start are made once; while the list is not at hand it waits. The last part says that it may go on. -/
def startOp (o : Op) (s : State) : State × Option Op :=
  if o.checked then (s, if opRuns s o then some o else none)
  else if !opRuns s o || (o.fence && !fenceClear s.opq o) then (s, none)
  else
    let o1 := { o with started := some (o.started.getD (now s)) }
    let s := onOp o (fun _ => o1) s
    let early : Option Nat :=
      if !((aligned o.desc).all fun p => p.1 % p.2 == 0) then some 5
      else if !((rangeGibs (listRange o)).all fun g => (extFor s o.tenant (g * gib)).isSome) then some 6
      else if !((rangeGibs (listRange o)).all fun g => match extFor s o.tenant (g * gib) with
        | some (e, _, rd) => readOk (extSt s e.id).st rd
        | none => true) then some 7 else none
    match early with
    | some r => (endOp o1 2 r s, none)
    | none =>
      let r := listRange o
      let s := bringRange o.tenant r.1 r.2 false s
      if !rangeReady s o.tenant r.1 r.2 false then (s, none)
      else
        let q := agentRead o.tenant r.1 r.2 s
        let o2 := { o1 with checked := true, groups := listGroups o q.2.1, flags14 := if q.2.2 then o1.flags14 ||| 32 else o1.flags14 }
        match startRefusal q.1 o2 q.2.1 with
        | some r => (endOp { o1 with flags14 := 0 } 2 r q.1, none)
        | none => (onOp o1 (fun _ => o2) q.1, some o2)

/-- The completion of an operator: once its writes to other units are done it reaches its gate (R338). -/
def finishOp (o : Op) (s : State) : State :=
  match s.opq.ops.find? (sameOp o) with
  | none => s
  | some o => if o.writes.isEmpty then endOp o 0 0 s else s

end Sys2Proof.Machine
end

