-- ==== Sys2Proof/Machine/Move.lean ====
section
/-! DEFINITION. The movement, routing, integrity and export operators (R331, R333, R336, R337). Each row starts its operator if
it may begin, and carries it on as far as its operands are at hand. -/

namespace Sys2Proof.Machine

/-- A row of an operator: nothing where this unit runs no such operator, or while it waits. -/
def opRow (code u n q : Nat) (s : State) (k : Op → State → State) : Res :=
  match findOp s.opq u n q with
  | none => .next s
  | some o =>
    if descOp o.desc ≠ code then .next s
    else
      let p := startOp o s
      match p.2 with
      | none => .next p.1
      | some o => .next (k o p.1)

/-- The operator as it stands now. -/
def opNow (o : Op) (s : State) : Op := (s.opq.ops.find? (sameOp o)).getD o

/-- Go through a list until a step says that it must wait; whether every step was done. -/
def untilWait (l : List Nat) (f : Nat → State → State × Bool) (s : State) : State × Bool :=
  l.foldl (fun (p : State × Bool) i => if p.2 then f i p.1 else p) (s, true)

/-- An operator has done one more unit of its work, and read a poisoned line or not. -/
def advance (o : Op) (n : Nat) (poison : Bool) (s : State) : State :=
  onOp o (fun x => { x with progress := x.progress + n, flags14 := if poison then x.flags14 ||| 32 else x.flags14 }) s

/-- What is left of a list of `n` units. -/
def unitsLeft (o : Op) (n : Nat) : List Nat := (List.range n).drop o.progress

/-- Copy lines, given as source and destination addresses, when all of them are at hand (R331). -/
def copyLines (o : Op) (l : List (Nat × Nat)) (n : Nat) (s : State) : State × Bool :=
  let s := l.foldl (fun s p => bringRange o.tenant p.2 64 true (bringRange o.tenant p.1 64 false s)) s
  if l.all fun p => rangeReady s o.tenant p.1 64 false && rangeReady s o.tenant p.2 64 true then
    let r := l.foldl (fun (q : State × Bool) p =>
      let x := agentLine o.tenant (p.1 / 64) q.1
      (opWriteLine o (p.2 / 64) (BitVec.allOnes 64) x.2.1 x.2.2 x.1, q.2 || x.2.2)) (s, false)
    (advance o n r.2 (l.foldl (fun s p => dropLines o.tenant p.1 64 s) r.1), true)
  else (s, false)

/-- COPY: line by line, in ascending destination order; a poisoned line arrives poisoned. -/
def execCopy (ringUnit ring sqIndex : Nat) (s : State) : Res :=
  opRow 0x01 ringUnit ring sqIndex s fun o s =>
    let d := o.desc
    let p := untilWait ((List.range (fld d 32 8 / 64)).drop (o.progress / 64))
      (fun i s => copyLines o [(fld d 16 8 + 64 * i, fld d 24 8 + 64 * i)] 64 s) s
    if p.2 then finishOp o p.1 else p.1

/-! ### Tiles (PREFETCH, PIN, UNPIN, MIGRATE) -/

/-- Every block of a tile stands in the tier, or the tier takes no new tile (R220). -/
def tileHere (s : State) (e : ExtRec) (g tile : Nat) : Bool :=
  s.drt.noCache || (List.range 8).all fun j => (landedAddr s e g tile j).isSome

/-- Ask the serving unit of a tile for work on it (log entry 12): 2 PREFETCH, 3 PIN, 4 UNPIN, 5 CLEAN, 6 EVICT. -/
def remoteTile (kind : Nat) (o : Op) (tile : Nat) (s : State) : State :=
  sendMsg (servingAt s o.tenant (tile * 32768)) s.wrn.nextTag o.tenant (.tileWork kind o.tenant tile)
    { s with wrn := { s.wrn with nextTag := (s.wrn.nextTag + 1) % 2 ^ 32 } }

/-- Bring a tile of this unit into the tier; whether it is there. -/
def bringTile (e : ExtRec) (g tile : Nat) (s : State) : State × Bool :=
  let s := if tileHere s e g tile then s else startFill e g tile s
  (s, tileHere s e g tile)

/-- Ways pinned by operators: in a set, and on the unit. -/
def pinnedWays (s : State) (set : Option Nat) : Nat :=
  (s.drt.ways.filter fun p => p.2.valid && p.2.pinned && (match set with
    | some k => p.1 / 16 == k
    | none => true)).length

/-- Set or clear the pin of a way. -/
def setPin (i : Nat) (b : Bool) (s : State) : State :=
  { s with drt := { s.drt with ways := tmod {} i (fun y => { y with pinned := b }) s.drt.ways } }

/-- A tile operator over its range, one tile after another. -/
def tileOp (code ringUnit ring sqIndex kind : Nat) (f : Op → ExtRec → Nat → Nat → State → State × Bool) (s : State) : Res :=
  opRow code ringUnit ring sqIndex s fun o s =>
    let d := o.desc
    let p := untilWait (unitsLeft o (fld d 24 8 / 32768)) (fun i s =>
      let tile := fld d 16 8 / 32768 + i
      match ownExt s o.tenant (tile * 32768) with
      | none => (advance o 1 false (remoteTile kind o tile s), true)
      | some (e, g) =>
        let r := f o e g tile s
        if r.2 then (advance o 1 false r.1, true) else (r.1, false)) s
    if p.2 then finishOp o p.1 else p.1

/-- PREFETCH: the tiles of the range in their serving units' caches. -/
def execPrefetch (ringUnit ring sqIndex : Nat) (s : State) : Res :=
  tileOp 0x02 ringUnit ring sqIndex 2 (fun _ e g tile s => bringTile e g tile s) s

/-- PIN: as `PREFETCH`, each way kept from the victims; beyond 8 ways of a set or a quarter of the cache it fails with NO_SPACE. -/
def execPin (ringUnit ring sqIndex : Nat) (s : State) : Res :=
  tileOp 0x03 ringUnit ring sqIndex 3 (fun o e g tile s =>
    let p := bringTile e g tile s
    if !p.2 then p
    else match findWay p.1 e.tenant tile with
      | none => p
      | some i =>
        if (wayOf p.1.drt i).pinned then p
        else if 8 ≤ pinnedWays p.1 (some (i / 16)) ∨ 16 * cacheSets p.1 ≤ 4 * pinnedWays p.1 none then
          (endOp (opNow o p.1) 3 5 p.1, false)
        else (setPin i true p.1, true)) s

/-- UNPIN. -/
def execUnpin (ringUnit ring sqIndex : Nat) (s : State) : Res :=
  tileOp 0x04 ringUnit ring sqIndex 4 (fun _ e _ tile s =>
    match findWay s e.tenant tile with
    | some i => (setPin i false s, true)
    | none => (s, true)) s

/-- MIGRATE (R233): every DIRTY tile of the range is committed, and dropped from DRAM in mode EVICT; the operator completes
once each of them is durable. -/
def execMigrate (ringUnit ring sqIndex : Nat) (s : State) : Res :=
  let all (o : Op) (s : State) : State :=
    if o.acc ≠ 0 then s
    else
      let ts := rangeTiles (fld o.desc 16 8) (fld o.desc 24 8)
      onOp o (fun x => { x with acc := 1 }) (ts.foldl (fun s t => if (dirtyTiles s).contains (o.tenant, t) then commitTile o.tenant t s else s) s)
  match findOp s.opq ringUnit ring sqIndex with
  | none => .next s
  | some o =>
    tileOp 0x05 ringUnit ring sqIndex (if fld o.desc 32 1 = 0 then 6 else 5) (fun o e _ tile s =>
      let s := all (opNow o s) s
      let s := if (dirtyTiles s).contains (e.tenant, tile) then commitTile e.tenant tile s else s
      if (dirtyTiles s).contains (e.tenant, tile) || (inLog s.hrd e.tenant tile).isSome then (s, false)
      else
        (if fld o.desc 32 1 = 0 ∧ ((findWay s e.tenant tile).any fun i => !(wayOf s.drt i).pinned) = true then dropCopy e.tenant tile s else s, true)) s

/-! ### Rows of tiled matrices (GATHER, SCATTER) -/

/-- The lines of a row of a tiled matrix (R330). -/
def rowLines (base rowBytes r : Nat) : List Nat :=
  (List.range (rowBytes / 256)).flatMap fun tk =>
    (List.range 4).map fun i => base + 32768 * (r / 128 * (rowBytes / 256) + tk) + 256 * (r % 128) + 64 * i

/-- GATHER and SCATTER: for each list entry in order, one row (R331). -/
def rowsOp (code ringUnit ring sqIndex : Nat) (s : State) : Res :=
  opRow code ringUnit ring sqIndex s fun o s =>
    let d := o.desc
    let p := untilWait (unitsLeft o (fld d 40 4)) (fun i s =>
      let g := o.groups.getD i {}
      copyLines o (List.zip (rowLines (fld d 16 8) (fld d 44 4) g.a) (rowLines (fld d 24 8) (fld d 44 4) g.b)) 1 s) s
    if p.2 then finishOp o p.1 else p.1
def execGather (ringUnit ring sqIndex : Nat) (s : State) : Res := rowsOp 0x06 ringUnit ring sqIndex s
def execScatter (ringUnit ring sqIndex : Nat) (s : State) : Res := rowsOp 0x07 ringUnit ring sqIndex s

/-! ### Expert routing (R333) -/

/-- A score as it ranks: none for −∞, which a NaN and a poisoned score rank as; +∞ above every finite value. -/
def scoreKey (x : El) (poison : Bool) : Option Int :=
  if poison then none
  else match x.cls with
    | 0 => some (x.m * 2 ^ (x.w + 300).toNat)
    | 1 => some (2 ^ 700)
    | _ => none

/-- One key ranks before another. -/
def keyLess (a b : Option Int) : Bool :=
  match a, b with
  | none, some _ => true
  | some x, some y => decide (x < y)
  | _, none => false

/-- The expert that ranks first among those not yet taken: the highest score, then the lower index. -/
def bestExpert (keys : List (Option Int)) (taken : List Nat) : Nat :=
  ((List.range keys.length).foldl (fun (b : Option Nat) e =>
    if taken.contains e then b
    else match b with
      | none => some e
      | some x => if keyLess (keys.getD x none) (keys.getD e none) then some e else b) none).getD 0

/-- A score converted exactly to FP32 (R333). -/
def scoreFp32 (fmt v : Nat) (key : Option Int) : Nat :=
  match key with
  | none => 0xFF800000
  | some k =>
    match fmt with
    | 1 => v * 65536
    | 3 => v
    | _ =>
      if (inputEl 2 v).cls = 1 then 0x7F800000
      else if k = 0 then (if v.testBit 15 then 2 ^ 31 else 0)
      else (roundEntry 2 0 0 k).val

/-- EXPERT_ROUTE: assignments, counts, dispatch list and table from the scores. -/
def execExpertRoute (ringUnit ring sqIndex : Nat) (s : State) : Res :=
  opRow 0x12 ringUnit ring sqIndex s fun o s =>
    let d := o.desc
    let f := fld d 16 1
    let k := fld d 17 1
    let e := fld d 18 2
    let t := fld d 20 4
    let z := scoreSize d
    let r := opRanges o
    if o.progress = t then finishOp o s else
    let s := r.writes.foldl (fun s w => bringRange o.tenant w.1 w.2 true s) (r.reads.foldl (fun s w => bringRange o.tenant w.1 w.2 false s) s)
    if !(r.reads.all fun w => rangeReady s o.tenant w.1 w.2 false) || !(r.writes.all fun w => rangeReady s o.tenant w.1 w.2 true) then s
    else
      let q := agentLines o.tenant (fld d 24 8) (t * e * z) s
      let score (i j : Nat) : Nat × Bool :=
        let at_ := (i * e + j) * z
        let l := q.2.getD (at_ / 64) ([], false)
        (fld l.1 (at_ % 64) z, l.2)
      let rows := (List.range t).map fun i =>
        let vs := (List.range e).map fun j => score i j
        let keys := vs.map fun v => scoreKey (inputEl f v.1) v.2
        let a := bestExpert keys []
        let picks := if k = 2 then [a, bestExpert keys [a]] else [a]
        (picks.map fun x => (x, scoreFp32 f (vs.getD x (0, false)).1 (keys.getD x none)),
         vs.any (fun v => !v.2 && (inputEl f v.1).cls == 3), vs.any (·.2))
      let picks := (List.range t).flatMap fun i => (((rows.getD i ([], false, false)).1).zip (List.range k)).map fun p => (i, p.2, p.1.1, p.1.2)
      let counts := (List.range e).map fun x => (picks.filter fun p => p.2.2.1 == x).length
      let bands := (counts.foldl (fun (b : List Nat × Nat) c => (b.1 ++ [b.2], b.2 + cdiv c 128)) ([], 0)).1
      let s := opWrite o (fld d 32 8) (picks.flatMap fun p => leBytes 2 p.2.2.1 ++ zs 2 ++ leBytes 4 p.2.2.2)
        (dropLines o.tenant (fld d 24 8) (t * e * z) q.1)
      let s := opWrite o (fld d 40 8) (counts.flatMap fun c => leBytes 4 c) s
      let s := opWrite o (fld d 48 8) ((List.range e).flatMap fun x =>
        let mine := picks.filter fun p => p.2.2.1 == x
        (mine.zip (List.range mine.length)).flatMap fun p => leBytes 3 p.1.1 ++ leBytes 1 p.1.2.1 ++ leBytes 4 (128 * bands.getD x 0 + p.2)) s
      let s := opWrite o (fld d 56 8) ((List.range e).flatMap fun x =>
        leBytes 4 (counts.getD x 0) ++ zs 4 ++ leBytes 8 (fld d 64 8 + bands.getD x 0 * fld d 72 8) ++ leBytes 8 (fld d 80 8 + x * fld d 88 8)
          ++ leBytes 8 (fld d 96 8 + bands.getD x 0 * fld d 104 8)) s
      let nan := rows.any fun x => x.2.1
      let poison := rows.any fun x => x.2.2
      let s := onOp o (fun x => { x with
        progress := t, r1 := (counts.filter (· != 0)).length
        flags11 := if nan then x.flags11 ||| 8 else x.flags11, flags14 := if poison then x.flags14 ||| 32 else x.flags14 }) s
      finishOp o s

/-! ### Integrity and export (R336, R337) -/

/-- Bytes that a CRC-32C has gone over change its running value; the value of no bytes is 0. -/
def crcMore (c : Nat) (l : List Byte) : Nat := (~~~ (l.foldl crcByte (~~~ (BitVec.ofNat 32 c)))).toNat

/-- A piece of a range that lies in one line: where it starts, and its length. -/
def pieceAt (addr len done : Nat) : Nat × Nat :=
  let a := addr + done
  (a, min (64 - a % 64) (len - done))

/-- CHECKSUM mode 0: the CRC-32C of a range, line by line. -/
def checksumRange (o : Op) (s : State) : State :=
  let addr := fld o.desc 16 8
  let len := fld o.desc 24 8
  let p := untilWait ((List.range (len / 64 + 2)).drop (o.progress / 64)) (fun _ s =>
    let o := opNow o s
    if len ≤ o.progress then (s, true)
    else
      let x := pieceAt addr len o.progress
      let s := bringRange o.tenant x.1 x.2 false s
      if !rangeReady s o.tenant x.1 x.2 false then (s, false)
      else
        let q := agentRead o.tenant x.1 x.2 s
        (advance o x.2 q.2.2 (onOp o (fun y => { y with acc := crcMore y.acc q.2.1 }) q.1), true)) s
  if p.2 then
    let o := opNow o p.1
    if o.progress = len then endOp { o with progress := o.acc } 0 0 p.1 else p.1
  else p.1

/-- CHECKSUM mode 1: every tile of a SEALED extent against its manifest (R151), once the tiles that this unit serves are at hand;
the answer of another unit about the tiles it serves is a free value (log entry 24). -/
def checksumManifest (o : Op) (e : ExtRec) (s : State) : State :=
  let tile (i : Nat) : Nat := e.base * 32768 + i
  match (unitsLeft o (e.size * 32768)).filter fun i => serverOf s e (i / 32768) == me s && !tileAtHand s e (i / 32768) (tile i) with
  | [] =>
    let p := (unitsLeft o (e.size * 32768)).foldl (fun (p : State × Nat × Nat) i =>
      let g := i / 32768
      let bad := if serverOf s e g = me s then
          crc32c (tileData p.1 e g (tile i)) != tget 0 (tget [] p.1.ext.manifests e.id) i
        else Config.flag p.1.free
      (draw p.1, if bad then p.2.1 + 1 else p.2.1, if bad ∧ p.2.1 = 0 then i else p.2.2)) (s, 0, 2 ^ 64 - 1)
    endOp { o with progress := p.2.1, r1 := p.2.2 } 0 0 p.1
  | is => is.foldl (fun s i => startFill e (i / 32768) (tile i) s) s

/-- CHECKSUM. -/
def execChecksum (ringUnit ring sqIndex : Nat) (s : State) : Res :=
  opRow 0x20 ringUnit ring sqIndex s fun o s =>
    if fld o.desc 32 1 = 0 then checksumRange o s
    else match extRec (extView s) (fld o.desc 16 2) with
      | none => s
      | some e => checksumManifest o e s

/-- The packed records of a source tile (Table 11.3), under its index within the source (R337). -/
def exportTile (e : ExtRec) (index : Nat) (lines : List (List Byte × Bool)) : List Byte :=
  (List.range 8).flatMap fun j =>
    let ls := slice lines (64 * j) 64
    let poison : BitVec 64 := (List.range 64).foldl (fun p i => if (ls.getD i ([], false)).2 then p ||| (1#64 <<< i) else p) 0
    let b := encodeBlock e.fmt e.crc (ls.flatMap (·.1)) poison
    packBlock 0 index j { bmw := b.1, masks := b.2.1 } b.2.2

/-- EXPORT_COMPRESSED: tile after tile, then a zero record; NO_SPACE after the last whole tile that fits. -/
def execExportCompressed (ringUnit ring sqIndex : Nat) (s : State) : Res :=
  opRow 0x30 ringUnit ring sqIndex s fun o s =>
    let src := fld o.desc 16 8
    let dst := fld o.desc 32 8
    let cap := fld o.desc 40 8
    let tail (n : Nat) (o : Op) (s : State) : State × Bool :=
      if cap < o.acc + n then (endOp { o with r1 := o.acc } 3 5 s, false)
      else
        let s := bringRange o.tenant (dst + o.acc) n true s
        (s, rangeReady s o.tenant (dst + o.acc) n true)
    let p := untilWait (unitsLeft o (fld o.desc 24 8 / 32768)) (fun i s =>
      let o := opNow o s
      let a := src + 32768 * i
      match extFor s o.tenant a with
      | none => (s, false)
      | some (e, _, _) =>
        let s := bringRange o.tenant a 32768 false s
        if !rangeReady s o.tenant a 32768 false then (s, false)
        else
          let q := agentLines o.tenant a 32768 s
          let b := exportTile e i q.2
          let r := tail b.length o (dropLines o.tenant a 32768 q.1)
          if !r.2 then r
          else (advance o 1 (q.2.any (·.2)) (onOp o (fun x => { x with acc := x.acc + b.length }) (opWrite o (dst + o.acc) b r.1)), true)) s
    if p.2 then
      let o := opNow o p.1
      let r := if o.r1 ≠ 0 then (finishOp o p.1, false) else tail 32 o p.1
      if r.2 then finishOp o (onOp o (fun x => { x with acc := x.acc + 32, r1 := x.acc + 32 }) (opWrite o (dst + o.acc) (zs 32) r.1)) else r.1
    else p.1

end Sys2Proof.Machine
end

