-- ==== Sys2Proof/Machine/Repair.lean ====
section
/-! DEFINITION. Repair maps, groups of elements, the elements in service, and the repair reserve (R84 to R90, Tables
5.3 to 5.5 and 5.8). -/

namespace Sys2Proof.Machine

/-- The value of a repair entry (Table 5.4). -/
def entryVal (e : RepairEntry) : Nat := e.cls * 2 ^ 28 + e.grp * 2 ^ 16 + e.elt

/-- Elements built in a group of a class (Table 5.3). -/
def built (cls : Nat) : Nat :=
  match cls with
  | 1 => 132
  | 2 => 68
  | 3 => 9
  | 4 => 10
  | 5 => 4104
  | 7 => 32
  | 10 => 4
  | 11 => 132
  | _ => 0

/-- Elements in service in a group of a class (Table 5.3), where the table fixes the number. -/
def inServiceCount (cls : Nat) : Nat :=
  match cls with
  | 1 => 128
  | 2 => 64
  | 3 => 8
  | 4 => 8
  | 5 => 4096
  | 11 => 128
  | _ => 0

/-- The groups of a class. -/
def groupsOf (cls : Nat) : List Nat :=
  match cls with
  | 1 => List.range 4
  | 2 => List.range 4
  | 3 => [0]
  | 4 => [0]
  | 5 => List.range 320
  | 7 => [0]
  | 10 => List.range 48
  | 11 => List.range 16
  | _ => []

/-- A repair entry names an element that exists (R85). -/
def entryValid (e : RepairEntry) : Bool :=
  match e.cls with
  | 6 => decide (e.grp < 320)
  | 8 => decide (e.grp < 3)
  | 9 => decide (e.grp < 4)
  | c => (groupsOf c).contains e.grp && decide (e.elt < built c)

/-- A 32-bit word read as a repair entry (Table 5.4). -/
def entryOf (v : Nat) : RepairEntry := { cls := bits v 31 28, grp := bits v 27 16, elt := bits v 15 0 }

/-- The non-empty entries of the factory repair map, fuse words 100 to 163 (R85). -/
def factoryWords (f : Fus) : List RepairEntry :=
  ((List.range 64).flatMap fun i =>
    let v := (fuseBits f (100 + i)).toNat
    [bits v 31 0, bits v 63 32]).filter (· != 0) |>.map entryOf

/-- The active entries of the field repair map, in the order written (R86). -/
def activeField (l : Lif) : List RepairEntry := (l.fieldMap.filter fun e => !e.cleared).map (·.entry)

/-- An element is out of service. -/
def isOut (s : State) (c g e : Nat) : Bool := s.uni.outOfService.contains { cls := c, grp := g, elt := e }

/-- An element was found SLOW (R82). -/
def isSlow (s : State) (c g e : Nat) : Bool := s.uni.slow.contains { cls := c, grp := g, elt := e }

/-- The working elements of a group, ascending; a spare found SLOW comes after every other (R84, R95). -/
def workingOf (s : State) (c g : Nat) : List Nat :=
  let w := (List.range (built c)).filter fun e => !isOut s c g e
  let late (e : Nat) : Bool := decide (inServiceCount c ≤ e) && isSlow s c g e
  w.filter (fun e => !late e) ++ w.filter late

/-- The elements in service of a group of classes 1 to 4, in ascending order (R84). -/
def servingElements (s : State) (c g : Nat) : List Nat :=
  ((workingOf s c g).take (inServiceCount c)).foldl (fun l e => insAsc e l) []

/-- The physical MAC columns of an engine: logical column j is the j-th (R84). -/
def engineColumns (s : State) (e : Nat) : List Nat := servingElements s 1 e

/-- The strip decoders in service at an engine's operand port. -/
def engineDecoders (s : State) (e : Nat) : List Nat := servingElements s 2 e

/-- The working spare rows of a bank that replace no row, PASS before SLOW, ascending (R84, R95). -/
def freeSpareRows (s : State) (bank : Nat) : List Nat :=
  let w := (List.range 8).filter fun k =>
    !isOut s 5 bank (4096 + k) && !(s.uni.rowMap.any fun r => r.1 == bank && r.2.2 == k)
  w.filter (fun k => !isSlow s 5 bank (4096 + k)) ++ w.filter fun k => isSlow s 5 bank (4096 + k)

/-- Failed lanes of a port. -/
def lanesFailed (p : Port) : Nat := ((List.range 4).filter fun i => p.laneFail.getLsbD i).length

/-- The repair reserve of each group of a class: spares counted for it, and those left (R90). -/
def groupReserves (s : State) (c : Nat) : List (Nat × Nat) :=
  match c with
  | 5 => (groupsOf 5).map fun b => (8, (freeSpareRows s b).length)
  | 7 => [(spareCount (mapImage s) (me s), ((List.range 32).filter fun i => (tget {} s.drt.sids i).st == 1).length)]
  | 10 => ((groupsOf 10).filterMap fun n => (topo s.vq.active (me s) n).map fun t =>
      (4 - t.2.2, (4 - t.2.2) - lanesFailed (portOf s.wrn n)))
  | 11 => ((groupsOf 11).filterMap fun b => (bayOf s.hrd b).drey.map fun d =>
      (4, (freeSpares d).length))
  | 12 => (s.hrd.stripes.filter fun p => p.2.st == 2).map fun p => (p.2.m, p.2.m - lostKnown s p.1)
  | c =>
    if c = 1 ∨ c = 2 ∨ c = 3 ∨ c = 4 then
      (groupsOf c).map fun g =>
        (built c - inServiceCount c, ((List.range (built c)).filter fun e => !isOut s c g e).length - inServiceCount c)
    else []

/-- The level of a group (R90): 0 GREEN, 1 AMBER, 2 RED. -/
def reserveLevel (spares left : Nat) : Nat := if spares < 2 * left then 0 else if 0 < left then 1 else 2

/-- The level of a class: the worst among its groups. -/
def classLevel (s : State) (c : Nat) : Nat := ((groupReserves s c).map fun p => reserveLevel p.1 p.2).foldl max 0

/-- Spares built in a class, summed over its groups: for class 12, over the stripe codes (Table 5.3). -/
def classSpares (s : State) (c : Nat) : Nat :=
  if c = 12 then ((List.range 16).map fun i => ((stripeKM s.vq.active i).map (·.2)).getD 0).sum
  else ((groupReserves s c).map (·.1)).sum

/-- Elements withdrawn of the classes that have no spares. -/
def withdrawnCount (s : State) (c : Nat) : Nat := (s.uni.outOfService.filter fun e => e.cls == c).length

/-- Spares taken or failed, or elements withdrawn. -/
def classUsed (s : State) (c : Nat) : Nat :=
  if c = 6 ∨ c = 8 ∨ c = 9 then withdrawnCount s c
  else if c = 12 then ((groupReserves s c).map fun p => p.1 - p.2).foldl max 0
  else ((groupReserves s c).map fun p => p.1 - p.2).sum

/-- Fewest working spares in any group. -/
def classLow (s : State) (c : Nat) : Nat :=
  match (groupReserves s c).map (·.2) with
  | [] => 0
  | x :: xs => xs.foldl min x

/-- `UNI_RESERVE_c` (Table 5.8). -/
def uniReserve (s : State) (c : Nat) : Nat :=
  sat 16 (classSpares s c) + 2 ^ 16 * sat 16 (classUsed s c) + 2 ^ 32 * sat 16 (classLow s c) + 2 ^ 48 * classLevel s c

/-- Report the changes of level of the classes given (R90). -/
def checkLevels (cs : List Nat) (s : State) : State :=
  cs.foldl (fun s c =>
    let l := classLevel s c
    if l = tget 0 s.uni.levels c then s
    else
      let s := { s with uni := { s.uni with levels := tset c l s.uni.levels } }
      if l = 1 then raise { code := 0x0002, d0 := c } s
      else if l = 2 then raise { code := 0x0003, d0 := c } s else s) s

/-- The scope of an event about an element (Table 19.4). -/
def entryScope (e : RepairEntry) : Nat × Nat :=
  match e.cls with
  | 1 => (7, e.grp)
  | 2 => (7, e.grp)
  | 9 => (7, e.grp)
  | 7 => (9, e.elt)
  | 10 => (4, e.grp)
  | 11 => (5, e.grp)
  | _ => (0, 0)

/-- Write a field repair entry (R86): while the map has room; its event, and its class's count (Table 17.3). -/
def fieldEntry (e : RepairEntry) (cause : Nat) (s : State) : State :=
  let full := decide (1024 ≤ s.lif.fieldMap.length)
  let s := { s with lif := { s.lif with
      mapFull := full
      fieldMap := if full then s.lif.fieldMap
        else s.lif.fieldMap ++ [{ entry := e, cause := cause, cleared := false, time := now s }]
      repairs := tinc e.cls 1 s.lif.repairs } }
  let s := raise { code := 0x0004, sk := (entryScope e).1, si := (entryScope e).2, d0 := entryVal e, d1 := cause } s
  if full then raise { code := 0x0005 } s else s

/-- Take an element out of service for a cause (R87, R88): its field entry, and the class's level. -/
def takeOut (e : RepairEntry) (cause : Nat) (s : State) : State :=
  if s.uni.outOfService.contains e then s
  else
    let s := fieldEntry e cause s
    checkLevels [e.cls] { s with uni := { s.uni with outOfService := s.uni.outOfService ++ [e] } }

/-- The level of the group of an element is GREEN (R87, R88). -/
def groupGreen (s : State) (e : RepairEntry) : Bool :=
  match e.cls with
  | 5 => reserveLevel 8 (freeSpareRows s e.grp).length == 0
  | c => reserveLevel (built c - inServiceCount c)
      (((List.range (built c)).filter fun x => !isOut s c e.grp x).length - inServiceCount c) == 0

end Sys2Proof.Machine
end

