-- ==== Sys2Proof/Machine/Engines.lean ====
section
/-! DEFINITION. The matrix engines (chapter 13): operand rows (R289 to R291), output blocks and their seeds (R286, R296), the
drain (R297 to R300), operand SRAM (R292), and the compute operators (R324, R332, R334, R335). -/

namespace Sys2Proof.Machine

/-- An engine, and its update. -/
def engOf (g : Eng) (e : Nat) : Engine := tget {} g.engines e
def onEngine (e : Nat) (f : Engine → Engine) (s : State) : State := { s with eng := { s.eng with engines := tmod {} e f s.eng.engines } }

/-! ### Operands -/

/-- The tile address of a tiled matrix that holds row band `ti` and K slice `tk` (R330). -/
def operandTile (base fmt k ti tk : Nat) : Nat := base + 32768 * (ti * cdiv k (256 / inputSize fmt) + tk)

/-- The elements of one row of an operand within K, each with its poison (R289, R291), from the lines of its band's tiles. -/
def rowElements (fmt k : Nat) (tiles : List (List (List Byte × Bool))) (r : Nat) : List (El × Bool) :=
  let z := inputSize fmt
  let per := 256 / z
  (List.range k).map fun c =>
    let b := c % per * z
    let l := (tiles.getD (c / per) []).getD (4 * r + b / 64) ([], false)
    (inputEl fmt (fld l.1 (b % 64) z), l.2)

/-- Read a band of an operand: the elements of its rows below `rows`. -/
def readBand (o : Op) (base fmt k ti rows : Nat) (s : State) : State × List (List (El × Bool)) :=
  let q := (List.range (cdiv k (256 / inputSize fmt))).foldl (fun (p : State × List (List (List Byte × Bool))) tk =>
    let x := agentLines o.tenant (operandTile base fmt k ti tk) 32768 p.1
    (x.1, p.2 ++ [x.2])) (s, [])
  (q.1, (List.range rows).map fun r => rowElements fmt k q.2 r)

/-- The sum of the products of two rows into an entry (R293, R294, R307). -/
def dot (seed : Entry) (a b : List (El × Bool)) : Entry :=
  (a.zip b).foldl (fun x p => addEntry x { product p.1.1 p.2.1 with poison := p.1.2 || p.2.2 }) seed

/-! ### Output blocks -/

/-- Rows and columns of a block that lie within M and N (R291). -/
def blockRows (p : Product) (i : Nat) : Nat := min 128 (p.m - 128 * (i / prodCols p))
def blockCols (p : Product) (i : Nat) : Nat := min 128 (p.n - 128 * (i % prodCols p))

/-- Where an output element of a rounded block lies: tile after tile in column order, row `r`, column `c` (R300). -/
def roundedAt (o r c : Nat) : Nat :=
  let per := 256 / outSize o
  32768 * (c / per) + 256 * r + c % per * outSize o

/-- Bytes that a block's seed block takes. -/
def seedBytes (p : Product) : Nat := if p.seed = 1 then 1310720 else blockBytes p.out

/-- The ranges that a block reads and the one it writes. -/
def blockReads (p : Product) (i : Nat) : List (Nat × Nat) :=
  if p.src ≠ [] then p.src.map fun a => (a + 1310720 * i, 1310720)
  else [(operandTile p.a p.fa p.k (i / prodCols p) 0, bandBytes p.fa p.k), (operandTile p.b p.fb p.k (i % prodCols p) 0, bandBytes p.fb p.k)]
    ++ (if p.seed = 0 then [] else [(p.seedAt + seedBytes p * i, seedBytes p)])
def blockOut (p : Product) (i : Nat) : Nat × Nat := (p.c + blockBytes p.out * i, blockBytes p.out)

/-- The lines of other units that a block has read are used up. -/
def blockRead (o : Op) (p : Product) (i : Nat) (s : State) : State :=
  (blockReads p i).foldl (fun s r => dropLines o.tenant r.1 r.2 s) s

/-- Everything an output block needs is at hand. -/
def bringBlock (o : Op) (p : Product) (i : Nat) (s : State) : State × Bool :=
  let w := blockOut p i
  let s := bringRange o.tenant w.1 w.2 true ((blockReads p i).foldl (fun s r => bringRange o.tenant r.1 r.2 false s) s)
  (s, (blockReads p i).all (fun r => rangeReady s o.tenant r.1 r.2 false) && rangeReady s o.tenant w.1 w.2 true)

/-- The entries of a block of long sums, or the reason that one is malformed (R301); a poisoned line sets POISON. -/
def readLongs (o : Op) (addr : Nat) (s : State) : State × Except Nat (List Entry) :=
  let q := agentLines o.tenant addr 1310720 s
  let bytes := q.2.flatMap (·.1)
  let hit (i : Nat) : Bool := (q.2.getD (80 * i / 64) ([], false)).2 || (q.2.getD ((80 * i + 79) / 64) ([], false)).2
  (q.1, (List.range 16384).mapM fun i => (readLong (slice bytes (80 * i) 80)).map fun e => { e with poison := e.poison || hit i })

/-- The seed of every entry of a block (Table 13.3), row by row. -/
def readSeeds (o : Op) (p : Product) (i : Nat) (s : State) : State × Except Nat (List Entry) :=
  match p.seed with
  | 0 => (s, .ok [])
  | 1 => readLongs o (p.seedAt + 1310720 * i) s
  | _ =>
    let q := agentLines o.tenant (p.seedAt + seedBytes p * i) (seedBytes p) s
    let z := outSize p.out
    (q.1, .ok ((List.range 16384).map fun j =>
      let b := roundedAt p.out (j / 128) (j % 128)
      let l := q.2.getD (b / 64) ([], false)
      { seedEntry (inputEl (p.out + 1) (fld l.1 (b % 64) z)) with poison := l.2 }))

/-- The entries of a block: its seed and its products (R286), or the sum of the long sums at its sources (R335). -/
def blockEntries (o : Op) (p : Product) (i : Nat) (s : State) : State × Except Nat (List Entry) :=
  if p.src ≠ [] then
    p.src.foldl (fun (q : State × Except Nat (List Entry)) a =>
      let x := readLongs o (a + 1310720 * i) q.1
      (x.1, match q.2, x.2 with
        | .error e, _ => .error e
        | .ok [], r => r
        | .ok _, .error e => .error e
        | .ok l, .ok m => .ok (List.zipWith addEntry l m))) (s, .ok [])
  else
    let q := readSeeds o p i s
    match q.2 with
    | .error e => (q.1, .error e)
    | .ok seeds =>
      let a := readBand o p.a p.fa p.k (i / prodCols p) (blockRows p i) q.1
      let b := readBand o p.b p.fb p.k (i % prodCols p) (blockCols p i) a.1
      (b.1, .ok ((List.range 16384).map fun j =>
        if j / 128 < blockRows p i ∧ j % 128 < blockCols p i then
          dot (seeds.getD j {}) (a.2.getD (j / 128) []) (b.2.getD (j % 128) [])
        else {}))

/-- The activation RELU on a rounded value (R334): negative values and −0 become +0. -/
def reluOf (o v : Nat) : Nat :=
  let (e, m) := outFmt o
  let nan := bits v (e + m - 1) m == 2 ^ e - 1 && v % 2 ^ m != 0
  if v.testBit (e + m) && !nan then 0 else v

/-- A drained block: the bytes of its lines, byte enables, poison, and its flags and counts (R297 to R299). -/
structure Drained where
  bytes : List Byte
  mask : List Bool
  poison : List Bool
  flags : Nat
  nans : Nat
  ovfs : Nat
deriving DecidableEq, Repr

/-- Place the bytes of the elements of a block, each with its place, and mark the poisoned ones' lines. -/
def placeAll (size : Nat) (els : List (Nat × List Byte × Bool)) : List Byte × List Bool × List Bool :=
  els.foldl (fun (q : List Byte × List Bool × List Bool) x =>
    (splice q.1 x.1 x.2.1, splice q.2.1 x.1 (x.2.1.map fun _ => true),
     if x.2.2 then (q.2.2.set (x.1 / 64) true).set ((x.1 + x.2.1.length - 1) / 64) true else q.2.2))
    (List.replicate size 0, List.replicate size false, List.replicate (size / 64) false)

/-- Drain the entries of a block (R297, R298, R300). -/
def drainBlock (p : Product) (i : Nat) (es : List Entry) : Drained :=
  let rows := if p.src ≠ [] then 128 else blockRows p i
  let cols := if p.src ≠ [] then 128 else blockCols p i
  let at_ := (List.range 16384).filter fun j => decide (j / 128 < rows) && decide (j % 128 < cols)
  if p.out = 4 then
    let els := at_.map fun j => (80 * j, longBytes (es.getD j {}), (es.getD j {}).poison)
    let q := placeAll 1310720 els
    { bytes := q.1, mask := q.2.1, poison := q.2.2, flags := at_.foldl (fun f j => f ||| entryFlags (es.getD j {}) { val := 0 }) 0
      nans := (at_.filter fun j => (es.getD j {}).cls == 3).length, ovfs := 0 }
  else
    let rs := at_.map fun j => (j, es.getD j {}, deliverEntry p.out p.mode p.scale (es.getD j {}))
    let q := placeAll (blockBytes p.out) (rs.map fun x =>
      (roundedAt p.out (x.1 / 128) (x.1 % 128), leBytes (outSize p.out) (if p.relu then reluOf p.out x.2.2.val else x.2.2.val), x.2.1.poison))
    { bytes := q.1, mask := q.2.1, poison := q.2.2, flags := rs.foldl (fun f x => f ||| entryFlags x.2.1 x.2.2) 0
      nans := (rs.filter fun x => x.2.1.cls == 3).length, ovfs := (rs.filter fun x => x.2.2.overflow).length }

/-- Release a block (R286, R298): its strips are written, the lines that hold a poisoned entry poisoned. -/
def releaseBlock (o : Op) (p : Product) (i : Nat) (x : Drained) (s : State) : State :=
  let line (l : Nat) : BitVec 64 × List Byte × Bool :=
    let ms := slice x.mask (64 * l) 64
    ((List.range 64).foldl (fun b k => if ms.getD k false then b ||| (1#64 <<< k) else b) 0, slice x.bytes (64 * l) 64, x.poison.getD l false)
  (List.range (blockBytes p.out / 512)).foldl (fun s k =>
    opWriteStrip o ((blockOut p i).1 / 512 + k) ((List.range 8).map fun l => line (8 * k + l)) s) s

/-! ### Dispatch and drain (R286, R324) -/

/-- An operator here has an output block to give to an engine: it is checked and runs, and the block's product reads nothing
that is still to be released. -/
def hasBlock (s : State) (o : Op) : Bool :=
  o.checked && o.gate == 0 && opRuns s o
    && (descOp o.desc == 0x10 || descOp o.desc == 0x11 || descOp o.desc == 0x13 || descOp o.desc == 0x14)
    && (match blockAt (products o) o.dispatched 0 with
      | none => false
      | some (p, _, first) => !p.after || decide (first ≤ o.progress))

/-- The operator that started earliest among those with a block to give. -/
def earliestOp (s : State) : Option Op :=
  (s.opq.ops.filter (hasBlock s)).foldl (fun b o => match b with
    | none => some o
    | some x => if o.started.getD 0 < x.started.getD 0 then some o else some x) none

/-- ENGINE_BLOCK_DISPATCH (R324): by a free engine in SERVING. -/
def execEngineBlockDispatch (engine : Nat) (s : State) : Res :=
  if 4 ≤ engine ∨ (engOf s.eng engine).st ≠ 0 ∨ (engOf s.eng engine).block.isSome = true then .next s
  else
    match earliestOp s with
    | none => .next s
    | some o =>
      .next (onEngine engine (fun e => { e with block := some (o.ringUnit, o.ring, o.sqIndex, o.dispatched) })
        (onOp o (fun x => { x with dispatched := x.dispatched + 1 }) s))

/-- A block of the operator is at an engine that waits: operator and block. -/
def engineJob (s : State) (engine : Nat) : Option (Op × Nat) :=
  match (engOf s.eng engine).block with
  | none => none
  | some (u, n, q, b) => (findOp s.opq u n q).map fun o => (o, b)

/-- Malformed long sums among all the seeds or sources of an operator: the first reason, and how many (R296, R335). They are
looked for before the first block is released. -/
def malformedSeeds (o : Op) (s : State) : State × List Nat :=
  (products o).foldl (fun (q : State × List Nat) p =>
    let blocks := if p.src ≠ [] then p.src.flatMap fun a => (List.range (prodRows p)).map fun i => a + 1310720 * i
      else if p.seed = 1 then (List.range (prodBlocks p)).map fun i => p.seedAt + 1310720 * i else []
    blocks.foldl (fun (q : State × List Nat) a =>
      let x := readLongs o a q.1
      (x.1, match x.2 with
        | .error e => q.2 ++ [e]
        | .ok _ => q.2)) q) (s, [])

/-- The ranges that `malformedSeeds` reads are at hand. -/
def bringSeeds (o : Op) (s : State) : State × Bool :=
  let rs := (products o).flatMap fun p =>
    if p.src ≠ [] then p.src.map fun a => (a, 1310720 * prodRows p)
    else if p.seed = 1 then [(p.seedAt, 1310720 * prodBlocks p)] else []
  let s := rs.foldl (fun s r => bringRange o.tenant r.1 r.2 false s) s
  (s, rs.all fun r => rangeReady s o.tenant r.1 r.2 false)

/-- A residue mismatch (R304, Table 5.6): the operator fails, and the engine's columns are tested and replaced. -/
def residueFault (engine : Nat) (cols : List Nat) (o : Op) (s : State) : State :=
  let s := onEngine engine (fun e => { e with
    st := if e.st = 0 then 2 else e.st, residue := sat 16 (e.residue + cols.length), cause := 3, block := none
    failing := e.failing ++ cols.map fun c => { cls := 1, grp := engine, elt := c } }) s
  endOp o 3 1 s

/-- Tile periods of a block (R286). -/
def blockPeriods (p : Product) : Nat := if p.src ≠ [] then 0 else cdiv p.k (256 / inputSize p.fa)

/-- OUTPUT_BLOCK_DRAIN (R286, R297, R304): the engine's block is computed, checked and released, in ascending output order;
`badColumns` are the physical columns whose residue disagrees. A block that waits for operands, or for its turn, stays. -/
def execOutputBlockDrain (engine : Nat) (badColumns : List Nat) (s : State) : Res :=
  match engineJob s engine with
  | none => .next (onEngine engine (fun e => { e with block := none }) s)
  | some (o, b) =>
    if b ≠ o.progress ∨ opRuns s o = false then .next s
    else match blockAt (products o) b 0 with
      | none => .next (onEngine engine (fun e => { e with block := none }) s)
      | some (p, i, _) =>
        let q := bringBlock o p i s
        let z := if b = 0 then bringSeeds o q.1 else (q.1, true)
        if !q.2 || !z.2 then .next (onEngine engine (fun e => { e with starved := e.starved + 1 }) z.1)
        else if !badColumns.isEmpty then .next (residueFault engine badColumns o z.1)
        else
          let m := if b = 0 then malformedSeeds o z.1 else (z.1, [])
          match m.2 with
          | r :: rs =>
            .next (endOp o 3 3 (onEngine engine (fun e => { e with
              malformed := sat 16 (e.malformed + rs.length + 1), lastReason := r, block := none }) m.1))
          | [] =>
            let x := blockEntries o p i m.1
            match x.2 with
            | .error r =>
              .next (endOp o 3 3 (onEngine engine (fun e => { e with malformed := sat 16 (e.malformed + 1), lastReason := r, block := none }) x.1))
            | .ok es =>
              let y := drainBlock p i es
              let s := releaseBlock o p i y (blockRead o p i x.1)
              let s := onEngine engine (fun e => { e with
                blocks := e.blocks + 1, periods := e.periods + blockPeriods p, block := none
                nanOut := sat 32 (e.nanOut + y.nans), ovfOut := sat 32 (e.ovfOut + y.ovfs) }) s
              let s := onOp o (fun x => { x with progress := b + 1, flags14 := x.flags14 ||| y.flags }) s
              let s := { s with pwr := { s.pwr with isl := tmod {} (1 + engine) (fun l => { l with idleSince := now s }) s.pwr.isl } }
              .next (if b + 1 = opBlocks o then finishOp o s else s)

/-- A compute operator's own row: it starts, and once its last block is released its completion reaches the gate. -/
def computeOp (code ringUnit ring sqIndex : Nat) (s : State) : Res :=
  opRow code ringUnit ring sqIndex s fun o s => if opBlocks o ≤ o.progress then finishOp o s else s

/-- GEMM (R332). -/
def execGemm (ringUnit ring sqIndex : Nat) (s : State) : Res := computeOp 0x10 ringUnit ring sqIndex s
/-- GROUPED_GEMM (R332). -/
def execGroupedGemm (ringUnit ring sqIndex : Nat) (s : State) : Res := computeOp 0x11 ringUnit ring sqIndex s
/-- EXPERT_FFN (R334). -/
def execExpertFfn (ringUnit ring sqIndex : Nat) (s : State) : Res := computeOp 0x13 ringUnit ring sqIndex s
/-- REDUCE_EXACT (R335). -/
def execReduceExact (ringUnit ring sqIndex : Nat) (s : State) : Res := computeOp 0x14 ringUnit ring sqIndex s

/-! ### Operand SRAM (R292) -/

/-- The operand SRAM of an engine, in 32 B units. -/
def sramUnits : Nat := 262144

/-- Make room for `n` units: the tile with the oldest last use goes first, the lower key on a tie. -/
def sramRoom : Nat → Nat → List SramTile → List SramTile
  | 0, _, l => l
  | f + 1, n, l =>
    if (l.map (·.units)).sum + n ≤ sramUnits then l
    else
      let old := l.foldl (fun (b : Option SramTile) x => match b with
        | none => some x
        | some y => if x.lastUse < y.lastUse ∨ (x.lastUse = y.lastUse ∧ tileKey x.tenant x.tile < tileKey y.tenant y.tile) then some x else some y) none
      match old with
      | none => l
      | some y => sramRoom f n (l.filter (· != y))

/-- Coded units of a tile at a tier address. -/
def codedUnits (s : State) (a : Nat) : Nat :=
  ((List.range 8).map fun j => ((List.range 8).map fun k => storedLen (bmwLen (blockRec s.drt (a + 4096 * j)).bmw k) / 32).sum).sum

/-- OPERAND_TILE_FETCH (Table 1.5, R17, R292): a tile comes into the operand SRAM of an engine, once no host holds it E, its
staged strips are written back and it stands in the tier. A tile that another unit serves has a free number of units. -/
def execOperandTileFetch (engine tenant tile : Nat) (s : State) : Res :=
  if 4 ≤ engine then .next s
  else
    let e := engOf s.eng engine
    let put (n : Nat) (s : State) : State :=
      let l := e.sram.filter fun x => !(x.tenant == tenant && x.tile == tile)
      onEngine engine (fun e => { e with
        sram := sramRoom l.length n l ++ [{ tenant := tenant, tile := tile, units := n, lastUse := now s }] }) s
    if e.sram.any fun x => x.tenant == tenant && x.tile == tile then
      .next (onEngine engine (fun e => { e with
        sram := e.sram.map fun x => (if x.tenant = tenant ∧ x.tile = tile then { x with lastUse := now s } else x) }) s)
    else match extFor s tenant (tile * 32768) with
      | none => .next s
      | some (x, g, rd) =>
        if !readOk (extSt s x.id).st rd then .next s
        else if serverOf s x g ≠ me s then .next (draw (put (Config.number s.free % 1025) s))
        else
          let s := bringRange tenant (tile * 32768) 32768 false s
          if !rangeReady s tenant (tile * 32768) 32768 false then .next s
          else
            let s := flushTile x.tenant tile s
            match landedAddr s x g tile 0 with
            | none => .next s
            | some a => .next (touchTile x.tenant tile (put (codedUnits s a) s))

end Sys2Proof.Machine
end

