-- ==== Sys2Proof/Machine/Fuses.lean ====
section
/-! DEFINITION. Fuse commands (chapter 3): the checks of R41 in their order, programming with read-back, and
the nonce (R42). -/

namespace Sys2Proof.Machine

/-- The statuses of `FUS_CMD_STATUS` (Table 3.8). -/
def fsOk : Nat := 0
def fsBadFormat : Nat := 1
def fsWrongDie : Nat := 2
def fsStaleNonce : Nat := 3
def fsState : Nat := 4
def fsOwner : Nat := 5
def fsSig : Nat := 6
def fsRange : Nat := 7
def fsWordUsed : Nat := 8
def fsLastSlot : Nat := 9
def fsNoPresence : Nat := 10
def fsProgramFail : Nat := 11
def fsBusy : Nat := 12

/-- The command codes (Table 3.5). -/
def fcSetOwner : Nat := 0x0010
def fcProgramSlot : Nat := 0x0011
def fcRevokeSlot : Nat := 0x0012
def fcAdvanceArb : Nat := 0x0013
def fcTightenDebug : Nat := 0x0014
def fcProgramPolicy : Nat := 0x0015
def fcSeal : Nat := 0x0016
def fcRetire : Nat := 0x0017
def fcDebugUnlock : Nat := 0x0018

/-- The payload length of a command (Table 3.5); none for an unknown code. -/
def fusePayloadLen (code : Nat) : Option Nat :=
  if code = fcSetOwner ∨ code = fcSeal ∨ code = fcRetire then some 0
  else if code = fcProgramSlot then some 56
  else if code = fcRevokeSlot ∨ code = fcAdvanceArb then some 1
  else if code = fcTightenDebug ∨ code = fcDebugUnlock then some 2
  else if code = fcProgramPolicy then some 16
  else none

/-- The signed bytes of a command: from its format to the end of the ECDSA public-key field (Table 3.4). -/
def fuseSigned (code : Nat) (c : FuseCmd) : List Byte :=
  leBytes 2 c.format ++ leBytes 2 code ++ leBytes 4 c.payloadLen ++ leBytes 8 c.dieLo.toNat ++ leBytes 8 c.dieHi.toNat
    ++ leBytes 16 c.nonce.toNat ++ leBytes 8 c.reserved.toNat ++ c.payload ++ c.mldsaKey ++ c.ecKey

/-- The hash the carried keys give (Table 3.4): ML-DSA-65 key, then 97 bytes of the ECDSA key. -/
def fuseKeyHash (c : FuseCmd) : List Byte := sha384 (c.mldsaKey ++ c.ecKey.take 97)

/-- Step 1 of R41: format, length and reserved fields. -/
def fuseFormatOk (code : Nat) (c : FuseCmd) : Bool :=
  c.format == 1 && fusePayloadLen code == some c.payloadLen && c.payload.length == (c.payloadLen + 7) / 8 * 8
    && allZero (c.payload.drop c.payloadLen) && c.reserved == 0
    && (if code = fcProgramSlot ∨ code = fcProgramPolicy then allZero (slice c.payload 1 7) else true)
    && c.mldsaKey.length == 1952 && c.ecKey.length == 104 && allZero (c.ecKey.drop 97)
    && c.mldsaSig.length == 3312 && allZero (c.mldsaSig.drop 3309) && c.ecSig.length == 96

/-- Step 4 of R41: lifecycle and unit state (Table 3.5, R48). -/
def fuseStateOk (s : State) (code : Nat) : Bool :=
  let l := lifecycle s.fus
  if code = fcSetOwner ∨ code = fcProgramPolicy then l == 1
  else if code = fcSeal then l == 1 && ownerSet s.fus
  else if code = fcRetire then (l == 1 || l == 2) && s.uni.st == .held
  else if code = fcDebugUnlock then (l == 1 || l == 2) && !bit (debugPolicy s.fus) 4
  else l == 1 || l == 2

/-- Step 5 of R41: the owner is absent for SET_OWNER; otherwise the carried keys hash to the owner's hash. -/
def fuseOwnerOk (s : State) (code : Nat) (c : FuseCmd) : Bool :=
  if code = fcSetOwner then !anyBlown s.fus 8 6 && !anyBad s.fus 8 6
  else ownerSet s.fus && fuseKeyHash c == fuseHash s.fus 8

/-- Step 6 of R41: both signatures. -/
def fuseSigOk (code : Nat) (c : FuseCmd) : Bool :=
  let m := sha384 (fuseSigned code c)
  Config.mldsaVerify c.mldsaKey m (c.mldsaSig.take 3309) && Config.ecdsaVerify (c.ecKey.take 97) m c.ecSig

/-- Fuse words `w` to `w + n − 1` are unblown and unprogrammed (R38). -/
def fuseEmpty (f : Fus) (w n : Nat) : Bool := !anyBlown f w n && !anyBad f w n

/-- Step 7 of R41: the payload values. -/
def fuseValueStatus (f : Fus) (code : Nat) (c : FuseCmd) : Nat :=
  let b0 := fld c.payload 0 1
  if code = fcProgramSlot then
    if 3 < b0 then fsRange
    else if !fuseEmpty f (18 + 6 * b0) 6 || bit (slotsRevoked f) b0 then fsWordUsed else fsOk
  else if code = fcRevokeSlot then
    if 3 < b0 then fsRange
    else if (List.range 4).any fun k => k != b0 && slotProgrammed f k && !slotRevoked f k then fsOk
    else fsLastSlot
  else if code = fcAdvanceArb then (if b0 ≤ arb f ∨ 128 < b0 then fsRange else fsOk)
  else if code = fcTightenDebug then (if 128 ≤ fld c.payload 0 2 then fsRange else fsOk)
  else if code = fcDebugUnlock then
    (if fld c.payload 0 2 &&& 0xFFD1 ≠ 0 then fsRange else fsOk)
  else if code = fcProgramPolicy then
    if b0 < 42 ∨ 76 < b0 then fsRange else if !fuseEmpty f b0 1 then fsWordUsed else fsOk
  else if code = fcSetOwner then (if !fuseEmpty f 8 6 then fsWordUsed else fsOk)
  else fsOk

/-- The command needs the keyed switch in SERVICE (Table 3.5). -/
def fuseNeedsService (code : Nat) : Bool :=
  code == fcSetOwner || code == fcSeal || code == fcRetire || code == fcDebugUnlock

/-- Steps 1 to 8 of R41: the status of the first failure, or OK. -/
def fuseCheck (s : State) (code : Nat) (c : FuseCmd) : Nat :=
  if !fuseFormatOk code c then fsBadFormat
  else if c.dieLo ≠ dieLo s.fus ∨ c.dieHi ≠ dieHi s.fus then fsWrongDie
  else if c.nonce ≠ s.fus.nonce then fsStaleNonce
  else if !fuseStateOk s code then fsState
  else if !fuseOwnerOk s code c then fsOwner
  else if !fuseSigOk code c then fsSig
  else if fuseValueStatus s.fus code c ≠ fsOk then fuseValueStatus s.fus code c
  else if fuseNeedsService code && s.pnl.switch != 2 then fsNoPresence
  else fsOk

/-- Of the bits asked for in word `w`, those that read back blown (R41 step 9): a free value per bit. -/
def blownBits (n w : Nat) (ask : BitVec 64) : BitVec 64 :=
  (List.range 64).foldl (fun m i => if ask.getLsbD i && Config.fuseBlows n w i then m ||| (1 <<< i) else m) 0

/-- Blow bits of a monotonic word (R37): its value moves in one direction only. -/
def blowMono (n w : Nat) (ask : BitVec 64) (f : Fus) : Fus :=
  { f with words := tmod {} w (fun x => { x with bits := x.bits ||| blownBits n w ask }) f.words }

/-- Program an ECC word that is unblown (R38): one failed bit reads corrected, more read uncorrectable. -/
def blowEcc (n w : Nat) (v : BitVec 64) (f : Fus) : Fus :=
  let got := blownBits n w v
  let miss := got ^^^ v
  { f with words := tmod {} w (fun x =>
      if miss = 0 then { x with bits := x.bits ||| v }
      else if miss &&& (miss - 1) = 0 then { bits := x.bits ||| v, read := .corrected }
      else { bits := x.bits ||| got, read := .uncorrectable }) f.words }

/-- Program consecutive ECC words with the 8-byte values of a byte string. -/
def blowEccList (n w : Nat) (l : List Byte) (cnt : Nat) (f : Fus) : Fus :=
  (List.range cnt).foldl (fun f i => blowEcc n (w + i) (BitVec.ofNat 64 (fld l (8 * i) 8)) f) f

/-- A mask repeated in three copies of `w` bits from bit `lo`. -/
def threeCopies (lo w m : Nat) : BitVec 64 :=
  BitVec.ofNat 64 (m * 2 ^ lo + m * 2 ^ (lo + w) + m * 2 ^ (lo + 2 * w))

/-- Advance the anti-rollback counter (R47): the bit of the value, then up to two higher ones. -/
def blowArb (n v : Nat) (f : Fus) : Fus :=
  let put (i : Nat) (f : Fus) : Fus :=
    if i < 128 then blowMono n (1 + i / 64) (1 <<< (i % 64)) f else f
  let f1 := put (v - 1) f
  if v ≤ arb f1 then f1
  else
    let f2 := put v f1
    if v ≤ arb f2 then f2 else put (v + 1) f2

/-- Step 9 of R41: programming, and whether the read-back gives what was asked for. `n` is the draw. -/
def fuseProgram (n code : Nat) (c : FuseCmd) (f : Fus) : Fus × Bool :=
  let b0 := fld c.payload 0 1
  if code = fcSetOwner then
    let h := fuseKeyHash c
    let g := blowEccList n 8 h 6 f
    (g, !anyBad g 8 6 && fuseHash g 8 == h)
  else if code = fcProgramSlot then
    let h := slice c.payload 8 48
    let g := blowEccList n (18 + 6 * b0) h 6 f
    (g, !anyBad g (18 + 6 * b0) 6 && fuseHash g (18 + 6 * b0) == h)
  else if code = fcRevokeSlot then
    let g := blowMono n 0 (threeCopies 16 4 (2 ^ b0)) f
    (g, bit (slotsRevoked g) b0)
  else if code = fcAdvanceArb then
    let g := blowArb n b0 f
    (g, decide (b0 ≤ arb g))
  else if code = fcTightenDebug then
    let m := fld c.payload 0 2
    let g := blowMono n 3 (threeCopies 0 16 m) f
    (g, debugPolicy g &&& m == m)
  else if code = fcProgramPolicy then
    let v := BitVec.ofNat 64 (fld c.payload 8 8)
    let g := blowEcc n b0 v f
    (g, !fuseBad g b0 && fuseBits g b0 == v)
  else if code = fcSeal then
    let g := blowMono n 3 (threeCopies 0 16 0x41) (blowMono n 0 (threeCopies 0 3 3) f)
    (g, lifecycle g == 2 && debugPolicy g &&& 0x41 == 0x41)
  else if code = fcRetire then
    let g := (List.range 4).foldl (fun f i => blowMono n (14 + i) (BitVec.allOnes 64) f)
      (blowMono n 0 (threeCopies 0 3 7) f)
    (g, lifecycle g == 3)
  else if code = fcDebugUnlock then
    let m := fld c.payload 0 2
    let l := b2n (bit m 1) + 2 * b2n (bit m 2) + 4 * b2n (bit m 3) + 8 * b2n (bit m 5)
    ({ f with lifted := f.lifted ||| BitVec.ofNat 4 l }, true)
  else (f, false)

/-- What a command that succeeded does beyond the fuses: SEAL latches the RWL values (R11, Table 3.3), RETIRE
makes the wrapped media keys unrecoverable (Table 3.3), DEBUG_UNLOCK records DEBUG_OPEN (R49). -/
def fuseAfter (code : Nat) (s : State) : State :=
  if code = fcSeal then
    onLif (fun l => { l with latched := some (s.hst.ideRequired, s.hst.poisonInject) }) s
  else if code = fcRetire then
    onHrd (fun h => { h with bays := h.bays.map fun (b, y) =>
      (b, { y with drey := y.drey.map fun d => { d with unwraps := false } }) }) s
  else if code = fcDebugUnlock then
    when' (s.fus.lifted != 0) (raise { code := 0x0104, d0 := s.fus.lifted.toNat }) s
  else s

/-- The end of a fuse command: status, a new nonce (R42), the digest (R55), and the event of a refusal. -/
def fuseFinish (code status : Nat) (s : State) : State :=
  let s := { s with
    fus := { s.fus with busy := false, status := status, nonce := Config.entropy s.free, digest := fuseDigest s.fus }
    free := s.free + 1 }
  if status = fsOk then s else raise { code := 0x0103, d0 := code, d1 := status } s

/-- The ECC words that a command programs, and that step 9 of R41 reads back. -/
def fuseWritten (code : Nat) (c : FuseCmd) : List Nat :=
  let b0 := fld c.payload 0 1
  if code = fcSetOwner then (List.range 6).map (8 + ·)
  else if code = fcProgramSlot then (List.range 6).map (18 + 6 * b0 + ·)
  else if code = fcProgramPolicy then [b0]
  else []

/-- What the read-back of one ECC word records (R38): a corrected or an uncorrectable word. -/
def fuseReadBack (s : State) (w : Nat) : State :=
  match (tget {} s.fus.words w).read with
  | .clean => s
  | .corrected => raise { code := 0x0101, d0 := w } s
  | .uncorrectable => raise { code := 0x0102, d0 := w } { s with fus := { s.fus with eccFault := true } }

/-- Step 9 and the end of a command. -/
def fuseCommit (code : Nat) (c : FuseCmd) (s : State) : State :=
  let r := fuseProgram s.free code c s.fus
  let s := (fuseWritten code c).foldl fuseReadBack (draw { s with fus := r.1 })
  if r.2 then fuseFinish code fsOk (fuseAfter code s) else fuseFinish code fsProgramFail s

/-- An image signed under slot `k` is prepared for an epoch that has not committed (R58). -/
def slotPrepared (s : State) (k : Nat) : Bool :=
  s.vq.epochState == 1 && (match s.vq.shadow with
    | some m => m.slot == k
    | none => false)

/-- A fuse command (R41 to R43, R58). -/
def fuseCommand (code : Nat) (c : FuseCmd) (s : State) : State :=
  if s.fus.busy then
    raise { code := 0x0103, d0 := code, d1 := fsBusy } { s with
      fus := { s.fus with status := fsBusy, nonce := Config.entropy s.free }, free := s.free + 1 }
  else
    let st := fuseCheck s code c
    if st ≠ fsOk then fuseFinish code st s
    else if code = fcRevokeSlot ∧ slotPrepared s (fld c.payload 0 1) = true then
      { s with fus := { s.fus with busy := true, deferred := some (fld c.payload 0 1) } }
    else fuseCommit code c s

/-- The command of the buffer (Table 3.4): its code and fields; none where the length does not fit. -/
def fuseParse (raw : List Byte) : Option (Nat × FuseCmd) :=
  let l := fld raw 4 4
  let p := (l + 7) / 8 * 8
  if 1024 < l ∨ raw.length ≠ 48 + p + 5464 then none
  else some (fld raw 2 2,
    { format := fld raw 0 2, payloadLen := l, dieLo := BitVec.ofNat 64 (fld raw 8 8),
      dieHi := BitVec.ofNat 64 (fld raw 16 8), nonce := BitVec.ofNat 128 (fld raw 24 16),
      reserved := BitVec.ofNat 64 (fld raw 40 8), payload := slice raw 48 p, mldsaKey := slice raw (48 + p) 1952,
      ecKey := slice raw (2000 + p) 104, mldsaSig := slice raw (2104 + p) 3312, ecSig := slice raw (5416 + p) 96 })

/-- `FUS_CMD.GO` (R56): run the command of the buffer. -/
def fuseGo (s : State) : State :=
  let raw := mread s.fus.buf 0 (min s.fus.len 16384)
  match fuseParse raw with
  | some (code, c) => fuseCommand code c s
  | none =>
    if s.fus.busy then raise { code := 0x0103, d0 := fld raw 2 2, d1 := fsBusy } { s with
      fus := { s.fus with status := fsBusy, nonce := Config.entropy s.free }, free := s.free + 1 }
    else fuseFinish (fld raw 2 2) fsBadFormat s

/-- A revocation that waited for an epoch takes effect once it has committed or rolled back (R58). -/
def revokeDeferred (s : State) : State :=
  match s.fus.deferred with
  | none => s
  | some k =>
    if slotPrepared s k then s
    else
      fuseCommit fcRevokeSlot
        { format := 1, payloadLen := 1, dieLo := dieLo s.fus, dieHi := dieHi s.fus, nonce := s.fus.nonce, reserved := 0,
          payload := [BitVec.ofNat 8 k, 0, 0, 0, 0, 0, 0, 0], mldsaKey := [], ecKey := [], mldsaSig := [], ecSig := [] }
        { s with fus := { s.fus with deferred := none } }

/-- SET_OWNER (Table 3.5, R41). -/
def execSetOwner (c : FuseCmd) (s : State) : Res := .next (fuseCommand fcSetOwner c s)

/-- PROGRAM_SLOT (R45). -/
def execProgramSlot (c : FuseCmd) (s : State) : Res := .next (fuseCommand fcProgramSlot c s)

/-- REVOKE_SLOT (R45, R46, R58). -/
def execRevokeSlot (c : FuseCmd) (s : State) : Res := .next (fuseCommand fcRevokeSlot c s)

/-- A deferred REVOKE_SLOT takes effect (R58). -/
def execRevokeSlotDeferred (s : State) : Res := .next (revokeDeferred s)

/-- ADVANCE_ARB (R47). -/
def execAdvanceArb (c : FuseCmd) (s : State) : Res := .next (fuseCommand fcAdvanceArb c s)

/-- TIGHTEN_DEBUG (R48). -/
def execTightenDebug (c : FuseCmd) (s : State) : Res := .next (fuseCommand fcTightenDebug c s)

/-- PROGRAM_POLICY (R41, R51). -/
def execProgramPolicy (c : FuseCmd) (s : State) : Res := .next (fuseCommand fcProgramPolicy c s)

/-- SEAL (Table 3.3). -/
def execFuseSeal (c : FuseCmd) (s : State) : Res := .next (fuseCommand fcSeal c s)

/-- RETIRE (Table 3.3). -/
def execRetire (c : FuseCmd) (s : State) : Res := .next (fuseCommand fcRetire c s)

/-- DEBUG_UNLOCK (R48, R49). -/
def execDebugUnlock (c : FuseCmd) (s : State) : Res := .next (fuseCommand fcDebugUnlock c s)

end Sys2Proof.Machine
end

