-- ==== Sys2Proof/Machine/Dram.lean ====
section
/-! DEFINITION. The rows of the DRAM tier (chapter 10): admission, the inline ECC, refresh, scrub, data-rate changes,
and the retirement of SIDs. -/

namespace Sys2Proof.Machine

/-! ### Inline ECC (R197 to R199) -/

/-- Powers of α = x in GF(2^16). -/
def alpha (n : Nat) : Nat := gfPow gf16Mul 2 n

/-- What a symbol error adds to Σ e·α^(d·i), the symbols taken from lane `lane` and indices `p`. -/
def syndrome (errs : List SymErr) (lane d : Nat) (p : Nat → Bool) : Nat :=
  (errs.filter fun e => e.lane == lane && p e.idx).foldl (fun x e => x ^^^ gf16Mul e.err.toNat (alpha (d * e.idx))) 0

/-- The errors of a check symbol of a lane at an index. -/
def checkErr (errs : List SymErr) (lane idx : Nat) : Nat :=
  (errs.filter fun e => e.lane == lane && e.idx == idx).foldl (fun x e => x ^^^ e.err.toNat) 0

/-- Symbol `i` lies in half `h`. -/
def inHalf (h i : Nat) : Bool := i / 16 == h

/-- The symbol of half `h` that the syndromes of the half name, if they name one (R199). -/
def locateSym (h sp sq : Nat) : Option Nat :=
  ((List.range 16).map (16 * h + ·)).find? fun i => gf16Mul sp (alpha i) == sq

/-- What the inline half that holds the R of a column gives: the error left in R after its correction, none when the
half is uncorrectable, and whether a symbol was corrected. Lanes 4, 5 and 6 are its symbols, P and Q. -/
def inlineHalf (errs : List SymErr) (col : Nat) : Option Nat × Bool :=
  let h := col / 16
  let sp := syndrome errs 4 0 (inHalf h) ^^^ checkErr errs 5 h
  let sq := syndrome errs 4 1 (inHalf h) ^^^ checkErr errs 6 h
  let r := checkErr errs 4 col
  if sp = 0 ∨ sq = 0 then (some r, false)
  else match locateSym h sp sq with
    | some i => (some (if i = col then r ^^^ sp else r), true)
    | none => (none, false)

/-- What the check of a line answers: symbols corrected, or the syndromes of the failing half. -/
inductive LineCheck where
  | ok (corrected : Nat)
  | bad (sp sq : Nat)
deriving DecidableEq, Repr

/-- The decision of R199 on one line: its data-symbol and side-band errors, the halves read, and the inline symbol's
remaining error (none when R is unknown). Lanes 0, 1, 2 and 3 are data, P, Q and R. -/
def checkLine (errs : List SymErr) (halves : List Nat) (inl : Option Nat) : LineCheck :=
  let sp (h : Nat) : Nat := syndrome errs 0 0 (inHalf h) ^^^ checkErr errs 1 h
  let sq (h : Nat) : Nat := syndrome errs 0 1 (inHalf h) ^^^ checkErr errs 2 h
  let worst : Nat := (halves.find? fun h => sp h != 0 || sq h != 0).getD 0
  match inl with
  | none => if halves.all fun h => sp h == 0 && sq h == 0 then .ok 0 else .bad (sp worst) (sq worst)
  | some ri =>
    let sr := syndrome errs 0 2 (fun i => halves.contains (i / 16)) ^^^ checkErr errs 3 0 ^^^ ri
    let nz := (halves.map fun h => b2n (sp h != 0) + b2n (sq h != 0)).sum + b2n (sr != 0)
    if nz ≤ 1 then .ok 0
    else
      let hit := halves.filter fun h => sp h != 0 || sq h != 0
      let fix := hit.map fun h => (h, if sp h = 0 ∨ sq h = 0 then none else locateSym h (sp h) (sq h))
      match fix.find? fun p => p.2.isNone with
      | some p => .bad (sp p.1) (sq p.1)
      | none =>
        let sum := fix.foldl (fun x p => x ^^^ gf16Mul (sp p.1) (alpha (2 * p.2.getD 0))) 0
        if sum = sr then .ok hit.length else .bad (sp worst) (sq worst)

/-- The halves of line `n` that an access of `len` bytes touches (R198). -/
def lineHalves (len n : Nat) : List Nat := if len - 64 * n ≤ 32 then [0] else [0, 1]

/-- The check of a read unit: symbols corrected, and the lines that are uncorrectable with their syndromes. -/
def checkUnit (u : AUnit) (errs : List SymErr) : Nat × List (Nat × Nat × Nat) :=
  let ns := List.range (cdiv u.len 64)
  let col (n : Nat) : Nat := if u.column = 31 then 31 else (u.column + n) % 30
  let grp (n : Nat) : Nat := (u.column + n) / 30
  let rowErrs (n : Nat) : List SymErr := errs.filter fun e => grp e.line == grp n
  let res (n : Nat) : LineCheck := checkLine (errs.filter (·.line == n)) (lineHalves u.len n) (inlineHalf (rowErrs n) (col n)).1
  let inls := ns.foldl (fun (l : List (Nat × Nat)) n =>
    if (inlineHalf (rowErrs n) (col n)).2 then addNew (grp n, col n / 16) l else l) []
  ((ns.map fun n => match res n with
      | .ok c => c
      | .bad _ _ => 0).sum + inls.length,
    ns.filterMap fun n => match res n with
      | .ok _ => none
      | .bad p q => some (n, p, q))

/-! ### Admission (R207 to R209, R213) -/

/-- The key of a bank of a pseudo-channel: 64 × PC + 16 × SID + bank. -/
def bankKey (pc sid bank : Nat) : Nat := 64 * pc + 16 * (sid % 4) + bank
def unitBank (u : AUnit) : Nat := bankKey u.pc u.sid u.bank

/-- Refresh commands of debt at which a bank is held (R211, R213). -/
def postponeLimit : Nat := 8

/-- A bank is held for a forced refresh (R213). -/
def bankHeld (d : Drt) (k : Nat) : Bool := decide (postponeLimit ≤ tget 0 d.debt k)

/-- A bank is idle: no admitted unit targets it (R212). -/
def bankIdle (d : Drt) (k : Nat) : Bool := !(d.admitted.any fun u => unitBank u == k)

/-- The urgency level of a unit (R208). -/
def urgency (s : State) (u : AUnit) : Nat :=
  let age := now s - u.entered
  let t := qosTarget (liveView s) (me s) u.q
  if t ≤ age then 3 else if 3 * t ≤ 4 * age then 2 else if t ≤ 2 * age then 1 else 0

/-- The data rate of a stack, 0.1 B/ns, in a state (Table 10.5, one eighth of the peak). -/
def stackRate (rate : Nat) : Nat :=
  match rate with
  | 0 => 12288
  | 1 => 8192
  | _ => 4096

/-- The migration credit of a stack now, 10^-3 B, at most 64 KiB (R208). -/
def creditNow (s : State) (k : Nat) : Int :=
  min (65536 * 1000 : Int)
    (tget 0 s.drt.credit k + (stackRate s.drt.rate * qosShare (liveView s) (me s) * (now s - tget 0 s.drt.creditAt k) : Nat))

/-- A head unit is eligible (R208, R218). The hold of R211 at the maximum management threshold never falls due, since
the command is issued as soon as the initial one is reached. -/
def eligible (s : State) (u : AUnit) : Bool :=
  let d := s.drt
  decide ((d.admitted.filter fun x => x.pc == u.pc).length < 4) && !bankHeld d (unitBank u)
    && !(d.switching && d.stack == u.pc / 32) && !d.frozen.contains (u.pc / 4)
    && (u.q != 27 || decide (0 < creditNow s (u.pc / 32)))

/-- The head of requester `q`'s queue at a PC. -/
def headOf (d : Drt) (pc q : Nat) : Option AUnit := d.queue.find? fun u => u.pc == pc && u.q == q

/-- The unit a PC admits (R208): the highest level, then the first requester at or after its pointer. -/
def admitPick (s : State) (pc : Nat) : Option AUnit :=
  let p := tget 0 s.drt.pointer pc
  let heads := ((List.range 32).map fun i => (p + i) % 32).filterMap fun q =>
    (headOf s.drt pc q).bind fun u => if eligible s u then some u else none
  heads.foldl (fun b u => match b with
    | none => some u
    | some x => if urgency s x < urgency s u then some u else some x) none

/-- The activations of a bank after `n` more of them: a bank whose count reaches the stack's initial threshold is
given its refresh-management command, which takes that count off (R211; log entry 20). -/
def addActs (stack n count : Nat) : Nat :=
  if Config.rfmInitial stack ≤ count + n then count + n - Config.rfmInitial stack else count + n

/-- DRAM_ADMISSION (R208, R211, R214): `rfm` is the draw of R214 for the activation. -/
def execDramAdmission (pc : Nat) (rfm : Bool) (s : State) : Res :=
  match admitPick s pc with
  | none => .next s
  | some u =>
    let d := s.drt
    let k := pc / 32
    let wait := now s - u.entered
    .next { s with
      drt := { d with
        queue := d.queue.filter (·.uid != u.uid)
        admitted := d.admitted ++ [u]
        pointer := tset pc ((u.q + 1) % 32) d.pointer
        maxWait := tmod 0 u.q (fun m => max m (sat 32 wait)) d.maxWait
        credit := if u.q = 27 then tset k (creditNow s k - 1000 * u.len) d.credit else d.credit
        creditAt := if u.q = 27 then tset k (now s) d.creditAt else d.creditAt
        acts := tmod 0 (unitBank u) (addActs k 1) d.acts
        stks := if rfm then tmod {} k (fun x => { x with rfm := sat 32 (x.rfm + 1) }) d.stks else d.stks }
      out := (if rfm then [Out.dramCommand pc (u.sid % 4) u.bank 1] else []) ++ s.out }

/-! ### Refresh (R211 to R213) -/

/-- Refresh a bank of a PC: its debt falls by one; a refresh of a held bank is counted as forced. -/
def refreshBank (k : Nat) (s : State) : State :=
  { s with
    drt := { s.drt with
      debt := tmod 0 k (· - 1) s.drt.debt
      stks := if bankHeld s.drt k then tmod {} (k / 2048) (fun x => { x with forced := sat 32 (x.forced + 1) }) s.drt.stks
        else s.drt.stks }
    out := .dramCommand (k / 64) (k % 64 / 16) (k % 16) 0 :: s.out }

/-- FORCED_REFRESH (R213): a held bank that is idle is refreshed at once. -/
def forcedRefresh (k : Nat) (s : State) : State :=
  if bankHeld s.drt k && bankIdle s.drt k then refreshBank k s else s

/-- REFRESH_DEADLINE (R212): `bank` is 16 × SID + bank of the PC. -/
def execRefreshDeadline (pc bank : Nat) (s : State) : Res :=
  let k := 64 * pc + bank % 64
  .next (forcedRefresh k { s with drt := { s.drt with debt := tmod 0 k (· + 1) s.drt.debt } })

/-- The bank that a refresh opportunity takes: a held bank before anything else, else the idle bank with the greatest
debt, the lowest on a tie. -/
def refreshPick (d : Drt) (pc : Nat) : Option Nat :=
  let ks := (List.range 64).map (64 * pc + ·)
  match ks.find? (bankHeld d) with
  | some k => if bankIdle d k then some k else none
  | none =>
    (ks.filter fun k => bankIdle d k && decide (0 < tget 0 d.debt k)).foldl (fun b k => match b with
      | none => some k
      | some j => if tget 0 d.debt j < tget 0 d.debt k then some k else some j) none

/-- REFRESH_OPPORTUNITY (R212, R213). -/
def execRefreshOpportunity (pc : Nat) (s : State) : Res :=
  match refreshPick s.drt pc with
  | none => .next s
  | some k => .next (refreshBank k s)

/-! ### Retirement of a SID (R219, R220) -/

/-- The tier address of every cache way that holds a tile. -/
def validWays (s : State) : List (Nat × Way) := s.drt.ways.filter (·.2.valid)

/-- A tile at a tier address has bytes in a logical SID. -/
def tileInLsid (s : State) (a l : Nat) : Bool :=
  (List.range 64).any fun i => (placeOf s (a + 512 * i)).lsid == l

/-- Drop a tile's way. -/
def dropWay (i : Nat) (s : State) : State :=
  let y := wayOf s.drt i
  let s := dropTile (y.key / 2 ^ 35) (y.key % 2 ^ 35) s
  { s with drt := { s.drt with ways := tdel i s.drt.ways } }

/-- The cache holds 32 GiB or more beside the pools, with `l` logical SIDs (R67 rule 7, R220). -/
def poolsFit (s : State) (l : Nat) : Bool := decide (cacheBase s + 32 * gib ≤ l * sidBytes)

/-- Commit every dirty cache tile (R220 step 2). -/
def commitCache (s : State) : State :=
  ((s.drt.ways.filter fun p => p.2.valid && p.2.dirty).map fun p => (p.2.key / 2 ^ 35, p.2.key % 2 ^ 35)).foldl
    (fun s t => commitTile t.1 t.2 s) s

/-- No cache tile differs from the Hoard or waits in the log: the tags can be invalidated. -/
def cacheClean (s : State) : Bool :=
  (validWays s).all fun p => !p.2.dirty && (inLog s.hrd (p.2.key / 2 ^ 35) (p.2.key % 2 ^ 35)).isNone

/-- Remove slot `l` from the map of logical SIDs, so that the SIDs left keep the order of R200. -/
def shrinkMap (l : Nat) (m : Tbl Nat) : Tbl Nat :=
  (m.filter (·.1 != l)).map fun p => if l < p.1 then (p.1 - 1, p.2) else p

/-- The part of R220 that follows step 2: once the cache is clean, its tags are invalidated, and the map shrinks, or the
unit enters HELD with POOLS_NO_FIT. A move in progress is settled first (R364). -/
def sidLossGo (s : State) : State :=
  match s.drt.retire with
  | some ⟨l, _, none⟩ =>
    if s.drt.shrinking ∨ cacheClean s = false ∨ s.vq.mig.map = true ∨ s.vq.mig.part = true ∨ s.vq.mig.gran = true then s
    else
      let s := (validWays s).foldl (fun s p => dropWay p.1 s) s
      if poolsFit s (s.drt.logical - 1) then
        { s with drt := { s.drt with
            shrinking := true, logical := s.drt.logical - 1, sidmap := shrinkMap l s.drt.sidmap
            lsid := 63, active := true, mark := 0 } }
      else if s.flt.causes.contains 0x0009 && s.uni.st == .held then s
      else raise { code := 0x0009, sk := 9, d0 := 0 } s
  | _ => s

/-- SID_RETIREMENT (R219 steps 1 and 2) onto the lowest working spare, or SID_LOSS_NO_SPARE (R220 steps 1 and 2). -/
def startRetire (phys : Nat) (s : State) : State :=
  if (tget {} s.drt.sids phys).st ≠ 0 then s
  else match s.drt.retire with
    | some r =>
      if r.phys = phys then s else { s with drt := { s.drt with retireQueue := insAsc phys s.drt.retireQueue } }
    | none =>
      match s.drt.sidmap.find? fun p => p.2 == phys && decide (p.1 < s.drt.logical) with
      | none => s
      | some (l, _) =>
        let spare := (List.range 32).find? fun i => (tget {} s.drt.sids i).st == 1
        let d := { s.drt with
          sids := tmod {} phys (fun x => { x with st := 2 }) s.drt.sids
          retire := some { lsid := l, phys := phys, spare := spare } }
        match spare with
        | some _ =>
          let s := { s with drt := { d with lsid := l, active := true, mark := 0 } }
          ((validWays s).filter fun p => !p.2.dirty && tileInLsid s (wayAddr s p.1) l && p.2.busy == 0 && !p.2.filling).foldl
            (fun s p => dropWay p.1 s) s
        | none => sidLossGo (commitCache { s with drt := { d with noCache := true } })

/-- The next SID that waits to retire. -/
def nextRetire (s : State) : State :=
  match s.drt.retireQueue with
  | [] => s
  | p :: r => startRetire p { s with drt := { s.drt with retireQueue := r } }

/-- SID_RETIRE_COMPLETE (R219 step 4, R364). -/
def execSidRetireComplete (s : State) : Res :=
  match s.drt.retire with
  | some ⟨l, p, some q⟩ =>
    let s := { s with drt := { s.drt with
      sidmap := tset l q s.drt.sidmap
      sids := tmod {} q (fun x => { x with st := 0 }) (tmod {} p (fun x => { x with st := 3 }) s.drt.sids)
      retire := none, active := false, mark := 0, lsid := 0 } }
    let s := raise { code := 0x0901, sk := 9, si := p, d0 := p, d1 := q } s
    .next (nextRetire (takeOut { cls := 7, grp := 0, elt := p } 8 s))
  | _ => .next s

/-- POOL_REMAP_COMPLETE (R220 steps 4 and 5). -/
def execPoolRemapComplete (s : State) : Res :=
  match s.drt.retire with
  | some ⟨_, p, none⟩ =>
    if !s.drt.shrinking then .next (sidLossGo s)
    else
      let d := { s.drt with sids := tmod {} p (fun x => { x with st := 3 }) s.drt.sids }
      let d := { d with retire := none, shrinking := false, active := false, mark := 0, lsid := 0, noCache := false }
      let s := { s with drt := d, hrd := { s.hrd with gathered := [] } }
      let s := raise { code := 0x0901, sk := 9, si := p, d0 := p, d1 := 2 ^ 64 - 1 } s
      .next (settle (nextRetire (takeOut { cls := 7, grp := 0, elt := p } 8 s)))
  | _ => .next s

/-! ### Uncorrectable lines (R218, R221) -/

/-- The extent, granule and tile whose data lie at a tier address. -/
def ownerAt (s : State) (a : Nat) : Option (ExtRec × Nat × Nat) :=
  let p := partPinned (poolImage s) (me s) * gib
  let inPool (pool : Tbl (Nat × Nat)) (o : Nat) : Option (ExtRec × Nat × Nat) :=
    match tfind pool (o / gib) with
    | none => none
    | some (x, g) => (extRec (extView s) x).map fun e => (e, g, (e.base + g) * 32768 + o % gib / 32768)
  if a < p then inPool s.drt.pinned a
  else if a < cacheBase s then inPool s.drt.volatile (a - p)
  else
    let y := wayOf s.drt ((a - cacheBase s) / 32768)
    if !y.valid then none
    else (extAt (extView s) (y.key / 2 ^ 35) (y.key % 2 ^ 35 * 32768)).map fun q => (q.1, q.2, y.key % 2 ^ 35)

/-- The size of the tier space. -/
def tierBytes (s : State) : Nat := s.drt.logical * sidBytes

/-- Poison what an uncorrectable line at a tier address held (R218, R185 step 4), with its event. -/
def poisonLost (a : Nat) (e : ExtRec) (tile : Nat) (s : State) : State :=
  let r := blockRec s.drt a
  let ks := if bmwMode r.bmw = 1 then List.range 8 else [a / 512 % 8]
  let s := { s with drt := poisonStrips a ks (fun _ => 0xFF) s.drt }
  raise { code := 0x0903, tenant := e.tenant, sk := 9, si := physOf s.drt (placeOf s a).lsid,
          addr := tile * 32768 + a % 32768 / 4096 * 4096, d0 := 8 * ks.length } s

/-- A lost line of data in RETIRE mode (R218): a clean, Hoard-backed tile is dropped and filled again; else poison. -/
def loseOwned (a : Nat) (s : State) : Option (ExtRec × Nat × Nat) → State
  | none => s
  | some (e, g, tile) =>
    if cleanBacked s e g tile then startFill e g tile (dropCopy e.tenant tile s) else poisonLost a e tile s
def loseData (a : Nat) (s : State) : State := loseOwned a s (ownerAt s a)

/-- Metadata lines of the block records, and of the tag sets (R202, R205). -/
def recLines (s : State) : Nat := cdiv (tierBytes s / 4096 * 32) 64
def tagLines (s : State) : Nat := 2 * cacheSets s

/-- H, the number of lines in one copy, rounded up so that H mod L = 4 (R202). -/
def metaCopy (s : State) : Nat :=
  let n := recLines s + tagLines s + Config.metaRest
  let l := s.drt.logical
  if l = 0 then n else n + (4 + l - n % l) % l

/-- METADATA_BOTH_LOST (R221): block records first, then tag sets; the mirror of the snoop filter follows R158. -/
def loseMeta (m : Nat) (s : State) : State :=
  if m < recLines s then
    [2 * m, 2 * m + 1].foldl (fun s b =>
      let a := 4096 * b
      match ownerAt s a with
      | none => s
      | some (e, g, tile) =>
        if cleanBacked s e g tile then startFill e g tile (dropCopy e.tenant tile s)
        else
          let s := { s with drt := putRec a { bmw := mkBmw (List.replicate 8 31) e.fmt 0 0, masks := List.replicate 8 0xFF } s.drt }
          raise { code := 0x0903, tenant := e.tenant, addr := tile * 32768 + a % 32768, d0 := 64 } s) s
  else if m < recLines s + tagLines s then
    let set := (m - recLines s) / 2
    raise { code := 0x0704, d0 := set }
      { s with drt := { s.drt with ways := s.drt.ways.filter fun p => p.1 / 16 != set } }
  else s

/-- An uncorrectable line of a physical SID (R218, R221). -/
def lineLost (phys pc bank row column a sp sq : Nat) (s : State) : State :=
  let stack := phys / 4
  let s := { s with drt := { s.drt with
    sids := tmod {} phys (fun x => { x with ue := sat 16 (x.ue + 1) }) s.drt.sids
    badLines := addNew (a / 64) s.drt.badLines } }
  if dramFreeze s.vq.active (me s) stack then
    let d := s.drt
    let d := { d with frozen := insAsc (pc / 4) d.frozen }
    let d := if d.frzValid then d else
      { d with
        frzAddr := a, frzPc := pc % 32, frzBank := bank, frzRow := row, frzColumn := column, frzStack := stack
        frzValid := true, frzSynd := BitVec.ofNat 32 (sp + 2 ^ 16 * sq) }
    raise { code := 0x0902, sk := 12, si := stack, addr := a, d0 := sp + 2 ^ 16 * sq } { s with drt := d }
  else if a < tierBytes s then startRetire phys (loseData a s)
  else
    let m := (a - tierBytes s) / 64
    let h := metaCopy s
    let other := if m < h then m + h else m - h
    let s := if s.drt.badLines.contains (tierBytes s / 64 + other) then loseMeta (m % h) s else s
    startRetire phys s

/-- Corrected symbols of the last 24 h (`DRT_SID_s.CE`). -/
def ceCount (t : Ns) (x : Sid) : Nat := ((x.ce.filter fun p => decide (t < p.1 + dayNs)).map (·.2)).sum

/-- Count corrected symbols of a SID; more than 4,096 within 24 h retire it (R218). -/
def countCe (phys n : Nat) (s : State) : State :=
  if n = 0 then s
  else
    let x := tget {} s.drt.sids phys
    let x := { x with ce := (x.ce.filter fun p => decide (now s < p.1 + dayNs)) ++ [(now s, n)] }
    let s := { s with drt := { s.drt with sids := tset phys x s.drt.sids } }
    if 4096 < ceCount (now s) x then startRetire phys s else s

/-- DRAM_UNIT_COMPLETE (R209, R210, R199): the oldest admitted unit of its PC finishes. -/
def execDramUnitComplete (uid : Nat) (errs : List SymErr) (s : State) : Res :=
  match s.drt.admitted.find? (·.uid == uid) with
  | none => .next s
  | some u =>
    if (s.drt.admitted.find? fun x => x.pc == u.pc) != some u then .next s
    else
      let s := { s with drt := { s.drt with admitted := s.drt.admitted.filter (·.uid != uid) } }
      let c := if u.isWrite then (0, []) else checkUnit u errs
      let s := countCe u.sid c.1 s
      let s := c.2.foldl (fun s b =>
        lineLost u.sid u.pc ((u.bank + (u.column + b.1) / 30) % 16) (u.row + (u.bank + (u.column + b.1) / 30) / 16) ((u.column + b.1) % 30)
          (u.addr + 64 * b.1) b.2.1 b.2.2 s) s
      .next (forcedRefresh (unitBank u) s)

/-- DRAM_SCRUB (R215): the scrubber reads a stored line, or a metadata line at the end of the tier space. -/
def execDramScrub (sid addr corrected : Nat) (uncorrectable : Bool) (s : State) : Res :=
  let s := countCe sid corrected s
  if uncorrectable then
    let p := if addr < tierBytes s then placeOf s addr
      else mapMeta s.drt.logical (ilFold (mapImage s) (me s)) ((addr - tierBytes s) / 64)
    .next (lineLost sid (32 * (sid / 4) + p.pc) p.bank p.row p.column (addr / 64 * 64) 0 0 s)
  else .next s

/-- UNFREEZE (R218): a write of `DRT_CTL`. The first copies of the metadata written meanwhile are rewritten, and the
captured line is handled as in RETIRE without retiring its SID. -/
def unfreezeStack (k : Nat) (s : State) : State :=
  if !(s.drt.frozen.any fun c => c / 8 == k) then s
  else
    let s := { s with drt := { s.drt with
      frozen := s.drt.frozen.filter fun c => c / 8 != k
      staleMeta := s.drt.staleMeta.filter fun m =>
        unitPc s.drt (mapMeta s.drt.logical (ilFold (mapImage s) (me s)) m) / 32 != k } }
    if s.drt.frzValid && s.drt.frzStack == k && decide (s.drt.frzAddr < tierBytes s) then loseData s.drt.frzAddr s else s
def execUnfreeze (val : Word) (s : State) : Res :=
  .next (settle ((List.range 8).foldl (fun s k => if val.getLsbD k then unfreezeStack k s else s) s))

/-! ### Data-rate states (R216) -/

/-- The floor of VI6 for a data-rate state, as a `VMAX` code (Table 2.5). -/
def vi6Floor (r : Nat) : Nat :=
  match r with
  | 0 => 90
  | 1 => 70
  | _ => 60

/-- The effective maximum voltage of an island: the lower of the fused `VMAX` and the POWER record (R52, R368). -/
def islandMax (s : State) (i : Nat) : Nat :=
  match powVmax (liveView s) (me s) i with
  | some v => min v (vmaxCode s.fus)
  | none => vmaxCode s.fus

/-- A data-rate state is allowed by the DRAM record and by VI6's effective maximum (R26, R216). -/
def rateAllowed (s : State) (r : Nat) : Bool :=
  decide (r < 3) && bit (dramStates s.vq.active (me s)) r && decide (vi6Floor r ≤ islandMax s 6)

/-- A change of the data rate of all eight stacks (Table 10.4): the admitted units finish, self-refresh clears the
debt, and admission resumes in the new state. -/
def rateChange (r : Nat) (s : State) : State :=
  if !rateAllowed s r || s.drt.rate == r then s
  else { s with drt := { s.drt with rate := r, nextRate := r, switching := false, stack := 0, admitted := [], debt := [] } }

/-- DATA_RATE_CHANGE (R216, R26). -/
def execDataRateChange (target : Nat) (s : State) : Res := .next (rateChange target s)

end Sys2Proof.Machine
end

