-- ==== Sys2Proof/Machine/EventBytes.lean ====
section
/-! DEFINITION. The 64 bytes of an event record (R416, Table 19.4). -/

namespace Sys2Proof.Machine

/-- The first 60 bytes of a record. -/
def eventHead (r : EventRec) : List Byte :=
  leBytes 2 1 ++ leBytes 1 r.cls ++ leBytes 1 r.disp ++ leBytes 2 r.code ++ leBytes 2 (r.unit % 1024) ++ leBytes 8 r.seq
    ++ leBytes 8 r.time ++ leBytes 1 r.tenant ++ leBytes 1 r.scopeKind ++ leBytes 2 r.scopeIdx ++ leBytes 4 r.count
    ++ leBytes 8 r.addr ++ leBytes 8 r.d0 ++ leBytes 8 r.d1 ++ leBytes 4 (b2n r.early + 2 * b2n r.lost)

/-- A record with its CRC-32C. -/
def eventBytes (r : EventRec) : List Byte := eventHead r ++ leBytes 4 (crc32c (eventHead r)).toNat

end Sys2Proof.Machine
end

