-- ==== Sys2Proof/Machine/HostPorts.lean ====
section
/-! DEFINITION. Host links and LDs (chapter 6): training and loss of a link, dynamic capacity, the primary mailbox, SPDM
and IDE, the response watchdog, and LD resets. The return codes are those of the CXL standard (log entry 26). -/

namespace Sys2Proof.Machine

/-- Change a host link. -/
def onLink (l : Nat) (f : Link → Link) (s : State) : State := { s with hst := { s.hst with links := tmod {} l f s.hst.links } }

/-- Change an LD. -/
def onLd (ld : Nat) (f : Ld → Ld) (s : State) : State := { s with hst := { s.hst with lds := tmod {} ld f s.hst.lds } }

/-- The link exists under the split map (R99): the second half of a port only where the port is split. -/
def linkExists (s : State) (l : Nat) : Bool := decide (l < 16) && (l % 2 == 0 || portSplit s.vq.active (me s) (l / 2))

/-- A codec engine that carries the link's stream is in service (R91). -/
def linkServed (s : State) (l : Nat) : Bool := s.cdc.engMap.isEmpty || !(streamEngines s (l + 1)).isEmpty

/-- VI7 stands below its floor for 64 GT/s (Table 2.5): 0.66 V. -/
def vi7Low (s : State) : Bool := decide ((tget ({} : Isl) s.pwr.isl 7).vset < 660)

/-- VI7 can hold the floor of 64 GT/s (R26): its effective maximum is 0.66 V or more. -/
def vi7Allows (s : State) : Bool := decide (80 ≤ islandMax s 7)

/-- VI7 comes to 0.66 V before a link runs at 64 GT/s (R101). -/
def raiseVi7 (s : State) : State :=
  if vi7Low s then { s with pwr := { s.pwr with isl := tmod {} 7 (fun i => { i with vset := 660 }) s.pwr.isl } } else s

/-- VI7 is on: without it no link trains and no port trains (Table 21.1, R380). -/
def vi7On (s : State) : Bool := (tget ({} : Isl) s.pwr.isl 7).on

/-- log2 of the lanes of a link. -/
def widthCode (w : Nat) : Nat := if w < 8 then 2 else if w < 16 then 3 else 4

/-- Why a link cannot train (Table 6.9, `FAIL_CAUSE`). -/
def trainFail (p : LinkPartner) : Nat :=
  if p.width < 4 then 1 else if !p.flit256 then 2 else if !p.cxl then 3 else if !p.equalised || decide (2 < p.rate) then 4 else 0

/-- The host epochs of a link's LDs advance (R136). -/
def linkEpochs (l : Nat) (s : State) : State :=
  (List.range 16).foldl (fun s i => if (ldOf s.hst (16 * l + i)).present then hostEpoch (16 * l + i) s else s) s

/-- A link trains with what it finds at its partner (R98 to R102, R124). -/
def linkUp (link : Nat) (p : LinkPartner) (s : State) : State :=
  if !linkExists s link || !linkServed s link || s.uni.st == .off || s.uni.st == .standby || !vi7On s then s
  else if trainFail p ≠ 0 then
    raise { code := 0x0501, sk := 3, si := link, d0 := trainFail p }
      (onLink link (fun k => { k with st := 4, failCause := trainFail p }) s)
  else
    let back := (linkOf s.hst link).st == 3
    let fast := max p.rate (portMaxRate s.vq.active (me s))
    let rate := if vi7Allows s && !s.pwr.linksLow then fast else max fast 1
    let lanes := min p.width (if portSplit s.vq.active (me s) (link / 2) then 8 else 16)
    let waiting := (linkOf s.hst link).waiting
    let s := if back then linkEpochs link s else s
    let s := onLink link (fun k => { k with
      st := 2, width := widthCode lanes, rate := rate, ideMem := false, ideIo := false, skid := false, insecure := false
      switched := p.switched, failCause := 0, waiting := [], lowered := decide (fast < rate) }) (if rate = 0 then raiseVi7 s else s)
    let s := (List.range 16).foldl (fun s i => onLd (16 * link + i) (fun l => { l with present := p.switched || i == 0 }) s) s
    let absent := (List.range 16).filter fun i => i != 0 && !p.switched && (ldTenant s (16 * link + i)).isSome
    let s := if absent.isEmpty then s
      else raise { code := 0x0507, sk := 3, si := link, d0 := link, d1 := (absent.map fun i => 2 ^ i).sum } s
    let s := (List.range 16).foldl (fun s i => if p.switched ∨ i = 0 then offerAll (16 * link + i) true s else s) s
    waiting.foldl (fun s w => emit (.bisnp w.1 w.2.1 w.2.2) s) s

/-- LINK_UP (R98 to R102, R124). -/
def execLinkUp (link : Nat) (p : LinkPartner) (s : State) : Res := .next (linkUp link p s)

/-- The Back-Invalidates that a link's hosts have not answered, in the order raised: they wait for the link (R123, R124). -/
def unanswered (s : State) (l : Nat) : List (Nat × Nat × Bool) :=
  (s.ext.snoops.flatMap fun n => (n.waiting.filter fun h => h.1 == me s && h.2 / 16 == l).map fun h => (h.2, n.addr, n.data))
    ++ (s.ext.passed.filter fun p => p.ld / 16 == l).map fun p => (p.ld, p.addr, p.data)

/-- Requests of some LDs accepted before a reset or a loss (Table 6.8, R122): writes are still applied, read data and
completions are discarded. -/
def dropResponses (p : Nat → Bool) (h : Hst) : Hst :=
  let mine (r : MemReq) : Bool := p r.ld && r.origin.isNone
  let mute (r : MemReq) : MemReq := if mine r then { r with answered := true } else r
  { h with reqs := (h.reqs.filter fun r => !(mine r && !r.isWrite)).map mute }

/-- A link goes down without warning (R122). -/
def linkDown (link : Nat) (s : State) : State :=
  let k := linkOf s.hst link
  if k.st ≠ 2 ∧ k.st ≠ 5 then s
  else
    let w := unanswered s link
    let s := onLink link (fun k => { k with st := 3, downs := sat 16 (k.downs + 1), ideMem := false, ideIo := false, waiting := w })
      { s with hst := dropResponses (fun ld => ld / 16 == link) s.hst }
    raise { code := 0x0501, sk := 3, si := link, d0 := k.failCause } s

/-- LINK_DOWN (R122). -/
def execLinkDown (link : Nat) (s : State) : Res := .next (linkDown link s)

/-- Every 64 GT/s link goes to 32 GT/s, in ascending order; the reverse first brings VI7 to 0.66 V, and is not run where VI7
cannot hold it (R26, R101). -/
def linkRates (lower : Bool) (s : State) : State :=
  if lower then
    let s := { s with pwr := { s.pwr with linksLow := true } }
    (List.range 16).foldl (fun s l =>
      if (linkOf s.hst l).st == 2 && (linkOf s.hst l).rate == 0 then onLink l (fun k => { k with rate := 1, lowered := true }) s else s) s
  else if !vi7Allows s then s
  else
    let s := raiseVi7 { s with pwr := { s.pwr with linksLow := false } }
    (List.range 16).foldl (fun s l =>
      if (linkOf s.hst l).st == 2 && (linkOf s.hst l).lowered then onLink l (fun k => { k with rate := 0, lowered := false }) s else s) s

/-- LINK_RATE_LOWERING (R101). -/
def execLinkRateLowering (lower : Bool) (s : State) : Res := .next (linkRates lower s)

/-! ### The FM-owned LD (R102) -/

/-- Return codes of the standard: Success, Invalid Input, Unsupported, Invalid Handle, Invalid Physical Address. -/
def rcOk : Nat := 0
def rcInput : Nat := 2
def rcUnsupported : Nat := 3
def rcHandle : Nat := 0x0E
def rcAddress : Nat := 0x0F

/-- The FM-owned LD answers while its link is UP behind a switch. -/
def fmUp (s : State) (link : Nat) : Bool := (linkOf s.hst link).st == 2 && (linkOf s.hst link).switched

/-- GET_LD_INFO (R102): 16 LDs; memory size and QoS as the standard lays out. -/
def execGetLdInfo (link : Nat) (s : State) : Res :=
  .next (if fmUp s link then emit (.fmReply link rcOk (16 :: Config.standardReply 0x5400 [me s, link])) s else s)

/-- GET_LD_ALLOCATIONS (R102): the LDs that the image binds. -/
def execGetLdAllocations (link : Nat) (s : State) : Res :=
  .next (if fmUp s link then
    emit (.fmReply link rcOk ((List.range 16).map fun i => b2n (ldTenant s (16 * link + i)).isSome)) s else s)

/-- SET_LD_ALLOCATIONS (R102): allocations come from the image. -/
def execSetLdAllocations (link : Nat) (s : State) : Res :=
  .next (if fmUp s link then emit (.fmReply link rcUnsupported []) s else s)

/-! ### The primary mailbox (R112) -/

/-- An LD's primary mailbox is served: the LD is visible, its link is UP and has its IDE, and the unit is up (R115, R377). -/
def mailboxUp (s : State) (ld : Nat) : Bool :=
  (ldOf s.hst ld).present && linkUsable (linkOf s.hst (ld / 16)) && ideOk s (ld / 16)
    && s.uni.st != .off && s.uni.st != .standby && s.uni.st != .dormouse

/-- Answer a command of the primary mailbox. -/
def reply (ld code : Nat) (payload : List Nat) (s : State) : State := emit (.mailboxReply ld code payload) s

/-- A command that answers and changes nothing else. -/
def query (ld : Nat) (payload : List Nat) (s : State) : Res := .next (if mailboxUp s ld then reply ld rcOk payload s else s)

/-- ADD_DYNAMIC_CAPACITY_RESPONSE (R105): an extent accepted becomes visible to the LD. -/
def execAddDynamicCapacityResponse (ld ext : Nat) (reader accept : Bool) (s : State) : Res :=
  if !mailboxUp s ld then .next s
  else if !(ldOf s.hst ld).offered.contains (ext, reader) && !(ldOf s.hst ld).accepted.contains (ext, reader) then
    .next (reply ld rcInput [] s)
  else
    .next (reply ld rcOk [] (onLd ld (fun l => { l with
      offered := l.offered.filter (· != (ext, reader))
      accepted := if accept then addNew (ext, reader) l.accepted else l.accepted }) s))

/-- RELEASE_DYNAMIC_CAPACITY (R106). -/
def execReleaseDynamicCapacity (ld ext : Nat) (s : State) : Res :=
  if !mailboxUp s ld then .next s
  else if !(ldOf s.hst ld).accepted.any (·.1 == ext) then .next (reply ld rcInput [] s)
  else .next (reply ld rcOk [] (releaseDone ext (dropFromLd ld ext s)))

/-- RELEASE_TIMEOUT (R106): 60 s after Release Capacity. -/
def execReleaseTimeout (ld ext : Nat) (s : State) : Res :=
  match (ldOf s.hst ld).releasing.find? (·.1 == ext) with
  | none => .next s
  | some r => if now s < r.2.2 then .next s else .next (releaseDone ext (forceRemove ld ext s))

/-- The DPA where a decoder begins: what the decoders before it map, and its own skip (the standard). -/
def hdmDpa (l : Ld) (idx skip : Nat) : Nat :=
  (((List.range idx).map fun i => let h := tget ({} : Hdm) l.hdm i; if h.committed then h.skip + h.size / (max 1 h.ways) else 0).sum) + skip

/-- HDM_DECODER_COMMIT (R108): ways 1, 2, 4, 8, 16, granularity 256 B to 16 KiB, and one region only. -/
def execHdmDecoderCommit (ld idx base size ways gran skip : Nat) (bi : Bool) (s : State) : Res :=
  if 2 ≤ idx ∨ mailboxUp s ld = false then .next s
  else
    let d := hdmDpa (ldOf s.hst ld) idx skip
    let len := size / (max 1 ways)
    let ok := [1, 2, 4, 8, 16].contains ways && [256, 512, 1024, 2048, 4096, 8192, 16384].contains gran
      && (len == 0 || d / 2 ^ 50 == (d + len - 1) / 2 ^ 50)
    .next (onLd ld (fun l => { l with
      hdm := tset idx { base := base, size := size, ways := ways, gran := gran, skip := skip, bi := bi,
                        committed := ok, error := !ok } l.hdm }) s)

/-- HST_LEASE_RENEW (R110): a write of `RENEW` = 1. -/
def execHstLeaseRenew (ld : Nat) (val : Word) (stamp : Ns) (s : State) : Res :=
  match ldTenant s ld with
  | none => .next s
  | some t => .next (if val.getLsbD 0 && barTaken s ld then renew t stamp s else s)

/-- IDENTIFY_MEMORY_DEVICE (R112): no static and no persistent capacity. -/
def execIdentifyMemoryDevice (ld : Nat) (s : State) : Res := query ld ([0, 0] ++ Config.standardReply 0x4000 []) s

/-- GET_SUPPORTED_LOGS (R112): the command effects log and the vendor event log, by their UUIDs. -/
def execGetSupportedLogs (ld : Nat) (s : State) : Res := query ld (Config.standardReply 0x0400 []) s

/-- The records an LD's window holds, oldest first. -/
def windowRecs (l : LdLog) : List (Nat × EventRec) :=
  (List.range ((l.head + 2 ^ 32 - l.tail) % 2 ^ 32)).filterMap fun i =>
    (tfind l.recs ((l.tail + i) % 131072)).map fun r => ((l.tail + i) % 2 ^ 32, r)

/-- GET_LOG (R112). -/
def execGetLog (ld : Nat) (vendor : Bool) (offset len : Nat) (s : State) : Res :=
  let b := if vendor then ((windowRecs (tget {} s.flt.lds ld)).flatMap fun r => eventBytes r.2).map (·.toNat)
    else Config.standardReply 0x0401 []
  query ld (slice b offset len) s

/-- The records of one CXL log (Table 19.5), by their index. -/
def logRecs (l : LdLog) (log : Nat) : List (Nat × EventRec) := (windowRecs l).filter fun r => cxlLog r.2.cls r.2.disp == log

/-- GET_EVENT_RECORDS (R112): logs 0 to 3, and 4 for dynamic capacity. -/
def execGetEventRecords (ld log : Nat) (s : State) : Res :=
  let l := tget ({} : LdLog) s.flt.lds ld
  if log = 4 then query ld (l.dc.flatMap fun e => [e.kind, e.ext, e.dpa, e.len] ++ e.tag.map (·.toNat)) s
  else query ld ((logRecs l log).flatMap fun r => r.1 :: (eventBytes r.2).map (·.toNat)) s

/-- The tail moves past the records that are cleared. -/
def advanceTail : Nat → LdLog → LdLog
  | 0, l => l
  | n + 1, l =>
    if l.tail = l.head ∨ (tfind l.recs (l.tail % 131072)).isSome = true then l
    else advanceTail n { l with tail := (l.tail + 1) % 2 ^ 32 }

/-- Clear records of a window by index. -/
def clearRecs (idx : List Nat) (l : LdLog) : LdLog :=
  advanceTail 131072 { l with recs := l.recs.filter fun p => !(idx.any fun i => i % 131072 == p.1) }

/-- CLEAR_EVENT_RECORDS (R422): a record that is not held is an Invalid Handle, and clears nothing. -/
def execClearEventRecords (ld log : Nat) (all : Bool) (handles : List Nat) (s : State) : Res :=
  if !mailboxUp s ld then .next s
  else
    let l := tget ({} : LdLog) s.flt.lds ld
    let put (l : LdLog) (s : State) : State := { s with flt := { s.flt with lds := tset ld l s.flt.lds } }
    if log = 4 then
      if all then .next (reply ld rcOk [] (put { l with dc := [] } s))
      else if handles.all fun h => decide (h < l.dc.length) then
        .next (reply ld rcOk [] (put { l with dc := ((l.dc.zipIdx.filter fun p => !handles.contains p.2).map (·.1)) } s))
      else .next (reply ld rcHandle [] s)
    else
      let idx := (logRecs l log).map (·.1)
      if all then .next (reply ld rcOk [] (put (clearRecs idx l) s))
      else if handles.all fun h => idx.contains h then .next (reply ld rcOk [] (put (clearRecs handles l) s))
      else .next (reply ld rcHandle [] s)

/-- GET_EVENT_INTERRUPT_POLICY (R111). -/
def execGetEventInterruptPolicy (ld : Nat) (s : State) : Res := query ld (ldOf s.hst ld).evPolicy s

/-- SET_EVENT_INTERRUPT_POLICY (R111): the message numbers of the four event logs and the dynamic capacity log. -/
def execSetEventInterruptPolicy (ld : Nat) (msgs : List Nat) (s : State) : Res :=
  if !mailboxUp s ld then .next s
  else .next (reply ld rcOk [] (onLd ld (fun l => { l with
    evPolicy := (List.range 5).map fun i => (msgs.getD i (l.evPolicy.getD i 1)) % 64 }) s))

/-- GET_HEALTH_INFO (R112): the worst reserve level as a life-used percentage within its band; the place in the band is
left open. -/
def execGetHealthInfo (ld : Nat) (s : State) : Res :=
  let w := ((List.range 12).map fun i => classLevel s (i + 1)).foldl max 0
  let n := Config.number s.free
  let pct := if w = 0 then n % 50 else if w = 1 then 50 + n % 40 else 90 + n % 11
  query ld (pct :: Config.standardReply 0x4200 []) (draw s)

/-- The poisoned lines of an extent that this unit holds: in staging, or in the tier. -/
def poisonedLines (s : State) (e : ExtRec) : List Nat :=
  let inE (a : Nat) : Bool := decide (e.base * gib ≤ a) && decide (a < (e.base + e.size) * gib)
  let lines (b : Nat) (p : BitVec 64) : List Nat := ((List.range 64).filter fun i => p.getLsbD i).map fun i => b * 4096 + 64 * i
  let stg := (s.cdc.stg.filter fun x => x.tenant == e.tenant).flatMap fun x => lines x.block x.poison
  let tier := s.drt.blocks.flatMap fun p =>
    match ownerAt s (p.1 * 4096) with
    | some (x, _, tile) =>
      if x.id = e.id ∧ (stgFind s.cdc e.tenant (tile * 8 + p.1 % 8)).isNone = true then lines (tile * 8 + p.1 % 8) (recPoison p.2) else []
    | none => []
  (stg ++ tier).filter inE

/-- GET_POISON_LIST (R112): the lines of a DPA range, in extents the LD has accepted. -/
def execGetPoisonList (ld dpa len : Nat) (s : State) : Res :=
  let l := (ldOf s.hst ld).accepted.flatMap fun a =>
    match extRec (extView s) a.1 with
    | none => []
    | some e => (poisonedLines s e).map fun x => x + (if e.kind = 1 ∧ a.2 = false then 0 else 2 ^ 50)
  query ld (l.filter fun a => decide (dpa ≤ a) && decide (a < dpa + len)) s

/-- A write that the unit makes for an LD's host at a DPA, as a mailbox command asks. -/
def hostPoke (ld dpa : Nat) (data : List Byte) (poison : Bool) (s : State) : State :=
  hostRequest { id := 0, ld := ld, isWrite := true, tenant := 0, addr := 0, stamp := now s, want := .none,
                be := BitVec.allOnes 64, data := padTo 64 0 data, poison := poison, wait := 0, tag := 0, origin := none,
                answered := true } (dpa / 64 * 64) s

/-- INJECT_POISON (R112): only while `POISON_INJECT` is 1. -/
def execInjectPoison (ld dpa : Nat) (s : State) : Res :=
  if !mailboxUp s ld then .next s
  else if !s.hst.poisonInject then .next (reply ld rcUnsupported [] s)
  else if (acceptedAt s ld dpa).isNone then .next (reply ld rcAddress [] s)
  else .next (reply ld rcOk [] (hostPoke ld dpa [] true s))

/-- CLEAR_POISON (R112): the supplied data are written over the line. -/
def execClearPoison (ld dpa : Nat) (data : List Byte) (s : State) : Res :=
  if !mailboxUp s ld then .next s
  else if !s.hst.poisonInject then .next (reply ld rcUnsupported [] s)
  else if (acceptedAt s ld dpa).isNone then .next (reply ld rcAddress [] s)
  else .next (reply ld rcOk [] (hostPoke ld dpa data false s))

/-- GET_DYNAMIC_CAPACITY_CONFIGURATION (R104): two regions of 2^50 B, blocks of 1 GiB. -/
def execGetDynamicCapacityConfiguration (ld : Nat) (s : State) : Res :=
  query ld [2, gib, 0, 2 ^ 50, 2 ^ 50, 2 ^ 50] s

/-- GET_DYNAMIC_CAPACITY_EXTENT_LIST (R105): the extents accepted; offers not yet made are made. -/
def execGetDynamicCapacityExtentList (ld : Nat) (s : State) : Res :=
  if !mailboxUp s ld then .next s
  else
    let l := (ldOf s.hst ld).accepted.flatMap fun a =>
      match extRec (extView s) a.1 with
      | none => []
      | some e => [offerDpa e a.2, e.size * gib] ++ (offerTag e a.2).map (·.toNat)
    .next (reply ld rcOk l (offerAll ld false s))

/-- GET_TIMESTAMP (R112): Warren time. -/
def execGetTimestamp (ld : Nat) (s : State) : Res := query ld [s.mon.timebase] s

/-- SET_TIMESTAMP (R112): accepted and ignored. -/
def execSetTimestamp (ld : Nat) (_t : Ns) (s : State) : Res := query ld [] s

/-- GET_FW_INFO (R112): the versions of `UNI_VERSION`. -/
def execGetFwInfo (ld : Nat) (s : State) : Res := query ld [s.uni.fwMajor, s.uni.fwMinor, s.uni.fwPatch, s.uni.lib.toNat] s

/-- Any other command (R112). -/
def execUnsupportedMailboxCommand (ld _opcode : Nat) (s : State) : Res :=
  .next (if mailboxUp s ld then reply ld rcUnsupported [] s else s)

/-! ### SPDM and IDE (R113 to R115) -/

/-- The measurements (R113): firmware banks, `VQ_DIGEST` and `FUS_DIGEST`. -/
def measurements (s : State) : List Nat :=
  [s.uni.fwMajor, s.uni.fwMinor, s.uni.fwPatch] ++ (((s.vq.active.map (·.digest)).getD []).map (·.toNat)) ++ [(fuseDigest s.fus).toNat]

/-- SPDM_REQUEST (R113): by the standard's request codes; FINISH 0xE5 opens the session when it verifies, END_SESSION 0xEC
ends it. LD 256 + l is the FM-owned LD of link l (log entry 27). -/
def execSpdmRequest (ld code : Nat) (msg : List Byte) (s : State) : Res :=
  let link := if 256 ≤ ld then ld - 256 else ld / 16
  if !linkUsable (linkOf s.hst link) then .next s
  else
    let body := if code = 0xE0 then measurements s else Config.standardReply (0x10000 + code) (msg.map (·.toNat))
    let s' := emit (.doeReply ld code body) s
    if code = 0xE5 then .next (draw (onLd ld (fun l => { l with spdm := Config.flag s.free }) s'))
    else if code = 0xEC then .next (onLd ld (fun l => { l with spdm := false }) s')
    else .next s'

/-- IDE_KEY_PROGRAMMING (R114): inside a secured session with the link's DOE endpoint. -/
def execIdeKeyProgramming (link : Nat) (mem io : Bool) (skid : Bool) (s : State) : Res :=
  let k := linkOf s.hst link
  let ep := if k.switched then 256 + link else 16 * link
  if !linkUsable k || !(ldOf s.hst ep).spdm then .next s
  else .next (onLink link (fun k => { k with
    ideMem := k.ideMem || mem, ideIo := k.ideIo || io, skid := skid, insecure := k.insecure && !(mem && io) }) s)

/-- IDE_CHECK_FAIL (R115): what fails never arrives, and its stream is insecure. -/
def execIdeCheckFail (link : Nat) (mem : Bool) (s : State) : Res :=
  .next (raise { code := 0x0503, sk := 3, si := link, d0 := b2n (!mem) }
    (onLink link (fun k => { k with insecure := true, ideMem := k.ideMem && !mem, ideIo := k.ideIo && mem }) s))

/-- DEFERRABLE_MEMORY_WRITE (R116, R130): one that no queue takes completes with Unsupported Request. Those that one takes
are rows of their own. -/
def dmwrTaken (s : State) (ld off size : Nat) : Bool :=
  ((off == 0x10000 && size == 16 && (boxOf s.mbx ld).pointer) || (off == 0x10008 && size == 8))
    || (decide (0x100000 ≤ off) && decide (off + size ≤ 0x200000) && (size == 8 || size == 16) && off % size == 0)
def execDeferrableMemoryWrite (ld off size : Nat) (s : State) : Res :=
  .next (if dmwrTaken s ld off size then s else emit (.dmwrUnsupported ld) s)

/-! ### The response watchdog (R119) and resets (R121) -/

/-- 9 ms after the ingress stamp. -/
def watchdogNs : Ns := 9 * msNs

/-- RESPONSE_WATCHDOG (R119, R423, R424): the response goes at once; a write is still applied, but for FAULTED. -/
def execResponseWatchdog (id : Nat) (s : State) : Res :=
  match s.hst.reqs.find? fun r => r.id == id && r.origin.isNone && !r.answered with
  | none => .next s
  | some r =>
    if now s < r.stamp + watchdogNs then .next s
    else
      let fault := s.uni.st == .faulted
      let s' := if r.isWrite then answerWrite r 0 s else answerPoison r s
      let gone := !r.isWrite || fault
      let reqs := if gone then s'.hst.reqs.filter fun q => !(q.id == id && q.origin.isNone && !q.answered)
        else s'.hst.reqs.map fun q => if q.id == id && q.origin.isNone then { q with answered := true } else q
      let s' := onLd r.ld (fun l => { l with wd := sat 16 (l.wd + 1) }) { s' with hst := { s'.hst with reqs := reqs } }
      let t := (ldTenant s r.ld).getD 0
      .next (if fault then raise { code := 0x0010, tenant := t, sk := 1, si := r.ld, addr := r.addr, d0 := 7, d1 := b2n r.isWrite } s'
        else raise { code := 0x0504, tenant := t, sk := 1, si := r.ld, addr := r.addr, d0 := r.stamp } s')

/-- The reset of one LD (Table 6.8). -/
def ldReset (ld : Nat) (s : State) : State :=
  let had := (ldOf s.hst ld).accepted.map (·.1)
  let s := onLd ld (fun l => { l with
    inReset := false, accepted := [], offered := [], releasing := [], hdm := [], vecs := [], pba := 0
    evPolicy := [1, 1, 1, 1, 1], pages := [] }) { s with hst := dropResponses (· == ld) s.hst }
  let s := hostEpoch ld (onBox ld (fun b => { b with
    db := 0, mask := doorbellMask (liveView s) (me s) ld, low := none, ptr := 0 }) s)
  let b := boxOf s.mbx ld
  let s := if (dbBits b &&& ~~~ b.mask) != 0 then sendMsix ld 0 s else s
  offerAll ld true (had.foldl (fun s x => releaseDone x s) s)

/-- FUNCTION_LEVEL_RESET (R121). -/
def execFunctionLevelReset (ld : Nat) (s : State) : Res :=
  .next (if (ldOf s.hst ld).present then ldReset ld s else s)

/-- HOT_RESET (R121): every LD of the link, and its IDE streams and SPDM sessions. -/
def execHotReset (link : Nat) (s : State) : Res :=
  let s := (List.range 16).foldl (fun s i => if (ldOf s.hst (16 * link + i)).present then ldReset (16 * link + i) s else s) s
  let s := (List.range 16).foldl (fun s i => onLd (16 * link + i) (fun l => { l with spdm := false }) s) s
  .next (onLd (256 + link) (fun l => { l with spdm := false })
    (onLink link (fun k => { k with ideMem := false, ideIo := false, insecure := false }) s))

end Sys2Proof.Machine
end

