-- ==== Sys2Proof/Machine/Mailboxes.lean ====
section
/-! DEFINITION. The mailbox rows (chapter 7): sending and receiving from a host, the firmware's requests, full queues,
hardware faults, and the mailbox channel of the Warren. -/

namespace Sys2Proof.Machine

/-- A message of a host in its mailbox's mode (R130). -/
def hostMsg (s : State) (ld : Nat) (val : Word) (stamp : Ns) : MbxMsg :=
  let b := boxOf s.mbx ld
  if b.pointer then { stamp := hostStamp s ld stamp, p0 := b.ptr, p1 := val }
  else { stamp := hostStamp s ld stamp, p0 := val, p1 := 0 }

/-- A posted send (R130, R134, R135): enqueued, dropped with an overrun while the queue is full, or dropped and logged
while the domain is down. -/
def postSend (ld : Nat) (val : Word) (stamp : Ns) (s : State) : State :=
  if mbxDown s then mbxRefused ld 1 (some ld) s
  else
    let m := hostMsg s ld val stamp
    onBoxBell ld (fun b =>
      if b.h2f.length < queueCap then { b with h2f := b.h2f ++ [m], low := none }
      else { b with low := none, ovr := true, overruns := sat 16 (b.overruns + 1), db := b.db ||| 16, spaceOwed := true }) s

/-- A Deferrable Memory Write into the mailbox (R130, R134, R135). -/
def dmwrSend (ld : Nat) (m : MbxMsg) (s : State) : State :=
  if mbxDown s then emit (.dmwrAbort ld) (mbxRefused ld 1 (some ld) s)
  else if (boxOf s.mbx ld).h2f.length < queueCap then
    emit (.dmwrSuccess ld) (onBox ld (fun b => { b with h2f := b.h2f ++ [m] }) s)
  else emit (.dmwrRetry ld) (onBox ld (fun b => { b with spaceOwed := true }) s)

/-- MBX_SEND (R130): an 8-byte write, or the 4-byte write of the upper half with the half that is held. -/
def execMbxSend (ld : Nat) (val : Word) (stamp : Ns) (s : State) : Res :=
  if !ideOk s (ld / 16) then .next s else
  match (boxOf s.mbx ld).low with
  | some l => .next (postSend ld ((val >>> 32) <<< 32 ||| l.setWidth 64) stamp s)
  | none => .next (postSend ld val stamp s)

/-- MBX_SEND_HALF (R130): bits [31:0] are held for the LD. -/
def execMbxSendHalf (ld : Nat) (val : BitVec 32) (s : State) : Res :=
  if !ideOk s (ld / 16) then .next s else
  .next (if mbxDown s then mbxRefused ld 1 (some ld) s else onBox ld (fun b => { b with low := some val }) s)

/-- MBX_DMWR_POINTER (R130): a 16-byte DMWr of a whole notice; Unsupported Request in WORD mode. -/
def execMbxDmwrPointer (ld : Nat) (ptr notice : Word) (stamp : Ns) (s : State) : Res :=
  if !ideOk s (ld / 16) then .next s else
  if (boxOf s.mbx ld).pointer then .next (dmwrSend ld { stamp := hostStamp s ld stamp, p0 := ptr, p1 := notice } s)
  else if mbxDown s then .next (emit (.dmwrAbort ld) (mbxRefused ld 1 (some ld) s))
  else .next (emit (.dmwrUnsupported ld) s)

/-- MBX_DMWR_WORD (R130): an 8-byte DMWr enqueues as an 8-byte write of `MBX_SEND`. -/
def execMbxDmwrWord (ld : Nat) (val : Word) (stamp : Ns) (s : State) : Res :=
  if !ideOk s (ld / 16) then .next s else
  .next (dmwrSend ld (hostMsg s ld val stamp) s)

/-- Remove the head of the F2H queue (R131); held firmware messages move up (R134). -/
def popF2h (ld : Nat) (s : State) : State :=
  onBoxBell ld (fun b => { b with f2h := b.f2h.drop 1 }) s

/-- F2H messages that the firmware holds are enqueued while entries are free (R134). -/
def drainUnsent (ld : Nat) (s : State) : State :=
  onBoxBell ld (fun b =>
    let n := queueCap - b.f2h.length
    { b with f2h := b.f2h ++ b.unsent.take n, unsent := b.unsent.drop n }) s

/-- MBX_RECV_POP (R131). -/
def execMbxRecvPop (ld : Nat) (val : Word) (s : State) : Res :=
  if !ideOk s (ld / 16) then .next s else
  if mbxDown s then .next (mbxRefused ld 1 (some ld) s)
  else .next (if val.getLsbD 0 then popF2h ld s else s)

/-- MBX_DB_CLEAR (R132): bits written 1 are cleared, but for level-held bit 0. -/
def execMbxDbClear (ld : Nat) (val : Word) (s : State) : Res :=
  if !ideOk s (ld / 16) then .next s else
  if mbxDown s then .next (mbxRefused ld 1 (some ld) s)
  else .next (onBox ld (fun b => { b with db := b.db &&& ~~~ (val.setWidth 32) }) s)

/-- Write a doorbell mask: a doorbell bit that it uncovers sends its message (R133). -/
def maskWrite (ld : Nat) (v : BitVec 32) (s : State) : State :=
  let b := boxOf s.mbx ld
  let s' := onBox ld (fun b => { b with mask := v }) s
  if (dbBits b &&& b.mask &&& ~~~ v) != 0 then sendMsix ld 0 s' else s'

/-- A host mailbox takes the mode that the image gives it (R127): a mode that differs empties queues that hold messages (R142). -/
def boxModeStart (ld : Nat) (s : State) : State :=
  let p := mbxPointer s.vq.active (me s) ld
  let b := boxOf s.mbx ld
  if b.pointer == p then s
  else if b.h2f.isEmpty && b.f2h.isEmpty && b.unsent.isEmpty && b.taken.isEmpty then onBox ld (fun b => { b with pointer := p }) s
  else modeChange ld p s

/-- A host mailbox takes the doorbell mask that the image gives it (R133). -/
def boxMaskStart (ld : Nat) (s : State) : State :=
  let m := doorbellMask s.vq.active (me s) ld
  if (boxOf s.mbx ld).mask == m then s else maskWrite ld m s

/-- An internal mailbox takes the mode that the image gives it (R127, R142). -/
def intModeStart (j : Nat) (s : State) : State :=
  let p := mbxIntPointer s.vq.active (me s) j
  let b := intOf s.mbx j
  if b.pointer == p then s
  else if b.inQ.isEmpty && b.outQ.isEmpty then onInt j (fun b => { b with pointer := p }) s
  else intModeChange j p s

/-- The modes and masks that the image gives the mailboxes when it comes into force at a start (R127, R133). -/
def mailboxStart (s : State) : State :=
  let s := (List.range 256).foldl (fun s ld => boxMaskStart ld (boxModeStart ld s)) s
  (List.range 64).foldl (fun s j => intModeStart j s) s

/-- MBX_DB_MASK_WRITE (R133): vector 0 is sent when a mask bit is cleared while its doorbell bit is 1. -/
def execMbxDbMaskWrite (ld : Nat) (val : Word) (s : State) : Res :=
  if !ideOk s (ld / 16) then .next s else
  .next (if mbxDown s then mbxRefused ld 1 (some ld) s else maskWrite ld (val.setWidth 32) s)

/-! ### Firmware requests (R140, R141) -/

/-- The opcode of a host message: bits [63:56] of the payload, or of the notice's length and tag. -/
def msgOp (pointer : Bool) (m : MbxMsg) : Nat := bits (if pointer then m.p1 else m.p0).toNat 63 56

/-- Status and result of a request (Table 7.7). An argument other than the 0 of the table is a BAD_ARG (log entry 25). -/
def fwAnswer (s : State) (ld op arg : Nat) : Nat × Nat :=
  let t := ldTenant s ld
  match op with
  | 1 => (0, arg % 2 ^ 40)
  | 2 =>
    if arg ≠ 0 then (2, 0)
    else match t with
      | none => (3, 0)
      | some t =>
        let l := leaseOf s t
        let left := if l.granted && decide (now s < l.expiry) then (l.expiry - now s) / msNs else 0
        (0, tenHome s.vq.active t + left % 2 ^ 24 * 2 ^ 16)
  | 3 =>
    let x := arg % 2 ^ 16
    match extRec (extView s) x, t with
    | some e, some t =>
      if e.tenant = t ∨ ((extSt s x).st = 3 ∧ bit e.readers t = true) then (0, (extSt s x).st) else (3, 0)
    | _, _ => (3, 0)
  | 4 => if arg ≠ 0 then (2, 0) else (0, ((List.range 12).map fun i => classLevel s (i + 1) % 4 * 2 ^ (2 * i)).sum)
  | 5 => if arg ≠ 0 then (2, 0) else (0, ((s.vq.active.map (·.gen)).getD 0) % 2 ^ 40)
  | _ => (1, 0)

/-- The reply to a WORD request (R140). -/
def wordReply (s : State) (core : Nat) (p op : Nat) (a : Nat × Nat) : MbxMsg :=
  { stamp := fwStamp s core
    p0 := BitVec.ofNat 64 ((op + 0x80) % 256 * 2 ^ 56 + bits p 55 48 * 2 ^ 48 + a.1 * 2 ^ 40 + a.2 % 2 ^ 40)
    p1 := 0 }

/-- The reply to a POINTER notice (R141). -/
def pointerReply (s : State) (core : Nat) (m : MbxMsg) (op status : Nat) : MbxMsg :=
  { stamp := fwStamp s core
    p0 := m.p0
    p1 := BitVec.ofNat 64 (bits m.p1.toNat 31 0 + ((op + 0x80) % 256 * 2 ^ 24 + status * 2 ^ 16 + bits m.p1.toNat 47 32) * 2 ^ 32) }

/-- The block of a notice may be followed (R141): its length and alignment, and one extent of the sender's tenant that
takes writes, and that this LD has accepted as its tenant's own. -/
def blockOk (s : State) (ld : Nat) (m : MbxMsg) : Bool :=
  let a := m.p0.toNat
  let n := bits m.p1.toNat 31 0
  match ldTenant s ld with
  | none => false
  | some t =>
    match extAt (extView s) t a with
    | none => false
    | some (e, _) =>
      decide (16 ≤ n) && decide (n ≤ 2 ^ 20) && decide (a % 64 = 0) && decide (a + n ≤ (e.base + e.size) * gib)
        && (ldOf s.hst ld).accepted.contains (e.id, false) && writeOk s e.id (now s) false

/-- A request of the ended epoch is discarded and counted (R139). -/
def discardHead (ld : Nat) (s : State) : State :=
  onBoxBell ld (fun b => let b := freeH2f b; { b with discarded := sat 16 (b.discarded + 1), db := b.db ||| 4 }) s

/-- Finish a POINTER request whose block is at hand: the result goes into bytes 8 to 15, and the notice is answered. -/
def pointerFinish (ld core : Nat) (m : MbxMsg) (op : Nat) (s : State) : State :=
  match ldTenant s ld with
  | none => s
  | some t =>
    let r := agentRead t m.p0.toNat 8 s
    let a := fwAnswer r.1 ld op (fld r.2.1 0 8 % 2 ^ 48)
    let s := onBox ld (fun b => { b with taken := b.taken.filter (· != m) }) r.1
    fwSend ld (pointerReply s core m op a.1) (agentWrite t (m.p0.toNat + 8) 0x20 (leBytes 8 a.2) s).1

/-- A POINTER request goes on: at once when its block is at hand, else the block is brought and the request stays taken. -/
def pointerGo (ld core : Nat) (m : MbxMsg) (op : Nat) (s : State) : State :=
  let t := (ldTenant s ld).getD 0
  let s := bringRange t m.p0.toNat 8 false (bringRange t m.p0.toNat 16 true s)
  if rangeReady s t m.p0.toNat 16 true && rangeReady s t m.p0.toNat 8 false then pointerFinish ld core m op s
  else onBox ld (fun b => { b with taken := addNew m b.taken }) s

/-- The firmware can take host messages: no restart runs, the domain is up, and fewer than 16 messages are unsent (R134). -/
def fwTakes (s : State) (ld : Nat) : Bool :=
  !s.uni.restarting && !mbxDown s && decide ((boxOf s.mbx ld).unsent.length < queueCap)

/-- The firmware on core `core` takes a request of an LD whose opcode satisfies `p` (R139 to R141). -/
def fwRequest (p : Nat → Bool) (ld core : Nat) (s : State) : State :=
  let b := boxOf s.mbx ld
  if !fwTakes s ld then s
  else match b.taken.find? fun m => p (msgOp true m) with
    | some m => pointerGo ld core m (msgOp true m) s
    | none =>
      match b.h2f with
      | [] => s
      | m :: _ =>
        let op := msgOp b.pointer m
        if !p op then s
        else if stampEpoch m.stamp ≠ b.epoch then discardHead ld s
        else
          let s := onBoxBell ld freeH2f s
          if b.pointer then
            if blockOk s ld m then pointerGo ld core m op s
            else fwSend ld (pointerReply s core m op 2) s
          else fwSend ld (wordReply s core m.p0.toNat op (fwAnswer s ld op (m.p0.toNat % 2 ^ 48))) s

/-- PING (R140). -/
def execPing (ld core : Nat) (s : State) : Res := .next (fwRequest (· == 1) ld core s)
/-- LEASE_INFO (R140). -/
def execLeaseInfo (ld core : Nat) (s : State) : Res := .next (fwRequest (· == 2) ld core s)
/-- EXTENT_STATE (R140). -/
def execExtentState (ld core : Nat) (s : State) : Res := .next (fwRequest (· == 3) ld core s)
/-- RESERVE (R140). -/
def execReserveLevels (ld core : Nat) (s : State) : Res := .next (fwRequest (· == 4) ld core s)
/-- IMAGE (R140). -/
def execImageReq (ld core : Nat) (s : State) : Res := .next (fwRequest (· == 5) ld core s)
/-- Any other opcode is answered with UNKNOWN_OP (R140). -/
def execUnknownOp (ld core : Nat) (s : State) : Res :=
  .next (fwRequest (fun op => op == 0 || decide (5 < op)) ld core s)

/-- F2H_DEFERRED_ENQUEUE (R134). -/
def execF2hDeferredEnqueue (ld : Nat) (s : State) : Res := .next (drainUnsent ld s)

/-- MAILBOX_FAULT (R144): the queue whose hardware faults is emptied and its messages are counted as discarded. -/
def execMailboxFault (ld : Nat) (internal h2f : Bool) (s : State) : Res :=
  if internal then
    .next (intBells ld [2] (onInt ld (fun b => if h2f then { b with inQ := [] } else { b with outQ := [] }) s))
  else
    .next (onBoxBell ld (fun b =>
      if h2f then { b with h2f := [], discarded := sat 16 (b.discarded + b.h2f.length), db := b.db ||| 4 }
      else { b with f2h := [], repliesDiscarded := sat 16 (b.repliesDiscarded + b.f2h.length), db := b.db ||| 4 }) s)

/-! ### The mailbox channel (R134, R135) -/

/-- The internal mailbox of a peer unit (Table 7.1). -/
def peerBox (u : Nat) : Nat := 16 + u % 48

/-- A peer's message is put into its internal mailbox, whose agent is interrupted (R133). -/
def intEnqueue (j : Nat) (m : MbxMsg) (s : State) : State :=
  emit (.coreInterrupt j 0) (onInt j (fun b => { b with inQ := b.inQ ++ [m], epoch := stampEpoch m.stamp }) s)

/-- MBX (R134, R135): answered OK, FULL, ABSENT, or REFUSED where its fields fail (R269, R270). -/
def execMbx (src tag box : Nat) (pointer : Bool) (stampWord : Word) (p0 p1 : Word) (s : State) : Res :=
  let j := peerBox src
  .next (peerRequest src tag 0 (box == j && pointer == (intOf s.mbx j).pointer) (unitServesOrHeld s)
    (.mbxAns 3) (.mbxAns 2)
    (fun s =>
      if (intOf s.mbx j).inQ.length < queueCap then
        respond src tag 0 (.mbxAns 0) (intEnqueue j { stamp := stampWord, p0 := p0, p1 := if pointer then p1 else 0 } s)
      else respond src tag 0 (.mbxAns 4) s) s)

/-- The firmware sends a message to a peer unit's firmware; it is refused ABSENT for a peer that is down (R135). -/
def mbxToPeer (u core : Nat) (p0 p1 : Word) (s : State) : State :=
  let j := peerBox u
  if !unreachable s u && (match tfind s.wrn.peerState u with
      | some st => st == 3 || st == 4 || st == 5
      | none => true) then
    let w : Word := Sys2Proof.Machine.stampWord (me s + core * 2 ^ 10) s.mbx.fwEpoch 2 (now s)
    let tag := s.wrn.nextTag
    sendReq u 0 (.mbx (peerBox (me s)) (intOf s.mbx j).pointer w p0 p1)
      (onInt j (fun b => { b with outQ := b.outQ ++ [{ stamp := w, p0 := p0, p1 := p1 }], sent := some tag }) s)
  else mbxRefused (256 + j) 3 none (onInt j (fun b => { b with absent := sat 16 (b.absent + 1) }) s)

/-- MBX_ANS (R134, R269): OK releases the message the sender held, FULL keeps it for a later send, ABSENT and REFUSED
end it. -/
def execMbxAns (src tag status : Nat) (s : State) : Res :=
  let j := peerBox src
  .next (peerResponse src tag 0x1A (status == 0 || status == 2 || status == 3 || status == 4) (fun o s =>
    match o.env.msg with
    | .mbx _ _ _ _ _ =>
      let s := dropReq tag s
      let b := intOf s.mbx j
      if b.sent ≠ some tag then s
      else if status = 0 then onInt j (fun b => { b with outQ := b.outQ.drop 1, sent := none }) s
      else if status = 4 then onInt j (fun b => { b with sent := none, full := sat 16 (b.full + 1) }) s
      else mbxRefused (256 + j) 3 none
        (onInt j (fun b => { b with outQ := b.outQ.drop 1, sent := none, absent := sat 16 (b.absent + 1) }) s)
    | _ => s) s)

end Sys2Proof.Machine
end

