-- ==== Sys2Proof/Machine/Hoard.lean ====
section
/-! DEFINITION. The rows of the Hoard (chapter 11): chunk messages, commits and checkpoints, compaction and reclaim,
wear and scrub, and the life of a Drey in its bay. -/

namespace Sys2Proof.Machine

/-! ### Chunk messages (R234, R238, R239) -/

/-- Chunks are served: SERVING, DRAINING or HELD, and in STARTING once this unit's Dreys are MOUNTED in phase 8 (R444). -/
def chunksServed (s : State) : Bool :=
  unitServesOrHeld s || (s.uni.st == .starting && decide (8 ≤ s.uni.phase) && !(mountedBays s.hrd).isEmpty)

/-- CHUNK_GET (R239): a holder answers with the range, or LOST. -/
def execChunkGet (src tag stripe chunk offset len : Nat) (s : State) : Res :=
  let ok := offset % 32 == 0 && len % 32 == 0 && decide (32 ≤ len) && decide (offset + len ≤ chunkBytes) && decide (chunk < 20)
  .next (peerRequest src tag 0 ok (chunksServed s) (.chunkData 3 []) (.chunkData 2 [])
    (fun s => match findChunk s.hrd stripe chunk with
      | some (b, c) => respond src tag 0 (.chunkData 0 (slice c.bytes offset len)) (pageRead b s)
      | none => respond src tag 0 (.chunkData 5 []) s) s)

/-- The fill that a chunk request serves goes on. -/
def goOnFill (q : ChunkReq) (s : State) : State :=
  match extAt (extView s) q.tenant (q.tile * 32768), dirFind s.hrd q.tenant q.tile with
  | some (e, g), some d => wake (tryFill e g d 8 s)
  | _, _ => s

/-- A chunk request is over. -/
def dropGet (tag : Nat) (s : State) : State :=
  { s with hrd := { s.hrd with gets := s.hrd.gets.filter (·.tag != tag) } }

/-- CHUNK_DATA (R238, R239): the bytes of a chunk for a fill, or a chunk that its holder has lost. -/
def execChunkData (src tag status : Nat) (bytes : List Byte) (s : State) : Res :=
  .next (peerResponse src tag 0x08 (decide (status < 6)) (fun _ s =>
    let s := dropReq tag s
    match s.hrd.gets.find? (·.tag == tag) with
    | none => s
    | some q =>
      let s := dropGet tag s
      if status = 0 ∧ bytes.length = q.len then
        goOnFill q (gather { stripe := q.stripe, chunk := q.chunk, tenant := q.tenant, tile := q.tile,
                             full := q.offset == 0 && q.len == chunkBytes, rebuilt := false,
                             bytes := List.replicate q.offset 0 ++ bytes }
          { s with hrd := { s.hrd with lost := s.hrd.lost.filter (· != (q.stripe, q.chunk)) } })
      else
        goOnFill q (if status = 5 then { s with hrd := { s.hrd with lost := addNew (q.stripe, q.chunk) s.hrd.lost } } else s)) s)

/-- CHUNK_PUT (R234 step 3, R235): a holder stores a chunk, or releases it for length 0, and acknowledges. -/
def execChunkPut (src tag stripe chunk k m kind : Nat) (crc : BitVec 32) (bytes : List Byte) (s : State) : Res :=
  let ok := decide (chunk < 20) && (bytes.isEmpty || bytes.length == chunkBytes) && decide (kind < 3)
  .next (peerRequest src tag 0 ok (chunksServed s) (.chunkAck 3) (.chunkAck 2)
    (fun s =>
      if bytes.isEmpty then respond src tag 0 (.chunkAck 0) (releaseChunk stripe chunk s)
      else
        let p := storeChunk stripe chunk k m kind crc bytes (releaseChunk stripe chunk s)
        respond src tag 0 (.chunkAck (if p.2 then 0 else 3)) p.1) s)

/-- Place a chunk of a committing stripe elsewhere (R234, R250): its holder is silent or cannot take it. -/
def placeElsewhere (stripe chunk : Nat) (s : State) : State :=
  match tfind s.hrd.stripes stripe with
  | none => s
  | some r =>
    if r.st ≠ 1 ∨ r.acked.contains chunk = true then s
    else match nextHolder s r (r.holders.getD chunk (me s)) with
      | none => s
      | some u => sendChunk stripe chunk u s

/-- The stripes of the checkpoint have all committed: its root record goes to every holder of them (R228). -/
def checkpointDone (s : State) : State :=
  match s.hrd.checkpoint with
  | none => s
  | some (ids, seq) =>
    if ids.all fun i => match tfind s.hrd.stripes i with
        | some r => r.st == 2
        | none => true then
      let root : RootRec := { writer := me s, stripes := ids, lastSeq := seq }
      let hs := (ids.flatMap fun i => ((tfind s.hrd.stripes i).map (·.holders)).getD []).eraseDups
      let s := { s with hrd := { s.hrd with checkpoint := none, roots := tset (me s) root s.hrd.roots } }
      sendAll hs 0 (.root root) s
    else s

/-- CHUNK_ACK (R234 step 4). -/
def execChunkAck (src tag status : Nat) (s : State) : Res :=
  .next (peerResponse src tag 0x0A (decide (status < 4)) (fun o s =>
    let s := dropReq tag s
    match o.env.msg with
    | .chunkPut stripe chunk _ _ _ bytes =>
      if bytes.isEmpty then s
      else if status = 0 then checkpointDone (settle (ackChunk stripe chunk s))
      else checkpointDone (settle (placeElsewhere stripe chunk s))
    | _ => s) s)

/-- CHUNK_ACK_TIMEOUT (R234): a holder silent for 1 s. -/
def execChunkAckTimeout (stripe chunk : Nat) (s : State) : Res :=
  let hit (o : Outst) : Bool := match o.env.msg with
    | .chunkPut i c _ _ _ b => i == stripe && c == chunk && !b.isEmpty && decide (o.sentAt + secNs ≤ now s)
    | _ => false
  match s.wrn.reqs.find? hit with
  | none => .next s
  | some o => .next (checkpointDone (settle (placeElsewhere stripe chunk (dropReq o.tag s))))

/-- CHUNK_GET_TIMEOUT (R239): a holder silent for 500 µs. -/
def execChunkGetTimeout (tag : Nat) (s : State) : Res :=
  match s.hrd.gets.find? (·.tag == tag) with
  | none => .next s
  | some q => if now s < q.sent + 500000 then .next s else .next (goOnFill q (dropGet tag s))

/-! ### Commits, checkpoints and compaction -/

/-- COMMIT_TIMER (R233): 30 s after the first write since the last commit. -/
def execCommitTimer (tenant tile : Nat) (s : State) : Res :=
  match s.hrd.firstWrite.find? fun w => w.1 == tenant && w.2.1 == tile with
  | none => .next s
  | some w => if now s < w.2.2 + 30 * secNs then .next s else .next (settle (commitTile tenant tile s))

/-- A tile directory entry (R227), 16 B. -/
def dirBytes (d : Option DirEntry) : List Byte :=
  match d with
  | none => List.replicate 16 0
  | some e => leBytes 8 e.stripe ++ leBytes 4 e.offset ++ leBytes 2 e.len ++ leBytes 2 (1 + 2 * b2n e.zero)

/-- A directory page: 1,024 entries. -/
def dirPage (h : Hrd) (tenant page : Nat) : List Byte :=
  (List.range 1024).flatMap fun i => dirBytes (dirFind h tenant (page * 1024 + i))

/-- CHECKPOINT (R228): the changed directory pages are committed, and the root records follow. -/
def checkpointNow (s : State) : State :=
  if s.hrd.checkpoint.isSome || !(hoardUnits s.vq.active).contains (me s) || s.hrd.dirtyPages.isEmpty then
    { s with hrd := { s.hrd with checkpointAt := now s } }
  else
    let p := s.hrd.dirtyPages.foldl (fun (p : State × List Nat) q =>
      let r := stripeFor 0 2 chunkBytes p.1
      (appendStripe r.2 (dirPage p.1.hrd q.1 q.2) none r.1, addNew r.2 p.2)) (s, [])
    let s := { p.1 with hrd := { p.1.hrd with dirtyPages := [], checkpointAt := now s, checkpoint := some (p.2, s.hrd.seq) } }
    checkpointDone (p.2.foldl (fun s i => closeStripe i s) s)

/-- Every 60 s (R228). -/
def execCheckpoint (s : State) : Res :=
  if now s < s.hrd.checkpointAt + 60 * secNs then .next s else .next (checkpointNow s)

/-- COMPACTION (R235, R360): the live tiles of a stripe whose live bytes fill less than half its data area, or that has the
k and m its code had before an update, are packed again. -/
def execCompaction (stripe : Nat) (s : State) : Res :=
  match tfind s.hrd.stripes stripe with
  | none => .next s
  | some r =>
    if r.st = 2 ∧ r.kind = 0 ∧ (2 * liveBytes s.hrd stripe < r.k * chunkBytes ∨ oldStripe s r = true) then
      .next ((liveTiles s.hrd stripe).foldl (fun s d => repackTile d.tenant d.tile s) s)
    else .next s

/-- Move the chunks of an erase block that are live to other blocks of their die, and erase it (R236, R242). -/
def moveBlock (die block : Nat) (y : Bay) : Bay :=
  let live := y.chunks.filter fun c => c.die == die && c.block == block
  let y := { y with chunks := y.chunks.filter fun c => !(c.die == die && c.block == block) }
  let y := live.foldl (fun y c => programPage y die (some block) c) y
  { y with
    erased := tinc die 1 y.erased
    blocks := y.blocks.map fun f =>
      if f.die == die && f.block == block then { f with erases := f.erases + 1, age := 0, written := 0 } else f }

/-- Live pages of an erase block. -/
def livePages (y : Bay) (f : FlashBlock) : Nat := (y.chunks.filter fun c => c.die == f.die && c.block == f.block).length

/-- The block a reclaim takes (R236): fewest live pages, then more erases, then the lower number. -/
def reclaimPick (y : Bay) (die : Nat) : Option FlashBlock :=
  ((dieBlocks y die).filter fun f => decide (0 < f.written)).foldl (fun b f => match b with
    | none => some f
    | some g =>
      if livePages y f < livePages y g ∨ (livePages y f = livePages y g ∧
        (g.erases < f.erases ∨ (g.erases = f.erases ∧ f.block < g.block))) then some f else some g) none

/-- FLASH_RECLAIM (R236): with fewer than 2 % of a die's 4,096 erase blocks free. -/
def execFlashReclaim (bay die : Nat) (s : State) : Res :=
  let y := bayOf s.hrd bay
  let free := 4096 - ((dieBlocks y die).filter fun f => decide (0 < f.written)).length
  if 100 * free < 2 * 4096 then
    match reclaimPick y die with
    | none => .next s
    | some f => .next (onBay bay (moveBlock die f.block) s)
  else .next s

/-! ### Wear, scrub and retention (R241 to R243) -/

/-- RETENTION_REFRESH (R242): blocks at 0.85 of the horizon have their live pages moved. -/
def retentionRefresh (days : Nat) (y : Bay) : Bay :=
  (y.blocks.filter fun f => decide (0 < f.written) && decide (85 * days * 24 * 10000 ≤ f.age)).foldl
    (fun y f => moveBlock f.die f.block y) y

/-- One term of the exponential series in units of 10^-12: the sum so far, the last term, its number. -/
def expTerm (y : Int) (p : Int × Int × Int) : Int × Int × Int :=
  let t := p.2.1 * y / (10 ^ 12 * p.2.2)
  (p.1 + t, t, p.2.2 + 1)

/-- The exponential of a number in units of 10^-12, in the same units: the series at 1/256 of it, squared eight times. -/
def expFix (x : Int) : Int :=
  let e := (Nat.repeat (expTerm (x / 256)) 10 (10 ^ 12, 10 ^ 12, 1)).1
  Nat.repeat (fun z => z * z / 10 ^ 12) 8 e

/-- The aging factor AF(T) in 10^-6 (R241): exp(12,765 K × (1/T_ref - 1/T)), T_ref in °C and T in 1/64 °C. Rounding down to 10^-6
is the model's (log entry 3). -/
def agingFactor (tref : Nat) (t : Int) : Nat :=
  let a : Int := 6400 * tref + 1748160
  let b : Int := 100 * t + 1748160
  if b = a then 1000000 else if b ≤ 0 then 0 else (expFix (81696000 * (b - a) * 10 ^ 12 / (a * b)) / 10 ^ 6).toNat

/-- WEIGHTED_AGE_TICK (R241): an hour of calendar time at a Drey's mean temperature. -/
def execWeightedAgeTick (bay : Nat) (meanTemp : BitVec 16) (s : State) : Res :=
  let tr := hoardTref s.vq.active
  let af := agingFactor tr meanTemp.toInt
  .next (onBay bay (fun y =>
    retentionRefresh (hoardRetain s.vq.active) { y with
      temp := meanTemp
      blocks := y.blocks.map fun f => if 0 < f.written then { f with age := f.age + af } else f }) s)

/-- HOARD_SCRUB (R242): a live page is read; a weak one is moved, a failing one is damaged. -/
def execHoardScrub (bay stripe chunk : Nat) (weak fails : Bool) (s : State) : Res :=
  let y := bayOf s.hrd bay
  match y.chunks.find? fun c => c.stripe == stripe && c.idx == chunk with
  | none => .next s
  | some c =>
    let s := { s with hrd := { s.hrd with
      scrubbed := s.hrd.scrubbed.filter (fun x => !(x.1 == bay && x.2.1 == stripe && x.2.2.1 == chunk)) ++ [(bay, stripe, chunk, now s)] } }
    let s := pageRead bay s
    if fails then .next (checkLevels [12] (markDamaged stripe chunk s))
    else if weak then
      .next (onBay bay (fun y => programPage { y with chunks := y.chunks.filter fun x => !(x.stripe == stripe && x.idx == chunk) } c.die none c) s)
    else .next s

/-! ### Dreys -/

/-- Append an event to the Drey history (R394): 1 insertion, 2 mount, 3 requested removal, 4 forced removal,
5 adoption, 6 failure, 7 evacuation (log entry 22). -/
def dreyEvent (bay code : Nat) (s : State) : State :=
  { s with lif := { s.lif with
      dreyHist := ({ time := s.lif.cal, bay := bay, code := code, serial := ((bayOf s.hrd bay).drey.map (·.serial)).getD 0 }
        :: s.lif.dreyHist).take 4096 } }

/-- Working dies of a Drey: 132 less those that failed. -/
def diesOk (d : DreyId) : Nat := 132 - (((d.failedDies.map (·.1)).eraseDups).length + d.failedSpares.length)

/-- The owner field this die writes (Table 11.2). -/
def ownerTag (f : Fus) : BitVec 128 :=
  BitVec.ofNat 128 (leNat ((sha384 (leBytes 8 (dieLo f).toNat ++ leBytes 8 (dieHi f).toNat)).take 16))

/-- The entry of a Drey in the list of known Dreys. -/
def knownOf (h : Hrd) (serial : BitVec 128) : Option Known := h.known.find? (·.serial == serial)

/-- Advance the membership sequence of a Drey (R246), in the list and in its record if it is present. -/
def advanceMember (serial : BitVec 128) (s : State) : State :=
  { s with hrd := { s.hrd with
      known := s.hrd.known.map fun k => if k.serial == serial then { k with membership := k.membership + 1 } else k
      bays := s.hrd.bays.map fun (b, y) => (b, { y with
        drey := y.drey.map fun d => if d.serial == serial then { d with membership := d.membership + 1 } else d }) } }

/-- A Drey leaves service: its chunks are lost (R247, R250, R251). -/
def loseChunks (bay : Nat) (due : Option Ns) (y : Bay) (s : State) : State :=
  let l := y.chunks.map (lostOf (me s) bay y false)
  let y := { y with chunks := [], lastSerial := (y.drey.map (·.serial)).getD y.lastSerial }
  match due with
  | none => { s with hrd := addLost l { s.hrd with bays := tset bay y s.hrd.bays } }
  | some t => { s with hrd := { s.hrd with bays := tset bay { y with lostChunks := y.lostChunks ++ l, rebuildDue := some t } s.hrd.bays } }

/-- A Drey goes to FAILED (Table 5.7): its chunks are lost and their rebuild starts at once. -/
def failDrey (bay : Nat) (s : State) : State :=
  let y := bayOf s.hrd bay
  let n := (y.drey.map diesOk).getD 0
  let s := loseChunks bay none { y with st := 9, diesOk := n } s
  checkLevels [11, 12] (dreyEvent bay 6 (raise { code := 0x0A05, sk := 5, si := bay, d0 := bay, d1 := n } s))

/-- FLASH_DIE_FAILURE (R223): a spare die takes the logical place of a failed die, or the Drey goes to FAILED. -/
def execFlashDieFailure (bay die : Nat) (s : State) : Res :=
  let y := bayOf s.hrd bay
  match y.drey with
  | none => .next s
  | some d =>
    let cur := physDie d die
    let d := if 128 ≤ cur then { d with failedSpares := addNew cur d.failedSpares } else d
    let sp := (freeSpares d).head?
    let d := { d with failedDies := d.failedDies ++ [(die, sp)] }
    let y := { y with drey := some d, diesOk := diesOk d }
    let s := fieldEntry { cls := 11, grp := bay, elt := die } 9 { s with hrd := { s.hrd with bays := tset bay y s.hrd.bays } }
    match sp with
    | none => .next (failDrey bay s)
    | some _ =>
      let l := (y.chunks.filter (·.die == die)).map (lostOf (me s) bay y true)
      .next (checkLevels [11, 12] { s with hrd := addLost l { s.hrd with
        bays := tset bay { y with
          chunks := y.chunks.filter (·.die != die)
          blocks := y.blocks.filter (·.die != die) } s.hrd.bays } })

/-- A chunk that awaited rebuild stands somewhere: its writer's record and the margins follow (R250). -/
def rebuildOver (x : LostChunk) (holder : Nat) (s : State) : State :=
  checkLevels [12] { s with hrd := { s.hrd with
    rebuild := s.hrd.rebuild.filter (· != x)
    lost := s.hrd.lost.filter (· != (x.stripe, x.idx))
    stripes := match tfind s.hrd.stripes x.stripe with
      | some r => tset x.stripe { r with holders := r.holders.set x.idx holder } s.hrd.stripes
      | none => s.hrd.stripes } }

/-- The check of a stripe's packed records when a data chunk of it is rebuilt (R442). -/
def rebuildCheck (x : LostChunk) (got : List (Nat × List Byte)) (s : State) : State :=
  if x.kind ≠ 0 then s
  else
    let area := (List.range x.k).flatMap fun i => (rsRebuild chunkBytes x.k x.m i got).getD []
    match (walkArea area (x.k * chunkBytes) 0 none 0 []).2 with
    | none => s
    | some reason => raise { code := 0x0A09, d0 := reason, d1 := x.stripe } s

/-- CHUNK_REBUILD (R250): a lost chunk is rebuilt from k others, in place, onto another Drey here, or onto the next
unit in cyclic order that holds no chunk of the stripe. -/
def execChunkRebuild (stripe chunk : Nat) (gathered : List (Nat × List Byte)) (s : State) : Res :=
  match s.hrd.rebuild.find? fun x => x.stripe == stripe && x.idx == chunk with
  | none => .next s
  | some x =>
    let got := gathered.filter (·.1 != chunk)
    match rsRebuild chunkBytes x.k x.m chunk got with
    | none => .next s
    | some bytes =>
      let s := rebuildCheck x got s
      let ch : Chunk := { stripe := stripe, idx := chunk, k := x.k, m := x.m, kind := x.kind, crc := crc32c bytes, bytes := bytes,
                          die := x.die, block := 0, page := 0, damaged := false }
      match x.bay with
      | some b =>
        .next (rebuildOver x (me s) (onBay b (fun y => programPage { y with
          chunks := y.chunks.filter fun z => !(z.stripe == stripe && z.idx == chunk) } x.die none ch) s))
      | none =>
        let p := if x.unit = me s ∧ s.uni.st = .serving then storeChunk stripe chunk x.k x.m x.kind (crc32c bytes) bytes s else (s, false)
        if p.2 then .next (advanceMember x.serial (rebuildOver x (me s) p.1))
        else
          let r : Stripe := (tfind s.hrd.stripes stripe).getD
            { code := 0, k := x.k, m := x.m, st := 2, data := [], tiles := [],
              holders := (List.range (x.k + x.m)).map fun c => holderNow s stripe c, acked := [], kind := x.kind, started := 0 }
          match nextHolder s r x.unit with
          | none => .next s
          | some u =>
            if u = me s then
              let p := storeChunk stripe chunk x.k x.m x.kind (crc32c bytes) bytes s
              .next (if p.2 then advanceMember x.serial (rebuildOver x u p.1) else s)
            else
              .next (advanceMember x.serial (rebuildOver x u (sendReq u 0 (.chunkPut stripe chunk x.k x.m x.kind bytes) s)))

/-- A Drey with the serial is in a bay of this unit, mounted or being mounted. -/
def dreyBack (h : Hrd) (serial : BitVec 128) : Bool :=
  h.bays.any fun p => (p.2.st == 2 || p.2.st == 3) && (match p.2.drey with
    | some d => d.serial == serial
    | none => false)

/-- Another holding unit is gone: the chunks of this unit's stripes that it held await rebuild (R250). -/
def unitLost (unit : Nat) (s : State) : State :=
  let l := s.hrd.stripes.flatMap fun p =>
    if p.2.st = 2 then
      ((List.range (p.2.k + p.2.m)).filter fun c => p.2.holders.getD c 0 == unit).map fun c =>
        ({ stripe := p.1, idx := c, k := p.2.k, m := p.2.m, kind := if c < p.2.k then p.2.kind else 1, crc := 0,
           unit := unit, serial := 0, die := 0, bay := none } : LostChunk)
    else []
  checkLevels [12] { s with hrd := addLost l s.hrd }

/-- REBUILD_DELAY_EXPIRED (R250): 10 min after a removal from a bay of this unit, or after another holding unit fell
silent, the rebuild of the chunks lost starts. -/
def execRebuildDelayExpired (unit bay : Nat) (s : State) : Res :=
  if unit = me s then
    let y := bayOf s.hrd bay
    match y.rebuildDue with
    | none => .next s
    | some t =>
      if now s < t then .next s
      else
        let s := { s with hrd := { s.hrd with bays := tset bay { y with lostChunks := [], rebuildDue := none } s.hrd.bays } }
        .next (if dreyBack s.hrd y.lastSerial then s else checkLevels [12] { s with hrd := addLost y.lostChunks s.hrd })
  else if unreachable s unit && decide (tget 0 s.wrn.heard unit + 600 * secNs ≤ now s) then .next (unitLost unit s)
  else .next s

/-! ### Insertion and mounting (R246, R252) -/

/-- DREY_CLASSING (R246, Table 11.6): 0 OWN, 1 OWN-STALE, 2 UNKNOWN, 3 FAULTY. -/
def dreyClass (s : State) (d : DreyId) : Nat :=
  let dead := d.failedDies.any fun p => (match (d.failedDies.reverse.find? fun q => q.1 == p.1) with
    | some (_, none) => (freeSpares d).isEmpty
    | _ => false)
  let fabric := match s.vq.active with
    | some im => im.fabric
    | none => 0
  if d.copiesOk = 0 ∨ d.post = false ∨ dead = true then 3
  else if !d.owned || d.owner != ownerTag s.fus || d.fabric != fabric then 2
  else match knownOf s.hrd d.serial with
    | none => 2
    | some k =>
      if !d.unwraps || !rootKeyOk s.fus || lifecycle s.fus == 3 then 3
      else if d.membership = k.membership then 0 else 1

/-- Bring a Drey into a bay as its class says (Table 11.6). -/
def classBay (bay : Nat) (d : DreyId) (s : State) : State :=
  let c := dreyClass s d
  let st := if c = 3 then 9 else if c = 2 then 4 else 2
  onBay bay (fun y =>
    let y := { y with
      st := st, cls := c, reason := 0, diesOk := diesOk d, drey := some d, chunks := [], blocks := [], removal := 0
      forcedOut := false, latchOpen := false, cut := false, adoptPanel := none, adoptAdmin := none }
    { y with wear := wearCenti y / 100 }) s

/-- DREY_INSERTED (R246, R394, R409). -/
def execDreyInserted (bay : Nat) (d : DreyId) (s : State) : Res :=
  if (bayOf s.hrd bay).st ≠ 0 ∨ 16 ≤ bay then .next s
  else
    let s := classBay bay { d with insertions := d.insertions + 1 } s
    .next (dreyEvent bay 1 (emit (.latch bay false) s))

/-- The chunk of a returning Drey still stands (R252): no other copy of it is here, and this writer's record, where
it has one, still names this unit. -/
def chunkStands (s : State) (c : DreyChunk) : Bool :=
  (findChunk s.hrd c.stripe c.idx).isNone && (if stripeWriter c.stripe = me s then
    (match tfind s.hrd.stripes c.stripe with
      | some r => r.holders.getD c.idx (me s) == me s
      | none => false) else true)

/-- The chunks of a Drey as its bay holds them: a page whose CRC-32C fails is damaged (R226, R251). -/
def bayChunk (c : DreyChunk) : Chunk :=
  { stripe := c.stripe, idx := c.idx, k := c.k, m := c.m, kind := c.kind, crc := c.crc, bytes := c.bytes, die := c.die,
    block := c.block, page := c.page, damaged := crc32c c.bytes != c.crc }

/-- The erase blocks that the chunks of a Drey stand in, with the age of the time it was out of a unit (R241, R393). -/
def bayBlocks (d : DreyId) (age : Nat) (cs : List DreyChunk) : List FlashBlock :=
  cs.foldl (fun l c =>
    match l.find? fun f => f.die == c.die && f.block == c.block with
    | some f => (l.filter fun g => !(g.die == c.die && g.block == c.block)) ++ [{ f with written := max f.written (c.page + 1) }]
    | none => l ++ [{ die := c.die, block := c.block, erases := d.eraseMean.getD c.die 0, age := age, written := c.page + 1 }]) []

/-- DREY_MOUNTED (R252, R224, R246): the page directory is loaded, stale chunks are released, and the record is
written with CLEAN = 0. -/
def mountDrey (bay : Nat) (s : State) : State :=
  let y := bayOf s.hrd bay
  match y.st, y.drey with
  | 2, some d =>
    let cs := d.chunks.filter fun c => y.cls == 0 || chunkStands s c
    let age := if s.lif.calValid then (s.lif.cal - d.lastSeen) / hourNs * 1000000 else 0
    let kn := match knownOf s.hrd d.serial with
      | some k => max k.membership d.membership
      | none => d.membership
    let d' := { d with clean := false, bayLast := bay, lastSeen := now s, membership := kn, chunks := [] }
    let chunks := cs.map bayChunk
    let h : Hrd := { s.hrd with
      known := s.hrd.known.map fun k => if k.serial == d.serial then { k with membership := kn, lastSeen := now s } else k }
    let h : Hrd := { h with
      rebuild := h.rebuild.filter fun x => !(chunks.any fun c => c.stripe == x.stripe && c.idx == x.idx && !c.damaged) }
    let y := { y with st := 3, drey := some d', chunks := chunks, blocks := bayBlocks d age cs }
    let h : Hrd := { h with bays := (tset bay y h.bays).map fun (b, z) =>
      (b, if z.lastSerial == d.serial then { z with lostChunks := [], rebuildDue := none } else z) }
    let h := addLost ((chunks.filter (·.damaged)).map (lostOf (me s) bay y true)) h
    let s := { s with
      hrd := h
      pwr := { s.pwr with drey := tset bay ((tget (0, false) s.pwr.drey bay).1, true) s.pwr.drey } }
    let s := onBay bay (retentionRefresh (hoardRetain s.vq.active)) s
    checkLevels [11, 12] (dreyEvent bay 2 s)
  | _, _ => s
def execDreyMounted (bay : Nat) (s : State) : Res := .next (settle (mountDrey bay s))

/-! ### Requested removal (R247, R405, R408, R409) -/

/-- Record a panel action (Table 18.4, `PNL_LAST`): a refusal is counted, and shows its banner for 10 s (R400). -/
def panelLast (action bay result : Nat) (s : State) : State :=
  { s with pnl := { s.pnl with
      lastAction := action, lastBay := bay, lastResult := result, lastTime := calMinutes s
      refused := if result = 0 then s.pnl.refused else sat 16 (s.pnl.refused + 1)
      refusalUntil := if result = 0 then s.pnl.refusalUntil else now s + 10 * secNs
      refusalBay := if result = 3 then some bay else s.pnl.refusalBay } }

/-- Refuse a removal with a reason of Table 11.7 (R408). -/
def refuseRemoval (bay code : Nat) (s : State) : State :=
  panelLast 3 bay 3 (onBay bay (fun y => { y with reason := code }) s)

/-- Another bay stands between steps 2 and 6 of a removal (refusal BUSY). -/
def otherRemoval (h : Hrd) (bay : Nat) : Bool := (List.range 16).any fun b => b != bay && (bayOf h b).removal != 0

/-- Chunks are being rebuilt onto the Drey of a bay (refusal REBUILDING). -/
def rebuildingOnto (s : State) (bay : Nat) : Bool :=
  s.hrd.rebuild.any fun x => x.bay == some bay || (x.bay.isNone && x.unit == me s && (bayOf s.hrd bay).st == 3)

/-- A stripe with a chunk on the Drey already has a lost chunk (refusal DEGRADED). -/
def degradedBay (s : State) (bay : Nat) : Bool := (bayOf s.hrd bay).chunks.any fun c => decide (0 < lostKnown s c.stripe)

/-- The checks of Table 11.7, codes 2 to 5: the first that fails. -/
def removalCheck (s : State) (bay : Nat) : Option Nat :=
  if s.uni.st = .starting then some 2
  else if otherRemoval s.hrd bay then some 3
  else if rebuildingOnto s bay || (bayOf s.hrd bay).st == 6 then some 4
  else if degradedBay s bay then some 5 else none

/-- Enter a step of a removal. -/
def removalStep (bay step : Nat) (s : State) : State :=
  onBay bay (fun y => { y with removal := step, removalAt := now s, before := if y.removal = 0 then y.st else y.before }) s

/-- A removal request for a bay, by its button or by REMOVE (R247, R404, R405, R409). -/
def removalRequest (bay : Nat) (s : State) : State :=
  let y := bayOf s.hrd bay
  if s.pnl.switch = 0 then refuseRemoval bay 1 s
  else if y.st = 0 ∨ y.removal ≠ 0 then { s with pnl := { s.pnl with refused := sat 16 (s.pnl.refused + 1) } }
  else if !(s.uni.st == .serving || s.uni.st == .draining || s.uni.st == .held) then
    if s.uni.st == .starting && (y.st == 3 || y.st == 6) then refuseRemoval bay 2 s else panelLast 3 bay 2 s
  else if y.st = 5 then refuseRemoval bay 7 s
  else if y.st = 3 ∨ y.st = 6 then
    match removalCheck s bay with
    | some c => refuseRemoval bay c s
    | none => panelLast 3 bay 0 (removalStep bay (if panApproval (liveView s) (me s) then 3 else 4) s)
  else if otherRemoval s.hrd bay then refuseRemoval bay 3 s
  else panelLast 3 bay 0 (removalStep bay 4 s)

/-- BAY_BUTTON_PRESS (R247). -/
def execBayButtonPress (bay : Nat) (s : State) : Res := .next (removalRequest bay s)

/-- DREY_RELEASED (R247 steps 4 and 5, R392, R411): the record is written with CLEAN = 1, and the latch opens; a
removal cut short by a turn to LOCKED ends without step 5. -/
def execDreyReleased (bay : Nat) (s : State) : Res :=
  let y := bayOf s.hrd bay
  if y.removal ≠ 4 then .next s
  else if y.cut then
    .next (onBay bay (fun y => { y with removal := 0, cut := false, drey := y.drey.map fun d => { d with clean := false } }) s)
  else
    let s := dreyEvent bay 3 s
    let upd (d : DreyId) : DreyId :=
      if y.before = 1 then d else { d with clean := true, lastSeen := now s }
    let s := onBay bay (fun y => { (if y.before = 1 then y else wearWrite (now s) y) with st := 8, removal := 5, removalAt := now s, latchOpen := true }) (onBay bay (fun y => { y with drey := y.drey.map upd }) s)
    .next (emit (.latch bay true) (emit (.dreyPower bay false)
      { s with pwr := { s.pwr with drey := tset bay (0, false) s.pwr.drey } }))

/-- Set the result of an `HRD_CMD` (Table 11.8). -/
def hrdDone (bay action status : Nat) (s : State) : State :=
  { s with hrd := { s.hrd with cmdBay := bay % 16, cmdAction := action, status := status } }

/-- An `HRD_CMD` action on a bay: the checks that come before every action (R257). -/
def hrdCmd (bay action : Nat) (s : State) (k : State → State × Nat) : State :=
  if s.hrd.busy then hrdDone bay action 3 s
  else if 16 ≤ bay ∨ (bayOf s.hrd bay).st = 0 then hrdDone bay action 1 s
  else hrdDone bay action (k s).2 (k s).1

/-- APPROVE (R247 step 3, R257). -/
def approveAct (bay : Nat) (s : State) : State × Nat :=
  let y := bayOf s.hrd bay
  if y.st = 3 ∧ y.removal = 3 ∧ panApproval (liveView s) (me s) = true then (removalStep bay 4 s, 0) else (s, 2)
def execApprove (bay : Nat) (s : State) : Res := .next (hrdCmd bay 2 s (approveAct bay))

/-- APPROVAL_TIMEOUT (R247, refusal 6). -/
def execApprovalTimeout (bay : Nat) (s : State) : Res :=
  let y := bayOf s.hrd bay
  if y.removal = 3 ∧ y.removalAt + 600 * secNs ≤ now s then
    .next (refuseRemoval bay 6 (onBay bay (fun y => { y with removal := 0 }) s))
  else .next s

/-- The end of a removal window with the Drey still in its bay (R247, R411): the latch closes and the Drey mounts again. -/
def latchAgain (bay : Nat) (s : State) : State :=
  let y := bayOf s.hrd bay
  match y.drey with
  | none => s
  | some d =>
    let d := { d with chunks := y.chunks.map fun c =>
      { stripe := c.stripe, idx := c.idx, k := c.k, m := c.m, kind := c.kind, crc := c.crc, die := c.die, block := c.block,
        page := c.page, bytes := c.bytes } }
    emit (.latch bay false) (classBay bay d s)

/-- REMOVAL_WINDOW_EXPIRED (R247). -/
def execRemovalWindowExpired (bay : Nat) (s : State) : Res :=
  let y := bayOf s.hrd bay
  if y.st = 8 ∧ y.removalAt + 30 * secNs ≤ now s then .next (latchAgain bay s) else .next s

/-- DREY_PULLED (R247 step 6): the chunks of the Drey are lost; their rebuild starts 10 min later. -/
def execDreyPulled (bay : Nat) (s : State) : Res :=
  let y := bayOf s.hrd bay
  if y.st ≠ 8 then .next s
  else
    let s := loseChunks bay (some (now s + 600 * secNs)) y s
    .next (checkLevels [11] (onBay bay (fun y => { y with
      st := 0, drey := none, blocks := [], removal := 0, cls := 0, diesOk := 0, wear := 0, temp := 0, adoptPanel := none, adoptAdmin := none }) s))

/-- DREY_FORCED_OUT (R251, R410). -/
def execDreyForcedOut (bay : Nat) (s : State) : Res :=
  let y := bayOf s.hrd bay
  if y.st = 0 ∨ y.st = 8 then .next s
  else
    let s := dreyEvent bay 4 s
    let s := raise { code := 0x0A02, sk := 5, si := bay, d0 := bay } s
    let s := loseChunks bay (some (now s + 600 * secNs)) y s
    .next (checkLevels [11] (onBay bay (fun y => { y with
      st := 0, drey := none, blocks := [], removal := 0, cls := 0, diesOk := 0, wear := 0, temp := 0, forcedOut := true
      adoptPanel := none, adoptAdmin := none })
      { s with pwr := { s.pwr with drey := tset bay (0, false) s.pwr.drey } }))

/-! ### Evacuation and adoption (R248, R249) -/

/-- The free pages of the other mounted Dreys. -/
def otherFree (h : Hrd) (bay : Nat) : Nat :=
  (((mountedBays h).filter (· != bay)).map fun b => dreyPages - (bayOf h b).chunks.length).sum

/-- EVACUATE (R248, Table 11.9). -/
def evacuateAct (bay : Nat) (s : State) : State × Nat :=
  let y := bayOf s.hrd bay
  let st := s.uni.st == .serving || s.uni.st == .draining || s.uni.st == .held
  if (List.range 16).any fun b => b != bay && (bayOf s.hrd b).st == 6 then (s, 3)
  else if !(y.st == 3) || !st || rebuildingOnto s bay then (s, 2)
  else if otherFree s.hrd bay < y.chunks.length then (s, 4)
  else (onBay bay (fun y => { y with st := 6, before := 3 }) s, 0)
def execEvacuate (bay : Nat) (s : State) : Res := .next (hrdCmd bay 3 s (evacuateAct bay))

/-- EVACUATION_COMPLETE (R248): every chunk has moved to the other mounted Dreys; those that none can take stay. -/
def execEvacuationComplete (bay : Nat) (s : State) : Res :=
  let y := bayOf s.hrd bay
  if y.st ≠ 6 then .next s
  else
    let p := y.chunks.foldl (fun (p : State × List Chunk) c =>
      let q := storeChunk c.stripe c.idx c.k c.m c.kind c.crc c.bytes p.1
      if q.2 then (q.1, p.2) else (q.1, p.2 ++ [c])) (s, [])
    let s := onBay bay (fun y => { y with chunks := p.2, st := if p.2.isEmpty then 7 else 6 }) p.1
    .next (if p.2.isEmpty then dreyEvent bay 7 s else s)

/-- The entries of the list of known Dreys that may be given up (R246), oldest first. -/
def freeableKnown (s : State) : Option Known :=
  (s.hrd.known.filter fun k =>
    !(s.hrd.bays.any fun p => match p.2.drey with
      | some d => d.serial == k.serial
      | none => false)
    && !(s.hrd.rebuild.any fun x => x.serial == k.serial)
    && !(s.hrd.bays.any fun p => p.2.lostChunks.any fun x => x.serial == k.serial)).foldl (fun b k => match b with
      | none => some k
      | some x => if k.lastSeen < x.lastSeen then some k else some x) none

/-- The list has, or can get, room for a Drey. -/
def knownRoom (s : State) (serial : BitVec 128) : Bool :=
  (knownOf s.hrd serial).isSome || decide (s.hrd.known.length < 64) || (freeableKnown s).isSome

/-- 15 min, the life of one half of an adoption (R249). -/
def adoptNs : Ns := 900 * secNs

/-- A half given at a time still stands. -/
def halfStands (s : State) (h : Option Ns) : Bool :=
  match h with
  | some t => decide (now s ≤ t + adoptNs)
  | none => false

/-- With both halves given, the Drey is formatted (R249). -/
def adoptStart (bay : Nat) (s : State) : State :=
  let y := bayOf s.hrd bay
  if y.st = 4 ∧ halfStands s y.adoptPanel = true ∧ halfStands s y.adoptAdmin = true then
    onBay bay (fun y => { y with st := 5 }) s
  else s

/-- ADOPT (R249, Table 11.9). -/
def adoptAct (bay : Nat) (s : State) : State × Nat :=
  let y := bayOf s.hrd bay
  let st := s.uni.st == .serving || s.uni.st == .draining || s.uni.st == .held
  if y.st ≠ 4 ∨ st = false then (s, 2)
  else if !knownRoom s ((y.drey.map (·.serial)).getD 0) then (s, 4)
  else (adoptStart bay (onBay bay (fun y => { y with adoptAdmin := some (now s) }) s), 0)
def execAdopt (bay : Nat) (s : State) : Res := .next (hrdCmd bay 1 s (adoptAct bay))

/-- ADOPT_LAPSE (R249). -/
def execAdoptLapse (bay : Nat) (s : State) : Res :=
  .next (onBay bay (fun y => { y with
    adoptPanel := if y.st == 4 && !halfStands s y.adoptPanel then none else y.adoptPanel
    adoptAdmin := if y.st == 4 && !halfStands s y.adoptAdmin then none else y.adoptAdmin }) s)

/-- ADOPTION_COMPLETE (R249, R244): a new media key is drawn and wrapped, the record is written with a new membership
sequence, and the Drey mounts empty. -/
def execAdoptionComplete (bay : Nat) (s : State) : Res :=
  let y := bayOf s.hrd bay
  match y.drey with
  | none => .next s
  | some d =>
    if y.st ≠ 5 then .next s
    else
      let mem := max d.membership (((knownOf s.hrd d.serial).map (·.membership)).getD 0) + 1
      let rest := s.hrd.known.filter (·.serial != d.serial)
      let rest := if rest.length < 64 then rest else match freeableKnown s with
        | some k => rest.filter (· != k)
        | none => rest
      let fabric := match s.vq.active with
        | some im => im.fabric
        | none => 0
      let d := { d with
        owned := true, owner := ownerTag s.fus, fabric := fabric, wrapped := Config.bytes s.free 72, membership := mem
        bayLast := bay, clean := false, lastSeen := now s, formatTime := now s, chunks := [], unwraps := true }
      let y := { y with
        st := 3, cls := 0, drey := some d, chunks := [], adoptPanel := none, adoptAdmin := none
        blocks := y.blocks.map fun f => { f with written := 0, age := 0 } }
      let s := draw { s with
        hrd := { s.hrd with
          bays := tset bay y s.hrd.bays
          known := rest ++ [{ serial := d.serial, membership := mem, lastSeen := now s }] }
        pwr := { s.pwr with drey := tset bay ((tget (0, false) s.pwr.drey bay).1, true) s.pwr.drey } }
      .next (dreyEvent bay 5 s)

/-- ROOT_RECORD (R228): a holder keeps the newest root record of each writer. -/
def execRootRecord (src : Nat) (r : RootRec) (s : State) : Res :=
  let s := hear src s
  if !srcOk s src || !unitServesOrHeld s then .next (dropQuiet src s)
  else match tfind s.hrd.roots r.writer with
    | some q => .next (if q.lastSeq < r.lastSeq then { s with hrd := { s.hrd with roots := tset r.writer r s.hrd.roots } } else s)
    | none => .next { s with hrd := { s.hrd with roots := tset r.writer r s.hrd.roots } }

end Sys2Proof.Machine
end

