-- ==== Sys2Proof/Machine/Link.lean ====
section
/-! DEFINITION. Warren ports (chapter 12): flits and their replay (R262 to R264), the checks of messages as they arrive
(R270), relaying (R271, R272), credits (R266), bulk slots (R278, R279), training, loss and `HELLO` (R259, R281, R282), and
the actions of `WRN_CMD` (R284). -/

namespace Sys2Proof.Machine

/-! ### Reach and the time parent -/

/-- This unit is the grandmaster (FABRIC record). -/
def amGm (s : State) : Bool := s.vq.active.isSome && fabGm s.vq.active == me s

/-- TIME_PARENT_CHANGE (R275, R277): the peer on the port in use towards the grandmaster; without one the unit runs free. -/
def setParent (s : State) : State :=
  if s.vq.active.isNone then s
  else if amGm s then
    { s with wrn := { s.wrn with hasParent := false, parent := 0, parentPort := 0, depth := 0, aligned := s.mon.loaded } }
  else match outPort s (fabGm s.vq.active) with
    | some n =>
      let u := (portOf s.wrn n).peerUnit
      if s.wrn.hasParent && s.wrn.parentPort == n && s.wrn.parent == u then s
      else { s with wrn := { s.wrn with hasParent := true, parent := u, parentPort := n, aligned := false, within := none,
                                        offset := 0, delay := 0, syncT := 0, syncRx := 0, reqTx := 0 } }
    | none =>
      { s with
        wrn := { s.wrn with hasParent := false, aligned := false, within := none }
        mon := { s.mon with disciplined := false } }

/-- The units of the image that are unreachable from here (R272). -/
def farUnits (s : State) : List Nat := (otherUnits s).filter fun u => unreachable s u

/-- What follows a change of reach: the time parent, the record of a split (R283), and the codes served (R253). -/
def reachUpdate (s : State) : State :=
  let s := setParent s
  let n := (farUnits s).length
  let s := if n ≠ 0 ∧ s.wrn.split = false then raise { code := 0x0B05, d0 := n } s else s
  kmGo { s with wrn := { s.wrn with split := n != 0 } }

/-- A unit is heard from (R272); one that a reclaim had not reached receives it first (R165, R283). -/
def heardFrom (u : Nat) (s : State) : State :=
  let far := s.wrn.unreachable.contains u
  let s := deliverReclaims u (hear u s)
  if far then reachUpdate s else s

/-! ### Relaying -/

/-- Send or relay an envelope on the port in use for its destination; one of another unit waits here while there is none
(R271, R272). -/
def routeEnv (arrived : Ns) (e : Envelope) (s : State) : State :=
  match outPort s e.dst with
  | some n => sendBy n arrived e s
  | none =>
    if e.src = me s then s
    else waitPort { port := ((route s.vq.active (me s) e.dst).map (·.1)).getD 0, arrived := arrived, rtag := none, env := e } s

/-- Messages that wait for a port that is unusable move to the port now in use (R271). -/
def reroute (s : State) : State :=
  let stuck (w : Waiting) : Bool := w.rtag.isNone && !portUsable (portOf s.wrn w.port)
  (s.wrn.transit.filter stuck).foldl (fun s w => routeEnv w.arrived w.env s)
    { s with wrn := { s.wrn with transit := s.wrn.transit.filter fun w => !stuck w } }

/-- Relay a message of another unit (R270 step 4): `port` is the one it came in by. -/
def relay (port op : Nat) (e : Envelope) (s : State) : State :=
  if e.hops = 0 then dropOn port 4 op s else routeEnv (now s) { e with hops := e.hops - 1 } s

/-! ### Loss of a port (R281) -/

/-- The messages that R281 voids: reservations of the port itself. -/
def voided : Msg → Bool
  | .reserve _ => true
  | .grant _ _ => true
  | _ => false

/-- The destinations of a port that was usable move to their alternates until their primary has stood for 1 s (R271). -/
def leavePort (n : Nat) (s : State) : State :=
  let via (d : Nat) : Bool := (route s.vq.active (me s) d).any fun r => r.1 == n
  if !portUsable (portOf s.wrn n) then s
  else { s with wrn := { s.wrn with alt := ((otherUnits s).filter via).foldl (fun l d => insAsc d l) s.wrn.alt } }

/-- A port leaves service (R281): what it held is discarded or resent on the routes now in force. -/
def portDown (n st : Nat) (s : State) : State :=
  let p := portOf s.wrn n
  let held := p.replay.filterMap (·.env)
  let queued := s.wrn.transit.filter fun w => w.port == n
  let s := leavePort n s
  let s := onPort n (fun p => { p with
      st := st, lanes := 0, rxSeq := 0, rxAny := false, nakSent := false, txSeq := 0, replay := [], fruitless := 0
      stream := [], skip := [], credits := [], slots := [], reserveQ := [], heldReserve := [], dropTimes := [], upSince := none }) s
  let s := { s with wrn := { s.wrn with transit := s.wrn.transit.filter fun w => w.port != n } }
  let s := reachUpdate (raise { code := 0x0B01, sk := 4, si := n, d0 := st } s)
  let s := (held.filter fun e => !voided e.msg).foldl (fun s e => routeEnv (now s) { e with retry := true } s) s
  (queued.filter fun w => !voided w.env.msg).foldl (fun s w => routeEnv w.arrived w.env s) s

/-- PORT_DOWN (R281): signal or lock is lost. -/
def execPortDown (port : Nat) (s : State) : Res :=
  if (portOf s.wrn port).st < 2 then .next s else .next (portDown port 1 s)

/-! ### Replay (R264) -/

/-- Resend every unacknowledged flit of a port, in order. -/
def replayFlits (n : Nat) (s : State) : State :=
  let p := portOf s.wrn n
  { onPort n (fun p => { p with replays := sat 16 (p.replays + 1), ackAt := now s }) s with
    out := (p.replay.map (sentFlit n p)).reverse ++ s.out }

/-- A replay without progress since the last: the eighth within 1 ms takes the port DOWN (R264). -/
def fruitlessReplay (n : Nat) (s : State) : State :=
  let p := portOf s.wrn n
  let again := decide (0 < p.fruitless) && decide (now s < p.fruitlessAt + msNs)
  let k := if again then p.fruitless + 1 else 1
  let s := replayFlits n (onPort n (fun p => { p with fruitless := k, fruitlessAt := if again then p.fruitlessAt else now s }) s)
  if 8 ≤ k then portDown n 1 s else s

/-- REPLAY_TIMEOUT (R264): 10 µs with flits outstanding and no progress. -/
def execReplayTimeout (port : Nat) (s : State) : Res :=
  let p := portOf s.wrn port
  if p.replay.isEmpty || decide (now s < p.ackAt + 10000) then .next s else .next (fruitlessReplay port s)

/-- An acknowledgement covers flits up to a sequence (R264). -/
def takeAck (n ack : Nat) (s : State) : State :=
  let p := portOf s.wrn n
  match p.replay.findIdx? (·.seq == ack) with
  | none => s
  | some i => drainPort n (onPort n (fun p => { p with replay := p.replay.drop (i + 1), ackAt := now s, fruitless := 0 }) s)

/-! ### Messages as they arrive (R270) -/

/-- Send a link message in a LINK flit (R262). -/
def sendLink (n : Nat) (b : List Byte) (s : State) : State := putFlits n (cutFlits 2 0 (portOf s.wrn n).txSeq b none) s

/-- Return credits for a message whose space is free again (R266). -/
def returnCredit (n vc len : Nat) (s : State) : State :=
  if vc = 2 then s
  else emit (.linkCredit n vc (creditsFor len)) (sendLink n (creditBytes (portOf s.wrn n).peerUnit (me s) vc (creditsFor len)) s)

/-- A protocol drop (R270 steps 1 and 2): sixteen within 1 s take the port to MISMATCHED. -/
def protocolDrop (n step op : Nat) (s : State) : State :=
  let ts := ((portOf s.wrn n).dropTimes.filter fun t => decide (now s < t + secNs)) ++ [now s]
  let s := dropOn n step op (onPort n (fun p => { p with dropTimes := ts }) s)
  if 16 ≤ ts.length then reachUpdate (onPort n (fun p => { p with st := 5, upSince := none }) (leavePort n s)) else s

/-- A port carries a message of an opcode in its state (R261, R282). -/
def carries (st op : Nat) : Bool :=
  match st with
  | 3 | 4 => true
  | 6 => op ∈ [0x13, 0x14, 0x15, 0x16, 0x17] || linkOpcode op
  | 5 => linkOpcode op
  | _ => op == 0x20

/-- MESSAGE_CHECK steps 1 to 4 (R270) on a message of VC `vc` (6 for a LINK flit): dropped, relayed, or delivered. -/
def checkMessage (n vc : Nat) (b : List Byte) (s : State) : State :=
  let op := fld b 0 1
  let p := portOf s.wrn n
  let own := if vc = 6 then linkOpcode op else msgOpcode op && vcOf op b.length == vc
  let s := if vc = 6 then s else returnCredit n vc b.length s
  if !own then protocolDrop n 1 op s
  else if b.length % 8 ≠ 0 ∨ lenOk op b.length = false ∨ 1 < fld b 1 1 ∨ 1023 < fld b 4 2 ∨ 1023 < fld b 6 2 ∨ fld b 15 1 ≠ 0 then
    protocolDrop n 2 op s
  else if !carries p.st op then dropOn n 3 op s
  else if vc = 6 then
    if op = 0x21 ∧ fld b 6 2 ≠ p.peerUnit then dropOn n 3 op s
    else onPort n (fun p => { p with delivered := p.delivered ++ [(6, b)] }) s
  else if fabN s.vq.active ≤ fld b 4 2 then dropOn n 3 op s
  else if fld b 4 2 = me s then onPort n (fun p => { p with delivered := p.delivered ++ [(vc, b)] }) s
  else relay n op { dst := fld b 4 2, src := fld b 6 2, tag := fld b 8 4, hops := fld b 12 2, tenant := fld b 14 1,
                    retry := fld b 1 1 == 1, msg := .raw b } s

/-- Cut the messages out of a VC's stream (R262): what is left, and whether padding ended the body. -/
def cutStream : Nat → List Byte → List (List Byte) × List Byte × Bool
  | 0, l => ([], l, false)
  | f + 1, l =>
    if l.isEmpty then ([], [], false)
    else if fld l 0 1 = 0 then ([], [], true)
    else if l.length < 4 then ([], l, false)
    else
      let n := fld l 2 2
      if n < 16 then ([l.take 16], [], true)
      else if l.length < n then ([], l, false)
      else
        let r := cutStream f (l.drop n)
        (l.take n :: r.1, r.2)

/-- A flit received in order gives its body to its VC's stream, and its messages are checked. -/
def takeBody (n vc fmo : Nat) (body : List Byte) (s : State) : State :=
  let p := portOf s.wrn n
  let fresh := p.skip.contains vc
  if fresh && fmo == 0xFF then s
  else
    let l := if fresh then body.drop fmo else tget [] p.stream vc ++ body
    let r := cutStream 32 l
    let s := onPort n (fun p => { p with
      stream := tset vc r.2.1 p.stream
      skip := if r.2.2 then insAsc vc p.skip else p.skip.filter (· != vc) }) s
    r.1.foldl (fun s b => checkMessage n vc b s) s

/-- FLIT_CHECK and its outcome (R263). A flit in order is delivered; a duplicate gives only its `ACK`; a bad one is answered
by one `NAK`. -/
def flitIn (n : Nat) (fecOk : Bool) (f : List Byte) (s : State) : State :=
  let p := portOf s.wrn n
  let h := fld f 0 8
  let kind := bits h 1 0
  let vc := bits h 4 2
  let seq := bits h 19 8
  let ack := bits h 31 20
  let fmo := bits h 41 34
  let crcOk := f.length == 256 && fld f 252 4 == (crc32c (f.take 252)).toNat
  let fieldsOk := kind != 3 && decide (vc ≤ 5) && (kind == 1 || vc == 0) && (decide (fmo < 244) || fmo == 0xFF) && bits h 7 5 == 0 && h >>> 42 == 0
    && (kind != 0 || seq == 0)
  let behind := (p.rxSeq + 4096 - seq) % 4096
  let order := kind == 0 || seq == p.rxSeq
  let dup := kind != 0 && decide (0 < behind) && decide (behind ≤ 2048)
  if !fecOk || !crcOk || !fieldsOk || !(order || dup) then
    let s := onPort n (fun p => { p with
      fecUncorr := if fecOk then p.fecUncorr else sat 16 (p.fecUncorr + 1)
      crcFail := if fecOk && !crcOk then sat 16 (p.crcFail + 1) else p.crcFail
      nakSent := true }) s
    if p.nakSent then s else emit (.flitAck n (lastAck p) true) s
  else
    let fresh := order && kind != 0
    let s := if fresh then onPort n (fun p => { p with rxSeq := (seq + 1) % 4096, rxAny := true, nakSent := false }) s else s
    let s := if bit h 32 then takeAck n ack s else s
    let s := if bit h 33 && order then fruitlessReplay n s else s
    if fresh && (portOf s.wrn n).st != 1 then
      takeBody n (if kind = 2 then 6 else vc) fmo (slice f 8 244) (emit (.flitAck n seq false) s)
    else s

/-- FLIT_RECEIVED (R263): by a port whose link stands. -/
def execFlitReceived (port : Nat) (fecOk : Bool) (flit : List Byte) (s : State) : Res :=
  if (portOf s.wrn port).st < 2 then .next s else .next (flitIn port fecOk flit s)

/-- CREDIT (R266). -/
def execCredit (port vc count : Nat) (s : State) : Res :=
  if (portOf s.wrn port).st < 2 ∨ vc = 2 ∨ 5 < vc then .next s
  else .next (drainPort port (onPort port (fun p => { p with credits := tset vc (tget 0 p.credits vc + count) p.credits }) s))

/-- TRANSIT_TIMEOUT (R272): a message of another unit that could not leave within 200 µs. -/
def execTransitTimeout (port tag : Nat) (s : State) : Res :=
  let hit (w : Waiting) : Bool := w.port == port && w.env.tag == tag && w.env.src != me s && decide (w.arrived + 200000 ≤ now s)
  match s.wrn.transit.find? hit with
  | none => .next s
  | some w =>
    .next (dropOn port 4 (opcodeOf w.env.msg) (onPort port (fun p => { p with
        slots := p.slots.filter fun x => !(x.2.use == 1 && !x.2.granted && some x.2.tag == w.rtag) })
      { s with wrn := { s.wrn with transit := s.wrn.transit.filter (· != w) } }))

/-! ### Bulk transfers (R278, R279) -/

/-- Answer a `RESERVE` of the peer. -/
def sendGrant (n tag : Nat) (yieldFlag : Bool) (withdrawn : Nat) (s : State) : State :=
  post n (now s) { dst := (portOf s.wrn n).peerUnit, src := me s, tag := tag, hops := fabN s.vq.active, tenant := 0, retry := false,
                   msg := .grant yieldFlag withdrawn } s

/-- Claim a slot for landing (R278 step 2). -/
def claimLanding (n i tag len : Nat) (s : State) : State :=
  onPort n (fun p => { p with slots := tset i { use := 2, tag := tag, len := len, granted := true } p.slots }) s

/-- The youngest `RESERVE` of a port that is out: the claim with the tag sent last. -/
def youngestClaim (p : Port) (w : List Waiting) : Option (Nat × Slot) :=
  let cs := p.slots.filter fun x => x.2.use == 1 && !x.2.granted
  let order (t : Nat) : Nat := w.findIdx (fun x => x.rtag == some t)
  cs.foldl (fun b x => match b with
    | none => some x
    | some y => if order y.2.tag < order x.2.tag then some x else some y) none

/-- RESERVE (R278, R279). -/
def execReserve (port src tag len : Nat) (s : State) : Res :=
  let p := portOf s.wrn port
  if !portUsable p then .next s
  else if src ≠ p.peerUnit ∨ len = 0 ∨ 16448 < len ∨ len % 8 ≠ 0 then .next (dropOn port 5 0x11 s)
  else
    let s := hear src s
    match freeBulkSlot p with
    | some i =>
      if p.reserveQ.isEmpty then .next (sendGrant port tag false 0 (claimLanding port i tag len s))
      else .next (onPort port (fun p => { p with reserveQ := p.reserveQ ++ [(tag, len)] }) s)
    | none =>
      match youngestClaim p s.wrn.transit with
      | none => .next (onPort port (fun p => { p with reserveQ := p.reserveQ ++ [(tag, len)] }) s)
      | some (i, c) =>
        if me s < src then .next (onPort port (fun p => { p with heldReserve := p.heldReserve ++ [(tag, len)] }) s)
        else
          .next (sendGrant port tag true c.tag (claimLanding port i tag len
            { s with wrn := { s.wrn with
              yields := sat 16 (s.wrn.yields + 1)
              transit := s.wrn.transit.map fun w => if w.port = port ∧ w.rtag = some c.tag then { w with rtag := none } else w } }))

/-- GRANT (R278 step 3, R279): the message is sent; a `RESERVE` that `YIELD` withdraws is discarded, and one that was held
while this unit went first joins the queue. -/
def execGrant (port tag : Nat) (yieldFlag : Bool) (withdrawn : Nat) (s : State) : Res :=
  let s := onPort port (fun p => { p with
    reserveQ := if yieldFlag then p.reserveQ.filter (·.1 != withdrawn) else p.reserveQ
    heldReserve := if yieldFlag then p.heldReserve.filter (·.1 != withdrawn) else p.heldReserve }) s
  match s.wrn.transit.find? fun w => w.port == port && w.rtag == some tag with
  | none => .next s
  | some w =>
    let s := { s with wrn := { s.wrn with transit := s.wrn.transit.filter fun x => !(x.port == port && x.rtag == some tag) } }
    .next (launch port w.env (onPort port (fun p => { p with
      slots := p.slots.map (fun x => if x.2.use = 1 ∧ x.2.tag = tag then (x.1, { x.2 with granted := true }) else x)
      reserveQ := p.reserveQ ++ p.heldReserve
      heldReserve := [] }) s))

/-- BULK_SLOT_FREED (R278 steps 2, 4 and 5): a slot whose message is over goes to the peer's oldest queued `RESERVE`, else to
this unit's own claims. A claim that waits for its `GRANT`, or whose flits are not all acknowledged, is not free. -/
def execBulkSlotFreed (port slot : Nat) (s : State) : Res :=
  let p := portOf s.wrn port
  let x := tget ({} : Slot) p.slots slot
  let ended := x.use == 2 || (x.use == 1 && x.granted && !(p.replay.any fun f => f.vc == 2))
  if !ended || decide (4 ≤ slot) then .next s
  else
    let s := onPort port (fun p => { p with slots := tdel slot p.slots }) s
    match p.reserveQ with
    | (tag, len) :: r => .next (sendGrant port tag false 0 (claimLanding port slot tag len (onPort port (fun p => { p with reserveQ := r }) s)))
    | [] => .next (drainPort port s)

/-! ### Training and `HELLO` (R258 to R261, R265, R282) -/

/-- The first 8 bytes of an image's digest. -/
def digest8 (m : Image) : BitVec 64 := BitVec.ofNat 64 (leNat (m.digest.take 8))

/-- The `HELLO` this unit sends on a port. -/
def myHello (s : State) (n : Nat) : Hello :=
  { src := me s, dieLo := dieLo s.fus, dieHi := dieHi s.fus, port := n, lanes := (portOf s.wrn n).lanes, slots := 4,
    cr0 := 256, cr1 := 256, cr3 := 64, cr4 := 4, cr5 := 32
    digest := ((s.vq.active.map digest8).getD 0), gen := ((s.vq.active.map (·.gen)).getD 0) }

/-- Send a `HELLO` on a port. -/
def sayHello (n : Nat) (s : State) : State :=
  let h := myHello s n
  emit (.linkHello n h) (sendLink n (helloBytes (((topo s.vq.active (me s) n).map (·.1)).getD 0) h) s)

/-- The state that a peer's `HELLO` gives a port (R261, R265, R282). -/
def helloState (s : State) (n : Nat) (h : Hello) : Nat :=
  match topo s.vq.active (me s) n with
  | none => 7
  | some (u, q, lanes) =>
    let p := portOf s.wrn n
    if h.src ≠ u ∨ h.port ≠ q ∨ h.dieLo.toNat + 2 ^ 64 * h.dieHi.toNat ≠ unitDie s.vq.active u ∨ p.lanes < lanes
      ∨ h.cr0 < 3 ∨ h.cr1 < 65 ∨ h.cr3 < 17 ∨ h.cr4 < 1 ∨ h.cr5 < 1 ∨ h.slots < 1 then 5
    else if (s.vq.active.map digest8) ≠ some h.digest
      ∧ (if s.vq.epochState = 1 then s.vq.shadow.map digest8 else none) ≠ some h.digest then 6
    else if p.lanes < 4 then 4 else 3

/-- Judge a port again by the `HELLO` it holds: after a `HELLO`, and when the image in force has changed. -/
def judgePort (n : Nat) (s : State) : State :=
  match (portOf s.wrn n).hello with
  | none => s
  | some h =>
    if (portOf s.wrn n).st < 2 then s
    else
      let st := helloState s n h
      let up := st == 3 || st == 4
      onPort n (fun p => { p with
        st := st, peerUnit := h.src, peerPort := h.port
        upSince := if up then some (p.upSince.getD (now s)) else none }) s

/-- The peer's `HELLO` gives a port its state and its credits, and the routes return to it (R282). -/
def takeHello (port : Nat) (h : Hello) (s : State) : State :=
  let p := portOf s.wrn port
  if p.st < 2 ∨ 48 ≤ port then s
  else if 1023 < h.src ∨ 47 < h.port ∨ 4 < h.lanes then dropOn port 5 0x20 s
  else
    let s := onPort port (fun p => { p with
      hello := some h
      credits := if p.hello = some h then p.credits else tset 0 h.cr0 (tset 1 h.cr1 (tset 3 h.cr3 (tset 4 h.cr4 (tset 5 h.cr5 [])))) }) s
    let s := judgePort port s
    let s := if portUsable (portOf s.wrn port) then reachUpdate (heardFrom h.src s) else s
    drainPort port (reroute s)

/-- HELLO (R282). -/
def execHello (port : Nat) (h : Hello) (s : State) : Res := .next (takeHello port h s)

/-- A lane of a port trains again (R259): its field entry is set to state 1. -/
def laneBack (n lane : Nat) (s : State) : State :=
  let e : RepairEntry := { cls := 10, grp := n, elt := lane }
  { s with
    uni := { s.uni with outOfService := s.uni.outOfService.filter (· != e) }
    lif := { s.lif with fieldMap := s.lif.fieldMap.map fun f => if f.entry = e then { f with cleared := true } else f } }

/-- A lane of a port does not train, or fails: its field entry of class 10 (R259). -/
def laneOut (n lane : Nat) (s : State) : State := takeOut { cls := 10, grp := n, elt := lane } 12 s

/-- The lanes of a port after it trains: `mask` has a bit for each that works. -/
def setLanes (n mask : Nat) (s : State) : State :=
  let s := (List.range 4).foldl (fun s l => if bit mask l then laneBack n l s else laneOut n l s) s
  checkLevels [10] (onPort n (fun p => { p with
    laneFail := BitVec.ofNat 4 (15 - mask % 16)
    lanes := ((List.range 4).filter fun l => bit mask l).length }) s)

/-- A fused port never trains (R261), nor does a disabled one. -/
def mayTrain (s : State) (n : Nat) : Bool := decide (n < 48) && !portForbidden s.fus n && !(portOf s.wrn n).disabled

/-- A port trains on the lanes of `lanes`, one bit each, and says `HELLO` (R282). -/
def trainPort (port lanes : Nat) (s : State) : State :=
  if !mayTrain s port || decide (2 < (portOf s.wrn port).st) then s
  else
    let s := setLanes port lanes s
    if (portOf s.wrn port).lanes < 2 then onPort port (fun p => { p with st := 1 }) s
    else sayHello port (onPort port (fun p => { p with st := 2, hello := none }) s)

/-- CABLE_PLUGGED (R282). -/
def execCablePlugged (port lanes : Nat) (s : State) : Res := .next (trainPort port lanes s)

/-- LANE_FAILURE (R259): the port goes on with its other lanes and replays, or goes DOWN below its minimum. -/
def execLaneFailure (port lane : Nat) (s : State) : Res :=
  let p := portOf s.wrn port
  if p.st < 3 ∨ 4 ≤ lane ∨ p.laneFail.getLsbD lane = true then .next s
  else
    let s := onPort port (fun p => { p with
      laneFail := p.laneFail ||| (1 <<< lane), lanes := p.lanes - 1, st := if p.st = 3 then 4 else p.st }) s
    let s := laneOut port lane s
    let least := ((topo s.vq.active (me s) port).map fun t => max 2 t.2.2).getD 2
    if (portOf s.wrn port).lanes < least then .next (portDown port 1 s) else .next (replayFlits port s)

/-! ### `WRN_CMD` (R284) -/

/-- Submit a `WRN_CMD` action: BAD_PORT, BUSY, STATE, or its effect. -/
def wrnCmd (port action : Nat) (allowed : Bool) (k : State → State) (s : State) : State :=
  let s := { s with wrn := { s.wrn with cmdPort := port % 64, cmdAction := action } }
  let done (st : Nat) (s : State) : State := { s with wrn := { s.wrn with status := st } }
  if s.wrn.busy then done 3 s
  else if 47 < port then done 1 s
  else if !allowed then done 2 s
  else done 0 (k s)

/-- RETRAIN: both ends go DOWN, and the near end trains again at once (R281). -/
def retrainAct (port : Nat) (s : State) : State :=
  wrnCmd port 1 (decide (2 ≤ (portOf s.wrn port).st)) (fun s =>
    sayHello port (onPort port (fun p => { p with lanes := 4 - lanesFailed p, hello := none }) (portDown port 2 s))) s
def execRetrain (port : Nat) (s : State) : Res := .next (retrainAct port s)

/-- DISABLE: as a pulled cable, until ENABLE or unit reset. -/
def disableAct (port : Nat) (s : State) : State :=
  wrnCmd port 2 (!(portOf s.wrn port).disabled && !portForbidden s.fus port) (fun s =>
    onPort port (fun p => { p with disabled := true, st := 1 }) (if (portOf s.wrn port).st < 2 then s else portDown port 1 s)) s
def execDisable (port : Nat) (s : State) : Res := .next (disableAct port s)

/-- ENABLE: the port may train again when it detects its cable. -/
def enableAct (port : Nat) (s : State) : State :=
  wrnCmd port 3 (portOf s.wrn port).disabled (fun s => onPort port (fun p => { p with disabled := false }) s) s
def execEnable (port : Nat) (s : State) : Res := .next (enableAct port s)

end Sys2Proof.Machine
end

