-- ==== Sys2Proof/Machine/Warren.lean ====
section
/-! DEFINITION. The messages of the Warren that carry host requests and snoops (R273, R274), presence and reach (R272),
the retries of requests (R273), and Warren time (R275 to R277). -/

namespace Sys2Proof.Machine

/-- HELD serves every message but `READ`, `WRITE` and `OP_FWD`; the states that serve none drop what carries no status (R444). -/
def servedHere (src : Nat) (k : State → State) (s : State) : State :=
  if unitServesOrHeld s then k s else dropQuiet src (hear src s)

/-! ### Forwarded reads and writes -/

/-- The request that a forwarded `READ` or `WRITE` makes on its serving unit: an identity is 256 × tenant + LD (Table 7.3). -/
def peerReq (src tag tenant addr : Nat) (stamp : Ns) (ident : Nat) : MemReq :=
  { id := tag + 2 ^ 32 * (src + 1), ld := ident % 256, isWrite := false, tenant := tenant, addr := addr, stamp := stamp, want := .none,
    be := 0, data := [], poison := false, wait := 0, tag := 0, origin := some (src, tag), answered := false }

/-- A forwarded request at its serving unit: refused where this unit does not serve the address. -/
def servePeer (r : MemReq) (src tag : Nat) (refused : Msg) (s : State) : State :=
  match extFor s r.tenant r.addr with
  | none => respond src tag r.tenant refused s
  | some (e, g, rd) =>
    if (servedHereAs s e g true).isSome || (s.vq.mig.handed && servingOf e g == me s) then routeReq e g rd r s
    else respond src tag r.tenant refused s

/-- READ (R274): served here, or relayed towards its destination. -/
def execRead (src dst tag hops tenant addr : Nat) (stamp : Ns) (ident : Nat) (want : Want) (port : Nat) (s : State) : Res :=
  if dst ≠ me s then
    .next (relay port 0x01 { dst := dst, src := src, tag := tag, hops := hops, tenant := tenant, retry := false,
                             msg := .read addr stamp ident want } s)
  else
    .next (peerRequest src tag tenant true (unitServes s) (.readData 3 0 0 0 0 [] []) (.readData 2 0 0 0 0 [] [])
      (servePeer { peerReq src tag tenant addr stamp ident with want := want } src tag (.readData 3 0 0 0 0 [] [])) (deliverReclaims src s))

/-- WRITE (R186, R274). -/
def execWrite (src dst tag hops tenant addr : Nat) (stamp : Ns) (ident : Nat) (poison : Bool) (be : BitVec 64) (data : List Byte)
    (port : Nat) (s : State) : Res :=
  if dst ≠ me s then
    .next (relay port 0x03 { dst := dst, src := src, tag := tag, hops := hops, tenant := tenant, retry := false,
                             msg := .write addr stamp ident poison be data } s)
  else
    .next (rspGo (peerRequest src tag tenant true (unitServes s) (.writeDone 3) (.writeDone 2)
      (servePeer { peerReq src tag tenant addr stamp ident with isWrite := true, be := be, data := padTo 64 0 data, poison := poison }
        src tag (.writeDone 3)) (deliverReclaims src s)))

/-- A request of a host that waits for a remote unit. -/
def waitingFor (s : State) (tag : Nat) : Option MemReq := s.hst.reqs.find? fun r => r.wait == 1 && r.tag == tag

/-- A line of an agent that waits for a remote unit. -/
def agentWaits (s : State) (tag : Nat) : Option AgentLine := s.opq.lines.find? fun x => x.data.isNone && x.tag == tag

/-- A request leaves service. -/
def dropHostReq (r : MemReq) (s : State) : State := { s with hst := { s.hst with reqs := s.hst.reqs.filter (· != r) } }

/-- The next write to a line that waits for the one before it is forwarded (R273). -/
def nextWrite (tenant line : Nat) (s : State) : State :=
  match s.hst.reqs.find? fun r => r.wait == 4 && r.tenant == tenant && r.addr / 64 == line with
  | none => s
  | some r => resumeReq { r with wait := 0 } (dropHostReq r s)

/-- The unit that served a request says ABSENT (R421: this unit's own record). -/
def peerAbsent (r : MemReq) (src : Nat) (s : State) : State :=
  raise { code := 0x0B03, tenant := r.tenant, sk := 11, si := src, addr := r.addr, d0 := src } s

/-- Line `i` of the strip or block that a `READ_DATA` carries, decoded and checked (R13, R184): its bytes and its poison flag. -/
def sentLine (i strip form : Nat) (bmw : BitVec 96) (masks stored : List Byte) : Except DecFault (List Byte × Bool) :=
  let k := i / 8
  let strips := if form = 1 then cutStored bmw stored else (List.replicate 8 ([] : List Byte)).set k stored
  if form = 0 ∧ strip ≠ k then .error { reason := 0, strip := k, isCheck := false }
  else match decodeStrips bmw (padTo 8 0 masks) strips (if form = 1 then List.range 8 else [k]) with
    | .error f => .error f
    | .ok l => .ok (slice (((l.find? (·.1 == k)).map (·.2)).getD []) (64 * (i % 8)) 64,
        (recPoison { bmw := bmw, masks := padTo 8 0 masks }).getLsbD i)

/-- A faulty copy that came twice: its serving unit is told of the block (R185 step 2). -/
def tellServer (src st tenant block : Nat) (f : DecFault) (s : State) : State :=
  sendMsg src s.wrn.nextTag tenant (.tileWork 1 tenant block)
    (codecFault st tenant block f 1 { s with wrn := { s.wrn with nextTag := (s.wrn.nextTag + 1) % 2 ^ 32 } })

/-- READ_DATA for a line that an agent of this unit reads (R185, R272, R329). -/
def agentDataIn (x : AgentLine) (o : Outst) (src status strip form : Nat) (bmw : BitVec 96) (masks stored : List Byte) (s : State) : State :=
  let ev (code d0 d1 : Nat) : Ev := { code := code, tenant := x.tenant, addr := x.line * 64, d0 := d0, d1 := d1 }
  let bad : AgentLine := { x with data := some (List.replicate 64 0, true) }
  if status = 1 then keepLine bad (raise (ev 0x0802 0 0) s)
  else if status = 2 then
    keepLine bad (raise { code := 0x0B03, tenant := x.tenant, sk := 11, si := src, addr := x.line * 64, d0 := src } s)
  else if status ≠ 0 then keepLine bad (raise (ev 0x0705 0 0) s)
  else match sentLine (x.line % 64) strip form bmw masks stored with
    | .ok d =>
      let s := countDec 0x20 (x.line / 64) (if form = 1 then 8 else 1) s
      if d.2 then keepLine bad (raise (ev 0x0802 0 0) s)
      else keepLine { x with data := some (d.1, false) } (if x.again then raise (ev 0x0801 0 2) s else s)
    | .error f =>
      if x.again then keepLine bad (raise (ev 0x0802 f.reason f.strip) (tellServer src 0x20 x.tenant (x.line / 64) f s))
      else sendReq src x.tenant o.env.msg (keepLine { x with tag := s.wrn.nextTag, again := true } (codecFault 0x20 x.tenant (x.line / 64) f 1 s))

/-- READ_DATA (R13): the attached unit decodes and checks what came before it answers the host. Faulty data are asked for
once more, and then the serving unit is told of its block and the read returns poison (R185 step 2). -/
def readDataIn (r : MemReq) (o : Outst) (src status grant strip form : Nat) (bmw : BitVec 96) (masks stored : List Byte) (s : State) : State :=
  let s := dropHostReq r s
  if status = 1 then
    answerData r [] true 0 (raise (reqEv r 0x0802 0 0) s)
  else if status ≠ 0 then
    answerData r [] true 0 (if status = 2 then peerAbsent r src s else raise (reqEv r 0x0705 0 0) s)
  else
    let st := r.ld / 16 + 1
    match sentLine (r.addr / 64 % 64) strip form bmw masks stored with
    | .ok d =>
      let s := countDec st (r.addr / 4096) (if form = 1 then 8 else 1) s
      if d.2 then answerData r [] true 0 (raise (reqEv r 0x0802 0 0) s)
      else
        let s := if r.again then raise (reqEv r 0x0801 0 2) s else s
        answerData r d.1 false grant s
    | .error f =>
      if r.again then
        answerData r [] true 0 (raise (reqEv r 0x0802 f.reason f.strip) (tellServer src st r.tenant (r.addr / 4096) f s))
      else
        let tag := s.wrn.nextTag
        sendReq src r.tenant o.env.msg (park { r with tag := tag, again := true } 1 (codecFault st r.tenant (r.addr / 4096) f 1 s))

/-- READ_DATA (R13, R185). -/
def execReadData (src tag status grant strip form : Nat) (bmw : BitVec 96) (masks : List Byte) (stored : List Byte) (s : State) : Res :=
  .next (servedHere src (fun s =>
    peerResponse src tag 0x02 (decide (status < 6) && decide (grant < 3) && decide (strip < 8) && decide (form < 2)) (fun o s =>
      match waitingFor s tag with
      | none =>
        match agentWaits s tag with
        | none => dropReq tag s
        | some x => agentDataIn x o src status strip form bmw masks stored (dropReq tag s)
      | some r => match r.origin with
        | none => readDataIn r o src status grant strip form bmw masks stored (dropReq tag s)
        | some (u, t) => respond u t r.tenant (.readData status grant strip form bmw masks stored) (dropHostReq r (dropReq tag s))) s) s)

/-- WRITE_DONE (R273): the line is free for the next write, and snoop answers that waited for this one go on (R159). -/
def execWriteDone (src tag status : Nat) (s : State) : Res :=
  .next (servedHere src (fun s =>
    peerResponse src tag 0x04 (decide (status < 6)) (fun o s =>
      let s := dropReq tag s
      match o.env.msg with
      | .write a _ _ _ _ _ =>
        match waitingFor s tag with
        | some r =>
          let s := dropHostReq r s
          let s := if status = 3 then raise (reqEv r 0x0701 0 0) s else if status = 2 then peerAbsent r src s else s
          rspGo (nextWrite r.tenant (a / 64) (answerWrite r status s))
        | none =>
          opWriteDone tag (status == 3) (status == 2) (if status = 3 then raise { code := 0x0701, tenant := o.env.tenant, addr := a } s else s)
      | _ => s) s) s)

/-! ### Back-Invalidates across the Warren (R274) -/

/-- BISNP: passed to the holder's host, whose answer goes back as `BIRSP`. -/
def execBisnp (src tag tenant addr : Nat) (data : Bool) (ld : Nat) (s : State) : Res :=
  .next (servedHere src (fun s =>
    let s := hear src s
    if !srcOk s src || decide (256 ≤ ld) then dropFrom src 5 0x05 s
    else match dupOf s src tag with
      | some (some m) => sendMsg src tag tenant m s
      | some none => s
      | none =>
        let s := dupOpen src tag { s with ext := { s.ext with
          passed := s.ext.passed ++ [{ src := src, tag := tag, tenant := tenant, addr := addr, data := data, ld := ld }] } }
        if linkUsable (linkOf s.hst (ld / 16)) then emit (.bisnp ld addr data) s
        else { s with hst := { s.hst with
            links := tmod {} (ld / 16) (fun k => { k with waiting := k.waiting ++ [(ld, addr, data)] }) s.hst.links } }) s)

/-- BIRSP (R159): the serving unit takes the answer as final. -/
def execBirsp (src tag tenant addr : Nat) (ans : SnoopAns) (s : State) : Res :=
  .next (servedHere src (fun s =>
    peerResponse src tag 0x06 true (fun o s =>
      match o.env.msg with
      | .bisnp a _ ld =>
        if a = addr ∧ o.env.tenant = tenant then afterSnoops (snoopAnswer tenant a (src, ld) ans (dropReq tag s)) else s
      | _ => s) s) s)

/-! ### Presence and reach (R272) -/

/-- The unit has main power. -/
def powered (s : State) : Bool := s.uni.st != .off && s.uni.st != .standby

/-- A peer's state is known (R272). -/
def peerSays (src st : Nat) (s : State) : State :=
  kmGo { heardFrom src s with wrn := { (heardFrom src s).wrn with peerState := tset src st (heardFrom src s).wrn.peerState } }

/-- PRESENCE_PROBE: answered at once. -/
def execPresenceProbe (src st : Nat) (s : State) : Res :=
  if !powered s then .next s
  else if !srcOk s src || decide (7 < st) then .next (dropFrom src 5 0x17 s)
  else
    let s := peerSays src st s
    .next (sendMsg src s.wrn.nextTag 0 (.presence true (stCode s.uni.st))
      { s with wrn := { s.wrn with nextTag := (s.wrn.nextTag + 1) % 2 ^ 32 } })

/-- PRESENCE_ANSWER. -/
def execPresenceAnswer (src st : Nat) (s : State) : Res :=
  if !powered s then .next s
  else if !srcOk s src || decide (7 < st) then .next (dropFrom src 5 0x17 s)
  else .next (peerSays src st s)

/-- PRESENCE_PROBE_TIMER: a unit not heard from for 250 ms is probed; it is probed while it is unreachable too. -/
def execPresenceProbeTimer (peer : Nat) (s : State) : Res :=
  if !powered s || !(otherUnits s).contains peer || decide (now s < tget 0 s.wrn.heard peer + 250 * msNs) then .next s
  else
    match outPort s peer with
    | none => .next s
    | some n =>
      .next (sendBy n (now s) { dst := peer, src := me s, tag := s.wrn.nextTag, hops := fabN s.vq.active, tenant := 0, retry := false,
                                msg := .presence false (stCode s.uni.st) }
        { s with wrn := { s.wrn with nextTag := (s.wrn.nextTag + 1) % 2 ^ 32 } })

/-- `BISNP` and `OP_FWD` are resent for as long as the request stands (R273). -/
def standsForever : Msg → Bool
  | .bisnp _ _ _ => true
  | .opFwd _ _ _ => true
  | _ => false

/-- A request is abandoned as unreachable (R273): what its own chapter lays down. -/
def giveUp (o : Outst) (s : State) : State :=
  let s := dropReq o.tag s
  match o.env.msg with
  | .read _ _ _ _ =>
    match waitingFor s o.tag with
    | none =>
      match agentWaits s o.tag with
      | none => s
      | some x => keepLine { x with data := some (List.replicate 64 0, true) }
        (raise { code := 0x0B03, tenant := x.tenant, sk := 11, si := o.env.dst, addr := x.line * 64, d0 := o.env.dst } s)
    | some r => answerPoison r (peerAbsent r o.env.dst (dropHostReq r s))
  | .write a _ _ _ _ _ =>
    let s := raise { code := 0x0B04, tenant := o.env.tenant, sk := 11, si := o.env.dst, addr := a, d0 := o.tag }
      { s with wrn := { s.wrn with lostWrites := sat 16 (s.wrn.lostWrites + 1) } }
    match waitingFor s o.tag with
    | none => opWriteDone o.tag false true s
    | some r => rspGo (nextWrite r.tenant (a / 64) (answerWrite r 0 (dropHostReq r s)))
  | .chunkGet _ _ _ _ =>
    match s.hrd.gets.find? (·.tag == o.tag) with
    | none => s
    | some q => goOnFill q (dropGet o.tag s)
  | .chunkPut i c _ _ _ b => if b.isEmpty then s else checkpointDone (settle (placeElsewhere i c s))
  | .mbx _ _ _ _ _ =>
    let j := peerBox o.env.dst
    if (intOf s.mbx j).sent ≠ some o.tag then s
    else mbxRefused (256 + j) 3 none (onInt j (fun b => { b with outQ := b.outQ.drop 1, sent := none, absent := sat 16 (b.absent + 1) }) s)
  | _ => s

/-- UNREACHABLE_TIMEOUT: a unit silent for 1 s; the requests out to it fail. -/
def execUnreachableTimeout (peer : Nat) (s : State) : Res :=
  if !(otherUnits s).contains peer || s.wrn.unreachable.contains peer || decide (now s < tget 0 s.wrn.heard peer + secNs) then .next s
  else
    let s := reachUpdate { s with wrn := { s.wrn with unreachable := insAsc peer s.wrn.unreachable } }
    .next ((s.wrn.reqs.filter fun o => o.env.dst == peer && !standsForever o.env.msg).foldl (fun s o => giveUp o s) s)

/-- REQUEST_RETRY_TIMER (R273): resent with `RETRY` after 2 ms, at most three times, then abandoned; a `BISNP` or `OP_FWD`
every 100 ms. -/
def execRequestRetryTimer (tag : Nat) (s : State) : Res :=
  match outReq s tag with
  | none => .next s
  | some o =>
    let forever := standsForever o.env.msg
    if now s < o.sentAt + (if forever then 100 * msNs else 2 * msNs) then .next s
    else if !forever && decide (3 ≤ o.tries) then .next (giveUp o s)
    else
      .next (sendEnv { o.env with retry := true } { s with wrn := { s.wrn with
        resends := sat 32 (s.wrn.resends + 1)
        reqs := s.wrn.reqs.map fun x => if x.tag = tag then { x with sentAt := now s, tries := x.tries + 1 } else x } })

/-- ROUTE_RESTORE (R271). -/
def execRouteRestore (dst : Nat) (s : State) : Res :=
  match route s.vq.active (me s) dst with
  | none => .next s
  | some (p, _) =>
    match (portOf s.wrn p).upSince with
    | none => .next s
    | some t =>
      if !s.wrn.alt.contains dst || !portUsable (portOf s.wrn p) || decide (now s < t + secNs) then .next s
      else .next (setParent { s with wrn := { s.wrn with alt := s.wrn.alt.filter (· != dst) } })

/-! ### Warren time (R275 to R277) -/

/-- The ports that carry time: UP or DEGRADED. -/
def timePorts (s : State) : List Nat := (List.range 48).filter fun n => portUsable (portOf s.wrn n)

/-- Send a `TIME` message to a port's peer. -/
def sendTime (n : Nat) (m : Msg) (s : State) : State :=
  post n (now s) { dst := (portOf s.wrn n).peerUnit, src := me s, tag := s.wrn.nextTag, hops := fabN s.vq.active, tenant := 0, retry := false,
                   msg := m } { s with wrn := { s.wrn with nextTag := (s.wrn.nextTag + 1) % 2 ^ 32 } }

/-- TIME_SYNC_TIMER (R276): every 1 ms, once the timebase has been loaded (R275). -/
def execTimeSyncTimer (s : State) : Res :=
  if !powered s || !s.mon.loaded || decide (now s < s.wrn.syncTx + msNs) then .next s
  else .next ((timePorts s).foldl (fun s n => sendTime n (.time 0 s.wrn.aligned s.wrn.depth (now s) 0) s)
    { s with wrn := { s.wrn with syncTx := now s } })

/-- DELAY_REQ_TIMER (R276): every 16 ms, to the parent. -/
def execDelayReqTimer (s : State) : Res :=
  if !powered s || !s.mon.loaded || !s.wrn.hasParent || decide (now s < s.wrn.reqTx + 16 * msNs) then .next s
  else .next (sendTime s.wrn.parentPort (.time 1 s.wrn.aligned s.wrn.depth (now s) 0) { s with wrn := { s.wrn with reqTx := now s } })

/-- The offset and its effect (R276, R277): the rate turns against the offset by at most 50 ppm, by an amount the spec leaves
open, and the unit is aligned once the offset has stayed within 2 ns for 1 s. -/
def takeOffset (off : Int) (s : State) : State :=
  let near := decide (off.natAbs ≤ 512)
  let within := if near then some (s.wrn.within.getD (now s)) else none
  let size : Int := (Config.number s.free % 50001 : Nat)
  draw { s with
    wrn := { s.wrn with offset := off, within := within
                        aligned := match within with
                          | some t => decide (t + secNs ≤ now s)
                          | none => false }
    mon := { s.mon with disciplined := true
                        ratePpb := if off = 0 then s.mon.ratePpb else if 0 < off then -size else size } }

/-- A `TIME` message of the parent. -/
def fromParent (s : State) (port src : Nat) : Bool := s.mon.loaded && s.wrn.hasParent && s.wrn.parentPort == port && s.wrn.parent == src

/-- DELAY_REQ (R276): the answer gives the time it arrived. -/
def execDelayReq (port src : Nat) (t : Ns) (arrival : Ns) (s : State) : Res :=
  if !powered s then .next s
  else if !srcOk s src then .next (dropOn port 5 0x18 s)
  else
    let s := heardFrom src s
    .next (if s.mon.loaded && portUsable (portOf s.wrn port) then sendTime port (.time 2 s.wrn.aligned s.wrn.depth t arrival) s else s)

/-- DELAY_RESP (R276): the path delay of the delay request-response mechanism of IEEE 1588, and the offset with it. The
request's own send time is the one this unit kept. -/
def execDelayResp (port src : Nat) (_t1 t4 : Ns) (s : State) : Res :=
  if !powered s then .next s
  else if !srcOk s src then .next (dropOn port 5 0x18 s)
  else
    let s := heardFrom src s
    if fromParent s port src && s.wrn.syncT != 0 && s.wrn.reqTx != 0 then
      let down : Int := (s.wrn.syncRx : Int) - s.wrn.syncT
      let up : Int := (t4 : Int) - s.wrn.reqTx
      let d := (128 * (down + up)).toNat
      .next (takeOffset (256 * down - d) { s with wrn := { s.wrn with delay := d } })
    else .next s

end Sys2Proof.Machine
end

