-- ==== Sys2Proof/Machine/Rings.lean ====
section
/-! DEFINITION. Rings and the life of an operator (chapter 14): enabling and ringing (R311 to R315), taking and placing (R320 to
R322), forwarding (R323), aborts and time limits (R328, R338 to R340), and `SEAL` (R148 to R152). -/

namespace Sys2Proof.Machine

/-! ### Ring registers (R313, R314) -/

/-- A range lies in one extent of the tenant, ACTIVE and of a kind that rings may lie in (R313). -/
def ringRangeOk (s : State) (t addr len : Nat) : Bool :=
  addr % 4096 == 0 && (match extAt (extView s) t addr, extAt (extView s) t (addr + len - 1) with
    | some (e, _), some (f, _) => e.id == f.id && decide (1 ≤ e.kind) && decide (e.kind ≤ 3) && (extSt s e.id).st == 1
    | _, _ => false)

/-- The error of an `ENABLE` write: none, 1 BASE, 2 SIZE (R313). -/
def enableError (s : State) (t : Nat) (r : Ring) : Nat :=
  if r.sqLog < 4 ∨ 16 < r.sqLog ∨ r.cqLog < 4 ∨ 16 < r.cqLog then 2
  else if ringRangeOk s t r.sqBase (128 * 2 ^ r.sqLog) && ringRangeOk s t r.cqBase (64 * 2 ^ r.cqLog) then 0 else 1

/-- RING_ENABLE (R313, R315): `ring` is the local index at the writing LD. -/
def execRingEnable (ld ring : Nat) (_stamp : Ns) (s : State) : Res :=
  if !barTaken s ld then .next s else
  match (ldTenant s ld).bind fun t => (localRing s t ring).map fun n => (t, n) with
  | none => .next s
  | some (t, n) =>
    let r := ringOf s.opq n
    if r.enable ∨ r.leaving then .next s
    else if !r.held.isEmpty then .next (onRing n (fun r => { r with error := 5 }) s)
    else
      let e := enableError s t r
      if e ≠ 0 then .next (onRing n (fun r => { r with error := e }) s)
      else .next (onRing n (fun r => { r with
        enable := true, error := 0, ld := ld, sqHead := 0, cqTail := 0, tail := 0, head := 0, tenant := t, marks := [], stamps := [] }) s)

/-- RING_DISABLE (R313). -/
def execRingDisable (ld ring : Nat) (s : State) : Res :=
  if !barTaken s ld then .next s else
  match (ldTenant s ld).bind fun t => localRing s t ring with
  | none => .next s
  | some n => .next (onRing n (fun r => { r with enable := false }) s)

/-- The doorbell intake holds 1,024 updates (R314). -/
def dbCap : Nat := 1024

/-- A Deferrable Memory Write of a doorbell is answered (R314): whether the write is taken. -/
def doorbellTaken (ld : Nat) (dmwr : Bool) (s : State) : State × Bool :=
  if !dmwr then (s, true)
  else if dbCap ≤ s.opq.dbIntake.length then (emit (.dmwrRetry ld) s, false)
  else (emit (.dmwrSuccess ld) s, true)

/-- A doorbell update enters the intake while it has room; the unit acts on the latest value. -/
def enterIntake (n : Nat) (s : State) : State :=
  if dbCap ≤ s.opq.dbIntake.length then s else { s with opq := { s.opq with dbIntake := s.opq.dbIntake ++ [n] } }

/-- SQ_DOORBELL (R314): more descriptors than the SQ holds stop the ring with `ERROR` 3. -/
def execSqDoorbell (ld ring : Nat) (tail : BitVec 32) (dmwr : Bool) (stamp : Ns) (s : State) : Res :=
  if !barTaken s ld then .next s else
  match (ldTenant s ld).bind fun t => localRing s t ring with
  | none => .next s
  | some n =>
    let p := doorbellTaken ld dmwr s
    if !p.2 then .next p.1
    else
      let r := ringOf s.opq n
      let s := enterIntake n (onRing n (fun r => { r with
        tail := tail.toNat, stamps := if r.enable then r.stamps ++ [(tail.toNat, stamp)] else r.stamps }) p.1)
      if r.enable ∧ 2 ^ r.sqLog < (tail.toNat + 2 ^ 32 - r.sqHead) % 2 ^ 32 then .next (ringStop n 3 s) else .next s

/-- CQ_DOORBELL (R314): a `HEAD` that passes `CQ_TAIL` stops the ring with `ERROR` 4. -/
def execCqDoorbell (ld ring : Nat) (head : BitVec 32) (dmwr : Bool) (s : State) : Res :=
  if !barTaken s ld then .next s else
  match (ldTenant s ld).bind fun t => localRing s t ring with
  | none => .next s
  | some n =>
    let p := doorbellTaken ld dmwr s
    if !p.2 then .next p.1
    else
      let r := ringOf s.opq n
      let s := enterIntake n (onRing n (fun r => { r with head := head.toNat }) p.1)
      if r.enable ∧ (r.cqTail + 2 ^ 32 - r.head) % 2 ^ 32 < (head.toNat + 2 ^ 32 - r.head) % 2 ^ 32 then .next (ringStop n 4 s) else .next s

/-! ### Taking and placing (R320 to R322) -/

/-- A ring that is not passed over, its placement apart (R320). -/
def ringEligible (s : State) (r : Ring) : Bool :=
  r.enable && r.tail != r.sqHead && (leaseOf s r.tenant).granted && !(leaseOf s r.tenant).owed
    && decide (now s < leaseGuardAt s r.tenant) && decide ((r.cqTail + 2 ^ 32 - r.head) % 2 ^ 32 + r.owed < 2 ^ r.cqLog)

/-- The ring and SQ index that an ABORT names (Table 14.4), by the ring unit's RINGS record. -/
def abortTarget (s : State) (o : Op) : Nat × Nat := ((ringRange s.vq.active o.ringUnit o.tenant).1 + fld o.desc 16 4, fld o.desc 24 4)

/-- Step 12 of Table 14.5, at the ring unit. -/
def targetOk (s : State) (o : Op) : Bool :=
  let t := abortTarget s o
  (localRing s o.tenant (fld o.desc 16 4)).isSome && decide (((ringOf s.opq t.1).tail + 2 ^ 32 - t.2) % 2 ^ 32 < 2 ^ 31)

/-- A forwarded operator, by its ring and SQ index. -/
def findFwd (q : Opq) (n sq : Nat) : Option Op := q.fwd.find? fun o => o.ring == n && o.sqIndex == sq

/-- The executing unit of a descriptor (R321, Table 14.6). -/
def placeOp (s : State) (o : Op) : Nat :=
  if descOp o.desc = 0x7F then
    match findFwd s.opq (abortTarget s o).1 (abortTarget s o).2 with
    | some t => if t.tag = 0 then me s else t.execUnit
    | none => me s
  else if descUnit o.desc = 0xFFFF then autoUnit s o.tenant o.desc else descUnit o.desc

/-- A unit is SERVING (R321). -/
def unitServing (s : State) (u : Nat) : Bool :=
  if u = me s then s.uni.st == .serving
  else decide (u < fabN s.vq.active) && !unreachable s u && (match tfind s.wrn.peerState u with
    | some st => st == 3
    | none => true)

/-- There is room for an operator where it is placed (R322). -/
def placeRoom (s : State) (o : Op) : Bool :=
  descOp o.desc == 0x7F ||
    (if o.execUnit = me s then decide (opsCounted s.opq < 2048) else decide ((s.opq.fwd.filter fun x => descOp x.desc != 0x7F).length < 2048))

/-- An operator is refused or aborted as it is taken, runs here, or is forwarded. -/
def enterOp (o : Op) (marked : Bool) (s : State) : State :=
  if marked then retireOp o { status := 1, detail := 1 } s
  else match staticRefusal s o.tenant o.desc with
    | some r => retireOp o { status := 2, detail := r } s
    | none =>
      if !unitServing s o.execUnit then retireOp o { status := 2, detail := 9 } s
      else if descOp o.desc = 0x7F ∧ targetOk s o = false then retireOp o { status := 2, detail := 12 } s
      else if o.execUnit = me s then { s with opq := { s.opq with ops := s.opq.ops ++ [o] } }
      else
        let s := { s with opq := { s.opq with fwd := s.opq.fwd ++ [o] } }
        if o.fence && !fenceClear s.opq o then s else sendFwd o s

/-- The ingress stamp of the doorbell write that covers an SQ index (R149). -/
def stampFor (r : Ring) (i : Nat) : Option Ns := (r.stamps.find? fun p => decide ((p.1 + 2 ^ 32 - i - 1) % 2 ^ 32 < 2 ^ 31)).map (·.2)

/-- Take one descriptor of a ring, if it is eligible, its descriptor is at hand and its placement has room. -/
def takeFrom (n : Nat) (s : State) : State × Bool :=
  let r := ringOf s.opq n
  if !ringEligible s r then (s, false)
  else
    let a := r.sqBase + 128 * (r.sqHead % 2 ^ r.sqLog)
    let s := bringRange r.tenant a 128 false s
    if !rangeReady s r.tenant a 128 false then (s, false)
    else
      let q := agentRead r.tenant a 128 s
      let d := q.2.1
      let o : Op := { ringUnit := me s, ring := n, sqIndex := r.sqHead, tenant := r.tenant, desc := d, execUnit := me s, tag := 0,
                      started := none, taken := now s, gate := 0, cause := 0, progress := 0, dispatched := 0, irq := descIrq d,
                      fence := descFence d, stamp := stampFor r r.sqHead }
      let o := { o with execUnit := placeOp s o }
      if !placeRoom s o then (s, false)
      else
        let marked := r.marks.contains r.sqHead
        let s := onRing n (fun r => { r with
          sqHead := (r.sqHead + 1) % 2 ^ 32, owed := r.owed + 1, marks := r.marks.filter (· != r.sqHead)
          stamps := r.stamps.filter fun p => p.1 != (r.sqHead + 1) % 2 ^ 32 }) q.1
        (enterOp o marked { s with opq := { s.opq with pointer := (n + 1) % 65536 } }, true)

/-- DESCRIPTOR_TAKE (R320): from the round-robin pointer on, the first ring that can give a descriptor gives one. -/
def execDescriptorTake (s : State) : Res :=
  if s.uni.st ≠ .serving ∨ s.uni.restarting = true then .next s
  else
    let ks := s.opq.rings.map (·.1)
    let order := (ks.filter fun k => decide (s.opq.pointer ≤ k)) ++ ks.filter fun k => decide (k < s.opq.pointer)
    .next (order.foldl (fun (p : State × Bool) n => if p.2 then p else takeFrom n p.1)
      ({ s with opq := { s.opq with dbIntake := [] } }, false)).1

/-! ### Forwarding (R322, R323) -/

/-- OP_FWD (R269, R322, R323): refused FIELD, UNIT or BUSY, or by the static checks of Table 14.5; else it enters the operators
here, or the intake. -/
def execOpFwd (src tag ring sq tenant : Nat) (desc : List Byte) (s : State) : Res :=
  let s := heardFrom src s
  let o : Op := { ringUnit := src, ring := ring, sqIndex := sq, tenant := tenant, desc := padTo 128 0 desc, execUnit := me s, tag := tag,
                  started := none, taken := now s, gate := 0, cause := 0, progress := 0, dispatched := 0, irq := descIrq desc, fence := false }
  let refuse (r : Nat) (s : State) : State := respond src tag tenant (.opDone (recordOf s o { status := 2, detail := r })) s
  match dupOf s src tag with
  | some (some m) => .next (sendMsg src tag tenant m s)
  | some none => .next s
  | none =>
    let rr := ringRange s.vq.active src tenant
    if !srcOk s src || !hasTenant s.vq.active tenant || decide (ring < rr.1) || decide (rr.1 + rr.2 ≤ ring) || desc.length != 128 then
      .next (refuse 2 s)
    else if s.uni.st ≠ .serving then .next (refuse 9 s)
    else match staticRefusal s tenant desc with
      | some r => .next (respond src tag tenant (.opDone (recordOf s o { status := 2, detail := r }))
          { s with opq := countRecord tenant { status := 2, detail := r } s.opq })
      | none =>
        if descOp desc = 0x7F ∨ opsCounted s.opq < 2048 then .next (dupOpen src tag { s with opq := { s.opq with ops := s.opq.ops ++ [o] } })
        else if s.opq.intake.length < 512 then .next (dupOpen src tag { s with opq := { s.opq with intake := s.opq.intake ++ [o] } })
        else .next (refuse 11 s)

/-- A forwarded operator leaves the forward table with its record (R323): the ring unit puts its SQ index in (log entry 28). -/
def fwdDone (o : Op) (rcd : List Byte) (s : State) : State :=
  let s := { s with opq := { s.opq with fwd := s.opq.fwd.filter fun x => !sameOp x o } }
  releaseFences (deliver o.ring (splice rcd 4 (leBytes 4 o.sqIndex)) o.irq s)

/-- OP_DONE (R323, R340): the record goes into the CQ unchanged; after BUSY the `OP_FWD` is due again 1 ms later; a record that
no forwarded operator waits for is discarded. -/
def execOpDone (src tag : Nat) (record : List Byte) (s : State) : Res :=
  .next (servedHere src (fun s =>
    peerResponse src tag 0x0C (record.length == 64) (fun _ s =>
      let s := dropReq tag s
      match s.opq.fwd.find? (·.tag == tag) with
      | none => s
      | some o =>
        if fld record 9 1 = 2 ∧ fld record 10 1 = 11 then
          { s with opq := { s.opq with fwd := s.opq.fwd.map fun x => if sameOp x o then { x with started := some (now s) } else x } }
        else fwdDone o record s) s) s)

/-- OP_FWD_RESEND (R322): 1 ms after a BUSY refusal, with a new tag. -/
def execOpFwdResend (tag : Nat) (s : State) : Res :=
  match s.opq.fwd.find? (·.tag == tag) with
  | none => .next s
  | some o =>
    match o.started with
    | none => .next s
    | some t => if now s < t + msNs then .next s else .next (sendFwd { o with started := none } s)

/-! ### Aborts and time limits (R328, R338 to R340) -/

/-- An ABORT is over: its own record. -/
def abortDone (o : Op) (status r0 : Nat) (s : State) : State :=
  retireOp { o with started := some (o.started.getD (now s)) } { status := status, r0 := r0 } s

/-- ABORT on an operator that runs here: aborted before its gate, ALREADY_DONE after it. -/
def abortHere (o t : Op) (s : State) : State :=
  let s' := abortOp t 1 s
  if t.gate = 0 then abortDone o 0 0 s' else abortDone o 4 0 s'

/-- ABORT (R339). -/
def execAbort (ringUnit ring sqIndex : Nat) (s : State) : Res :=
  match findOp s.opq ringUnit ring sqIndex with
  | none => .next s
  | some o =>
    if descOp o.desc ≠ 0x7F ∨ unitServesOrHeld s = false ∨ s.uni.restarting = true ∨ (o.fence = true ∧ fenceClear s.opq o = false) then .next s
    else
      let t := abortTarget s o
      match (s.opq.ops ++ s.opq.intake).find? fun x => x.ringUnit == ringUnit && x.ring == t.1 && x.sqIndex == t.2 && !sameOp x o with
      | some x => .next (abortHere o x s)
      | none =>
        if ringUnit ≠ me s then .next (abortDone o 4 0 s)
        else match findFwd s.opq t.1 t.2 with
          | some x =>
            if x.tag = 0 then
              .next (abortDone o 0 0 (fwdDone x (recordOf s x { status := 1, detail := 1 })
                { s with opq := countRecord x.tenant { status := 1, detail := 1 } s.opq }))
            else
              let o := { o with execUnit := x.execUnit }
              .next (sendFwd o { s with opq := { s.opq with
                ops := s.opq.ops.filter (fun y => !sameOp y o), fwd := s.opq.fwd ++ [o] } })
          | none =>
            if (t.2 + 2 ^ 32 - (ringOf s.opq t.1).sqHead) % 2 ^ 32 < 2 ^ 31 then
              .next (abortDone o 0 1 (onRing t.1 (fun r => { r with marks := addNew t.2 r.marks }) s))
            else .next (abortDone o 4 0 s)

/-- OPERATOR_TIMEOUT (R328, R340): at the limit the executing unit aborts with TIMEOUT; for an executing unit that is
unreachable the ring unit seals FAILED with UNREACHABLE and `WRITE_LOST`. -/
def execOperatorTimeout (ringUnit ring sqIndex : Nat) (s : State) : Res :=
  match findOp s.opq ringUnit ring sqIndex with
  | some o =>
    match o.started with
    | none => .next s
    | some t => if now s < t + opLimit o.desc then .next s else .next (abortOp o 4 s)
  | none =>
    match findFwd s.opq ring sqIndex with
    | none => .next s
    | some o =>
      if ringUnit ≠ me s ∨ now s < o.taken + opLimit o.desc ∨ unreachable s o.execUnit = false then .next s
      else
        let v : RecVals := { status := 3, detail := 2, flags11 := 4 }
        let s := raise { code := 0x0D01, tenant := o.tenant, sk := 10, si := o.ring, d0 := o.ring, d1 := o.sqIndex + 2 * 2 ^ 32 }
          { s with opq := countRecord o.tenant v s.opq }
        .next (fwdDone o (recordOf s o v) (dropReq o.tag s))

/-! ### SEAL (R148 to R152) -/

/-- SEAL on its executing unit: the seal point is reached, and this unit's part begins (R150 steps 1 and 2). The point of a
forwarded `SEAL` is its stamp at the attached unit, which `OP_FWD` does not carry: a free value (log entry 28). -/
def execSeal (ringUnit ring sqIndex : Nat) (s : State) : Res :=
  opRow 0x21 ringUnit ring sqIndex s fun o s =>
    let x := fld o.desc 16 2
    if o.gate ≠ 0 then s
    else match extRec (extView s) x with
      | none => s
      | some e =>
        let point := o.stamp.getD (Config.number s.free)
        let s := onOp o (fun y => { y with gate := 1, r1 := point }) (draw s)
        let s := moveExtent x 2 { s with ext := { s.ext with seals := s.ext.seals ++ [
          { ext := x, tenant := o.tenant, point := point, done := false, ringUnit := ringUnit, ring := ring, sqIndex := sqIndex, coordinator := true }] } }
        let s := (s.ext.sf.filter fun f => f.ext == x && f.excl).foldl (fun s f => startSnoop f.tenant f.addr false (snoopTargets s f) (.sealing x) s) s
        sealsGo (tellExtent e.id s)

/-- SEAL_COMPLETE (R150, R152): the last serving unit has reported, and this unit's part is done and in the Hoard. -/
def execSealComplete (ext : Nat) (s : State) : Res :=
  match extRec (extView s) ext with
  | none => .next s
  | some e =>
    if (extSt s ext).st ≠ 2 then .next s
    else
      match s.ext.seals.find? (·.ext == ext) with
      | none => .next (offerReaders e (moveExtent ext 3 s))
      | some r =>
        if !r.done || !extCommitted s e then .next s
        else
          let s := offerReaders e (moveExtent ext 3 { s with ext := { s.ext with seals := s.ext.seals.filter (·.ext != ext) } })
          let s := tellExtent ext s
          match findOp s.opq r.ringUnit r.ring r.sqIndex with
          | none => .next s
          | some o => .next (retireOp o { status := 0, flags11 := o.flags11, flags14 := o.flags14, r0 := e.size * 32768, r1 := r.point } s)

end Sys2Proof.Machine
end

