-- ==== Sys2Proof/Machine/TierMap.lean ====
section
/-! DEFINITION. How the tier is laid out under an image: the spare SIDs (R92, R200), the slots of the pools (R203), and the
moves of the map, the pools and the granules that an update makes (R353 to R358, R360). -/

namespace Sys2Proof.Machine

/-! ### Spares and the map of logical SIDs (R92, R200) -/

/-- The order in which SIDs are taken as spares (R200). -/
def spareOrder (pref : Nat) : List Nat :=
  ((List.range 32).filter fun i => bit pref i) ++ [31, 27, 23, 19, 15, 11, 7, 3] ++ (List.range 32).reverse

/-- The spares that a unit takes of its working SIDs. -/
def pickSpares (working : List Nat) (count pref : Nat) : List Nat :=
  (spareOrder pref).foldl (fun l i => if l.length < count && working.contains i && !l.contains i then l ++ [i] else l) []

/-- The physical SIDs by (SID within its stack, stack). -/
def sidOrder : List Nat := (List.range 4).flatMap fun d => (List.range 8).map fun k => 4 * k + d

/-- The SIDs in service, in the order of their logical numbers (R200). -/
def servingSids (working spares : List Nat) : List Nat := sidOrder.filter fun i => working.contains i && !spares.contains i

/-- The bytes of both pools under an image. -/
def poolBytes (im : Option Image) (u : Nat) : Nat := (partPinned im u + partVolatile im u) * gib

/-- The spares that keep 32 GiB of cache (R92): none where the pools do not fit at all. -/
def spareRoom (im : Option Image) (u working : Nat) : Option Nat :=
  (List.range (spareCount im u + 1)).reverse.find? fun c =>
    decide (c ≤ working) && decide (poolBytes im u + 32 * gib ≤ (working - c) * sidBytes)

/-- Lay the logical SIDs out over the working ones (R200). -/
def setSids (im : Option Image) (u : Nat) (working : List Nat) (count : Nat) (d : Drt) : Drt :=
  let sp := pickSpares working count (sparePref im u)
  let sv := servingSids working sp
  { d with
    logical := sv.length
    sidmap := sv.zipIdx.map fun p => (p.2, p.1)
    sids := (List.range 32).map fun i =>
      (i, { tget ({} : Sid) d.sids i with st := if sp.contains i then 1 else if working.contains i then 0 else 3 }) }

/-- The SIDs that serve or stand by. -/
def workingSids (d : Drt) : List Nat := (List.range 32).filter fun i => (tget ({} : Sid) d.sids i).st < 2

/-! ### Slots (R203) -/

/-- The granules of an image that unit `u` holds in a pool, in ascending order: VOLATILE ones, or those it serves PINNED. -/
def poolGranules (im : Option Image) (u : Nat) (vol : Bool) : List (Nat × Nat) :=
  ((extRecs im).filter fun e => if vol then e.kind == 3 else e.kind != 3 && e.pinned).flatMap fun e =>
    ((List.range e.size).filter fun g => servingOf e g == u).map fun g => (e.id, g)

/-- Empty a range of the tier: it reads as zero. -/
def clearTier (lo len : Nat) (d : Drt) : Drt :=
  { d with
    tier := d.tier.filter fun p => !(decide (lo ≤ p.1) && decide (p.1 < lo + len))
    blocks := d.blocks.filter fun p => !(decide (lo ≤ p.1 * 4096) && decide (p.1 * 4096 < lo + len)) }

/-- A VOLATILE granule takes the lowest free slot, where it reads as zero (R81, R203). -/
def takeVolatile (q : Nat × Nat) (s : State) : State :=
  if (slotOf s.drt.volatile q.1 q.2).isSome then s
  else
    let i := freeSlot s.drt.volatile
    let d := clearTier ((partPinned (poolImage s) (me s) + i) * gib) gib s.drt
    { s with drt := { d with volatile := tset i q d.volatile } }

/-- The tiles of a granule that a fill must bring from the Hoard: those it holds, or all of them where another unit's
directory names them (R229). -/
def hoardTiles (s : State) (e : ExtRec) (g : Nat) : List (Nat × Nat) :=
  if s.hrd.foreign.contains (e.id, g) then (List.range 32768).map fun i => (e.tenant, (e.base + g) * 32768 + i)
  else (s.hrd.dir.filter fun d => d.tenant == e.tenant && d.tile / 32768 == e.base + g && !d.zero).map fun d => (e.tenant, d.tile)

/-- A PINNED granule takes the lowest free slot, and waits there for its tiles (R81, R203). -/
def takePinned (e : ExtRec) (g : Nat) (s : State) : State :=
  if (slotOf s.drt.pinned e.id g).isSome then s
  else
    let i := freeSlot s.drt.pinned
    let d := clearTier (i * gib) gib s.drt
    { s with drt := { d with
        pinned := tset i (e.id, g) d.pinned
        unfilled := (hoardTiles s e g).foldl (fun l t => addNew t l) d.unfilled } }

/-- The granules that an image gives this unit to hold in its pools take slots. -/
def takeSlots (im : Option Image) (s : State) : State :=
  let s := (poolGranules im (me s) true).foldl (fun s q => takeVolatile q s) s
  (poolGranules im (me s) false).foldl (fun s q => match extRec im q.1 with
    | some e => takePinned e q.2 s
    | none => s) s

/-- Fill the tiles of pinned granules that have not landed (R81, R358 step 4). -/
def fillPinned (s : State) : State :=
  s.drt.unfilled.foldl (fun s t => match extAt (extView s) t.1 (t.2 * 32768) with
    | some (e, g) => if (serverOf s e g == me s) = true then startFill e g t.2 s else s
    | none => s) s

/-! ### What an update moves (R353) -/

/-- INTERLEAVE and SPARES of this unit differ. -/
def mapDiffers (u : Nat) (a b : Option Image) : Bool :=
  ilGrain a u != ilGrain b u || ilFold a u != ilFold b u || spareCount a u != spareCount b u || sparePref a u != sparePref b u

/-- PARTITION of this unit differs. -/
def partDiffers (u : Nat) (a b : Option Image) : Bool := partPinned a u != partPinned b u || partVolatile a u != partVolatile b u

/-- The granules whose serving unit or residency differs between two images: the two records and the granule. -/
def movedGranules (a b : Option Image) : List (ExtRec × ExtRec × Nat) :=
  (extRecs b).flatMap fun n => match extRec a n.id with
    | none => []
    | some o =>
      if o.tenant = n.tenant ∧ o.base = n.base ∧ o.size = n.size ∧ o.kind = n.kind then
        ((List.range n.size).filter fun g => servingOf o g != servingOf n g || o.pinned != n.pinned).map fun g => (o, n, g)
      else []

/-- The stripe codes whose k and m differ. -/
def changedCodes (a b : Option Image) : List Nat := (List.range 8).filter fun c => stripeKM a c != stripeKM b c

/-! ### The tier map (R355, R356) -/

/-- The number of logical SIDs that an image gives. -/
def logicalUnder (im : Option Image) (s : State) : Nat :=
  (workingSids s.drt).length - min (spareCount im (me s)) (workingSids s.drt).length

/-- Drop the cache ways that lie at or above a tier address and are clean. -/
def dropWaysFrom (lo : Nat) (s : State) : State :=
  ((validWays s).filter fun p => decide (lo ≤ wayAddr s p.1) && !p.2.dirty
    && (inLog s.hrd (p.2.key / 2 ^ 35) (p.2.key % 2 ^ 35)).isNone).foldl (fun s p => dropWay p.1 s) s

/-- Start the move of the tier map: the bounce is emptied (R355 step 1), or the whole cache where L changes (R356 step 1). -/
def mapStart (s : State) : State :=
  let s := { s with drt := { s.drt with lsid := 63, active := true, mark := 0 } }
  if logicalUnder s.vq.active s = s.drt.logical then
    let b := bounceBase s
    let s := ((validWays s).filter fun p => decide (b ≤ wayAddr s p.1) && p.2.dirty).foldl
      (fun s p => commitTile (p.2.key / 2 ^ 35) (p.2.key % 2 ^ 35) s) s
    dropWaysFrom b s
  else commitCache { s with drt := { s.drt with noCache := true } }

/-- The tier map has moved: every address is served under the new map (R355 step 3, R356 step 4). It waits for the tiles of
the bounce, or of the cache, to commit. -/
def mapEnd (s : State) : State :=
  if !s.vq.mig.map then s
  else
    let ended (s : State) : State := { s with
      vq := { s.vq with mig := { s.vq.mig with map := false } }
      drt := { s.drt with lsid := 0, active := s.drt.retire.isSome, mark := 0 } }
    if logicalUnder s.vq.active s = s.drt.logical then
      let s := dropWaysFrom (bounceBase s) s
      if (validWays s).any fun p => decide (bounceBase s ≤ wayAddr s p.1) then s
      else ended { s with drt := setSids s.vq.active (me s) (workingSids s.drt) (spareCount s.vq.active (me s)) s.drt }
    else if !cacheClean s then commitCache s
    else
      let s := (validWays s).foldl (fun s p => dropWay p.1 s) s
      ended { s with drt := { setSids s.vq.active (me s) (workingSids s.drt) (spareCount s.vq.active (me s)) s.drt with noCache := false } }

/-! ### The pools (R357) -/

/-- The new place of each occupied slot: the lowest slots, in ascending order of the old ones. -/
def packSlots (pool : Tbl (Nat × Nat)) : Tbl (Nat × Nat) := pool.zipIdx.map fun p => (p.2, p.1.2)

/-- Where a tier address of the pools goes, given the pinned GiB before and after; none outside occupied slots. -/
def poolMove (d : Drt) (pp pv np a : Nat) : Option Nat :=
  let i := a / gib
  if i < pp then (d.pinned.findIdx? fun p => p.1 == i).map fun j => j * gib + a % gib
  else if i < pp + pv then (d.volatile.findIdx? fun p => p.1 == i - pp).map fun j => (np + j) * gib + a % gib
  else none

/-- Move the contents of the pools to their new slots. -/
def movePools (pp pv np : Nat) (d : Drt) : Drt :=
  { d with
    tier := d.tier.foldl (fun m p => match poolMove d pp pv np p.1 with
      | some a => mset a p.2 m
      | none => m) []
    blocks := d.blocks.foldl (fun t p => match poolMove d pp pv np (p.1 * 4096) with
      | some a => tset (a / 4096) p.2 t
      | none => t) []
    pinned := packSlots d.pinned
    volatile := packSlots d.volatile
    badLines := d.badLines.filterMap fun a => poolMove d pp pv np a }

/-- Start the move of the pools (R357 steps 1 and 4): the DIRTY tiles of the cache commit. -/
def partStart (s : State) : State := commitCache s

/-- The pools have moved (R357 steps 2, 3 and 5), and the cache forms again at its new size. -/
def partEnd (s : State) : State :=
  if s.vq.mig.map || !s.vq.mig.part then s
  else if !cacheClean s then commitCache s
  else
    let s := (validWays s).foldl (fun s p => dropWay p.1 s) s
    { s with
      vq := { s.vq with mig := { s.vq.mig with part := false } }
      drt := movePools (partPinned s.vq.shadow (me s)) (partVolatile s.vq.shadow (me s)) (partPinned s.vq.active (me s)) s.drt }

/-! ### Granules (R358, R360) -/

/-- The granules that leave this unit, those whose residency changes here, and those that come to it. -/
def leavingHere (s : State) : List (ExtRec × Nat) :=
  ((movedGranules s.vq.shadow s.vq.active).filter fun q => servingOf q.1 q.2.2 == me s && servingOf q.2.1 q.2.2 != me s).map fun q => (q.1, q.2.2)
def stayingHere (s : State) : List (ExtRec × ExtRec × Nat) :=
  (movedGranules s.vq.shadow s.vq.active).filter fun q => servingOf q.1 q.2.2 == me s && servingOf q.2.1 q.2.2 == me s
def comingHere (s : State) : List (ExtRec × Nat) :=
  ((movedGranules s.vq.shadow s.vq.active).filter fun q => servingOf q.1 q.2.2 != me s && servingOf q.2.1 q.2.2 == me s).map fun q => (q.2.1, q.2.2)

/-- A tile lies in granule `g` of an extent. -/
def inGranule (e : ExtRec) (g t tile : Nat) : Bool := t == e.tenant && tile / 32768 == e.base + g

/-- Start the move of granules: those that come are taken from another unit's directory (R229), and the DIRTY tiles of
those that leave or change residency commit (R358 step 1), their holders snooped out (step 2). -/
def granStart (s : State) : State :=
  let inn := if s.vq.mig.reverse ∧ s.vq.mig.handed = false then [] else comingHere s
  let s := { s with hrd := { s.hrd with
      foreign := inn.foldl (fun l q => addNew (q.1.id, q.2) l) s.hrd.foreign
      dir := s.hrd.dir.filter fun d => !(inn.any fun q => inGranule q.1 q.2 d.tenant d.tile) } }
  let out := leavingHere s ++ (stayingHere s).map fun q => (q.1, q.2.2)
  let s := (leavingHere s).foldl (fun s q =>
    (s.ext.sf.filter fun f => f.tenant == q.1.tenant && f.addr / gib == q.1.base + q.2).foldl
      (fun s f => startSnoop f.tenant f.addr false (snoopTargets s f) .move s) s) s
  out.foldl (fun s q => ((dirtyTiles s).filter fun t => inGranule q.1 q.2 t.1 t.2).foldl (fun s t => commitTile t.1 t.2 s)
    (flushRange q.1.tenant ((q.1.base + q.2) * gib) ((q.1.base + q.2 + 1) * gib) s)) s

/-- Nothing of a granule here differs from the Hoard or is held by a host. -/
def granQuiet (s : State) (e : ExtRec) (g : Nat) : Bool :=
  !((dirtyTiles s).any fun t => inGranule e g t.1 t.2)
    && !(s.cdc.stg.any fun x => entryDirty x && inGranule e g x.tenant (x.block / 8))
    && !(s.hrd.stripes.any fun p => p.2.st != 2 && p.2.tiles.any fun t => inGranule e g t.tenant t.tile)
    && !(s.ext.sf.any fun f => f.tenant == e.tenant && f.addr / gib == e.base + g)

/-- Drop what DRAM holds of a granule: its cache ways, its staged strips, its slot. -/
def dropGranule (e : ExtRec) (g : Nat) (s : State) : State :=
  let s := ((validWays s).filter fun p => inGranule e g (p.2.key / 2 ^ 35) (p.2.key % 2 ^ 35)).foldl (fun s p => dropWay p.1 s) s
  { s with
    cdc := { s.cdc with stg := s.cdc.stg.filter fun x => !inGranule e g x.tenant (x.block / 8) }
    drt := { s.drt with
      pinned := s.drt.pinned.filter fun p => p.2 != (e.id, g)
      dirtyPinned := s.drt.dirtyPinned.filter fun t => !inGranule e g t.1 t.2
      unfilled := s.drt.unfilled.filter fun t => !inGranule e g t.1 t.2
      landedPinned := s.drt.landedPinned.filter fun t => !inGranule e g t.1 t.2.1 } }

/-- The granules have moved: those that leave are handed over (R358 step 3), those that stay change residency in place, and
those that come take their slots. It waits while anything of them is DIRTY or held. -/
def granEnd (s : State) : State :=
  if s.vq.mig.map || s.vq.mig.part || !s.vq.mig.gran then s
  else if !((leavingHere s).all (fun q => granQuiet s q.1 q.2) && (stayingHere s).all fun q => granQuiet s q.1 q.2.2) then granStart s
  else
    let stay := stayingHere s
    let s := (leavingHere s ++ stay.map fun q => (q.1, q.2.2)).foldl (fun s q => dropGranule q.1 q.2 s) s
    let come := comingHere s
    let s := { s with vq := { s.vq with mig := { s.vq.mig with gran := false, handed := s.vq.mig.handed || s.vq.mig.routeOld } } }
    let s := ((come ++ stay.map fun q => (q.2.1, q.2.2)).filter fun q => q.1.pinned && q.1.kind != 3).foldl (fun s q => takePinned q.1 q.2 s) s
    fillPinned s

/-- The stripes of this writer with the k and m of a code before the update (R360). -/
def oldStripes (s : State) : List Nat := (s.hrd.stripes.filter fun p => oldStripe s p.2).map (·.1)

/-- The rewriting of old-code stripes goes on (R360): `LEFT` counts them, and none left settles the change. -/
def stripeEnd (s : State) : State :=
  if s.vq.mig.map || s.vq.mig.part || !s.vq.mig.stripe then s
  else
    let s := (oldStripes s).foldl (fun s i => (liveTiles s.hrd i).foldl (fun s d => repackTile d.tenant d.tile s) (releaseIfDead i s)) s
    let n := (oldStripes s).length
    { s with vq := { s.vq with mig := { s.vq.mig with left := n, stripe := n != 0 } } }

/-- The first move that is due starts (R353). -/
def moveStart (s : State) : State :=
  let m := s.vq.mig
  if m.map then mapStart s
  else if m.part then partStart s
  else
    let s := if m.gran then granStart s else s
    if m.stripe then
      (((s.hrd.stripes.filter fun p => p.2.st == 0 && oldStripe s p.2).map (·.1)).foldl (fun s i => closeStripe i s) s) else s

/-- The moves reach their ends in their order, as far as they can (R353). -/
def moveGo (s : State) : State :=
  let stage (f : State → State) (was : State → Bool) (s : State) : State :=
    let t := f s
    if was s && !was t then moveStart t else t
  let s := stage mapEnd (·.vq.mig.map) s
  let s := stage partEnd (·.vq.mig.part) s
  stripeEnd (granEnd s)

/-- No move is left (R353). -/
def moved (s : State) : Bool := !s.vq.mig.map && !s.vq.mig.part && !s.vq.mig.gran && !s.vq.mig.stripe

end Sys2Proof.Machine
end

