-- ==== Sys2Proof/Machine/Validate.lean ====
section
/-! DEFINITION. The validation of an image: the fourteen steps of Table 4.5 in their order (R63 to R71). -/

namespace Sys2Proof.Machine

/-- A verdict: the code of Table 4.5, with the record and field offsets of `VQ_DETAIL`. -/
structure Verdict where
  code : Nat
  record : Nat
  field : Nat
deriving DecidableEq, Repr

/-- The code-0 verdict. -/
def Verdict.ok : Verdict := ⟨0, 0, 0⟩

/-- A record with its byte offset in the image. -/
abbrev ORec := Nat × Record

/-- The first element of a list of checks that fails: offset and pass flag. -/
def firstFail (l : List (Nat × Bool)) : Option Nat := (l.find? fun c => !c.2).map (·.1)

/-- Step 1, SIZE. -/
def vSize (raw : List Byte) : Option Nat :=
  let t := fld raw 8 4
  if t ≠ raw.length ∨ t < 5600 ∨ t > 16777216 then some 8 else none

/-- Step 2, HEADER, in the order its row lists the faults. -/
def vHeader (raw : List Byte) : Option Nat :=
  firstFail [
    (0x00, fld raw 0 4 == 0x31495156), (0x04, fld raw 4 2 == 1), (0x06, fld raw 6 2 == 0x80),
    (0x12, fld raw 0x12 2 == 0), (0x34, allZero (slice raw 0x34 12)), (0x50, allZero (slice raw 0x50 48)),
    (0x08, fld raw 8 4 == 128 + fld raw 0x14 4 + 5464), (0x14, fld raw 0x14 4 % 8 == 0),
    (0x20, fld raw 0x20 8 != 0)]

/-- Step 3, SLOT. -/
def vSlot (f : Fus) (raw : List Byte) : Option Nat :=
  let k := fld raw 0x11 1
  if k > 3 then some 0x11
  else if !slotProgrammed f k || slotRevoked f k then some 0x11 else none

/-- The offset of the first non-zero byte of a range, if any. -/
def firstNonZero (raw : List Byte) (o n : Nat) : Option Nat :=
  (List.range n).findSome? fun i => if raw.getD (o + i) 0 = 0 then none else some i

/-- The start of the signature block. -/
def sigStart (raw : List Byte) : Nat := 128 + fld raw 0x14 4

/-- Step 4, KEY: padding, then the hash of the carried keys (R62, R44). -/
def vKey (f : Fus) (raw : List Byte) : Option Nat :=
  let b := sigStart raw
  match firstNonZero raw (b + 2049) 7 with
  | some i => some (2049 + i)
  | none =>
    if sha384 (slice raw b 1952 ++ slice raw (b + 1952) 97) = fuseHash f (18 + 6 * (fld raw 0x11 1)) then none
    else some 0

/-- Step 5, SIGNATURE: padding, then ML-DSA-65, then ECDSA P-384 (R62). -/
def vSignature (raw : List Byte) : Option Nat :=
  let b := sigStart raw
  let m := sha384 (raw.take (b + 2056))
  match firstNonZero raw (b + 5365) 3 with
  | some i => some (5365 + i)
  | none =>
    if !Config.mldsaVerify (slice raw b 1952) m (slice raw (b + 2056) 3309) then some 2056
    else if !Config.ecdsaVerify (slice raw (b + 1952) 97) m (slice raw (b + 5368) 96) then some 5368
    else none

/-- Step 6, ROLLBACK (R47). -/
def vRollback (f : Fus) (raw : List Byte) : Option Nat :=
  let r := fld raw 0x10 1
  if r > 128 ∨ r < arb f then some 0x10 else none

/-- An identity (R60) as one number in the order type, scope, instance. -/
def identNum (t sc i : Nat) : Nat := (t * 65536 + sc) * 65536 + i

/-- Step 7, FRAMING: the walk of the record area, by fuel; the records found, or record and field offset. -/
def vWalk (raw : List Byte) (stop : Nat) : Nat → Nat → Option Nat → List ORec → Except (Nat × Nat) (List ORec)
  | 0, _, _, acc => .ok acc.reverse
  | n + 1, o, prev, acc =>
    if stop ≤ o then .ok acc.reverse
    else
      let t := fld raw o 1
      let len := fld raw (o + 2) 2
      let id := identNum (t % 64) (fld raw (o + 6) 2) (fld raw (o + 4) 2)
      if 64 ≤ t then .error (o, 0)
      else if len < 8 then .error (o, 2)
      else if len % 8 ≠ 0 then .error (o, 2)
      else if stop < o + len then .error (o, 2)
      else if (match prev with
        | some p => decide (id ≤ p)
        | none => false) then .error (o, 0)
      else
        vWalk raw stop n (o + len) (some id)
          ((o, { typ := t, version := fld raw (o + 1) 1, inst := fld raw (o + 4) 2, scope := fld raw (o + 6) 2,
                 body := slice raw (o + 8) (len - 8) }) :: acc)

/-- The type codes of Table 4.4. -/
def typeKnown (t : Nat) : Bool := decide (1 ≤ t) && decide (t ≤ 0x17)

/-- Step 8, TYPE. -/
def vType (rs : List ORec) : Option (Nat × Nat) :=
  rs.findSome? fun (o, r) =>
    if !typeKnown r.typ then some (o, 0) else if r.version ≠ 1 then some (o, 1) else none

/-- The bytes after the first zero byte are zero. -/
def zeroPadded (l : List Byte) : Bool := allZero (l.dropWhile (· != 0))

/-- A run of UTF-8 (R66, names and labels): `n` continuation bytes are still owed. -/
def utf8 : Nat → List Byte → Bool
  | n, [] => n == 0
  | n, b :: bs =>
    let v := b.toNat
    if n ≠ 0 then decide (0x80 ≤ v) && decide (v < 0xC0) && utf8 (n - 1) bs
    else if v < 0x80 then utf8 0 bs
    else if 0xC2 ≤ v ∧ v < 0xE0 then utf8 1 bs
    else if 0xE0 ≤ v ∧ v < 0xF0 then utf8 2 bs
    else if 0xF0 ≤ v ∧ v < 0xF5 then utf8 3 bs
    else false

/-- A name field: zero-padded UTF-8. -/
def nameOk (l : List Byte) : Bool := zeroPadded l && utf8 0 (l.takeWhile (· != 0))

/-- Scope rules (R61, Table 4.4): 0 fabric, 1 per-unit, 2 unit. -/
def scopeKindOf (t : Nat) : Nat :=
  if t = 0x02 then 1
  else if t = 0x01 ∨ t = 0x03 ∨ t = 0x04 ∨ t = 0x0E ∨ t = 0x0F ∨ t = 0x10 ∨ t = 0x14 then 0 else 2

/-- A record's scope is allowed for its type. -/
def scopeOk (r : Record) : Bool :=
  match scopeKindOf r.typ with
  | 0 => r.scope == 0xFFFF
  | 1 => decide (r.scope < 1024)
  | _ => r.scope == 0xFFFF || decide (r.scope < 1024)

/-- The largest instance of a type (Table 4.4). -/
def instMax (t : Nat) : Nat :=
  if t = 0x03 ∨ t = 0x04 ∨ t = 0x05 ∨ t = 0x06 ∨ t = 0x08 then 255
  else if t = 0x0E ∨ t = 0x11 then 7
  else if t = 0x0F ∨ t = 0x10 then 65535 else 0

/-- Round up to a multiple of 8. -/
def up8 (n : Nat) : Nat := (n + 7) / 8 * 8

/-- The length a type sets (Tables 4.6 to 4.28); `none` where it is not judged (ROUTES without FABRIC). -/
def lenFor (n : Option Nat) (r : Record) : Option Nat :=
  match r.typ with
  | 0x02 => some 32
  | 0x03 => some 40
  | 0x07 => some 48
  | 0x09 => some 144
  | 0x0F => some 56
  | 0x10 => some (up8 (16 + 2 * rfld r 8 1))
  | 0x11 => some 40
  | 0x12 => some 200
  | 0x13 => n.map fun n => up8 (8 + 2 * n)
  | 0x15 => some 48
  | 0x16 => some 48
  | _ => some 16

/-- `lo ≤ v ≤ hi` for a record's field, with its offset. -/
def inRange (r : Record) (o n lo hi : Nat) : Nat × Bool :=
  (o, decide (lo ≤ rfld r o n) && decide (rfld r o n ≤ hi))

/-- Reserved bytes of a record are zero, with the offset. -/
def resv (r : Record) (o n : Nat) : Nat × Bool := (o, allZero (slice r.body (o - 8) n))

/-- The checks of a record's own fields, in offset order (Tables 4.6 to 4.28). -/
def fieldChecks (n : Option Nat) (r : Record) : List (Nat × Bool) :=
  match r.typ with
  | 0x01 => [inRange r 8 2 1 1024, inRange r 10 2 100 60000, inRange r 12 2 0 1023, inRange r 14 1 0 1, resv r 15 1]
  | 0x02 => [inRange r 24 1 0 1, resv r 25 7]
  | 0x03 => [inRange r 8 2 0 1023, inRange r 10 2 1 4096, inRange r 12 2 0 3, resv r 14 2,
             (16, nameOk (slice r.body 8 24))]
  | 0x04 => [inRange r 8 2 100 60000, inRange r 10 2 2 600, inRange r 12 2 10 1000, resv r 14 2]
  | 0x05 => [inRange r 9 1 0 1, resv r 10 6]
  | 0x06 => [inRange r 8 4 0 65535, inRange r 12 4 0 65536]
  | 0x07 => []
  | 0x08 => [resv r 12 4]
  | 0x09 => ((List.range 32).map fun q => inRange r (8 + 4 * q) 4 100 10000000) ++ [inRange r 136 1 1 50, resv r 137 7]
  | 0x0A => [inRange r 8 2 0 300, inRange r 10 2 0 300, resv r 12 4]
  | 0x0B => [inRange r 8 1 9 15, inRange r 9 1 0 1, resv r 10 6]
  | 0x0C => [inRange r 8 1 0 4, resv r 9 3]
  | 0x0D => [(8, decide (rfld r 8 1 < 8) && bit (rfld r 8 1) 2), inRange r 9 1 6 16, resv r 11 5]
  | 0x0E => [inRange r 8 1 4 16, inRange r 9 1 2 4, resv r 10 6]
  | 0x0F => [inRange r 9 1 1 3, inRange r 10 1 0 5, inRange r 11 1 0 1, inRange r 12 1 0 7, resv r 13 3,
             inRange r 16 4 0 (2 ^ 20 - 1), inRange r 20 4 1 (2 ^ 20)]
  | 0x10 => [inRange r 9 1 0 1, resv r 10 6]
      ++ (List.range (rfld r 8 1)).map (fun i => inRange r (16 + 2 * i) 2 0 1023)
      ++ [(16 + 2 * rfld r 8 1, allZero (r.body.drop (8 + 2 * rfld r 8 1)))]
  | 0x11 => (List.range 16).map fun s =>
      let st := rfld r (8 + 2 * s) 1
      let k := rfld r (9 + 2 * s) 1
      (8 + 2 * s, (st == 0 && k == 0) || ((decide (1 ≤ st ∧ st ≤ 0x10) || st == 0x20 || st == 0x21) && decide (1 ≤ k)))
  | 0x12 => (List.range 48).map fun i =>
      let p := rfld r (8 + 4 * i) 2
      let q := rfld r (10 + 4 * i) 1
      let l := rfld r (11 + 4 * i) 1
      (8 + 4 * i, (p == 0xFFFF && q == 0 && l == 0) || decide (p ≤ 1023 ∧ q ≤ 47 ∧ 2 ≤ l ∧ l ≤ 4))
  | 0x13 =>
      (List.range (n.getD 0)).map (fun d =>
        let p := rfld r (8 + 2 * d) 1
        let q := rfld r (9 + 2 * d) 1
        (8 + 2 * d, (decide (p ≤ 47) || p == 0xFF) && (decide (q ≤ 47) || q == 0xFF)
          && (r.scope != d || (p == 0xFF && q == 0xFF))))
      ++ [(8 + 2 * n.getD 0, n.isNone || allZero (r.body.drop (2 * n.getD 0)))]
  | 0x14 => [inRange r 8 2 30 730, inRange r 10 2 1 90, inRange r 12 1 25 70, resv r 13 3]
  | 0x15 => (List.range 8).flatMap (fun i =>
        [inRange r (8 + 4 * i) 1 60 190, resv r (9 + 4 * i) 1,
         (10 + 4 * i, rfld r (10 + 4 * i) 2 == 0 || decide (5000 ≤ rfld r (10 + 4 * i) 2 ∧ rfld r (10 + 4 * i) 2 ≤ 25000))])
      ++ [inRange r 40 2 200 700, inRange r 42 1 80 105, resv r 43 5]
  | 0x16 => [(8, nameOk (slice r.body 0 24)), inRange r 32 1 0 1, inRange r 33 1 1 255, inRange r 34 1 0 1, resv r 35 13]
  | 0x17 => [inRange r 9 1 0 2, resv r 10 6]
  | _ => []

/-- Step 9 for one record: a TIERING count first, then the length, the scope, the instance, the fields. -/
def vFieldOne (n : Option Nat) (r : Record) : Option Nat :=
  firstFail (
    (if r.typ = 0x10 then [inRange r 8 1 1 64] else [])
    ++ [(2, match lenFor n r with
          | some l => 8 + r.body.length == l
          | none => true),
        (6, scopeOk r), (4, decide (r.inst ≤ instMax r.typ))]
    ++ fieldChecks n r)

/-- Step 9, FIELD, in record order. -/
def vField (n : Option Nat) (rs : List ORec) : Option (Nat × Nat) :=
  rs.findSome? fun (o, r) => (vFieldOne n r).map fun f => (o, f)

/-- The units of an image, and whether a number is one. -/
def unitScopes (m : Image) : List Nat := (m.records.filter (·.typ == 0x02)).map (·.scope)

/-- The record that a unit's own look-up finds is this one. -/
def applies (m : Image) (u : Nat) (r : Record) : Bool := look (some m) u r.typ r.inst == some r

/-- The records before this one in record order. -/
def recsBefore (rs : List ORec) (o : Nat) : List Record := (rs.filter fun p => p.1 < o).map (·.2)

/-- Rule 1 of step 10. -/
def rule1 (m : Image) (rs : List ORec) : Option (Nat × Nat) :=
  let us := unitScopes m
  let n := fabN (some m)
  if !(m.records.any fun r => r.typ == 0x01) then some (0, 0) else
  rs.findSome? fun (o, r) =>
    (firstFail (match r.typ with
      | 0x01 => [(8, us.length == n), (12, us.contains (rfld r 12 2))]
      | 0x02 => [(6, decide (r.scope < n)),
                 (8, !((recsBefore rs o).any fun q => q.typ == 0x02 && rfld q 8 16 == rfld r 8 16))]
      | 0x03 => [(8, us.contains (rfld r 8 2))]
      | 0x10 => (List.range (rfld r 8 1)).map fun i => (16 + 2 * i, us.contains (rfld r (16 + 2 * i) 2))
      | 0x12 => (List.range 48).map fun i =>
          (8 + 4 * i, rfld r (8 + 4 * i) 2 == 0xFFFF || us.contains (rfld r (8 + 4 * i) 2))
      | _ => [])).map fun f => (o, f)

/-- Rule 2 of step 10. -/
def rule2 (m : Image) (rs : List ORec) : Option (Nat × Nat) :=
  let has := hasTenant (some m)
  if !has 0 then some (0, 0) else
  rs.findSome? fun (o, r) =>
    (firstFail (match r.typ with
      | 0x04 => [(4, has r.inst)]
      | 0x05 => [(8, has (rfld r 8 1))]
      | 0x06 => [(4, has r.inst)]
      | 0x0F => [(8, has (rfld r 8 1)),
                 (24, (List.range 256).all fun t => !bit (rfld r 24 32) t || has t)]
      | _ => [])).map fun f => (o, f)

/-- Rule 3 of step 10. -/
def rule3 (m : Image) (rs : List ORec) : Option (Nat × Nat) :=
  rs.findSome? fun (o, r) =>
    if r.typ ≠ 0x05 then none else
    (firstFail [
      (9, !bit (rfld r 9 1) 0 || rfld r 8 1 == 0),
      (4, r.inst / 16 % 2 == 0 ||
        (unitScopes m).all fun u => !applies m u r || portSplit (some m) u (r.inst / 32))]).map fun f => (o, f)

/-- Two half-open ranges share a member. -/
def overlap (a b : Nat × Nat) : Bool := decide (a.1 < b.1 + b.2) && decide (b.1 < a.1 + a.2)

/-- Rule 4 of step 10. -/
def rule4 (m : Image) (rs : List ORec) : Option (Nat × Nat) :=
  rs.findSome? fun (o, r) =>
    if r.typ ≠ 0x06 then none else
    let me := (rfld r 8 4, rfld r 12 4)
    (firstFail [
      (12, decide (me.1 + me.2 ≤ 65536)),
      (8, (unitScopes m).all fun u => !applies m u r ||
        !((recsBefore rs o).any fun q => q.typ == 0x06 && applies m u q && overlap me (rfld q 8 4, rfld q 12 4)))]).map
      fun f => (o, f)

/-- Rule 5 of step 10. -/
def rule5 (m : Image) (rs : List ORec) : Option (Nat × Nat) :=
  rs.findSome? fun (o, r) =>
    if r.typ ≠ 0x0F then none else
    let t := rfld r 8 1
    let own := (recsBefore rs o).filter fun q => q.typ == 0x0F && rfld q 8 1 == t
    (firstFail [
      (16, !(own.any fun q => overlap (rfld r 16 4, rfld r 20 4) (rfld q 16 4, rfld q 20 4))),
      (20, decide (rfld r 16 4 + rfld r 20 4 ≤ 2 ^ 20)),
      (8, decide (own.length < tenMax (some m) t)),
      (24, tenSeal (some m) t || (List.range 256).all fun i => i == t || !bit (rfld r 24 32) i)]).map fun f => (o, f)

/-- Rule 6 of step 10. -/
def rule6 (m : Image) (rs : List ORec) : Option (Nat × Nat) :=
  let hoard := (hoardUnits (some m)).length
  rs.findSome? fun (o, r) =>
    (firstFail (match r.typ with
      | 0x0F =>
        [(4, m.records.any fun q => q.typ == 0x10 && q.inst == r.inst),
         (12, rfld r 9 1 == 3 || (match stripeKM (some m) (rfld r 12 1) with
            | some (k, mm) => decide (k + mm ≤ hoard)
            | none => false))]
      | 0x10 =>
        [(4, m.records.any fun q => q.typ == 0x0F && q.inst == r.inst),
         (8, !(m.records.any fun q => q.typ == 0x0F && q.inst == r.inst && rfld q 9 1 == 3) || rfld r 8 1 == 1)]
      | _ => [])).map fun f => (o, f)

/-- How many granules of a size-`z` extent a unit serves under a serving list. -/
def granulesOf (serving : List Nat) (z u : Nat) : Nat :=
  ((List.range serving.length).map fun j =>
    if serving.getD j 0 = u ∧ j < z then (z - j + serving.length - 1) / serving.length else 0).sum

/-- The granules a unit must hold in its pinned pool and in its volatile pool (rule 7). -/
def poolNeed (es : List ExtRec) (u : Nat) : Nat × Nat :=
  (((es.filter fun e => e.kind != 3 && e.pinned).map fun e => granulesOf e.serving e.size u).sum,
   ((es.filter fun e => e.kind == 3).map fun e => granulesOf e.serving e.size u).sum)

/-- Rule 7 of step 10: the pools fit, at the first TIERING record that no longer fits or at the PARTITION. -/
def rule7 (m : Image) (rs : List ORec) : Option (Nat × Nat) :=
  let im := some m
  rs.findSome? fun (o, r) =>
    (firstFail (match r.typ with
      | 0x0A => [(8, (unitScopes m).all fun u => !applies m u r ||
          decide (4 * (partPinned im u + partVolatile im u) + 128 ≤ 45 * (32 - spareCount im u)))]
      | 0x0C => [(8, (unitScopes m).all fun u => !applies m u r ||
          decide (4 * (partPinned im u + partVolatile im u) + 128 ≤ 45 * (32 - spareCount im u)))]
      | 0x10 =>
        let es := (extRecs im).filter fun e => decide (e.id ≤ r.inst)
        [(16, (unitScopes m).all fun u =>
          let need := poolNeed es u
          decide (need.1 ≤ partPinned im u) && decide (need.2 ≤ partVolatile im u))]
      | _ => [])).map fun f => (o, f)

/-- The streams that a logical engine's schedule serves. -/
def schedStreams (im : Option Image) (u i : Nat) : List Nat :=
  ((List.range 16).map fun s => (codecSlot im u i s).1).foldl (fun l x => addNew x l) []

/-- Rule 8 of step 10. -/
def rule8 (m : Image) (rs : List ORec) : Option (Nat × Nat) :=
  let im := some m
  let bad := rs.findSome? fun (o, r) =>
    (firstFail (match r.typ with
      | 0x05 => [(4, (unitScopes m).all fun u => !applies m u r ||
          ((List.range 8).filter fun i => (schedStreams im u i).contains (r.inst / 16 + 1)).length == 1)]
      | 0x11 => [(8, (unitScopes m).all fun u => !applies m u r ||
          decide (((schedStreams im u r.inst).filter fun x => decide (1 ≤ x ∧ x ≤ 0x10)).length ≤ 2))]
      | _ => [])).map fun f => (o, f)
  match bad with
  | some d => some d
  | none =>
    if (unitScopes m).all fun u =>
      [0x20, 0x21].all fun st => (List.range 8).any fun i => (schedStreams im u i).contains st
    then none
    else ((rs.find? fun p => p.2.typ == 0x11).map fun p => (p.1, 8))

/-- Rule 9 of step 10. -/
def rule9 (m : Image) (rs : List ORec) : Option (Nat × Nat) :=
  let im := some m
  rs.findSome? fun (o, r) =>
    if r.typ ≠ 0x12 then none else
    (firstFail ((List.range 48).map fun i => (8 + 4 * i, (unitScopes m).all fun u => !applies m u r ||
      (match topo im u i with
        | none => true
        | some (p, q, _) => p != u && (match topo im p q with
          | some (p', q', _) => p' == u && q' == i
          | none => false))))).map fun f => (o, f)

/-- Following primary ports from `u` reaches `d` within the steps left (rule 10). -/
def reaches (im : Option Image) (d : Nat) : Nat → Nat → List Nat → Bool
  | 0, u, _ => u == d
  | n + 1, u, seen =>
    u == d ||
    (match route im u d with
      | none => false
      | some (p, _) => match topo im u p with
        | none => false
        | some (v, _, _) => !seen.contains v && reaches im d n v (v :: seen))

/-- Rule 10 of step 10. -/
def rule10 (m : Image) (rs : List ORec) : Option (Nat × Nat) :=
  let im := some m
  let n := fabN im
  if n ≤ 1 then none
  else if !((unitScopes m).all fun u => (look im u 0x13 0).isSome) then some (0, 0)
  else rs.findSome? fun (o, r) =>
    if r.typ ≠ 0x13 then none else
    (firstFail ((List.range n).map fun d => (8 + 2 * d, (unitScopes m).all fun u => !applies m u r || u == d ||
      (match route im u d with
        | none => false
        | some (p, q) => (topo im u p).isSome && (q == 0xFF || ((topo im u q).isSome && q != p))
            && reaches im d n u [u])))).map fun f => (o, f)

/-- Rule 11 of step 10 for one unit: the floors of Table 2.5 as `VMAX` codes. -/
def floorsOk (im : Option Image) (u : Nat) : Bool :=
  let v6 := (powVmax im u 6).getD 190
  let v7 := (powVmax im u 7).getD 190
  let st := dramStates im u
  let act := ((List.range 48).filter fun n => (topo im u n).isSome).length
  (!bit st 0 || decide (90 ≤ v6)) && (!bit st 1 || decide (70 ≤ v6)) && decide (60 ≤ v6)
    && (!(portMaxRate im u == 0 || decide (24 < act)) || decide (80 ≤ v7)) && decide (60 ≤ v7)

/-- Rule 11 of step 10. -/
def rule11 (m : Image) (rs : List ORec) : Option (Nat × Nat) :=
  rs.findSome? fun (o, r) =>
    if r.typ ≠ 0x15 then none
    else if (unitScopes m).all fun u => !applies m u r || floorsOk (some m) u then none else some (o, 32)

/-- Rule 12 of step 10. -/
def rule12 (rs : List ORec) : Option (Nat × Nat) :=
  rs.findSome? fun (o, r) =>
    if r.typ ≠ 0x04 then none
    else if rfld r 8 2 * 2 > rfld r 10 2 * 1000 then some (o, 8)
    else if rfld r 12 2 * 4 > rfld r 8 2 then some (o, 12) else none

/-- Step 10, CONSISTENCY (R67): the rules in order. -/
def vConsistency (m : Image) (rs : List ORec) : Option (Nat × Nat) :=
  rule1 m rs <|> rule2 m rs <|> rule3 m rs <|> rule4 m rs <|> rule5 m rs <|> rule6 m rs <|> rule7 m rs
    <|> rule8 m rs <|> rule9 m rs <|> rule10 m rs <|> rule11 m rs <|> rule12 rs

/-- The unit number of this die in an image (step 11). -/
def memberNumber (f : Fus) (m : Image) : Option Nat :=
  (m.records.find? fun r => r.typ == 0x02 && rfld r 8 16 == (dieLo f).toNat + 2 ^ 64 * (dieHi f).toNat).map (·.scope)

/-- Step 12, FUSE_CONFLICT (R68, R52), for unit `u`. -/
def vFuse (f : Fus) (m : Image) (u : Nat) (rs : List ORec) : Option (Nat × Nat) :=
  rs.findSome? fun (o, r) =>
    if !applies m u r then none else
    (firstFail (match r.typ with
      | 0x15 => (List.range 8).map fun i => (8 + 4 * i, decide (rfld r (8 + 4 * i) 1 ≤ vmaxCode f))
      | 0x05 => [(8, !bindForbidden f (r.inst / 32) (rfld r 8 1)),
                 (9, !bit (rfld r 9 1) 0 || !adminForbidden f (r.inst / 32))]
      | 0x12 => (List.range 48).map fun i => (8 + 4 * i, rfld r (8 + 4 * i) 2 == 0xFFFF || !portForbidden f i)
      | 0x0D => [(10, rfld r 10 1 == 0 || !debugForbids f 5)]
      | _ => [])).map fun x => (o, x)

/-- The effective class of a change of a type (R70): the type's class raised by the protection map. -/
def effClass (f : Fus) (t : Nat) : Nat :=
  match pmapCode f t with
  | 0 => typeClass t
  | 1 => if typeClass t = 0 then 1 else typeClass t
  | _ => 3

/-- The same identity (R60). -/
def sameIdent (a b : Record) : Bool := a.typ == b.typ && a.scope == b.scope && a.inst == b.inst

/-- The byte offset of each record of an image. -/
def withOffsets : Nat → List Record → List ORec
  | _, [] => []
  | o, r :: rs => (o, r) :: withOffsets (o + 8 + r.body.length) rs

/-- The changes of an update by identity (R70): records added or changed, then records removed, with
offsets in the new image and in the image in force. -/
def changes (old new : Image) : List ORec × List ORec :=
  ((withOffsets 128 new.records).filter fun p => !old.records.contains p.2,
   (withOffsets 128 old.records).filter fun p => !(new.records.any fun q => sameIdent q p.2))

/-- Step 14, CLASS (R70). -/
def vClass (f : Fus) (old new : Image) : Option (Nat × Nat) :=
  let ch := changes old new
  match ch.1.find? fun p => effClass f p.2.typ == 3 with
  | some p => some (p.1, 0)
  | none => (ch.2.find? fun p => effClass f p.2.typ == 3).map fun p => (p.1, 0xFFFF)

/-- Step 13, STALE (R71, R362): the parent digest, then the generation; the header field that fails. -/
def vStale (inForce : Option Image) (floor : Nat) (m : Image) : Option Nat :=
  let low := decide (m.gen ≤ floor)
  match inForce with
  | some a => if m.parent ≠ a.digest.take 16 then some 0x40 else if m.gen ≤ a.gen ∨ low = true then some 0x20 else none
  | none => if low then some 0x20 else none

/-- The image that a framed byte string holds. -/
def mkImage (raw : List Byte) (rs : List ORec) : Image :=
  { raw := raw, rollback := fld raw 0x10 1, slot := fld raw 0x11 1, fabric := BitVec.ofNat 64 (fld raw 0x18 8),
    gen := fld raw 0x20 8, parent := slice raw 0x40 16, records := rs.map (·.2),
    digest := sha384 (raw.take (sigStart raw)) }

/-- Steps 1 to 6: header and signature block only. -/
def validateOuter (f : Fus) (raw : List Byte) : Option Verdict :=
  ((vSize raw).map fun x => ⟨1, 0, x⟩) <|> ((vHeader raw).map fun x => ⟨2, 0, x⟩)
    <|> ((vSlot f raw).map fun x => ⟨3, 0, x⟩) <|> ((vKey f raw).map fun x => ⟨4, 0, x⟩)
    <|> ((vSignature raw).map fun x => ⟨5, 0, x⟩) <|> ((vRollback f raw).map fun x => ⟨6, 0, x⟩)

/-- A refusal by record and field offset. -/
def Verdict.at (c : Nat) (p : Nat × Nat) : Verdict := ⟨c, p.1, p.2⟩

/-- Steps 8 to 12 of a framed image. -/
def validateInner (f : Fus) (m : Image) (rs : List ORec) : Option Verdict :=
  let n := (m.records.find? fun r => r.typ == 0x01).map fun r => rfld r 8 2
  ((vType rs).map (Verdict.at 8)) <|> ((vField n rs).map (Verdict.at 9)) <|> ((vConsistency m rs).map (Verdict.at 10))
    <|> (match memberNumber f m with
      | none => some ⟨11, 0, 0⟩
      | some u => (vFuse f m u rs).map (Verdict.at 12))

/-- The validation of R63, up to step `last` (12 for VALIDATE, 13 for NEXT_START, 14 for UPDATE): the verdict,
and the image when the walk of step 7 succeeds. -/
def validateImage (f : Fus) (inForce : Option Image) (floor : Nat) (raw : List Byte) (last : Nat) :
    Verdict × Option Image :=
  match validateOuter f raw with
  | some v => (v, none)
  | none =>
    let stop := sigStart raw
    match vWalk raw stop (stop / 8) 128 none [] with
    | .error p => (Verdict.at 7 p, none)
    | .ok rs =>
      if rs.length ≠ fld raw 0x0C 4 then (⟨7, 0, 0x0C⟩, none)
      else
        let m := mkImage raw rs
        match validateInner f m rs with
        | some v => (v, some m)
        | none =>
          match (if 13 ≤ last then vStale inForce floor m else none) with
          | some x => (⟨13, 0, x⟩, some m)
          | none => match (if 14 ≤ last then inForce else none) with
            | some a => match vClass f a m with
              | some p => (Verdict.at 14 p, some m)
              | none => (Verdict.ok, some m)
            | none => (Verdict.ok, some m)

end Sys2Proof.Machine
end

