-- ==== Sys2Proof/Machine/Epoch.lean ====
section
/-! DEFINITION. Epochs (chapter 15): how an update is prepared, decided and switched, what each STAGED change does, how its
moves settle, and how an update is reversed; and the image store (R72). -/

namespace Sys2Proof.Machine

/-! ### The image store (R72) -/

/-- The image in the current bank, and in the other bank. -/
def currentBank (v : Vq) : Option Image := if v.currentB then v.bankB else v.bankA
def otherBank (v : Vq) : Option Image := if v.currentB then v.bankA else v.bankB

/-- Write an image to the non-current bank. -/
def bankPut (m : Image) (v : Vq) : Vq := if v.currentB then { v with bankA := some m } else { v with bankB := some m }

/-- The first 16 bytes of an image's digest, as the epoch messages carry them. -/
def digest16 (m : Image) : BitVec 128 := BitVec.ofNat 128 (leNat (m.digest.take 16))

/-- The unit starts again from phase 5 (R71, R93, R345): STARTING, with the phases that follow to come. -/
def startFrom5 (s : State) : State :=
  let s := moveTo .starting 0 0 { s with flt := { s.flt with byHold := false, byFault := false, causes := [] } }
  { s with
    uni := { s.uni with phase := 5 }
    vq := { s.vq with restart5 := true } }

/-- Store a next image (R72, R406): the marker names it, and a confirmation of another next image lapses. On a unit with no
image in force the start from phase 5 follows (R93). -/
def storeNext (m : Image) (s : State) : State :=
  let same := s.vq.nextMarked && (otherBank s.vq).map (·.digest) == some m.digest
  let s := { s with
    vq := { bankPut m s.vq with nextMarked := true }
    pnl := if same then s.pnl else { s.pnl with nextOk := false, nextDigest := 0 } }
  if s.vq.active.isNone && s.uni.st == .held then startFrom5 s else s

/-! ### LIVE records (R351) -/

/-- The record types that apply LIVE on this unit. -/
def liveType (f : Fus) (t : Nat) : Bool := typeClass t == 0 && effClass f t == 0

/-- The image in force with the LIVE records of another. -/
def liveMix (f : Fus) (old new : Image) : Image :=
  { old with records := (old.records.filter fun r => !liveType f r.typ) ++ new.records.filter fun r => liveType f r.typ }

/-- The doorbell masks that differ between two images, with the masks that the LDs hold now. -/
def maskChanges (s : State) (a b : Option Image) : Tbl (BitVec 32) :=
  ((List.range 256).filter fun ld => doorbellMask a (me s) ld != doorbellMask b (me s) ld).map fun ld => (ld, (boxOf s.mbx ld).mask)

/-- Write the masks of an image where they differ from those of another (Table 15.4). -/
def applyMasks (a b : Option Image) (s : State) : State :=
  (maskChanges s a b).foldl (fun s p => maskWrite p.1 (doorbellMask b (me s) p.1) s) s

/-! ### Preparing (R345) -/

/-- The shadow set still serves work (R350): operators started, or requests stamped, before the last switch. -/
def shadowBusy (s : State) : Bool :=
  s.opq.ops.any (fun o => match o.started with
    | some t => decide (t < s.vq.switchTs)
    | none => false) || s.hst.reqs.any fun r => decide (r.stamp < s.vq.switchTs)

/-- Check 5 of Table 15.3: the carry of a change of L fits the cache space of the smaller map (R356). -/
def carryOk (s : State) (m : Image) : Bool :=
  let l := s.drt.logical
  let l' := logicalUnder (some m) s
  let pools := cacheBase s
  let carry := if l' < l then (l - l') * pools / l else l' * 2 ^ 20
  l == l' || decide (pools + carry ≤ min l l' * sidBytes)

/-- Check 6: no VOLATILE granule moves to another unit. -/
def volatileOk (a m : Option Image) : Bool := (movedGranules a m).all fun q => q.1.kind != 3 || servingOf q.1 q.2.2 == servingOf q.2.1 q.2.2

/-- Check 7: the granules fit the pools. -/
def fitOk (s : State) (m : Image) (u : Nat) : Bool :=
  let need := poolNeed (extRecs (some m)) u
  decide (need.1 ≤ partPinned (some m) u) && decide (need.2 ≤ partVolatile (some m) u)
    && (s.vq.active.isNone || decide (poolBytes (some m) u + 32 * gib ≤ logicalUnder (some m) s * sidBytes))

/-- The validated image with a digest: in the non-current bank, or passed here and about to be stored there (R72, R76). -/
def candidate (s : State) (digest : BitVec 128) : Option Image :=
  match otherBank s.vq with
  | some m => if digest16 m = digest then some m else (s.vq.staged.map (·.2.2)).filter fun m => digest16 m == digest
  | none => (s.vq.staged.map (·.2.2)).filter fun m => digest16 m == digest

/-- The first failing check of Table 15.3 for an epoch that names a digest, or the image it prepares. -/
def prepareCheck (s : State) (digest : BitVec 128) : Except Nat Image :=
  match candidate s digest with
  | none => .error 1
  | some m =>
    let u := (memberNumber s.fus m).getD (me s)
    let back := s.vq.epochState == 2 && s.vq.shadow.map digest16 == some digest
    if s.vq.active.isNone then (if fitOk s m u then .ok m else .error 7)
    else if s.vq.epochState ≠ 0 ∧ back = false then .error 2
    else if shadowBusy s then .error 3
    else if !unitServesOrHeld s then .error 4
    else if !carryOk s m then .error 5
    else if !volatileOk s.vq.active (some m) then .error 6
    else if !fitOk s m u then .error 7
    else .ok m

/-- A participant prepares (Table 15.2 step 2): the refusal code, or the shadow set loaded and the LIVE records applied. -/
def prepareHere (src epoch : Nat) (digest : BitVec 128) (s : State) : State × Option Nat :=
  if s.vq.epochState = 1 ∧ s.vq.preparedEpoch = epoch then (s, none)
  else match prepareCheck s digest with
    | .error c => ({ s with vq := { s.vq with refusal := c, refuser := me s } }, some c)
    | .ok m =>
      let back := s.vq.epochState == 2
      let masks := match s.vq.active with
        | some a => if liveType s.fus 0x08 then maskChanges s (some a) (some m) else []
        | none => []
      let kept := (otherBank s.vq).map digest16 == some digest
      let v := { (if kept then s.vq else bankPut m { s.vq with nextMarked := false }) with
        staged := none, shadow := some m, epochState := 1, preparedEpoch := epoch, preparedAt := now s, coordUnit := src, reversing := back
        late := false, switchDue := none, masksBefore := masks
        live := s.vq.active.map fun a => liveMix s.fus a m }
      let old := s.vq.active
      (if liveType s.fus 0x08 ∧ old.isSome = true then applyMasks old (some m) { s with vq := v } else { s with vq := v }, none)

/-- A participant rolls back (Table 15.2 step 5): the shadow set goes, and its LIVE records are as they were (R351). -/
def rollbackHere (epoch : Nat) (s : State) : State :=
  if s.vq.epochState ≠ 1 ∨ s.vq.preparedEpoch ≠ epoch then s
  else
    let s := s.vq.masksBefore.foldl (fun s p => maskWrite p.1 p.2 s) s
    { s with vq := { s.vq with
        shadow := if s.vq.reversing then s.vq.shadow else none
        live := none, masksBefore := [], epochState := if s.vq.reversing then 2 else 0, reversing := false
        epoch := max epoch s.vq.epoch, switchDue := none, decided := (epoch, false, 0) :: s.vq.decided } }

/-! ### The switch (R346, R352) -/

/-- What an EXTENT change is for the tenant that has the extent: it leaves it (R106, R171). -/
def extLeaves (o : ExtRec) (n : Option ExtRec) : Bool :=
  match n with
  | none => true
  | some n => o.tenant != n.tenant || o.base != n.base || o.size != n.size || o.kind != n.kind

/-- An extent leaves its tenant (R106, R171): RELEASING, its holders snooped out, its LDs asked to release it. -/
def leaveExtent (old : Image) (e : ExtRec) (s : State) : State :=
  if (extSt s e.id).st = 6 then s
  else
    let rs := old.records.filter fun r => (r.typ == 0x0F || r.typ == 0x10) && r.inst == e.id
    let s := moveExtent e.id 6 (onExtent e.id (fun x => { x with tenant := e.tenant }) { s with ext := { s.ext with leaving := s.ext.leaving ++ rs } })
    let s := (s.ext.sf.filter fun f => f.ext == e.id).foldl (fun s f => startSnoop f.tenant f.addr false (snoopTargets s f) .move s) s
    releaseDone e.id (askRelease e s)

/-- Readers that a sealed extent loses are asked to release it (R152, R106). -/
def dropReaders (o n : ExtRec) (s : State) : State :=
  (List.range 256).foldl (fun s ld =>
    match ldTenant s ld with
    | none => s
    | some t =>
      if bit o.readers t && !bit n.readers t && (ldOf s.hst ld).accepted.contains (o.id, true) then
        dcEvent ld { kind := 1, ext := o.id, dpa := offerDpa o true, len := o.size * gib, tag := offerTag o true }
          (onLd ld (fun l => { l with releasing := l.releasing ++ [(o.id, true, now s + 60 * secNs)] }) s)
      else s) s

/-- EXTENT changes (Table 15.5). -/
def switchExtents (old new : Image) (s : State) : State :=
  let a := extRecs (some old)
  let b := extRecs (some new)
  let s := (a.filter fun e => extLeaves e (extRec (some new) e.id)).foldl (fun s e => leaveExtent old e s) s
  let s := (b.filter fun e => (extRec (some old) e.id).isNone && (extSt s e.id).st == 0).foldl (fun s e =>
    offerTenant e.tenant e false (moveExtent e.id 1 (onExtent e.id (fun x => { x with tenant := e.tenant }) s))) s
  let s := b.foldl (fun s n => match extRec (some old) n.id with
    | some o => if o.readers == n.readers || extLeaves o (some n) then s
      else (if (extSt s n.id).st = 3 then offerReaders n (dropReaders o n s) else s)
    | none => s) s
  takeSlots s.vq.active (offerWithheld s)

/-- BINDING changes (R103): an LD serves only its tenant's extents, so those of another leave it at once. -/
def switchBindings (old new : Option Image) (s : State) : State :=
  ((List.range 256).filter fun ld => binding old (me s) ld != binding new (me s) ld).foldl (fun s ld =>
    let xs := (ldOf s.hst ld).accepted.map (·.1)
    let s := xs.foldl (fun s x => releaseDone x (forceRemove ld x s)) s
    offerAll ld false (onLd ld (fun l => { l with offered := [], releasing := [] }) s)) s

/-- TENANT changes (R164): a new home starts its duties, an old one gives them up. -/
def switchHomes (old new : Option Image) (s : State) : State :=
  (List.range 256).foldl (fun s t =>
    if !hasTenant old t || !hasTenant new t || tenHome old t == tenHome new t then s
    else if tenHome new t = me s then homeInit t (now s) s
    else if tenHome old t = me s then
      onLease t (fun l => { l with homeRunning := false, window := none, reclaiming := false, awaiting := [], late := [], undelivered := [] }) s
    else s) s

/-- The tenant that holds a ring of a unit under an image. -/
def ringOwner (im : Option Image) (u n : Nat) : Option Nat :=
  (List.range 256).find? fun t => hasTenant im t && (let p := ringRange im u t; decide (p.1 ≤ n) && decide (n < p.1 + p.2))

/-- RINGS changes: a ring that passes to another tenant is disabled, and its context goes once it has stopped. -/
def switchRings (old new : Option Image) (s : State) : State :=
  let passes (n : Nat) : Bool := (ringOwner old (me s) n).isSome && ringOwner old (me s) n != ringOwner new (me s) n
  ringsGone { s with opq := { s.opq with rings := s.opq.rings.map fun p =>
    (p.1, if passes p.1 then { p.2 with enable := false, leaving := true } else p.2) } }

/-- MAILBOX changes (R142). -/
def switchMailboxes (old new : Option Image) (s : State) : State :=
  let s := (List.range 256).foldl (fun s i =>
    if mbxPointer old (me s) i == mbxPointer new (me s) i then s else modeChange i (mbxPointer new (me s) i) s) s
  (List.range 64).foldl (fun s j =>
    if mbxIntPointer old (me s) j == mbxIntPointer new (me s) j then s else intModeChange j (mbxIntPointer new (me s) j) s) s

/-- DRAM changes: a data-rate state that is no longer allowed gives way to the next one that is. -/
def switchRate (s : State) : State :=
  if rateAllowed s s.drt.rate then s
  else match ([0, 1, 2].filter (s.drt.rate < ·) ++ [1, 0]).find? (rateAllowed s) with
    | some r => rateChange r s
    | none => s

/-- TOPOLOGY and ROUTES changes, and the digests that peers carry: a peer that had this unit's old digest is taken to have
switched with it, until its `HELLO` says otherwise (log entry 31). -/
def switchPorts (old : Option Image) (s : State) : State :=
  let d := old.map digest8
  let s := (List.range 48).foldl (fun s n =>
    let p := portOf s.wrn n
    if p.st < 2 then s
    else if (topo s.vq.active (me s) n).isNone then (if p.st = 7 then s else portDown n 7 s)
    else
      let f (h : Hello) : Hello := if some h.digest = d then { h with
          digest := (s.vq.active.map digest8).getD 0
          gen := (s.vq.active.map (·.gen)).getD 0 }
        else h
      let s := onPort n (fun p => { p with hello := p.hello.map f }) s
      sayHello n (judgePort n s)) s
  let s := reachUpdate (reroute s)
  (List.range 48).foldl (fun s n => drainPort n s) s

/-- Units that the new image no longer names: the rebuild of their chunks starts at once (Table 15.5, R250). -/
def switchUnits (old new : Option Image) (s : State) : State :=
  let us (im : Option Image) : List Nat := (recsOf im 0x02).map (·.scope)
  ((us old).filter fun u => !(us new).contains u && u != me s).foldl (fun s u => unitLost u s) s

/-- The moves that a switch from one image to another starts (R353, R362): `mi` and `pi` are the images that the tier map and
the pools follow until then. -/
def switchMoves (mi pi old new : Option Image) (back : Bool) (s : State) : State :=
  let gs := movedGranules old new
  let v := { s.vq with mig := { s.vq.mig with
    map := mapDiffers (me s) mi new
    part := partDiffers (me s) pi new
    gran := gs.any fun q => servingOf q.1 q.2.2 == me s || servingOf q.2.1 q.2.2 == me s
    stripe := !(oldStripes s).isEmpty
    phase := 0, hold := false, band := 0, bands := sidBytes / 2 ^ 20, slot := 0, reverse := back, mark := 0, ext := 0, granule := 0
    left := (oldStripes s).length, code := (changedCodes old new).headD 0
    routeOld := !back && gs.any fun q => servingOf q.1 q.2.2 != servingOf q.2.1 q.2.2
    handed := back && s.vq.mig.handed } }
  moveStart { s with vq := v }

/-- Say to the coordinator that this unit has switched, rolled back or settled. -/
def tellCoord (epoch : Nat) (t : Nat) (own : State → State) (s : State) : State :=
  if s.vq.coordUnit = me s ∧ s.vq.coord.isSome = true then own s
  else sendMsg s.vq.coordUnit s.wrn.nextTag 0 (.epochCommit 2 epoch t)
    { s with wrn := { s.wrn with nextTag := (s.wrn.nextTag + 1) % 2 ^ 32 } }

/-- The switch time that says an update is settled. -/
def settledTime : Nat := 2 ^ 64 - 1

/-- The update is settled (Table 15.2 step 7, R362): old routes and maps are gone, the predecessor's bank is free. -/
def settleUpdate (s : State) : State :=
  let back := s.vq.epochState == 3
  let s := if back then (leavingHere s).foldl (fun s q =>
      dropGranule q.1 q.2 (((dirtyTiles s).filter fun t => inGranule q.1 q.2 t.1 t.2).foldl (fun s t => commitTile t.1 t.2 s) s)) s
    else s
  let floor := if back then max s.vq.genFloor ((s.vq.shadow.map (·.gen)).getD 0) else s.vq.genFloor
  wake { s with vq := { s.vq with
    epochState := 0, genFloor := floor, mig := {}, coord := none, reversing := false } }

/-- The coordinator takes a DONE: an acknowledgement, or a settled report; all of them settle the update. -/
def coordDone (src epoch t : Nat) (s : State) : State :=
  match s.vq.coord with
  | none => s
  | some c =>
    if c.epoch ≠ epoch ∨ c.decision.isNone = true ∨ c.members.contains src = false then s
    else
      let c := { c with acked := insAsc src c.acked, settled := if t = settledTime then insAsc src c.settled else c.settled }
      let s := { s with vq := { s.vq with coord := some c } }
      if c.decision = some false then
        (if (c.members.all fun u => c.acked.contains u) then { s with vq := { s.vq with coord := none } } else s)
      else if (c.members.all fun u => c.settled.contains u) then
        settleUpdate (sendAll c.members 0 (.epochCommit 2 epoch settledTime) s)
      else s

/-- Every migrating change of this unit has settled: it says so (Table 15.2 step 6). -/
def reportSettled (s : State) : State :=
  if (s.vq.epochState = 2 ∨ s.vq.epochState = 3) ∧ moved s = true then
    tellCoord s.vq.epoch settledTime (coordDone (me s) s.vq.epoch settledTime) s
  else s

/-- No image is in force any more: NO_IMAGE, with the code that says why. -/
def imageGone (c : Nat) (s : State) : State :=
  raise { code := 0x000A, d0 := c }
    { s with vq := { s.vq with active := none, number := 0, valid := false, live := none } }

/-- A unit that the new image does not name enters HELD without an image (Table 15.5). -/
def leaveFabric (s : State) : State := imageGone 11 s

/-- STAGED_SWITCH of a prepared unit (R346): the sets exchange, the marker moves, and the moves start. -/
def doSwitch (late : Bool) (s : State) : State :=
  match s.vq.shadow with
  | none => s
  | some m =>
    let e := s.vq.preparedEpoch
    let old := s.vq.active
    let mi := mapImage s
    let pi := poolImage s
    let staged := liveType s.fus 0x08
    let back := s.vq.reversing
    let num := memberNumber s.fus m
    let v := { s.vq with
      epochState := if back then 3 else 2, epoch := max e s.vq.epoch, switchTs := now s, switchDue := none, live := none
      masksBefore := [], currentB := !s.vq.currentB, nextMarked := false, late := late
      decided := (e, true, now s) :: s.vq.decided.filter (·.1 != e) }
    match old with
    | none => tellCoord e (now s) (coordDone (me s) e (now s))
        (startFrom5 { s with vq := { v with shadow := none, epochState := 0 } })
    | some a =>
      let s := { s with vq := { v with active := some m, shadow := old, number := num.getD (me s) } }
      let done (s : State) : State := tellCoord e (now s) (coordDone (me s) e (now s)) s
      if num.isNone then leaveFabric (done s)
      else
        let s := switchMoves mi pi old (some m) back s
        let s := if staged then s else applyMasks old (some m) s
        let s := switchUnits old (some m) s
        let s := switchHomes old (some m) s
        let s := switchRings old (some m) s
        let s := switchMailboxes old (some m) s
        let s := switchBindings old (some m) (switchExtents a m s)
        let s := checkLevels [7, 10, 12] (switchRate (switchPorts old s))
        let s := wake (kmGo (done s))
        s

/-- STAGED_SWITCH (R346): at Ts. -/
def execStagedSwitch (s : State) : Res :=
  match s.vq.switchDue with
  | none => .next s
  | some ts => .next (if s.vq.epochState = 1 ∧ ts ≤ now s then doSwitch false s else s)

/-- MIGRATION_SETTLED (R344 step 6, R353 to R360): the moves reach their ends, and a unit with none left reports it. -/
def execMigrationSettled (s : State) : Res :=
  .next (if s.vq.epochState = 2 ∨ s.vq.epochState = 3 then reportSettled (nextRetire (sidLossGo (wake (moveGo s)))) else s)

/-- A participant takes COMMIT (R346, R348): the switch is due at Ts, or happens now where Ts has passed; a unit that has
switched says so again. -/
def commitHere (epoch : Nat) (ts : Ns) (s : State) : State :=
  match s.vq.decided.find? fun d => d.1 == epoch with
  | some (_, true, t) => tellCoord epoch t (coordDone (me s) epoch t) s
  | some (_, false, _) => s
  | none =>
    if s.vq.epochState ≠ 1 ∨ s.vq.preparedEpoch ≠ epoch then s
    else if ts < now s then doSwitch true (raise { code := 0x0203, d0 := epoch } s)
    else { s with vq := { s.vq with switchDue := some ts, epoch := max epoch s.vq.epoch } }

/-! ### The coordinator (R344, R347) -/

/-- The units named by the image in force or by the new one (R69). -/
def namedUnits (a b : Option Image) : List Nat :=
  ((recsOf a 0x02 ++ recsOf b 0x02).map (·.scope)).foldl (fun l u => insAsc u l) []

/-- Send a decision to the participants that have not acknowledged it (Table 15.2 step 4). -/
def sendDecision (c : Coord) (s : State) : State :=
  let m : Msg := if c.decision = some true then .epochCommit 0 c.epoch c.ts else .epochCommit 1 c.epoch 0
  sendAll (c.members.filter fun u => !c.acked.contains u) 0 m s

/-- The coordinator decides COMMIT, with Ts 50 ms on. -/
def decideCommit (c : Coord) (s : State) : State :=
  let c := { c with decision := some true, ts := now s + 50 * msNs }
  let s := { s with vq := { s.vq with coord := some c, phase := 0, code := 0, epoch := max c.epoch s.vq.epoch } }
  commitHere c.epoch c.ts (sendDecision c s)

/-- The coordinator decides ROLLBACK, and reports the refusal code and unit. -/
def decideRollback (code unit : Nat) (c : Coord) (s : State) : State :=
  let c := { c with decision := some false, acked := insAsc (me s) c.acked }
  let s := { s with vq := { s.vq with
    coord := some c, phase := 0, epoch := max c.epoch s.vq.epoch, refusal := code, refuser := unit, detailUnit := unit
    code := if code = 2 ∨ code = 3 then 15 else 10 } }
  let s := raise { code := 0x0202, d0 := c.epoch, d1 := code } s
  let s := rollbackHere c.epoch (sendDecision c s)
  if c.members.all fun u => c.acked.contains u then { s with vq := { s.vq with coord := none } } else s

/-- Take an answer to PREPARE: the first refusal decides ROLLBACK, the last PREPARED decides COMMIT. -/
def coordAnswer (src epoch : Nat) (refusal : Option Nat) (s : State) : State :=
  match s.vq.coord with
  | none => s
  | some c =>
    if c.epoch ≠ epoch ∨ c.decision.isSome = true ∨ c.members.contains src = false then s
    else match refusal with
      | some r => decideRollback r src { c with refused := tset src r c.refused } s
      | none =>
        let c := { c with prepared := insAsc src c.prepared }
        if c.members.all fun u => c.prepared.contains u then decideCommit c s
        else { s with vq := { s.vq with coord := some c } }

/-- This unit coordinates an epoch that names an image (Table 15.2 step 1): PREPARE goes to every participant, and to itself. -/
def startEpoch (m : Image) (back : Bool) (s : State) : State :=
  let e := max s.vq.epoch s.vq.preparedEpoch + 1
  let us := insAsc (me s) (namedUnits s.vq.active (some m))
  let c : Coord := { epoch := e, digest := digest16 m, members := us, prepared := [], refused := [], decision := none, ts := 0, acked := [],
                     settled := [], deadline := now s + fabTimeout s.vq.active * msNs, reversal := back }
  let s := sendAll us 0 (.epochPrepare 0 0 e (digest16 m)) { s with vq := { s.vq with coord := some c, phase := 4 } }
  let r := prepareHere (me s) e (digest16 m) s
  coordAnswer (me s) e r.2 r.1

/-! ### The messages of an epoch -/

/-- Answer a PREPARE. -/
def answerPrepare (src epoch : Nat) (digest : BitVec 128) (code : Option Nat) (s : State) : State :=
  sendMsg src s.wrn.nextTag 0 (.epochPrepare (if code.isSome then 2 else 1) (code.getD 0) epoch digest)
    { s with wrn := { s.wrn with nextTag := (s.wrn.nextTag + 1) % 2 ^ 32 } }

/-- A source of an epoch message is a unit of the Warren; a unit with no image takes them from any (R345). -/
def epochSrcOk (s : State) (src : Nat) : Bool := s.vq.active.isNone || srcOk s src

/-- EPOCH_PREPARE (R345, R444). -/
def execEpochPrepare (src epoch : Nat) (digest : BitVec 128) (s : State) : Res :=
  let s := hear src s
  if !epochSrcOk s src || decide (2 ^ 48 ≤ epoch) then .next (dropFrom src 5 0x13 s)
  else if s.uni.st == .off || s.uni.st == .standby then .next s
  else if !unitServesOrHeld s then
    .next (answerPrepare src epoch digest (some 4) { s with vq := { s.vq with refusal := 4, refuser := me s } })
  else
    let r := prepareHere src epoch digest s
    .next (answerPrepare src epoch digest r.2 r.1)

/-- EPOCH_PREPARED (R344, R348): at the coordinator; any unit that has decided the epoch answers with its decision. -/
def execEpochPrepared (src epoch : Nat) (s : State) : Res :=
  let s := hear src s
  if !epochSrcOk s src then .next (dropFrom src 5 0x13 s)
  else if !unitServesOrHeld s then .next (dropQuiet src s)
  else
    let known : Option (Bool × Ns) := match s.vq.coord with
      | some c => if c.epoch = epoch then c.decision.map fun d => (d, c.ts) else none
      | none => none
    match known <|> (s.vq.decided.find? fun d => d.1 == epoch).map (·.2) with
    | some (d, ts) =>
      .next (sendMsg src s.wrn.nextTag 0 (if d then .epochCommit 0 epoch ts else .epochCommit 1 epoch 0)
        { s with wrn := { s.wrn with nextTag := (s.wrn.nextTag + 1) % 2 ^ 32 } })
    | none => .next (coordAnswer src epoch none s)

/-- EPOCH_REFUSED (R344). -/
def execEpochRefused (src epoch code : Nat) (s : State) : Res :=
  let s := hear src s
  if !epochSrcOk s src || code == 0 || decide (7 < code) then .next (dropFrom src 5 0x13 s)
  else if !unitServesOrHeld s then .next (dropQuiet src s)
  else .next (coordAnswer src epoch (some code) s)

/-- PREPARE_TIMEOUT (R344 step 3): the first silent unit is named. -/
def execPrepareTimeout (s : State) : Res :=
  match s.vq.coord with
  | none => .next s
  | some c =>
    if c.decision.isSome ∨ now s < c.deadline then .next s
    else .next (decideRollback 0 ((c.members.filter fun u => !c.prepared.contains u).headD (me s)) c s)

/-- EPOCH_COMMIT (R346, R348). -/
def execEpochCommit (src epoch : Nat) (ts : Ns) (s : State) : Res :=
  let s := hear src s
  if !epochSrcOk s src then .next (dropFrom src 5 0x14 s)
  else if !unitServesOrHeld s then .next (dropQuiet src s)
  else .next (commitHere epoch ts s)

/-- EPOCH_ROLLBACK (R344 step 5). -/
def execEpochRollback (src epoch : Nat) (s : State) : Res :=
  let s := hear src s
  if !epochSrcOk s src then .next (dropFrom src 5 0x14 s)
  else if !unitServesOrHeld s then .next (dropQuiet src s)
  else if s.vq.decided.any (fun d => d.1 == epoch && d.2.1) then .next s
  else .next (tellCoord epoch 0 (coordDone (me s) epoch 0) (rollbackHere epoch { s with vq := { s.vq with epoch := max epoch s.vq.epoch } }))

/-- EPOCH_DONE (R344 steps 5 to 7): at the coordinator an acknowledgement; at a participant, from its coordinator, the update
is settled. -/
def execEpochDone (src epoch : Nat) (t : Nat) (s : State) : Res :=
  let s := hear src s
  if !epochSrcOk s src then .next (dropFrom src 5 0x14 s)
  else if !unitServesOrHeld s then .next (dropQuiet src s)
  else if (match s.vq.coord with
      | some c => c.epoch == epoch
      | none => false) then .next (coordDone src epoch t s)
  else if t = settledTime ∧ (s.vq.epochState = 2 ∨ s.vq.epochState = 3) ∧ s.vq.epoch = epoch ∧ src = s.vq.coordUnit then .next (settleUpdate s)
  else .next s

/-- COMMIT_RESEND_TIMER (R344 step 4). -/
def execCommitResendTimer (s : State) : Res :=
  match s.vq.coord with
  | some c => .next (if c.decision.isSome then sendDecision c s else s)
  | none => .next s

/-- PREPARED_RESEND (R348). -/
def execPreparedResend (s : State) : Res :=
  if s.vq.epochState ≠ 1 ∨ s.vq.switchDue.isSome = true ∨ now s < s.vq.preparedAt + 2 * fabTimeout s.vq.active * msNs then .next s
  else
    let d := (s.vq.shadow.map digest16).getD 0
    let m : Msg := .epochPrepare 1 0 s.vq.preparedEpoch d
    if s.vq.coordUnit = me s then .next s
    else if unreachable s s.vq.coordUnit then .next (sendAll (namedUnits s.vq.active s.vq.shadow) 0 m s)
    else .next (sendAll [s.vq.coordUnit] 0 m s)

/-- VQ_CTL_ABORT (R362): ROLLBACK at a prepared coordinator, a reversal of an update that is not settled, else ignored. -/
def vqCtl (val : Nat) (s : State) : State :=
  if !bit val 0 then s
  else match s.vq.epochState, s.vq.coord, s.vq.shadow with
    | 1, some c, _ => if c.decision.isNone then decideRollback 0 (me s) c s else writeIgnored 0x02000060 none val s
    | 2, _, some p => startEpoch p true s
    | _, _, _ => writeIgnored 0x02000060 none val s
def execVqCtlAbort (val : Word) (s : State) : Res := .next (vqCtl val.toNat s)

/-- A restart of the unit or of its firmware before a decision is recorded records ROLLBACK (R347). -/
def coordRestart (s : State) : State :=
  match s.vq.coord with
  | some c => if c.decision.isNone then decideRollback 0 (me s) c s else sendDecision c s
  | none => s

end Sys2Proof.Machine
end

