-- ==== Sys2Proof/Machine/Images.lean ====
section
/-! DEFINITION. Loading Vuique images (chapter 4): the load modes, distribution over the Warren, the verdicts, and what a
refusal leaves (R63 to R76). -/

namespace Sys2Proof.Machine

/-- The size of the load buffer. -/
def loadBytes : Nat := 2 ^ 24

/-- The verdict of this unit on the image of a load (Table 4.29, R75, R349): an `UPDATE` during a change is stale, and a
`NEXT_START` finds the bank taken. -/
def ownVerdict (raw : List Byte) (mode : Nat) (s : State) : Verdict × Option Image :=
  let r := validateImage s.fus s.vq.active s.vq.genFloor raw (if mode = 0 then 12 else if mode = 1 then 14 else 13)
  if mode = 0 ∨ s.vq.epochState = 0 then r
  else if mode = 1 then
    (if r.1.code = 0 ∨ r.1.code = 14 then (⟨13, 0, 0x40⟩, r.2) else r)
  else if r.1.code = 0 then (⟨15, 0, 0⟩, r.2) else r

/-- A load ends with a code and the unit it comes from (R69, R73); a refusal leaves an event (R63). -/
def loadEnd (code unit : Nat) (s : State) : State :=
  let s := { s with vq := { s.vq with busy := false, phase := 0, code := code, detailUnit := unit, dist := none } }
  if code = 0 then s else raise { code := 0x0201, d0 := code, d1 := unit } s

/-- The effect of a load that every unit passes (Table 4.29). -/
def loadPass (m : Image) (mode : Nat) (s : State) : State :=
  let s := loadEnd 0 (me s) s
  if mode = 1 then startEpoch m false { s with vq := { s.vq with staged := some (me s, 1, m) } }
  else if mode = 2 then storeNext m { s with vq := { s.vq with staged := none } }
  else s

/-- The parts of a distributed image: 1,024 bytes each, the last one with the rest (Table 12.6). -/
def imageParts (raw : List Byte) (mode : Nat) : List Msg :=
  (List.range ((raw.length + 1023) / 1024)).map fun i => .imagePart (1024 * i) raw.length mode ((raw.drop (1024 * i)).take 1024)

/-- The distribution has its verdicts (R69, R76): the first failure in ascending unit number, or a pass. The units that hold
the image of a passing `NEXT_START` are told to store it (log entry 32). -/
def distEnd (d : Dist) (s : State) : State :=
  match d.verdicts.find? fun v => v.2 != 0 with
  | some (u, c) =>
    let own := tget 0 d.verdicts (me s)
    let s := if own = c then s
      else draw { s with vq := { s.vq with
        detailRecord := Config.number s.free % 2 ^ 32
        detailField := Config.number (s.free + 2 ^ 32) % 2 ^ 16 } }
    loadEnd c u { s with vq := { s.vq with staged := none } }
  | none => match d.image with
    | none => s
    | some m =>
      let s := if d.mode = 2 then sendAll d.asked 0 (.imageVerdict 0) s else s
      loadPass m d.mode s

/-- Start a distribution (R69): the image goes to every named unit, whose verdicts are awaited for 5 s. -/
def distStart (raw : List Byte) (mode : Nat) (v : Verdict × Option Image) (s : State) : State :=
  let us := (namedUnits s.vq.active v.2).filter (· != me s)
  let d : Dist := { mode := mode, image := v.2, asked := us, verdicts := [(me s, v.1.code)], deadline := now s + 5 * secNs }
  if us.isEmpty then distEnd d s
  else
    let s := (imageParts raw mode).foldl (fun s p => sendAll us 0 p s) s
    { s with vq := { s.vq with dist := some d, phase := 2 } }

/-- A load is refused because one is in progress (R74). -/
def loadBusy (s : State) : State :=
  raise { code := 0x0201, d0 := 15, d1 := me s } { s with vq := { s.vq with refused := true } }

/-- A load of `len` bytes of the load buffer (R69). An `UPDATE` on a Warren of more than one unit always distributes (R344). -/
def loadGo (len mode : Nat) (dist : Bool) (s : State) : State :=
  if mbxDown s then s
  else if s.vq.busy then loadBusy s
  else if mode = 3 then loadEnd 2 (me s) { s with vq := { s.vq with detailRecord := 0, detailField := 0 } }
  else
    let raw := mread s.vq.buf 0 (min len loadBytes)
    let v := if len ≤ loadBytes then ownVerdict raw mode s else (⟨1, 0, 0x08⟩, none)
    let s := { s with vq := { s.vq with
      busy := true, phase := 1, staged := none, detailRecord := v.1.record, detailField := v.1.field } }
    let n := max (fabN s.vq.active) (fabN v.2)
    if (dist || (mode == 1 && decide (1 < n))) && len % 8 == 0 && decide (0 < len) && decide (len ≤ loadBytes) then distStart raw mode v s
    else if v.1.code = 0 then (match v.2 with
      | some m => loadPass m mode s
      | none => s)
    else loadEnd v.1.code (me s) s

/-- The fields of `VQ_LOAD` that a `GO` carries. -/
def loadFields (len mode : Nat) (dist : Bool) (s : State) : State :=
  { s with vq := { s.vq with loadLen := len % 2 ^ 25, loadMode := mode, loadDist := dist } }

/-- A `GO` through the VQ block. -/
def loadRow (len mode : Nat) (dist : Bool) (s : State) : Res :=
  .next (if mbxDown s then s else loadGo (len % 2 ^ 25) mode dist (loadFields len mode dist s))

/-- VALIDATE (R63, R69). -/
def execValidate (len : Nat) (distribute : Bool) (s : State) : Res := loadRow len 0 distribute s

/-- UPDATE (R69 to R71, R344). -/
def execUpdate (len : Nat) (distribute : Bool) (s : State) : Res := loadRow len 1 distribute s

/-- NEXT_START (R69, R71, R72). -/
def execNextStart (len : Nat) (distribute : Bool) (s : State) : Res := loadRow len 2 distribute s

/-- LOAD_MODE_REFUSED (Table 4.29, R443). -/
def execLoadModeRefused (len : Nat) (distribute : Bool) (s : State) : Res := loadRow len 3 distribute s

/-- REDFISH_IMAGE_ACTION (R69, R74): the image fills the load buffer, and the load starts; a busy unit answers code 15. -/
def execRedfishImageAction (image : List Byte) (mode : Nat) (distribute : Bool) (s : State) : Res :=
  if mbxDown s then .next s
  else if s.vq.busy then .next (emit (.redfish 15 []) (loadBusy s))
  else .next (loadGo image.length mode distribute { s with vq := { s.vq with buf := mwrite 0 (image.take loadBytes) [] } })

/-- DISTRIBUTION_TIMEOUT (R69, R76): a unit that has not answered fails with code 10. A copy that has not arrived whole within
that time is given up. -/
def execDistributionTimeout (s : State) : Res :=
  match s.vq.dist with
  | some d =>
    if now s < d.deadline then .next s
    else
      let vs := d.asked.foldl (fun t u => if (tfind t u).isSome then t else tset u 10 t) d.verdicts
      .next (distEnd { d with verdicts := vs } s)
  | none =>
    if s.vq.rx.isSome && decide (s.vq.rxSince + 5 * secNs ≤ now s) then
      .next { s with vq := { s.vq with busy := false, phase := 0, rx := none, rxParts := [] } }
    else .next s

/-- The bytes of a copy have all arrived. -/
def rxWhole (total : Nat) (parts : List (Nat × Nat)) : Bool :=
  (List.range ((total + 1023) / 1024)).all fun i => parts.any fun p => p.1 ≤ 1024 * i && min total (1024 * i + 1024) ≤ p.1 + p.2

/-- Answer an image part with a code. -/
def sayVerdict (src code : Nat) (s : State) : State :=
  sendMsg src s.wrn.nextTag 0 (.imageVerdict code) { s with wrn := { s.wrn with nextTag := (s.wrn.nextTag + 1) % 2 ^ 32 } }

/-- A copy has arrived whole: this unit's own verdict is recorded and answered (R69, R76), and an image that passes waits for
its epoch or for the word to store it. -/
def rxEnd (src total mode : Nat) (s : State) : State :=
  let v := ownVerdict (mread s.vq.buf 0 total) mode s
  let st := if v.1.code = 0 ∧ mode ≠ 0 then v.2.map fun m => (src, mode, m) else none
  let s := { s with vq := { s.vq with
    rx := none, rxParts := [], staged := st, detailRecord := v.1.record, detailField := v.1.field } }
  sayVerdict src v.1.code (loadEnd v.1.code (me s) s)

/-- IMAGE_PART (R69, R74). -/
def execImagePart (src offset total mode : Nat) (bytes : List Byte) (s : State) : Res :=
  let s := hear src s
  if !epochSrcOk s src || decide (2 < mode) || decide (loadBytes < total) || decide (bytes.length < 8) || decide (1024 < bytes.length)
      || decide (total < offset + bytes.length) then .next (dropFrom src 5 0x15 s)
  else if !unitServesOrHeld s then .next (dropQuiet src s)
  else
    let mine := s.vq.rx == some (src, total, mode)
    if s.vq.busy && !mine then
      .next (sayVerdict src 15 (loadBusy s))
    else
      let v := if mine then s.vq else { s.vq with
        busy := true, phase := 1, staged := none, rx := some (src, total, mode), rxParts := [], rxSince := now s, buf := [] }
      let s := { s with vq := { v with
        buf := mwrite offset bytes v.buf
        rxParts := (offset, bytes.length) :: v.rxParts.filter (· != (offset, bytes.length)) } }
      .next (if rxWhole total s.vq.rxParts then rxEnd src total mode s else s)

/-- IMAGE_VERDICT (R69): at the distributing unit a verdict; at a unit that holds a passing `NEXT_START` image of that source,
the word to store it. -/
def execImageVerdict (src code : Nat) (s : State) : Res :=
  let s := hear src s
  if !epochSrcOk s src || decide (15 < code) then .next (dropFrom src 5 0x16 s)
  else if !unitServesOrHeld s then .next (dropQuiet src s)
  else match s.vq.dist, s.vq.staged with
    | some d, _ =>
      if !d.asked.contains src || (tfind d.verdicts src).isSome then .next s
      else
        let d := { d with verdicts := tset src code d.verdicts }
        .next (if (d.asked.all fun u => (tfind d.verdicts u).isSome) then distEnd d s else { s with vq := { s.vq with dist := some d } })
    | none, some (u, mode, m) =>
      if u = src ∧ mode = 2 ∧ code = 0 ∧ s.vq.epochState = 0 then .next (storeNext m { s with vq := { s.vq with staged := none } })
      else .next s
    | none, none => .next s

end Sys2Proof.Machine
end

