-- ==== Sys2Proof/Machine/Monitors.lean ====
section
/-! DEFINITION. Temperature sensors, voltage monitors, pacers and the timebase (chapter 2). -/

namespace Sys2Proof.Machine

/-- The kinds of monitor: 0 temperature sensor, 1 voltage monitor, 2 pacer; monitors per island (R19). -/
def monPer (kind : Nat) : Nat :=
  match kind with
  | 0 => 8
  | 1 => 4
  | _ => 32

/-- The table of a kind. -/
def monTbl (m : Mon) (kind : Nat) : Tbl Monitor :=
  match kind with
  | 0 => m.ts
  | 1 => m.vm
  | _ => m.pc

/-- Change one monitor. -/
def monSet (kind n : Nat) (f : Monitor → Monitor) (m : Mon) : Mon :=
  match kind with
  | 0 => { m with ts := tmod {} n f m.ts }
  | 1 => { m with vm := tmod {} n f m.vm }
  | _ => { m with pc := tmod {} n f m.pc }

/-- The monitors of an island, with their numbers. -/
def islandMons (m : Mon) (kind i : Nat) : List (Nat × Monitor) :=
  (List.range (monPer kind)).map fun j => (i * monPer kind + j, tget {} (monTbl m kind) (i * monPer kind + j))

/-- Readings of an island that count: present and not FAILED (R31). -/
def goodMons (m : Mon) (kind i : Nat) : List Monitor :=
  ((islandMons m kind i).map (·.2)).filter fun x => x.valid && !x.failed

/-- Monitors of an island not marked FAILED. -/
def unfailed (m : Mon) (kind i : Nat) : Nat :=
  ((islandMons m kind i).filter fun x => !x.2.failed).length

/-- A reading as a number: temperatures in two's complement. -/
def monVal (kind : Nat) (v : BitVec 16) : Int := if kind = 0 then v.toInt else v.toNat

/-- The smallest and the largest of a list, 0 when it is empty. -/
def minI : List Int → Int
  | [] => 0
  | x :: xs => xs.foldl min x
def maxI : List Int → Int
  | [] => 0
  | x :: xs => xs.foldl max x

/-- `MON_ISL_n` PACE, TEMP_MAX and VOLT_MIN (Table 2.11). -/
def islPace (m : Mon) (i : Nat) : Int := minI ((goodMons m 2 i).map fun x => monVal 2 x.val)
def islTemp (m : Mon) (i : Nat) : Int := maxI ((goodMons m 0 i).map fun x => monVal 0 x.val)
def islVolt (m : Mon) (i : Nat) : Int := minI ((goodMons m 1 i).map fun x => monVal 1 x.val)

/-- `MON_ISL_n` (Table 2.11). -/
def monIsl (m : Mon) (i : Nat) : Nat :=
  twos 16 (islPace m i) + 2 ^ 16 * twos 16 (islTemp m i) + 2 ^ 32 * twos 16 (islVolt m i)
    + 2 ^ 48 * (goodMons m 0 i).length + 2 ^ 52 * (goodMons m 1 i).length + 2 ^ 55 * (goodMons m 2 i).length

/-- The anchor curve (Table 2.2) at a voltage in 0.125 mV, in 0.1 M steps/s times 19,200. -/
def anchor (v : Int) : Int :=
  if v ≤ 6400 then 9500 * 19200 + 6500 * 16 * (v - 5200) else 16000 * 19200 + 2500 * 30 * (v - 6400)

/-- A pace lies in the R20 band of a grade at a voltage and a temperature; outside 0.62 V to 0.88 V or 10 °C to
105 °C there is no band. -/
def inBand (grade : Nat) (pace volt temp : Int) : Bool :=
  let a := anchor volt * (100 + 3 * grade)
  decide (volt < 4960 ∨ 7040 < volt ∨ temp < 640 ∨ 6720 < temp)
    || (decide (a * 96 ≤ pace * 192000000) && decide (pace * 192000000 ≤ a * 104))

/-- PACE_BAND_ALERT (R33, Table 2.14): the bit of island `i` is set, with a DEFERRED event, when its pace
leaves the band and the bit is clear. -/
def paceBand (i : Nat) (s : State) : State :=
  let m := s.mon
  let known := !(goodMons m 0 i).isEmpty && !(goodMons m 1 i).isEmpty && !(goodMons m 2 i).isEmpty
  if known && !inBand (paceGrade s.fus) (islPace m i) (islVolt m i) (islTemp m i) && !m.alert.getLsbD (24 + i) then
    raise { code := 0x0302, sk := 6, si := i, d0 := twos 16 (islPace m i) }
      { s with mon := { m with alert := m.alert ||| (1 <<< (24 + i)) } }
  else s

/-- The unit is in life: the main rails are up and start-up is over. -/
def inLife (s : State) : Bool := s.uni.st != .off && s.uni.st != .standby && s.uni.st != .starting

/-- An island has too few monitors left to be regulated (R32). -/
def unregulated (m : Mon) (i : Nat) : Bool :=
  decide (unfailed m 0 i < 4) || decide (unfailed m 1 i < 2) || decide (unfailed m 2 i < 16)

/-- Mark a monitor FAILED (R31): `MON_ALERT`, a CORRECTED event, and in life its field entry (Table 5.5) and the fault of
R32. -/
def markFailed (kind n : Nat) (s : State) : State :=
  let i := n / monPer kind
  if (tget {} (monTbl s.mon kind) n).failed then s
  else
    let before := unregulated s.mon i
    let m := monSet kind n (fun x => { x with failed := true }) s.mon
    let s := raise { code := 0x0301, sk := 6, si := i, d0 := kind, d1 := n }
      { s with mon := { m with alert := m.alert ||| (1 <<< (8 * kind + i)) } }
    let s := if inLife s then takeOut { cls := 8, grp := kind, elt := n } 11 s else s
    if inLife s && !before && unregulated s.mon i then
      raise { code := 0x0303, sk := 6, si := i,
              d0 := unfailed s.mon 0 i + 2 ^ 16 * unfailed s.mon 1 i + 2 ^ 32 * unfailed s.mon 2 i } s
    else s

/-- A monitor takes a reading: its latest value and its extremes (Tables 2.8 to 2.10). -/
def takeReading (kind : Nat) (r : BitVec 16) (x : Monitor) : Monitor :=
  if x.restart || !x.valid then { x with val := r, valid := true, hi := r, lo := r, restart := false }
  else
    { x with
      val := r
      hi := if monVal kind x.hi < monVal kind r then r else x.hi
      lo := if monVal kind r < monVal kind x.lo then r else x.lo }

/-- Insertion sort of readings. -/
def insI (x : Int) : List Int → List Int
  | [] => [x]
  | y :: ys => if x ≤ y then x :: y :: ys else y :: insI x ys

/-- Twice the median of a list. -/
def median2 (l : List Int) : Int :=
  let a := l.foldr insI []
  let n := a.length
  if n = 0 then 0
  else if n % 2 = 1 then 2 * a.getD (n / 2) 0 else a.getD (n / 2 - 1) 0 + a.getD (n / 2) 0

/-- A pacer lies more than 3 % from its island's median (R31). -/
def pacerOff (m : Mon) (n : Nat) : Bool :=
  let md := median2 ((goodMons m 2 (n / 32)).map fun x => monVal 2 x.val)
  let p := monVal 2 (tget {} m.pc n).val
  decide (3 * md < 100 * (2 * p - md).natAbs)

/-- A conversion of one monitor: its reading, its marking under R31, and the island's band. A unit with no main
power converts nothing. -/
def conversion (kind n : Nat) (r : BitVec 16) (converted : Bool) (s : State) : State :=
  if s.uni.st = .off ∨ s.uni.st = .standby then s
  else if !converted then markFailed kind n s
  else
    let s := { s with mon := monSet kind n (takeReading kind r) s.mon }
    let s := if kind = 2 ∧ inLife s = true ∧ pacerOff s.mon n = true then markFailed kind n s else s
    paceBand (n / monPer kind) s

/-- TEMP_SENSOR_CONVERSION (R30, R31). -/
def execTempSensorConversion (n : Nat) (reading : BitVec 16) (converted : Bool) (s : State) : Res :=
  .next (conversion 0 n reading converted s)

/-- VOLTAGE_MONITOR_CONVERSION (R30, R31). -/
def execVoltageMonitorConversion (n : Nat) (reading : BitVec 16) (converted : Bool) (s : State) : Res :=
  .next (conversion 1 n reading converted s)

/-- PACER_WINDOW (R30, R31). -/
def execPacerWindow (n : Nat) (pace : BitVec 16) (converted : Bool) (s : State) : Res :=
  .next (conversion 2 n pace converted s)

/-- Set the latched upper half of a requester (R29). -/
def latchSet (rq : Requester) (v : BitVec 32) (l : List (Requester × BitVec 32)) : List (Requester × BitVec 32) :=
  (rq, v) :: l.filter fun e => e.1 != rq

/-- The latched upper half of a requester, if it has one. -/
def latchGet (rq : Requester) (l : List (Requester × BitVec 32)) : Option (BitVec 32) :=
  (l.find? fun e => e.1 == rq).map (·.2)

/-- MON_TIMEBASE_READ_LOW (R29): the low half is answered and the high half latched for the requester. -/
def execMonTimebaseReadLow (rq : Requester) (s : State) : Res :=
  let t := BitVec.ofNat 64 s.mon.timebase
  .next (emit (.regRead rq 0x03000D08 (t &&& 0xFFFFFFFF))
    { s with mon := { s.mon with latch := latchSet rq ((t >>> 32).setWidth 32) s.mon.latch } })

/-- Every extreme restarts from the next reading (R33). -/
def restartPeaks (m : Mon) : Mon :=
  { m with
    ts := m.ts.map fun (k, x) => (k, { x with restart := true })
    vm := m.vm.map fun (k, x) => (k, { x with restart := true })
    pc := m.pc.map fun (k, x) => (k, { x with restart := true }) }

/-- A write of `MON_CTL` (Table 2.14): a different `PEAK_EPOCH` restarts the extremes, and `PWR_DIE.PEAK`. -/
def monCtl (val : Word) (s : State) : State :=
  let e := val.setWidth 8
  if e = s.mon.peakEpoch then s
  else { s with mon := { restartPeaks s.mon with peakEpoch := e }, pwr := { s.pwr with peak := 0 } }

/-- MON_CTL_WRITE (R33). -/
def execMonCtlWrite (val : Word) (s : State) : Res := .next (monCtl val s)

end Sys2Proof.Machine
end

