-- ==== Sys2Proof/Machine/Startup.lean ====
section
/-! DEFINITION. Start-up and self-repair (chapter 5): what a unit keeps without main power, the phases of a cold start, repair in
life, the outcomes of an exhausted reserve, and firmware restarts. -/

namespace Sys2Proof.Machine

/-! ### Without main power -/

/-- What is left when the main rails go: the fuses, the image store and what the lifetime store keeps (R72, R168, R347, R363,
R374, R394), the stripes and the Orphan Log that the Hoard holds, and what the standby rail keeps (R398, R420). -/
def powerGone (s : State) : State :=
  let s := s.flt.opened.foldl (fun s r => writeRec r s) s
  let u := s.uni
  let v := s.vq
  let f : Fus := { s.fus with
    nonce := Config.entropy s.free, lifted := 0, buf := [], len := 0, busy := false, status := 0, deferred := none, eccFault := false }
  let kept (p : Nat × ExtSt) : Option (Nat × ExtSt) :=
    if p.2.st = 3 ∨ p.2.st = 4 then some p else if p.2.st = 5 then some (p.1, { p.2 with st := 4 }) else none
  { s with
    uni := { hwIssue := u.hwIssue, media := u.media, serYyww := u.serYyww, serSeq := u.serSeq, serSeqHi := u.serSeqHi, lib := u.lib,
             fwMajor := u.fwMajor, fwMinor := u.fwMinor, fwPatch := u.fwPatch, st := u.st, phase := 0, retest := u.retest }
    fus := { f with digest := fuseDigest f }
    vq := { bankA := v.bankA, bankB := v.bankB, currentB := v.currentB, nextMarked := v.nextMarked, genFloor := v.genFloor,
            epoch := v.epoch, coord := v.coord, coordUnit := v.coordUnit, decided := v.decided, switchTs := v.switchTs,
            epochState := if v.epochState = 1 then 0 else v.epochState }
    mon := {}
    pwr := { inputA := s.pwr.inputA, inputB := s.pwr.inputB, autoStart := s.pwr.autoStart
             isl := (List.range 8).map fun i => (i, { vset := (tget ({} : Isl) s.pwr.isl i).vset, on := false, limiter := 5 }) }
    hst := {}
    mbx := {}
    ext := { exts := s.ext.exts.filterMap kept, olog := s.ext.olog, head := s.ext.head, tail := s.ext.tail, lost := s.ext.lost,
             manifests := s.ext.manifests }
    cdc := {}
    drt := {}
    hrd := { known := s.hrd.known, seq := s.hrd.seq, nextSeq := s.hrd.nextSeq, stripes := s.hrd.stripes, roots := s.hrd.roots,
             place := s.hrd.place }
    wrn := {}
    eng := {}
    opq := {}
    lif := { s.lif with
      steppedAt := none, ptpLock := false, ptpFar := false, action := 0, arg := 0, busy := false, status := 0, latch := []
      noTime := false }
    flt := { standby := s.flt.standby, seq := s.flt.seq }
    free := s.free + 1 }

/-! ### The outcomes of an exhausted reserve (R91) -/

/-- Compute operators of a unit with no engine left fail (R341). -/
def noEngines (s : State) : State :=
  if engineServing s then s
  else (s.opq.ops.filter fun o => isCompute (descOp o.desc) && o.checked && o.gate == 0).foldl (fun s o => endOp o 3 4 s) s

/-- Withdraw an engine (class 9). -/
def withdrawEngine (e cause : Nat) (s : State) : State :=
  if (engOf s.eng e).st = 3 then s
  else
    let s := takeOut { cls := 9, grp := e, elt := 0 } cause (onEngine e (fun x => { x with st := 3, failing := [] }) s)
    noEngines (raise { code := 0x0C02, sk := 7, si := e, d0 := e } s)

/-- The region of an SRAM bank: its first bank and the bank after its last. -/
def bankRegion (b : Nat) : Nat × Nat :=
  if b < 128 then (0, 128) else if b < 192 then (128, 192) else if b < 256 then (192, 256) else if b < 288 then (256, 288) else (288, 320)

/-- Withdraw an SRAM bank (class 6), or for operand SRAM its engine (Table 5.7). -/
def withdrawBank (b cause : Nat) (s : State) : State :=
  if b < 128 then withdrawEngine (b / 32) cause s
  else if s.uni.banksOut.contains b then s
  else
    let s := takeOut { cls := 6, grp := b, elt := 0 } cause { s with uni := { s.uni with banksOut := insAsc b s.uni.banksOut } }
    let r := bankRegion b
    if 288 ≤ b ∨ 9 ≤ banksLost s r.1 r.2 then raise { code := 0x0008, d0 := b } s else s

/-- Replace an SRAM row that is out of service by the lowest-numbered working spare row of its bank (R84, R91). -/
def replaceRow (b row cause : Nat) (s : State) : State :=
  match freeSpareRows s b with
  | k :: _ => checkLevels [5] { s with uni := { s.uni with rowMap := s.uni.rowMap ++ [(b, row, k)] } }
  | [] => withdrawBank b cause s

/-- The streams that logical codec engine `i` is scheduled for and no mapped engine carries now. -/
def lostStreams (s : State) (i : Nat) : List Nat :=
  (((List.range 16).map fun k => (codecSlot s.vq.active (me s) i k).1).filter (· != 0)).foldl (fun l st =>
    if (streamEngines s st).isEmpty then insAsc st l else l) []

/-- A logical codec engine is left unmapped (R91): its links stay down, or the unit is FAULTED with a stream it needs. -/
def codecLost (i : Nat) (s : State) : State :=
  let l := lostStreams s i
  match l.filter (0x20 ≤ ·) with
  | st :: _ => raise { code := 0x000C, d0 := i, d1 := st } s
  | [] =>
    let s := raise { code := 0x0007, d0 := i, d1 := (l.map fun st => 2 ^ (st - 1)).sum } s
    l.foldl (fun s st => linkDown (st - 1) s) s

/-- The working elements of a group that serve no logical element of a map. -/
def idleSpares (s : State) (c : Nat) (m : Tbl Nat) : List Nat := (workingOf s c 0).filter fun p => !(m.any fun q => q.2 == p)

/-- A codec engine fails in life (R89, R91): a spare takes over its logical role. -/
def codecTakeover (phys cause : Nat) (s : State) : State :=
  let s := takeOut { cls := 3, grp := 0, elt := phys } cause s
  match s.cdc.engMap.find? fun p => p.2 == phys with
  | none => s
  | some (i, _) => match idleSpares s 3 s.cdc.engMap with
    | x :: _ => { s with cdc := { s.cdc with engMap := tset i x s.cdc.engMap } }
    | [] => codecLost i { s with cdc := { s.cdc with engMap := tdel i s.cdc.engMap } }

/-- A Shrew core fails in life (R89, R91). -/
def coreTakeover (phys cause : Nat) (s : State) : State :=
  let s := takeOut { cls := 4, grp := 0, elt := phys } cause s
  match s.uni.coreMap.find? fun p => p.2 == phys with
  | none => s
  | some (i, _) => match idleSpares s 4 s.uni.coreMap with
    | x :: _ => { s with uni := { s.uni with coreMap := tset i x s.uni.coreMap } }
    | [] => raise { code := 0x0006, d0 := phys } { s with uni := { s.uni with coreMap := tdel i s.uni.coreMap } }

/-! ### The phases of a cold start (R77) -/

/-- The bound of each phase, ms (Table 5.1). -/
def phaseLimit (n : Nat) : Nat := [0, 3000, 5000, 30000, 5000, 6000, 80000, 80000, 126000, 45000].getD n 0

/-- A phase exceeds its bound (R78). -/
def phaseOver (n : Nat) (s : State) : State :=
  let s := { s with uni := { s.uni with failPhase := n } }
  if n = 7 ∨ n = 9 then s else raise { code := 0x0001, d0 := n } s

/-- Time passes. -/
def pass (ns : Ns) (s : State) : State :=
  { s with
    mon := { s.mon with timebase := if s.mon.loaded then s.mon.timebase + ns else s.mon.timebase }
    uni := { s.uni with interval := if s.mon.loaded then s.uni.interval else s.uni.interval + ns }
    lif := { s.lif with cal := if s.lif.calValid then s.lif.cal + ns else s.lif.cal } }

/-- Run a phase while the unit is STARTING: its effect, its time, and what follows if it exceeds its bound. -/
def inPhase (n : Nat) (env : StartEnv) (f : State → State) (s : State) : State :=
  if s.uni.st ≠ .starting then s
  else
    let ms := env.phaseMs.getD (n - 1) 0
    let s := f { s with uni := { s.uni with phase := n, phaseMs := tset n ms s.uni.phaseMs } }
    let s := if n = 7 then s else pass (ms * msNs) s
    if phaseLimit n < ms ∧ s.uni.st = .starting then phaseOver n s else s

/-- Phase 1, RAILS: every island to 0.80 V, or to `VMAX` where that is lower. -/
def phaseRails (s : State) : State :=
  { s with pwr := { s.pwr with isl := (List.range 8).map fun i => (i, { vset := min 800 (500 + 2 * vmaxCode s.fus), idleSince := now s }) } }

/-- A fuse word is under ECC (Table 3.1). -/
def eccWord (w : Nat) : Bool := decide (4 ≤ w) && decide (w < 164) && w != 7 && w != 99

/-- The ECC words that read uncorrectable (R38). -/
def badWords (f : Fus) : List Nat := (List.range 256).filter fun w => eccWord w && fuseBad f w

/-- The fuse words as a start-up reads them (R37, R38): which read corrected, and which uncorrectable; `n` is the draw. -/
def readFuses (env : StartEnv) (n : Nat) (f : Fus) : Fus :=
  let cs := env.fuseCorrected.filter fun w => eccWord w && !env.fuseBad.contains w
  let bs := env.fuseBad.filter eccWord
  let reading (w : Nat) (x : FuseWord) : FuseWord :=
    { x with read := if bs.contains w then .uncorrectable else if cs.contains w then .corrected else x.read }
  let ws := (bs ++ cs).foldl (fun t w => tset w (reading w (tget {} t w)) t) f.words
  let g : Fus := { f with words := ws, nonce := Config.entropy n, lifted := 0 }
  let g : Fus := { g with eccFault := !(badWords g).isEmpty }
  { g with digest := fuseDigest g }

/-- Phase 2, ROOT (R37 to R39, R42, R48, R57): the fuse words are read; a RETIRED unit stays in STANDBY. -/
def phaseRoot (env : StartEnv) (s : State) : State :=
  let cs := env.fuseCorrected.filter fun w => eccWord w && !env.fuseBad.contains w
  let s := draw { s with fus := readFuses env s.free s.fus }
  let bad := badWords s.fus
  let s := cs.foldl (fun s w => raise { code := 0x0101, d0 := w } s) s
  let s := bad.foldl (fun s w => raise { code := 0x0102, d0 := w } s) s
  if bad.any fun w => w == 4 || w == 5 || decide (100 ≤ w) then enterFaulted 0x0102 s
  else if lifecycle s.fus = 3 then powerGone (moveTo .standby 0 0 s)
  else if env.fwOk then s
  else enterFaulted 0x00FF (raiseGen 0 4 { code := 0 } s)

/-- Phase 2 ends here for a BLANK unit, which accepts only factory test. -/
def blankStop (s : State) : Bool := lifecycle s.fus == 0

/-- A field entry is cleared under R94: of classes 1 to 5, and its element gave PASS twice. -/
def retested (env : StartEnv) (e : FieldEntry) : Bool := decide (e.entry.cls ≤ 5) && env.retestPass.contains e.entry

/-- An element that phase 3 tested SLOW is replaced while its group is GREEN, or stays in service; a spare stays a spare (R87,
R95). -/
def slowElement (e : RepairEntry) (s : State) : State :=
  let serving := if e.cls = 5 then decide (e.elt < 4096) else (servingElements s e.cls e.grp).contains e.elt
  if serving && groupGreen s e then
    (if e.cls = 5 then replaceRow e.grp e.elt 2 (takeOut e 2 s) else takeOut e 2 s)
  else { s with uni := { s.uni with slow := addNew e s.uni.slow } }

/-- A phase-3 result: FAIL, or else SLOW. -/
def testResult (env : StartEnv) (e : RepairEntry) (s : State) : State :=
  if isOut s e.cls e.grp e.elt then s
  else if env.fails.contains e then
    (if e.cls = 5 ∧ e.elt < 4096 then replaceRow e.grp e.elt 1 (takeOut e 1 s) else takeOut e 1 s)
  else slowElement e s

/-- The temperature sensors and voltage monitors whose trims lie in a word that reads uncorrectable (Table 3.1). -/
def untrimmed (f : Fus) : List (Nat × Nat) :=
  ((List.range 64).filter fun n => fuseBad f (77 + n / 4)).map (0, ·)
    ++ ((List.range 32).filter fun n => fuseBad f (93 + 12 * n / 64) || fuseBad f (93 + (12 * n + 11) / 64)).map (1, ·)

/-- Phases 3 and 4, DIE TEST and REPAIR (Table 3.1, R31, R32, R82 to R87, R94, R95): the repair set in the order of R87, and the mappings
of R84. -/
def phaseRepair (env : StartEnv) (s : State) : State :=
  let words := factoryWords s.fus
  let s := (words.filter fun e => !entryValid e).foldl (fun s _ => raiseGen 0 1 { code := 0 } s) s
  let clear (f : FieldEntry) : FieldEntry := if s.uni.retest && retested env f then { f with cleared := true } else f
  let fm := s.lif.fieldMap.map clear
  let field := ((fm.filter fun f => !f.cleared).map (·.entry)).filter fun e => e.cls != 7 && e.cls != 10 && e.cls != 11
  let first := ((words.filter entryValid) ++ field).foldl (fun l e => addNew e l) []
  let rest := ((fm.filter fun f => !f.cleared).map (·.entry)).filter fun e => e.cls == 7 || e.cls == 10
  let s := { s with
    lif := { s.lif with fieldMap := fm }
    uni := { s.uni with
      retest := false, outOfService := rest.foldl (fun l e => addNew e l) first, slow := [], rowMap := []
      banksOut := (first.filter (·.cls == 6)).foldl (fun l e => insAsc e.grp l) [] } }
  let s := (first.filter fun e => e.cls == 5 && decide (e.elt < 4096)).foldl (fun s e => replaceRow e.grp e.elt 1 s) s
  let s := (first.filter (·.cls == 8)).foldl (fun s e => markFailed e.grp e.elt s) s
  let s := (untrimmed s.fus).foldl (fun s p => markFailed p.1 p.2 s) s
  let s := env.badMonitors.foldl (fun s p =>
    if p.1 < 3 then takeOut { cls := 8, grp := p.1, elt := p.2 } 1 (markFailed p.1 p.2 s) else s) s
  let tests := ((env.fails ++ env.slows).filter fun e => entryValid e && decide (e.cls ≤ 5)).map entryVal
  let s := (tests.foldl (fun l v => insAsc v l) []).foldl (fun s v => testResult env (entryOf v) s) s
  let s := (List.range 4).foldl (fun s e =>
    if isOut s 9 e 0 then onEngine e (fun x => { x with st := 3 }) s
    else if (engineColumns s e).length < 128 ∨ (engineDecoders s e).length < 64 ∨ unregulated s.mon (e + 1) = true then withdrawEngine e 1 s
    else s) s
  let s := { s with
    cdc := { s.cdc with engMap := (servingElements s 3 0).zipIdx.map fun p => (p.2, p.1) }
    uni := { s.uni with coreMap := (servingElements s 4 0).zipIdx.map fun p => (p.2, p.1) } }
  let s := if (servingElements s 4 0).length < 8 then raise { code := 0x0006, d0 := (servingElements s 4 0).length } s else s
  let s := checkLevels [1, 2, 3, 4, 5, 6, 8, 9] s
  match [0, 5, 6, 7].find? fun i => unregulated s.mon i with
  | some i => enterFaulted 0x0303 (raise { code := 0x0303, sk := 6, si := i, d0 := unfailed s.mon 0 i } s)
  | none => s

/-! ### Phase 5 (R72, R93, R406) -/

/-- The next image changes a record of a type whose protection-map code asks for a CONFIRM (R406). -/
def needsConfirm (f : Fus) (old : Option Image) (m : Image) : Bool :=
  let o := match old with
    | some a => a.records
    | none => []
  (m.records.any fun r => pmapCode f r.typ == 3 && !o.contains r) || o.any fun r => pmapCode f r.typ == 3 && !m.records.contains r

/-- The verdict of a stored image at start-up (steps 1 to 12). -/
def startVerdict (s : State) (m : Option Image) : Nat :=
  match m with
  | none => 0
  | some m => (validateImage s.fus none s.vq.genFloor m.raw 12).1.code

/-- An image comes into force at a start. -/
def adopt (m : Image) (which : Nat) (s : State) : State :=
  { s with
    uni := { s.uni with imageUsed := which }
    vq := { s.vq with
      active := some m, number := (memberNumber s.fus m).getD 0, valid := true, live := none, mig := {}
      shadow := if s.vq.epochState = 0 then none else otherBank s.vq } }

/-- A unit with no image enters HELD, and exposes LD 0 on H0 (R93). -/
def noImage (env : StartEnv) (cur next : Nat) (s : State) : State :=
  let s := raise { code := 0x000A, d0 := cur, d1 := next }
    { s with
      uni := { s.uni with imageUsed := 0 }
      vq := { s.vq with active := none, valid := false, number := 0, live := none, shadow := none, epochState := 0 } }
  match env.links.find? fun p => p.1 == 0 with
  | some (_, p) => linkUp 0 p s
  | none => s

/-- Phase 5, IMAGE. -/
def phaseImage (env : StartEnv) (s : State) : State :=
  let next := if s.vq.nextMarked then otherBank s.vq else none
  let barred := match next with
    | some m => needsConfirm s.fus (currentBank s.vq) m && !s.pnl.nextOk
    | none => false
  let nc := if barred then 0 else startVerdict s next
  let s := if barred then raise { code := 0x0204, d0 := 0x10 } s
    else if nc ≠ 0 then raise { code := 0x0204, d0 := nc } { s with
      uni := { s.uni with nextCode := nc }
      vq := { s.vq with nextMarked := false } }
    else s
  match (if barred || nc != 0 then none else next) with
  | some m => mailboxStart (adopt m 1 { s with vq := { s.vq with currentB := !s.vq.currentB, nextMarked := false } })
  | none =>
    let cc := startVerdict s (currentBank s.vq)
    match (if cc = 0 then currentBank s.vq else none) with
    | some m => mailboxStart (adopt m 2 s)
    | none => noImage env cc nc s

/-! ### Phases 6 to 9 -/

/-- The codec engines that are left unmapped at a start (R91), once the image's schedule is known. -/
def codecShort (s : State) : State :=
  if s.cdc.engMap.length < 8 then
    (((List.range 8).filter fun i => (tfind s.cdc.engMap i).isNone).foldl (fun s i => codecLost i s)) s
  else s

/-- Phase 6, DRAM (R81, R92, R200, R203, R216): the spares are set aside, the stacks run in the fastest state allowed, and the
tier is initialised. -/
def phaseDram (env : StartEnv) (s : State) : State :=
  let out (i : Nat) : Bool := isOut s 7 0 i
  let s := (env.badSids.filter fun i => decide (i < 32) && !out i).foldl (fun s i => takeOut { cls := 7, grp := 0, elt := i } 1 s) s
  let working := (List.range 32).filter fun i => !isOut s 7 0 i
  match spareRoom s.vq.active (me s) working.length with
  | none => raise { code := 0x0009, d0 := (working.length * sidBytes - poolBytes s.vq.active (me s)) / gib }
      { s with uni := { s.uni with waiting := some env } }
  | some c =>
    let asked := spareCount s.vq.active (me s)
    let d := setSids s.vq.active (me s) working c { tier := [] }
    let d := { d with sids := d.sids.map fun p => (p.1, if env.badSids.contains p.1 then { p.2 with st := 4 } else p.2) }
    let s := { s with drt := d }
    let rate := (([0, 1, 2].find? fun r => rateAllowed s r)).getD 2
    let s := { s with drt := { s.drt with rate := rate, nextRate := rate } }
    let s := if c < asked then raise { code := 0x000D, d0 := c, d1 := asked } s else s
    checkLevels [7] s

/-- The pools fit the SIDs that the field map leaves (R92): otherwise the unit enters HELD after phase 5. -/
def poolsAtStart (env : StartEnv) (s : State) : State :=
  let n := ((List.range 32).filter fun i => !isOut s 7 0 i).length
  if (spareRoom s.vq.active (me s) n).isSome then s
  else raise { code := 0x0009, d0 := (n * sidBytes - poolBytes s.vq.active (me s)) / gib }
    { s with uni := { s.uni with waiting := some env } }

/-- The source of the time that phase 7 loads (R80, R386, R395): its value, and whether it is the calendar's own. -/
def timeSource (env : StartEnv) (s : State) : Option (Ns × Bool) :=
  let cal := if s.lif.calValid then some (s.lif.cal, true) else none
  let far := env.warrenTime.map fun t => (t, false)
  let ptp := env.ptpTime.map fun t => (t, false)
  if amGm s then (if fabSource s.vq.active = 1 then ptp <|> cal <|> far else cal <|> far) else far <|> cal

/-- Load the timebase once (R27, R80): deadlines of the panel, which alone runs before, are carried across by the difference
of the counters. An invalid calendar is set at once (R384, R395). -/
def loadTime (t : Ns) (own : Bool) (s : State) : State :=
  let mv (x : Ns) : Ns := x + t - s.uni.interval
  let step := ((t : Int) - (s.lif.cal : Int)) / 1000
  let s := { s with
    mon := { s.mon with timebase := t, loaded := true, locked := true }
    pnl := { s.pnl with
      identUntil := mv s.pnl.identUntil, bayUntil := mv s.pnl.bayUntil, refusalUntil := mv s.pnl.refusalUntil
      lastTouch := mv s.pnl.lastTouch } }
  if own || s.lif.calValid then s
  else raise { code := 0x0E01, d0 := (BitVec.ofInt 64 step).toNat } { s with
    lif := { s.lif with cal := t, calValid := true, steppedAt := some t, lastStep := step } }

/-- The Warren ports that trained, with what each peer said (R259, R282). -/
def trainPorts (env : StartEnv) (s : State) : State :=
  env.hellos.foldl (fun s q =>
    if (topo s.vq.active (me s) q.1).isNone then s
    else
      let mask := ((List.range 4).filter fun l => !isOut s 10 q.1 l).map fun l => 2 ^ l
      takeHello q.1 q.2 (trainPort q.1 mask.sum s)) s

/-- Phase 7, WARREN (R80, R275, R282, R395). -/
def phaseWarren (env : StartEnv) (s : State) : State :=
  let s := trainPorts env (pass (env.phaseMs.getD 6 0 * msNs) s)
  if s.mon.loaded then reachUpdate s
  else match timeSource env s with
  | some (t, own) => reachUpdate (loadTime t own s)
  | none => raise { code := 0x0E04 } { s with
      lif := { s.lif with noTime := true }
      uni := { s.uni with waiting := some env } }

/-- The stripes that a replay finds (R229, R254): committed ones, and those cut off of which enough chunks exist. -/
def replayStripes (env : StartEnv) (s : State) : Tbl Stripe :=
  (s.hrd.stripes.filter fun p => p.2.st == 2 || env.replayed.any fun q => q.2.2.1 == p.1).map fun p => (p.1, { p.2 with st := 2, data := [] })

/-- Own chunks that the Dreys here should hold and do not: they await rebuild (R250). -/
def missingChunks (s : State) : List LostChunk :=
  s.hrd.stripes.flatMap fun p =>
    ((List.range (p.2.k + p.2.m)).filter fun c => p.2.holders.getD c (me s + 1) == me s && (findChunk s.hrd p.1 c).isNone).map fun c =>
      { stripe := p.1, idx := c, k := p.2.k, m := p.2.m, kind := p.2.kind, crc := 0, unit := me s, serial := 0, die := 0, bay := none }

/-- Phase 8, HOARD (R81, R168, R203, R229, R241, R242, R246): the Dreys are mounted, the directories rebuilt, and the pools
filled. -/
def phaseHoard (env : StartEnv) (s : State) : State :=
  let s := if unitHoard s.vq.active (me s) then s else { s with ext := { s.ext with olog := [], head := 0, tail := 0, lost := 0 } }
  let entry (q : Nat × Nat × Nat × Nat × Nat) : DirEntry :=
    { tenant := q.1, tile := q.2.1, stripe := q.2.2.1, offset := q.2.2.2.1, len := q.2.2.2.2, zero := false }
  let st := replayStripes env s
  let seqs := (st.map fun p => stripeSeq p.1).foldl max s.hrd.seq
  let s := { s with hrd := { s.hrd with stripes := st, seq := seqs, nextSeq := max s.hrd.nextSeq (seqs + 1) } }
  let s := { s with hrd := env.replayed.foldl (fun h q => dirSet (entry q) h) s.hrd }
  let s := env.dreys.foldl (fun s q => if q.1 < 16 then mountDrey q.1 (classBay q.1 q.2 s) else s) s
  let s := { s with hrd := addLost (missingChunks s) s.hrd }
  let es := extRecs s.vq.active
  let s := { s with ext := { s.ext with exts := s.ext.exts.filter fun p => es.any fun e => e.id == p.1 } }
  let s := (es.filter fun e => (extSt s e.id).st == 0).foldl (fun s e =>
    moveExtent e.id 1 (onExtent e.id (fun x => { x with tenant := e.tenant }) s)) s
  checkLevels [11, 12] (fillPinned (takeSlots s.vq.active s))

/-- Phase 9, HOST (R98, R103, R164): the links are trained and the LDs brought up. -/
def phaseHost (env : StartEnv) (s : State) : State :=
  env.links.foldl (fun s q => linkUp q.1 q.2 s) s

/-- The phases' times together, ms (Table 5.8, `DURATION`). -/
def startMs (u : Uni) : Nat := (u.phaseMs.map fun p => p.2).sum

/-- The end of a start (R77, R79, R164): SERVING, or HELD where HOLD was pressed. -/
def startEnd (s : State) : State :=
  if s.uni.st ≠ .starting then { s with uni := { s.uni with phase := 0, durationMs := startMs s.uni } }
  else
    let s := { s with uni := { s.uni with phase := 0, durationMs := startMs s.uni } }
    let s := if s.uni.holdWanted then
        moveTo .held 0 0 { s with
          uni := { s.uni with holdWanted := false, beforeHold := .serving }
          flt := { s.flt with byHold := true, byFault := false, causes := [] } }
      else moveTo .serving 0 0 s
    let s := ((List.range 256).filter fun t => hasTenant s.vq.active t && tenHome s.vq.active t == me s).foldl (fun s t =>
      homeInit t (now s) s) s
    wake (offersGo (kmGo (coordRestart s)))

/-- Phases 8 and 9, and the end. -/
def startTail (env : StartEnv) (s : State) : State :=
  startEnd (inPhase 9 env (phaseHost env) (inPhase 8 env (phaseHoard env) s))

/-- Phases 6 to 9. Phase 6 lasts on beside phase 7 (R77). -/
def startSix (env : StartEnv) (s : State) : State :=
  let six := { env with phaseMs := env.phaseMs.set 5 0 }
  let s := inPhase 6 six (phaseDram env) s
  let s := { s with uni := { s.uni with phaseMs := if s.uni.st = .starting then tset 6 (env.phaseMs.getD 5 0) s.uni.phaseMs else s.uni.phaseMs } }
  let s := if phaseLimit 6 < env.phaseMs.getD 5 0 ∧ s.uni.st = .starting then phaseOver 6 s else s
  let s := inPhase 7 env (phaseWarren env) s
  let s := if s.uni.st = .starting then pass ((env.phaseMs.getD 5 0 - env.phaseMs.getD 6 0) * msNs) s else s
  startTail env s

/-- Phases 5 to 9 (R71, R93, R345). -/
def startFrom (env : StartEnv) (s : State) : State :=
  let s := inPhase 5 env (phaseImage env) s
  startSix env (if s.uni.st = .starting then codecShort (poolsAtStart env s) else s)

/-- COLD_START (R77 to R81, R84 to R87, R92 to R95): a unit that is STARTING runs its phases; `env` is what it finds. -/
def execColdStart (env : StartEnv) (s : State) : Res :=
  if s.uni.st ≠ .starting then .next s
  else if s.vq.restart5 then .next (startFrom env { s with vq := { s.vq with restart5 := false }, drt := {} })
  else
    let s := { s with lif := { s.lif with coldStarts := sat 16 (s.lif.coldStarts + 1) } }
    let lv := match s.lif.latched with
      | some p => p
      | none => (false, false)
    let s := { s with hst := { s.hst with ideRequired := lv.1, poisonInject := lv.2 } }
    let s := inPhase 1 env phaseRails s
    let s := inPhase 2 env (phaseRoot env) s
    if blankStop s ∨ s.uni.st ≠ .starting then .next s
    else
      let s := inPhase 3 env id s
      let s := inPhase 4 env (phaseRepair env) s
      .next (startFrom env s)

/-- A source of time is found by a unit that waits for one (R395): phases 8 and 9 run. -/
def timeFound (t : Ns) (own : Bool) (s : State) : State :=
  match s.uni.waiting with
  | none => s
  | some env =>
    if s.lif.noTime = false ∨ s.uni.st ≠ .held then s
    else
      let s := loadTime t own { s with
        lif := { s.lif with noTime := false }
        uni := { s.uni with waiting := none }
        flt := { s.flt with byFault := false, causes := [] } }
      startTail env (reachUpdate (moveTo .starting 0 0 { s with uni := { s.uni with phase := 8 } }))

/-- PHASE_BOUND (R78). -/
def execPhaseBound (phase : Nat) (s : State) : Res :=
  if s.uni.st ≠ .starting ∨ phase = 0 ∨ 9 < phase then .next s else .next (phaseOver phase s)

/-! ### Repair in life (R88) -/

/-- An engine's known-answer test: an idle engine that fails has its failing columns tested and replaced. -/
def engineTest (e : Nat) (cols : List Nat) (s : State) : State :=
  let pass := cols.isEmpty
  let m : BitVec 4 := BitVec.ofNat 4 (2 ^ e)
  let s := { s with eng := { s.eng with katPass := if pass then s.eng.katPass ||| m else s.eng.katPass &&& ~~~ m } }
  if pass then s
  else onEngine e (fun x => { x with
    st := 2, katFail := sat 16 (x.katFail + 1), cause := 5
    failing := x.failing ++ cols.map fun c => { cls := 1, grp := e, elt := c } }) s

/-- An engine is idle: SERVING, with no block. -/
def engineIdle (s : State) (e : Nat) : Bool := decide (e < 4) && (engOf s.eng e).st == 0 && (engOf s.eng e).block.isNone

/-- ENGINE_KAT_TIMER (R88, Table 5.6): between operators; `failed` are the physical columns whose sums are wrong. -/
def execEngineKatTimer (engine : Nat) (failed : List Nat) (s : State) : Res :=
  .next (if engineIdle s engine && unitServesOrHeld s then engineTest engine failed s else s)

/-- A write of `ENG_KAT.RUN` (R88, R310): each engine asked is tested at its next idle point. Which column fails is open here:
a free value. -/
def engKat (run pass : BitVec 4) (s : State) : State :=
  let want := s.eng.katWanted ||| run
  (List.range 4).foldl (fun s e =>
    if !want.getLsbD e || !engineIdle s e then s
    else
      let cols := engineColumns s e
      let bad := if pass.getLsbD e then [] else [cols.getD (Config.number s.free % 128) 0]
      let s := engineTest e bad (draw s)
      { s with eng := { s.eng with katWanted := s.eng.katWanted &&& ~~~ (BitVec.ofNat 4 (2 ^ e)) } })
    { s with eng := { s.eng with katWanted := want } }

/-- ENG_KAT_RUN (R88, R310). -/
def execEngKatRun (run : BitVec 4) (pass : BitVec 4) (s : State) : Res := .next (engKat run pass s)

/-- CODEC_KAT_TIMER (R88, R89). -/
def execCodecKatTimer (phys : Nat) (pass : Bool) (s : State) : Res :=
  .next (if pass || decide (9 ≤ phys) || isOut s 3 0 phys || !unitServesOrHeld s then s else codecTakeover phys 5 s)

/-- An uncorrectable staging row poisons the lines it held (R88); which lines they are is open: a free value. -/
def stagingRowLost (s : State) : State :=
  match s.cdc.stg[Config.number s.free % s.cdc.stg.length]? with
  | none => draw s
  | some e =>
    let n := Config.number (s.free + 2 ^ 32) % 64
    let hit (x : StgEntry) : StgEntry := if isEntry e.tenant e.block x then { x with poison := x.poison ||| (1 <<< n) } else x
    raiseGen 8 2 { code := 0, tenant := e.tenant, addr := e.block * 4096 } (draw { s with cdc := { s.cdc with stg := s.cdc.stg.map hit } })

/-- The contents of a lost row come back from their source (R88, R158): only staging and the snoop filter can lose some. -/
def rowContents (b : Nat) (uncorrectable mirrorOk : Bool) (s : State) : State :=
  if 128 ≤ b ∧ b < 192 ∧ uncorrectable = true then stagingRowLost s
  else if 256 ≤ b ∧ b < 288 ∧ mirrorOk = false then filterLost s
  else s

/-- SRAM_ROW_ERROR (R88): an uncorrectable error, or the third corrected one within 24 h. -/
def execSramRowError (bank row : Nat) (uncorrectable mirrorOk : Bool) (s : State) : Res :=
  let e : RepairEntry := { cls := 5, grp := bank, elt := row }
  if !entryValid e || isOut s 5 bank row || !unitServesOrHeld s then .next s
  else
    let key := 2 ^ 13 * bank + row
    let ts := now s :: (tget [] s.uni.rowErrors key).filter fun t => decide (now s < t + dayNs)
    let due := uncorrectable || decide (3 ≤ ts.length)
    let s := { s with uni := { s.uni with rowErrors := if due then tdel key s.uni.rowErrors else tset key ts s.uni.rowErrors } }
    if !due then .next s
    else
      let s := takeOut e 4 s
      let s := if row < 4096 then replaceRow bank row 4 s
        else match s.uni.rowMap.find? fun r => r.1 == bank && r.2.2 + 4096 == row with
          | some (b, r, _) => replaceRow b r 4 { s with uni := { s.uni with rowMap := s.uni.rowMap.filter fun x => !(x.1 == bank && x.2.2 + 4096 == row) } }
          | none => s
      .next (wake (rowContents bank uncorrectable mirrorOk s))

/-- SHREW_CORE_FAILURE (R88, R89): watchdog or periodic self-test, cause 5. -/
def execShrewCoreFailure (core : Nat) (s : State) : Res :=
  .next (if decide (10 ≤ core) || isOut s 4 0 core || !unitServesOrHeld s then s else coreTakeover core 5 s)

/-- An element that the pace scan finds SLOW in service, in a group that is GREEN, is replaced as its class is (R88). -/
def paceReplace (e : RepairEntry) (s : State) : State :=
  match e.cls with
  | 3 => codecTakeover e.elt 6 s
  | 4 => coreTakeover e.elt 6 s
  | 5 => replaceRow e.grp e.elt 6 (takeOut e 6 s)
  | _ => onEngine e.grp (fun x => { x with st := if x.st = 0 then 2 else x.st, cause := 6, failing := x.failing ++ [e] }) s

/-- PACE_SCAN (R88): in an idle window; `slow` are the elements found SLOW. -/
def execPaceScan (slow : List RepairEntry) (s : State) : Res :=
  .next ((slow.filter fun e => entryValid e && decide (e.cls ≤ 5) && decide (1 ≤ e.cls)).foldl (fun s e =>
    if isOut s e.cls e.grp e.elt then s
    else
      let serving := if e.cls = 5 then decide (e.elt < 4096) else (servingElements s e.cls e.grp).contains e.elt
      let idle := decide (2 < e.cls) || engineIdle s e.grp
      if serving && groupGreen s e && idle then paceReplace e s
      else { s with uni := { s.uni with slow := addNew e s.uni.slow } }) s)

/-- ENGINE_REPAIR_COMPLETE (R86, R88, R91, R137): the failing elements are out, and the engine serves again, or is withdrawn. -/
def execEngineRepairComplete (engine : Nat) (s : State) : Res :=
  let x := engOf s.eng engine
  if x.st ≠ 1 ∧ x.st ≠ 2 then .next s
  else
    let s := x.failing.foldl (fun s e => takeOut e x.cause s) s
    if (engineColumns s engine).length < 128 ∨ (engineDecoders s engine).length < 64 then .next (wake (withdrawEngine engine x.cause s))
    else .next (engEpochAdvance engine (onEngine engine (fun y => { y with st := 0, failing := [], cause := 0 }) s))

/-! ### Firmware restarts (R96) -/

/-- What a firmware restart returns to its reset value (R11): the RW and RW1C fields, and the RWL fields to 0 or to the value
latched at SEAL. The rings and the mailbox queues are retained (Tables 7.8 and 14.1); the logs keep their tails with their
records (log entry 41). -/
def rwReset (s : State) : State :=
  let lv : Bool × Bool := s.lif.latched.getD (false, false)
  let box (p : Nat × HostBox) : Nat × HostBox := (p.1, { p.2 with ptr := 0, db := 0 })
  let s := { s with
    fus := { s.fus with len := 0 }
    vq := { s.vq with refused := false, loadLen := 0, loadMode := 0, loadDist := false, page := 0 }
    mon := { s.mon with peakEpoch := 0, alert := 0 }
    pwr := { s.pwr with action := 0 }
    hst := { s.hst with ideRequired := lv.1, poisonInject := lv.2 }
    mbx := { s.mbx with host := s.mbx.host.map box }
    ext := { s.ext with cmdExt := 0, cmdAction := 0, page := 0 }
    cdc := { s.cdc with faultValid := false }
    drt := { s.drt with frzValid := false }
    hrd := { s.hrd with cmdBay := 0, cmdAction := 0 }
    wrn := { s.wrn with cmdPort := 0, cmdAction := 0 }
    eng := { s.eng with katWanted := 0 }
    lif := { s.lif with action := 0, arg := 0, qty := 0, ring := 0 }
    pnl := { s.pnl with action := 0, cmdBay := 0 }
    flt := { s.flt with action := 0 } }
  s.mbx.host.foldl (fun s p => maskWrite p.1 (doorbellMask (liveView s) (me s) p.1) s) s

/-- What a firmware restart ends (R48, R96, R137): operators in flight are aborted with FW_RESTART, registers of class RW take
their reset values, and the firmware's epoch advances in every queue it writes. -/
def restartLosses (s : State) : State := fwEpochAdvance (rwReset (abortOps (fun _ => true) 3 s))

/-- How a firmware restart begins (R42, R347): a new nonce, an epoch without a decision rolled back, the load buffer lost. -/
def restartBegins (s : State) : State :=
  let f : Fus := { s.fus with nonce := Config.entropy s.free, lifted := 0 }
  let s := draw { s with
    fus := { f with digest := fuseDigest f }
    uni := { s.uni with restarting := true }
    vq := { s.vq with busy := false, phase := 0, buf := [], dist := none, rx := none, rxParts := [], staged := none }
    lif := { s.lif with fwRestarts := sat 16 (s.lif.fwRestarts + 1) } }
  flushRecords (coordRestart s)

/-- FIRMWARE_RESTART (R42, R48, R96, R137, R347). -/
def execFirmwareRestart (s : State) : Res :=
  .next (if !unitServesOrHeld s || s.uni.restarting then s else restartBegins (restartLosses s))

/-- FIRMWARE_RESTART_COMPLETE (R96, R349, R374): the image in force is validated again, and a stored next image is left. -/
def execFirmwareRestartComplete (s : State) : Res :=
  if !s.uni.restarting then .next s
  else
    let s := { s with uni := { s.uni with restarting := false, cause := 1 } }
    let c := startVerdict s s.vq.active
    if s.vq.active.isSome = true ∧ c ≠ 0 then
      .next (imageGone c s)
    else .next (wake (flushRecords s))

end Sys2Proof.Machine
end

