-- ==== Sys2Proof/Machine/Power.lean ====
section
/-! DEFINITION. Power and heat (chapter 16): the control of island voltages, thermal levels, regulator and input faults, and the
transitions between the unit states. -/

namespace Sys2Proof.Machine

/-! ### Islands (R366 to R372) -/

/-- An island, by number. -/
def islOf (s : State) (i : Nat) : Isl := tget {} s.pwr.isl i

/-- Ports that are active: UP, DEGRADED, MISMATCHED, RESTRICTED or UNPLANNED (R260). -/
def activePorts (s : State) : Nat := ((List.range 48).filter fun n => decide (3 ≤ (portOf s.wrn n).st)).length

/-- The floor of an island, mV (Table 2.5, R26, R260). -/
def islandFloor (s : State) (i : Nat) : Nat :=
  if i = 6 then 500 + 2 * vi6Floor s.drt.rate
  else if i = 7 then
    (if (s.hst.links.any fun p => p.2.st == 2 && p.2.rate == 0) || decide (24 < activePorts s) then 660 else 620)
  else 620

/-- The effective maximum of an island, mV. -/
def islandCap (s : State) (i : Nat) : Nat := 500 + 2 * islandMax s i

/-- The lowest voltage commanded: the floor, or the effective maximum where that is lower (R26, R367). -/
def islandLow (s : State) (i : Nat) : Nat := min (islandFloor s i) (islandCap s i)

/-- The junction limit, and the hottest valid reading, in 1/64 °C. -/
def junction (s : State) : Int := powTj (liveView s) (me s) * 64
def hottest (s : State) : Int := maxI ((List.range 8).flatMap fun i => (goodMons s.mon 0 i).map fun x => monVal 0 x.val)

/-- The entry point of a thermal level (Table 16.2). -/
def levelEntry (s : State) (l : Nat) : Int :=
  match l with
  | 1 => junction s - 320
  | 2 => junction s - 128
  | 3 => junction s
  | _ => 6720

/-- The level that the present reading enters. -/
def levelOf (s : State) : Nat := if levelEntry s 3 ≤ hottest s then 3 else if levelEntry s 2 ≤ hottest s then 2 else if levelEntry s 1 ≤ hottest s then 1 else 0

/-- Move to a thermal level. -/
def setLevel (l : Nat) (s : State) : State :=
  if l = s.pwr.therm then s else raise { code := 0x0401, d0 := l } { s with pwr := { s.pwr with therm := l, coolSince := none } }

/-- THERMAL_LEVEL_CHANGE (R371): a level is entered at once, and left after 100 ms at 1 °C below its entry point. -/
def thermalLevel (s : State) : State :=
  if s.pwr.therm = 4 then s
  else if s.pwr.therm < levelOf s then setLevel (levelOf s) s
  else if s.pwr.therm ≠ 0 ∧ hottest s + 64 ≤ levelEntry s s.pwr.therm then
    match s.pwr.coolSince with
    | none => { s with pwr := { s.pwr with coolSince := some (now s) } }
    | some t => if t + 100 * msNs ≤ now s then setLevel (levelOf s) s else s
  else { s with pwr := { s.pwr with coolSince := none } }

/-- Turn islands off. -/
def islandsOff (l : List Nat) (s : State) : State :=
  { s with pwr := { s.pwr with isl := l.foldl (fun t i => tmod {} i (fun x => { x with on := false, limiter := 5 }) t) s.pwr.isl } }

/-- TRIP (R371): a valid sensor at 105 °C or more for 10 ms takes the unit to FAULTED with VI1 to VI5 off. -/
def tripCheck (s : State) : State :=
  if hottest s < 6720 then { s with pwr := { s.pwr with tripSince := none } }
  else match s.pwr.tripSince with
    | none => { s with pwr := { s.pwr with tripSince := some (now s) } }
    | some t =>
      if now s < t + 10 * msNs ∨ s.pwr.therm = 4 then s
      else
        let s := { s with
          pwr := { s.pwr with therm := 4 }
          lif := { s.lif with trips := sat 16 (s.lif.trips + 1) } }
        raise { code := 0x0402, d0 := (BitVec.ofInt 64 (hottest s)).toNat } (islandsOff [1, 2, 3, 4, 5] s)

/-- Drop the DRAM state by one allowed step for heat (R371, R372). -/
def dropRate (s : State) : State :=
  match ([s.drt.rate + 1, s.drt.rate + 2].filter (· < 3)).find? (rateAllowed s) with
  | none => s
  | some r =>
    let s := rateChange r s
    { s with pwr := { s.pwr with dropped := s.pwr.dropped + 1 } }

/-- The next higher DRAM state, 10 s below every threshold that caused a drop (R372). -/
def restoreRate (s : State) : State :=
  if s.pwr.dropped = 0 ∨ now s < s.pwr.heatLast + 10 * secNs then s
  else match ([s.drt.rate - 1, s.drt.rate - 2].filter (· < s.drt.rate)).find? (rateAllowed s) with
    | none => { s with pwr := { s.pwr with dropped := 0 } }
    | some r =>
      let s := { s with pwr := { s.pwr with
        dropped := s.pwr.dropped - 1
        isl := tmod {} 6 (fun x => { x with vset := max x.vset (500 + 2 * vi6Floor r) }) s.pwr.isl } }
      rateChange r s

/-- The allowed DRAM states below the present one, down to `r`. -/
def stepsTo (s : State) (r : Nat) : Nat := ((List.range 3).filter fun x => decide (s.drt.rate < x) && decide (x ≤ r) && rateAllowed s x).length

/-- The host links at 64 GT/s are lowered once VI7 is at its floor for them and calls for less (R101, R368); Warren ports are never
taken down for it (R260). -/
def heatLinks (s : State) : State :=
  if (s.hst.links.any fun p => p.2.st == 2 && p.2.rate == 0) && decide (activePorts s ≤ 24) && decide ((islOf s 7).vset ≤ islandLow s 7)
      && (s.pwr.therm == 3 || (s.pwr.therm == 2 && decide (levelEntry s 2 ≤ islTemp s.mon 7))) then linkRates true s
  else s

/-- The DRAM state follows the thermal level (Table 16.2): one step at HOT once VI6 is at its floor, the lowest allowed state at
LIMIT. -/
def heatRate (s : State) : State :=
  if s.pwr.therm < 2 then restoreRate s
  else
    let s := { s with pwr := { s.pwr with heatLast := now s } }
    if s.pwr.therm = 2 then
      (if (islOf s 6).vset ≤ islandLow s 6 ∧ levelEntry s 2 ≤ islTemp s.mon 6 then dropRate s else s)
    else match [2, 1].find? fun r => decide (s.drt.rate < r) && rateAllowed s r with
      | some r =>
        let n := stepsTo s r
        let s := rateChange r s
        { s with pwr := { s.pwr with dropped := s.pwr.dropped + n } }
      | none => s

/-- The mean of the last ten milliseconds of die power, 0.1 W (R370). -/
def dieMean (p : Pwr) : Nat := if p.dieSamples.isEmpty then 0 else p.dieSamples.sum / p.dieSamples.length

/-- The islands that the die power limit lowers now (R370): VI1 to VI4, then VI5, then VI0. -/
def limitGroup (s : State) : List Nat :=
  let up (i : Nat) : Bool := (islOf s i).on && decide (islandLow s i < (islOf s i).vset)
  match [1, 2, 3, 4].filter up with
  | [] => if up 5 then [5] else if up 0 then [0] else []
  | l => l

/-- The pace target of an island (R369, Table 16.1): 0.1 M steps/s, or none for the floor. -/
def paceGoal (s : State) (i : Nat) : Option Nat :=
  let p := powTarget (liveView s) (me s) i
  if p ≠ 0 then some p
  else if i = 0 ∨ i = 5 then some 16000
  else if i = 6 ∨ i = 7 then none
  else if (engOf s.eng (i - 1)).block.isSome ∨ now s < (islOf s i).idleSince + 10 * msNs then some 16000 else none

/-- The pace target moves an island by 5 mV (R369); WARM and above raise no island, nor does a standing power limit. -/
def paceStep (s : State) (i : Nat) (x : Isl) : Isl :=
  let low := islandLow s i
  let cap := islandCap s i
  let down : Isl := if x.vset ≤ low then x else if x.vset - 5 ≤ low then { x with vset := low, limiter := 2 } else { x with vset := x.vset - 5, limiter := 0 }
  match paceGoal s i with
  | none => { down with target := 0 }
  | some p =>
    let x := { x with target := p }
    let held := decide (1 ≤ s.pwr.therm) || (s.pwr.limited && decide (i < 6))
    if (goodMons s.mon 2 i).isEmpty then x
    else if 1000 * islPace s.mon i < 995 * (p : Int) then
      (if held || decide (cap ≤ x.vset) then x
       else if cap ≤ x.vset + 5 then { x with vset := cap, limiter := 1 } else { x with vset := x.vset + 5, limiter := 0 })
    else if 1005 * (p : Int) < 1000 * islPace s.mon i then { down with target := p }
    else x

/-- One island's step, by the first rule of R368 that calls for a change. -/
def islandStep (s : State) (cut : List Nat) (i : Nat) : Isl :=
  let x := islOf s i
  let low := islandLow s i
  if !x.on then { x with limiter := 5 }
  else if x.vset < low then { x with vset := low, limiter := 2 }
  else if islandCap s i < x.vset then { x with vset := islandCap s i, limiter := 1 }
  else if s.pwr.therm = 3 then (if low < x.vset then { x with vset := low, limiter := 3 } else x)
  else if s.pwr.therm = 2 ∧ levelEntry s 2 ≤ islTemp s.mon i ∧ low < x.vset then { x with vset := max low (x.vset - 5), limiter := 3 }
  else if cut.contains i then { x with vset := max low (x.vset - 5), limiter := 4 }
  else paceStep s i x

/-- The readings of one millisecond (R367, R370, R381): die power and its peak; what the inputs, stacks and Dreys draw is
measured, and no rule gives it: free values. -/
def takePower (regs : List RegReading) (s : State) : State :=
  let sum := (regs.map fun (r : RegReading) => r.power).sum
  let ps := (sum :: s.pwr.dieSamples).take 10
  let w (k : Nat) : Nat := Config.number (s.free + k * 2 ^ 32) % 2 ^ 16
  let isl := (List.range 8).map fun i => (i, { islOf s i with power := ((regs[i]?).map fun (r : RegReading) => r.power).getD 0 })
  let drey : Tbl (Nat × Bool) := s.pwr.drey.map fun (q : Nat × Nat × Bool) => (q.1, if q.2.2 then w (10 + q.1) else 0, q.2.2)
  let p := { s.pwr with
    dieSamples := ps, isl := isl
    inA := if s.pwr.inputA then w 0 else 0
    inB := if s.pwr.inputB then w 1 else 0
    stkPower := (List.range 8).map fun k => (k, w (2 + k))
    drey := drey }
  draw { s with pwr := { p with peak := max p.peak (dieMean p) } }

/-- POWER_CONTROL_TICK (R366 to R371): one millisecond of the firmware's control. -/
def execPowerControlTick (regs : List RegReading) (s : State) : Res :=
  if !(unitServesOrHeld s || s.uni.st == .faulted) || s.uni.restarting then .next s
  else
    let s := heatLinks (heatRate (tripCheck (thermalLevel (takePower regs s))))
    let lim := powLimit (liveView s) (me s) * 10
    let avg := dieMean s.pwr
    let limited := if lim < avg then true else if 100 * avg ≤ 97 * lim then false else s.pwr.limited
    let s := { s with pwr := { s.pwr with limited := limited } }
    let cut := if lim < avg then limitGroup s else []
    .next { s with pwr := { s.pwr with isl := (List.range 8).map fun i => (i, islandStep s cut i) } }

/-- STACK_TEMP_READ (R372): a stack at 95 °C or more drops the DRAM state one step. -/
def execStackTempRead (stack : Nat) (temp : BitVec 16) (s : State) : Res :=
  if 8 ≤ stack ∨ inLife s = false then .next s
  else
    let s := { s with drt := { s.drt with stks := tmod {} stack (fun x => { x with temp := temp }) s.drt.stks } }
    if temp.toInt < 6080 then .next s
    else .next (dropRate { s with pwr := { s.pwr with heatLast := now s } })

/-! ### Loss of power -/

/-- The main rails go, and the unit is in STANDBY. -/
def toStandby (s : State) : State := powerGone (moveTo .standby 0 0 s)

/-- COMPARATOR_TRIP (R371): the board comparator removes every main rail at 110 °C. -/
def execComparatorTrip (s : State) : Res :=
  if !powered s then .next s
  else
    let s := record { code := 0x0402, d0 := (BitVec.ofInt 64 (hottest s)).toNat } s
    .next (toStandby { s with lif := { s.lif with trips := sat 16 (s.lif.trips + 1) } })

/-- REGULATOR_FAULT (R380): the unit enters FAULTED with that island off; an island that is off carries no port and no link. -/
def execRegulatorFault (island : Nat) (status : Nat) (s : State) : Res :=
  if 8 ≤ island ∨ powered s = false then .next s
  else
    let s := raise { code := 0x0403, sk := 6, si := island, d0 := status } (islandsOff [island] s)
    if island = 7 then
      .next ((List.range 16).foldl (fun s l => linkDown l s)
        ((List.range 48).foldl (fun s n => if 2 ≤ (portOf s.wrn n).st then portDown n 1 s else s) s))
    else .next s

/-- Both inputs are gone: OFF (R374, R380). The calendar runs on its coin cell; the standby rail's own state is lost. -/
def toOff (s : State) : State :=
  let s := powerGone (moveTo .off 0 0 s)
  { s with
    pwr := { s.pwr with inputA := false, inputB := false }
    pnl := { s.pnl with identOn := false, bayOn := false, refusalUntil := 0, refusalBay := none }
    lif := { s.lif with calValid := s.lif.calValid && !s.lif.coinOut }
    uni := { s.uni with interval := 0 }
    flt := { s.flt with seq := 0 } }

/-- BOTH_INPUTS_LOST (R374, R380). -/
def execBothInputsLost (s : State) : Res := .next (if s.uni.st = .off then s else toOff s)

/-- INPUT_LOST (R380): one input; `b` is input B. Its loss is counted (Table 17.3). -/
def execInputLost (b : Bool) (s : State) : Res :=
  let on := if b then s.pwr.inputB else s.pwr.inputA
  if !on || s.uni.st == .off then .next s
  else
    let s := raise { code := 0x0404, d0 := b2n b } { s with
      pwr := { s.pwr with inputA := s.pwr.inputA && b, inputB := s.pwr.inputB && !b }
      lif := { s.lif with lossesA := s.lif.lossesA + b2n (!b), lossesB := s.lif.lossesB + b2n b } }
    .next (if s.pwr.inputA || s.pwr.inputB then s else toOff s)

/-- INPUT_RESTORED (R380, R381). -/
def execInputRestored (b : Bool) (s : State) : Res :=
  .next { s with pwr := { s.pwr with inputA := s.pwr.inputA || !b, inputB := s.pwr.inputB || b } }

/-! ### Transitions (Table 16.4) -/

/-- The end of a `PWR_CMD` action: its status, where it came through the register. -/
def pwrDone (via : Via) (action status : Nat) (s : State) : State :=
  if via = .register then { s with pwr := { s.pwr with action := action, status := status, busy := false } } else s

/-- STANDBY to STARTING: phase 1 begins. Panel deadlines follow the counter as it starts again (R80). -/
def powerOn (s : State) : State :=
  let mv (x : Ns) : Ns := x - s.uni.interval
  moveTo .starting 0 0 { s with
    uni := { s.uni with phase := 1, failPhase := 0, interval := 0, phaseMs := [], nextCode := 0, cause := 0 }
    pnl := { s.pnl with
      identUntil := mv s.pnl.identUntil, bayUntil := mv s.pnl.bayUntil, refusalUntil := mv s.pnl.refusalUntil
      lastTouch := mv s.pnl.lastTouch } }

/-- START (R374). -/
def startCmd (via : Via) (s : State) : State :=
  if s.uni.st = .standby then pwrDone via 6 0 (powerOn s) else pwrDone via 6 1 s
def execStart (via : Via) (s : State) : Res := .next (startCmd via s)

/-- STANDBY_POWER_APPLIED (R374, R381): an input is back; with `autoRestore`, power returns after a loss, and `AUTO_START` starts
the unit. -/
def execStandbyPowerApplied (autoRestore : Bool) (s : State) : Res :=
  if s.uni.st ≠ .off then .next s
  else
    let p := if s.pwr.inputA || s.pwr.inputB then s.pwr else { s.pwr with inputA := true, inputB := true }
    let s := moveTo .standby 0 0 { s with pwr := p }
    .next (if autoRestore && s.pwr.autoStart then powerOn s else s)

/-- Leave HELD: held requests are served in ingress order, held writes among them (R423), and what waited goes on. -/
def leaveHeld (st : UnitState) (s : State) : State :=
  let kept := s.hst.reqs.filter (·.wait == 3)
  let s := moveTo st 0 0 { s with
    hst := { s.hst with reqs := s.hst.reqs.filter (·.wait != 3) }
    flt := { s.flt with byHold := false, byFault := false, causes := [] } }
  wake (kmGo (kept.foldl (fun s r => hostRequest { r with wait := 0 } r.addr s) s))

/-- The work of DRAINING (R375): staged strips are written back, dirty tiles committed, and a checkpoint made. -/
def drainWork (s : State) : State :=
  let s := (s.cdc.stg.filter entryDirty).foldl (fun s e => flushBlock e.tenant e.block s) s
  let s := (dirtyTiles s).foldl (fun s t => commitTile t.1 t.2 s) s
  checkpointNow s

/-- DRAIN (R374, R375, R425). -/
def drainCmd (via : Via) (s : State) : State :=
  match s.uni.st with
  | .serving => pwrDone via 1 0 (drainWork (moveTo .draining 0 0 s))
  | .held => if s.lif.noTime || s.vq.active.isNone then pwrDone via 1 1 s else pwrDone via 1 0 (drainWork (leaveHeld .draining s))
  | _ => pwrDone via 1 1 s
def execDrain (via : Via) (s : State) : Res := .next (drainCmd via s)

/-- DRAINING has finished its work in flight (R375). -/
def drainedNow (s : State) : Bool :=
  s.opq.ops.isEmpty && s.opq.intake.isEmpty && s.opq.fwd.isEmpty && !(s.cdc.stg.any entryDirty) && (dirtyTiles s).isEmpty

/-- DRAINED (R375, R415): the unit is drained once nothing is left, and a DRAIN_FAULT then ends in FAULTED. -/
def execDrained (s : State) : Res :=
  if s.uni.st ≠ .draining then .next s
  else
    let s := drainWork s
    if !drainedNow s then .next s
    else if s.uni.drainFaultDue.isSome then .next (enterFaulted s.uni.drainFaultCause s)
    else .next { s with pwr := { s.pwr with drained := true } }

/-- DRAIN_FAULT_TIMEOUT (R415): 60 s after the event. -/
def execDrainFaultTimeout (s : State) : Res :=
  match s.uni.drainFaultDue with
  | some t => .next (if t ≤ now s then enterFaulted s.uni.drainFaultCause s else s)
  | none => .next s

/-- RESUME (R374). -/
def resumeCmd (s : State) : State :=
  if s.uni.st = .draining then
    pwrDone .register 2 0 (wake (kmGo (moveTo .serving 0 0 { s with pwr := { s.pwr with drained := false } })))
  else pwrDone .register 2 1 s
def execResume (s : State) : Res := .next (resumeCmd s)

/-! ### DORMOUSE (R376 to R379) -/

/-- A tenant's lease is valid here. -/
def leaseValid (s : State) (t : Nat) : Bool := decide (now s < (leaseOf s t).expiry)

/-- The first failing reason of Table 16.5, or 0. -/
def dormRefusal (s : State) : Nat :=
  let ts := (List.range 256).filter fun t => hasTenant s.vq.active t
  let es := extRecs (extView s)
  if !s.pwr.drained then 1
  else if ts.any fun t => isHome s t && ((leaseOf s t).st == 1 || (leaseOf s t).st == 2) then 2
  else if es.any fun e => leaseValid s e.tenant && servesExt s e then 3
  else if es.any fun e => e.kind != 3 && leaseValid s e.tenant && (match stripeKM s.vq.active e.code with
      | some (k, m) => decide (((hoardUnits s.vq.active).filter fun u => u != me s && peerServing s u).length < k + m)
      | none => false) then 4
  else if s.vq.epochState ≠ 0 then 5
  else 0

/-- DORMOUSE (R376, R377): the Dreys and VI0 to VI6 go off, VI7 stays at its floor. -/
def dormouseCmd (s : State) : State :=
  if s.uni.st ≠ .draining then pwrDone .register 3 1 s
  else
    let r := dormRefusal s
    if r ≠ 0 then pwrDone .register 3 2 { s with pwr := { s.pwr with refuse := r } }
    else
      let tidy (y : Bay) : Bay := if y.st = 3 then wearWrite (now s) { y with drey := y.drey.map fun d => { d with clean := true, lastSeen := now s } } else y
      let s := islandsOff [0, 1, 2, 3, 4, 5, 6] { s with
        hrd := { s.hrd with bays := s.hrd.bays.map fun p => (p.1, tidy p.2) }
        lif := { s.lif with dormice := sat 16 (s.lif.dormice + 1) } }
      let low := islandLow s 7
      pwrDone .register 3 0 (moveTo .dormouse 0 0 { s with pwr := { s.pwr with
        refuse := 0, drained := false
        isl := tmod {} 7 (fun x => { x with vset := low, limiter := 2 }) s.pwr.isl
        drey := s.pwr.drey.map fun p => (p.1, p.2.1, false) } })
def execDormouse (s : State) : Res := .next (dormouseCmd s)

/-- Leave DORMOUSE (R136, R378): VI0 to VI6 come up, the image in force is validated, the Dreys are powered and the firmware's
epoch advances. -/
def leaveDormouse (s : State) : State :=
  let on (x : Isl) : Isl := if x.on then x else { x with on := true, vset := min 800 (500 + 2 * vmaxCode s.fus), limiter := 0, idleSince := now s }
  let s := fwEpochAdvance { s with
    uni := { s.uni with cause := 2 }
    pwr := { s.pwr with
      isl := (List.range 8).map fun i => (i, on (islOf s i))
      drey := s.pwr.drey.map fun p => (p.1, p.2.1, (bayOf s.hrd p.1).st == 3) }
    hrd := { s.hrd with bays := s.hrd.bays.map fun p => (p.1, { p.2 with drey := p.2.drey.map fun d => { d with clean := false } }) } }
  let c := startVerdict s s.vq.active
  let s := linkRates false (moveTo .serving 0 0 s)
  if s.vq.active.isSome = true ∧ c ≠ 0 then
    imageGone c s
  else wake (offersGo (reachUpdate s))

/-- WAKE (R374, R378). -/
def wakeCmd (via : Via) (s : State) : State :=
  if s.uni.st = .dormouse then pwrDone via 4 0 (leaveDormouse s) else pwrDone via 4 1 s

/-- A long press on WAKE acts with the switch away from LOCKED (Table 18.2); it is recorded in `PNL_LAST`. -/
def execWake (via : Via) (s : State) : Res :=
  .next (if via = .button then (if s.uni.st = .dormouse ∧ s.pnl.switch ≠ 0 then wakeCmd via (panelLast 6 0 0 s) else s) else wakeCmd via s)

/-- POWER_OFF (R374, R425): from DRAINING once drained, and from FAULTED. -/
def powerOffCmd (via : Via) (s : State) : State :=
  if (s.uni.st = .draining ∧ s.pwr.drained = true) ∨ s.uni.st = .faulted then pwrDone via 5 0 (toStandby s) else pwrDone via 5 1 s
def execPowerOff (via : Via) (s : State) : Res := .next (powerOffCmd via s)

end Sys2Proof.Machine
end

