-- ==== Sys2Proof/Machine/Calendar.lean ====
section
/-! DEFINITION. The calendar, PTP, the histories and the wear records (chapter 17), and the SYNC messages that a unit without
time may take its time from. -/

namespace Sys2Proof.Machine

/-- The grandmaster under time source 0, whose timebase came from its own calendar (R384). -/
def ownClock (s : State) : Bool := amGm s && fabSource s.vq.active == 0

/-- CALENDAR_COMPARE (R384): the calendar is stepped to the timebase when the two differ by 1 µs or more. -/
def execCalendarCompare (s : State) : Res :=
  if !powered s || !s.mon.loaded || ownClock s then .next s
  else
    let d : Int := (now s : Int) - s.lif.cal
    if d.natAbs < 1000 then .next s
    else .next { s with lif := { s.lif with
      cal := now s, calValid := calInRange (now s), steppedAt := some (now s), lastStep := d.tdiv 1000 } }

/-- An integer held to a two's complement field of 32 bits. -/
def sat32 (v : Int) : Int := max (-(2 ^ 31)) (min v (2 ^ 31 - 1))

/-- CALENDAR_TRIM_UPDATE (R384): `ppt` is the calendar oscillator's rate difference to the timebase, measured without the trim,
in 10^-12; the trim takes it off. -/
def execCalendarTrimUpdate (ppt : Int) (s : State) : Res :=
  .next (if !powered s || !s.mon.loaded || ownClock s then s else { s with lif := { s.lif with trim := sat32 ppt } })

/-- The end of an `LIF_CMD` action: its status, where it came through the register. -/
def lifDone (via : Via) (action : Nat) (arg status : Nat) (s : State) : State :=
  if via = .register then
    { s with lif := { s.lif with action := action, arg := BitVec.ofNat 64 arg, status := status, busy := false } }
  else s

/-- SET_CAL (R385): only while the calendar is invalid, or in STANDBY. A unit that waits for a source of time goes on
(R395). -/
def setCalCmd (via : Via) (t : Nat) (s : State) : State :=
  if s.uni.st = .off then s
  else if s.lif.calValid ∧ s.uni.st ≠ .standby then lifDone via 1 t 1 s
  else if !calInRange t then lifDone via 1 t 2 s
  else timeFound t true (lifDone via 1 t 0 { s with lif := { s.lif with cal := t, calValid := true } })
def execSetCal (via : Via) (t : Nat) (s : State) : Res := .next (setCalCmd via t s)

/-- SET_UTC (R386): `TAI_UTC` is 8 bits, so a greater count is out of range. -/
def setUtcCmd (n : Nat) (s : State) : State :=
  if s.uni.st = .off then s
  else if 256 ≤ n then lifDone .register 2 n 2 s
  else lifDone .register 2 n 0 { s with lif := { s.lif with taiUtc := n } }
def execSetUtc (s : Nat) (st : State) : Res := .next (setUtcCmd s st)

/-- A rate correction against an offset, of a size the spec leaves open within ±50 ppm (R27). -/
def steerRate (offset : Int) (s : State) : State :=
  let size : Int := (Config.number s.free % 50001 : Nat)
  draw { s with mon := { s.mon with
    disciplined := true
    ratePpb := if offset = 0 then s.mon.ratePpb else if 0 < offset then -size else size } }

/-- PTP_MESSAGE (R386): at the grandmaster under time source 1. An offset beyond 10 ms is not followed until a cold start. -/
def execPtpMessage (m : Ptp) (s : State) : Res :=
  if !powered s || !amGm s || fabSource s.vq.active != 1 then .next s
  else match m with
  | .sync offset =>
    let s := { s with lif := { s.lif with ptpLock := true } }
    if !s.mon.loaded then .next s
    else if decide (offset.natAbs ≤ 10 * msNs) && !s.lif.ptpFar then .next (steerRate offset s)
    else
      let s := if s.lif.ptpFar then s else raiseGen 0x0E 2 { code := 0 } { s with lif := { s.lif with ptpFar := true } }
      .next (steerRate (Config.number (s.free + 1) % 3 - 1) s)
  | .announce n => .next { s with lif := { s.lif with taiUtc := n % 256 } }
  | .lost => .next { s with lif := { s.lif with ptpLock := false }, mon := { s.mon with disciplined := false } }

/-! ### Histories (R389, R390) -/

/-- Samples of a ring history: 1,440 minutes, 2,160 hours, 2,557 days. -/
def ringLen (ring : Nat) : Nat := if ring = 0 then 1440 else if ring = 1 then 2160 else 2557

/-- The bin of a minute's maximum, in 1/64 °C; below 0 °C there is none. -/
def tempBin (v : Nat) : Option Nat := if untwos 16 v < 0 then none else some (min 25 (untwos 16 v).toNat.div 320)

/-- A pace drift of -3 % is reported once for each island (R390). -/
def driftCheck (q v : Nat) (s : State) : State :=
  if q < 24 ∨ 31 < q ∨ s.lif.driftLow.contains (q - 24) = true ∨ -300 < untwos 16 v then s
  else raiseGen 0x0E 1 { code := 0, sk := 6, si := q - 24 } { s with lif := { s.lif with driftLow := insAsc (q - 24) s.lif.driftLow } }

/-- HISTORY_SAMPLE (R389, R390): `period` is 0 minute, 1 hour, 2 day; `samples` are the period's values by the codes of
Table 17.4, and at a minute the maximum of junction sensor n under code 64 + n. A quantity without one holds no value. -/
def execHistorySample (period : Nat) (samples : List (Nat × Nat)) (s : State) : Res :=
  if 2 < period ∨ s.uni.st = .off then .next s
  else
    let val (q : Nat) : Option Nat := (samples.find? fun p => p.1 == q).map fun p => p.2 % 2 ^ 16
    let one (l : Lif) (q : Nat) : Lif :=
      let k := 64 * period + q
      { l with hist := tset k ((val q :: tget [] l.hist k).take (ringLen period)) l.hist, newest := tset k (calMinutes s) l.newest }
    let count (l : Lif) (n : Nat) : Lif :=
      match (val (64 + n)).bind tempBin with
      | some b => { l with bins := tinc (32 * n + b) 1 l.bins }
      | none => l
    let l := (List.range 58).foldl one s.lif
    let l := if period = 0 then (List.range 64).foldl count l else l
    let s := { s with lif := l }
    .next ((List.range 58).foldl (fun s q => match val q with
      | some v => driftCheck q v s
      | none => s) s)

/-! ### Design life and wear -/

/-- POWERED_HOUR (R391): main power has been present for one more hour. -/
def execPoweredHour (s : State) : Res :=
  if !powered s then .next s
  else
    let s := { s with lif := { s.lif with
      hours := sat 32 (s.lif.hours + 1), serving := sat 32 (s.lif.serving + b2n (s.uni.st == .serving)) } }
    .next (if 61362 ≤ s.lif.hours ∧ s.lif.reached = false then
        raise { code := 0x0E03, d0 := s.lif.hours } { s with lif := { s.lif with reached := true } }
      else s)

/-- A wear threshold is reported once for a Drey in its bay (R243). -/
def wearCheck (bay : Nat) (s : State) : State :=
  let y := bayOf s.hrd bay
  let w := wearCenti y
  let s := if 8000 ≤ w ∧ y.wear80 = false then
      raise { code := 0x0A03, sk := 5, si := bay, d0 := w } (onBay bay (fun y => { y with wear80 := true }) s) else s
  if 9500 ≤ w ∧ y.wear95 = false then
    raise { code := 0x0A04, sk := 5, si := bay, d0 := w } (onBay bay (fun y => { y with wear95 := true }) s) else s

/-- The bin of a Drey's mean temperature over an hour (Table 17.5), in 1/64 °C. -/
def dreyBin (t : BitVec 16) : Nat := min 15 (t.toInt.toNat.div 320)

/-- WEAR_RECORD_WRITE (R392, R243): after each hour of mounting. -/
def execWearRecordWrite (bay : Nat) (s : State) : Res :=
  let y := bayOf s.hrd bay
  if 16 ≤ bay ∨ !(y.st == 3 || y.st == 6 || y.st == 7) ∨ !powered s ∨ s.uni.st = .dormouse then .next s
  else
    let hour (d : DreyId) : DreyId := { d with
      hoursMounted := d.hoursMounted + 1
      tempHist := (List.range 16).map fun i => d.tempHist.getD i 0 + b2n (i == dreyBin y.temp) }
    .next (wearCheck bay (onBay bay (fun y => wearWrite (now s) { y with drey := y.drey.map hour }) s))

/-! ### The coin cell, and reads of the calendar -/

/-- COIN_CELL_REMOVED (R383, R430): in OFF the calendar is invalid; in another state it is once standby power is lost too. -/
def execCoinCellRemoved (s : State) : Res :=
  .next { s with lif := { s.lif with coinOut := true, calValid := s.lif.calValid && s.uni.st != .off } }

/-- LIF_CAL_READ_LOW (R29, R397): the low half is answered and the high half latched for the requester. -/
def execLifCalReadLow (rq : Requester) (s : State) : Res :=
  let t := BitVec.ofNat 64 s.lif.cal
  .next (emit (.regRead rq 0x0E000000 (t &&& 0xFFFFFFFF))
    { s with lif := { s.lif with latch := latchSet rq ((t >>> 32).setWidth 32) s.lif.latch } })

/-- TIME_SYNC (R276, R395): times in whole nanoseconds. A unit that waits for a source of time takes it. -/
def execTimeSync (port src depth : Nat) (_aligned : Bool) (t : Ns) (arrival : Ns) (s : State) : Res :=
  if !powered s then .next s
  else if !srcOk s src then .next (dropOn port 5 0x18 s)
  else
    let s := heardFrom src s
    if s.lif.noTime then .next (timeFound t false s)
    else if fromParent s port src then
      .next (takeOffset (256 * ((arrival : Int) - t) - s.wrn.delay)
        { s with wrn := { s.wrn with syncT := t, syncRx := arrival, depth := sat 6 (depth + 1) } })
    else .next s

end Sys2Proof.Machine
end

