-- ==== Sys2Proof/Machine/DataPath.lean ====
section
/-! DEFINITION. The rows of the data path that a host or a timer drives (chapters 1 and 9): reads, writes, blocks of a
fill, and write-backs. -/

namespace Sys2Proof.Machine

/-- A CXL.mem request as it comes in. -/
def newReq (id ld : Nat) (stamp : Ns) (want : Want) : MemReq :=
  { id := id, ld := ld, isWrite := false, tenant := 0, addr := 0, stamp := stamp, want := want, be := 0, data := [],
    poison := false, wait := 0, tag := 0, origin := none, answered := false }

/-- HOST_MEM_READ (R13, R28). -/
def execHostMemRead (id ld dpa : Nat) (want : Want) (stamp : Ns) (s : State) : Res :=
  .next (hostRequest (newReq id ld stamp want) dpa s)

/-- HOST_MEM_WRITE (R186, R189): a write, or an eviction that gives up the host's hold on the line. -/
def execHostMemWrite (id ld dpa : Nat) (be : BitVec 64) (data : List Byte) (poison evict : Bool) (stamp : Ns) (s : State) :
    Res :=
  let s' := hostRequest { newReq id ld stamp .none with isWrite := true, be := be, data := padTo 64 0 data, poison := poison } dpa s
  match ldTenant s ld with
  | some t => .next (if evict then evictHold t (dpa % 2 ^ 50 / 64 * 64) (me s, ld) s' else s')
  | none => .next s'

/-- The checks that a block passes before it is used (R183): its records and every strip. -/
def blockChecks (bmw : BitVec 96) (masks : List Byte) (strips : List (List Byte)) : Option DecFault :=
  match decodeStrips bmw masks strips (List.range 8) with
  | .ok _ => none
  | .error f => some f

/-- The reads that wait for a block which no DRAM slot takes (`NO_CACHE`, R220) are answered from it. -/
def answerWaiting (tenant tile j : Nat) (bmw : BitVec 96) (masks : List Byte) (strips : List (List Byte)) (s : State) : State :=
  let hit (r : MemReq) : Bool := r.wait == 0 && !r.isWrite && r.tenant == tenant && r.addr / 4096 == tile * 8 + j
  (s.hst.reqs.filter hit).foldl (fun s r => answerUncached r bmw masks strips s)
    { s with hst := { s.hst with reqs := s.hst.reqs.filter fun r => !hit r } }

/-- A block of a fill that fails its checks (R185 step 3): the stripe's chunk is treated as damaged, and is rebuilt
from the others (R239). -/
def fillFault (tenant tile j : Nat) (f : DecFault) (s : State) : State :=
  let s := raise { code := 0x0801, tenant := tenant, addr := (tile * 8 + j) * 4096, d0 := f.reason, d1 := 3 }
    (codecFault 0x20 tenant (tile * 8 + j) f 2 s)
  match dirFind s.hrd tenant tile with
  | none => s
  | some d => askRebuild d.stripe (d.offset / chunkBytes) tenant tile (markDamaged d.stripe (d.offset / chunkBytes) s)

/-- FILL_BLOCK_LANDED (R14): the block is checked and written into its slot, and every request waiting on one of its
lines is served. -/
def execFillBlockLanded (tenant tile blk : Nat) (bmw : BitVec 96) (masks : List Byte) (stored : List Byte) (s : State) : Res :=
  let strips := cutStored bmw stored
  let masks := padTo 8 0 masks
  match blockChecks bmw masks strips with
  | some f => .next (fillFault tenant tile blk f s)
  | none =>
    if s.drt.noCache ∧ (findWay s tenant tile).isNone = true then
      .next (wake (answerWaiting tenant tile blk bmw masks strips (landBlock tenant tile blk bmw masks strips s)))
    else .next (wake (landBlock tenant tile blk bmw masks strips s))

/-- 100 µs, the write-back interval of R187. -/
def writebackNs : Ns := 100000

/-- A strip's write-back is due: dirty, not being written, and not written to for 100 µs. -/
def stripDue (s : State) (p : StgStrip) : Bool := p.dirty && !p.writing && decide (p.lastWrite + writebackNs ≤ now s)

/-- STRIP_WRITEBACK (R187). -/
def execStripWriteback (tenant block strip : Nat) (s : State) : Res :=
  match stgFind s.cdc tenant block with
  | none => .next s
  | some x => .next (if stripDue s (stripOf x strip) then writeback tenant block [strip] s else s)

/-- WRITEBACK_COMPLETE (R187 step 4, R190). -/
def execWritebackComplete (tenant block : Nat) (s : State) : Res := .next (writebackDone tenant block s)

end Sys2Proof.Machine
end

