-- ==== Sys2Proof/Machine/Faults.lean ====
section
/-! DEFINITION. Faults and how they are reported (chapter 19): the merge windows of records, the exit from a HELD that a fault
caused, and the event window of an LD. -/

namespace Sys2Proof.Machine

/-- EVENT_MERGE_WINDOW (R418, R420, R421): 1 s after a record's time it is written. -/
def execEventMergeWindow (code scopeKind scopeIdx tenant : Nat) (s : State) : Res :=
  let mine (r : EventRec) : Bool := r.code == code && r.scopeKind == scopeKind && r.scopeIdx == scopeIdx && r.tenant == tenant
  match s.flt.opened.find? mine with
  | none => .next s
  | some r =>
    if now s < r.time + secNs then .next s
    else .next (writeRec r { s with flt := { s.flt with opened := s.flt.opened.filter fun x => !mine x } })

/-- A cause of a fault-caused HELD still holds (R92, R93, R220, R395). -/
def causePresent (s : State) (c : Nat) : Bool :=
  if c = 0x0009 then
    match s.drt.retire with
    | some ⟨_, _, none⟩ => !s.drt.shrinking && !poolsFit s (s.drt.logical - 1)
    | _ => (spareRoom s.vq.active (me s) ((List.range 32).filter fun i => !isOut s 7 0 i).length).isNone
  else if c = 0x000A then s.vq.active.isNone
  else if c = 0x0E04 then s.lif.noTime
  else false

/-- The end of an `FLT_CMD` action. -/
def fltDone (status : Nat) (s : State) : State :=
  { s with flt := { s.flt with action := 1, status := status, busy := false } }

/-- RESUME (R425, R426): once every cause has cleared, the held writes are applied and the unit is SERVING. A unit that was held
after phase 5 first runs the phases it has left, and a retirement that was held goes on (R92, R220). -/
def faultResumeCmd (s : State) : State :=
  if s.uni.st ≠ .held ∨ s.flt.byFault = false then fltDone 1 s
  else if s.flt.causes.any (causePresent s) then fltDone 2 s
  else match s.uni.waiting with
    | some env =>
      let s := { s with
        uni := { s.uni with waiting := none, phase := 6 }
        flt := { s.flt with byFault := false, causes := [] } }
      fltDone 0 (startSix env (moveTo .starting 0 0 s))
    | none => fltDone 0 (sidLossGo (leaveHeld .serving s))
def execFaultResume (s : State) : Res := .next (faultResumeCmd s)

/-- A write of `FLT_LD_TAIL` (R422): forward only, to a value from `TAIL` to `HEAD`; the records below it are cleared. -/
def tailWrite (ld : Nat) (val : BitVec 32) (s : State) : State :=
  let l := tget ({} : LdLog) s.flt.lds ld
  let n := (val.toNat + 2 ^ 32 - l.tail) % 2 ^ 32
  if (l.head + 2 ^ 32 - l.tail) % 2 ^ 32 < n then writeIgnored 0x400008 (some ld) val.toNat s
  else
    let kept (p : Nat × EventRec) : Bool := decide (n ≤ (p.1 + 131072 - l.tail % 131072) % 131072)
    let recs := if 131072 ≤ n then [] else l.recs.filter kept
    { s with flt := { s.flt with lds := tset ld { l with tail := val.toNat, recs := recs } s.flt.lds } }

/-- FLT_LD_TAIL_WRITE (R422). -/
def execFltLdTailWrite (ld : Nat) (val : BitVec 32) (s : State) : Res := .next (if barTaken s ld then tailWrite ld val s else s)

end Sys2Proof.Machine
end

