-- ==== Sys2Proof/Machine/Panel.lean ====
section
/-! DEFINITION. The panel and the person (chapter 18): pages, soft keys, buttons, the service switch and the cover. A gesture is
taken as the strip has recognised it (R401). -/

namespace Sys2Proof.Machine

/-- The standby Shrew core serves the panel in every state but OFF. -/
def panelOn (s : State) : Bool := s.uni.st != .off

/-- The pages the display has, in slide order (R399, Table 18.1): 0 HOME to 6 EVENTS, and 7 SERVICE with the switch at SERVICE. -/
def pagesOf (s : State) : List Nat :=
  let low := s.uni.st == .standby || s.uni.st == .dormouse
  (if low then [0] else [0, 1, 2, 3, 4, 5, 6]) ++ (if s.pnl.switch = 2 then [7] else [])

/-- The page shown: a page that is no longer present gives way to HOME. -/
def shownPage (s : State) : Nat := if (pagesOf s).contains s.pnl.page then s.pnl.page else 0

/-- The items of a page that take the focus: bays, links and ports, the eight events. -/
def pageItems (p : Nat) : Nat := if p = 1 then 16 else if p = 3 then 64 else if p = 6 then 8 else 1

/-- The panel's action states for bays (Table 18.2). -/
def bayState (s : State) : Bool := s.uni.st == .serving || s.uni.st == .draining || s.uni.st == .held

/-- The display is drawn with its calendar time (R399). -/
def redraw (s : State) : State := { s with pnl := { s.pnl with refreshed := calMinutes s } }

/-- A gesture or a press is seen: the return to HOME counts from it (R399), and the display follows it. -/
def touched (s : State) : State := redraw { s with pnl := { s.pnl with lastTouch := now s } }

/-- Show a page, with the focus on its first item. -/
def showPage (p : Nat) (s : State) : State := { s with pnl := { s.pnl with page := p, focus := 0 } }

/-- Do something while the panel is served. -/
def atPanel (f : State → State) (s : State) : Res := .next (if panelOn s then f s else s)

/-! ### The display -/

/-- DISPLAY_REFRESH (R399). -/
def execDisplayRefresh (s : State) : Res := atPanel redraw s

/-- HOME_TIMEOUT (R399): 120 s after the last gesture or press. -/
def execHomeTimeout (s : State) : Res :=
  atPanel (fun s => if s.pnl.lastTouch + 120 * secNs ≤ now s then redraw (showPage 0 s) else s) s

/-! ### The whisker strip (R401) -/

/-- The page after, or before, another, with wrap-around. -/
def pageStep (l : List Nat) (p : Nat) (right : Bool) : Nat :=
  let i := l.findIdx (· == p)
  l.getD ((if right then i + 1 else i + l.length - 1) % l.length) 0

/-- SLIDE (R399, R401). -/
def execSlide (right : Bool) (s : State) : Res :=
  atPanel (fun s => touched (if (pagesOf s).length ≤ 1 then s else showPage (pageStep (pagesOf s) (shownPage s) right) s)) s

/-- Move the focus over the items of the page shown, with wrap-around. -/
def moveFocus (forward : Bool) (s : State) : State :=
  let n := pageItems (shownPage s)
  { s with pnl := { s.pnl with page := shownPage s, focus := (if forward then s.pnl.focus + 1 else s.pnl.focus + n - 1) % n } }

/-- The pages with the soft keys PREV and NEXT (Table 18.1). -/
def hasArrows (p : Nat) : Bool := p == 1 || p == 3 || p == 6

/-- PREV (R401). -/
def execPrev (s : State) : Res := atPanel (fun s => touched (if hasArrows (shownPage s) then moveFocus false s else s)) s

/-- NEXT (R401). -/
def execNext (s : State) : Res := atPanel (fun s => touched (if hasArrows (shownPage s) then moveFocus true s else s)) s

/-- The PANEL IDENT duration, from the LIVE record in force. -/
def identFor (s : State) : Ns := panIdent (liveView s) (me s) * secNs

/-- Turn the unit's locate on: each request starts its duration again (R412). -/
def identStart (source : Nat) (s : State) : State :=
  { s with pnl := { s.pnl with identOn := true, identSource := source, identUntil := now s + identFor s } }

/-- Turn the unit's locate off. -/
def identStop (s : State) : State := { s with pnl := { s.pnl with identOn := false } }

/-- Give a bay the locate pattern for the same duration. -/
def bayStart (bay : Nat) (s : State) : State :=
  { s with pnl := { s.pnl with bayOn := true, bay := bay % 16, bayUntil := now s + identFor s } }

/-- LOCATE (R403): the soft key of HOME and of BAYS. -/
def execLocate (s : State) : Res :=
  atPanel (fun s => touched (
    if shownPage s = 0 then identStart 0 s else if shownPage s = 1 then bayStart s.pnl.focus s else s)) s

/-- REMOVE (R247, R405): the soft key of BAYS; it is not drawn at LOCKED, or in a state that allows no removal (R400). -/
def execRemoveKey (s : State) : Res :=
  atPanel (fun s => touched (
    if shownPage s = 1 ∧ s.pnl.switch ≠ 0 ∧ bayState s = true then removalRequest s.pnl.focus s else s)) s

/-- ADOPT_CONFIRMATION (R249): the soft key of BAYS at SERVICE. A bay that is not QUARANTINED has nothing to adopt. -/
def execAdoptConfirmation (s : State) : Res :=
  atPanel (fun s =>
    let b := s.pnl.focus
    touched (
      if shownPage s ≠ 1 ∨ s.pnl.switch ≠ 2 ∨ bayState s = false then s
      else if (bayOf s.hrd b).st ≠ 4 then panelLast 4 b 2 s
      else adoptStart b (panelLast 4 b 0 (onBay b (fun y => { y with adoptPanel := some (now s) }) s)))) s

/-- CONFIRM (R406): the soft key of SERVICE, for the next image stored. -/
def execConfirm (s : State) : Res :=
  atPanel (fun s => touched (
    if shownPage s ≠ 7 ∨ s.pnl.switch ≠ 2 then s
    else match otherBank s.vq, s.vq.nextMarked with
      | some m, true =>
        panelLast 5 0 0 { s with pnl := { s.pnl with nextOk := true, nextDigest := BitVec.ofNat 32 (leNat (m.digest.take 4)) } }
      | _, _ => panelLast 5 0 2 s)) s

/-- STRIP_REJECTION (R401). -/
def execStripRejection (s : State) : Res :=
  atPanel (fun s => { s with pnl := { s.pnl with rejected := sat 16 (s.pnl.rejected + 1) } }) s

/-! ### Buttons (R403) -/

/-- SELECT (R403): a press moves the focus; held for 2 s it returns to HOME. -/
def execSelect (held : Bool) (s : State) : Res :=
  atPanel (fun s => touched (if held then showPage 0 s else moveFocus true s)) s

/-- IDENT (R403, R412). -/
def execIdent (s : State) : Res :=
  atPanel (fun s => touched (panelLast 7 0 0 (if s.pnl.identOn then identStop s else identStart 0 s))) s

/-- LOCATE_EXPIRED (R403): of the unit, or of a bay. -/
def execLocateExpired (bay : Bool) (s : State) : Res :=
  atPanel (fun s =>
    if bay then (if s.pnl.bayUntil ≤ now s then { s with pnl := { s.pnl with bayOn := false } } else s)
    else if s.pnl.identUntil ≤ now s then identStop s else s) s

/-- A HOLD that takes effect is counted (Table 18.4). -/
def holdDone (action : Nat) (s : State) : State :=
  panelLast action 0 0 { s with pnl := { s.pnl with holds := sat 16 (s.pnl.holds + 1) } }

/-- A 2 s press of HOLD, by the state it finds (R79, R403, R404, R425, R426). -/
def holdPress (s : State) : State :=
  let release := s.uni.st == .held && s.flt.byHold
  if s.pnl.switch = 0 then panelLast (if release then 2 else 1) 0 1 s
  else match s.uni.st with
    | .starting => holdDone 1 { s with uni := { s.uni with holdWanted := true } }
    | .serving | .draining =>
      holdDone 1 (moveTo .held 0 0 { s with
        uni := { s.uni with beforeHold := s.uni.st }
        flt := { s.flt with byHold := true, byFault := false, causes := [] } })
    | .held => if release then panelLast 2 0 0 (leaveHeld s.uni.beforeHold s) else panelLast 1 0 2 s
    | _ => panelLast 1 0 2 s

/-- HOLD (R403). -/
def execHold (s : State) : Res := atPanel (fun s => touched (holdPress s)) s

/-! ### The service switch and the cover -/

/-- A turn to LOCKED (R411): a RELEASED Drey mounts again, and a removal that has begun ends after step 4. -/
def lockTurn (s : State) : State :=
  (List.range 16).foldl (fun s b =>
    let y := bayOf s.hrd b
    if y.st = 8 then latchAgain b s
    else if 2 ≤ y.removal ∧ y.removal ≤ 4 then onBay b (fun y => { y with cut := true }) s
    else s) s

/-- A turn away from SERVICE clears every panel half of an adoption (R411). -/
def leaveService (s : State) : State :=
  { s with hrd := { s.hrd with bays := s.hrd.bays.map fun p => (p.1, { p.2 with adoptPanel := none }) } }

/-- SWITCH_TURN (R404, R411): 0 LOCKED, 1 OPERATE, 2 SERVICE. -/
def execSwitchTurn (position : Nat) (s : State) : Res :=
  if 2 < position ∨ position = s.pnl.switch then .next s
  else
    let old := s.pnl.switch
    let s := { s with pnl := { s.pnl with switch := position } }
    let s := if old = 2 then leaveService s else s
    .next (if position = 0 then lockTurn s else s)

/-- COVER_OPENED (R410). -/
def execCoverOpened (s : State) : Res :=
  if s.pnl.cover then .next s
  else
    let s := { s with pnl := { s.pnl with cover := true } }
    .next (if panelOn s then raise { code := 0x0F01 } s else s)

/-- COVER_CLOSED (R410). -/
def execCoverClosed (s : State) : Res := .next { s with pnl := { s.pnl with cover := false } }

/-! ### `PNL_CMD` (R412, R413) -/

/-- The fields of `PNL_CMD` that a command through the register leaves. -/
def pnlCmdField (via : Via) (action : Nat) (s : State) : State :=
  if via = .register then { s with pnl := { s.pnl with action := action } } else s

/-- The source of a locate (Table 18.4, `PNL_IDENT.SOURCE`). -/
def viaCode : Via → Nat
  | .button => 0
  | .register => 1
  | .redfish => 2

/-- IDENT_ON (R412). -/
def identOnCmd (via : Via) (s : State) : State := if panelOn s then identStart (viaCode via) (pnlCmdField via 1 s) else s
def execIdentOn (via : Via) (s : State) : Res := .next (identOnCmd via s)

/-- IDENT_OFF (R412). -/
def identOffCmd (via : Via) (s : State) : State := if panelOn s then identStop (pnlCmdField via 2 s) else s
def execIdentOff (via : Via) (s : State) : Res := .next (identOffCmd via s)

/-- BAY_LOCATE (R412). -/
def bayLocateCmd (bay : Nat) (s : State) : State :=
  if panelOn s then bayStart bay { s with pnl := { s.pnl with action := 3, cmdBay := bay % 16 } } else s
def execBayLocate (bay : Nat) (s : State) : Res := .next (bayLocateCmd bay s)

/-- REFRESH (R413). -/
def refreshCmd (s : State) : State := if panelOn s then redraw (pnlCmdField .register 4 s) else s
def execRefresh (s : State) : Res := .next (refreshCmd s)

/-! ### What is shown -/

/-- The worst reserve level reported over all classes (R90): 0 GREEN, 1 AMBER, 2 RED. -/
def worstLevel (s : State) : Nat := (s.uni.levels.map (·.2)).foldl max 0

/-- The banners of R400 that apply, in order of priority. -/
def bannersDue (s : State) : List Bool :=
  [s.uni.st == .faulted || s.pwr.therm == 4, s.uni.st == .held, s.pnl.cover, s.fus.lifted != 0, decide (now s < s.pnl.refusalUntil),
   s.wrn.split, worstLevel s == 2, lifecycle s.fus == 1, s.uni.levels.any (·.2 == 1), s.uni.st == .draining]

/-- `PNL_STATUS.BANNERS`: bit i for item i + 1; at most two are shown. -/
def bannersShown (s : State) : Nat :=
  ((((List.range 10).filter fun i => (bannersDue s).getD i false).take 2).map (2 ^ ·)).sum

/-- The pattern of a bay LED (Table 18.3): 1 refused, 2 RELEASED, 3 locate, 4 FAILED, 5 QUARANTINED, 6 green at 1 Hz, 7 EVACUATED,
8 MOUNTED, 0 off. -/
def bayLed (s : State) (b : Nat) : Nat :=
  let y := bayOf s.hrd b
  if s.pnl.refusalBay = some b ∧ now s < s.pnl.refusalUntil then 1
  else if y.st = 8 then 2
  else if s.pnl.bayOn = true ∧ s.pnl.bay = b then 3
  else if y.st = 9 then 4
  else if y.st = 4 then 5
  else if y.st = 1 ∨ y.st = 2 ∨ y.st = 5 ∨ y.st = 6 ∨ rebuildingOnto s b = true then 6
  else if y.st = 7 then 7
  else if y.st = 3 ∧ s.uni.st ≠ .dormouse then 8 else 0

end Sys2Proof.Machine
end

