-- ==== Sys2Proof/Machine/Views.lean ====
section
/-! DEFINITION. What the registers and windows of the administrator BAR2 (Table 21.2) and of each LD's BAR0 (Table 21.3) read:
one 8-byte value at an offset that is a multiple of 8. An offset that holds no register reads zero (R12). -/

namespace Sys2Proof.Machine

/-- A register from its fields: lowest bit, width, value (R5). -/
def pack (l : List (Nat × Nat × Nat)) : Nat := (l.map fun f => f.2.2 % 2 ^ f.2.1 * 2 ^ f.1).sum

/-- Register `k` of an array of `n` registers at 8-byte steps from `base`, if the offset is one of them. -/
def arrayAt (off base n : Nat) : Option Nat := if base ≤ off ∧ off < base + 8 * n then some ((off - base) / 8) else none

/-- Eight bytes of a byte list, as a window shows them. -/
def at8 (l : List Byte) (off : Nat) : Nat := fld l off 8

/-- A state of an extent, mailbox or ring is a saturating field of 16 bits in its register. -/
def s16 (v : Nat) : Nat := sat 16 v

/-- UNI (Tables 1.11, 1.12, 5.8). -/
def uniRead (s : State) (off : Nat) : Nat :=
  let u := s.uni
  match off with
  | 0x00 => pack [(0, 16, 0x48), (16, 8, u.hwIssue), (24, 1, b2n u.media), (32, 16, u.serYyww), (48, 16, u.serSeq)]
  | 0x08 => pack [(0, 32, u.lib.toNat), (32, 8, u.fwMajor), (40, 8, u.fwMinor), (48, 12, u.fwPatch), (60, 4, u.serSeqHi)]
  | 0x10 => pack [(0, 4, stCode u.st), (4, 4, if u.st = .starting then u.phase else 0), (8, 8, u.failPhase)]
  | 0x18 => pack [(0, 32, u.durationMs), (32, 4, u.cause), (36, 4, u.imageUsed), (40, 8, u.nextCode)]
  | 0x180 => pack [(0, 1, b2n u.retest), (16, 11, s.lif.fieldMap.length)]
  | _ => match arrayAt off 0x48 9, arrayAt off 0x108 12 with
    | some n, _ => tget 0 u.phaseMs (n + 1) % 2 ^ 32
    | _, some c => uniReserve s (c + 1)
    | _, _ => 0

/-- FUS (Table 3.8). -/
def fusRead (s : State) (off : Nat) : Nat :=
  let f := s.fus
  match off with
  | 0x00 => fusState f
  | 0x08 => (dieLo f).toNat
  | 0x10 => (dieHi f).toNat
  | 0x18 => pack [(0, 8, vmaxCode f)]
  | 0x20 => f.digest.toNat
  | 0x400 => f.nonce.toNat % 2 ^ 64
  | 0x408 => f.nonce.toNat / 2 ^ 64
  | 0x410 => pack [(0, 16, f.len)]
  | 0x418 => pack [(0, 1, b2n f.busy), (8, 8, f.status)]
  | _ =>
    match arrayAt off 0x40 6, arrayAt off 0x80 24, arrayAt off 0x200 3, arrayAt off 0x300 32 with
    | some n, _, _, _ => (fuseBits f (8 + n)).toNat
    | _, some n, _, _ => (fuseBits f (18 + n)).toNat
    | _, _, some n, _ => (fuseBits f (42 + n)).toNat
    | _, _, _, some n => (fuseBits f (45 + n)).toNat
    | _, _, _, _ => if 0x10000 ≤ off ∧ off < 0x14000 then leNat (mread f.buf (off - 0x10000) 8) else 0

/-- The first 8 bytes of an image's digest (Table 4.30). -/
def imgDigest8 (m : Option Image) : Nat := (m.map fun x => leNat (x.digest.take 8)).getD 0

/-- VQ (Tables 4.30 and 15.7). -/
def vqRead (s : State) (off : Nat) : Nat :=
  let v := s.vq
  let g := v.mig
  match off with
  | 0x00 => pack [(0, 1, b2n v.busy), (1, 1, b2n v.refused), (4, 4, v.phase), (8, 8, v.code)]
  | 0x08 => pack [(0, 25, v.loadLen), (25, 2, v.loadMode), (27, 1, b2n v.loadDist)]
  | 0x10 => pack [(0, 4, v.page)]
  | 0x18 => pack [(0, 32, v.detailRecord), (32, 16, v.detailField), (48, 10, v.detailUnit)]
  | 0x20 => imgDigest8 v.active
  | 0x28 => ((v.active.map (·.gen)).getD 0) % 2 ^ 64
  | 0x30 => pack [(0, 8, (v.active.map (·.rollback)).getD 0), (8, 2, (v.active.map (·.slot)).getD 0), (10, 1, b2n v.nextMarked)]
  | 0x38 => if v.nextMarked then imgDigest8 (otherBank v) else 0
  | 0x40 => pack [(0, 10, v.number), (10, 1, b2n v.valid)]
  | 0x48 => pack [(0, 48, v.epoch), (48, 3, v.epochState), (51, 1, b2n v.late), (52, 1, b2n v.coord.isSome), (53, 10, v.coordUnit)]
  | 0x50 => pack [(0, 8, v.refusal), (8, 10, v.refuser)]
  | 0x58 => v.switchTs % 2 ^ 64
  | 0x68 => pack [(0, 1, b2n g.map), (1, 1, b2n g.part), (2, 1, b2n g.gran), (3, 1, b2n g.stripe), (4, 1, g.phase), (5, 1, b2n g.hold),
                  (8, 14, g.band), (22, 14, g.bands), (36, 10, g.slot), (46, 1, b2n g.reverse), (47, 17, g.mark)]
  | 0x70 => pack [(0, 16, g.ext), (16, 20, g.granule)]
  | 0x78 => pack [(0, 48, g.left), (48, 3, g.code)]
  | 0x80 => v.genFloor % 2 ^ 64
  | _ => if 0x800000 ≤ off ∧ off < 0x900000 then leNat (mread v.buf (v.page * 2 ^ 20 + (off - 0x800000)) 8) else 0

/-- A monitor's register (Tables 2.8 to 2.10): zero until its first conversion (R33). -/
def monRead (kind n : Nat) (x : Monitor) : Nat :=
  if !x.valid then 0
  else
    pack [(0, 16, x.val.toNat), (16, 3, n / monPer kind), (19, 1, 1), (20, 1, b2n x.failed),
          (32, 16, if kind = 0 then x.hi.toNat else x.lo.toNat), (48, 16, if kind = 1 then x.hi.toNat else 0)]

/-- MON (Tables 2.7 to 2.14). -/
def monBlockRead (s : State) (off : Nat) : Nat :=
  let m := s.mon
  match off with
  | 0xD00 => pack [(0, 2, paceGrade s.fus), (16, 16, factPace s.fus)]
  | 0xD08 => m.timebase % 2 ^ 64
  | 0xD10 => pack [(0, 1, b2n m.locked), (1, 1, b2n m.disciplined), (16, 32, twos 32 m.ratePpb)]
  | 0xD18 => pack [(0, 8, m.peakEpoch.toNat)]
  | 0xD28 => m.alert.toNat
  | _ =>
    match arrayAt off 0 64, arrayAt off 0x200 32, arrayAt off 0x400 256, arrayAt off 0xC00 8 with
    | some n, _, _, _ => monRead 0 n (tget {} m.ts n)
    | _, some n, _, _ => monRead 1 n (tget {} m.vm n)
    | _, _, some n, _ => monRead 2 n (tget {} m.pc n)
    | _, _, _, some i => monIsl m i
    | _, _, _, _ => 0

/-- A voltage code of a voltage in mV (R381). -/
def vCode (mv : Nat) : Nat := (mv - 500) / 2

/-- PWR (Table 16.9). -/
def pwrRead (s : State) (off : Nat) : Nat :=
  let p := s.pwr
  match off with
  | 0x00 => pack [(0, 1, b2n p.drained), (1, 1, b2n p.inputA), (2, 1, b2n p.inputB), (4, 4, p.refuse), (8, 3, p.therm), (11, 1, b2n p.limited)]
  | 0x08 => pack [(0, 4, p.action)]
  | 0x10 => pack [(0, 1, b2n p.busy), (8, 8, p.status)]
  | 0x18 => pack [(0, 1, b2n p.autoStart)]
  | 0x20 => pack [(0, 16, dieMean p), (16, 16, powLimit (liveView s) (me s)), (32, 16, p.peak)]
  | 0x28 => pack [(0, 16, p.inA), (16, 16, p.inB)]
  | _ =>
    match arrayAt off 0x100 8, arrayAt off 0x200 8, arrayAt off 0x300 16 with
    | some i, _, _ =>
      let x := islOf s i
      pack [(0, 8, vCode x.vset), (8, 8, islandMax s i), (16, 8, vCode (islandFloor s i)), (24, 16, x.target), (40, 16, x.power),
            (56, 3, x.limiter)]
    | _, some k, _ => pack [(0, 16, (tget {} s.drt.stks k).temp.toNat), (16, 16, tget 0 p.stkPower k)]
    | _, _, some b => pack [(0, 16, (tget (0, false) p.drey b).1), (16, 1, b2n (tget (0, false) p.drey b).2)]
    | _, _, _ => 0

/-- HST (Table 6.9). -/
def hstRead (s : State) (off : Nat) : Nat :=
  match off with
  | 0x00 => pack [(0, 1, b2n s.hst.ideRequired), (1, 1, b2n s.hst.poisonInject)]
  | _ =>
    match arrayAt off 0x100 16, arrayAt off 0x200 256 with
    | some l, _ =>
      let k := linkOf s.hst l
      pack [(0, 4, k.st), (4, 3, k.width), (7, 2, k.rate), (9, 1, b2n k.ideMem), (10, 1, b2n k.ideIo), (11, 1, b2n k.switched),
            (12, 8, k.failCause), (20, 16, k.downs)]
    | _, some i =>
      let l := ldOf s.hst i
      pack [(0, 8, (ldTenant s i).getD 0), (8, 1, b2n (ldTenant s i).isSome), (9, 1, b2n l.present), (10, 1, b2n l.inReset),
            (16, 16, s16 l.wd), (32, 16, s16 l.noExtent)]
    | _, _ => 0

/-- MBX (Table 7.9). -/
def mbxRead (s : State) (off : Nat) : Nat :=
  match arrayAt off 0 256, arrayAt off 0x800 64 with
  | some i, _ =>
    let b := boxOf s.mbx i
    pack [(0, 1, b2n b.pointer), (1, 5, b.h2f.length), (6, 5, b.f2h.length), (11, 4, b.epoch), (15, 4, s.mbx.fwEpoch),
          (32, 16, b.repliesDiscarded), (48, 16, b.overruns)]
  | _, some j =>
    let b := intOf s.mbx j
    pack [(0, 1, b2n b.pointer), (1, 5, b.inQ.length), (6, 5, b.outQ.length), (11, 4, b.epoch), (32, 16, b.full), (48, 16, b.absent)]
  | _, _ => 0

/-- An Orphan Log entry (Table 8.7). -/
def orphanBytes (o : Orphan) : List Byte :=
  leBytes 8 o.addr ++ leBytes 2 o.ext ++ leBytes 1 o.tenant ++ leBytes 1 o.ld ++ leBytes 2 (o.unit % 1024) ++ leBytes 2 0
    ++ leBytes 8 o.acquired ++ leBytes 8 o.reclaimed

/-- EXT (Table 8.9). -/
def extRead (s : State) (off : Nat) : Nat :=
  let x := s.ext
  match off with
  | 0x00 => pack [(0, 16, x.cmdExt), (16, 4, x.cmdAction)]
  | 0x08 => pack [(0, 1, b2n x.busy), (8, 8, x.status)]
  | 0x10 => pack [(0, 22, x.sf.length), (32, 32, sat 32 x.victims)]
  | 0x18 => x.head % ologSize
  | 0x20 => x.tail % ologSize
  | 0x28 => x.lost % 2 ^ 32
  | 0x30 => pack [(0, 6, x.page)]
  | _ =>
    match arrayAt off 0x100000 65536 with
    | some i =>
      let e := extSt s i
      pack [(0, 4, e.st), (4, 1, b2n e.unknown), (5, 1, b2n e.overflow), (6, 1, b2n e.withheld), (8, 8, e.tenant),
            (16, 24, sat 24 e.orphans), (40, 16, s16 e.sealedWr)]
    | none =>
      if 0x400000 ≤ off ∧ off < 0x500000 then
        match tfind x.olog (32768 * x.page + (off - 0x400000) / 32) with
        | some o => at8 (orphanBytes o) (off % 32)
        | none => 0
      else 0

/-- CDC (Table 9.9). -/
def cdcRead (s : State) (off : Nat) : Nat :=
  let c := s.cdc
  match off with
  | 0x300 => c.unitsIn % 2 ^ 64
  | 0x308 => c.unitsOut % 2 ^ 64
  | 0x400 => pack [(0, 13, c.stg.length), (16, 13, (c.stg.filter entryDirty).length), (32, 32, sat 32 c.writebacks)]
  | 0x500 => c.faultAddr % 2 ^ 64
  | 0x508 => pack [(0, 1, b2n c.faultValid), (1, 3, c.faultStrip), (4, 1, b2n c.faultCheck), (5, 8, c.faultReason), (13, 2, c.faultOutcome),
                   (16, 8, c.faultTenant)]
  | _ =>
    match arrayAt off 0 8, arrayAt off 0x100 32, arrayAt off 0x200 16 with
    | some i, _, _ =>
      pack [(0, 4, tget 0 c.engMap i), (4, 1, b2n (tfind c.engMap i).isSome), (16, 16, s16 (tget 0 c.codeFaults i)),
            (32, 16, s16 (tget 0 c.checkFaults i))]
    | _, some n, _ =>
      pack ((List.range 4).map fun j =>
        let p := codecSlot s.vq.active (me s) (n / 4) (4 * (n % 4) + j)
        (16 * j, 16, p.1 + 256 * p.2))
    | _, _, some n => tget 0 (if n % 2 = 0 then c.dec else c.enc) (n / 2) % 2 ^ 64
    | _, _, _ => 0

/-- DRT (Table 10.6). -/
def drtRead (s : State) (off : Nat) : Nat :=
  let d := s.drt
  let im := mapImage s
  match off with
  | 0x00 =>
    pack [(0, 4, ilGrain im (me s)), (4, 1, b2n (ilFold im (me s))), (5, 6, d.logical), (11, 4, dramN s.vq.active (me s) - 6),
          (15, 3, dramStates s.vq.active (me s)), (18, 8, ((List.range 8).map fun k => b2n (dramFreeze s.vq.active (me s) k) * 2 ^ k).sum)]
  | 0x08 => pack [(0, 2, d.rate), (2, 1, b2n d.switching), (3, 3, d.stack), (6, 1, b2n d.noCache), (7, 2, d.nextRate)]
  | 0x18 => pack [(0, 40, d.mark), (40, 6, d.lsid), (46, 1, b2n d.active)]
  | 0x500 => d.frzAddr % 2 ^ 64
  | 0x508 => pack [(0, 5, d.frzPc), (5, 4, d.frzBank), (9, 14, d.frzRow), (23, 5, d.frzColumn), (28, 3, d.frzStack), (31, 1, b2n d.frzValid),
                   (32, 32, d.frzSynd.toNat)]
  | _ =>
    match arrayAt off 0x100 32, arrayAt off 0x200 32, arrayAt off 0x300 8, arrayAt off 0x400 32 with
    | some l, _, _, _ => pack [(0, 5, physOf d l), (5, 1, b2n (decide (l < d.logical)))]
    | _, some i, _, _ => pack [(0, 3, (tget {} d.sids i).st), (8, 24, sat 24 (ceCount (now s) (tget {} d.sids i))), (32, 16, s16 (tget {} d.sids i).ue)]
    | _, _, some k, _ => pack [(0, 32, sat 32 (tget {} d.stks k).forced), (32, 32, sat 32 (tget {} d.stks k).rfm)]
    | _, _, _, some q => pack [(0, 32, qosTarget (liveView s) (me s) q), (32, 32, sat 32 (tget 0 d.maxWait q))]
    | _, _, _, _ => 0

/-- The identity record of a Drey (Table 11.2), with its wrapped-key bytes as given. -/
def idHead (d : DreyId) (wrapped : List Byte) : List Byte :=
  [0x44, 0x52, 0x59, 0x31] ++ leBytes 2 1 ++ leBytes 2 (b2n d.owned) ++ leBytes 16 d.serial.toNat ++ leBytes 16 d.owner.toNat
    ++ leBytes 8 d.fabric.toNat ++ padTo 72 0 wrapped ++ leBytes 8 d.membership ++ leBytes 1 d.bayLast ++ leBytes 1 (b2n d.clean)
    ++ List.replicate 6 0 ++ leBytes 8 d.lastSeen ++ leBytes 8 d.formatTime ++ List.replicate 100 0

/-- The record as `HRD_ID_b` shows it: the wrapped-key bytes read zero (Table 11.8). -/
def idBytes (d : DreyId) : List Byte := idHead d [] ++ leBytes 4 (crc32c (idHead d d.wrapped)).toNat

/-- The wear record of a Drey (Table 17.5). -/
def wearBytes (y : Bay) (d : DreyId) : List Byte :=
  let b := [0x44, 0x52, 0x57, 0x31] ++ leBytes 2 1 ++ leBytes 2 0 ++ leBytes 8 d.wearSeq ++ leBytes 8 d.wearUpdate ++ leBytes 8 d.pagesProg
    ++ leBytes 8 d.pagesRead ++ leBytes 4 d.hoursMounted ++ leBytes 4 d.insertions
    ++ (List.range 16).flatMap (fun i => leBytes 4 (d.tempHist.getD i 0)) ++ (List.range 132).flatMap (fun i => leBytes 2 (d.eraseMean.getD i 0))
    ++ leBytes 2 (wearCenti y) ++ List.replicate 130 0
  b ++ leBytes 4 (crc32c b).toNat

/-- GiB of flash pages. -/
def pagesGib (n : Nat) : Nat := n * chunkBytes / gib

/-- HRD (Table 11.8). -/
def hrdRead (s : State) (off : Nat) : Nat :=
  let h := s.hrd
  let mask (p : Bay → Bool) : Nat := ((List.range 16).map fun b => b2n (p (bayOf h b)) * 2 ^ b).sum
  let live := ((List.range 16).map fun b => (bayOf h b).chunks.length).sum
  match off with
  | 0x00 => pack [(0, 16, mask (·.st == 3)), (16, 16, mask (·.st == 4)), (32, 1, b2n s.pnl.cover), (33, 1, b2n !h.rebuild.isEmpty),
                  (34, 1, b2n !h.belowCodes.isEmpty)]
  | 0x08 => pack [(0, 32, pagesGib (((mountedBays h).map fun b => dreyPages - (bayOf h b).chunks.length).sum)), (32, 32, pagesGib live)]
  | 0x10 =>
    let ids := ((List.range 16).flatMap fun b => (bayOf h b).chunks.map fun c => (c.stripe, c.m)).eraseDups
    pack [(0, 32, h.rebuild.length), (32, 32, (ids.filter fun p => decide (p.2 ≤ lostKnown s p.1)).length)]
  | 0x18 => h.seq % 2 ^ 54
  | 0x20 =>
    let oldest := ((List.range 16).flatMap fun b => (bayOf h b).blocks.map fun f => if 0 < f.written then f.age else 0).foldl max 0
    let first := (h.scrubbed.map fun x => x.2.2.2).foldl min (now s)
    pack [(0, 16, sat 16 (oldest / 24000000)), (16, 16, sat 16 ((now s - first) / dayNs))]
  | 0x40 => pack [(0, 4, h.cmdBay), (4, 4, h.cmdAction)]
  | 0x48 => pack [(0, 1, b2n h.busy), (8, 8, h.status)]
  | _ =>
    match arrayAt off 0x100 16, arrayAt off 0x1000 512 with
    | some b, _ =>
      let y := bayOf h b
      pack [(0, 4, y.st), (4, 2, y.cls), (8, 8, y.reason), (16, 8, y.diesOk), (24, 8, y.wear), (32, 16, y.temp.toNat),
            (48, 1, b2n y.adoptPanel.isSome), (49, 1, b2n y.adoptAdmin.isSome)]
    | _, some n => ((bayOf h (n / 32)).drey.map fun d => at8 (idBytes d) (8 * (n % 32))).getD 0
    | _, _ => 0

/-- WRN (Table 12.9). -/
def wrnRead (s : State) (off : Nat) : Nat :=
  let w := s.wrn
  match off with
  | 0x00 =>
    pack [(0, 6, ((List.range 48).filter fun n => (portOf w n).st == 3).length), (6, 1, b2n w.aligned), (7, 1, b2n (amGm s)),
          (8, 10, w.parent), (18, 6, w.parentPort), (24, 6, w.depth), (30, 1, b2n w.split), (31, 10, (farUnits s).length)]
  | 0x08 => pack [(0, 32, twos 32 w.offset), (32, 32, w.delay)]
  | 0x10 => pack [(0, 6, w.cmdPort), (6, 2, w.cmdAction)]
  | 0x18 => pack [(0, 1, b2n w.busy), (8, 8, w.status)]
  | 0x20 => pack [(0, 32, sat 32 w.resends), (32, 16, s16 w.yields), (48, 16, s16 w.lostWrites)]
  | _ =>
    match arrayAt off 0x100 48, arrayAt off 0x300 48, arrayAt off 0x500 16, arrayAt off 0x1000 1024 with
    | some n, _, _, _ =>
      let p := portOf w n
      pack [(0, 4, p.st), (4, 3, p.lanes), (7, 4, p.laneFail.toNat), (11, 10, p.peerUnit), (21, 6, p.peerPort), (27, 16, s16 p.replays),
            (43, 16, s16 p.drops), (59, 1, b2n p.disabled)]
    | _, some n, _, _ =>
      let p := portOf w n
      pack [(0, 32, sat 32 p.fecCorr), (32, 16, s16 p.fecUncorr), (48, 16, s16 p.crcFail)]
    | _, _, some k, _ =>
      ((List.range 64).map fun i =>
        let u := 64 * k + i
        b2n (u == me s || ((otherUnits s).contains u && !unreachable s u)) * 2 ^ i).sum
    | _, _, _, some d =>
      pack [(0, 6, (outPort s d).getD 0), (6, 1, b2n (w.alt.contains d)), (7, 1, b2n (unreachable s d))]
    | _, _, _, _ => 0

/-- A mask of element numbers, 64 a register. -/
def maskWord (l : List Nat) (w : Nat) : Nat := ((l.filter fun x => x / 64 == w).map fun x => 2 ^ (x % 64)).sum

/-- ENG (Table 13.7); the fields of an engine whose island is off read zero (R440). -/
def engRead (s : State) (off : Nat) : Nat :=
  let on (e : Nat) : Bool := (islOf s (e + 1)).on
  let val (e v : Nat) : Nat := if on e then v else 0
  if off = 0x400 then pack [(8, 4, s.eng.katPass.toNat)]
  else
    match arrayAt off 0 4, arrayAt off 0x100 16, arrayAt off 0x200 8, arrayAt off 0x300 24 with
    | some e, _, _, _ =>
      let x := engOf s.eng e
      val e (pack [(0, 2, x.st), (2, 1, b2n x.block.isSome), (3, 8, (workingOf s 1 e).length), (11, 7, (workingOf s 2 e).length)])
    | _, some n, _, _ => if n % 4 < 3 then val (n / 4) (maskWord (engineColumns s (n / 4)) (n % 4)) else 0
    | _, _, some n, _ => val (n / 2) (maskWord (engineDecoders s (n / 2)) (n % 2))
    | _, _, _, some n =>
      let e := n % 4
      let x := engOf s.eng e
      val e (match n / 4 with
        | 0 => x.blocks % 2 ^ 64
        | 1 => x.periods % 2 ^ 64
        | 2 => x.starved % 2 ^ 64
        | 3 => pack [(0, 16, s16 x.residue), (16, 16, s16 x.katFail), (32, 16, s16 x.malformed), (48, 8, x.lastReason)]
        | 4 => pack [(0, 32, sat 32 x.nanOut), (32, 32, sat 32 x.ovfOut)]
        | _ => pack [(0, 19, (x.sram.map (·.units)).sum), (32, 16, x.sram.length)])
    | _, _, _, _ => 0

/-- OPQ (Table 14.10). -/
def opqRead (s : State) (off : Nat) : Nat :=
  let q := s.opq
  match off with
  | 0x00 => pack [(0, 12, sat 12 q.ops.length), (12, 12, sat 12 q.fwd.length), (24, 10, q.intake.length), (34, 11, q.dbIntake.length)]
  | 0x08 => q.retired % 2 ^ 64
  | 0x10 => pack [(0, 16, s16 q.abHost), (16, 16, s16 q.abLease), (32, 16, s16 q.abFw), (48, 16, s16 q.abTimeout)]
  | 0x18 => pack [(0, 32, sat 32 q.refused), (32, 8, q.refReason), (40, 8, q.refTenant)]
  | 0x20 => pack [(0, 32, sat 32 q.failed), (32, 8, q.failReason)]
  | _ =>
    match arrayAt off 0x1000 256, arrayAt off 0x100000 65536 with
    | some t, _ =>
      let p := ringRange s.vq.active (me s) t
      pack [(0, 12, sat 12 (q.ops.filter (·.tenant == t)).length), (12, 16, p.1), (28, 17, p.2)]
    | _, some n =>
      let r := ringOf q n
      pack [(0, 1, b2n r.enable), (1, 1, b2n (ringStopped q n)), (2, 6, r.error), (8, 8, r.tenant), (16, 17, r.owed), (33, 16, s16 r.dropped)]
    | _, _ => 0

/-- A field repair entry, 16 B (Table 5.5). -/
def fieldBytes (e : FieldEntry) : List Byte :=
  leBytes 4 (entryVal e.entry) ++ leBytes 1 e.cause ++ leBytes 1 (b2n e.cleared) ++ leBytes 2 0 ++ leBytes 8 e.time

/-- A Drey history event, 32 B (R394). -/
def dreyEventBytes (e : DreyEvent) : List Byte :=
  leBytes 8 e.time ++ leBytes 1 e.bay ++ leBytes 1 e.code ++ List.replicate 6 0 ++ leBytes 16 e.serial.toNat

/-- LIF (Table 17.6). -/
def lifRead (s : State) (off : Nat) : Nat :=
  let l := s.lif
  let key := 64 * l.ring + l.qty
  let disc := match l.steppedAt with
    | some t => decide (now s ≤ t + 2 * secNs)
    | none => false
  match off with
  | 0x00 => l.cal % 2 ^ 64
  | 0x08 => pack [(0, 1, b2n l.calValid), (1, 1, b2n disc), (2, 1, b2n l.ptpLock), (3, 1, b2n l.ptpFar), (4, 1, b2n l.coinLow), (8, 8, l.taiUtc),
                  (16, 32, twos 32 (sat32 l.lastStep))]
  | 0x10 => twos 32 l.trim
  | 0x18 => pack [(0, 4, l.action)]
  | 0x20 => l.arg.toNat
  | 0x28 => pack [(0, 1, b2n l.busy), (8, 8, l.status)]
  | 0x40 => pack [(0, 32, l.hours), (32, 32, l.serving)]
  | 0x48 => pack [(0, 16, l.coldStarts), (16, 16, l.fwRestarts), (32, 16, l.dormice), (48, 16, l.trips)]
  | 0x50 => pack [(0, 16, sat 16 (l.hours * 1000 / 61362)), (16, 1, b2n l.reached)]
  | 0x58 => pack [(0, 1, b2n l.lost), (8, 8, sat 8 l.oneCopy)]
  | 0x60 => pack [(0, 8, l.qty), (8, 2, l.ring), (32, 32, tget 0 l.newest key)]
  | _ =>
    if 0x10000 ≤ off ∧ off < 0x20000 then
      let i := (off - 0x10000) / 8
      if l.ring = 3 then (if i < 26 then pack [(0, 16, s16 (tget 0 l.bins (32 * l.qty + i))), (16, 1, 1)] else 0)
      else match (tget [] l.hist key)[i]? with
        | some (some v) => pack [(0, 16, v), (16, 1, 1)]
        | _ => 0
    else if 0x20000 ≤ off ∧ off < 0x24000 then
      ((l.fieldMap[(off - 0x20000) / 16]?).map fun e => at8 (fieldBytes e) (off % 16)).getD 0
    else if 0x30000 ≤ off ∧ off < 0x50000 then
      ((l.dreyHist[(off - 0x30000) / 32]?).map fun e => at8 (dreyEventBytes e) (off % 32)).getD 0
    else 0

/-- Seconds from now to a time, rounded up. -/
def secsTo (s : State) (t : Ns) : Nat := cdiv (t - now s) secNs

/-- PNL (Table 18.4). -/
def pnlRead (s : State) (off : Nat) : Nat :=
  let p := s.pnl
  match off with
  | 0x00 => pack [(0, 2, p.switch), (2, 1, b2n p.cover), (3, 4, shownPage s), (7, 1, lookFld (liveView s) (me s) 0x16 0 32 1 1), (8, 10, bannersShown s),
                  (32, 32, p.refreshed)]
  | 0x08 => pack [(0, 4, p.action), (4, 4, p.cmdBay)]
  | 0x10 => pack [(0, 1, b2n p.identOn), (1, 2, p.identSource),
                  (8, 8, sat 8 (if p.identOn then secsTo s p.identUntil else if p.bayOn then secsTo s p.bayUntil else 0)),
                  (16, 4, p.bay), (20, 1, b2n p.bayOn)]
  | 0x18 => pack [(0, 16, ((List.range 16).map fun b => b2n (bayOf s.hrd b).adoptPanel.isSome * 2 ^ b).sum), (16, 1, b2n p.nextOk),
                  (32, 32, p.nextDigest.toNat)]
  | 0x20 => pack [(0, 16, p.rejected), (16, 16, p.refused), (32, 16, p.holds)]
  | 0x28 => pack [(0, 8, p.lastAction), (8, 4, p.lastBay), (12, 4, p.lastResult), (32, 32, p.lastTime)]
  | _ => 0

/-- FLT (Table 19.7). -/
def fltRead (s : State) (off : Nat) : Nat :=
  let f := s.flt
  match off with
  | 0x00 => pack [(0, 32, f.head), (32, 32, f.lost)]
  | 0x08 => pack [(0, 1, b2n f.byHold), (1, 1, b2n f.byFault), (16, 16, f.causes.headD 0), (32, 16, f.causes.length)]
  | 0x10 => pack [(0, 4, f.action)]
  | 0x18 => pack [(0, 1, b2n f.busy), (8, 8, f.status)]
  | _ =>
    match arrayAt off 0x28 5 with
    | some c => tget 0 f.counts (c + 1) % 2 ^ 64
    | none =>
      if 0x20000 ≤ off ∧ off < 0x30000 then
        ((f.standby[(off - 0x20000) / 64]?).map fun r => at8 (eventBytes r) (off % 64)).getD 0
      else if 0x400000 ≤ off ∧ off < 0x800000 then
        ((tfind f.log ((off - 0x400000) / 64)).map fun r => at8 (eventBytes r) (off % 64)).getD 0
      else 0

/-- The block of a BAR2 offset (Table 21.1), 16 MiB each. -/
def blockOf (off : Nat) : Nat := off / 2 ^ 24

/-- The 8 bytes of BAR2 at an offset that is a multiple of 8 (Tables 21.1 and 21.2). -/
def bar2Read (s : State) (off : Nat) : Word :=
  let o := off % 2 ^ 24
  BitVec.ofNat 64 (match blockOf off with
    | 0x00 => uniRead s o
    | 0x01 => fusRead s o
    | 0x02 => vqRead s o
    | 0x03 => monBlockRead s o
    | 0x04 => pwrRead s o
    | 0x05 => hstRead s o
    | 0x06 => mbxRead s o
    | 0x07 => extRead s o
    | 0x08 => cdcRead s o
    | 0x09 => drtRead s o
    | 0x0A => hrdRead s o
    | 0x0B => wrnRead s o
    | 0x0C => engRead s o
    | 0x0D => opqRead s o
    | 0x0E => lifRead s o
    | 0x0F => pnlRead s o
    | 0x10 => fltRead s o
    | _ => 0)

/-! ### BAR0 -/

/-- The state of a tenant's lease on this unit (Table 6.5). -/
def leaseRead (s : State) (t : Option Nat) : Nat × Nat :=
  match t with
  | none => (0, 0)
  | some t => ((leaseOf s t).st, (leaseOf s t).expiry)

/-- The ring that a local index names at an LD (R311). -/
def ringAt (s : State) (ld r : Nat) : Option Nat := (ldTenant s ld).bind fun t => localRing s t r

/-- A ring context or doorbell register (Table 14.1). -/
def ringRead (s : State) (n k : Nat) : Nat :=
  let r := ringOf s.opq n
  match k with
  | 0 => r.sqBase
  | 1 => r.cqBase
  | 2 => pack [(0, 5, r.sqLog), (8, 5, r.cqLog), (16, 6, r.vector), (24, 1, b2n r.enable), (25, 1, b2n (ringStopped s.opq n)), (26, 6, r.error),
               (32, 8, r.ld)]
  | _ => pack [(0, 32, r.sqHead), (32, 32, r.cqTail)]

/-- The unit mailbox page of an LD (Table 7.8). -/
def boxRead (s : State) (ld k : Nat) : Nat :=
  let b := boxOf s.mbx ld
  let m := b.f2h.headD { stamp := 0, p0 := 0, p1 := 0 }
  match k with
  | 0 => b.ptr.toNat
  | 2 => pack [(0, 1, b2n b.pointer), (1, 5, queueCap - b.h2f.length), (6, 5, b.f2h.length), (11, 4, b.epoch), (15, 4, s.mbx.fwEpoch),
               (32, 16, b.discarded)]
  | 3 => pack [(0, 1, b2n b.ovr), (16, 16, b.overruns)]
  | 4 => m.stamp.toNat
  | 5 => m.p0.toNat
  | 6 => m.p1.toNat
  | 8 => (dbBits b).toNat
  | 9 => b.mask.toNat
  | _ => 0

/-- The MSI-X table of an LD (the standard): address, then data and the mask bit. -/
def vecRead (l : Ld) (v : Nat) (hi : Bool) : Nat :=
  let x := tget ({} : Msix) l.vecs v
  if hi then x.data.toNat + 2 ^ 32 * b2n x.masked else x.addr.toNat

/-- The 8 bytes of an LD's BAR0 at an offset that is a multiple of 8 (Tables 6.4, 6.5 and 21.3). -/
def bar0Read (s : State) (ld off : Nat) : Word :=
  let l := ldOf s.hst ld
  let k := linkOf s.hst (ld / 16)
  let t := ldTenant s ld
  let w := tget ({} : LdLog) s.flt.lds ld
  BitVec.ofNat 64 (match off with
    | 0x000 => pack [(0, 8, t.getD 0), (8, 8, ld), (16, 10, me s), (26, 1, b2n t.isSome), (27, 1, b2n (bindAdmin s.vq.active (me s) ld))]
    | 0x008 =>
      let max := if portSplit s.vq.active (me s) (ld / 32) then 3 else 4
      pack [(0, 4, stCode s.uni.st), (4, 1, b2n (k.ideMem && k.ideIo && !k.insecure)),
            (5, 1, b2n (k.st == 2 && (decide (portMaxRate s.vq.active (me s) < k.rate) || decide (k.width < max)))), (8, 8, sat 8 l.offered.length)]
    | 0x1000 => pack [(1, 2, (leaseRead s t).1)]
    | 0x1008 => (leaseRead s t).2 % 2 ^ 64
    | 0x3000 => l.pba.toNat
    | 0x400000 => w.head
    | 0x400008 => w.tail
    | 0x400010 => w.lost
    | _ =>
      match arrayAt off 0x2000 128, arrayAt off 0x10000 10, arrayAt off 0x100000 131072, arrayAt off 0x200000 262144 with
      | some n, _, _, _ => vecRead l (n / 2) (n % 2 == 1)
      | _, some n, _, _ => boxRead s ld n
      | _, _, some n, _ => ((ringAt s ld (n / 2)).map fun q => if n % 2 = 0 then (ringOf s.opq q).tail else (ringOf s.opq q).head).getD 0
      | _, _, _, some n => ((ringAt s ld (n / 4)).map fun q => ringRead s q (n % 4)).getD 0
      | _, _, _, _ =>
        if 0x20000 ≤ off ∧ off < 0x40000 then leNat (mread l.pages off 8)
        else if 0x410000 ≤ off ∧ off < 0xC10000 then
          ((tfind w.recs ((off - 0x410000) / 64)).map fun r => at8 (eventBytes r) (off % 64)).getD 0
        else 0)

end Sys2Proof.Machine
end

