-- ==== Sys2Proof/Machine/Registers.lean ====
section
/-! DEFINITION. Register accesses: the access rule of R12, the write behaviours of R11 for every register that stores, clears or
submits (chapters 2 to 19), the islands of R440, and the two BARs (Tables 21.1 to 21.3). -/

namespace Sys2Proof.Machine

/-- The state a meaning leaves. -/
def stateOf (r : Res) (s : State) : State :=
  match r with
  | .next t => t
  | _ => s

/-- The bits of the 8-byte register that an access reaches: all of them, or the addressed half (R12). -/
def accessMask (off size : Nat) : Word :=
  if size = 8 then -1 else if off % 8 = 4 then 0xFFFFFFFF00000000 else 0xFFFFFFFF

/-- A written value, moved to the half it addresses. -/
def accessVal (off size : Nat) (val : Word) : Word :=
  if size = 8 then val else if off % 8 = 4 then val <<< 32 else val &&& 0xFFFFFFFF

/-- A register's value with the written half in place (R12). -/
def merged (cur m v : Word) : Word := (cur &&& ~~~ m) ||| (v &&& m)

/-- Natural alignment and size (R12). -/
def accessOk (off size : Nat) : Bool := (size == 4 || size == 8) && off % size == 0

/-- The requester's BAR0, if it is one. -/
def rqLd : Requester → Option Nat
  | .bar0 ld => some ld
  | .bar2 => none

/-- ACCESS_REFUSED (R12, R440): register and access. -/
def accessRefused (rq : Requester) (off size : Nat) (isWrite : Bool) (s : State) : State :=
  raise { code := 0x000E, sk := if (rqLd rq).isSome then 1 else 0, si := (rqLd rq).getD 0
          d0 := off + (if (rqLd rq).isSome then 2 ^ 32 else 0), d1 := size + 16 * b2n isWrite } s

/-- A refused access: a read ends in Completer Abort, a write is dropped and recorded. -/
def refuseAccess (rq : Requester) (off size : Nat) (isWrite : Bool) (s : State) : State :=
  if isWrite then accessRefused rq off size true s else emit (.readAbort rq off) s

/-! ### BAR2 (R439, R440) -/

/-- The hosting island of a block is on (Table 21.1, R440). -/
def blockOn (s : State) (blk : Nat) : Bool :=
  let on (i : Nat) : Bool := (islOf s i).on
  if blk = 0x04 then true
  else if blk = 0x05 ∨ blk = 0x0B then on 7
  else if blk = 0x08 then on 5
  else if blk = 0x09 ∨ blk = 0x0A then on 6
  else if blk = 0x0C then on 1 || on 2 || on 3 || on 4
  else if blk ≤ 0x10 then on 0
  else true

/-- A command register's undefined action completes with STATE (R443). -/
def extUndefined (s : State) : State := { s with ext := { s.ext with status := if s.ext.busy then 3 else 2 } }

/-- The fields of a command register. -/
def extWrite (w : Nat) (s : State) : State :=
  let x := w % 2 ^ 16
  let a := bits w 19 16
  let s := { s with ext := { s.ext with cmdExt := x, cmdAction := a } }
  if !bit w 63 then s
  else if a = 1 then releaseAct x s
  else if a = 2 then scrubAct x s
  else extUndefined s

def hrdWrite (w : Nat) (s : State) : State :=
  let b := w % 16
  let a := bits w 7 4
  let s := { s with hrd := { s.hrd with cmdBay := b, cmdAction := a } }
  if !bit w 63 then s
  else if a = 1 then hrdCmd b 1 s (adoptAct b)
  else if a = 2 then hrdCmd b 2 s (approveAct b)
  else if a = 3 then hrdCmd b 3 s (evacuateAct b)
  else hrdDone b a (if s.hrd.busy then 3 else 2) s

def wrnWrite (w : Nat) (s : State) : State :=
  let p := w % 64
  let a := bits w 7 6
  let s := { s with wrn := { s.wrn with cmdPort := p, cmdAction := a } }
  if !bit w 63 then s
  else if a = 1 then retrainAct p s
  else if a = 2 then disableAct p s
  else if a = 3 then enableAct p s
  else { s with wrn := { s.wrn with status := if s.wrn.busy then 3 else 2 } }

def pwrWrite (w : Nat) (s : State) : State :=
  let a := w % 16
  let s := { s with pwr := { s.pwr with action := a } }
  if !bit w 63 then s
  else match a with
    | 1 => drainCmd .register s
    | 2 => resumeCmd s
    | 3 => dormouseCmd s
    | 4 => wakeCmd .register s
    | 5 => powerOffCmd .register s
    | 6 => startCmd .register s
    | _ => pwrDone .register a 1 s

def lifWrite (w : Nat) (s : State) : State :=
  let a := w % 16
  let s := { s with lif := { s.lif with action := a } }
  if !bit w 63 then s
  else match a with
    | 1 => setCalCmd .register s.lif.arg.toNat s
    | 2 => setUtcCmd s.lif.arg.toNat s
    | _ => lifDone .register a s.lif.arg.toNat 1 s

def pnlWrite (w : Nat) (s : State) : State :=
  let a := w % 16
  let s := { s with pnl := { s.pnl with action := a, cmdBay := bits w 7 4 } }
  if !bit w 63 then s
  else match a with
    | 1 => identOnCmd .register s
    | 2 => identOffCmd .register s
    | 3 => bayLocateCmd (bits w 7 4) s
    | 4 => refreshCmd s
    | _ => writeIgnored 0x0F000008 none w s

def fltWrite (w : Nat) (s : State) : State :=
  let a := w % 16
  let s := { s with flt := { s.flt with action := a } }
  if !bit w 63 then s
  else if a = 1 then faultResumeCmd s
  else { s with flt := { s.flt with status := 1 } }

/-- `HST_POLICY`, RWL (R11). -/
def policyWrite (w : Nat) (s : State) : State :=
  if 2 ≤ lifecycle s.fus then writeIgnored 0x05000000 none w s
  else { s with hst := { s.hst with ideRequired := bit w 0, poisonInject := bit w 1 } }

/-- A block of the FUS registers that holds fuse-derived fields (Table 3.8, FU). -/
def fusFixed (o : Nat) : Bool :=
  o ≤ 0x18 || (decide (0x40 ≤ o) && decide (o < 0x70)) || (decide (0x80 ≤ o) && decide (o < 0x140))
    || (decide (0x200 ≤ o) && decide (o < 0x218)) || (decide (0x300 ≤ o) && decide (o < 0x400))

/-- A write of a BAR2 register: its merged value `w`, and the bits written `m`. Windows are written apart. -/
def bar2Reg (off : Nat) (w m : Word) (s : State) : State :=
  let n := w.toNat
  let one (i : Nat) : Bool := w.getLsbD i && m.getLsbD i
  let low := m.getLsbD 0
  if off = 0x180 then { s with uni := { s.uni with retest := bit n 0 } }
  else if off = 0x01000410 then
    let t := { s with fus := { s.fus with len := n % 2 ^ 16 } }
    if one 63 then fuseGo t else t
  else if off = 0x02000000 then { s with vq := { s.vq with refused := s.vq.refused && !one 1 } }
  else if off = 0x02000008 then
    let t := loadFields (n % 2 ^ 25) (bits n 26 25) (bit n 27) s
    if one 63 then loadGo (n % 2 ^ 25) (bits n 26 25) (bit n 27) t else t
  else if off = 0x02000010 then { s with vq := { s.vq with page := n % 16 } }
  else if off = 0x02000060 then (if low then vqCtl n s else s)
  else if off = 0x03000D00 then writeIgnored 0x03000D00 none (w &&& m).toNat s
  else if off = 0x03000D18 then (if low then monCtl w s else s)
  else if off = 0x03000D28 then { s with mon := { s.mon with alert := s.mon.alert &&& ~~~ ((w &&& m).setWidth 32) } }
  else if off = 0x04000008 then pwrWrite n s
  else if off = 0x04000018 then { s with pwr := { s.pwr with autoStart := bit n 0 } }
  else if off = 0x05000000 then (if low then policyWrite n s else s)
  else if off = 0x07000000 then extWrite n s
  else if off = 0x07000020 then (if low then stateOf (execExtOlogTailWrite w s) s else s)
  else if off = 0x07000030 then { s with ext := { s.ext with page := n % 64 } }
  else if off = 0x08000508 then { s with cdc := { s.cdc with faultValid := s.cdc.faultValid && !one 0 } }
  else if off = 0x09000010 then stateOf (execUnfreeze (w &&& m) s) s
  else if off = 0x09000508 then { s with drt := { s.drt with frzValid := s.drt.frzValid && !one 31 } }
  else if off = 0x0A000040 then hrdWrite n s
  else if off = 0x0B000010 then wrnWrite n s
  else if off = 0x0C000400 then
    (if low then engKat (w.setWidth 4) (BitVec.ofNat 4 (Config.number s.free)) (draw s) else s)
  else if off = 0x0E000018 then lifWrite n s
  else if off = 0x0E000020 then { s with lif := { s.lif with arg := w } }
  else if off = 0x0E000060 then { s with lif := { s.lif with qty := n % 256, ring := bits n 9 8 } }
  else if off = 0x0F000008 then pnlWrite n s
  else if off = 0x10000010 then fltWrite n s
  else if blockOf off = 1 ∧ fusFixed (off % 2 ^ 24) = true then writeIgnored off none (w &&& m).toNat s
  else s

/-- A write to BAR2, of good size and alignment, to a block that is served. -/
def bar2Write (off size : Nat) (val : Word) (s : State) : State :=
  let bytes := leBytes size val.toNat
  if 0x01010000 ≤ off ∧ off < 0x01014000 then { s with fus := { s.fus with buf := mwrite (off - 0x01010000) bytes s.fus.buf } }
  else if 0x02800000 ≤ off ∧ off < 0x02900000 then
    { s with vq := { s.vq with buf := mwrite (s.vq.page * 2 ^ 20 + (off - 0x02800000)) bytes s.vq.buf } }
  else
    let r := off / 8 * 8
    let m := accessMask off size
    bar2Reg r (merged (bar2Read s r) m (accessVal off size val)) m s

/-- The part of an 8-byte value that a read returns. -/
def readPart (off size : Nat) (v : Word) : Word :=
  if size = 8 then v else if off % 8 = 4 then v >>> 32 else v &&& 0xFFFFFFFF

/-- A read of BAR2: the halves of `MON_TIMEBASE` and `LIF_CAL` belong together (R29, R397). -/
def bar2Get (rq : Requester) (off size : Nat) (s : State) : State :=
  let v := readPart off size (bar2Read s (off / 8 * 8))
  if off = 0x03000D08 ∧ size = 4 then stateOf (execMonTimebaseReadLow rq s) s
  else if off = 0x0E000000 ∧ size = 4 then stateOf (execLifCalReadLow rq s) s
  else if off = 0x03000D0C then
    match latchGet rq s.mon.latch with
    | some h => emit (.regRead rq off (h.setWidth 64))
        { s with mon := { s.mon with latch := s.mon.latch.filter fun e => e.1 != rq } }
    | none => emit (.regRead rq off v) s
  else if off = 0x0E000004 then
    match latchGet rq s.lif.latch with
    | some h => emit (.regRead rq off (h.setWidth 64))
        { s with lif := { s.lif with latch := s.lif.latch.filter fun e => e.1 != rq } }
    | none => emit (.regRead rq off v) s
  else emit (.regRead rq off v) s

/-- An access to BAR2 of good size and alignment: R377 in DORMOUSE, R440 else. -/
def bar2Access (off size : Nat) (isWrite : Bool) (val : Word) (s : State) : State :=
  if s.uni.st = .dormouse ∧ blockOf off ≠ 4 then (if isWrite then s else emit (.readAbort .bar2 off) s)
  else if !blockOn s (blockOf off) then refuseAccess .bar2 off size isWrite s
  else if isWrite then bar2Write off size val s
  else bar2Get .bar2 off size s

/-! ### BAR0 (R109, R441) -/

/-- A write to the MSI-X table: a vector that is unmasked sends its pending message (R111). -/
def vecWrite (ld v : Nat) (hi : Bool) (w : Word) (s : State) : State :=
  let l := ldOf s.hst ld
  let x := tget ({} : Msix) l.vecs v
  let y : Msix := if hi then { x with data := w.setWidth 32, masked := w.getLsbD 32 } else { x with addr := w }
  let s := onLd ld (fun l => { l with vecs := tset v y l.vecs }) s
  if l.pba.getLsbD v && !y.masked then
    emit (.msix ld v) (onLd ld (fun l => { l with pba := l.pba &&& ~~~ ((1 : BitVec 64) <<< v) }) s)
  else s

/-- A write to the context of ring `n`, local index `r` at the LD (R313): while the ring is in service its bases and sizes stay,
and each attempt is recorded. -/
def contextWrite (ld r n k : Nat) (w m : Word) (s : State) : State :=
  let x := ringOf s.opq n
  let off := 0x200000 + 32 * r + 8 * k
  let v := w.toNat
  if k = 0 then (if x.enable then writeIgnored off (some ld) v s else onRing n (fun x => { x with sqBase := v }) s)
  else if k = 1 then (if x.enable then writeIgnored off (some ld) v s else onRing n (fun x => { x with cqBase := v }) s)
  else if k = 2 ∧ m.getLsbD 0 = true then
    let sq := v % 32
    let cq := bits v 12 8
    let s := onRing n (fun x => { x with vector := bits v 21 16 }) s
    let s :=
      if x.enable then (if sq ≠ x.sqLog ∨ cq ≠ x.cqLog then writeIgnored off (some ld) v s else s)
      else onRing n (fun x => { x with sqLog := sq, cqLog := cq }) s
    if bit v 24 then stateOf (execRingEnable ld r (now s) s) s else stateOf (execRingDisable ld r s) s
  else s

/-- A write to the mailbox page (Table 7.8); one to a domain that is down is dropped and recorded (R135). -/
def mailboxWrite (ld k off size : Nat) (val : Word) (s : State) : State :=
  let m := accessMask off size
  let v := accessVal off size val
  if mbxDown s then mbxRefused ld 1 (some ld) s
  else match k with
    | 0 => onBox ld (fun b => { b with ptr := merged b.ptr m v }) s
    | 1 =>
      if size = 8 then postSend ld val (now s) s
      else if off % 8 = 0 then stateOf (execMbxSendHalf ld (val.setWidth 32) s) s
      else stateOf (execMbxSend ld v (now s) s) s
    | 3 => onBox ld (fun b => { b with ovr := b.ovr && !v.getLsbD 0 }) s
    | 7 => stateOf (execMbxRecvPop ld v s) s
    | 8 => stateOf (execMbxDbClear ld v s) s
    | 9 => stateOf (execMbxDbMaskWrite ld (merged (BitVec.ofNat 64 (boxRead s ld 9)) m v) s) s
    | _ => s

/-- A write to BAR0 that is taken (Table 21.3). The standard's pages hold what is written (log entry 40). -/
def bar0Write (ld off size : Nat) (val : Word) (s : State) : State :=
  let m := accessMask off size
  let r := off / 8 * 8
  let w := merged (bar0Read s ld r) m (accessVal off size val)
  if r = 0x1000 then (if m.getLsbD 0 then stateOf (execHstLeaseRenew ld w (now s) s) s else s)
  else if r = 0x400008 then (if m.getLsbD 0 then tailWrite ld (w.setWidth 32) s else s)
  else if 0x20000 ≤ off ∧ off < 0x40000 then onLd ld (fun l => { l with pages := mwrite off (leBytes size val.toNat) l.pages }) s
  else
    match arrayAt r 0x2000 128, arrayAt r 0x10000 10, arrayAt r 0x100000 131072, arrayAt r 0x200000 262144 with
    | some n, _, _, _ => vecWrite ld (n / 2) (n % 2 == 1) w s
    | _, some k, _, _ => mailboxWrite ld k off size val s
    | _, _, some n, _ =>
      if !m.getLsbD 0 then s
      else if n % 2 = 0 then stateOf (execSqDoorbell ld (n / 2) (w.setWidth 32) false (now s) s) s
      else stateOf (execCqDoorbell ld (n / 2) (w.setWidth 32) false s) s
    | _, _, _, some n =>
      match ringAt s ld (n / 4) with
      | some q => contextWrite ld (n / 4) q (n % 4) w m s
      | none => s
    | _, _, _, _ => s

/-- The mailbox page of BAR0. -/
def inMailbox (off : Nat) : Bool := decide (0x10000 ≤ off) && decide (off < 0x10050)

/-- A read of BAR0 is served (R115, R135, R377): identity always, the rest with the IDE required and outside DORMOUSE. -/
def bar0Served (s : State) (ld off : Nat) : Bool :=
  decide (off < 0x1000) || (if inMailbox off then ideOk s (ld / 16) && !mbxDown s else barTaken s ld)

/-- An access to BAR0 of good size and alignment. -/
def bar0Access (ld off size : Nat) (isWrite : Bool) (val : Word) (s : State) : State :=
  if isWrite then
    (if barTaken s ld || (inMailbox off && ideOk s (ld / 16)) then bar0Write ld off size val s else s)
  else if bar0Served s ld off then emit (.regRead (.bar0 ld) off (readPart off size (bar0Read s ld (off / 8 * 8)))) s
  else
    let s := if inMailbox off && ideOk s (ld / 16) then mbxRefused ld 1 (some ld) s else s
    emit (.readAbort (.bar0 ld) off) s

/-! ### The rows -/

/-- A register access: refused by R12, or taken. Nothing answers in OFF. -/
def access (rq : Requester) (off size : Nat) (isWrite : Bool) (val : Word) (s : State) : State :=
  if s.uni.st = .off then s
  else if !accessOk off size then refuseAccess rq off size isWrite s
  else match rq with
    | .bar2 => bar2Access off size isWrite val s
    | .bar0 ld => bar0Access ld off size isWrite val s

/-- REGISTER_WRITE (R11, R12). -/
def execRegisterWrite (rq : Requester) (off size : Nat) (val : Word) (s : State) : Res := .next (access rq off size true val s)

/-- REGISTER_ACCESS_REFUSED (R12): an access of good size and alignment is no refusal, and is taken. -/
def execRegisterAccessRefused (rq : Requester) (off size : Nat) (isWrite : Bool) (val : Word) (s : State) : Res :=
  .next (access rq off size isWrite val s)

/-- ISLAND_OFF_ACCESS (R440): an access to the administrator BAR2, refused while the block's island is off. -/
def execIslandOffAccess (off size : Nat) (isWrite : Bool) (val : Word) (s : State) : Res :=
  .next (access .bar2 off size isWrite val s)

end Sys2Proof.Machine
end

