-- ==== Sys2Proof/Machine/Dispatch.lean ====
section
/-! DEFINITION. The effect of every command: one arm per row of the table, each one direct call of its meaning. -/

namespace Sys2Proof.Machine

def exec (i : Instr) (s : State) : Host.Outcome State Fault Refusal :=
  match i with
  | .registerWrite rq off size val => Sys2Proof.Machine.execRegisterWrite rq off size val s
  | .registerAccessRefused rq off size isWrite val => Sys2Proof.Machine.execRegisterAccessRefused rq off size isWrite val s
  | .islandOffAccess off size isWrite val => Sys2Proof.Machine.execIslandOffAccess off size isWrite val s
  | .hostMemRead id ld dpa want stamp => Sys2Proof.Machine.execHostMemRead id ld dpa want stamp s
  | .fillBlockLanded tenant tile blk bmw masks stored => Sys2Proof.Machine.execFillBlockLanded tenant tile blk bmw masks stored s
  | .hostMemWrite id ld dpa be data poison evict stamp => Sys2Proof.Machine.execHostMemWrite id ld dpa be data poison evict stamp s
  | .stripWriteback tenant block strip => Sys2Proof.Machine.execStripWriteback tenant block strip s
  | .writebackComplete tenant block => Sys2Proof.Machine.execWritebackComplete tenant block s
  | .operandTileFetch engine tenant tile => Sys2Proof.Machine.execOperandTileFetch engine tenant tile s
  | .tempSensorConversion n reading converted => Sys2Proof.Machine.execTempSensorConversion n reading converted s
  | .voltageMonitorConversion n reading converted => Sys2Proof.Machine.execVoltageMonitorConversion n reading converted s
  | .pacerWindow n pace converted => Sys2Proof.Machine.execPacerWindow n pace converted s
  | .monTimebaseReadLow rq => Sys2Proof.Machine.execMonTimebaseReadLow rq s
  | .monCtlWrite val => Sys2Proof.Machine.execMonCtlWrite val s
  | .setOwner c => Sys2Proof.Machine.execSetOwner c s
  | .programSlot c => Sys2Proof.Machine.execProgramSlot c s
  | .revokeSlot c => Sys2Proof.Machine.execRevokeSlot c s
  | .revokeSlotDeferred => Sys2Proof.Machine.execRevokeSlotDeferred s
  | .advanceArb c => Sys2Proof.Machine.execAdvanceArb c s
  | .tightenDebug c => Sys2Proof.Machine.execTightenDebug c s
  | .programPolicy c => Sys2Proof.Machine.execProgramPolicy c s
  | .fuseSeal c => Sys2Proof.Machine.execFuseSeal c s
  | .retire c => Sys2Proof.Machine.execRetire c s
  | .debugUnlock c => Sys2Proof.Machine.execDebugUnlock c s
  | .validate len distribute => Sys2Proof.Machine.execValidate len distribute s
  | .update len distribute => Sys2Proof.Machine.execUpdate len distribute s
  | .nextStart len distribute => Sys2Proof.Machine.execNextStart len distribute s
  | .loadModeRefused len distribute => Sys2Proof.Machine.execLoadModeRefused len distribute s
  | .redfishImageAction image mode distribute => Sys2Proof.Machine.execRedfishImageAction image mode distribute s
  | .distributionTimeout => Sys2Proof.Machine.execDistributionTimeout s
  | .imagePart src offset total mode bytes => Sys2Proof.Machine.execImagePart src offset total mode bytes s
  | .imageVerdict src code => Sys2Proof.Machine.execImageVerdict src code s
  | .vqCtlAbort val => Sys2Proof.Machine.execVqCtlAbort val s
  | .coldStart env => Sys2Proof.Machine.execColdStart env s
  | .phaseBound phase => Sys2Proof.Machine.execPhaseBound phase s
  | .engineKatTimer engine failed => Sys2Proof.Machine.execEngineKatTimer engine failed s
  | .engKatRun run pass => Sys2Proof.Machine.execEngKatRun run pass s
  | .codecKatTimer phys pass => Sys2Proof.Machine.execCodecKatTimer phys pass s
  | .sramRowError bank row uncorrectable mirrorOk => Sys2Proof.Machine.execSramRowError bank row uncorrectable mirrorOk s
  | .shrewCoreFailure core => Sys2Proof.Machine.execShrewCoreFailure core s
  | .paceScan slow => Sys2Proof.Machine.execPaceScan slow s
  | .engineRepairComplete engine => Sys2Proof.Machine.execEngineRepairComplete engine s
  | .firmwareRestart => Sys2Proof.Machine.execFirmwareRestart s
  | .firmwareRestartComplete => Sys2Proof.Machine.execFirmwareRestartComplete s
  | .linkUp link p => Sys2Proof.Machine.execLinkUp link p s
  | .linkDown link => Sys2Proof.Machine.execLinkDown link s
  | .linkRateLowering lower => Sys2Proof.Machine.execLinkRateLowering lower s
  | .getLdInfo link => Sys2Proof.Machine.execGetLdInfo link s
  | .getLdAllocations link => Sys2Proof.Machine.execGetLdAllocations link s
  | .setLdAllocations link => Sys2Proof.Machine.execSetLdAllocations link s
  | .addDynamicCapacityResponse ld ext reader accept => Sys2Proof.Machine.execAddDynamicCapacityResponse ld ext reader accept s
  | .releaseDynamicCapacity ld ext => Sys2Proof.Machine.execReleaseDynamicCapacity ld ext s
  | .releaseTimeout ld ext => Sys2Proof.Machine.execReleaseTimeout ld ext s
  | .hdmDecoderCommit ld idx base size ways gran skip bi => Sys2Proof.Machine.execHdmDecoderCommit ld idx base size ways gran skip bi s
  | .hstLeaseRenew ld val stamp => Sys2Proof.Machine.execHstLeaseRenew ld val stamp s
  | .identifyMemoryDevice ld => Sys2Proof.Machine.execIdentifyMemoryDevice ld s
  | .getSupportedLogs ld => Sys2Proof.Machine.execGetSupportedLogs ld s
  | .getLog ld vendor offset len => Sys2Proof.Machine.execGetLog ld vendor offset len s
  | .getEventRecords ld log => Sys2Proof.Machine.execGetEventRecords ld log s
  | .clearEventRecords ld log all handles => Sys2Proof.Machine.execClearEventRecords ld log all handles s
  | .getEventInterruptPolicy ld => Sys2Proof.Machine.execGetEventInterruptPolicy ld s
  | .setEventInterruptPolicy ld msgs => Sys2Proof.Machine.execSetEventInterruptPolicy ld msgs s
  | .getHealthInfo ld => Sys2Proof.Machine.execGetHealthInfo ld s
  | .getPoisonList ld dpa len => Sys2Proof.Machine.execGetPoisonList ld dpa len s
  | .injectPoison ld dpa => Sys2Proof.Machine.execInjectPoison ld dpa s
  | .clearPoison ld dpa data => Sys2Proof.Machine.execClearPoison ld dpa data s
  | .getDynamicCapacityConfiguration ld => Sys2Proof.Machine.execGetDynamicCapacityConfiguration ld s
  | .getDynamicCapacityExtentList ld => Sys2Proof.Machine.execGetDynamicCapacityExtentList ld s
  | .getTimestamp ld => Sys2Proof.Machine.execGetTimestamp ld s
  | .setTimestamp ld t => Sys2Proof.Machine.execSetTimestamp ld t s
  | .getFwInfo ld => Sys2Proof.Machine.execGetFwInfo ld s
  | .unsupportedMailboxCommand ld opcode => Sys2Proof.Machine.execUnsupportedMailboxCommand ld opcode s
  | .spdmRequest ld code msg => Sys2Proof.Machine.execSpdmRequest ld code msg s
  | .ideKeyProgramming link mem io skid => Sys2Proof.Machine.execIdeKeyProgramming link mem io skid s
  | .ideCheckFail link mem => Sys2Proof.Machine.execIdeCheckFail link mem s
  | .deferrableMemoryWrite ld off size => Sys2Proof.Machine.execDeferrableMemoryWrite ld off size s
  | .responseWatchdog id => Sys2Proof.Machine.execResponseWatchdog id s
  | .functionLevelReset ld => Sys2Proof.Machine.execFunctionLevelReset ld s
  | .hotReset link => Sys2Proof.Machine.execHotReset link s
  | .mbxSend ld val stamp => Sys2Proof.Machine.execMbxSend ld val stamp s
  | .mbxSendHalf ld val => Sys2Proof.Machine.execMbxSendHalf ld val s
  | .mbxDmwrPointer ld ptr notice stamp => Sys2Proof.Machine.execMbxDmwrPointer ld ptr notice stamp s
  | .mbxDmwrWord ld val stamp => Sys2Proof.Machine.execMbxDmwrWord ld val stamp s
  | .mbxRecvPop ld val => Sys2Proof.Machine.execMbxRecvPop ld val s
  | .mbxDbClear ld val => Sys2Proof.Machine.execMbxDbClear ld val s
  | .mbxDbMaskWrite ld val => Sys2Proof.Machine.execMbxDbMaskWrite ld val s
  | .ping ld core => Sys2Proof.Machine.execPing ld core s
  | .leaseInfo ld core => Sys2Proof.Machine.execLeaseInfo ld core s
  | .extentState ld core => Sys2Proof.Machine.execExtentState ld core s
  | .reserveLevels ld core => Sys2Proof.Machine.execReserveLevels ld core s
  | .imageReq ld core => Sys2Proof.Machine.execImageReq ld core s
  | .unknownOp ld core => Sys2Proof.Machine.execUnknownOp ld core s
  | .f2hDeferredEnqueue ld => Sys2Proof.Machine.execF2hDeferredEnqueue ld s
  | .mailboxFault ld internal h2f => Sys2Proof.Machine.execMailboxFault ld internal h2f s
  | .mbx src tag box pointer stampWord p0 p1 => Sys2Proof.Machine.execMbx src tag box pointer stampWord p0 p1 s
  | .mbxAns src tag status => Sys2Proof.Machine.execMbxAns src tag status s
  | .sealExtent ringUnit ring sqIndex => Sys2Proof.Machine.execSeal ringUnit ring sqIndex s
  | .sealComplete ext => Sys2Proof.Machine.execSealComplete ext s
  | .hostBirsp ld addr ans stamp => Sys2Proof.Machine.execHostBirsp ld addr ans stamp s
  | .biConflict ld addr => Sys2Proof.Machine.execBiConflict ld addr s
  | .leaseRenew src tenant stamp => Sys2Proof.Machine.execLeaseRenew src tenant stamp s
  | .leaseGrantDue tenant => Sys2Proof.Machine.execLeaseGrantDue tenant s
  | .leaseGrant src tenant expiry => Sys2Proof.Machine.execLeaseGrant src tenant expiry s
  | .leaseGuardReached tenant => Sys2Proof.Machine.execLeaseGuardReached tenant s
  | .leaseExpiry tenant => Sys2Proof.Machine.execLeaseExpiry tenant s
  | .leaseReclaimTimer tenant => Sys2Proof.Machine.execLeaseReclaimTimer tenant s
  | .leaseReclaim src tenant t => Sys2Proof.Machine.execLeaseReclaim src tenant t s
  | .leaseReport src tenant ext orphans last sealAbandoned => Sys2Proof.Machine.execLeaseReport src tenant ext orphans last sealAbandoned s
  | .extOlogTailWrite val => Sys2Proof.Machine.execExtOlogTailWrite val s
  | .release ext => Sys2Proof.Machine.execRelease ext s
  | .scrub ext => Sys2Proof.Machine.execScrub ext s
  | .scrubComplete ext => Sys2Proof.Machine.execScrubComplete ext s
  | .dramAdmission pc rfm => Sys2Proof.Machine.execDramAdmission pc rfm s
  | .dramUnitComplete uid errs => Sys2Proof.Machine.execDramUnitComplete uid errs s
  | .sidRetireComplete => Sys2Proof.Machine.execSidRetireComplete s
  | .poolRemapComplete => Sys2Proof.Machine.execPoolRemapComplete s
  | .unfreeze val => Sys2Proof.Machine.execUnfreeze val s
  | .refreshDeadline pc bank => Sys2Proof.Machine.execRefreshDeadline pc bank s
  | .refreshOpportunity pc => Sys2Proof.Machine.execRefreshOpportunity pc s
  | .stackTempRead stack temp => Sys2Proof.Machine.execStackTempRead stack temp s
  | .dramScrub sid addr corrected uncorrectable => Sys2Proof.Machine.execDramScrub sid addr corrected uncorrectable s
  | .dataRateChange target => Sys2Proof.Machine.execDataRateChange target s
  | .chunkGet src tag stripe chunk offset len => Sys2Proof.Machine.execChunkGet src tag stripe chunk offset len s
  | .chunkData src tag status bytes => Sys2Proof.Machine.execChunkData src tag status bytes s
  | .chunkPut src tag stripe chunk k m kind crc bytes => Sys2Proof.Machine.execChunkPut src tag stripe chunk k m kind crc bytes s
  | .chunkAck src tag status => Sys2Proof.Machine.execChunkAck src tag status s
  | .chunkAckTimeout stripe chunk => Sys2Proof.Machine.execChunkAckTimeout stripe chunk s
  | .chunkGetTimeout tag => Sys2Proof.Machine.execChunkGetTimeout tag s
  | .commitTimer tenant tile => Sys2Proof.Machine.execCommitTimer tenant tile s
  | .checkpoint => Sys2Proof.Machine.execCheckpoint s
  | .compaction stripe => Sys2Proof.Machine.execCompaction stripe s
  | .flashReclaim bay die => Sys2Proof.Machine.execFlashReclaim bay die s
  | .weightedAgeTick bay meanTemp => Sys2Proof.Machine.execWeightedAgeTick bay meanTemp s
  | .hoardScrub bay stripe chunk weak fails => Sys2Proof.Machine.execHoardScrub bay stripe chunk weak fails s
  | .flashDieFailure bay die => Sys2Proof.Machine.execFlashDieFailure bay die s
  | .chunkRebuild stripe chunk gathered => Sys2Proof.Machine.execChunkRebuild stripe chunk gathered s
  | .rebuildDelayExpired unit bay => Sys2Proof.Machine.execRebuildDelayExpired unit bay s
  | .dreyInserted bay d => Sys2Proof.Machine.execDreyInserted bay d s
  | .dreyMounted bay => Sys2Proof.Machine.execDreyMounted bay s
  | .bayButtonPress bay => Sys2Proof.Machine.execBayButtonPress bay s
  | .approve bay => Sys2Proof.Machine.execApprove bay s
  | .approvalTimeout bay => Sys2Proof.Machine.execApprovalTimeout bay s
  | .removalWindowExpired bay => Sys2Proof.Machine.execRemovalWindowExpired bay s
  | .dreyPulled bay => Sys2Proof.Machine.execDreyPulled bay s
  | .dreyForcedOut bay => Sys2Proof.Machine.execDreyForcedOut bay s
  | .evacuate bay => Sys2Proof.Machine.execEvacuate bay s
  | .evacuationComplete bay => Sys2Proof.Machine.execEvacuationComplete bay s
  | .adopt bay => Sys2Proof.Machine.execAdopt bay s
  | .adoptLapse bay => Sys2Proof.Machine.execAdoptLapse bay s
  | .adoptionComplete bay => Sys2Proof.Machine.execAdoptionComplete bay s
  | .flitReceived port fecOk flit => Sys2Proof.Machine.execFlitReceived port fecOk flit s
  | .replayTimeout port => Sys2Proof.Machine.execReplayTimeout port s
  | .laneFailure port lane => Sys2Proof.Machine.execLaneFailure port lane s
  | .read src dst tag hops tenant addr stamp ident want port => Sys2Proof.Machine.execRead src dst tag hops tenant addr stamp ident want port s
  | .readData src tag status grant strip form bmw masks stored => Sys2Proof.Machine.execReadData src tag status grant strip form bmw masks stored s
  | .write src dst tag hops tenant addr stamp ident poison be data port => Sys2Proof.Machine.execWrite src dst tag hops tenant addr stamp ident poison be data port s
  | .writeDone src tag status => Sys2Proof.Machine.execWriteDone src tag status s
  | .bisnp src tag tenant addr data ld => Sys2Proof.Machine.execBisnp src tag tenant addr data ld s
  | .birsp src tag tenant addr ans => Sys2Proof.Machine.execBirsp src tag tenant addr ans s
  | .opFwd src tag ring sq tenant desc => Sys2Proof.Machine.execOpFwd src tag ring sq tenant desc s
  | .opDone src tag record => Sys2Proof.Machine.execOpDone src tag record s
  | .opFwdResend tag => Sys2Proof.Machine.execOpFwdResend tag s
  | .reserve port src tag len => Sys2Proof.Machine.execReserve port src tag len s
  | .grant port tag yieldFlag withdrawn => Sys2Proof.Machine.execGrant port tag yieldFlag withdrawn s
  | .bulkSlotFreed port slot => Sys2Proof.Machine.execBulkSlotFreed port slot s
  | .presenceProbe src st => Sys2Proof.Machine.execPresenceProbe src st s
  | .presenceAnswer src st => Sys2Proof.Machine.execPresenceAnswer src st s
  | .presenceProbeTimer peer => Sys2Proof.Machine.execPresenceProbeTimer peer s
  | .unreachableTimeout peer => Sys2Proof.Machine.execUnreachableTimeout peer s
  | .transitTimeout port tag => Sys2Proof.Machine.execTransitTimeout port tag s
  | .requestRetryTimer tag => Sys2Proof.Machine.execRequestRetryTimer tag s
  | .routeRestore dst => Sys2Proof.Machine.execRouteRestore dst s
  | .timeSyncTimer => Sys2Proof.Machine.execTimeSyncTimer s
  | .delayReqTimer => Sys2Proof.Machine.execDelayReqTimer s
  | .timeSync port src depth aligned t arrival => Sys2Proof.Machine.execTimeSync port src depth aligned t arrival s
  | .delayReq port src t arrival => Sys2Proof.Machine.execDelayReq port src t arrival s
  | .delayResp port src t1 t4 => Sys2Proof.Machine.execDelayResp port src t1 t4 s
  | .portDown port => Sys2Proof.Machine.execPortDown port s
  | .cablePlugged port lanes => Sys2Proof.Machine.execCablePlugged port lanes s
  | .hello port h => Sys2Proof.Machine.execHello port h s
  | .credit port vc count => Sys2Proof.Machine.execCredit port vc count s
  | .retrain port => Sys2Proof.Machine.execRetrain port s
  | .disable port => Sys2Proof.Machine.execDisable port s
  | .enable port => Sys2Proof.Machine.execEnable port s
  | .engineBlockDispatch engine => Sys2Proof.Machine.execEngineBlockDispatch engine s
  | .outputBlockDrain engine badColumns => Sys2Proof.Machine.execOutputBlockDrain engine badColumns s
  | .ringEnable ld ring stamp => Sys2Proof.Machine.execRingEnable ld ring stamp s
  | .ringDisable ld ring => Sys2Proof.Machine.execRingDisable ld ring s
  | .sqDoorbell ld ring tail dmwr stamp => Sys2Proof.Machine.execSqDoorbell ld ring tail dmwr stamp s
  | .cqDoorbell ld ring head dmwr => Sys2Proof.Machine.execCqDoorbell ld ring head dmwr s
  | .descriptorTake => Sys2Proof.Machine.execDescriptorTake s
  | .copy ringUnit ring sqIndex => Sys2Proof.Machine.execCopy ringUnit ring sqIndex s
  | .prefetch ringUnit ring sqIndex => Sys2Proof.Machine.execPrefetch ringUnit ring sqIndex s
  | .pin ringUnit ring sqIndex => Sys2Proof.Machine.execPin ringUnit ring sqIndex s
  | .unpin ringUnit ring sqIndex => Sys2Proof.Machine.execUnpin ringUnit ring sqIndex s
  | .migrate ringUnit ring sqIndex => Sys2Proof.Machine.execMigrate ringUnit ring sqIndex s
  | .gather ringUnit ring sqIndex => Sys2Proof.Machine.execGather ringUnit ring sqIndex s
  | .scatter ringUnit ring sqIndex => Sys2Proof.Machine.execScatter ringUnit ring sqIndex s
  | .gemm ringUnit ring sqIndex => Sys2Proof.Machine.execGemm ringUnit ring sqIndex s
  | .groupedGemm ringUnit ring sqIndex => Sys2Proof.Machine.execGroupedGemm ringUnit ring sqIndex s
  | .expertRoute ringUnit ring sqIndex => Sys2Proof.Machine.execExpertRoute ringUnit ring sqIndex s
  | .expertFfn ringUnit ring sqIndex => Sys2Proof.Machine.execExpertFfn ringUnit ring sqIndex s
  | .reduceExact ringUnit ring sqIndex => Sys2Proof.Machine.execReduceExact ringUnit ring sqIndex s
  | .checksum ringUnit ring sqIndex => Sys2Proof.Machine.execChecksum ringUnit ring sqIndex s
  | .exportCompressed ringUnit ring sqIndex => Sys2Proof.Machine.execExportCompressed ringUnit ring sqIndex s
  | .abort ringUnit ring sqIndex => Sys2Proof.Machine.execAbort ringUnit ring sqIndex s
  | .operatorTimeout ringUnit ring sqIndex => Sys2Proof.Machine.execOperatorTimeout ringUnit ring sqIndex s
  | .epochPrepare src epoch digest => Sys2Proof.Machine.execEpochPrepare src epoch digest s
  | .epochPrepared src epoch => Sys2Proof.Machine.execEpochPrepared src epoch s
  | .epochRefused src epoch code => Sys2Proof.Machine.execEpochRefused src epoch code s
  | .prepareTimeout => Sys2Proof.Machine.execPrepareTimeout s
  | .epochCommit src epoch ts => Sys2Proof.Machine.execEpochCommit src epoch ts s
  | .epochRollback src epoch => Sys2Proof.Machine.execEpochRollback src epoch s
  | .epochDone src epoch t => Sys2Proof.Machine.execEpochDone src epoch t s
  | .commitResendTimer => Sys2Proof.Machine.execCommitResendTimer s
  | .preparedResend => Sys2Proof.Machine.execPreparedResend s
  | .stagedSwitch => Sys2Proof.Machine.execStagedSwitch s
  | .migrationSettled => Sys2Proof.Machine.execMigrationSettled s
  | .powerControlTick regs => Sys2Proof.Machine.execPowerControlTick regs s
  | .comparatorTrip => Sys2Proof.Machine.execComparatorTrip s
  | .regulatorFault island status => Sys2Proof.Machine.execRegulatorFault island status s
  | .inputLost b => Sys2Proof.Machine.execInputLost b s
  | .inputRestored b => Sys2Proof.Machine.execInputRestored b s
  | .bothInputsLost => Sys2Proof.Machine.execBothInputsLost s
  | .standbyPowerApplied autoRestore => Sys2Proof.Machine.execStandbyPowerApplied autoRestore s
  | .start via => Sys2Proof.Machine.execStart via s
  | .drain via => Sys2Proof.Machine.execDrain via s
  | .drained => Sys2Proof.Machine.execDrained s
  | .resume => Sys2Proof.Machine.execResume s
  | .dormouse => Sys2Proof.Machine.execDormouse s
  | .wake via => Sys2Proof.Machine.execWake via s
  | .powerOff via => Sys2Proof.Machine.execPowerOff via s
  | .drainFaultTimeout => Sys2Proof.Machine.execDrainFaultTimeout s
  | .calendarCompare => Sys2Proof.Machine.execCalendarCompare s
  | .calendarTrimUpdate ppt => Sys2Proof.Machine.execCalendarTrimUpdate ppt s
  | .setCal via t => Sys2Proof.Machine.execSetCal via t s
  | .setUtc sec => Sys2Proof.Machine.execSetUtc sec s
  | .ptpMessage m => Sys2Proof.Machine.execPtpMessage m s
  | .historySample period samples => Sys2Proof.Machine.execHistorySample period samples s
  | .poweredHour => Sys2Proof.Machine.execPoweredHour s
  | .wearRecordWrite bay => Sys2Proof.Machine.execWearRecordWrite bay s
  | .coinCellRemoved => Sys2Proof.Machine.execCoinCellRemoved s
  | .displayRefresh => Sys2Proof.Machine.execDisplayRefresh s
  | .homeTimeout => Sys2Proof.Machine.execHomeTimeout s
  | .slide right => Sys2Proof.Machine.execSlide right s
  | .prev => Sys2Proof.Machine.execPrev s
  | .next => Sys2Proof.Machine.execNext s
  | .locate => Sys2Proof.Machine.execLocate s
  | .removeKey => Sys2Proof.Machine.execRemoveKey s
  | .adoptConfirmation => Sys2Proof.Machine.execAdoptConfirmation s
  | .confirm => Sys2Proof.Machine.execConfirm s
  | .stripRejection => Sys2Proof.Machine.execStripRejection s
  | .select held => Sys2Proof.Machine.execSelect held s
  | .ident => Sys2Proof.Machine.execIdent s
  | .locateExpired bay => Sys2Proof.Machine.execLocateExpired bay s
  | .hold => Sys2Proof.Machine.execHold s
  | .switchTurn position => Sys2Proof.Machine.execSwitchTurn position s
  | .coverOpened => Sys2Proof.Machine.execCoverOpened s
  | .coverClosed => Sys2Proof.Machine.execCoverClosed s
  | .identOn via => Sys2Proof.Machine.execIdentOn via s
  | .identOff via => Sys2Proof.Machine.execIdentOff via s
  | .bayLocate bay => Sys2Proof.Machine.execBayLocate bay s
  | .refresh => Sys2Proof.Machine.execRefresh s
  | .eventMergeWindow code scopeKind scopeIdx tenant => Sys2Proof.Machine.execEventMergeWindow code scopeKind scopeIdx tenant s
  | .faultResume => Sys2Proof.Machine.execFaultResume s
  | .fltLdTailWrite ld val => Sys2Proof.Machine.execFltLdTailWrite ld val s
  | .dreyReleased bay => Sys2Proof.Machine.execDreyReleased bay s
  | .lifCalReadLow rq => Sys2Proof.Machine.execLifCalReadLow rq s
  | .rootRecord src r => Sys2Proof.Machine.execRootRecord src r s

end Sys2Proof.Machine
end

