-- ==== Sys2Proof/Machine/Tick.lean ====
section
/-! DEFINITION. The passage of time while no command waits. -/

namespace Sys2Proof.Machine

/-- One nanosecond passes (R27, R80, R382): the timebase once it is loaded, the start-up interval counter until then while the
unit has power, and a valid calendar. DESIGN CHOICE (log entry 2). -/
def tick (s : State) : Host.Outcome State Fault Refusal :=
  .next { s with
    mon := { s.mon with timebase := if s.mon.loaded then s.mon.timebase + 1 else s.mon.timebase }
    uni := { s.uni with interval := if !s.mon.loaded && s.uni.st != .off then s.uni.interval + 1 else s.uni.interval }
    lif := { s.lif with
      cal := if s.lif.calValid then s.lif.cal + 1 else s.lif.cal
      calValid := s.lif.calValid && calInRange (s.lif.cal + 1) } }

end Sys2Proof.Machine
end

