-- ==== Sys2Proof/Safety.lean ====
section
/-! DEFINITION. What a safe run keeps, in the terms the claims use: the canonical form of every memory, the fuse bits that are
blown (R37), the queue of waiting commands, and the blocks of the state that a command leaves as they are. -/

namespace Sys2Proof.Safety

open Sys2Proof.Machine

/-- Every byte memory of the block is in its canonical form: the fuse command buffer, the load buffer, the DRAM tier, and the
standard's pages of every LD. -/
def memoriesOk (s : State) : Prop :=
  memWf s.fus.buf = true ∧ memWf s.vq.buf = true ∧ memWf s.drt.tier = true ∧ ∀ p ∈ s.hst.lds, memWf p.2.pages = true

/-- Every fuse bit blown in `a` is blown in `b` (R37: blowing can only restrict; no bit is ever unblown). -/
def fusesKept (a b : Fus) : Prop := ∀ w i, (fuseBits a w).getLsbD i = true → (fuseBits b w).getLsbD i = true

/-- The blocks of the state, one per field of `State` but the queue. -/
inductive Block where
  | uni | fus | vq | mon | pwr | hst | mbx | ext | cdc | drt | hrd | wrn | eng | opq | lif | pnl | flt | out | free
deriving DecidableEq, Repr

/-- A block is the same in both states. -/
def Block.same (s t : State) : Block → Prop
  | .uni => t.uni = s.uni
  | .fus => t.fus = s.fus
  | .vq => t.vq = s.vq
  | .mon => t.mon = s.mon
  | .pwr => t.pwr = s.pwr
  | .hst => t.hst = s.hst
  | .mbx => t.mbx = s.mbx
  | .ext => t.ext = s.ext
  | .cdc => t.cdc = s.cdc
  | .drt => t.drt = s.drt
  | .hrd => t.hrd = s.hrd
  | .wrn => t.wrn = s.wrn
  | .eng => t.eng = s.eng
  | .opq => t.opq = s.opq
  | .lif => t.lif = s.lif
  | .pnl => t.pnl = s.pnl
  | .flt => t.flt = s.flt
  | .out => t.out = s.out
  | .free => t.free = s.free

/-- The list `c` has every block of `a`. -/
def covers (a c : List Block) : Bool := a.all c.contains

/-- What every command keeps from `s` to `t`: the waiting commands, the memories' form, the blown fuse bits, and every block
that is not in `c`. -/
structure Kept (c : List Block) (s t : State) : Prop where
  queue : t.pending = s.pending
  memories : memoriesOk s → memoriesOk t
  fuses : fusesKept s.fus t.fus
  frame : ∀ b, b ∉ c → b.same s t

/-- The blocks that a command can change: every other block is left as it is. -/
def footprint : Instr → List Block
  | .inputRestored .. =>
    [.pwr]
  | .hdmDecoderCommit .. | .ideKeyProgramming .. =>
    [.hst]
  | .writebackComplete .. =>
    [.cdc]
  | .dataRateChange .. =>
    [.drt]
  | .flashReclaim .. | .weightedAgeTick .. | .approve .. | .evacuate .. | .adopt .. | .adoptLapse .. =>
    [.hrd]
  | .enable .. =>
    [.wrn]
  | .ringEnable .. | .ringDisable .. =>
    [.opq]
  | .calendarCompare | .calendarTrimUpdate .. | .setUtc .. | .coinCellRemoved =>
    [.lif]
  | .displayRefresh | .homeTimeout | .slide .. | .prev | .next | .locate | .confirm | .stripRejection | .select .. | .ident
  | .locateExpired .. | .coverClosed | .identOn .. | .identOff .. | .bayLocate .. | .refresh =>
    [.pnl]
  | .getLdInfo .. | .getLdAllocations .. | .setLdAllocations .. | .identifyMemoryDevice .. | .getSupportedLogs ..
  | .getLog .. | .getEventRecords .. | .getEventInterruptPolicy .. | .getPoisonList .. | .getDynamicCapacityConfiguration ..
  | .getTimestamp .. | .setTimestamp .. | .getFwInfo .. | .unsupportedMailboxCommand .. | .deferrableMemoryWrite .. =>
    [.out]
  | .monCtlWrite .. =>
    [.mon, .pwr]
  | .routeRestore .. =>
    [.mon, .wrn]
  | .monTimebaseReadLow .. =>
    [.mon, .out]
  | .linkRateLowering .. =>
    [.pwr, .hst]
  | .stackTempRead .. =>
    [.pwr, .drt]
  | .addDynamicCapacityResponse .. | .setEventInterruptPolicy .. =>
    [.hst, .out]
  | .dramAdmission .. | .refreshDeadline .. | .refreshOpportunity .. =>
    [.drt, .out]
  | .rootRecord .. =>
    [.hrd, .wrn]
  | .evacuationComplete .. =>
    [.hrd, .lif]
  | .bayButtonPress .. | .approvalTimeout .. | .removeKey | .adoptConfirmation =>
    [.hrd, .pnl]
  | .removalWindowExpired .. =>
    [.hrd, .out]
  | .grant .. | .bulkSlotFreed .. | .presenceProbeTimer .. | .timeSyncTimer | .delayReqTimer | .credit ..
  | .commitResendTimer | .preparedResend =>
    [.wrn, .out]
  | .engineBlockDispatch .. =>
    [.eng, .opq]
  | .lifCalReadLow .. =>
    [.lif, .out]
  | .clearEventRecords .. =>
    [.flt, .out]
  | .getHealthInfo .. =>
    [.out, .free]
  | .f2hDeferredEnqueue .. | .mailboxFault .. =>
    [.hst, .mbx, .out]
  | .linkDown .. | .ideCheckFail .. | .eventMergeWindow .. | .fltLdTailWrite .. =>
    [.hst, .flt, .out]
  | .spdmRequest .. =>
    [.hst, .out, .free]
  | .mbx .. =>
    [.mbx, .wrn, .out]
  | .chunkGet .. | .chunkPut .. | .checkpoint =>
    [.hrd, .wrn, .out]
  | .dreyInserted .. =>
    [.hrd, .lif, .out]
  | .switchTurn .. =>
    [.hrd, .pnl, .out]
  | .opFwdResend .. =>
    [.wrn, .opq, .out]
  | .engineKatTimer .. =>
    [.uni, .mon, .eng, .lif]
  | .dreyReleased .. =>
    [.pwr, .hrd, .lif, .out]
  | .adoptionComplete .. =>
    [.pwr, .hrd, .lif, .free]
  | .leaseGuardReached .. | .leaseExpiry .. =>
    [.hst, .mbx, .ext, .out]
  | .getDynamicCapacityExtentList .. | .mbxSend .. | .mbxSendHalf .. | .mbxDmwrPointer .. | .mbxDmwrWord .. | .mbxRecvPop ..
  | .mbxDbClear .. | .mbxDbMaskWrite .. =>
    [.hst, .mbx, .flt, .out]
  | .extOlogTailWrite .. =>
    [.hst, .ext, .flt, .out]
  | .wearRecordWrite .. =>
    [.hst, .hrd, .flt, .out]
  | .responseWatchdog .. | .reserve .. | .transitTimeout .. =>
    [.hst, .wrn, .flt, .out]
  | .sqDoorbell .. | .cqDoorbell .. =>
    [.hst, .opq, .flt, .out]
  | .historySample .. | .poweredHour =>
    [.hst, .lif, .flt, .out]
  | .coverOpened =>
    [.hst, .pnl, .flt, .out]
  | .engKatRun .. =>
    [.uni, .mon, .eng, .lif, .free]
  | .hoardScrub .. | .rebuildDelayExpired .. | .dreyPulled .. =>
    [.uni, .hst, .hrd, .flt, .out]
  | .imagePart .. =>
    [.vq, .hst, .wrn, .flt, .out]
  | .linkUp .. =>
    [.pwr, .hst, .mbx, .flt, .out]
  | .leaseGrantDue .. =>
    [.hst, .mbx, .ext, .wrn, .out]
  | .mbxAns .. =>
    [.hst, .mbx, .wrn, .flt, .out]
  | .hstLeaseRenew .. | .leaseRenew .. | .bisnp .. =>
    [.hst, .ext, .wrn, .flt, .out]
  | .standbyPowerApplied .. | .start .. =>
    [.uni, .pwr, .hst, .pnl, .flt, .out]
  | .chunkRebuild .. =>
    [.uni, .hst, .hrd, .wrn, .flt, .out]
  | .flashDieFailure .. =>
    [.uni, .hst, .hrd, .lif, .flt, .out]
  | .cablePlugged .. =>
    [.uni, .hst, .wrn, .lif, .flt, .out]
  | .epochPrepare .. | .prepareTimeout =>
    [.vq, .hst, .mbx, .wrn, .flt, .out]
  | .ptpMessage .. =>
    [.mon, .hst, .lif, .flt, .out, .free]
  | .leaseGrant .. =>
    [.hst, .mbx, .ext, .wrn, .flt, .out]
  | .readData .. =>
    [.hst, .cdc, .wrn, .opq, .flt, .out]
  | .dreyForcedOut .. | .dormouse =>
    [.uni, .pwr, .hst, .hrd, .lif, .flt, .out]
  | .phaseBound .. | .drainFaultTimeout =>
    [.uni, .pwr, .hst, .eng, .opq, .flt, .out]
  | .setOwner .. | .programSlot .. | .revokeSlot .. | .revokeSlotDeferred | .advanceArb .. | .tightenDebug ..
  | .programPolicy .. | .fuseSeal .. | .retire .. | .debugUnlock .. =>
    [.fus, .hst, .hrd, .lif, .flt, .out, .free]
  | .stripWriteback .. =>
    [.pwr, .hst, .cdc, .drt, .hrd, .flt, .out]
  | .shrewCoreFailure .. =>
    [.uni, .pwr, .hst, .eng, .opq, .lif, .flt, .out]
  | .compaction .. =>
    [.pwr, .hst, .cdc, .drt, .hrd, .wrn, .flt, .out]
  | .tempSensorConversion .. | .voltageMonitorConversion .. | .pacerWindow .. =>
    [.uni, .mon, .pwr, .hst, .eng, .opq, .lif, .flt, .out]
  | .codecKatTimer .. =>
    [.uni, .mon, .pwr, .hst, .cdc, .eng, .opq, .lif, .flt, .out]
  | .powerControlTick .. =>
    [.uni, .pwr, .hst, .drt, .eng, .opq, .lif, .flt, .out, .free]
  | .flitReceived .. | .replayTimeout .. | .portDown .. | .retrain .. | .disable .. =>
    [.mon, .pwr, .hst, .mbx, .cdc, .drt, .hrd, .wrn, .flt, .out]
  | .hostMemRead .. | .hostMemWrite .. | .injectPoison .. | .clearPoison .. | .unfreeze .. | .chunkAck ..
  | .chunkAckTimeout .. | .commitTimer .. | .read .. =>
    [.pwr, .hst, .ext, .cdc, .drt, .hrd, .wrn, .eng, .flt, .out]
  | .dramUnitComplete .. | .dramScrub .. | .drained =>
    [.uni, .pwr, .hst, .cdc, .drt, .hrd, .wrn, .eng, .opq, .flt, .out]
  | .presenceProbe .. | .presenceAnswer .. | .delayReq .. | .hello .. =>
    [.mon, .pwr, .hst, .mbx, .ext, .cdc, .drt, .hrd, .wrn, .flt, .out]
  | .opDone .. | .abort .. | .operatorTimeout .. =>
    [.pwr, .hst, .ext, .cdc, .drt, .hrd, .wrn, .eng, .opq, .flt, .out]
  | .laneFailure .. =>
    [.uni, .mon, .pwr, .hst, .mbx, .cdc, .drt, .hrd, .wrn, .lif, .flt, .out]
  | .dreyMounted .. =>
    [.uni, .pwr, .hst, .ext, .cdc, .drt, .hrd, .wrn, .eng, .lif, .flt, .out]
  | .sidRetireComplete =>
    [.uni, .pwr, .hst, .cdc, .drt, .hrd, .wrn, .eng, .opq, .lif, .flt, .out]
  | .opFwd .. =>
    [.mon, .pwr, .hst, .mbx, .ext, .cdc, .drt, .hrd, .wrn, .opq, .flt, .out]
  | .delayResp .. =>
    [.mon, .pwr, .hst, .mbx, .ext, .cdc, .drt, .hrd, .wrn, .flt, .out, .free]
  | .releaseDynamicCapacity .. | .releaseTimeout .. | .functionLevelReset .. | .hotReset .. | .sealComplete ..
  | .leaseReport .. | .release .. | .scrub .. | .scrubComplete .. =>
    [.pwr, .hst, .mbx, .ext, .cdc, .drt, .hrd, .wrn, .eng, .opq, .flt, .out]
  | .operandTileFetch .. | .hostBirsp .. | .biConflict .. | .write .. | .writeDone .. | .birsp .. | .outputBlockDrain ..
  | .descriptorTake | .copy .. | .prefetch .. | .pin .. | .unpin .. | .migrate .. | .gather .. | .scatter .. | .gemm ..
  | .groupedGemm .. | .expertRoute .. | .expertFfn .. | .reduceExact .. | .checksum .. | .exportCompressed .. =>
    [.pwr, .hst, .ext, .cdc, .drt, .hrd, .wrn, .eng, .opq, .flt, .out, .free]
  | .regulatorFault .. =>
    [.uni, .mon, .pwr, .hst, .mbx, .cdc, .drt, .hrd, .wrn, .eng, .opq, .flt, .out]
  | .paceScan .. | .poolRemapComplete =>
    [.uni, .pwr, .hst, .ext, .cdc, .drt, .hrd, .wrn, .eng, .opq, .lif, .flt, .out]
  | .fillBlockLanded .. | .ping .. | .leaseInfo .. | .extentState .. | .reserveLevels .. | .imageReq .. | .unknownOp ..
  | .sealExtent .. | .leaseReclaimTimer .. | .leaseReclaim .. | .chunkData .. | .chunkGetTimeout .. | .requestRetryTimer .. =>
    [.pwr, .hst, .mbx, .ext, .cdc, .drt, .hrd, .wrn, .eng, .opq, .flt, .out, .free]
  | .drain .. | .resume =>
    [.uni, .pwr, .hst, .mbx, .ext, .cdc, .drt, .hrd, .wrn, .eng, .opq, .flt, .out, .free]
  | .epochRollback .. | .epochDone .. =>
    [.vq, .pwr, .hst, .mbx, .ext, .cdc, .drt, .hrd, .wrn, .eng, .opq, .flt, .out, .free]
  | .unreachableTimeout .. =>
    [.mon, .pwr, .hst, .mbx, .ext, .cdc, .drt, .hrd, .wrn, .eng, .opq, .flt, .out, .free]
  | .firmwareRestartComplete | .migrationSettled =>
    [.uni, .vq, .pwr, .hst, .mbx, .ext, .cdc, .drt, .hrd, .wrn, .eng, .opq, .flt, .out, .free]
  | .sramRowError .. | .engineRepairComplete .. =>
    [.uni, .pwr, .hst, .mbx, .ext, .cdc, .drt, .hrd, .wrn, .eng, .opq, .lif, .flt, .out, .free]
  | .hold =>
    [.uni, .pwr, .hst, .mbx, .ext, .cdc, .drt, .hrd, .wrn, .eng, .opq, .pnl, .flt, .out, .free]
  | .vqCtlAbort .. | .epochPrepared .. | .epochRefused .. | .epochCommit .. | .stagedSwitch =>
    [.uni, .vq, .mon, .pwr, .hst, .mbx, .ext, .cdc, .drt, .hrd, .wrn, .eng, .opq, .flt, .out, .free]
  | .validate .. | .update .. | .nextStart .. | .loadModeRefused .. | .redfishImageAction .. | .distributionTimeout
  | .imageVerdict .. | .wake .. =>
    [.uni, .vq, .mon, .pwr, .hst, .mbx, .ext, .cdc, .drt, .hrd, .wrn, .eng, .opq, .pnl, .flt, .out, .free]
  | .comparatorTrip | .powerOff .. =>
    [.uni, .fus, .vq, .mon, .pwr, .hst, .mbx, .ext, .cdc, .drt, .hrd, .wrn, .eng, .opq, .lif, .flt, .out, .free]
  | .timeSync .. | .setCal .. | .faultResume =>
    [.uni, .vq, .mon, .pwr, .hst, .mbx, .ext, .cdc, .drt, .hrd, .wrn, .eng, .opq, .lif, .pnl, .flt, .out, .free]
  | .registerWrite .. | .registerAccessRefused .. | .islandOffAccess .. | .coldStart .. | .firmwareRestart | .inputLost ..
  | .bothInputsLost =>
    [.uni, .fus, .vq, .mon, .pwr, .hst, .mbx, .ext, .cdc, .drt, .hrd, .wrn, .eng, .opq, .lif, .pnl, .flt, .out, .free]

/-- A merge window is open for an event: its code, tenant and scope (R418). -/
def noted (s : State) (code tenant kind idx : Nat) : Prop :=
  ∃ x ∈ s.flt.opened, x.code = code ∧ x.tenant = tenant ∧ x.scopeKind = kind ∧ x.scopeIdx = idx

/-- A command answers a next state, which has a property. -/
def Answers (i : Instr) (s : State) (P : State → Prop) : Prop := ∃ t, exec i s = .next t ∧ P t

/-- Every condition of R41 but the two signatures holds for a fuse command: no command is running, and the format, die, nonce,
state, owner, payload values and presence are in order. -/
def fuseReady (s : State) (code : Nat) (c : FuseCmd) : Bool :=
  !s.fus.busy && fuseFormatOk code c && c.dieLo == dieLo s.fus && c.dieHi == dieHi s.fus && c.nonce == s.fus.nonce &&
    fuseStateOk s code && fuseOwnerOk s code c && fuseValueStatus s.fus code c == 0 && (!fuseNeedsService code || s.pnl.switch == 2)

/-- What a fuse command that is ready does: with a bad signature its status is SIG and no fuse changes; else its status is OK, and
then `effect` holds, or PROGRAM_FAIL. The nonce is drawn anew either way (R42). -/
def FuseDone (s : State) (code : Nat) (c : FuseCmd) (effect : State → Prop) (t : State) : Prop :=
  t.fus.busy = false ∧ (∃ n, t.fus.nonce = Config.entropy n) ∧
  (fuseSigOk code c = false → t.fus.status = 6 ∧ t.fus.words = s.fus.words ∧ noted t 0x0103 0 0 0) ∧
  (fuseSigOk code c = true → t.fus.status = 0 ∧ effect t ∨ t.fus.status = 11 ∧ noted t 0x0103 0 0 0)

/-! ### Where a command runs its own effect -/

/-- The extent and the tier address of the block that a host's CXL.mem access reaches when it is served at once: the unit serves the
link, the LD has accepted an extent that covers the address, the lease window holds, the extent's state allows the access, this
unit serves the granule, and the block has landed. -/
def takenAt (s : State) (ld dpa : Nat) (stamp : Ns) (isWrite : Bool) : Option (ExtRec × Nat) :=
  if (s.uni.st = .serving ∨ s.uni.st = .draining) ∧ ideOk s (ld / 16) = true then
    match ldTenant s ld, acceptedAt s ld dpa with
    | some t, some (e, g, rd) =>
      let st := (extSt s e.id).st
      if inWindow s t stamp && (if isWrite then !rd && (st == 1 || st == 6) else readOk st rd) then
        match servedHereAs s e g false with
        | some e => (landedAddr s e g (dpa % 2 ^ 50 / 32768) (dpa % 2 ^ 50 / 4096 % 8)).map fun a => (e, a)
        | none => none
      else none
    | _, _ => none
  else none

/-- A message is on its way to a unit: on a link, or waiting for its port. -/
def sentTo (t : State) (dst : Nat) (m : Msg) : Prop :=
  ∃ e : Envelope, e.dst = dst ∧ e.msg = m ∧ ((∃ n, Out.warren n e ∈ t.out) ∨ ∃ w ∈ t.wrn.transit, w.env = e)

/-- Nothing waits for a block to land: no request, snoop answer, reclaim, release, tile to be packed again or ring record. -/
def nothingWaits (s : State) : Bool :=
  s.hst.reqs.isEmpty && s.ext.owedPoison.isEmpty && s.ext.heldRsp.isEmpty && s.ext.conflicts.isEmpty
    && !(s.ext.leases.any (·.2.owed)) && !(s.ext.exts.any (·.2.st == 6)) && s.hrd.repack.isEmpty && s.opq.waiting.isEmpty
    && s.opq.rings.isEmpty

/-- No reclaim waits to be delivered to a unit (R165). -/
def nothingOwedTo (s : State) (u : Nat) : Bool := !(s.ext.leases.any fun p => p.2.undelivered.contains u)

/-- The extent and the tier address of the block that a forwarded access reaches when it is served at once. -/
def peerTakenAt (s : State) (src tag tenant addr : Nat) (stamp : Ns) (isWrite : Bool) : Option (ExtRec × Nat) :=
  if unitServes s = true ∧ srcOk s src = true ∧ dupOf s src tag = none ∧ nothingOwedTo s src = true ∧ inWindow s tenant stamp = true then
    match extFor s tenant addr with
    | some (e, g, rd) =>
      let st := (extSt s e.id).st
      if (if isWrite then !rd && (st == 1 || st == 6) else readOk st rd) then
        match servedHereAs s e g true with
        | some e => (landedAddr s e g (addr / 32768) (addr / 4096 % 8)).map fun a => (e, a)
        | none => none
      else none
    | none => none
  else none

/-- A line as an agent reads it: its bytes and its poison, when this unit serves it, its block has landed and it reads without
fault. -/
def lineAt (s : State) (tenant addr : Nat) : Option (List Byte × Bool) :=
  match ownExt s tenant addr with
  | none => none
  | some (e, g) =>
    match landedAddr s e g (addr / 32768) (addr / 4096 % 8) with
    | none => none
    | some a =>
      match readLine s e.tenant (addr / 4096) a (addr / 64 % 64) with
      | .data l p => some (if p then List.replicate 64 0 else padTo 64 0 l, p)
      | .fault _ => none

/-- A line that an agent may write in place: this unit serves it, its extent takes writes, its strip is staged, and it is not
poisoned. -/
def stagedHere (s : State) (tenant addr : Nat) : Bool :=
  match extAt (extView s) tenant addr with
  | some (e, g) =>
    decide (ownExt s tenant addr = some (e, g)) && e.tenant == tenant && writeOk s e.id (now s) false &&
      (match stgFind s.cdc tenant (addr / 4096) with
        | some y => (stripOf y (addr / 512 % 8)).present && y.data.length == 4096
        | none => false) && (lineAt s tenant addr).any fun l => !l.2
  | none => false

/-- Lines that an operator may copy at once, given as source and destination addresses. -/
def copyable (s : State) (tenant : Nat) (l : List (Nat × Nat)) : Bool :=
  l.all fun p => p.1 % 64 == 0 && p.2 % 64 == 0 && (lineAt s tenant p.1).isSome && rangeReady s tenant p.1 64 false &&
    stagedHere s tenant p.2 && rangeReady s tenant p.2 64 true && l.all fun q => p.1 / 4096 != q.2 / 4096

/-- An operator of another unit's ring that runs here alone, with its checks made and its gate not reached. -/
def runsAlone (s : State) (o : Op) : Prop :=
  s.opq.ops = [o] ∧ s.opq.intake = [] ∧ s.opq.fwd = [] ∧ o.checked = true ∧ o.gate = 0 ∧ o.writes = [] ∧ opRuns s o = true ∧
    o.ringUnit ≠ me s ∧ (outPort s o.ringUnit).isSome = true ∧ o.ringUnit ∉ s.wrn.unreachable

/-- An operator has ended: it has left, and its record, with a status, a detail and two results, is on its way to its ring. -/
def ended (t : State) (o : Op) (status detail r0 r1 : Nat) : Prop :=
  t.opq.ops = [] ∧ ∃ rcd : List Byte, sentTo t o.ringUnit (.opDone rcd) ∧ rcd.length = 64 ∧ fld rcd 0 4 = descTag o.desc ∧
    fld rcd 8 1 = descOp o.desc ∧ fld rcd 9 1 = status ∧ fld rcd 10 1 = detail ∧ fld rcd 16 8 = r0 % 2 ^ 64 ∧ fld rcd 24 8 = r1 % 2 ^ 64

/-- The lines of the tiles of one band of an operand, as an agent reads them. -/
def bandHere (s : State) (tenant base fmt k band : Nat) : List (List (List Byte × Bool)) :=
  (List.range (cdiv k (256 / inputSize fmt))).map fun slice =>
    (rangeLines (operandTile base fmt k band slice) 32768).map fun n => (lineAt s tenant (64 * n)).getD ([], false)

end Sys2Proof.Safety
end

