-- ==== Sys2Proof/Certificates/Slice0/Obligations.lean ====
section
/-! DEFINITION. What is claimed of the model: one definition for each statement, with its rules of spec/ in its docstring. -/

open Sys2Proof Sys2Proof.Machine Sys2Proof.Safety

/-- A step runs the command at the front of the queue (opcode_table.json). For every command and state, the step of the state
with that command at the front of its queue is the command's effect on the state with the queue's rest. -/
def Obligations.StepRunsFrontCommand : Prop :=
  ∀ (c : Instr) (s : State), step { s with pending := c :: s.pending } = exec c s

/-- A step with no command waiting lets one nanosecond pass (R27, log entry 2). With an empty queue a step answers a next state
in which a loaded timebase and a valid calendar that stays in range are one nanosecond later, the start-up interval counter
counts while the timebase is not loaded and the unit has power, and every block but MON, UNI and LIF is as it was. That a step
idles for one nanosecond is the model's choice (log entry 2); that the timebase counts nanoseconds is R27. -/
def Obligations.IdleStepIsOneNanosecond : Prop :=
  ∀ s : State, s.pending = [] → ∃ t, step s = .next t ∧
    t.mon = { s.mon with timebase := if s.mon.loaded then s.mon.timebase + 1 else s.mon.timebase } ∧
    t.uni = { s.uni with interval := if s.mon.loaded = false ∧ s.uni.st ≠ .off then s.uni.interval + 1 else s.uni.interval } ∧
    (s.lif.calValid = true → t.lif.cal = s.lif.cal + 1) ∧ (s.lif.calValid = false → t.lif = s.lif) ∧
    (∀ b : Block, b ∉ [Block.mon, .uni, .lif] → b.same s t) ∧ t.pending = []

/-- Every command, in every state, answers a next state and leaves the commands behind it waiting as they are
(opcode_table.json). No command of the table faults or is refused in any state: its effect is always a next state, and the queue
of waiting commands after it is the queue before it. -/
def Obligations.EveryCommandAnswers : Prop :=
  ∀ (c : Instr) (s : State), Answers c s fun t => t.pending = s.pending

/-- The frame of every command: blocks outside its footprint are left as they are (R97, R55, R73, R33, R381, R125, R412). For
every command and state, each block of the state (a block of the register map with its stores and queues, what has been sent,
the free-value counter) that is not in the command's footprint is the same in the next state. The footprints are the definition
footprint. -/
def Obligations.CommandsChangeOnlyTheirBlocks : Prop :=
  ∀ (c : Instr) (s t : State), exec c s = .next t → ∀ b : Block, b ∉ footprint c → b.same s t

/-- Every step keeps the canonical form of every byte memory (R56, R73, R174). If the fuse command buffer, the load buffer, the
DRAM tier and the pages of every LD are in canonical form (addresses rising, no entry equal to what an unlisted address reads
as) then they are after any step. -/
def Obligations.MemoriesKept : Prop :=
  ∀ s t : State, memoriesOk s → step s = .next t → memoriesOk t

/-- A blown fuse bit stays blown through every step (R37, R40). For every state and step, each fuse bit that reads blown before
the step reads blown after it: blowing can only restrict. -/
def Obligations.FusesNeverUnblown : Prop :=
  ∀ s t : State, step s = .next t → ∀ w i, (fuseBits s.fus w).getLsbD i = true → (fuseBits t.fus w).getLsbD i = true

/-- No step moves the lifecycle or the anti-rollback counter back, or clears a revocation or a debug policy bit (R37, R40, R47,
R48). After any step the lifecycle code and the anti-rollback counter are at least what they were, and each slot revocation bit
and each debug policy bit that was set is still set. -/
def Obligations.LifecycleAndCounterNeverGoBack : Prop :=
  ∀ s t : State, step s = .next t →
    lifecycle s.fus ≤ lifecycle t.fus ∧ arb s.fus ≤ arb t.fus ∧
    (∀ k < 4, bit (slotsRevoked s.fus) k = true → bit (slotsRevoked t.fus) k = true) ∧
    (∀ b < 16, bit (debugPolicy s.fus) b = true → bit (debugPolicy t.fus) b = true)

/-- The state at reset has the values the spec states, and its byte memories their canonical form (R27, R33, R37, R97, R381,
R365, R125). At reset UNI_STATE reads STARTING in phase 1 with FAIL_PHASE 0, UNI_REPAIR.RETEST and UNI_START read 0,
PWR_POLICY.AUTO_START reads 1, the timebase is 0 and not loaded, every monitor reads VALID 0, MON_ALERT, MON_CTL and RATE_PPB
read 0, and every fuse word but 0 and 6 reads unblown (the fuses at reset are a choice of the model, log entry 7). No command
waits, and every byte memory has the canonical form that each step keeps. -/
def Obligations.ResetAsSpecified : Prop :=
  let s := State.reset
  s.uni.st = .starting ∧ s.uni.phase = 1 ∧ s.uni.failPhase = 0 ∧ s.uni.retest = false ∧ s.uni.durationMs = 0 ∧ s.uni.cause = 0 ∧
  s.uni.imageUsed = 0 ∧ s.uni.nextCode = 0 ∧ s.pwr.autoStart = true ∧ s.mon.timebase = 0 ∧ s.mon.loaded = false ∧
  (∀ n, (tget {} s.mon.ts n).valid = false ∧ (tget {} s.mon.vm n).valid = false ∧ (tget {} s.mon.pc n).valid = false) ∧
  s.mon.alert = 0 ∧ s.mon.peakEpoch = 0 ∧ s.mon.ratePpb = 0 ∧ s.mon.locked = false ∧ s.mon.disciplined = false ∧
  (∀ w, w ≠ 0 → w ≠ 6 → fuseBits s.fus w = 0) ∧ s.pending = [] ∧ memoriesOk s

/-- Gestures and buttons move the panel's page, focus and locate lights, each for its time, and nothing else (R399, R401, R403,
R412, R413). In every state but OFF: a refresh draws the display with the calendar minute; 120 s after the last touch the page
returns to HOME, and not before; in SERVING with the switch away from SERVICE a slide moves between the seven pages with wrap-
around; PREV, NEXT and a press of SELECT move the focus over the 16 bays of BAYS with wrap-around (a choice of the model, log
entry 39); SELECT held returns to HOME; a strip rejection is counted. The display follows each of them, and no other block
changes. Likewise IDENT turns the unit's locate on from the button, or off where it is on, and PNL_LAST records it; IDENT_ON by
the register or by Redfish starts it with its source and IDENT_OFF ends it; LOCATE on HOME locates the unit and on BAYS the bay
in focus; BAY_LOCATE gives a bay the locate pattern; each request lasts the IDENT duration of the PANEL record from now, and
LOCATE_EXPIRED ends it once that has passed and not before; REFRESH draws the display. Only the panel block changes. -/
def Obligations.PanelPagesAndLocateLights : Prop :=
  (∀ s : State, s.uni.st ≠ .off →
      let drawn (p : Pnl) : State := { s with pnl := { p with lastTouch := now s, refreshed := calMinutes s } }
      exec .displayRefresh s = .next { s with pnl := { s.pnl with refreshed := calMinutes s } } ∧
      (s.pnl.lastTouch + 120 * secNs ≤ now s →
        exec .homeTimeout s = .next { s with pnl := { s.pnl with page := 0, focus := 0, refreshed := calMinutes s } }) ∧
      (now s < s.pnl.lastTouch + 120 * secNs → exec .homeTimeout s = .next s) ∧
      (s.uni.st = .serving → s.pnl.switch ≠ 2 → s.pnl.page < 7 →
        exec (.slide true) s = .next (drawn { s.pnl with page := (s.pnl.page + 1) % 7, focus := 0 }) ∧
        exec (.slide false) s = .next (drawn { s.pnl with page := (s.pnl.page + 6) % 7, focus := 0 })) ∧
      (s.uni.st = .serving → s.pnl.page = 1 →
        exec .prev s = .next (drawn { s.pnl with focus := (s.pnl.focus + 15) % 16 }) ∧
        exec .next s = .next (drawn { s.pnl with focus := (s.pnl.focus + 1) % 16 }) ∧
        exec (.select false) s = .next (drawn { s.pnl with focus := (s.pnl.focus + 1) % 16 })) ∧
      exec (.select true) s = .next (drawn { s.pnl with page := 0, focus := 0 }) ∧
      exec .stripRejection s = .next { s with pnl := { s.pnl with rejected := min (s.pnl.rejected + 1) 65535 } }) ∧
  (∀ s : State, s.uni.st ≠ .off →
      let d : Ns := panIdent (liveView s) (me s) * secNs
      let last (p : Pnl) : Pnl := { p with lastAction := 7, lastBay := 0, lastResult := 0, lastTime := calMinutes s }
      let drawn (p : Pnl) : State := { s with pnl := { p with lastTouch := now s, refreshed := calMinutes s } }
      (s.pnl.identOn = false → exec .ident s = .next (drawn (last { s.pnl with identOn := true, identSource := 0, identUntil := now s + d }))) ∧
      (s.pnl.identOn = true → exec .ident s = .next (drawn (last { s.pnl with identOn := false }))) ∧
      exec (.identOn .register) s = .next { s with pnl := { s.pnl with action := 1, identOn := true, identSource := 1, identUntil := now s + d } } ∧
      exec (.identOn .redfish) s = .next { s with pnl := { s.pnl with identOn := true, identSource := 2, identUntil := now s + d } } ∧
      exec (.identOff .register) s = .next { s with pnl := { s.pnl with action := 2, identOn := false } } ∧
      exec (.identOff .redfish) s = .next { s with pnl := { s.pnl with identOn := false } } ∧
      (s.pnl.page = 0 → exec .locate s = .next (drawn { s.pnl with identOn := true, identSource := 0, identUntil := now s + d })) ∧
      (s.uni.st = .serving → s.pnl.page = 1 →
        exec .locate s = .next (drawn { s.pnl with bayOn := true, bay := s.pnl.focus % 16, bayUntil := now s + d })) ∧
      (∀ b < 16, exec (.bayLocate b) s =
        .next { s with pnl := { s.pnl with action := 3, cmdBay := b, bayOn := true, bay := b, bayUntil := now s + d } }) ∧
      (s.pnl.identUntil ≤ now s → exec (.locateExpired false) s = .next { s with pnl := { s.pnl with identOn := false } }) ∧
      (now s < s.pnl.identUntil → exec (.locateExpired false) s = .next s) ∧
      (s.pnl.bayUntil ≤ now s → exec (.locateExpired true) s = .next { s with pnl := { s.pnl with bayOn := false } }) ∧
      (now s < s.pnl.bayUntil → exec (.locateExpired true) s = .next s) ∧
      exec .refresh s = .next { s with pnl := { s.pnl with action := 4, refreshed := calMinutes s } })

/-- HOLD, CONFIRM, the service switch and the cover (R403, R404, R406, R410, R411, R425). HOLD at LOCKED is refused: PNL_LAST
records result 1, the refusal is counted, and the unit state stays; from SERVING or DRAINING, away from LOCKED, it enters HELD
by HOLD and counts; during STARTING it is kept for the end of the start. CONFIRM on SERVICE at SERVICE with a marked next image
approves that image's digest. A turn of the switch sets its position; a turn away from SERVICE clears the panel half of every
adoption. Opening a closed cover is recorded as event 0x0F01 and shown; closing it ends that. -/
def Obligations.SwitchHoldAndCover : Prop :=
  (∀ s : State, s.uni.st ≠ .off → s.pnl.switch = 0 → Answers .hold s fun t =>
      t.uni = s.uni ∧ t.pnl.lastResult = 1 ∧ t.pnl.holds = s.pnl.holds ∧ t.pnl.refused = min (s.pnl.refused + 1) 65535) ∧
  (∀ s : State, s.uni.st = .serving ∨ s.uni.st = .draining → s.pnl.switch ≠ 0 → Answers .hold s fun t =>
      t.uni.st = .held ∧ t.uni.beforeHold = s.uni.st ∧ t.flt.byHold = true ∧ t.flt.byFault = false ∧
      t.pnl.lastAction = 1 ∧ t.pnl.lastResult = 0 ∧ t.pnl.holds = min (s.pnl.holds + 1) 65535) ∧
  (∀ s : State, s.uni.st = .starting → s.pnl.switch ≠ 0 → Answers .hold s fun t =>
      t.uni = { s.uni with holdWanted := true } ∧ t.pnl.lastResult = 0) ∧
  (∀ (s : State) (m : Image), s.uni.st = .serving → s.pnl.page = 7 → s.pnl.switch = 2 → otherBank s.vq = some m → s.vq.nextMarked = true →
    Answers .confirm s fun t => t.pnl.nextOk = true ∧ t.pnl.nextDigest = BitVec.ofNat 32 (leNat (m.digest.take 4)) ∧
      t.pnl.lastAction = 5 ∧ t.pnl.lastResult = 0) ∧
  (∀ (s : State) (p : Nat), p = 1 ∨ p = 2 → p ≠ s.pnl.switch → s.pnl.switch ≠ 2 →
    exec (.switchTurn p) s = .next { s with pnl := { s.pnl with switch := p } }) ∧
  (∀ s : State, s.pnl.switch = 2 → Answers (.switchTurn 1) s fun t =>
    t.pnl = { s.pnl with switch := 1 } ∧ ∀ b, bayOf t.hrd b = { bayOf s.hrd b with adoptPanel := none }) ∧
  (∀ s : State, s.pnl.switch = 2 → (∀ b < 16, (bayOf s.hrd b).st ≠ 8) → Answers (.switchTurn 0) s fun t =>
    t.pnl = { s.pnl with switch := 0 } ∧ ∀ b, (bayOf t.hrd b).adoptPanel = none) ∧
  (∀ s : State, s.uni.st ≠ .off → s.pnl.cover = false → Answers .coverOpened s fun t =>
    t.pnl = { s.pnl with cover := true } ∧ noted t 0x0F01 0 0 0) ∧
  (∀ s : State, exec .coverClosed s = .next { s with pnl := { s.pnl with cover := false } })

/-- The transitions between the unit states and the status of PWR_CMD (R374, R375, R378, R381, R425, R415). START takes STANDBY
to STARTING in phase 1 with the interval counter at 0. Input power takes OFF to STANDBY, and on to STARTING where power is to be
restored and AUTO_START is set. DRAIN takes SERVING to DRAINING. In DRAINING with no operator, no dirty strip, tile or directory
page and no event waiting, DRAINED sets PWR_STATE.DRAINED. RESUME takes DRAINING to SERVING. WAKE takes DORMOUSE to SERVING
where the image in force is absent or still valid. POWER_OFF takes a drained DRAINING unit, or a FAULTED one, to STANDBY. A
PWR_CMD done in its state ends with status 0 and one given in another state ends with status 1 and no other effect. A
DRAIN_FAULT that is due takes a powered unit to FAULTED, and not before. -/
def Obligations.UnitStateTransitions : Prop :=
  let refused (s : State) (a : Nat) : State := { s with pwr := { s.pwr with action := a, status := 1, busy := false } }
  let done (t : State) (a : Nat) : Prop := t.pwr.action = a ∧ t.pwr.status = 0 ∧ t.pwr.busy = false
  (∀ (s : State) (v : Via), s.uni.st = .standby → Answers (.start v) s fun t =>
    t.uni.st = .starting ∧ t.uni.phase = 1 ∧ t.uni.interval = 0 ∧ (v = .register → done t 6)) ∧
  (∀ s : State, s.uni.st ≠ .standby → exec (.start .register) s = .next (refused s 6)) ∧
  (∀ s : State, s.uni.st = .off → Answers (.standbyPowerApplied false) s fun t =>
    t.uni.st = .standby ∧ (t.pwr.inputA = true ∨ t.pwr.inputB = true)) ∧
  (∀ s : State, s.uni.st = .off → s.pwr.autoStart = true → Answers (.standbyPowerApplied true) s fun t =>
    t.uni.st = .starting ∧ t.uni.phase = 1) ∧
  (∀ (s : State) (v : Via), s.uni.st = .serving → Answers (.drain v) s fun t => t.uni.st = .draining ∧ (v = .register → done t 1)) ∧
  (∀ s : State, s.uni.st ≠ .serving → s.uni.st ≠ .held → exec (.drain .register) s = .next (refused s 1)) ∧
  (∀ s : State, s.uni.st = .draining → drainedNow s = true → s.hrd.dirtyPages = [] → s.uni.drainFaultDue = none →
    Answers .drained s fun t => t.pwr.drained = true ∧ t.uni = s.uni) ∧
  (∀ s : State, s.uni.st = .draining → Answers .resume s fun t => t.uni.st = .serving ∧ done t 2) ∧
  (∀ s : State, s.uni.st ≠ .draining → exec .resume s = .next (refused s 2)) ∧
  (∀ s : State, s.uni.st = .dormouse → startVerdict s s.vq.active = 0 → Answers (.wake .register) s fun t =>
    t.uni.st = .serving ∧ t.uni.cause = 2 ∧ done t 4) ∧
  (∀ s : State, s.uni.st ≠ .dormouse → exec (.wake .register) s = .next (refused s 4)) ∧
  (∀ (s : State) (v : Via), (s.uni.st = .draining ∧ s.pwr.drained = true) ∨ s.uni.st = .faulted → Answers (.powerOff v) s fun t =>
    t.uni.st = .standby ∧ (v = .register → done t 5)) ∧
  (∀ s : State, s.uni.st = .serving ∨ (s.uni.st = .draining ∧ s.pwr.drained = false) → exec (.powerOff .register) s = .next (refused s 5)) ∧
  (∀ (s : State) (d : Ns), s.uni.drainFaultDue = some d → d ≤ now s → s.uni.st = .draining → Answers .drainFaultTimeout s fun t =>
    t.uni.st = .faulted) ∧
  (∀ (s : State) (d : Ns), s.uni.drainFaultDue = some d → now s < d → exec .drainFaultTimeout s = .next s)

/-- Loss and return of input power, trips, regulator faults, and DORMOUSE (R371, R372, R376, R377, R380, R432, R374). The loss
of one input of two is recorded as event 0x0404 and leaves the unit state; the loss of the last, or of both, ends in OFF with
both inputs lost. A restored input is shown. A comparator trip of a powered unit counts and ends in STANDBY. A regulator fault
of island 0 to 6 turns that island off and ends in FAULTED. A stack temperature is recorded, and below 95 °C does no more.
DORMOUSE in DRAINING with no reason of Table 16.5 against it ends in DORMOUSE with status 0, counts, and every Drey's power off;
while the unit is not drained it is refused with REFUSE 1 and status 2; in another state its status is 1. -/
def Obligations.PowerInputsAndTrips : Prop :=
  (∀ s : State, s.uni.st = .serving → s.pwr.inputA = true → s.pwr.inputB = true →
    (Answers (.inputLost false) s fun t => t.pwr.inputA = false ∧ t.pwr.inputB = true ∧ t.uni = s.uni ∧ noted t 0x0404 0 0 0 ∧
      t.lif = { s.lif with lossesA := s.lif.lossesA + 1 }) ∧
    (Answers (.inputLost true) s fun t => t.pwr.inputA = true ∧ t.pwr.inputB = false ∧ t.uni = s.uni ∧ noted t 0x0404 0 0 0 ∧
      t.lif = { s.lif with lossesB := s.lif.lossesB + 1 })) ∧
  (∀ s : State, s.uni.st ≠ .off → s.pwr.inputA = true → s.pwr.inputB = false → Answers (.inputLost false) s fun t =>
    t.uni.st = .off ∧ t.pwr.inputA = false ∧ t.pwr.inputB = false) ∧
  (∀ s : State, s.uni.st ≠ .off → Answers .bothInputsLost s fun t => t.uni.st = .off ∧ t.pwr.inputA = false ∧ t.pwr.inputB = false) ∧
  (∀ s : State, exec (.inputRestored false) s = .next { s with pwr := { s.pwr with inputA := true } } ∧
    exec (.inputRestored true) s = .next { s with pwr := { s.pwr with inputB := true } }) ∧
  (∀ s : State, s.uni.st = .serving → Answers .comparatorTrip s fun t => t.uni.st = .standby ∧ t.lif.trips = min (s.lif.trips + 1) 65535) ∧
  (∀ (s : State) (i v : Nat), i < 7 → s.uni.st = .serving → Answers (.regulatorFault i v) s fun t =>
    t.uni.st = .faulted ∧ (islOf t i).on = false ∧ (islOf t i).limiter = 5 ∧ ∀ j < 8, j ≠ i → islOf t j = islOf s j) ∧
  (∀ (s : State) (k : Nat) (x : BitVec 16), k < 8 → s.uni.st = .serving → x.toInt < 95 * 64 →
    exec (.stackTempRead k x) s = .next { s with drt := { s.drt with stks := tset k { tget {} s.drt.stks k with temp := x } s.drt.stks } }) ∧
  (∀ s : State, s.uni.st = .draining → dormRefusal s = 0 → Answers .dormouse s fun t =>
    t.uni.st = .dormouse ∧ t.pwr.status = 0 ∧ t.pwr.refuse = 0 ∧ t.lif = { s.lif with dormice := min (s.lif.dormice + 1) 65535 } ∧
      t.pwr.drey = s.pwr.drey.map fun p => (p.1, p.2.1, false)) ∧
  (∀ s : State, s.uni.st = .draining → s.pwr.drained = false →
    exec .dormouse s = .next { s with pwr := { s.pwr with refuse := 1, action := 3, status := 2, busy := false } }) ∧
  (∀ s : State, s.uni.st ≠ .draining → exec .dormouse s = .next { s with pwr := { s.pwr with action := 3, status := 1, busy := false } })

/-- After every control period each powered island stands between its floor and its effective maximum (R26, R366, R367, R368,
R369, R370). In a state in which the control runs, the power control tick answers a next state in which the voltage of every
island that is on is at least the island's floor (or its effective maximum, where that is lower) and at most its effective
maximum, and an island that is off shows limiter 5. -/
def Obligations.VoltagesWithinBounds : Prop :=
  ∀ (s : State) (regs : List RegReading), s.uni.st = .serving → s.uni.restarting = false →
    Answers (.powerControlTick regs) s fun t => ∀ i < 8,
      ((islOf t i).on = true → islandLow t i ≤ (islOf t i).vset ∧ (islOf t i).vset ≤ islandCap t i) ∧
      ((islOf t i).on = false → (islOf t i).limiter = 5)

/-- The calendar: comparison with the timebase, trim, setting, powered hours, the coin cell, and its latched read (R383, R384,
R385, R386, R391, R397, R430). On a powered unit with its timebase loaded, away from the grandmaster's own clock, a calendar
that differs from the timebase by 1 µs or more is stepped to it and the step noted, and one that differs by less stays; a trim
is set. SET_CAL by the register with an invalid calendar, or in STANDBY, and a time in range sets the calendar with status 0;
with a valid calendar outside STANDBY its status is 1, and with a time out of range 2, and the calendar stays. SET_UTC stores a
count of 8 bits, and a greater one has status 2. A powered hour is counted, and in SERVING as a serving hour. The withdrawal of
the coin cell is noted, and in OFF the calendar becomes invalid. A read of the low half of LIF_CAL answers it and latches the
high half for its requester. -/
def Obligations.CalendarKeepsTime : Prop :=
  (∀ s : State, s.uni.st = .serving → s.mon.loaded = true → ownClock s = false →
    (1000 ≤ ((now s : Int) - s.lif.cal).natAbs → exec .calendarCompare s = .next { s with lif := { s.lif with
      cal := now s, calValid := calInRange (now s), steppedAt := some (now s), lastStep := ((now s : Int) - s.lif.cal).tdiv 1000 } }) ∧
    (((now s : Int) - s.lif.cal).natAbs < 1000 → exec .calendarCompare s = .next s) ∧
    (∀ p : Int, -2 ^ 31 ≤ p → p < 2 ^ 31 → exec (.calendarTrimUpdate p) s = .next { s with lif := { s.lif with trim := p } })) ∧
  (∀ (s : State) (t : Nat), s.uni.st ≠ .off →
    (s.lif.calValid = false ∨ s.uni.st = .standby → calInRange t = true → s.uni.waiting = none →
      exec (.setCal .register t) s = .next { s with lif := { s.lif with
        cal := t, calValid := true, action := 1, arg := BitVec.ofNat 64 t, status := 0, busy := false } }) ∧
    (s.lif.calValid = true → s.uni.st ≠ .standby → exec (.setCal .register t) s = .next { s with lif := { s.lif with
        action := 1, arg := BitVec.ofNat 64 t, status := 1, busy := false } }) ∧
    (s.lif.calValid = false → calInRange t = false → exec (.setCal .register t) s = .next { s with lif := { s.lif with
        action := 1, arg := BitVec.ofNat 64 t, status := 2, busy := false } })) ∧
  (∀ (s : State) (n : Nat), s.uni.st ≠ .off →
    (n < 256 → exec (.setUtc n) s = .next { s with lif := { s.lif with
      taiUtc := n, action := 2, arg := BitVec.ofNat 64 n, status := 0, busy := false } }) ∧
    (256 ≤ n → exec (.setUtc n) s = .next { s with lif := { s.lif with
      action := 2, arg := BitVec.ofNat 64 n, status := 2, busy := false } })) ∧
  (∀ s : State, s.uni.st = .serving → Answers .poweredHour s fun t =>
    t.lif.hours = min (s.lif.hours + 1) (2 ^ 32 - 1) ∧ t.lif.serving = min (s.lif.serving + 1) (2 ^ 32 - 1)) ∧
  (∀ s : State, s.uni.st ≠ .off → exec .coinCellRemoved s = .next { s with lif := { s.lif with coinOut := true } }) ∧
  (∀ s : State, s.uni.st = .off → exec .coinCellRemoved s = .next { s with lif := { s.lif with coinOut := true, calValid := false } }) ∧
  (∀ (s : State) (rq : Requester), Answers (.lifCalReadLow rq) s fun t =>
    t.out = .regRead rq 0x0E000000 (BitVec.ofNat 64 (s.lif.cal % 2 ^ 32)) :: s.out ∧
    latchGet rq t.lif.latch = some (BitVec.ofNat 32 (s.lif.cal / 2 ^ 32)) ∧
    (∀ q, q ≠ rq → latchGet q t.lif.latch = latchGet q s.lif.latch))

/-- PTP discipline within ±50 ppm, the histories, and the wear record of a mounted Drey (R27, R386, R389, R392, R243). At the
grandmaster under time source 1, a PTP offset within 10 ms locks PTP and disciplines the timebase by a rate of at most 50,000
parts in 10^9 against the offset (its size is a free value), a greater one is not followed and is reported once, an announcement
sets TAI_UTC, and a loss ends the discipline. A history sample of a period is the newest of each of the 58 histories of the
period, with its calendar minute, and a quantity without a sample holds none. After an hour of mounting the wear record counts
the hour, takes the next sequence and notes the time. -/
def Obligations.ClockDisciplineAndHistories : Prop :=
  (∀ (s : State) (d : Int), s.uni.st = .serving → amGm s = true → fabSource s.vq.active = 1 → s.mon.loaded = true →
    (d.natAbs ≤ 10 * msNs → s.lif.ptpFar = false → Answers (.ptpMessage (.sync d)) s fun t =>
      t.lif = { s.lif with ptpLock := true } ∧ t.mon.disciplined = true ∧ t.mon.timebase = s.mon.timebase ∧
      (d = 0 → t.mon.ratePpb = s.mon.ratePpb) ∧ (0 < d → -50000 ≤ t.mon.ratePpb ∧ t.mon.ratePpb ≤ 0) ∧
      (d < 0 → 0 ≤ t.mon.ratePpb ∧ t.mon.ratePpb ≤ 50000)) ∧
    (10 * msNs < d.natAbs → s.lif.ptpFar = false → Answers (.ptpMessage (.sync d)) s fun t =>
      t.lif = { s.lif with ptpLock := true, ptpFar := true } ∧ noted t 0x0EFF 0 0 0 ∧ t.mon.timebase = s.mon.timebase) ∧
    (∀ n < 256, exec (.ptpMessage (.announce n)) s = .next { s with lif := { s.lif with taiUtc := n } }) ∧
    exec (.ptpMessage .lost) s = .next { s with lif := { s.lif with ptpLock := false }, mon := { s.mon with disciplined := false } }) ∧
  (∀ (s : State) (p : Nat) (l : List (Nat × Nat)), p < 3 → s.uni.st ≠ .off → Answers (.historySample p l) s fun t =>
    ∀ q < 58, (tget [] t.lif.hist (64 * p + q)).head? = some ((l.find? fun x => x.1 == q).map fun x => x.2 % 2 ^ 16) ∧
      tget 0 t.lif.newest (64 * p + q) = calMinutes s) ∧
  (∀ (s : State) (b : Nat) (d : DreyId), b < 16 → s.uni.st = .serving → (bayOf s.hrd b).st = 3 → (bayOf s.hrd b).drey = some d →
    Answers (.wearRecordWrite b) s fun t => ∃ e, (bayOf t.hrd b).drey = some e ∧ e.hoursMounted = d.hoursMounted + 1 ∧
      e.wearSeq = d.wearSeq + 1 ∧ e.wearUpdate = now s ∧ e.serial = d.serial)

/-- Conversions of temperature sensors, voltage monitors and pacers, the latched timebase read, and MON_CTL (R29, R30, R31,
R33). In a powered state a conversion stores its reading with VALID set and takes the extremes in, both from the reading itself
where they restart, and leaves the other monitors of the kind; a monitor that fails to convert is marked FAILED, with its
island's bit of MON_ALERT and event 0x0301 for the island, and one that is FAILED already stays so; without main power nothing
converts. A read of the low half of MON_TIMEBASE answers it and latches the high half for its requester. A write of MON_CTL with
the same PEAK_EPOCH changes nothing; a different one is stored and restarts every extreme and the die power peak. -/
def Obligations.MonitorsConvertAndFail : Prop :=
  (∀ (s : State) (n : Nat) (r : BitVec 16), s.uni.st = .serving →
    let took (a b : Monitor) (k : Nat) : Prop := b.val = r ∧ b.valid = true ∧ b.restart = false ∧
      (a.restart = true ∨ a.valid = false → b.hi = r ∧ b.lo = r) ∧
      (a.restart = false → a.valid = true → monVal k r ≤ monVal k b.hi ∧ monVal k a.hi ≤ monVal k b.hi ∧
        monVal k b.lo ≤ monVal k r ∧ monVal k b.lo ≤ monVal k a.lo)
    (Answers (.tempSensorConversion n r true) s fun t => took (tget {} s.mon.ts n) (tget {} t.mon.ts n) 0 ∧
      (∀ m, m ≠ n → tget {} t.mon.ts m = tget {} s.mon.ts m) ∧ t.mon.vm = s.mon.vm ∧ t.mon.pc = s.mon.pc) ∧
    (Answers (.voltageMonitorConversion n r true) s fun t => took (tget {} s.mon.vm n) (tget {} t.mon.vm n) 1 ∧
      (∀ m, m ≠ n → tget {} t.mon.vm m = tget {} s.mon.vm m) ∧ t.mon.ts = s.mon.ts ∧ t.mon.pc = s.mon.pc) ∧
    (Answers (.pacerWindow n r true) s fun t => took (tget {} s.mon.pc n) (tget {} t.mon.pc n) 2 ∧
      (∀ m, m ≠ n → tget {} t.mon.pc m = tget {} s.mon.pc m) ∧ t.mon.ts = s.mon.ts ∧ t.mon.vm = s.mon.vm)) ∧
  (∀ (s : State) (n : Nat) (r : BitVec 16), s.uni.st = .serving →
    (n < 64 → (tget {} s.mon.ts n).failed = false → Answers (.tempSensorConversion n r false) s fun t =>
      (tget {} t.mon.ts n).failed = true ∧ t.mon.alert.getLsbD (n / 8) = true ∧ noted t 0x0301 0 6 (n / 8)) ∧
    (n < 32 → (tget {} s.mon.vm n).failed = false → Answers (.voltageMonitorConversion n r false) s fun t =>
      (tget {} t.mon.vm n).failed = true ∧ t.mon.alert.getLsbD (8 + n / 4) = true ∧ noted t 0x0301 0 6 (n / 4)) ∧
    (n < 256 → (tget {} s.mon.pc n).failed = false → Answers (.pacerWindow n r false) s fun t =>
      (tget {} t.mon.pc n).failed = true ∧ t.mon.alert.getLsbD (16 + n / 32) = true ∧ noted t 0x0301 0 6 (n / 32)) ∧
    ((tget {} s.mon.ts n).failed = true → exec (.tempSensorConversion n r false) s = .next s)) ∧
  (∀ (s : State) (n : Nat) (r : BitVec 16) (b : Bool), s.uni.st = .off ∨ s.uni.st = .standby →
    exec (.tempSensorConversion n r b) s = .next s ∧ exec (.voltageMonitorConversion n r b) s = .next s ∧
    exec (.pacerWindow n r b) s = .next s) ∧
  (∀ (s : State) (rq : Requester), Answers (.monTimebaseReadLow rq) s fun t =>
    t.out = .regRead rq 0x03000D08 (BitVec.ofNat 64 (s.mon.timebase % 2 ^ 32)) :: s.out ∧
    latchGet rq t.mon.latch = some (BitVec.ofNat 32 (s.mon.timebase / 2 ^ 32)) ∧
    (∀ q, q ≠ rq → latchGet q t.mon.latch = latchGet q s.mon.latch)) ∧
  (∀ (s : State) (v : Word), (v.setWidth 8 = s.mon.peakEpoch → exec (.monCtlWrite v) s = .next s) ∧
    (v.setWidth 8 ≠ s.mon.peakEpoch → Answers (.monCtlWrite v) s fun t =>
      t.mon.peakEpoch = v.setWidth 8 ∧ t.pwr = { s.pwr with peak := 0 } ∧
      ∀ n, (tget {} t.mon.ts n).restart = true ∧ (tget {} t.mon.vm n).restart = true ∧ (tget {} t.mon.pc n).restart = true))

/-- A fuse command whose conditions hold programs what it names, or reports why not (R41, R42, R45, R46, R47, R48, R51, R40).
For each of the nine fuse commands, when every condition of R41 but the signatures holds: with a bad signature the status is
SIG, no fuse changes and event 0x0103 is recorded; else the status is PROGRAM_FAIL with that event, or OK, and then the owner
hash or the signing slot reads back the value given, the slot reads revoked, the anti-rollback counter is at least the value,
the debug policy has the bits, the policy word has its value, the lifecycle is SEALED with the RWL values latched, or RETIRED
with no media key left that unwraps, or the debug bits are lifted. A new nonce is drawn in each case. -/
def Obligations.FuseCommandsProgram : Prop :=
  (∀ (s : State) (c : FuseCmd), fuseReady s 0x0010 c = true → Answers (.setOwner c) s (FuseDone s 0x0010 c fun t =>
    fuseHash t.fus 8 = fuseKeyHash c)) ∧
  (∀ (s : State) (c : FuseCmd), fuseReady s 0x0011 c = true → Answers (.programSlot c) s (FuseDone s 0x0011 c fun t =>
    fuseHash t.fus (18 + 6 * fld c.payload 0 1) = slice c.payload 8 48)) ∧
  (∀ (s : State) (c : FuseCmd), fuseReady s 0x0012 c = true → slotPrepared s (fld c.payload 0 1) = false →
    Answers (.revokeSlot c) s (FuseDone s 0x0012 c fun t => bit (slotsRevoked t.fus) (fld c.payload 0 1) = true)) ∧
  (∀ (s : State) (c : FuseCmd), fuseReady s 0x0013 c = true → Answers (.advanceArb c) s (FuseDone s 0x0013 c fun t =>
    fld c.payload 0 1 ≤ arb t.fus)) ∧
  (∀ (s : State) (c : FuseCmd), fuseReady s 0x0014 c = true → Answers (.tightenDebug c) s (FuseDone s 0x0014 c fun t =>
    debugPolicy t.fus &&& fld c.payload 0 2 = fld c.payload 0 2)) ∧
  (∀ (s : State) (c : FuseCmd), fuseReady s 0x0015 c = true → Answers (.programPolicy c) s (FuseDone s 0x0015 c fun t =>
    fuseBits t.fus (fld c.payload 0 1) = BitVec.ofNat 64 (fld c.payload 8 8))) ∧
  (∀ (s : State) (c : FuseCmd), fuseReady s 0x0016 c = true → Answers (.fuseSeal c) s (FuseDone s 0x0016 c fun t =>
    lifecycle t.fus = 2 ∧ debugPolicy t.fus &&& 0x41 = 0x41 ∧ t.lif.latched = some (s.hst.ideRequired, s.hst.poisonInject))) ∧
  (∀ (s : State) (c : FuseCmd), fuseReady s 0x0017 c = true → Answers (.retire c) s (FuseDone s 0x0017 c fun t =>
    lifecycle t.fus = 3 ∧ ∀ b ∈ t.hrd.bays, ∀ d, b.2.drey = some d → d.unwraps = false)) ∧
  (∀ (s : State) (c : FuseCmd), fuseReady s 0x0018 c = true → Answers (.debugUnlock c) s (FuseDone s 0x0018 c fun t =>
    t.fus.words = s.fus.words ∧ (∀ i, s.fus.lifted.getLsbD i = true → t.fus.lifted.getLsbD i = true) ∧
    (t.fus.lifted.getLsbD 0 = (s.fus.lifted.getLsbD 0 || bit (fld c.payload 0 2) 1)) ∧
    (t.fus.lifted.getLsbD 3 = (s.fus.lifted.getLsbD 3 || bit (fld c.payload 0 2) 5))))

/-- The first condition of R41 that fails gives a fuse command its status, and no fuse changes (R41, R43, R58, R42). For each of
the nine fuse commands: while another runs its status is BUSY; else with a bad format it is BAD_FORMAT, with another die
WRONG_DIE, with a stale nonce STALE_NONCE, in a wrong lifecycle or unit state STATE, and with a wrong owner OWNER (which of
STATE and OWNER stands for SET_OWNER with an owner present and SEAL without one: log entry 44), the first of these that applies;
event 0x0103 is recorded and no fuse word changes. A REVOKE_SLOT of a slot whose image is prepared for an epoch waits with the
unit busy, and takes effect, with the slot revoked or PROGRAM_FAIL, once that has ended; before, and with none waiting, its
deferred part does nothing. -/
def Obligations.FuseCommandsRefused : Prop :=
  (∀ p ∈ [(Instr.setOwner, 0x0010), (.programSlot, 0x0011), (.revokeSlot, 0x0012), (.advanceArb, 0x0013), (.tightenDebug, 0x0014),
      (.programPolicy, 0x0015), (.fuseSeal, 0x0016), (.retire, 0x0017), (.debugUnlock, 0x0018)], ∀ (s : State) (c : FuseCmd),
    let ends (st : Nat) : Prop := Answers (p.1 c) s fun t => t.fus.status = st ∧ t.fus.words = s.fus.words ∧ t.fus.busy = s.fus.busy ∧
      (∃ n, t.fus.nonce = Config.entropy n) ∧ noted t 0x0103 0 0 0
    (s.fus.busy = true → ends 12) ∧
    (s.fus.busy = false → fuseFormatOk p.2 c = false → ends 1) ∧
    (s.fus.busy = false → fuseFormatOk p.2 c = true → c.dieLo ≠ dieLo s.fus → ends 2) ∧
    (s.fus.busy = false → fuseFormatOk p.2 c = true → c.dieLo = dieLo s.fus → c.dieHi = dieHi s.fus → c.nonce ≠ s.fus.nonce → ends 3) ∧
    (s.fus.busy = false → fuseFormatOk p.2 c = true → c.dieLo = dieLo s.fus → c.dieHi = dieHi s.fus → c.nonce = s.fus.nonce →
      fuseStateOk s p.2 = false → ends 4) ∧
    (s.fus.busy = false → fuseFormatOk p.2 c = true → c.dieLo = dieLo s.fus → c.dieHi = dieHi s.fus → c.nonce = s.fus.nonce →
      fuseStateOk s p.2 = true → fuseOwnerOk s p.2 c = false → ends 5)) ∧
  (∀ (s : State) (c : FuseCmd), fuseReady s 0x0012 c = true → slotPrepared s (fld c.payload 0 1) = true → fuseSigOk 0x0012 c = true →
    exec (.revokeSlot c) s = .next { s with fus := { s.fus with busy := true, deferred := some (fld c.payload 0 1) } }) ∧
  (∀ (s : State) (k : Nat), s.fus.deferred = some k → k < 4 → slotPrepared s k = false → Answers .revokeSlotDeferred s fun t =>
    t.fus.deferred = none ∧ t.fus.busy = false ∧ (t.fus.status = 0 ∧ bit (slotsRevoked t.fus) k = true ∨ t.fus.status = 11)) ∧
  (∀ (s : State) (k : Nat), s.fus.deferred = some k → slotPrepared s k = true → exec .revokeSlotDeferred s = .next s) ∧
  (∀ s : State, s.fus.deferred = none → exec .revokeSlotDeferred s = .next s)

/-- A register write stores, clears or is ignored as the register's access code says (R11, R12, R439, R73, R33). With island VI0
on and the unit neither in OFF nor in DORMOUSE, an 8-byte write of BAR2 stores a RW field (UNI_REPAIR.RETEST, VQ_WIN_PAGE,
EXT_OLOG_PAGE, LIF_CMD_ARG, LIF_HIST_SEL, PWR_POLICY), clears the ones of a RW1C field (VQ_STATUS.REFUSED, MON_ALERT), stores
HST_POLICY below SEALED and is ignored with event 0x000F from SEALED on, is ignored with that event by a fuse-derived register,
and does nothing where no register is; a 4-byte write changes the addressed half alone. -/
def Obligations.RegisterWritesTakeEffect : Prop :=
  ∀ (s : State) (v : Word), s.uni.st ≠ .off → s.uni.st ≠ .dormouse → (islOf s 0).on = true →
    let wr (off : Nat) : Host.Outcome State Fault Refusal := exec (.registerWrite .bar2 off 8 v) s
    wr 0x180 = .next { s with uni := { s.uni with retest := bit v.toNat 0 } } ∧
    wr 0x02000000 = .next { s with vq := { s.vq with refused := s.vq.refused && !v.getLsbD 1 } } ∧
    wr 0x02000010 = .next { s with vq := { s.vq with page := v.toNat % 16 } } ∧
    wr 0x03000D28 = .next { s with mon := { s.mon with alert := s.mon.alert &&& ~~~ v.setWidth 32 } } ∧
    wr 0x04000018 = .next { s with pwr := { s.pwr with autoStart := bit v.toNat 0 } } ∧
    wr 0x07000030 = .next { s with ext := { s.ext with page := v.toNat % 64 } } ∧
    wr 0x0E000020 = .next { s with lif := { s.lif with arg := v } } ∧
    wr 0x0E000060 = .next { s with lif := { s.lif with qty := v.toNat % 256, ring := v.toNat / 256 % 4 } } ∧
    ((islOf s 7).on = true → lifecycle s.fus < 2 →
      wr 0x05000000 = .next { s with hst := { s.hst with ideRequired := bit v.toNat 0, poisonInject := bit v.toNat 1 } }) ∧
    ((islOf s 7).on = true → 2 ≤ lifecycle s.fus → Answers (.registerWrite .bar2 0x05000000 8 v) s fun t =>
      noted t 0x000F 0 0 0 ∧ t.hst.ideRequired = s.hst.ideRequired ∧ t.hst.poisonInject = s.hst.poisonInject) ∧
    (Answers (.registerWrite .bar2 0x01000000 8 v) s fun t => noted t 0x000F 0 0 0 ∧ t.fus = s.fus) ∧
    (∀ off, 0x11000000 ≤ off → off < 0x20000000 → off % 8 = 0 → wr off = .next s) ∧
    exec (.registerWrite .bar2 0x0E000024 4 v) s =
      .next { s with lif := { s.lif with arg := (s.lif.arg &&& 0xFFFFFFFF) ||| (v <<< 32) } }

/-- An access of a bad size or alignment, to an island that is off, or in DORMOUSE is refused: a read aborts, a write is dropped
(R12, R440, R377). In every state but OFF an access whose size is not 4 or 8 or whose offset is not a multiple of its size is
refused: the read ends in Completer Abort and changes nothing else, the write is dropped with event 0x000E. Outside DORMOUSE the
same holds of any BAR2 access to a block whose hosting island of Table 21.1 is off (ENG: all of VI1 to VI4). In DORMOUSE a BAR2
read outside PWR aborts and a write changes nothing. In OFF no access has an effect (a choice of the model, log entry 10). -/
def Obligations.AccessesRefused : Prop :=
  ∀ (s : State) (off size : Nat) (v : Word),
    let dropped (t : State) (rq : Requester) : Prop := noted t 0x000E 0 (match rq with | .bar0 _ => 1 | .bar2 => 0) (match rq with | .bar0 ld => ld | .bar2 => 0) ∧
      ∀ b : Block, b ∉ [.hst, .flt, .out] → b.same s t
    let aborted (rq : Requester) : State := { s with out := .readAbort rq off :: s.out }
    (∀ rq, s.uni.st ≠ .off → (size ≠ 4 ∧ size ≠ 8) ∨ off % size ≠ 0 →
      exec (.registerAccessRefused rq off size false v) s = .next (aborted rq) ∧
      Answers (.registerAccessRefused rq off size true v) s fun t => dropped t rq) ∧
    (s.uni.st ≠ .off → s.uni.st ≠ .dormouse →
      (∃ p ∈ [(0, 0), (1, 0), (2, 0), (3, 0), (5, 7), (6, 0), (7, 0), (8, 5), (9, 6), (10, 6), (11, 7), (13, 0), (14, 0), (15, 0), (16, 0)],
        off / 2 ^ 24 = p.1 ∧ (islOf s p.2).on = false) ∨
      (off / 2 ^ 24 = 12 ∧ (islOf s 1).on = false ∧ (islOf s 2).on = false ∧ (islOf s 3).on = false ∧ (islOf s 4).on = false) →
      exec (.islandOffAccess off size false v) s = .next (aborted .bar2) ∧
      Answers (.islandOffAccess off size true v) s fun t => dropped t .bar2) ∧
    (s.uni.st = .dormouse → off / 2 ^ 24 ≠ 4 → (size = 4 ∨ size = 8) → off % size = 0 →
      exec (.registerAccessRefused .bar2 off size false v) s = .next (aborted .bar2) ∧
      exec (.registerWrite .bar2 off size v) s = .next s) ∧
    (∀ rq w, s.uni.st = .off → exec (.registerAccessRefused rq off size w v) s = .next s ∧ exec (.registerWrite rq off size v) s = .next s)

/-- A write to the fuse command buffer, to the load window or to a page of an LD stores its bytes and no others (R56, R73, R12).
With VI0 on and the unit neither in OFF nor in DORMOUSE, a well-formed write to the fuse command buffer, or to the load window
at the page selected, leaves each byte of the access as the byte of the value (least significant first) and every other byte of
the buffer as it was; a read of the unlisted is 0. The same of the component and device pages of an LD whose BAR0 is taken.
Nothing else of the block changes. -/
def Obligations.BufferWindowsHoldBytes : Prop :=
  ∀ (s : State) (off size : Nat) (v : Word), s.uni.st ≠ .off → s.uni.st ≠ .standby → s.uni.st ≠ .dormouse → (islOf s 0).on = true → size = 4 ∨ size = 8 → off % size = 0 →
    let stored (a b : Memory) (at0 : Nat) : Prop := (∀ i < size, mget b (at0 + i) = BitVec.ofNat 8 (v.toNat / 2 ^ (8 * i))) ∧
      ∀ c, c < at0 ∨ at0 + size ≤ c → mget b c = mget a c
    (0x01010000 ≤ off → off < 0x01014000 → memWf s.fus.buf = true → Answers (.registerWrite .bar2 off size v) s fun t =>
      stored s.fus.buf t.fus.buf (off - 0x01010000) ∧ t = { s with fus := { s.fus with buf := t.fus.buf } }) ∧
    (0x02800000 ≤ off → off < 0x02900000 → memWf s.vq.buf = true → Answers (.registerWrite .bar2 off size v) s fun t =>
      stored s.vq.buf t.vq.buf (s.vq.page * 0x100000 + (off - 0x02800000)) ∧ t = { s with vq := { s.vq with buf := t.vq.buf } }) ∧
    (∀ ld, s.hst.ideRequired = false → 0x20000 ≤ off → off < 0x40000 → memWf (ldOf s.hst ld).pages = true →
      Answers (.registerWrite (.bar0 ld) off size v) s fun t => stored (ldOf s.hst ld).pages (ldOf t.hst ld).pages off ∧
        (∀ k, k ≠ ld → ldOf t.hst k = ldOf s.hst k) ∧ ∀ b : Block, b ≠ .hst → b.same s t)

/-- A host read is answered with its line, the staged strip before DRAM, with its grant; poison and refusals as the rules say
(R13, R14, R154, R178, R103, R423, Table 1.4). A read that is served at once (takenAt) and whose line reads through the codec or
the staging buffer is answered with that line, or poison where the line is poisoned: with no grant outside PRIVATE-COHERENT
extents and for a read that asks for no copy, and with S or E under Table 8.3 where the filter has room and no other holder of
the line, which the filter then records. A line of a strip present in staging is the staged line. In HELD and FAULTED the
request waits; in DORMOUSE, and on an LD bound to no tenant, it is answered with poison and the event of its rule. -/
def Obligations.HostReadsServed : Prop :=
  ∀ (s : State) (id ld dpa : Nat) (w : Want) (stamp : Ns),
    let addr := dpa % 2 ^ 50
    let i := addr / 64 % 64
    let rd := Instr.hostMemRead id ld dpa w stamp
    (∀ e a, takenAt s ld dpa stamp false = some (e, a) → frozenStrips s a (stripsFor (blockRec s.drt a).bmw (i / 8)) = false →
      ∀ line p, readLine s e.tenant (addr / 4096) a i = .data line p →
        (e.kind ≠ 1 → Answers rd s fun t => t.out = .memData id ld (if p then List.replicate 64 0 else line) p 0 :: s.out) ∧
        (e.kind = 1 → sfFind s.ext e.tenant (addr / 64 * 64) = none → sfFull s = false → p = false →
          Answers rd s fun t => t.out = .memData id ld line false (grantFor 1 (extSt s e.id).st w) :: s.out ∧
            (if grantFor 1 (extSt s e.id).st w = 0 then t.ext = s.ext
             else sfFind t.ext e.tenant (addr / 64 * 64) = some
               { tenant := e.tenant, addr := addr / 64 * 64, ext := e.id, excl := grantFor 1 (extSt s e.id).st w == 2
                 holders := [(me s, ld)], broad := false, created := now s }))) ∧
    (∀ t b a x, stgFind s.cdc t b = some x → (stripOf x (i / 8)).present = true →
      readLine s t b a i = .data (slice x.data (64 * i) 64) (x.poison.getLsbD i)) ∧
    (s.uni.st = .held ∨ s.uni.st = .faulted → Answers rd s fun t => t.out = s.out ∧
      ∃ r, t.hst.reqs = s.hst.reqs ++ [r] ∧ r.id = id ∧ r.ld = ld ∧ r.addr = dpa ∧ r.isWrite = false ∧ r.wait = 3) ∧
    (s.uni.st = .dormouse → Answers rd s fun t => noted t 0x0010 0 1 ld ∧ .memData id ld (List.replicate 64 0) true 0 ∈ t.out) ∧
    (s.uni.st = .serving → ideOk s (ld / 16) = true → ldTenant s ld = none → Answers rd s fun t => noted t 0x0509 0 1 ld ∧
      .memData id ld (List.replicate 64 0) true 0 ∈ t.out)

/-- A host write lands in the staging entry of its block, merged under its byte enables, and completes (R186, R189, R190, R178,
Table 1.4, Table 8.5). A write that is served at once (takenAt), with the cache not full of tiles that cannot commit (R253) and
its controller not halted, completes, and afterwards the entry of its block in the staging buffer has the strip present and
dirty with the time of the write and the host's stream. A poisoned write poisons the line. A write of all 64 bytes leaves the
line at its data and not poisoned. A partial write of a line that reads without poison, from a strip that is staged or from DRAM
with a free entry, leaves the line as it read with the enabled bytes replaced. An eviction also gives up the host's hold on the
line. -/
def Obligations.HostWritesStaged : Prop :=
  ∀ (s : State) (id ld dpa : Nat) (be : BitVec 64) (data : List Byte) (stamp : Ns) (e : ExtRec) (a : Nat),
    let addr := dpa % 2 ^ 50
    let b := addr / 4096
    let i := addr / 64 % 64
    takenAt s ld dpa stamp true = some (e, a) → kmFull s e = false → frozenStrips s a [i / 8] = false →
    blockSpot s e.tenant b = some (e, a) → (∀ y, stgFind s.cdc e.tenant b = some y → y.data.length = 4096) →
    let done (t : State) (line : StgEntry → Prop) : Prop := t.out = .memDone id ld :: s.out ∧ ∃ x, stgFind t.cdc e.tenant b = some x ∧
      stripOf x (i / 8) = { present := true, dirty := true, lastWrite := now s, stream := ld / 16 + 1, writing := false } ∧ line x
    (∀ ev, Answers (.hostMemWrite id ld dpa be data true ev stamp) s fun t => done t fun x => x.poison.getLsbD i = true) ∧
    (∀ ev, Answers (.hostMemWrite id ld dpa (BitVec.allOnes 64) data false ev stamp) s fun t => done t fun x =>
      x.poison.getLsbD i = false ∧ slice x.data (64 * i) 64 = padTo 64 0 data) ∧
    (∀ ev old, readLine s e.tenant b a i = .data old false → (match stgFind s.cdc e.tenant b with
        | some y => (stripOf y (i / 8)).present = true
        | none => s.cdc.stg.length < 3840 - 64 * banksLost s 128 192) →
      Answers (.hostMemWrite id ld dpa be data false ev stamp) s fun t => done t fun x =>
        x.poison.getLsbD i = false ∧ slice x.data (64 * i) 64 = mergeLine old (padTo 64 0 data) be) ∧
    (∀ p tn, ldTenant s ld = some tn → (s.ext.snoops.any fun n => n.tenant == tn && n.addr == addr / 64 * 64) = false →
      Answers (.hostMemWrite id ld dpa be data p true stamp) s fun t =>
        ∀ f, sfFind t.ext tn (addr / 64 * 64) = some f → (me s, ld) ∉ f.holders)

/-- A block of a fill lands in its slot when it passes its checks; a due strip is coded into DRAM and is clean once that is done
(R14, R183, R185, R187, R190, R220). A block that passes its checks lands at its place in the slot: its record and the stored
bytes of its strips are those of the block, and it counts among the landed blocks of the way; a block that had landed is kept. A
block that fails is not written, and event 0x0801 is recorded. A strip that is dirty and was last written 100 us ago is encoded
in its extent's format: its coded bytes and its length code stand in DRAM and it is marked as being written; one that is not due
changes nothing. When the write-back completes, the strips of the entry that were not written to since become clean. -/
def Obligations.FillsAndWriteBacks : Prop :=
  (∀ (s : State) (tenant tile blk : Nat) (bmw : BitVec 96) (masks stored : List Byte) (e : ExtRec) (g a : Nat),
    blockChecks bmw (padTo 8 0 masks) (cutStored bmw stored) = none → extAt (extView s) tenant (tile * 32768) = some (e, g) →
    fillAddr s e g tile = some a → s.drt.noCache = false → nothingWaits s = true →
      (blockLanded s e g tile blk = true → exec (.fillBlockLanded tenant tile blk bmw masks stored) s = .next s) ∧
      (blockLanded s e g tile blk = false → memWf s.drt.tier = true → a % 4096 = 0 →
        Answers (.fillBlockLanded tenant tile blk bmw masks stored) s fun t =>
          blockRec t.drt (a + 4096 * blk) = { bmw := bmw, masks := padTo 8 0 masks } ∧
          (∀ k < 8, ∀ n < ((cutStored bmw stored).getD k []).length,
            ((cutStored bmw stored).map List.length).all (· ≤ 512) = true →
            mget t.drt.tier (a + 4096 * blk + 512 * k + n) = ((cutStored bmw stored).getD k []).getD n 0) ∧
          (∀ w, findWay s tenant tile = some w → blk ∈ (wayOf t.drt w).landed))) ∧
  (∀ (s : State) (tenant tile blk : Nat) (bmw : BitVec 96) (masks stored : List Byte) (f : DecFault),
    blockChecks bmw (padTo 8 0 masks) (cutStored bmw stored) = some f →
      Answers (.fillBlockLanded tenant tile blk bmw masks stored) s fun t => noted t 0x0801 tenant 0 0 ∧ t.drt.blocks = s.drt.blocks ∧ t.drt.tier = s.drt.tier) ∧
  (∀ (s : State) (tenant b k : Nat) (x : StgEntry) (e : ExtRec) (a : Nat), stgFind s.cdc tenant b = some x → k < 8 →
    (stripDue s (stripOf x k) = false → exec (.stripWriteback tenant b k) s = .next s) ∧
    (stripDue s (stripOf x k) = true → (stripOf x k).present = true → blockSpot s tenant b = some (e, a) → a % 4096 = 0 →
      bmwFmt (blockRec s.drt a).bmw = e.fmt → bmwMode (blockRec s.drt a).bmw = 0 → e.crc = false → e.fmt < 16 →
      frozenAt s (a + 512 * k) = false → memWf s.drt.tier = true → x.strips.length = 8 →
      let p := storeStrip e.fmt (stripMask x.poison k) (slice x.data (512 * k) 512)
      Answers (.stripWriteback tenant b k) s fun t =>
        (∀ n < p.2.length, mget t.drt.tier (a + 512 * k + n) = p.2.getD n 0) ∧ (p.1 < 32 → bmwLen (blockRec t.drt a).bmw k = p.1) ∧
        (blockRec t.drt a).masks.getD k 0 = stripMask x.poison k ∧
        ∃ y, stgFind t.cdc tenant b = some y ∧ (stripOf y k).writing = true ∧ (stripOf y k).dirty = true ∧ y.data = x.data)) ∧
  (∀ (s : State) (tenant b : Nat) (x : StgEntry), stgFind s.cdc tenant b = some x →
    exec (.writebackComplete tenant b) s = .next { s with cdc := { s.cdc with
      stg := s.cdc.stg.filter (fun y => !(y.tenant == x.tenant && y.block == x.block)) ++
        [{ x with strips := x.strips.map fun p => if p.writing then { p with writing := false, dirty := false } else p }] } }) ∧
  (∀ (s : State) (tenant b : Nat), stgFind s.cdc tenant b = none → exec (.writebackComplete tenant b) s = .next s ∧
    ∀ k, exec (.stripWriteback tenant b k) s = .next s)

/-- Renewals reach the home unit, which grants E to every unit concerned; each unit follows E - g and E (R161, R162, R163, R110,
R172, R164). At the home unit a renewal, from a peer or from a host's register, sets E to the later of E and the stamp plus the
expiry time, with one grant window of 1 ms; elsewhere a host's renewal goes to the home unit. When the window ends the grant
goes to every reachable unit concerned, and this unit takes it. A grant of the home unit becomes the local expiry unchanged,
with the lease state of the time. At E - g the state becomes 2 and at E it becomes 3, not before. -/
def Obligations.LeaseWindows : Prop :=
  ∀ (s : State) (tn : Nat),
    let l := leaseOf s tn
    let renewed (t : State) (stamp : Ns) : Prop := leaseOf t tn = { l with
      homeE := max (if l.homeRunning then l.homeE else 0) (stamp + leaseExpiryNs s.vq.active tn), homeRunning := true
      window := some (l.window.getD (now s + 1000000)) }
    (∀ src stamp, src < fabN s.vq.active → isHome s tn = true → s.uni.st = .serving → l.reclaiming = false →
      (l.homeRunning = true → stamp < l.homeE + leaseGuard s.vq.active tn) →
      Answers (.leaseRenew src tn stamp) s fun t => renewed t stamp) ∧
    (∀ ld v stamp, ldTenant s ld = some tn → v.getLsbD 0 = true → barTaken s ld = true →
      (isHome s tn = true → s.uni.st = .serving → l.reclaiming = false →
        (l.homeRunning = true → stamp < l.homeE + leaseGuard s.vq.active tn) →
        Answers (.hstLeaseRenew ld v stamp) s fun t => renewed t stamp) ∧
      (hasTenant s.vq.active tn = true → isHome s tn = false → unreachable s (tenHome s.vq.active tn) = false →
        Answers (.hstLeaseRenew ld v stamp) s fun t => sentTo t (tenHome s.vq.active tn) (.lease 0 stamp 0 0))) ∧
    (∀ w, l.window = some w → (now s < w → exec (.leaseGrantDue tn) s = .next s) ∧
      (w ≤ now s → isHome s tn = true → Answers (.leaseGrantDue tn) s fun t => (leaseOf t tn).window = none ∧
        (∀ u ∈ leaseUnits s tn, u ≠ me s → unreachable s u = false → sentTo t u (.lease 1 l.homeE 0 0)) ∧
        (me s ∈ leaseUnits s tn → (leaseOf t tn).expiry = l.homeE ∧ (leaseOf t tn).granted = true))) ∧
    (∀ src e, src < fabN s.vq.active → hasTenant s.vq.active tn = true → tenHome s.vq.active tn = src → unitServesOrHeld s = true →
      Answers (.leaseGrant src tn e) s fun t => leaseOf t tn =
        { l with expiry := e, granted := true, st := if now s + leaseGuard s.vq.active tn < e then 1 else if now s < e then 2 else 3 }) ∧
    (l.granted = true → l.st = 1 →
      (leaseGuardAt s tn ≤ now s → Answers (.leaseGuardReached tn) s fun t => leaseOf t tn = { l with st := 2 } ∧
        ∀ ld < 256, ldTenant s ld = some tn → (boxOf t.mbx ld).db.getLsbD 6 = true) ∧
      (now s < leaseGuardAt s tn → exec (.leaseGuardReached tn) s = .next s)) ∧
    (l.granted = true → l.st ≠ 3 →
      (l.expiry ≤ now s → Answers (.leaseExpiry tn) s fun t => leaseOf t tn = { l with st := 3 }) ∧
      (now s < l.expiry → exec (.leaseExpiry tn) s = .next s))

/-- At E + g the home unit reclaims: every unit it reaches is told, carries out its part and reports, and the extents take their
states (R163, R165, R166, R172, Table 8.6). At E + g, and not before, the home unit sends the reclaim to each reachable unit
concerned, waits for each of them, and keeps the units it could not reach. A unit that hears the reclaim and has no accepted
write of the tenant left ends its lease: nothing is owed, granted or served any more, and with no extent of the tenant to serve
it reports at once; with such a write it owes the reclaim. At the home a unit's last report takes it off the units awaited. At
another unit a report of the home with orphans leaves a PRIVATE-COHERENT extent QUARANTINED with event 0x0702, and one without
orphans leaves it ACTIVE. -/
def Obligations.LeaseReclaims : Prop :=
  ∀ (s : State) (tn : Nat),
    let l := leaseOf s tn
    let due := l.homeE + leaseGuard s.vq.active tn
    (isHome s tn = true → l.homeRunning = true → l.reclaiming = false →
      (now s < due → exec (.leaseReclaimTimer tn) s = .next s) ∧
      (due ≤ now s → (∃ u ∈ leaseUnits s tn, u ≠ me s ∧ unreachable s u = false) → Answers (.leaseReclaimTimer tn) s fun t =>
        (leaseOf t tn).reclaiming = true ∧ (leaseOf t tn).reclaimAt = due ∧ (leaseOf t tn).window = none ∧
        ∀ u ∈ leaseUnits s tn, u ≠ me s →
          if unreachable s u then u ∈ (leaseOf t tn).undelivered else u ∈ (leaseOf t tn).awaiting ∧ sentTo t u (.lease 2 due 0 0))) ∧
    (∀ src tm, src < fabN s.vq.active → hasTenant s.vq.active tn = true → tenHome s.vq.active tn = src → src ≠ me s → unitServesOrHeld s = true →
      (pendingWrites s tn = true → Answers (.leaseReclaim src tn tm) s fun t => leaseOf t tn = { l with owed := true, reclaimAt := tm }) ∧
      (pendingWrites s tn = false → (∀ e ∈ extRecs (extView s), e.tenant ≠ tn) → s.opq.ops = [] →
        (outPort s src).isSome = true → Answers (.leaseReclaim src tn tm) s fun t =>
          leaseOf t tn = { l with owed := false, granted := false, st := 3, reclaimAt := tm } ∧ sentTo t src (.lease 3 tm 0xFFFF 0))) ∧
    (∀ src x n ab, src < fabN s.vq.active → unitServesOrHeld s = true → isHome s tn = true → l.reclaiming = true → src ∈ l.awaiting →
      (∃ u ∈ l.awaiting, u ≠ src) → Answers (.leaseReport src tn x n true ab) s fun t => leaseOf t tn = { l with
        orphans := tinc x n l.orphans, abandoned := if ab then addNew x l.abandoned else l.abandoned, awaiting := l.awaiting.filter (· != src) }) ∧
    (∀ src x n e, src < fabN s.vq.active → unitServesOrHeld s = true → isHome s tn = false → hasTenant s.vq.active tn = true →
      tenHome s.vq.active tn = src → extRec (extView s) x = some e → e.kind = 1 → (extSt s x).st = 1 →
      (n ≠ 0 → Answers (.leaseReport src tn x n true false) s fun t => (extSt t x).st = 4 ∧ noted t 0x0702 e.tenant 2 x) ∧
      Answers (.leaseReport src tn x 0 true false) s fun t => (extSt t x).st = 1)

/-- RELEASE and SCRUB of the administrator, the end of a SCRUB, and the tail of the Orphan Log (R169, R170, R146, Table 8.8,
R443). RELEASE of a QUARANTINED extent makes it ACTIVE with UNKNOWN clear; SCRUB of a QUARANTINED or ACTIVE extent makes it
SCRUBBING with the command busy; in any other state the status is STATE, for an unknown extent ABSENT, and while busy BUSY, and
the extents stay as they are. The end of a SCRUB makes the extent ACTIVE, the command free, and every byte of its pinned slots
read zero. A write of EXT_OLOG_TAIL between tail and head moves the tail and frees the entries before it; any other is ignored
with event 0x000F. -/
def Obligations.ExtentAdministration : Prop :=
  (∀ (s : State) (x : Nat),
    let cmd (a st : Nat) : State := { s with ext := { s.ext with cmdExt := x, cmdAction := a, status := st } }
    (s.ext.busy = true → exec (.release x) s = .next (cmd 1 3) ∧ exec (.scrub x) s = .next (cmd 2 3)) ∧
    (s.ext.busy = false → extRec (extView s) x = none → exec (.release x) s = .next (cmd 1 1) ∧ exec (.scrub x) s = .next (cmd 2 1)) ∧
    (s.ext.busy = false → (extRec (extView s) x).isSome = true →
      ((extSt s x).st ≠ 4 → exec (.release x) s = .next (cmd 1 2)) ∧
      ((extSt s x).st ≠ 4 → (extSt s x).st ≠ 1 → exec (.scrub x) s = .next (cmd 2 2)) ∧
      ((extSt s x).st = 4 → Answers (.release x) s fun t => t.ext.status = 0 ∧ t.ext.busy = false ∧
        extSt t x = { extSt s x with st := 1, unknown := false }) ∧
      ((extSt s x).st = 4 ∨ (extSt s x).st = 1 → Answers (.scrub x) s fun t => t.ext.status = 0 ∧ t.ext.busy = true ∧ (extSt t x).st = 5 ∧
        (∀ f ∈ t.ext.sf, f.ext ≠ x)))) ∧
  (∀ (s : State) (x : Nat) (e : ExtRec), extRec (extView s) x = some e →
    ((extSt s x).st ≠ 5 → exec (.scrubComplete x) s = .next s) ∧
    ((extSt s x).st = 5 → Answers (.scrubComplete x) s fun t => (extSt t x).st = 1 ∧ (extSt t x).unknown = false ∧
      (s.ext.cmdExt = x → t.ext.busy = false) ∧
      ∀ p ∈ s.drt.pinned, p.2.1 = e.id → ∀ b, p.1 * gib ≤ b → b < p.1 * gib + gib → mget t.drt.tier b = 0)) ∧
  (∀ (s : State) (v : Word), s.ext.head < ologSize → s.ext.tail < ologSize →
    let n := (s.ext.head + ologSize - s.ext.tail) % ologSize
    let k := (v.toNat % ologSize + ologSize - s.ext.tail) % ologSize
    (k ≤ n → Answers (.extOlogTailWrite v) s fun t => t.ext.tail = v.toNat % ologSize ∧ t.ext.head = s.ext.head ∧
      (∀ p ∈ t.ext.olog, p ∈ s.ext.olog ∧ k ≤ (p.1 + ologSize - s.ext.tail) % ologSize) ∧
      ∀ p ∈ s.ext.olog, k ≤ (p.1 + ologSize - s.ext.tail) % ologSize → p ∈ t.ext.olog) ∧
    (n < k → Answers (.extOlogTailWrite v) s fun t => t.ext = s.ext ∧ noted t 0x000F 0 0 0))

/-- Snoops across the Warren reach the host's link; an answer, local or remote, ends the hold of its LD on the line (R154, R156,
R159, R274, R123). BISNP for an LD here goes out on the LD's link, or waits for a link that is down, and is kept until it is
answered. A host's answer that no earlier write of the LD to the line holds back, or a peer's answer to a BISNP of this unit,
ends the hold: the entry of the line's only holder is freed, or becomes S; while such a write stands a host's answer waits. A
BIConflict is acknowledged once no write of the LD to the line stands, and waits until then. -/
def Obligations.BackInvalidateAnswers : Prop :=
  (∀ (s : State) (src tag tn addr : Nat) (data : Bool) (ld : Nat), unitServesOrHeld s = true → src < fabN s.vq.active → ld < 256 →
    dupOf s src tag = none → Answers (.bisnp src tag tn addr data ld) s fun t =>
      { src := src, tag := tag, tenant := tn, addr := addr, data := data, ld := ld } ∈ t.ext.passed ∧
      (linkUsable (linkOf s.hst (ld / 16)) = true → t.out = .bisnp ld addr data :: s.out) ∧
      (linkUsable (linkOf s.hst (ld / 16)) = false → t.out = s.out ∧ (ld, addr, data) ∈ (linkOf t.hst (ld / 16)).waiting)) ∧
  (∀ (s : State) (ld addr tn : Nat) (ans : SnoopAns) (stamp : Ns) (f : SfEntry), ldTenant s ld = some tn →
    let a := addr / 64 * 64
    (earlierWrites s ld tn a stamp = true → exec (.hostBirsp ld addr ans stamp) s =
      .next { s with ext := { s.ext with heldRsp := s.ext.heldRsp ++ [(ld, tn, a, ans, stamp)] } }) ∧
    (earlierWrites s ld tn a stamp = false → sfFind s.ext tn a = some f → f.holders = [(me s, ld)] → f.broad = false → s.hst.reqs = [] →
      Answers (.hostBirsp ld addr .invalid stamp) s (fun t => sfFind t.ext tn a = none) ∧
      (s.ext.snoops = [] → s.ext.seals = [] → Answers (.hostBirsp ld addr .shared stamp) s fun t => sfFind t.ext tn a = some { f with excl := false }))) ∧
  (∀ (s : State) (src tag tn a : Nat) (o : Outst) (data : Bool) (ld : Nat) (f : SfEntry), unitServesOrHeld s = true → src < fabN s.vq.active →
    outReq s tag = some o → o.env.msg = .bisnp a data ld → o.env.tenant = tn → sfFind s.ext tn a = some f → f.holders = [(src, ld)] →
    f.broad = false → s.hst.reqs = [] → Answers (.birsp src tag tn a .invalid) s fun t => sfFind t.ext tn a = none) ∧
  (∀ (s : State) (ld addr tn : Nat), ldTenant s ld = some tn → s.ext.heldRsp = [] → s.ext.conflicts = [] →
    (earlierWrites s ld tn (addr / 64 * 64) (now s + 1) = false →
      exec (.biConflict ld addr) s = .next { s with out := .biConflictAck ld (addr / 64 * 64) :: s.out }) ∧
    (earlierWrites s ld tn (addr / 64 * 64) (now s + 1) = true →
      exec (.biConflict ld addr) s = .next { s with ext := { s.ext with conflicts := [(ld, tn, addr / 64 * 64)] } }))

/-- A Warren port trains at a cable, takes its state from the peer's HELLO, goes on with fewer lanes, and falls and obeys
WRN_CMD (R259, R261, R271, R281, R282, R284, R52). A port that is neither forbidden nor disabled trains on all four lanes of a
cable and says HELLO; a forbidden or disabled one does nothing. The peer's HELLO gives a trained port the state of R261 and
R282. A lane failure leaves an UP port DEGRADED with one lane less where enough lanes are left, replaying what is not
acknowledged, and DOWN otherwise. A lost port is DOWN with nothing in its replay buffer and no slot, and event 0x0B01 is
recorded. RETRAIN leaves a port of R284 TRAINING, DISABLE holds it down, ENABLE lets it train again; each reports OK, BAD_PORT
above 47, STATE elsewhere and BUSY while one runs, with no effect. -/
def Obligations.WarrenPortsTrainAndFall : Prop :=
  (∀ (s : State) (n : Nat), (mayTrain s n = false → ∀ m, exec (.cablePlugged n m) s = .next s) ∧
    (mayTrain s n = true → (portOf s.wrn n).st ≤ 2 → Answers (.cablePlugged n 15) s fun t => (portOf t.wrn n).st = 2 ∧
      (portOf t.wrn n).lanes = 4 ∧ (portOf t.wrn n).laneFail = 0 ∧ ∃ h : Hello, .linkHello n h ∈ t.out ∧ h.src = me s ∧ h.port = n ∧ h.lanes = 4)) ∧
  (∀ (s : State) (n : Nat) (h : Hello), 2 ≤ (portOf s.wrn n).st → n < 48 → h.src ≤ 1023 → h.port ≤ 47 → h.lanes ≤ 4 →
    Answers (.hello n h) s fun t => (portOf t.wrn n).st = helloState s n h ∧ (portOf t.wrn n).peerUnit = h.src ∧
      (portOf t.wrn n).peerPort = h.port ∧ (portOf t.wrn n).hello = some h) ∧
  (∀ (s : State) (n l : Nat), (portOf s.wrn n).st = 3 → l < 4 → (portOf s.wrn n).laneFail.getLsbD l = false →
    let least := ((topo s.vq.active (me s) n).map fun t => max 2 t.2.2).getD 2
    (least ≤ (portOf s.wrn n).lanes - 1 → Answers (.laneFailure n l) s fun t => (portOf t.wrn n).st = 4 ∧
      (portOf t.wrn n).lanes = (portOf s.wrn n).lanes - 1 ∧ (portOf t.wrn n).laneFail.getLsbD l = true ∧
      (portOf t.wrn n).replay = (portOf s.wrn n).replay ∧ ∀ f ∈ (portOf s.wrn n).replay, sentFlit n (portOf s.wrn n) f ∈ t.out) ∧
    ((portOf s.wrn n).lanes - 1 < least → Answers (.laneFailure n l) s fun t => (portOf t.wrn n).st = 1 ∧ noted t 0x0B01 0 4 n)) ∧
  (∀ (s : State) (n : Nat), ((portOf s.wrn n).st < 2 → exec (.portDown n) s = .next s) ∧
    (2 ≤ (portOf s.wrn n).st → Answers (.portDown n) s fun t => (portOf t.wrn n).st = 1 ∧ (portOf t.wrn n).replay = [] ∧
      (portOf t.wrn n).slots = [] ∧ (portOf t.wrn n).credits = [] ∧ noted t 0x0B01 0 4 n)) ∧
  (∀ (s : State) (n : Nat),
    let cmd (a st : Nat) : State := { s with wrn := { s.wrn with cmdPort := n % 64, cmdAction := a, status := st } }
    (s.wrn.busy = true → exec (.retrain n) s = .next (cmd 1 3) ∧ exec (.disable n) s = .next (cmd 2 3) ∧ exec (.enable n) s = .next (cmd 3 3)) ∧
    (s.wrn.busy = false → 47 < n → exec (.retrain n) s = .next (cmd 1 1) ∧ exec (.disable n) s = .next (cmd 2 1) ∧ exec (.enable n) s = .next (cmd 3 1)) ∧
    (s.wrn.busy = false → n < 48 →
      ((portOf s.wrn n).st < 2 → exec (.retrain n) s = .next (cmd 1 2)) ∧
      (2 ≤ (portOf s.wrn n).st → Answers (.retrain n) s fun t => t.wrn.status = 0 ∧ (portOf t.wrn n).st = 2 ∧ noted t 0x0B01 0 4 n) ∧
      ((portOf s.wrn n).disabled = true ∨ portForbidden s.fus n = true → exec (.disable n) s = .next (cmd 2 2)) ∧
      ((portOf s.wrn n).disabled = false → portForbidden s.fus n = false → Answers (.disable n) s fun t => t.wrn.status = 0 ∧
        (portOf t.wrn n).st = 1 ∧ (portOf t.wrn n).disabled = true) ∧
      ((portOf s.wrn n).disabled = false → exec (.enable n) s = .next (cmd 3 2)) ∧
      ((portOf s.wrn n).disabled = true → Answers (.enable n) s fun t => t.wrn.status = 0 ∧
        portOf t.wrn n = { portOf s.wrn n with disabled := false } ∧ ∀ m, m ≠ n → portOf t.wrn m = portOf s.wrn m)))

/-- A bad flit is answered by one NAK, a good one by its ACK; unacknowledged flits are resent in order; credits and transit time
out (R263, R264, R266, R270, R272). After 10 us with flits outstanding and no progress a port resends every flit of its replay
buffer in the original order and counts the replay, and before does nothing. A bad flit is discarded, counted, and answered by
one NAK; a duplicate gives nothing; a flit in order advances the expected sequence and is acknowledged. CREDIT adds to the
credits of its VC. A message of another unit that has waited 200 us for its port is dropped with event 0x0B02. -/
def Obligations.FlitsAndCredits : Prop :=
  (∀ (s : State) (n : Nat), let p := portOf s.wrn n
    (p.replay = [] ∨ now s < p.ackAt + 10000 → exec (.replayTimeout n) s = .next s) ∧
    (p.replay ≠ [] → p.ackAt + 10000 ≤ now s → p.fruitless = 0 → Answers (.replayTimeout n) s fun t =>
      t.out = (p.replay.map (sentFlit n p)).reverse ++ s.out ∧ (portOf t.wrn n).replay = p.replay ∧
      (portOf t.wrn n).replays = min (p.replays + 1) 65535 ∧ (portOf t.wrn n).fruitless = 1)) ∧
  (∀ (s : State) (n : Nat) (f : List Byte), let p := portOf s.wrn n
    (p.st < 2 → ∀ ok, exec (.flitReceived n ok f) s = .next s) ∧
    (2 ≤ p.st → Answers (.flitReceived n false f) s fun t => (portOf t.wrn n).nakSent = true ∧ (portOf t.wrn n).rxSeq = p.rxSeq ∧
      (portOf t.wrn n).delivered = p.delivered ∧ (portOf t.wrn n).fecUncorr = min (p.fecUncorr + 1) 65535 ∧
      t.out = if p.nakSent then s.out else .flitAck n (lastAck p) true :: s.out)) ∧
  (∀ (s : State) (n vc seq : Nat) (body : List Byte), let p := portOf s.wrn n
    let f : TxFlit := { kind := 1, vc := vc, seq := seq, fmo := 0xFF, body := body, env := none }
    2 ≤ p.st → vc ≤ 5 → seq < 4096 →
      (seq = p.rxSeq → Answers (.flitReceived n true (flitBytes f 0 false false)) s fun t => .flitAck n seq false ∈ t.out ∧
        (portOf t.wrn n).rxSeq = (seq + 1) % 4096 ∧ (portOf t.wrn n).rxAny = true ∧ (portOf t.wrn n).nakSent = false) ∧
      (seq ≠ p.rxSeq → (p.rxSeq + 4096 - seq) % 4096 ≤ 2048 → p.rxSeq < 4096 → exec (.flitReceived n true (flitBytes f 0 false false)) s = .next s)) ∧
  (∀ (s : State) (n vc k : Nat), s.wrn.transit = [] → vc ≤ 5 → vc ≠ 2 → 2 ≤ (portOf s.wrn n).st →
    let p := portOf s.wrn n
    let q := { p with credits := tset vc (tget 0 p.credits vc + k) p.credits }
    exec (.credit n vc k) s = .next { s with wrn := { s.wrn with ports := tset n q s.wrn.ports } }) ∧
  (∀ (s : State) (n tag : Nat) (w : Waiting), s.wrn.transit = [w] → w.port = n → w.env.tag = tag → w.env.src ≠ me s →
    (now s < w.arrived + 200000 → exec (.transitTimeout n tag) s = .next s) ∧
    (w.arrived + 200000 ≤ now s → Answers (.transitTimeout n tag) s fun t => t.wrn.transit = [] ∧
      (portOf t.wrn n).drops = (portOf s.wrn n).drops + 1 ∧ noted t 0x0B02 0 4 n))

/-- RESERVE takes a free slot and is granted, or queues, is held or makes this unit yield; GRANT sends the message; freed slots
pass on (R278, R279). A RESERVE of the peer on a usable port with a free slot and no queue claims the lowest free slot for
landing and is granted; with no free slot and no claim of this unit that still waits it is queued; where such a claim waits, the
lower-numbered unit holds it and the higher-numbered yields its youngest claim, lands in that slot and counts the yield. A
RESERVE of another unit or of a bad length is dropped with event 0x0B02. A GRANT sends the message that waits for it. A slot
whose transfer is over goes to the oldest queued RESERVE, else it is free. -/
def Obligations.BulkTransfers : Prop :=
  (∀ (s : State) (n src tag len : Nat), let p := portOf s.wrn n
    (portUsable p = false → exec (.reserve n src tag len) s = .next s) ∧
    (portUsable p = true → (src ≠ p.peerUnit ∨ len = 0 ∨ 16448 < len ∨ len % 8 ≠ 0) → Answers (.reserve n src tag len) s fun t =>
      noted t 0x0B02 0 4 n ∧ (portOf t.wrn n).slots = p.slots ∧ (portOf t.wrn n).reserveQ = p.reserveQ) ∧
    (portUsable p = true → src = p.peerUnit → 0 < len → len ≤ 16448 → len % 8 = 0 →
      (∀ i, freeBulkSlot p = some i → p.reserveQ = [] → Answers (.reserve n src tag len) s fun t =>
        (tget ({} : Slot) (portOf t.wrn n).slots i) = { use := 2, tag := tag, len := len, granted := true } ∧ sentTo t src (.grant false 0)) ∧
      (freeBulkSlot p = none → youngestClaim p s.wrn.transit = none → Answers (.reserve n src tag len) s fun t =>
        (portOf t.wrn n).reserveQ = p.reserveQ ++ [(tag, len)] ∧ (portOf t.wrn n).slots = p.slots) ∧
      (∀ i c, freeBulkSlot p = none → youngestClaim p s.wrn.transit = some (i, c) →
        (me s < src → Answers (.reserve n src tag len) s fun t => (portOf t.wrn n).heldReserve = p.heldReserve ++ [(tag, len)] ∧
          (portOf t.wrn n).slots = p.slots) ∧
        (src ≤ me s → Answers (.reserve n src tag len) s fun t => t.wrn.yields = min (s.wrn.yields + 1) 65535 ∧
          (tget ({} : Slot) (portOf t.wrn n).slots i) = { use := 2, tag := tag, len := len, granted := true } ∧
          sentTo t src (.grant true c.tag))))) ∧
  (∀ (s : State) (n tag : Nat) (y : Bool) (wd : Nat) (w : Waiting), w ∈ s.wrn.transit → w.port = n → w.rtag = some tag →
    (∀ x ∈ s.wrn.transit, x.port = n → x.rtag = some tag → x = w) → Answers (.grant n tag y wd) s fun t =>
      .warren n w.env ∈ t.out ∧ w ∉ t.wrn.transit) ∧
  (∀ (s : State) (n k : Nat), let p := portOf s.wrn n
    let x := tget ({} : Slot) p.slots k
    (x.use = 2 → k < 4 →
      (p.reserveQ = [] → s.wrn.transit = [] → Answers (.bulkSlotFreed n k) s fun t => (portOf t.wrn n).slots = tdel k p.slots) ∧
      (∀ tag len r, p.reserveQ = (tag, len) :: r → Answers (.bulkSlotFreed n k) s fun t => (portOf t.wrn n).reserveQ = r ∧
        tget ({} : Slot) (portOf t.wrn n).slots k = { use := 2, tag := tag, len := len, granted := true } ∧ sentTo t p.peerUnit (.grant false 0))) ∧
    (x.use = 0 → exec (.bulkSlotFreed n k) s = .next s))

/-- READ and WRITE are relayed or served; READ_DATA and WRITE_DONE end the request of the host that waits for them (R13, R178,
R185, R186, R270, R273, R274, Table 1.6). A READ or WRITE for another unit goes on with one hop less, or is dropped with event
0x0B02 when it has none left. A READ that is served at once (peerTakenAt) from a line that reads is answered with the coded
line, or POISON; a WRITE that is served at once is staged and answered with status OK. READ_DATA with a line that passes its
checks answers the host that waits with that line and its grant, and with status POISON answers it with poison and event 0x0802.
WRITE_DONE completes the write that waits. Each response ends its request. -/
def Obligations.ForwardedAccesses : Prop :=
  (∀ (s : State) (src dst tag hops tn addr : Nat) (stamp : Ns) (ident : Nat) (w : Want) (p : Bool) (be : BitVec 64) (data : List Byte) (port : Nat),
    dst ≠ me s →
      (hops = 0 → (Answers (.read src dst tag hops tn addr stamp ident w port) s fun t => noted t 0x0B02 0 4 port) ∧
        Answers (.write src dst tag hops tn addr stamp ident p be data port) s fun t => noted t 0x0B02 0 4 port) ∧
      (hops ≠ 0 → (outPort s dst).isSome = true →
        (Answers (.read src dst tag hops tn addr stamp ident w port) s fun t => sentTo t dst (.read addr stamp ident w)) ∧
        Answers (.write src dst tag hops tn addr stamp ident p be data port) s fun t => sentTo t dst (.write addr stamp ident p be data))) ∧
  (∀ (s : State) (src tag hops tn addr : Nat) (stamp : Ns) (ident : Nat) (e : ExtRec) (a port : Nat), (outPort s src).isSome = true →
    (peerTakenAt s src tag tn addr stamp false = some (e, a) → e.kind ≠ 1 →
      frozenStrips s a (stripsFor (blockRec s.drt a).bmw (addr / 512 % 8)) = false →
      ∀ line p, readLine s e.tenant (addr / 4096) a (addr / 64 % 64) = .data line p →
        Answers (.read src (me s) tag hops tn addr stamp ident .none port) s fun t =>
          sentTo t src (if p then .readData 1 0 0 0 0 [] [] else readBody s e e.tenant (addr / 4096) a (addr / 512 % 8) 0)) ∧
    (∀ be data, peerTakenAt s src tag tn addr stamp true = some (e, a) → kmFull s e = false → frozenStrips s a [addr / 512 % 8] = false →
      s.ext.heldRsp = [] → s.ext.conflicts = [] →
        Answers (.write src (me s) tag hops tn addr stamp ident false be data port) s fun t => sentTo t src (.writeDone 0) ∧
          ∃ x, stgFind t.cdc e.tenant (addr / 4096) = some x ∧ (stripOf x (addr / 512 % 8)).dirty = true ∧
            (stripOf x (addr / 512 % 8)).present = true ∧ (stripOf x (addr / 512 % 8)).lastWrite = now s)) ∧
  (∀ (s : State) (src tag : Nat) (o : Outst) (r : MemReq), unitServesOrHeld s = true → src < fabN s.vq.active → outReq s tag = some o →
    waitingFor s tag = some r → r.origin = none → r.answered = false → r.again = false →
      (∀ grant bmw masks stored l, grant < 3 → decodeStrips bmw (padTo 8 0 masks)
          ((List.replicate 8 ([] : List Byte)).set (r.addr / 64 % 64 / 8) stored) [r.addr / 64 % 64 / 8] = .ok [(r.addr / 64 % 64 / 8, l)] →
        (recPoison { bmw := bmw, masks := padTo 8 0 masks }).getLsbD (r.addr / 64 % 64) = false →
        Answers (.readData src tag 0 grant (r.addr / 64 % 64 / 8) 0 bmw masks stored) s fun t =>
          t.out = .memData r.id r.ld (slice l (64 * (r.addr / 64 % 64 % 8)) 64) false grant :: s.out ∧ outReq t tag = none ∧ r ∉ t.hst.reqs) ∧
      (Answers (.readData src tag 1 0 0 0 0 [] []) s fun t => .memData r.id r.ld (List.replicate 64 0) true 0 ∈ t.out ∧
        noted t 0x0802 r.tenant 1 r.ld ∧ outReq t tag = none ∧ r ∉ t.hst.reqs)) ∧
  (∀ (s : State) (src tag : Nat) (o : Outst) (r : MemReq) (a : Nat) (st : Ns) (idn : Nat) (p : Bool) (be : BitVec 64) (data : List Byte),
    unitServesOrHeld s = true → src < fabN s.vq.active → outReq s tag = some o → o.env.msg = .write a st idn p be data →
    s.hst.reqs = [r] → r.wait = 1 → r.tag = tag → r.origin = none → r.answered = false → s.ext.heldRsp = [] → s.ext.conflicts = [] →
      Answers (.writeDone src tag 0) s fun t => t.out = .memDone r.id r.ld :: s.out ∧ t.hst.reqs = [] ∧ outReq t tag = none)

/-- A silent unit is probed at 250 ms and unreachable at 1 s; a probe is answered; requests are resent every 2 ms; routes return
after 1 s (R271, R272, R273). A probe is answered with this unit's state, and probe and answer make the peer's state known and
its arrival remembered. A unit not heard from for 250 ms is probed while a port leads to it, and not before. A unit silent for 1
s is unreachable, and a read out to it returns poison to its host; before that nothing happens. A request with no response after
2 ms (100 ms for BISNP and OP_FWD) is sent again with the same tag, marked as a retry, and counted. A destination returns to its
primary port once that has stood for 1 s. -/
def Obligations.PresenceAndReach : Prop :=
  (∀ (s : State) (u st : Nat), powered s = true → u < fabN s.vq.active → st ≤ 7 →
    (Answers (.presenceAnswer u st) s fun t => tget 0 t.wrn.peerState u = st ∧ tget 0 t.wrn.heard u = now s ∧ u ∉ t.wrn.unreachable) ∧
    ((outPort s u).isSome = true → Answers (.presenceProbe u st) s fun t => tget 0 t.wrn.peerState u = st ∧ tget 0 t.wrn.heard u = now s ∧
      sentTo t u (.presence true (stCode s.uni.st)))) ∧
  (∀ (s : State) (u : Nat), powered s = true → u < fabN s.vq.active → u ≠ me s →
    (now s < tget 0 s.wrn.heard u + 250000000 → exec (.presenceProbeTimer u) s = .next s) ∧
    (tget 0 s.wrn.heard u + 250000000 ≤ now s → (outPort s u).isSome = true → Answers (.presenceProbeTimer u) s fun t =>
      sentTo t u (.presence false (stCode s.uni.st)))) ∧
  (∀ (s : State) (u : Nat), u < fabN s.vq.active → u ≠ me s → u ∉ s.wrn.unreachable →
    (now s < tget 0 s.wrn.heard u + 1000000000 → exec (.unreachableTimeout u) s = .next s) ∧
    (tget 0 s.wrn.heard u + 1000000000 ≤ now s → Answers (.unreachableTimeout u) s fun t => u ∈ t.wrn.unreachable ∧
      (∀ o r a stamp idn w, s.wrn.reqs = [o] → o.env.dst = u → o.env.msg = .read a stamp idn w → waitingFor s o.tag = some r →
        r.origin = none → r.answered = false → .memData r.id r.ld (List.replicate 64 0) true 0 ∈ t.out))) ∧
  (∀ (s : State) (tag : Nat) (o : Outst), outReq s tag = some o →
    let wait := if standsForever o.env.msg then 100000000 else 2000000
    (now s < o.sentAt + wait → exec (.requestRetryTimer tag) s = .next s) ∧
    (o.sentAt + wait ≤ now s → (standsForever o.env.msg = true ∨ o.tries < 3) → bulkLen o.env.msg = none →
      unreachable s o.env.dst = false → Answers (.requestRetryTimer tag) s fun t =>
        outReq t tag = some { o with sentAt := now s, tries := o.tries + 1 } ∧ t.wrn.resends = min (s.wrn.resends + 1) 4294967295 ∧
        ((∃ n, Out.warren n { o.env with retry := true } ∈ t.out) ∨ ∃ w ∈ t.wrn.transit, w.env = { o.env with retry := true }))) ∧
  (∀ (s : State) (d p q : Nat) (at0 : Ns), route s.vq.active (me s) d = some (p, q) → (portOf s.wrn p).upSince = some at0 →
    d ∈ s.wrn.alt → portUsable (portOf s.wrn p) = true →
      (now s < at0 + 1000000000 → exec (.routeRestore d) s = .next s) ∧
      (at0 + 1000000000 ≤ now s → Answers (.routeRestore d) s fun t => d ∉ t.wrn.alt ∧ (outPort t d) = some p))

/-- SYNC goes out every 1 ms and DELAY_REQ every 16 ms; a parent's messages give the path delay and the offset (R27, R275, R276,
R277). Once its timebase is loaded a unit sends SYNC with its time on every usable port every 1 ms, and a child DELAY_REQ to its
parent every 16 ms, and not before. A DELAY_REQ is answered with the time of its arrival. From its parent's SYNC a child takes
the offset as the difference of the arrival and the time sent less the delay, in 2^-8 ns, and from a DELAY_RESP the delay as
half the sum of the two ways, with the offset it gives; the depth is one more than the parent's. A message of another unit
changes none of these. -/
def Obligations.WarrenTime : Prop :=
  ∀ s : State, powered s = true → s.mon.loaded = true →
    (now s < s.wrn.syncTx + 1000000 → exec .timeSyncTimer s = .next s) ∧
    (s.wrn.syncTx + 1000000 ≤ now s → Answers .timeSyncTimer s fun t => t.wrn.syncTx = now s ∧
      ∀ n < 48, portUsable (portOf s.wrn n) = true → sentTo t (portOf s.wrn n).peerUnit (.time 0 s.wrn.aligned s.wrn.depth (now s) 0)) ∧
    (now s < s.wrn.reqTx + 16000000 → exec .delayReqTimer s = .next s) ∧
    (s.wrn.hasParent = true → s.wrn.reqTx + 16000000 ≤ now s → Answers .delayReqTimer s fun t => t.wrn.reqTx = now s ∧
      sentTo t (portOf s.wrn s.wrn.parentPort).peerUnit (.time 1 s.wrn.aligned s.wrn.depth (now s) 0)) ∧
    (∀ src, src < fabN s.vq.active → nothingOwedTo s src = true → src ∉ s.wrn.unreachable →
      (∀ port t0 arr, portUsable (portOf s.wrn port) = true → Answers (.delayReq port src t0 arr) s fun t =>
        sentTo t (portOf s.wrn port).peerUnit (.time 2 s.wrn.aligned s.wrn.depth t0 arr)) ∧
      (∀ port depth al t0 arr, s.lif.noTime = false →
        (s.wrn.hasParent = true → s.wrn.parentPort = port → s.wrn.parent = src → Answers (.timeSync port src depth al t0 arr) s fun t =>
          t.wrn.offset = 256 * ((arr : Int) - t0) - s.wrn.delay ∧ t.wrn.depth = min (depth + 1) 63 ∧ t.mon.disciplined = true ∧
          (t.wrn.aligned = true → (256 * ((arr : Int) - t0) - s.wrn.delay).natAbs ≤ 512)) ∧
        (s.wrn.parent ≠ src → Answers (.timeSync port src depth al t0 arr) s fun t => t.wrn.offset = s.wrn.offset ∧
          t.wrn.depth = s.wrn.depth ∧ t.mon = s.mon)) ∧
      (∀ (port : Nat) (t1 t4 : Ns), s.wrn.hasParent = true → s.wrn.parentPort = port → s.wrn.parent = src → s.wrn.syncT ≠ 0 → s.wrn.reqTx ≠ 0 →
        let down : Int := (s.wrn.syncRx : Int) - s.wrn.syncT
        let d : Nat := (128 * (down + ((t4 : Int) - s.wrn.reqTx))).toNat
        Answers (.delayResp port src t1 t4) s fun t => t.wrn.delay = d ∧ t.wrn.offset = 256 * down - d))

/-- A host's send is enqueued with its stamp word, counted as an overrun when posted into a full queue, or retried when
deferrable (R128, R130, R134, R135, R115, Table 7.2, Table 7.3, Table 7.5, Table 7.6). On a link that may send, with the
mailbox's domain up: a write to MBX_SEND ends the wait of a held lower half and enqueues one message, the written or the joined
word, or in POINTER mode the held pointer with it, under the stamp word of R128; into a full queue it leaves the queue as it is
and sets the overrun flag, doorbell bit OVERRUN and the count, which saturates. A half is held. An 8-byte Deferrable Memory
Write enqueues likewise and a 16-byte one enqueues its notice, each completing with success, or with Request Retry Status into a
full queue; a 16-byte one in WORD mode is an Unsupported Request. While the domain is down nothing is enqueued and event 0x0601
is recorded, and a Deferrable Memory Write is aborted. Off a link that may send nothing happens. -/
def Obligations.MailboxSends : Prop :=
  ∀ (s : State) (ld : Nat) (v : Word) (stamp : Ns), ideOk s (ld / 16) = true →
    let b := boxOf s.mbx ld
    let word := stampWord ((ldTenant s ld).getD 0 * 256 + ld) b.epoch 0 stamp
    let msg (x : Word) : MbxMsg := if b.pointer then ⟨word, b.ptr, x⟩ else ⟨word, x, 0⟩
    let sent := match b.low with
      | some l => msg ((v >>> 32) <<< 32 ||| l.setWidth 64)
      | none => msg v
    (mbxDown s = false →
      (b.h2f.length < 16 → Answers (.mbxSend ld v stamp) s fun t => (boxOf t.mbx ld).h2f = b.h2f ++ [sent] ∧
        (boxOf t.mbx ld).low = none ∧ (boxOf t.mbx ld).overruns = b.overruns) ∧
      (16 ≤ b.h2f.length → Answers (.mbxSend ld v stamp) s fun t => (boxOf t.mbx ld).h2f = b.h2f ∧ (boxOf t.mbx ld).ovr = true ∧
        (boxOf t.mbx ld).overruns = min (b.overruns + 1) 65535 ∧ (boxOf t.mbx ld).db = b.db ||| 16 ∧ (boxOf t.mbx ld).spaceOwed = true) ∧
      (Answers (.mbxSendHalf ld (v.setWidth 32)) s fun t => (boxOf t.mbx ld) = { b with low := some (v.setWidth 32) } ∧ t.out = s.out) ∧
      (Answers (.mbxDmwrWord ld v stamp) s fun t =>
        if b.h2f.length < 16 then t.out = .dmwrSuccess ld :: s.out ∧ (boxOf t.mbx ld) = { b with h2f := b.h2f ++ [msg v] }
        else t.out = .dmwrRetry ld :: s.out ∧ (boxOf t.mbx ld) = { b with spaceOwed := true }) ∧
      (∀ ptr, Answers (.mbxDmwrPointer ld ptr v stamp) s fun t =>
        if b.pointer = false then t = { s with out := .dmwrUnsupported ld :: s.out }
        else if b.h2f.length < 16 then t.out = .dmwrSuccess ld :: s.out ∧ (boxOf t.mbx ld) = { b with h2f := b.h2f ++ [⟨word, ptr, v⟩] }
        else t.out = .dmwrRetry ld :: s.out ∧ (boxOf t.mbx ld) = { b with spaceOwed := true })) ∧
    (mbxDown s = true →
      (Answers (.mbxSend ld v stamp) s fun t => t.mbx = s.mbx ∧ noted t 0x0601 0 1 ld) ∧
      (∀ h, Answers (.mbxSendHalf ld h) s fun t => t.mbx = s.mbx ∧ noted t 0x0601 0 1 ld) ∧
      (Answers (.mbxDmwrWord ld v stamp) s fun t => t.mbx = s.mbx ∧ noted t 0x0601 0 1 ld ∧ .dmwrAbort ld ∈ t.out) ∧
      (∀ ptr, Answers (.mbxDmwrPointer ld ptr v stamp) s fun t => t.mbx = s.mbx ∧ noted t 0x0601 0 1 ld ∧ .dmwrAbort ld ∈ t.out)) ∧
    (∀ s' : State, ideOk s' (ld / 16) = false → exec (.mbxSend ld v stamp) s' = .next s' ∧ (∀ h, exec (.mbxSendHalf ld h) s' = .next s') ∧
      exec (.mbxDmwrWord ld v stamp) s' = .next s' ∧ ∀ ptr, exec (.mbxDmwrPointer ld ptr v stamp) s' = .next s')

/-- A pop removes the head of the firmware's queue; clears and mask writes act on the doorbells; held messages move up; a fault
empties a queue (R131, R132, R133, R134, R144, Table 7.4). With the domain up: a pop with bit 0 set drops the head of the queue
to the host and one without it changes nothing. A clear takes the written bits from the doorbells, and bit 0 reads 1 while a
message stands in the queue, whatever is written. A mask write stores the mask, and vector 0 goes out, or is pending when it is
masked, where it uncovers a set bit. Messages the firmware holds move into the queue while it has free entries, in order. A host
queue whose hardware faults is emptied, its messages are counted and DISCARD is set; an internal queue likewise sets DISCARD. -/
def Obligations.HostMailboxMoves : Prop :=
  ∀ (s : State) (ld : Nat) (v : Word),
    let b := boxOf s.mbx ld
    (ideOk s (ld / 16) = true → mbxDown s = false →
      (Answers (.mbxRecvPop ld v) s fun t => if v.getLsbD 0 = true then (boxOf t.mbx ld) = { b with f2h := b.f2h.drop 1 } else t = s) ∧
      (Answers (.mbxDbClear ld v) s fun t => (boxOf t.mbx ld) = { b with db := b.db &&& ~~~ (v.setWidth 32) } ∧
        ((dbBits (boxOf t.mbx ld)).getLsbD 0 = true ↔ b.f2h ≠ [])) ∧
      (Answers (.mbxDbMaskWrite ld v) s fun t => (boxOf t.mbx ld) = { b with mask := v.setWidth 32 } ∧
        ((∃ i < 32, (dbBits b).getLsbD i = true ∧ b.mask.getLsbD i = true ∧ v.getLsbD i = false) →
          if (tget {} (ldOf s.hst ld).vecs 0).masked then (ldOf t.hst ld).pba.getLsbD 0 = true else t.out = .msix ld 0 :: s.out) ∧
        ((∀ i < 32, (dbBits b).getLsbD i = true → b.mask.getLsbD i = true → v.getLsbD i = true) → t.out = s.out ∧ t.hst = s.hst))) ∧
    (ideOk s (ld / 16) = true → mbxDown s = true → ∀ w, (w = .mbxRecvPop ld v ∨ w = .mbxDbClear ld v ∨ w = .mbxDbMaskWrite ld v) →
      Answers w s fun t => t.mbx = s.mbx ∧ noted t 0x0601 0 1 ld) ∧
    (Answers (.f2hDeferredEnqueue ld) s fun t =>
      (boxOf t.mbx ld).f2h = b.f2h ++ b.unsent.take (16 - b.f2h.length) ∧ (boxOf t.mbx ld).unsent = b.unsent.drop (16 - b.f2h.length)) ∧
    (Answers (.mailboxFault ld false true) s fun t => (boxOf t.mbx ld).h2f = [] ∧ (boxOf t.mbx ld).f2h = b.f2h ∧
      (boxOf t.mbx ld).discarded = min (b.discarded + b.h2f.length) 65535 ∧ (boxOf t.mbx ld).db = b.db ||| 4) ∧
    (Answers (.mailboxFault ld false false) s fun t => (boxOf t.mbx ld).f2h = [] ∧ (boxOf t.mbx ld).h2f = b.h2f ∧
      (boxOf t.mbx ld).repliesDiscarded = min (b.repliesDiscarded + b.f2h.length) 65535 ∧ (boxOf t.mbx ld).db = b.db ||| 4) ∧
    (∀ h2f, Answers (.mailboxFault ld true h2f) s fun t => t.mbx.host = s.mbx.host ∧
      (intOf t.mbx ld).inQ = (if h2f then [] else (intOf s.mbx ld).inQ) ∧ (intOf t.mbx ld).outQ = (if h2f then (intOf s.mbx ld).outQ else []) ∧
      (intOf t.mbx ld).db = (intOf s.mbx ld).db ||| 4)

/-- The firmware takes the head of a queue and answers each opcode with its result, under its own stamp word (R134, R139, R140,
R141, Table 7.7). When no restart runs and the domain is up, with fewer than 16 messages held for the LD, the head of the queue,
a message of the LD's current epoch in WORD mode, is taken and one reply is enqueued, or held while the queue is full: opcode +
0x80, the same tag, status and result, under the stamp word of the firmware on that core. The result is that of Table 7.7 for
each request; an opcode it does not have is answered UNKNOWN_OP, and an argument other than the 0 it names BAD_ARG (the model's
choice, log entry 25). A message of an ended epoch is discarded and counted with DISCARD set. A POINTER notice whose block fails
the checks of R141 is answered with status 2, its pointer and its length, and the memory is as before. One whose line reads here
without a repair is answered with its status. A row whose opcodes do not have the head's changes nothing. -/
def Obligations.FirmwareAnswersRequests : Prop :=
  ∀ (s : State) (ld core : Nat) (m : MbxMsg) (rest : List MbxMsg),
    let b := boxOf s.mbx ld
    fwTakes s ld = true → b.taken = [] → b.h2f = m :: rest →
    let rows : List (Instr × (Nat → Bool)) := [(.ping ld core, (· == 1)), (.leaseInfo ld core, (· == 2)), (.extentState ld core, (· == 3)),
      (.reserveLevels ld core, (· == 4)), (.imageReq ld core, (· == 5)), (.unknownOp ld core, fun op => op == 0 || decide (5 < op))]
    let op := bits (if b.pointer then m.p1 else m.p0).toNat 63 56
    let replied (t : State) (r : MbxMsg) : Prop := (boxOf t.mbx ld).h2f = rest ∧ r.stamp = stampWord (core % 16) s.mbx.fwEpoch 1 (now s) ∧
      if b.f2h.length < 16 ∧ b.unsent = [] then (boxOf t.mbx ld).f2h = b.f2h ++ [r] else (boxOf t.mbx ld).unsent = b.unsent ++ [r]
    ∀ x ∈ rows,
      (x.2 op = false → exec x.1 s = .next s) ∧
      (x.2 op = true → stampEpoch m.stamp ≠ b.epoch → Answers x.1 s fun t => (boxOf t.mbx ld).h2f = rest ∧ (boxOf t.mbx ld).f2h = b.f2h ∧
        (boxOf t.mbx ld).discarded = min (b.discarded + 1) 65535 ∧ (boxOf t.mbx ld).db.getLsbD 2 = true) ∧
      (x.2 op = true → stampEpoch m.stamp = b.epoch → b.pointer = false → Answers x.1 s fun t => ∃ r, replied t r ∧
        let p := r.p0.toNat
        let arg := m.p0.toNat % 2 ^ 48
        let is (status res : Nat) : Prop := bits p 47 40 = status ∧ bits p 39 0 = res
        bits p 63 56 = (op + 128) % 256 ∧ bits p 55 48 = bits m.p0.toNat 55 48 ∧ r.p1 = 0 ∧
        (op = 1 → is 0 (arg % 2 ^ 40)) ∧ ((op = 2 ∨ op = 4 ∨ op = 5) → arg ≠ 0 → is 2 0) ∧
        (op = 2 → arg = 0 → ∀ tn, ldTenant s ld = some tn →
          bits p 47 40 = 0 ∧ bits p 15 0 = tenHome s.vq.active tn % 2 ^ 16 ∧
          bits p 39 16 = if (leaseOf s tn).granted = true ∧ now s < (leaseOf s tn).expiry
            then ((leaseOf s tn).expiry - now s) / 1000000 % 2 ^ 24 else 0) ∧
        (op = 3 → ∀ tn e, ldTenant s ld = some tn → extRec (extView s) (arg % 65536) = some e →
          if e.tenant = tn ∨ (extSt s (arg % 65536)).st = 3 ∧ bit e.readers tn = true then is 0 ((extSt s (arg % 65536)).st % 2 ^ 40) else is 3 0) ∧
        (op = 4 → arg = 0 → bits p 47 40 = 0 ∧ ∀ c, 1 ≤ c → c ≤ 12 → bits p (2 * c - 1) (2 * c - 2) = classLevel s c % 4) ∧
        (op = 5 → arg = 0 → is 0 (((s.vq.active.map (·.gen)).getD 0) % 2 ^ 40)) ∧ (op = 0 ∨ 5 < op → is 1 0)) ∧
      (x.2 op = true → stampEpoch m.stamp = b.epoch → b.pointer = true →
        let answer (status : Nat) : State → Prop := fun t => ∃ r, replied t r ∧ r.p0 = m.p0 ∧ bits r.p1.toNat 31 0 = bits m.p1.toNat 31 0 ∧
          bits r.p1.toNat 63 56 = (op + 128) % 256 ∧ bits r.p1.toNat 55 48 = status ∧ bits r.p1.toNat 47 32 = bits m.p1.toNat 47 32
        (blockOk s ld m = false → Answers x.1 s fun t => answer 2 t ∧ t.cdc = s.cdc ∧ t.drt = s.drt) ∧
        (∀ tn e g a d, blockOk s ld m = true → ldTenant s ld = some tn → ownExt s tn m.p0.toNat = some (e, g) →
          rangeReady s tn m.p0.toNat 16 true = true → landedAddr s e g (m.p0.toNat / 32768) (m.p0.toNat / 4096 % 8) = some a →
          readLine s e.tenant (m.p0.toNat / 4096) a (m.p0.toNat / 64 % 64) = .data d false →
            (op = 1 → Answers x.1 s (answer 0)) ∧ (op = 0 ∨ 5 < op → Answers x.1 s (answer 1))))

/-- A peer's MBX is enqueued and answered OK, or FULL, REFUSED or ABSENT; the answer releases the message, keeps it or ends it
(R133, R134, R135, R269, R444, Table 7.5, Table 7.6). An MBX of a peer, not a duplicate, whose box is the peer's own and whose
mode is the box's, is answered OK and enqueued with an interrupt of the firmware's core while the queue has a free entry, and
FULL with the queue unchanged otherwise; REFUSED where box or mode do not fit; ABSENT in a unit state that does not serve. An
MBX_ANS to the message that waits takes it off the sender's queue with OK, keeps it with FULL, which it counts, and takes it off
with ABSENT, which it counts and records as 0x0601. The request is over each time. -/
def Obligations.PeerMailboxes : Prop :=
  (∀ (s : State) (src tag box : Nat) (p : Bool) (w p0 p1 : Word), src < fabN s.vq.active → dupOf s src tag = none →
    (outPort s src).isSome = true →
    let j := 16 + src % 48
    let fits := box = j ∧ p = (intOf s.mbx j).pointer
    (fits → unitServesOrHeld s = true → (intOf s.mbx j).inQ.length < 16 → Answers (.mbx src tag box p w p0 p1) s fun t =>
      (intOf t.mbx j).inQ = (intOf s.mbx j).inQ ++ [⟨w, p0, if p then p1 else 0⟩] ∧ .coreInterrupt j 0 ∈ t.out ∧ sentTo t src (.mbxAns 0)) ∧
    (fits → unitServesOrHeld s = true → 16 ≤ (intOf s.mbx j).inQ.length → Answers (.mbx src tag box p w p0 p1) s fun t =>
      t.mbx = s.mbx ∧ sentTo t src (.mbxAns 4)) ∧
    (¬ fits → Answers (.mbx src tag box p w p0 p1) s fun t => t.mbx = s.mbx ∧ sentTo t src (.mbxAns 3)) ∧
    (fits → unitServesOrHeld s = false → Answers (.mbx src tag box p w p0 p1) s fun t => t.mbx = s.mbx ∧ sentTo t src (.mbxAns 2))) ∧
  (∀ (s : State) (src tag : Nat) (o : Outst) (bx : Nat) (p : Bool) (w p0 p1 : Word), src < fabN s.vq.active → outReq s tag = some o →
    o.env.msg = .mbx bx p w p0 p1 →
    let j := 16 + src % 48
    let b := intOf s.mbx j
    b.sent = some tag →
    (Answers (.mbxAns src tag 0) s fun t => (intOf t.mbx j) = { b with outQ := b.outQ.drop 1, sent := none } ∧ outReq t tag = none) ∧
    (Answers (.mbxAns src tag 4) s fun t => (intOf t.mbx j) = { b with sent := none, full := min (b.full + 1) 65535 } ∧ outReq t tag = none) ∧
    (Answers (.mbxAns src tag 2) s fun t => (intOf t.mbx j) = { b with outQ := b.outQ.drop 1, sent := none, absent := min (b.absent + 1) 65535 } ∧
      outReq t tag = none ∧ noted t 0x0601 0 0 0))

/-- A ring enables when both queues lie in an ACTIVE extent of its tenant; doorbells store their value and stop a ring that
overruns (R311, R312, R313, R314, R315, Table 14.1). Through an LD whose writes are taken and whose tenant holds the ring:
enabling a ring that is not enabled stays refused with ERROR 5 while it holds records, with 2 where a size is outside 2^4 to
2^16, and with 1 where a queue does not lie whole in one ACTIVE extent of the tenant of a kind that allows it; else the ring is
enabled with its indices and marks zero and the writing LD. Disabling clears ENABLE alone. A doorbell stores TAIL or HEAD; more
descriptors than the SQ holds stop an enabled ring with ERROR 3, and a HEAD that passes CQ_TAIL with 4. A deferrable doorbell
completes, or is retried with nothing stored while the intake of 1,024 is full; a posted one always stores. A ring that the
tenant does not hold changes nothing. -/
def Obligations.RingsEnableAndRing : Prop :=
  ∀ (s : State) (ld ring : Nat) (stamp : Ns), barTaken s ld = true →
    ((ldTenant s ld).bind (fun t => localRing s t ring) = none →
      exec (.ringEnable ld ring stamp) s = .next s ∧ exec (.ringDisable ld ring) s = .next s ∧
      ∀ v d, exec (.sqDoorbell ld ring v d stamp) s = .next s ∧ exec (.cqDoorbell ld ring v d) s = .next s) ∧
    (∀ tn n, ldTenant s ld = some tn → localRing s tn ring = some n →
      let r := ringOf s.opq n
      let inside (a len : Nat) : Prop := a % 4096 = 0 ∧ ∃ e g h, extAt (extView s) tn a = some (e, g) ∧ extAt (extView s) tn (a + len - 1) = some (e, h) ∧
        1 ≤ e.kind ∧ e.kind ≤ 3 ∧ (extSt s e.id).st = 1
      let sized := 4 ≤ r.sqLog ∧ r.sqLog ≤ 16 ∧ 4 ≤ r.cqLog ∧ r.cqLog ≤ 16
      let placed := inside r.sqBase (128 * 2 ^ r.sqLog) ∧ inside r.cqBase (64 * 2 ^ r.cqLog)
      let keeps (t : State) : Prop := ∀ k, k ≠ n → ringOf t.opq k = ringOf s.opq k
      (r.enable = false → r.leaving = false →
        (r.held ≠ [] → Answers (.ringEnable ld ring stamp) s fun t => ringOf t.opq n = { r with error := 5 } ∧ keeps t) ∧
        (r.held = [] → ¬ sized → Answers (.ringEnable ld ring stamp) s fun t => ringOf t.opq n = { r with error := 2 } ∧ keeps t) ∧
        (r.held = [] → sized → ¬ placed → Answers (.ringEnable ld ring stamp) s fun t => ringOf t.opq n = { r with error := 1 } ∧ keeps t) ∧
        (r.held = [] → sized → placed → Answers (.ringEnable ld ring stamp) s fun t => keeps t ∧ ringOf t.opq n =
          { r with enable := true, error := 0, ld := ld, sqHead := 0, cqTail := 0, tail := 0, head := 0, tenant := tn, marks := [], stamps := [] })) ∧
      (r.enable = true → exec (.ringEnable ld ring stamp) s = .next s) ∧
      (Answers (.ringDisable ld ring) s fun t => ringOf t.opq n = { r with enable := false } ∧ keeps t) ∧
      (∀ (v : BitVec 32) (d : Bool),
        (d = true → 1024 ≤ s.opq.dbIntake.length → exec (.sqDoorbell ld ring v d stamp) s = .next { s with out := .dmwrRetry ld :: s.out } ∧
          exec (.cqDoorbell ld ring v d) s = .next { s with out := .dmwrRetry ld :: s.out }) ∧
        (d = false ∨ s.opq.dbIntake.length < 1024 →
          let stops := r.enable = true ∧ 2 ^ r.sqLog < (v.toNat + 2 ^ 32 - r.sqHead) % 2 ^ 32
          let passes := r.enable = true ∧ (r.cqTail + 2 ^ 32 - r.head) % 2 ^ 32 < (v.toNat + 2 ^ 32 - r.head) % 2 ^ 32
          (Answers (.sqDoorbell ld ring v d stamp) s fun t => keeps t ∧ (ringOf t.opq n).tail = v.toNat ∧
            t.out = (if d then [.dmwrSuccess ld] else []) ++ s.out ∧ (stops → (ringOf t.opq n).enable = false ∧ (ringOf t.opq n).error = 3) ∧
            (¬ stops → (ringOf t.opq n).enable = r.enable ∧ (ringOf t.opq n).error = r.error)) ∧
          (Answers (.cqDoorbell ld ring v d) s fun t => keeps t ∧ (ringOf t.opq n).head = v.toNat ∧
            t.out = (if d then [.dmwrSuccess ld] else []) ++ s.out ∧ (passes → (ringOf t.opq n).enable = false ∧ (ringOf t.opq n).error = 4) ∧
            (¬ passes → (ringOf t.opq n).enable = r.enable ∧ (ringOf t.opq n).error = r.error)))))

/-- A ring gives its next descriptor: it runs here, is forwarded, refused with its reason, or aborted where it was marked (R316,
R320, R321, R322, R325, R338, R339, Table 14.5). For a SERVING unit with one ring that is enabled and has a descriptor
submitted, a valid lease, room in its CQ and a descriptor that reads without a repair: when it is placed here with fewer than
2,048 operators, or on another unit with fewer than 2,048 forwarded, it is taken, SQ_HEAD goes on by one and the pointer to the
next ring. A marked one is counted ABORTED by the host and one that fails a static check REFUSED with that reason; neither runs.
One for a unit that is not SERVING is REFUSED UNIT. Else it joins the operators here with this ring, index and time, or the
forward table, and OP_FWD goes out for it. A ring that is disabled, empty, without a valid lease or with a full CQ gives
nothing. -/
def Obligations.DescriptorsTaken : Prop :=
  ∀ (s : State) (n : Nat), s.uni.st = .serving → s.uni.restarting = false → s.opq.rings.map (·.1) = [n] →
    let r := ringOf s.opq n
    let l := leaseOf s r.tenant
    let ready := r.enable = true ∧ r.tail ≠ r.sqHead ∧ l.granted = true ∧ l.owed = false ∧ now s < leaseGuardAt s r.tenant ∧
      (r.cqTail + 2 ^ 32 - r.head) % 2 ^ 32 + r.owed < 2 ^ r.cqLog
    let a := r.sqBase + 128 * (r.sqHead % 2 ^ r.sqLog)
    (¬ ready → exec .descriptorTake s = .next { s with opq := { s.opq with dbIntake := [] } }) ∧
    (∀ d, ready → rangeReady s r.tenant a 128 false = true →
      agentRead r.tenant a 128 { s with opq := { s.opq with dbIntake := [] } } = ({ s with opq := { s.opq with dbIntake := [] } }, d, false) →
      descOp d ≠ 0x7F → n < 65535 → r.sqHead < 2 ^ 32 - 1 →
      let u := if descUnit d = 0xFFFF then autoUnit s r.tenant d else descUnit d
      let took (t : State) : Prop := (ringOf t.opq n).sqHead = r.sqHead + 1 ∧ t.opq.pointer = n + 1
      ((u = me s ∧ opsCounted s.opq < 2048) ∨ (u ≠ me s ∧ s.opq.fwd.length < 2048)) →
        (r.sqHead ∈ r.marks → Answers .descriptorTake s fun t => took t ∧ t.opq.ops = s.opq.ops ∧ t.opq.abHost = min (s.opq.abHost + 1) 65535) ∧
        (r.sqHead ∉ r.marks → ∀ e, staticRefusal s r.tenant d = some e → Answers .descriptorTake s fun t => took t ∧ t.opq.refReason = e ∧
          t.opq.refTenant = r.tenant ∧ t.opq.refused = min (s.opq.refused + 1) 4294967295) ∧
        (r.sqHead ∉ r.marks → staticRefusal s r.tenant d = none → unitServing s u = false → Answers .descriptorTake s fun t => took t ∧
          t.opq.refReason = 9 ∧ t.opq.refused = min (s.opq.refused + 1) 4294967295) ∧
        (r.sqHead ∉ r.marks → staticRefusal s r.tenant d = none → unitServing s u = true →
          (u = me s → Answers .descriptorTake s fun t => took t ∧ (ringOf t.opq n).owed = r.owed + 1 ∧
            ∃ o, t.opq.ops = s.opq.ops ++ [o] ∧ o.ringUnit = me s ∧ o.ring = n ∧ o.sqIndex = r.sqHead ∧ o.tenant = r.tenant ∧ o.desc = d ∧
              o.started = none ∧ o.taken = now s ∧ o.gate = 0) ∧
          (u ≠ me s → descFence d = false → (outPort s u).isSome = true → Answers .descriptorTake s fun t => took t ∧
            (ringOf t.opq n).owed = r.owed + 1 ∧ t.opq.ops = s.opq.ops ∧ (∃ o ∈ t.opq.fwd, o.ring = n ∧ o.sqIndex = r.sqHead ∧ o.desc = d ∧
              o.execUnit = u ∧ o.tag = s.wrn.nextTag) ∧ sentTo t u (.opFwd d n r.sqHead))))

/-- OP_FWD is run, queued or refused with its record; OP_DONE ends the forwarded operator; an ABORT meets its target at the gate
(R316, R317, R318, R322, R323, R325, R328, R338, R339, R340, Table 14.3, Table 14.5). An OP_FWD of a known unit whose tenant
holds the ring joins the operators here, or the intake when 2,048 run, and is answered BUSY when the intake is full too; one
that fails a static check, or finds this unit not SERVING, is answered with a record that says so and carries its tag and
opcode. An OP_DONE ends the operator that waits for it, or for BUSY makes it due again, and 1 ms later, not before, it is sent
under a new tag. An ABORT of an operator here before its gate leaves it ABORTED by the host and itself completed; past its gate
the target gets ABORT_LATE and the ABORT is ALREADY_DONE; one of a descriptor not yet taken marks it. At its time limit an
operator is aborted with TIMEOUT and event 0x0D01, and not before. -/
def Obligations.ForwardedOperators : Prop :=
  (∀ (s : State) (src tag ring sq tn : Nat) (d : List Byte), src < fabN s.vq.active → src ≠ me s → nothingOwedTo s src = true →
    src ∉ s.wrn.unreachable → (outPort s src).isSome = true → dupOf s src tag = none → hasTenant s.vq.active tn = true → d.length = 128 →
    (ringRange s.vq.active src tn).1 ≤ ring → ring < (ringRange s.vq.active src tn).1 + (ringRange s.vq.active src tn).2 →
    let refusedWith (reason : Nat) (t : State) : Prop := ∃ rcd : List Byte, sentTo t src (.opDone rcd) ∧ rcd.length = 64 ∧ fld rcd 0 4 = fld d 4 4 ∧
      fld rcd 8 1 = fld d 0 1 ∧ fld rcd 9 1 = 2 ∧ fld rcd 10 1 = reason ∧ fld rcd 12 2 = me s % 65536 ∧ t.opq.ops = s.opq.ops ∧ t.opq.intake = s.opq.intake
    (s.uni.st ≠ .serving → Answers (.opFwd src tag ring sq tn d) s (refusedWith 9)) ∧
    (s.uni.st = .serving → (∀ e, staticRefusal s tn d = some e → Answers (.opFwd src tag ring sq tn d) s (refusedWith e)) ∧
      (staticRefusal s tn d = none → descOp d ≠ 0x7F →
        let mine (o : Op) : Prop := o.ringUnit = src ∧ o.ring = ring ∧ o.tenant = tn ∧ o.desc = d ∧ o.tag = tag ∧ o.started = none ∧ o.gate = 0
        (opsCounted s.opq < 2048 → Answers (.opFwd src tag ring sq tn d) s fun t => ∃ o, t.opq.ops = s.opq.ops ++ [o] ∧ mine o) ∧
        (2048 ≤ opsCounted s.opq → s.opq.intake.length < 512 → Answers (.opFwd src tag ring sq tn d) s fun t =>
          ∃ o, t.opq.intake = s.opq.intake ++ [o] ∧ mine o) ∧
        (2048 ≤ opsCounted s.opq → 512 ≤ s.opq.intake.length → Answers (.opFwd src tag ring sq tn d) s (refusedWith 11))))) ∧
  (∀ (s : State) (src tag : Nat) (rcd : List Byte) (o : Op) (q : Outst), unitServesOrHeld s = true → src < fabN s.vq.active →
    rcd.length = 64 → outReq s tag = some q → s.opq.fwd = [o] → o.tag = tag →
      (fld rcd 9 1 = 2 → fld rcd 10 1 = 11 → Answers (.opDone src tag rcd) s fun t => t.opq.fwd = [{ o with started := some (now s) }] ∧ outReq t tag = none) ∧
      ((fld rcd 9 1 ≠ 2 ∨ fld rcd 10 1 ≠ 11) → Answers (.opDone src tag rcd) s fun t => t.opq.fwd = [])) ∧
  (∀ (s : State) (tag : Nat) (o : Op) (st : Ns), s.opq.fwd = [o] → o.tag = tag → o.started = some st →
    (now s < st + 1000000 → exec (.opFwdResend tag) s = .next s) ∧
    (st + 1000000 ≤ now s → o.execUnit ∉ s.wrn.unreachable → (outPort s o.execUnit).isSome = true → Answers (.opFwdResend tag) s fun t =>
      t.opq.fwd = [{ o with started := none, tag := s.wrn.nextTag }] ∧ sentTo t o.execUnit (.opFwd o.desc o.ring o.sqIndex))) ∧
  (∀ (s : State) (o x : Op), unitServesOrHeld s = true → s.uni.restarting = false → s.opq.ops = [x, o] → s.opq.intake = [] → s.opq.fwd = [] →
    descOp o.desc = 0x7F → o.fence = false → o.ringUnit = x.ringUnit → o.ringUnit ≠ me s → sameOp x o = false → o.sqIndex ≠ x.sqIndex →
    abortTarget s o = (x.ring, x.sqIndex) → (outPort s o.ringUnit).isSome = true → o.ringUnit ∉ s.wrn.unreachable →
      let ends (t : State) (status : Nat) : Prop := ∃ rcd, sentTo t o.ringUnit (.opDone rcd) ∧ fld rcd 9 1 = status ∧ fld rcd 8 1 = 0x7F
      (x.gate = 0 → Answers (.abort o.ringUnit o.ring o.sqIndex) s fun t => t.opq.ops = [] ∧ t.opq.abHost = min (s.opq.abHost + 1) 65535 ∧ ends t 0) ∧
      (x.gate ≠ 0 → Answers (.abort o.ringUnit o.ring o.sqIndex) s fun t => t.opq.ops = [{ x with flags11 := x.flags11 ||| 1 }] ∧ ends t 4)) ∧
  (∀ (s : State) (o : Op), unitServesOrHeld s = true → s.uni.restarting = false → s.opq.ops = [o] → s.opq.intake = [] → s.opq.fwd = [] →
    descOp o.desc = 0x7F → o.fence = false → o.ringUnit = me s → (abortTarget s o).1 ≠ o.ring → (ringOf s.opq (abortTarget s o).1).leaving = false →
    ((abortTarget s o).2 + 2 ^ 32 - (ringOf s.opq (abortTarget s o).1).sqHead) % 2 ^ 32 < 2 ^ 31 →
      Answers (.abort o.ringUnit o.ring o.sqIndex) s fun t => t.opq.ops = [] ∧ (abortTarget s o).2 ∈ (ringOf t.opq (abortTarget s o).1).marks) ∧
  (∀ (s : State) (o : Op) (st : Ns), s.opq.ops = [o] → s.opq.intake = [] → o.started = some st → o.gate = 0 →
    let limit := 1000000 * (if fld o.desc 8 4 ≠ 0 then fld o.desc 8 4 else if descOp o.desc ≤ 7 then 60000 else if descOp o.desc ≤ 0x14 then 600000
      else if descOp o.desc ≤ 0x21 then 3600000 else if descOp o.desc = 0x30 then 600000 else 1000)
    (now s < st + limit → exec (.operatorTimeout o.ringUnit o.ring o.sqIndex) s = .next s) ∧
    (st + limit ≤ now s → Answers (.operatorTimeout o.ringUnit o.ring o.sqIndex) s fun t => t.opq.ops = [] ∧
      t.opq.abTimeout = min (s.opq.abTimeout + 1) 65535 ∧ noted t 0x0D01 o.tenant 10 o.ring))

/-- SEAL moves its extent to SEALING at the seal point; when every part is done and committed the extent is SEALED and readers
are offered it (R148, R149, R150, R152, R168, Table 8.3). SEAL, an operator that runs, has started and is not past its gate,
moves its extent to SEALING, is itself past its gate, with the stamp of its doorbell as result 1, and this unit coordinates. The
seal is over only when its parts are done and the extent is committed: then the extent is SEALED, the seal is gone, and the
operator's record is COMPLETED with the manifest's tiles and the seal point. Before that, and for an extent not in SEALING,
completing changes nothing. -/
def Obligations.SealsBeginAndComplete : Prop :=
  (∀ (s : State) (x : Nat) (e : ExtRec), extRec (extView s) x = some e →
    ((extSt s x).st ≠ 2 → exec (.sealComplete x) s = .next s) ∧
    ((extSt s x).st = 2 → ∀ r, s.ext.seals = [r] → r.ext = x →
      ((r.done = false ∨ extCommitted s e = false) → exec (.sealComplete x) s = .next s) ∧
      (r.done = true → extCommitted s e = true → Answers (.sealComplete x) s fun t => (extSt t x).st = 3 ∧ t.ext.seals = [] ∧
        ∀ o, s.opq.ops = [o] → s.opq.intake = [] → o.ringUnit = r.ringUnit → o.ring = r.ring → o.sqIndex = r.sqIndex → o.ringUnit ≠ me s →
          (outPort s o.ringUnit).isSome = true → o.ringUnit ∉ s.wrn.unreachable →
            t.opq.ops = [] ∧ ∃ rcd, sentTo t o.ringUnit (.opDone rcd) ∧ fld rcd 9 1 = 0 ∧ fld rcd 16 8 = e.size * 32768 % 2 ^ 64 ∧ fld rcd 24 8 = r.point % 2 ^ 64))) ∧
  (∀ (s : State) (o : Op) (e : ExtRec) (st : Ns), s.opq.ops = [o] → descOp o.desc = 0x21 → o.started = some st → o.checked = true → o.gate = 0 →
    opRuns s o = true → o.fence = false → extRec (extView s) (fld o.desc 16 2) = some e → (extSt s (fld o.desc 16 2)).st = 1 → s.ext.seals = [] →
      Answers (.sealExtent o.ringUnit o.ring o.sqIndex) s fun t => (extSt t (fld o.desc 16 2)).st = 2 ∧
        (∃ y ∈ t.opq.ops, sameOp y o = true ∧ y.gate = 1 ∧ ∀ p, o.stamp = some p → y.r1 = p) ∧
        ∃ r ∈ t.ext.seals, r.ext = fld o.desc 16 2 ∧ r.coordinator = true ∧ r.sqIndex = o.sqIndex)

/-- In a line read whole and in a lone half, one wrong symbol is corrected and two are corrected or detected, never passed on
(R197, R198, R199). For a line whose halves read are both or one, whose inline symbol is known and right: with one wrong symbol,
of the data or a check symbol, the line is delivered, with one correction counted for a data symbol. With two wrong symbols of
different places the line is uncorrectable, or both are data symbols of different halves and both are corrected. One wrong
symbol of the inline column is corrected and leaves the line's inline symbol right, and one wrong side-band symbol of it leaves
it right as well. -/
def Obligations.EccCorrectsOneDetectsTwo : Prop :=
  (∀ (halves : List Nat), halves = [0] ∨ halves = [1] ∨ halves = [0, 1] →
    let place (x : SymErr) : Prop := x.err ≠ 0 ∧ ((x.lane = 0 ∧ x.idx < 32 ∧ x.idx / 16 ∈ halves) ∨
      ((x.lane = 1 ∨ x.lane = 2) ∧ x.idx ∈ halves) ∨ (x.lane = 3 ∧ x.idx = 0))
    (∀ x, place x → checkLine [x] halves (some 0) = .ok (if x.lane = 0 then 1 else 0)) ∧
    (∀ x y, place x → place y → (x.lane, x.idx) ≠ (y.lane, y.idx) →
      (∃ p q, checkLine [x, y] halves (some 0) = .bad p q) ∨
      (checkLine [x, y] halves (some 0) = .ok 2 ∧ x.lane = 0 ∧ y.lane = 0 ∧ x.idx / 16 ≠ y.idx / 16))) ∧
  (∀ (col : Nat) (x : SymErr), col < 32 → col ≠ 30 → x.err ≠ 0 →
    (x.lane = 4 → x.idx / 16 = col / 16 → inlineHalf [x] col = (some 0, true)) ∧
    ((x.lane = 5 ∨ x.lane = 6) → x.idx = col / 16 → inlineHalf [x] col = (some 0, false)))

/-- A pseudo-channel admits the most urgent eligible head, first in round-robin order; refresh pays the greatest debt; a held
bank goes first (R207, R208, R209, R210, R211, R212, R213, R214, R216, R26, Table 10.3, Table 10.4). The unit a PC admits is the
head of its requester's queue and eligible: fewer than four are admitted there, its bank is not held, its stack neither halted
nor switching, and for migration the credit is positive. No eligible head has a higher level, and among equals it is the first
at or after the pointer, which moves past it. With no eligible head nothing changes. A bank's deadline adds one to its debt; a
bank at 8 that is idle is refreshed at once. An opportunity takes the held bank, when it is idle, before any other, else an idle
bank with the greatest debt. A unit completes only as the oldest of its PC. A change of data rate to a state that the record and
VI6 allow leaves the new state with the admitted units finished and no debt; any other changes nothing. -/
def Obligations.AdmissionAndRefresh : Prop :=
  (∀ (s : State) (pc : Nat) (rfm : Bool),
    let d := s.drt
    let fit (u : AUnit) : Prop := (d.admitted.filter (fun x => x.pc == u.pc)).length < 4 ∧ tget 0 d.debt (64 * u.pc + 16 * (u.sid % 4) + u.bank) < 8 ∧
      ¬ (d.switching = true ∧ d.stack = u.pc / 32) ∧ u.pc / 4 ∉ d.frozen ∧ (u.q = 27 → 0 < creditNow s (u.pc / 32))
    let level (u : AUnit) : Nat :=
      let age := now s - u.entered
      let tg := qosTarget (liveView s) (me s) u.q
      if tg ≤ age then 3 else if 3 * tg ≤ 4 * age then 2 else if tg ≤ 2 * age then 1 else 0
    let heads (q : Nat) (u : AUnit) : Prop := q < 32 ∧ d.queue.find? (fun x => x.pc == pc && x.q == q) = some u ∧ fit u
    let turn (q : Nat) : Nat := (q + 32 - tget 0 d.pointer pc % 32) % 32
    ((∀ q u, ¬ heads q u) → exec (.dramAdmission pc rfm) s = .next s) ∧
    (∀ q u, heads q u → Answers (.dramAdmission pc rfm) s fun t => ∃ q' u', heads q' u' ∧ level u ≤ level u' ∧
      (level u = level u' → turn q' ≤ turn q) ∧ t.drt.admitted = d.admitted ++ [u'] ∧ t.drt.queue = d.queue.filter (fun x => x.uid != u'.uid) ∧
      tget 0 t.drt.pointer pc = (q' + 1) % 32 ∧ (rfm = true → .dramCommand pc (u'.sid % 4) u'.bank 1 ∈ t.out ∧
        (tget {} t.drt.stks (pc / 32)).rfm = min ((tget {} d.stks (pc / 32)).rfm + 1) 4294967295))) ∧
  (∀ (s : State) (pc bank : Nat), bank < 64 →
    let k := 64 * pc + bank
    let debt := tget 0 s.drt.debt k
    (debt + 1 < 8 ∨ bankIdle s.drt k = false → Answers (.refreshDeadline pc bank) s fun t => tget 0 t.drt.debt k = debt + 1 ∧ t.out = s.out) ∧
    (8 ≤ debt + 1 → bankIdle s.drt k = true → Answers (.refreshDeadline pc bank) s fun t => tget 0 t.drt.debt k = debt ∧
      t.out = .dramCommand pc (bank / 16) (bank % 16) 0 :: s.out ∧
      (tget {} t.drt.stks (pc / 32)).forced = min ((tget {} s.drt.stks (pc / 32)).forced + 1) 4294967295) ∧
    ∀ j, j ≠ k → Answers (.refreshDeadline pc bank) s fun t => tget 0 t.drt.debt j = tget 0 s.drt.debt j) ∧
  (∀ (s : State) (pc : Nat),
    let mine (k : Nat) : Prop := 64 * pc ≤ k ∧ k < 64 * pc + 64
    let debt (k : Nat) : Nat := tget 0 s.drt.debt k
    let pays (k : Nat) : Prop := Answers (.refreshOpportunity pc) s fun t => tget 0 t.drt.debt k = debt k - 1 ∧
      t.out = .dramCommand pc (k % 64 / 16) (k % 16) 0 :: s.out
    (∀ k, mine k → 8 ≤ debt k → (∀ j, mine j → 8 ≤ debt j → k ≤ j) → if bankIdle s.drt k then pays k else exec (.refreshOpportunity pc) s = .next s) ∧
    (∀ k, mine k → (∀ j, mine j → debt j < 8) → 0 < debt k → bankIdle s.drt k = true →
      (∀ j, mine j → bankIdle s.drt j = true → debt j ≤ debt k ∧ (debt j = debt k → k ≤ j)) → pays k) ∧
    ((∀ j, mine j → debt j < 8 ∧ (debt j = 0 ∨ bankIdle s.drt j = false)) → exec (.refreshOpportunity pc) s = .next s)) ∧
  (∀ (s : State) (u : AUnit), s.drt.admitted.find? (fun x => x.uid == u.uid) = some u →
    (s.drt.admitted.find? (fun x => x.pc == u.pc) ≠ some u → ∀ errs, exec (.dramUnitComplete u.uid errs) s = .next s) ∧
    (s.drt.admitted.find? (fun x => x.pc == u.pc) = some u → Answers (.dramUnitComplete u.uid []) s fun t =>
      t.drt.admitted = s.drt.admitted.filter (fun x => x.uid != u.uid) ∧ t.drt.sids = s.drt.sids ∧ t.drt.badLines = s.drt.badLines)) ∧
  (∀ (s : State) (r : Nat),
    let floor := if r = 0 then 90 else if r = 1 then 70 else 60
    let allowed := r < 3 ∧ bit (dramStates s.vq.active (me s)) r = true ∧ floor ≤ islandMax s 6
    (¬ allowed ∨ s.drt.rate = r → exec (.dataRateChange r) s = .next s) ∧
    (allowed → s.drt.rate ≠ r → exec (.dataRateChange r) s = .next { s with drt := { s.drt with
      rate := r, nextRate := r, switching := false, stack := 0, admitted := [], debt := [] } }))

/-- An uncorrectable line freezes its controller or retires its SID; retirement ends on the spare; without one the map shrinks;
UNFREEZE resumes (R215, R218, R219, R220, R222, Table 10.6). Corrected symbols are counted with their time, and more than 4,096
in 24 h retire the SID. An uncorrectable line is counted and recorded. In FREEZE mode it halts the controller of its PCs and is
captured unless a capture stands. In RETIRE mode a line of data that is not clean and Hoard-backed is poisoned with event
0x0903, and a SID that serves begins to retire onto the lowest spare. When its copy is complete the map names the spare, which
serves, the old SID is retired, and event 0x0901 names both. Without a spare the remap ends with the SID retired, fills allowed
again and all ones in the event; before the cache is clean it does nothing. UNFREEZE resumes the controllers of the stacks
written, and no others. -/
def Obligations.UncorrectableLinesAndSids : Prop :=
  (∀ (s : State) (sid addr n : Nat), n ≠ 0 → n + ceCount (now s) (tget {} s.drt.sids sid) ≤ 4096 →
    Answers (.dramScrub sid addr n false) s fun t => tget {} t.drt.sids sid = { tget {} s.drt.sids sid with
      ce := ((tget {} s.drt.sids sid).ce.filter fun p => decide (now s < p.1 + 86400000000000)) ++ [(now s, n)] } ∧ t.drt.badLines = s.drt.badLines) ∧
  (∀ (s : State) (sid addr : Nat), exec (.dramScrub sid addr 0 false) s = .next s) ∧
  (∀ (s : State) (sid addr : Nat), addr < tierBytes s → addr % 64 = 0 →
    let p := placeOf s addr
    let pc := 32 * (sid / 4) + p.pc
    let x := tget {} s.drt.sids sid
    (dramFreeze s.vq.active (me s) (sid / 4) = true → Answers (.dramScrub sid addr 0 true) s fun t => pc / 4 ∈ t.drt.frozen ∧ addr / 64 ∈ t.drt.badLines ∧
      tget {} t.drt.sids sid = { x with ue := min (x.ue + 1) 65535 } ∧ t.drt.frzValid = true ∧
      (s.drt.frzValid = false → t.drt.frzAddr = addr ∧ t.drt.frzStack = sid / 4 ∧ t.drt.frzBank = p.bank ∧ t.drt.frzRow = p.row ∧ t.drt.frzColumn = p.column) ∧
      (s.drt.frzValid = true → t.drt.frzAddr = s.drt.frzAddr)) ∧
    (dramFreeze s.vq.active (me s) (sid / 4) = false → x.st = 0 → s.drt.retire = none →
      (∀ l q, s.drt.sidmap = [(l, sid)] → l < s.drt.logical → ownerAt s addr = none → sid < 32 → q < 32 → (tget {} s.drt.sids q).st = 1 →
        (∀ j < q, (tget {} s.drt.sids j).st ≠ 1) → Answers (.dramScrub sid addr 0 true) s fun t =>
          t.drt.retire = some ⟨l, sid, some q⟩ ∧ (tget {} t.drt.sids sid).st = 2 ∧ (tget {} t.drt.sids sid).ue = min (x.ue + 1) 65535 ∧
          t.drt.active = true ∧ t.drt.lsid = l ∧ t.drt.mark = 0) ∧
      (∀ e g tile, s.drt.sidmap = [] → ownerAt s addr = some (e, g, tile) → cleanBacked s e g tile = false → Answers (.dramScrub sid addr 0 true) s fun t =>
        (blockRec t.drt addr).masks.getD (addr / 512 % 8) 0 = 0xFF ∧ noted t 0x0903 e.tenant 9 (physOf s.drt p.lsid)))) ∧
  (∀ (s : State) (l p q : Nat), p ≠ q → s.drt.retireQueue = [] →
    (s.drt.retire = some ⟨l, p, some q⟩ → Answers .sidRetireComplete s fun t => tget 0 t.drt.sidmap l = q ∧ (tget {} t.drt.sids q).st = 0 ∧
      (tget {} t.drt.sids p).st = 3 ∧ t.drt.retire = none ∧ t.drt.active = false ∧ noted t 0x0901 0 9 p ∧ ⟨7, 0, p⟩ ∈ t.uni.outOfService) ∧
    (s.drt.retire = some ⟨l, p, none⟩ → (s.drt.shrinking = false → cacheClean s = false → exec .poolRemapComplete s = .next s) ∧
      (s.drt.shrinking = true → s.hst.reqs = [] → s.ext.owedPoison = [] → Answers .poolRemapComplete s fun t => t.drt.retire = none ∧ t.drt.shrinking = false ∧
        t.drt.noCache = false ∧ (tget {} t.drt.sids p).st = 3 ∧ noted t 0x0901 0 9 p ∧ ⟨7, 0, p⟩ ∈ t.uni.outOfService)) ∧
    (s.drt.retire = none → exec .sidRetireComplete s = .next s ∧ exec .poolRemapComplete s = .next s)) ∧
  (∀ (s : State) (v : Word), s.drt.frzValid = false → s.hst.reqs = [] → s.ext.owedPoison = [] → (∀ c ∈ s.drt.frozen, c < 64) →
    Answers (.unfreeze v) s fun t => ∀ c, c ∈ t.drt.frozen ↔ c ∈ s.drt.frozen ∧ v.getLsbD (c / 8) = false)

/-- A holder answers CHUNK_GET with the range or LOST, stores or releases a chunk by CHUNK_PUT; acknowledgements commit a stripe
(R226, R228, R231, R234, R235, R238, R239, R444, Table 12.6). A CHUNK_GET that is served and well formed is answered with the
bytes of the range of the chunk that stands here, or LOST; REFUSED and ABSENT otherwise. A CHUNK_PUT puts the chunk on the Drey
that is the placement counter's turn when that can take it, on its channel, and is answered OK, or REFUSED where no Drey can;
with length zero the chunk stands nowhere here any more. The last acknowledgement of a stripe that commits makes it committed
and its tiles' directory entries name it; an earlier one is kept. A chunk refused, or whose holder was silent for 1 s, goes to
the next holder. Data for a fill that waits for another chunk are kept, and LOST is noted. A get unanswered for 500 us asks the
other holders for whole chunks; before that it waits. The newest root record of a writer is kept. -/
def Obligations.ChunksServedAndStored : Prop :=
  (∀ (s : State) (src tag stripe chunk : Nat), src < fabN s.vq.active → dupOf s src tag = none → (outPort s src).isSome = true →
    (∀ off len,
      let ok := off % 32 = 0 ∧ len % 32 = 0 ∧ 32 ≤ len ∧ off + len ≤ 16384 ∧ chunk < 20
      let answers (m : Msg) : Prop := Answers (.chunkGet src tag stripe chunk off len) s fun t => sentTo t src m
      (ok → chunksServed s = true → ∀ b c, findChunk s.hrd stripe chunk = some (b, c) → answers (.chunkData 0 (slice c.bytes off len))) ∧
      (ok → chunksServed s = true → findChunk s.hrd stripe chunk = none → answers (.chunkData 5 [])) ∧
      (ok → chunksServed s = false → answers (.chunkData 2 [])) ∧ (¬ ok → answers (.chunkData 3 []))) ∧
    (∀ (k m kind : Nat) (crc : BitVec 32) (bytes : List Byte), chunk < 20 → kind < 3 → chunksServed s = true →
      (Answers (.chunkPut src tag stripe chunk k m kind crc []) s fun t => sentTo t src (.chunkAck 0) ∧ findChunk t.hrd stripe chunk = none) ∧
      (bytes.length = 16384 →
        let ms := mountedBays s.hrd
        let b := ms.getD (s.hrd.place % ms.length) 0
        (ms ≠ [] → canTake (bayOf s.hrd b) = true → Answers (.chunkPut src tag stripe chunk k m kind crc bytes) s fun t => sentTo t src (.chunkAck 0) ∧
          t.hrd.place = s.hrd.place + 1 ∧ ∃ x ∈ (bayOf t.hrd b).chunks, x.stripe = stripe ∧ x.idx = chunk ∧ x.k = k ∧ x.m = m ∧ x.kind = kind ∧
            x.bytes = bytes ∧ x.crc = crc ∧ (x.damaged = true ↔ crc32c bytes ≠ crc) ∧
            ∀ d, (bayOf s.hrd b).drey = some d → channelDies d (s.hrd.place / ms.length % 8) ≠ [] →
              dieChannel (physDie d x.die) = s.hrd.place / ms.length % 8) ∧
        ((∀ y < 16, (bayOf s.hrd y).st ≠ 3) → Answers (.chunkPut src tag stripe chunk k m kind crc bytes) s fun t => sentTo t src (.chunkAck 3))))) ∧
  (∀ (s : State) (src tag : Nat) (o : Outst) (id c k m kind : Nat) (bytes : List Byte) (r : Stripe), src < fabN s.vq.active → outReq s tag = some o →
    o.env.msg = .chunkPut id c k m kind bytes → bytes ≠ [] → tfind s.hrd.stripes id = some r → r.st = 1 → c ∉ r.acked →
    src ∉ s.wrn.unreachable → s.hst.reqs = [] → s.ext.owedPoison = [] → s.hrd.checkpoint = none →
      (r.acked.length + 1 ≠ r.k + r.m → Answers (.chunkAck src tag 0) s fun t => (tfind t.hrd.stripes id).any (fun q => q.st == 1 && q.acked.contains c) = true) ∧
      (∀ p, r.acked.length + 1 = r.k + r.m → r.tiles = [p] → dirFind s.hrd p.tenant p.tile = none → Answers (.chunkAck src tag 0) s fun t =>
        (tfind t.hrd.stripes id).any (fun q => q.st == 2) = true ∧
        dirFind t.hrd p.tenant p.tile = some ⟨p.tenant, p.tile, id, p.offset, p.len, false⟩ ∧ t.hrd.seq = max s.hrd.seq (stripeSeq id)) ∧
      (∀ u, nextHolder s r (r.holders.getD c (me s)) = some u → u ≠ me s → (outPort s u).isSome = true → u ∉ s.wrn.unreachable →
        let again (t : State) : Prop := sentTo t u (.chunkPut id c r.k r.m (if c < r.k then r.kind else 1) (stripeChunk r c))
        Answers (.chunkAck src tag 3) s again ∧
        (s.wrn.reqs = [o] → o.sentAt + 1000000000 ≤ now s → Answers (.chunkAckTimeout id c) s again) ∧
        (s.wrn.reqs = [o] → now s < o.sentAt + 1000000000 → exec (.chunkAckTimeout id c) s = .next s))) ∧
  (∀ (s : State) (src tag : Nat) (o : Outst) (q : ChunkReq) (bytes : List Byte), src < fabN s.vq.active → outReq s tag = some o → q.tag = tag →
    s.hrd.gathered = [] → s.hrd.suspect = [] →
    (∀ q' d e g, s.hrd.gets = [q, q'] → q'.tag ≠ tag → bytes.length = q.len → nothingWaits s = true → extAt (extView s) q.tenant (q.tile * 32768) = some (e, g) →
      dirFind s.hrd q.tenant q.tile = some d → d.stripe = q.stripe → d.tenant = q.tenant → d.tile = q.tile → tileChunks d = [q.chunk, q'.chunk] →
      q.chunk ≠ q'.chunk → q'.stripe = q.stripe → q'.tenant = q.tenant → q'.tile = q.tile → q'.rebuild = false →
        Answers (.chunkData src tag 0 bytes) s fun t => t.hrd.gets = [q'] ∧ ∃ x ∈ t.hrd.gathered, x.stripe = q.stripe ∧ x.chunk = q.chunk ∧
          x.bytes = List.replicate q.offset 0 ++ bytes) ∧
    (s.hrd.gets = [q] → dirFind s.hrd q.tenant q.tile = none → Answers (.chunkData src tag 5 bytes) s fun t => t.hrd.gets = [] ∧ (q.stripe, q.chunk) ∈ t.hrd.lost)) ∧
  (∀ (s : State) (q : ChunkReq), s.hrd.gets = [q] → (now s < q.sent + 500000 → exec (.chunkGetTimeout q.tag) s = .next s) ∧
    (∀ d e g k m c u, q.sent + 500000 ≤ now s → q.rebuild = false → s.hrd.gathered = [] → s.hrd.asked = [] → s.hrd.suspect = [] → nothingWaits s = true →
      extAt (extView s) q.tenant (q.tile * 32768) = some (e, g) → dirFind s.hrd q.tenant q.tile = some d → d.stripe = q.stripe → d.tenant = q.tenant →
      d.tile = q.tile → tileChunks d = [q.chunk] → stripeGeom s q.stripe q.tenant q.tile = (k, m) → 1 ≤ k → c < k + m → c ≠ q.chunk →
      localChunk s q.stripe c = none → holderNow s q.stripe c = u → u ≠ me s → unreachable s u = false → (outPort s u).isSome = true →
      (q.stripe, c) ∉ s.hrd.lost → Answers (.chunkGetTimeout q.tag) s fun t => sentTo t u (.chunkGet q.stripe c 0 16384))) ∧
  (∀ (s : State) (src : Nat) (r : RootRec), src < fabN s.vq.active → unitServesOrHeld s = true → Answers (.rootRecord src r) s fun t =>
    tfind t.hrd.roots r.writer = some (match tfind s.hrd.roots r.writer with
      | some q => if q.lastSeq < r.lastSeq then r else q
      | none => r))

/-- A tile is committed 30 s after its first write; a checkpoint sends the changed directory page every 60 s; half-empty stripes
are packed again (R228, R233, R234, R235, R255, R360). Nothing is committed before 30 s have passed since the first write. Then
a tile of an extent that the Hoard backs, whose code is served, with no commit of it running, is clean again: a tile that is all
zero has its directory entry marked so, and any other stands in a stripe that is closed. Before 60 s have passed a checkpoint
does nothing; then the time is noted, and a changed page goes out as chunk 0 of a stripe of directory pages and is no longer
marked as changed. Compaction takes a committed data stripe whose live bytes fill less than half of its data area or whose
geometry is its code's old one: each live tile that is not in the tier is filled to be packed again; of any other stripe nothing
is touched. -/
def Obligations.CommitsAndCheckpoints : Prop :=
  (∀ (s : State) (tn tile : Nat) (at0 : Ns), s.hrd.firstWrite = [(tn, tile, at0)] →
    (now s < at0 + 30000000000 → exec (.commitTimer tn tile) s = .next s) ∧
    (∀ e g a w, at0 + 30000000000 ≤ now s → extAt (extView s) tn (tile * 32768) = some (e, g) → e.kind ≠ 3 → codeServed s e.code = true →
      inLog s.hrd tn tile = none → s.cdc.stg = [] → locate s e g tile = .at a (some w) → (wayOf s.drt w).filling = false →
      s.hst.reqs = [] → s.ext.owedPoison = [] →
      Answers (.commitTimer tn tile) s fun t => t.hrd.firstWrite = [] ∧ (findWay s tn tile = some w → (wayOf t.drt w).dirty = false) ∧
        (tileZero s.drt a = true → dirFind t.hrd tn tile = some ⟨tn, tile, 0, 0, 0, true⟩) ∧
        (tileZero s.drt a = false → ∃ p ∈ t.hrd.stripes, p.2.st ≠ 0 ∧ ∃ x ∈ p.2.tiles, x.tenant = tn ∧ x.tile = tile))) ∧
  (∀ s : State, (now s < s.hrd.checkpointAt + 60000000000 → exec .checkpoint s = .next s) ∧
    (s.hrd.checkpointAt + 60000000000 ≤ now s →
      (s.hrd.dirtyPages = [] → exec .checkpoint s = .next { s with hrd := { s.hrd with checkpointAt := now s } }) ∧
      (∀ tn pg k m u, s.hrd.dirtyPages = [(tn, pg)] → s.hrd.checkpoint = none → s.hrd.stripes = [] → (hoardUnits s.vq.active).contains (me s) = true →
        (stripeKM s.vq.active 0).getD (12, 4) = (k, m) → 1 ≤ k → holderOf s (stripeId (me s) s.hrd.nextSeq) 0 = u → u ≠ me s →
        u ∉ s.wrn.unreachable → (outPort s u).isSome = true →
          Answers .checkpoint s fun t => t.hrd.checkpointAt = now s ∧ t.hrd.dirtyPages = [] ∧
            sentTo t u (.chunkPut (stripeId (me s) s.hrd.nextSeq) 0 k m 2 (dirPage s.hrd tn pg))))) ∧
  (∀ (s : State) (id : Nat) (r : Stripe), tfind s.hrd.stripes id = some r →
    let due := r.st = 2 ∧ r.kind = 0 ∧ (2 * liveBytes s.hrd id < r.k * 16384 ∨ stripeKM s.vq.active r.code ≠ some (r.k, r.m))
    (¬ due → exec (.compaction id) s = .next s) ∧
    (∀ d e g, due → liveTiles s.hrd id = [d] → extAt (extView s) d.tenant (d.tile * 32768) = some (e, g) →
      (∃ j < 8, landedAddr s e g d.tile j = none) → Answers (.compaction id) s fun t => (d.tenant, d.tile) ∈ t.hrd.repack))

/-- Reclaim empties the block with fewest live pages; blocks age; scrub moves or damages pages; a failed die gets a spare; lost
chunks are rebuilt (R223, R226, R230, R236, R239, R241, R242, R250, R442, Table 5.7, Table 11.1). With 2 % or more of a die's
blocks free a reclaim does nothing; below it no chunk stands any more in a written block that has no more live pages than any
other, and every chunk of the bay is still there. An hour ages each written block by the aging factor, 10^6 in 10^-6 h at the
reference temperature. A scrub notes its time and leaves a sound page, moves a weak one within its die, and marks a failing one
damaged, to be rebuilt in place. A die that fails is replaced by the lowest spare that works, its chunks await rebuild there and
a class 11 entry is made; with no spare the bay is FAILED, its chunks are lost. A lost chunk comes back from k others as the
code gives it, on its bay, and awaits rebuild no more; with fewer nothing changes. Ten minutes after a removal, and not before,
the chunks lost await rebuild, unless the Drey is back. -/
def Obligations.FlashKeptInOrder : Prop :=
  (∀ (s : State) (bay die : Nat),
    let y := bayOf s.hrd bay
    let used := y.blocks.filter (fun f => f.die == die && decide (0 < f.written))
    (2 * 4096 ≤ 100 * (4096 - used.length) → exec (.flashReclaim bay die) s = .next s) ∧
    (100 * (4096 - used.length) < 2 * 4096 → Answers (.flashReclaim bay die) s fun t => ∃ f ∈ used,
      (∀ g ∈ used, (y.chunks.filter (fun c => c.die == die && c.block == f.block)).length ≤ (y.chunks.filter (fun c => c.die == die && c.block == g.block)).length) ∧
      (∀ c ∈ (bayOf t.hrd bay).chunks, ¬ (c.die = die ∧ c.block = f.block)) ∧
      ∀ c ∈ y.chunks, ∃ x ∈ (bayOf t.hrd bay).chunks, x.stripe = c.stripe ∧ x.idx = c.idx ∧ x.bytes = c.bytes ∧ x.die = c.die)) ∧
  (∀ (s : State) (bay : Nat) (tp : BitVec 16),
    let y := bayOf s.hrd bay
    let af := agingFactor (hoardTref s.vq.active) tp.toInt
    (tp.toInt = 64 * (hoardTref s.vq.active : Int) → af = 1000000) ∧
    ((∀ f ∈ y.blocks, 0 < f.written → f.age + af < 85 * hoardRetain s.vq.active * 24 * 10000) → Answers (.weightedAgeTick bay tp) s fun t =>
      (bayOf t.hrd bay).temp = tp ∧ (bayOf t.hrd bay).chunks = y.chunks ∧
      (bayOf t.hrd bay).blocks = y.blocks.map (fun f => if 0 < f.written then { f with age := f.age + af } else f))) ∧
  (∀ (s : State) (bay id c : Nat) (x : Chunk), findChunk s.hrd id c = some (bay, x) → (bayOf s.hrd bay).chunks = [x] →
    let noted (t : State) : Prop := (bay, id, c, now s) ∈ t.hrd.scrubbed
    (∀ weak, Answers (.hoardScrub bay id c weak true) s fun t => noted t ∧ (bayOf t.hrd bay).chunks = [{ x with damaged := true }] ∧
      ∃ l ∈ t.hrd.rebuild, l.stripe = id ∧ l.idx = c ∧ l.bay = some bay ∧ l.unit = me s) ∧
    (Answers (.hoardScrub bay id c true false) s fun t => noted t ∧ ∃ z, (bayOf t.hrd bay).chunks = [z] ∧ z.stripe = id ∧ z.idx = c ∧ z.die = x.die ∧
      z.bytes = x.bytes) ∧
    (Answers (.hoardScrub bay id c false false) s fun t => noted t ∧ (bayOf t.hrd bay).chunks = [x])) ∧
  (∀ (s : State) (bay die : Nat) (d : DreyId), (bayOf s.hrd bay).drey = some d → physDie d die < 128 →
    (∀ sp, (freeSpares d).head? = some sp → Answers (.flashDieFailure bay die) s fun t =>
      (bayOf t.hrd bay).drey = some { d with failedDies := d.failedDies ++ [(die, some sp)] } ∧ (∀ c ∈ (bayOf t.hrd bay).chunks, c.die ≠ die) ∧
      (∀ c ∈ (bayOf s.hrd bay).chunks, c.die = die → ∃ l ∈ t.hrd.rebuild, l.stripe = c.stripe ∧ l.idx = c.idx ∧ l.bay = some bay) ∧
      tget 0 t.lif.repairs 11 = tget 0 s.lif.repairs 11 + 1) ∧
    (freeSpares d = [] → Answers (.flashDieFailure bay die) s fun t => (bayOf t.hrd bay).st = 9 ∧ (bayOf t.hrd bay).chunks = [] ∧
      noted t 0x0A05 0 5 bay ∧ ∀ c ∈ (bayOf s.hrd bay).chunks, ∃ l ∈ t.hrd.rebuild, l.stripe = c.stripe ∧ l.idx = c.idx ∧ l.bay = none)) ∧
  (∀ (s : State) (x : LostChunk) (b : Nat) (got : List (Nat × List Byte)), s.hrd.rebuild = [x] → x.bay = some b → (∀ p ∈ got, p.1 ≠ x.idx) →
    (got.length < x.k → exec (.chunkRebuild x.stripe x.idx got) s = .next s) ∧
    (∀ bytes, rsRebuild 16384 x.k x.m x.idx got = some bytes → Answers (.chunkRebuild x.stripe x.idx got) s fun t => t.hrd.rebuild = [] ∧
      ∃ z ∈ (bayOf t.hrd b).chunks, z.stripe = x.stripe ∧ z.idx = x.idx ∧ z.bytes = bytes ∧ z.die = x.die ∧ z.damaged = false)) ∧
  (∀ (s : State) (bay : Nat) (due : Ns), (bayOf s.hrd bay).rebuildDue = some due →
    (now s < due → exec (.rebuildDelayExpired (me s) bay) s = .next s) ∧
    (due ≤ now s → Answers (.rebuildDelayExpired (me s) bay) s fun t => (bayOf t.hrd bay).rebuildDue = none ∧ (bayOf t.hrd bay).lostChunks = [] ∧
      if dreyBack s.hrd (bayOf s.hrd bay).lastSerial then t.hrd.rebuild = s.hrd.rebuild
      else ∀ l ∈ (bayOf s.hrd bay).lostChunks, l ∈ t.hrd.rebuild))

/-- An inserted Drey is classed and mounts, waits or fails; a removal is checked, approved, released and over; a Drey forced out
is reported (R224, R246, R247, R251, R252, R404, R405, R409, Table 11.5, Table 11.6, Table 11.7). A Drey put into an empty bay
is classed by Table 11.6: FAILED when faulty, QUARANTINED when unknown, else MOUNTING. Mounting reads its chunks, those that
still stand when it is stale, and makes the bay MOUNTED with CLEAN 0. A press of a bay's button, or a long press on REMOVE with
the bay in focus, is refused LOCKED, STARTING, BUSY, REBUILDING, DEGRADED or ADOPTING as Table 11.7 orders, ignored and counted
for an empty bay or one under removal, and else starts the removal, which waits for approval under policy 1. APPROVE lets it go
on; without it the removal ends NOT_APPROVED after 10 min. When the Drey is released the latch opens, and 30 s later it closes
and the Drey mounts again. A Drey pulled, or forced out with event 0x0A02, leaves the bay EMPTY, and its chunks are lost with
their rebuild due in 10 min. -/
def Obligations.DreysMountAndLeave : Prop :=
  (∀ (s : State) (b : Nat) (d : DreyId), b < 16 → (bayOf s.hrd b).st = 0 →
    let dead := ∃ p ∈ d.failedDies, (match d.failedDies.reverse.find? (fun q => q.1 == p.1) with
      | some (_, none) => (freeSpares d).isEmpty
      | _ => false) = true
    let ours := d.owned = true ∧ d.owner = ownerTag s.fus ∧ (s.vq.active.map (·.fabric)).getD 0 = d.fabric ∧ (knownOf s.hrd d.serial).isSome = true
    let keyed := d.unwraps = true ∧ rootKeyOk s.fus = true ∧ lifecycle s.fus ≠ 3
    let sound := d.copiesOk ≠ 0 ∧ d.post = true ∧ ¬ dead
    let becomes (st cls : Nat) : Prop := Answers (.dreyInserted b d) s fun t => (bayOf t.hrd b).st = st ∧ (bayOf t.hrd b).cls = cls ∧
      (bayOf t.hrd b).drey = some { d with insertions := d.insertions + 1 } ∧ .latch b false ∈ t.out
    (¬ sound ∨ (ours ∧ ¬ keyed) → becomes 9 3) ∧ (sound → ¬ ours → becomes 4 2) ∧
    (∀ k, sound → ours → keyed → knownOf s.hrd d.serial = some k → becomes 2 (if d.membership = k.membership then 0 else 1))) ∧
  (∀ (s : State) (b : Nat) (d : DreyId), (bayOf s.hrd b).st = 2 → (bayOf s.hrd b).drey = some d → s.hst.reqs = [] → s.ext.owedPoison = [] →
    (∀ f ∈ bayBlocks d (if s.lif.calValid then (s.lif.cal - d.lastSeen) / 3600000000000 * 1000000 else 0) d.chunks,
      f.age < 85 * hoardRetain s.vq.active * 24 * 10000) → (bayOf s.hrd b).cls = 0 →
      Answers (.dreyMounted b) s fun t => (bayOf t.hrd b).st = 3 ∧ (bayOf t.hrd b).drey.any (fun x => !x.clean && x.bayLast == b) = true ∧
        (bayOf t.hrd b).chunks.map (fun c => (c.stripe, c.idx, c.bytes)) = d.chunks.map (fun c => (c.stripe, c.idx, c.bytes))) ∧
  (∀ (s : State) (b : Nat), s.uni.st = .serving →
    let y := bayOf s.hrd b
    let busy := ∃ o < 16, o ≠ b ∧ (bayOf s.hrd o).removal ≠ 0
    let rebuilding := ∃ x ∈ s.hrd.rebuild, x.bay = some b ∨ (x.bay = none ∧ x.unit = me s ∧ y.st = 3)
    let degraded := ∃ c ∈ y.chunks, 0 < lostKnown s c.stripe
    ∀ w, w = .bayButtonPress b ∨ (w = .removeKey ∧ s.pnl.page = 1 ∧ s.pnl.focus = b ∧ s.pnl.switch ≠ 0) →
      let refused (code : Nat) : Prop := Answers w s fun t => (bayOf t.hrd b) = { y with reason := code } ∧ t.pnl.lastResult = 3 ∧
        t.pnl.refused = min (s.pnl.refused + 1) 65535
      let starts (step : Nat) : Prop := Answers w s fun t => (bayOf t.hrd b).removal = step ∧ (bayOf t.hrd b).removalAt = now s ∧ t.pnl.lastResult = 0
      (s.pnl.switch = 0 → refused 1) ∧
      (s.pnl.switch ≠ 0 → (y.st = 0 ∨ y.removal ≠ 0) → Answers w s fun t => t.hrd = s.hrd ∧ t.pnl.refused = min (s.pnl.refused + 1) 65535) ∧
      (s.pnl.switch ≠ 0 → y.removal = 0 → (y.st = 5 → refused 7) ∧
        ((y.st = 3 ∨ y.st = 6) → (busy → refused 3) ∧ (¬ busy → (rebuilding ∨ y.st = 6) → refused 4) ∧
          (¬ busy → ¬ rebuilding → y.st = 3 → degraded → refused 5) ∧
          (¬ busy → ¬ rebuilding → y.st = 3 → ¬ degraded → starts (if panApproval (liveView s) (me s) then 3 else 4))) ∧
        (y.st ∈ [1, 2, 4, 7, 9] → (busy → refused 3) ∧ (¬ busy → starts 4)))) ∧
  (∀ (s : State) (b : Nat),
    let y := bayOf s.hrd b
    (s.hrd.busy = false → b < 16 → y.st = 3 → y.removal = 3 → panApproval (liveView s) (me s) = true → Answers (.approve b) s fun t =>
      (bayOf t.hrd b).removal = 4 ∧ t.hrd.status = 0) ∧
    (s.hrd.busy = false → b < 16 → y.st ≠ 0 → y.removal ≠ 3 → Answers (.approve b) s fun t => bayOf t.hrd b = y ∧ t.hrd.status = 2) ∧
    (y.removal = 3 → (y.removalAt + 600000000000 ≤ now s → Answers (.approvalTimeout b) s fun t =>
      (bayOf t.hrd b).removal = 0 ∧ (bayOf t.hrd b).reason = 6) ∧ (now s < y.removalAt + 600000000000 → exec (.approvalTimeout b) s = .next s)) ∧
    (y.removal = 4 → y.cut = false → Answers (.dreyReleased b) s fun t => (bayOf t.hrd b).st = 8 ∧ (bayOf t.hrd b).removal = 5 ∧
      (y.before ≠ 1 → (bayOf t.hrd b).drey.all (·.clean) = true) ∧ .latch b true ∈ t.out ∧ .dreyPower b false ∈ t.out) ∧
    (y.removal = 4 → y.cut = true → Answers (.dreyReleased b) s fun t => (bayOf t.hrd b).st = y.st ∧ (bayOf t.hrd b).removal = 0 ∧ t.out = s.out) ∧
    (y.st = 8 → y.drey.isSome = true → y.removalAt + 30000000000 ≤ now s → Answers (.removalWindowExpired b) s fun t =>
      (bayOf t.hrd b).removal = 0 ∧ (bayOf t.hrd b).st ∈ [2, 4, 9] ∧ .latch b false ∈ t.out) ∧
    (y.st = 8 → now s < y.removalAt + 30000000000 → exec (.removalWindowExpired b) s = .next s) ∧
    (∀ w, (w = .dreyPulled b ∧ y.st = 8) ∨ (w = .dreyForcedOut b ∧ y.st ≠ 0 ∧ y.st ≠ 8) → Answers w s fun t => (bayOf t.hrd b).st = 0 ∧
      (bayOf t.hrd b).drey = none ∧ (bayOf t.hrd b).chunks = [] ∧ (bayOf t.hrd b).rebuildDue = some (now s + 600000000000) ∧
      (∀ c ∈ y.chunks, ∃ l ∈ (bayOf t.hrd b).lostChunks, l.stripe = c.stripe ∧ l.idx = c.idx) ∧
      (w = .dreyForcedOut b → noted t 0x0A02 0 5 b ∧ (bayOf t.hrd b).forcedOut = true)))

/-- EVACUATE moves every chunk to the other Dreys; a quarantined Drey is adopted when panel and administrator both confirm
within 15 min (R248, R249, R257, R404, Table 11.8, Table 11.9). EVACUATE of a MOUNTED bay onto which nothing is rebuilt, while
no other bay evacuates and the other Dreys have room, makes it EVACUATING; else it completes with BUSY, STATE or NO_SPACE in
this order. When a bay that evacuates holds nothing, or all its chunks were taken by the others, it is EVACUATED. ADOPT and the
confirmation on the panel each stand from their time; the second of them starts the formatting, within 15 min of the first.
ADOPT of a bay that is not QUARANTINED completes with STATE. A half older than 15 min lapses, and no other. When the formatting
is complete the Drey is owned by this die with a higher membership, holds no chunk, and is MOUNTED and known. Any command on an
EMPTY bay completes with BAD_BAY, and any while one runs with BUSY. -/
def Obligations.EvacuationAndAdoption : Prop :=
  ∀ (s : State) (b : Nat),
    let y := bayOf s.hrd b
    let up := s.uni.st = .serving ∨ s.uni.st = .draining ∨ s.uni.st = .held
    let others := ∃ o < 16, o ≠ b ∧ (bayOf s.hrd o).st = 6
    let ends (w : Instr) (status : Nat) : Prop := Answers w s fun t => t.hrd.status = status ∧ bayOf t.hrd b = y
    (∀ w, w = .evacuate b ∨ w = .adopt b ∨ w = .approve b → (s.hrd.busy = true → ends w 3) ∧
      (s.hrd.busy = false → (16 ≤ b ∨ y.st = 0) → ends w 1)) ∧
    (s.hrd.busy = false → b < 16 → y.st ≠ 0 →
      (others → ends (.evacuate b) 3) ∧
      (¬ others → (y.st ≠ 3 ∨ ¬ up ∨ rebuildingOnto s b = true) → ends (.evacuate b) 2) ∧
      (¬ others → y.st = 3 → up → rebuildingOnto s b = false →
        (otherFree s.hrd b < y.chunks.length → ends (.evacuate b) 4) ∧
        (y.chunks.length ≤ otherFree s.hrd b → Answers (.evacuate b) s fun t => t.hrd.status = 0 ∧ bayOf t.hrd b = { y with st := 6, before := 3 })) ∧
      ((y.st ≠ 4 ∨ ¬ up) → ends (.adopt b) 2) ∧
      (y.st = 4 → up → knownRoom s ((y.drey.map (·.serial)).getD 0) = true → Answers (.adopt b) s fun t => t.hrd.status = 0 ∧
        (bayOf t.hrd b).adoptAdmin = some (now s) ∧
        (bayOf t.hrd b).st = (if ∃ p, y.adoptPanel = some p ∧ now s ≤ p + 900000000000 then 5 else 4))) ∧
    (y.st ≠ 6 → exec (.evacuationComplete b) s = .next s) ∧
    (y.st = 6 → y.chunks = [] → Answers (.evacuationComplete b) s fun t => (bayOf t.hrd b).st = 7) ∧
    (∀ o c, y.st = 6 → y.chunks = [c] → o ≠ b → mountedBays s.hrd = [o] → canTake (bayOf s.hrd o) = true → Answers (.evacuationComplete b) s fun t =>
      (bayOf t.hrd b).st = 7 ∧ (bayOf t.hrd b).chunks = [] ∧ ∃ x ∈ (bayOf t.hrd o).chunks, x.stripe = c.stripe ∧ x.idx = c.idx ∧ x.bytes = c.bytes) ∧
    (s.uni.st = .serving → s.pnl.page = 1 → s.pnl.focus = b → s.pnl.switch = 2 →
      (y.st ≠ 4 → Answers .adoptConfirmation s fun t => t.hrd = s.hrd ∧ t.pnl.lastResult = 2) ∧
      (y.st = 4 → Answers .adoptConfirmation s fun t => (bayOf t.hrd b).adoptPanel = some (now s) ∧ t.pnl.lastResult = 0 ∧
        (bayOf t.hrd b).st = (if ∃ p, y.adoptAdmin = some p ∧ now s ≤ p + 900000000000 then 5 else 4))) ∧
    (y.st = 4 → Answers (.adoptLapse b) s fun t =>
      (bayOf t.hrd b).adoptPanel = y.adoptPanel.filter (fun p => decide (now s ≤ p + 900000000000)) ∧
      (bayOf t.hrd b).adoptAdmin = y.adoptAdmin.filter (fun p => decide (now s ≤ p + 900000000000)) ∧ (bayOf t.hrd b).st = 4) ∧
    (∀ d, y.st = 5 → y.drey = some d → Answers (.adoptionComplete b) s fun t => (bayOf t.hrd b).st = 3 ∧ (bayOf t.hrd b).chunks = [] ∧
      (bayOf t.hrd b).adoptPanel = none ∧ (bayOf t.hrd b).adoptAdmin = none ∧ ∃ x, (bayOf t.hrd b).drey = some x ∧ x.serial = d.serial ∧ x.owned = true ∧
        x.owner = ownerTag s.fus ∧ d.membership < x.membership ∧ x.wrapped = Config.bytes s.free 72 ∧
        knownOf t.hrd d.serial = some ⟨d.serial, x.membership, now s⟩)

/-- COPY, GATHER and SCATTER leave their lines at the destination; PREFETCH, PIN, UNPIN and MIGRATE act on the tiles of their
range (R233, R326, R330, R331, R338, Table 14.3, Table 14.4). For an operator that runs here alone. COPY of lines that may be
copied at once leaves every destination line as its source read, poison included, and ends COMPLETED with the bytes copied;
GATHER and SCATTER with one list entry do so for the lines of its rows. Over one tile of this unit: PREFETCH of a tile in the
tier ends; PIN pins its way, or ends FAILED with NO_SPACE and event 0x0D01 when 8 ways of the set or a quarter of the cache are
pinned; UNPIN clears the pin; MIGRATE of a clean tile drops it from DRAM in mode EVICT when it is not pinned, and keeps it in
mode CLEAN, while a tile that is still in an open stripe keeps the operator waiting. For a tile of another unit the work goes to
that unit (log entry 12) and the operator ends. Each counts one tile (log entry 37). -/
def Obligations.OperatorsMoveData : Prop :=
  ∀ (s : State) (o : Op), runsAlone s o → o.progress = 0 → o.r1 = 0 → o.acc = 0 →
    let d := o.desc
    let n := o.tenant
    let u := o.ringUnit
    let r := o.ring
    let q := o.sqIndex
    let moved (i : Instr) (l : List (Nat × Nat)) (result : Nat) : Prop := copyable s n l = true → Answers i s fun t =>
      (∀ p ∈ l, lineAt t n p.2 = lineAt s n p.1) ∧ ended t o 0 0 result 0
    let row (base i : Nat) : List Nat := (List.range (fld d 44 4 / 256)).flatMap fun tk => (List.range 4).map fun j =>
      base + 32768 * (i / 128 * (fld d 44 4 / 256) + tk) + 256 * (i % 128) + 64 * j
    (∀ k, descOp d = 0x01 → fld d 32 8 = 64 * k →
      moved (.copy u r q) ((List.range k).map fun i => (fld d 16 8 + 64 * i, fld d 24 8 + 64 * i)) (64 * k)) ∧
    (∀ g, fld d 40 4 = 1 → o.groups = [g] → let l := List.zip (row (fld d 16 8) g.a) (row (fld d 24 8) g.b)
      (descOp d = 0x06 → moved (.gather u r q) l 1) ∧ (descOp d = 0x07 → moved (.scatter u r q) l 1)) ∧
    (∀ (e : ExtRec) (g : Nat), fld d 24 8 = 32768 → let tile := fld d 16 8 / 32768
      ownExt s n (tile * 32768) = some (e, g) →
        (descOp d = 0x02 → tileHere s e g tile = true → Answers (.prefetch u r q) s fun t => ended t o 0 0 1 0 ∧ t.drt = s.drt) ∧
        (∀ w, findWay s e.tenant tile = some w →
          (descOp d = 0x03 → tileHere s e g tile = true → (wayOf s.drt w).pinned = false →
            let full := 8 ≤ pinnedWays s (some (w / 16)) ∨ 16 * cacheSets s ≤ 4 * pinnedWays s none
            (full → Answers (.pin u r q) s fun t => ended t o 3 5 0 0 ∧ t.drt = s.drt ∧ noted t 0x0D01 n 10 r) ∧
            (¬ full → Answers (.pin u r q) s fun t => ended t o 0 0 1 0 ∧ (wayOf t.drt w) = { wayOf s.drt w with pinned := true })) ∧
          (descOp d = 0x04 → Answers (.unpin u r q) s fun t => ended t o 0 0 1 0 ∧ (wayOf t.drt w) = { wayOf s.drt w with pinned := false }) ∧
          (descOp d = 0x05 → (e.tenant, tile) ∉ dirtyTiles s → (n, tile) ∉ dirtyTiles s →
            (inLog s.hrd e.tenant tile = none → Answers (.migrate u r q) s fun t => ended t o 0 0 1 0 ∧
              (wayOf t.drt w).valid = (if fld d 32 1 = 0 ∧ (wayOf s.drt w).pinned = false then false else (wayOf s.drt w).valid)) ∧
            ((inLog s.hrd e.tenant tile).isSome = true → Answers (.migrate u r q) s fun t =>
              t.opq.ops = [{ o with acc := 1 }] ∧ t.drt = s.drt)))) ∧
    (fld d 24 8 = 32768 → let tile := fld d 16 8 / 32768
      let to_ := servingAt s n (tile * 32768)
      ownExt s n (tile * 32768) = none → to_ ≠ me s → (outPort s to_).isSome = true →
        let sent (i : Instr) (kind : Nat) : Prop := Answers i s fun t => ended t o 0 0 1 0 ∧ sentTo t to_ (.tileWork kind n tile)
        (descOp d = 0x02 → sent (.prefetch u r q) 2) ∧ (descOp d = 0x03 → sent (.pin u r q) 3) ∧ (descOp d = 0x04 → sent (.unpin u r q) 4) ∧
        (descOp d = 0x05 → sent (.migrate u r q) (if fld d 32 1 = 0 then 6 else 5)))

/-- A drained block is its rounded sums of products; EXPERT_ROUTE picks the best score; CHECKSUM and EXPORT_COMPRESSED report
their range (R17, R286, R291, R292, R300, R304, R324, R330, R332, R333, R336, R337). A free engine in SERVING takes the next
output block of the operator; one that is not free changes nothing. Draining the last block of a product with seed ZERO, whose
lines are all at hand, leaves each element of the block at its place of the output as its sum of products, delivered in the
output format and mode, under RELU where it is set, and the operator ends with its blocks; a column whose residue disagrees ends
it FAILED with RESIDUE instead and puts the engine under repair. A compute operator whose blocks are all released ends, else it
waits. EXPERT_ROUTE for one token and k = 1 assigns the expert of the highest score, the lower index on a tie. CHECKSUM gives
the CRC-32C of its range, or the tiles that differ from the manifest and the first of them. EXPORT_COMPRESSED of one tile ends
with its bytes written, or FAILED with NO_SPACE. A tile fetched comes into the engine's operand SRAM. -/
def Obligations.OperatorsComputeAndCheck : Prop :=
  (∀ (s : State) (o : Op), runsAlone s o →
    let d := o.desc
    let n := o.tenant
    let u := o.ringUnit
    let r := o.ring
    let q := o.sqIndex
    (∀ i, (descOp d = 0x10 ∧ i = .gemm u r q) ∨ (descOp d = 0x11 ∧ i = .groupedGemm u r q) ∨ (descOp d = 0x13 ∧ i = .expertFfn u r q) ∨
        (descOp d = 0x14 ∧ i = .reduceExact u r q) →
      (opBlocks o ≤ o.progress → Answers i s fun t => ended t o 0 0 o.progress o.r1) ∧ (o.progress < opBlocks o → exec i s = .next s)) ∧
    (∀ e < 4, (engOf s.eng e).st = 0 → (engOf s.eng e).block = none → hasBlock s o = true → Answers (.engineBlockDispatch e) s fun t =>
      (engOf t.eng e).block = some (u, r, q, o.dispatched) ∧ t.opq.ops = [{ o with dispatched := o.dispatched + 1 }]) ∧
    (∀ (e : Nat) (p : Product) (i first : Nat), (engOf s.eng e).block = some (u, r, q, o.progress) →
      blockAt (products o) o.progress 0 = some (p, i, first) →
      (∀ w ∈ blockReads p i, rangeReady s n w.1 w.2 false = true ∧ ∀ m ∈ rangeLines w.1 w.2, ∃ l, lineAt s n (64 * m) = some (l, false)) →
      p.src = [] → p.seed = 0 →
      let w := p.c + blockBytes p.out * i
      p.c % 64 = 0 → rangeReady s n w (blockBytes p.out) true = true →
      (∀ col more, (o.progress ≠ 0 ∨ ∀ y ∈ products o, y.src = [] ∧ y.seed ≠ 1) → Answers (.outputBlockDrain e (col :: more)) s fun t =>
        ended t o 3 1 o.progress o.r1 ∧ noted t 0x0D01 n 10 r ∧
        (engOf t.eng e).st = (if (engOf s.eng e).st = 0 then 2 else (engOf s.eng e).st) ∧ (engOf t.eng e).block = none) ∧
      (p.out < 4 → o.progress + 1 = opBlocks o → (o.progress ≠ 0 ∨ ∀ y ∈ products o, y.src = [] ∧ y.seed ≠ 1) →
        (∀ m ∈ rangeLines w (blockBytes p.out), stagedHere s n (64 * m) = true) → Answers (.outputBlockDrain e []) s fun t =>
          ended t { o with progress := o.progress + 1 } 0 0 (o.progress + 1) o.r1 ∧ (engOf t.eng e).blocks = (engOf s.eng e).blocks + 1 ∧
          ∀ row < blockRows p i, ∀ c < blockCols p i,
            let A := bandHere s n p.a p.fa p.k (i / prodCols p)
            let B := bandHere s n p.b p.fb p.k (i % prodCols p)
            let v := (deliverEntry p.out p.mode p.scale (dot {} (rowElements p.fa p.k A row) (rowElements p.fb p.k B c))).val
            let a := w + roundedAt p.out row c
            ∃ l, lineAt t n (a / 64 * 64) = some (l, false) ∧
              fld l (a % 64) (outSize p.out) = (if p.relu then reluOf p.out v else v) % 2 ^ (8 * outSize p.out))) ∧
    (descOp d = 0x12 → o.progress = 0 → o.r1 = 0 → fld d 20 4 = 1 → fld d 17 1 = 1 → let x := fld d 18 2
      let f := fld d 16 1
      0 < x → (∀ w ∈ (opRanges o).reads, rangeReady s n w.1 w.2 false = true ∧ ∀ m ∈ rangeLines w.1 w.2, (lineAt s n (64 * m)).isSome = true) →
      (∀ w ∈ (opRanges o).writes, rangeReady s n w.1 w.2 true = true ∧ ∀ m ∈ rangeLines w.1 w.2, stagedHere s n (64 * m) = true) →
      fld d 24 8 % 64 = 0 → fld d 32 8 % 64 = 0 →
      (∀ w ∈ (opRanges o).writes.drop 1, fld d 32 8 + 64 ≤ w.1 ∨ w.1 + w.2 ≤ fld d 32 8) →
      let score (j : Nat) : Option Int :=
        let a := fld d 24 8 + j * scoreSize d
        let l := (lineAt s n (a / 64 * 64)).getD ([], false)
        scoreKey (inputEl f (fld l.1 (a % 64) (scoreSize d))) l.2
      Answers (.expertRoute u r q) s fun t => ended t o 0 0 1 1 ∧ ∃ l b, lineAt t n (fld d 32 8) = some (l, false) ∧ fld l 0 2 = b ∧ b < x ∧
        ∀ j < x, keyLess (score b) (score j) = false ∧ (j < b → keyLess (score j) (score b) = true)) ∧
    (descOp d = 0x20 → fld d 32 1 = 0 → o.progress = 0 → o.acc = 0 → o.r1 = 0 → 0 < fld d 24 8 →
      rangeReady s n (fld d 16 8) (fld d 24 8) false = true →
      (∀ m ∈ rangeLines (fld d 16 8) (fld d 24 8), (lineAt s n (64 * m)).isSome = true) → Answers (.checksum u r q) s fun t =>
        ended t o 0 0 (crc32c (slice ((rangeLines (fld d 16 8) (fld d 24 8)).flatMap fun m => ((lineAt s n (64 * m)).getD ([], false)).1)
          (fld d 16 8 % 64) (fld d 24 8))).toNat 0) ∧
    (∀ e, descOp d = 0x20 → fld d 32 1 = 1 → o.progress = 0 → extRec (extView s) (fld d 16 2) = some e → (∀ g < e.size, serverOf s e g = me s) →
      (∀ i < e.size * 32768, tileAtHand s e (i / 32768) (e.base * 32768 + i) = true) →
      let bad := (List.range (e.size * 32768)).filter fun i =>
        crc32c (tileData s e (i / 32768) (e.base * 32768 + i)) != tget 0 (tget [] s.ext.manifests e.id) i
      Answers (.checksum u r q) s fun t => ended t o 0 0 bad.length (bad.head?.getD (2 ^ 64 - 1))) ∧
    (∀ e g rd, descOp d = 0x30 → o.progress = 0 → o.acc = 0 → o.r1 = 0 → fld d 24 8 = 32768 → fld d 16 8 % 64 = 0 →
      extFor s n (fld d 16 8) = some (e, g, rd) → rangeReady s n (fld d 16 8) 32768 false = true →
      (∀ m ∈ rangeLines (fld d 16 8) 32768, (lineAt s n (64 * m)).isSome = true) →
      let b := exportTile e 0 ((rangeLines (fld d 16 8) 32768).map fun m => (lineAt s n (64 * m)).getD ([], false))
      (fld d 40 8 < b.length → Answers (.exportCompressed u r q) s fun t => ended t o 3 5 0 0 ∧ noted t 0x0D01 n 10 r) ∧
      (b.length + 32 ≤ fld d 40 8 → rangeReady s n (fld d 32 8) (fld d 40 8) true = true →
        (∀ m ∈ rangeLines (fld d 32 8) (fld d 40 8), stagedHere s n (64 * m) = true) → Answers (.exportCompressed u r q) s fun t =>
          ended t o 0 0 1 (b.length + 32)))) ∧
  (∀ (s : State) (e : Nat), (4 ≤ e ∨ (engOf s.eng e).st ≠ 0 ∨ (engOf s.eng e).block.isSome = true) → exec (.engineBlockDispatch e) s = .next s) ∧
  (∀ (s : State) (e n tile : Nat) (x : ExtRec) (g : Nat) (rd : Bool) (a : Nat), e < 4 →
    ((engOf s.eng e).sram.any fun y => y.tenant == n && y.tile == tile) = false → extFor s n (tile * 32768) = some (x, g, rd) →
    readOk (extSt s x.id).st rd = true → serverOf s x g = me s → rangeReady s n (tile * 32768) 32768 false = true → landedAddr s x g tile 0 = some a →
      Answers (.operandTileFetch e n tile) s fun t => ∃ y ∈ (engOf t.eng e).sram, y.tenant = n ∧ y.tile = tile ∧ y.lastUse = now s)

/-- A clean cold start ends SERVING with its image or HELD without one; failed elements are replaced by spares; a firmware
restart aborts and resets (R77, R78, R84, R86, R88, R89, R91, R93, R96, R310, Table 5.6, Table 5.7). COLD_START of a unit just
powered, with nothing found faulty and every phase within its bound, ends SERVING with its current image in force and its time
loaded when the image passes steps 1 to 12, and else HELD with none. PHASE_BOUND makes the unit FAULTED, but in phases 7 and 9.
An idle engine that passes its test sets its PASS bit; one that fails clears it and is under repair until its failing elements
are out, and then serves again, or is withdrawn with event 0x0C02. A codec engine or a core that fails gives its role to the
lowest spare. A row with an uncorrectable error, or its third corrected one in 24 h, is replaced by a spare row, else only
counted. A pace scan replaces a serving SLOW element of a GREEN group and notes any other. A firmware restart aborts operators
in flight and draws a new nonce; when complete, the unit goes on, or loses an image that no longer passes. -/
def Obligations.ColdStartAndSelfRepair : Prop :=
  (∀ (s : State) (env : StartEnv) (m : Image), s.uni.st = .starting → s.vq.restart5 = false → s.vq.nextMarked = false → s.vq.epochState = 0 → s.vq.coord = none →
    s.mon = {} → s.hst = {} → s.mbx = {} → s.ext = {} → s.cdc = {} → s.drt = {} → s.hrd = {} → s.wrn = {} → s.eng = {} → s.opq = {} → s.lif.fieldMap = [] →
    s.uni.holdWanted = false → s.lif.calValid = true →
    env = { fwOk := true, fails := [], slows := [], retestPass := [], badMonitors := [], fuseCorrected := [], fuseBad := [], badSids := [], warrenTime := none,
            ptpTime := none, hellos := [], dreys := [], replayed := [], links := [], phaseMs := env.phaseMs } →
    (∀ n ∈ [1, 2, 3, 4, 5, 6, 7, 8, 9], env.phaseMs.getD (n - 1) 0 ≤ [0, 3000, 5000, 30000, 5000, 6000, 80000, 80000, 126000, 45000].getD n 0) →
    lifecycle s.fus ≠ 0 → lifecycle s.fus ≠ 3 → badWords s.fus = [] → factoryWords s.fus = [] → currentBank s.vq = some m →
    let f := readFuses env s.free s.fus
    let code := (validateImage f none s.vq.genFloor m.raw 12).1.code
    (code ≠ 0 → Answers (.coldStart env) s fun t => t.uni.st = .held ∧ t.vq.active = none ∧ t.vq.valid = false ∧ t.uni.phase = 0 ∧
      t.lif.coldStarts = min (s.lif.coldStarts + 1) 65535 ∧ 0x000A ∈ t.flt.causes) ∧
    (code = 0 → (spareRoom (some m) ((memberNumber f m).getD 0) 32).isSome = true → Answers (.coldStart env) s fun t => t.uni.st = .serving ∧
      t.vq.active = some m ∧ t.vq.valid = true ∧ t.uni.phase = 0 ∧ t.mon.loaded = true ∧ s.lif.cal ≤ t.mon.timebase ∧
      t.lif.coldStarts = min (s.lif.coldStarts + 1) 65535 ∧ t.cdc.engMap = (List.range 8).map (fun i => (i, i)) ∧ t.fus.lifted = 0)) ∧
  (∀ (s : State) (n : Nat), (s.uni.st ≠ .starting ∨ n = 0 ∨ 9 < n → exec (.phaseBound n) s = .next s) ∧
    (s.uni.st = .starting → 0 < n → n ≤ 9 → Answers (.phaseBound n) s fun t => t.uni.failPhase = n ∧
      t.uni.st = (if n = 7 ∨ n = 9 then .starting else .faulted))) ∧
  (∀ (s : State) (e : Nat) (c : Nat) (cs : List Nat), unitServesOrHeld s = true → e < 4 → (engOf s.eng e).block = none →
    ((engOf s.eng e).st ≠ 0 → exec (.engineKatTimer e cs) s = .next s) ∧
    ((engOf s.eng e).st = 0 →
      (Answers (.engineKatTimer e []) s fun t => t.eng.katPass = s.eng.katPass ||| BitVec.ofNat 4 (2 ^ e) ∧ engOf t.eng e = engOf s.eng e) ∧
      (Answers (.engineKatTimer e (c :: cs)) s fun t => t.eng.katPass.getLsbD e = false ∧ (engOf t.eng e).st = 2 ∧
        ({ cls := 1, grp := e, elt := c } : RepairEntry) ∈ (engOf t.eng e).failing) ∧
      (∀ run pass : BitVec 4, run.getLsbD e = true → Answers (.engKatRun run pass) s fun t => t.eng.katWanted.getLsbD e = false ∧
        t.eng.katPass.getLsbD e = pass.getLsbD e ∧ (engOf t.eng e).st = (if pass.getLsbD e then 0 else 2)))) ∧
  (∀ (s : State) (e : Nat), let x := engOf s.eng e
    (x.st ≠ 1 → x.st ≠ 2 → exec (.engineRepairComplete e) s = .next s) ∧
    (e < 4 → x.st = 2 → nothingWaits s = true → (∀ f ∈ x.failing, f.cls = 1 ∧ f.grp = e) →
      let left (c n : Nat) : Nat := ((List.range n).filter fun k => !isOut s c e k && !x.failing.contains { cls := c, grp := e, elt := k }).length
      (128 ≤ left 1 132 → 64 ≤ left 2 68 → Answers (.engineRepairComplete e) s fun t => (engOf t.eng e).st = 0 ∧ (engOf t.eng e).failing = [] ∧
        ∀ f ∈ x.failing, f ∈ t.uni.outOfService) ∧
      (left 1 132 < 128 → Answers (.engineRepairComplete e) s fun t => (engOf t.eng e).st = 3 ∧ noted t 0x0C02 0 7 e))) ∧
  (∀ (s : State) (p i x : Nat) (r : List Nat), unitServesOrHeld s = true →
    (isOut s 3 0 p = false → p < 9 → exec (.codecKatTimer p true) s = .next s ∧
      (s.cdc.engMap.find? (fun q => q.2 == p) = some (i, p) → ((workingOf s 3 0).filter fun k => k != p && !(s.cdc.engMap.any fun q => q.2 == k)) = x :: r →
        Answers (.codecKatTimer p false) s fun t => tget 99 t.cdc.engMap i = x ∧ isOut t 3 0 p = true ∧ noted t 0x0004 0 0 0)) ∧
    (isOut s 4 0 p = false → p < 10 → s.uni.coreMap.find? (fun q => q.2 == p) = some (i, p) →
      ((workingOf s 4 0).filter fun k => k != p && !(s.uni.coreMap.any fun q => q.2 == k)) = x :: r →
        Answers (.shrewCoreFailure p) s fun t => tget 99 t.uni.coreMap i = x ∧ isOut t 4 0 p = true ∧ noted t 0x0004 0 0 0)) ∧
  (∀ (s : State) (b row k : Nat) (ks : List Nat), unitServesOrHeld s = true → b < 256 → row < 4096 → isOut s 5 b row = false → nothingWaits s = true →
    let recent := (tget [] s.uni.rowErrors (2 ^ 13 * b + row)).filter fun t => decide (now s < t + 86400000000000)
    (recent.length < 2 → Answers (.sramRowError b row false true) s fun t => isOut t 5 b row = false ∧ t.uni.rowMap = s.uni.rowMap ∧
      tget [] t.uni.rowErrors (2 ^ 13 * b + row) = now s :: recent) ∧
    (freeSpareRows s b = k :: ks → ∀ un, (un = true ∨ 2 ≤ recent.length) → Answers (.sramRowError b row un true) s fun t => isOut t 5 b row = true ∧
      (b, row, k) ∈ t.uni.rowMap)) ∧
  (∀ (s : State) (e : RepairEntry), e.cls ∈ [1, 2] → e.grp < 4 → e.elt < built e.cls → isOut s e.cls e.grp e.elt = false →
    let good := (servingElements s e.cls e.grp).contains e.elt = true ∧ groupGreen s e = true ∧ engineIdle s e.grp = true
    (good → Answers (.paceScan [e]) s fun t => (engOf t.eng e.grp).st = 2 ∧ e ∈ (engOf t.eng e.grp).failing) ∧
    (¬ good → Answers (.paceScan [e]) s fun t => e ∈ t.uni.slow ∧ t.eng = s.eng)) ∧
  (∀ (s : State), ((unitServesOrHeld s = false ∨ s.uni.restarting = true) → exec .firmwareRestart s = .next s) ∧
    (unitServesOrHeld s = true → s.uni.restarting = false → s.opq.intake = [] → s.opq.fwd = [] → s.opq.ops = [] → s.vq.coord = none →
      Answers .firmwareRestart s fun t => t.uni.restarting = true ∧ (∃ n, t.fus.nonce = Config.entropy n) ∧ t.fus.lifted = 0 ∧ t.vq.buf = [] ∧ t.fus.len = 0 ∧
        t.vq.loadLen = 0 ∧ t.lif.fwRestarts = min (s.lif.fwRestarts + 1) 65535 ∧ t.mbx.fwEpoch = (s.mbx.fwEpoch + 1) % 16 ∧ t.uni.st = s.uni.st) ∧
    (∀ o, unitServesOrHeld s = true → s.uni.restarting = false → s.opq.intake = [] → s.opq.fwd = [] → s.opq.ops = [o] → o.gate = 0 → s.vq.coord = none →
      o.ringUnit ≠ me s → (outPort s o.ringUnit).isSome = true → o.ringUnit ∉ s.wrn.unreachable → Answers .firmwareRestart s fun t => ended t o 1 3 o.progress 0) ∧
    (s.uni.restarting = false → exec .firmwareRestartComplete s = .next s) ∧
    (∀ m, s.uni.restarting = true → s.vq.active = some m → nothingWaits s = true →
      let code := (validateImage s.fus none s.vq.genFloor m.raw 12).1.code
      (code = 0 → Answers .firmwareRestartComplete s fun t => t.uni.restarting = false ∧ t.vq.active = some m ∧ t.uni.cause = 1) ∧
      (code ≠ 0 → (s.uni.st = .serving ∨ s.uni.st = .draining ∨ s.uni.st = .held) → Answers .firmwareRestartComplete s fun t =>
        t.uni.restarting = false ∧ t.vq.active = none ∧ t.uni.st = .held ∧ 0x000A ∈ t.flt.causes)))

/-- PREPARE is refused by the first check that fails or answered PREPARED; the coordinator commits on the last answer and rolls
back on a refusal (R344, R345, R347, R348, R362, R365, Table 15.2, Table 15.3). A PREPARE whose checks fail is answered REFUSED
with the code of the first, which is recorded; one that passes, or was taken before, is answered PREPARED, the unit holds the
image as its shadow set, and nothing of the image in force changes. The last PREPARED at the coordinator decides COMMIT with Ts
50 ms on, sent to every other unit; an earlier one is noted. A refusal, the deadline, and the abort of VQ_CTL decide ROLLBACK,
name the code and the unit, and tell the others; before the deadline nothing happens. A unit that has decided the epoch answers
PREPARED with its decision, and the decision is sent again to those that have not acknowledged it. A unit prepared for twice the
timeout says so again. The abort of a switched update prepares its predecessor; any other abort is a write ignored. -/
def Obligations.EpochsPrepareAndDecide : Prop :=
  (∀ (s : State) (src epoch : Nat) (g : BitVec 128), epochSrcOk s src = true → epoch < 2 ^ 48 → (outPort s src).isSome = true →
    let answers (i : Instr) (kind code : Nat) (P : State → Prop) : Prop := Answers i s fun t => sentTo t src (.epochPrepare kind code epoch g) ∧ P t
    let i := Instr.epochPrepare src epoch g
    (s.uni.st = .faulted → answers i 2 4 fun t => t.vq.refusal = 4 ∧ t.vq.refuser = me s ∧ t.vq.epochState = s.vq.epochState) ∧
    (unitServesOrHeld s = true → s.vq.epochState = 1 → s.vq.preparedEpoch = epoch → answers i 1 0 fun t => t.vq = s.vq) ∧
    (unitServesOrHeld s = true → (s.vq.epochState ≠ 1 ∨ s.vq.preparedEpoch ≠ epoch) →
      let refused (c : Nat) : Prop := answers i 2 c fun t => t.vq = { s.vq with refusal := c, refuser := me s }
      let back := s.vq.epochState = 2 ∧ s.vq.shadow.map digest16 = some g
      (candidate s g = none → refused 1) ∧
      (∀ m, candidate s g = some m → s.vq.active.isSome = true →
        let n := (memberNumber s.fus m).getD (me s)
        (s.vq.epochState ≠ 0 → ¬ back → refused 2) ∧
        ((s.vq.epochState = 0 ∨ back) → (shadowBusy s = true → refused 3) ∧
          (shadowBusy s = false → (carryOk s m = false → refused 5) ∧
            (carryOk s m = true → (volatileOk s.vq.active (some m) = false → refused 6) ∧
              (volatileOk s.vq.active (some m) = true → (fitOk s m n = false → refused 7) ∧
                (fitOk s m n = true → answers i 1 0 fun t => t.vq.epochState = 1 ∧ t.vq.preparedEpoch = epoch ∧ t.vq.preparedAt = now s ∧
                  t.vq.coordUnit = src ∧ t.vq.shadow = some m ∧ t.vq.active = s.vq.active ∧ t.vq.number = s.vq.number ∧ t.vq.currentB = s.vq.currentB)))))))) ∧
  (∀ (s : State) (c : Coord), unitServesOrHeld s = true → s.vq.coord = some c → c.decision = none →
    let rolled (code unit : Nat) (t : State) : Prop := t.vq.refusal = code ∧ t.vq.refuser = unit ∧ t.vq.phase = 0 ∧
      t.vq.code = (if code = 2 ∨ code = 3 then 15 else 10) ∧ ∀ u ∈ c.members, u ∉ c.acked → u ≠ me s → (outPort s u).isSome = true →
        sentTo t u (.epochCommit 1 c.epoch 0) ∧ ∃ d, t.vq.coord = some d ∧ d.decision = some false
    (∀ src, epochSrcOk s src = true → src ∈ c.members →
      (∀ u ∈ c.members, u ∉ insAsc src c.prepared → s.vq.decided = [] → Answers (.epochPrepared src c.epoch) s fun t =>
        t.vq.coord = some { c with prepared := insAsc src c.prepared } ∧ t.vq.epochState = s.vq.epochState) ∧
      ((∀ u ∈ c.members, u ∈ insAsc src c.prepared) → s.vq.decided = [] → Answers (.epochPrepared src c.epoch) s fun t =>
        t.vq.code = 0 ∧ t.vq.phase = 0 ∧ (∃ d, t.vq.coord = some d ∧ d.decision = some true ∧ d.ts = now s + 50000000) ∧
        (s.vq.epochState = 1 → s.vq.preparedEpoch = c.epoch → t.vq.switchDue = some (now s + 50000000)) ∧
        ∀ u ∈ c.members, u ∉ c.acked → u ≠ me s → (outPort s u).isSome = true → sentTo t u (.epochCommit 0 c.epoch (now s + 50000000))) ∧
      (∀ code, 0 < code → code ≤ 7 → Answers (.epochRefused src c.epoch code) s (rolled code src))) ∧
    (now s < c.deadline → exec .prepareTimeout s = .next s) ∧
    (∀ u, c.deadline ≤ now s → c.members.find? (fun u => !c.prepared.contains u) = some u → Answers .prepareTimeout s (rolled 0 u)) ∧
    exec .commitResendTimer s = .next s ∧ (s.vq.epochState = 1 → ∀ v : Word, bit v.toNat 0 = true → Answers (.vqCtlAbort v) s (rolled 0 (me s)))) ∧
  (∀ (s : State) (src epoch : Nat) (ts : Ns) (d : Bool), unitServesOrHeld s = true → epochSrcOk s src = true → (outPort s src).isSome = true →
    s.vq.coord = none → s.vq.decided = [(epoch, d, ts)] → Answers (.epochPrepared src epoch) s fun t =>
      sentTo t src (if d then .epochCommit 0 epoch ts else .epochCommit 1 epoch 0) ∧ t.vq = s.vq) ∧
  (∀ (s : State) (c : Coord) (d : Bool), s.vq.coord = some c → c.decision = some d →
    exec .prepareTimeout s = .next s ∧ Answers .commitResendTimer s fun t => t.vq = s.vq ∧ ∀ u ∈ c.members, u ∉ c.acked → u ≠ me s → (outPort s u).isSome = true →
      sentTo t u (if d then .epochCommit 0 c.epoch c.ts else .epochCommit 1 c.epoch 0)) ∧
  (∀ (s : State), s.vq.coord = none → exec .prepareTimeout s = .next s ∧ exec .commitResendTimer s = .next s) ∧
  (∀ (s : State) (m : Image), s.vq.epochState = 1 → s.vq.switchDue = none → s.vq.shadow = some m →
    let due := s.vq.preparedAt + 2 * fabTimeout s.vq.active * 1000000
    (now s < due → exec .preparedResend s = .next s) ∧
    (due ≤ now s → s.vq.coordUnit ≠ me s → unreachable s s.vq.coordUnit = false → (outPort s s.vq.coordUnit).isSome = true →
      Answers .preparedResend s fun t => sentTo t s.vq.coordUnit (.epochPrepare 1 0 s.vq.preparedEpoch (digest16 m)) ∧ t.vq = s.vq)) ∧
  (∀ (s : State) (v : Word),
    (bit v.toNat 0 = false → exec (.vqCtlAbort v) s = .next s) ∧
    (bit v.toNat 0 = true → s.vq.epochState ≠ 1 → s.vq.epochState ≠ 2 → Answers (.vqCtlAbort v) s fun t => t.vq = s.vq ∧ noted t 0x000F 0 0 0) ∧
    (∀ p u, bit v.toNat 0 = true → s.vq.epochState = 2 → s.vq.shadow = some p → u ∈ namedUnits s.vq.active (some p) → u ≠ me s → (outPort s u).isSome = true →
      Answers (.vqCtlAbort v) s fun t => sentTo t u (.epochPrepare 0 0 (max s.vq.epoch s.vq.preparedEpoch + 1) (digest16 p))))

/-- COMMIT sets the switch time; at Ts the shadow set comes into force; ROLLBACK drops it; the update settles when every unit
says so (R346, R348, R350, R353, R362, R365, Table 15.2, Table 15.5). A COMMIT of the epoch that the unit is prepared for makes
the switch due at Ts, or switches now, marked LATE and with event 0x0203, when Ts has passed; a unit that has switched says so
again. At Ts, not before, the shadow set becomes the image in force and the old one the shadow set, the bank marker moves, and
the epoch is switched. ROLLBACK of that epoch drops the shadow set and is acknowledged; an epoch already switched is not rolled
back. A unit whose moves have all settled reports it, and when its coordinator says that all have, the epoch is idle and no move
is left. At the coordinator a DONE counts as an acknowledgement. -/
def Obligations.EpochsSwitchAndSettle : Prop :=
  (∀ (s : State) (src epoch : Nat) (ts : Ns), unitServesOrHeld s = true → epochSrcOk s src = true →
    (s.vq.decided.find? (fun d => d.1 == epoch) = none → (s.vq.epochState ≠ 1 ∨ s.vq.preparedEpoch ≠ epoch) → Answers (.epochCommit src epoch ts) s fun t => t.vq = s.vq) ∧
    (s.vq.decided.find? (fun d => d.1 == epoch) = none → s.vq.epochState = 1 → s.vq.preparedEpoch = epoch →
      (now s ≤ ts → Answers (.epochCommit src epoch ts) s fun t => t.vq = { s.vq with switchDue := some ts, epoch := max epoch s.vq.epoch }) ∧
      (∀ m a, ts < now s → s.vq.shadow = some m → s.vq.active = some a → (memberNumber s.fus m).isSome = true → s.vq.coord = none →
        Answers (.epochCommit src epoch ts) s fun t => t.vq.active = some m ∧ t.vq.shadow = some a ∧ t.vq.late = true ∧ noted t 0x0203 0 0 0)) ∧
    (∀ t0, s.vq.decided.find? (fun d => d.1 == epoch) = some (epoch, true, t0) → s.vq.coord = none → (outPort s s.vq.coordUnit).isSome = true →
      Answers (.epochCommit src epoch ts) s fun t => sentTo t s.vq.coordUnit (.epochCommit 2 epoch t0) ∧ t.vq = s.vq)) ∧
  (∀ (s : State), (s.vq.switchDue = none → exec .stagedSwitch s = .next s) ∧
    (∀ ts, s.vq.switchDue = some ts → (s.vq.epochState ≠ 1 ∨ now s < ts) → exec .stagedSwitch s = .next s) ∧
    (∀ ts m a n, s.vq.switchDue = some ts → s.vq.epochState = 1 → ts ≤ now s → s.vq.shadow = some m → s.vq.active = some a → memberNumber s.fus m = some n →
      s.vq.coord = none → Answers .stagedSwitch s fun t => t.vq.active = some m ∧ t.vq.shadow = some a ∧ t.vq.number = n ∧ t.vq.currentB = !s.vq.currentB ∧
        t.vq.nextMarked = false ∧ t.vq.epochState = (if s.vq.reversing then 3 else 2) ∧ t.vq.switchTs = now s ∧ t.vq.switchDue = none ∧ t.vq.late = false ∧
        t.vq.epoch = max s.vq.preparedEpoch s.vq.epoch)) ∧
  (∀ (s : State) (src epoch : Nat), unitServesOrHeld s = true → epochSrcOk s src = true →
    (s.vq.decided.any (fun d => d.1 == epoch && d.2.1) = true → Answers (.epochRollback src epoch) s fun t => t.vq = s.vq) ∧
    (s.vq.decided.any (fun d => d.1 == epoch && d.2.1) = false → s.vq.coord = none → s.vq.epochState = 1 → s.vq.preparedEpoch = epoch →
      (outPort s s.vq.coordUnit).isSome = true → Answers (.epochRollback src epoch) s fun t => sentTo t s.vq.coordUnit (.epochCommit 2 epoch 0) ∧
        t.vq.epochState = (if s.vq.reversing then 2 else 0) ∧ t.vq.shadow = (if s.vq.reversing then s.vq.shadow else none) ∧ t.vq.active = s.vq.active ∧
        t.vq.decided = (epoch, false, 0) :: s.vq.decided)) ∧
  (∀ (s : State) (src epoch tm : Nat), unitServesOrHeld s = true → epochSrcOk s src = true →
    (s.vq.coord = none → s.vq.epochState = 2 → s.vq.epoch = epoch → s.vq.coordUnit = src → nothingWaits s = true → Answers (.epochDone src epoch (2 ^ 64 - 1)) s fun t =>
      t.vq.epochState = 0 ∧ t.vq.mig = {} ∧ t.vq.active = s.vq.active) ∧
    (∀ c, s.vq.coord = some c → c.epoch = epoch → src ∈ c.members →
      (∀ u ∈ c.members, c.decision = some true → (u ∉ c.settled ∧ (u ≠ src ∨ tm ≠ 2 ^ 64 - 1)) → Answers (.epochDone src epoch tm) s fun t =>
        ∃ d, t.vq.coord = some d ∧ d.acked = insAsc src c.acked ∧ t.vq.epochState = s.vq.epochState) ∧
      (c.decision = some false → (∀ u ∈ c.members, u ∈ insAsc src c.acked) → Answers (.epochDone src epoch tm) s fun t => t.vq.coord = none))) ∧
  (∀ (s : State), (s.vq.epochState ≠ 2 → s.vq.epochState ≠ 3 → exec .migrationSettled s = .next s) ∧
    ((s.vq.epochState = 2 ∨ s.vq.epochState = 3) → s.vq.mig = {} → s.drt.retire = none → s.drt.retireQueue = [] → nothingWaits s = true → s.vq.coord = none →
      (outPort s s.vq.coordUnit).isSome = true → Answers .migrationSettled s fun t => sentTo t s.vq.coordUnit (.epochCommit 2 s.vq.epoch (2 ^ 64 - 1)) ∧
        t.vq = s.vq))

/-- A load reports its first failing code or takes effect as its mode says; a distributed image is checked by every named unit
within 5 s (R63, R69, R71, R72, R73, R74, R76, R349, Table 4.29). While a load is in progress another is refused, with REFUSED
set and event 0x0201. A load that the validation of its mode refuses ends with that code and this unit, and event 0x0201; mode 3
ends with code 2. A passing VALIDATE reports 0 and changes nothing else, a passing NEXT_START on a unit with an image stores it
in the other bank as the next image, and a passing UPDATE on one unit prepares an epoch. A distributed load, and an UPDATE on a
Warren of more units, sends the image to the other named units and waits for 5 s; a unit that has not answered by then fails
with code 10, and the first failure by unit number is the result. A copy that arrives whole is validated and the verdict sent
back, in answer to a busy unit 15. The word of its source makes a unit store the NEXT_START image that it holds. -/
def Obligations.ImagesLoad : Prop :=
  (∀ (s : State) (len mode : Nat) (dist : Bool) (i : Instr), mbxDown s = false → len < 2 ^ 25 →
    (i = .validate len dist ∧ mode = 0) ∨ (i = .update len dist ∧ mode = 1) ∨ (i = .nextStart len dist ∧ mode = 2) ∨ (i = .loadModeRefused len dist ∧ mode = 3) →
    (s.vq.busy = true → Answers i s fun t => t.vq.refused = true ∧ t.vq.busy = true ∧ t.vq.active = s.vq.active ∧ noted t 0x0201 0 0 0) ∧
    (s.vq.busy = false → mode = 3 → Answers i s fun t => t.vq.code = 2 ∧ t.vq.detailUnit = me s ∧ t.vq.busy = false ∧ t.vq.active = s.vq.active) ∧
    (s.vq.busy = false → mode < 3 → 2 ^ 24 < len → Answers i s fun t => t.vq.code = 1 ∧ t.vq.detailUnit = me s ∧ t.vq.busy = false) ∧
    (∀ v m, s.vq.busy = false → mode < 3 → len ≤ 2 ^ 24 → ownVerdict (mread s.vq.buf 0 len) mode s = (v, m) →
      let n := max (fabN s.vq.active) (fabN m)
      (dist = false → (mode ≠ 1 ∨ n ≤ 1) →
        (v.code ≠ 0 → Answers i s fun t => t.vq.code = v.code ∧ t.vq.detailUnit = me s ∧ t.vq.detailRecord = v.record ∧ t.vq.detailField = v.field ∧
          t.vq.busy = false ∧ t.vq.phase = 0 ∧ t.vq.active = s.vq.active ∧ t.vq.bankA = s.vq.bankA ∧ t.vq.bankB = s.vq.bankB ∧ noted t 0x0201 0 0 0) ∧
        (∀ x, v.code = 0 → m = some x →
          (mode = 0 → Answers i s fun t => t.vq.code = 0 ∧ t.vq.busy = false ∧ t.vq.active = s.vq.active ∧ t.vq.bankA = s.vq.bankA ∧ t.vq.bankB = s.vq.bankB) ∧
          (mode = 2 → s.vq.active.isSome = true → Answers i s fun t => t.vq.code = 0 ∧ t.vq.busy = false ∧ otherBank t.vq = some x ∧ t.vq.nextMarked = true ∧
            currentBank t.vq = currentBank s.vq ∧ t.vq.active = s.vq.active) ∧
          (mode = 1 → namedUnits s.vq.active (some x) = [me s] → s.vq.decided = [] → s.vq.active.isSome = true → candidate s (digest16 x) = none →
            s.vq.epochState = 0 → shadowBusy s = false → unitServesOrHeld s = true → carryOk s x = true → volatileOk s.vq.active (some x) = true →
            fitOk s x ((memberNumber s.fus x).getD (me s)) = true → Answers i s fun t => t.vq.epochState = 1 ∧ t.vq.shadow = some x ∧ otherBank t.vq = some x ∧
              t.vq.active = s.vq.active ∧ t.vq.switchDue = some (now s + 50000000)))) ∧
      ((dist = true ∨ (mode = 1 ∧ 1 < n)) → 0 < len → len % 8 = 0 → ∀ u ∈ namedUnits s.vq.active m, u ≠ me s → (outPort s u).isSome = true →
        Answers i s fun t => t.vq.busy = true ∧ t.vq.phase = 2 ∧ (∃ d, t.vq.dist = some d ∧ d.deadline = now s + 5000000000 ∧ u ∈ d.asked ∧ d.mode = mode) ∧
          sentTo t u (.imagePart 0 len mode (mread s.vq.buf 0 (min len 1024)))))) ∧
  (∀ (s : State) (image : List Byte) (dist : Bool), mbxDown s = false →
    (s.vq.busy = true → Answers (.redfishImageAction image 0 dist) s fun t => t.vq.refused = true ∧ .redfish 15 [] ∈ t.out) ∧
    (∀ v m, s.vq.busy = false → dist = false → image.length ≤ 2 ^ 24 → ownVerdict image 0 s = (v, m) → (v.code = 0 → m.isSome = true) → Answers (.redfishImageAction image 0 dist) s fun t =>
      t.vq.code = v.code ∧ t.vq.busy = false ∧ t.vq.active = s.vq.active)) ∧
  (∀ (s : State) (d : Dist), s.vq.dist = some d → (now s < d.deadline → exec .distributionTimeout s = .next s) ∧
    (∀ u, d.deadline ≤ now s → d.asked = [u] → d.verdicts = [(me s, 0)] → me s ≠ u → Answers .distributionTimeout s fun t =>
      t.vq.code = 10 ∧ t.vq.detailUnit = u ∧ t.vq.busy = false ∧ t.vq.dist = none ∧ noted t 0x0201 0 0 0)) ∧
  (∀ (s : State), s.vq.dist = none → s.vq.rx.isSome = true → s.vq.rxSince + 5000000000 ≤ now s → Answers .distributionTimeout s fun t =>
    t.vq.rx = none ∧ t.vq.busy = false) ∧
  (∀ (s : State) (src offset total mode : Nat) (bytes : List Byte), unitServesOrHeld s = true → epochSrcOk s src = true → mode ≤ 2 → total ≤ 2 ^ 24 →
    8 ≤ bytes.length → bytes.length ≤ 1024 → offset + bytes.length ≤ total → (outPort s src).isSome = true →
    (s.vq.busy = true → s.vq.rx ≠ some (src, total, mode) → Answers (.imagePart src offset total mode bytes) s fun t => t.vq.refused = true ∧
      sentTo t src (.imageVerdict 15) ∧ t.vq.rx = s.vq.rx) ∧
    (s.vq.busy = false → s.vq.rx = none →
      (bytes.length < total → (offset ≠ 0 ∨ 1024 < total) → Answers (.imagePart src offset total mode bytes) s fun t => t.vq.busy = true ∧ t.vq.rx = some (src, total, mode) ∧
        t.vq.rxSince = now s) ∧
      (∀ v, bytes.length = total → (ownVerdict bytes mode s).1 = v → Answers (.imagePart src offset total mode bytes) s fun t => t.vq.busy = false ∧ t.vq.rx = none ∧
        t.vq.code = v.code ∧ sentTo t src (.imageVerdict v.code)))) ∧
  (∀ (s : State) (src code : Nat), unitServesOrHeld s = true → epochSrcOk s src = true → code ≤ 15 →
    (∀ d, s.vq.dist = some d → d.asked = [src] → d.verdicts = [(me s, 0)] → src ≠ me s → code ≠ 0 → Answers (.imageVerdict src code) s fun t =>
      t.vq.code = code ∧ t.vq.detailUnit = src ∧ t.vq.busy = false ∧ t.vq.dist = none ∧ noted t 0x0201 0 0 0) ∧
    (∀ m, s.vq.dist = none → s.vq.staged = some (src, 2, m) → s.vq.epochState = 0 → code = 0 → s.vq.active.isSome = true → Answers (.imageVerdict src code) s fun t =>
      otherBank t.vq = some m ∧ t.vq.nextMarked = true ∧ t.vq.staged = none))

/-- A host link trains, falls and changes rate; IDE streams open and fail; a late request is answered at 9 ms; a reset clears
its LDs (R99, R100, R101, R102, R108, R113, R114, R115, R119, R121, R122, R124). A link that exists and whose stream is served,
with VI7 on, trains when its partner is wide enough, speaks 256 B flits and CXL.mem and is equalised: it is UP at the slowest of
the rates, and at 64 GT/s only where VI7 can hold that rate and the links are not lowered, LD 0, or behind a switch every LD, is
present, and the Back-Invalidates that waited go out; else it has FAILED with the cause and event 0x0501. A link lost is DOWN,
counted, without IDE, and its reads are discarded. Lowering takes every UP 64 GT/s link to 32 GT/s, and the reverse, where VI7
can hold 64 GT/s, takes those back with VI7 at 0.66 V at least; where it cannot, nothing changes. The FM-owned LD answers behind
a switch only. IDE keys are taken in a secured session only; a check that fails ends its stream with event 0x0503. A deferrable
write that no queue takes is unsupported. 9 ms after its stamp, not before, a request is answered with poison or completion. A
reset of a present LD empties its extents, decoders, policy and reads. -/
def Obligations.HostLinksAndResets : Prop :=
  (∀ (s : State) (l : Nat) (p : LinkPartner),
    let served := linkExists s l = true ∧ linkServed s l = true ∧ s.uni.st ≠ .off ∧ s.uni.st ≠ .standby ∧
      (tget ({} : Isl) s.pwr.isl 7).on = true
    let fast := max p.rate (portMaxRate s.vq.active (me s))
    let cause := if p.width < 4 then 1 else if p.flit256 = false then 2 else if p.cxl = false then 3 else if p.equalised = false ∨ 2 < p.rate then 4 else 0
    (¬ served → exec (.linkUp l p) s = .next s) ∧
    (served → cause ≠ 0 → Answers (.linkUp l p) s fun t => (linkOf t.hst l).st = 4 ∧ (linkOf t.hst l).failCause = cause ∧ noted t 0x0501 0 3 l) ∧
    (served → cause = 0 → Answers (.linkUp l p) s fun t => (linkOf t.hst l).st = 2 ∧ (linkOf t.hst l).failCause = 0 ∧ (linkOf t.hst l).waiting = [] ∧
      (linkOf t.hst l).rate = (if 80 ≤ islandMax s 7 ∧ s.pwr.linksLow = false then fast else max fast 1) ∧
      ((linkOf t.hst l).rate = 0 → 660 ≤ (tget ({} : Isl) t.pwr.isl 7).vset) ∧
      (linkOf t.hst l).switched = p.switched ∧ (linkOf t.hst l).ideMem = false ∧ (linkOf t.hst l).insecure = false ∧
      (∀ i < 16, (ldOf t.hst (16 * l + i)).present = (p.switched || i == 0)) ∧ ∀ w ∈ (linkOf s.hst l).waiting, .bisnp w.1 w.2.1 w.2.2 ∈ t.out)) ∧
  (∀ (s : State) (l : Nat), let k := linkOf s.hst l
    (k.st ≠ 2 → k.st ≠ 5 → exec (.linkDown l) s = .next s) ∧
    ((k.st = 2 ∨ k.st = 5) → Answers (.linkDown l) s fun t => (linkOf t.hst l).st = 3 ∧ (linkOf t.hst l).downs = min (k.downs + 1) 65535 ∧
      (linkOf t.hst l).ideMem = false ∧ (linkOf t.hst l).ideIo = false ∧ noted t 0x0501 0 3 l ∧
      (∀ r ∈ t.hst.reqs, r.ld / 16 = l → r.origin = none → r.isWrite = true ∧ r.answered = true)) ∧
    (∀ i < 16, Answers (.linkRateLowering true) s fun t => linkOf t.hst i =
      (if (linkOf s.hst i).st = 2 ∧ (linkOf s.hst i).rate = 0 then { linkOf s.hst i with rate := 1, lowered := true } else linkOf s.hst i)) ∧
    (islandMax s 7 < 80 → exec (.linkRateLowering false) s = .next s) ∧
    (∀ i < 16, 80 ≤ islandMax s 7 → Answers (.linkRateLowering false) s fun t => 660 ≤ (tget ({} : Isl) t.pwr.isl 7).vset ∧ linkOf t.hst i =
      (if (linkOf s.hst i).st = 2 ∧ (linkOf s.hst i).lowered = true then { linkOf s.hst i with rate := 0, lowered := false } else linkOf s.hst i))) ∧
  (∀ (s : State) (l : Nat), let fm := (linkOf s.hst l).st = 2 ∧ (linkOf s.hst l).switched = true
    (¬ fm → exec (.getLdInfo l) s = .next s ∧ exec (.getLdAllocations l) s = .next s ∧ exec (.setLdAllocations l) s = .next s) ∧
    (fm → (Answers (.getLdInfo l) s fun t => ∃ x, t = emit (.fmReply l 0 (16 :: x)) s) ∧
      exec (.getLdAllocations l) s = .next (emit (.fmReply l 0 ((List.range 16).map fun i => if (ldTenant s (16 * l + i)).isSome then 1 else 0)) s) ∧
      exec (.setLdAllocations l) s = .next (emit (.fmReply l 3 []) s))) ∧
  (∀ (s : State) (ld code : Nat) (msg : List Byte), let k := linkOf s.hst (if 256 ≤ ld then ld - 256 else ld / 16)
    (k.st ≠ 2 → exec (.spdmRequest ld code msg) s = .next s) ∧
    (k.st = 2 → Answers (.spdmRequest ld code msg) s fun t => (∃ b, t.out = .doeReply ld code b :: s.out ∧ (code = 0xE0 → b = measurements s)) ∧
      (code = 0xEC → (ldOf t.hst ld).spdm = false) ∧ (code ≠ 0xE5 → code ≠ 0xEC → t.hst = s.hst))) ∧
  (∀ (s : State) (l : Nat) (a b skid : Bool), let k := linkOf s.hst l
    let ok := k.st = 2 ∧ (ldOf s.hst (if k.switched then 256 + l else 16 * l)).spdm = true
    (¬ ok → exec (.ideKeyProgramming l a b skid) s = .next s) ∧
    (ok → Answers (.ideKeyProgramming l a b skid) s fun t => linkOf t.hst l =
      { k with ideMem := k.ideMem || a, ideIo := k.ideIo || b, skid := skid, insecure := k.insecure && !(a && b) }) ∧
    (Answers (.ideCheckFail l a) s fun t => (linkOf t.hst l).insecure = true ∧ noted t 0x0503 0 3 l ∧
      (if a then (linkOf t.hst l).ideMem = false ∧ (linkOf t.hst l).ideIo = k.ideIo else (linkOf t.hst l).ideIo = false ∧ (linkOf t.hst l).ideMem = k.ideMem))) ∧
  (∀ (s : State) (ld off size : Nat), (dmwrTaken s ld off size = true → exec (.deferrableMemoryWrite ld off size) s = .next s) ∧
    (dmwrTaken s ld off size = false → exec (.deferrableMemoryWrite ld off size) s = .next (emit (.dmwrUnsupported ld) s))) ∧
  (∀ (s : State) (r : MemReq), s.hst.reqs = [r] → r.origin = none → r.answered = false →
    (now s < r.stamp + 9000000 → exec (.responseWatchdog r.id) s = .next s) ∧
    (r.stamp + 9000000 ≤ now s → let n := (ldTenant s r.ld).getD 0
      Answers (.responseWatchdog r.id) s fun t => (ldOf t.hst r.ld).wd = min ((ldOf s.hst r.ld).wd + 1) 65535 ∧
        (if s.uni.st = .faulted then noted t 0x0010 n 1 r.ld ∧ t.hst.reqs = [] else noted t 0x0504 n 1 r.ld ∧
          t.hst.reqs = (if r.isWrite then [{ r with answered := true }] else [])) ∧
        (if r.isWrite then .memDone r.id r.ld ∈ t.out else ∃ d, .memData r.id r.ld d true 0 ∈ t.out))) ∧
  (∀ (s : State) (ld : Nat), let blank (t : State) (x : Nat) : Prop := (ldOf t.hst x).accepted = [] ∧ (ldOf t.hst x).hdm = [] ∧
      (ldOf t.hst x).evPolicy = [1, 1, 1, 1, 1] ∧ (ldOf t.hst x).inReset = false ∧ (boxOf t.mbx x).mask = doorbellMask (liveView s) (me s) x ∧
      ∀ r ∈ t.hst.reqs, r.ld = x → r.origin = none → r.isWrite = true ∧ r.answered = true
    ((ldOf s.hst ld).present = false → exec (.functionLevelReset ld) s = .next s) ∧
    ((ldOf s.hst ld).present = true → Answers (.functionLevelReset ld) s fun t => blank t ld) ∧
    (∀ l, Answers (.hotReset l) s fun t => (linkOf t.hst l).ideMem = false ∧ (linkOf t.hst l).ideIo = false ∧ (linkOf t.hst l).insecure = false ∧
      ∀ i < 16, (ldOf t.hst (16 * l + i)).spdm = false ∧ ((ldOf s.hst (16 * l + i)).present = true → blank t (16 * l + i)))) ∧
  (∀ (s : State) (ld idx base size ways gran skip : Nat) (bi : Bool),
    ((2 ≤ idx ∨ mailboxUp s ld = false) → exec (.hdmDecoderCommit ld idx base size ways gran skip bi) s = .next s) ∧
    (idx < 2 → mailboxUp s ld = true → Answers (.hdmDecoderCommit ld idx base size ways gran skip bi) s fun t =>
      let d := hdmDpa (ldOf s.hst ld) idx skip
      let ok := ways ∈ [1, 2, 4, 8, 16] ∧ gran ∈ [256, 512, 1024, 2048, 4096, 8192, 16384] ∧
        (size / ways = 0 ∨ d / 2 ^ 50 = (d + size / ways - 1) / 2 ^ 50)
      let h := tget ({} : Hdm) (ldOf t.hst ld).hdm idx
      h.base = base ∧ h.size = size ∧ h.ways = ways ∧ h.gran = gran ∧ h.skip = skip ∧ h.bi = bi ∧ (ok → h.committed = true ∧ h.error = false) ∧
      (¬ ok → h.committed = false ∧ h.error = true)))

/-- The primary mailbox of an LD answers its commands with the standard's codes; event records merge for 1 s and are cleared by
index (R104, R105, R106, R111, R112, R418, R422, R425, R426, Table 19.5, Table 19.7). While an LD's mailbox is not up its
commands do nothing; else each is answered, with the codes of log entry 26. An offered extent accepted becomes the LD's, one
refused is no longer offered, and any other is Invalid Input; an extent released, or not released within 60 s, is the LD's no
more. Queries report the configuration, versions, time, policy and windows. A handle that is not held is an Invalid Handle and
clears nothing. Poison is injected and cleared only while POISON_INJECT is set and inside an accepted extent: an accepted line
is then poisoned, or holds the data. A record is written 1 s after its time, not before. RESUME of a unit held by faults whose
causes are gone makes it SERVING; else it completes with STATE 1 or 2. FLT_LD_TAIL moves forward to HEAD at most; any other
write is ignored with event 0x000F. -/
def Obligations.PrimaryMailboxAndEvents : Prop :=
  (∀ (s : State) (ld x log off len dpa op : Nat) (a b : Bool) (hs : List Nat) (bytes : List Byte) (tm : Ns), mailboxUp s ld = false →
    ∀ i ∈ [Instr.addDynamicCapacityResponse ld x a b, .releaseDynamicCapacity ld x, .identifyMemoryDevice ld, .getSupportedLogs ld, .getLog ld a off len,
      .getEventRecords ld log, .clearEventRecords ld log a hs, .getEventInterruptPolicy ld, .setEventInterruptPolicy ld hs, .getPoisonList ld dpa len,
      .injectPoison ld dpa, .clearPoison ld dpa bytes, .getDynamicCapacityConfiguration ld, .getDynamicCapacityExtentList ld, .getTimestamp ld,
      .setTimestamp ld tm, .getFwInfo ld, .unsupportedMailboxCommand ld op], exec i s = .next s) ∧
  (∀ (s : State) (ld : Nat), mailboxUp s ld = true →
    let l := ldOf s.hst ld
    let tells (i : Instr) (code : Nat) (p : List Nat) : Prop := exec i s = .next (emit (.mailboxReply ld code p) s)
    (∀ x rd, (x, rd) ∉ l.offered → (x, rd) ∉ l.accepted → ∀ y, tells (.addDynamicCapacityResponse ld x rd y) 2 []) ∧
    (∀ x rd, (x, rd) ∈ l.offered → (Answers (.addDynamicCapacityResponse ld x rd true) s fun t => t.out = .mailboxReply ld 0 [] :: s.out ∧
        (x, rd) ∈ (ldOf t.hst ld).accepted ∧ (x, rd) ∉ (ldOf t.hst ld).offered) ∧
      Answers (.addDynamicCapacityResponse ld x rd false) s fun t => (ldOf t.hst ld).accepted = l.accepted ∧ (x, rd) ∉ (ldOf t.hst ld).offered) ∧
    (∀ x, (∀ rd, (x, rd) ∉ l.accepted) → tells (.releaseDynamicCapacity ld x) 2 []) ∧
    (∀ x rd, (x, rd) ∈ l.accepted → (extSt s x).st ≠ 6 → Answers (.releaseDynamicCapacity ld x) s fun t => .mailboxReply ld 0 [] ∈ t.out ∧
      (ldOf t.hst ld).accepted = l.accepted.filter (fun y => y.1 != x)) ∧
    (Answers (.identifyMemoryDevice ld) s fun t => ∃ p, t = emit (.mailboxReply ld 0 (0 :: 0 :: p)) s) ∧
    (Answers (.getSupportedLogs ld) s fun t => ∃ p, t = emit (.mailboxReply ld 0 p) s) ∧
    (∀ off len, (Answers (.getLog ld false off len) s fun t => ∃ p, t = emit (.mailboxReply ld 0 p) s) ∧
      tells (.getLog ld true off len) 0 (slice (((windowRecs (tget {} s.flt.lds ld)).flatMap fun r => eventBytes r.2).map (·.toNat)) off len)) ∧
    tells (.getEventInterruptPolicy ld) 0 l.evPolicy ∧
    (∀ m, m.length = 5 → (∀ v ∈ m, v < 64) → Answers (.setEventInterruptPolicy ld m) s fun t => (ldOf t.hst ld).evPolicy = m ∧ t.out = .mailboxReply ld 0 [] :: s.out) ∧
    (Answers (.getHealthInfo ld) s fun t => ∃ p q, t.out = .mailboxReply ld 0 (p :: q) :: s.out ∧ p ≤ 100 ∧
      ((∀ c ∈ (List.range 12).map (· + 1), classLevel s c = 0) → p < 50) ∧ ((∃ c ∈ (List.range 12).map (· + 1), classLevel s c = 2) → 90 ≤ p)) ∧
    tells (.getDynamicCapacityConfiguration ld) 0 [2, 2 ^ 30, 0, 2 ^ 50, 2 ^ 50, 2 ^ 50] ∧
    (l.accepted = [] → Answers (.getDynamicCapacityExtentList ld) s fun t => .mailboxReply ld 0 [] ∈ t.out) ∧
    tells (.getTimestamp ld) 0 [s.mon.timebase] ∧ (∀ tm, tells (.setTimestamp ld tm) 0 []) ∧
    tells (.getFwInfo ld) 0 [s.uni.fwMajor, s.uni.fwMinor, s.uni.fwPatch, s.uni.lib.toNat] ∧ (∀ op, tells (.unsupportedMailboxCommand ld op) 3 []) ∧
    (∀ dpa len, Answers (.getPoisonList ld dpa len) s fun t => ∃ p, t = emit (.mailboxReply ld 0 p) s ∧ (∀ y ∈ p, dpa ≤ y ∧ y < dpa + len) ∧ (l.accepted = [] → p = [])) ∧
    (∀ log, log < 4 → tells (.getEventRecords ld log) 0 ((logRecs (tget {} s.flt.lds ld) log).flatMap fun r => r.1 :: (eventBytes r.2).map (·.toNat))) ∧
    (∀ log hs, log < 4 → let idx := (logRecs (tget {} s.flt.lds ld) log).map (·.1)
      ((∃ h ∈ hs, h ∉ idx) → tells (.clearEventRecords ld log false hs) 0x0E []) ∧
      ((∀ h ∈ hs, h ∈ idx) → Answers (.clearEventRecords ld log false hs) s fun t => .mailboxReply ld 0 [] ∈ t.out ∧
        ∀ q ∈ (tget ({} : LdLog) t.flt.lds ld).recs, q ∈ (tget ({} : LdLog) s.flt.lds ld).recs ∧ ∀ h ∈ hs, h % 131072 ≠ q.1)) ∧
    (∀ dpa bytes, (s.hst.poisonInject = false → tells (.injectPoison ld dpa) 3 [] ∧ tells (.clearPoison ld dpa bytes) 3 []) ∧
      (s.hst.poisonInject = true → acceptedAt s ld dpa = none → tells (.injectPoison ld dpa) 0x0F [] ∧ tells (.clearPoison ld dpa bytes) 0x0F []) ∧
      (∀ e at_, s.hst.poisonInject = true → dpa % 64 = 0 → takenAt s ld dpa (now s) true = some (e, at_) → kmFull s e = false →
        frozenStrips s at_ [dpa % 2 ^ 50 / 512 % 8] = false → blockSpot s e.tenant (dpa % 2 ^ 50 / 4096) = some (e, at_) →
        (∀ y, stgFind s.cdc e.tenant (dpa % 2 ^ 50 / 4096) = some y → y.data.length = 4096) →
        let line (t : State) (P : StgEntry → Prop) : Prop := .mailboxReply ld 0 [] ∈ t.out ∧ ∃ y, stgFind t.cdc e.tenant (dpa % 2 ^ 50 / 4096) = some y ∧ P y
        let i := dpa % 2 ^ 50 / 64 % 64
        (Answers (.injectPoison ld dpa) s fun t => line t fun y => y.poison.getLsbD i = true) ∧
        (Answers (.clearPoison ld dpa bytes) s fun t => line t fun y => y.poison.getLsbD i = false ∧ slice y.data (64 * i) 64 = padTo 64 0 (bytes.take 64))))) ∧
  (∀ (s : State) (ld x : Nat), ((ldOf s.hst ld).releasing.find? (·.1 == x) = none → exec (.releaseTimeout ld x) s = .next s) ∧
    (∀ r, (ldOf s.hst ld).releasing.find? (·.1 == x) = some r → (now s < r.2.2 → exec (.releaseTimeout ld x) s = .next s) ∧
      (r.2.2 ≤ now s → (extSt s x).st ≠ 6 → Answers (.releaseTimeout ld x) s fun t => (∀ y ∈ (ldOf t.hst ld).accepted, y.1 ≠ x) ∧
        (ldOf t.hst ld).releasing.find? (·.1 == x) = none))) ∧
  (∀ (s : State) (code sk si tn : Nat), let mine (r : EventRec) : Bool := r.code == code && r.scopeKind == sk && r.scopeIdx == si && r.tenant == tn
    (s.flt.opened.find? mine = none → exec (.eventMergeWindow code sk si tn) s = .next s) ∧
    (∀ r, s.flt.opened.find? mine = some r → (now s < r.time + 1000000000 → exec (.eventMergeWindow code sk si tn) s = .next s) ∧
      (r.time + 1000000000 ≤ now s → Answers (.eventMergeWindow code sk si tn) s fun t => t.flt.opened = s.flt.opened.filter (fun x => !mine x) ∧
        t.flt.seq = s.flt.seq + 1 ∧ t.flt.head = (s.flt.head + 1) % 2 ^ 32 ∧
        (tget r t.flt.log (s.flt.head % 65536)).code = code ∧ (tget r t.flt.log (s.flt.head % 65536)).count = r.count))) ∧
  (∀ (s : State), ((s.uni.st ≠ .held ∨ s.flt.byFault = false) → Answers .faultResume s fun t => t.flt.status = 1 ∧ t.uni = s.uni) ∧
    (s.uni.st = .held → s.flt.byFault = true → s.flt.causes.any (causePresent s) = true → Answers .faultResume s fun t => t.flt.status = 2 ∧ t.uni = s.uni) ∧
    (s.uni.st = .held → s.flt.byFault = true → s.flt.causes.any (causePresent s) = false → s.uni.waiting = none → s.drt.retire = none → nothingWaits s = true →
      Answers .faultResume s fun t => t.flt.status = 0 ∧ t.uni.st = .serving ∧ t.flt.causes = [] ∧ t.flt.byFault = false)) ∧
  (∀ (s : State) (ld : Nat) (v : BitVec 32), let l := tget ({} : LdLog) s.flt.lds ld
    let n := (v.toNat + 2 ^ 32 - l.tail) % 2 ^ 32
    let room := (l.head + 2 ^ 32 - l.tail) % 2 ^ 32
    (barTaken s ld = false → exec (.fltLdTailWrite ld v) s = .next s) ∧
    (barTaken s ld = true → room < n → s.flt.opened = [] → Answers (.fltLdTailWrite ld v) s fun t => noted t 0x000F 0 1 ld ∧ tget ({} : LdLog) t.flt.lds ld = l) ∧
    (barTaken s ld = true → n ≤ room → Answers (.fltLdTailWrite ld v) s fun t => (tget ({} : LdLog) t.flt.lds ld).tail = v.toNat ∧
      (tget ({} : LdLog) t.flt.lds ld).head = l.head ∧ (n = 0 → ∀ q ∈ l.recs, q ∈ (tget ({} : LdLog) t.flt.lds ld).recs)))

/-- Three-copy fuse fields read as the majority of their copies, and the anti-rollback counter by its highest blown bit (R39).
Each bit of the lifecycle code, of the slot revocations and of the debug policy reads as the majority of its three copies in
words 0 and 3. The anti-rollback counter of words 1 and 2 reads one plus the index of its highest blown bit, or 0 when none is
blown, and never more than 128; what is below the highest blown bit does not matter. -/
def Obligations.FuseFieldsRead : Prop :=
  ∀ f : Fus,
    let b (w i : Nat) : Prop := (fuseBits f w).getLsbD i = true
    let two (w i j k : Nat) : Prop := (b w i ∧ b w j) ∨ (b w i ∧ b w k) ∨ (b w j ∧ b w k)
    let c (i : Nat) : Prop := two 0 i (3 + i) (6 + i)
    let blown (g : Fus) (i : Nat) : Prop := (fuseBits g (1 + i / 64)).getLsbD (i % 64) = true
    let highest (g : Fus) (i : Nat) : Prop := i < 128 ∧ blown g i ∧ ∀ j, i < j → j < 128 → ¬ blown g j
    ((3 ≤ lifecycle f ↔ c 2) ∧ (2 ≤ lifecycle f ↔ c 2 ∨ c 1) ∧ (1 ≤ lifecycle f ↔ c 2 ∨ c 1 ∨ c 0) ∧ lifecycle f ≤ 3) ∧
    (slotsRevoked f < 16 ∧ ∀ k < 4, (bit (slotsRevoked f) k = true ↔ two 0 (16 + k) (20 + k) (24 + k))) ∧
    (debugPolicy f < 65536 ∧ ∀ k < 16, (bit (debugPolicy f) k = true ↔ two 3 k (16 + k) (32 + k))) ∧
    (∀ i, highest f i → arb f = i + 1) ∧ ((∀ i < 128, ¬ blown f i) → arb f = 0) ∧ arb f ≤ 128 ∧
    (∀ (g : Fus) (i : Nat), highest f i → highest g i → arb f = arb g)

/-- PWR_CMD DORMOUSE of a draining unit is refused with the first reason of Table 16.5 that holds (R376). Of the five reasons of
Table 16.5 (not drained; home of a tenant whose lease state is 1 or 2; serving a granule of a tenant whose lease is valid; a
Hoard-backed extent of such a tenant whose stripe code would be left with fewer than k + m HOARD units SERVING; an epoch
prepared or an update not settled) the first that holds is the value of PWR_STATE.REFUSE after the command, whose status is
REFUSED, and nothing else changes. With none of them it is not refused. -/
def Obligations.DormouseRefusals : Prop :=
  ∀ s : State, s.uni.st = .draining →
    let valid (e : ExtRec) : Prop := e ∈ extRecs (extView s) ∧ now s < (leaseOf s e.tenant).expiry
    let fails (k : Nat) : Prop :=
      (k = 1 ∧ s.pwr.drained = false) ∨
      (k = 2 ∧ ∃ t < 256, hasTenant s.vq.active t = true ∧ isHome s t = true ∧ ((leaseOf s t).st = 1 ∨ (leaseOf s t).st = 2)) ∨
      (k = 3 ∧ ∃ e, valid e ∧ servesExt s e = true) ∨
      (k = 4 ∧ ∃ e kd m, valid e ∧ e.kind ≠ 3 ∧ stripeKM s.vq.active e.code = some (kd, m) ∧
        ((hoardUnits s.vq.active).filter fun u => u != me s && peerServing s u).length < kd + m) ∨
      (k = 5 ∧ s.vq.epochState ≠ 0)
    (∀ k, fails k → (∀ j < k, ¬ fails j) → exec .dormouse s = .next { s with pwr := { s.pwr with refuse := k, action := 3, status := 2, busy := false } }) ∧
    ((∀ k, ¬ fails k) → Answers .dormouse s fun t => t.pwr.status = 0 ∧ t.pwr.refuse = 0 ∧ t.uni.st = .dormouse)
end

