-- ==== Sys2Proof/Laws/State.lean ====
section
/-! SUPPORT. Each named update of the state, field by field: what it writes, and that it leaves the others. -/

namespace Sys2Proof.Laws

open Sys2Proof.Machine

@[simp] theorem emit_uni (o : Out) (s : State) : (emit o s).uni = s.uni := rfl
@[simp] theorem emit_fus (o : Out) (s : State) : (emit o s).fus = s.fus := rfl
@[simp] theorem emit_vq (o : Out) (s : State) : (emit o s).vq = s.vq := rfl
@[simp] theorem emit_mon (o : Out) (s : State) : (emit o s).mon = s.mon := rfl
@[simp] theorem emit_pwr (o : Out) (s : State) : (emit o s).pwr = s.pwr := rfl
@[simp] theorem emit_hst (o : Out) (s : State) : (emit o s).hst = s.hst := rfl
@[simp] theorem emit_mbx (o : Out) (s : State) : (emit o s).mbx = s.mbx := rfl
@[simp] theorem emit_ext (o : Out) (s : State) : (emit o s).ext = s.ext := rfl
@[simp] theorem emit_cdc (o : Out) (s : State) : (emit o s).cdc = s.cdc := rfl
@[simp] theorem emit_drt (o : Out) (s : State) : (emit o s).drt = s.drt := rfl
@[simp] theorem emit_hrd (o : Out) (s : State) : (emit o s).hrd = s.hrd := rfl
@[simp] theorem emit_wrn (o : Out) (s : State) : (emit o s).wrn = s.wrn := rfl
@[simp] theorem emit_eng (o : Out) (s : State) : (emit o s).eng = s.eng := rfl
@[simp] theorem emit_opq (o : Out) (s : State) : (emit o s).opq = s.opq := rfl
@[simp] theorem emit_lif (o : Out) (s : State) : (emit o s).lif = s.lif := rfl
@[simp] theorem emit_pnl (o : Out) (s : State) : (emit o s).pnl = s.pnl := rfl
@[simp] theorem emit_flt (o : Out) (s : State) : (emit o s).flt = s.flt := rfl
@[simp] theorem emit_out (o : Out) (s : State) : (emit o s).out = o :: s.out := rfl
@[simp] theorem emit_free (o : Out) (s : State) : (emit o s).free = s.free := rfl
@[simp] theorem emit_pending (o : Out) (s : State) : (emit o s).pending = s.pending := rfl

@[simp] theorem draw_uni (s : State) : (draw s).uni = s.uni := rfl
@[simp] theorem draw_fus (s : State) : (draw s).fus = s.fus := rfl
@[simp] theorem draw_vq (s : State) : (draw s).vq = s.vq := rfl
@[simp] theorem draw_mon (s : State) : (draw s).mon = s.mon := rfl
@[simp] theorem draw_pwr (s : State) : (draw s).pwr = s.pwr := rfl
@[simp] theorem draw_hst (s : State) : (draw s).hst = s.hst := rfl
@[simp] theorem draw_mbx (s : State) : (draw s).mbx = s.mbx := rfl
@[simp] theorem draw_ext (s : State) : (draw s).ext = s.ext := rfl
@[simp] theorem draw_cdc (s : State) : (draw s).cdc = s.cdc := rfl
@[simp] theorem draw_drt (s : State) : (draw s).drt = s.drt := rfl
@[simp] theorem draw_hrd (s : State) : (draw s).hrd = s.hrd := rfl
@[simp] theorem draw_wrn (s : State) : (draw s).wrn = s.wrn := rfl
@[simp] theorem draw_eng (s : State) : (draw s).eng = s.eng := rfl
@[simp] theorem draw_opq (s : State) : (draw s).opq = s.opq := rfl
@[simp] theorem draw_lif (s : State) : (draw s).lif = s.lif := rfl
@[simp] theorem draw_pnl (s : State) : (draw s).pnl = s.pnl := rfl
@[simp] theorem draw_flt (s : State) : (draw s).flt = s.flt := rfl
@[simp] theorem draw_out (s : State) : (draw s).out = s.out := rfl
@[simp] theorem draw_free (s : State) : (draw s).free = s.free + 1 := rfl
@[simp] theorem draw_pending (s : State) : (draw s).pending = s.pending := rfl

@[simp] theorem onHst_uni (f : Hst → Hst) (s : State) : (onHst f s).uni = s.uni := rfl
@[simp] theorem onHst_fus (f : Hst → Hst) (s : State) : (onHst f s).fus = s.fus := rfl
@[simp] theorem onHst_vq (f : Hst → Hst) (s : State) : (onHst f s).vq = s.vq := rfl
@[simp] theorem onHst_mon (f : Hst → Hst) (s : State) : (onHst f s).mon = s.mon := rfl
@[simp] theorem onHst_pwr (f : Hst → Hst) (s : State) : (onHst f s).pwr = s.pwr := rfl
@[simp] theorem onHst_hst (f : Hst → Hst) (s : State) : (onHst f s).hst = f s.hst := rfl
@[simp] theorem onHst_mbx (f : Hst → Hst) (s : State) : (onHst f s).mbx = s.mbx := rfl
@[simp] theorem onHst_ext (f : Hst → Hst) (s : State) : (onHst f s).ext = s.ext := rfl
@[simp] theorem onHst_cdc (f : Hst → Hst) (s : State) : (onHst f s).cdc = s.cdc := rfl
@[simp] theorem onHst_drt (f : Hst → Hst) (s : State) : (onHst f s).drt = s.drt := rfl
@[simp] theorem onHst_hrd (f : Hst → Hst) (s : State) : (onHst f s).hrd = s.hrd := rfl
@[simp] theorem onHst_wrn (f : Hst → Hst) (s : State) : (onHst f s).wrn = s.wrn := rfl
@[simp] theorem onHst_eng (f : Hst → Hst) (s : State) : (onHst f s).eng = s.eng := rfl
@[simp] theorem onHst_opq (f : Hst → Hst) (s : State) : (onHst f s).opq = s.opq := rfl
@[simp] theorem onHst_lif (f : Hst → Hst) (s : State) : (onHst f s).lif = s.lif := rfl
@[simp] theorem onHst_pnl (f : Hst → Hst) (s : State) : (onHst f s).pnl = s.pnl := rfl
@[simp] theorem onHst_flt (f : Hst → Hst) (s : State) : (onHst f s).flt = s.flt := rfl
@[simp] theorem onHst_out (f : Hst → Hst) (s : State) : (onHst f s).out = s.out := rfl
@[simp] theorem onHst_free (f : Hst → Hst) (s : State) : (onHst f s).free = s.free := rfl
@[simp] theorem onHst_pending (f : Hst → Hst) (s : State) : (onHst f s).pending = s.pending := rfl

@[simp] theorem onMbx_uni (f : Mbx → Mbx) (s : State) : (onMbx f s).uni = s.uni := rfl
@[simp] theorem onMbx_fus (f : Mbx → Mbx) (s : State) : (onMbx f s).fus = s.fus := rfl
@[simp] theorem onMbx_vq (f : Mbx → Mbx) (s : State) : (onMbx f s).vq = s.vq := rfl
@[simp] theorem onMbx_mon (f : Mbx → Mbx) (s : State) : (onMbx f s).mon = s.mon := rfl
@[simp] theorem onMbx_pwr (f : Mbx → Mbx) (s : State) : (onMbx f s).pwr = s.pwr := rfl
@[simp] theorem onMbx_hst (f : Mbx → Mbx) (s : State) : (onMbx f s).hst = s.hst := rfl
@[simp] theorem onMbx_mbx (f : Mbx → Mbx) (s : State) : (onMbx f s).mbx = f s.mbx := rfl
@[simp] theorem onMbx_ext (f : Mbx → Mbx) (s : State) : (onMbx f s).ext = s.ext := rfl
@[simp] theorem onMbx_cdc (f : Mbx → Mbx) (s : State) : (onMbx f s).cdc = s.cdc := rfl
@[simp] theorem onMbx_drt (f : Mbx → Mbx) (s : State) : (onMbx f s).drt = s.drt := rfl
@[simp] theorem onMbx_hrd (f : Mbx → Mbx) (s : State) : (onMbx f s).hrd = s.hrd := rfl
@[simp] theorem onMbx_wrn (f : Mbx → Mbx) (s : State) : (onMbx f s).wrn = s.wrn := rfl
@[simp] theorem onMbx_eng (f : Mbx → Mbx) (s : State) : (onMbx f s).eng = s.eng := rfl
@[simp] theorem onMbx_opq (f : Mbx → Mbx) (s : State) : (onMbx f s).opq = s.opq := rfl
@[simp] theorem onMbx_lif (f : Mbx → Mbx) (s : State) : (onMbx f s).lif = s.lif := rfl
@[simp] theorem onMbx_pnl (f : Mbx → Mbx) (s : State) : (onMbx f s).pnl = s.pnl := rfl
@[simp] theorem onMbx_flt (f : Mbx → Mbx) (s : State) : (onMbx f s).flt = s.flt := rfl
@[simp] theorem onMbx_out (f : Mbx → Mbx) (s : State) : (onMbx f s).out = s.out := rfl
@[simp] theorem onMbx_free (f : Mbx → Mbx) (s : State) : (onMbx f s).free = s.free := rfl
@[simp] theorem onMbx_pending (f : Mbx → Mbx) (s : State) : (onMbx f s).pending = s.pending := rfl

@[simp] theorem onExt_uni (f : Ext → Ext) (s : State) : (onExt f s).uni = s.uni := rfl
@[simp] theorem onExt_fus (f : Ext → Ext) (s : State) : (onExt f s).fus = s.fus := rfl
@[simp] theorem onExt_vq (f : Ext → Ext) (s : State) : (onExt f s).vq = s.vq := rfl
@[simp] theorem onExt_mon (f : Ext → Ext) (s : State) : (onExt f s).mon = s.mon := rfl
@[simp] theorem onExt_pwr (f : Ext → Ext) (s : State) : (onExt f s).pwr = s.pwr := rfl
@[simp] theorem onExt_hst (f : Ext → Ext) (s : State) : (onExt f s).hst = s.hst := rfl
@[simp] theorem onExt_mbx (f : Ext → Ext) (s : State) : (onExt f s).mbx = s.mbx := rfl
@[simp] theorem onExt_ext (f : Ext → Ext) (s : State) : (onExt f s).ext = f s.ext := rfl
@[simp] theorem onExt_cdc (f : Ext → Ext) (s : State) : (onExt f s).cdc = s.cdc := rfl
@[simp] theorem onExt_drt (f : Ext → Ext) (s : State) : (onExt f s).drt = s.drt := rfl
@[simp] theorem onExt_hrd (f : Ext → Ext) (s : State) : (onExt f s).hrd = s.hrd := rfl
@[simp] theorem onExt_wrn (f : Ext → Ext) (s : State) : (onExt f s).wrn = s.wrn := rfl
@[simp] theorem onExt_eng (f : Ext → Ext) (s : State) : (onExt f s).eng = s.eng := rfl
@[simp] theorem onExt_opq (f : Ext → Ext) (s : State) : (onExt f s).opq = s.opq := rfl
@[simp] theorem onExt_lif (f : Ext → Ext) (s : State) : (onExt f s).lif = s.lif := rfl
@[simp] theorem onExt_pnl (f : Ext → Ext) (s : State) : (onExt f s).pnl = s.pnl := rfl
@[simp] theorem onExt_flt (f : Ext → Ext) (s : State) : (onExt f s).flt = s.flt := rfl
@[simp] theorem onExt_out (f : Ext → Ext) (s : State) : (onExt f s).out = s.out := rfl
@[simp] theorem onExt_free (f : Ext → Ext) (s : State) : (onExt f s).free = s.free := rfl
@[simp] theorem onExt_pending (f : Ext → Ext) (s : State) : (onExt f s).pending = s.pending := rfl

@[simp] theorem onDrt_uni (f : Drt → Drt) (s : State) : (onDrt f s).uni = s.uni := rfl
@[simp] theorem onDrt_fus (f : Drt → Drt) (s : State) : (onDrt f s).fus = s.fus := rfl
@[simp] theorem onDrt_vq (f : Drt → Drt) (s : State) : (onDrt f s).vq = s.vq := rfl
@[simp] theorem onDrt_mon (f : Drt → Drt) (s : State) : (onDrt f s).mon = s.mon := rfl
@[simp] theorem onDrt_pwr (f : Drt → Drt) (s : State) : (onDrt f s).pwr = s.pwr := rfl
@[simp] theorem onDrt_hst (f : Drt → Drt) (s : State) : (onDrt f s).hst = s.hst := rfl
@[simp] theorem onDrt_mbx (f : Drt → Drt) (s : State) : (onDrt f s).mbx = s.mbx := rfl
@[simp] theorem onDrt_ext (f : Drt → Drt) (s : State) : (onDrt f s).ext = s.ext := rfl
@[simp] theorem onDrt_cdc (f : Drt → Drt) (s : State) : (onDrt f s).cdc = s.cdc := rfl
@[simp] theorem onDrt_drt (f : Drt → Drt) (s : State) : (onDrt f s).drt = f s.drt := rfl
@[simp] theorem onDrt_hrd (f : Drt → Drt) (s : State) : (onDrt f s).hrd = s.hrd := rfl
@[simp] theorem onDrt_wrn (f : Drt → Drt) (s : State) : (onDrt f s).wrn = s.wrn := rfl
@[simp] theorem onDrt_eng (f : Drt → Drt) (s : State) : (onDrt f s).eng = s.eng := rfl
@[simp] theorem onDrt_opq (f : Drt → Drt) (s : State) : (onDrt f s).opq = s.opq := rfl
@[simp] theorem onDrt_lif (f : Drt → Drt) (s : State) : (onDrt f s).lif = s.lif := rfl
@[simp] theorem onDrt_pnl (f : Drt → Drt) (s : State) : (onDrt f s).pnl = s.pnl := rfl
@[simp] theorem onDrt_flt (f : Drt → Drt) (s : State) : (onDrt f s).flt = s.flt := rfl
@[simp] theorem onDrt_out (f : Drt → Drt) (s : State) : (onDrt f s).out = s.out := rfl
@[simp] theorem onDrt_free (f : Drt → Drt) (s : State) : (onDrt f s).free = s.free := rfl
@[simp] theorem onDrt_pending (f : Drt → Drt) (s : State) : (onDrt f s).pending = s.pending := rfl

@[simp] theorem onHrd_uni (f : Hrd → Hrd) (s : State) : (onHrd f s).uni = s.uni := rfl
@[simp] theorem onHrd_fus (f : Hrd → Hrd) (s : State) : (onHrd f s).fus = s.fus := rfl
@[simp] theorem onHrd_vq (f : Hrd → Hrd) (s : State) : (onHrd f s).vq = s.vq := rfl
@[simp] theorem onHrd_mon (f : Hrd → Hrd) (s : State) : (onHrd f s).mon = s.mon := rfl
@[simp] theorem onHrd_pwr (f : Hrd → Hrd) (s : State) : (onHrd f s).pwr = s.pwr := rfl
@[simp] theorem onHrd_hst (f : Hrd → Hrd) (s : State) : (onHrd f s).hst = s.hst := rfl
@[simp] theorem onHrd_mbx (f : Hrd → Hrd) (s : State) : (onHrd f s).mbx = s.mbx := rfl
@[simp] theorem onHrd_ext (f : Hrd → Hrd) (s : State) : (onHrd f s).ext = s.ext := rfl
@[simp] theorem onHrd_cdc (f : Hrd → Hrd) (s : State) : (onHrd f s).cdc = s.cdc := rfl
@[simp] theorem onHrd_drt (f : Hrd → Hrd) (s : State) : (onHrd f s).drt = s.drt := rfl
@[simp] theorem onHrd_hrd (f : Hrd → Hrd) (s : State) : (onHrd f s).hrd = f s.hrd := rfl
@[simp] theorem onHrd_wrn (f : Hrd → Hrd) (s : State) : (onHrd f s).wrn = s.wrn := rfl
@[simp] theorem onHrd_eng (f : Hrd → Hrd) (s : State) : (onHrd f s).eng = s.eng := rfl
@[simp] theorem onHrd_opq (f : Hrd → Hrd) (s : State) : (onHrd f s).opq = s.opq := rfl
@[simp] theorem onHrd_lif (f : Hrd → Hrd) (s : State) : (onHrd f s).lif = s.lif := rfl
@[simp] theorem onHrd_pnl (f : Hrd → Hrd) (s : State) : (onHrd f s).pnl = s.pnl := rfl
@[simp] theorem onHrd_flt (f : Hrd → Hrd) (s : State) : (onHrd f s).flt = s.flt := rfl
@[simp] theorem onHrd_out (f : Hrd → Hrd) (s : State) : (onHrd f s).out = s.out := rfl
@[simp] theorem onHrd_free (f : Hrd → Hrd) (s : State) : (onHrd f s).free = s.free := rfl
@[simp] theorem onHrd_pending (f : Hrd → Hrd) (s : State) : (onHrd f s).pending = s.pending := rfl

@[simp] theorem onWrn_uni (f : Wrn → Wrn) (s : State) : (onWrn f s).uni = s.uni := rfl
@[simp] theorem onWrn_fus (f : Wrn → Wrn) (s : State) : (onWrn f s).fus = s.fus := rfl
@[simp] theorem onWrn_vq (f : Wrn → Wrn) (s : State) : (onWrn f s).vq = s.vq := rfl
@[simp] theorem onWrn_mon (f : Wrn → Wrn) (s : State) : (onWrn f s).mon = s.mon := rfl
@[simp] theorem onWrn_pwr (f : Wrn → Wrn) (s : State) : (onWrn f s).pwr = s.pwr := rfl
@[simp] theorem onWrn_hst (f : Wrn → Wrn) (s : State) : (onWrn f s).hst = s.hst := rfl
@[simp] theorem onWrn_mbx (f : Wrn → Wrn) (s : State) : (onWrn f s).mbx = s.mbx := rfl
@[simp] theorem onWrn_ext (f : Wrn → Wrn) (s : State) : (onWrn f s).ext = s.ext := rfl
@[simp] theorem onWrn_cdc (f : Wrn → Wrn) (s : State) : (onWrn f s).cdc = s.cdc := rfl
@[simp] theorem onWrn_drt (f : Wrn → Wrn) (s : State) : (onWrn f s).drt = s.drt := rfl
@[simp] theorem onWrn_hrd (f : Wrn → Wrn) (s : State) : (onWrn f s).hrd = s.hrd := rfl
@[simp] theorem onWrn_wrn (f : Wrn → Wrn) (s : State) : (onWrn f s).wrn = f s.wrn := rfl
@[simp] theorem onWrn_eng (f : Wrn → Wrn) (s : State) : (onWrn f s).eng = s.eng := rfl
@[simp] theorem onWrn_opq (f : Wrn → Wrn) (s : State) : (onWrn f s).opq = s.opq := rfl
@[simp] theorem onWrn_lif (f : Wrn → Wrn) (s : State) : (onWrn f s).lif = s.lif := rfl
@[simp] theorem onWrn_pnl (f : Wrn → Wrn) (s : State) : (onWrn f s).pnl = s.pnl := rfl
@[simp] theorem onWrn_flt (f : Wrn → Wrn) (s : State) : (onWrn f s).flt = s.flt := rfl
@[simp] theorem onWrn_out (f : Wrn → Wrn) (s : State) : (onWrn f s).out = s.out := rfl
@[simp] theorem onWrn_free (f : Wrn → Wrn) (s : State) : (onWrn f s).free = s.free := rfl
@[simp] theorem onWrn_pending (f : Wrn → Wrn) (s : State) : (onWrn f s).pending = s.pending := rfl

@[simp] theorem onEng_uni (f : Eng → Eng) (s : State) : (onEng f s).uni = s.uni := rfl
@[simp] theorem onEng_fus (f : Eng → Eng) (s : State) : (onEng f s).fus = s.fus := rfl
@[simp] theorem onEng_vq (f : Eng → Eng) (s : State) : (onEng f s).vq = s.vq := rfl
@[simp] theorem onEng_mon (f : Eng → Eng) (s : State) : (onEng f s).mon = s.mon := rfl
@[simp] theorem onEng_pwr (f : Eng → Eng) (s : State) : (onEng f s).pwr = s.pwr := rfl
@[simp] theorem onEng_hst (f : Eng → Eng) (s : State) : (onEng f s).hst = s.hst := rfl
@[simp] theorem onEng_mbx (f : Eng → Eng) (s : State) : (onEng f s).mbx = s.mbx := rfl
@[simp] theorem onEng_ext (f : Eng → Eng) (s : State) : (onEng f s).ext = s.ext := rfl
@[simp] theorem onEng_cdc (f : Eng → Eng) (s : State) : (onEng f s).cdc = s.cdc := rfl
@[simp] theorem onEng_drt (f : Eng → Eng) (s : State) : (onEng f s).drt = s.drt := rfl
@[simp] theorem onEng_hrd (f : Eng → Eng) (s : State) : (onEng f s).hrd = s.hrd := rfl
@[simp] theorem onEng_wrn (f : Eng → Eng) (s : State) : (onEng f s).wrn = s.wrn := rfl
@[simp] theorem onEng_eng (f : Eng → Eng) (s : State) : (onEng f s).eng = f s.eng := rfl
@[simp] theorem onEng_opq (f : Eng → Eng) (s : State) : (onEng f s).opq = s.opq := rfl
@[simp] theorem onEng_lif (f : Eng → Eng) (s : State) : (onEng f s).lif = s.lif := rfl
@[simp] theorem onEng_pnl (f : Eng → Eng) (s : State) : (onEng f s).pnl = s.pnl := rfl
@[simp] theorem onEng_flt (f : Eng → Eng) (s : State) : (onEng f s).flt = s.flt := rfl
@[simp] theorem onEng_out (f : Eng → Eng) (s : State) : (onEng f s).out = s.out := rfl
@[simp] theorem onEng_free (f : Eng → Eng) (s : State) : (onEng f s).free = s.free := rfl
@[simp] theorem onEng_pending (f : Eng → Eng) (s : State) : (onEng f s).pending = s.pending := rfl

@[simp] theorem onOpq_uni (f : Opq → Opq) (s : State) : (onOpq f s).uni = s.uni := rfl
@[simp] theorem onOpq_fus (f : Opq → Opq) (s : State) : (onOpq f s).fus = s.fus := rfl
@[simp] theorem onOpq_vq (f : Opq → Opq) (s : State) : (onOpq f s).vq = s.vq := rfl
@[simp] theorem onOpq_mon (f : Opq → Opq) (s : State) : (onOpq f s).mon = s.mon := rfl
@[simp] theorem onOpq_pwr (f : Opq → Opq) (s : State) : (onOpq f s).pwr = s.pwr := rfl
@[simp] theorem onOpq_hst (f : Opq → Opq) (s : State) : (onOpq f s).hst = s.hst := rfl
@[simp] theorem onOpq_mbx (f : Opq → Opq) (s : State) : (onOpq f s).mbx = s.mbx := rfl
@[simp] theorem onOpq_ext (f : Opq → Opq) (s : State) : (onOpq f s).ext = s.ext := rfl
@[simp] theorem onOpq_cdc (f : Opq → Opq) (s : State) : (onOpq f s).cdc = s.cdc := rfl
@[simp] theorem onOpq_drt (f : Opq → Opq) (s : State) : (onOpq f s).drt = s.drt := rfl
@[simp] theorem onOpq_hrd (f : Opq → Opq) (s : State) : (onOpq f s).hrd = s.hrd := rfl
@[simp] theorem onOpq_wrn (f : Opq → Opq) (s : State) : (onOpq f s).wrn = s.wrn := rfl
@[simp] theorem onOpq_eng (f : Opq → Opq) (s : State) : (onOpq f s).eng = s.eng := rfl
@[simp] theorem onOpq_opq (f : Opq → Opq) (s : State) : (onOpq f s).opq = f s.opq := rfl
@[simp] theorem onOpq_lif (f : Opq → Opq) (s : State) : (onOpq f s).lif = s.lif := rfl
@[simp] theorem onOpq_pnl (f : Opq → Opq) (s : State) : (onOpq f s).pnl = s.pnl := rfl
@[simp] theorem onOpq_flt (f : Opq → Opq) (s : State) : (onOpq f s).flt = s.flt := rfl
@[simp] theorem onOpq_out (f : Opq → Opq) (s : State) : (onOpq f s).out = s.out := rfl
@[simp] theorem onOpq_free (f : Opq → Opq) (s : State) : (onOpq f s).free = s.free := rfl
@[simp] theorem onOpq_pending (f : Opq → Opq) (s : State) : (onOpq f s).pending = s.pending := rfl

@[simp] theorem onPwr_uni (f : Pwr → Pwr) (s : State) : (onPwr f s).uni = s.uni := rfl
@[simp] theorem onPwr_fus (f : Pwr → Pwr) (s : State) : (onPwr f s).fus = s.fus := rfl
@[simp] theorem onPwr_vq (f : Pwr → Pwr) (s : State) : (onPwr f s).vq = s.vq := rfl
@[simp] theorem onPwr_mon (f : Pwr → Pwr) (s : State) : (onPwr f s).mon = s.mon := rfl
@[simp] theorem onPwr_pwr (f : Pwr → Pwr) (s : State) : (onPwr f s).pwr = f s.pwr := rfl
@[simp] theorem onPwr_hst (f : Pwr → Pwr) (s : State) : (onPwr f s).hst = s.hst := rfl
@[simp] theorem onPwr_mbx (f : Pwr → Pwr) (s : State) : (onPwr f s).mbx = s.mbx := rfl
@[simp] theorem onPwr_ext (f : Pwr → Pwr) (s : State) : (onPwr f s).ext = s.ext := rfl
@[simp] theorem onPwr_cdc (f : Pwr → Pwr) (s : State) : (onPwr f s).cdc = s.cdc := rfl
@[simp] theorem onPwr_drt (f : Pwr → Pwr) (s : State) : (onPwr f s).drt = s.drt := rfl
@[simp] theorem onPwr_hrd (f : Pwr → Pwr) (s : State) : (onPwr f s).hrd = s.hrd := rfl
@[simp] theorem onPwr_wrn (f : Pwr → Pwr) (s : State) : (onPwr f s).wrn = s.wrn := rfl
@[simp] theorem onPwr_eng (f : Pwr → Pwr) (s : State) : (onPwr f s).eng = s.eng := rfl
@[simp] theorem onPwr_opq (f : Pwr → Pwr) (s : State) : (onPwr f s).opq = s.opq := rfl
@[simp] theorem onPwr_lif (f : Pwr → Pwr) (s : State) : (onPwr f s).lif = s.lif := rfl
@[simp] theorem onPwr_pnl (f : Pwr → Pwr) (s : State) : (onPwr f s).pnl = s.pnl := rfl
@[simp] theorem onPwr_flt (f : Pwr → Pwr) (s : State) : (onPwr f s).flt = s.flt := rfl
@[simp] theorem onPwr_out (f : Pwr → Pwr) (s : State) : (onPwr f s).out = s.out := rfl
@[simp] theorem onPwr_free (f : Pwr → Pwr) (s : State) : (onPwr f s).free = s.free := rfl
@[simp] theorem onPwr_pending (f : Pwr → Pwr) (s : State) : (onPwr f s).pending = s.pending := rfl

@[simp] theorem onLif_uni (f : Lif → Lif) (s : State) : (onLif f s).uni = s.uni := rfl
@[simp] theorem onLif_fus (f : Lif → Lif) (s : State) : (onLif f s).fus = s.fus := rfl
@[simp] theorem onLif_vq (f : Lif → Lif) (s : State) : (onLif f s).vq = s.vq := rfl
@[simp] theorem onLif_mon (f : Lif → Lif) (s : State) : (onLif f s).mon = s.mon := rfl
@[simp] theorem onLif_pwr (f : Lif → Lif) (s : State) : (onLif f s).pwr = s.pwr := rfl
@[simp] theorem onLif_hst (f : Lif → Lif) (s : State) : (onLif f s).hst = s.hst := rfl
@[simp] theorem onLif_mbx (f : Lif → Lif) (s : State) : (onLif f s).mbx = s.mbx := rfl
@[simp] theorem onLif_ext (f : Lif → Lif) (s : State) : (onLif f s).ext = s.ext := rfl
@[simp] theorem onLif_cdc (f : Lif → Lif) (s : State) : (onLif f s).cdc = s.cdc := rfl
@[simp] theorem onLif_drt (f : Lif → Lif) (s : State) : (onLif f s).drt = s.drt := rfl
@[simp] theorem onLif_hrd (f : Lif → Lif) (s : State) : (onLif f s).hrd = s.hrd := rfl
@[simp] theorem onLif_wrn (f : Lif → Lif) (s : State) : (onLif f s).wrn = s.wrn := rfl
@[simp] theorem onLif_eng (f : Lif → Lif) (s : State) : (onLif f s).eng = s.eng := rfl
@[simp] theorem onLif_opq (f : Lif → Lif) (s : State) : (onLif f s).opq = s.opq := rfl
@[simp] theorem onLif_lif (f : Lif → Lif) (s : State) : (onLif f s).lif = f s.lif := rfl
@[simp] theorem onLif_pnl (f : Lif → Lif) (s : State) : (onLif f s).pnl = s.pnl := rfl
@[simp] theorem onLif_flt (f : Lif → Lif) (s : State) : (onLif f s).flt = s.flt := rfl
@[simp] theorem onLif_out (f : Lif → Lif) (s : State) : (onLif f s).out = s.out := rfl
@[simp] theorem onLif_free (f : Lif → Lif) (s : State) : (onLif f s).free = s.free := rfl
@[simp] theorem onLif_pending (f : Lif → Lif) (s : State) : (onLif f s).pending = s.pending := rfl

@[simp] theorem onPnl_uni (f : Pnl → Pnl) (s : State) : (onPnl f s).uni = s.uni := rfl
@[simp] theorem onPnl_fus (f : Pnl → Pnl) (s : State) : (onPnl f s).fus = s.fus := rfl
@[simp] theorem onPnl_vq (f : Pnl → Pnl) (s : State) : (onPnl f s).vq = s.vq := rfl
@[simp] theorem onPnl_mon (f : Pnl → Pnl) (s : State) : (onPnl f s).mon = s.mon := rfl
@[simp] theorem onPnl_pwr (f : Pnl → Pnl) (s : State) : (onPnl f s).pwr = s.pwr := rfl
@[simp] theorem onPnl_hst (f : Pnl → Pnl) (s : State) : (onPnl f s).hst = s.hst := rfl
@[simp] theorem onPnl_mbx (f : Pnl → Pnl) (s : State) : (onPnl f s).mbx = s.mbx := rfl
@[simp] theorem onPnl_ext (f : Pnl → Pnl) (s : State) : (onPnl f s).ext = s.ext := rfl
@[simp] theorem onPnl_cdc (f : Pnl → Pnl) (s : State) : (onPnl f s).cdc = s.cdc := rfl
@[simp] theorem onPnl_drt (f : Pnl → Pnl) (s : State) : (onPnl f s).drt = s.drt := rfl
@[simp] theorem onPnl_hrd (f : Pnl → Pnl) (s : State) : (onPnl f s).hrd = s.hrd := rfl
@[simp] theorem onPnl_wrn (f : Pnl → Pnl) (s : State) : (onPnl f s).wrn = s.wrn := rfl
@[simp] theorem onPnl_eng (f : Pnl → Pnl) (s : State) : (onPnl f s).eng = s.eng := rfl
@[simp] theorem onPnl_opq (f : Pnl → Pnl) (s : State) : (onPnl f s).opq = s.opq := rfl
@[simp] theorem onPnl_lif (f : Pnl → Pnl) (s : State) : (onPnl f s).lif = s.lif := rfl
@[simp] theorem onPnl_pnl (f : Pnl → Pnl) (s : State) : (onPnl f s).pnl = f s.pnl := rfl
@[simp] theorem onPnl_flt (f : Pnl → Pnl) (s : State) : (onPnl f s).flt = s.flt := rfl
@[simp] theorem onPnl_out (f : Pnl → Pnl) (s : State) : (onPnl f s).out = s.out := rfl
@[simp] theorem onPnl_free (f : Pnl → Pnl) (s : State) : (onPnl f s).free = s.free := rfl
@[simp] theorem onPnl_pending (f : Pnl → Pnl) (s : State) : (onPnl f s).pending = s.pending := rfl

@[simp] theorem onFlt_uni (f : Flt → Flt) (s : State) : (onFlt f s).uni = s.uni := rfl
@[simp] theorem onFlt_fus (f : Flt → Flt) (s : State) : (onFlt f s).fus = s.fus := rfl
@[simp] theorem onFlt_vq (f : Flt → Flt) (s : State) : (onFlt f s).vq = s.vq := rfl
@[simp] theorem onFlt_mon (f : Flt → Flt) (s : State) : (onFlt f s).mon = s.mon := rfl
@[simp] theorem onFlt_pwr (f : Flt → Flt) (s : State) : (onFlt f s).pwr = s.pwr := rfl
@[simp] theorem onFlt_hst (f : Flt → Flt) (s : State) : (onFlt f s).hst = s.hst := rfl
@[simp] theorem onFlt_mbx (f : Flt → Flt) (s : State) : (onFlt f s).mbx = s.mbx := rfl
@[simp] theorem onFlt_ext (f : Flt → Flt) (s : State) : (onFlt f s).ext = s.ext := rfl
@[simp] theorem onFlt_cdc (f : Flt → Flt) (s : State) : (onFlt f s).cdc = s.cdc := rfl
@[simp] theorem onFlt_drt (f : Flt → Flt) (s : State) : (onFlt f s).drt = s.drt := rfl
@[simp] theorem onFlt_hrd (f : Flt → Flt) (s : State) : (onFlt f s).hrd = s.hrd := rfl
@[simp] theorem onFlt_wrn (f : Flt → Flt) (s : State) : (onFlt f s).wrn = s.wrn := rfl
@[simp] theorem onFlt_eng (f : Flt → Flt) (s : State) : (onFlt f s).eng = s.eng := rfl
@[simp] theorem onFlt_opq (f : Flt → Flt) (s : State) : (onFlt f s).opq = s.opq := rfl
@[simp] theorem onFlt_lif (f : Flt → Flt) (s : State) : (onFlt f s).lif = s.lif := rfl
@[simp] theorem onFlt_pnl (f : Flt → Flt) (s : State) : (onFlt f s).pnl = s.pnl := rfl
@[simp] theorem onFlt_flt (f : Flt → Flt) (s : State) : (onFlt f s).flt = f s.flt := rfl
@[simp] theorem onFlt_out (f : Flt → Flt) (s : State) : (onFlt f s).out = s.out := rfl
@[simp] theorem onFlt_free (f : Flt → Flt) (s : State) : (onFlt f s).free = s.free := rfl
@[simp] theorem onFlt_pending (f : Flt → Flt) (s : State) : (onFlt f s).pending = s.pending := rfl

@[simp] theorem onVq_uni (f : Vq → Vq) (s : State) : (onVq f s).uni = s.uni := rfl
@[simp] theorem onVq_fus (f : Vq → Vq) (s : State) : (onVq f s).fus = s.fus := rfl
@[simp] theorem onVq_vq (f : Vq → Vq) (s : State) : (onVq f s).vq = f s.vq := rfl
@[simp] theorem onVq_mon (f : Vq → Vq) (s : State) : (onVq f s).mon = s.mon := rfl
@[simp] theorem onVq_pwr (f : Vq → Vq) (s : State) : (onVq f s).pwr = s.pwr := rfl
@[simp] theorem onVq_hst (f : Vq → Vq) (s : State) : (onVq f s).hst = s.hst := rfl
@[simp] theorem onVq_mbx (f : Vq → Vq) (s : State) : (onVq f s).mbx = s.mbx := rfl
@[simp] theorem onVq_ext (f : Vq → Vq) (s : State) : (onVq f s).ext = s.ext := rfl
@[simp] theorem onVq_cdc (f : Vq → Vq) (s : State) : (onVq f s).cdc = s.cdc := rfl
@[simp] theorem onVq_drt (f : Vq → Vq) (s : State) : (onVq f s).drt = s.drt := rfl
@[simp] theorem onVq_hrd (f : Vq → Vq) (s : State) : (onVq f s).hrd = s.hrd := rfl
@[simp] theorem onVq_wrn (f : Vq → Vq) (s : State) : (onVq f s).wrn = s.wrn := rfl
@[simp] theorem onVq_eng (f : Vq → Vq) (s : State) : (onVq f s).eng = s.eng := rfl
@[simp] theorem onVq_opq (f : Vq → Vq) (s : State) : (onVq f s).opq = s.opq := rfl
@[simp] theorem onVq_lif (f : Vq → Vq) (s : State) : (onVq f s).lif = s.lif := rfl
@[simp] theorem onVq_pnl (f : Vq → Vq) (s : State) : (onVq f s).pnl = s.pnl := rfl
@[simp] theorem onVq_flt (f : Vq → Vq) (s : State) : (onVq f s).flt = s.flt := rfl
@[simp] theorem onVq_out (f : Vq → Vq) (s : State) : (onVq f s).out = s.out := rfl
@[simp] theorem onVq_free (f : Vq → Vq) (s : State) : (onVq f s).free = s.free := rfl
@[simp] theorem onVq_pending (f : Vq → Vq) (s : State) : (onVq f s).pending = s.pending := rfl

@[simp] theorem onUni_uni (f : Uni → Uni) (s : State) : (onUni f s).uni = f s.uni := rfl
@[simp] theorem onUni_fus (f : Uni → Uni) (s : State) : (onUni f s).fus = s.fus := rfl
@[simp] theorem onUni_vq (f : Uni → Uni) (s : State) : (onUni f s).vq = s.vq := rfl
@[simp] theorem onUni_mon (f : Uni → Uni) (s : State) : (onUni f s).mon = s.mon := rfl
@[simp] theorem onUni_pwr (f : Uni → Uni) (s : State) : (onUni f s).pwr = s.pwr := rfl
@[simp] theorem onUni_hst (f : Uni → Uni) (s : State) : (onUni f s).hst = s.hst := rfl
@[simp] theorem onUni_mbx (f : Uni → Uni) (s : State) : (onUni f s).mbx = s.mbx := rfl
@[simp] theorem onUni_ext (f : Uni → Uni) (s : State) : (onUni f s).ext = s.ext := rfl
@[simp] theorem onUni_cdc (f : Uni → Uni) (s : State) : (onUni f s).cdc = s.cdc := rfl
@[simp] theorem onUni_drt (f : Uni → Uni) (s : State) : (onUni f s).drt = s.drt := rfl
@[simp] theorem onUni_hrd (f : Uni → Uni) (s : State) : (onUni f s).hrd = s.hrd := rfl
@[simp] theorem onUni_wrn (f : Uni → Uni) (s : State) : (onUni f s).wrn = s.wrn := rfl
@[simp] theorem onUni_eng (f : Uni → Uni) (s : State) : (onUni f s).eng = s.eng := rfl
@[simp] theorem onUni_opq (f : Uni → Uni) (s : State) : (onUni f s).opq = s.opq := rfl
@[simp] theorem onUni_lif (f : Uni → Uni) (s : State) : (onUni f s).lif = s.lif := rfl
@[simp] theorem onUni_pnl (f : Uni → Uni) (s : State) : (onUni f s).pnl = s.pnl := rfl
@[simp] theorem onUni_flt (f : Uni → Uni) (s : State) : (onUni f s).flt = s.flt := rfl
@[simp] theorem onUni_out (f : Uni → Uni) (s : State) : (onUni f s).out = s.out := rfl
@[simp] theorem onUni_free (f : Uni → Uni) (s : State) : (onUni f s).free = s.free := rfl
@[simp] theorem onUni_pending (f : Uni → Uni) (s : State) : (onUni f s).pending = s.pending := rfl

@[simp] theorem onCdc_uni (f : Cdc → Cdc) (s : State) : (onCdc f s).uni = s.uni := rfl
@[simp] theorem onCdc_fus (f : Cdc → Cdc) (s : State) : (onCdc f s).fus = s.fus := rfl
@[simp] theorem onCdc_vq (f : Cdc → Cdc) (s : State) : (onCdc f s).vq = s.vq := rfl
@[simp] theorem onCdc_mon (f : Cdc → Cdc) (s : State) : (onCdc f s).mon = s.mon := rfl
@[simp] theorem onCdc_pwr (f : Cdc → Cdc) (s : State) : (onCdc f s).pwr = s.pwr := rfl
@[simp] theorem onCdc_hst (f : Cdc → Cdc) (s : State) : (onCdc f s).hst = s.hst := rfl
@[simp] theorem onCdc_mbx (f : Cdc → Cdc) (s : State) : (onCdc f s).mbx = s.mbx := rfl
@[simp] theorem onCdc_ext (f : Cdc → Cdc) (s : State) : (onCdc f s).ext = s.ext := rfl
@[simp] theorem onCdc_cdc (f : Cdc → Cdc) (s : State) : (onCdc f s).cdc = f s.cdc := rfl
@[simp] theorem onCdc_drt (f : Cdc → Cdc) (s : State) : (onCdc f s).drt = s.drt := rfl
@[simp] theorem onCdc_hrd (f : Cdc → Cdc) (s : State) : (onCdc f s).hrd = s.hrd := rfl
@[simp] theorem onCdc_wrn (f : Cdc → Cdc) (s : State) : (onCdc f s).wrn = s.wrn := rfl
@[simp] theorem onCdc_eng (f : Cdc → Cdc) (s : State) : (onCdc f s).eng = s.eng := rfl
@[simp] theorem onCdc_opq (f : Cdc → Cdc) (s : State) : (onCdc f s).opq = s.opq := rfl
@[simp] theorem onCdc_lif (f : Cdc → Cdc) (s : State) : (onCdc f s).lif = s.lif := rfl
@[simp] theorem onCdc_pnl (f : Cdc → Cdc) (s : State) : (onCdc f s).pnl = s.pnl := rfl
@[simp] theorem onCdc_flt (f : Cdc → Cdc) (s : State) : (onCdc f s).flt = s.flt := rfl
@[simp] theorem onCdc_out (f : Cdc → Cdc) (s : State) : (onCdc f s).out = s.out := rfl
@[simp] theorem onCdc_free (f : Cdc → Cdc) (s : State) : (onCdc f s).free = s.free := rfl
@[simp] theorem onCdc_pending (f : Cdc → Cdc) (s : State) : (onCdc f s).pending = s.pending := rfl

@[simp] theorem onMon_uni (f : Mon → Mon) (s : State) : (onMon f s).uni = s.uni := rfl
@[simp] theorem onMon_fus (f : Mon → Mon) (s : State) : (onMon f s).fus = s.fus := rfl
@[simp] theorem onMon_vq (f : Mon → Mon) (s : State) : (onMon f s).vq = s.vq := rfl
@[simp] theorem onMon_mon (f : Mon → Mon) (s : State) : (onMon f s).mon = f s.mon := rfl
@[simp] theorem onMon_pwr (f : Mon → Mon) (s : State) : (onMon f s).pwr = s.pwr := rfl
@[simp] theorem onMon_hst (f : Mon → Mon) (s : State) : (onMon f s).hst = s.hst := rfl
@[simp] theorem onMon_mbx (f : Mon → Mon) (s : State) : (onMon f s).mbx = s.mbx := rfl
@[simp] theorem onMon_ext (f : Mon → Mon) (s : State) : (onMon f s).ext = s.ext := rfl
@[simp] theorem onMon_cdc (f : Mon → Mon) (s : State) : (onMon f s).cdc = s.cdc := rfl
@[simp] theorem onMon_drt (f : Mon → Mon) (s : State) : (onMon f s).drt = s.drt := rfl
@[simp] theorem onMon_hrd (f : Mon → Mon) (s : State) : (onMon f s).hrd = s.hrd := rfl
@[simp] theorem onMon_wrn (f : Mon → Mon) (s : State) : (onMon f s).wrn = s.wrn := rfl
@[simp] theorem onMon_eng (f : Mon → Mon) (s : State) : (onMon f s).eng = s.eng := rfl
@[simp] theorem onMon_opq (f : Mon → Mon) (s : State) : (onMon f s).opq = s.opq := rfl
@[simp] theorem onMon_lif (f : Mon → Mon) (s : State) : (onMon f s).lif = s.lif := rfl
@[simp] theorem onMon_pnl (f : Mon → Mon) (s : State) : (onMon f s).pnl = s.pnl := rfl
@[simp] theorem onMon_flt (f : Mon → Mon) (s : State) : (onMon f s).flt = s.flt := rfl
@[simp] theorem onMon_out (f : Mon → Mon) (s : State) : (onMon f s).out = s.out := rfl
@[simp] theorem onMon_free (f : Mon → Mon) (s : State) : (onMon f s).free = s.free := rfl
@[simp] theorem onMon_pending (f : Mon → Mon) (s : State) : (onMon f s).pending = s.pending := rfl

@[simp] theorem onFus_uni (f : Fus → Fus) (s : State) : (onFus f s).uni = s.uni := rfl
@[simp] theorem onFus_fus (f : Fus → Fus) (s : State) : (onFus f s).fus = f s.fus := rfl
@[simp] theorem onFus_vq (f : Fus → Fus) (s : State) : (onFus f s).vq = s.vq := rfl
@[simp] theorem onFus_mon (f : Fus → Fus) (s : State) : (onFus f s).mon = s.mon := rfl
@[simp] theorem onFus_pwr (f : Fus → Fus) (s : State) : (onFus f s).pwr = s.pwr := rfl
@[simp] theorem onFus_hst (f : Fus → Fus) (s : State) : (onFus f s).hst = s.hst := rfl
@[simp] theorem onFus_mbx (f : Fus → Fus) (s : State) : (onFus f s).mbx = s.mbx := rfl
@[simp] theorem onFus_ext (f : Fus → Fus) (s : State) : (onFus f s).ext = s.ext := rfl
@[simp] theorem onFus_cdc (f : Fus → Fus) (s : State) : (onFus f s).cdc = s.cdc := rfl
@[simp] theorem onFus_drt (f : Fus → Fus) (s : State) : (onFus f s).drt = s.drt := rfl
@[simp] theorem onFus_hrd (f : Fus → Fus) (s : State) : (onFus f s).hrd = s.hrd := rfl
@[simp] theorem onFus_wrn (f : Fus → Fus) (s : State) : (onFus f s).wrn = s.wrn := rfl
@[simp] theorem onFus_eng (f : Fus → Fus) (s : State) : (onFus f s).eng = s.eng := rfl
@[simp] theorem onFus_opq (f : Fus → Fus) (s : State) : (onFus f s).opq = s.opq := rfl
@[simp] theorem onFus_lif (f : Fus → Fus) (s : State) : (onFus f s).lif = s.lif := rfl
@[simp] theorem onFus_pnl (f : Fus → Fus) (s : State) : (onFus f s).pnl = s.pnl := rfl
@[simp] theorem onFus_flt (f : Fus → Fus) (s : State) : (onFus f s).flt = s.flt := rfl
@[simp] theorem onFus_out (f : Fus → Fus) (s : State) : (onFus f s).out = s.out := rfl
@[simp] theorem onFus_free (f : Fus → Fus) (s : State) : (onFus f s).free = s.free := rfl
@[simp] theorem onFus_pending (f : Fus → Fus) (s : State) : (onFus f s).pending = s.pending := rfl

end Sys2Proof.Laws
end

