-- ==== Sys2Proof/Laws/Events.lean ====
section
/-! SUPPORT. What recording and raising an event do (R414 to R418): recording changes the logs, the pending bits of masked
vectors and what has been sent; an event without a disposition does no more; a change of the unit state gives that state. -/

namespace Sys2Proof.Laws

-- The lemmas of this file are checked one after another, with few threads at a time.
set_option Elab.async false

open Sys2Proof.Machine Sys2Proof.Safety

theorem record_cases (e : Ev) (s : State) : ∃ f h o, record e s = { s with flt := f, hst := h, out := o } := by
  unfold record
  dsimp only
  split
  · exact ⟨_, _, _, rfl⟩
  · split
    · split <;> exact ⟨_, _, _, rfl⟩
    · exact ⟨_, s.hst, s.out, rfl⟩

@[simp] theorem record_uni (e : Ev) (s : State) : (record e s).uni = s.uni := by
  obtain ⟨_, _, _, h⟩ := record_cases e s; rw [h]
@[simp] theorem record_fus (e : Ev) (s : State) : (record e s).fus = s.fus := by
  obtain ⟨_, _, _, h⟩ := record_cases e s; rw [h]
@[simp] theorem record_vq (e : Ev) (s : State) : (record e s).vq = s.vq := by
  obtain ⟨_, _, _, h⟩ := record_cases e s; rw [h]
@[simp] theorem record_mon (e : Ev) (s : State) : (record e s).mon = s.mon := by
  obtain ⟨_, _, _, h⟩ := record_cases e s; rw [h]
@[simp] theorem record_pwr (e : Ev) (s : State) : (record e s).pwr = s.pwr := by
  obtain ⟨_, _, _, h⟩ := record_cases e s; rw [h]
@[simp] theorem record_mbx (e : Ev) (s : State) : (record e s).mbx = s.mbx := by
  obtain ⟨_, _, _, h⟩ := record_cases e s; rw [h]
@[simp] theorem record_ext (e : Ev) (s : State) : (record e s).ext = s.ext := by
  obtain ⟨_, _, _, h⟩ := record_cases e s; rw [h]
@[simp] theorem record_cdc (e : Ev) (s : State) : (record e s).cdc = s.cdc := by
  obtain ⟨_, _, _, h⟩ := record_cases e s; rw [h]
@[simp] theorem record_drt (e : Ev) (s : State) : (record e s).drt = s.drt := by
  obtain ⟨_, _, _, h⟩ := record_cases e s; rw [h]
@[simp] theorem record_hrd (e : Ev) (s : State) : (record e s).hrd = s.hrd := by
  obtain ⟨_, _, _, h⟩ := record_cases e s; rw [h]
@[simp] theorem record_wrn (e : Ev) (s : State) : (record e s).wrn = s.wrn := by
  obtain ⟨_, _, _, h⟩ := record_cases e s; rw [h]
@[simp] theorem record_eng (e : Ev) (s : State) : (record e s).eng = s.eng := by
  obtain ⟨_, _, _, h⟩ := record_cases e s; rw [h]
@[simp] theorem record_opq (e : Ev) (s : State) : (record e s).opq = s.opq := by
  obtain ⟨_, _, _, h⟩ := record_cases e s; rw [h]
@[simp] theorem record_lif (e : Ev) (s : State) : (record e s).lif = s.lif := by
  obtain ⟨_, _, _, h⟩ := record_cases e s; rw [h]
@[simp] theorem record_pnl (e : Ev) (s : State) : (record e s).pnl = s.pnl := by
  obtain ⟨_, _, _, h⟩ := record_cases e s; rw [h]
@[simp] theorem record_free (e : Ev) (s : State) : (record e s).free = s.free := by
  obtain ⟨_, _, _, h⟩ := record_cases e s; rw [h]
@[simp] theorem record_pending (e : Ev) (s : State) : (record e s).pending = s.pending := by
  obtain ⟨_, _, _, h⟩ := record_cases e s; rw [h]

theorem mem_modFirst {α : Type} (p : α → Bool) (f : α → α) (l : List α) (x : α) (h : x ∈ l) :
    x ∈ modFirst p f l ∨ (p x = true ∧ f x ∈ modFirst p f l) := by
  induction l with
  | nil => cases h
  | cons y l ih =>
    unfold modFirst
    by_cases e : p y = true
    · rw [if_pos e]
      rcases List.mem_cons.1 h with rfl | h
      · exact .inr ⟨e, .head _⟩
      · exact .inl (.tail _ h)
    · rw [if_neg e]
      rcases List.mem_cons.1 h with rfl | h
      · exact .inl (.head _)
      · exact (ih h).imp (.tail _) fun q => ⟨q.1, .tail _ q.2⟩

/-- A window open for an event stays open for it while further events are recorded (R418). -/
theorem record_keeps (e : Ev) {s : State} {c t k i : Nat} (h : noted s c t k i) : noted (record e s) c t k i := by
  obtain ⟨x, hm, hc, ht, hk, hi⟩ := h
  unfold record
  dsimp only
  split
  · exact ⟨x, hm, hc, ht, hk, hi⟩
  · split
    · split
      · rcases mem_modFirst (sameEvent (evRecord s e)) (fun x => { x with count := x.count + 1 }) _ x hm with h | ⟨_, h⟩
        · exact ⟨x, h, hc, ht, hk, hi⟩
        · exact ⟨_, h, hc, ht, hk, hi⟩
      · by_cases p : sameEvent (evRecord s e) x = true
        · refine ⟨evRecord s e, by simp [writeRec, fltAdd], ?_⟩
          simp only [sameEvent, Bool.and_eq_true, beq_iff_eq] at p
          exact ⟨p.1.1.1.trans hc, p.2.trans ht, p.1.1.2.trans hk, p.1.2.trans hi⟩
        · exact ⟨x, by simp [writeRec, fltAdd, hm, p], hc, ht, hk, hi⟩
    · exact ⟨x, by simp [hm], hc, ht, hk, hi⟩

/-- An event of class C, D or K has an open merge window once it is recorded (R418). -/
theorem record_noted (e : Ev) (s : State) (h : (codeRow e.code e.cls).1 < 4) : noted (record e s) e.code e.tenant e.sk e.si := by
  unfold record
  dsimp only
  rw [if_neg (by show ¬ 4 ≤ (codeRow e.code e.cls).1; omega)]
  split
  · next q hq =>
    have hp := List.find?_some hq
    have hm := List.mem_of_find?_eq_some hq
    simp only [sameEvent, Bool.and_eq_true, beq_iff_eq] at hp
    obtain ⟨⟨⟨h1, h2⟩, h3⟩, h4⟩ := hp
    split
    · rcases mem_modFirst (sameEvent (evRecord s e)) (fun x => { x with count := x.count + 1 }) _ q hm with h | ⟨_, h⟩
      · exact ⟨q, h, h1.symm, h4.symm, h2.symm, h3.symm⟩
      · exact ⟨_, h, h1.symm, h4.symm, h2.symm, h3.symm⟩
    · exact ⟨evRecord s e, by simp [writeRec, fltAdd], rfl, rfl, rfl, rfl⟩
  · exact ⟨evRecord s e, by simp, rfl, rfl, rfl, rfl⟩

/-- Recording leaves the fields of `FLT_HELD` and `FLT_CMD` as they are. -/
theorem record_held (e : Ev) (s : State) :
    (record e s).flt.byHold = s.flt.byHold ∧ (record e s).flt.byFault = s.flt.byFault ∧ (record e s).flt.causes = s.flt.causes ∧
    (record e s).flt.action = s.flt.action ∧ (record e s).flt.busy = s.flt.busy ∧ (record e s).flt.status = s.flt.status := by
  unfold record
  dsimp only
  split
  · simp [writeRec, fltAdd]
  · split
    · split <;> simp [writeRec, fltAdd]
    · simp

@[simp] theorem record_byHold (e : Ev) (s : State) : (record e s).flt.byHold = s.flt.byHold := (record_held e s).1
@[simp] theorem record_byFault (e : Ev) (s : State) : (record e s).flt.byFault = s.flt.byFault := (record_held e s).2.1
@[simp] theorem record_causes (e : Ev) (s : State) : (record e s).flt.causes = s.flt.causes := (record_held e s).2.2.1

/-- Recording leaves the links, the requests in service and the port policy of HST as they are. -/
theorem record_hst (e : Ev) (s : State) :
    (record e s).hst.links = s.hst.links ∧ (record e s).hst.reqs = s.hst.reqs ∧ (record e s).hst.ideRequired = s.hst.ideRequired ∧
    (record e s).hst.poisonInject = s.hst.poisonInject := by
  have m (h : Hst) (l v : Nat) : (msixHst h l v).links = h.links ∧ (msixHst h l v).reqs = h.reqs ∧
      (msixHst h l v).ideRequired = h.ideRequired ∧ (msixHst h l v).poisonInject = h.poisonInject := by
    unfold msixHst; split <;> exact ⟨rfl, rfl, rfl, rfl⟩
  have f (r : EventRec) (l : List Nat) (g : Nat → Nat) (h : Hst) :
      (l.foldl (fun h x => msixHst h x (evVector h x (g x))) h).links = h.links ∧
      (l.foldl (fun h x => msixHst h x (evVector h x (g x))) h).reqs = h.reqs ∧
      (l.foldl (fun h x => msixHst h x (evVector h x (g x))) h).ideRequired = h.ideRequired ∧
      (l.foldl (fun h x => msixHst h x (evVector h x (g x))) h).poisonInject = h.poisonInject := by
    induction l generalizing h with
    | nil => exact ⟨rfl, rfl, rfl, rfl⟩
    | cons a l ih =>
      rw [List.foldl_cons]
      obtain ⟨h1, h2, h3, h4⟩ := ih (msixHst h a (evVector h a (g a)))
      obtain ⟨k1, k2, k3, k4⟩ := m h a (evVector h a (g a))
      exact ⟨h1.trans k1, h2.trans k2, h3.trans k3, h4.trans k4⟩
  have w (r : EventRec) (u : State) : (writeRec r u).hst.links = u.hst.links ∧ (writeRec r u).hst.reqs = u.hst.reqs ∧
      (writeRec r u).hst.ideRequired = u.hst.ideRequired ∧ (writeRec r u).hst.poisonInject = u.hst.poisonInject :=
    f r (eventLds u r) (fun _ => cxlLog r.cls r.disp) u.hst
  unfold record
  dsimp only
  split
  · exact w _ _
  · split
    · split
      · exact ⟨rfl, rfl, rfl, rfl⟩
      · exact w _ _
    · exact ⟨rfl, rfl, rfl, rfl⟩

@[simp] theorem record_links (e : Ev) (s : State) : (record e s).hst.links = s.hst.links := (record_hst e s).1
@[simp] theorem record_reqs (e : Ev) (s : State) : (record e s).hst.reqs = s.hst.reqs := (record_hst e s).2.1

theorem raise_eq_record (e : Ev) (s : State) (h : (codeRow e.code e.cls).2 = 0) : raise e s = record e s := by
  rw [raise, h]; rfl

theorem moveTo_st (st : UnitState) (c d : Nat) (s : State) : (moveTo st c d s).uni.st = st := by
  unfold moveTo
  split
  · assumption
  · simp

theorem moveTo_keeps {s : State} {c t k i : Nat} (st : UnitState) (a d : Nat) (h : noted s c t k i) :
    noted (moveTo st a d s) c t k i := by
  unfold moveTo
  split
  · exact h
  · exact record_keeps _ h

theorem enterFaulted_keeps {s : State} {c t k i : Nat} (a : Nat) (h : noted s c t k i) : noted (enterFaulted a s) c t k i := by
  unfold enterFaulted
  split
  · exact h
  · exact moveTo_keeps _ _ _ h

theorem enterHeldFault_keeps {s : State} {c t k i : Nat} (a : Nat) (h : noted s c t k i) : noted (enterHeldFault a s) c t k i := by
  unfold enterHeldFault
  split <;> first | exact h | exact moveTo_keeps _ _ _ h

theorem drainFault_keeps {s : State} {c t k i : Nat} (a : Nat) (h : noted s c t k i) : noted (drainFault a s) c t k i := by
  unfold drainFault
  split
  · exact enterFaulted_keeps _ h
  · exact h
  · exact h
  · exact h
  · dsimp only
    split
    · exact moveTo_keeps _ _ _ h
    · exact h

theorem raise_keeps (e : Ev) {s : State} {c t k i : Nat} (h : noted s c t k i) : noted (raise e s) c t k i := by
  unfold raise dispose
  split
  · exact enterHeldFault_keeps _ (record_keeps _ h)
  · exact drainFault_keeps _ (record_keeps _ h)
  · split <;> exact enterFaulted_keeps _ (record_keeps _ h)
  · exact record_keeps _ h

/-- An event of class C, D or K has an open merge window once it is raised. -/
theorem raise_noted (e : Ev) (s : State) (h : (codeRow e.code e.cls).1 < 4) : noted (raise e s) e.code e.tenant e.sk e.si := by
  have h := record_noted e s h
  unfold raise dispose
  split
  · exact enterHeldFault_keeps _ h
  · exact drainFault_keeps _ h
  · split <;> exact enterFaulted_keeps _ h
  · exact h

end Sys2Proof.Laws
end

