-- ==== Sys2Proof/Laws/Memory.lean ====
section
/-! SUPPORT. The laws of the byte memories and of the finite tables: a read after a write, and the canonical form. -/

namespace Sys2Proof.Machine

/-! ### Tables -/

@[simp] theorem tfind_nil {α : Type} (k : Nat) : tfind ([] : Tbl α) k = none := rfl

theorem tfind_tset_same {α : Type} (k : Nat) (v : α) (t : Tbl α) : tfind (tset k v t) k = some v := by
  induction t with
  | nil => simp [tset, tfind]
  | cons p r ih =>
    obtain ⟨j, w⟩ := p
    unfold tset
    split
    · simp [tfind]
    · split
      · simp [tfind]
      · next h₁ h₂ => simp only [tfind, ih]; rw [if_neg (fun h => h₂ h.symm)]

theorem tfind_tset_other {α : Type} {k j : Nat} (h : j ≠ k) (v : α) (t : Tbl α) :
    tfind (tset k v t) j = tfind t j := by
  induction t with
  | nil => simp [tset, tfind, h.symm]
  | cons p r ih =>
    obtain ⟨i, w⟩ := p
    unfold tset
    split
    · simp [tfind, h.symm]
    · split
      · next h₁ h₂ => subst h₂; simp [tfind, h.symm]
      · simp only [tfind, ih]

@[simp] theorem tget_tset_same {α : Type} (d : α) (k : Nat) (v : α) (t : Tbl α) : tget d (tset k v t) k = v := by
  simp [tget, tfind_tset_same]

theorem tget_tset_other {α : Type} (d : α) {k j : Nat} (h : j ≠ k) (v : α) (t : Tbl α) :
    tget d (tset k v t) j = tget d t j := by
  simp [tget, tfind_tset_other h]

@[simp] theorem tget_tmod_same {α : Type} (d : α) (k : Nat) (f : α → α) (t : Tbl α) :
    tget d (tmod d k f t) k = f (tget d t k) := by
  simp [tmod]

theorem tget_tmod_other {α : Type} (d e : α) {k j : Nat} (h : j ≠ k) (f : α → α) (t : Tbl α) :
    tget e (tmod d k f t) j = tget e t j := by
  simp [tmod, tget_tset_other e h]

theorem mem_of_tfind {α : Type} {t : Tbl α} {k : Nat} {v : α} (h : tfind t k = some v) : (k, v) ∈ t := by
  induction t with
  | nil => cases h
  | cons p r ih =>
    obtain ⟨j, w⟩ := p
    unfold tfind at h
    split at h
    · next e => cases h; simp [e]
    · exact List.mem_cons_of_mem _ (ih h)

theorem mem_tset {α : Type} {k : Nat} {v : α} {t : Tbl α} {p : Nat × α} (h : p ∈ tset k v t) : p = (k, v) ∨ p ∈ t := by
  induction t with
  | nil => simpa [tset] using h
  | cons q r ih =>
    obtain ⟨j, w⟩ := q
    unfold tset at h
    split at h
    · simpa using h
    · split at h
      · rcases List.mem_cons.1 h with h | h
        · exact .inl h
        · exact .inr (List.mem_cons_of_mem _ h)
      · rcases List.mem_cons.1 h with h | h
        · exact .inr (by simp [h])
        · rcases ih h with h | h
          · exact .inl h
          · exact .inr (List.mem_cons_of_mem _ h)

/-! ### The canonical form of a memory -/

/-- The form, said as a list of rising cells that hold no zero. -/
theorem memWf_iff (m : Memory) : memWf m = true ↔ m.Pairwise (fun p q => p.1 < q.1) ∧ ∀ p ∈ m, p.2 ≠ 0 := by
  induction m with
  | nil => simp [memWf]
  | cons p r ih =>
    obtain ⟨a, b⟩ := p
    cases r with
    | nil => simp [memWf]
    | cons q r =>
      obtain ⟨a', b'⟩ := q
      rw [memWf, Bool.and_eq_true, Bool.and_eq_true, ih]
      constructor
      · rintro ⟨⟨hb, ha⟩, hp, hz⟩
        have ha := of_decide_eq_true ha
        refine ⟨List.pairwise_cons.2 ⟨?_, hp⟩, ?_⟩
        · intro x hx
          rcases List.mem_cons.1 hx with rfl | hx
          · exact ha
          · exact Nat.lt_trans ha ((List.pairwise_cons.1 hp).1 x hx)
        · intro x hx
          rcases List.mem_cons.1 hx with rfl | hx
          · simpa using hb
          · exact hz x hx
      · rintro ⟨hp, hz⟩
        have h := List.pairwise_cons.1 hp
        exact ⟨⟨by simpa using hz (a, b) (by simp), decide_eq_true (h.1 (a', b') (by simp))⟩, h.2,
          fun x hx => hz x (List.mem_cons_of_mem _ hx)⟩

theorem mem_mset {a : Nat} {b : Byte} {m : Memory} {p : Nat × Byte} (h : p ∈ mset a b m) : (p = (a, b) ∧ b ≠ 0) ∨ p ∈ m := by
  induction m with
  | nil =>
    unfold mset at h
    split at h
    · cases h
    · exact .inl ⟨by simpa using h, ‹_›⟩
  | cons q r ih =>
    obtain ⟨j, w⟩ := q
    unfold mset at h
    split at h
    · split at h
      · exact .inr h
      · rcases List.mem_cons.1 h with h | h
        · exact .inl ⟨h, ‹_›⟩
        · exact .inr h
    · split at h
      · split at h
        · exact .inr (List.mem_cons_of_mem _ h)
        · rcases List.mem_cons.1 h with h | h
          · exact .inl ⟨h, ‹_›⟩
          · exact .inr (List.mem_cons_of_mem _ h)
      · rcases List.mem_cons.1 h with h | h
        · exact .inr (by simp [h])
        · rcases ih h with h | h
          · exact .inl h
          · exact .inr (List.mem_cons_of_mem _ h)

theorem pairwise_mset (a : Nat) (b : Byte) {m : Memory} (h : m.Pairwise fun p q => p.1 < q.1) :
    (mset a b m).Pairwise fun p q => p.1 < q.1 := by
  induction m with
  | nil => unfold mset; split <;> simp
  | cons q r ih =>
    obtain ⟨j, w⟩ := q
    have hr := List.pairwise_cons.1 h
    unfold mset
    split
    · next hlt =>
      split
      · exact h
      · refine List.pairwise_cons.2 ⟨?_, h⟩
        intro x hx
        rcases List.mem_cons.1 hx with rfl | hx
        · exact hlt
        · exact Nat.lt_trans hlt (hr.1 x hx)
    · split
      · next he =>
        split
        · exact hr.2
        · exact List.pairwise_cons.2 ⟨fun x hx => he ▸ hr.1 x hx, hr.2⟩
      · refine List.pairwise_cons.2 ⟨?_, ih hr.2⟩
        intro x hx
        rcases mem_mset hx with ⟨rfl, _⟩ | hx
        · show j < a; omega
        · exact hr.1 x hx

/-- Writing a byte keeps the canonical form. -/
theorem mset_wf (a : Nat) (b : Byte) {m : Memory} (h : memWf m = true) : memWf (mset a b m) = true := by
  rw [memWf_iff] at h ⊢
  refine ⟨pairwise_mset a b h.1, fun p hp => ?_⟩
  rcases mem_mset hp with ⟨rfl, hb⟩ | hp
  · exact hb
  · exact h.2 p hp

/-- Writing bytes keeps the canonical form. -/
theorem mwrite_wf (l : List Byte) (a : Nat) {m : Memory} (h : memWf m = true) : memWf (mwrite a l m) = true := by
  induction l generalizing a m with
  | nil => exact h
  | cons b bs ih => exact ih (a + 1) (mset_wf a b h)

/-- Leaving cells out keeps the canonical form. -/
theorem filter_wf (p : Nat × Byte → Bool) {m : Memory} (h : memWf m = true) : memWf (m.filter p) = true := by
  rw [memWf_iff] at h ⊢
  exact ⟨h.1.filter p, fun x hx => h.2 x (List.mem_of_mem_filter hx)⟩

theorem tfind_none_of_lt {α : Type} {t : Tbl α} {k : Nat} (h : ∀ p ∈ t, k < p.1) : tfind t k = none := by
  induction t with
  | nil => rfl
  | cons p r ih =>
    obtain ⟨j, w⟩ := p
    have h₁ : k < j := h (j, w) (by simp)
    unfold tfind
    rw [if_neg (by omega)]
    exact ih fun q hq => h q (List.mem_cons_of_mem _ hq)

/-- Reading after writing the same address gives the byte written. -/
theorem mget_mset_same (a : Nat) (b : Byte) {m : Memory} (h : memWf m = true) : mget (mset a b m) a = b := by
  have hp := ((memWf_iff m).1 h).1
  clear h
  induction m with
  | nil => unfold mset; split <;> simp_all [mget, tget, tfind]
  | cons q r ih =>
    obtain ⟨j, w⟩ := q
    have hr := List.pairwise_cons.1 hp
    unfold mset
    split
    · next hlt =>
      split
      · next hb =>
        have : tfind ((j, w) :: r) a = none := tfind_none_of_lt (by
          intro p hp
          rcases List.mem_cons.1 hp with rfl | hp
          · exact hlt
          · exact Nat.lt_trans hlt (hr.1 p hp))
        simp [mget, tget, this, hb]
      · simp [mget, tget, tfind]
    · split
      · next he =>
        split
        · next hb =>
          have : tfind r a = none := tfind_none_of_lt (fun p hp => he ▸ hr.1 p hp)
          simp [mget, tget, this, hb]
        · simp [mget, tget, tfind]
      · next h₁ h₂ =>
        have := ih hr.2
        simpa [mget, tget, tfind, Ne.symm h₂] using this

/-- Writing an address leaves every other address as it was. -/
theorem mget_mset_other {a c : Nat} (h : c ≠ a) (b : Byte) (m : Memory) : mget (mset a b m) c = mget m c := by
  induction m with
  | nil => unfold mset; split <;> simp [mget, tget, tfind, h.symm]
  | cons q r ih =>
    obtain ⟨j, w⟩ := q
    unfold mset
    split
    · split
      · rfl
      · simp [mget, tget, tfind, h.symm]
    · split
      · next he =>
        subst he
        split <;> simp [mget, tget, tfind, h.symm]
      · have := ih
        simp only [mget, tget, tfind] at this ⊢
        split
        · rfl
        · exact this

/-- Bytes outside a written range are as they were. -/
theorem mget_mwrite_other (l : List Byte) (a c : Nat) (m : Memory) (h : c < a ∨ a + l.length ≤ c) :
    mget (mwrite a l m) c = mget m c := by
  induction l generalizing a m with
  | nil => rfl
  | cons b bs ih =>
    simp only [List.length_cons] at h
    rw [mwrite, ih (a + 1) _ (by omega), mget_mset_other (by omega)]

/-- Bytes inside a written range are the ones written. -/
theorem mget_mwrite_inside (l : List Byte) (a i : Nat) {m : Memory} (hm : memWf m = true) (h : i < l.length) :
    mget (mwrite a l m) (a + i) = l.getD i 0 := by
  induction l generalizing a i m with
  | nil => cases h
  | cons b bs ih =>
    rw [mwrite]
    cases i with
    | zero => rw [mget_mwrite_other _ _ _ _ (by omega)]; simpa using mget_mset_same a b hm
    | succ i =>
      have := ih (a + 1) i (mset_wf a b hm) (by simpa using h)
      rw [show a + (i + 1) = a + 1 + i by omega, this]
      simp

end Sys2Proof.Machine
end

