-- ==== Sys2Proof/Laws/Kept.lean ====
section
/-! SUPPORT. How the relation `Kept` composes: updates of the state's blocks, branches and folds. -/

namespace Sys2Proof.Safety

-- The lemmas of this file are checked one after another, with few threads at a time.
set_option Elab.async false

open Sys2Proof.Machine

/-! ### Lists of blocks -/

theorem covers_le {a b c : List Block} (h : covers b c = true) (g : covers a b = true) : covers a c = true := by
  simp only [covers, List.all_eq_true, List.contains_iff_mem] at *
  exact fun x hx => h x (g x hx)

theorem covers_refl (a : List Block) : covers a a = true := by
  simp [covers, List.all_eq_true]

theorem mem_of_covers {a c : List Block} {b : Block} (h : covers a c = true) (hb : a.contains b = true) : b ∈ c := by
  simp only [covers, List.all_eq_true, List.contains_iff_mem] at *
  exact h b hb

theorem Block.same_trans {b : Block} {s t u : State} (h : b.same s t) (g : b.same t u) : b.same s u := by
  cases b <;> exact g.trans h

/-! ### Blocks with memories -/

/-- What an update of one block must keep for `Kept`. -/
structure FusKept (a b : Fus) : Prop where
  buf : memWf a.buf = true → memWf b.buf = true
  fuses : fusesKept a b
structure VqKept (a b : Vq) : Prop where
  buf : memWf a.buf = true → memWf b.buf = true
structure DrtKept (a b : Drt) : Prop where
  tier : memWf a.tier = true → memWf b.tier = true
structure HstKept (a b : Hst) : Prop where
  pages : (∀ p ∈ a.lds, memWf p.2.pages = true) → ∀ p ∈ b.lds, memWf p.2.pages = true

theorem FusKept.refl (a : Fus) : FusKept a a := ⟨id, fun _ _ h => h⟩
theorem FusKept.of_eq {a b : Fus} (hb : b.buf = a.buf) (hw : b.words = a.words) : FusKept a b :=
  ⟨fun h => hb ▸ h, fun w i h => by rw [fuseBits, hw]; exact h⟩
theorem VqKept.of_eq {a b : Vq} (h : b.buf = a.buf) : VqKept a b := ⟨fun m => h ▸ m⟩
theorem DrtKept.of_eq {a b : Drt} (h : b.tier = a.tier) : DrtKept a b := ⟨fun m => h ▸ m⟩
theorem HstKept.of_eq {a b : Hst} (h : b.lds = a.lds) : HstKept a b := ⟨fun m p hp => m p (h ▸ hp)⟩
theorem DrtKept.trans {a b c : Drt} (h : DrtKept a b) (g : DrtKept b c) : DrtKept a c := ⟨fun m => g.tier (h.tier m)⟩
theorem HstKept.trans {a b c : Hst} (h : HstKept a b) (g : HstKept b c) : HstKept a c := ⟨fun m => g.pages (h.pages m)⟩
theorem VqKept.trans {a b c : Vq} (h : VqKept a b) (g : VqKept b c) : VqKept a c := ⟨fun m => g.buf (h.buf m)⟩
theorem FusKept.trans {a b c : Fus} (h : FusKept a b) (g : FusKept b c) : FusKept a c :=
  ⟨fun m => g.buf (h.buf m), fun w i x => g.fuses w i (h.fuses w i x)⟩

/-! ### The relation -/

theorem Kept.refl (cv : List Block) (s : State) : Kept cv s s := ⟨rfl, id, fun _ _ h => h, fun b _ => by cases b <;> rfl⟩

/-- An update of a state's blocks with the same queue. -/
theorem Kept.upd {cv : List Block} {s u : State} {uni mon pwr mbx ext cdc hrd wrn eng opq lif pnl flt out free}
    {fus : Fus} {vq : Vq} {hst : Hst} {drt : Drt}
    (h : Kept cv s u) (hf : FusKept u.fus fus) (hv : VqKept u.vq vq) (hd : DrtKept u.drt drt) (hh : HstKept u.hst hst)
    (hb : ∀ b, b ∉ cv →
      b.same u ⟨uni, fus, vq, mon, pwr, hst, mbx, ext, cdc, drt, hrd, wrn, eng, opq, lif, pnl, flt, out, free, u.pending⟩ := by
        intro b hn; cases b <;> first | exact absurd (mem_of_covers (by assumption) rfl) hn | rfl) :
    Kept cv s ⟨uni, fus, vq, mon, pwr, hst, mbx, ext, cdc, drt, hrd, wrn, eng, opq, lif, pnl, flt, out, free, u.pending⟩ where
  queue := h.queue
  memories m :=
    have m := h.memories m
    ⟨hf.buf m.1, hv.buf m.2.1, hd.tier m.2.2.1, hh.pages m.2.2.2⟩
  fuses w i x := hf.fuses w i (h.fuses w i x)
  frame b hn := Block.same_trans (b := b) (h.frame b hn) (hb b hn)

/-- An intermediate state, or function on states, of which the rest of a proof needs only what it keeps. -/
theorem Kept.cut {cv : List Block} {s : State} {P : Prop} (x : State) (h : Kept cv s x) (g : Kept cv s x → P) : P := g h
theorem Kept.cutFun {cv : List Block} {s : State} {P : Prop} (f : State → State) (h : ∀ u, Kept cv s u → Kept cv s (f u))
    (g : (∀ u, Kept cv s u → Kept cv s (f u)) → P) : P := g h
theorem Kept.cutFun3 {cv : List Block} {s : State} {P : Prop} {α β γ : Type} (f : α → β → State → State × γ)
    (h : ∀ a b u, Kept cv s u → Kept cv s (f a b u).1) (g : (∀ a b u, Kept cv s u → Kept cv s (f a b u).1) → P) : P := g h

theorem Kept.ite {cv : List Block} {s a b : State} {p : Prop} [Decidable p] (ha : Kept cv s a) (hb : Kept cv s b) :
    Kept cv s (if p then a else b) := by
  split <;> assumption

theorem Kept.foldl {cv : List Block} {s t : State} {α : Type} {f : State → α → State} {l : List α} (h : Kept cv s t)
    (hf : ∀ u x, Kept cv s u → Kept cv s (f u x)) : Kept cv s (l.foldl f t) := by
  induction l generalizing t with
  | nil => exact h
  | cons x xs ih => exact ih (hf t x h)

/-- A fold that carries a value beside the state. -/
theorem Kept.foldl_fst {cv : List Block} {s : State} {α β : Type} {f : State × β → α → State × β} {l : List α} {p : State × β}
    (h : Kept cv s p.1) (hf : ∀ q x, Kept cv s q.1 → Kept cv s (f q x).1) : Kept cv s (l.foldl f p).1 := by
  induction l generalizing p with
  | nil => exact h
  | cons x xs ih => exact ih (hf p x h)

theorem DrtKept.foldl {d e : Drt} {α : Type} {f : Drt → α → Drt} {l : List α} (h : DrtKept d e)
    (hf : ∀ u x, DrtKept d u → DrtKept d (f u x)) : DrtKept d (l.foldl f e) := by
  induction l generalizing e with
  | nil => exact h
  | cons x xs ih => exact ih (hf e x h)

theorem HstKept.foldl {d e : Hst} {α : Type} {f : Hst → α → Hst} {l : List α} (h : HstKept d e)
    (hf : ∀ u x, HstKept d u → HstKept d (f u x)) : HstKept d (l.foldl f e) := by
  induction l generalizing e with
  | nil => exact h
  | cons x xs ih => exact ih (hf e x h)

theorem FusKept.foldl {d e : Fus} {α : Type} {f : Fus → α → Fus} {l : List α} (h : FusKept d e)
    (hf : ∀ u x, FusKept d u → FusKept d (f u x)) : FusKept d (l.foldl f e) := by
  induction l generalizing e with
  | nil => exact h
  | cons x xs ih => exact ih (hf e x h)

/-- A change of one LD that keeps its pages' form. -/
theorem HstKept.ld {h : Hst} {n : Nat} {f : Ld → Ld} {ide inj links reqs}
    (hf : ∀ l, memWf l.pages = true → memWf (f l).pages = true) :
    HstKept h ⟨ide, inj, links, tmod {} n f h.lds, reqs⟩ := by
  refine ⟨fun m p hp => ?_⟩
  rcases mem_tset (show p ∈ tset n (f (tget {} h.lds n)) h.lds from hp) with rfl | hp
  · refine hf _ ?_
    cases e : tfind h.lds n with
    | none => simp [tget, e, memWf]
    | some l => simpa [tget, e] using m (n, l) (mem_of_tfind e)
  · exact m p hp

/-- What a meaning keeps: of its next state, where it has one. -/
structure KeptRes (cv : List Block) (s : State) (r : Res) : Prop where
  next : ∀ t, r = .next t → Kept cv s t

theorem KeptRes.of_next {cv : List Block} {s t : State} (h : Kept cv s t) : KeptRes cv s (.next t) := ⟨fun _ e => by cases e; exact h⟩

end Sys2Proof.Safety
end

