-- ==== Sys2Proof/Laws/KeptSet.lean ====
section
/-! SUPPORT. One lemma per group of blocks that a definition of the model updates together: such an update keeps `Kept`. -/

namespace Sys2Proof.Safety

-- The lemmas of this file are checked one after another, with few threads at a time.
set_option Elab.async false

open Sys2Proof.Machine

theorem Kept.set_uni {cv : List Block} {s u : State} {uni} (h : Kept cv s u)
    (hc : covers [.uni] cv = true := by exact covers_le (by assumption) rfl) :
    Kept cv s ⟨uni, u.fus, u.vq, u.mon, u.pwr, u.hst, u.mbx, u.ext, u.cdc, u.drt, u.hrd, u.wrn, u.eng, u.opq, u.lif, u.pnl, u.flt, u.out, u.free, u.pending⟩ :=
  h.upd (.refl _) (.of_eq rfl) (.of_eq rfl) (.of_eq rfl)

theorem Kept.set_uni_vq {cv : List Block} {s u : State} {uni} {vq : Vq} (h : Kept cv s u) (kvq : VqKept u.vq vq)
    (hc : covers [.uni, .vq] cv = true := by exact covers_le (by assumption) rfl) :
    Kept cv s ⟨uni, u.fus, vq, u.mon, u.pwr, u.hst, u.mbx, u.ext, u.cdc, u.drt, u.hrd, u.wrn, u.eng, u.opq, u.lif, u.pnl, u.flt, u.out, u.free, u.pending⟩ :=
  h.upd (.refl _) kvq (.of_eq rfl) (.of_eq rfl)

theorem Kept.set_uni_pwr_hst_eng_opq {cv : List Block} {s u : State} {uni pwr eng opq} {hst : Hst} (h : Kept cv s u) (khst : HstKept u.hst hst)
    (hc : covers [.uni, .pwr, .hst, .eng, .opq] cv = true := by exact covers_le (by assumption) rfl) :
    Kept cv s ⟨uni, u.fus, u.vq, u.mon, pwr, hst, u.mbx, u.ext, u.cdc, u.drt, u.hrd, u.wrn, eng, opq, u.lif, u.pnl, u.flt, u.out, u.free, u.pending⟩ :=
  h.upd (.refl _) (.of_eq rfl) (.of_eq rfl) khst

theorem Kept.set_uni_pwr_lif_pnl_flt {cv : List Block} {s u : State} {uni pwr lif pnl flt} (h : Kept cv s u)
    (hc : covers [.uni, .pwr, .lif, .pnl, .flt] cv = true := by exact covers_le (by assumption) rfl) :
    Kept cv s ⟨uni, u.fus, u.vq, u.mon, pwr, u.hst, u.mbx, u.ext, u.cdc, u.drt, u.hrd, u.wrn, u.eng, u.opq, lif, pnl, flt, u.out, u.free, u.pending⟩ :=
  h.upd (.refl _) (.of_eq rfl) (.of_eq rfl) (.of_eq rfl)

theorem Kept.set_uni_lif {cv : List Block} {s u : State} {uni lif} (h : Kept cv s u)
    (hc : covers [.uni, .lif] cv = true := by exact covers_le (by assumption) rfl) :
    Kept cv s ⟨uni, u.fus, u.vq, u.mon, u.pwr, u.hst, u.mbx, u.ext, u.cdc, u.drt, u.hrd, u.wrn, u.eng, u.opq, lif, u.pnl, u.flt, u.out, u.free, u.pending⟩ :=
  h.upd (.refl _) (.of_eq rfl) (.of_eq rfl) (.of_eq rfl)

theorem Kept.set_uni_lif_flt {cv : List Block} {s u : State} {uni lif flt} (h : Kept cv s u)
    (hc : covers [.uni, .lif, .flt] cv = true := by exact covers_le (by assumption) rfl) :
    Kept cv s ⟨uni, u.fus, u.vq, u.mon, u.pwr, u.hst, u.mbx, u.ext, u.cdc, u.drt, u.hrd, u.wrn, u.eng, u.opq, lif, u.pnl, flt, u.out, u.free, u.pending⟩ :=
  h.upd (.refl _) (.of_eq rfl) (.of_eq rfl) (.of_eq rfl)

theorem Kept.set_uni_pnl {cv : List Block} {s u : State} {uni pnl} (h : Kept cv s u)
    (hc : covers [.uni, .pnl] cv = true := by exact covers_le (by assumption) rfl) :
    Kept cv s ⟨uni, u.fus, u.vq, u.mon, u.pwr, u.hst, u.mbx, u.ext, u.cdc, u.drt, u.hrd, u.wrn, u.eng, u.opq, u.lif, pnl, u.flt, u.out, u.free, u.pending⟩ :=
  h.upd (.refl _) (.of_eq rfl) (.of_eq rfl) (.of_eq rfl)

theorem Kept.set_uni_flt {cv : List Block} {s u : State} {uni flt} (h : Kept cv s u)
    (hc : covers [.uni, .flt] cv = true := by exact covers_le (by assumption) rfl) :
    Kept cv s ⟨uni, u.fus, u.vq, u.mon, u.pwr, u.hst, u.mbx, u.ext, u.cdc, u.drt, u.hrd, u.wrn, u.eng, u.opq, u.lif, u.pnl, flt, u.out, u.free, u.pending⟩ :=
  h.upd (.refl _) (.of_eq rfl) (.of_eq rfl) (.of_eq rfl)

theorem Kept.set_fus {cv : List Block} {s u : State} {fus : Fus} (h : Kept cv s u) (kfus : FusKept u.fus fus)
    (hc : covers [.fus] cv = true := by exact covers_le (by assumption) rfl) :
    Kept cv s ⟨u.uni, fus, u.vq, u.mon, u.pwr, u.hst, u.mbx, u.ext, u.cdc, u.drt, u.hrd, u.wrn, u.eng, u.opq, u.lif, u.pnl, u.flt, u.out, u.free, u.pending⟩ :=
  h.upd kfus (.of_eq rfl) (.of_eq rfl) (.of_eq rfl)

theorem Kept.set_fus_vq_mon_pwr_hst_mbx_ext_cdc_drt_hrd_wrn_eng_lif_pnl_flt {cv : List Block} {s u : State} {mon pwr mbx ext cdc hrd wrn eng lif pnl flt} {fus : Fus} {vq : Vq} {hst : Hst} {drt : Drt} (h : Kept cv s u) (kfus : FusKept u.fus fus) (kvq : VqKept u.vq vq) (khst : HstKept u.hst hst) (kdrt : DrtKept u.drt drt)
    (hc : covers [.fus, .vq, .mon, .pwr, .hst, .mbx, .ext, .cdc, .drt, .hrd, .wrn, .eng, .lif, .pnl, .flt] cv = true := by exact covers_le (by assumption) rfl) :
    Kept cv s ⟨u.uni, fus, vq, mon, pwr, hst, mbx, ext, cdc, drt, hrd, wrn, eng, u.opq, lif, pnl, flt, u.out, u.free, u.pending⟩ :=
  h.upd kfus kvq kdrt khst

theorem Kept.set_fus_free {cv : List Block} {s u : State} {free} {fus : Fus} (h : Kept cv s u) (kfus : FusKept u.fus fus)
    (hc : covers [.fus, .free] cv = true := by exact covers_le (by assumption) rfl) :
    Kept cv s ⟨u.uni, fus, u.vq, u.mon, u.pwr, u.hst, u.mbx, u.ext, u.cdc, u.drt, u.hrd, u.wrn, u.eng, u.opq, u.lif, u.pnl, u.flt, u.out, free, u.pending⟩ :=
  h.upd kfus (.of_eq rfl) (.of_eq rfl) (.of_eq rfl)

theorem Kept.set_vq {cv : List Block} {s u : State} {vq : Vq} (h : Kept cv s u) (kvq : VqKept u.vq vq)
    (hc : covers [.vq] cv = true := by exact covers_le (by assumption) rfl) :
    Kept cv s ⟨u.uni, u.fus, vq, u.mon, u.pwr, u.hst, u.mbx, u.ext, u.cdc, u.drt, u.hrd, u.wrn, u.eng, u.opq, u.lif, u.pnl, u.flt, u.out, u.free, u.pending⟩ :=
  h.upd (.refl _) kvq (.of_eq rfl) (.of_eq rfl)

theorem Kept.set_vq_drt {cv : List Block} {s u : State} {vq : Vq} {drt : Drt} (h : Kept cv s u) (kvq : VqKept u.vq vq) (kdrt : DrtKept u.drt drt)
    (hc : covers [.vq, .drt] cv = true := by exact covers_le (by assumption) rfl) :
    Kept cv s ⟨u.uni, u.fus, vq, u.mon, u.pwr, u.hst, u.mbx, u.ext, u.cdc, drt, u.hrd, u.wrn, u.eng, u.opq, u.lif, u.pnl, u.flt, u.out, u.free, u.pending⟩ :=
  h.upd (.refl _) kvq kdrt (.of_eq rfl)

theorem Kept.set_mon {cv : List Block} {s u : State} {mon} (h : Kept cv s u)
    (hc : covers [.mon] cv = true := by exact covers_le (by assumption) rfl) :
    Kept cv s ⟨u.uni, u.fus, u.vq, mon, u.pwr, u.hst, u.mbx, u.ext, u.cdc, u.drt, u.hrd, u.wrn, u.eng, u.opq, u.lif, u.pnl, u.flt, u.out, u.free, u.pending⟩ :=
  h.upd (.refl _) (.of_eq rfl) (.of_eq rfl) (.of_eq rfl)

theorem Kept.set_mon_pwr {cv : List Block} {s u : State} {mon pwr} (h : Kept cv s u)
    (hc : covers [.mon, .pwr] cv = true := by exact covers_le (by assumption) rfl) :
    Kept cv s ⟨u.uni, u.fus, u.vq, mon, pwr, u.hst, u.mbx, u.ext, u.cdc, u.drt, u.hrd, u.wrn, u.eng, u.opq, u.lif, u.pnl, u.flt, u.out, u.free, u.pending⟩ :=
  h.upd (.refl _) (.of_eq rfl) (.of_eq rfl) (.of_eq rfl)

theorem Kept.set_mon_wrn {cv : List Block} {s u : State} {mon wrn} (h : Kept cv s u)
    (hc : covers [.mon, .wrn] cv = true := by exact covers_le (by assumption) rfl) :
    Kept cv s ⟨u.uni, u.fus, u.vq, mon, u.pwr, u.hst, u.mbx, u.ext, u.cdc, u.drt, u.hrd, wrn, u.eng, u.opq, u.lif, u.pnl, u.flt, u.out, u.free, u.pending⟩ :=
  h.upd (.refl _) (.of_eq rfl) (.of_eq rfl) (.of_eq rfl)

theorem Kept.set_mon_lif {cv : List Block} {s u : State} {mon lif} (h : Kept cv s u)
    (hc : covers [.mon, .lif] cv = true := by exact covers_le (by assumption) rfl) :
    Kept cv s ⟨u.uni, u.fus, u.vq, mon, u.pwr, u.hst, u.mbx, u.ext, u.cdc, u.drt, u.hrd, u.wrn, u.eng, u.opq, lif, u.pnl, u.flt, u.out, u.free, u.pending⟩ :=
  h.upd (.refl _) (.of_eq rfl) (.of_eq rfl) (.of_eq rfl)

theorem Kept.set_mon_pnl {cv : List Block} {s u : State} {mon pnl} (h : Kept cv s u)
    (hc : covers [.mon, .pnl] cv = true := by exact covers_le (by assumption) rfl) :
    Kept cv s ⟨u.uni, u.fus, u.vq, mon, u.pwr, u.hst, u.mbx, u.ext, u.cdc, u.drt, u.hrd, u.wrn, u.eng, u.opq, u.lif, pnl, u.flt, u.out, u.free, u.pending⟩ :=
  h.upd (.refl _) (.of_eq rfl) (.of_eq rfl) (.of_eq rfl)

theorem Kept.set_pwr {cv : List Block} {s u : State} {pwr} (h : Kept cv s u)
    (hc : covers [.pwr] cv = true := by exact covers_le (by assumption) rfl) :
    Kept cv s ⟨u.uni, u.fus, u.vq, u.mon, pwr, u.hst, u.mbx, u.ext, u.cdc, u.drt, u.hrd, u.wrn, u.eng, u.opq, u.lif, u.pnl, u.flt, u.out, u.free, u.pending⟩ :=
  h.upd (.refl _) (.of_eq rfl) (.of_eq rfl) (.of_eq rfl)

theorem Kept.set_pwr_cdc {cv : List Block} {s u : State} {pwr cdc} (h : Kept cv s u)
    (hc : covers [.pwr, .cdc] cv = true := by exact covers_le (by assumption) rfl) :
    Kept cv s ⟨u.uni, u.fus, u.vq, u.mon, pwr, u.hst, u.mbx, u.ext, cdc, u.drt, u.hrd, u.wrn, u.eng, u.opq, u.lif, u.pnl, u.flt, u.out, u.free, u.pending⟩ :=
  h.upd (.refl _) (.of_eq rfl) (.of_eq rfl) (.of_eq rfl)

theorem Kept.set_pwr_drt_hrd {cv : List Block} {s u : State} {pwr hrd} {drt : Drt} (h : Kept cv s u) (kdrt : DrtKept u.drt drt)
    (hc : covers [.pwr, .drt, .hrd] cv = true := by exact covers_le (by assumption) rfl) :
    Kept cv s ⟨u.uni, u.fus, u.vq, u.mon, pwr, u.hst, u.mbx, u.ext, u.cdc, drt, hrd, u.wrn, u.eng, u.opq, u.lif, u.pnl, u.flt, u.out, u.free, u.pending⟩ :=
  h.upd (.refl _) (.of_eq rfl) kdrt (.of_eq rfl)

theorem Kept.set_pwr_hrd {cv : List Block} {s u : State} {pwr hrd} (h : Kept cv s u)
    (hc : covers [.pwr, .hrd] cv = true := by exact covers_le (by assumption) rfl) :
    Kept cv s ⟨u.uni, u.fus, u.vq, u.mon, pwr, u.hst, u.mbx, u.ext, u.cdc, u.drt, hrd, u.wrn, u.eng, u.opq, u.lif, u.pnl, u.flt, u.out, u.free, u.pending⟩ :=
  h.upd (.refl _) (.of_eq rfl) (.of_eq rfl) (.of_eq rfl)

theorem Kept.set_pwr_lif {cv : List Block} {s u : State} {pwr lif} (h : Kept cv s u)
    (hc : covers [.pwr, .lif] cv = true := by exact covers_le (by assumption) rfl) :
    Kept cv s ⟨u.uni, u.fus, u.vq, u.mon, pwr, u.hst, u.mbx, u.ext, u.cdc, u.drt, u.hrd, u.wrn, u.eng, u.opq, lif, u.pnl, u.flt, u.out, u.free, u.pending⟩ :=
  h.upd (.refl _) (.of_eq rfl) (.of_eq rfl) (.of_eq rfl)

theorem Kept.set_hst {cv : List Block} {s u : State} {hst : Hst} (h : Kept cv s u) (khst : HstKept u.hst hst)
    (hc : covers [.hst] cv = true := by exact covers_le (by assumption) rfl) :
    Kept cv s ⟨u.uni, u.fus, u.vq, u.mon, u.pwr, hst, u.mbx, u.ext, u.cdc, u.drt, u.hrd, u.wrn, u.eng, u.opq, u.lif, u.pnl, u.flt, u.out, u.free, u.pending⟩ :=
  h.upd (.refl _) (.of_eq rfl) (.of_eq rfl) khst

theorem Kept.set_hst_flt {cv : List Block} {s u : State} {flt} {hst : Hst} (h : Kept cv s u) (khst : HstKept u.hst hst)
    (hc : covers [.hst, .flt] cv = true := by exact covers_le (by assumption) rfl) :
    Kept cv s ⟨u.uni, u.fus, u.vq, u.mon, u.pwr, hst, u.mbx, u.ext, u.cdc, u.drt, u.hrd, u.wrn, u.eng, u.opq, u.lif, u.pnl, flt, u.out, u.free, u.pending⟩ :=
  h.upd (.refl _) (.of_eq rfl) (.of_eq rfl) khst

theorem Kept.set_mbx {cv : List Block} {s u : State} {mbx} (h : Kept cv s u)
    (hc : covers [.mbx] cv = true := by exact covers_le (by assumption) rfl) :
    Kept cv s ⟨u.uni, u.fus, u.vq, u.mon, u.pwr, u.hst, mbx, u.ext, u.cdc, u.drt, u.hrd, u.wrn, u.eng, u.opq, u.lif, u.pnl, u.flt, u.out, u.free, u.pending⟩ :=
  h.upd (.refl _) (.of_eq rfl) (.of_eq rfl) (.of_eq rfl)

theorem Kept.set_ext {cv : List Block} {s u : State} {ext} (h : Kept cv s u)
    (hc : covers [.ext] cv = true := by exact covers_le (by assumption) rfl) :
    Kept cv s ⟨u.uni, u.fus, u.vq, u.mon, u.pwr, u.hst, u.mbx, ext, u.cdc, u.drt, u.hrd, u.wrn, u.eng, u.opq, u.lif, u.pnl, u.flt, u.out, u.free, u.pending⟩ :=
  h.upd (.refl _) (.of_eq rfl) (.of_eq rfl) (.of_eq rfl)

theorem Kept.set_ext_cdc_drt_hrd {cv : List Block} {s u : State} {ext cdc hrd} {drt : Drt} (h : Kept cv s u) (kdrt : DrtKept u.drt drt)
    (hc : covers [.ext, .cdc, .drt, .hrd] cv = true := by exact covers_le (by assumption) rfl) :
    Kept cv s ⟨u.uni, u.fus, u.vq, u.mon, u.pwr, u.hst, u.mbx, ext, cdc, drt, hrd, u.wrn, u.eng, u.opq, u.lif, u.pnl, u.flt, u.out, u.free, u.pending⟩ :=
  h.upd (.refl _) (.of_eq rfl) kdrt (.of_eq rfl)

theorem Kept.set_cdc {cv : List Block} {s u : State} {cdc} (h : Kept cv s u)
    (hc : covers [.cdc] cv = true := by exact covers_le (by assumption) rfl) :
    Kept cv s ⟨u.uni, u.fus, u.vq, u.mon, u.pwr, u.hst, u.mbx, u.ext, cdc, u.drt, u.hrd, u.wrn, u.eng, u.opq, u.lif, u.pnl, u.flt, u.out, u.free, u.pending⟩ :=
  h.upd (.refl _) (.of_eq rfl) (.of_eq rfl) (.of_eq rfl)

theorem Kept.set_cdc_drt {cv : List Block} {s u : State} {cdc} {drt : Drt} (h : Kept cv s u) (kdrt : DrtKept u.drt drt)
    (hc : covers [.cdc, .drt] cv = true := by exact covers_le (by assumption) rfl) :
    Kept cv s ⟨u.uni, u.fus, u.vq, u.mon, u.pwr, u.hst, u.mbx, u.ext, cdc, drt, u.hrd, u.wrn, u.eng, u.opq, u.lif, u.pnl, u.flt, u.out, u.free, u.pending⟩ :=
  h.upd (.refl _) (.of_eq rfl) kdrt (.of_eq rfl)

theorem Kept.set_cdc_drt_hrd {cv : List Block} {s u : State} {cdc hrd} {drt : Drt} (h : Kept cv s u) (kdrt : DrtKept u.drt drt)
    (hc : covers [.cdc, .drt, .hrd] cv = true := by exact covers_le (by assumption) rfl) :
    Kept cv s ⟨u.uni, u.fus, u.vq, u.mon, u.pwr, u.hst, u.mbx, u.ext, cdc, drt, hrd, u.wrn, u.eng, u.opq, u.lif, u.pnl, u.flt, u.out, u.free, u.pending⟩ :=
  h.upd (.refl _) (.of_eq rfl) kdrt (.of_eq rfl)

theorem Kept.set_drt {cv : List Block} {s u : State} {drt : Drt} (h : Kept cv s u) (kdrt : DrtKept u.drt drt)
    (hc : covers [.drt] cv = true := by exact covers_le (by assumption) rfl) :
    Kept cv s ⟨u.uni, u.fus, u.vq, u.mon, u.pwr, u.hst, u.mbx, u.ext, u.cdc, drt, u.hrd, u.wrn, u.eng, u.opq, u.lif, u.pnl, u.flt, u.out, u.free, u.pending⟩ :=
  h.upd (.refl _) (.of_eq rfl) kdrt (.of_eq rfl)

theorem Kept.set_drt_hrd {cv : List Block} {s u : State} {hrd} {drt : Drt} (h : Kept cv s u) (kdrt : DrtKept u.drt drt)
    (hc : covers [.drt, .hrd] cv = true := by exact covers_le (by assumption) rfl) :
    Kept cv s ⟨u.uni, u.fus, u.vq, u.mon, u.pwr, u.hst, u.mbx, u.ext, u.cdc, drt, hrd, u.wrn, u.eng, u.opq, u.lif, u.pnl, u.flt, u.out, u.free, u.pending⟩ :=
  h.upd (.refl _) (.of_eq rfl) kdrt (.of_eq rfl)

theorem Kept.set_drt_out {cv : List Block} {s u : State} {out} {drt : Drt} (h : Kept cv s u) (kdrt : DrtKept u.drt drt)
    (hc : covers [.drt, .out] cv = true := by exact covers_le (by assumption) rfl) :
    Kept cv s ⟨u.uni, u.fus, u.vq, u.mon, u.pwr, u.hst, u.mbx, u.ext, u.cdc, drt, u.hrd, u.wrn, u.eng, u.opq, u.lif, u.pnl, u.flt, out, u.free, u.pending⟩ :=
  h.upd (.refl _) (.of_eq rfl) kdrt (.of_eq rfl)

theorem Kept.set_hrd {cv : List Block} {s u : State} {hrd} (h : Kept cv s u)
    (hc : covers [.hrd] cv = true := by exact covers_le (by assumption) rfl) :
    Kept cv s ⟨u.uni, u.fus, u.vq, u.mon, u.pwr, u.hst, u.mbx, u.ext, u.cdc, u.drt, hrd, u.wrn, u.eng, u.opq, u.lif, u.pnl, u.flt, u.out, u.free, u.pending⟩ :=
  h.upd (.refl _) (.of_eq rfl) (.of_eq rfl) (.of_eq rfl)

theorem Kept.set_hrd_lif {cv : List Block} {s u : State} {hrd lif} (h : Kept cv s u)
    (hc : covers [.hrd, .lif] cv = true := by exact covers_le (by assumption) rfl) :
    Kept cv s ⟨u.uni, u.fus, u.vq, u.mon, u.pwr, u.hst, u.mbx, u.ext, u.cdc, u.drt, hrd, u.wrn, u.eng, u.opq, lif, u.pnl, u.flt, u.out, u.free, u.pending⟩ :=
  h.upd (.refl _) (.of_eq rfl) (.of_eq rfl) (.of_eq rfl)

theorem Kept.set_wrn {cv : List Block} {s u : State} {wrn} (h : Kept cv s u)
    (hc : covers [.wrn] cv = true := by exact covers_le (by assumption) rfl) :
    Kept cv s ⟨u.uni, u.fus, u.vq, u.mon, u.pwr, u.hst, u.mbx, u.ext, u.cdc, u.drt, u.hrd, wrn, u.eng, u.opq, u.lif, u.pnl, u.flt, u.out, u.free, u.pending⟩ :=
  h.upd (.refl _) (.of_eq rfl) (.of_eq rfl) (.of_eq rfl)

theorem Kept.set_eng {cv : List Block} {s u : State} {eng} (h : Kept cv s u)
    (hc : covers [.eng] cv = true := by exact covers_le (by assumption) rfl) :
    Kept cv s ⟨u.uni, u.fus, u.vq, u.mon, u.pwr, u.hst, u.mbx, u.ext, u.cdc, u.drt, u.hrd, u.wrn, eng, u.opq, u.lif, u.pnl, u.flt, u.out, u.free, u.pending⟩ :=
  h.upd (.refl _) (.of_eq rfl) (.of_eq rfl) (.of_eq rfl)

theorem Kept.set_eng_opq {cv : List Block} {s u : State} {eng opq} (h : Kept cv s u)
    (hc : covers [.eng, .opq] cv = true := by exact covers_le (by assumption) rfl) :
    Kept cv s ⟨u.uni, u.fus, u.vq, u.mon, u.pwr, u.hst, u.mbx, u.ext, u.cdc, u.drt, u.hrd, u.wrn, eng, opq, u.lif, u.pnl, u.flt, u.out, u.free, u.pending⟩ :=
  h.upd (.refl _) (.of_eq rfl) (.of_eq rfl) (.of_eq rfl)

theorem Kept.set_opq {cv : List Block} {s u : State} {opq} (h : Kept cv s u)
    (hc : covers [.opq] cv = true := by exact covers_le (by assumption) rfl) :
    Kept cv s ⟨u.uni, u.fus, u.vq, u.mon, u.pwr, u.hst, u.mbx, u.ext, u.cdc, u.drt, u.hrd, u.wrn, u.eng, opq, u.lif, u.pnl, u.flt, u.out, u.free, u.pending⟩ :=
  h.upd (.refl _) (.of_eq rfl) (.of_eq rfl) (.of_eq rfl)

theorem Kept.set_lif {cv : List Block} {s u : State} {lif} (h : Kept cv s u)
    (hc : covers [.lif] cv = true := by exact covers_le (by assumption) rfl) :
    Kept cv s ⟨u.uni, u.fus, u.vq, u.mon, u.pwr, u.hst, u.mbx, u.ext, u.cdc, u.drt, u.hrd, u.wrn, u.eng, u.opq, lif, u.pnl, u.flt, u.out, u.free, u.pending⟩ :=
  h.upd (.refl _) (.of_eq rfl) (.of_eq rfl) (.of_eq rfl)

theorem Kept.set_pnl {cv : List Block} {s u : State} {pnl} (h : Kept cv s u)
    (hc : covers [.pnl] cv = true := by exact covers_le (by assumption) rfl) :
    Kept cv s ⟨u.uni, u.fus, u.vq, u.mon, u.pwr, u.hst, u.mbx, u.ext, u.cdc, u.drt, u.hrd, u.wrn, u.eng, u.opq, u.lif, pnl, u.flt, u.out, u.free, u.pending⟩ :=
  h.upd (.refl _) (.of_eq rfl) (.of_eq rfl) (.of_eq rfl)

theorem Kept.set_flt {cv : List Block} {s u : State} {flt} (h : Kept cv s u)
    (hc : covers [.flt] cv = true := by exact covers_le (by assumption) rfl) :
    Kept cv s ⟨u.uni, u.fus, u.vq, u.mon, u.pwr, u.hst, u.mbx, u.ext, u.cdc, u.drt, u.hrd, u.wrn, u.eng, u.opq, u.lif, u.pnl, flt, u.out, u.free, u.pending⟩ :=
  h.upd (.refl _) (.of_eq rfl) (.of_eq rfl) (.of_eq rfl)

theorem Kept.set_out {cv : List Block} {s u : State} {out} (h : Kept cv s u)
    (hc : covers [.out] cv = true := by exact covers_le (by assumption) rfl) :
    Kept cv s ⟨u.uni, u.fus, u.vq, u.mon, u.pwr, u.hst, u.mbx, u.ext, u.cdc, u.drt, u.hrd, u.wrn, u.eng, u.opq, u.lif, u.pnl, u.flt, out, u.free, u.pending⟩ :=
  h.upd (.refl _) (.of_eq rfl) (.of_eq rfl) (.of_eq rfl)

theorem Kept.set_free {cv : List Block} {s u : State} {free} (h : Kept cv s u)
    (hc : covers [.free] cv = true := by exact covers_le (by assumption) rfl) :
    Kept cv s ⟨u.uni, u.fus, u.vq, u.mon, u.pwr, u.hst, u.mbx, u.ext, u.cdc, u.drt, u.hrd, u.wrn, u.eng, u.opq, u.lif, u.pnl, u.flt, u.out, free, u.pending⟩ :=
  h.upd (.refl _) (.of_eq rfl) (.of_eq rfl) (.of_eq rfl)

end Sys2Proof.Safety
end

