-- ==== Sys2Proof/Laws/KeptOps.lean ====
section
/-! SUPPORT. What the definitions of Machine/Ops.lean keep: one lemma per definition, from any earlier state. -/

namespace Sys2Proof.Safety

-- The lemmas of this file are checked one after another, with few threads at a time.
set_option Elab.async false

open Sys2Proof.Machine

theorem emit_kept {cv : List Block} {s0 : State} (o : Out) (s : State) (hk0 : Kept cv s0 s)
    (hc : covers [.out] cv = true := by exact covers_le (by assumption) rfl) :
    Kept cv s0 (emit o s) := by
  unfold emit
  repeat' first
    | exact covers_le hc rfl
    | with_reducible first
      | assumption | refine Kept.set_out ?_ (hc := ?_)

theorem draw_kept {cv : List Block} {s0 : State} (s : State) (hk0 : Kept cv s0 s)
    (hc : covers [.free] cv = true := by exact covers_le (by assumption) rfl) :
    Kept cv s0 (draw s) := by
  unfold draw
  repeat' first
    | exact covers_le hc rfl
    | with_reducible first
      | assumption | refine Kept.set_free ?_ (hc := ?_)

theorem msixHst_kept {b0 : Hst} (h : Hst) (ld v : Nat) (hk0 : HstKept b0 h) : HstKept b0 (msixHst h ld v) := by
  unfold msixHst
  split
  · exact hk0.trans (.ld fun _ h => h)
  · exact hk0

theorem sendMsix_kept {cv : List Block} {s0 : State} (ld v : Nat) (s : State) (hk0 : Kept cv s0 s)
    (hc : covers [.hst, .out] cv = true := by exact covers_le (by assumption) rfl) :
    Kept cv s0 (sendMsix ld v s) :=
  Kept.upd hk0 (.refl _) (.of_eq rfl) (.of_eq rfl) (msixHst_kept _ _ _ (.of_eq rfl))

theorem writeRec_kept {cv : List Block} {s0 : State} (r : EventRec) (s : State) (hk0 : Kept cv s0 s)
    (hc : covers [.hst, .flt, .out] cv = true := by exact covers_le (by assumption) rfl) :
    Kept cv s0 (writeRec r s) :=
  Kept.upd hk0 (.refl _) (.of_eq rfl) (.of_eq rfl) (HstKept.foldl (.of_eq rfl) fun _ _ h => msixHst_kept _ _ _ h)

theorem record_kept {cv : List Block} {s0 : State} (e : Ev) (s : State) (hk0 : Kept cv s0 s)
    (hc : covers [.hst, .flt, .out] cv = true := by exact covers_le (by assumption) rfl) :
    Kept cv s0 (record e s) := by
  unfold record
  repeat' first
    | exact covers_le hc rfl
    | with_reducible first
      | assumption | apply writeRec_kept | intro _ | split | refine Kept.set_flt ?_ (hc := ?_)

theorem moveTo_kept {cv : List Block} {s0 : State} (st : UnitState) (cause d0 : Nat) (s : State) (hk0 : Kept cv s0 s)
    (hc : covers [.uni, .hst, .flt, .out] cv = true := by exact covers_le (by assumption) rfl) :
    Kept cv s0 (moveTo st cause d0 s) := by
  unfold moveTo
  repeat' first
    | exact covers_le hc rfl
    | with_reducible first
      | assumption | apply record_kept | split | refine Kept.set_uni ?_ (hc := ?_)

theorem enterFaulted_kept {cv : List Block} {s0 : State} (cause : Nat) (s : State) (hk0 : Kept cv s0 s)
    (hc : covers [.uni, .pwr, .hst, .eng, .opq, .flt, .out] cv = true := by exact covers_le (by assumption) rfl) :
    Kept cv s0 (enterFaulted cause s) := by
  unfold enterFaulted
  repeat' first
    | exact covers_le hc rfl
    | with_reducible first
      | assumption | apply moveTo_kept | intro _ | split | refine Kept.set_uni_pwr_hst_eng_opq ?_ (.of_eq rfl) (hc := ?_)

theorem enterHeldFault_kept {cv : List Block} {s0 : State} (cause : Nat) (s : State) (hk0 : Kept cv s0 s)
    (hc : covers [.uni, .hst, .flt, .out] cv = true := by exact covers_le (by assumption) rfl) :
    Kept cv s0 (enterHeldFault cause s) := by
  unfold enterHeldFault
  repeat' first
    | exact covers_le hc rfl
    | with_reducible first
      | assumption | apply moveTo_kept | split | refine Kept.set_flt ?_ (hc := ?_) | refine Kept.set_uni_flt ?_ (hc := ?_)

theorem drainFault_kept {cv : List Block} {s0 : State} (cause : Nat) (s : State) (hk0 : Kept cv s0 s)
    (hc : covers [.uni, .pwr, .hst, .eng, .opq, .flt, .out] cv = true := by exact covers_le (by assumption) rfl) :
    Kept cv s0 (drainFault cause s) := by
  unfold drainFault
  repeat' first
    | exact covers_le hc rfl
    | with_reducible first
      | assumption | apply enterFaulted_kept | apply moveTo_kept | split | refine Kept.set_uni ?_ (hc := ?_)

theorem dispose_kept {cv : List Block} {s0 : State} (disp cause : Nat) (s : State) (hk0 : Kept cv s0 s)
    (hc : covers [.uni, .pwr, .hst, .eng, .opq, .flt, .out] cv = true := by exact covers_le (by assumption) rfl) :
    Kept cv s0 (dispose disp cause s) := by
  unfold dispose
  repeat' first
    | exact covers_le hc rfl
    | with_reducible first
      | assumption | apply enterHeldFault_kept | apply drainFault_kept | apply enterFaulted_kept | split
      | refine Kept.set_flt ?_ (hc := ?_)

theorem raise_kept {cv : List Block} {s0 : State} (e : Ev) (s : State) (hk0 : Kept cv s0 s)
    (hc : covers [.uni, .pwr, .hst, .eng, .opq, .flt, .out] cv = true := by exact covers_le (by assumption) rfl) :
    Kept cv s0 (raise e s) := by
  unfold raise
  repeat' first
    | exact covers_le hc rfl
    | with_reducible first
      | assumption | apply dispose_kept | apply record_kept

/-- An event without a disposition is recorded, and nothing else happens. -/
theorem note_kept {cv : List Block} {s0 : State} (e : Ev) (s : State) (hk0 : Kept cv s0 s)
    (hc : covers [.hst, .flt, .out] cv = true := by exact covers_le (by assumption) rfl)
    (hd : (codeRow e.code e.cls).2 = 0 := by rfl) : Kept cv s0 (raise e s) := by
  rw [raise, hd]
  exact record_kept e s hk0 hc

theorem raiseGen_kept {cv : List Block} {s0 : State} (blk cls : Nat) (e : Ev) (s : State) (hk0 : Kept cv s0 s)
    (hc : covers [.uni, .pwr, .hst, .eng, .opq, .flt, .out] cv = true := by exact covers_le (by assumption) rfl) :
    Kept cv s0 (raiseGen blk cls e s) := by
  unfold raiseGen
  repeat' first
    | exact covers_le hc rfl
    | with_reducible first
      | assumption | apply raise_kept

theorem noteGen_kept {cv : List Block} {s0 : State} (blk cls : Nat) (e : Ev) (s : State) (hk0 : Kept cv s0 s)
    (hc : covers [.hst, .flt, .out] cv = true := by exact covers_le (by assumption) rfl)
    (hd : (codeRow (blk * 256 + 0xFF) cls).2 = 0 := by rfl) : Kept cv s0 (raiseGen blk cls e s) :=
  note_kept _ s hk0 hc hd

theorem writeIgnored_kept {cv : List Block} {s0 : State} (off : Nat) (bar0 : Option Nat) (val : Nat) (s : State) (hk0 : Kept cv s0 s)
    (hc : covers [.hst, .flt, .out] cv = true := by exact covers_le (by assumption) rfl) :
    Kept cv s0 (writeIgnored off bar0 val s) := by
  unfold writeIgnored
  repeat' first
    | exact covers_le hc rfl
    | with_reducible first
      | assumption | refine note_kept _ _ ?_ (hc := ?_) (hd := by with_unfolding_all rfl)

theorem onMbx_kept {cv : List Block} {s0 : State} (f : Mbx → Mbx) (s : State) (hk0 : Kept cv s0 s)
    (hc : covers [.mbx] cv = true := by exact covers_le (by assumption) rfl) :
    Kept cv s0 (onMbx f s) := by
  unfold onMbx
  repeat' first
    | exact covers_le hc rfl
    | with_reducible first
      | assumption | refine Kept.set_mbx ?_ (hc := ?_)

theorem onExt_kept {cv : List Block} {s0 : State} (f : Ext → Ext) (s : State) (hk0 : Kept cv s0 s)
    (hc : covers [.ext] cv = true := by exact covers_le (by assumption) rfl) :
    Kept cv s0 (onExt f s) := by
  unfold onExt
  repeat' first
    | exact covers_le hc rfl
    | with_reducible first
      | assumption | refine Kept.set_ext ?_ (hc := ?_)

theorem onHrd_kept {cv : List Block} {s0 : State} (f : Hrd → Hrd) (s : State) (hk0 : Kept cv s0 s)
    (hc : covers [.hrd] cv = true := by exact covers_le (by assumption) rfl) :
    Kept cv s0 (onHrd f s) := by
  unfold onHrd
  repeat' first
    | exact covers_le hc rfl
    | with_reducible first
      | assumption | refine Kept.set_hrd ?_ (hc := ?_)

theorem onWrn_kept {cv : List Block} {s0 : State} (f : Wrn → Wrn) (s : State) (hk0 : Kept cv s0 s)
    (hc : covers [.wrn] cv = true := by exact covers_le (by assumption) rfl) :
    Kept cv s0 (onWrn f s) := by
  unfold onWrn
  repeat' first
    | exact covers_le hc rfl
    | with_reducible first
      | assumption | refine Kept.set_wrn ?_ (hc := ?_)

theorem onEng_kept {cv : List Block} {s0 : State} (f : Eng → Eng) (s : State) (hk0 : Kept cv s0 s)
    (hc : covers [.eng] cv = true := by exact covers_le (by assumption) rfl) :
    Kept cv s0 (onEng f s) := by
  unfold onEng
  repeat' first
    | exact covers_le hc rfl
    | with_reducible first
      | assumption | refine Kept.set_eng ?_ (hc := ?_)

theorem onOpq_kept {cv : List Block} {s0 : State} (f : Opq → Opq) (s : State) (hk0 : Kept cv s0 s)
    (hc : covers [.opq] cv = true := by exact covers_le (by assumption) rfl) :
    Kept cv s0 (onOpq f s) := by
  unfold onOpq
  repeat' first
    | exact covers_le hc rfl
    | with_reducible first
      | assumption | refine Kept.set_opq ?_ (hc := ?_)

theorem onPwr_kept {cv : List Block} {s0 : State} (f : Pwr → Pwr) (s : State) (hk0 : Kept cv s0 s)
    (hc : covers [.pwr] cv = true := by exact covers_le (by assumption) rfl) :
    Kept cv s0 (onPwr f s) := by
  unfold onPwr
  repeat' first
    | exact covers_le hc rfl
    | with_reducible first
      | assumption | refine Kept.set_pwr ?_ (hc := ?_)

theorem onLif_kept {cv : List Block} {s0 : State} (f : Lif → Lif) (s : State) (hk0 : Kept cv s0 s)
    (hc : covers [.lif] cv = true := by exact covers_le (by assumption) rfl) :
    Kept cv s0 (onLif f s) := by
  unfold onLif
  repeat' first
    | exact covers_le hc rfl
    | with_reducible first
      | assumption | split | refine Kept.set_lif ?_ (hc := ?_)

theorem onPnl_kept {cv : List Block} {s0 : State} (f : Pnl → Pnl) (s : State) (hk0 : Kept cv s0 s)
    (hc : covers [.pnl] cv = true := by exact covers_le (by assumption) rfl) :
    Kept cv s0 (onPnl f s) := by
  unfold onPnl
  repeat' first
    | exact covers_le hc rfl
    | with_reducible first
      | assumption | refine Kept.set_pnl ?_ (hc := ?_)

theorem onFlt_kept {cv : List Block} {s0 : State} (f : Flt → Flt) (s : State) (hk0 : Kept cv s0 s)
    (hc : covers [.flt] cv = true := by exact covers_le (by assumption) rfl) :
    Kept cv s0 (onFlt f s) := by
  unfold onFlt
  repeat' first
    | exact covers_le hc rfl
    | with_reducible first
      | assumption | refine Kept.set_flt ?_ (hc := ?_)

theorem onUni_kept {cv : List Block} {s0 : State} (f : Uni → Uni) (s : State) (hk0 : Kept cv s0 s)
    (hc : covers [.uni] cv = true := by exact covers_le (by assumption) rfl) :
    Kept cv s0 (onUni f s) := by
  unfold onUni
  repeat' first
    | exact covers_le hc rfl
    | with_reducible first
      | assumption | refine Kept.set_uni ?_ (hc := ?_)

theorem onCdc_kept {cv : List Block} {s0 : State} (f : Cdc → Cdc) (s : State) (hk0 : Kept cv s0 s)
    (hc : covers [.cdc] cv = true := by exact covers_le (by assumption) rfl) :
    Kept cv s0 (onCdc f s) := by
  unfold onCdc
  repeat' first
    | exact covers_le hc rfl
    | with_reducible first
      | assumption | refine Kept.set_cdc ?_ (hc := ?_)

theorem onMon_kept {cv : List Block} {s0 : State} (f : Mon → Mon) (s : State) (hk0 : Kept cv s0 s)
    (hc : covers [.mon] cv = true := by exact covers_le (by assumption) rfl) :
    Kept cv s0 (onMon f s) := by
  unfold onMon
  repeat' first
    | exact covers_le hc rfl
    | with_reducible first
      | assumption | refine Kept.set_mon ?_ (hc := ?_)

theorem when'_kept {cv : List Block} {s0 : State} (c : Bool) (f : State → State) (s : State) (hf : ∀ u, Kept cv s0 u → Kept cv s0 (f u)) (hk0 : Kept cv s0 s)
    (hc : covers [] cv = true := by exact covers_le (by assumption) rfl) :
    Kept cv s0 (when' c f s) := by
  unfold when'
  repeat' first
    | exact covers_le hc rfl
    | with_reducible first
      | assumption | apply hf | intro _ | split

end Sys2Proof.Safety
end

