-- ==== Sys2Proof/Laws/KeptSend.lean ====
section
/-! SUPPORT. What the definitions of Machine/Send.lean keep: one lemma per definition, from any earlier state. -/

namespace Sys2Proof.Safety

-- The lemmas of this file are checked one after another, with few threads at a time.
set_option Elab.async false

open Sys2Proof.Machine

theorem onPort_kept {cv : List Block} {s0 : State} (n : Nat) (f : Port → Port) (s : State) (hk0 : Kept cv s0 s)
    (hc : covers [.wrn] cv = true := by exact covers_le (by assumption) rfl) :
    Kept cv s0 (onPort n f s) := by
  unfold onPort
  repeat' first
    | exact covers_le hc rfl
    | with_reducible first
      | assumption | refine Kept.set_wrn ?_ (hc := ?_)

theorem putFlits_kept {cv : List Block} {s0 : State} (n : Nat) (fs : List TxFlit) (s : State) (hk0 : Kept cv s0 s)
    (hc : covers [.wrn, .out] cv = true := by exact covers_le (by assumption) rfl) :
    Kept cv s0 (putFlits n fs s) := by
  unfold putFlits
  repeat' first
    | exact covers_le hc rfl
    | with_reducible first
      | assumption | apply onPort_kept | intro _
      | ((fail_if_no_progress (extract_lets +onlyGivenNames x)); refine Kept.cut (cv := cv) (s := s0) x ?_ (fun hx => ?_) <;> [dsimp -zeta only [x]; clear_value x])
      | split | refine Kept.set_out ?_ (hc := ?_)

theorem launch_kept {cv : List Block} {s0 : State} (n : Nat) (e : Envelope) (s : State) (hk0 : Kept cv s0 s)
    (hc : covers [.wrn, .out] cv = true := by exact covers_le (by assumption) rfl) :
    Kept cv s0 (launch n e s) := by
  unfold launch
  dsimp only
  repeat' first
    | exact covers_le hc rfl
    | with_reducible first
      | assumption | apply emit_kept | apply putFlits_kept | apply onPort_kept | intro _ | split

theorem waitPort_kept {cv : List Block} {s0 : State} (x : Waiting) (s : State) (hk0 : Kept cv s0 s)
    (hc : covers [.wrn] cv = true := by exact covers_le (by assumption) rfl) :
    Kept cv s0 (waitPort x s) := by
  unfold waitPort
  repeat' first
    | exact covers_le hc rfl
    | with_reducible first
      | assumption | refine Kept.set_wrn ?_ (hc := ?_)

theorem post_kept {cv : List Block} {s0 : State} (n : Nat) (arrived : Ns) (e : Envelope) (s : State) (hk0 : Kept cv s0 s)
    (hc : covers [.wrn, .out] cv = true := by exact covers_le (by assumption) rfl) :
    Kept cv s0 (post n arrived e s) := by
  unfold post
  repeat' first
    | exact covers_le hc rfl
    | with_reducible first
      | assumption | apply launch_kept | apply waitPort_kept | intro _ | split

theorem reserveFor_kept {cv : List Block} {s0 : State} (n : Nat) (x : Waiting) (len : Nat) (s : State) (hk0 : Kept cv s0 s)
    (hc : covers [.wrn, .out] cv = true := by exact covers_le (by assumption) rfl) :
    Kept cv s0 (reserveFor n x len s) := by
  unfold reserveFor
  repeat' first
    | exact covers_le hc rfl
    | with_reducible first
      | assumption | apply waitPort_kept | apply post_kept | apply onPort_kept | intro _ | split
      | refine Kept.set_wrn ?_ (hc := ?_)

theorem sendBy_kept {cv : List Block} {s0 : State} (n : Nat) (arrived : Ns) (e : Envelope) (s : State) (hk0 : Kept cv s0 s)
    (hc : covers [.wrn, .out] cv = true := by exact covers_le (by assumption) rfl) :
    Kept cv s0 (sendBy n arrived e s) := by
  unfold sendBy
  repeat' first
    | exact covers_le hc rfl
    | with_reducible first
      | assumption | apply post_kept | apply reserveFor_kept | split

theorem drainPort_kept {cv : List Block} {s0 : State} (n : Nat) (s : State) (hk0 : Kept cv s0 s)
    (hc : covers [.wrn, .out] cv = true := by exact covers_le (by assumption) rfl) :
    Kept cv s0 (drainPort n s) := by
  unfold drainPort
  repeat' first
    | exact covers_le hc rfl
    | with_reducible first
      | assumption | apply sendBy_kept | apply Kept.foldl | apply Kept.foldl_fst | intro _ | refine Kept.set_wrn ?_ (hc := ?_)

theorem sendEnv_kept {cv : List Block} {s0 : State} (e : Envelope) (s : State) (hk0 : Kept cv s0 s)
    (hc : covers [.wrn, .out] cv = true := by exact covers_le (by assumption) rfl) :
    Kept cv s0 (sendEnv e s) := by
  unfold sendEnv
  repeat' first
    | exact covers_le hc rfl
    | with_reducible first
      | assumption | apply sendBy_kept | split

theorem sendMsg_kept {cv : List Block} {s0 : State} (dst tag tenant : Nat) (m : Msg) (s : State) (hk0 : Kept cv s0 s)
    (hc : covers [.wrn, .out] cv = true := by exact covers_le (by assumption) rfl) :
    Kept cv s0 (sendMsg dst tag tenant m s) := by
  unfold sendMsg
  repeat' first
    | exact covers_le hc rfl
    | with_reducible first
      | assumption | apply sendEnv_kept

theorem sendReq_kept {cv : List Block} {s0 : State} (dst tenant : Nat) (m : Msg) (s : State) (hk0 : Kept cv s0 s)
    (hc : covers [.wrn, .out] cv = true := by exact covers_le (by assumption) rfl) :
    Kept cv s0 (sendReq dst tenant m s) := by
  unfold sendReq
  repeat' first
    | exact covers_le hc rfl
    | with_reducible first
      | assumption | apply sendEnv_kept | refine Kept.set_wrn ?_ (hc := ?_)

theorem sendAll_kept {cv : List Block} {s0 : State} (dsts : List Nat) (tenant : Nat) (m : Msg) (s : State) (hk0 : Kept cv s0 s)
    (hc : covers [.wrn, .out] cv = true := by exact covers_le (by assumption) rfl) :
    Kept cv s0 (sendAll dsts tenant m s) := by
  unfold sendAll
  repeat' first
    | exact covers_le hc rfl
    | with_reducible first
      | assumption | apply sendMsg_kept | apply Kept.foldl | apply Kept.foldl_fst | intro _ | refine Kept.set_wrn ?_ (hc := ?_)

theorem dropReq_kept {cv : List Block} {s0 : State} (tag : Nat) (s : State) (hk0 : Kept cv s0 s)
    (hc : covers [.wrn] cv = true := by exact covers_le (by assumption) rfl) :
    Kept cv s0 (dropReq tag s) := by
  unfold dropReq
  repeat' first
    | exact covers_le hc rfl
    | with_reducible first
      | assumption | refine Kept.set_wrn ?_ (hc := ?_)

theorem dupOpen_kept {cv : List Block} {s0 : State} (src tag : Nat) (s : State) (hk0 : Kept cv s0 s)
    (hc : covers [.wrn] cv = true := by exact covers_le (by assumption) rfl) :
    Kept cv s0 (dupOpen src tag s) := by
  unfold dupOpen
  repeat' first
    | exact covers_le hc rfl
    | with_reducible first
      | assumption | intro _ | refine Kept.set_wrn ?_ (hc := ?_)

theorem respond_kept {cv : List Block} {s0 : State} (dst tag tenant : Nat) (m : Msg) (s : State) (hk0 : Kept cv s0 s)
    (hc : covers [.wrn, .out] cv = true := by exact covers_le (by assumption) rfl) :
    Kept cv s0 (respond dst tag tenant m s) := by
  unfold respond
  repeat' first
    | exact covers_le hc rfl
    | with_reducible first
      | assumption | apply sendMsg_kept | intro _ | refine Kept.set_wrn ?_ (hc := ?_)

end Sys2Proof.Safety
end

