-- ==== Sys2Proof/Laws/KeptTier.lean ====
section
/-! SUPPORT. What the definitions of Machine/Tier.lean keep: one lemma per definition, from any earlier state. -/

namespace Sys2Proof.Safety

-- The lemmas of this file are checked one after another, with few threads at a time.
set_option Elab.async false

open Sys2Proof.Machine

theorem victim_kept {d d' : Drt} {able : Nat → Bool} {set i : Nat} (h : victim d able set = some (i, d')) :
    DrtKept d d' := by
  unfold victim at h
  dsimp only at h
  split at h
  · cases h; exact .of_eq rfl
  · split at h
    · cases h; exact .of_eq rfl
    · split at h
      · cases h
      · cases h; exact .of_eq rfl

theorem putStrip_kept {b0 : Drt} (a k : Nat) (bytes : List Byte) (d : Drt) (hk0 : DrtKept b0 d) : DrtKept b0 (putStrip a k bytes d) :=
  ⟨fun m => mwrite_wf _ _ (hk0.tier m)⟩

theorem putRec_kept {b0 : Drt} (a : Nat) (r : BlockRec) (d : Drt) (hk0 : DrtKept b0 d) : DrtKept b0 (putRec a r d) := by
  unfold putRec
  repeat' with_reducible first
    | assumption | exact DrtKept.trans hk0 (.of_eq rfl)

theorem putBlock_kept {b0 : Drt} (a : Nat) (bmw : BitVec 96) (masks : List Byte) (strips : List (List Byte)) (d : Drt) (hk0 : DrtKept b0 d) : DrtKept b0 (putBlock a bmw masks strips d) := by
  refine putRec_kept _ _ _ ?_
  exact DrtKept.foldl hk0 fun _ _ h => putStrip_kept _ _ _ _ h

theorem poisonStrips_kept {b0 : Drt} (a : Nat) (ks : List Nat) (lines : Nat → Byte) (d : Drt) (hk0 : DrtKept b0 d) :
    DrtKept b0 (poisonStrips a ks lines d) := by
  unfold poisonStrips
  dsimp only
  split <;> exact putBlock_kept _ _ _ _ _ hk0

theorem enqueueUnit_kept {cv : List Block} {s0 : State} (q addr len : Nat) (isWrite : Bool) (data : List Byte) (s : State) (hk0 : Kept cv s0 s)
    (hc : covers [.drt] cv = true := by exact covers_le (by assumption) rfl) :
    Kept cv s0 (enqueueUnit q addr len isWrite data s) := by
  unfold enqueueUnit
  repeat' first
    | exact covers_le hc rfl
    | with_reducible first
      | assumption | split | refine Kept.set_drt ?_ (.of_eq rfl) (hc := ?_)

theorem enqueueStrips_kept {cv : List Block} {s0 : State} (q addr : Nat) (ks : List Nat) (isWrite : Bool) (s : State) (hk0 : Kept cv s0 s)
    (hc : covers [.drt] cv = true := by exact covers_le (by assumption) rfl) :
    Kept cv s0 (enqueueStrips q addr ks isWrite s) := by
  unfold enqueueStrips
  repeat' first
    | exact covers_le hc rfl
    | with_reducible first
      | assumption | apply enqueueUnit_kept | apply Kept.foldl | apply Kept.foldl_fst | intro _

end Sys2Proof.Safety
end

