-- ==== Sys2Proof/Laws/KeptStaging.lean ====
section
/-! SUPPORT. What the definitions of Machine/Staging.lean keep: one lemma per definition, from any earlier state. -/

namespace Sys2Proof.Safety

-- The lemmas of this file are checked one after another, with few threads at a time.
set_option Elab.async false

open Sys2Proof.Machine

theorem countDec_kept {cv : List Block} {s0 : State} (st block n : Nat) (s : State) (hk0 : Kept cv s0 s)
    (hc : covers [.cdc] cv = true := by exact covers_le (by assumption) rfl) :
    Kept cv s0 (countDec st block n s) := by
  unfold countDec
  repeat' first
    | exact covers_le hc rfl
    | with_reducible first
      | assumption | refine Kept.set_cdc ?_ (hc := ?_)

theorem countEnc_kept {cv : List Block} {s0 : State} (st block n : Nat) (s : State) (hk0 : Kept cv s0 s)
    (hc : covers [.cdc] cv = true := by exact covers_le (by assumption) rfl) :
    Kept cv s0 (countEnc st block n s) := by
  unfold countEnc
  repeat' first
    | exact covers_le hc rfl
    | with_reducible first
      | assumption | refine Kept.set_cdc ?_ (hc := ?_)

theorem codecFault_kept {cv : List Block} {s0 : State} (st tenant block : Nat) (f : DecFault) (outcome : Nat) (s : State) (hk0 : Kept cv s0 s)
    (hc : covers [.cdc] cv = true := by exact covers_le (by assumption) rfl) :
    Kept cv s0 (codecFault st tenant block f outcome s) := by
  unfold codecFault
  repeat' first
    | exact covers_le hc rfl
    | with_reducible first
      | assumption | split | refine Kept.set_cdc ?_ (hc := ?_)

theorem markDirty_kept {cv : List Block} {s0 : State} (tenant tile : Nat) (s : State) (hk0 : Kept cv s0 s)
    (hc : covers [.pwr, .drt, .hrd] cv = true := by exact covers_le (by assumption) rfl) :
    Kept cv s0 (markDirty tenant tile s) := by
  unfold markDirty
  repeat' first
    | exact covers_le hc rfl
    | with_reducible first
      | assumption | intro _ | split | refine Kept.set_pwr_drt_hrd ?_ (.of_eq rfl) (hc := ?_)

theorem poisonFault_kept {cv : List Block} {s0 : State} (e : ExtRec) (st block a : Nat) (f : DecFault) (s : State) (hk0 : Kept cv s0 s)
    (hc : covers [.hst, .cdc, .drt, .flt, .out] cv = true := by exact covers_le (by assumption) rfl) :
    Kept cv s0 (poisonFault e st block a f s) := by
  unfold poisonFault
  exact note_kept _ _ (Kept.upd (codecFault_kept _ _ _ _ _ _ hk0) (.refl _) (.of_eq rfl) (poisonStrips_kept _ _ _ _ (.of_eq rfl)) (.of_eq rfl))

theorem poisonFaults_kept {cv : List Block} {s0 : State} (e : ExtRec) (st block a : Nat) (ks : List Nat) (n : Nat) (s : State) (hk0 : Kept cv s0 s)
    (hc : covers [.hst, .cdc, .drt, .flt, .out] cv = true := by exact covers_le (by assumption) rfl) :
    Kept cv s0 (poisonFaults e st block a ks n s) := by
  induction n generalizing s with
  | zero => exact hk0
  | succ n ih =>
    unfold poisonFaults
    split
    · exact hk0
    · exact ih _ (poisonFault_kept _ _ _ _ _ _ hk0)

theorem writeback_kept {cv : List Block} {s0 : State} (tenant block : Nat) (ks : List Nat) (s : State) (hk0 : Kept cv s0 s)
    (hc : covers [.pwr, .hst, .cdc, .drt, .hrd, .flt, .out] cv = true := by exact covers_le (by assumption) rfl) :
    Kept cv s0 (writeback tenant block ks s) := by
  unfold writeback
  split
  · extract_lets ws s r x1 st crc d1 d2 d3 out x2 c1 s1 s2
    have hk0 : Kept cv s0 s := poisonFaults_kept _ _ _ _ _ _ _ hk0
    clear_value s
    have h1 : DrtKept s.drt d1 := DrtKept.foldl (.of_eq rfl) fun d k h => by
      split
      · exact h
      · exact putStrip_kept _ _ _ _ h
    have h2 : DrtKept s.drt d2 := by
      dsimp only [d2]
      split
      · exact h1.trans (.of_eq rfl)
      · exact h1
    have h3 : DrtKept s.drt d3 := putRec_kept _ _ _ h2
    have hs : Kept cv s0 s1 := Kept.upd hk0 (.refl _) (.of_eq rfl) h3 (.of_eq rfl)
    have hs2 : Kept cv s0 s2 := Kept.foldl hs fun _ _ h => countEnc_kept _ _ _ _ h
    exact markDirty_kept _ _ _ (enqueueStrips_kept _ _ _ _ _ hs2)
  · exact hk0

theorem writebackDone_kept {cv : List Block} {s0 : State} (tenant block : Nat) (s : State) (hk0 : Kept cv s0 s)
    (hc : covers [.cdc] cv = true := by exact covers_le (by assumption) rfl) :
    Kept cv s0 (writebackDone tenant block s) := by
  unfold writebackDone
  repeat' first
    | exact covers_le hc rfl
    | with_reducible first
      | assumption | intro _ | split | refine Kept.set_cdc ?_ (hc := ?_)

theorem flushBlock_kept {cv : List Block} {s0 : State} (tenant block : Nat) (s : State) (hk0 : Kept cv s0 s)
    (hc : covers [.pwr, .hst, .cdc, .drt, .hrd, .flt, .out] cv = true := by exact covers_le (by assumption) rfl) :
    Kept cv s0 (flushBlock tenant block s) := by
  unfold flushBlock
  dsimp only
  repeat' first
    | exact covers_le hc rfl
    | with_reducible first
      | assumption | apply writebackDone_kept | apply writeback_kept | intro _ | split

theorem flushTile_kept {cv : List Block} {s0 : State} (tenant tile : Nat) (s : State) (hk0 : Kept cv s0 s)
    (hc : covers [.pwr, .hst, .cdc, .drt, .hrd, .flt, .out] cv = true := by exact covers_le (by assumption) rfl) :
    Kept cv s0 (flushTile tenant tile s) := by
  unfold flushTile
  repeat' first
    | exact covers_le hc rfl
    | with_reducible first
      | assumption | apply flushBlock_kept | apply Kept.foldl | apply Kept.foldl_fst | intro _

theorem flushRange_kept {cv : List Block} {s0 : State} (tenant lo hi : Nat) (s : State) (hk0 : Kept cv s0 s)
    (hc : covers [.pwr, .hst, .cdc, .drt, .hrd, .flt, .out] cv = true := by exact covers_le (by assumption) rfl) :
    Kept cv s0 (flushRange tenant lo hi s) := by
  unfold flushRange
  repeat' first
    | exact covers_le hc rfl
    | with_reducible first
      | assumption | apply flushBlock_kept | apply Kept.foldl | apply Kept.foldl_fst | intro _

theorem dropTile_kept {cv : List Block} {s0 : State} (tenant tile : Nat) (s : State) (hk0 : Kept cv s0 s)
    (hc : covers [.cdc] cv = true := by exact covers_le (by assumption) rfl) :
    Kept cv s0 (dropTile tenant tile s) := by
  unfold dropTile
  repeat' first
    | exact covers_le hc rfl
    | with_reducible first
      | assumption | intro _ | refine Kept.set_cdc ?_ (hc := ?_)

theorem evictOne_kept {cv : List Block} {s0 : State} (s : State) (hk0 : Kept cv s0 s)
    (hc : covers [.pwr, .hst, .cdc, .drt, .hrd, .flt, .out] cv = true := by exact covers_le (by assumption) rfl) :
    Kept cv s0 (evictOne s) := by
  unfold evictOne
  repeat' first
    | exact covers_le hc rfl
    | with_reducible first
      | assumption | apply flushBlock_kept | intro _ | split | refine Kept.set_cdc ?_ (hc := ?_)

theorem makeRoom_kept {cv : List Block} {s0 : State} (s : State) (hk0 : Kept cv s0 s)
    (hc : covers [.pwr, .hst, .cdc, .drt, .hrd, .flt, .out] cv = true := by exact covers_le (by assumption) rfl) :
    Kept cv s0 (makeRoom s) := by
  unfold makeRoom
  repeat' first
    | exact covers_le hc rfl
    | with_reducible first
      | assumption | apply evictOne_kept | split

theorem entryFor_kept {cv : List Block} {s0 : State} (tenant block k : Nat) (s : State) (hk0 : Kept cv s0 s)
    (hc : covers [.pwr, .hst, .cdc, .drt, .hrd, .flt, .out] cv = true := by exact covers_le (by assumption) rfl) :
    Kept cv s0 (entryFor tenant block k s).1 := by
  unfold entryFor
  dsimp only
  repeat' first
    | exact covers_le hc rfl
    | with_reducible first
      | assumption | apply makeRoom_kept | split

theorem dropSram_kept {cv : List Block} {s0 : State} (tenant tile : Nat) (s : State) (hk0 : Kept cv s0 s)
    (hc : covers [.eng] cv = true := by exact covers_le (by assumption) rfl) :
    Kept cv s0 (dropSram tenant tile s) := by
  unfold dropSram
  repeat' first
    | exact covers_le hc rfl
    | with_reducible first
      | assumption | intro _ | refine Kept.set_eng ?_ (hc := ?_)

theorem stageWrite_kept {cv : List Block} {s0 : State} (tenant line stream : Nat) (be : BitVec 64) (data : List Byte) (poison : Bool) (s : State) (hk0 : Kept cv s0 s)
    (hc : covers [.pwr, .hst, .cdc, .drt, .hrd, .eng, .flt, .out] cv = true := by exact covers_le (by assumption) rfl) :
    Kept cv s0 (stageWrite tenant line stream be data poison s) := by
  unfold stageWrite
  repeat' first
    | exact covers_le hc rfl
    | with_reducible first
      | assumption | apply entryFor_kept | apply markDirty_kept | apply dropSram_kept | split
      | refine Kept.set_pwr_cdc ?_ (hc := ?_)

theorem outputStrip_kept {cv : List Block} {s0 : State} (tenant block k : Nat) (data : List Byte) (mask : Byte) (s : State) (hk0 : Kept cv s0 s)
    (hc : covers [.pwr, .hst, .cdc, .drt, .hrd, .eng, .flt, .out] cv = true := by exact covers_le (by assumption) rfl) :
    Kept cv s0 (outputStrip tenant block k data mask s) := by
  unfold outputStrip
  dsimp only
  repeat' first
    | exact covers_le hc rfl
    | with_reducible first
      | assumption | apply markDirty_kept | apply dropSram_kept | apply writeback_kept | split
      | refine Kept.set_cdc ?_ (hc := ?_) | refine Kept.set_pwr_cdc ?_ (hc := ?_)

end Sys2Proof.Safety
end

