-- ==== Sys2Proof/Laws/KeptHoardCore.lean ====
section
/-! SUPPORT. What the definitions of Machine/HoardCore.lean keep: one lemma per definition, from any earlier state. -/

namespace Sys2Proof.Safety

-- The lemmas of this file are checked one after another, with few threads at a time.
set_option Elab.async false

open Sys2Proof.Machine

theorem onBay_kept {cv : List Block} {s0 : State} (b : Nat) (f : Bay → Bay) (s : State) (hk0 : Kept cv s0 s)
    (hc : covers [.hrd] cv = true := by exact covers_le (by assumption) rfl) :
    Kept cv s0 (onBay b f s) := by
  unfold onBay
  repeat' first
    | exact covers_le hc rfl
    | with_reducible first
      | assumption | refine Kept.set_hrd ?_ (hc := ?_)

theorem pageRead_kept {cv : List Block} {s0 : State} (b : Nat) (s : State) (hk0 : Kept cv s0 s)
    (hc : covers [.hrd] cv = true := by exact covers_le (by assumption) rfl) :
    Kept cv s0 (pageRead b s) := by
  unfold pageRead
  repeat' first
    | exact covers_le hc rfl
    | with_reducible first
      | assumption | apply onBay_kept

theorem storeChunk_kept {cv : List Block} {s0 : State} (stripe c k m kind : Nat) (crc : BitVec 32) (bytes : List Byte) (s : State) (hk0 : Kept cv s0 s)
    (hc : covers [.hrd] cv = true := by exact covers_le (by assumption) rfl) :
    Kept cv s0 (storeChunk stripe c k m kind crc bytes s).1 := by
  unfold storeChunk
  dsimp only
  repeat' first
    | exact covers_le hc rfl
    | with_reducible first
      | assumption | intro _ | split | refine Kept.set_hrd ?_ (hc := ?_)

theorem releaseChunk_kept {cv : List Block} {s0 : State} (stripe c : Nat) (s : State) (hk0 : Kept cv s0 s)
    (hc : covers [.hrd] cv = true := by exact covers_le (by assumption) rfl) :
    Kept cv s0 (releaseChunk stripe c s) := by
  unfold releaseChunk
  repeat' first
    | exact covers_le hc rfl
    | with_reducible first
      | assumption | intro _ | refine Kept.set_hrd ?_ (hc := ?_)

theorem releaseStripe_kept {cv : List Block} {s0 : State} (id : Nat) (s : State) (hk0 : Kept cv s0 s)
    (hc : covers [.hrd, .wrn, .out] cv = true := by exact covers_le (by assumption) rfl) :
    Kept cv s0 (releaseStripe id s) := by
  unfold releaseStripe
  repeat' first
    | exact covers_le hc rfl
    | with_reducible first
      | assumption | apply releaseChunk_kept | apply sendReq_kept | apply Kept.foldl | apply Kept.foldl_fst | intro _ | split
      | refine Kept.set_hrd ?_ (hc := ?_)

theorem releaseIfDead_kept {cv : List Block} {s0 : State} (id : Nat) (s : State) (hk0 : Kept cv s0 s)
    (hc : covers [.hrd, .wrn, .out] cv = true := by exact covers_le (by assumption) rfl) :
    Kept cv s0 (releaseIfDead id s) := by
  unfold releaseIfDead
  repeat' first
    | exact covers_le hc rfl
    | with_reducible first
      | assumption | apply releaseStripe_kept | split

theorem commitStripe_kept {cv : List Block} {s0 : State} (id : Nat) (s : State) (hk0 : Kept cv s0 s)
    (hc : covers [.hrd, .wrn, .out] cv = true := by exact covers_le (by assumption) rfl) :
    Kept cv s0 (commitStripe id s) := by
  unfold commitStripe
  repeat' first
    | exact covers_le hc rfl
    | with_reducible first
      | assumption | apply releaseIfDead_kept | apply Kept.foldl | apply Kept.foldl_fst | intro _ | split
      | refine Kept.set_hrd ?_ (hc := ?_)

theorem ackChunk_kept {cv : List Block} {s0 : State} (id c : Nat) (s : State) (hk0 : Kept cv s0 s)
    (hc : covers [.hrd, .wrn, .out] cv = true := by exact covers_le (by assumption) rfl) :
    Kept cv s0 (ackChunk id c s) := by
  unfold ackChunk
  repeat' first
    | exact covers_le hc rfl
    | with_reducible first
      | assumption | apply commitStripe_kept | split | refine Kept.set_hrd ?_ (hc := ?_)

theorem sendChunk_kept {cv : List Block} {s0 : State} (id c holder : Nat) (s : State) (hk0 : Kept cv s0 s)
    (hc : covers [.hrd, .wrn, .out] cv = true := by exact covers_le (by assumption) rfl) :
    Kept cv s0 (sendChunk id c holder s) := by
  unfold sendChunk
  repeat' first
    | exact covers_le hc rfl
    | with_reducible first
      | assumption | apply storeChunk_kept | apply ackChunk_kept | apply sendReq_kept | split | refine Kept.set_hrd ?_ (hc := ?_)

theorem closeStripe_kept {cv : List Block} {s0 : State} (id : Nat) (s : State) (hk0 : Kept cv s0 s)
    (hc : covers [.hrd, .wrn, .out] cv = true := by exact covers_le (by assumption) rfl) :
    Kept cv s0 (closeStripe id s) := by
  unfold closeStripe
  repeat' first
    | exact covers_le hc rfl
    | with_reducible first
      | assumption | apply sendChunk_kept | apply Kept.foldl | apply Kept.foldl_fst | intro _ | split
      | refine Kept.set_hrd ?_ (hc := ?_)

theorem openStripe_kept {cv : List Block} {s0 : State} (code kind : Nat) (s : State) (hk0 : Kept cv s0 s)
    (hc : covers [.hrd] cv = true := by exact covers_le (by assumption) rfl) :
    Kept cv s0 (openStripe code kind s).1 := by
  unfold openStripe
  repeat' first
    | exact covers_le hc rfl
    | with_reducible first
      | assumption | intro _ | split | refine Kept.set_hrd ?_ (hc := ?_)

theorem stripeFor_kept {cv : List Block} {s0 : State} (code kind n : Nat) (s : State) (hk0 : Kept cv s0 s)
    (hc : covers [.hrd, .wrn, .out] cv = true := by exact covers_le (by assumption) rfl) :
    Kept cv s0 (stripeFor code kind n s).1 := by
  unfold stripeFor
  dsimp only
  repeat' first
    | exact covers_le hc rfl
    | with_reducible first
      | assumption | apply openStripe_kept | apply closeStripe_kept | split

theorem appendStripe_kept {cv : List Block} {s0 : State} (id : Nat) (bytes : List Byte) (t : Option (Nat × Nat)) (s : State) (hk0 : Kept cv s0 s)
    (hc : covers [.hrd] cv = true := by exact covers_le (by assumption) rfl) :
    Kept cv s0 (appendStripe id bytes t s) := by
  unfold appendStripe
  repeat' first
    | exact covers_le hc rfl
    | with_reducible first
      | assumption | split | refine Kept.set_hrd ?_ (hc := ?_)

theorem markClean_kept {cv : List Block} {s0 : State} (tenant tile : Nat) (s : State) (hk0 : Kept cv s0 s)
    (hc : covers [.drt, .hrd] cv = true := by exact covers_le (by assumption) rfl) :
    Kept cv s0 (markClean tenant tile s) := by
  unfold markClean
  repeat' first
    | exact covers_le hc rfl
    | with_reducible first
      | assumption | intro _ | split | refine Kept.set_drt_hrd ?_ (.of_eq rfl) (hc := ?_)

theorem logTile_kept {cv : List Block} {s0 : State} (tenant tile : Nat) (s : State) (hk0 : Kept cv s0 s)
    (hc : covers [.pwr, .hst, .cdc, .drt, .hrd, .wrn, .flt, .out] cv = true := by exact covers_le (by assumption) rfl) :
    Kept cv s0 (logTile tenant tile s) := by
  unfold logTile
  repeat' first
    | exact covers_le hc rfl
    | with_reducible first
      | assumption | apply flushTile_kept | apply markClean_kept | apply releaseIfDead_kept | apply stripeFor_kept
      | apply appendStripe_kept | split | refine Kept.set_hrd ?_ (hc := ?_)

theorem commitTile_kept {cv : List Block} {s0 : State} (tenant tile : Nat) (s : State) (hk0 : Kept cv s0 s)
    (hc : covers [.pwr, .hst, .cdc, .drt, .hrd, .wrn, .flt, .out] cv = true := by exact covers_le (by assumption) rfl) :
    Kept cv s0 (commitTile tenant tile s) := by
  unfold commitTile
  dsimp only
  repeat' first
    | exact covers_le hc rfl
    | with_reducible first
      | assumption | apply logTile_kept | apply closeStripe_kept | split

theorem chunkRead_kept {cv : List Block} {s0 : State} (stripe c : Nat) (s : State) (hk0 : Kept cv s0 s)
    (hc : covers [.hrd] cv = true := by exact covers_le (by assumption) rfl) :
    Kept cv s0 (chunkRead stripe c s) := by
  unfold chunkRead
  repeat' first
    | exact covers_le hc rfl
    | with_reducible first
      | assumption | apply pageRead_kept | split

theorem markDamaged_kept {cv : List Block} {s0 : State} (stripe c : Nat) (s : State) (hk0 : Kept cv s0 s)
    (hc : covers [.hrd] cv = true := by exact covers_le (by assumption) rfl) :
    Kept cv s0 (markDamaged stripe c s) := by
  unfold markDamaged
  repeat' first
    | exact covers_le hc rfl
    | with_reducible first
      | assumption | intro _ | split | refine Kept.set_hrd ?_ (hc := ?_)

end Sys2Proof.Safety
end

