-- ==== Sys2Proof/Laws/KeptExtCore.lean ====
section
/-! SUPPORT. What the definitions of Machine/ExtCore.lean keep: one lemma per definition, from any earlier state. -/

namespace Sys2Proof.Safety

-- The lemmas of this file are checked one after another, with few threads at a time.
set_option Elab.async false

open Sys2Proof.Machine

theorem onExtent_kept {cv : List Block} {s0 : State} (x : Nat) (f : ExtSt → ExtSt) (s : State) (hk0 : Kept cv s0 s)
    (hc : covers [.ext] cv = true := by exact covers_le (by assumption) rfl) :
    Kept cv s0 (onExtent x f s) := by
  unfold onExtent
  repeat' first
    | exact covers_le hc rfl
    | with_reducible first
      | assumption | refine Kept.set_ext ?_ (hc := ?_)

theorem onLease_kept {cv : List Block} {s0 : State} (t : Nat) (f : Lease → Lease) (s : State) (hk0 : Kept cv s0 s)
    (hc : covers [.ext] cv = true := by exact covers_le (by assumption) rfl) :
    Kept cv s0 (onLease t f s) := by
  unfold onLease
  repeat' first
    | exact covers_le hc rfl
    | with_reducible first
      | assumption | refine Kept.set_ext ?_ (hc := ?_)

theorem kmUpdate_kept {cv : List Block} {s0 : State} (s : State) (hk0 : Kept cv s0 s)
    (hc : covers [.pwr, .hst, .cdc, .drt, .hrd, .wrn, .flt, .out] cv = true := by exact covers_le (by assumption) rfl) :
    Kept cv s0 (kmUpdate s) := by
  unfold kmUpdate
  repeat' first
    | exact covers_le hc rfl
    | with_reducible first
      | assumption | refine note_kept _ _ ?_ (hc := ?_) (hd := by with_unfolding_all rfl) | apply commitTile_kept
      | apply Kept.foldl | apply Kept.foldl_fst | intro _ | split | refine Kept.set_hrd ?_ (hc := ?_)

theorem sendSnoop_kept {cv : List Block} {s0 : State} (tenant addr : Nat) (data : Bool) (h : Nat × Nat) (s : State) (hk0 : Kept cv s0 s)
    (hc : covers [.hst, .wrn, .out] cv = true := by exact covers_le (by assumption) rfl) :
    Kept cv s0 (sendSnoop tenant addr data h s) := by
  unfold sendSnoop
  repeat' first
    | exact covers_le hc rfl
    | with_reducible first
      | assumption | apply emit_kept | apply sendReq_kept | intro _ | split | refine Kept.set_hst ?_ (.of_eq rfl) (hc := ?_)

theorem startSnoop_kept {cv : List Block} {s0 : State} (tenant addr : Nat) (data : Bool) (targets : List (Nat × Nat)) (cause : SnoopCause) (s : State) (hk0 : Kept cv s0 s)
    (hc : covers [.hst, .ext, .wrn, .out] cv = true := by exact covers_le (by assumption) rfl) :
    Kept cv s0 (startSnoop tenant addr data targets cause s) := by
  unfold startSnoop
  repeat' first
    | exact covers_le hc rfl
    | with_reducible first
      | assumption | apply sendSnoop_kept | apply Kept.foldl | apply Kept.foldl_fst | intro _ | split
      | refine Kept.set_ext ?_ (hc := ?_)

theorem sfGrant_kept {cv : List Block} {s0 : State} (tenant addr ext : Nat) (h : Nat × Nat) (excl : Bool) (s : State) (hk0 : Kept cv s0 s)
    (hc : covers [.ext] cv = true := by exact covers_le (by assumption) rfl) :
    Kept cv s0 (sfGrant tenant addr ext h excl s) := by
  unfold sfGrant
  repeat' first
    | exact covers_le hc rfl
    | with_reducible first
      | assumption | split | refine Kept.set_ext ?_ (hc := ?_)

theorem sfEvict_kept {cv : List Block} {s0 : State} (s : State) (hk0 : Kept cv s0 s)
    (hc : covers [.hst, .ext, .wrn, .out] cv = true := by exact covers_le (by assumption) rfl) :
    Kept cv s0 (sfEvict s) := by
  unfold sfEvict
  repeat' first
    | exact covers_le hc rfl
    | with_reducible first
      | assumption | apply startSnoop_kept | split | refine Kept.set_ext ?_ (hc := ?_)

theorem snoopAnswer_kept {cv : List Block} {s0 : State} (tenant addr : Nat) (h : Nat × Nat) (ans : SnoopAns) (s : State) (hk0 : Kept cv s0 s)
    (hc : covers [.ext] cv = true := by exact covers_le (by assumption) rfl) :
    Kept cv s0 (snoopAnswer tenant addr h ans s) := by
  unfold snoopAnswer
  repeat' first
    | exact covers_le hc rfl
    | with_reducible first
      | assumption | intro _ | split | refine Kept.set_ext ?_ (hc := ?_)

theorem snoopsDone_kept {cv : List Block} {s0 : State} (s : State) (hk0 : Kept cv s0 s)
    (hc : covers [.ext] cv = true := by exact covers_le (by assumption) rfl) :
    Kept cv s0 (snoopsDone s) := by
  unfold snoopsDone
  repeat' first
    | exact covers_le hc rfl
    | with_reducible first
      | assumption | apply Kept.foldl | apply Kept.foldl_fst | intro _ | split | refine Kept.set_ext ?_ (hc := ?_)

end Sys2Proof.Safety
end

