-- ==== Sys2Proof/Laws/KeptServe.lean ====
section
/-! SUPPORT. What the definitions of Machine/Serve.lean keep: one lemma per definition, from any earlier state. -/

namespace Sys2Proof.Safety

-- The lemmas of this file are checked one after another, with few threads at a time.
set_option Elab.async false

open Sys2Proof.Machine

theorem landBlock_kept {cv : List Block} {s0 : State} (tenant tile j : Nat) (bmw : BitVec 96) (masks : List Byte) (strips : List (List Byte)) (s : State) (hk0 : Kept cv s0 s)
    (hc : covers [.drt] cv = true := by exact covers_le (by assumption) rfl) :
    Kept cv s0 (landBlock tenant tile j bmw masks strips s) := by
  unfold landBlock
  split
  · exact hk0
  · split
    · exact hk0
    · split
      · exact hk0
      · next a _ =>
        have h : DrtKept s.drt (putBlock (a + 4096 * j) bmw masks strips s.drt) := putBlock_kept _ _ _ _ _ (.of_eq rfl)
        generalize putBlock (a + 4096 * j) bmw masks strips s.drt = d at h
        refine enqueueStrips_kept _ _ _ _ _ (Kept.upd hk0 (.refl _) (.of_eq rfl) (h.trans (.of_eq ?_)) (.of_eq rfl))
        split
        · rfl
        · dsimp only
          split <;> rfl

theorem poisonBlockAt_kept {cv : List Block} {s0 : State} (a : Nat) (s : State) (hk0 : Kept cv s0 s)
    (hc : covers [.drt] cv = true := by exact covers_le (by assumption) rfl) :
    Kept cv s0 (poisonBlockAt a s) :=
  Kept.upd hk0 (.refl _) (.of_eq rfl) (poisonStrips_kept _ _ _ _ (.of_eq rfl)) (.of_eq rfl)

theorem takeWay_kept {cv : List Block} {s0 : State} (tenant tile : Nat) (s : State) (hk0 : Kept cv s0 s)
    (hc : covers [.pwr, .hst, .cdc, .drt, .hrd, .wrn, .flt, .out] cv = true := by exact covers_le (by assumption) rfl) :
    Kept cv s0 (takeWay tenant tile s).1 := by
  unfold takeWay
  split
  · exact hk0
  · split
    · exact hk0
    · next i d hv =>
      have hd := victim_kept hv
      extract_lets sa y vt vk sb sc sd
      have ha : Kept cv s0 sa := Kept.upd hk0 (.refl _) (.of_eq rfl) hd (.of_eq rfl)
      have hb : Kept cv s0 sb := by
        dsimp only [sb]
        split
        · exact flushTile_kept _ _ _ ha
        · exact ha
      have hc : Kept cv s0 sc := by
        dsimp only [sc]
        split
        · exact commitTile_kept _ _ _ hb
        · exact hb
      have hd : Kept cv s0 sd := by
        dsimp only [sd]
        split
        · exact dropTile_kept _ _ _ hc
        · exact hc
      split
      · exact hc
      · exact Kept.upd hd (.refl _) (.of_eq rfl) (.of_eq rfl) (.of_eq rfl)

theorem landPacked_kept {cv : List Block} {s0 : State} (tenant tile : Nat) (area : List Byte) (s : State) (hk0 : Kept cv s0 s)
    (hc : covers [.drt] cv = true := by exact covers_le (by assumption) rfl) :
    Kept cv s0 (landPacked tenant tile area s).1 := by
  unfold landPacked
  repeat' first
    | exact covers_le hc rfl
    | with_reducible first
      | assumption | apply landBlock_kept | apply Kept.foldl | apply Kept.foldl_fst | intro _ | split

theorem gather_kept {cv : List Block} {s0 : State} (x : Gathered) (s : State) (hk0 : Kept cv s0 s)
    (hc : covers [.hrd] cv = true := by exact covers_le (by assumption) rfl) :
    Kept cv s0 (gather x s) := by
  unfold gather
  repeat' first
    | exact covers_le hc rfl
    | with_reducible first
      | assumption | intro _ | refine Kept.set_hrd ?_ (hc := ?_)

theorem getChunk_kept {cv : List Block} {s0 : State} (holder stripe chunk off len tenant tile : Nat) (rebuild : Bool) (s : State) (hk0 : Kept cv s0 s)
    (hc : covers [.hrd, .wrn, .out] cv = true := by exact covers_le (by assumption) rfl) :
    Kept cv s0 (getChunk holder stripe chunk off len tenant tile rebuild s) := by
  unfold getChunk
  repeat' first
    | exact covers_le hc rfl
    | with_reducible first
      | assumption | apply sendReq_kept | refine Kept.set_hrd ?_ (hc := ?_)

theorem askRebuild_kept {cv : List Block} {s0 : State} (stripe c tenant tile : Nat) (s : State) (hk0 : Kept cv s0 s)
    (hc : covers [.hrd, .wrn, .out] cv = true := by exact covers_le (by assumption) rfl) :
    Kept cv s0 (askRebuild stripe c tenant tile s) := by
  unfold askRebuild
  repeat' first
    | exact covers_le hc rfl
    | with_reducible first
      | assumption | apply gather_kept | apply chunkRead_kept | apply getChunk_kept | apply Kept.foldl | apply Kept.foldl_fst
      | intro _ | split | refine Kept.set_hrd ?_ (hc := ?_)

theorem askChunks_kept {cv : List Block} {s0 : State} (d : DirEntry) (s : State) (hk0 : Kept cv s0 s)
    (hc : covers [.hrd, .wrn, .out] cv = true := by exact covers_le (by assumption) rfl) :
    Kept cv s0 (askChunks d s) := by
  unfold askChunks
  dsimp only
  repeat' first
    | exact covers_le hc rfl
    | with_reducible first
      | assumption | apply gather_kept | apply chunkRead_kept | apply askRebuild_kept | apply getChunk_kept | apply Kept.foldl
      | apply Kept.foldl_fst | intro _ | split

theorem fillOver_kept {cv : List Block} {s0 : State} (tenant tile : Nat) (s : State) (hk0 : Kept cv s0 s)
    (hc : covers [.hrd] cv = true := by exact covers_le (by assumption) rfl) :
    Kept cv s0 (fillOver tenant tile s) := by
  unfold fillOver
  repeat' first
    | exact covers_le hc rfl
    | with_reducible first
      | assumption | intro _ | refine Kept.set_hrd ?_ (hc := ?_)

theorem failTile_kept {cv : List Block} {s0 : State} (e : ExtRec) (g tile : Nat) (s : State) (hk0 : Kept cv s0 s)
    (hc : covers [.drt, .hrd] cv = true := by exact covers_le (by assumption) rfl) :
    Kept cv s0 (failTile e g tile s) := by
  unfold failTile
  repeat' first
    | exact covers_le hc rfl
    | with_reducible first
      | assumption | apply fillOver_kept | apply landBlock_kept | apply poisonBlockAt_kept | apply Kept.foldl
      | apply Kept.foldl_fst | intro _ | split | refine Kept.set_hrd ?_ (hc := ?_)

theorem cancelFill_kept {cv : List Block} {s0 : State} (tenant tile : Nat) (s : State) (hk0 : Kept cv s0 s)
    (hc : covers [.drt, .hrd] cv = true := by exact covers_le (by assumption) rfl) :
    Kept cv s0 (cancelFill tenant tile s) := by
  unfold cancelFill
  repeat' first
    | exact covers_le hc rfl
    | with_reducible first
      | assumption | apply fillOver_kept | intro _ | split | refine Kept.set_drt ?_ (.of_eq rfl) (hc := ?_)

theorem repairChunk_kept {cv : List Block} {s0 : State} (stripe c tenant tile : Nat) (s : State) (hk0 : Kept cv s0 s)
    (hc : covers [.hrd, .wrn, .out] cv = true := by exact covers_le (by assumption) rfl) :
    Kept cv s0 (repairChunk stripe c tenant tile s) := by
  unfold repairChunk
  dsimp only
  repeat' first
    | exact covers_le hc rfl
    | with_reducible first
      | assumption | apply markDamaged_kept | apply sendReq_kept | intro _ | split

theorem tryFill_kept {cv : List Block} {s0 : State} (e : ExtRec) (g : Nat) (d : DirEntry) (n : Nat) {s : State} (hk0 : Kept cv s0 s)
    (hc : covers [.hst, .drt, .hrd, .wrn, .flt, .out] cv = true := by exact covers_le (by assumption) rfl) :
    Kept cv s0 (tryFill e g d n s) := by
  induction n generalizing s with
  | zero => exact hk0
  | succ n ih =>
    unfold tryFill
    repeat' first
      | exact covers_le hc rfl
      | with_reducible assumption
      | with_reducible exact FusKept.refl _
      | with_reducible exact VqKept.of_eq rfl
      | with_reducible exact DrtKept.of_eq rfl
      | with_reducible exact HstKept.of_eq rfl
      | with_reducible apply ih
      | with_reducible apply landPacked_kept
      | with_reducible apply repairChunk_kept
      | with_reducible apply fillOver_kept
      | with_reducible apply failTile_kept
      | with_reducible refine note_kept _ _ ?_ (hc := ?_) (hd := by with_unfolding_all rfl)
      | with_reducible apply gather_kept
      | with_reducible apply askRebuild_kept
      | with_reducible apply cancelFill_kept
      | with_reducible apply Kept.foldl
      | intro _
      | split
      | with_reducible refine Kept.set_hrd ?_ (hc := ?_)

theorem startFill_kept {cv : List Block} {s0 : State} (e : ExtRec) (g tile : Nat) (s : State) (hk0 : Kept cv s0 s)
    (hc : covers [.pwr, .hst, .cdc, .drt, .hrd, .wrn, .flt, .out] cv = true := by exact covers_le (by assumption) rfl) :
    Kept cv s0 (startFill e g tile s) := by
  unfold startFill
  repeat' first
    | exact covers_le hc rfl
    | with_reducible first
      | assumption | apply takeWay_kept | apply landBlock_kept | apply failTile_kept | apply landPacked_kept | apply tryFill_kept
      | apply askChunks_kept | apply Kept.foldl | apply Kept.foldl_fst | intro _
      | ((fail_if_no_progress (extract_lets +onlyGivenNames x)); refine Kept.cut (cv := cv) (s := s0) x ?_ (fun hx => ?_) <;> [dsimp -zeta only [x]; clear_value x])
      | ((fail_if_no_progress (extract_lets +onlyGivenNames x)); refine Kept.cutFun (cv := cv) (s := s0) x ?_ (fun hx => ?_) <;> [(dsimp -zeta only [x]; intro u hu); clear_value x])
      | ((fail_if_no_progress (extract_lets +onlyGivenNames x)); clear_value x) | apply_assumption -exfalso -symm
      | dsimp -zeta only | split

theorem dropCopy_kept {cv : List Block} {s0 : State} (tenant tile : Nat) (s : State) (hk0 : Kept cv s0 s)
    (hc : covers [.cdc, .drt] cv = true := by exact covers_le (by assumption) rfl) :
    Kept cv s0 (dropCopy tenant tile s) := by
  unfold dropCopy
  repeat' first
    | exact covers_le hc rfl
    | with_reducible first
      | assumption | apply dropTile_kept | intro _ | split | refine Kept.set_drt ?_ (.of_eq rfl) (hc := ?_)

theorem answerData_kept {cv : List Block} {s0 : State} (r : MemReq) (data : List Byte) (poison : Bool) (grant : Nat) (s : State) (hk0 : Kept cv s0 s)
    (hc : covers [.out] cv = true := by exact covers_le (by assumption) rfl) :
    Kept cv s0 (answerData r data poison grant s) := by
  unfold answerData
  repeat' first
    | exact covers_le hc rfl
    | with_reducible first
      | assumption | apply emit_kept | split

theorem answerPoison_kept {cv : List Block} {s0 : State} (r : MemReq) (s : State) (hk0 : Kept cv s0 s)
    (hc : covers [.wrn, .out] cv = true := by exact covers_le (by assumption) rfl) :
    Kept cv s0 (answerPoison r s) := by
  unfold answerPoison
  repeat' first
    | exact covers_le hc rfl
    | with_reducible first
      | assumption | apply answerData_kept | apply respond_kept | split

theorem answerWrite_kept {cv : List Block} {s0 : State} (r : MemReq) (status : Nat) (s : State) (hk0 : Kept cv s0 s)
    (hc : covers [.wrn, .out] cv = true := by exact covers_le (by assumption) rfl) :
    Kept cv s0 (answerWrite r status s) := by
  unfold answerWrite
  repeat' first
    | exact covers_le hc rfl
    | with_reducible first
      | assumption | apply emit_kept | apply respond_kept | split

theorem answerRefused_kept {cv : List Block} {s0 : State} (r : MemReq) (s : State) (hk0 : Kept cv s0 s)
    (hc : covers [.wrn, .out] cv = true := by exact covers_le (by assumption) rfl) :
    Kept cv s0 (answerRefused r s) := by
  unfold answerRefused
  repeat' first
    | exact covers_le hc rfl
    | with_reducible first
      | assumption | apply answerWrite_kept | apply answerPoison_kept | split

theorem park_kept {cv : List Block} {s0 : State} (r : MemReq) (w : Nat) (s : State) (hk0 : Kept cv s0 s)
    (hc : covers [.hst] cv = true := by exact covers_le (by assumption) rfl) :
    Kept cv s0 (park r w s) := by
  unfold park
  repeat' first
    | exact covers_le hc rfl
    | with_reducible first
      | assumption | refine Kept.set_hst ?_ (.of_eq rfl) (hc := ?_)

theorem holdBlock_kept {cv : List Block} {s0 : State} (tenant block a : Nat) (s : State) (hk0 : Kept cv s0 s)
    (hc : covers [.cdc] cv = true := by exact covers_le (by assumption) rfl) :
    Kept cv s0 (holdBlock tenant block a s) := by
  unfold holdBlock
  repeat' first
    | exact covers_le hc rfl
    | with_reducible first
      | assumption | intro _ | split | refine Kept.set_cdc ?_ (hc := ?_)

theorem touchTile_kept {cv : List Block} {s0 : State} (tenant tile : Nat) (s : State) (hk0 : Kept cv s0 s)
    (hc : covers [.drt] cv = true := by exact covers_le (by assumption) rfl) :
    Kept cv s0 (touchTile tenant tile s) := by
  unfold touchTile
  repeat' first
    | exact covers_le hc rfl
    | with_reducible first
      | assumption | intro _ | split | refine Kept.set_drt ?_ (.of_eq rfl) (hc := ?_)

theorem recoverFault_kept {cv : List Block} {s0 : State} (e : ExtRec) (g : Nat) (st block a : Nat) (f : DecFault) (s : State) (hk0 : Kept cv s0 s)
    (hc : covers [.pwr, .hst, .cdc, .drt, .hrd, .wrn, .flt, .out] cv = true := by exact covers_le (by assumption) rfl) :
    Kept cv s0 (recoverFault e g st block a f s).1 := by
  unfold recoverFault
  dsimp only
  split
  · exact startFill_kept _ _ _ _ (dropCopy_kept _ _ _ (note_kept _ _ (codecFault_kept _ _ _ _ _ _ hk0)))
  · exact poisonFault_kept _ _ _ _ _ _ hk0

theorem fillForWrite_kept {cv : List Block} {s0 : State} (e : ExtRec) (g st q block a k : Nat) (s : State) (hk0 : Kept cv s0 s)
    (hc : covers [.pwr, .hst, .cdc, .drt, .hrd, .wrn, .flt, .out] cv = true := by exact covers_le (by assumption) rfl) :
    Kept cv s0 (fillForWrite e g st q block a k s).1 := by
  unfold fillForWrite
  dsimp only
  repeat' first
    | exact covers_le hc rfl
    | with_reducible first
      | assumption | apply countDec_kept | apply enqueueStrips_kept | apply poisonFaults_kept | apply recoverFault_kept | split

theorem fillForAgent_kept {cv : List Block} {s0 : State} (e : ExtRec) (g st q block k : Nat) (s : State) (hk0 : Kept cv s0 s)
    (hc : covers [.pwr, .hst, .cdc, .drt, .hrd, .wrn, .flt, .out] cv = true := by exact covers_le (by assumption) rfl) :
    Kept cv s0 (fillForAgent e g st q block k s) := by
  unfold fillForAgent
  dsimp only
  repeat' first
    | exact covers_le hc rfl
    | with_reducible first
      | assumption | apply fillForWrite_kept | apply poisonFaults_kept | split

theorem finishRead_kept {cv : List Block} {s0 : State} (e : ExtRec) (g : Nat) (r : MemReq) (a grant : Nat) (s : State) (hk0 : Kept cv s0 s)
    (hc : covers [.pwr, .hst, .cdc, .drt, .hrd, .wrn, .flt, .out] cv = true := by exact covers_le (by assumption) rfl) :
    Kept cv s0 (finishRead e g r a grant s) := by
  unfold finishRead
  dsimp only
  repeat' first
    | exact covers_le hc rfl
    | with_reducible first
      | assumption | apply answerPoison_kept | apply enqueueStrips_kept | apply countDec_kept | apply touchTile_kept
      | apply answerData_kept | apply holdBlock_kept | apply respond_kept | apply recoverFault_kept | apply park_kept | split

theorem answerUncached_kept {cv : List Block} {s0 : State} (r : MemReq) (bmw : BitVec 96) (masks : List Byte) (strips : List (List Byte)) (s : State) (hk0 : Kept cv s0 s)
    (hc : covers [.wrn, .out] cv = true := by exact covers_le (by assumption) rfl) :
    Kept cv s0 (answerUncached r bmw masks strips s) := by
  unfold answerUncached
  dsimp only
  repeat' first
    | exact covers_le hc rfl
    | with_reducible first
      | assumption | apply answerPoison_kept | apply answerData_kept | apply respond_kept | split

theorem serveRead_kept {cv : List Block} {s0 : State} (e : ExtRec) (g : Nat) (r : MemReq) (s : State) (hk0 : Kept cv s0 s)
    (hc : covers [.pwr, .hst, .ext, .cdc, .drt, .hrd, .wrn, .flt, .out] cv = true := by exact covers_le (by assumption) rfl) :
    Kept cv s0 (serveRead e g r s) := by
  unfold serveRead
  dsimp only
  repeat' first
    | exact covers_le hc rfl
    | with_reducible first
      | assumption | refine note_kept _ _ ?_ (hc := ?_) (hd := by with_unfolding_all rfl) | apply park_kept | apply startSnoop_kept
      | apply sfEvict_kept | apply startFill_kept | apply sfGrant_kept | apply finishRead_kept | apply answerPoison_kept
      | apply answerUncached_kept | split

theorem evictHold_kept {cv : List Block} {s0 : State} (tenant addr : Nat) (h : Nat × Nat) (s : State) (hk0 : Kept cv s0 s)
    (hc : covers [.ext] cv = true := by exact covers_le (by assumption) rfl) :
    Kept cv s0 (evictHold tenant addr h s) := by
  unfold evictHold
  repeat' first
    | exact covers_le hc rfl
    | with_reducible first
      | assumption | intro _ | split | refine Kept.set_ext ?_ (hc := ?_)

theorem serveWrite_kept {cv : List Block} {s0 : State} (e : ExtRec) (g : Nat) (r : MemReq) (s : State) (hk0 : Kept cv s0 s)
    (hc : covers [.pwr, .hst, .ext, .cdc, .drt, .hrd, .wrn, .eng, .flt, .out] cv = true := by exact covers_le (by assumption) rfl) :
    Kept cv s0 (serveWrite e g r s) := by
  unfold serveWrite
  dsimp only
  repeat' first
    | exact covers_le hc rfl
    | with_reducible first
      | assumption | refine note_kept _ _ ?_ (hc := ?_) (hd := by with_unfolding_all rfl) | apply onExtent_kept
      | apply answerWrite_kept | apply startFill_kept | apply park_kept | apply stageWrite_kept | apply fillForWrite_kept | apply touchTile_kept | intro _
      | split

theorem forwardReq_kept {cv : List Block} {s0 : State} (u : Nat) (r : MemReq) (s : State) (hk0 : Kept cv s0 s)
    (hc : covers [.hst, .wrn, .flt, .out] cv = true := by exact covers_le (by assumption) rfl) :
    Kept cv s0 (forwardReq u r s) := by
  unfold forwardReq
  repeat' first
    | exact covers_le hc rfl
    | with_reducible first
      | assumption | refine note_kept _ _ ?_ (hc := ?_) (hd := by with_unfolding_all rfl) | apply answerWrite_kept
      | apply answerPoison_kept | apply park_kept | apply sendReq_kept | intro _ | split | refine Kept.set_wrn ?_ (hc := ?_)

theorem routeReq_kept {cv : List Block} {s0 : State} (e : ExtRec) (g : Nat) (rd : Bool) (r : MemReq) (s : State) (hk0 : Kept cv s0 s)
    (hc : covers [.pwr, .hst, .ext, .cdc, .drt, .hrd, .wrn, .eng, .flt, .out] cv = true := by exact covers_le (by assumption) rfl) :
    Kept cv s0 (routeReq e g rd r s) := by
  unfold routeReq
  repeat' first
    | exact covers_le hc rfl
    | with_reducible first
      | assumption | refine note_kept _ _ ?_ (hc := ?_) (hd := by with_unfolding_all rfl) | apply answerRefused_kept
      | apply answerPoison_kept | apply answerWrite_kept | apply onExtent_kept | apply forwardReq_kept | apply serveWrite_kept
      | apply serveRead_kept | intro _ | split

theorem hostRequest_kept {cv : List Block} {s0 : State} (r : MemReq) (dpa : Nat) (s : State) (hk0 : Kept cv s0 s)
    (hc : covers [.pwr, .hst, .ext, .cdc, .drt, .hrd, .wrn, .eng, .flt, .out] cv = true := by exact covers_le (by assumption) rfl) :
    Kept cv s0 (hostRequest r dpa s) := by
  unfold hostRequest
  repeat' first
    | exact covers_le hc rfl
    | with_reducible first
      | assumption | refine note_kept _ _ ?_ (hc := ?_) (hd := by with_unfolding_all rfl) | apply park_kept
      | apply answerRefused_kept | apply routeReq_kept | intro _ | split | refine Kept.set_hst ?_ (.of_eq rfl) (hc := ?_)
      | (refine Kept.set_hst ?_ (.ld ?_) (hc := ?_); rotate_left; exact fun _ h => h)

theorem resumeReq_kept {cv : List Block} {s0 : State} (r : MemReq) (s : State) (hk0 : Kept cv s0 s)
    (hc : covers [.pwr, .hst, .ext, .cdc, .drt, .hrd, .wrn, .eng, .flt, .out] cv = true := by exact covers_le (by assumption) rfl) :
    Kept cv s0 (resumeReq r s) := by
  unfold resumeReq
  repeat' first
    | exact covers_le hc rfl
    | with_reducible first
      | assumption | apply answerRefused_kept | apply forwardReq_kept | apply answerWrite_kept | apply serveWrite_kept
      | apply serveRead_kept | split

theorem resumeWhere_kept {cv : List Block} {s0 : State} (p : MemReq → Bool) (s : State) (hk0 : Kept cv s0 s)
    (hc : covers [.pwr, .hst, .ext, .cdc, .drt, .hrd, .wrn, .eng, .flt, .out] cv = true := by exact covers_le (by assumption) rfl) :
    Kept cv s0 (resumeWhere p s) := by
  unfold resumeWhere
  repeat' first
    | exact covers_le hc rfl
    | with_reducible first
      | assumption | apply resumeReq_kept | apply Kept.foldl | apply Kept.foldl_fst | intro _
      | refine Kept.set_hst ?_ (.of_eq rfl) (hc := ?_)

theorem applyOrphans_kept {cv : List Block} {s0 : State} (s : State) (hk0 : Kept cv s0 s)
    (hc : covers [.pwr, .hst, .ext, .cdc, .drt, .hrd, .wrn, .eng, .flt, .out] cv = true := by exact covers_le (by assumption) rfl) :
    Kept cv s0 (applyOrphans s) := by
  unfold applyOrphans
  repeat' first
    | exact covers_le hc rfl
    | with_reducible first
      | assumption | apply stageWrite_kept | apply fillForAgent_kept | apply Kept.foldl | apply Kept.foldl_fst | intro _ | split
      | refine Kept.set_ext ?_ (hc := ?_)

theorem settle_kept {cv : List Block} {s0 : State} (s : State) (hk0 : Kept cv s0 s)
    (hc : covers [.pwr, .hst, .ext, .cdc, .drt, .hrd, .wrn, .eng, .flt, .out] cv = true := by exact covers_le (by assumption) rfl) :
    Kept cv s0 (settle s) := by
  unfold settle
  repeat' first
    | exact covers_le hc rfl
    | with_reducible first
      | assumption | apply applyOrphans_kept | apply resumeWhere_kept | apply startFill_kept | apply Kept.foldl
      | apply Kept.foldl_fst | intro _ | split

theorem repackTile_kept {cv : List Block} {s0 : State} (tenant tile : Nat) (s : State) (hk0 : Kept cv s0 s)
    (hc : covers [.pwr, .hst, .cdc, .drt, .hrd, .wrn, .flt, .out] cv = true := by exact covers_le (by assumption) rfl) :
    Kept cv s0 (repackTile tenant tile s) := by
  unfold repackTile
  repeat' first
    | exact covers_le hc rfl
    | with_reducible first
      | assumption | apply logTile_kept | apply startFill_kept | intro _ | split | refine Kept.set_hrd ?_ (hc := ?_)

theorem settleSnoops_kept {cv : List Block} {s0 : State} (s : State) (hk0 : Kept cv s0 s)
    (hc : covers [.pwr, .hst, .ext, .cdc, .drt, .hrd, .wrn, .eng, .flt, .out] cv = true := by exact covers_le (by assumption) rfl) :
    Kept cv s0 (settleSnoops s) := by
  unfold settleSnoops
  repeat' first
    | exact covers_le hc rfl
    | with_reducible first
      | assumption | apply snoopsDone_kept | apply resumeWhere_kept

end Sys2Proof.Safety
end

