-- ==== Sys2Proof/Laws/KeptAgent.lean ====
section
/-! SUPPORT. What the definitions of Machine/Agent.lean keep: one lemma per definition, from any earlier state. -/

namespace Sys2Proof.Safety

-- The lemmas of this file are checked one after another, with few threads at a time.
set_option Elab.async false

open Sys2Proof.Machine

theorem keepLine_kept {cv : List Block} {s0 : State} (x : AgentLine) (s : State) (hk0 : Kept cv s0 s)
    (hc : covers [.opq] cv = true := by exact covers_le (by assumption) rfl) :
    Kept cv s0 (keepLine x s) := by
  unfold keepLine
  repeat' first
    | exact covers_le hc rfl
    | with_reducible first
      | assumption | refine Kept.set_opq ?_ (hc := ?_)

theorem dropLines_kept {cv : List Block} {s0 : State} (tenant addr len : Nat) (s : State) (hk0 : Kept cv s0 s)
    (hc : covers [.opq] cv = true := by exact covers_le (by assumption) rfl) :
    Kept cv s0 (dropLines tenant addr len s) := by
  unfold dropLines
  repeat' first
    | exact covers_le hc rfl
    | with_reducible first
      | assumption | refine Kept.set_opq ?_ (hc := ?_)

theorem askLine_kept {cv : List Block} {s0 : State} (tenant line : Nat) (s : State) (hk0 : Kept cv s0 s)
    (hc : covers [.hst, .wrn, .opq, .flt, .out] cv = true := by exact covers_le (by assumption) rfl) :
    Kept cv s0 (askLine tenant line s) := by
  unfold askLine
  dsimp only
  repeat' first
    | exact covers_le hc rfl
    | with_reducible first
      | assumption | refine note_kept _ _ ?_ (hc := ?_) (hd := by with_unfolding_all rfl) | apply sendReq_kept | apply keepLine_kept | split

theorem bringRange_kept {cv : List Block} {s0 : State} (tenant addr len : Nat) (write : Bool) (s : State) (hk0 : Kept cv s0 s)
    (hc : covers [.pwr, .hst, .ext, .cdc, .drt, .hrd, .wrn, .opq, .flt, .out] cv = true := by exact covers_le (by assumption) rfl) :
    Kept cv s0 (bringRange tenant addr len write s) := by
  unfold bringRange
  repeat' first
    | exact covers_le hc rfl
    | with_reducible first
      | assumption | apply startSnoop_kept | apply startFill_kept | apply askLine_kept | apply Kept.foldl | apply Kept.foldl_fst | intro _ | split

theorem agentLine_kept {cv : List Block} {s0 : State} (tenant line : Nat) (s : State) (hk0 : Kept cv s0 s)
    (hc : covers [.pwr, .hst, .cdc, .drt, .hrd, .wrn, .flt, .out, .free] cv = true := by exact covers_le (by assumption) rfl) :
    Kept cv s0 (agentLine tenant line s).1 := by
  unfold agentLine
  dsimp only
  repeat' first
    | exact covers_le hc rfl
    | with_reducible first
      | assumption | apply draw_kept | apply recoverFault_kept | split

theorem agentRead_kept {cv : List Block} {s0 : State} (tenant addr len : Nat) (s : State) (hk0 : Kept cv s0 s)
    (hc : covers [.pwr, .hst, .cdc, .drt, .hrd, .wrn, .opq, .flt, .out, .free] cv = true := by exact covers_le (by assumption) rfl) :
    Kept cv s0 (agentRead tenant addr len s).1 := by
  unfold agentRead
  repeat' first
    | exact covers_le hc rfl
    | with_reducible first
      | assumption | apply agentLine_kept | apply dropLines_kept | apply Kept.foldl | apply Kept.foldl_fst | intro _

theorem agentLines_kept {cv : List Block} {s0 : State} (tenant addr len : Nat) (s : State) (hk0 : Kept cv s0 s)
    (hc : covers [.pwr, .hst, .cdc, .drt, .hrd, .wrn, .flt, .out, .free] cv = true := by exact covers_le (by assumption) rfl) :
    Kept cv s0 (agentLines tenant addr len s).1 := by
  unfold agentLines
  repeat' first
    | exact covers_le hc rfl
    | with_reducible first
      | assumption | apply agentLine_kept | apply Kept.foldl | apply Kept.foldl_fst | intro _

theorem agentWriteLine_kept {cv : List Block} {s0 : State} (tenant line stream : Nat) (be : BitVec 64) (data : List Byte) (poison : Bool) (s : State) (hk0 : Kept cv s0 s)
    (hc : covers [.pwr, .hst, .cdc, .drt, .hrd, .wrn, .eng, .flt, .out] cv = true := by exact covers_le (by assumption) rfl) :
    Kept cv s0 (agentWriteLine tenant line stream be data poison s).1 := by
  unfold agentWriteLine
  repeat' first
    | exact covers_le hc rfl
    | with_reducible first
      | assumption | apply stageWrite_kept | apply fillForAgent_kept | apply sendReq_kept | split

theorem agentWrite_kept {cv : List Block} {s0 : State} (tenant addr stream : Nat) (bytes : List Byte) (s : State) (hk0 : Kept cv s0 s)
    (hc : covers [.pwr, .hst, .cdc, .drt, .hrd, .wrn, .eng, .flt, .out] cv = true := by exact covers_le (by assumption) rfl) :
    Kept cv s0 (agentWrite tenant addr stream bytes s).1 := by
  unfold agentWrite
  repeat' first
    | exact covers_le hc rfl
    | with_reducible first
      | assumption | apply agentWriteLine_kept | apply Kept.foldl | apply Kept.foldl_fst | intro _

end Sys2Proof.Safety
end

