-- ==== Sys2Proof/Laws/KeptIntake.lean ====
section
/-! SUPPORT. What the definitions of Machine/Intake.lean keep: one lemma per definition, from any earlier state. -/

namespace Sys2Proof.Safety

-- The lemmas of this file are checked one after another, with few threads at a time.
set_option Elab.async false

open Sys2Proof.Machine

theorem hear_kept {cv : List Block} {s0 : State} (u : Nat) (s : State) (hk0 : Kept cv s0 s)
    (hc : covers [.wrn] cv = true := by exact covers_le (by assumption) rfl) :
    Kept cv s0 (hear u s) := by
  unfold hear
  repeat' first
    | exact covers_le hc rfl
    | with_reducible first
      | assumption | refine Kept.set_wrn ?_ (hc := ?_)

theorem dropOn_kept {cv : List Block} {s0 : State} (port step op : Nat) (s : State) (hk0 : Kept cv s0 s)
    (hc : covers [.hst, .wrn, .flt, .out] cv = true := by exact covers_le (by assumption) rfl) :
    Kept cv s0 (dropOn port step op s) := by
  unfold dropOn
  repeat' first
    | exact covers_le hc rfl
    | with_reducible first
      | assumption | refine note_kept _ _ ?_ (hc := ?_) (hd := by with_unfolding_all rfl) | apply onPort_kept

theorem dropQuiet_kept {cv : List Block} {s0 : State} (src : Nat) (s : State) (hk0 : Kept cv s0 s)
    (hc : covers [.wrn] cv = true := by exact covers_le (by assumption) rfl) :
    Kept cv s0 (dropQuiet src s) := by
  unfold dropQuiet
  repeat' first
    | exact covers_le hc rfl
    | with_reducible first
      | assumption | apply onPort_kept

theorem dropFrom_kept {cv : List Block} {s0 : State} (src step op : Nat) (s : State) (hk0 : Kept cv s0 s)
    (hc : covers [.hst, .wrn, .flt, .out] cv = true := by exact covers_le (by assumption) rfl) :
    Kept cv s0 (dropFrom src step op s) := by
  unfold dropFrom
  repeat' first
    | exact covers_le hc rfl
    | with_reducible first
      | assumption | apply dropOn_kept

theorem peerRequest_kept {cv : List Block} {s0 : State} (src tag tenant : Nat) (fields served : Bool) (refused absent : Msg) (k : State → State) (s : State) (hk : ∀ u, Kept cv s0 u → Kept cv s0 (k u)) (hk0 : Kept cv s0 s)
    (hc : covers [.wrn, .out] cv = true := by exact covers_le (by assumption) rfl) :
    Kept cv s0 (peerRequest src tag tenant fields served refused absent k s) := by
  unfold peerRequest
  dsimp only
  repeat' first
    | exact covers_le hc rfl
    | with_reducible first
      | assumption | apply hk | apply hear_kept | apply sendMsg_kept | apply respond_kept | apply dupOpen_kept | intro _ | split

theorem peerResponse_kept {cv : List Block} {s0 : State} (src tag op : Nat) (fields : Bool) (k : Outst → State → State) (s : State) (hk : ∀ x0 u, Kept cv s0 u → Kept cv s0 (k x0 u)) (hk0 : Kept cv s0 s)
    (hc : covers [.hst, .wrn, .flt, .out] cv = true := by exact covers_le (by assumption) rfl) :
    Kept cv s0 (peerResponse src tag op fields k s) := by
  unfold peerResponse
  dsimp only
  repeat' first
    | exact covers_le hc rfl
    | with_reducible first
      | assumption | apply hk | apply hear_kept | apply dropFrom_kept | intro _ | split

end Sys2Proof.Safety
end

