-- ==== Sys2Proof/Laws/KeptMbxCore.lean ====
section
/-! SUPPORT. What the definitions of Machine/MbxCore.lean keep: one lemma per definition, from any earlier state. -/

namespace Sys2Proof.Safety

-- The lemmas of this file are checked one after another, with few threads at a time.
set_option Elab.async false

open Sys2Proof.Machine

theorem onBox_kept {cv : List Block} {s0 : State} (ld : Nat) (f : HostBox → HostBox) (s : State) (hk0 : Kept cv s0 s)
    (hc : covers [.mbx] cv = true := by exact covers_le (by assumption) rfl) :
    Kept cv s0 (onBox ld f s) := by
  unfold onBox
  repeat' first
    | exact covers_le hc rfl
    | with_reducible first
      | assumption | refine Kept.set_mbx ?_ (hc := ?_)

theorem onInt_kept {cv : List Block} {s0 : State} (j : Nat) (f : IntBox → IntBox) (s : State) (hk0 : Kept cv s0 s)
    (hc : covers [.mbx] cv = true := by exact covers_le (by assumption) rfl) :
    Kept cv s0 (onInt j f s) := by
  unfold onInt
  repeat' first
    | exact covers_le hc rfl
    | with_reducible first
      | assumption | refine Kept.set_mbx ?_ (hc := ?_)

theorem ringBell_kept {cv : List Block} {s0 : State} (ld : Nat) (before after : HostBox) (s : State) (hk0 : Kept cv s0 s)
    (hc : covers [.hst, .out] cv = true := by exact covers_le (by assumption) rfl) :
    Kept cv s0 (ringBell ld before after s) := by
  unfold ringBell
  repeat' first
    | exact covers_le hc rfl
    | with_reducible first
      | assumption | apply sendMsix_kept | split

theorem onBoxBell_kept {cv : List Block} {s0 : State} (ld : Nat) (f : HostBox → HostBox) (s : State) (hk0 : Kept cv s0 s)
    (hc : covers [.hst, .mbx, .out] cv = true := by exact covers_le (by assumption) rfl) :
    Kept cv s0 (onBoxBell ld f s) := by
  unfold onBoxBell
  repeat' first
    | exact covers_le hc rfl
    | with_reducible first
      | assumption | apply ringBell_kept | apply onBox_kept

theorem setDb_kept {cv : List Block} {s0 : State} (ld : Nat) (b : Nat) (s : State) (hk0 : Kept cv s0 s)
    (hc : covers [.hst, .mbx, .out] cv = true := by exact covers_le (by assumption) rfl) :
    Kept cv s0 (setDb ld b s) := by
  unfold setDb
  repeat' first
    | exact covers_le hc rfl
    | with_reducible first
      | assumption | apply onBoxBell_kept

theorem setDbTenant_kept {cv : List Block} {s0 : State} (t b : Nat) (s : State) (hk0 : Kept cv s0 s)
    (hc : covers [.hst, .mbx, .out] cv = true := by exact covers_le (by assumption) rfl) :
    Kept cv s0 (setDbTenant t b s) := by
  unfold setDbTenant
  repeat' first
    | exact covers_le hc rfl
    | with_reducible first
      | assumption | apply setDb_kept | apply Kept.foldl | apply Kept.foldl_fst | intro _

theorem fwSend_kept {cv : List Block} {s0 : State} (ld : Nat) (m : MbxMsg) (s : State) (hk0 : Kept cv s0 s)
    (hc : covers [.hst, .mbx, .out] cv = true := by exact covers_le (by assumption) rfl) :
    Kept cv s0 (fwSend ld m s) := by
  unfold fwSend
  repeat' first
    | exact covers_le hc rfl
    | with_reducible first
      | assumption | apply onBoxBell_kept

theorem hostEpoch_kept {cv : List Block} {s0 : State} (ld : Nat) (s : State) (hk0 : Kept cv s0 s)
    (hc : covers [.hst, .mbx, .out] cv = true := by exact covers_le (by assumption) rfl) :
    Kept cv s0 (hostEpoch ld s) := by
  unfold hostEpoch
  repeat' first
    | exact covers_le hc rfl
    | with_reducible first
      | assumption | apply onBoxBell_kept

theorem intBells_kept {cv : List Block} {s0 : State} (j : Nat) (l : List Nat) (s : State) (hk0 : Kept cv s0 s)
    (hc : covers [.mbx, .out] cv = true := by exact covers_le (by assumption) rfl) :
    Kept cv s0 (intBells j l s) := by
  unfold intBells
  repeat' first
    | exact covers_le hc rfl
    | with_reducible first
      | assumption | apply emit_kept | apply onInt_kept | apply Kept.foldl | apply Kept.foldl_fst | intro _

theorem fwEpochAdvance_kept {cv : List Block} {s0 : State} (s : State) (hk0 : Kept cv s0 s)
    (hc : covers [.hst, .mbx, .out] cv = true := by exact covers_le (by assumption) rfl) :
    Kept cv s0 (fwEpochAdvance s) := by
  unfold fwEpochAdvance
  repeat' first
    | exact covers_le hc rfl
    | with_reducible first
      | assumption | apply onBoxBell_kept | apply intBells_kept | apply onInt_kept | apply Kept.foldl | apply Kept.foldl_fst | intro _ | split
      | refine Kept.set_mbx ?_ (hc := ?_)

theorem engEpochAdvance_kept {cv : List Block} {s0 : State} (e : Nat) (s : State) (hk0 : Kept cv s0 s)
    (hc : covers [.mbx, .out] cv = true := by exact covers_le (by assumption) rfl) :
    Kept cv s0 (engEpochAdvance e s) := by
  unfold engEpochAdvance
  repeat' first
    | exact covers_le hc rfl
    | with_reducible first
      | assumption | apply intBells_kept | apply onInt_kept | intro _ | split | refine Kept.set_mbx ?_ (hc := ?_)

theorem modeChange_kept {cv : List Block} {s0 : State} (ld : Nat) (pointer : Bool) (s : State) (hk0 : Kept cv s0 s)
    (hc : covers [.hst, .mbx, .out] cv = true := by exact covers_le (by assumption) rfl) :
    Kept cv s0 (modeChange ld pointer s) := by
  unfold modeChange
  repeat' first
    | exact covers_le hc rfl
    | with_reducible first
      | assumption | apply onBoxBell_kept

theorem intModeChange_kept {cv : List Block} {s0 : State} (j : Nat) (pointer : Bool) (s : State) (hk0 : Kept cv s0 s)
    (hc : covers [.mbx, .out] cv = true := by exact covers_le (by assumption) rfl) :
    Kept cv s0 (intModeChange j pointer s) := by
  unfold intModeChange
  repeat' first
    | exact covers_le hc rfl
    | with_reducible first
      | assumption | apply intBells_kept | apply onInt_kept

theorem mbxRefused_kept {cv : List Block} {s0 : State} (box situation : Nat) (ld : Option Nat) (s : State) (hk0 : Kept cv s0 s)
    (hc : covers [.hst, .flt, .out] cv = true := by exact covers_le (by assumption) rfl) :
    Kept cv s0 (mbxRefused box situation ld s) := by
  unfold mbxRefused
  repeat' first
    | exact covers_le hc rfl
    | with_reducible first
      | assumption | refine note_kept _ _ ?_ (hc := ?_) (hd := by with_unfolding_all rfl)

end Sys2Proof.Safety
end

