-- ==== Sys2Proof/Laws/KeptOpCore.lean ====
section
/-! SUPPORT. What the definitions of Machine/OpCore.lean keep: one lemma per definition, from any earlier state. -/

namespace Sys2Proof.Safety

-- The lemmas of this file are checked one after another, with few threads at a time.
set_option Elab.async false

open Sys2Proof.Machine

theorem onRing_kept {cv : List Block} {s0 : State} (n : Nat) (f : Ring → Ring) (s : State) (hk0 : Kept cv s0 s)
    (hc : covers [.opq] cv = true := by exact covers_le (by assumption) rfl) :
    Kept cv s0 (onRing n f s) := by
  unfold onRing
  repeat' first
    | exact covers_le hc rfl
    | with_reducible first
      | assumption | refine Kept.set_opq ?_ (hc := ?_)

theorem writeRecord_kept {cv : List Block} {s0 : State} (n : Nat) (rcd : List Byte) (irq : Bool) (s : State) (hk0 : Kept cv s0 s)
    (hc : covers [.pwr, .hst, .cdc, .drt, .hrd, .wrn, .eng, .opq, .flt, .out] cv = true := by exact covers_le (by assumption) rfl) :
    Kept cv s0 (writeRecord n rcd irq s) := by
  unfold writeRecord
  dsimp only
  repeat' first
    | exact covers_le hc rfl
    | with_reducible first
      | assumption | apply agentWrite_kept | apply onRing_kept | apply sendMsix_kept | intro _ | split

theorem discardRecords_kept {cv : List Block} {s0 : State} (n k : Nat) (s : State) (hk0 : Kept cv s0 s)
    (hc : covers [.hst, .opq, .flt, .out] cv = true := by exact covers_le (by assumption) rfl) :
    Kept cv s0 (discardRecords n k s) := by
  unfold discardRecords
  repeat' first
    | exact covers_le hc rfl
    | with_reducible first
      | assumption | refine note_kept _ _ ?_ (hc := ?_) (hd := by with_unfolding_all rfl) | apply onRing_kept | intro _ | split

theorem ringsGone_kept {cv : List Block} {s0 : State} (s : State) (hk0 : Kept cv s0 s)
    (hc : covers [.opq] cv = true := by exact covers_le (by assumption) rfl) :
    Kept cv s0 (ringsGone s) := by
  unfold ringsGone
  repeat' first
    | exact covers_le hc rfl
    | with_reducible first
      | assumption | intro _ | split | refine Kept.set_opq ?_ (hc := ?_)

theorem flushRecords_kept {cv : List Block} {s0 : State} (s : State) (hk0 : Kept cv s0 s)
    (hc : covers [.pwr, .hst, .ext, .cdc, .drt, .hrd, .wrn, .eng, .opq, .flt, .out] cv = true := by exact covers_le (by assumption) rfl) :
    Kept cv s0 (flushRecords s) := by
  unfold flushRecords
  dsimp only
  repeat' first
    | exact covers_le hc rfl
    | with_reducible first
      | assumption | apply ringsGone_kept | apply discardRecords_kept | apply onRing_kept | apply bringRange_kept
      | apply writeRecord_kept | apply Kept.foldl | apply Kept.foldl_fst | intro _ | split | refine Kept.set_opq ?_ (hc := ?_)

theorem deliver_kept {cv : List Block} {s0 : State} (n : Nat) (rcd : List Byte) (irq : Bool) (s : State) (hk0 : Kept cv s0 s)
    (hc : covers [.pwr, .hst, .ext, .cdc, .drt, .hrd, .wrn, .eng, .opq, .flt, .out] cv = true := by exact covers_le (by assumption) rfl) :
    Kept cv s0 (deliver n rcd irq s) := by
  unfold deliver
  repeat' first
    | exact covers_le hc rfl
    | with_reducible first
      | assumption | apply flushRecords_kept | refine Kept.set_opq ?_ (hc := ?_)

theorem onOp_kept {cv : List Block} {s0 : State} (o : Op) (f : Op → Op) (s : State) (hk0 : Kept cv s0 s)
    (hc : covers [.opq] cv = true := by exact covers_le (by assumption) rfl) :
    Kept cv s0 (onOp o f s) := by
  unfold onOp
  repeat' first
    | exact covers_le hc rfl
    | with_reducible first
      | assumption | intro _ | split | refine Kept.set_opq ?_ (hc := ?_)

theorem moveIntake_kept {cv : List Block} {s0 : State} (s : State) (hk0 : Kept cv s0 s)
    (hc : covers [.opq] cv = true := by exact covers_le (by assumption) rfl) :
    Kept cv s0 (moveIntake s) := by
  unfold moveIntake
  repeat' first
    | exact covers_le hc rfl
    | with_reducible first
      | assumption | split | refine Kept.set_opq ?_ (hc := ?_)

theorem sendFwd_kept {cv : List Block} {s0 : State} (o : Op) (s : State) (hk0 : Kept cv s0 s)
    (hc : covers [.wrn, .opq, .out] cv = true := by exact covers_le (by assumption) rfl) :
    Kept cv s0 (sendFwd o s) := by
  unfold sendFwd
  repeat' first
    | exact covers_le hc rfl
    | with_reducible first
      | assumption | apply sendReq_kept | intro _ | split | refine Kept.set_opq ?_ (hc := ?_)

theorem releaseFences_kept {cv : List Block} {s0 : State} (s : State) (hk0 : Kept cv s0 s)
    (hc : covers [.wrn, .opq, .out] cv = true := by exact covers_le (by assumption) rfl) :
    Kept cv s0 (releaseFences s) := by
  unfold releaseFences
  repeat' first
    | exact covers_le hc rfl
    | with_reducible first
      | assumption | apply sendFwd_kept | apply Kept.foldl | apply Kept.foldl_fst | intro _

theorem retireOp_kept {cv : List Block} {s0 : State} (o : Op) (v : RecVals) (s : State) (hk0 : Kept cv s0 s)
    (hc : covers [.pwr, .hst, .ext, .cdc, .drt, .hrd, .wrn, .eng, .opq, .flt, .out] cv = true := by exact covers_le (by assumption) rfl) :
    Kept cv s0 (retireOp o v s) := by
  unfold retireOp
  repeat' first
    | exact covers_le hc rfl
    | with_reducible first
      | assumption | refine note_kept _ _ ?_ (hc := ?_) (hd := by with_unfolding_all rfl) | apply deliver_kept | apply respond_kept
      | apply releaseFences_kept | apply moveIntake_kept | intro _ | split | refine Kept.set_eng_opq ?_ (hc := ?_)

theorem abortOp_kept {cv : List Block} {s0 : State} (o : Op) (cause : Nat) (s : State) (hk0 : Kept cv s0 s)
    (hc : covers [.pwr, .hst, .ext, .cdc, .drt, .hrd, .wrn, .eng, .opq, .flt, .out] cv = true := by exact covers_le (by assumption) rfl) :
    Kept cv s0 (abortOp o cause s) := by
  unfold abortOp
  repeat' first
    | exact covers_le hc rfl
    | with_reducible first
      | assumption | apply retireOp_kept | apply onOp_kept | intro _ | split

theorem abortOps_kept {cv : List Block} {s0 : State} (p : Op → Bool) (cause : Nat) (s : State) (hk0 : Kept cv s0 s)
    (hc : covers [.pwr, .hst, .ext, .cdc, .drt, .hrd, .wrn, .eng, .opq, .flt, .out] cv = true := by exact covers_le (by assumption) rfl) :
    Kept cv s0 (abortOps p cause s) := by
  unfold abortOps
  repeat' first
    | exact covers_le hc rfl
    | with_reducible first
      | assumption | apply abortOp_kept | apply Kept.foldl | apply Kept.foldl_fst | intro _

theorem opWritten_kept {cv : List Block} {s0 : State} (o : Op) (before : List Outst) (discarded : Bool) (s : State) (hk0 : Kept cv s0 s)
    (hc : covers [.opq] cv = true := by exact covers_le (by assumption) rfl) :
    Kept cv s0 (opWritten o before discarded s) := by
  unfold opWritten
  dsimp only
  repeat' first
    | exact covers_le hc rfl
    | with_reducible first
      | assumption | apply onOp_kept | intro _ | split

theorem opWrite_kept {cv : List Block} {s0 : State} (o : Op) (addr : Nat) (bytes : List Byte) (s : State) (hk0 : Kept cv s0 s)
    (hc : covers [.pwr, .hst, .cdc, .drt, .hrd, .wrn, .eng, .opq, .flt, .out] cv = true := by exact covers_le (by assumption) rfl) :
    Kept cv s0 (opWrite o addr bytes s) := by
  unfold opWrite
  repeat' first
    | exact covers_le hc rfl
    | with_reducible first
      | assumption | apply agentWrite_kept | apply opWritten_kept

theorem opWriteLine_kept {cv : List Block} {s0 : State} (o : Op) (line : Nat) (be : BitVec 64) (data : List Byte) (poison : Bool) (s : State) (hk0 : Kept cv s0 s)
    (hc : covers [.pwr, .hst, .cdc, .drt, .hrd, .wrn, .eng, .opq, .flt, .out] cv = true := by exact covers_le (by assumption) rfl) :
    Kept cv s0 (opWriteLine o line be data poison s) := by
  unfold opWriteLine
  repeat' first
    | exact covers_le hc rfl
    | with_reducible first
      | assumption | apply agentWriteLine_kept | apply opWritten_kept

theorem opWriteStrip_kept {cv : List Block} {s0 : State} (o : Op) (strip : Nat) (ls : List (BitVec 64 × List Byte × Bool)) (s : State) (hk0 : Kept cv s0 s)
    (hc : covers [.pwr, .hst, .cdc, .drt, .hrd, .wrn, .eng, .opq, .flt, .out] cv = true := by exact covers_le (by assumption) rfl) :
    Kept cv s0 (opWriteStrip o strip ls s) := by
  unfold opWriteStrip
  dsimp only
  repeat' first
    | exact covers_le hc rfl
    | with_reducible first
      | assumption | apply opWriteLine_kept | apply outputStrip_kept | apply Kept.foldl | apply Kept.foldl_fst | intro _ | split

theorem opWriteDone_kept {cv : List Block} {s0 : State} (tag : Nat) (discarded lost : Bool) (s : State) (hk0 : Kept cv s0 s)
    (hc : covers [.opq] cv = true := by exact covers_le (by assumption) rfl) :
    Kept cv s0 (opWriteDone tag discarded lost s) := by
  unfold opWriteDone
  repeat' first
    | exact covers_le hc rfl
    | with_reducible first
      | assumption | intro _ | split | refine Kept.set_opq ?_ (hc := ?_)

theorem ringStop_kept {cv : List Block} {s0 : State} (n err : Nat) (s : State) (hk0 : Kept cv s0 s)
    (hc : covers [.hst, .opq, .flt, .out] cv = true := by exact covers_le (by assumption) rfl) :
    Kept cv s0 (ringStop n err s) := by
  unfold ringStop
  repeat' first
    | exact covers_le hc rfl
    | with_reducible first
      | assumption | refine note_kept _ _ ?_ (hc := ?_) (hd := by with_unfolding_all rfl) | apply onRing_kept | intro _ | split

theorem releaseHeld_kept {cv : List Block} {s0 : State} (x : Nat) (s : State) (hk0 : Kept cv s0 s)
    (hc : covers [.pwr, .hst, .ext, .cdc, .drt, .hrd, .wrn, .eng, .opq, .flt, .out] cv = true := by exact covers_le (by assumption) rfl) :
    Kept cv s0 (releaseHeld x s) := by
  unfold releaseHeld
  repeat' first
    | exact covers_le hc rfl
    | with_reducible first
      | assumption | apply flushRecords_kept | apply onRing_kept | apply Kept.foldl | apply Kept.foldl_fst | intro _
      | ((fail_if_no_progress (extract_lets +onlyGivenNames x)); refine Kept.cut (cv := cv) (s := s0) x ?_ (fun hx => ?_) <;> [dsimp -zeta only [x]; clear_value x])
      | ((fail_if_no_progress (extract_lets +onlyGivenNames x)); clear_value x) | dsimp -zeta only
      | refine Kept.set_opq ?_ (hc := ?_)

theorem moveExtent_kept {cv : List Block} {s0 : State} (x st : Nat) (s : State) (hk0 : Kept cv s0 s)
    (hc : covers [.pwr, .hst, .mbx, .ext, .cdc, .drt, .hrd, .wrn, .eng, .opq, .flt, .out] cv = true := by exact covers_le (by assumption) rfl) :
    Kept cv s0 (moveExtent x st s) := by
  unfold moveExtent
  dsimp only
  repeat' first
    | exact covers_le hc rfl
    | with_reducible first
      | assumption | apply setDbTenant_kept | apply onExtent_kept | apply ringStop_kept | apply releaseHeld_kept | apply Kept.foldl
      | apply Kept.foldl_fst | intro _ | split

end Sys2Proof.Safety
end

