-- ==== Sys2Proof/Laws/KeptExtents.lean ====
section
/-! SUPPORT. What the definitions of Machine/Extents.lean keep: one lemma per definition, from any earlier state. -/

namespace Sys2Proof.Safety

-- The lemmas of this file are checked one after another, with few threads at a time.
set_option Elab.async false

open Sys2Proof.Machine

theorem dcEvent_kept {cv : List Block} {s0 : State} (ld : Nat) (ev : DcEvent) (s : State) (hk0 : Kept cv s0 s)
    (hc : covers [.hst, .mbx, .flt, .out] cv = true := by exact covers_le (by assumption) rfl) :
    Kept cv s0 (dcEvent ld ev s) := by
  unfold dcEvent
  repeat' first
    | exact covers_le hc rfl
    | with_reducible first
      | assumption | apply setDb_kept | apply sendMsix_kept | intro _ | refine Kept.set_flt ?_ (hc := ?_)

theorem offerLd_kept {cv : List Block} {s0 : State} (ld : Nat) (e : ExtRec) (reader : Bool) (s : State) (hk0 : Kept cv s0 s)
    (hc : covers [.hst, .mbx, .flt, .out] cv = true := by exact covers_le (by assumption) rfl) :
    Kept cv s0 (offerLd ld e reader s) := by
  unfold offerLd
  repeat' first
    | exact covers_le hc rfl
    | with_reducible first
      | assumption | apply dcEvent_kept | intro _ | split | refine Kept.set_hst ?_ (.of_eq rfl) (hc := ?_)
      | (refine Kept.set_hst ?_ (.ld ?_) (hc := ?_); rotate_left; exact fun _ h => h)

theorem offerTenant_kept {cv : List Block} {s0 : State} (t : Nat) (e : ExtRec) (reader : Bool) (s : State) (hk0 : Kept cv s0 s)
    (hc : covers [.hst, .mbx, .flt, .out] cv = true := by exact covers_le (by assumption) rfl) :
    Kept cv s0 (offerTenant t e reader s) := by
  unfold offerTenant
  dsimp only
  repeat' first
    | exact covers_le hc rfl
    | with_reducible first
      | assumption | apply offerLd_kept | apply Kept.foldl | apply Kept.foldl_fst | intro _ | split

theorem offerAll_kept {cv : List Block} {s0 : State} (ld : Nat) (again : Bool) (s : State) (hk0 : Kept cv s0 s)
    (hc : covers [.hst, .mbx, .flt, .out] cv = true := by exact covers_le (by assumption) rfl) :
    Kept cv s0 (offerAll ld again s) := by
  unfold offerAll
  dsimp only
  repeat' first
    | exact covers_le hc rfl
    | with_reducible first
      | assumption | apply offerLd_kept | apply Kept.foldl | apply Kept.foldl_fst | intro _ | split

theorem offersGo_kept {cv : List Block} {s0 : State} (s : State) (hk0 : Kept cv s0 s)
    (hc : covers [.hst, .mbx, .flt, .out] cv = true := by exact covers_le (by assumption) rfl) :
    Kept cv s0 (offersGo s) := by
  unfold offersGo
  repeat' first
    | exact covers_le hc rfl
    | with_reducible first
      | assumption | apply offerAll_kept | apply Kept.foldl | apply Kept.foldl_fst | intro _

theorem kmGo_kept {cv : List Block} {s0 : State} (s : State) (hk0 : Kept cv s0 s)
    (hc : covers [.pwr, .hst, .mbx, .cdc, .drt, .hrd, .wrn, .flt, .out] cv = true := by exact covers_le (by assumption) rfl) :
    Kept cv s0 (kmGo s) := by
  unfold kmGo
  dsimp only
  repeat' first
    | exact covers_le hc rfl
    | with_reducible first
      | assumption | apply kmUpdate_kept | apply offersGo_kept | intro _ | split

theorem offerReaders_kept {cv : List Block} {s0 : State} (e : ExtRec) (s : State) (hk0 : Kept cv s0 s)
    (hc : covers [.hst, .mbx, .ext, .flt, .out] cv = true := by exact covers_le (by assumption) rfl) :
    Kept cv s0 (offerReaders e s) := by
  unfold offerReaders
  repeat' first
    | exact covers_le hc rfl
    | with_reducible first
      | assumption | refine note_kept _ _ ?_ (hc := ?_) (hd := by with_unfolding_all rfl) | apply onExtent_kept
      | apply offerTenant_kept | apply Kept.foldl | apply Kept.foldl_fst | intro _ | split

theorem offerWithheld_kept {cv : List Block} {s0 : State} (s : State) (hk0 : Kept cv s0 s)
    (hc : covers [.hst, .mbx, .ext, .flt, .out] cv = true := by exact covers_le (by assumption) rfl) :
    Kept cv s0 (offerWithheld s) := by
  unfold offerWithheld
  repeat' first
    | exact covers_le hc rfl
    | with_reducible first
      | assumption | apply offerReaders_kept | apply Kept.foldl | apply Kept.foldl_fst | intro _

theorem sealStore_kept {cv : List Block} {s0 : State} (r : SealRun) (e : ExtRec) (m : Tbl (BitVec 32)) (s : State) (hk0 : Kept cv s0 s)
    (hc : covers [.pwr, .hst, .ext, .cdc, .drt, .hrd, .wrn, .flt, .out] cv = true := by exact covers_le (by assumption) rfl) :
    Kept cv s0 (sealStore r e m s) := by
  unfold sealStore
  repeat' first
    | exact covers_le hc rfl
    | with_reducible first
      | assumption | apply commitTile_kept | apply stripeFor_kept | apply appendStripe_kept | apply Kept.foldl
      | apply Kept.foldl_fst | intro _ | refine Kept.set_ext ?_ (hc := ?_)

theorem sealRest_kept {cv : List Block} {s0 : State} (r : SealRun) (s : State) (hk0 : Kept cv s0 s)
    (hc : covers [.pwr, .hst, .ext, .cdc, .drt, .hrd, .wrn, .flt, .out] cv = true := by exact covers_le (by assumption) rfl) :
    Kept cv s0 (sealRest r s) := by
  unfold sealRest
  dsimp only
  repeat' first
    | exact covers_le hc rfl
    | with_reducible first
      | assumption | apply flushRange_kept | apply sealStore_kept | apply startFill_kept | apply Kept.foldl | apply Kept.foldl_fst
      | intro _ | split | refine Kept.set_ext ?_ (hc := ?_)

theorem sealsGo_kept {cv : List Block} {s0 : State} (s : State) (hk0 : Kept cv s0 s)
    (hc : covers [.pwr, .hst, .ext, .cdc, .drt, .hrd, .wrn, .flt, .out, .free] cv = true := by exact covers_le (by assumption) rfl) :
    Kept cv s0 (sealsGo s) := by
  unfold sealsGo
  repeat' first
    | exact covers_le hc rfl
    | with_reducible first
      | assumption | apply sealRest_kept | apply Kept.foldl | apply Kept.foldl_fst | intro _

theorem afterSnoops_kept {cv : List Block} {s0 : State} (s : State) (hk0 : Kept cv s0 s)
    (hc : covers [.pwr, .hst, .ext, .cdc, .drt, .hrd, .wrn, .eng, .opq, .flt, .out, .free] cv = true := by exact covers_le (by assumption) rfl) :
    Kept cv s0 (afterSnoops s) := by
  unfold afterSnoops
  repeat' first
    | exact covers_le hc rfl
    | with_reducible first
      | assumption | apply flushRecords_kept | apply sealsGo_kept | apply settleSnoops_kept

theorem finalRsp_kept {cv : List Block} {s0 : State} (ld tenant addr : Nat) (ans : SnoopAns) (s : State) (hk0 : Kept cv s0 s)
    (hc : covers [.pwr, .hst, .ext, .cdc, .drt, .hrd, .wrn, .eng, .opq, .flt, .out, .free] cv = true := by exact covers_le (by assumption) rfl) :
    Kept cv s0 (finalRsp ld tenant addr ans s) := by
  unfold finalRsp
  repeat' first
    | exact covers_le hc rfl
    | with_reducible first
      | assumption | apply afterSnoops_kept | apply snoopAnswer_kept | apply respond_kept | intro _ | split
      | refine Kept.set_ext ?_ (hc := ?_)

theorem rspGo_kept {cv : List Block} {s0 : State} (s : State) (hk0 : Kept cv s0 s)
    (hc : covers [.pwr, .hst, .ext, .cdc, .drt, .hrd, .wrn, .eng, .opq, .flt, .out, .free] cv = true := by exact covers_le (by assumption) rfl) :
    Kept cv s0 (rspGo s) := by
  unfold rspGo
  repeat' first
    | exact covers_le hc rfl
    | with_reducible first
      | assumption | apply finalRsp_kept | apply emit_kept | apply Kept.foldl | apply Kept.foldl_fst | intro _
      | refine Kept.set_ext ?_ (hc := ?_)

theorem execHostBirsp_kept {cv : List Block} {s0 : State} (ld addr : Nat) (ans : SnoopAns) (stamp : Ns) (s : State) (hk0 : Kept cv s0 s)
    (hc : covers [.pwr, .hst, .ext, .cdc, .drt, .hrd, .wrn, .eng, .opq, .flt, .out, .free] cv = true := by exact covers_le (by assumption) rfl) :
    KeptRes cv s0 (execHostBirsp ld addr ans stamp s) := by
  unfold execHostBirsp
  dsimp only
  repeat' first
    | exact covers_le hc rfl
    | with_reducible first
      | assumption | apply finalRsp_kept | apply KeptRes.of_next | split | refine Kept.set_ext ?_ (hc := ?_)

theorem execBiConflict_kept {cv : List Block} {s0 : State} (ld addr : Nat) (s : State) (hk0 : Kept cv s0 s)
    (hc : covers [.pwr, .hst, .ext, .cdc, .drt, .hrd, .wrn, .eng, .opq, .flt, .out, .free] cv = true := by exact covers_le (by assumption) rfl) :
    KeptRes cv s0 (execBiConflict ld addr s) := by
  unfold execBiConflict
  repeat' first
    | exact covers_le hc rfl
    | with_reducible first
      | assumption | apply rspGo_kept | apply KeptRes.of_next | split | refine Kept.set_ext ?_ (hc := ?_)

theorem renewAtHome_kept {cv : List Block} {s0 : State} (t : Nat) (stamp : Ns) (s : State) (hk0 : Kept cv s0 s)
    (hc : covers [.hst, .ext, .flt, .out] cv = true := by exact covers_le (by assumption) rfl) :
    Kept cv s0 (renewAtHome t stamp s) := by
  unfold renewAtHome
  dsimp only
  repeat' first
    | exact covers_le hc rfl
    | with_reducible first
      | assumption | refine noteGen_kept _ _ _ _ ?_ (hc := ?_) (hd := by with_unfolding_all rfl) | apply onLease_kept | intro _
      | split

theorem renew_kept {cv : List Block} {s0 : State} (t : Nat) (stamp : Ns) (s : State) (hk0 : Kept cv s0 s)
    (hc : covers [.hst, .ext, .wrn, .flt, .out] cv = true := by exact covers_le (by assumption) rfl) :
    Kept cv s0 (renew t stamp s) := by
  unfold renew
  repeat' first
    | exact covers_le hc rfl
    | with_reducible first
      | assumption | apply renewAtHome_kept | apply sendMsg_kept | split | refine Kept.set_wrn ?_ (hc := ?_)

theorem takeGrant_kept {cv : List Block} {s0 : State} (t : Nat) (e : Ns) (s : State) (hk0 : Kept cv s0 s)
    (hc : covers [.hst, .mbx, .ext, .out] cv = true := by exact covers_le (by assumption) rfl) :
    Kept cv s0 (takeGrant t e s) := by
  unfold takeGrant
  dsimp only
  repeat' first
    | exact covers_le hc rfl
    | with_reducible first
      | assumption | apply onLease_kept | apply setDbTenant_kept | intro _ | split

theorem homeInit_kept {cv : List Block} {s0 : State} (t : Nat) (at_ : Ns) (s : State) (hk0 : Kept cv s0 s)
    (hc : covers [.ext] cv = true := by exact covers_le (by assumption) rfl) :
    Kept cv s0 (homeInit t at_ s) := by
  unfold homeInit
  repeat' first
    | exact covers_le hc rfl
    | with_reducible first
      | assumption | apply onLease_kept

theorem execLeaseRenew_kept {cv : List Block} {s0 : State} (src tenant : Nat) (stamp : Ns) (s : State) (hk0 : Kept cv s0 s)
    (hc : covers [.hst, .ext, .wrn, .flt, .out] cv = true := by exact covers_le (by assumption) rfl) :
    KeptRes cv s0 (execLeaseRenew src tenant stamp s) := by
  unfold execLeaseRenew
  dsimp only
  repeat' first
    | exact covers_le hc rfl
    | with_reducible first
      | assumption | apply hear_kept | apply dropFrom_kept | apply dropQuiet_kept | apply renewAtHome_kept | apply KeptRes.of_next
      | split

theorem execLeaseGrantDue_kept {cv : List Block} {s0 : State} (tenant : Nat) (s : State) (hk0 : Kept cv s0 s)
    (hc : covers [.hst, .mbx, .ext, .wrn, .out] cv = true := by exact covers_le (by assumption) rfl) :
    KeptRes cv s0 (execLeaseGrantDue tenant s) := by
  unfold execLeaseGrantDue
  dsimp only
  repeat' first
    | exact covers_le hc rfl
    | with_reducible first
      | assumption | apply sendAll_kept | apply onLease_kept | apply takeGrant_kept | apply KeptRes.of_next | intro _ | split

theorem execLeaseGrant_kept {cv : List Block} {s0 : State} (src tenant : Nat) (expiry : Ns) (s : State) (hk0 : Kept cv s0 s)
    (hc : covers [.hst, .mbx, .ext, .wrn, .flt, .out] cv = true := by exact covers_le (by assumption) rfl) :
    KeptRes cv s0 (execLeaseGrant src tenant expiry s) := by
  unfold execLeaseGrant
  dsimp only
  repeat' first
    | exact covers_le hc rfl
    | with_reducible first
      | assumption | apply hear_kept | apply dropFrom_kept | apply takeGrant_kept | apply dropQuiet_kept | apply KeptRes.of_next
      | split

theorem execLeaseGuardReached_kept {cv : List Block} {s0 : State} (tenant : Nat) (s : State) (hk0 : Kept cv s0 s)
    (hc : covers [.hst, .mbx, .ext, .out] cv = true := by exact covers_le (by assumption) rfl) :
    KeptRes cv s0 (execLeaseGuardReached tenant s) := by
  unfold execLeaseGuardReached
  dsimp only
  repeat' first
    | exact covers_le hc rfl
    | with_reducible first
      | assumption | apply setDbTenant_kept | apply onLease_kept | apply KeptRes.of_next | intro _ | split

theorem execLeaseExpiry_kept {cv : List Block} {s0 : State} (tenant : Nat) (s : State) (hk0 : Kept cv s0 s)
    (hc : covers [.hst, .mbx, .ext, .out] cv = true := by exact covers_le (by assumption) rfl) :
    KeptRes cv s0 (execLeaseExpiry tenant s) := by
  unfold execLeaseExpiry
  dsimp only
  repeat' first
    | exact covers_le hc rfl
    | with_reducible first
      | assumption | apply setDbTenant_kept | apply onLease_kept | apply KeptRes.of_next | intro _ | split

theorem dropFromLd_kept {cv : List Block} {s0 : State} (ld x : Nat) (s : State) (hk0 : Kept cv s0 s)
    (hc : covers [.hst] cv = true := by exact covers_le (by assumption) rfl) :
    Kept cv s0 (dropFromLd ld x s) := by
  unfold dropFromLd
  repeat' first
    | exact covers_le hc rfl
    | with_reducible first
      | assumption | intro _ | refine Kept.set_hst ?_ (.of_eq rfl) (hc := ?_)
      | (refine Kept.set_hst ?_ (.ld ?_) (hc := ?_); rotate_left; exact fun _ h => h)

theorem forgetExtent_kept {cv : List Block} {s0 : State} (e : ExtRec) (s : State) (hk0 : Kept cv s0 s)
    (hc : covers [.ext, .cdc, .drt, .hrd, .wrn, .out] cv = true := by exact covers_le (by assumption) rfl) :
    Kept cv s0 (forgetExtent e s) := by
  unfold forgetExtent
  repeat' first
    | exact covers_le hc rfl
    | with_reducible first
      | assumption | apply releaseIfDead_kept | apply Kept.foldl | apply Kept.foldl_fst | intro _ | split
      | refine Kept.set_ext_cdc_drt_hrd ?_ (.of_eq rfl) (hc := ?_)

theorem rekeyExtent_kept {cv : List Block} {s0 : State} (old new : ExtRec) (s : State) (hk0 : Kept cv s0 s)
    (hc : covers [.pwr, .hst, .cdc, .drt, .hrd, .wrn, .flt, .out] cv = true := by exact covers_le (by assumption) rfl) :
    Kept cv s0 (rekeyExtent old new s) := by
  unfold rekeyExtent
  repeat' first
    | exact covers_le hc rfl
    | with_reducible first
      | assumption | apply flushRange_kept | apply commitTile_kept | apply Kept.foldl | apply Kept.foldl_fst | intro _ | split
      | refine Kept.set_cdc_drt_hrd ?_ (.of_eq rfl) (hc := ?_)

theorem releaseDone_kept {cv : List Block} {s0 : State} (x : Nat) (s : State) (hk0 : Kept cv s0 s)
    (hc : covers [.pwr, .hst, .mbx, .ext, .cdc, .drt, .hrd, .wrn, .eng, .opq, .flt, .out] cv = true := by exact covers_le (by assumption) rfl) :
    Kept cv s0 (releaseDone x s) := by
  unfold releaseDone
  repeat' first
    | exact covers_le hc rfl
    | with_reducible first
      | assumption | apply ringStop_kept | apply discardRecords_kept | apply onRing_kept | apply rekeyExtent_kept
      | apply moveExtent_kept | apply onExtent_kept | apply offerWithheld_kept | apply offerTenant_kept | apply forgetExtent_kept
      | apply Kept.foldl | apply Kept.foldl_fst | intro _ | split | refine Kept.set_ext ?_ (hc := ?_)

theorem askRelease_kept {cv : List Block} {s0 : State} (e : ExtRec) (s : State) (hk0 : Kept cv s0 s)
    (hc : covers [.hst, .mbx, .flt, .out] cv = true := by exact covers_le (by assumption) rfl) :
    Kept cv s0 (askRelease e s) := by
  unfold askRelease
  repeat' first
    | exact covers_le hc rfl
    | with_reducible first
      | assumption | apply dcEvent_kept | apply Kept.foldl | apply Kept.foldl_fst | intro _ | split
      | refine Kept.set_hst ?_ (.of_eq rfl) (hc := ?_)
      | (refine Kept.set_hst ?_ (.ld ?_) (hc := ?_); rotate_left; exact fun _ h => h)

theorem forceRemove_kept {cv : List Block} {s0 : State} (ld x : Nat) (s : State) (hk0 : Kept cv s0 s)
    (hc : covers [.hst, .mbx, .flt, .out] cv = true := by exact covers_le (by assumption) rfl) :
    Kept cv s0 (forceRemove ld x s) := by
  unfold forceRemove
  repeat' first
    | exact covers_le hc rfl
    | with_reducible first
      | assumption | refine note_kept _ _ ?_ (hc := ?_) (hd := by with_unfolding_all rfl) | apply dcEvent_kept
      | apply dropFromLd_kept | split

theorem poisonLine_kept {cv : List Block} {s0 : State} (e : ExtRec) (addr : Nat) (s : State) (hk0 : Kept cv s0 s)
    (hc : covers [.pwr, .hst, .ext, .cdc, .drt, .hrd, .wrn, .eng, .flt, .out] cv = true := by exact covers_le (by assumption) rfl) :
    Kept cv s0 (poisonLine e addr s) := by
  unfold poisonLine
  repeat' first
    | exact covers_le hc rfl
    | with_reducible first
      | assumption | apply stageWrite_kept | apply fillForAgent_kept | apply startFill_kept | split | refine Kept.set_ext ?_ (hc := ?_)

theorem logOrphan_kept {cv : List Block} {s0 : State} (f : SfEntry) (s : State) (hk0 : Kept cv s0 s)
    (hc : covers [.ext] cv = true := by exact covers_le (by assumption) rfl) :
    Kept cv s0 (logOrphan f s) := by
  unfold logOrphan
  repeat' first
    | exact covers_le hc rfl
    | with_reducible first
      | assumption | apply onExtent_kept | intro _ | split | refine Kept.set_ext ?_ (hc := ?_)

theorem orphanExtent_kept {cv : List Block} {s0 : State} (e : ExtRec) (s : State) (hk0 : Kept cv s0 s)
    (hc : covers [.pwr, .hst, .ext, .cdc, .drt, .hrd, .wrn, .eng, .flt, .out] cv = true := by exact covers_le (by assumption) rfl) :
    Kept cv s0 (orphanExtent e s) := by
  unfold orphanExtent
  repeat' first
    | exact covers_le hc rfl
    | with_reducible first
      | assumption | apply logOrphan_kept | apply poisonLine_kept | apply onExtent_kept | apply Kept.foldl | apply Kept.foldl_fst
      | intro _ | refine Kept.set_ext ?_ (hc := ?_)

theorem abandonSeal_kept {cv : List Block} {s0 : State} (x : Nat) (s : State) (hk0 : Kept cv s0 s)
    (hc : covers [.pwr, .hst, .ext, .cdc, .drt, .hrd, .wrn, .eng, .opq, .flt, .out] cv = true := by exact covers_le (by assumption) rfl) :
    Kept cv s0 (abandonSeal x s) := by
  unfold abandonSeal
  repeat' first
    | exact covers_le hc rfl
    | with_reducible first
      | assumption | apply retireOp_kept | intro _ | split | refine Kept.set_ext ?_ (hc := ?_)

theorem reportReclaim_kept {cv : List Block} {s0 : State} (t : Nat) (counts : List (Nat × Nat × Bool)) (s : State) (hk0 : Kept cv s0 s)
    (hc : covers [.ext, .wrn, .out] cv = true := by exact covers_le (by assumption) rfl) :
    Kept cv s0 (reportReclaim t counts s) := by
  unfold reportReclaim
  repeat' first
    | exact covers_le hc rfl
    | with_reducible first
      | assumption | apply onLease_kept | apply sendMsg_kept | apply Kept.foldl | apply Kept.foldl_fst | intro _ | split
      | refine Kept.set_wrn ?_ (hc := ?_)

theorem carryOut_kept {cv : List Block} {s0 : State} (t : Nat) (s : State) (hk0 : Kept cv s0 s)
    (hc : covers [.pwr, .hst, .mbx, .ext, .cdc, .drt, .hrd, .wrn, .eng, .opq, .flt, .out, .free] cv = true := by exact covers_le (by assumption) rfl) :
    Kept cv s0 (carryOut t s) := by
  unfold carryOut
  dsimp only
  repeat' first
    | exact covers_le hc rfl
    | with_reducible first
      | assumption | apply abortOps_kept | apply abandonSeal_kept | apply orphanExtent_kept | apply releaseDone_kept
      | apply forceRemove_kept | apply reportReclaim_kept | apply onLease_kept | apply afterSnoops_kept | apply Kept.foldl
      | apply Kept.foldl_fst | intro _ | split | refine Kept.set_drt ?_ (.of_eq rfl) (hc := ?_)

theorem reclaimTry_kept {cv : List Block} {s0 : State} (t : Nat) (s : State) (hk0 : Kept cv s0 s)
    (hc : covers [.pwr, .hst, .mbx, .ext, .cdc, .drt, .hrd, .wrn, .eng, .opq, .flt, .out, .free] cv = true := by exact covers_le (by assumption) rfl) :
    Kept cv s0 (reclaimTry t s) := by
  unfold reclaimTry
  repeat' first
    | exact covers_le hc rfl
    | with_reducible first
      | assumption | apply carryOut_kept | split

theorem reclaimsGo_kept {cv : List Block} {s0 : State} (s : State) (hk0 : Kept cv s0 s)
    (hc : covers [.pwr, .hst, .mbx, .ext, .cdc, .drt, .hrd, .wrn, .eng, .opq, .flt, .out, .free] cv = true := by exact covers_le (by assumption) rfl) :
    Kept cv s0 (reclaimsGo s) := by
  unfold reclaimsGo
  repeat' first
    | exact covers_le hc rfl
    | with_reducible first
      | assumption | apply reclaimTry_kept | apply Kept.foldl | apply Kept.foldl_fst | intro _

theorem reclaimState_kept {cv : List Block} {s0 : State} (x total : Nat) (abandoned : Bool) (s : State) (hk0 : Kept cv s0 s)
    (hc : covers [.pwr, .hst, .mbx, .ext, .cdc, .drt, .hrd, .wrn, .eng, .opq, .flt, .out] cv = true := by exact covers_le (by assumption) rfl) :
    Kept cv s0 (reclaimState x total abandoned s) := by
  unfold reclaimState
  repeat' first
    | exact covers_le hc rfl
    | with_reducible first
      | assumption | refine note_kept _ _ ?_ (hc := ?_) (hd := by with_unfolding_all rfl) | apply moveExtent_kept
      | apply onExtent_kept | intro _ | split | refine Kept.set_ext ?_ (hc := ?_)

theorem concludeReclaim_kept {cv : List Block} {s0 : State} (t : Nat) (s : State) (hk0 : Kept cv s0 s)
    (hc : covers [.pwr, .hst, .mbx, .ext, .cdc, .drt, .hrd, .wrn, .eng, .opq, .flt, .out] cv = true := by exact covers_le (by assumption) rfl) :
    Kept cv s0 (concludeReclaim t s) := by
  unfold concludeReclaim
  dsimp only
  repeat' first
    | exact covers_le hc rfl
    | with_reducible first
      | assumption | apply sendAll_kept | apply reclaimState_kept | apply onLease_kept | apply renewAtHome_kept | apply Kept.foldl
      | apply Kept.foldl_fst | intro _ | split

theorem wake_kept {cv : List Block} {s0 : State} (s : State) (hk0 : Kept cv s0 s)
    (hc : covers [.pwr, .hst, .mbx, .ext, .cdc, .drt, .hrd, .wrn, .eng, .opq, .flt, .out, .free] cv = true := by exact covers_le (by assumption) rfl) :
    Kept cv s0 (wake s) := by
  unfold wake
  repeat' first
    | exact covers_le hc rfl
    | with_reducible first
      | assumption | apply reclaimsGo_kept | apply rspGo_kept | apply settle_kept | apply flushRecords_kept | apply sealsGo_kept
      | apply repackTile_kept
      | apply releaseDone_kept
      | apply Kept.foldl | apply Kept.foldl_fst | intro _

theorem execLeaseReclaimTimer_kept {cv : List Block} {s0 : State} (tenant : Nat) (s : State) (hk0 : Kept cv s0 s)
    (hc : covers [.pwr, .hst, .mbx, .ext, .cdc, .drt, .hrd, .wrn, .eng, .opq, .flt, .out, .free] cv = true := by exact covers_le (by assumption) rfl) :
    KeptRes cv s0 (execLeaseReclaimTimer tenant s) := by
  unfold execLeaseReclaimTimer
  dsimp only
  repeat' first
    | exact covers_le hc rfl
    | with_reducible first
      | assumption | apply onLease_kept | apply sendAll_kept | apply concludeReclaim_kept | apply reclaimTry_kept
      | apply KeptRes.of_next | intro _ | split

theorem execLeaseReclaim_kept {cv : List Block} {s0 : State} (src tenant : Nat) (t : Ns) (s : State) (hk0 : Kept cv s0 s)
    (hc : covers [.pwr, .hst, .mbx, .ext, .cdc, .drt, .hrd, .wrn, .eng, .opq, .flt, .out, .free] cv = true := by exact covers_le (by assumption) rfl) :
    KeptRes cv s0 (execLeaseReclaim src tenant t s) := by
  unfold execLeaseReclaim
  dsimp only
  repeat' first
    | exact covers_le hc rfl
    | with_reducible first
      | assumption | apply hear_kept | apply dropFrom_kept | apply reclaimTry_kept | apply onLease_kept | apply dropQuiet_kept
      | apply KeptRes.of_next | intro _ | split

theorem execLeaseReport_kept {cv : List Block} {s0 : State} (src tenant ext orphans : Nat) (last sealAbandoned : Bool) (s : State) (hk0 : Kept cv s0 s)
    (hc : covers [.pwr, .hst, .mbx, .ext, .cdc, .drt, .hrd, .wrn, .eng, .opq, .flt, .out] cv = true := by exact covers_le (by assumption) rfl) :
    KeptRes cv s0 (execLeaseReport src tenant ext orphans last sealAbandoned s) := by
  unfold execLeaseReport
  dsimp only
  repeat' first
    | exact covers_le hc rfl
    | with_reducible first
      | assumption | apply hear_kept | apply dropFrom_kept | apply dropQuiet_kept | apply concludeReclaim_kept | apply onLease_kept
      | apply reclaimState_kept | apply KeptRes.of_next | intro _ | split

theorem deliverReclaims_kept {cv : List Block} {s0 : State} (u : Nat) (s : State) (hk0 : Kept cv s0 s)
    (hc : covers [.ext, .wrn, .out] cv = true := by exact covers_le (by assumption) rfl) :
    Kept cv s0 (deliverReclaims u s) := by
  unfold deliverReclaims
  repeat' first
    | exact covers_le hc rfl
    | with_reducible first
      | assumption | apply sendMsg_kept | apply onLease_kept | apply Kept.foldl | apply Kept.foldl_fst | intro _
      | refine Kept.set_wrn ?_ (hc := ?_)

theorem filterLost_kept {cv : List Block} {s0 : State} (s : State) (hk0 : Kept cv s0 s)
    (hc : covers [.pwr, .hst, .mbx, .ext, .cdc, .drt, .hrd, .wrn, .eng, .opq, .flt, .out] cv = true := by exact covers_le (by assumption) rfl) :
    Kept cv s0 (filterLost s) := by
  unfold filterLost
  repeat' first
    | exact covers_le hc rfl
    | with_reducible first
      | assumption | refine note_kept _ _ ?_ (hc := ?_) (hd := by with_unfolding_all rfl) | apply moveExtent_kept
      | apply onExtent_kept | apply Kept.foldl | apply Kept.foldl_fst | intro _ | refine Kept.set_ext ?_ (hc := ?_)

theorem execExtOlogTailWrite_kept {cv : List Block} {s0 : State} (val : Word) (s : State) (hk0 : Kept cv s0 s)
    (hc : covers [.hst, .ext, .flt, .out] cv = true := by exact covers_le (by assumption) rfl) :
    KeptRes cv s0 (execExtOlogTailWrite val s) := by
  unfold execExtOlogTailWrite
  dsimp only
  repeat' first
    | exact covers_le hc rfl
    | with_reducible first
      | assumption | apply writeIgnored_kept | apply KeptRes.of_next | intro _ | split | refine Kept.set_ext ?_ (hc := ?_)

theorem tellExtent_kept {cv : List Block} {s0 : State} (x : Nat) (s : State) (hk0 : Kept cv s0 s)
    (hc : covers [.wrn, .out] cv = true := by exact covers_le (by assumption) rfl) :
    Kept cv s0 (tellExtent x s) := by
  unfold tellExtent
  repeat' first
    | exact covers_le hc rfl
    | with_reducible first
      | assumption | apply sendAll_kept | split

theorem extCmd_kept {cv : List Block} {s0 : State} (x action : Nat) (f : ExtRec → State → State) (allowed : List Nat) (s : State) (hf : ∀ x0 u, Kept cv s0 u → Kept cv s0 (f x0 u)) (hk0 : Kept cv s0 s)
    (hc : covers [.ext] cv = true := by exact covers_le (by assumption) rfl) :
    Kept cv s0 (extCmd x action f allowed s) := by
  unfold extCmd
  repeat' first
    | exact covers_le hc rfl
    | with_reducible first
      | assumption | apply hf | intro _ | split | refine Kept.set_ext ?_ (hc := ?_)

theorem releaseAct_kept {cv : List Block} {s0 : State} (x : Nat) (s : State) (hk0 : Kept cv s0 s)
    (hc : covers [.pwr, .hst, .mbx, .ext, .cdc, .drt, .hrd, .wrn, .eng, .opq, .flt, .out] cv = true := by exact covers_le (by assumption) rfl) :
    Kept cv s0 (releaseAct x s) := by
  unfold releaseAct
  repeat' first
    | exact covers_le hc rfl
    | with_reducible first
      | assumption | apply extCmd_kept | apply tellExtent_kept | apply moveExtent_kept | apply onExtent_kept | intro _

theorem execRelease_kept {cv : List Block} {s0 : State} (ext : Nat) (s : State) (hk0 : Kept cv s0 s)
    (hc : covers [.pwr, .hst, .mbx, .ext, .cdc, .drt, .hrd, .wrn, .eng, .opq, .flt, .out] cv = true := by exact covers_le (by assumption) rfl) :
    KeptRes cv s0 (execRelease ext s) := by
  unfold execRelease
  repeat' first
    | exact covers_le hc rfl
    | with_reducible first
      | assumption | apply releaseAct_kept | apply KeptRes.of_next

theorem zeroExtent_kept {cv : List Block} {s0 : State} (e : ExtRec) (s : State) (hk0 : Kept cv s0 s)
    (hc : covers [.ext, .cdc, .drt, .hrd, .wrn, .out] cv = true := by exact covers_le (by assumption) rfl) :
    Kept cv s0 (zeroExtent e s) := by
  unfold zeroExtent
  exact Kept.upd (forgetExtent_kept _ _ hk0) (.refl _) (.of_eq rfl) ⟨fun m => filter_wf _ m⟩ (.of_eq rfl)

theorem scrubAct_kept {cv : List Block} {s0 : State} (x : Nat) (s : State) (hk0 : Kept cv s0 s)
    (hc : covers [.pwr, .hst, .mbx, .ext, .cdc, .drt, .hrd, .wrn, .eng, .opq, .flt, .out] cv = true := by exact covers_le (by assumption) rfl) :
    Kept cv s0 (scrubAct x s) := by
  unfold scrubAct
  repeat' first
    | exact covers_le hc rfl
    | with_reducible first
      | assumption | apply extCmd_kept | apply startSnoop_kept | apply tellExtent_kept | apply zeroExtent_kept
      | apply moveExtent_kept | apply Kept.foldl | apply Kept.foldl_fst | intro _ | refine Kept.set_ext ?_ (hc := ?_)

theorem execScrub_kept {cv : List Block} {s0 : State} (ext : Nat) (s : State) (hk0 : Kept cv s0 s)
    (hc : covers [.pwr, .hst, .mbx, .ext, .cdc, .drt, .hrd, .wrn, .eng, .opq, .flt, .out] cv = true := by exact covers_le (by assumption) rfl) :
    KeptRes cv s0 (execScrub ext s) := by
  unfold execScrub
  repeat' first
    | exact covers_le hc rfl
    | with_reducible first
      | assumption | apply scrubAct_kept | apply KeptRes.of_next

theorem execScrubComplete_kept {cv : List Block} {s0 : State} (ext : Nat) (s : State) (hk0 : Kept cv s0 s)
    (hc : covers [.pwr, .hst, .mbx, .ext, .cdc, .drt, .hrd, .wrn, .eng, .opq, .flt, .out] cv = true := by exact covers_le (by assumption) rfl) :
    KeptRes cv s0 (execScrubComplete ext s) := by
  unfold execScrubComplete
  repeat' first
    | exact covers_le hc rfl
    | with_reducible first
      | assumption | apply tellExtent_kept | apply moveExtent_kept | apply onExtent_kept | apply zeroExtent_kept
      | apply KeptRes.of_next | intro _ | split | refine Kept.set_ext ?_ (hc := ?_)

end Sys2Proof.Safety
end

