-- ==== Sys2Proof/Laws/KeptOpCheck.lean ====
section
/-! SUPPORT. What the definitions of Machine/OpCheck.lean keep: one lemma per definition, from any earlier state. -/

namespace Sys2Proof.Safety

-- The lemmas of this file are checked one after another, with few threads at a time.
set_option Elab.async false

open Sys2Proof.Machine

theorem endOp_kept {cv : List Block} {s0 : State} (o : Op) (status detail : Nat) (s : State) (hk0 : Kept cv s0 s)
    (hc : covers [.pwr, .hst, .ext, .cdc, .drt, .hrd, .wrn, .eng, .opq, .flt, .out] cv = true := by exact covers_le (by assumption) rfl) :
    Kept cv s0 (endOp o status detail s) := by
  unfold endOp
  repeat' first
    | exact covers_le hc rfl
    | with_reducible first
      | assumption | apply retireOp_kept

theorem startOp_kept {cv : List Block} {s0 : State} (o : Op) (s : State) (hk0 : Kept cv s0 s)
    (hc : covers [.pwr, .hst, .ext, .cdc, .drt, .hrd, .wrn, .eng, .opq, .flt, .out, .free] cv = true := by exact covers_le (by assumption) rfl) :
    Kept cv s0 (startOp o s).1 := by
  unfold startOp
  dsimp only
  repeat' first
    | exact covers_le hc rfl
    | with_reducible first
      | assumption | apply onOp_kept | apply endOp_kept | apply bringRange_kept | apply agentRead_kept | intro _ | split

theorem finishOp_kept {cv : List Block} {s0 : State} (o : Op) (s : State) (hk0 : Kept cv s0 s)
    (hc : covers [.pwr, .hst, .ext, .cdc, .drt, .hrd, .wrn, .eng, .opq, .flt, .out] cv = true := by exact covers_le (by assumption) rfl) :
    Kept cv s0 (finishOp o s) := by
  unfold finishOp
  repeat' first
    | exact covers_le hc rfl
    | with_reducible first
      | assumption | apply endOp_kept | split

end Sys2Proof.Safety
end

