-- ==== Sys2Proof/Laws/KeptMove.lean ====
section
/-! SUPPORT. What the definitions of Machine/Move.lean keep: one lemma per definition, from any earlier state. -/

namespace Sys2Proof.Safety

-- The lemmas of this file are checked one after another, with few threads at a time.
set_option Elab.async false

open Sys2Proof.Machine

theorem opRow_kept {cv : List Block} {s0 : State} (code u n q : Nat) (s : State) (k : Op → State → State) (hk : ∀ x0 u, Kept cv s0 u → Kept cv s0 (k x0 u)) (hk0 : Kept cv s0 s)
    (hc : covers [.pwr, .hst, .ext, .cdc, .drt, .hrd, .wrn, .eng, .opq, .flt, .out, .free] cv = true := by exact covers_le (by assumption) rfl) :
    KeptRes cv s0 (opRow code u n q s k) := by
  unfold opRow
  dsimp only
  repeat' first
    | exact covers_le hc rfl
    | with_reducible first
      | assumption | apply hk | apply startOp_kept | apply KeptRes.of_next | intro _ | split

theorem untilWait_kept {cv : List Block} {s0 : State} (l : List Nat) (f : Nat → State → State × Bool) (s : State) (hf : ∀ x0 u, Kept cv s0 u → Kept cv s0 (f x0 u).1) (hk0 : Kept cv s0 s)
    (hc : covers [] cv = true := by exact covers_le (by assumption) rfl) :
    Kept cv s0 (untilWait l f s).1 := by
  unfold untilWait
  repeat' first
    | exact covers_le hc rfl
    | with_reducible first
      | assumption | apply hf | apply Kept.foldl | apply Kept.foldl_fst | intro _ | split

theorem advance_kept {cv : List Block} {s0 : State} (o : Op) (n : Nat) (poison : Bool) (s : State) (hk0 : Kept cv s0 s)
    (hc : covers [.opq] cv = true := by exact covers_le (by assumption) rfl) :
    Kept cv s0 (advance o n poison s) := by
  unfold advance
  repeat' first
    | exact covers_le hc rfl
    | with_reducible first
      | assumption | apply onOp_kept

theorem copyLines_kept {cv : List Block} {s0 : State} (o : Op) (l : List (Nat × Nat)) (n : Nat) (s : State) (hk0 : Kept cv s0 s)
    (hc : covers [.pwr, .hst, .ext, .cdc, .drt, .hrd, .wrn, .eng, .opq, .flt, .out, .free] cv = true := by exact covers_le (by assumption) rfl) :
    Kept cv s0 (copyLines o l n s).1 := by
  unfold copyLines
  dsimp only
  repeat' first
    | exact covers_le hc rfl
    | with_reducible first
      | assumption | apply bringRange_kept | apply agentLine_kept | apply dropLines_kept | apply opWriteLine_kept | apply advance_kept | apply Kept.foldl
      | apply Kept.foldl_fst | intro _ | split

theorem execCopy_kept {cv : List Block} {s0 : State} (ringUnit ring sqIndex : Nat) (s : State) (hk0 : Kept cv s0 s)
    (hc : covers [.pwr, .hst, .ext, .cdc, .drt, .hrd, .wrn, .eng, .opq, .flt, .out, .free] cv = true := by exact covers_le (by assumption) rfl) :
    KeptRes cv s0 (execCopy ringUnit ring sqIndex s) := by
  unfold execCopy
  dsimp only
  repeat' first
    | exact covers_le hc rfl
    | with_reducible first
      | assumption | apply opRow_kept | apply untilWait_kept | apply copyLines_kept | apply finishOp_kept | apply KeptRes.of_next
      | intro _ | split

theorem remoteTile_kept {cv : List Block} {s0 : State} (kind : Nat) (o : Op) (tile : Nat) (s : State) (hk0 : Kept cv s0 s)
    (hc : covers [.wrn, .out] cv = true := by exact covers_le (by assumption) rfl) :
    Kept cv s0 (remoteTile kind o tile s) := by
  unfold remoteTile
  repeat' first
    | exact covers_le hc rfl
    | with_reducible first
      | assumption | apply sendMsg_kept | refine Kept.set_wrn ?_ (hc := ?_)

theorem bringTile_kept {cv : List Block} {s0 : State} (e : ExtRec) (g tile : Nat) (s : State) (hk0 : Kept cv s0 s)
    (hc : covers [.pwr, .hst, .cdc, .drt, .hrd, .wrn, .flt, .out] cv = true := by exact covers_le (by assumption) rfl) :
    Kept cv s0 (bringTile e g tile s).1 := by
  unfold bringTile
  repeat' first
    | exact covers_le hc rfl
    | with_reducible first
      | assumption | apply startFill_kept | split

theorem setPin_kept {cv : List Block} {s0 : State} (i : Nat) (b : Bool) (s : State) (hk0 : Kept cv s0 s)
    (hc : covers [.drt] cv = true := by exact covers_le (by assumption) rfl) :
    Kept cv s0 (setPin i b s) := by
  unfold setPin
  repeat' first
    | exact covers_le hc rfl
    | with_reducible first
      | assumption | intro _ | refine Kept.set_drt ?_ (.of_eq rfl) (hc := ?_)

theorem tileOp_kept {cv : List Block} {s0 : State} (code ringUnit ring sqIndex kind : Nat) (f : Op → ExtRec → Nat → Nat → State → State × Bool) (s : State) (hf : ∀ x0 x1 x2 x3 u, Kept cv s0 u → Kept cv s0 (f x0 x1 x2 x3 u).1) (hk0 : Kept cv s0 s)
    (hc : covers [.pwr, .hst, .ext, .cdc, .drt, .hrd, .wrn, .eng, .opq, .flt, .out, .free] cv = true := by exact covers_le (by assumption) rfl) :
    KeptRes cv s0 (tileOp code ringUnit ring sqIndex kind f s) := by
  unfold tileOp
  dsimp only
  repeat' first
    | exact covers_le hc rfl
    | with_reducible first
      | assumption | apply hf | apply opRow_kept | apply untilWait_kept | apply advance_kept | apply remoteTile_kept
      | apply finishOp_kept | apply KeptRes.of_next | intro _ | split

theorem execPrefetch_kept {cv : List Block} {s0 : State} (ringUnit ring sqIndex : Nat) (s : State) (hk0 : Kept cv s0 s)
    (hc : covers [.pwr, .hst, .ext, .cdc, .drt, .hrd, .wrn, .eng, .opq, .flt, .out, .free] cv = true := by exact covers_le (by assumption) rfl) :
    KeptRes cv s0 (execPrefetch ringUnit ring sqIndex s) := by
  unfold execPrefetch
  repeat' first
    | exact covers_le hc rfl
    | with_reducible first
      | assumption | apply tileOp_kept | apply bringTile_kept | apply KeptRes.of_next | intro _

theorem execPin_kept {cv : List Block} {s0 : State} (ringUnit ring sqIndex : Nat) (s : State) (hk0 : Kept cv s0 s)
    (hc : covers [.pwr, .hst, .ext, .cdc, .drt, .hrd, .wrn, .eng, .opq, .flt, .out, .free] cv = true := by exact covers_le (by assumption) rfl) :
    KeptRes cv s0 (execPin ringUnit ring sqIndex s) := by
  unfold execPin
  dsimp only
  repeat' first
    | exact covers_le hc rfl
    | with_reducible first
      | assumption | apply tileOp_kept | apply bringTile_kept | apply endOp_kept | apply setPin_kept | apply KeptRes.of_next
      | intro _ | split

theorem execUnpin_kept {cv : List Block} {s0 : State} (ringUnit ring sqIndex : Nat) (s : State) (hk0 : Kept cv s0 s)
    (hc : covers [.pwr, .hst, .ext, .cdc, .drt, .hrd, .wrn, .eng, .opq, .flt, .out, .free] cv = true := by exact covers_le (by assumption) rfl) :
    KeptRes cv s0 (execUnpin ringUnit ring sqIndex s) := by
  unfold execUnpin
  repeat' first
    | exact covers_le hc rfl
    | with_reducible first
      | assumption | apply tileOp_kept | apply setPin_kept | apply KeptRes.of_next | intro _ | split

theorem execMigrate_kept {cv : List Block} {s0 : State} (ringUnit ring sqIndex : Nat) (s : State) (hk0 : Kept cv s0 s)
    (hc : covers [.pwr, .hst, .ext, .cdc, .drt, .hrd, .wrn, .eng, .opq, .flt, .out, .free] cv = true := by exact covers_le (by assumption) rfl) :
    KeptRes cv s0 (execMigrate ringUnit ring sqIndex s) := by
  unfold execMigrate
  dsimp only
  repeat' first
    | exact covers_le hc rfl
    | with_reducible first
      | assumption | apply onOp_kept | apply commitTile_kept | apply tileOp_kept | apply dropCopy_kept | apply KeptRes.of_next
      | apply Kept.foldl | apply Kept.foldl_fst | intro _ | split

theorem rowsOp_kept {cv : List Block} {s0 : State} (code ringUnit ring sqIndex : Nat) (s : State) (hk0 : Kept cv s0 s)
    (hc : covers [.pwr, .hst, .ext, .cdc, .drt, .hrd, .wrn, .eng, .opq, .flt, .out, .free] cv = true := by exact covers_le (by assumption) rfl) :
    KeptRes cv s0 (rowsOp code ringUnit ring sqIndex s) := by
  unfold rowsOp
  dsimp only
  repeat' first
    | exact covers_le hc rfl
    | with_reducible first
      | assumption | apply opRow_kept | apply untilWait_kept | apply copyLines_kept | apply finishOp_kept | apply KeptRes.of_next
      | intro _ | split

theorem execGather_kept {cv : List Block} {s0 : State} (ringUnit ring sqIndex : Nat) (s : State) (hk0 : Kept cv s0 s)
    (hc : covers [.pwr, .hst, .ext, .cdc, .drt, .hrd, .wrn, .eng, .opq, .flt, .out, .free] cv = true := by exact covers_le (by assumption) rfl) :
    KeptRes cv s0 (execGather ringUnit ring sqIndex s) := by
  unfold execGather
  repeat' first
    | exact covers_le hc rfl
    | with_reducible first
      | assumption | apply rowsOp_kept

theorem execScatter_kept {cv : List Block} {s0 : State} (ringUnit ring sqIndex : Nat) (s : State) (hk0 : Kept cv s0 s)
    (hc : covers [.pwr, .hst, .ext, .cdc, .drt, .hrd, .wrn, .eng, .opq, .flt, .out, .free] cv = true := by exact covers_le (by assumption) rfl) :
    KeptRes cv s0 (execScatter ringUnit ring sqIndex s) := by
  unfold execScatter
  repeat' first
    | exact covers_le hc rfl
    | with_reducible first
      | assumption | apply rowsOp_kept

theorem execExpertRoute_kept {cv : List Block} {s0 : State} (ringUnit ring sqIndex : Nat) (s : State) (hk0 : Kept cv s0 s)
    (hc : covers [.pwr, .hst, .ext, .cdc, .drt, .hrd, .wrn, .eng, .opq, .flt, .out, .free] cv = true := by exact covers_le (by assumption) rfl) :
    KeptRes cv s0 (execExpertRoute ringUnit ring sqIndex s) := by
  unfold execExpertRoute
  dsimp only
  repeat' first
    | exact covers_le hc rfl
    | with_reducible first
      | assumption | apply opRow_kept | apply finishOp_kept | apply bringRange_kept | apply agentLines_kept | apply dropLines_kept | apply opWrite_kept
      | apply onOp_kept | apply KeptRes.of_next | apply Kept.foldl | apply Kept.foldl_fst | intro _ | split

theorem checksumRange_kept {cv : List Block} {s0 : State} (o : Op) (s : State) (hk0 : Kept cv s0 s)
    (hc : covers [.pwr, .hst, .ext, .cdc, .drt, .hrd, .wrn, .eng, .opq, .flt, .out, .free] cv = true := by exact covers_le (by assumption) rfl) :
    Kept cv s0 (checksumRange o s) := by
  unfold checksumRange
  dsimp only
  repeat' first
    | exact covers_le hc rfl
    | with_reducible first
      | assumption | apply untilWait_kept | apply bringRange_kept | apply agentRead_kept | apply advance_kept | apply onOp_kept
      | apply endOp_kept | intro _ | split

theorem checksumManifest_kept {cv : List Block} {s0 : State} (o : Op) (e : ExtRec) (s : State) (hk0 : Kept cv s0 s)
    (hc : covers [.pwr, .hst, .ext, .cdc, .drt, .hrd, .wrn, .eng, .opq, .flt, .out, .free] cv = true := by exact covers_le (by assumption) rfl) :
    Kept cv s0 (checksumManifest o e s) := by
  unfold checksumManifest
  dsimp only
  repeat' first
    | exact covers_le hc rfl
    | with_reducible first
      | assumption | apply draw_kept | apply endOp_kept | apply startFill_kept | apply Kept.foldl | apply Kept.foldl_fst | intro _ | split

theorem execChecksum_kept {cv : List Block} {s0 : State} (ringUnit ring sqIndex : Nat) (s : State) (hk0 : Kept cv s0 s)
    (hc : covers [.pwr, .hst, .ext, .cdc, .drt, .hrd, .wrn, .eng, .opq, .flt, .out, .free] cv = true := by exact covers_le (by assumption) rfl) :
    KeptRes cv s0 (execChecksum ringUnit ring sqIndex s) := by
  unfold execChecksum
  repeat' first
    | exact covers_le hc rfl
    | with_reducible first
      | assumption | apply opRow_kept | apply checksumRange_kept | apply checksumManifest_kept | apply KeptRes.of_next | intro _
      | split

theorem execExportCompressed_kept {cv : List Block} {s0 : State} (ringUnit ring sqIndex : Nat) (s : State) (hk0 : Kept cv s0 s)
    (hc : covers [.pwr, .hst, .ext, .cdc, .drt, .hrd, .wrn, .eng, .opq, .flt, .out, .free] cv = true := by exact covers_le (by assumption) rfl) :
    KeptRes cv s0 (execExportCompressed ringUnit ring sqIndex s) := by
  unfold execExportCompressed
  repeat' first
    | exact covers_le hc rfl
    | with_reducible first
      | assumption | apply opRow_kept | apply endOp_kept | apply bringRange_kept | apply untilWait_kept | apply agentLines_kept | apply dropLines_kept
      | apply advance_kept | apply onOp_kept | apply opWrite_kept | apply finishOp_kept | apply KeptRes.of_next | intro _
      | ((fail_if_no_progress (extract_lets +onlyGivenNames x)); refine Kept.cut (cv := cv) (s := s0) x ?_ (fun hx => ?_) <;> [dsimp -zeta only [x]; clear_value x])
      | ((fail_if_no_progress (extract_lets +onlyGivenNames x)); refine Kept.cut (cv := cv) (s := s0) x.1 ?_ (fun hx => ?_) <;> [dsimp -zeta only [x]; clear_value x])
      | ((fail_if_no_progress (extract_lets +onlyGivenNames x)); refine Kept.cutFun3 (cv := cv) (s := s0) x ?_ (fun hx => ?_) <;> [(dsimp -zeta only [x]; intro _ _ u hu); clear_value x])
      | ((fail_if_no_progress (extract_lets +onlyGivenNames x)); clear_value x) | apply_assumption -exfalso -symm
      | dsimp -zeta only | split

end Sys2Proof.Safety
end

