-- ==== Sys2Proof/Laws/KeptRepair.lean ====
section
/-! SUPPORT. What the definitions of Machine/Repair.lean keep: one lemma per definition, from any earlier state. -/

namespace Sys2Proof.Safety

-- The lemmas of this file are checked one after another, with few threads at a time.
set_option Elab.async false

open Sys2Proof.Machine

theorem checkLevels_kept {cv : List Block} {s0 : State} (cs : List Nat) (s : State) (hk0 : Kept cv s0 s)
    (hc : covers [.uni, .hst, .flt, .out] cv = true := by exact covers_le (by assumption) rfl) :
    Kept cv s0 (checkLevels cs s) := by
  unfold checkLevels
  repeat' first
    | exact covers_le hc rfl
    | with_reducible first
      | assumption | refine note_kept _ _ ?_ (hc := ?_) (hd := by with_unfolding_all rfl) | apply Kept.foldl | apply Kept.foldl_fst
      | intro _ | split | refine Kept.set_uni ?_ (hc := ?_)

theorem fieldEntry_kept {cv : List Block} {s0 : State} (e : RepairEntry) (cause : Nat) (s : State) (hk0 : Kept cv s0 s)
    (hc : covers [.hst, .lif, .flt, .out] cv = true := by exact covers_le (by assumption) rfl) :
    Kept cv s0 (fieldEntry e cause s) := by
  unfold fieldEntry
  repeat' first
    | exact covers_le hc rfl
    | with_reducible first
      | assumption | refine note_kept _ _ ?_ (hc := ?_) (hd := by with_unfolding_all rfl) | split
      | refine Kept.set_lif ?_ (hc := ?_)

theorem takeOut_kept {cv : List Block} {s0 : State} (e : RepairEntry) (cause : Nat) (s : State) (hk0 : Kept cv s0 s)
    (hc : covers [.uni, .hst, .lif, .flt, .out] cv = true := by exact covers_le (by assumption) rfl) :
    Kept cv s0 (takeOut e cause s) := by
  unfold takeOut
  repeat' first
    | exact covers_le hc rfl
    | with_reducible first
      | assumption | apply fieldEntry_kept | apply checkLevels_kept | split | refine Kept.set_uni ?_ (hc := ?_)

end Sys2Proof.Safety
end

