-- ==== Sys2Proof/Laws/KeptEngines.lean ====
section
/-! SUPPORT. What the definitions of Machine/Engines.lean keep: one lemma per definition, from any earlier state. -/

namespace Sys2Proof.Safety

-- The lemmas of this file are checked one after another, with few threads at a time.
set_option Elab.async false

open Sys2Proof.Machine

theorem onEngine_kept {cv : List Block} {s0 : State} (e : Nat) (f : Engine → Engine) (s : State) (hk0 : Kept cv s0 s)
    (hc : covers [.eng] cv = true := by exact covers_le (by assumption) rfl) :
    Kept cv s0 (onEngine e f s) := by
  unfold onEngine
  repeat' first
    | exact covers_le hc rfl
    | with_reducible first
      | assumption | refine Kept.set_eng ?_ (hc := ?_)

theorem readBand_kept {cv : List Block} {s0 : State} (o : Op) (base fmt k ti rows : Nat) (s : State) (hk0 : Kept cv s0 s)
    (hc : covers [.pwr, .hst, .cdc, .drt, .hrd, .wrn, .flt, .out, .free] cv = true := by exact covers_le (by assumption) rfl) :
    Kept cv s0 (readBand o base fmt k ti rows s).1 := by
  unfold readBand
  repeat' first
    | exact covers_le hc rfl
    | with_reducible first
      | assumption | apply agentLines_kept | apply Kept.foldl | apply Kept.foldl_fst | intro _

theorem bringBlock_kept {cv : List Block} {s0 : State} (o : Op) (p : Product) (i : Nat) (s : State) (hk0 : Kept cv s0 s)
    (hc : covers [.pwr, .hst, .ext, .cdc, .drt, .hrd, .wrn, .opq, .flt, .out] cv = true := by exact covers_le (by assumption) rfl) :
    Kept cv s0 (bringBlock o p i s).1 := by
  unfold bringBlock
  repeat' first
    | exact covers_le hc rfl
    | with_reducible first
      | assumption | apply bringRange_kept | apply Kept.foldl | apply Kept.foldl_fst | intro _

theorem readLongs_kept {cv : List Block} {s0 : State} (o : Op) (addr : Nat) (s : State) (hk0 : Kept cv s0 s)
    (hc : covers [.pwr, .hst, .cdc, .drt, .hrd, .wrn, .flt, .out, .free] cv = true := by exact covers_le (by assumption) rfl) :
    Kept cv s0 (readLongs o addr s).1 := by
  unfold readLongs
  have h := agentLines_kept o.tenant addr 1310720 s hk0
  generalize agentLines o.tenant addr 1310720 s = q at h
  obtain ⟨a, b⟩ := q
  change Kept cv s0 a
  exact h

theorem readSeeds_kept {cv : List Block} {s0 : State} (o : Op) (p : Product) (i : Nat) (s : State) (hk0 : Kept cv s0 s)
    (hc : covers [.pwr, .hst, .cdc, .drt, .hrd, .wrn, .flt, .out, .free] cv = true := by exact covers_le (by assumption) rfl) :
    Kept cv s0 (readSeeds o p i s).1 := by
  unfold readSeeds
  repeat' first
    | exact covers_le hc rfl
    | with_reducible first
      | assumption | apply readLongs_kept | apply agentLines_kept | intro _ | split

theorem blockEntries_kept {cv : List Block} {s0 : State} (o : Op) (p : Product) (i : Nat) (s : State) (hk0 : Kept cv s0 s)
    (hc : covers [.pwr, .hst, .cdc, .drt, .hrd, .wrn, .flt, .out, .free] cv = true := by exact covers_le (by assumption) rfl) :
    Kept cv s0 (blockEntries o p i s).1 := by
  unfold blockEntries
  split
  · refine Kept.foldl_fst hk0 fun q a h => ?_
    have hx := readLongs_kept o (a + 1310720 * i) q.1 h
    generalize readLongs o (a + 1310720 * i) q.1 = x at hx
    obtain ⟨y, z⟩ := x
    change Kept cv s0 y
    exact hx
  · have hq := readSeeds_kept o p i s hk0
    generalize readSeeds o p i s = q at hq
    dsimp only
    split
    · exact hq
    · exact readBand_kept o p.b p.fb p.k (i % prodCols p) (blockCols p i) _ (readBand_kept o p.a p.fa p.k (i / prodCols p) (blockRows p i) _ hq)

theorem releaseBlock_kept {cv : List Block} {s0 : State} (o : Op) (p : Product) (i : Nat) (x : Drained) (s : State) (hk0 : Kept cv s0 s)
    (hc : covers [.pwr, .hst, .cdc, .drt, .hrd, .wrn, .eng, .opq, .flt, .out] cv = true := by exact covers_le (by assumption) rfl) :
    Kept cv s0 (releaseBlock o p i x s) := by
  unfold releaseBlock
  dsimp only
  repeat' first
    | exact covers_le hc rfl
    | with_reducible first
      | assumption | apply opWriteStrip_kept | apply Kept.foldl | apply Kept.foldl_fst | intro _ | split

theorem execEngineBlockDispatch_kept {cv : List Block} {s0 : State} (engine : Nat) (s : State) (hk0 : Kept cv s0 s)
    (hc : covers [.eng, .opq] cv = true := by exact covers_le (by assumption) rfl) :
    KeptRes cv s0 (execEngineBlockDispatch engine s) := by
  unfold execEngineBlockDispatch
  repeat' first
    | exact covers_le hc rfl
    | with_reducible first
      | assumption | apply onEngine_kept | apply onOp_kept | apply KeptRes.of_next | intro _ | split

theorem malformedSeeds_kept {cv : List Block} {s0 : State} (o : Op) (s : State) (hk0 : Kept cv s0 s)
    (hc : covers [.pwr, .hst, .cdc, .drt, .hrd, .wrn, .flt, .out, .free] cv = true := by exact covers_le (by assumption) rfl) :
    Kept cv s0 (malformedSeeds o s).1 := by
  unfold malformedSeeds
  refine Kept.foldl_fst hk0 fun q p h => Kept.foldl_fst h fun q a h => ?_
  have hx := readLongs_kept o a q.1 h
  generalize readLongs o a q.1 = x at hx
  obtain ⟨y, z⟩ := x
  change Kept cv s0 y
  exact hx

theorem bringSeeds_kept {cv : List Block} {s0 : State} (o : Op) (s : State) (hk0 : Kept cv s0 s)
    (hc : covers [.pwr, .hst, .ext, .cdc, .drt, .hrd, .wrn, .opq, .flt, .out] cv = true := by exact covers_le (by assumption) rfl) :
    Kept cv s0 (bringSeeds o s).1 := by
  unfold bringSeeds
  repeat' first
    | exact covers_le hc rfl
    | with_reducible first
      | assumption | apply bringRange_kept | apply Kept.foldl | apply Kept.foldl_fst | intro _

theorem residueFault_kept {cv : List Block} {s0 : State} (engine : Nat) (cols : List Nat) (o : Op) (s : State) (hk0 : Kept cv s0 s)
    (hc : covers [.pwr, .hst, .ext, .cdc, .drt, .hrd, .wrn, .eng, .opq, .flt, .out] cv = true := by exact covers_le (by assumption) rfl) :
    Kept cv s0 (residueFault engine cols o s) := by
  unfold residueFault
  repeat' first
    | exact covers_le hc rfl
    | with_reducible first
      | assumption | apply onEngine_kept | apply endOp_kept

theorem blockRead_kept {cv : List Block} {s0 : State} (o : Op) (p : Product) (i : Nat) (s : State) (hk0 : Kept cv s0 s)
    (hc : covers [.opq] cv = true := by exact covers_le (by assumption) rfl) :
    Kept cv s0 (blockRead o p i s) := by
  unfold blockRead
  repeat' first
    | exact covers_le hc rfl
    | with_reducible first
      | assumption | apply dropLines_kept | apply Kept.foldl | apply Kept.foldl_fst | intro _

theorem execOutputBlockDrain_kept {cv : List Block} {s0 : State} (engine : Nat) (badColumns : List Nat) (s : State) (hk0 : Kept cv s0 s)
    (hc : covers [.pwr, .hst, .ext, .cdc, .drt, .hrd, .wrn, .eng, .opq, .flt, .out, .free] cv = true := by exact covers_le (by assumption) rfl) :
    KeptRes cv s0 (execOutputBlockDrain engine badColumns s) := by
  unfold execOutputBlockDrain
  dsimp only
  repeat' first
    | exact covers_le hc rfl
    | with_reducible first
      | assumption | apply onEngine_kept | apply bringBlock_kept | apply bringSeeds_kept | apply residueFault_kept
      | apply malformedSeeds_kept | apply endOp_kept | apply blockEntries_kept | apply releaseBlock_kept | apply blockRead_kept | apply onOp_kept
      | apply finishOp_kept | apply KeptRes.of_next | intro _ | split | refine Kept.set_pwr ?_ (hc := ?_)

theorem computeOp_kept {cv : List Block} {s0 : State} (code ringUnit ring sqIndex : Nat) (s : State) (hk0 : Kept cv s0 s)
    (hc : covers [.pwr, .hst, .ext, .cdc, .drt, .hrd, .wrn, .eng, .opq, .flt, .out, .free] cv = true := by exact covers_le (by assumption) rfl) :
    KeptRes cv s0 (computeOp code ringUnit ring sqIndex s) := by
  unfold computeOp
  repeat' first
    | exact covers_le hc rfl
    | with_reducible first
      | assumption | apply opRow_kept | apply finishOp_kept | apply KeptRes.of_next | intro _ | split

theorem execGemm_kept {cv : List Block} {s0 : State} (ringUnit ring sqIndex : Nat) (s : State) (hk0 : Kept cv s0 s)
    (hc : covers [.pwr, .hst, .ext, .cdc, .drt, .hrd, .wrn, .eng, .opq, .flt, .out, .free] cv = true := by exact covers_le (by assumption) rfl) :
    KeptRes cv s0 (execGemm ringUnit ring sqIndex s) := by
  unfold execGemm
  repeat' first
    | exact covers_le hc rfl
    | with_reducible first
      | assumption | apply computeOp_kept

theorem execGroupedGemm_kept {cv : List Block} {s0 : State} (ringUnit ring sqIndex : Nat) (s : State) (hk0 : Kept cv s0 s)
    (hc : covers [.pwr, .hst, .ext, .cdc, .drt, .hrd, .wrn, .eng, .opq, .flt, .out, .free] cv = true := by exact covers_le (by assumption) rfl) :
    KeptRes cv s0 (execGroupedGemm ringUnit ring sqIndex s) := by
  unfold execGroupedGemm
  repeat' first
    | exact covers_le hc rfl
    | with_reducible first
      | assumption | apply computeOp_kept

theorem execExpertFfn_kept {cv : List Block} {s0 : State} (ringUnit ring sqIndex : Nat) (s : State) (hk0 : Kept cv s0 s)
    (hc : covers [.pwr, .hst, .ext, .cdc, .drt, .hrd, .wrn, .eng, .opq, .flt, .out, .free] cv = true := by exact covers_le (by assumption) rfl) :
    KeptRes cv s0 (execExpertFfn ringUnit ring sqIndex s) := by
  unfold execExpertFfn
  repeat' first
    | exact covers_le hc rfl
    | with_reducible first
      | assumption | apply computeOp_kept

theorem execReduceExact_kept {cv : List Block} {s0 : State} (ringUnit ring sqIndex : Nat) (s : State) (hk0 : Kept cv s0 s)
    (hc : covers [.pwr, .hst, .ext, .cdc, .drt, .hrd, .wrn, .eng, .opq, .flt, .out, .free] cv = true := by exact covers_le (by assumption) rfl) :
    KeptRes cv s0 (execReduceExact ringUnit ring sqIndex s) := by
  unfold execReduceExact
  repeat' first
    | exact covers_le hc rfl
    | with_reducible first
      | assumption | apply computeOp_kept

theorem execOperandTileFetch_kept {cv : List Block} {s0 : State} (engine tenant tile : Nat) (s : State) (hk0 : Kept cv s0 s)
    (hc : covers [.pwr, .hst, .ext, .cdc, .drt, .hrd, .wrn, .eng, .opq, .flt, .out, .free] cv = true := by exact covers_le (by assumption) rfl) :
    KeptRes cv s0 (execOperandTileFetch engine tenant tile s) := by
  unfold execOperandTileFetch
  dsimp only
  repeat' first
    | exact covers_le hc rfl
    | with_reducible first
      | assumption | apply onEngine_kept | apply draw_kept | apply bringRange_kept | apply flushTile_kept | apply touchTile_kept
      | apply KeptRes.of_next | intro _ | split

end Sys2Proof.Safety
end

