-- ==== Sys2Proof/Laws/KeptFuses.lean ====
section
/-! SUPPORT. What the definitions of Machine/Fuses.lean keep: one lemma per definition, from any earlier state. -/

namespace Sys2Proof.Safety

-- The lemmas of this file are checked one after another, with few threads at a time.
set_option Elab.async false

open Sys2Proof.Machine

theorem blowMono_kept {b0 : Fus} (n w : Nat) (ask : BitVec 64) (f : Fus) (hk0 : FusKept b0 f) : FusKept b0 (blowMono n w ask f) := by
  refine hk0.trans ⟨id, fun v i h => ?_⟩
  unfold fuseBits blowMono at *
  by_cases e : v = w
  · subst e
    rw [tget_tmod_same]
    simp only [BitVec.getLsbD_or, Bool.or_eq_true]
    exact .inl h
  · rw [tget_tmod_other _ _ e]; exact h

theorem blowEcc_kept {b0 : Fus} (n w : Nat) (v : BitVec 64) (f : Fus) (hk0 : FusKept b0 f) : FusKept b0 (blowEcc n w v f) := by
  refine hk0.trans ⟨id, fun x i h => ?_⟩
  unfold fuseBits blowEcc at *
  by_cases e : x = w
  · subst e
    rw [tget_tmod_same]
    split
    · simp only [BitVec.getLsbD_or, Bool.or_eq_true]; exact .inl h
    · split <;> (simp only [BitVec.getLsbD_or, Bool.or_eq_true]; exact .inl h)
  · rw [tget_tmod_other _ _ e]; exact h

theorem blowEccList_kept {b0 : Fus} (n w : Nat) (l : List Byte) (cnt : Nat) (f : Fus) (hk0 : FusKept b0 f) : FusKept b0 (blowEccList n w l cnt f) := by
  unfold blowEccList
  repeat' with_reducible first
    | assumption | apply blowEcc_kept | apply FusKept.foldl | intro _

theorem blowArb_kept {b0 : Fus} (n v : Nat) (f : Fus) (hk0 : FusKept b0 f) : FusKept b0 (blowArb n v f) := by
  unfold blowArb
  dsimp only
  repeat' with_reducible first
    | assumption | apply blowMono_kept | exact FusKept.trans hk0 (.of_eq rfl rfl) | split

theorem fuseProgram_kept (n code : Nat) (c : FuseCmd) (f : Fus) : FusKept f (fuseProgram n code c f).1 := by
  unfold fuseProgram
  dsimp only
  repeat' split
  all_goals first
    | exact blowEccList_kept _ _ _ _ _ (.refl _)
    | exact blowMono_kept _ _ _ _ (.refl _)
    | exact blowEcc_kept _ _ _ _ (.refl _)
    | exact blowArb_kept _ _ _ (.refl _)
    | exact blowMono_kept _ _ _ _ (blowMono_kept _ _ _ _ (.refl _))
    | exact FusKept.foldl (blowMono_kept _ _ _ _ (.refl _)) fun _ _ h => blowMono_kept _ _ _ _ h
    | exact .of_eq rfl rfl

theorem fuseAfter_kept {cv : List Block} {s0 : State} (code : Nat) (s : State) (hk0 : Kept cv s0 s)
    (hc : covers [.hst, .hrd, .lif, .flt, .out] cv = true := by exact covers_le (by assumption) rfl) :
    Kept cv s0 (fuseAfter code s) := by
  unfold fuseAfter
  repeat' first
    | exact covers_le hc rfl
    | with_reducible first
      | assumption | refine note_kept _ _ ?_ (hc := ?_) (hd := by with_unfolding_all rfl) | apply onLif_kept | apply onHrd_kept
      | apply when'_kept | intro _ | split

theorem fuseFinish_kept {cv : List Block} {s0 : State} (code status : Nat) (s : State) (hk0 : Kept cv s0 s)
    (hc : covers [.fus, .hst, .flt, .out, .free] cv = true := by exact covers_le (by assumption) rfl) :
    Kept cv s0 (fuseFinish code status s) := by
  unfold fuseFinish
  repeat' first
    | exact covers_le hc rfl
    | with_reducible first
      | assumption | refine note_kept _ _ ?_ (hc := ?_) (hd := by with_unfolding_all rfl) | split
      | refine Kept.set_fus_free ?_ (.of_eq rfl rfl) (hc := ?_)

theorem fuseReadBack_kept {cv : List Block} {s0 : State} (s : State) (w : Nat) (hk0 : Kept cv s0 s)
    (hc : covers [.fus, .hst, .flt, .out] cv = true := by exact covers_le (by assumption) rfl) :
    Kept cv s0 (fuseReadBack s w) := by
  unfold fuseReadBack
  repeat' first
    | exact covers_le hc rfl
    | with_reducible first
      | assumption | refine note_kept _ _ ?_ (hc := ?_) (hd := by with_unfolding_all rfl) | split
      | refine Kept.set_fus ?_ (.of_eq rfl rfl) (hc := ?_)

theorem fuseCommit_kept {cv : List Block} {s0 : State} (code : Nat) (c : FuseCmd) (s : State) (hk0 : Kept cv s0 s)
    (hc : covers [.fus, .hst, .hrd, .lif, .flt, .out, .free] cv = true := by exact covers_le (by assumption) rfl) :
    Kept cv s0 (fuseCommit code c s) := by
  unfold fuseCommit
  have hf := fuseProgram_kept s.free code c s.fus
  generalize fuseProgram s.free code c s.fus = r at hf
  have h : Kept cv s0 ((fuseWritten code c).foldl fuseReadBack (draw { s with fus := r.1 })) :=
    Kept.foldl (draw_kept _ (Kept.upd hk0 hf (.of_eq rfl) (.of_eq rfl) (.of_eq rfl))) fun _ _ k => fuseReadBack_kept _ _ k
  dsimp only
  split
  · exact fuseFinish_kept _ _ _ (fuseAfter_kept _ _ h)
  · exact fuseFinish_kept _ _ _ h

theorem fuseCommand_kept {cv : List Block} {s0 : State} (code : Nat) (c : FuseCmd) (s : State) (hk0 : Kept cv s0 s)
    (hc : covers [.fus, .hst, .hrd, .lif, .flt, .out, .free] cv = true := by exact covers_le (by assumption) rfl) :
    Kept cv s0 (fuseCommand code c s) := by
  unfold fuseCommand
  repeat' first
    | exact covers_le hc rfl
    | with_reducible first
      | assumption | refine note_kept _ _ ?_ (hc := ?_) (hd := by with_unfolding_all rfl) | apply fuseFinish_kept
      | apply fuseCommit_kept | split | refine Kept.set_fus ?_ (.of_eq rfl rfl) (hc := ?_)
      | refine Kept.set_fus_free ?_ (.of_eq rfl rfl) (hc := ?_)

theorem fuseGo_kept {cv : List Block} {s0 : State} (s : State) (hk0 : Kept cv s0 s)
    (hc : covers [.fus, .hst, .hrd, .lif, .flt, .out, .free] cv = true := by exact covers_le (by assumption) rfl) :
    Kept cv s0 (fuseGo s) := by
  unfold fuseGo
  repeat' first
    | exact covers_le hc rfl
    | with_reducible first
      | assumption | refine note_kept _ _ ?_ (hc := ?_) (hd := by with_unfolding_all rfl) | apply fuseCommand_kept
      | apply fuseFinish_kept | split | refine Kept.set_fus_free ?_ (.of_eq rfl rfl) (hc := ?_)

theorem revokeDeferred_kept {cv : List Block} {s0 : State} (s : State) (hk0 : Kept cv s0 s)
    (hc : covers [.fus, .hst, .hrd, .lif, .flt, .out, .free] cv = true := by exact covers_le (by assumption) rfl) :
    Kept cv s0 (revokeDeferred s) := by
  unfold revokeDeferred
  repeat' first
    | exact covers_le hc rfl
    | with_reducible first
      | assumption | apply fuseCommit_kept | split | refine Kept.set_fus ?_ (.of_eq rfl rfl) (hc := ?_)

theorem execSetOwner_kept {cv : List Block} {s0 : State} (c : FuseCmd) (s : State) (hk0 : Kept cv s0 s)
    (hc : covers [.fus, .hst, .hrd, .lif, .flt, .out, .free] cv = true := by exact covers_le (by assumption) rfl) :
    KeptRes cv s0 (execSetOwner c s) := by
  unfold execSetOwner
  repeat' first
    | exact covers_le hc rfl
    | with_reducible first
      | assumption | apply fuseCommand_kept | apply KeptRes.of_next

theorem execProgramSlot_kept {cv : List Block} {s0 : State} (c : FuseCmd) (s : State) (hk0 : Kept cv s0 s)
    (hc : covers [.fus, .hst, .hrd, .lif, .flt, .out, .free] cv = true := by exact covers_le (by assumption) rfl) :
    KeptRes cv s0 (execProgramSlot c s) := by
  unfold execProgramSlot
  repeat' first
    | exact covers_le hc rfl
    | with_reducible first
      | assumption | apply fuseCommand_kept | apply KeptRes.of_next

theorem execRevokeSlot_kept {cv : List Block} {s0 : State} (c : FuseCmd) (s : State) (hk0 : Kept cv s0 s)
    (hc : covers [.fus, .hst, .hrd, .lif, .flt, .out, .free] cv = true := by exact covers_le (by assumption) rfl) :
    KeptRes cv s0 (execRevokeSlot c s) := by
  unfold execRevokeSlot
  repeat' first
    | exact covers_le hc rfl
    | with_reducible first
      | assumption | apply fuseCommand_kept | apply KeptRes.of_next

theorem execRevokeSlotDeferred_kept {cv : List Block} {s0 : State} (s : State) (hk0 : Kept cv s0 s)
    (hc : covers [.fus, .hst, .hrd, .lif, .flt, .out, .free] cv = true := by exact covers_le (by assumption) rfl) :
    KeptRes cv s0 (execRevokeSlotDeferred s) := by
  unfold execRevokeSlotDeferred
  repeat' first
    | exact covers_le hc rfl
    | with_reducible first
      | assumption | apply revokeDeferred_kept | apply KeptRes.of_next

theorem execAdvanceArb_kept {cv : List Block} {s0 : State} (c : FuseCmd) (s : State) (hk0 : Kept cv s0 s)
    (hc : covers [.fus, .hst, .hrd, .lif, .flt, .out, .free] cv = true := by exact covers_le (by assumption) rfl) :
    KeptRes cv s0 (execAdvanceArb c s) := by
  unfold execAdvanceArb
  repeat' first
    | exact covers_le hc rfl
    | with_reducible first
      | assumption | apply fuseCommand_kept | apply KeptRes.of_next

theorem execTightenDebug_kept {cv : List Block} {s0 : State} (c : FuseCmd) (s : State) (hk0 : Kept cv s0 s)
    (hc : covers [.fus, .hst, .hrd, .lif, .flt, .out, .free] cv = true := by exact covers_le (by assumption) rfl) :
    KeptRes cv s0 (execTightenDebug c s) := by
  unfold execTightenDebug
  repeat' first
    | exact covers_le hc rfl
    | with_reducible first
      | assumption | apply fuseCommand_kept | apply KeptRes.of_next

theorem execProgramPolicy_kept {cv : List Block} {s0 : State} (c : FuseCmd) (s : State) (hk0 : Kept cv s0 s)
    (hc : covers [.fus, .hst, .hrd, .lif, .flt, .out, .free] cv = true := by exact covers_le (by assumption) rfl) :
    KeptRes cv s0 (execProgramPolicy c s) := by
  unfold execProgramPolicy
  repeat' first
    | exact covers_le hc rfl
    | with_reducible first
      | assumption | apply fuseCommand_kept | apply KeptRes.of_next

theorem execFuseSeal_kept {cv : List Block} {s0 : State} (c : FuseCmd) (s : State) (hk0 : Kept cv s0 s)
    (hc : covers [.fus, .hst, .hrd, .lif, .flt, .out, .free] cv = true := by exact covers_le (by assumption) rfl) :
    KeptRes cv s0 (execFuseSeal c s) := by
  unfold execFuseSeal
  repeat' first
    | exact covers_le hc rfl
    | with_reducible first
      | assumption | apply fuseCommand_kept | apply KeptRes.of_next

theorem execRetire_kept {cv : List Block} {s0 : State} (c : FuseCmd) (s : State) (hk0 : Kept cv s0 s)
    (hc : covers [.fus, .hst, .hrd, .lif, .flt, .out, .free] cv = true := by exact covers_le (by assumption) rfl) :
    KeptRes cv s0 (execRetire c s) := by
  unfold execRetire
  repeat' first
    | exact covers_le hc rfl
    | with_reducible first
      | assumption | apply fuseCommand_kept | apply KeptRes.of_next

theorem execDebugUnlock_kept {cv : List Block} {s0 : State} (c : FuseCmd) (s : State) (hk0 : Kept cv s0 s)
    (hc : covers [.fus, .hst, .hrd, .lif, .flt, .out, .free] cv = true := by exact covers_le (by assumption) rfl) :
    KeptRes cv s0 (execDebugUnlock c s) := by
  unfold execDebugUnlock
  repeat' first
    | exact covers_le hc rfl
    | with_reducible first
      | assumption | apply fuseCommand_kept | apply KeptRes.of_next

end Sys2Proof.Safety
end

