-- ==== Sys2Proof/Laws/KeptDram.lean ====
section
/-! SUPPORT. What the definitions of Machine/Dram.lean keep: one lemma per definition, from any earlier state. -/

namespace Sys2Proof.Safety

-- The lemmas of this file are checked one after another, with few threads at a time.
set_option Elab.async false

open Sys2Proof.Machine

theorem execDramAdmission_kept {cv : List Block} {s0 : State} (pc : Nat) (rfm : Bool) (s : State) (hk0 : Kept cv s0 s)
    (hc : covers [.drt, .out] cv = true := by exact covers_le (by assumption) rfl) :
    KeptRes cv s0 (execDramAdmission pc rfm s) := by
  unfold execDramAdmission
  repeat' first
    | exact covers_le hc rfl
    | with_reducible first
      | assumption | apply KeptRes.of_next | intro _ | split | refine Kept.set_drt_out ?_ (.of_eq rfl) (hc := ?_)

theorem refreshBank_kept {cv : List Block} {s0 : State} (k : Nat) (s : State) (hk0 : Kept cv s0 s)
    (hc : covers [.drt, .out] cv = true := by exact covers_le (by assumption) rfl) :
    Kept cv s0 (refreshBank k s) := by
  unfold refreshBank
  repeat' first
    | exact covers_le hc rfl
    | with_reducible first
      | assumption | intro _ | split | refine Kept.set_drt_out ?_ (.of_eq rfl) (hc := ?_)

theorem forcedRefresh_kept {cv : List Block} {s0 : State} (k : Nat) (s : State) (hk0 : Kept cv s0 s)
    (hc : covers [.drt, .out] cv = true := by exact covers_le (by assumption) rfl) :
    Kept cv s0 (forcedRefresh k s) := by
  unfold forcedRefresh
  repeat' first
    | exact covers_le hc rfl
    | with_reducible first
      | assumption | apply refreshBank_kept | split

theorem execRefreshDeadline_kept {cv : List Block} {s0 : State} (pc bank : Nat) (s : State) (hk0 : Kept cv s0 s)
    (hc : covers [.drt, .out] cv = true := by exact covers_le (by assumption) rfl) :
    KeptRes cv s0 (execRefreshDeadline pc bank s) := by
  unfold execRefreshDeadline
  repeat' first
    | exact covers_le hc rfl
    | with_reducible first
      | assumption | apply forcedRefresh_kept | apply KeptRes.of_next | refine Kept.set_drt ?_ (.of_eq rfl) (hc := ?_)

theorem execRefreshOpportunity_kept {cv : List Block} {s0 : State} (pc : Nat) (s : State) (hk0 : Kept cv s0 s)
    (hc : covers [.drt, .out] cv = true := by exact covers_le (by assumption) rfl) :
    KeptRes cv s0 (execRefreshOpportunity pc s) := by
  unfold execRefreshOpportunity
  repeat' first
    | exact covers_le hc rfl
    | with_reducible first
      | assumption | apply refreshBank_kept | apply KeptRes.of_next | split

theorem dropWay_kept {cv : List Block} {s0 : State} (i : Nat) (s : State) (hk0 : Kept cv s0 s)
    (hc : covers [.cdc, .drt] cv = true := by exact covers_le (by assumption) rfl) :
    Kept cv s0 (dropWay i s) := by
  unfold dropWay
  repeat' first
    | exact covers_le hc rfl
    | with_reducible first
      | assumption | apply dropTile_kept | refine Kept.set_drt ?_ (.of_eq rfl) (hc := ?_)

theorem commitCache_kept {cv : List Block} {s0 : State} (s : State) (hk0 : Kept cv s0 s)
    (hc : covers [.pwr, .hst, .cdc, .drt, .hrd, .wrn, .flt, .out] cv = true := by exact covers_le (by assumption) rfl) :
    Kept cv s0 (commitCache s) := by
  unfold commitCache
  repeat' first
    | exact covers_le hc rfl
    | with_reducible first
      | assumption | apply commitTile_kept | apply Kept.foldl | apply Kept.foldl_fst | intro _

theorem sidLossGo_kept {cv : List Block} {s0 : State} (s : State) (hk0 : Kept cv s0 s)
    (hc : covers [.uni, .pwr, .hst, .cdc, .drt, .eng, .opq, .flt, .out] cv = true := by exact covers_le (by assumption) rfl) :
    Kept cv s0 (sidLossGo s) := by
  unfold sidLossGo
  dsimp only
  repeat' first
    | exact covers_le hc rfl
    | with_reducible first
      | assumption | apply dropWay_kept | apply raise_kept | apply Kept.foldl | apply Kept.foldl_fst | intro _ | split
      | refine Kept.set_drt ?_ (.of_eq rfl) (hc := ?_)

theorem startRetire_kept {cv : List Block} {s0 : State} (phys : Nat) (s : State) (hk0 : Kept cv s0 s)
    (hc : covers [.uni, .pwr, .hst, .cdc, .drt, .hrd, .wrn, .eng, .opq, .flt, .out] cv = true := by exact covers_le (by assumption) rfl) :
    Kept cv s0 (startRetire phys s) := by
  unfold startRetire
  repeat' first
    | exact covers_le hc rfl
    | with_reducible first
      | assumption | apply dropWay_kept | apply sidLossGo_kept | apply commitCache_kept | apply Kept.foldl | apply Kept.foldl_fst
      | intro _ | split | refine Kept.set_drt ?_ (.of_eq rfl) (hc := ?_)

theorem nextRetire_kept {cv : List Block} {s0 : State} (s : State) (hk0 : Kept cv s0 s)
    (hc : covers [.uni, .pwr, .hst, .cdc, .drt, .hrd, .wrn, .eng, .opq, .flt, .out] cv = true := by exact covers_le (by assumption) rfl) :
    Kept cv s0 (nextRetire s) := by
  unfold nextRetire
  repeat' first
    | exact covers_le hc rfl
    | with_reducible first
      | assumption | apply startRetire_kept | split | refine Kept.set_drt ?_ (.of_eq rfl) (hc := ?_)

theorem execSidRetireComplete_kept {cv : List Block} {s0 : State} (s : State) (hk0 : Kept cv s0 s)
    (hc : covers [.uni, .pwr, .hst, .cdc, .drt, .hrd, .wrn, .eng, .opq, .lif, .flt, .out] cv = true := by exact covers_le (by assumption) rfl) :
    KeptRes cv s0 (execSidRetireComplete s) := by
  unfold execSidRetireComplete
  repeat' first
    | exact covers_le hc rfl
    | with_reducible first
      | assumption | refine note_kept _ _ ?_ (hc := ?_) (hd := by with_unfolding_all rfl) | apply nextRetire_kept
      | apply takeOut_kept | apply KeptRes.of_next | intro _ | split | refine Kept.set_drt ?_ (.of_eq rfl) (hc := ?_)

theorem execPoolRemapComplete_kept {cv : List Block} {s0 : State} (s : State) (hk0 : Kept cv s0 s)
    (hc : covers [.uni, .pwr, .hst, .ext, .cdc, .drt, .hrd, .wrn, .eng, .opq, .lif, .flt, .out] cv = true := by exact covers_le (by assumption) rfl) :
    KeptRes cv s0 (execPoolRemapComplete s) := by
  unfold execPoolRemapComplete
  repeat' first
    | exact covers_le hc rfl
    | with_reducible first
      | assumption | refine note_kept _ _ ?_ (hc := ?_) (hd := by with_unfolding_all rfl) | apply sidLossGo_kept
      | apply settle_kept | apply nextRetire_kept | apply takeOut_kept | apply KeptRes.of_next | intro _ | split
      | refine Kept.set_drt_hrd ?_ (.of_eq rfl) (hc := ?_)

theorem poisonLost_kept {cv : List Block} {s0 : State} (a : Nat) (e : ExtRec) (tile : Nat) (s : State) (hk0 : Kept cv s0 s)
    (hc : covers [.hst, .drt, .flt, .out] cv = true := by exact covers_le (by assumption) rfl) :
    Kept cv s0 (poisonLost a e tile s) := by
  unfold poisonLost
  extract_lets r ks s1
  have h : Kept cv s0 s1 := Kept.upd hk0 (.refl _) (.of_eq rfl) (poisonStrips_kept _ _ _ _ (.of_eq rfl)) (.of_eq rfl)
  clear_value s1
  exact note_kept _ _ h

theorem loseOwned_kept {cv : List Block} {s0 : State} (a : Nat) (s : State) (o : Option (ExtRec × Nat × Nat)) (hk0 : Kept cv s0 s)
    (hc : covers [.pwr, .hst, .cdc, .drt, .hrd, .wrn, .flt, .out] cv = true := by exact covers_le (by assumption) rfl) :
    Kept cv s0 (loseOwned a s o) := by
  unfold loseOwned
  split
  · exact hk0
  · split
    · exact startFill_kept _ _ _ _ (dropCopy_kept _ _ _ hk0)
    · exact poisonLost_kept _ _ _ _ hk0

theorem loseData_kept {cv : List Block} {s0 : State} (a : Nat) (s : State) (hk0 : Kept cv s0 s)
    (hc : covers [.pwr, .hst, .cdc, .drt, .hrd, .wrn, .flt, .out] cv = true := by exact covers_le (by assumption) rfl) :
    Kept cv s0 (loseData a s) := by
  unfold loseData
  repeat' first
    | exact covers_le hc rfl
    | with_reducible first
      | assumption | apply loseOwned_kept

theorem loseMeta_kept {cv : List Block} {s0 : State} (m : Nat) (s : State) (hk0 : Kept cv s0 s)
    (hc : covers [.pwr, .hst, .cdc, .drt, .hrd, .wrn, .flt, .out] cv = true := by exact covers_le (by assumption) rfl) :
    Kept cv s0 (loseMeta m s) := by
  unfold loseMeta
  split
  · refine Kept.foldl hk0 fun u b h => ?_
    extract_lets a
    split
    · exact h
    · split
      · exact startFill_kept _ _ _ _ (dropCopy_kept _ _ _ h)
      · exact note_kept _ _ (Kept.upd h (.refl _) (.of_eq rfl) (putRec_kept _ _ _ (.of_eq rfl)) (.of_eq rfl))
  · split
    · exact note_kept _ _ (Kept.upd hk0 (.refl _) (.of_eq rfl) (.of_eq rfl) (.of_eq rfl))
    · exact hk0

theorem lineLost_kept {cv : List Block} {s0 : State} (phys pc bank row column a sp sq : Nat) (s : State) (hk0 : Kept cv s0 s)
    (hc : covers [.uni, .pwr, .hst, .cdc, .drt, .hrd, .wrn, .eng, .opq, .flt, .out] cv = true := by exact covers_le (by assumption) rfl) :
    Kept cv s0 (lineLost phys pc bank row column a sp sq s) := by
  unfold lineLost
  repeat' first
    | exact covers_le hc rfl
    | with_reducible first
      | assumption | refine note_kept _ _ ?_ (hc := ?_) (hd := by with_unfolding_all rfl) | apply startRetire_kept
      | apply loseData_kept | apply loseMeta_kept | intro _ | split | refine Kept.set_drt ?_ (.of_eq rfl) (hc := ?_)

theorem countCe_kept {cv : List Block} {s0 : State} (phys n : Nat) (s : State) (hk0 : Kept cv s0 s)
    (hc : covers [.uni, .pwr, .hst, .cdc, .drt, .hrd, .wrn, .eng, .opq, .flt, .out] cv = true := by exact covers_le (by assumption) rfl) :
    Kept cv s0 (countCe phys n s) := by
  unfold countCe
  repeat' first
    | exact covers_le hc rfl
    | with_reducible first
      | assumption | apply startRetire_kept | intro _ | split | refine Kept.set_drt ?_ (.of_eq rfl) (hc := ?_)

theorem execDramUnitComplete_kept {cv : List Block} {s0 : State} (uid : Nat) (errs : List SymErr) (s : State) (hk0 : Kept cv s0 s)
    (hc : covers [.uni, .pwr, .hst, .cdc, .drt, .hrd, .wrn, .eng, .opq, .flt, .out] cv = true := by exact covers_le (by assumption) rfl) :
    KeptRes cv s0 (execDramUnitComplete uid errs s) := by
  unfold execDramUnitComplete
  repeat' first
    | exact covers_le hc rfl
    | with_reducible first
      | assumption | apply countCe_kept | apply lineLost_kept | apply forcedRefresh_kept | apply KeptRes.of_next | apply Kept.foldl
      | apply Kept.foldl_fst | intro _ | split | refine Kept.set_drt ?_ (.of_eq rfl) (hc := ?_)

theorem execDramScrub_kept {cv : List Block} {s0 : State} (sid addr corrected : Nat) (uncorrectable : Bool) (s : State) (hk0 : Kept cv s0 s)
    (hc : covers [.uni, .pwr, .hst, .cdc, .drt, .hrd, .wrn, .eng, .opq, .flt, .out] cv = true := by exact covers_le (by assumption) rfl) :
    KeptRes cv s0 (execDramScrub sid addr corrected uncorrectable s) := by
  unfold execDramScrub
  repeat' first
    | exact covers_le hc rfl
    | with_reducible first
      | assumption | apply countCe_kept | apply lineLost_kept | apply KeptRes.of_next | split

theorem unfreezeStack_kept {cv : List Block} {s0 : State} (k : Nat) (s : State) (hk0 : Kept cv s0 s)
    (hc : covers [.pwr, .hst, .cdc, .drt, .hrd, .wrn, .flt, .out] cv = true := by exact covers_le (by assumption) rfl) :
    Kept cv s0 (unfreezeStack k s) := by
  unfold unfreezeStack
  repeat' first
    | exact covers_le hc rfl
    | with_reducible first
      | assumption | apply loseData_kept | intro _ | split | refine Kept.set_drt ?_ (.of_eq rfl) (hc := ?_)

theorem execUnfreeze_kept {cv : List Block} {s0 : State} (val : Word) (s : State) (hk0 : Kept cv s0 s)
    (hc : covers [.pwr, .hst, .ext, .cdc, .drt, .hrd, .wrn, .eng, .flt, .out] cv = true := by exact covers_le (by assumption) rfl) :
    KeptRes cv s0 (execUnfreeze val s) := by
  unfold execUnfreeze
  repeat' first
    | exact covers_le hc rfl
    | with_reducible first
      | assumption | apply settle_kept | apply unfreezeStack_kept | apply KeptRes.of_next | apply Kept.foldl | apply Kept.foldl_fst
      | intro _ | split

theorem rateChange_kept {cv : List Block} {s0 : State} (r : Nat) (s : State) (hk0 : Kept cv s0 s)
    (hc : covers [.drt] cv = true := by exact covers_le (by assumption) rfl) :
    Kept cv s0 (rateChange r s) := by
  unfold rateChange
  repeat' first
    | exact covers_le hc rfl
    | with_reducible first
      | assumption | split | refine Kept.set_drt ?_ (.of_eq rfl) (hc := ?_)

theorem execDataRateChange_kept {cv : List Block} {s0 : State} (target : Nat) (s : State) (hk0 : Kept cv s0 s)
    (hc : covers [.drt] cv = true := by exact covers_le (by assumption) rfl) :
    KeptRes cv s0 (execDataRateChange target s) := by
  unfold execDataRateChange
  repeat' first
    | exact covers_le hc rfl
    | with_reducible first
      | assumption | apply rateChange_kept | apply KeptRes.of_next

end Sys2Proof.Safety
end

