-- ==== Sys2Proof/Laws/KeptHostPorts.lean ====
section
/-! SUPPORT. What the definitions of Machine/HostPorts.lean keep: one lemma per definition, from any earlier state. -/

namespace Sys2Proof.Safety

-- The lemmas of this file are checked one after another, with few threads at a time.
set_option Elab.async false

open Sys2Proof.Machine

theorem onLink_kept {cv : List Block} {s0 : State} (l : Nat) (f : Link → Link) (s : State) (hk0 : Kept cv s0 s)
    (hc : covers [.hst] cv = true := by exact covers_le (by assumption) rfl) :
    Kept cv s0 (onLink l f s) := by
  unfold onLink
  repeat' first
    | exact covers_le hc rfl
    | with_reducible first
      | assumption | refine Kept.set_hst ?_ (.of_eq rfl) (hc := ?_)

theorem onLd_kept {cv : List Block} {s0 : State} (ld : Nat) (f : Ld → Ld) (s : State) (hf : ∀ l, memWf l.pages = true → memWf (f l).pages = true)
    (hk0 : Kept cv s0 s)
    (hc : covers [.hst] cv = true := by exact covers_le (by assumption) rfl) :
    Kept cv s0 (onLd ld f s) :=
  Kept.upd hk0 (.refl _) (.of_eq rfl) (.of_eq rfl) (HstKept.ld hf)

theorem linkEpochs_kept {cv : List Block} {s0 : State} (l : Nat) (s : State) (hk0 : Kept cv s0 s)
    (hc : covers [.hst, .mbx, .out] cv = true := by exact covers_le (by assumption) rfl) :
    Kept cv s0 (linkEpochs l s) := by
  unfold linkEpochs
  repeat' first
    | exact covers_le hc rfl
    | with_reducible first
      | assumption | apply hostEpoch_kept | apply Kept.foldl | apply Kept.foldl_fst | intro _ | split

theorem raiseVi7_kept {cv : List Block} {s0 : State} (s : State) (hk0 : Kept cv s0 s)
    (hc : covers [.pwr] cv = true := by exact covers_le (by assumption) rfl) :
    Kept cv s0 (raiseVi7 s) := by
  unfold raiseVi7
  repeat' first
    | exact covers_le hc rfl
    | with_reducible first
      | assumption | split | refine Kept.set_pwr ?_ (hc := ?_)

theorem linkUp_kept {cv : List Block} {s0 : State} (link : Nat) (p : LinkPartner) (s : State) (hk0 : Kept cv s0 s)
    (hc : covers [.pwr, .hst, .mbx, .flt, .out] cv = true := by exact covers_le (by assumption) rfl) :
    Kept cv s0 (linkUp link p s) := by
  unfold linkUp
  repeat' first
    | exact covers_le hc rfl
    | with_reducible first
      | assumption | exact fun _ h => h | exact fun _ _ => rfl
      | refine note_kept _ _ ?_ (hc := ?_) (hd := by with_unfolding_all rfl) | apply onLink_kept | apply raiseVi7_kept | apply linkEpochs_kept
      | apply onLd_kept | apply offerAll_kept | apply emit_kept | apply Kept.foldl | apply Kept.foldl_fst | intro _ | split

theorem execLinkUp_kept {cv : List Block} {s0 : State} (link : Nat) (p : LinkPartner) (s : State) (hk0 : Kept cv s0 s)
    (hc : covers [.pwr, .hst, .mbx, .flt, .out] cv = true := by exact covers_le (by assumption) rfl) :
    KeptRes cv s0 (execLinkUp link p s) := by
  unfold execLinkUp
  repeat' first
    | exact covers_le hc rfl
    | with_reducible first
      | assumption | apply linkUp_kept | apply KeptRes.of_next

theorem dropResponses_kept {b0 : Hst} (p : Nat → Bool) (h : Hst) (hk0 : HstKept b0 h) : HstKept b0 (dropResponses p h) := by
  unfold dropResponses
  repeat' with_reducible first
    | assumption | exact HstKept.trans hk0 (.of_eq rfl)

theorem linkDown_kept {cv : List Block} {s0 : State} (link : Nat) (s : State) (hk0 : Kept cv s0 s)
    (hc : covers [.hst, .flt, .out] cv = true := by exact covers_le (by assumption) rfl) :
    Kept cv s0 (linkDown link s) := by
  unfold linkDown
  repeat' first
    | exact covers_le hc rfl
    | with_reducible first
      | assumption | refine note_kept _ _ ?_ (hc := ?_) (hd := by with_unfolding_all rfl) | apply onLink_kept
      | apply dropResponses_kept | intro _ | split | refine Kept.set_hst ?_ (.of_eq rfl) (hc := ?_)

theorem execLinkDown_kept {cv : List Block} {s0 : State} (link : Nat) (s : State) (hk0 : Kept cv s0 s)
    (hc : covers [.hst, .flt, .out] cv = true := by exact covers_le (by assumption) rfl) :
    KeptRes cv s0 (execLinkDown link s) := by
  unfold execLinkDown
  repeat' first
    | exact covers_le hc rfl
    | with_reducible first
      | assumption | apply linkDown_kept | apply KeptRes.of_next

theorem linkRates_kept {cv : List Block} {s0 : State} (lower : Bool) (s : State) (hk0 : Kept cv s0 s)
    (hc : covers [.pwr, .hst] cv = true := by exact covers_le (by assumption) rfl) :
    Kept cv s0 (linkRates lower s) := by
  unfold linkRates
  repeat' first
    | exact covers_le hc rfl
    | with_reducible first
      | assumption | apply onLink_kept | apply raiseVi7_kept | apply Kept.foldl | apply Kept.foldl_fst | intro _ | split
      | refine Kept.set_pwr ?_ (hc := ?_)

theorem execLinkRateLowering_kept {cv : List Block} {s0 : State} (lower : Bool) (s : State) (hk0 : Kept cv s0 s)
    (hc : covers [.pwr, .hst] cv = true := by exact covers_le (by assumption) rfl) :
    KeptRes cv s0 (execLinkRateLowering lower s) := by
  unfold execLinkRateLowering
  repeat' first
    | exact covers_le hc rfl
    | with_reducible first
      | assumption | apply linkRates_kept | apply KeptRes.of_next

theorem execGetLdInfo_kept {cv : List Block} {s0 : State} (link : Nat) (s : State) (hk0 : Kept cv s0 s)
    (hc : covers [.out] cv = true := by exact covers_le (by assumption) rfl) :
    KeptRes cv s0 (execGetLdInfo link s) := by
  unfold execGetLdInfo
  repeat' first
    | exact covers_le hc rfl
    | with_reducible first
      | assumption | apply emit_kept | apply KeptRes.of_next | split

theorem execGetLdAllocations_kept {cv : List Block} {s0 : State} (link : Nat) (s : State) (hk0 : Kept cv s0 s)
    (hc : covers [.out] cv = true := by exact covers_le (by assumption) rfl) :
    KeptRes cv s0 (execGetLdAllocations link s) := by
  unfold execGetLdAllocations
  repeat' first
    | exact covers_le hc rfl
    | with_reducible first
      | assumption | apply emit_kept | apply KeptRes.of_next | intro _ | split

theorem execSetLdAllocations_kept {cv : List Block} {s0 : State} (link : Nat) (s : State) (hk0 : Kept cv s0 s)
    (hc : covers [.out] cv = true := by exact covers_le (by assumption) rfl) :
    KeptRes cv s0 (execSetLdAllocations link s) := by
  unfold execSetLdAllocations
  repeat' first
    | exact covers_le hc rfl
    | with_reducible first
      | assumption | apply emit_kept | apply KeptRes.of_next | split

theorem reply_kept {cv : List Block} {s0 : State} (ld code : Nat) (payload : List Nat) (s : State) (hk0 : Kept cv s0 s)
    (hc : covers [.out] cv = true := by exact covers_le (by assumption) rfl) :
    Kept cv s0 (reply ld code payload s) := by
  unfold reply
  repeat' first
    | exact covers_le hc rfl
    | with_reducible first
      | assumption | apply emit_kept

theorem query_kept {cv : List Block} {s0 : State} (ld : Nat) (payload : List Nat) (s : State) (hk0 : Kept cv s0 s)
    (hc : covers [.out] cv = true := by exact covers_le (by assumption) rfl) :
    KeptRes cv s0 (query ld payload s) := by
  unfold query
  repeat' first
    | exact covers_le hc rfl
    | with_reducible first
      | assumption | apply reply_kept | apply KeptRes.of_next | split

theorem execAddDynamicCapacityResponse_kept {cv : List Block} {s0 : State} (ld ext : Nat) (reader accept : Bool) (s : State) (hk0 : Kept cv s0 s)
    (hc : covers [.hst, .out] cv = true := by exact covers_le (by assumption) rfl) :
    KeptRes cv s0 (execAddDynamicCapacityResponse ld ext reader accept s) := by
  unfold execAddDynamicCapacityResponse
  repeat' first
    | exact covers_le hc rfl
    | with_reducible first
      | assumption | exact fun _ h => h | exact fun _ _ => rfl | apply reply_kept | apply onLd_kept | apply KeptRes.of_next
      | intro _ | split

theorem execReleaseDynamicCapacity_kept {cv : List Block} {s0 : State} (ld ext : Nat) (s : State) (hk0 : Kept cv s0 s)
    (hc : covers [.pwr, .hst, .mbx, .ext, .cdc, .drt, .hrd, .wrn, .eng, .opq, .flt, .out] cv = true := by exact covers_le (by assumption) rfl) :
    KeptRes cv s0 (execReleaseDynamicCapacity ld ext s) := by
  unfold execReleaseDynamicCapacity
  repeat' first
    | exact covers_le hc rfl
    | with_reducible first
      | assumption | apply reply_kept | apply releaseDone_kept | apply dropFromLd_kept | apply KeptRes.of_next | split

theorem execReleaseTimeout_kept {cv : List Block} {s0 : State} (ld ext : Nat) (s : State) (hk0 : Kept cv s0 s)
    (hc : covers [.pwr, .hst, .mbx, .ext, .cdc, .drt, .hrd, .wrn, .eng, .opq, .flt, .out] cv = true := by exact covers_le (by assumption) rfl) :
    KeptRes cv s0 (execReleaseTimeout ld ext s) := by
  unfold execReleaseTimeout
  repeat' first
    | exact covers_le hc rfl
    | with_reducible first
      | assumption | apply releaseDone_kept | apply forceRemove_kept | apply KeptRes.of_next | split

theorem execHdmDecoderCommit_kept {cv : List Block} {s0 : State} (ld idx base size ways gran skip : Nat) (bi : Bool) (s : State) (hk0 : Kept cv s0 s)
    (hc : covers [.hst] cv = true := by exact covers_le (by assumption) rfl) :
    KeptRes cv s0 (execHdmDecoderCommit ld idx base size ways gran skip bi s) := by
  unfold execHdmDecoderCommit
  repeat' first
    | exact covers_le hc rfl
    | with_reducible first
      | assumption | exact fun _ h => h | exact fun _ _ => rfl | apply onLd_kept | apply KeptRes.of_next | intro _ | split

theorem execHstLeaseRenew_kept {cv : List Block} {s0 : State} (ld : Nat) (val : Word) (stamp : Ns) (s : State) (hk0 : Kept cv s0 s)
    (hc : covers [.hst, .ext, .wrn, .flt, .out] cv = true := by exact covers_le (by assumption) rfl) :
    KeptRes cv s0 (execHstLeaseRenew ld val stamp s) := by
  unfold execHstLeaseRenew
  repeat' first
    | exact covers_le hc rfl
    | with_reducible first
      | assumption | apply renew_kept | apply KeptRes.of_next | split

theorem execIdentifyMemoryDevice_kept {cv : List Block} {s0 : State} (ld : Nat) (s : State) (hk0 : Kept cv s0 s)
    (hc : covers [.out] cv = true := by exact covers_le (by assumption) rfl) :
    KeptRes cv s0 (execIdentifyMemoryDevice ld s) := by
  unfold execIdentifyMemoryDevice
  repeat' first
    | exact covers_le hc rfl
    | with_reducible first
      | assumption | apply query_kept

theorem execGetSupportedLogs_kept {cv : List Block} {s0 : State} (ld : Nat) (s : State) (hk0 : Kept cv s0 s)
    (hc : covers [.out] cv = true := by exact covers_le (by assumption) rfl) :
    KeptRes cv s0 (execGetSupportedLogs ld s) := by
  unfold execGetSupportedLogs
  repeat' first
    | exact covers_le hc rfl
    | with_reducible first
      | assumption | apply query_kept

theorem execGetLog_kept {cv : List Block} {s0 : State} (ld : Nat) (vendor : Bool) (offset len : Nat) (s : State) (hk0 : Kept cv s0 s)
    (hc : covers [.out] cv = true := by exact covers_le (by assumption) rfl) :
    KeptRes cv s0 (execGetLog ld vendor offset len s) := by
  unfold execGetLog
  repeat' first
    | exact covers_le hc rfl
    | with_reducible first
      | assumption | apply query_kept

theorem execGetEventRecords_kept {cv : List Block} {s0 : State} (ld log : Nat) (s : State) (hk0 : Kept cv s0 s)
    (hc : covers [.out] cv = true := by exact covers_le (by assumption) rfl) :
    KeptRes cv s0 (execGetEventRecords ld log s) := by
  unfold execGetEventRecords
  repeat' first
    | exact covers_le hc rfl
    | with_reducible first
      | assumption | apply query_kept | apply KeptRes.of_next | intro _ | split

theorem execClearEventRecords_kept {cv : List Block} {s0 : State} (ld log : Nat) (all : Bool) (handles : List Nat) (s : State) (hk0 : Kept cv s0 s)
    (hc : covers [.flt, .out] cv = true := by exact covers_le (by assumption) rfl) :
    KeptRes cv s0 (execClearEventRecords ld log all handles s) := by
  unfold execClearEventRecords
  dsimp only
  repeat' first
    | exact covers_le hc rfl
    | with_reducible first
      | assumption | apply reply_kept | apply KeptRes.of_next | intro _ | split | refine Kept.set_flt ?_ (hc := ?_)

theorem execGetEventInterruptPolicy_kept {cv : List Block} {s0 : State} (ld : Nat) (s : State) (hk0 : Kept cv s0 s)
    (hc : covers [.out] cv = true := by exact covers_le (by assumption) rfl) :
    KeptRes cv s0 (execGetEventInterruptPolicy ld s) := by
  unfold execGetEventInterruptPolicy
  repeat' first
    | exact covers_le hc rfl
    | with_reducible first
      | assumption | apply query_kept

theorem execSetEventInterruptPolicy_kept {cv : List Block} {s0 : State} (ld : Nat) (msgs : List Nat) (s : State) (hk0 : Kept cv s0 s)
    (hc : covers [.hst, .out] cv = true := by exact covers_le (by assumption) rfl) :
    KeptRes cv s0 (execSetEventInterruptPolicy ld msgs s) := by
  unfold execSetEventInterruptPolicy
  repeat' first
    | exact covers_le hc rfl
    | with_reducible first
      | assumption | exact fun _ h => h | exact fun _ _ => rfl | apply reply_kept | apply onLd_kept | apply KeptRes.of_next
      | intro _ | split

theorem execGetHealthInfo_kept {cv : List Block} {s0 : State} (ld : Nat) (s : State) (hk0 : Kept cv s0 s)
    (hc : covers [.out, .free] cv = true := by exact covers_le (by assumption) rfl) :
    KeptRes cv s0 (execGetHealthInfo ld s) := by
  unfold execGetHealthInfo
  repeat' first
    | exact covers_le hc rfl
    | with_reducible first
      | assumption | apply query_kept | apply draw_kept

theorem execGetPoisonList_kept {cv : List Block} {s0 : State} (ld dpa len : Nat) (s : State) (hk0 : Kept cv s0 s)
    (hc : covers [.out] cv = true := by exact covers_le (by assumption) rfl) :
    KeptRes cv s0 (execGetPoisonList ld dpa len s) := by
  unfold execGetPoisonList
  repeat' first
    | exact covers_le hc rfl
    | with_reducible first
      | assumption | apply query_kept

theorem hostPoke_kept {cv : List Block} {s0 : State} (ld dpa : Nat) (data : List Byte) (poison : Bool) (s : State) (hk0 : Kept cv s0 s)
    (hc : covers [.pwr, .hst, .ext, .cdc, .drt, .hrd, .wrn, .eng, .flt, .out] cv = true := by exact covers_le (by assumption) rfl) :
    Kept cv s0 (hostPoke ld dpa data poison s) := by
  unfold hostPoke
  repeat' first
    | exact covers_le hc rfl
    | with_reducible first
      | assumption | apply hostRequest_kept

theorem execInjectPoison_kept {cv : List Block} {s0 : State} (ld dpa : Nat) (s : State) (hk0 : Kept cv s0 s)
    (hc : covers [.pwr, .hst, .ext, .cdc, .drt, .hrd, .wrn, .eng, .flt, .out] cv = true := by exact covers_le (by assumption) rfl) :
    KeptRes cv s0 (execInjectPoison ld dpa s) := by
  unfold execInjectPoison
  repeat' first
    | exact covers_le hc rfl
    | with_reducible first
      | assumption | apply reply_kept | apply hostPoke_kept | apply KeptRes.of_next | split

theorem execClearPoison_kept {cv : List Block} {s0 : State} (ld dpa : Nat) (data : List Byte) (s : State) (hk0 : Kept cv s0 s)
    (hc : covers [.pwr, .hst, .ext, .cdc, .drt, .hrd, .wrn, .eng, .flt, .out] cv = true := by exact covers_le (by assumption) rfl) :
    KeptRes cv s0 (execClearPoison ld dpa data s) := by
  unfold execClearPoison
  repeat' first
    | exact covers_le hc rfl
    | with_reducible first
      | assumption | apply reply_kept | apply hostPoke_kept | apply KeptRes.of_next | split

theorem execGetDynamicCapacityConfiguration_kept {cv : List Block} {s0 : State} (ld : Nat) (s : State) (hk0 : Kept cv s0 s)
    (hc : covers [.out] cv = true := by exact covers_le (by assumption) rfl) :
    KeptRes cv s0 (execGetDynamicCapacityConfiguration ld s) := by
  unfold execGetDynamicCapacityConfiguration
  repeat' first
    | exact covers_le hc rfl
    | with_reducible first
      | assumption | apply query_kept

theorem execGetDynamicCapacityExtentList_kept {cv : List Block} {s0 : State} (ld : Nat) (s : State) (hk0 : Kept cv s0 s)
    (hc : covers [.hst, .mbx, .flt, .out] cv = true := by exact covers_le (by assumption) rfl) :
    KeptRes cv s0 (execGetDynamicCapacityExtentList ld s) := by
  unfold execGetDynamicCapacityExtentList
  repeat' first
    | exact covers_le hc rfl
    | with_reducible first
      | assumption | apply reply_kept | apply offerAll_kept | apply KeptRes.of_next | intro _ | split

theorem execGetTimestamp_kept {cv : List Block} {s0 : State} (ld : Nat) (s : State) (hk0 : Kept cv s0 s)
    (hc : covers [.out] cv = true := by exact covers_le (by assumption) rfl) :
    KeptRes cv s0 (execGetTimestamp ld s) := by
  unfold execGetTimestamp
  repeat' first
    | exact covers_le hc rfl
    | with_reducible first
      | assumption | apply query_kept

theorem execSetTimestamp_kept {cv : List Block} {s0 : State} (ld : Nat) (_t : Ns) (s : State) (hk0 : Kept cv s0 s)
    (hc : covers [.out] cv = true := by exact covers_le (by assumption) rfl) :
    KeptRes cv s0 (execSetTimestamp ld _t s) := by
  unfold execSetTimestamp
  repeat' first
    | exact covers_le hc rfl
    | with_reducible first
      | assumption | apply query_kept

theorem execGetFwInfo_kept {cv : List Block} {s0 : State} (ld : Nat) (s : State) (hk0 : Kept cv s0 s)
    (hc : covers [.out] cv = true := by exact covers_le (by assumption) rfl) :
    KeptRes cv s0 (execGetFwInfo ld s) := by
  unfold execGetFwInfo
  repeat' first
    | exact covers_le hc rfl
    | with_reducible first
      | assumption | apply query_kept

theorem execUnsupportedMailboxCommand_kept {cv : List Block} {s0 : State} (ld _opcode : Nat) (s : State) (hk0 : Kept cv s0 s)
    (hc : covers [.out] cv = true := by exact covers_le (by assumption) rfl) :
    KeptRes cv s0 (execUnsupportedMailboxCommand ld _opcode s) := by
  unfold execUnsupportedMailboxCommand
  repeat' first
    | exact covers_le hc rfl
    | with_reducible first
      | assumption | apply reply_kept | apply KeptRes.of_next | split

theorem execSpdmRequest_kept {cv : List Block} {s0 : State} (ld code : Nat) (msg : List Byte) (s : State) (hk0 : Kept cv s0 s)
    (hc : covers [.hst, .out, .free] cv = true := by exact covers_le (by assumption) rfl) :
    KeptRes cv s0 (execSpdmRequest ld code msg s) := by
  unfold execSpdmRequest
  dsimp only
  repeat' first
    | exact covers_le hc rfl
    | with_reducible first
      | assumption | exact fun _ h => h | exact fun _ _ => rfl | apply emit_kept | apply draw_kept | apply onLd_kept
      | apply KeptRes.of_next | intro _ | split

theorem execIdeKeyProgramming_kept {cv : List Block} {s0 : State} (link : Nat) (mem io : Bool) (skid : Bool) (s : State) (hk0 : Kept cv s0 s)
    (hc : covers [.hst] cv = true := by exact covers_le (by assumption) rfl) :
    KeptRes cv s0 (execIdeKeyProgramming link mem io skid s) := by
  unfold execIdeKeyProgramming
  dsimp only
  repeat' first
    | exact covers_le hc rfl
    | with_reducible first
      | assumption | apply onLink_kept | apply KeptRes.of_next | intro _ | split

theorem execIdeCheckFail_kept {cv : List Block} {s0 : State} (link : Nat) (mem : Bool) (s : State) (hk0 : Kept cv s0 s)
    (hc : covers [.hst, .flt, .out] cv = true := by exact covers_le (by assumption) rfl) :
    KeptRes cv s0 (execIdeCheckFail link mem s) := by
  unfold execIdeCheckFail
  repeat' first
    | exact covers_le hc rfl
    | with_reducible first
      | assumption | refine note_kept _ _ ?_ (hc := ?_) (hd := by with_unfolding_all rfl) | apply onLink_kept
      | apply KeptRes.of_next

theorem execDeferrableMemoryWrite_kept {cv : List Block} {s0 : State} (ld off size : Nat) (s : State) (hk0 : Kept cv s0 s)
    (hc : covers [.out] cv = true := by exact covers_le (by assumption) rfl) :
    KeptRes cv s0 (execDeferrableMemoryWrite ld off size s) := by
  unfold execDeferrableMemoryWrite
  repeat' first
    | exact covers_le hc rfl
    | with_reducible first
      | assumption | apply emit_kept | apply KeptRes.of_next | split

theorem execResponseWatchdog_kept {cv : List Block} {s0 : State} (id : Nat) (s : State) (hk0 : Kept cv s0 s)
    (hc : covers [.hst, .wrn, .flt, .out] cv = true := by exact covers_le (by assumption) rfl) :
    KeptRes cv s0 (execResponseWatchdog id s) := by
  unfold execResponseWatchdog
  repeat' first
    | exact covers_le hc rfl
    | with_reducible first
      | assumption | exact fun _ h => h | exact fun _ _ => rfl
      | refine note_kept _ _ ?_ (hc := ?_) (hd := by with_unfolding_all rfl) | apply answerWrite_kept | apply answerPoison_kept
      | apply onLd_kept | apply KeptRes.of_next | intro _ | split | refine Kept.set_hst ?_ (.of_eq rfl) (hc := ?_)

theorem ldReset_kept {cv : List Block} {s0 : State} (ld : Nat) (s : State) (hk0 : Kept cv s0 s)
    (hc : covers [.pwr, .hst, .mbx, .ext, .cdc, .drt, .hrd, .wrn, .eng, .opq, .flt, .out] cv = true := by exact covers_le (by assumption) rfl) :
    Kept cv s0 (ldReset ld s) := by
  unfold ldReset
  have ha := onLd_kept ld (fun l => { l with
      inReset := false, accepted := [], offered := [], releasing := [], hdm := [], vecs := [], pba := 0
      evPolicy := [1, 1, 1, 1, 1], pages := [] }) _ (fun _ _ => rfl)
    (Kept.upd hk0 (.refl _) (.of_eq rfl) (.of_eq rfl) (.of_eq rfl) : Kept cv s0 { s with hst := dropResponses (· == ld) s.hst })
  extract_lets had sa sb b sc
  have hb : Kept cv s0 sb := hostEpoch_kept _ _ (onBox_kept _ _ _ ha)
  have hc : Kept cv s0 sc := by
    dsimp only [sc]
    split
    · exact sendMsix_kept _ _ _ hb
    · exact hb
  exact offerAll_kept _ _ _ (Kept.foldl hc fun _ _ h => releaseDone_kept _ _ h)

theorem execFunctionLevelReset_kept {cv : List Block} {s0 : State} (ld : Nat) (s : State) (hk0 : Kept cv s0 s)
    (hc : covers [.pwr, .hst, .mbx, .ext, .cdc, .drt, .hrd, .wrn, .eng, .opq, .flt, .out] cv = true := by exact covers_le (by assumption) rfl) :
    KeptRes cv s0 (execFunctionLevelReset ld s) := by
  unfold execFunctionLevelReset
  repeat' first
    | exact covers_le hc rfl
    | with_reducible first
      | assumption | apply ldReset_kept | apply KeptRes.of_next | split

theorem execHotReset_kept {cv : List Block} {s0 : State} (link : Nat) (s : State) (hk0 : Kept cv s0 s)
    (hc : covers [.pwr, .hst, .mbx, .ext, .cdc, .drt, .hrd, .wrn, .eng, .opq, .flt, .out] cv = true := by exact covers_le (by assumption) rfl) :
    KeptRes cv s0 (execHotReset link s) := by
  unfold execHotReset
  repeat' first
    | exact covers_le hc rfl
    | with_reducible first
      | assumption | exact fun _ h => h | exact fun _ _ => rfl | apply ldReset_kept | apply onLd_kept | apply onLink_kept
      | apply KeptRes.of_next | apply Kept.foldl | apply Kept.foldl_fst | intro _ | split

end Sys2Proof.Safety
end

