-- ==== Sys2Proof/Laws/KeptMailboxes.lean ====
section
/-! SUPPORT. What the definitions of Machine/Mailboxes.lean keep: one lemma per definition, from any earlier state. -/

namespace Sys2Proof.Safety

-- The lemmas of this file are checked one after another, with few threads at a time.
set_option Elab.async false

open Sys2Proof.Machine

theorem postSend_kept {cv : List Block} {s0 : State} (ld : Nat) (val : Word) (stamp : Ns) (s : State) (hk0 : Kept cv s0 s)
    (hc : covers [.hst, .mbx, .flt, .out] cv = true := by exact covers_le (by assumption) rfl) :
    Kept cv s0 (postSend ld val stamp s) := by
  unfold postSend
  repeat' first
    | exact covers_le hc rfl
    | with_reducible first
      | assumption | apply mbxRefused_kept | apply onBoxBell_kept | intro _ | split

theorem dmwrSend_kept {cv : List Block} {s0 : State} (ld : Nat) (m : MbxMsg) (s : State) (hk0 : Kept cv s0 s)
    (hc : covers [.hst, .mbx, .flt, .out] cv = true := by exact covers_le (by assumption) rfl) :
    Kept cv s0 (dmwrSend ld m s) := by
  unfold dmwrSend
  repeat' first
    | exact covers_le hc rfl
    | with_reducible first
      | assumption | apply emit_kept | apply mbxRefused_kept | apply onBox_kept | intro _ | split

theorem execMbxSend_kept {cv : List Block} {s0 : State} (ld : Nat) (val : Word) (stamp : Ns) (s : State) (hk0 : Kept cv s0 s)
    (hc : covers [.hst, .mbx, .flt, .out] cv = true := by exact covers_le (by assumption) rfl) :
    KeptRes cv s0 (execMbxSend ld val stamp s) := by
  unfold execMbxSend
  repeat' first
    | exact covers_le hc rfl
    | with_reducible first
      | assumption | apply postSend_kept | apply KeptRes.of_next | split

theorem execMbxSendHalf_kept {cv : List Block} {s0 : State} (ld : Nat) (val : BitVec 32) (s : State) (hk0 : Kept cv s0 s)
    (hc : covers [.hst, .mbx, .flt, .out] cv = true := by exact covers_le (by assumption) rfl) :
    KeptRes cv s0 (execMbxSendHalf ld val s) := by
  unfold execMbxSendHalf
  repeat' first
    | exact covers_le hc rfl
    | with_reducible first
      | assumption | apply mbxRefused_kept | apply onBox_kept | apply KeptRes.of_next | intro _ | split

theorem execMbxDmwrPointer_kept {cv : List Block} {s0 : State} (ld : Nat) (ptr notice : Word) (stamp : Ns) (s : State) (hk0 : Kept cv s0 s)
    (hc : covers [.hst, .mbx, .flt, .out] cv = true := by exact covers_le (by assumption) rfl) :
    KeptRes cv s0 (execMbxDmwrPointer ld ptr notice stamp s) := by
  unfold execMbxDmwrPointer
  repeat' first
    | exact covers_le hc rfl
    | with_reducible first
      | assumption | apply dmwrSend_kept | apply emit_kept | apply mbxRefused_kept | apply KeptRes.of_next | split

theorem execMbxDmwrWord_kept {cv : List Block} {s0 : State} (ld : Nat) (val : Word) (stamp : Ns) (s : State) (hk0 : Kept cv s0 s)
    (hc : covers [.hst, .mbx, .flt, .out] cv = true := by exact covers_le (by assumption) rfl) :
    KeptRes cv s0 (execMbxDmwrWord ld val stamp s) := by
  unfold execMbxDmwrWord
  repeat' first
    | exact covers_le hc rfl
    | with_reducible first
      | assumption | apply dmwrSend_kept | apply KeptRes.of_next | split

theorem popF2h_kept {cv : List Block} {s0 : State} (ld : Nat) (s : State) (hk0 : Kept cv s0 s)
    (hc : covers [.hst, .mbx, .out] cv = true := by exact covers_le (by assumption) rfl) :
    Kept cv s0 (popF2h ld s) := by
  unfold popF2h
  repeat' first
    | exact covers_le hc rfl
    | with_reducible first
      | assumption | apply onBoxBell_kept

theorem drainUnsent_kept {cv : List Block} {s0 : State} (ld : Nat) (s : State) (hk0 : Kept cv s0 s)
    (hc : covers [.hst, .mbx, .out] cv = true := by exact covers_le (by assumption) rfl) :
    Kept cv s0 (drainUnsent ld s) := by
  unfold drainUnsent
  repeat' first
    | exact covers_le hc rfl
    | with_reducible first
      | assumption | apply onBoxBell_kept

theorem execMbxRecvPop_kept {cv : List Block} {s0 : State} (ld : Nat) (val : Word) (s : State) (hk0 : Kept cv s0 s)
    (hc : covers [.hst, .mbx, .flt, .out] cv = true := by exact covers_le (by assumption) rfl) :
    KeptRes cv s0 (execMbxRecvPop ld val s) := by
  unfold execMbxRecvPop
  repeat' first
    | exact covers_le hc rfl
    | with_reducible first
      | assumption | apply mbxRefused_kept | apply popF2h_kept | apply KeptRes.of_next | split

theorem execMbxDbClear_kept {cv : List Block} {s0 : State} (ld : Nat) (val : Word) (s : State) (hk0 : Kept cv s0 s)
    (hc : covers [.hst, .mbx, .flt, .out] cv = true := by exact covers_le (by assumption) rfl) :
    KeptRes cv s0 (execMbxDbClear ld val s) := by
  unfold execMbxDbClear
  repeat' first
    | exact covers_le hc rfl
    | with_reducible first
      | assumption | apply mbxRefused_kept | apply onBox_kept | apply KeptRes.of_next | intro _ | split

theorem maskWrite_kept {cv : List Block} {s0 : State} (ld : Nat) (v : BitVec 32) (s : State) (hk0 : Kept cv s0 s)
    (hc : covers [.hst, .mbx, .out] cv = true := by exact covers_le (by assumption) rfl) :
    Kept cv s0 (maskWrite ld v s) := by
  unfold maskWrite
  dsimp only
  repeat' first
    | exact covers_le hc rfl
    | with_reducible first
      | assumption | apply onBox_kept | apply sendMsix_kept | intro _ | split

theorem boxModeStart_kept {cv : List Block} {s0 : State} (ld : Nat) (s : State) (hk0 : Kept cv s0 s)
    (hc : covers [.hst, .mbx, .out] cv = true := by exact covers_le (by assumption) rfl) :
    Kept cv s0 (boxModeStart ld s) := by
  unfold boxModeStart
  dsimp only
  repeat' first
    | exact covers_le hc rfl
    | with_reducible first
      | assumption | apply modeChange_kept | apply onBox_kept | intro _ | split

theorem boxMaskStart_kept {cv : List Block} {s0 : State} (ld : Nat) (s : State) (hk0 : Kept cv s0 s)
    (hc : covers [.hst, .mbx, .out] cv = true := by exact covers_le (by assumption) rfl) :
    Kept cv s0 (boxMaskStart ld s) := by
  unfold boxMaskStart
  dsimp only
  repeat' first
    | exact covers_le hc rfl
    | with_reducible first
      | assumption | apply maskWrite_kept | intro _ | split

theorem intModeStart_kept {cv : List Block} {s0 : State} (j : Nat) (s : State) (hk0 : Kept cv s0 s)
    (hc : covers [.mbx, .out] cv = true := by exact covers_le (by assumption) rfl) :
    Kept cv s0 (intModeStart j s) := by
  unfold intModeStart
  dsimp only
  repeat' first
    | exact covers_le hc rfl
    | with_reducible first
      | assumption | apply intModeChange_kept | apply onInt_kept | intro _ | split

theorem mailboxStart_kept {cv : List Block} {s0 : State} (s : State) (hk0 : Kept cv s0 s)
    (hc : covers [.hst, .mbx, .out] cv = true := by exact covers_le (by assumption) rfl) :
    Kept cv s0 (mailboxStart s) := by
  unfold mailboxStart
  repeat' first
    | exact covers_le hc rfl
    | with_reducible first
      | assumption | apply boxMaskStart_kept | apply boxModeStart_kept | apply intModeStart_kept | apply Kept.foldl
      | apply Kept.foldl_fst | intro _

theorem execMbxDbMaskWrite_kept {cv : List Block} {s0 : State} (ld : Nat) (val : Word) (s : State) (hk0 : Kept cv s0 s)
    (hc : covers [.hst, .mbx, .flt, .out] cv = true := by exact covers_le (by assumption) rfl) :
    KeptRes cv s0 (execMbxDbMaskWrite ld val s) := by
  unfold execMbxDbMaskWrite
  repeat' first
    | exact covers_le hc rfl
    | with_reducible first
      | assumption | apply mbxRefused_kept | apply maskWrite_kept | apply KeptRes.of_next | split

theorem discardHead_kept {cv : List Block} {s0 : State} (ld : Nat) (s : State) (hk0 : Kept cv s0 s)
    (hc : covers [.hst, .mbx, .out] cv = true := by exact covers_le (by assumption) rfl) :
    Kept cv s0 (discardHead ld s) := by
  unfold discardHead
  repeat' first
    | exact covers_le hc rfl
    | with_reducible first
      | assumption | apply onBoxBell_kept

theorem pointerFinish_kept {cv : List Block} {s0 : State} (ld core : Nat) (m : MbxMsg) (op : Nat) (s : State) (hk0 : Kept cv s0 s)
    (hc : covers [.pwr, .hst, .mbx, .cdc, .drt, .hrd, .wrn, .eng, .opq, .flt, .out, .free] cv = true := by exact covers_le (by assumption) rfl) :
    Kept cv s0 (pointerFinish ld core m op s) := by
  unfold pointerFinish
  repeat' first
    | exact covers_le hc rfl
    | with_reducible first
      | assumption | apply agentRead_kept | apply onBox_kept | apply fwSend_kept | apply agentWrite_kept | intro _ | split

theorem pointerGo_kept {cv : List Block} {s0 : State} (ld core : Nat) (m : MbxMsg) (op : Nat) (s : State) (hk0 : Kept cv s0 s)
    (hc : covers [.pwr, .hst, .mbx, .ext, .cdc, .drt, .hrd, .wrn, .eng, .opq, .flt, .out, .free] cv = true := by exact covers_le (by assumption) rfl) :
    Kept cv s0 (pointerGo ld core m op s) := by
  unfold pointerGo
  dsimp only
  repeat' first
    | exact covers_le hc rfl
    | with_reducible first
      | assumption | apply bringRange_kept | apply pointerFinish_kept | apply onBox_kept | intro _ | split

theorem fwRequest_kept {cv : List Block} {s0 : State} (p : Nat → Bool) (ld core : Nat) (s : State) (hk0 : Kept cv s0 s)
    (hc : covers [.pwr, .hst, .mbx, .ext, .cdc, .drt, .hrd, .wrn, .eng, .opq, .flt, .out, .free] cv = true := by exact covers_le (by assumption) rfl) :
    Kept cv s0 (fwRequest p ld core s) := by
  unfold fwRequest
  dsimp only
  repeat' first
    | exact covers_le hc rfl
    | with_reducible first
      | assumption | apply pointerGo_kept | apply discardHead_kept | apply onBoxBell_kept | apply fwSend_kept | intro _ | split

theorem execPing_kept {cv : List Block} {s0 : State} (ld core : Nat) (s : State) (hk0 : Kept cv s0 s)
    (hc : covers [.pwr, .hst, .mbx, .ext, .cdc, .drt, .hrd, .wrn, .eng, .opq, .flt, .out, .free] cv = true := by exact covers_le (by assumption) rfl) :
    KeptRes cv s0 (execPing ld core s) := by
  unfold execPing
  repeat' first
    | exact covers_le hc rfl
    | with_reducible first
      | assumption | apply fwRequest_kept | apply KeptRes.of_next

theorem execLeaseInfo_kept {cv : List Block} {s0 : State} (ld core : Nat) (s : State) (hk0 : Kept cv s0 s)
    (hc : covers [.pwr, .hst, .mbx, .ext, .cdc, .drt, .hrd, .wrn, .eng, .opq, .flt, .out, .free] cv = true := by exact covers_le (by assumption) rfl) :
    KeptRes cv s0 (execLeaseInfo ld core s) := by
  unfold execLeaseInfo
  repeat' first
    | exact covers_le hc rfl
    | with_reducible first
      | assumption | apply fwRequest_kept | apply KeptRes.of_next

theorem execExtentState_kept {cv : List Block} {s0 : State} (ld core : Nat) (s : State) (hk0 : Kept cv s0 s)
    (hc : covers [.pwr, .hst, .mbx, .ext, .cdc, .drt, .hrd, .wrn, .eng, .opq, .flt, .out, .free] cv = true := by exact covers_le (by assumption) rfl) :
    KeptRes cv s0 (execExtentState ld core s) := by
  unfold execExtentState
  repeat' first
    | exact covers_le hc rfl
    | with_reducible first
      | assumption | apply fwRequest_kept | apply KeptRes.of_next

theorem execReserveLevels_kept {cv : List Block} {s0 : State} (ld core : Nat) (s : State) (hk0 : Kept cv s0 s)
    (hc : covers [.pwr, .hst, .mbx, .ext, .cdc, .drt, .hrd, .wrn, .eng, .opq, .flt, .out, .free] cv = true := by exact covers_le (by assumption) rfl) :
    KeptRes cv s0 (execReserveLevels ld core s) := by
  unfold execReserveLevels
  repeat' first
    | exact covers_le hc rfl
    | with_reducible first
      | assumption | apply fwRequest_kept | apply KeptRes.of_next

theorem execImageReq_kept {cv : List Block} {s0 : State} (ld core : Nat) (s : State) (hk0 : Kept cv s0 s)
    (hc : covers [.pwr, .hst, .mbx, .ext, .cdc, .drt, .hrd, .wrn, .eng, .opq, .flt, .out, .free] cv = true := by exact covers_le (by assumption) rfl) :
    KeptRes cv s0 (execImageReq ld core s) := by
  unfold execImageReq
  repeat' first
    | exact covers_le hc rfl
    | with_reducible first
      | assumption | apply fwRequest_kept | apply KeptRes.of_next

theorem execUnknownOp_kept {cv : List Block} {s0 : State} (ld core : Nat) (s : State) (hk0 : Kept cv s0 s)
    (hc : covers [.pwr, .hst, .mbx, .ext, .cdc, .drt, .hrd, .wrn, .eng, .opq, .flt, .out, .free] cv = true := by exact covers_le (by assumption) rfl) :
    KeptRes cv s0 (execUnknownOp ld core s) := by
  unfold execUnknownOp
  repeat' first
    | exact covers_le hc rfl
    | with_reducible first
      | assumption | apply fwRequest_kept | apply KeptRes.of_next

theorem execF2hDeferredEnqueue_kept {cv : List Block} {s0 : State} (ld : Nat) (s : State) (hk0 : Kept cv s0 s)
    (hc : covers [.hst, .mbx, .out] cv = true := by exact covers_le (by assumption) rfl) :
    KeptRes cv s0 (execF2hDeferredEnqueue ld s) := by
  unfold execF2hDeferredEnqueue
  repeat' first
    | exact covers_le hc rfl
    | with_reducible first
      | assumption | apply drainUnsent_kept | apply KeptRes.of_next

theorem execMailboxFault_kept {cv : List Block} {s0 : State} (ld : Nat) (internal h2f : Bool) (s : State) (hk0 : Kept cv s0 s)
    (hc : covers [.hst, .mbx, .out] cv = true := by exact covers_le (by assumption) rfl) :
    KeptRes cv s0 (execMailboxFault ld internal h2f s) := by
  unfold execMailboxFault
  repeat' first
    | exact covers_le hc rfl
    | with_reducible first
      | assumption | apply intBells_kept | apply onInt_kept | apply onBoxBell_kept | apply KeptRes.of_next | intro _ | split

theorem intEnqueue_kept {cv : List Block} {s0 : State} (j : Nat) (m : MbxMsg) (s : State) (hk0 : Kept cv s0 s)
    (hc : covers [.mbx, .out] cv = true := by exact covers_le (by assumption) rfl) :
    Kept cv s0 (intEnqueue j m s) := by
  unfold intEnqueue
  repeat' first
    | exact covers_le hc rfl
    | with_reducible first
      | assumption | apply emit_kept | apply onInt_kept

theorem execMbx_kept {cv : List Block} {s0 : State} (src tag box : Nat) (pointer : Bool) (stampWord : Word) (p0 p1 : Word) (s : State) (hk0 : Kept cv s0 s)
    (hc : covers [.mbx, .wrn, .out] cv = true := by exact covers_le (by assumption) rfl) :
    KeptRes cv s0 (execMbx src tag box pointer stampWord p0 p1 s) := by
  unfold execMbx
  repeat' first
    | exact covers_le hc rfl
    | with_reducible first
      | assumption | apply peerRequest_kept | apply respond_kept | apply intEnqueue_kept | apply KeptRes.of_next | intro _ | split

theorem mbxToPeer_kept {cv : List Block} {s0 : State} (u core : Nat) (p0 p1 : Word) (s : State) (hk0 : Kept cv s0 s)
    (hc : covers [.hst, .mbx, .wrn, .flt, .out] cv = true := by exact covers_le (by assumption) rfl) :
    Kept cv s0 (mbxToPeer u core p0 p1 s) := by
  unfold mbxToPeer
  repeat' first
    | exact covers_le hc rfl
    | with_reducible first
      | assumption | apply sendReq_kept | apply onInt_kept | apply mbxRefused_kept | intro _ | split

theorem execMbxAns_kept {cv : List Block} {s0 : State} (src tag status : Nat) (s : State) (hk0 : Kept cv s0 s)
    (hc : covers [.hst, .mbx, .wrn, .flt, .out] cv = true := by exact covers_le (by assumption) rfl) :
    KeptRes cv s0 (execMbxAns src tag status s) := by
  unfold execMbxAns
  dsimp only
  repeat' first
    | exact covers_le hc rfl
    | with_reducible first
      | assumption | apply peerResponse_kept | apply dropReq_kept | apply onInt_kept | apply mbxRefused_kept
      | apply KeptRes.of_next | intro _ | split

end Sys2Proof.Safety
end

