-- ==== Sys2Proof/Laws/KeptHoard.lean ====
section
/-! SUPPORT. What the definitions of Machine/Hoard.lean keep: one lemma per definition, from any earlier state. -/

namespace Sys2Proof.Safety

-- The lemmas of this file are checked one after another, with few threads at a time.
set_option Elab.async false

open Sys2Proof.Machine

theorem execChunkGet_kept {cv : List Block} {s0 : State} (src tag stripe chunk offset len : Nat) (s : State) (hk0 : Kept cv s0 s)
    (hc : covers [.hrd, .wrn, .out] cv = true := by exact covers_le (by assumption) rfl) :
    KeptRes cv s0 (execChunkGet src tag stripe chunk offset len s) := by
  unfold execChunkGet
  repeat' first
    | exact covers_le hc rfl
    | with_reducible first
      | assumption | apply peerRequest_kept | apply respond_kept | apply pageRead_kept | apply KeptRes.of_next | intro _ | split

theorem goOnFill_kept {cv : List Block} {s0 : State} (q : ChunkReq) (s : State) (hk0 : Kept cv s0 s)
    (hc : covers [.pwr, .hst, .mbx, .ext, .cdc, .drt, .hrd, .wrn, .eng, .opq, .flt, .out, .free] cv = true := by exact covers_le (by assumption) rfl) :
    Kept cv s0 (goOnFill q s) := by
  unfold goOnFill
  repeat' first
    | exact covers_le hc rfl
    | with_reducible first
      | assumption | apply wake_kept | apply tryFill_kept | split

theorem dropGet_kept {cv : List Block} {s0 : State} (tag : Nat) (s : State) (hk0 : Kept cv s0 s)
    (hc : covers [.hrd] cv = true := by exact covers_le (by assumption) rfl) :
    Kept cv s0 (dropGet tag s) := by
  unfold dropGet
  repeat' first
    | exact covers_le hc rfl
    | with_reducible first
      | assumption | refine Kept.set_hrd ?_ (hc := ?_)

theorem execChunkData_kept {cv : List Block} {s0 : State} (src tag status : Nat) (bytes : List Byte) (s : State) (hk0 : Kept cv s0 s)
    (hc : covers [.pwr, .hst, .mbx, .ext, .cdc, .drt, .hrd, .wrn, .eng, .opq, .flt, .out, .free] cv = true := by exact covers_le (by assumption) rfl) :
    KeptRes cv s0 (execChunkData src tag status bytes s) := by
  unfold execChunkData
  repeat' first
    | exact covers_le hc rfl
    | with_reducible first
      | assumption | apply peerResponse_kept | apply dropReq_kept | apply dropGet_kept | apply goOnFill_kept | apply gather_kept
      | apply KeptRes.of_next | intro _ | split | refine Kept.set_hrd ?_ (hc := ?_)

theorem execChunkPut_kept {cv : List Block} {s0 : State} (src tag stripe chunk k m kind : Nat) (crc : BitVec 32) (bytes : List Byte) (s : State) (hk0 : Kept cv s0 s)
    (hc : covers [.hrd, .wrn, .out] cv = true := by exact covers_le (by assumption) rfl) :
    KeptRes cv s0 (execChunkPut src tag stripe chunk k m kind crc bytes s) := by
  unfold execChunkPut
  repeat' first
    | exact covers_le hc rfl
    | with_reducible first
      | assumption | apply peerRequest_kept | apply respond_kept | apply releaseChunk_kept | apply storeChunk_kept
      | apply KeptRes.of_next | intro _ | split

theorem placeElsewhere_kept {cv : List Block} {s0 : State} (stripe chunk : Nat) (s : State) (hk0 : Kept cv s0 s)
    (hc : covers [.hrd, .wrn, .out] cv = true := by exact covers_le (by assumption) rfl) :
    Kept cv s0 (placeElsewhere stripe chunk s) := by
  unfold placeElsewhere
  repeat' first
    | exact covers_le hc rfl
    | with_reducible first
      | assumption | apply sendChunk_kept | split

theorem checkpointDone_kept {cv : List Block} {s0 : State} (s : State) (hk0 : Kept cv s0 s)
    (hc : covers [.hrd, .wrn, .out] cv = true := by exact covers_le (by assumption) rfl) :
    Kept cv s0 (checkpointDone s) := by
  unfold checkpointDone
  repeat' first
    | exact covers_le hc rfl
    | with_reducible first
      | assumption | apply sendAll_kept | intro _ | split | refine Kept.set_hrd ?_ (hc := ?_)

theorem execChunkAck_kept {cv : List Block} {s0 : State} (src tag status : Nat) (s : State) (hk0 : Kept cv s0 s)
    (hc : covers [.pwr, .hst, .ext, .cdc, .drt, .hrd, .wrn, .eng, .flt, .out] cv = true := by exact covers_le (by assumption) rfl) :
    KeptRes cv s0 (execChunkAck src tag status s) := by
  unfold execChunkAck
  repeat' first
    | exact covers_le hc rfl
    | with_reducible first
      | assumption | apply peerResponse_kept | apply dropReq_kept | apply checkpointDone_kept | apply settle_kept
      | apply ackChunk_kept | apply placeElsewhere_kept | apply KeptRes.of_next | intro _ | split

theorem execChunkAckTimeout_kept {cv : List Block} {s0 : State} (stripe chunk : Nat) (s : State) (hk0 : Kept cv s0 s)
    (hc : covers [.pwr, .hst, .ext, .cdc, .drt, .hrd, .wrn, .eng, .flt, .out] cv = true := by exact covers_le (by assumption) rfl) :
    KeptRes cv s0 (execChunkAckTimeout stripe chunk s) := by
  unfold execChunkAckTimeout
  dsimp only
  repeat' first
    | exact covers_le hc rfl
    | with_reducible first
      | assumption | apply checkpointDone_kept | apply settle_kept | apply placeElsewhere_kept | apply dropReq_kept
      | apply KeptRes.of_next | split

theorem execChunkGetTimeout_kept {cv : List Block} {s0 : State} (tag : Nat) (s : State) (hk0 : Kept cv s0 s)
    (hc : covers [.pwr, .hst, .mbx, .ext, .cdc, .drt, .hrd, .wrn, .eng, .opq, .flt, .out, .free] cv = true := by exact covers_le (by assumption) rfl) :
    KeptRes cv s0 (execChunkGetTimeout tag s) := by
  unfold execChunkGetTimeout
  repeat' first
    | exact covers_le hc rfl
    | with_reducible first
      | assumption | apply goOnFill_kept | apply dropGet_kept | apply KeptRes.of_next | split

theorem execCommitTimer_kept {cv : List Block} {s0 : State} (tenant tile : Nat) (s : State) (hk0 : Kept cv s0 s)
    (hc : covers [.pwr, .hst, .ext, .cdc, .drt, .hrd, .wrn, .eng, .flt, .out] cv = true := by exact covers_le (by assumption) rfl) :
    KeptRes cv s0 (execCommitTimer tenant tile s) := by
  unfold execCommitTimer
  repeat' first
    | exact covers_le hc rfl
    | with_reducible first
      | assumption | apply settle_kept | apply commitTile_kept | apply KeptRes.of_next | intro _ | split

theorem checkpointNow_kept {cv : List Block} {s0 : State} (s : State) (hk0 : Kept cv s0 s)
    (hc : covers [.hrd, .wrn, .out] cv = true := by exact covers_le (by assumption) rfl) :
    Kept cv s0 (checkpointNow s) := by
  unfold checkpointNow
  repeat' first
    | exact covers_le hc rfl
    | with_reducible first
      | assumption | apply stripeFor_kept | apply appendStripe_kept | apply checkpointDone_kept | apply closeStripe_kept
      | apply Kept.foldl | apply Kept.foldl_fst | intro _ | split | refine Kept.set_hrd ?_ (hc := ?_)

theorem execCheckpoint_kept {cv : List Block} {s0 : State} (s : State) (hk0 : Kept cv s0 s)
    (hc : covers [.hrd, .wrn, .out] cv = true := by exact covers_le (by assumption) rfl) :
    KeptRes cv s0 (execCheckpoint s) := by
  unfold execCheckpoint
  repeat' first
    | exact covers_le hc rfl
    | with_reducible first
      | assumption | apply checkpointNow_kept | apply KeptRes.of_next | split

theorem execCompaction_kept {cv : List Block} {s0 : State} (stripe : Nat) (s : State) (hk0 : Kept cv s0 s)
    (hc : covers [.pwr, .hst, .cdc, .drt, .hrd, .wrn, .flt, .out] cv = true := by exact covers_le (by assumption) rfl) :
    KeptRes cv s0 (execCompaction stripe s) := by
  unfold execCompaction
  repeat' first
    | exact covers_le hc rfl
    | with_reducible first
      | assumption | apply repackTile_kept | apply KeptRes.of_next | apply Kept.foldl | apply Kept.foldl_fst | intro _ | split

theorem execFlashReclaim_kept {cv : List Block} {s0 : State} (bay die : Nat) (s : State) (hk0 : Kept cv s0 s)
    (hc : covers [.hrd] cv = true := by exact covers_le (by assumption) rfl) :
    KeptRes cv s0 (execFlashReclaim bay die s) := by
  unfold execFlashReclaim
  dsimp only
  repeat' first
    | exact covers_le hc rfl
    | with_reducible first
      | assumption | apply onBay_kept | apply KeptRes.of_next | intro _ | split

theorem execWeightedAgeTick_kept {cv : List Block} {s0 : State} (bay : Nat) (meanTemp : BitVec 16) (s : State) (hk0 : Kept cv s0 s)
    (hc : covers [.hrd] cv = true := by exact covers_le (by assumption) rfl) :
    KeptRes cv s0 (execWeightedAgeTick bay meanTemp s) := by
  unfold execWeightedAgeTick
  repeat' first
    | exact covers_le hc rfl
    | with_reducible first
      | assumption | apply onBay_kept | apply KeptRes.of_next

theorem execHoardScrub_kept {cv : List Block} {s0 : State} (bay stripe chunk : Nat) (weak fails : Bool) (s : State) (hk0 : Kept cv s0 s)
    (hc : covers [.uni, .hst, .hrd, .flt, .out] cv = true := by exact covers_le (by assumption) rfl) :
    KeptRes cv s0 (execHoardScrub bay stripe chunk weak fails s) := by
  unfold execHoardScrub
  dsimp only
  repeat' first
    | exact covers_le hc rfl
    | with_reducible first
      | assumption | apply pageRead_kept | apply checkLevels_kept | apply markDamaged_kept | apply onBay_kept
      | apply KeptRes.of_next | intro _ | split | refine Kept.set_hrd ?_ (hc := ?_)

theorem dreyEvent_kept {cv : List Block} {s0 : State} (bay code : Nat) (s : State) (hk0 : Kept cv s0 s)
    (hc : covers [.lif] cv = true := by exact covers_le (by assumption) rfl) :
    Kept cv s0 (dreyEvent bay code s) := by
  unfold dreyEvent
  repeat' first
    | exact covers_le hc rfl
    | with_reducible first
      | assumption | split | refine Kept.set_lif ?_ (hc := ?_)

theorem advanceMember_kept {cv : List Block} {s0 : State} (serial : BitVec 128) (s : State) (hk0 : Kept cv s0 s)
    (hc : covers [.hrd] cv = true := by exact covers_le (by assumption) rfl) :
    Kept cv s0 (advanceMember serial s) := by
  unfold advanceMember
  repeat' first
    | exact covers_le hc rfl
    | with_reducible first
      | assumption | intro _ | split | refine Kept.set_hrd ?_ (hc := ?_)

theorem loseChunks_kept {cv : List Block} {s0 : State} (bay : Nat) (due : Option Ns) (y : Bay) (s : State) (hk0 : Kept cv s0 s)
    (hc : covers [.hrd] cv = true := by exact covers_le (by assumption) rfl) :
    Kept cv s0 (loseChunks bay due y s) := by
  unfold loseChunks
  repeat' first
    | exact covers_le hc rfl
    | with_reducible first
      | assumption | split | refine Kept.set_hrd ?_ (hc := ?_)

theorem failDrey_kept {cv : List Block} {s0 : State} (bay : Nat) (s : State) (hk0 : Kept cv s0 s)
    (hc : covers [.uni, .hst, .hrd, .lif, .flt, .out] cv = true := by exact covers_le (by assumption) rfl) :
    Kept cv s0 (failDrey bay s) := by
  unfold failDrey
  repeat' first
    | exact covers_le hc rfl
    | with_reducible first
      | assumption | refine note_kept _ _ ?_ (hc := ?_) (hd := by with_unfolding_all rfl) | apply loseChunks_kept
      | apply checkLevels_kept | apply dreyEvent_kept

theorem execFlashDieFailure_kept {cv : List Block} {s0 : State} (bay die : Nat) (s : State) (hk0 : Kept cv s0 s)
    (hc : covers [.uni, .hst, .hrd, .lif, .flt, .out] cv = true := by exact covers_le (by assumption) rfl) :
    KeptRes cv s0 (execFlashDieFailure bay die s) := by
  unfold execFlashDieFailure
  dsimp only
  repeat' first
    | exact covers_le hc rfl
    | with_reducible first
      | assumption | apply fieldEntry_kept | apply failDrey_kept | apply checkLevels_kept | apply KeptRes.of_next | split
      | refine Kept.set_hrd ?_ (hc := ?_)

theorem rebuildOver_kept {cv : List Block} {s0 : State} (x : LostChunk) (holder : Nat) (s : State) (hk0 : Kept cv s0 s)
    (hc : covers [.uni, .hst, .hrd, .flt, .out] cv = true := by exact covers_le (by assumption) rfl) :
    Kept cv s0 (rebuildOver x holder s) := by
  unfold rebuildOver
  repeat' first
    | exact covers_le hc rfl
    | with_reducible first
      | assumption | apply checkLevels_kept | split | refine Kept.set_hrd ?_ (hc := ?_)

theorem rebuildCheck_kept {cv : List Block} {s0 : State} (x : LostChunk) (got : List (Nat × List Byte)) (s : State) (hk0 : Kept cv s0 s)
    (hc : covers [.hst, .flt, .out] cv = true := by exact covers_le (by assumption) rfl) :
    Kept cv s0 (rebuildCheck x got s) := by
  unfold rebuildCheck
  dsimp only
  repeat' first
    | exact covers_le hc rfl
    | with_reducible first
      | assumption | refine note_kept _ _ ?_ (hc := ?_) (hd := by with_unfolding_all rfl) | intro _ | split

theorem execChunkRebuild_kept {cv : List Block} {s0 : State} (stripe chunk : Nat) (gathered : List (Nat × List Byte)) (s : State) (hk0 : Kept cv s0 s)
    (hc : covers [.uni, .hst, .hrd, .wrn, .flt, .out] cv = true := by exact covers_le (by assumption) rfl) :
    KeptRes cv s0 (execChunkRebuild stripe chunk gathered s) := by
  unfold execChunkRebuild
  dsimp only
  repeat' first
    | exact covers_le hc rfl
    | with_reducible first
      | assumption | apply rebuildCheck_kept | apply rebuildOver_kept | apply onBay_kept | apply storeChunk_kept
      | apply advanceMember_kept | apply sendReq_kept | apply KeptRes.of_next | intro _ | split

theorem unitLost_kept {cv : List Block} {s0 : State} (unit : Nat) (s : State) (hk0 : Kept cv s0 s)
    (hc : covers [.uni, .hst, .hrd, .flt, .out] cv = true := by exact covers_le (by assumption) rfl) :
    Kept cv s0 (unitLost unit s) := by
  unfold unitLost
  repeat' first
    | exact covers_le hc rfl
    | with_reducible first
      | assumption | apply checkLevels_kept | intro _ | split | refine Kept.set_hrd ?_ (hc := ?_)

theorem execRebuildDelayExpired_kept {cv : List Block} {s0 : State} (unit bay : Nat) (s : State) (hk0 : Kept cv s0 s)
    (hc : covers [.uni, .hst, .hrd, .flt, .out] cv = true := by exact covers_le (by assumption) rfl) :
    KeptRes cv s0 (execRebuildDelayExpired unit bay s) := by
  unfold execRebuildDelayExpired
  dsimp only
  repeat' first
    | exact covers_le hc rfl
    | with_reducible first
      | assumption | apply checkLevels_kept | apply unitLost_kept | apply KeptRes.of_next | split
      | refine Kept.set_hrd ?_ (hc := ?_)

theorem classBay_kept {cv : List Block} {s0 : State} (bay : Nat) (d : DreyId) (s : State) (hk0 : Kept cv s0 s)
    (hc : covers [.hrd] cv = true := by exact covers_le (by assumption) rfl) :
    Kept cv s0 (classBay bay d s) := by
  unfold classBay
  repeat' first
    | exact covers_le hc rfl
    | with_reducible first
      | assumption | apply onBay_kept

theorem execDreyInserted_kept {cv : List Block} {s0 : State} (bay : Nat) (d : DreyId) (s : State) (hk0 : Kept cv s0 s)
    (hc : covers [.hrd, .lif, .out] cv = true := by exact covers_le (by assumption) rfl) :
    KeptRes cv s0 (execDreyInserted bay d s) := by
  unfold execDreyInserted
  repeat' first
    | exact covers_le hc rfl
    | with_reducible first
      | assumption | apply classBay_kept | apply dreyEvent_kept | apply emit_kept | apply KeptRes.of_next | split

theorem mountDrey_kept {cv : List Block} {s0 : State} (bay : Nat) (s : State) (hk0 : Kept cv s0 s)
    (hc : covers [.uni, .pwr, .hst, .hrd, .lif, .flt, .out] cv = true := by exact covers_le (by assumption) rfl) :
    Kept cv s0 (mountDrey bay s) := by
  unfold mountDrey
  repeat' first
    | exact covers_le hc rfl
    | with_reducible first
      | assumption | apply onBay_kept | apply checkLevels_kept | apply dreyEvent_kept | intro _ | split
      | refine Kept.set_pwr_hrd ?_ (hc := ?_)

theorem execDreyMounted_kept {cv : List Block} {s0 : State} (bay : Nat) (s : State) (hk0 : Kept cv s0 s)
    (hc : covers [.uni, .pwr, .hst, .ext, .cdc, .drt, .hrd, .wrn, .eng, .lif, .flt, .out] cv = true := by exact covers_le (by assumption) rfl) :
    KeptRes cv s0 (execDreyMounted bay s) := by
  unfold execDreyMounted
  repeat' first
    | exact covers_le hc rfl
    | with_reducible first
      | assumption | apply settle_kept | apply mountDrey_kept | apply KeptRes.of_next

theorem panelLast_kept {cv : List Block} {s0 : State} (action bay result : Nat) (s : State) (hk0 : Kept cv s0 s)
    (hc : covers [.pnl] cv = true := by exact covers_le (by assumption) rfl) :
    Kept cv s0 (panelLast action bay result s) := by
  unfold panelLast
  repeat' first
    | exact covers_le hc rfl
    | with_reducible first
      | assumption | split | refine Kept.set_pnl ?_ (hc := ?_)

theorem refuseRemoval_kept {cv : List Block} {s0 : State} (bay code : Nat) (s : State) (hk0 : Kept cv s0 s)
    (hc : covers [.hrd, .pnl] cv = true := by exact covers_le (by assumption) rfl) :
    Kept cv s0 (refuseRemoval bay code s) := by
  unfold refuseRemoval
  repeat' first
    | exact covers_le hc rfl
    | with_reducible first
      | assumption | apply panelLast_kept | apply onBay_kept

theorem removalStep_kept {cv : List Block} {s0 : State} (bay step : Nat) (s : State) (hk0 : Kept cv s0 s)
    (hc : covers [.hrd] cv = true := by exact covers_le (by assumption) rfl) :
    Kept cv s0 (removalStep bay step s) := by
  unfold removalStep
  repeat' first
    | exact covers_le hc rfl
    | with_reducible first
      | assumption | apply onBay_kept

theorem removalRequest_kept {cv : List Block} {s0 : State} (bay : Nat) (s : State) (hk0 : Kept cv s0 s)
    (hc : covers [.hrd, .pnl] cv = true := by exact covers_le (by assumption) rfl) :
    Kept cv s0 (removalRequest bay s) := by
  unfold removalRequest
  repeat' first
    | exact covers_le hc rfl
    | with_reducible first
      | assumption | apply refuseRemoval_kept | apply panelLast_kept | apply removalStep_kept | split
      | refine Kept.set_pnl ?_ (hc := ?_)

theorem execBayButtonPress_kept {cv : List Block} {s0 : State} (bay : Nat) (s : State) (hk0 : Kept cv s0 s)
    (hc : covers [.hrd, .pnl] cv = true := by exact covers_le (by assumption) rfl) :
    KeptRes cv s0 (execBayButtonPress bay s) := by
  unfold execBayButtonPress
  repeat' first
    | exact covers_le hc rfl
    | with_reducible first
      | assumption | apply removalRequest_kept | apply KeptRes.of_next

theorem execDreyReleased_kept {cv : List Block} {s0 : State} (bay : Nat) (s : State) (hk0 : Kept cv s0 s)
    (hc : covers [.pwr, .hrd, .lif, .out] cv = true := by exact covers_le (by assumption) rfl) :
    KeptRes cv s0 (execDreyReleased bay s) := by
  unfold execDreyReleased
  dsimp only
  repeat' first
    | exact covers_le hc rfl
    | with_reducible first
      | assumption | apply onBay_kept | apply dreyEvent_kept | apply emit_kept | apply KeptRes.of_next | intro _ | split
      | refine Kept.set_pwr ?_ (hc := ?_)

theorem hrdDone_kept {cv : List Block} {s0 : State} (bay action status : Nat) (s : State) (hk0 : Kept cv s0 s)
    (hc : covers [.hrd] cv = true := by exact covers_le (by assumption) rfl) :
    Kept cv s0 (hrdDone bay action status s) := by
  unfold hrdDone
  repeat' first
    | exact covers_le hc rfl
    | with_reducible first
      | assumption | refine Kept.set_hrd ?_ (hc := ?_)

theorem hrdCmd_kept {cv : List Block} {s0 : State} (bay action : Nat) (s : State) (k : State → State × Nat) (hk : ∀ u, Kept cv s0 u → Kept cv s0 (k u).1) (hk0 : Kept cv s0 s)
    (hc : covers [.hrd] cv = true := by exact covers_le (by assumption) rfl) :
    Kept cv s0 (hrdCmd bay action s k) := by
  unfold hrdCmd
  repeat' first
    | exact covers_le hc rfl
    | with_reducible first
      | assumption | apply hk | apply hrdDone_kept | intro _ | split

theorem approveAct_kept {cv : List Block} {s0 : State} (bay : Nat) (s : State) (hk0 : Kept cv s0 s)
    (hc : covers [.hrd] cv = true := by exact covers_le (by assumption) rfl) :
    Kept cv s0 (approveAct bay s).1 := by
  unfold approveAct
  dsimp only
  repeat' first
    | exact covers_le hc rfl
    | with_reducible first
      | assumption | apply removalStep_kept | split

theorem execApprove_kept {cv : List Block} {s0 : State} (bay : Nat) (s : State) (hk0 : Kept cv s0 s)
    (hc : covers [.hrd] cv = true := by exact covers_le (by assumption) rfl) :
    KeptRes cv s0 (execApprove bay s) := by
  unfold execApprove
  repeat' first
    | exact covers_le hc rfl
    | with_reducible first
      | assumption | apply hrdCmd_kept | apply approveAct_kept | apply KeptRes.of_next | intro _

theorem execApprovalTimeout_kept {cv : List Block} {s0 : State} (bay : Nat) (s : State) (hk0 : Kept cv s0 s)
    (hc : covers [.hrd, .pnl] cv = true := by exact covers_le (by assumption) rfl) :
    KeptRes cv s0 (execApprovalTimeout bay s) := by
  unfold execApprovalTimeout
  dsimp only
  repeat' first
    | exact covers_le hc rfl
    | with_reducible first
      | assumption | apply refuseRemoval_kept | apply onBay_kept | apply KeptRes.of_next | intro _ | split

theorem latchAgain_kept {cv : List Block} {s0 : State} (bay : Nat) (s : State) (hk0 : Kept cv s0 s)
    (hc : covers [.hrd, .out] cv = true := by exact covers_le (by assumption) rfl) :
    Kept cv s0 (latchAgain bay s) := by
  unfold latchAgain
  dsimp only
  repeat' first
    | exact covers_le hc rfl
    | with_reducible first
      | assumption | apply emit_kept | apply classBay_kept | intro _ | split

theorem execRemovalWindowExpired_kept {cv : List Block} {s0 : State} (bay : Nat) (s : State) (hk0 : Kept cv s0 s)
    (hc : covers [.hrd, .out] cv = true := by exact covers_le (by assumption) rfl) :
    KeptRes cv s0 (execRemovalWindowExpired bay s) := by
  unfold execRemovalWindowExpired
  dsimp only
  repeat' first
    | exact covers_le hc rfl
    | with_reducible first
      | assumption | apply latchAgain_kept | apply KeptRes.of_next | split

theorem execDreyPulled_kept {cv : List Block} {s0 : State} (bay : Nat) (s : State) (hk0 : Kept cv s0 s)
    (hc : covers [.uni, .hst, .hrd, .flt, .out] cv = true := by exact covers_le (by assumption) rfl) :
    KeptRes cv s0 (execDreyPulled bay s) := by
  unfold execDreyPulled
  dsimp only
  repeat' first
    | exact covers_le hc rfl
    | with_reducible first
      | assumption | apply loseChunks_kept | apply checkLevels_kept | apply onBay_kept | apply KeptRes.of_next | intro _ | split

theorem execDreyForcedOut_kept {cv : List Block} {s0 : State} (bay : Nat) (s : State) (hk0 : Kept cv s0 s)
    (hc : covers [.uni, .pwr, .hst, .hrd, .lif, .flt, .out] cv = true := by exact covers_le (by assumption) rfl) :
    KeptRes cv s0 (execDreyForcedOut bay s) := by
  unfold execDreyForcedOut
  dsimp only
  repeat' first
    | exact covers_le hc rfl
    | with_reducible first
      | assumption | refine note_kept _ _ ?_ (hc := ?_) (hd := by with_unfolding_all rfl) | apply dreyEvent_kept
      | apply loseChunks_kept | apply checkLevels_kept | apply onBay_kept | apply KeptRes.of_next | intro _ | split
      | refine Kept.set_pwr ?_ (hc := ?_)

theorem evacuateAct_kept {cv : List Block} {s0 : State} (bay : Nat) (s : State) (hk0 : Kept cv s0 s)
    (hc : covers [.hrd] cv = true := by exact covers_le (by assumption) rfl) :
    Kept cv s0 (evacuateAct bay s).1 := by
  unfold evacuateAct
  dsimp only
  repeat' first
    | exact covers_le hc rfl
    | with_reducible first
      | assumption | apply onBay_kept | intro _ | split

theorem execEvacuate_kept {cv : List Block} {s0 : State} (bay : Nat) (s : State) (hk0 : Kept cv s0 s)
    (hc : covers [.hrd] cv = true := by exact covers_le (by assumption) rfl) :
    KeptRes cv s0 (execEvacuate bay s) := by
  unfold execEvacuate
  repeat' first
    | exact covers_le hc rfl
    | with_reducible first
      | assumption | apply hrdCmd_kept | apply evacuateAct_kept | apply KeptRes.of_next | intro _

theorem execEvacuationComplete_kept {cv : List Block} {s0 : State} (bay : Nat) (s : State) (hk0 : Kept cv s0 s)
    (hc : covers [.hrd, .lif] cv = true := by exact covers_le (by assumption) rfl) :
    KeptRes cv s0 (execEvacuationComplete bay s) := by
  unfold execEvacuationComplete
  dsimp only
  repeat' first
    | exact covers_le hc rfl
    | with_reducible first
      | assumption | apply storeChunk_kept | apply onBay_kept | apply dreyEvent_kept | apply KeptRes.of_next | apply Kept.foldl
      | apply Kept.foldl_fst | intro _ | split

theorem adoptStart_kept {cv : List Block} {s0 : State} (bay : Nat) (s : State) (hk0 : Kept cv s0 s)
    (hc : covers [.hrd] cv = true := by exact covers_le (by assumption) rfl) :
    Kept cv s0 (adoptStart bay s) := by
  unfold adoptStart
  dsimp only
  repeat' first
    | exact covers_le hc rfl
    | with_reducible first
      | assumption | apply onBay_kept | intro _ | split

theorem adoptAct_kept {cv : List Block} {s0 : State} (bay : Nat) (s : State) (hk0 : Kept cv s0 s)
    (hc : covers [.hrd] cv = true := by exact covers_le (by assumption) rfl) :
    Kept cv s0 (adoptAct bay s).1 := by
  unfold adoptAct
  dsimp only
  repeat' first
    | exact covers_le hc rfl
    | with_reducible first
      | assumption | apply adoptStart_kept | apply onBay_kept | intro _ | split

theorem execAdopt_kept {cv : List Block} {s0 : State} (bay : Nat) (s : State) (hk0 : Kept cv s0 s)
    (hc : covers [.hrd] cv = true := by exact covers_le (by assumption) rfl) :
    KeptRes cv s0 (execAdopt bay s) := by
  unfold execAdopt
  repeat' first
    | exact covers_le hc rfl
    | with_reducible first
      | assumption | apply hrdCmd_kept | apply adoptAct_kept | apply KeptRes.of_next | intro _

theorem execAdoptLapse_kept {cv : List Block} {s0 : State} (bay : Nat) (s : State) (hk0 : Kept cv s0 s)
    (hc : covers [.hrd] cv = true := by exact covers_le (by assumption) rfl) :
    KeptRes cv s0 (execAdoptLapse bay s) := by
  unfold execAdoptLapse
  repeat' first
    | exact covers_le hc rfl
    | with_reducible first
      | assumption | apply onBay_kept | apply KeptRes.of_next

theorem execAdoptionComplete_kept {cv : List Block} {s0 : State} (bay : Nat) (s : State) (hk0 : Kept cv s0 s)
    (hc : covers [.pwr, .hrd, .lif, .free] cv = true := by exact covers_le (by assumption) rfl) :
    KeptRes cv s0 (execAdoptionComplete bay s) := by
  unfold execAdoptionComplete
  dsimp only
  repeat' first
    | exact covers_le hc rfl
    | with_reducible first
      | assumption | apply draw_kept | apply dreyEvent_kept | apply KeptRes.of_next | intro _ | split
      | refine Kept.set_pwr_hrd ?_ (hc := ?_)

theorem execRootRecord_kept {cv : List Block} {s0 : State} (src : Nat) (r : RootRec) (s : State) (hk0 : Kept cv s0 s)
    (hc : covers [.hrd, .wrn] cv = true := by exact covers_le (by assumption) rfl) :
    KeptRes cv s0 (execRootRecord src r s) := by
  unfold execRootRecord
  dsimp only
  repeat' first
    | exact covers_le hc rfl
    | with_reducible first
      | assumption | apply hear_kept | apply dropQuiet_kept | apply KeptRes.of_next | split | refine Kept.set_hrd ?_ (hc := ?_)

end Sys2Proof.Safety
end

