-- ==== Sys2Proof/Laws/KeptLink.lean ====
section
/-! SUPPORT. What the definitions of Machine/Link.lean keep: one lemma per definition, from any earlier state. -/

namespace Sys2Proof.Safety

-- The lemmas of this file are checked one after another, with few threads at a time.
set_option Elab.async false

open Sys2Proof.Machine

theorem setParent_kept {cv : List Block} {s0 : State} (s : State) (hk0 : Kept cv s0 s)
    (hc : covers [.mon, .wrn] cv = true := by exact covers_le (by assumption) rfl) :
    Kept cv s0 (setParent s) := by
  unfold setParent
  repeat' first
    | exact covers_le hc rfl
    | with_reducible first
      | assumption | split | refine Kept.set_mon_wrn ?_ (hc := ?_)

theorem reachUpdate_kept {cv : List Block} {s0 : State} (s : State) (hk0 : Kept cv s0 s)
    (hc : covers [.mon, .pwr, .hst, .mbx, .cdc, .drt, .hrd, .wrn, .flt, .out] cv = true := by exact covers_le (by assumption) rfl) :
    Kept cv s0 (reachUpdate s) := by
  unfold reachUpdate
  repeat' first
    | exact covers_le hc rfl
    | with_reducible first
      | assumption | refine note_kept _ _ ?_ (hc := ?_) (hd := by with_unfolding_all rfl) | apply setParent_kept | apply kmGo_kept
      | split | refine Kept.set_wrn ?_ (hc := ?_)

theorem heardFrom_kept {cv : List Block} {s0 : State} (u : Nat) (s : State) (hk0 : Kept cv s0 s)
    (hc : covers [.mon, .pwr, .hst, .mbx, .ext, .cdc, .drt, .hrd, .wrn, .flt, .out] cv = true := by exact covers_le (by assumption) rfl) :
    Kept cv s0 (heardFrom u s) := by
  unfold heardFrom
  dsimp only
  repeat' first
    | exact covers_le hc rfl
    | with_reducible first
      | assumption | apply deliverReclaims_kept | apply hear_kept | apply reachUpdate_kept | split

theorem routeEnv_kept {cv : List Block} {s0 : State} (arrived : Ns) (e : Envelope) (s : State) (hk0 : Kept cv s0 s)
    (hc : covers [.wrn, .out] cv = true := by exact covers_le (by assumption) rfl) :
    Kept cv s0 (routeEnv arrived e s) := by
  unfold routeEnv
  repeat' first
    | exact covers_le hc rfl
    | with_reducible first
      | assumption | apply sendBy_kept | apply waitPort_kept | split

theorem reroute_kept {cv : List Block} {s0 : State} (s : State) (hk0 : Kept cv s0 s)
    (hc : covers [.wrn, .out] cv = true := by exact covers_le (by assumption) rfl) :
    Kept cv s0 (reroute s) := by
  unfold reroute
  repeat' first
    | exact covers_le hc rfl
    | with_reducible first
      | assumption | apply routeEnv_kept | apply Kept.foldl | apply Kept.foldl_fst | intro _ | refine Kept.set_wrn ?_ (hc := ?_)

theorem relay_kept {cv : List Block} {s0 : State} (port op : Nat) (e : Envelope) (s : State) (hk0 : Kept cv s0 s)
    (hc : covers [.hst, .wrn, .flt, .out] cv = true := by exact covers_le (by assumption) rfl) :
    Kept cv s0 (relay port op e s) := by
  unfold relay
  repeat' first
    | exact covers_le hc rfl
    | with_reducible first
      | assumption | apply dropOn_kept | apply routeEnv_kept | split

theorem leavePort_kept {cv : List Block} {s0 : State} (n : Nat) (s : State) (hk0 : Kept cv s0 s)
    (hc : covers [.wrn] cv = true := by exact covers_le (by assumption) rfl) :
    Kept cv s0 (leavePort n s) := by
  unfold leavePort
  repeat' first
    | exact covers_le hc rfl
    | with_reducible first
      | assumption | apply Kept.foldl | apply Kept.foldl_fst | intro _ | split | refine Kept.set_wrn ?_ (hc := ?_)

theorem portDown_kept {cv : List Block} {s0 : State} (n st : Nat) (s : State) (hk0 : Kept cv s0 s)
    (hc : covers [.mon, .pwr, .hst, .mbx, .cdc, .drt, .hrd, .wrn, .flt, .out] cv = true := by exact covers_le (by assumption) rfl) :
    Kept cv s0 (portDown n st s) := by
  unfold portDown
  repeat' first
    | exact covers_le hc rfl
    | with_reducible first
      | assumption | refine note_kept _ _ ?_ (hc := ?_) (hd := by with_unfolding_all rfl) | apply leavePort_kept
      | apply onPort_kept | apply reachUpdate_kept | apply routeEnv_kept | apply Kept.foldl | apply Kept.foldl_fst | intro _
      | refine Kept.set_wrn ?_ (hc := ?_)

theorem execPortDown_kept {cv : List Block} {s0 : State} (port : Nat) (s : State) (hk0 : Kept cv s0 s)
    (hc : covers [.mon, .pwr, .hst, .mbx, .cdc, .drt, .hrd, .wrn, .flt, .out] cv = true := by exact covers_le (by assumption) rfl) :
    KeptRes cv s0 (execPortDown port s) := by
  unfold execPortDown
  repeat' first
    | exact covers_le hc rfl
    | with_reducible first
      | assumption | apply portDown_kept | apply KeptRes.of_next | split

theorem replayFlits_kept {cv : List Block} {s0 : State} (n : Nat) (s : State) (hk0 : Kept cv s0 s)
    (hc : covers [.wrn, .out] cv = true := by exact covers_le (by assumption) rfl) :
    Kept cv s0 (replayFlits n s) := by
  unfold replayFlits
  repeat' first
    | exact covers_le hc rfl
    | with_reducible first
      | assumption | apply onPort_kept | intro _
      | ((fail_if_no_progress (extract_lets +onlyGivenNames x)); refine Kept.cut (cv := cv) (s := s0) x ?_ (fun hx => ?_) <;> [dsimp -zeta only [x]; clear_value x])
      | ((fail_if_no_progress (extract_lets +onlyGivenNames x)); clear_value x) | dsimp -zeta only
      | refine Kept.set_out ?_ (hc := ?_)

theorem fruitlessReplay_kept {cv : List Block} {s0 : State} (n : Nat) (s : State) (hk0 : Kept cv s0 s)
    (hc : covers [.mon, .pwr, .hst, .mbx, .cdc, .drt, .hrd, .wrn, .flt, .out] cv = true := by exact covers_le (by assumption) rfl) :
    Kept cv s0 (fruitlessReplay n s) := by
  unfold fruitlessReplay
  dsimp only
  repeat' first
    | exact covers_le hc rfl
    | with_reducible first
      | assumption | apply replayFlits_kept | apply onPort_kept | apply portDown_kept | intro _ | split

theorem execReplayTimeout_kept {cv : List Block} {s0 : State} (port : Nat) (s : State) (hk0 : Kept cv s0 s)
    (hc : covers [.mon, .pwr, .hst, .mbx, .cdc, .drt, .hrd, .wrn, .flt, .out] cv = true := by exact covers_le (by assumption) rfl) :
    KeptRes cv s0 (execReplayTimeout port s) := by
  unfold execReplayTimeout
  dsimp only
  repeat' first
    | exact covers_le hc rfl
    | with_reducible first
      | assumption | apply fruitlessReplay_kept | apply KeptRes.of_next | split

theorem takeAck_kept {cv : List Block} {s0 : State} (n ack : Nat) (s : State) (hk0 : Kept cv s0 s)
    (hc : covers [.wrn, .out] cv = true := by exact covers_le (by assumption) rfl) :
    Kept cv s0 (takeAck n ack s) := by
  unfold takeAck
  dsimp only
  repeat' first
    | exact covers_le hc rfl
    | with_reducible first
      | assumption | apply drainPort_kept | apply onPort_kept | intro _ | split

theorem sendLink_kept {cv : List Block} {s0 : State} (n : Nat) (b : List Byte) (s : State) (hk0 : Kept cv s0 s)
    (hc : covers [.wrn, .out] cv = true := by exact covers_le (by assumption) rfl) :
    Kept cv s0 (sendLink n b s) := by
  unfold sendLink
  repeat' first
    | exact covers_le hc rfl
    | with_reducible first
      | assumption | apply putFlits_kept

theorem returnCredit_kept {cv : List Block} {s0 : State} (n vc len : Nat) (s : State) (hk0 : Kept cv s0 s)
    (hc : covers [.wrn, .out] cv = true := by exact covers_le (by assumption) rfl) :
    Kept cv s0 (returnCredit n vc len s) := by
  unfold returnCredit
  repeat' first
    | exact covers_le hc rfl
    | with_reducible first
      | assumption | apply emit_kept | apply sendLink_kept | split

theorem protocolDrop_kept {cv : List Block} {s0 : State} (n step op : Nat) (s : State) (hk0 : Kept cv s0 s)
    (hc : covers [.mon, .pwr, .hst, .mbx, .cdc, .drt, .hrd, .wrn, .flt, .out] cv = true := by exact covers_le (by assumption) rfl) :
    Kept cv s0 (protocolDrop n step op s) := by
  unfold protocolDrop
  dsimp only
  repeat' first
    | exact covers_le hc rfl
    | with_reducible first
      | assumption | apply dropOn_kept | apply onPort_kept | apply reachUpdate_kept | apply leavePort_kept | intro _ | split

theorem checkMessage_kept {cv : List Block} {s0 : State} (n vc : Nat) (b : List Byte) (s : State) (hk0 : Kept cv s0 s)
    (hc : covers [.mon, .pwr, .hst, .mbx, .cdc, .drt, .hrd, .wrn, .flt, .out] cv = true := by exact covers_le (by assumption) rfl) :
    Kept cv s0 (checkMessage n vc b s) := by
  unfold checkMessage
  dsimp only
  repeat' first
    | exact covers_le hc rfl
    | with_reducible first
      | assumption | apply returnCredit_kept | apply protocolDrop_kept | apply dropOn_kept | apply onPort_kept | apply relay_kept
      | intro _ | split

theorem takeBody_kept {cv : List Block} {s0 : State} (n vc fmo : Nat) (body : List Byte) (s : State) (hk0 : Kept cv s0 s)
    (hc : covers [.mon, .pwr, .hst, .mbx, .cdc, .drt, .hrd, .wrn, .flt, .out] cv = true := by exact covers_le (by assumption) rfl) :
    Kept cv s0 (takeBody n vc fmo body s) := by
  unfold takeBody
  dsimp only
  repeat' first
    | exact covers_le hc rfl
    | with_reducible first
      | assumption | apply onPort_kept | apply checkMessage_kept | apply Kept.foldl | apply Kept.foldl_fst | intro _ | split

theorem flitIn_kept {cv : List Block} {s0 : State} (n : Nat) (fecOk : Bool) (f : List Byte) (s : State) (hk0 : Kept cv s0 s)
    (hc : covers [.mon, .pwr, .hst, .mbx, .cdc, .drt, .hrd, .wrn, .flt, .out] cv = true := by exact covers_le (by assumption) rfl) :
    Kept cv s0 (flitIn n fecOk f s) := by
  unfold flitIn
  dsimp only
  repeat' first
    | exact covers_le hc rfl
    | with_reducible first
      | assumption | apply onPort_kept | apply emit_kept | apply takeAck_kept | apply fruitlessReplay_kept | apply takeBody_kept
      | intro _ | split

theorem execFlitReceived_kept {cv : List Block} {s0 : State} (port : Nat) (fecOk : Bool) (flit : List Byte) (s : State) (hk0 : Kept cv s0 s)
    (hc : covers [.mon, .pwr, .hst, .mbx, .cdc, .drt, .hrd, .wrn, .flt, .out] cv = true := by exact covers_le (by assumption) rfl) :
    KeptRes cv s0 (execFlitReceived port fecOk flit s) := by
  unfold execFlitReceived
  repeat' first
    | exact covers_le hc rfl
    | with_reducible first
      | assumption | apply flitIn_kept | apply KeptRes.of_next | split

theorem execCredit_kept {cv : List Block} {s0 : State} (port vc count : Nat) (s : State) (hk0 : Kept cv s0 s)
    (hc : covers [.wrn, .out] cv = true := by exact covers_le (by assumption) rfl) :
    KeptRes cv s0 (execCredit port vc count s) := by
  unfold execCredit
  repeat' first
    | exact covers_le hc rfl
    | with_reducible first
      | assumption | apply drainPort_kept | apply onPort_kept | apply KeptRes.of_next | intro _ | split

theorem execTransitTimeout_kept {cv : List Block} {s0 : State} (port tag : Nat) (s : State) (hk0 : Kept cv s0 s)
    (hc : covers [.hst, .wrn, .flt, .out] cv = true := by exact covers_le (by assumption) rfl) :
    KeptRes cv s0 (execTransitTimeout port tag s) := by
  unfold execTransitTimeout
  dsimp only
  repeat' first
    | exact covers_le hc rfl
    | with_reducible first
      | assumption | apply dropOn_kept | apply onPort_kept | apply KeptRes.of_next | intro _ | split
      | refine Kept.set_wrn ?_ (hc := ?_)

theorem sendGrant_kept {cv : List Block} {s0 : State} (n tag : Nat) (yieldFlag : Bool) (withdrawn : Nat) (s : State) (hk0 : Kept cv s0 s)
    (hc : covers [.wrn, .out] cv = true := by exact covers_le (by assumption) rfl) :
    Kept cv s0 (sendGrant n tag yieldFlag withdrawn s) := by
  unfold sendGrant
  repeat' first
    | exact covers_le hc rfl
    | with_reducible first
      | assumption | apply post_kept

theorem claimLanding_kept {cv : List Block} {s0 : State} (n i tag len : Nat) (s : State) (hk0 : Kept cv s0 s)
    (hc : covers [.wrn] cv = true := by exact covers_le (by assumption) rfl) :
    Kept cv s0 (claimLanding n i tag len s) := by
  unfold claimLanding
  repeat' first
    | exact covers_le hc rfl
    | with_reducible first
      | assumption | apply onPort_kept

theorem execReserve_kept {cv : List Block} {s0 : State} (port src tag len : Nat) (s : State) (hk0 : Kept cv s0 s)
    (hc : covers [.hst, .wrn, .flt, .out] cv = true := by exact covers_le (by assumption) rfl) :
    KeptRes cv s0 (execReserve port src tag len s) := by
  unfold execReserve
  dsimp only
  repeat' first
    | exact covers_le hc rfl
    | with_reducible first
      | assumption | apply dropOn_kept | apply hear_kept | apply sendGrant_kept | apply claimLanding_kept | apply onPort_kept
      | apply KeptRes.of_next | intro _ | split | refine Kept.set_wrn ?_ (hc := ?_)

theorem execGrant_kept {cv : List Block} {s0 : State} (port tag : Nat) (yieldFlag : Bool) (withdrawn : Nat) (s : State) (hk0 : Kept cv s0 s)
    (hc : covers [.wrn, .out] cv = true := by exact covers_le (by assumption) rfl) :
    KeptRes cv s0 (execGrant port tag yieldFlag withdrawn s) := by
  unfold execGrant
  dsimp only
  repeat' first
    | exact covers_le hc rfl
    | with_reducible first
      | assumption | apply onPort_kept | apply launch_kept | apply KeptRes.of_next | intro _ | split
      | refine Kept.set_wrn ?_ (hc := ?_)

theorem execBulkSlotFreed_kept {cv : List Block} {s0 : State} (port slot : Nat) (s : State) (hk0 : Kept cv s0 s)
    (hc : covers [.wrn, .out] cv = true := by exact covers_le (by assumption) rfl) :
    KeptRes cv s0 (execBulkSlotFreed port slot s) := by
  unfold execBulkSlotFreed
  dsimp only
  repeat' first
    | exact covers_le hc rfl
    | with_reducible first
      | assumption | apply onPort_kept | apply sendGrant_kept | apply claimLanding_kept | apply drainPort_kept
      | apply KeptRes.of_next | intro _ | split

theorem sayHello_kept {cv : List Block} {s0 : State} (n : Nat) (s : State) (hk0 : Kept cv s0 s)
    (hc : covers [.wrn, .out] cv = true := by exact covers_le (by assumption) rfl) :
    Kept cv s0 (sayHello n s) := by
  unfold sayHello
  repeat' first
    | exact covers_le hc rfl
    | with_reducible first
      | assumption | apply emit_kept | apply sendLink_kept

theorem judgePort_kept {cv : List Block} {s0 : State} (n : Nat) (s : State) (hk0 : Kept cv s0 s)
    (hc : covers [.wrn] cv = true := by exact covers_le (by assumption) rfl) :
    Kept cv s0 (judgePort n s) := by
  unfold judgePort
  repeat' first
    | exact covers_le hc rfl
    | with_reducible first
      | assumption | apply onPort_kept | intro _ | split

theorem takeHello_kept {cv : List Block} {s0 : State} (port : Nat) (h : Hello) (s : State) (hk0 : Kept cv s0 s)
    (hc : covers [.mon, .pwr, .hst, .mbx, .ext, .cdc, .drt, .hrd, .wrn, .flt, .out] cv = true := by exact covers_le (by assumption) rfl) :
    Kept cv s0 (takeHello port h s) := by
  unfold takeHello
  dsimp only
  repeat' first
    | exact covers_le hc rfl
    | with_reducible first
      | assumption | apply dropOn_kept | apply onPort_kept | apply judgePort_kept | apply reachUpdate_kept | apply heardFrom_kept
      | apply drainPort_kept | apply reroute_kept | intro _ | split

theorem execHello_kept {cv : List Block} {s0 : State} (port : Nat) (h : Hello) (s : State) (hk0 : Kept cv s0 s)
    (hc : covers [.mon, .pwr, .hst, .mbx, .ext, .cdc, .drt, .hrd, .wrn, .flt, .out] cv = true := by exact covers_le (by assumption) rfl) :
    KeptRes cv s0 (execHello port h s) := by
  unfold execHello
  repeat' first
    | exact covers_le hc rfl
    | with_reducible first
      | assumption | apply takeHello_kept | apply KeptRes.of_next

theorem laneBack_kept {cv : List Block} {s0 : State} (n lane : Nat) (s : State) (hk0 : Kept cv s0 s)
    (hc : covers [.uni, .lif] cv = true := by exact covers_le (by assumption) rfl) :
    Kept cv s0 (laneBack n lane s) := by
  unfold laneBack
  repeat' first
    | exact covers_le hc rfl
    | with_reducible first
      | assumption | intro _ | split | refine Kept.set_uni_lif ?_ (hc := ?_)

theorem laneOut_kept {cv : List Block} {s0 : State} (n lane : Nat) (s : State) (hk0 : Kept cv s0 s)
    (hc : covers [.uni, .hst, .lif, .flt, .out] cv = true := by exact covers_le (by assumption) rfl) :
    Kept cv s0 (laneOut n lane s) := by
  unfold laneOut
  repeat' first
    | exact covers_le hc rfl
    | with_reducible first
      | assumption | apply takeOut_kept

theorem setLanes_kept {cv : List Block} {s0 : State} (n mask : Nat) (s : State) (hk0 : Kept cv s0 s)
    (hc : covers [.uni, .hst, .wrn, .lif, .flt, .out] cv = true := by exact covers_le (by assumption) rfl) :
    Kept cv s0 (setLanes n mask s) := by
  unfold setLanes
  repeat' first
    | exact covers_le hc rfl
    | with_reducible first
      | assumption | apply laneBack_kept | apply laneOut_kept | apply checkLevels_kept | apply onPort_kept | apply Kept.foldl
      | apply Kept.foldl_fst | intro _ | split

theorem trainPort_kept {cv : List Block} {s0 : State} (port lanes : Nat) (s : State) (hk0 : Kept cv s0 s)
    (hc : covers [.uni, .hst, .wrn, .lif, .flt, .out] cv = true := by exact covers_le (by assumption) rfl) :
    Kept cv s0 (trainPort port lanes s) := by
  unfold trainPort
  dsimp only
  repeat' first
    | exact covers_le hc rfl
    | with_reducible first
      | assumption | apply setLanes_kept | apply onPort_kept | apply sayHello_kept | intro _ | split

theorem execCablePlugged_kept {cv : List Block} {s0 : State} (port lanes : Nat) (s : State) (hk0 : Kept cv s0 s)
    (hc : covers [.uni, .hst, .wrn, .lif, .flt, .out] cv = true := by exact covers_le (by assumption) rfl) :
    KeptRes cv s0 (execCablePlugged port lanes s) := by
  unfold execCablePlugged
  repeat' first
    | exact covers_le hc rfl
    | with_reducible first
      | assumption | apply trainPort_kept | apply KeptRes.of_next

theorem execLaneFailure_kept {cv : List Block} {s0 : State} (port lane : Nat) (s : State) (hk0 : Kept cv s0 s)
    (hc : covers [.uni, .mon, .pwr, .hst, .mbx, .cdc, .drt, .hrd, .wrn, .lif, .flt, .out] cv = true := by exact covers_le (by assumption) rfl) :
    KeptRes cv s0 (execLaneFailure port lane s) := by
  unfold execLaneFailure
  dsimp only
  repeat' first
    | exact covers_le hc rfl
    | with_reducible first
      | assumption | apply onPort_kept | apply laneOut_kept | apply portDown_kept | apply replayFlits_kept | apply KeptRes.of_next
      | intro _ | split

theorem wrnCmd_kept {cv : List Block} {s0 : State} (port action : Nat) (allowed : Bool) (k : State → State) (s : State) (hk : ∀ u, Kept cv s0 u → Kept cv s0 (k u)) (hk0 : Kept cv s0 s)
    (hc : covers [.wrn] cv = true := by exact covers_le (by assumption) rfl) :
    Kept cv s0 (wrnCmd port action allowed k s) := by
  unfold wrnCmd
  repeat' first
    | exact covers_le hc rfl
    | with_reducible first
      | assumption | apply hk | intro _ | split | refine Kept.set_wrn ?_ (hc := ?_)

theorem retrainAct_kept {cv : List Block} {s0 : State} (port : Nat) (s : State) (hk0 : Kept cv s0 s)
    (hc : covers [.mon, .pwr, .hst, .mbx, .cdc, .drt, .hrd, .wrn, .flt, .out] cv = true := by exact covers_le (by assumption) rfl) :
    Kept cv s0 (retrainAct port s) := by
  unfold retrainAct
  repeat' first
    | exact covers_le hc rfl
    | with_reducible first
      | assumption | apply wrnCmd_kept | apply sayHello_kept | apply onPort_kept | apply portDown_kept | intro _

theorem execRetrain_kept {cv : List Block} {s0 : State} (port : Nat) (s : State) (hk0 : Kept cv s0 s)
    (hc : covers [.mon, .pwr, .hst, .mbx, .cdc, .drt, .hrd, .wrn, .flt, .out] cv = true := by exact covers_le (by assumption) rfl) :
    KeptRes cv s0 (execRetrain port s) := by
  unfold execRetrain
  repeat' first
    | exact covers_le hc rfl
    | with_reducible first
      | assumption | apply retrainAct_kept | apply KeptRes.of_next

theorem disableAct_kept {cv : List Block} {s0 : State} (port : Nat) (s : State) (hk0 : Kept cv s0 s)
    (hc : covers [.mon, .pwr, .hst, .mbx, .cdc, .drt, .hrd, .wrn, .flt, .out] cv = true := by exact covers_le (by assumption) rfl) :
    Kept cv s0 (disableAct port s) := by
  unfold disableAct
  repeat' first
    | exact covers_le hc rfl
    | with_reducible first
      | assumption | apply wrnCmd_kept | apply onPort_kept | apply portDown_kept | intro _ | split

theorem execDisable_kept {cv : List Block} {s0 : State} (port : Nat) (s : State) (hk0 : Kept cv s0 s)
    (hc : covers [.mon, .pwr, .hst, .mbx, .cdc, .drt, .hrd, .wrn, .flt, .out] cv = true := by exact covers_le (by assumption) rfl) :
    KeptRes cv s0 (execDisable port s) := by
  unfold execDisable
  repeat' first
    | exact covers_le hc rfl
    | with_reducible first
      | assumption | apply disableAct_kept | apply KeptRes.of_next

theorem enableAct_kept {cv : List Block} {s0 : State} (port : Nat) (s : State) (hk0 : Kept cv s0 s)
    (hc : covers [.wrn] cv = true := by exact covers_le (by assumption) rfl) :
    Kept cv s0 (enableAct port s) := by
  unfold enableAct
  repeat' first
    | exact covers_le hc rfl
    | with_reducible first
      | assumption | apply wrnCmd_kept | apply onPort_kept | intro _

theorem execEnable_kept {cv : List Block} {s0 : State} (port : Nat) (s : State) (hk0 : Kept cv s0 s)
    (hc : covers [.wrn] cv = true := by exact covers_le (by assumption) rfl) :
    KeptRes cv s0 (execEnable port s) := by
  unfold execEnable
  repeat' first
    | exact covers_le hc rfl
    | with_reducible first
      | assumption | apply enableAct_kept | apply KeptRes.of_next

end Sys2Proof.Safety
end

