-- ==== Sys2Proof/Laws/KeptWarren.lean ====
section
/-! SUPPORT. What the definitions of Machine/Warren.lean keep: one lemma per definition, from any earlier state. -/

namespace Sys2Proof.Safety

-- The lemmas of this file are checked one after another, with few threads at a time.
set_option Elab.async false

open Sys2Proof.Machine

theorem servedHere_kept {cv : List Block} {s0 : State} (src : Nat) (k : State → State) (s : State) (hk : ∀ u, Kept cv s0 u → Kept cv s0 (k u)) (hk0 : Kept cv s0 s)
    (hc : covers [.wrn] cv = true := by exact covers_le (by assumption) rfl) :
    Kept cv s0 (servedHere src k s) := by
  unfold servedHere
  repeat' first
    | exact covers_le hc rfl
    | with_reducible first
      | assumption | apply hk | apply dropQuiet_kept | apply hear_kept | intro _ | split

theorem servePeer_kept {cv : List Block} {s0 : State} (r : MemReq) (src tag : Nat) (refused : Msg) (s : State) (hk0 : Kept cv s0 s)
    (hc : covers [.pwr, .hst, .ext, .cdc, .drt, .hrd, .wrn, .eng, .flt, .out] cv = true := by exact covers_le (by assumption) rfl) :
    Kept cv s0 (servePeer r src tag refused s) := by
  unfold servePeer
  repeat' first
    | exact covers_le hc rfl
    | with_reducible first
      | assumption | apply respond_kept | apply routeReq_kept | split

theorem execRead_kept {cv : List Block} {s0 : State} (src dst tag hops tenant addr : Nat) (stamp : Ns) (ident : Nat) (want : Want) (port : Nat) (s : State) (hk0 : Kept cv s0 s)
    (hc : covers [.pwr, .hst, .ext, .cdc, .drt, .hrd, .wrn, .eng, .flt, .out] cv = true := by exact covers_le (by assumption) rfl) :
    KeptRes cv s0 (execRead src dst tag hops tenant addr stamp ident want port s) := by
  unfold execRead
  repeat' first
    | exact covers_le hc rfl
    | with_reducible first
      | assumption | apply relay_kept | apply peerRequest_kept | apply servePeer_kept | apply deliverReclaims_kept
      | apply KeptRes.of_next | intro _ | ((fail_if_no_progress (extract_lets +onlyGivenNames x)); clear_value x)
      | dsimp -zeta only | split

theorem execWrite_kept {cv : List Block} {s0 : State} (src dst tag hops tenant addr : Nat) (stamp : Ns) (ident : Nat) (poison : Bool) (be : BitVec 64) (data : List Byte)
    (port : Nat) (s : State) (hk0 : Kept cv s0 s)
    (hc : covers [.pwr, .hst, .ext, .cdc, .drt, .hrd, .wrn, .eng, .opq, .flt, .out, .free] cv = true := by exact covers_le (by assumption) rfl) :
    KeptRes cv s0 (execWrite src dst tag hops tenant addr stamp ident poison be data port s) := by
  unfold execWrite
  repeat' first
    | exact covers_le hc rfl
    | with_reducible first
      | assumption | apply relay_kept | apply rspGo_kept | apply peerRequest_kept | apply servePeer_kept
      | apply deliverReclaims_kept | apply KeptRes.of_next | intro _
      | ((fail_if_no_progress (extract_lets +onlyGivenNames x)); clear_value x) | dsimp -zeta only | split

theorem dropHostReq_kept {cv : List Block} {s0 : State} (r : MemReq) (s : State) (hk0 : Kept cv s0 s)
    (hc : covers [.hst] cv = true := by exact covers_le (by assumption) rfl) :
    Kept cv s0 (dropHostReq r s) := by
  unfold dropHostReq
  repeat' first
    | exact covers_le hc rfl
    | with_reducible first
      | assumption | refine Kept.set_hst ?_ (.of_eq rfl) (hc := ?_)

theorem nextWrite_kept {cv : List Block} {s0 : State} (tenant line : Nat) (s : State) (hk0 : Kept cv s0 s)
    (hc : covers [.pwr, .hst, .ext, .cdc, .drt, .hrd, .wrn, .eng, .flt, .out] cv = true := by exact covers_le (by assumption) rfl) :
    Kept cv s0 (nextWrite tenant line s) := by
  unfold nextWrite
  repeat' first
    | exact covers_le hc rfl
    | with_reducible first
      | assumption | apply resumeReq_kept | apply dropHostReq_kept | intro _ | split

theorem peerAbsent_kept {cv : List Block} {s0 : State} (r : MemReq) (src : Nat) (s : State) (hk0 : Kept cv s0 s)
    (hc : covers [.hst, .flt, .out] cv = true := by exact covers_le (by assumption) rfl) :
    Kept cv s0 (peerAbsent r src s) := by
  unfold peerAbsent
  repeat' first
    | exact covers_le hc rfl
    | with_reducible first
      | assumption | refine note_kept _ _ ?_ (hc := ?_) (hd := by with_unfolding_all rfl)

theorem tellServer_kept {cv : List Block} {s0 : State} (src st tenant block : Nat) (f : DecFault) (s : State) (hk0 : Kept cv s0 s)
    (hc : covers [.cdc, .wrn, .out] cv = true := by exact covers_le (by assumption) rfl) :
    Kept cv s0 (tellServer src st tenant block f s) := by
  unfold tellServer
  repeat' first
    | exact covers_le hc rfl
    | with_reducible first
      | assumption | apply sendMsg_kept | apply codecFault_kept | refine Kept.set_wrn ?_ (hc := ?_)

theorem agentDataIn_kept {cv : List Block} {s0 : State} (x : AgentLine) (o : Outst) (src status strip form : Nat) (bmw : BitVec 96) (masks stored : List Byte) (s : State) (hk0 : Kept cv s0 s)
    (hc : covers [.hst, .cdc, .wrn, .opq, .flt, .out] cv = true := by exact covers_le (by assumption) rfl) :
    Kept cv s0 (agentDataIn x o src status strip form bmw masks stored s) := by
  unfold agentDataIn
  dsimp only
  repeat' first
    | exact covers_le hc rfl
    | with_reducible first
      | assumption | refine note_kept _ _ ?_ (hc := ?_) (hd := by with_unfolding_all rfl) | apply keepLine_kept | apply tellServer_kept
      | apply countDec_kept | apply codecFault_kept | apply sendReq_kept | split

theorem readDataIn_kept {cv : List Block} {s0 : State} (r : MemReq) (o : Outst) (src status grant strip form : Nat) (bmw : BitVec 96) (masks stored : List Byte) (s : State) (hk0 : Kept cv s0 s)
    (hc : covers [.hst, .cdc, .wrn, .flt, .out] cv = true := by exact covers_le (by assumption) rfl) :
    Kept cv s0 (readDataIn r o src status grant strip form bmw masks stored s) := by
  unfold readDataIn
  repeat' first
    | exact covers_le hc rfl
    | with_reducible first
      | assumption | refine note_kept _ _ ?_ (hc := ?_) (hd := by with_unfolding_all rfl) | apply dropHostReq_kept
      | apply answerData_kept | apply peerAbsent_kept | apply countDec_kept | apply tellServer_kept | apply codecFault_kept
      | apply sendReq_kept | apply park_kept | split | refine Kept.set_wrn ?_ (hc := ?_)

theorem execReadData_kept {cv : List Block} {s0 : State} (src tag status grant strip form : Nat) (bmw : BitVec 96) (masks : List Byte) (stored : List Byte) (s : State) (hk0 : Kept cv s0 s)
    (hc : covers [.hst, .cdc, .wrn, .opq, .flt, .out] cv = true := by exact covers_le (by assumption) rfl) :
    KeptRes cv s0 (execReadData src tag status grant strip form bmw masks stored s) := by
  unfold execReadData
  repeat' first
    | exact covers_le hc rfl
    | with_reducible first
      | assumption | apply servedHere_kept | apply peerResponse_kept | apply dropReq_kept | apply readDataIn_kept | apply agentDataIn_kept
      | apply respond_kept | apply dropHostReq_kept | apply KeptRes.of_next | intro _ | split

theorem execWriteDone_kept {cv : List Block} {s0 : State} (src tag status : Nat) (s : State) (hk0 : Kept cv s0 s)
    (hc : covers [.pwr, .hst, .ext, .cdc, .drt, .hrd, .wrn, .eng, .opq, .flt, .out, .free] cv = true := by exact covers_le (by assumption) rfl) :
    KeptRes cv s0 (execWriteDone src tag status s) := by
  unfold execWriteDone
  dsimp only
  repeat' first
    | exact covers_le hc rfl
    | with_reducible first
      | assumption | refine note_kept _ _ ?_ (hc := ?_) (hd := by with_unfolding_all rfl) | apply servedHere_kept
      | apply peerResponse_kept | apply dropReq_kept | apply dropHostReq_kept | apply peerAbsent_kept | apply rspGo_kept
      | apply nextWrite_kept | apply answerWrite_kept | apply opWriteDone_kept | apply KeptRes.of_next | intro _ | split

theorem execBisnp_kept {cv : List Block} {s0 : State} (src tag tenant addr : Nat) (data : Bool) (ld : Nat) (s : State) (hk0 : Kept cv s0 s)
    (hc : covers [.hst, .ext, .wrn, .flt, .out] cv = true := by exact covers_le (by assumption) rfl) :
    KeptRes cv s0 (execBisnp src tag tenant addr data ld s) := by
  unfold execBisnp
  repeat' first
    | exact covers_le hc rfl
    | with_reducible first
      | assumption | apply servedHere_kept | apply hear_kept | apply dropFrom_kept | apply sendMsg_kept | apply dupOpen_kept
      | apply emit_kept | apply KeptRes.of_next | intro _ | split | refine Kept.set_ext ?_ (hc := ?_)
      | refine Kept.set_hst ?_ (.of_eq rfl) (hc := ?_)

theorem execBirsp_kept {cv : List Block} {s0 : State} (src tag tenant addr : Nat) (ans : SnoopAns) (s : State) (hk0 : Kept cv s0 s)
    (hc : covers [.pwr, .hst, .ext, .cdc, .drt, .hrd, .wrn, .eng, .opq, .flt, .out, .free] cv = true := by exact covers_le (by assumption) rfl) :
    KeptRes cv s0 (execBirsp src tag tenant addr ans s) := by
  unfold execBirsp
  repeat' first
    | exact covers_le hc rfl
    | with_reducible first
      | assumption | apply servedHere_kept | apply peerResponse_kept | apply afterSnoops_kept | apply snoopAnswer_kept
      | apply dropReq_kept | apply KeptRes.of_next | intro _ | split

theorem peerSays_kept {cv : List Block} {s0 : State} (src st : Nat) (s : State) (hk0 : Kept cv s0 s)
    (hc : covers [.mon, .pwr, .hst, .mbx, .ext, .cdc, .drt, .hrd, .wrn, .flt, .out] cv = true := by exact covers_le (by assumption) rfl) :
    Kept cv s0 (peerSays src st s) := by
  unfold peerSays
  repeat' first
    | exact covers_le hc rfl
    | with_reducible first
      | assumption | apply kmGo_kept | apply heardFrom_kept | refine Kept.set_wrn ?_ (hc := ?_)

theorem execPresenceProbe_kept {cv : List Block} {s0 : State} (src st : Nat) (s : State) (hk0 : Kept cv s0 s)
    (hc : covers [.mon, .pwr, .hst, .mbx, .ext, .cdc, .drt, .hrd, .wrn, .flt, .out] cv = true := by exact covers_le (by assumption) rfl) :
    KeptRes cv s0 (execPresenceProbe src st s) := by
  unfold execPresenceProbe
  repeat' first
    | exact covers_le hc rfl
    | with_reducible first
      | assumption | apply dropFrom_kept | apply peerSays_kept | apply sendMsg_kept | apply KeptRes.of_next | split
      | refine Kept.set_wrn ?_ (hc := ?_)

theorem execPresenceAnswer_kept {cv : List Block} {s0 : State} (src st : Nat) (s : State) (hk0 : Kept cv s0 s)
    (hc : covers [.mon, .pwr, .hst, .mbx, .ext, .cdc, .drt, .hrd, .wrn, .flt, .out] cv = true := by exact covers_le (by assumption) rfl) :
    KeptRes cv s0 (execPresenceAnswer src st s) := by
  unfold execPresenceAnswer
  repeat' first
    | exact covers_le hc rfl
    | with_reducible first
      | assumption | apply dropFrom_kept | apply peerSays_kept | apply KeptRes.of_next | split

theorem execPresenceProbeTimer_kept {cv : List Block} {s0 : State} (peer : Nat) (s : State) (hk0 : Kept cv s0 s)
    (hc : covers [.wrn, .out] cv = true := by exact covers_le (by assumption) rfl) :
    KeptRes cv s0 (execPresenceProbeTimer peer s) := by
  unfold execPresenceProbeTimer
  repeat' first
    | exact covers_le hc rfl
    | with_reducible first
      | assumption | apply sendBy_kept | apply KeptRes.of_next | split | refine Kept.set_wrn ?_ (hc := ?_)

theorem giveUp_kept {cv : List Block} {s0 : State} (o : Outst) (s : State) (hk0 : Kept cv s0 s)
    (hc : covers [.pwr, .hst, .mbx, .ext, .cdc, .drt, .hrd, .wrn, .eng, .opq, .flt, .out, .free] cv = true := by exact covers_le (by assumption) rfl) :
    Kept cv s0 (giveUp o s) := by
  unfold giveUp
  repeat' first
    | exact covers_le hc rfl
    | with_reducible first
      | assumption | refine note_kept _ _ ?_ (hc := ?_) (hd := by with_unfolding_all rfl) | apply dropReq_kept
      | apply answerPoison_kept | apply keepLine_kept | apply peerAbsent_kept | apply dropHostReq_kept | apply opWriteDone_kept | apply rspGo_kept
      | apply nextWrite_kept | apply answerWrite_kept | apply goOnFill_kept | apply dropGet_kept | apply checkpointDone_kept
      | apply settle_kept | apply placeElsewhere_kept | apply mbxRefused_kept | apply onInt_kept | intro _ | split
      | refine Kept.set_wrn ?_ (hc := ?_)

theorem execUnreachableTimeout_kept {cv : List Block} {s0 : State} (peer : Nat) (s : State) (hk0 : Kept cv s0 s)
    (hc : covers [.mon, .pwr, .hst, .mbx, .ext, .cdc, .drt, .hrd, .wrn, .eng, .opq, .flt, .out, .free] cv = true := by exact covers_le (by assumption) rfl) :
    KeptRes cv s0 (execUnreachableTimeout peer s) := by
  unfold execUnreachableTimeout
  repeat' first
    | exact covers_le hc rfl
    | with_reducible first
      | assumption | apply reachUpdate_kept | apply giveUp_kept | apply KeptRes.of_next | apply Kept.foldl | apply Kept.foldl_fst
      | intro _ | split | refine Kept.set_wrn ?_ (hc := ?_)

theorem execRequestRetryTimer_kept {cv : List Block} {s0 : State} (tag : Nat) (s : State) (hk0 : Kept cv s0 s)
    (hc : covers [.pwr, .hst, .mbx, .ext, .cdc, .drt, .hrd, .wrn, .eng, .opq, .flt, .out, .free] cv = true := by exact covers_le (by assumption) rfl) :
    KeptRes cv s0 (execRequestRetryTimer tag s) := by
  unfold execRequestRetryTimer
  dsimp only
  repeat' first
    | exact covers_le hc rfl
    | with_reducible first
      | assumption | apply giveUp_kept | apply sendEnv_kept | apply KeptRes.of_next | intro _ | split
      | refine Kept.set_wrn ?_ (hc := ?_)

theorem execRouteRestore_kept {cv : List Block} {s0 : State} (dst : Nat) (s : State) (hk0 : Kept cv s0 s)
    (hc : covers [.mon, .wrn] cv = true := by exact covers_le (by assumption) rfl) :
    KeptRes cv s0 (execRouteRestore dst s) := by
  unfold execRouteRestore
  repeat' first
    | exact covers_le hc rfl
    | with_reducible first
      | assumption | apply setParent_kept | apply KeptRes.of_next | split | refine Kept.set_wrn ?_ (hc := ?_)

theorem sendTime_kept {cv : List Block} {s0 : State} (n : Nat) (m : Msg) (s : State) (hk0 : Kept cv s0 s)
    (hc : covers [.wrn, .out] cv = true := by exact covers_le (by assumption) rfl) :
    Kept cv s0 (sendTime n m s) := by
  unfold sendTime
  repeat' first
    | exact covers_le hc rfl
    | with_reducible first
      | assumption | apply post_kept | refine Kept.set_wrn ?_ (hc := ?_)

theorem execTimeSyncTimer_kept {cv : List Block} {s0 : State} (s : State) (hk0 : Kept cv s0 s)
    (hc : covers [.wrn, .out] cv = true := by exact covers_le (by assumption) rfl) :
    KeptRes cv s0 (execTimeSyncTimer s) := by
  unfold execTimeSyncTimer
  repeat' first
    | exact covers_le hc rfl
    | with_reducible first
      | assumption | apply sendTime_kept | apply KeptRes.of_next | apply Kept.foldl | apply Kept.foldl_fst | intro _ | split
      | refine Kept.set_wrn ?_ (hc := ?_)

theorem execDelayReqTimer_kept {cv : List Block} {s0 : State} (s : State) (hk0 : Kept cv s0 s)
    (hc : covers [.wrn, .out] cv = true := by exact covers_le (by assumption) rfl) :
    KeptRes cv s0 (execDelayReqTimer s) := by
  unfold execDelayReqTimer
  repeat' first
    | exact covers_le hc rfl
    | with_reducible first
      | assumption | apply sendTime_kept | apply KeptRes.of_next | split | refine Kept.set_wrn ?_ (hc := ?_)

theorem takeOffset_kept {cv : List Block} {s0 : State} (off : Int) (s : State) (hk0 : Kept cv s0 s)
    (hc : covers [.mon, .wrn, .free] cv = true := by exact covers_le (by assumption) rfl) :
    Kept cv s0 (takeOffset off s) := by
  unfold takeOffset
  repeat' first
    | exact covers_le hc rfl
    | with_reducible first
      | assumption | apply draw_kept | split | refine Kept.set_mon_wrn ?_ (hc := ?_)

theorem execDelayReq_kept {cv : List Block} {s0 : State} (port src : Nat) (t : Ns) (arrival : Ns) (s : State) (hk0 : Kept cv s0 s)
    (hc : covers [.mon, .pwr, .hst, .mbx, .ext, .cdc, .drt, .hrd, .wrn, .flt, .out] cv = true := by exact covers_le (by assumption) rfl) :
    KeptRes cv s0 (execDelayReq port src t arrival s) := by
  unfold execDelayReq
  repeat' first
    | exact covers_le hc rfl
    | with_reducible first
      | assumption | apply dropOn_kept | apply heardFrom_kept | apply sendTime_kept | apply KeptRes.of_next | split

theorem execDelayResp_kept {cv : List Block} {s0 : State} (port src : Nat) (_t1 t4 : Ns) (s : State) (hk0 : Kept cv s0 s)
    (hc : covers [.mon, .pwr, .hst, .mbx, .ext, .cdc, .drt, .hrd, .wrn, .flt, .out, .free] cv = true := by exact covers_le (by assumption) rfl) :
    KeptRes cv s0 (execDelayResp port src _t1 t4 s) := by
  unfold execDelayResp
  dsimp only
  repeat' first
    | exact covers_le hc rfl
    | with_reducible first
      | assumption | apply dropOn_kept | apply heardFrom_kept | apply takeOffset_kept | apply KeptRes.of_next | split
      | refine Kept.set_wrn ?_ (hc := ?_)

end Sys2Proof.Safety
end

