-- ==== Sys2Proof/Laws/KeptRings.lean ====
section
/-! SUPPORT. What the definitions of Machine/Rings.lean keep: one lemma per definition, from any earlier state. -/

namespace Sys2Proof.Safety

-- The lemmas of this file are checked one after another, with few threads at a time.
set_option Elab.async false

open Sys2Proof.Machine

theorem execRingEnable_kept {cv : List Block} {s0 : State} (ld ring : Nat) (_stamp : Ns) (s : State) (hk0 : Kept cv s0 s)
    (hc : covers [.opq] cv = true := by exact covers_le (by assumption) rfl) :
    KeptRes cv s0 (execRingEnable ld ring _stamp s) := by
  unfold execRingEnable
  dsimp only
  repeat' first
    | exact covers_le hc rfl
    | with_reducible first
      | assumption | apply onRing_kept | apply KeptRes.of_next | intro _ | split

theorem execRingDisable_kept {cv : List Block} {s0 : State} (ld ring : Nat) (s : State) (hk0 : Kept cv s0 s)
    (hc : covers [.opq] cv = true := by exact covers_le (by assumption) rfl) :
    KeptRes cv s0 (execRingDisable ld ring s) := by
  unfold execRingDisable
  repeat' first
    | exact covers_le hc rfl
    | with_reducible first
      | assumption | apply onRing_kept | apply KeptRes.of_next | intro _ | split

theorem doorbellTaken_kept {cv : List Block} {s0 : State} (ld : Nat) (dmwr : Bool) (s : State) (hk0 : Kept cv s0 s)
    (hc : covers [.out] cv = true := by exact covers_le (by assumption) rfl) :
    Kept cv s0 (doorbellTaken ld dmwr s).1 := by
  unfold doorbellTaken
  repeat' first
    | exact covers_le hc rfl
    | with_reducible first
      | assumption | apply emit_kept | split

theorem enterIntake_kept {cv : List Block} {s0 : State} (n : Nat) (s : State) (hk0 : Kept cv s0 s)
    (hc : covers [.opq] cv = true := by exact covers_le (by assumption) rfl) :
    Kept cv s0 (enterIntake n s) := by
  unfold enterIntake
  repeat' first
    | exact covers_le hc rfl
    | with_reducible first
      | assumption | split | refine Kept.set_opq ?_ (hc := ?_)

theorem execSqDoorbell_kept {cv : List Block} {s0 : State} (ld ring : Nat) (tail : BitVec 32) (dmwr : Bool) (stamp : Ns) (s : State) (hk0 : Kept cv s0 s)
    (hc : covers [.hst, .opq, .flt, .out] cv = true := by exact covers_le (by assumption) rfl) :
    KeptRes cv s0 (execSqDoorbell ld ring tail dmwr stamp s) := by
  unfold execSqDoorbell
  dsimp only
  repeat' first
    | exact covers_le hc rfl
    | with_reducible first
      | assumption | apply doorbellTaken_kept | apply enterIntake_kept | apply onRing_kept | apply ringStop_kept
      | apply KeptRes.of_next | intro _ | split

theorem execCqDoorbell_kept {cv : List Block} {s0 : State} (ld ring : Nat) (head : BitVec 32) (dmwr : Bool) (s : State) (hk0 : Kept cv s0 s)
    (hc : covers [.hst, .opq, .flt, .out] cv = true := by exact covers_le (by assumption) rfl) :
    KeptRes cv s0 (execCqDoorbell ld ring head dmwr s) := by
  unfold execCqDoorbell
  dsimp only
  repeat' first
    | exact covers_le hc rfl
    | with_reducible first
      | assumption | apply doorbellTaken_kept | apply enterIntake_kept | apply onRing_kept | apply ringStop_kept
      | apply KeptRes.of_next | intro _ | split

theorem enterOp_kept {cv : List Block} {s0 : State} (o : Op) (marked : Bool) (s : State) (hk0 : Kept cv s0 s)
    (hc : covers [.pwr, .hst, .ext, .cdc, .drt, .hrd, .wrn, .eng, .opq, .flt, .out] cv = true := by exact covers_le (by assumption) rfl) :
    Kept cv s0 (enterOp o marked s) := by
  unfold enterOp
  repeat' first
    | exact covers_le hc rfl
    | with_reducible first
      | assumption | apply retireOp_kept | apply sendFwd_kept | split | refine Kept.set_opq ?_ (hc := ?_)

theorem takeFrom_kept {cv : List Block} {s0 : State} (n : Nat) (s : State) (hk0 : Kept cv s0 s)
    (hc : covers [.pwr, .hst, .ext, .cdc, .drt, .hrd, .wrn, .eng, .opq, .flt, .out, .free] cv = true := by exact covers_le (by assumption) rfl) :
    Kept cv s0 (takeFrom n s).1 := by
  unfold takeFrom
  dsimp only
  repeat' first
    | exact covers_le hc rfl
    | with_reducible first
      | assumption | apply bringRange_kept | apply agentRead_kept | apply onRing_kept | apply enterOp_kept | intro _ | split
      | refine Kept.set_opq ?_ (hc := ?_)

theorem execDescriptorTake_kept {cv : List Block} {s0 : State} (s : State) (hk0 : Kept cv s0 s)
    (hc : covers [.pwr, .hst, .ext, .cdc, .drt, .hrd, .wrn, .eng, .opq, .flt, .out, .free] cv = true := by exact covers_le (by assumption) rfl) :
    KeptRes cv s0 (execDescriptorTake s) := by
  unfold execDescriptorTake
  repeat' first
    | exact covers_le hc rfl
    | with_reducible first
      | assumption | apply takeFrom_kept | apply KeptRes.of_next | apply Kept.foldl | apply Kept.foldl_fst | intro _ | split
      | refine Kept.set_opq ?_ (hc := ?_)

theorem execOpFwd_kept {cv : List Block} {s0 : State} (src tag ring sq tenant : Nat) (desc : List Byte) (s : State) (hk0 : Kept cv s0 s)
    (hc : covers [.mon, .pwr, .hst, .mbx, .ext, .cdc, .drt, .hrd, .wrn, .opq, .flt, .out] cv = true := by exact covers_le (by assumption) rfl) :
    KeptRes cv s0 (execOpFwd src tag ring sq tenant desc s) := by
  unfold execOpFwd
  dsimp only
  repeat' first
    | exact covers_le hc rfl
    | with_reducible first
      | assumption | apply heardFrom_kept | apply respond_kept | apply sendMsg_kept | apply dupOpen_kept | apply KeptRes.of_next
      | split | refine Kept.set_opq ?_ (hc := ?_)

theorem fwdDone_kept {cv : List Block} {s0 : State} (o : Op) (rcd : List Byte) (s : State) (hk0 : Kept cv s0 s)
    (hc : covers [.pwr, .hst, .ext, .cdc, .drt, .hrd, .wrn, .eng, .opq, .flt, .out] cv = true := by exact covers_le (by assumption) rfl) :
    Kept cv s0 (fwdDone o rcd s) := by
  unfold fwdDone
  repeat' first
    | exact covers_le hc rfl
    | with_reducible first
      | assumption | apply releaseFences_kept | apply deliver_kept | intro _ | refine Kept.set_opq ?_ (hc := ?_)

theorem execOpDone_kept {cv : List Block} {s0 : State} (src tag : Nat) (record : List Byte) (s : State) (hk0 : Kept cv s0 s)
    (hc : covers [.pwr, .hst, .ext, .cdc, .drt, .hrd, .wrn, .eng, .opq, .flt, .out] cv = true := by exact covers_le (by assumption) rfl) :
    KeptRes cv s0 (execOpDone src tag record s) := by
  unfold execOpDone
  repeat' first
    | exact covers_le hc rfl
    | with_reducible first
      | assumption | apply servedHere_kept | apply peerResponse_kept | apply record_kept | apply dropReq_kept | apply fwdDone_kept
      | apply KeptRes.of_next | intro _ | split | refine Kept.set_opq ?_ (hc := ?_)

theorem execOpFwdResend_kept {cv : List Block} {s0 : State} (tag : Nat) (s : State) (hk0 : Kept cv s0 s)
    (hc : covers [.wrn, .opq, .out] cv = true := by exact covers_le (by assumption) rfl) :
    KeptRes cv s0 (execOpFwdResend tag s) := by
  unfold execOpFwdResend
  repeat' first
    | exact covers_le hc rfl
    | with_reducible first
      | assumption | apply sendFwd_kept | apply KeptRes.of_next | split

theorem abortDone_kept {cv : List Block} {s0 : State} (o : Op) (status r0 : Nat) (s : State) (hk0 : Kept cv s0 s)
    (hc : covers [.pwr, .hst, .ext, .cdc, .drt, .hrd, .wrn, .eng, .opq, .flt, .out] cv = true := by exact covers_le (by assumption) rfl) :
    Kept cv s0 (abortDone o status r0 s) := by
  unfold abortDone
  repeat' first
    | exact covers_le hc rfl
    | with_reducible first
      | assumption | apply retireOp_kept

theorem abortHere_kept {cv : List Block} {s0 : State} (o t : Op) (s : State) (hk0 : Kept cv s0 s)
    (hc : covers [.pwr, .hst, .ext, .cdc, .drt, .hrd, .wrn, .eng, .opq, .flt, .out] cv = true := by exact covers_le (by assumption) rfl) :
    Kept cv s0 (abortHere o t s) := by
  unfold abortHere
  repeat' first
    | exact covers_le hc rfl
    | with_reducible first
      | assumption | apply abortOp_kept | apply abortDone_kept | split

theorem execAbort_kept {cv : List Block} {s0 : State} (ringUnit ring sqIndex : Nat) (s : State) (hk0 : Kept cv s0 s)
    (hc : covers [.pwr, .hst, .ext, .cdc, .drt, .hrd, .wrn, .eng, .opq, .flt, .out] cv = true := by exact covers_le (by assumption) rfl) :
    KeptRes cv s0 (execAbort ringUnit ring sqIndex s) := by
  unfold execAbort
  dsimp only
  repeat' first
    | exact covers_le hc rfl
    | with_reducible first
      | assumption | apply abortHere_kept | apply abortDone_kept | apply fwdDone_kept | apply sendFwd_kept | apply onRing_kept
      | apply KeptRes.of_next | intro _ | split | refine Kept.set_opq ?_ (hc := ?_)

theorem execOperatorTimeout_kept {cv : List Block} {s0 : State} (ringUnit ring sqIndex : Nat) (s : State) (hk0 : Kept cv s0 s)
    (hc : covers [.pwr, .hst, .ext, .cdc, .drt, .hrd, .wrn, .eng, .opq, .flt, .out] cv = true := by exact covers_le (by assumption) rfl) :
    KeptRes cv s0 (execOperatorTimeout ringUnit ring sqIndex s) := by
  unfold execOperatorTimeout
  repeat' first
    | exact covers_le hc rfl
    | with_reducible first
      | assumption | refine note_kept _ _ ?_ (hc := ?_) (hd := by with_unfolding_all rfl) | apply abortOp_kept | apply fwdDone_kept
      | apply dropReq_kept | apply KeptRes.of_next | split | refine Kept.set_opq ?_ (hc := ?_)

theorem execSeal_kept {cv : List Block} {s0 : State} (ringUnit ring sqIndex : Nat) (s : State) (hk0 : Kept cv s0 s)
    (hc : covers [.pwr, .hst, .mbx, .ext, .cdc, .drt, .hrd, .wrn, .eng, .opq, .flt, .out, .free] cv = true := by exact covers_le (by assumption) rfl) :
    KeptRes cv s0 (execSeal ringUnit ring sqIndex s) := by
  unfold execSeal
  repeat' first
    | exact covers_le hc rfl
    | with_reducible first
      | assumption | apply opRow_kept | apply onOp_kept | apply draw_kept | apply moveExtent_kept | apply startSnoop_kept
      | apply sealsGo_kept | apply tellExtent_kept | apply KeptRes.of_next | apply Kept.foldl | apply Kept.foldl_fst | intro _
      | split | refine Kept.set_ext ?_ (hc := ?_)

theorem execSealComplete_kept {cv : List Block} {s0 : State} (ext : Nat) (s : State) (hk0 : Kept cv s0 s)
    (hc : covers [.pwr, .hst, .mbx, .ext, .cdc, .drt, .hrd, .wrn, .eng, .opq, .flt, .out] cv = true := by exact covers_le (by assumption) rfl) :
    KeptRes cv s0 (execSealComplete ext s) := by
  unfold execSealComplete
  dsimp only
  repeat' first
    | exact covers_le hc rfl
    | with_reducible first
      | assumption | apply offerReaders_kept | apply moveExtent_kept | apply tellExtent_kept | apply retireOp_kept
      | apply KeptRes.of_next | split | refine Kept.set_ext ?_ (hc := ?_)

end Sys2Proof.Safety
end

