-- ==== Sys2Proof/Laws/KeptTierMap.lean ====
section
/-! SUPPORT. What the definitions of Machine/TierMap.lean keep: one lemma per definition, from any earlier state. -/

namespace Sys2Proof.Safety

-- The lemmas of this file are checked one after another, with few threads at a time.
set_option Elab.async false

open Sys2Proof.Machine

theorem setSids_kept {b0 : Drt} (im : Option Image) (u : Nat) (working : List Nat) (count : Nat) (d : Drt) (hk0 : DrtKept b0 d) : DrtKept b0 (setSids im u working count d) := by
  unfold setSids
  repeat' with_reducible first
    | assumption | exact DrtKept.trans hk0 (.of_eq rfl)

theorem clearTier_kept {b0 : Drt} (lo len : Nat) (d : Drt) (hk0 : DrtKept b0 d) : DrtKept b0 (clearTier lo len d) := hk0.trans ⟨fun m => filter_wf _ m⟩

theorem takeVolatile_kept {cv : List Block} {s0 : State} (q : Nat × Nat) (s : State) (hk0 : Kept cv s0 s)
    (hc : covers [.drt] cv = true := by exact covers_le (by assumption) rfl) :
    Kept cv s0 (takeVolatile q s) := by
  unfold takeVolatile
  split
  · exact hk0
  · exact Kept.upd hk0 (.refl _) (.of_eq rfl) ((clearTier_kept _ _ s.drt (.of_eq rfl)).trans (.of_eq rfl)) (.of_eq rfl)

theorem takePinned_kept {cv : List Block} {s0 : State} (e : ExtRec) (g : Nat) (s : State) (hk0 : Kept cv s0 s)
    (hc : covers [.drt] cv = true := by exact covers_le (by assumption) rfl) :
    Kept cv s0 (takePinned e g s) := by
  unfold takePinned
  split
  · exact hk0
  · exact Kept.upd hk0 (.refl _) (.of_eq rfl) ((clearTier_kept _ _ s.drt (.of_eq rfl)).trans (.of_eq rfl)) (.of_eq rfl)

theorem takeSlots_kept {cv : List Block} {s0 : State} (im : Option Image) (s : State) (hk0 : Kept cv s0 s)
    (hc : covers [.drt] cv = true := by exact covers_le (by assumption) rfl) :
    Kept cv s0 (takeSlots im s) := by
  unfold takeSlots
  repeat' first
    | exact covers_le hc rfl
    | with_reducible first
      | assumption | apply takeVolatile_kept | apply takePinned_kept | apply Kept.foldl | apply Kept.foldl_fst | intro _ | split

theorem fillPinned_kept {cv : List Block} {s0 : State} (s : State) (hk0 : Kept cv s0 s)
    (hc : covers [.pwr, .hst, .cdc, .drt, .hrd, .wrn, .flt, .out] cv = true := by exact covers_le (by assumption) rfl) :
    Kept cv s0 (fillPinned s) := by
  unfold fillPinned
  repeat' first
    | exact covers_le hc rfl
    | with_reducible first
      | assumption | apply startFill_kept | apply Kept.foldl | apply Kept.foldl_fst | intro _ | split

theorem dropWaysFrom_kept {cv : List Block} {s0 : State} (lo : Nat) (s : State) (hk0 : Kept cv s0 s)
    (hc : covers [.cdc, .drt] cv = true := by exact covers_le (by assumption) rfl) :
    Kept cv s0 (dropWaysFrom lo s) := by
  unfold dropWaysFrom
  repeat' first
    | exact covers_le hc rfl
    | with_reducible first
      | assumption | apply dropWay_kept | apply Kept.foldl | apply Kept.foldl_fst | intro _

theorem mapStart_kept {cv : List Block} {s0 : State} (s : State) (hk0 : Kept cv s0 s)
    (hc : covers [.pwr, .hst, .cdc, .drt, .hrd, .wrn, .flt, .out] cv = true := by exact covers_le (by assumption) rfl) :
    Kept cv s0 (mapStart s) := by
  unfold mapStart
  repeat' first
    | exact covers_le hc rfl
    | with_reducible first
      | assumption | apply commitTile_kept | apply dropWaysFrom_kept | apply commitCache_kept | apply Kept.foldl
      | apply Kept.foldl_fst | intro _ | split | refine Kept.set_drt ?_ (.of_eq rfl) (hc := ?_)

theorem mapEnd_kept {cv : List Block} {s0 : State} (s : State) (hk0 : Kept cv s0 s)
    (hc : covers [.vq, .pwr, .hst, .cdc, .drt, .hrd, .wrn, .flt, .out] cv = true := by exact covers_le (by assumption) rfl) :
    Kept cv s0 (mapEnd s) := by
  unfold mapEnd
  repeat' first
    | exact covers_le hc rfl
    | with_reducible first
      | assumption | apply dropWaysFrom_kept | apply setSids_kept | apply commitCache_kept | apply dropWay_kept | apply Kept.foldl
      | apply Kept.foldl_fst | intro _ | split | refine Kept.set_drt ?_ (.of_eq rfl) (hc := ?_)
      | refine Kept.set_vq_drt ?_ (.of_eq rfl) (.of_eq rfl) (hc := ?_)

theorem movePools_kept {b0 : Drt} (pp pv np : Nat) (d : Drt) (hk0 : DrtKept b0 d) : DrtKept b0 (movePools pp pv np d) := by
  refine hk0.trans ⟨fun _ => ?_⟩
  suffices h : ∀ (l : Memory) (m : Memory), memWf m = true →
      memWf (l.foldl (fun m p => match poolMove d pp pv np p.1 with
        | some a => mset a p.2 m
        | none => m) m) = true from h _ _ rfl
  intro l
  induction l with
  | nil => exact fun _ h => h
  | cons p r ih =>
    intro m hm
    refine ih _ ?_
    dsimp only
    split
    · exact mset_wf _ _ hm
    · exact hm

theorem partStart_kept {cv : List Block} {s0 : State} (s : State) (hk0 : Kept cv s0 s)
    (hc : covers [.pwr, .hst, .cdc, .drt, .hrd, .wrn, .flt, .out] cv = true := by exact covers_le (by assumption) rfl) :
    Kept cv s0 (partStart s) := by
  unfold partStart
  repeat' first
    | exact covers_le hc rfl
    | with_reducible first
      | assumption | apply commitCache_kept

theorem partEnd_kept {cv : List Block} {s0 : State} (s : State) (hk0 : Kept cv s0 s)
    (hc : covers [.vq, .pwr, .hst, .cdc, .drt, .hrd, .wrn, .flt, .out] cv = true := by exact covers_le (by assumption) rfl) :
    Kept cv s0 (partEnd s) := by
  unfold partEnd
  split
  · exact hk0
  · split
    · exact commitCache_kept _ hk0
    · exact Kept.upd (Kept.foldl hk0 fun _ _ h => dropWay_kept _ _ h) (.refl _) (.of_eq rfl) (movePools_kept _ _ _ _ (.of_eq rfl)) (.of_eq rfl)

theorem granStart_kept {cv : List Block} {s0 : State} (s : State) (hk0 : Kept cv s0 s)
    (hc : covers [.pwr, .hst, .ext, .cdc, .drt, .hrd, .wrn, .flt, .out] cv = true := by exact covers_le (by assumption) rfl) :
    Kept cv s0 (granStart s) := by
  unfold granStart
  repeat' first
    | exact covers_le hc rfl
    | with_reducible first
      | assumption | apply startSnoop_kept | apply commitTile_kept | apply flushRange_kept | apply Kept.foldl
      | apply Kept.foldl_fst | intro _ | split | refine Kept.set_hrd ?_ (hc := ?_)

theorem dropGranule_kept {cv : List Block} {s0 : State} (e : ExtRec) (g : Nat) (s : State) (hk0 : Kept cv s0 s)
    (hc : covers [.cdc, .drt] cv = true := by exact covers_le (by assumption) rfl) :
    Kept cv s0 (dropGranule e g s) := by
  unfold dropGranule
  repeat' first
    | exact covers_le hc rfl
    | with_reducible first
      | assumption | apply dropWay_kept | apply Kept.foldl | apply Kept.foldl_fst | intro _
      | refine Kept.set_cdc_drt ?_ (.of_eq rfl) (hc := ?_)

theorem granEnd_kept {cv : List Block} {s0 : State} (s : State) (hk0 : Kept cv s0 s)
    (hc : covers [.vq, .pwr, .hst, .ext, .cdc, .drt, .hrd, .wrn, .flt, .out] cv = true := by exact covers_le (by assumption) rfl) :
    Kept cv s0 (granEnd s) := by
  unfold granEnd
  repeat' first
    | exact covers_le hc rfl
    | with_reducible first
      | assumption | apply granStart_kept | apply dropGranule_kept | apply takePinned_kept | apply fillPinned_kept
      | apply Kept.foldl | apply Kept.foldl_fst | intro _ | split | refine Kept.set_vq ?_ (.of_eq rfl) (hc := ?_)

theorem stripeEnd_kept {cv : List Block} {s0 : State} (s : State) (hk0 : Kept cv s0 s)
    (hc : covers [.vq, .pwr, .hst, .cdc, .drt, .hrd, .wrn, .flt, .out] cv = true := by exact covers_le (by assumption) rfl) :
    Kept cv s0 (stripeEnd s) := by
  unfold stripeEnd
  repeat' first
    | exact covers_le hc rfl
    | with_reducible first
      | assumption | apply repackTile_kept | apply releaseIfDead_kept | apply Kept.foldl | apply Kept.foldl_fst | intro _ | split
      | refine Kept.set_vq ?_ (.of_eq rfl) (hc := ?_)

theorem moveStart_kept {cv : List Block} {s0 : State} (s : State) (hk0 : Kept cv s0 s)
    (hc : covers [.pwr, .hst, .ext, .cdc, .drt, .hrd, .wrn, .flt, .out] cv = true := by exact covers_le (by assumption) rfl) :
    Kept cv s0 (moveStart s) := by
  unfold moveStart
  dsimp only
  repeat' first
    | exact covers_le hc rfl
    | with_reducible first
      | assumption | apply mapStart_kept | apply partStart_kept | apply granStart_kept | apply closeStripe_kept | apply Kept.foldl
      | apply Kept.foldl_fst | intro _ | split

theorem moveGo_kept {cv : List Block} {s0 : State} (s : State) (hk0 : Kept cv s0 s)
    (hc : covers [.vq, .pwr, .hst, .ext, .cdc, .drt, .hrd, .wrn, .flt, .out] cv = true := by exact covers_le (by assumption) rfl) :
    Kept cv s0 (moveGo s) := by
  unfold moveGo
  dsimp only
  repeat' first
    | exact covers_le hc rfl
    | with_reducible first
      | assumption | apply moveStart_kept | apply mapEnd_kept | apply partEnd_kept | apply stripeEnd_kept | apply granEnd_kept
      | split

end Sys2Proof.Safety
end

