-- ==== Sys2Proof/Laws/KeptEpoch.lean ====
section
/-! SUPPORT. What the definitions of Machine/Epoch.lean keep: one lemma per definition, from any earlier state. -/

namespace Sys2Proof.Safety

-- The lemmas of this file are checked one after another, with few threads at a time.
set_option Elab.async false

open Sys2Proof.Machine

theorem bankPut_kept {b0 : Vq} (m : Image) (v : Vq) (hk0 : VqKept b0 v) : VqKept b0 (bankPut m v) := by
  unfold bankPut
  split <;> exact ⟨hk0.buf⟩

theorem startFrom5_kept {cv : List Block} {s0 : State} (s : State) (hk0 : Kept cv s0 s)
    (hc : covers [.uni, .vq, .hst, .flt, .out] cv = true := by exact covers_le (by assumption) rfl) :
    Kept cv s0 (startFrom5 s) := by
  unfold startFrom5
  repeat' first
    | exact covers_le hc rfl
    | with_reducible first
      | assumption | apply moveTo_kept | refine Kept.set_flt ?_ (hc := ?_) | refine Kept.set_uni_vq ?_ (.of_eq rfl) (hc := ?_)

theorem storeNext_kept {cv : List Block} {s0 : State} (m : Image) (s : State) (hk0 : Kept cv s0 s)
    (hc : covers [.uni, .vq, .hst, .pnl, .flt, .out] cv = true := by exact covers_le (by assumption) rfl) :
    Kept cv s0 (storeNext m s) := by
  unfold storeNext
  extract_lets same v1 p1 s1
  have h : Kept cv s0 s1 := Kept.upd hk0 (.refl _) ⟨(bankPut_kept m s.vq (.of_eq rfl)).buf⟩ (.of_eq rfl) (.of_eq rfl)
  clear_value s1
  split
  · exact startFrom5_kept _ h
  · exact h

theorem applyMasks_kept {cv : List Block} {s0 : State} (a b : Option Image) (s : State) (hk0 : Kept cv s0 s)
    (hc : covers [.hst, .mbx, .out] cv = true := by exact covers_le (by assumption) rfl) :
    Kept cv s0 (applyMasks a b s) := by
  unfold applyMasks
  repeat' first
    | exact covers_le hc rfl
    | with_reducible first
      | assumption | apply maskWrite_kept | apply Kept.foldl | apply Kept.foldl_fst | intro _

theorem prepareHere_kept {cv : List Block} {s0 : State} (src epoch : Nat) (digest : BitVec 128) (s : State) (hk0 : Kept cv s0 s)
    (hc : covers [.vq, .hst, .mbx, .out] cv = true := by exact covers_le (by assumption) rfl) :
    Kept cv s0 (prepareHere src epoch digest s).1 := by
  unfold prepareHere
  split
  · exact hk0
  · split
    · exact Kept.upd hk0 (.refl _) (.of_eq rfl) (.of_eq rfl) (.of_eq rfl)
    · next m _ =>
      have hb (v : Vq) (h : VqKept s.vq v) : VqKept s.vq (bankPut m v) := bankPut_kept m v h
      extract_lets
      split
      · refine applyMasks_kept _ _ _ (Kept.upd hk0 (.refl _) ?_ (.of_eq rfl) (.of_eq rfl))
        refine ⟨fun h => ?_⟩
        show memWf (if _ then s.vq else bankPut m { s.vq with nextMarked := false }).buf = true
        split
        · exact h
        · exact (hb { s.vq with nextMarked := false } (.of_eq rfl)).buf h
      · refine Kept.upd hk0 (.refl _) ?_ (.of_eq rfl) (.of_eq rfl)
        refine ⟨fun h => ?_⟩
        show memWf (if _ then s.vq else bankPut m { s.vq with nextMarked := false }).buf = true
        split
        · exact h
        · exact (hb { s.vq with nextMarked := false } (.of_eq rfl)).buf h

theorem rollbackHere_kept {cv : List Block} {s0 : State} (epoch : Nat) (s : State) (hk0 : Kept cv s0 s)
    (hc : covers [.vq, .hst, .mbx, .out] cv = true := by exact covers_le (by assumption) rfl) :
    Kept cv s0 (rollbackHere epoch s) := by
  unfold rollbackHere
  repeat' first
    | exact covers_le hc rfl
    | with_reducible first
      | assumption | apply maskWrite_kept | apply Kept.foldl | apply Kept.foldl_fst | intro _ | split
      | refine Kept.set_vq ?_ (.of_eq rfl) (hc := ?_)

theorem leaveExtent_kept {cv : List Block} {s0 : State} (old : Image) (e : ExtRec) (s : State) (hk0 : Kept cv s0 s)
    (hc : covers [.pwr, .hst, .mbx, .ext, .cdc, .drt, .hrd, .wrn, .eng, .opq, .flt, .out] cv = true := by exact covers_le (by assumption) rfl) :
    Kept cv s0 (leaveExtent old e s) := by
  unfold leaveExtent
  repeat' first
    | exact covers_le hc rfl
    | with_reducible first
      | assumption | apply moveExtent_kept | apply onExtent_kept | apply startSnoop_kept | apply releaseDone_kept
      | apply askRelease_kept | apply Kept.foldl | apply Kept.foldl_fst | intro _ | split | refine Kept.set_ext ?_ (hc := ?_)

theorem dropReaders_kept {cv : List Block} {s0 : State} (o n : ExtRec) (s : State) (hk0 : Kept cv s0 s)
    (hc : covers [.hst, .mbx, .flt, .out] cv = true := by exact covers_le (by assumption) rfl) :
    Kept cv s0 (dropReaders o n s) := by
  unfold dropReaders
  repeat' first
    | exact covers_le hc rfl
    | with_reducible first
      | assumption | exact fun _ h => h | exact fun _ _ => rfl | apply dcEvent_kept | apply onLd_kept | apply Kept.foldl
      | apply Kept.foldl_fst | intro _ | split

theorem switchExtents_kept {cv : List Block} {s0 : State} (old new : Image) (s : State) (hk0 : Kept cv s0 s)
    (hc : covers [.pwr, .hst, .mbx, .ext, .cdc, .drt, .hrd, .wrn, .eng, .opq, .flt, .out] cv = true := by exact covers_le (by assumption) rfl) :
    Kept cv s0 (switchExtents old new s) := by
  unfold switchExtents
  repeat' first
    | exact covers_le hc rfl
    | with_reducible first
      | assumption | apply leaveExtent_kept | apply offerTenant_kept | apply moveExtent_kept | apply onExtent_kept
      | apply offerReaders_kept | apply dropReaders_kept | apply takeSlots_kept | apply offerWithheld_kept | apply Kept.foldl
      | apply Kept.foldl_fst | intro _ | split

theorem switchBindings_kept {cv : List Block} {s0 : State} (old new : Option Image) (s : State) (hk0 : Kept cv s0 s)
    (hc : covers [.pwr, .hst, .mbx, .ext, .cdc, .drt, .hrd, .wrn, .eng, .opq, .flt, .out] cv = true := by exact covers_le (by assumption) rfl) :
    Kept cv s0 (switchBindings old new s) := by
  unfold switchBindings
  repeat' first
    | exact covers_le hc rfl
    | with_reducible first
      | assumption | exact fun _ h => h | exact fun _ _ => rfl | apply releaseDone_kept | apply forceRemove_kept
      | apply offerAll_kept | apply onLd_kept | apply Kept.foldl | apply Kept.foldl_fst | intro _

theorem switchHomes_kept {cv : List Block} {s0 : State} (old new : Option Image) (s : State) (hk0 : Kept cv s0 s)
    (hc : covers [.ext] cv = true := by exact covers_le (by assumption) rfl) :
    Kept cv s0 (switchHomes old new s) := by
  unfold switchHomes
  repeat' first
    | exact covers_le hc rfl
    | with_reducible first
      | assumption | apply homeInit_kept | apply onLease_kept | apply Kept.foldl | apply Kept.foldl_fst | intro _ | split

theorem switchRings_kept {cv : List Block} {s0 : State} (old new : Option Image) (s : State) (hk0 : Kept cv s0 s)
    (hc : covers [.opq] cv = true := by exact covers_le (by assumption) rfl) :
    Kept cv s0 (switchRings old new s) := by
  unfold switchRings
  repeat' first
    | exact covers_le hc rfl
    | with_reducible first
      | assumption | apply ringsGone_kept | intro _ | split | refine Kept.set_opq ?_ (hc := ?_)

theorem switchMailboxes_kept {cv : List Block} {s0 : State} (old new : Option Image) (s : State) (hk0 : Kept cv s0 s)
    (hc : covers [.hst, .mbx, .out] cv = true := by exact covers_le (by assumption) rfl) :
    Kept cv s0 (switchMailboxes old new s) := by
  unfold switchMailboxes
  repeat' first
    | exact covers_le hc rfl
    | with_reducible first
      | assumption | apply modeChange_kept | apply intModeChange_kept | apply Kept.foldl | apply Kept.foldl_fst | intro _ | split

theorem switchRate_kept {cv : List Block} {s0 : State} (s : State) (hk0 : Kept cv s0 s)
    (hc : covers [.drt] cv = true := by exact covers_le (by assumption) rfl) :
    Kept cv s0 (switchRate s) := by
  unfold switchRate
  repeat' first
    | exact covers_le hc rfl
    | with_reducible first
      | assumption | apply rateChange_kept | split

theorem switchPorts_kept {cv : List Block} {s0 : State} (old : Option Image) (s : State) (hk0 : Kept cv s0 s)
    (hc : covers [.mon, .pwr, .hst, .mbx, .cdc, .drt, .hrd, .wrn, .flt, .out] cv = true := by exact covers_le (by assumption) rfl) :
    Kept cv s0 (switchPorts old s) := by
  unfold switchPorts
  dsimp only
  repeat' first
    | exact covers_le hc rfl
    | with_reducible first
      | assumption | apply portDown_kept | apply onPort_kept | apply sayHello_kept | apply judgePort_kept | apply reachUpdate_kept
      | apply reroute_kept | apply drainPort_kept | apply Kept.foldl | apply Kept.foldl_fst | intro _ | split

theorem switchUnits_kept {cv : List Block} {s0 : State} (old new : Option Image) (s : State) (hk0 : Kept cv s0 s)
    (hc : covers [.uni, .hst, .hrd, .flt, .out] cv = true := by exact covers_le (by assumption) rfl) :
    Kept cv s0 (switchUnits old new s) := by
  unfold switchUnits
  repeat' first
    | exact covers_le hc rfl
    | with_reducible first
      | assumption | apply unitLost_kept | apply Kept.foldl | apply Kept.foldl_fst | intro _

theorem switchMoves_kept {cv : List Block} {s0 : State} (mi pi old new : Option Image) (back : Bool) (s : State) (hk0 : Kept cv s0 s)
    (hc : covers [.vq, .pwr, .hst, .ext, .cdc, .drt, .hrd, .wrn, .flt, .out] cv = true := by exact covers_le (by assumption) rfl) :
    Kept cv s0 (switchMoves mi pi old new back s) := by
  unfold switchMoves
  repeat' first
    | exact covers_le hc rfl
    | with_reducible first
      | assumption | apply moveStart_kept | intro _ | refine Kept.set_vq ?_ (.of_eq rfl) (hc := ?_)

theorem tellCoord_kept {cv : List Block} {s0 : State} (epoch : Nat) (t : Nat) (own : State → State) (s : State) (hown : ∀ u, Kept cv s0 u → Kept cv s0 (own u)) (hk0 : Kept cv s0 s)
    (hc : covers [.wrn, .out] cv = true := by exact covers_le (by assumption) rfl) :
    Kept cv s0 (tellCoord epoch t own s) := by
  unfold tellCoord
  repeat' first
    | exact covers_le hc rfl
    | with_reducible first
      | assumption | apply hown | apply sendMsg_kept | intro _ | split | refine Kept.set_wrn ?_ (hc := ?_)

theorem settleUpdate_kept {cv : List Block} {s0 : State} (s : State) (hk0 : Kept cv s0 s)
    (hc : covers [.vq, .pwr, .hst, .mbx, .ext, .cdc, .drt, .hrd, .wrn, .eng, .opq, .flt, .out, .free] cv = true := by exact covers_le (by assumption) rfl) :
    Kept cv s0 (settleUpdate s) := by
  unfold settleUpdate
  dsimp only
  refine wake_kept _ (Kept.upd (u := if (s.vq.epochState == 3) = true then _ else s) ?_ (.refl _) (.of_eq rfl) (.of_eq rfl) (.of_eq rfl))
  split
  · exact Kept.foldl hk0 fun _ _ h => dropGranule_kept _ _ _ (Kept.foldl h fun _ _ h => commitTile_kept _ _ _ h)
  · exact hk0

theorem coordDone_kept {cv : List Block} {s0 : State} (src epoch t : Nat) (s : State) (hk0 : Kept cv s0 s)
    (hc : covers [.vq, .pwr, .hst, .mbx, .ext, .cdc, .drt, .hrd, .wrn, .eng, .opq, .flt, .out, .free] cv = true := by exact covers_le (by assumption) rfl) :
    Kept cv s0 (coordDone src epoch t s) := by
  unfold coordDone
  repeat' first
    | exact covers_le hc rfl
    | with_reducible first
      | assumption | apply settleUpdate_kept | apply sendAll_kept | intro _ | split | refine Kept.set_vq ?_ (.of_eq rfl) (hc := ?_)

theorem reportSettled_kept {cv : List Block} {s0 : State} (s : State) (hk0 : Kept cv s0 s)
    (hc : covers [.vq, .pwr, .hst, .mbx, .ext, .cdc, .drt, .hrd, .wrn, .eng, .opq, .flt, .out, .free] cv = true := by exact covers_le (by assumption) rfl) :
    Kept cv s0 (reportSettled s) := by
  unfold reportSettled
  repeat' first
    | exact covers_le hc rfl
    | with_reducible first
      | assumption | apply tellCoord_kept | apply coordDone_kept | intro _ | split

theorem imageGone_kept {cv : List Block} {s0 : State} (c : Nat) (s : State) (hk0 : Kept cv s0 s)
    (hc : covers [.uni, .vq, .pwr, .hst, .eng, .opq, .flt, .out] cv = true := by exact covers_le (by assumption) rfl) :
    Kept cv s0 (imageGone c s) := by
  unfold imageGone
  repeat' first
    | exact covers_le hc rfl
    | with_reducible first
      | assumption | apply raise_kept | refine Kept.set_vq ?_ (.of_eq rfl) (hc := ?_)

theorem leaveFabric_kept {cv : List Block} {s0 : State} (s : State) (hk0 : Kept cv s0 s)
    (hc : covers [.uni, .vq, .pwr, .hst, .eng, .opq, .flt, .out] cv = true := by exact covers_le (by assumption) rfl) :
    Kept cv s0 (leaveFabric s) := by
  unfold leaveFabric
  repeat' first
    | exact covers_le hc rfl
    | with_reducible first
      | assumption | apply imageGone_kept

theorem doSwitch_kept {cv : List Block} {s0 : State} (late : Bool) (s : State) (hk0 : Kept cv s0 s)
    (hc : covers [.uni, .vq, .mon, .pwr, .hst, .mbx, .ext, .cdc, .drt, .hrd, .wrn, .eng, .opq, .flt, .out, .free] cv = true := by exact covers_le (by assumption) rfl) :
    Kept cv s0 (doSwitch late s) := by
  unfold doSwitch
  repeat' first
    | exact covers_le hc rfl
    | with_reducible first
      | assumption | apply tellCoord_kept | apply coordDone_kept | apply startFrom5_kept | apply leaveFabric_kept
      | apply switchMoves_kept | apply applyMasks_kept | apply switchUnits_kept | apply switchHomes_kept | apply switchRings_kept
      | apply switchMailboxes_kept | apply switchBindings_kept | apply switchExtents_kept | apply checkLevels_kept
      | apply switchRate_kept | apply switchPorts_kept | apply wake_kept | apply kmGo_kept | intro _ | split
      | refine Kept.set_vq ?_ (.of_eq rfl) (hc := ?_)

theorem execStagedSwitch_kept {cv : List Block} {s0 : State} (s : State) (hk0 : Kept cv s0 s)
    (hc : covers [.uni, .vq, .mon, .pwr, .hst, .mbx, .ext, .cdc, .drt, .hrd, .wrn, .eng, .opq, .flt, .out, .free] cv = true := by exact covers_le (by assumption) rfl) :
    KeptRes cv s0 (execStagedSwitch s) := by
  unfold execStagedSwitch
  repeat' first
    | exact covers_le hc rfl
    | with_reducible first
      | assumption | apply doSwitch_kept | apply KeptRes.of_next | split

theorem execMigrationSettled_kept {cv : List Block} {s0 : State} (s : State) (hk0 : Kept cv s0 s)
    (hc : covers [.uni, .vq, .pwr, .hst, .mbx, .ext, .cdc, .drt, .hrd, .wrn, .eng, .opq, .flt, .out, .free] cv = true := by exact covers_le (by assumption) rfl) :
    KeptRes cv s0 (execMigrationSettled s) := by
  unfold execMigrationSettled
  repeat' first
    | exact covers_le hc rfl
    | with_reducible first
      | assumption | apply reportSettled_kept | apply nextRetire_kept | apply sidLossGo_kept | apply wake_kept | apply moveGo_kept
      | apply KeptRes.of_next | split

theorem commitHere_kept {cv : List Block} {s0 : State} (epoch : Nat) (ts : Ns) (s : State) (hk0 : Kept cv s0 s)
    (hc : covers [.uni, .vq, .mon, .pwr, .hst, .mbx, .ext, .cdc, .drt, .hrd, .wrn, .eng, .opq, .flt, .out, .free] cv = true := by exact covers_le (by assumption) rfl) :
    Kept cv s0 (commitHere epoch ts s) := by
  unfold commitHere
  repeat' first
    | exact covers_le hc rfl
    | with_reducible first
      | assumption | refine note_kept _ _ ?_ (hc := ?_) (hd := by with_unfolding_all rfl) | apply tellCoord_kept
      | apply coordDone_kept | apply doSwitch_kept | intro _ | split | refine Kept.set_vq ?_ (.of_eq rfl) (hc := ?_)

theorem sendDecision_kept {cv : List Block} {s0 : State} (c : Coord) (s : State) (hk0 : Kept cv s0 s)
    (hc : covers [.wrn, .out] cv = true := by exact covers_le (by assumption) rfl) :
    Kept cv s0 (sendDecision c s) := by
  unfold sendDecision
  repeat' first
    | exact covers_le hc rfl
    | with_reducible first
      | assumption | apply sendAll_kept

theorem decideCommit_kept {cv : List Block} {s0 : State} (c : Coord) (s : State) (hk0 : Kept cv s0 s)
    (hc : covers [.uni, .vq, .mon, .pwr, .hst, .mbx, .ext, .cdc, .drt, .hrd, .wrn, .eng, .opq, .flt, .out, .free] cv = true := by exact covers_le (by assumption) rfl) :
    Kept cv s0 (decideCommit c s) := by
  unfold decideCommit
  repeat' first
    | exact covers_le hc rfl
    | with_reducible first
      | assumption | apply commitHere_kept | apply sendDecision_kept | refine Kept.set_vq ?_ (.of_eq rfl) (hc := ?_)

theorem decideRollback_kept {cv : List Block} {s0 : State} (code unit : Nat) (c : Coord) (s : State) (hk0 : Kept cv s0 s)
    (hc : covers [.vq, .hst, .mbx, .wrn, .flt, .out] cv = true := by exact covers_le (by assumption) rfl) :
    Kept cv s0 (decideRollback code unit c s) := by
  unfold decideRollback
  repeat' first
    | exact covers_le hc rfl
    | with_reducible first
      | assumption | refine note_kept _ _ ?_ (hc := ?_) (hd := by with_unfolding_all rfl) | apply rollbackHere_kept
      | apply sendDecision_kept | intro _ | split | refine Kept.set_vq ?_ (.of_eq rfl) (hc := ?_)

theorem coordAnswer_kept {cv : List Block} {s0 : State} (src epoch : Nat) (refusal : Option Nat) (s : State) (hk0 : Kept cv s0 s)
    (hc : covers [.uni, .vq, .mon, .pwr, .hst, .mbx, .ext, .cdc, .drt, .hrd, .wrn, .eng, .opq, .flt, .out, .free] cv = true := by exact covers_le (by assumption) rfl) :
    Kept cv s0 (coordAnswer src epoch refusal s) := by
  unfold coordAnswer
  repeat' first
    | exact covers_le hc rfl
    | with_reducible first
      | assumption | apply decideRollback_kept | apply decideCommit_kept | intro _ | split
      | refine Kept.set_vq ?_ (.of_eq rfl) (hc := ?_)

theorem startEpoch_kept {cv : List Block} {s0 : State} (m : Image) (back : Bool) (s : State) (hk0 : Kept cv s0 s)
    (hc : covers [.uni, .vq, .mon, .pwr, .hst, .mbx, .ext, .cdc, .drt, .hrd, .wrn, .eng, .opq, .flt, .out, .free] cv = true := by exact covers_le (by assumption) rfl) :
    Kept cv s0 (startEpoch m back s) := by
  unfold startEpoch
  repeat' first
    | exact covers_le hc rfl
    | with_reducible first
      | assumption | apply sendAll_kept | apply prepareHere_kept | apply coordAnswer_kept
      | refine Kept.set_vq ?_ (.of_eq rfl) (hc := ?_)

theorem answerPrepare_kept {cv : List Block} {s0 : State} (src epoch : Nat) (digest : BitVec 128) (code : Option Nat) (s : State) (hk0 : Kept cv s0 s)
    (hc : covers [.wrn, .out] cv = true := by exact covers_le (by assumption) rfl) :
    Kept cv s0 (answerPrepare src epoch digest code s) := by
  unfold answerPrepare
  repeat' first
    | exact covers_le hc rfl
    | with_reducible first
      | assumption | apply sendMsg_kept | split | refine Kept.set_wrn ?_ (hc := ?_)

theorem execEpochPrepare_kept {cv : List Block} {s0 : State} (src epoch : Nat) (digest : BitVec 128) (s : State) (hk0 : Kept cv s0 s)
    (hc : covers [.vq, .hst, .mbx, .wrn, .flt, .out] cv = true := by exact covers_le (by assumption) rfl) :
    KeptRes cv s0 (execEpochPrepare src epoch digest s) := by
  unfold execEpochPrepare
  dsimp only
  repeat' first
    | exact covers_le hc rfl
    | with_reducible first
      | assumption | apply hear_kept | apply dropFrom_kept | apply answerPrepare_kept | apply prepareHere_kept
      | apply KeptRes.of_next | split | refine Kept.set_vq ?_ (.of_eq rfl) (hc := ?_)

theorem execEpochPrepared_kept {cv : List Block} {s0 : State} (src epoch : Nat) (s : State) (hk0 : Kept cv s0 s)
    (hc : covers [.uni, .vq, .mon, .pwr, .hst, .mbx, .ext, .cdc, .drt, .hrd, .wrn, .eng, .opq, .flt, .out, .free] cv = true := by exact covers_le (by assumption) rfl) :
    KeptRes cv s0 (execEpochPrepared src epoch s) := by
  unfold execEpochPrepared
  dsimp only
  repeat' first
    | exact covers_le hc rfl
    | with_reducible first
      | assumption | apply hear_kept | apply dropFrom_kept | apply dropQuiet_kept | apply sendMsg_kept | apply coordAnswer_kept
      | apply KeptRes.of_next | intro _ | split | refine Kept.set_wrn ?_ (hc := ?_)

theorem execEpochRefused_kept {cv : List Block} {s0 : State} (src epoch code : Nat) (s : State) (hk0 : Kept cv s0 s)
    (hc : covers [.uni, .vq, .mon, .pwr, .hst, .mbx, .ext, .cdc, .drt, .hrd, .wrn, .eng, .opq, .flt, .out, .free] cv = true := by exact covers_le (by assumption) rfl) :
    KeptRes cv s0 (execEpochRefused src epoch code s) := by
  unfold execEpochRefused
  dsimp only
  repeat' first
    | exact covers_le hc rfl
    | with_reducible first
      | assumption | apply hear_kept | apply dropFrom_kept | apply dropQuiet_kept | apply coordAnswer_kept | apply KeptRes.of_next
      | split

theorem execPrepareTimeout_kept {cv : List Block} {s0 : State} (s : State) (hk0 : Kept cv s0 s)
    (hc : covers [.vq, .hst, .mbx, .wrn, .flt, .out] cv = true := by exact covers_le (by assumption) rfl) :
    KeptRes cv s0 (execPrepareTimeout s) := by
  unfold execPrepareTimeout
  repeat' first
    | exact covers_le hc rfl
    | with_reducible first
      | assumption | apply decideRollback_kept | apply KeptRes.of_next | intro _ | split

theorem execEpochCommit_kept {cv : List Block} {s0 : State} (src epoch : Nat) (ts : Ns) (s : State) (hk0 : Kept cv s0 s)
    (hc : covers [.uni, .vq, .mon, .pwr, .hst, .mbx, .ext, .cdc, .drt, .hrd, .wrn, .eng, .opq, .flt, .out, .free] cv = true := by exact covers_le (by assumption) rfl) :
    KeptRes cv s0 (execEpochCommit src epoch ts s) := by
  unfold execEpochCommit
  dsimp only
  repeat' first
    | exact covers_le hc rfl
    | with_reducible first
      | assumption | apply hear_kept | apply dropFrom_kept | apply dropQuiet_kept | apply commitHere_kept | apply KeptRes.of_next
      | split

theorem execEpochRollback_kept {cv : List Block} {s0 : State} (src epoch : Nat) (s : State) (hk0 : Kept cv s0 s)
    (hc : covers [.vq, .pwr, .hst, .mbx, .ext, .cdc, .drt, .hrd, .wrn, .eng, .opq, .flt, .out, .free] cv = true := by exact covers_le (by assumption) rfl) :
    KeptRes cv s0 (execEpochRollback src epoch s) := by
  unfold execEpochRollback
  dsimp only
  repeat' first
    | exact covers_le hc rfl
    | with_reducible first
      | assumption | apply hear_kept | apply dropFrom_kept | apply dropQuiet_kept | apply tellCoord_kept | apply coordDone_kept
      | apply rollbackHere_kept | apply KeptRes.of_next | intro _ | split | refine Kept.set_vq ?_ (.of_eq rfl) (hc := ?_)

theorem execEpochDone_kept {cv : List Block} {s0 : State} (src epoch : Nat) (t : Nat) (s : State) (hk0 : Kept cv s0 s)
    (hc : covers [.vq, .pwr, .hst, .mbx, .ext, .cdc, .drt, .hrd, .wrn, .eng, .opq, .flt, .out, .free] cv = true := by exact covers_le (by assumption) rfl) :
    KeptRes cv s0 (execEpochDone src epoch t s) := by
  unfold execEpochDone
  dsimp only
  repeat' first
    | exact covers_le hc rfl
    | with_reducible first
      | assumption | apply hear_kept | apply dropFrom_kept | apply dropQuiet_kept | apply coordDone_kept | apply settleUpdate_kept
      | apply KeptRes.of_next | split

theorem execCommitResendTimer_kept {cv : List Block} {s0 : State} (s : State) (hk0 : Kept cv s0 s)
    (hc : covers [.wrn, .out] cv = true := by exact covers_le (by assumption) rfl) :
    KeptRes cv s0 (execCommitResendTimer s) := by
  unfold execCommitResendTimer
  repeat' first
    | exact covers_le hc rfl
    | with_reducible first
      | assumption | apply sendDecision_kept | apply KeptRes.of_next | split

theorem execPreparedResend_kept {cv : List Block} {s0 : State} (s : State) (hk0 : Kept cv s0 s)
    (hc : covers [.wrn, .out] cv = true := by exact covers_le (by assumption) rfl) :
    KeptRes cv s0 (execPreparedResend s) := by
  unfold execPreparedResend
  repeat' first
    | exact covers_le hc rfl
    | with_reducible first
      | assumption | apply sendAll_kept | apply KeptRes.of_next | split

theorem vqCtl_kept {cv : List Block} {s0 : State} (val : Nat) (s : State) (hk0 : Kept cv s0 s)
    (hc : covers [.uni, .vq, .mon, .pwr, .hst, .mbx, .ext, .cdc, .drt, .hrd, .wrn, .eng, .opq, .flt, .out, .free] cv = true := by exact covers_le (by assumption) rfl) :
    Kept cv s0 (vqCtl val s) := by
  unfold vqCtl
  repeat' first
    | exact covers_le hc rfl
    | with_reducible first
      | assumption | apply decideRollback_kept | apply writeIgnored_kept | apply startEpoch_kept | split

theorem execVqCtlAbort_kept {cv : List Block} {s0 : State} (val : Word) (s : State) (hk0 : Kept cv s0 s)
    (hc : covers [.uni, .vq, .mon, .pwr, .hst, .mbx, .ext, .cdc, .drt, .hrd, .wrn, .eng, .opq, .flt, .out, .free] cv = true := by exact covers_le (by assumption) rfl) :
    KeptRes cv s0 (execVqCtlAbort val s) := by
  unfold execVqCtlAbort
  repeat' first
    | exact covers_le hc rfl
    | with_reducible first
      | assumption | apply vqCtl_kept | apply KeptRes.of_next

theorem coordRestart_kept {cv : List Block} {s0 : State} (s : State) (hk0 : Kept cv s0 s)
    (hc : covers [.vq, .hst, .mbx, .wrn, .flt, .out] cv = true := by exact covers_le (by assumption) rfl) :
    Kept cv s0 (coordRestart s) := by
  unfold coordRestart
  repeat' first
    | exact covers_le hc rfl
    | with_reducible first
      | assumption | apply decideRollback_kept | apply sendDecision_kept | split

end Sys2Proof.Safety
end

