-- ==== Sys2Proof/Laws/KeptImages.lean ====
section
/-! SUPPORT. What the definitions of Machine/Images.lean keep: one lemma per definition, from any earlier state. -/

namespace Sys2Proof.Safety

-- The lemmas of this file are checked one after another, with few threads at a time.
set_option Elab.async false

open Sys2Proof.Machine

theorem loadEnd_kept {cv : List Block} {s0 : State} (code unit : Nat) (s : State) (hk0 : Kept cv s0 s)
    (hc : covers [.vq, .hst, .flt, .out] cv = true := by exact covers_le (by assumption) rfl) :
    Kept cv s0 (loadEnd code unit s) := by
  unfold loadEnd
  repeat' first
    | exact covers_le hc rfl
    | with_reducible first
      | assumption | refine note_kept _ _ ?_ (hc := ?_) (hd := by with_unfolding_all rfl) | split
      | refine Kept.set_vq ?_ (.of_eq rfl) (hc := ?_)

theorem loadPass_kept {cv : List Block} {s0 : State} (m : Image) (mode : Nat) (s : State) (hk0 : Kept cv s0 s)
    (hc : covers [.uni, .vq, .mon, .pwr, .hst, .mbx, .ext, .cdc, .drt, .hrd, .wrn, .eng, .opq, .pnl, .flt, .out, .free] cv = true := by exact covers_le (by assumption) rfl) :
    Kept cv s0 (loadPass m mode s) := by
  unfold loadPass
  repeat' first
    | exact covers_le hc rfl
    | with_reducible first
      | assumption | apply loadEnd_kept | apply startEpoch_kept | apply storeNext_kept | split
      | refine Kept.set_vq ?_ (.of_eq rfl) (hc := ?_)

theorem distEnd_kept {cv : List Block} {s0 : State} (d : Dist) (s : State) (hk0 : Kept cv s0 s)
    (hc : covers [.uni, .vq, .mon, .pwr, .hst, .mbx, .ext, .cdc, .drt, .hrd, .wrn, .eng, .opq, .pnl, .flt, .out, .free] cv = true := by exact covers_le (by assumption) rfl) :
    Kept cv s0 (distEnd d s) := by
  unfold distEnd
  repeat' first
    | exact covers_le hc rfl
    | with_reducible first
      | assumption | apply draw_kept | apply loadEnd_kept | apply sendAll_kept | apply loadPass_kept | intro _ | split
      | refine Kept.set_vq ?_ (.of_eq rfl) (hc := ?_)

theorem distStart_kept {cv : List Block} {s0 : State} (raw : List Byte) (mode : Nat) (v : Verdict × Option Image) (s : State) (hk0 : Kept cv s0 s)
    (hc : covers [.uni, .vq, .mon, .pwr, .hst, .mbx, .ext, .cdc, .drt, .hrd, .wrn, .eng, .opq, .pnl, .flt, .out, .free] cv = true := by exact covers_le (by assumption) rfl) :
    Kept cv s0 (distStart raw mode v s) := by
  unfold distStart
  repeat' first
    | exact covers_le hc rfl
    | with_reducible first
      | assumption | apply distEnd_kept | apply sendAll_kept | apply Kept.foldl | apply Kept.foldl_fst | intro _ | split
      | refine Kept.set_vq ?_ (.of_eq rfl) (hc := ?_)

theorem loadBusy_kept {cv : List Block} {s0 : State} (s : State) (hk0 : Kept cv s0 s)
    (hc : covers [.vq, .hst, .flt, .out] cv = true := by exact covers_le (by assumption) rfl) :
    Kept cv s0 (loadBusy s) := by
  unfold loadBusy
  repeat' first
    | exact covers_le hc rfl
    | with_reducible first
      | assumption | refine note_kept _ _ ?_ (hc := ?_) (hd := by with_unfolding_all rfl)
      | refine Kept.set_vq ?_ (.of_eq rfl) (hc := ?_)

theorem loadGo_kept {cv : List Block} {s0 : State} (len mode : Nat) (dist : Bool) (s : State) (hk0 : Kept cv s0 s)
    (hc : covers [.uni, .vq, .mon, .pwr, .hst, .mbx, .ext, .cdc, .drt, .hrd, .wrn, .eng, .opq, .pnl, .flt, .out, .free] cv = true := by exact covers_le (by assumption) rfl) :
    Kept cv s0 (loadGo len mode dist s) := by
  unfold loadGo
  repeat' first
    | exact covers_le hc rfl
    | with_reducible first
      | assumption | apply loadBusy_kept | apply loadEnd_kept | apply record_kept | apply distStart_kept | apply loadPass_kept
      | split | refine Kept.set_vq ?_ (.of_eq rfl) (hc := ?_)

theorem loadFields_kept {cv : List Block} {s0 : State} (len mode : Nat) (dist : Bool) (s : State) (hk0 : Kept cv s0 s)
    (hc : covers [.vq] cv = true := by exact covers_le (by assumption) rfl) :
    Kept cv s0 (loadFields len mode dist s) := by
  unfold loadFields
  repeat' first
    | exact covers_le hc rfl
    | with_reducible first
      | assumption | refine Kept.set_vq ?_ (.of_eq rfl) (hc := ?_)

theorem loadRow_kept {cv : List Block} {s0 : State} (len mode : Nat) (dist : Bool) (s : State) (hk0 : Kept cv s0 s)
    (hc : covers [.uni, .vq, .mon, .pwr, .hst, .mbx, .ext, .cdc, .drt, .hrd, .wrn, .eng, .opq, .pnl, .flt, .out, .free] cv = true := by exact covers_le (by assumption) rfl) :
    KeptRes cv s0 (loadRow len mode dist s) := by
  unfold loadRow
  repeat' first
    | exact covers_le hc rfl
    | with_reducible first
      | assumption | apply loadGo_kept | apply loadFields_kept | apply KeptRes.of_next | split

theorem execValidate_kept {cv : List Block} {s0 : State} (len : Nat) (distribute : Bool) (s : State) (hk0 : Kept cv s0 s)
    (hc : covers [.uni, .vq, .mon, .pwr, .hst, .mbx, .ext, .cdc, .drt, .hrd, .wrn, .eng, .opq, .pnl, .flt, .out, .free] cv = true := by exact covers_le (by assumption) rfl) :
    KeptRes cv s0 (execValidate len distribute s) := by
  unfold execValidate
  repeat' first
    | exact covers_le hc rfl
    | with_reducible first
      | assumption | apply loadRow_kept

theorem execUpdate_kept {cv : List Block} {s0 : State} (len : Nat) (distribute : Bool) (s : State) (hk0 : Kept cv s0 s)
    (hc : covers [.uni, .vq, .mon, .pwr, .hst, .mbx, .ext, .cdc, .drt, .hrd, .wrn, .eng, .opq, .pnl, .flt, .out, .free] cv = true := by exact covers_le (by assumption) rfl) :
    KeptRes cv s0 (execUpdate len distribute s) := by
  unfold execUpdate
  repeat' first
    | exact covers_le hc rfl
    | with_reducible first
      | assumption | apply loadRow_kept

theorem execNextStart_kept {cv : List Block} {s0 : State} (len : Nat) (distribute : Bool) (s : State) (hk0 : Kept cv s0 s)
    (hc : covers [.uni, .vq, .mon, .pwr, .hst, .mbx, .ext, .cdc, .drt, .hrd, .wrn, .eng, .opq, .pnl, .flt, .out, .free] cv = true := by exact covers_le (by assumption) rfl) :
    KeptRes cv s0 (execNextStart len distribute s) := by
  unfold execNextStart
  repeat' first
    | exact covers_le hc rfl
    | with_reducible first
      | assumption | apply loadRow_kept

theorem execLoadModeRefused_kept {cv : List Block} {s0 : State} (len : Nat) (distribute : Bool) (s : State) (hk0 : Kept cv s0 s)
    (hc : covers [.uni, .vq, .mon, .pwr, .hst, .mbx, .ext, .cdc, .drt, .hrd, .wrn, .eng, .opq, .pnl, .flt, .out, .free] cv = true := by exact covers_le (by assumption) rfl) :
    KeptRes cv s0 (execLoadModeRefused len distribute s) := by
  unfold execLoadModeRefused
  repeat' first
    | exact covers_le hc rfl
    | with_reducible first
      | assumption | apply loadRow_kept

theorem execRedfishImageAction_kept {cv : List Block} {s0 : State} (image : List Byte) (mode : Nat) (distribute : Bool) (s : State) (hk0 : Kept cv s0 s)
    (hc : covers [.uni, .vq, .mon, .pwr, .hst, .mbx, .ext, .cdc, .drt, .hrd, .wrn, .eng, .opq, .pnl, .flt, .out, .free] cv = true := by exact covers_le (by assumption) rfl) :
    KeptRes cv s0 (execRedfishImageAction image mode distribute s) := by
  unfold execRedfishImageAction
  split
  · exact .of_next hk0
  · split
    · exact .of_next (emit_kept _ _ (loadBusy_kept _ hk0))
    · exact .of_next (loadGo_kept _ _ _ _ (Kept.upd hk0 (.refl _) ⟨fun _ => mwrite_wf _ _ rfl⟩ (.of_eq rfl) (.of_eq rfl)))

theorem execDistributionTimeout_kept {cv : List Block} {s0 : State} (s : State) (hk0 : Kept cv s0 s)
    (hc : covers [.uni, .vq, .mon, .pwr, .hst, .mbx, .ext, .cdc, .drt, .hrd, .wrn, .eng, .opq, .pnl, .flt, .out, .free] cv = true := by exact covers_le (by assumption) rfl) :
    KeptRes cv s0 (execDistributionTimeout s) := by
  unfold execDistributionTimeout
  repeat' first
    | exact covers_le hc rfl
    | with_reducible first
      | assumption | apply distEnd_kept | apply KeptRes.of_next | apply Kept.foldl | apply Kept.foldl_fst | intro _ | split
      | refine Kept.set_vq ?_ (.of_eq rfl) (hc := ?_)

theorem sayVerdict_kept {cv : List Block} {s0 : State} (src code : Nat) (s : State) (hk0 : Kept cv s0 s)
    (hc : covers [.wrn, .out] cv = true := by exact covers_le (by assumption) rfl) :
    Kept cv s0 (sayVerdict src code s) := by
  unfold sayVerdict
  repeat' first
    | exact covers_le hc rfl
    | with_reducible first
      | assumption | apply sendMsg_kept | refine Kept.set_wrn ?_ (hc := ?_)

theorem rxEnd_kept {cv : List Block} {s0 : State} (src total mode : Nat) (s : State) (hk0 : Kept cv s0 s)
    (hc : covers [.vq, .hst, .wrn, .flt, .out] cv = true := by exact covers_le (by assumption) rfl) :
    Kept cv s0 (rxEnd src total mode s) := by
  unfold rxEnd
  repeat' first
    | exact covers_le hc rfl
    | with_reducible first
      | assumption | apply record_kept | apply sayVerdict_kept | apply loadEnd_kept | intro _ | split
      | refine Kept.set_vq ?_ (.of_eq rfl) (hc := ?_)

theorem execImagePart_kept {cv : List Block} {s0 : State} (src offset total mode : Nat) (bytes : List Byte) (s : State) (hk0 : Kept cv s0 s)
    (hc : covers [.vq, .hst, .wrn, .flt, .out] cv = true := by exact covers_le (by assumption) rfl) :
    KeptRes cv s0 (execImagePart src offset total mode bytes s) := by
  unfold execImagePart
  have h := hear_kept src s hk0
  generalize hear src s = s1 at h
  extract_lets s mine w v s2
  split
  · exact .of_next (dropFrom_kept _ _ _ _ h)
  · split
    · exact .of_next (dropQuiet_kept _ _ h)
    · split
      · exact .of_next (sayVerdict_kept _ _ _ (loadBusy_kept _ h))
      · have hv : VqKept s1.vq v := by
          dsimp only [v]
          split
          · exact .of_eq rfl
          · exact ⟨fun _ => rfl⟩
        have h2 : Kept cv s0 s2 := Kept.upd h (.refl _) ⟨fun m => mwrite_wf _ _ (hv.buf m)⟩ (.of_eq rfl) (.of_eq rfl)
        clear_value s2
        refine .of_next ?_
        split
        · exact rxEnd_kept _ _ _ _ h2
        · exact h2

theorem execImageVerdict_kept {cv : List Block} {s0 : State} (src code : Nat) (s : State) (hk0 : Kept cv s0 s)
    (hc : covers [.uni, .vq, .mon, .pwr, .hst, .mbx, .ext, .cdc, .drt, .hrd, .wrn, .eng, .opq, .pnl, .flt, .out, .free] cv = true := by exact covers_le (by assumption) rfl) :
    KeptRes cv s0 (execImageVerdict src code s) := by
  unfold execImageVerdict
  dsimp only
  repeat' first
    | exact covers_le hc rfl
    | with_reducible first
      | assumption | apply hear_kept | apply dropFrom_kept | apply dropQuiet_kept | apply distEnd_kept | apply storeNext_kept
      | apply KeptRes.of_next | intro _ | split | refine Kept.set_vq ?_ (.of_eq rfl) (hc := ?_)

end Sys2Proof.Safety
end

