-- ==== Sys2Proof/Laws/KeptMonitors.lean ====
section
/-! SUPPORT. What the definitions of Machine/Monitors.lean keep: one lemma per definition, from any earlier state. -/

namespace Sys2Proof.Safety

-- The lemmas of this file are checked one after another, with few threads at a time.
set_option Elab.async false

open Sys2Proof.Machine

theorem paceBand_kept {cv : List Block} {s0 : State} (i : Nat) (s : State) (hk0 : Kept cv s0 s)
    (hc : covers [.mon, .hst, .flt, .out] cv = true := by exact covers_le (by assumption) rfl) :
    Kept cv s0 (paceBand i s) := by
  unfold paceBand
  repeat' first
    | exact covers_le hc rfl
    | with_reducible first
      | assumption | refine note_kept _ _ ?_ (hc := ?_) (hd := by with_unfolding_all rfl) | split
      | refine Kept.set_mon ?_ (hc := ?_)

theorem markFailed_kept {cv : List Block} {s0 : State} (kind n : Nat) (s : State) (hk0 : Kept cv s0 s)
    (hc : covers [.uni, .mon, .pwr, .hst, .eng, .opq, .lif, .flt, .out] cv = true := by exact covers_le (by assumption) rfl) :
    Kept cv s0 (markFailed kind n s) := by
  unfold markFailed
  repeat' first
    | exact covers_le hc rfl
    | with_reducible first
      | assumption | refine note_kept _ _ ?_ (hc := ?_) (hd := by with_unfolding_all rfl) | apply takeOut_kept | apply raise_kept
      | intro _ | split | refine Kept.set_mon ?_ (hc := ?_)

theorem conversion_kept {cv : List Block} {s0 : State} (kind n : Nat) (r : BitVec 16) (converted : Bool) (s : State) (hk0 : Kept cv s0 s)
    (hc : covers [.uni, .mon, .pwr, .hst, .eng, .opq, .lif, .flt, .out] cv = true := by exact covers_le (by assumption) rfl) :
    Kept cv s0 (conversion kind n r converted s) := by
  unfold conversion
  repeat' first
    | exact covers_le hc rfl
    | with_reducible first
      | assumption | apply markFailed_kept | apply paceBand_kept | split | refine Kept.set_mon ?_ (hc := ?_)

theorem execTempSensorConversion_kept {cv : List Block} {s0 : State} (n : Nat) (reading : BitVec 16) (converted : Bool) (s : State) (hk0 : Kept cv s0 s)
    (hc : covers [.uni, .mon, .pwr, .hst, .eng, .opq, .lif, .flt, .out] cv = true := by exact covers_le (by assumption) rfl) :
    KeptRes cv s0 (execTempSensorConversion n reading converted s) := by
  unfold execTempSensorConversion
  repeat' first
    | exact covers_le hc rfl
    | with_reducible first
      | assumption | apply conversion_kept | apply KeptRes.of_next

theorem execVoltageMonitorConversion_kept {cv : List Block} {s0 : State} (n : Nat) (reading : BitVec 16) (converted : Bool) (s : State) (hk0 : Kept cv s0 s)
    (hc : covers [.uni, .mon, .pwr, .hst, .eng, .opq, .lif, .flt, .out] cv = true := by exact covers_le (by assumption) rfl) :
    KeptRes cv s0 (execVoltageMonitorConversion n reading converted s) := by
  unfold execVoltageMonitorConversion
  repeat' first
    | exact covers_le hc rfl
    | with_reducible first
      | assumption | apply conversion_kept | apply KeptRes.of_next

theorem execPacerWindow_kept {cv : List Block} {s0 : State} (n : Nat) (pace : BitVec 16) (converted : Bool) (s : State) (hk0 : Kept cv s0 s)
    (hc : covers [.uni, .mon, .pwr, .hst, .eng, .opq, .lif, .flt, .out] cv = true := by exact covers_le (by assumption) rfl) :
    KeptRes cv s0 (execPacerWindow n pace converted s) := by
  unfold execPacerWindow
  repeat' first
    | exact covers_le hc rfl
    | with_reducible first
      | assumption | apply conversion_kept | apply KeptRes.of_next

theorem execMonTimebaseReadLow_kept {cv : List Block} {s0 : State} (rq : Requester) (s : State) (hk0 : Kept cv s0 s)
    (hc : covers [.mon, .out] cv = true := by exact covers_le (by assumption) rfl) :
    KeptRes cv s0 (execMonTimebaseReadLow rq s) := by
  unfold execMonTimebaseReadLow
  repeat' first
    | exact covers_le hc rfl
    | with_reducible first
      | assumption | apply emit_kept | apply KeptRes.of_next | refine Kept.set_mon ?_ (hc := ?_)

theorem monCtl_kept {cv : List Block} {s0 : State} (val : Word) (s : State) (hk0 : Kept cv s0 s)
    (hc : covers [.mon, .pwr] cv = true := by exact covers_le (by assumption) rfl) :
    Kept cv s0 (monCtl val s) := by
  unfold monCtl
  repeat' first
    | exact covers_le hc rfl
    | with_reducible first
      | assumption | split | refine Kept.set_mon_pwr ?_ (hc := ?_)

theorem execMonCtlWrite_kept {cv : List Block} {s0 : State} (val : Word) (s : State) (hk0 : Kept cv s0 s)
    (hc : covers [.mon, .pwr] cv = true := by exact covers_le (by assumption) rfl) :
    KeptRes cv s0 (execMonCtlWrite val s) := by
  unfold execMonCtlWrite
  repeat' first
    | exact covers_le hc rfl
    | with_reducible first
      | assumption | apply monCtl_kept | apply KeptRes.of_next

end Sys2Proof.Safety
end

