-- ==== Sys2Proof/Laws/KeptStartup.lean ====
section
/-! SUPPORT. What the definitions of Machine/Startup.lean keep: one lemma per definition, from any earlier state. -/

namespace Sys2Proof.Safety

-- The lemmas of this file are checked one after another, with few threads at a time.
set_option Elab.async false

open Sys2Proof.Machine

theorem powerGone_kept {cv : List Block} {s0 : State} (s : State) (hk0 : Kept cv s0 s)
    (hc : covers [.uni, .fus, .vq, .mon, .pwr, .hst, .mbx, .ext, .cdc, .drt, .hrd, .wrn, .eng, .opq, .lif, .flt, .out, .free] cv = true := by exact covers_le (by assumption) rfl) :
    Kept cv s0 (powerGone s) := by
  unfold powerGone
  exact Kept.upd (Kept.foldl hk0 fun _ _ h => writeRec_kept _ _ h) ⟨fun _ => rfl, fun _ _ h => h⟩ ⟨fun _ => rfl⟩ ⟨fun _ => rfl⟩
    ⟨fun _ _ hp => by cases hp⟩

theorem noEngines_kept {cv : List Block} {s0 : State} (s : State) (hk0 : Kept cv s0 s)
    (hc : covers [.pwr, .hst, .ext, .cdc, .drt, .hrd, .wrn, .eng, .opq, .flt, .out] cv = true := by exact covers_le (by assumption) rfl) :
    Kept cv s0 (noEngines s) := by
  unfold noEngines
  repeat' first
    | exact covers_le hc rfl
    | with_reducible first
      | assumption | apply endOp_kept | apply Kept.foldl | apply Kept.foldl_fst | intro _ | split

theorem withdrawEngine_kept {cv : List Block} {s0 : State} (e cause : Nat) (s : State) (hk0 : Kept cv s0 s)
    (hc : covers [.uni, .pwr, .hst, .ext, .cdc, .drt, .hrd, .wrn, .eng, .opq, .lif, .flt, .out] cv = true := by exact covers_le (by assumption) rfl) :
    Kept cv s0 (withdrawEngine e cause s) := by
  unfold withdrawEngine
  repeat' first
    | exact covers_le hc rfl
    | with_reducible first
      | assumption | refine note_kept _ _ ?_ (hc := ?_) (hd := by with_unfolding_all rfl) | apply takeOut_kept
      | apply onEngine_kept | apply noEngines_kept | intro _ | split

theorem withdrawBank_kept {cv : List Block} {s0 : State} (b cause : Nat) (s : State) (hk0 : Kept cv s0 s)
    (hc : covers [.uni, .pwr, .hst, .ext, .cdc, .drt, .hrd, .wrn, .eng, .opq, .lif, .flt, .out] cv = true := by exact covers_le (by assumption) rfl) :
    Kept cv s0 (withdrawBank b cause s) := by
  unfold withdrawBank
  repeat' first
    | exact covers_le hc rfl
    | with_reducible first
      | assumption | apply withdrawEngine_kept | apply takeOut_kept | apply raise_kept | split | refine Kept.set_uni ?_ (hc := ?_)

theorem replaceRow_kept {cv : List Block} {s0 : State} (b row cause : Nat) (s : State) (hk0 : Kept cv s0 s)
    (hc : covers [.uni, .pwr, .hst, .ext, .cdc, .drt, .hrd, .wrn, .eng, .opq, .lif, .flt, .out] cv = true := by exact covers_le (by assumption) rfl) :
    Kept cv s0 (replaceRow b row cause s) := by
  unfold replaceRow
  repeat' first
    | exact covers_le hc rfl
    | with_reducible first
      | assumption | apply checkLevels_kept | apply withdrawBank_kept | split | refine Kept.set_uni ?_ (hc := ?_)

theorem codecLost_kept {cv : List Block} {s0 : State} (i : Nat) (s : State) (hk0 : Kept cv s0 s)
    (hc : covers [.uni, .pwr, .hst, .eng, .opq, .flt, .out] cv = true := by exact covers_le (by assumption) rfl) :
    Kept cv s0 (codecLost i s) := by
  unfold codecLost
  dsimp only
  repeat' first
    | exact covers_le hc rfl
    | with_reducible first
      | assumption | refine note_kept _ _ ?_ (hc := ?_) (hd := by with_unfolding_all rfl) | apply raise_kept | apply linkDown_kept
      | apply Kept.foldl | apply Kept.foldl_fst | intro _ | split

theorem codecTakeover_kept {cv : List Block} {s0 : State} (phys cause : Nat) (s : State) (hk0 : Kept cv s0 s)
    (hc : covers [.uni, .pwr, .hst, .cdc, .eng, .opq, .lif, .flt, .out] cv = true := by exact covers_le (by assumption) rfl) :
    Kept cv s0 (codecTakeover phys cause s) := by
  unfold codecTakeover
  repeat' first
    | exact covers_le hc rfl
    | with_reducible first
      | assumption | apply takeOut_kept | apply codecLost_kept | intro _ | split | refine Kept.set_cdc ?_ (hc := ?_)

theorem coreTakeover_kept {cv : List Block} {s0 : State} (phys cause : Nat) (s : State) (hk0 : Kept cv s0 s)
    (hc : covers [.uni, .pwr, .hst, .eng, .opq, .lif, .flt, .out] cv = true := by exact covers_le (by assumption) rfl) :
    Kept cv s0 (coreTakeover phys cause s) := by
  unfold coreTakeover
  repeat' first
    | exact covers_le hc rfl
    | with_reducible first
      | assumption | apply takeOut_kept | apply raise_kept | intro _ | split | refine Kept.set_uni ?_ (hc := ?_)

theorem phaseOver_kept {cv : List Block} {s0 : State} (n : Nat) (s : State) (hk0 : Kept cv s0 s)
    (hc : covers [.uni, .pwr, .hst, .eng, .opq, .flt, .out] cv = true := by exact covers_le (by assumption) rfl) :
    Kept cv s0 (phaseOver n s) := by
  unfold phaseOver
  repeat' first
    | exact covers_le hc rfl
    | with_reducible first
      | assumption | apply raise_kept | split | refine Kept.set_uni ?_ (hc := ?_)

theorem pass_kept {cv : List Block} {s0 : State} (ns : Ns) (s : State) (hk0 : Kept cv s0 s)
    (hc : covers [.uni, .mon, .lif] cv = true := by exact covers_le (by assumption) rfl) :
    Kept cv s0 (pass ns s) :=
  Kept.upd hk0 (.refl _) (.of_eq rfl) (.of_eq rfl) (.of_eq rfl)

theorem inPhase_kept {cv : List Block} {s0 : State} (n : Nat) (env : StartEnv) (f : State → State) (s : State) (hf : ∀ u, Kept cv s0 u → Kept cv s0 (f u)) (hk0 : Kept cv s0 s)
    (hc : covers [.uni, .mon, .pwr, .hst, .eng, .opq, .lif, .flt, .out] cv = true := by exact covers_le (by assumption) rfl) :
    Kept cv s0 (inPhase n env f s) := by
  unfold inPhase
  repeat' first
    | exact covers_le hc rfl
    | with_reducible first
      | assumption | apply hf | apply pass_kept | apply phaseOver_kept | intro _ | split | refine Kept.set_uni ?_ (hc := ?_)

theorem phaseRails_kept {cv : List Block} {s0 : State} (s : State) (hk0 : Kept cv s0 s)
    (hc : covers [.pwr] cv = true := by exact covers_le (by assumption) rfl) :
    Kept cv s0 (phaseRails s) := by
  unfold phaseRails
  repeat' first
    | exact covers_le hc rfl
    | with_reducible first
      | assumption | intro _ | refine Kept.set_pwr ?_ (hc := ?_)

theorem readFuses_words {g : Nat → FuseWord → FuseWord} (hg : ∀ w x, (g w x).bits = x.bits) (l : List Nat) (t : Tbl FuseWord) (v : Nat) :
    (tget {} (l.foldl (fun t w => tset w (g w (tget {} t w)) t) t) v).bits = (tget {} t v).bits := by
  induction l generalizing t with
  | nil => rfl
  | cons w r ih =>
    rw [List.foldl_cons, ih]
    by_cases e : v = w
    · subst e; rw [tget_tset_same, hg]
    · rw [tget_tset_other _ e]

theorem readFuses_kept {b0 : Fus} (env : StartEnv) (n : Nat) (f : Fus) (hk0 : FusKept b0 f) : FusKept b0 (readFuses env n f) := by
  unfold readFuses
  extract_lets cs bs reading ws g e
  refine hk0.trans ⟨id, fun w i h => ?_⟩
  have := readFuses_words (g := reading) (fun _ _ => rfl) (bs ++ cs) f.words w
  unfold fuseBits at *
  exact this ▸ h

theorem phaseRoot_kept {cv : List Block} {s0 : State} (env : StartEnv) (s : State) (hk0 : Kept cv s0 s)
    (hc : covers [.uni, .fus, .vq, .mon, .pwr, .hst, .mbx, .ext, .cdc, .drt, .hrd, .wrn, .eng, .opq, .lif, .flt, .out, .free] cv = true := by exact covers_le (by assumption) rfl) :
    Kept cv s0 (phaseRoot env s) := by
  unfold phaseRoot
  have h1 : Kept cv s0 (draw { s with fus := readFuses env s.free s.fus }) :=
    draw_kept _ (Kept.upd hk0 (readFuses_kept _ _ _ (.refl _)) (.of_eq rfl) (.of_eq rfl) (.of_eq rfl))
  generalize draw { s with fus := readFuses env s.free s.fus } = s1 at h1
  extract_lets cs sa bad sb sc
  have h2 : Kept cv s0 sb := Kept.foldl h1 fun _ _ h => note_kept _ _ h
  have h3 : Kept cv s0 sc := Kept.foldl h2 fun _ _ h => note_kept _ _ h
  split
  · exact enterFaulted_kept _ _ h3
  · split
    · exact powerGone_kept _ (moveTo_kept _ _ _ _ h3)
    · split
      · exact h3
      · exact enterFaulted_kept _ _ (noteGen_kept _ _ _ _ h3)

theorem slowElement_kept {cv : List Block} {s0 : State} (e : RepairEntry) (s : State) (hk0 : Kept cv s0 s)
    (hc : covers [.uni, .pwr, .hst, .ext, .cdc, .drt, .hrd, .wrn, .eng, .opq, .lif, .flt, .out] cv = true := by exact covers_le (by assumption) rfl) :
    Kept cv s0 (slowElement e s) := by
  unfold slowElement
  repeat' first
    | exact covers_le hc rfl
    | with_reducible first
      | assumption | apply replaceRow_kept | apply takeOut_kept | split | refine Kept.set_uni ?_ (hc := ?_)

theorem testResult_kept {cv : List Block} {s0 : State} (env : StartEnv) (e : RepairEntry) (s : State) (hk0 : Kept cv s0 s)
    (hc : covers [.uni, .pwr, .hst, .ext, .cdc, .drt, .hrd, .wrn, .eng, .opq, .lif, .flt, .out] cv = true := by exact covers_le (by assumption) rfl) :
    Kept cv s0 (testResult env e s) := by
  unfold testResult
  repeat' first
    | exact covers_le hc rfl
    | with_reducible first
      | assumption | apply replaceRow_kept | apply takeOut_kept | apply slowElement_kept | split

theorem phaseRepair_kept {cv : List Block} {s0 : State} (env : StartEnv) (s : State) (hk0 : Kept cv s0 s)
    (hc : covers [.uni, .mon, .pwr, .hst, .ext, .cdc, .drt, .hrd, .wrn, .eng, .opq, .lif, .flt, .out] cv = true := by exact covers_le (by assumption) rfl) :
    Kept cv s0 (phaseRepair env s) := by
  unfold phaseRepair
  extract_lets words s1 clear fm field first rest a1 a2 s2 s3 s4 s4a s5 tests s6 s7 a3 a4 s8 s9 s10
  have h1 : Kept cv s0 s1 := Kept.foldl hk0 fun _ _ h => noteGen_kept _ _ _ _ h
  have h2 : Kept cv s0 s2 := Kept.upd h1 (.refl _) (.of_eq rfl) (.of_eq rfl) (.of_eq rfl)
  clear_value s2
  have h3 : Kept cv s0 s3 := Kept.foldl h2 fun _ _ h => replaceRow_kept _ _ _ _ h
  clear_value s3
  have h4 : Kept cv s0 s4 := Kept.foldl h3 fun _ _ h => markFailed_kept _ _ _ h
  clear_value s4
  have h4a : Kept cv s0 s4a := Kept.foldl h4 fun _ _ h => markFailed_kept _ _ _ h
  clear_value s4a
  have h5 : Kept cv s0 s5 := Kept.foldl h4a fun _ _ h => by
    split
    · exact takeOut_kept _ _ _ (markFailed_kept _ _ _ h)
    · exact h
  clear_value s5
  have h6 : Kept cv s0 s6 := Kept.foldl h5 fun _ _ h => testResult_kept _ _ _ h
  clear_value s6
  have h7 : Kept cv s0 s7 := Kept.foldl h6 fun _ _ h => by
    split
    · exact onEngine_kept _ _ _ h
    · split
      · exact withdrawEngine_kept _ _ _ h
      · exact h
  clear_value s7
  have h8 : Kept cv s0 s8 := Kept.upd h7 (.refl _) (.of_eq rfl) (.of_eq rfl) (.of_eq rfl)
  clear_value s8
  have h9 : Kept cv s0 s9 := by
    dsimp only [s9]
    split
    · exact raise_kept _ _ h8
    · exact h8
  have h10 : Kept cv s0 s10 := checkLevels_kept _ _ h9
  clear_value s10
  split
  · exact enterFaulted_kept _ _ (raise_kept _ _ h10)
  · exact h10

theorem adopt_kept {cv : List Block} {s0 : State} (m : Image) (which : Nat) (s : State) (hk0 : Kept cv s0 s)
    (hc : covers [.uni, .vq] cv = true := by exact covers_le (by assumption) rfl) :
    Kept cv s0 (adopt m which s) := by
  unfold adopt
  repeat' first
    | exact covers_le hc rfl
    | with_reducible first
      | assumption | split | refine Kept.set_uni_vq ?_ (.of_eq rfl) (hc := ?_)

theorem noImage_kept {cv : List Block} {s0 : State} (env : StartEnv) (cur next : Nat) (s : State) (hk0 : Kept cv s0 s)
    (hc : covers [.uni, .vq, .pwr, .hst, .mbx, .eng, .opq, .flt, .out] cv = true := by exact covers_le (by assumption) rfl) :
    Kept cv s0 (noImage env cur next s) := by
  unfold noImage
  repeat' first
    | exact covers_le hc rfl
    | with_reducible first
      | assumption | apply raise_kept | apply linkUp_kept | intro _ | split | refine Kept.set_uni_vq ?_ (.of_eq rfl) (hc := ?_)

theorem phaseImage_kept {cv : List Block} {s0 : State} (env : StartEnv) (s : State) (hk0 : Kept cv s0 s)
    (hc : covers [.uni, .vq, .pwr, .hst, .mbx, .eng, .opq, .flt, .out] cv = true := by exact covers_le (by assumption) rfl) :
    Kept cv s0 (phaseImage env s) := by
  unfold phaseImage
  repeat' first
    | exact covers_le hc rfl
    | with_reducible first
      | assumption | refine note_kept _ _ ?_ (hc := ?_) (hd := by with_unfolding_all rfl) | apply mailboxStart_kept | apply adopt_kept
      | apply noImage_kept | split | refine Kept.set_uni_vq ?_ (.of_eq rfl) (hc := ?_)

theorem codecShort_kept {cv : List Block} {s0 : State} (s : State) (hk0 : Kept cv s0 s)
    (hc : covers [.uni, .pwr, .hst, .eng, .opq, .flt, .out] cv = true := by exact covers_le (by assumption) rfl) :
    Kept cv s0 (codecShort s) := by
  unfold codecShort
  repeat' first
    | exact covers_le hc rfl
    | with_reducible first
      | assumption | apply codecLost_kept | apply Kept.foldl | apply Kept.foldl_fst | intro _ | split

theorem phaseDram_kept {cv : List Block} {s0 : State} (env : StartEnv) (s : State) (hk0 : Kept cv s0 s)
    (hc : covers [.uni, .pwr, .hst, .drt, .eng, .opq, .lif, .flt, .out] cv = true := by exact covers_le (by assumption) rfl) :
    Kept cv s0 (phaseDram env s) := by
  unfold phaseDram
  extract_lets out sa working asked
  have ha : Kept cv s0 sa := Kept.foldl hk0 fun _ _ h => takeOut_kept _ _ _ h
  clear_value sa
  split
  · exact raise_kept _ _ (Kept.upd ha (.refl _) (.of_eq rfl) (.of_eq rfl) (.of_eq rfl))
  · next c _ =>
    have hd : DrtKept sa.drt (setSids sa.vq.active (me sa) working c { tier := [] }) :=
      ⟨fun _ => (setSids_kept sa.vq.active (me sa) working c { tier := [] } (.of_eq rfl)).tier rfl⟩
    generalize setSids sa.vq.active (me sa) working c { tier := [] } = d at hd
    extract_lets d1 d2 sb rate d3 sc sd
    have hb : Kept cv s0 sb := Kept.upd ha (.refl _) (.of_eq rfl) (hd.trans (.of_eq rfl)) (.of_eq rfl)
    have hc : Kept cv s0 sc := Kept.upd hb (.refl _) (.of_eq rfl) (.of_eq rfl) (.of_eq rfl)
    have he : Kept cv s0 sd := by
      dsimp only [sd]
      split
      · exact note_kept _ _ hc
      · exact hc
    exact checkLevels_kept _ _ he

theorem poolsAtStart_kept {cv : List Block} {s0 : State} (env : StartEnv) (s : State) (hk0 : Kept cv s0 s)
    (hc : covers [.uni, .pwr, .hst, .eng, .opq, .flt, .out] cv = true := by exact covers_le (by assumption) rfl) :
    Kept cv s0 (poolsAtStart env s) := by
  unfold poolsAtStart
  repeat' first
    | exact covers_le hc rfl
    | with_reducible first
      | assumption | apply raise_kept | intro _ | split | refine Kept.set_uni ?_ (hc := ?_)

theorem loadTime_kept {cv : List Block} {s0 : State} (t : Ns) (own : Bool) (s : State) (hk0 : Kept cv s0 s)
    (hc : covers [.mon, .hst, .lif, .pnl, .flt, .out] cv = true := by exact covers_le (by assumption) rfl) :
    Kept cv s0 (loadTime t own s) := by
  unfold loadTime
  repeat' first
    | exact covers_le hc rfl
    | with_reducible first
      | assumption | refine note_kept _ _ ?_ (hc := ?_) (hd := by with_unfolding_all rfl) | split
      | refine Kept.set_lif ?_ (hc := ?_) | refine Kept.set_mon_pnl ?_ (hc := ?_)

theorem trainPorts_kept {cv : List Block} {s0 : State} (env : StartEnv) (s : State) (hk0 : Kept cv s0 s)
    (hc : covers [.uni, .mon, .pwr, .hst, .mbx, .ext, .cdc, .drt, .hrd, .wrn, .lif, .flt, .out] cv = true := by exact covers_le (by assumption) rfl) :
    Kept cv s0 (trainPorts env s) := by
  unfold trainPorts
  repeat' first
    | exact covers_le hc rfl
    | with_reducible first
      | assumption | apply takeHello_kept | apply trainPort_kept | apply Kept.foldl | apply Kept.foldl_fst | intro _ | split

theorem phaseWarren_kept {cv : List Block} {s0 : State} (env : StartEnv) (s : State) (hk0 : Kept cv s0 s)
    (hc : covers [.uni, .mon, .pwr, .hst, .mbx, .ext, .cdc, .drt, .hrd, .wrn, .eng, .opq, .lif, .pnl, .flt, .out] cv = true := by exact covers_le (by assumption) rfl) :
    Kept cv s0 (phaseWarren env s) := by
  unfold phaseWarren
  repeat' first
    | exact covers_le hc rfl
    | with_reducible first
      | assumption | apply trainPorts_kept | apply pass_kept | apply reachUpdate_kept | apply loadTime_kept | apply raise_kept
      | split | refine Kept.set_uni_lif ?_ (hc := ?_)

theorem phaseHoard_kept {cv : List Block} {s0 : State} (env : StartEnv) (s : State) (hk0 : Kept cv s0 s)
    (hc : covers [.uni, .pwr, .hst, .mbx, .ext, .cdc, .drt, .hrd, .wrn, .eng, .opq, .lif, .flt, .out] cv = true := by exact covers_le (by assumption) rfl) :
    Kept cv s0 (phaseHoard env s) := by
  unfold phaseHoard
  repeat' first
    | exact covers_le hc rfl
    | with_reducible first
      | assumption | apply mountDrey_kept | apply classBay_kept | apply moveExtent_kept | apply onExtent_kept
      | apply checkLevels_kept | apply fillPinned_kept | apply takeSlots_kept | apply Kept.foldl | apply Kept.foldl_fst | intro _
      | split | refine Kept.set_ext ?_ (hc := ?_) | refine Kept.set_hrd ?_ (hc := ?_)

theorem phaseHost_kept {cv : List Block} {s0 : State} (env : StartEnv) (s : State) (hk0 : Kept cv s0 s)
    (hc : covers [.pwr, .hst, .mbx, .flt, .out] cv = true := by exact covers_le (by assumption) rfl) :
    Kept cv s0 (phaseHost env s) := by
  unfold phaseHost
  repeat' first
    | exact covers_le hc rfl
    | with_reducible first
      | assumption | apply linkUp_kept | apply Kept.foldl | apply Kept.foldl_fst | intro _

theorem startEnd_kept {cv : List Block} {s0 : State} (s : State) (hk0 : Kept cv s0 s)
    (hc : covers [.uni, .vq, .pwr, .hst, .mbx, .ext, .cdc, .drt, .hrd, .wrn, .eng, .opq, .flt, .out, .free] cv = true := by exact covers_le (by assumption) rfl) :
    Kept cv s0 (startEnd s) := by
  unfold startEnd
  repeat' first
    | exact covers_le hc rfl
    | with_reducible first
      | assumption | apply moveTo_kept | apply homeInit_kept | apply wake_kept | apply offersGo_kept | apply kmGo_kept
      | apply coordRestart_kept | apply Kept.foldl | apply Kept.foldl_fst | intro _ | split | refine Kept.set_uni ?_ (hc := ?_)
      | refine Kept.set_uni_flt ?_ (hc := ?_)

theorem startTail_kept {cv : List Block} {s0 : State} (env : StartEnv) (s : State) (hk0 : Kept cv s0 s)
    (hc : covers [.uni, .vq, .mon, .pwr, .hst, .mbx, .ext, .cdc, .drt, .hrd, .wrn, .eng, .opq, .lif, .flt, .out, .free] cv = true := by exact covers_le (by assumption) rfl) :
    Kept cv s0 (startTail env s) := by
  unfold startTail
  repeat' first
    | exact covers_le hc rfl
    | with_reducible first
      | assumption | apply startEnd_kept | apply inPhase_kept | apply phaseHost_kept | apply phaseHoard_kept | intro _

theorem startSix_kept {cv : List Block} {s0 : State} (env : StartEnv) (s : State) (hk0 : Kept cv s0 s)
    (hc : covers [.uni, .vq, .mon, .pwr, .hst, .mbx, .ext, .cdc, .drt, .hrd, .wrn, .eng, .opq, .lif, .pnl, .flt, .out, .free] cv = true := by exact covers_le (by assumption) rfl) :
    Kept cv s0 (startSix env s) := by
  unfold startSix
  repeat' first
    | exact covers_le hc rfl
    | with_reducible first
      | assumption | apply inPhase_kept | apply phaseDram_kept | apply phaseOver_kept | apply phaseWarren_kept | apply pass_kept
      | apply startTail_kept | intro _ | ((fail_if_no_progress (extract_lets +onlyGivenNames x)); clear_value x) | split
      | refine Kept.set_uni ?_ (hc := ?_)

theorem startFrom_kept {cv : List Block} {s0 : State} (env : StartEnv) (s : State) (hk0 : Kept cv s0 s)
    (hc : covers [.uni, .vq, .mon, .pwr, .hst, .mbx, .ext, .cdc, .drt, .hrd, .wrn, .eng, .opq, .lif, .pnl, .flt, .out, .free] cv = true := by exact covers_le (by assumption) rfl) :
    Kept cv s0 (startFrom env s) := by
  unfold startFrom
  repeat' first
    | exact covers_le hc rfl
    | with_reducible first
      | assumption | apply inPhase_kept | apply phaseImage_kept | apply startSix_kept | apply codecShort_kept
      | apply poolsAtStart_kept | intro _ | split

theorem execColdStart_kept {cv : List Block} {s0 : State} (env : StartEnv) (s : State) (hk0 : Kept cv s0 s)
    (hc : covers [.uni, .fus, .vq, .mon, .pwr, .hst, .mbx, .ext, .cdc, .drt, .hrd, .wrn, .eng, .opq, .lif, .pnl, .flt, .out, .free] cv = true := by exact covers_le (by assumption) rfl) :
    KeptRes cv s0 (execColdStart env s) := by
  unfold execColdStart
  extract_lets
  split
  · exact .of_next hk0
  · split
    · exact .of_next (startFrom_kept _ _ (Kept.upd hk0 (.refl _) (.of_eq rfl) ⟨fun _ => rfl⟩ (.of_eq rfl)))
    · have h2 := fun (u : State) (h : Kept cv s0 u) =>
        inPhase_kept 2 env (phaseRoot env) _ (fun _ h => phaseRoot_kept _ _ h)
          (inPhase_kept 1 env phaseRails _ (fun _ h => phaseRails_kept _ h) h)
      split
      · exact .of_next (h2 _ (Kept.upd (Kept.upd hk0 (.refl _) (.of_eq rfl) (.of_eq rfl) (.of_eq rfl)) (.refl _) (.of_eq rfl) (.of_eq rfl) (.of_eq rfl)))
      · refine .of_next (startFrom_kept _ _ (inPhase_kept _ _ _ _ (fun _ h => phaseRepair_kept _ _ h)
          (inPhase_kept _ _ _ _ (fun _ h => h) (h2 _ (Kept.upd (Kept.upd hk0 (.refl _) (.of_eq rfl) (.of_eq rfl) (.of_eq rfl)) (.refl _) (.of_eq rfl) (.of_eq rfl) (.of_eq rfl))))))

theorem timeFound_kept {cv : List Block} {s0 : State} (t : Ns) (own : Bool) (s : State) (hk0 : Kept cv s0 s)
    (hc : covers [.uni, .vq, .mon, .pwr, .hst, .mbx, .ext, .cdc, .drt, .hrd, .wrn, .eng, .opq, .lif, .pnl, .flt, .out, .free] cv = true := by exact covers_le (by assumption) rfl) :
    Kept cv s0 (timeFound t own s) := by
  unfold timeFound
  repeat' first
    | exact covers_le hc rfl
    | with_reducible first
      | assumption | apply loadTime_kept | apply startTail_kept | apply reachUpdate_kept | apply moveTo_kept | split
      | refine Kept.set_uni ?_ (hc := ?_) | refine Kept.set_uni_lif_flt ?_ (hc := ?_)

theorem execPhaseBound_kept {cv : List Block} {s0 : State} (phase : Nat) (s : State) (hk0 : Kept cv s0 s)
    (hc : covers [.uni, .pwr, .hst, .eng, .opq, .flt, .out] cv = true := by exact covers_le (by assumption) rfl) :
    KeptRes cv s0 (execPhaseBound phase s) := by
  unfold execPhaseBound
  repeat' first
    | exact covers_le hc rfl
    | with_reducible first
      | assumption | apply phaseOver_kept | apply KeptRes.of_next | split

theorem engineTest_kept {cv : List Block} {s0 : State} (e : Nat) (cols : List Nat) (s : State) (hk0 : Kept cv s0 s)
    (hc : covers [.uni, .mon, .eng, .lif] cv = true := by exact covers_le (by assumption) rfl) :
    Kept cv s0 (engineTest e cols s) := by
  unfold engineTest
  repeat' first
    | exact covers_le hc rfl
    | with_reducible first
      | assumption | apply pass_kept | apply onEngine_kept | intro _ | split | refine Kept.set_eng ?_ (hc := ?_)

theorem execEngineKatTimer_kept {cv : List Block} {s0 : State} (engine : Nat) (failed : List Nat) (s : State) (hk0 : Kept cv s0 s)
    (hc : covers [.uni, .mon, .eng, .lif] cv = true := by exact covers_le (by assumption) rfl) :
    KeptRes cv s0 (execEngineKatTimer engine failed s) := by
  unfold execEngineKatTimer
  repeat' first
    | exact covers_le hc rfl
    | with_reducible first
      | assumption | apply engineTest_kept | apply KeptRes.of_next | split

theorem engKat_kept {cv : List Block} {s0 : State} (run pass : BitVec 4) (s : State) (hk0 : Kept cv s0 s)
    (hc : covers [.uni, .mon, .eng, .lif, .free] cv = true := by exact covers_le (by assumption) rfl) :
    Kept cv s0 (engKat run pass s) := by
  unfold engKat
  repeat' first
    | exact covers_le hc rfl
    | with_reducible first
      | assumption | apply pass_kept | apply engineTest_kept | apply draw_kept | apply Kept.foldl | apply Kept.foldl_fst | intro _
      | split | refine Kept.set_eng ?_ (hc := ?_)

theorem execEngKatRun_kept {cv : List Block} {s0 : State} (run : BitVec 4) (pass : BitVec 4) (s : State) (hk0 : Kept cv s0 s)
    (hc : covers [.uni, .mon, .eng, .lif, .free] cv = true := by exact covers_le (by assumption) rfl) :
    KeptRes cv s0 (execEngKatRun run pass s) := by
  unfold execEngKatRun
  repeat' first
    | exact covers_le hc rfl
    | with_reducible first
      | assumption | apply engKat_kept | apply pass_kept | apply KeptRes.of_next

theorem execCodecKatTimer_kept {cv : List Block} {s0 : State} (phys : Nat) (pass : Bool) (s : State) (hk0 : Kept cv s0 s)
    (hc : covers [.uni, .mon, .pwr, .hst, .cdc, .eng, .opq, .lif, .flt, .out] cv = true := by exact covers_le (by assumption) rfl) :
    KeptRes cv s0 (execCodecKatTimer phys pass s) := by
  unfold execCodecKatTimer
  repeat' first
    | exact covers_le hc rfl
    | with_reducible first
      | assumption | apply pass_kept | apply codecTakeover_kept | apply KeptRes.of_next | split

theorem stagingRowLost_kept {cv : List Block} {s0 : State} (s : State) (hk0 : Kept cv s0 s)
    (hc : covers [.hst, .cdc, .flt, .out, .free] cv = true := by exact covers_le (by assumption) rfl) :
    Kept cv s0 (stagingRowLost s) := by
  unfold stagingRowLost
  repeat' first
    | exact covers_le hc rfl
    | with_reducible first
      | assumption | refine noteGen_kept _ _ _ _ ?_ (hc := ?_) (hd := by with_unfolding_all rfl) | apply draw_kept | split
      | refine Kept.set_cdc ?_ (hc := ?_)

theorem rowContents_kept {cv : List Block} {s0 : State} (b : Nat) (uncorrectable mirrorOk : Bool) (s : State) (hk0 : Kept cv s0 s)
    (hc : covers [.pwr, .hst, .mbx, .ext, .cdc, .drt, .hrd, .wrn, .eng, .opq, .flt, .out, .free] cv = true := by exact covers_le (by assumption) rfl) :
    Kept cv s0 (rowContents b uncorrectable mirrorOk s) := by
  unfold rowContents
  repeat' first
    | exact covers_le hc rfl
    | with_reducible first
      | assumption | apply stagingRowLost_kept | apply filterLost_kept | split

theorem execSramRowError_kept {cv : List Block} {s0 : State} (bank row : Nat) (uncorrectable mirrorOk : Bool) (s : State) (hk0 : Kept cv s0 s)
    (hc : covers [.uni, .pwr, .hst, .mbx, .ext, .cdc, .drt, .hrd, .wrn, .eng, .opq, .lif, .flt, .out, .free] cv = true := by exact covers_le (by assumption) rfl) :
    KeptRes cv s0 (execSramRowError bank row uncorrectable mirrorOk s) := by
  unfold execSramRowError
  dsimp only
  repeat' first
    | exact covers_le hc rfl
    | with_reducible first
      | assumption | apply takeOut_kept | apply replaceRow_kept | apply wake_kept | apply rowContents_kept | apply KeptRes.of_next
      | intro _ | split | refine Kept.set_uni ?_ (hc := ?_)

theorem execShrewCoreFailure_kept {cv : List Block} {s0 : State} (core : Nat) (s : State) (hk0 : Kept cv s0 s)
    (hc : covers [.uni, .pwr, .hst, .eng, .opq, .lif, .flt, .out] cv = true := by exact covers_le (by assumption) rfl) :
    KeptRes cv s0 (execShrewCoreFailure core s) := by
  unfold execShrewCoreFailure
  repeat' first
    | exact covers_le hc rfl
    | with_reducible first
      | assumption | apply coreTakeover_kept | apply KeptRes.of_next | split

theorem paceReplace_kept {cv : List Block} {s0 : State} (e : RepairEntry) (s : State) (hk0 : Kept cv s0 s)
    (hc : covers [.uni, .pwr, .hst, .ext, .cdc, .drt, .hrd, .wrn, .eng, .opq, .lif, .flt, .out] cv = true := by exact covers_le (by assumption) rfl) :
    Kept cv s0 (paceReplace e s) := by
  unfold paceReplace
  repeat' first
    | exact covers_le hc rfl
    | with_reducible first
      | assumption | apply codecTakeover_kept | apply coreTakeover_kept | apply replaceRow_kept | apply takeOut_kept
      | apply onEngine_kept | intro _ | split

theorem execPaceScan_kept {cv : List Block} {s0 : State} (slow : List RepairEntry) (s : State) (hk0 : Kept cv s0 s)
    (hc : covers [.uni, .pwr, .hst, .ext, .cdc, .drt, .hrd, .wrn, .eng, .opq, .lif, .flt, .out] cv = true := by exact covers_le (by assumption) rfl) :
    KeptRes cv s0 (execPaceScan slow s) := by
  unfold execPaceScan
  repeat' first
    | exact covers_le hc rfl
    | with_reducible first
      | assumption | apply paceReplace_kept | apply KeptRes.of_next | apply Kept.foldl | apply Kept.foldl_fst | intro _ | split
      | refine Kept.set_uni ?_ (hc := ?_)

theorem execEngineRepairComplete_kept {cv : List Block} {s0 : State} (engine : Nat) (s : State) (hk0 : Kept cv s0 s)
    (hc : covers [.uni, .pwr, .hst, .mbx, .ext, .cdc, .drt, .hrd, .wrn, .eng, .opq, .lif, .flt, .out, .free] cv = true := by exact covers_le (by assumption) rfl) :
    KeptRes cv s0 (execEngineRepairComplete engine s) := by
  unfold execEngineRepairComplete
  dsimp only
  repeat' first
    | exact covers_le hc rfl
    | with_reducible first
      | assumption | apply takeOut_kept | apply wake_kept | apply withdrawEngine_kept | apply engEpochAdvance_kept
      | apply onEngine_kept | apply KeptRes.of_next | apply Kept.foldl | apply Kept.foldl_fst | intro _ | split

theorem rwReset_kept {cv : List Block} {s0 : State} (s : State) (hk0 : Kept cv s0 s)
    (hc : covers [.fus, .vq, .mon, .pwr, .hst, .mbx, .ext, .cdc, .drt, .hrd, .wrn, .eng, .lif, .pnl, .flt, .out] cv = true := by exact covers_le (by assumption) rfl) :
    Kept cv s0 (rwReset s) := by
  unfold rwReset
  repeat' first
    | exact covers_le hc rfl
    | with_reducible first
      | assumption | apply maskWrite_kept | apply Kept.foldl | apply Kept.foldl_fst | intro _ | split
      | refine Kept.set_fus_vq_mon_pwr_hst_mbx_ext_cdc_drt_hrd_wrn_eng_lif_pnl_flt ?_ (.of_eq rfl rfl) (.of_eq rfl) (.of_eq rfl) (.of_eq rfl) (hc := ?_)

theorem restartLosses_kept {cv : List Block} {s0 : State} (s : State) (hk0 : Kept cv s0 s)
    (hc : covers [.fus, .vq, .mon, .pwr, .hst, .mbx, .ext, .cdc, .drt, .hrd, .wrn, .eng, .opq, .lif, .pnl, .flt, .out] cv = true := by exact covers_le (by assumption) rfl) :
    Kept cv s0 (restartLosses s) := by
  unfold restartLosses
  exact fwEpochAdvance_kept _ (rwReset_kept _ (abortOps_kept _ _ _ hk0))

theorem restartBegins_kept {cv : List Block} {s0 : State} (s : State) (hk0 : Kept cv s0 s)
    (hc : covers [.uni, .fus, .vq, .mon, .pwr, .hst, .mbx, .ext, .cdc, .drt, .hrd, .wrn, .eng, .opq, .lif, .flt, .out, .free] cv = true := by exact covers_le (by assumption) rfl) :
    Kept cv s0 (restartBegins s) :=
  flushRecords_kept _ (coordRestart_kept _ (draw_kept _
    (Kept.upd hk0 (.of_eq rfl rfl) ⟨fun _ => rfl⟩ (.of_eq rfl) (.of_eq rfl))))

theorem execFirmwareRestart_kept {cv : List Block} {s0 : State} (s : State) (hk0 : Kept cv s0 s)
    (hc : covers [.uni, .fus, .vq, .mon, .pwr, .hst, .mbx, .ext, .cdc, .drt, .hrd, .wrn, .eng, .opq, .lif, .pnl, .flt, .out, .free] cv = true := by exact covers_le (by assumption) rfl) :
    KeptRes cv s0 (execFirmwareRestart s) := by
  unfold execFirmwareRestart
  repeat' first
    | exact covers_le hc rfl
    | with_reducible first
      | assumption | apply restartBegins_kept | apply restartLosses_kept | apply KeptRes.of_next | split

theorem execFirmwareRestartComplete_kept {cv : List Block} {s0 : State} (s : State) (hk0 : Kept cv s0 s)
    (hc : covers [.uni, .vq, .pwr, .hst, .mbx, .ext, .cdc, .drt, .hrd, .wrn, .eng, .opq, .flt, .out, .free] cv = true := by exact covers_le (by assumption) rfl) :
    KeptRes cv s0 (execFirmwareRestartComplete s) := by
  unfold execFirmwareRestartComplete
  dsimp only
  repeat' first
    | exact covers_le hc rfl
    | with_reducible first
      | assumption | apply imageGone_kept | apply wake_kept | apply flushRecords_kept | apply KeptRes.of_next | split
      | refine Kept.set_uni ?_ (hc := ?_)

end Sys2Proof.Safety
end

