-- ==== Sys2Proof/Laws/KeptPower.lean ====
section
/-! SUPPORT. What the definitions of Machine/Power.lean keep: one lemma per definition, from any earlier state. -/

namespace Sys2Proof.Safety

-- The lemmas of this file are checked one after another, with few threads at a time.
set_option Elab.async false

open Sys2Proof.Machine

theorem setLevel_kept {cv : List Block} {s0 : State} (l : Nat) (s : State) (hk0 : Kept cv s0 s)
    (hc : covers [.pwr, .hst, .flt, .out] cv = true := by exact covers_le (by assumption) rfl) :
    Kept cv s0 (setLevel l s) := by
  unfold setLevel
  repeat' first
    | exact covers_le hc rfl
    | with_reducible first
      | assumption | refine note_kept _ _ ?_ (hc := ?_) (hd := by with_unfolding_all rfl) | split
      | refine Kept.set_pwr ?_ (hc := ?_)

theorem thermalLevel_kept {cv : List Block} {s0 : State} (s : State) (hk0 : Kept cv s0 s)
    (hc : covers [.pwr, .hst, .flt, .out] cv = true := by exact covers_le (by assumption) rfl) :
    Kept cv s0 (thermalLevel s) := by
  unfold thermalLevel
  repeat' first
    | exact covers_le hc rfl
    | with_reducible first
      | assumption | apply setLevel_kept | split | refine Kept.set_pwr ?_ (hc := ?_)

theorem islandsOff_kept {cv : List Block} {s0 : State} (l : List Nat) (s : State) (hk0 : Kept cv s0 s)
    (hc : covers [.pwr] cv = true := by exact covers_le (by assumption) rfl) :
    Kept cv s0 (islandsOff l s) := by
  unfold islandsOff
  repeat' first
    | exact covers_le hc rfl
    | with_reducible first
      | assumption | apply Kept.foldl | apply Kept.foldl_fst | intro _ | refine Kept.set_pwr ?_ (hc := ?_)

theorem tripCheck_kept {cv : List Block} {s0 : State} (s : State) (hk0 : Kept cv s0 s)
    (hc : covers [.uni, .pwr, .hst, .eng, .opq, .lif, .flt, .out] cv = true := by exact covers_le (by assumption) rfl) :
    Kept cv s0 (tripCheck s) := by
  unfold tripCheck
  repeat' first
    | exact covers_le hc rfl
    | with_reducible first
      | assumption | apply raise_kept | apply islandsOff_kept | split | refine Kept.set_pwr ?_ (hc := ?_)
      | refine Kept.set_pwr_lif ?_ (hc := ?_)

theorem dropRate_kept {cv : List Block} {s0 : State} (s : State) (hk0 : Kept cv s0 s)
    (hc : covers [.pwr, .drt] cv = true := by exact covers_le (by assumption) rfl) :
    Kept cv s0 (dropRate s) := by
  unfold dropRate
  repeat' first
    | exact covers_le hc rfl
    | with_reducible first
      | assumption | apply rateChange_kept | split | refine Kept.set_pwr ?_ (hc := ?_)

theorem restoreRate_kept {cv : List Block} {s0 : State} (s : State) (hk0 : Kept cv s0 s)
    (hc : covers [.pwr, .drt] cv = true := by exact covers_le (by assumption) rfl) :
    Kept cv s0 (restoreRate s) := by
  unfold restoreRate
  repeat' first
    | exact covers_le hc rfl
    | with_reducible first
      | assumption | apply rateChange_kept | intro _ | split | refine Kept.set_pwr ?_ (hc := ?_)

theorem heatRate_kept {cv : List Block} {s0 : State} (s : State) (hk0 : Kept cv s0 s)
    (hc : covers [.pwr, .drt] cv = true := by exact covers_le (by assumption) rfl) :
    Kept cv s0 (heatRate s) := by
  unfold heatRate
  repeat' first
    | exact covers_le hc rfl
    | with_reducible first
      | assumption | apply restoreRate_kept | apply dropRate_kept | apply rateChange_kept | intro _ | split
      | refine Kept.set_pwr ?_ (hc := ?_)

theorem heatLinks_kept {cv : List Block} {s0 : State} (s : State) (hk0 : Kept cv s0 s)
    (hc : covers [.pwr, .hst] cv = true := by exact covers_le (by assumption) rfl) :
    Kept cv s0 (heatLinks s) := by
  unfold heatLinks
  repeat' first
    | exact covers_le hc rfl
    | with_reducible first
      | assumption | apply linkRates_kept | split

theorem takePower_kept {cv : List Block} {s0 : State} (regs : List RegReading) (s : State) (hk0 : Kept cv s0 s)
    (hc : covers [.pwr, .free] cv = true := by exact covers_le (by assumption) rfl) :
    Kept cv s0 (takePower regs s) := by
  unfold takePower
  repeat' first
    | exact covers_le hc rfl
    | with_reducible first
      | assumption | apply draw_kept | intro _ | split | refine Kept.set_pwr ?_ (hc := ?_)

theorem execPowerControlTick_kept {cv : List Block} {s0 : State} (regs : List RegReading) (s : State) (hk0 : Kept cv s0 s)
    (hc : covers [.uni, .pwr, .hst, .drt, .eng, .opq, .lif, .flt, .out, .free] cv = true := by exact covers_le (by assumption) rfl) :
    KeptRes cv s0 (execPowerControlTick regs s) := by
  unfold execPowerControlTick
  repeat' first
    | exact covers_le hc rfl
    | with_reducible first
      | assumption | apply heatLinks_kept | apply heatRate_kept | apply tripCheck_kept | apply thermalLevel_kept | apply takePower_kept
      | apply KeptRes.of_next | intro _ | split | refine Kept.set_pwr ?_ (hc := ?_)

theorem execStackTempRead_kept {cv : List Block} {s0 : State} (stack : Nat) (temp : BitVec 16) (s : State) (hk0 : Kept cv s0 s)
    (hc : covers [.pwr, .drt] cv = true := by exact covers_le (by assumption) rfl) :
    KeptRes cv s0 (execStackTempRead stack temp s) := by
  unfold execStackTempRead
  repeat' first
    | exact covers_le hc rfl
    | with_reducible first
      | assumption | apply dropRate_kept | apply KeptRes.of_next | intro _ | split | refine Kept.set_drt ?_ (.of_eq rfl) (hc := ?_)
      | refine Kept.set_pwr ?_ (hc := ?_)

theorem toStandby_kept {cv : List Block} {s0 : State} (s : State) (hk0 : Kept cv s0 s)
    (hc : covers [.uni, .fus, .vq, .mon, .pwr, .hst, .mbx, .ext, .cdc, .drt, .hrd, .wrn, .eng, .opq, .lif, .flt, .out, .free] cv = true := by exact covers_le (by assumption) rfl) :
    Kept cv s0 (toStandby s) := by
  unfold toStandby
  repeat' first
    | exact covers_le hc rfl
    | with_reducible first
      | assumption | apply powerGone_kept | apply moveTo_kept

theorem execComparatorTrip_kept {cv : List Block} {s0 : State} (s : State) (hk0 : Kept cv s0 s)
    (hc : covers [.uni, .fus, .vq, .mon, .pwr, .hst, .mbx, .ext, .cdc, .drt, .hrd, .wrn, .eng, .opq, .lif, .flt, .out, .free] cv = true := by exact covers_le (by assumption) rfl) :
    KeptRes cv s0 (execComparatorTrip s) := by
  unfold execComparatorTrip
  repeat' first
    | exact covers_le hc rfl
    | with_reducible first
      | assumption | apply record_kept | apply toStandby_kept | apply KeptRes.of_next | split | refine Kept.set_lif ?_ (hc := ?_)

theorem execRegulatorFault_kept {cv : List Block} {s0 : State} (island : Nat) (status : Nat) (s : State) (hk0 : Kept cv s0 s)
    (hc : covers [.uni, .mon, .pwr, .hst, .mbx, .cdc, .drt, .hrd, .wrn, .eng, .opq, .flt, .out] cv = true := by exact covers_le (by assumption) rfl) :
    KeptRes cv s0 (execRegulatorFault island status s) := by
  unfold execRegulatorFault
  repeat' first
    | exact covers_le hc rfl
    | with_reducible first
      | assumption | apply raise_kept | apply islandsOff_kept | apply linkDown_kept | apply portDown_kept | apply KeptRes.of_next
      | apply Kept.foldl | apply Kept.foldl_fst | intro _ | split

theorem toOff_kept {cv : List Block} {s0 : State} (s : State) (hk0 : Kept cv s0 s)
    (hc : covers [.uni, .fus, .vq, .mon, .pwr, .hst, .mbx, .ext, .cdc, .drt, .hrd, .wrn, .eng, .opq, .lif, .pnl, .flt, .out, .free] cv = true := by exact covers_le (by assumption) rfl) :
    Kept cv s0 (toOff s) := by
  unfold toOff
  repeat' first
    | exact covers_le hc rfl
    | with_reducible first
      | assumption | apply powerGone_kept | apply moveTo_kept | split | refine Kept.set_uni_pwr_lif_pnl_flt ?_ (hc := ?_)

theorem execBothInputsLost_kept {cv : List Block} {s0 : State} (s : State) (hk0 : Kept cv s0 s)
    (hc : covers [.uni, .fus, .vq, .mon, .pwr, .hst, .mbx, .ext, .cdc, .drt, .hrd, .wrn, .eng, .opq, .lif, .pnl, .flt, .out, .free] cv = true := by exact covers_le (by assumption) rfl) :
    KeptRes cv s0 (execBothInputsLost s) := by
  unfold execBothInputsLost
  repeat' first
    | exact covers_le hc rfl
    | with_reducible first
      | assumption | apply toOff_kept | apply KeptRes.of_next | split

theorem execInputLost_kept {cv : List Block} {s0 : State} (b : Bool) (s : State) (hk0 : Kept cv s0 s)
    (hc : covers [.uni, .fus, .vq, .mon, .pwr, .hst, .mbx, .ext, .cdc, .drt, .hrd, .wrn, .eng, .opq, .lif, .pnl, .flt, .out, .free] cv = true := by exact covers_le (by assumption) rfl) :
    KeptRes cv s0 (execInputLost b s) := by
  unfold execInputLost
  dsimp only
  repeat' first
    | exact covers_le hc rfl
    | with_reducible first
      | assumption | refine note_kept _ _ ?_ (hc := ?_) (hd := by with_unfolding_all rfl) | apply toOff_kept
      | apply KeptRes.of_next | split | refine Kept.set_pwr_lif ?_ (hc := ?_)

theorem execInputRestored_kept {cv : List Block} {s0 : State} (b : Bool) (s : State) (hk0 : Kept cv s0 s)
    (hc : covers [.pwr] cv = true := by exact covers_le (by assumption) rfl) :
    KeptRes cv s0 (execInputRestored b s) := by
  unfold execInputRestored
  repeat' first
    | exact covers_le hc rfl
    | with_reducible first
      | assumption | apply KeptRes.of_next | refine Kept.set_pwr ?_ (hc := ?_)

theorem pwrDone_kept {cv : List Block} {s0 : State} (via : Via) (action status : Nat) (s : State) (hk0 : Kept cv s0 s)
    (hc : covers [.pwr] cv = true := by exact covers_le (by assumption) rfl) :
    Kept cv s0 (pwrDone via action status s) := by
  unfold pwrDone
  repeat' first
    | exact covers_le hc rfl
    | with_reducible first
      | assumption | split | refine Kept.set_pwr ?_ (hc := ?_)

theorem powerOn_kept {cv : List Block} {s0 : State} (s : State) (hk0 : Kept cv s0 s)
    (hc : covers [.uni, .hst, .pnl, .flt, .out] cv = true := by exact covers_le (by assumption) rfl) :
    Kept cv s0 (powerOn s) := by
  unfold powerOn
  repeat' first
    | exact covers_le hc rfl
    | with_reducible first
      | assumption | apply moveTo_kept | refine Kept.set_uni_pnl ?_ (hc := ?_)

theorem startCmd_kept {cv : List Block} {s0 : State} (via : Via) (s : State) (hk0 : Kept cv s0 s)
    (hc : covers [.uni, .pwr, .hst, .pnl, .flt, .out] cv = true := by exact covers_le (by assumption) rfl) :
    Kept cv s0 (startCmd via s) := by
  unfold startCmd
  repeat' first
    | exact covers_le hc rfl
    | with_reducible first
      | assumption | apply pwrDone_kept | apply powerOn_kept | split

theorem execStart_kept {cv : List Block} {s0 : State} (via : Via) (s : State) (hk0 : Kept cv s0 s)
    (hc : covers [.uni, .pwr, .hst, .pnl, .flt, .out] cv = true := by exact covers_le (by assumption) rfl) :
    KeptRes cv s0 (execStart via s) := by
  unfold execStart
  repeat' first
    | exact covers_le hc rfl
    | with_reducible first
      | assumption | apply startCmd_kept | apply KeptRes.of_next

theorem execStandbyPowerApplied_kept {cv : List Block} {s0 : State} (autoRestore : Bool) (s : State) (hk0 : Kept cv s0 s)
    (hc : covers [.uni, .pwr, .hst, .pnl, .flt, .out] cv = true := by exact covers_le (by assumption) rfl) :
    KeptRes cv s0 (execStandbyPowerApplied autoRestore s) := by
  unfold execStandbyPowerApplied
  repeat' first
    | exact covers_le hc rfl
    | with_reducible first
      | assumption | apply moveTo_kept | apply powerOn_kept | apply KeptRes.of_next | split | refine Kept.set_pwr ?_ (hc := ?_)

theorem leaveHeld_kept {cv : List Block} {s0 : State} (st : UnitState) (s : State) (hk0 : Kept cv s0 s)
    (hc : covers [.uni, .pwr, .hst, .mbx, .ext, .cdc, .drt, .hrd, .wrn, .eng, .opq, .flt, .out, .free] cv = true := by exact covers_le (by assumption) rfl) :
    Kept cv s0 (leaveHeld st s) := by
  unfold leaveHeld
  repeat' first
    | exact covers_le hc rfl
    | with_reducible first
      | assumption | apply moveTo_kept | apply wake_kept | apply kmGo_kept | apply hostRequest_kept | apply Kept.foldl
      | apply Kept.foldl_fst | intro _ | refine Kept.set_hst_flt ?_ (.of_eq rfl) (hc := ?_)

theorem drainWork_kept {cv : List Block} {s0 : State} (s : State) (hk0 : Kept cv s0 s)
    (hc : covers [.pwr, .hst, .cdc, .drt, .hrd, .wrn, .flt, .out] cv = true := by exact covers_le (by assumption) rfl) :
    Kept cv s0 (drainWork s) := by
  unfold drainWork
  repeat' first
    | exact covers_le hc rfl
    | with_reducible first
      | assumption | apply flushBlock_kept | apply commitTile_kept | apply checkpointNow_kept | apply Kept.foldl
      | apply Kept.foldl_fst | intro _

theorem drainCmd_kept {cv : List Block} {s0 : State} (via : Via) (s : State) (hk0 : Kept cv s0 s)
    (hc : covers [.uni, .pwr, .hst, .mbx, .ext, .cdc, .drt, .hrd, .wrn, .eng, .opq, .flt, .out, .free] cv = true := by exact covers_le (by assumption) rfl) :
    Kept cv s0 (drainCmd via s) := by
  unfold drainCmd
  repeat' first
    | exact covers_le hc rfl
    | with_reducible first
      | assumption | apply pwrDone_kept | apply drainWork_kept | apply moveTo_kept | apply leaveHeld_kept | split

theorem execDrain_kept {cv : List Block} {s0 : State} (via : Via) (s : State) (hk0 : Kept cv s0 s)
    (hc : covers [.uni, .pwr, .hst, .mbx, .ext, .cdc, .drt, .hrd, .wrn, .eng, .opq, .flt, .out, .free] cv = true := by exact covers_le (by assumption) rfl) :
    KeptRes cv s0 (execDrain via s) := by
  unfold execDrain
  repeat' first
    | exact covers_le hc rfl
    | with_reducible first
      | assumption | apply drainCmd_kept | apply KeptRes.of_next

theorem execDrained_kept {cv : List Block} {s0 : State} (s : State) (hk0 : Kept cv s0 s)
    (hc : covers [.uni, .pwr, .hst, .cdc, .drt, .hrd, .wrn, .eng, .opq, .flt, .out] cv = true := by exact covers_le (by assumption) rfl) :
    KeptRes cv s0 (execDrained s) := by
  unfold execDrained
  dsimp only
  repeat' first
    | exact covers_le hc rfl
    | with_reducible first
      | assumption | apply drainWork_kept | apply enterFaulted_kept | apply KeptRes.of_next | split
      | refine Kept.set_pwr ?_ (hc := ?_)

theorem execDrainFaultTimeout_kept {cv : List Block} {s0 : State} (s : State) (hk0 : Kept cv s0 s)
    (hc : covers [.uni, .pwr, .hst, .eng, .opq, .flt, .out] cv = true := by exact covers_le (by assumption) rfl) :
    KeptRes cv s0 (execDrainFaultTimeout s) := by
  unfold execDrainFaultTimeout
  repeat' first
    | exact covers_le hc rfl
    | with_reducible first
      | assumption | apply enterFaulted_kept | apply KeptRes.of_next | split

theorem resumeCmd_kept {cv : List Block} {s0 : State} (s : State) (hk0 : Kept cv s0 s)
    (hc : covers [.uni, .pwr, .hst, .mbx, .ext, .cdc, .drt, .hrd, .wrn, .eng, .opq, .flt, .out, .free] cv = true := by exact covers_le (by assumption) rfl) :
    Kept cv s0 (resumeCmd s) := by
  unfold resumeCmd
  repeat' first
    | exact covers_le hc rfl
    | with_reducible first
      | assumption | apply pwrDone_kept | apply wake_kept | apply kmGo_kept | apply moveTo_kept | split
      | refine Kept.set_pwr ?_ (hc := ?_)

theorem execResume_kept {cv : List Block} {s0 : State} (s : State) (hk0 : Kept cv s0 s)
    (hc : covers [.uni, .pwr, .hst, .mbx, .ext, .cdc, .drt, .hrd, .wrn, .eng, .opq, .flt, .out, .free] cv = true := by exact covers_le (by assumption) rfl) :
    KeptRes cv s0 (execResume s) := by
  unfold execResume
  repeat' first
    | exact covers_le hc rfl
    | with_reducible first
      | assumption | apply resumeCmd_kept | apply KeptRes.of_next

theorem dormouseCmd_kept {cv : List Block} {s0 : State} (s : State) (hk0 : Kept cv s0 s)
    (hc : covers [.uni, .pwr, .hst, .hrd, .lif, .flt, .out] cv = true := by exact covers_le (by assumption) rfl) :
    Kept cv s0 (dormouseCmd s) := by
  unfold dormouseCmd
  repeat' first
    | exact covers_le hc rfl
    | with_reducible first
      | assumption | apply pwrDone_kept | apply islandsOff_kept | apply moveTo_kept | intro _ | split
      | refine Kept.set_hrd_lif ?_ (hc := ?_) | refine Kept.set_pwr ?_ (hc := ?_)

theorem execDormouse_kept {cv : List Block} {s0 : State} (s : State) (hk0 : Kept cv s0 s)
    (hc : covers [.uni, .pwr, .hst, .hrd, .lif, .flt, .out] cv = true := by exact covers_le (by assumption) rfl) :
    KeptRes cv s0 (execDormouse s) := by
  unfold execDormouse
  repeat' first
    | exact covers_le hc rfl
    | with_reducible first
      | assumption | apply dormouseCmd_kept | apply KeptRes.of_next

theorem leaveDormouse_kept {cv : List Block} {s0 : State} (s : State) (hk0 : Kept cv s0 s)
    (hc : covers [.uni, .vq, .mon, .pwr, .hst, .mbx, .ext, .cdc, .drt, .hrd, .wrn, .eng, .opq, .flt, .out, .free] cv = true := by exact covers_le (by assumption) rfl) :
    Kept cv s0 (leaveDormouse s) := by
  unfold leaveDormouse
  extract_lets on u pw hr sa c sb
  have ha : Kept cv s0 sa := fwEpochAdvance_kept _ (Kept.upd hk0 (.refl _) (.of_eq rfl) (.of_eq rfl) (.of_eq rfl))
  clear_value sa
  have hb : Kept cv s0 sb := linkRates_kept _ _ (moveTo_kept _ _ _ _ ha)
  clear_value sb
  split
  · exact imageGone_kept _ _ hb
  · exact wake_kept _ (offersGo_kept _ (reachUpdate_kept _ hb))

theorem wakeCmd_kept {cv : List Block} {s0 : State} (via : Via) (s : State) (hk0 : Kept cv s0 s)
    (hc : covers [.uni, .vq, .mon, .pwr, .hst, .mbx, .ext, .cdc, .drt, .hrd, .wrn, .eng, .opq, .flt, .out, .free] cv = true := by exact covers_le (by assumption) rfl) :
    Kept cv s0 (wakeCmd via s) := by
  unfold wakeCmd
  repeat' first
    | exact covers_le hc rfl
    | with_reducible first
      | assumption | apply pwrDone_kept | apply leaveDormouse_kept | split

theorem execWake_kept {cv : List Block} {s0 : State} (via : Via) (s : State) (hk0 : Kept cv s0 s)
    (hc : covers [.uni, .vq, .mon, .pwr, .hst, .mbx, .ext, .cdc, .drt, .hrd, .wrn, .eng, .opq, .pnl, .flt, .out, .free] cv = true := by exact covers_le (by assumption) rfl) :
    KeptRes cv s0 (execWake via s) := by
  unfold execWake
  repeat' first
    | exact covers_le hc rfl
    | with_reducible first
      | assumption | apply wakeCmd_kept | apply panelLast_kept | apply KeptRes.of_next | split

theorem powerOffCmd_kept {cv : List Block} {s0 : State} (via : Via) (s : State) (hk0 : Kept cv s0 s)
    (hc : covers [.uni, .fus, .vq, .mon, .pwr, .hst, .mbx, .ext, .cdc, .drt, .hrd, .wrn, .eng, .opq, .lif, .flt, .out, .free] cv = true := by exact covers_le (by assumption) rfl) :
    Kept cv s0 (powerOffCmd via s) := by
  unfold powerOffCmd
  repeat' first
    | exact covers_le hc rfl
    | with_reducible first
      | assumption | apply pwrDone_kept | apply toStandby_kept | split

theorem execPowerOff_kept {cv : List Block} {s0 : State} (via : Via) (s : State) (hk0 : Kept cv s0 s)
    (hc : covers [.uni, .fus, .vq, .mon, .pwr, .hst, .mbx, .ext, .cdc, .drt, .hrd, .wrn, .eng, .opq, .lif, .flt, .out, .free] cv = true := by exact covers_le (by assumption) rfl) :
    KeptRes cv s0 (execPowerOff via s) := by
  unfold execPowerOff
  repeat' first
    | exact covers_le hc rfl
    | with_reducible first
      | assumption | apply powerOffCmd_kept | apply KeptRes.of_next

end Sys2Proof.Safety
end

