-- ==== Sys2Proof/Laws/KeptCalendar.lean ====
section
/-! SUPPORT. What the definitions of Machine/Calendar.lean keep: one lemma per definition, from any earlier state. -/

namespace Sys2Proof.Safety

-- The lemmas of this file are checked one after another, with few threads at a time.
set_option Elab.async false

open Sys2Proof.Machine

theorem execCalendarCompare_kept {cv : List Block} {s0 : State} (s : State) (hk0 : Kept cv s0 s)
    (hc : covers [.lif] cv = true := by exact covers_le (by assumption) rfl) :
    KeptRes cv s0 (execCalendarCompare s) := by
  unfold execCalendarCompare
  dsimp only
  repeat' first
    | exact covers_le hc rfl
    | with_reducible first
      | assumption | apply KeptRes.of_next | split | refine Kept.set_lif ?_ (hc := ?_)

theorem execCalendarTrimUpdate_kept {cv : List Block} {s0 : State} (ppt : Int) (s : State) (hk0 : Kept cv s0 s)
    (hc : covers [.lif] cv = true := by exact covers_le (by assumption) rfl) :
    KeptRes cv s0 (execCalendarTrimUpdate ppt s) := by
  unfold execCalendarTrimUpdate
  repeat' first
    | exact covers_le hc rfl
    | with_reducible first
      | assumption | apply KeptRes.of_next | split | refine Kept.set_lif ?_ (hc := ?_)

theorem lifDone_kept {cv : List Block} {s0 : State} (via : Via) (action : Nat) (arg status : Nat) (s : State) (hk0 : Kept cv s0 s)
    (hc : covers [.lif] cv = true := by exact covers_le (by assumption) rfl) :
    Kept cv s0 (lifDone via action arg status s) := by
  unfold lifDone
  repeat' first
    | exact covers_le hc rfl
    | with_reducible first
      | assumption | split | refine Kept.set_lif ?_ (hc := ?_)

theorem setCalCmd_kept {cv : List Block} {s0 : State} (via : Via) (t : Nat) (s : State) (hk0 : Kept cv s0 s)
    (hc : covers [.uni, .vq, .mon, .pwr, .hst, .mbx, .ext, .cdc, .drt, .hrd, .wrn, .eng, .opq, .lif, .pnl, .flt, .out, .free] cv = true := by exact covers_le (by assumption) rfl) :
    Kept cv s0 (setCalCmd via t s) := by
  unfold setCalCmd
  repeat' first
    | exact covers_le hc rfl
    | with_reducible first
      | assumption | apply lifDone_kept | apply timeFound_kept | split | refine Kept.set_lif ?_ (hc := ?_)

theorem execSetCal_kept {cv : List Block} {s0 : State} (via : Via) (t : Nat) (s : State) (hk0 : Kept cv s0 s)
    (hc : covers [.uni, .vq, .mon, .pwr, .hst, .mbx, .ext, .cdc, .drt, .hrd, .wrn, .eng, .opq, .lif, .pnl, .flt, .out, .free] cv = true := by exact covers_le (by assumption) rfl) :
    KeptRes cv s0 (execSetCal via t s) := by
  unfold execSetCal
  repeat' first
    | exact covers_le hc rfl
    | with_reducible first
      | assumption | apply setCalCmd_kept | apply KeptRes.of_next

theorem setUtcCmd_kept {cv : List Block} {s0 : State} (n : Nat) (s : State) (hk0 : Kept cv s0 s)
    (hc : covers [.lif] cv = true := by exact covers_le (by assumption) rfl) :
    Kept cv s0 (setUtcCmd n s) := by
  unfold setUtcCmd
  repeat' first
    | exact covers_le hc rfl
    | with_reducible first
      | assumption | apply lifDone_kept | split | refine Kept.set_lif ?_ (hc := ?_)

theorem execSetUtc_kept {cv : List Block} {s0 : State} (s : Nat) (st : State) (hk0 : Kept cv s0 st)
    (hc : covers [.lif] cv = true := by exact covers_le (by assumption) rfl) :
    KeptRes cv s0 (execSetUtc s st) := by
  unfold execSetUtc
  repeat' first
    | exact covers_le hc rfl
    | with_reducible first
      | assumption | apply setUtcCmd_kept | apply KeptRes.of_next

theorem steerRate_kept {cv : List Block} {s0 : State} (offset : Int) (s : State) (hk0 : Kept cv s0 s)
    (hc : covers [.mon, .free] cv = true := by exact covers_le (by assumption) rfl) :
    Kept cv s0 (steerRate offset s) := by
  unfold steerRate
  repeat' first
    | exact covers_le hc rfl
    | with_reducible first
      | assumption | apply draw_kept | split | refine Kept.set_mon ?_ (hc := ?_)

theorem execPtpMessage_kept {cv : List Block} {s0 : State} (m : Ptp) (s : State) (hk0 : Kept cv s0 s)
    (hc : covers [.mon, .hst, .lif, .flt, .out, .free] cv = true := by exact covers_le (by assumption) rfl) :
    KeptRes cv s0 (execPtpMessage m s) := by
  unfold execPtpMessage
  dsimp only
  repeat' first
    | exact covers_le hc rfl
    | with_reducible first
      | assumption | refine noteGen_kept _ _ _ _ ?_ (hc := ?_) (hd := by with_unfolding_all rfl) | apply steerRate_kept
      | apply KeptRes.of_next | split | refine Kept.set_lif ?_ (hc := ?_) | refine Kept.set_mon_lif ?_ (hc := ?_)

theorem driftCheck_kept {cv : List Block} {s0 : State} (q v : Nat) (s : State) (hk0 : Kept cv s0 s)
    (hc : covers [.hst, .lif, .flt, .out] cv = true := by exact covers_le (by assumption) rfl) :
    Kept cv s0 (driftCheck q v s) := by
  unfold driftCheck
  repeat' first
    | exact covers_le hc rfl
    | with_reducible first
      | assumption | refine noteGen_kept _ _ _ _ ?_ (hc := ?_) (hd := by with_unfolding_all rfl) | split
      | refine Kept.set_lif ?_ (hc := ?_)

theorem execHistorySample_kept {cv : List Block} {s0 : State} (period : Nat) (samples : List (Nat × Nat)) (s : State) (hk0 : Kept cv s0 s)
    (hc : covers [.hst, .lif, .flt, .out] cv = true := by exact covers_le (by assumption) rfl) :
    KeptRes cv s0 (execHistorySample period samples s) := by
  unfold execHistorySample
  repeat' first
    | exact covers_le hc rfl
    | with_reducible first
      | assumption | apply driftCheck_kept | apply KeptRes.of_next | apply Kept.foldl | apply Kept.foldl_fst | intro _ | split
      | refine Kept.set_lif ?_ (hc := ?_)

theorem execPoweredHour_kept {cv : List Block} {s0 : State} (s : State) (hk0 : Kept cv s0 s)
    (hc : covers [.hst, .lif, .flt, .out] cv = true := by exact covers_le (by assumption) rfl) :
    KeptRes cv s0 (execPoweredHour s) := by
  unfold execPoweredHour
  repeat' first
    | exact covers_le hc rfl
    | with_reducible first
      | assumption | refine note_kept _ _ ?_ (hc := ?_) (hd := by with_unfolding_all rfl) | apply KeptRes.of_next | split
      | refine Kept.set_lif ?_ (hc := ?_)

theorem wearCheck_kept {cv : List Block} {s0 : State} (bay : Nat) (s : State) (hk0 : Kept cv s0 s)
    (hc : covers [.hst, .hrd, .flt, .out] cv = true := by exact covers_le (by assumption) rfl) :
    Kept cv s0 (wearCheck bay s) := by
  unfold wearCheck
  dsimp only
  repeat' first
    | exact covers_le hc rfl
    | with_reducible first
      | assumption | refine note_kept _ _ ?_ (hc := ?_) (hd := by with_unfolding_all rfl) | apply onBay_kept | intro _ | split

theorem execWearRecordWrite_kept {cv : List Block} {s0 : State} (bay : Nat) (s : State) (hk0 : Kept cv s0 s)
    (hc : covers [.hst, .hrd, .flt, .out] cv = true := by exact covers_le (by assumption) rfl) :
    KeptRes cv s0 (execWearRecordWrite bay s) := by
  unfold execWearRecordWrite
  dsimp only
  repeat' first
    | exact covers_le hc rfl
    | with_reducible first
      | assumption | apply wearCheck_kept | apply onBay_kept | apply KeptRes.of_next | intro _ | split

theorem execCoinCellRemoved_kept {cv : List Block} {s0 : State} (s : State) (hk0 : Kept cv s0 s)
    (hc : covers [.lif] cv = true := by exact covers_le (by assumption) rfl) :
    KeptRes cv s0 (execCoinCellRemoved s) := by
  unfold execCoinCellRemoved
  repeat' first
    | exact covers_le hc rfl
    | with_reducible first
      | assumption | apply KeptRes.of_next | split | refine Kept.set_lif ?_ (hc := ?_)

theorem execLifCalReadLow_kept {cv : List Block} {s0 : State} (rq : Requester) (s : State) (hk0 : Kept cv s0 s)
    (hc : covers [.lif, .out] cv = true := by exact covers_le (by assumption) rfl) :
    KeptRes cv s0 (execLifCalReadLow rq s) := by
  unfold execLifCalReadLow
  repeat' first
    | exact covers_le hc rfl
    | with_reducible first
      | assumption | apply emit_kept | apply KeptRes.of_next | split | refine Kept.set_lif ?_ (hc := ?_)

theorem execTimeSync_kept {cv : List Block} {s0 : State} (port src depth : Nat) (_aligned : Bool) (t : Ns) (arrival : Ns) (s : State) (hk0 : Kept cv s0 s)
    (hc : covers [.uni, .vq, .mon, .pwr, .hst, .mbx, .ext, .cdc, .drt, .hrd, .wrn, .eng, .opq, .lif, .pnl, .flt, .out, .free] cv = true := by exact covers_le (by assumption) rfl) :
    KeptRes cv s0 (execTimeSync port src depth _aligned t arrival s) := by
  unfold execTimeSync
  dsimp only
  repeat' first
    | exact covers_le hc rfl
    | with_reducible first
      | assumption | apply dropOn_kept | apply heardFrom_kept | apply timeFound_kept | apply takeOffset_kept
      | apply KeptRes.of_next | split | refine Kept.set_wrn ?_ (hc := ?_)

end Sys2Proof.Safety
end

