-- ==== Sys2Proof/Laws/KeptDataPath.lean ====
section
/-! SUPPORT. What the definitions of Machine/DataPath.lean keep: one lemma per definition, from any earlier state. -/

namespace Sys2Proof.Safety

-- The lemmas of this file are checked one after another, with few threads at a time.
set_option Elab.async false

open Sys2Proof.Machine

theorem execHostMemRead_kept {cv : List Block} {s0 : State} (id ld dpa : Nat) (want : Want) (stamp : Ns) (s : State) (hk0 : Kept cv s0 s)
    (hc : covers [.pwr, .hst, .ext, .cdc, .drt, .hrd, .wrn, .eng, .flt, .out] cv = true := by exact covers_le (by assumption) rfl) :
    KeptRes cv s0 (execHostMemRead id ld dpa want stamp s) := by
  unfold execHostMemRead
  repeat' first
    | exact covers_le hc rfl
    | with_reducible first
      | assumption | apply hostRequest_kept | apply KeptRes.of_next

theorem execHostMemWrite_kept {cv : List Block} {s0 : State} (id ld dpa : Nat) (be : BitVec 64) (data : List Byte) (poison evict : Bool) (stamp : Ns) (s : State) (hk0 : Kept cv s0 s)
    (hc : covers [.pwr, .hst, .ext, .cdc, .drt, .hrd, .wrn, .eng, .flt, .out] cv = true := by exact covers_le (by assumption) rfl) :
    KeptRes cv s0 (execHostMemWrite id ld dpa be data poison evict stamp s) := by
  unfold execHostMemWrite
  repeat' first
    | exact covers_le hc rfl
    | with_reducible first
      | assumption | apply hostRequest_kept | apply evictHold_kept | apply KeptRes.of_next | split

theorem answerWaiting_kept {cv : List Block} {s0 : State} (tenant tile j : Nat) (bmw : BitVec 96) (masks : List Byte) (strips : List (List Byte)) (s : State) (hk0 : Kept cv s0 s)
    (hc : covers [.hst, .wrn, .out] cv = true := by exact covers_le (by assumption) rfl) :
    Kept cv s0 (answerWaiting tenant tile j bmw masks strips s) := by
  unfold answerWaiting
  repeat' first
    | exact covers_le hc rfl
    | with_reducible first
      | assumption | apply answerUncached_kept | apply Kept.foldl | apply Kept.foldl_fst | intro _
      | refine Kept.set_hst ?_ (.of_eq rfl) (hc := ?_)

theorem fillFault_kept {cv : List Block} {s0 : State} (tenant tile j : Nat) (f : DecFault) (s : State) (hk0 : Kept cv s0 s)
    (hc : covers [.hst, .cdc, .hrd, .wrn, .flt, .out] cv = true := by exact covers_le (by assumption) rfl) :
    Kept cv s0 (fillFault tenant tile j f s) := by
  unfold fillFault
  dsimp only
  repeat' first
    | exact covers_le hc rfl
    | with_reducible first
      | assumption | refine note_kept _ _ ?_ (hc := ?_) (hd := by with_unfolding_all rfl) | apply codecFault_kept
      | apply askRebuild_kept | apply markDamaged_kept | split

theorem execFillBlockLanded_kept {cv : List Block} {s0 : State} (tenant tile blk : Nat) (bmw : BitVec 96) (masks : List Byte) (stored : List Byte) (s : State) (hk0 : Kept cv s0 s)
    (hc : covers [.pwr, .hst, .mbx, .ext, .cdc, .drt, .hrd, .wrn, .eng, .opq, .flt, .out, .free] cv = true := by exact covers_le (by assumption) rfl) :
    KeptRes cv s0 (execFillBlockLanded tenant tile blk bmw masks stored s) := by
  unfold execFillBlockLanded
  dsimp only
  repeat' first
    | exact covers_le hc rfl
    | with_reducible first
      | assumption | apply fillFault_kept | apply wake_kept | apply answerWaiting_kept | apply landBlock_kept
      | apply KeptRes.of_next | split

theorem execStripWriteback_kept {cv : List Block} {s0 : State} (tenant block strip : Nat) (s : State) (hk0 : Kept cv s0 s)
    (hc : covers [.pwr, .hst, .cdc, .drt, .hrd, .flt, .out] cv = true := by exact covers_le (by assumption) rfl) :
    KeptRes cv s0 (execStripWriteback tenant block strip s) := by
  unfold execStripWriteback
  repeat' first
    | exact covers_le hc rfl
    | with_reducible first
      | assumption | apply writeback_kept | apply KeptRes.of_next | split

theorem execWritebackComplete_kept {cv : List Block} {s0 : State} (tenant block : Nat) (s : State) (hk0 : Kept cv s0 s)
    (hc : covers [.cdc] cv = true := by exact covers_le (by assumption) rfl) :
    KeptRes cv s0 (execWritebackComplete tenant block s) := by
  unfold execWritebackComplete
  repeat' first
    | exact covers_le hc rfl
    | with_reducible first
      | assumption | apply writebackDone_kept | apply KeptRes.of_next

end Sys2Proof.Safety
end

