-- ==== Sys2Proof/Laws/KeptFaults.lean ====
section
/-! SUPPORT. What the definitions of Machine/Faults.lean keep: one lemma per definition, from any earlier state. -/

namespace Sys2Proof.Safety

-- The lemmas of this file are checked one after another, with few threads at a time.
set_option Elab.async false

open Sys2Proof.Machine

theorem execEventMergeWindow_kept {cv : List Block} {s0 : State} (code scopeKind scopeIdx tenant : Nat) (s : State) (hk0 : Kept cv s0 s)
    (hc : covers [.hst, .flt, .out] cv = true := by exact covers_le (by assumption) rfl) :
    KeptRes cv s0 (execEventMergeWindow code scopeKind scopeIdx tenant s) := by
  unfold execEventMergeWindow
  dsimp only
  repeat' first
    | exact covers_le hc rfl
    | with_reducible first
      | assumption | apply writeRec_kept | apply KeptRes.of_next | intro _ | split | refine Kept.set_flt ?_ (hc := ?_)

theorem fltDone_kept {cv : List Block} {s0 : State} (status : Nat) (s : State) (hk0 : Kept cv s0 s)
    (hc : covers [.flt] cv = true := by exact covers_le (by assumption) rfl) :
    Kept cv s0 (fltDone status s) := by
  unfold fltDone
  repeat' first
    | exact covers_le hc rfl
    | with_reducible first
      | assumption | refine Kept.set_flt ?_ (hc := ?_)

theorem faultResumeCmd_kept {cv : List Block} {s0 : State} (s : State) (hk0 : Kept cv s0 s)
    (hc : covers [.uni, .vq, .mon, .pwr, .hst, .mbx, .ext, .cdc, .drt, .hrd, .wrn, .eng, .opq, .lif, .pnl, .flt, .out, .free] cv = true := by exact covers_le (by assumption) rfl) :
    Kept cv s0 (faultResumeCmd s) := by
  unfold faultResumeCmd
  repeat' first
    | exact covers_le hc rfl
    | with_reducible first
      | assumption | apply fltDone_kept | apply startSix_kept | apply moveTo_kept | apply sidLossGo_kept | apply leaveHeld_kept
      | split | refine Kept.set_uni_flt ?_ (hc := ?_)

theorem execFaultResume_kept {cv : List Block} {s0 : State} (s : State) (hk0 : Kept cv s0 s)
    (hc : covers [.uni, .vq, .mon, .pwr, .hst, .mbx, .ext, .cdc, .drt, .hrd, .wrn, .eng, .opq, .lif, .pnl, .flt, .out, .free] cv = true := by exact covers_le (by assumption) rfl) :
    KeptRes cv s0 (execFaultResume s) := by
  unfold execFaultResume
  repeat' first
    | exact covers_le hc rfl
    | with_reducible first
      | assumption | apply faultResumeCmd_kept | apply KeptRes.of_next

theorem tailWrite_kept {cv : List Block} {s0 : State} (ld : Nat) (val : BitVec 32) (s : State) (hk0 : Kept cv s0 s)
    (hc : covers [.hst, .flt, .out] cv = true := by exact covers_le (by assumption) rfl) :
    Kept cv s0 (tailWrite ld val s) := by
  unfold tailWrite
  dsimp only
  repeat' first
    | exact covers_le hc rfl
    | with_reducible first
      | assumption | apply writeIgnored_kept | split | refine Kept.set_flt ?_ (hc := ?_)

theorem execFltLdTailWrite_kept {cv : List Block} {s0 : State} (ld : Nat) (val : BitVec 32) (s : State) (hk0 : Kept cv s0 s)
    (hc : covers [.hst, .flt, .out] cv = true := by exact covers_le (by assumption) rfl) :
    KeptRes cv s0 (execFltLdTailWrite ld val s) := by
  unfold execFltLdTailWrite
  repeat' first
    | exact covers_le hc rfl
    | with_reducible first
      | assumption | apply tailWrite_kept | apply KeptRes.of_next | split

end Sys2Proof.Safety
end

