-- ==== Sys2Proof/Laws/KeptPanel.lean ====
section
/-! SUPPORT. What the definitions of Machine/Panel.lean keep: one lemma per definition, from any earlier state. -/

namespace Sys2Proof.Safety

-- The lemmas of this file are checked one after another, with few threads at a time.
set_option Elab.async false

open Sys2Proof.Machine

theorem redraw_kept {cv : List Block} {s0 : State} (s : State) (hk0 : Kept cv s0 s)
    (hc : covers [.pnl] cv = true := by exact covers_le (by assumption) rfl) :
    Kept cv s0 (redraw s) := by
  unfold redraw
  repeat' first
    | exact covers_le hc rfl
    | with_reducible first
      | assumption | refine Kept.set_pnl ?_ (hc := ?_)

theorem touched_kept {cv : List Block} {s0 : State} (s : State) (hk0 : Kept cv s0 s)
    (hc : covers [.pnl] cv = true := by exact covers_le (by assumption) rfl) :
    Kept cv s0 (touched s) := by
  unfold touched
  repeat' first
    | exact covers_le hc rfl
    | with_reducible first
      | assumption | apply redraw_kept | refine Kept.set_pnl ?_ (hc := ?_)

theorem showPage_kept {cv : List Block} {s0 : State} (p : Nat) (s : State) (hk0 : Kept cv s0 s)
    (hc : covers [.pnl] cv = true := by exact covers_le (by assumption) rfl) :
    Kept cv s0 (showPage p s) := by
  unfold showPage
  repeat' first
    | exact covers_le hc rfl
    | with_reducible first
      | assumption | refine Kept.set_pnl ?_ (hc := ?_)

theorem atPanel_kept {cv : List Block} {s0 : State} (f : State → State) (s : State) (hf : ∀ u, Kept cv s0 u → Kept cv s0 (f u)) (hk0 : Kept cv s0 s)
    (hc : covers [] cv = true := by exact covers_le (by assumption) rfl) :
    KeptRes cv s0 (atPanel f s) := by
  unfold atPanel
  repeat' first
    | exact covers_le hc rfl
    | with_reducible first
      | assumption | apply hf | apply KeptRes.of_next | intro _ | split

theorem execDisplayRefresh_kept {cv : List Block} {s0 : State} (s : State) (hk0 : Kept cv s0 s)
    (hc : covers [.pnl] cv = true := by exact covers_le (by assumption) rfl) :
    KeptRes cv s0 (execDisplayRefresh s) := by
  unfold execDisplayRefresh
  repeat' first
    | exact covers_le hc rfl
    | with_reducible first
      | assumption | apply atPanel_kept | apply redraw_kept | apply KeptRes.of_next | intro _

theorem execHomeTimeout_kept {cv : List Block} {s0 : State} (s : State) (hk0 : Kept cv s0 s)
    (hc : covers [.pnl] cv = true := by exact covers_le (by assumption) rfl) :
    KeptRes cv s0 (execHomeTimeout s) := by
  unfold execHomeTimeout
  repeat' first
    | exact covers_le hc rfl
    | with_reducible first
      | assumption | apply atPanel_kept | apply redraw_kept | apply showPage_kept | apply KeptRes.of_next | intro _ | split

theorem execSlide_kept {cv : List Block} {s0 : State} (right : Bool) (s : State) (hk0 : Kept cv s0 s)
    (hc : covers [.pnl] cv = true := by exact covers_le (by assumption) rfl) :
    KeptRes cv s0 (execSlide right s) := by
  unfold execSlide
  repeat' first
    | exact covers_le hc rfl
    | with_reducible first
      | assumption | apply atPanel_kept | apply touched_kept | apply showPage_kept | apply KeptRes.of_next | intro _ | split

theorem moveFocus_kept {cv : List Block} {s0 : State} (forward : Bool) (s : State) (hk0 : Kept cv s0 s)
    (hc : covers [.pnl] cv = true := by exact covers_le (by assumption) rfl) :
    Kept cv s0 (moveFocus forward s) := by
  unfold moveFocus
  repeat' first
    | exact covers_le hc rfl
    | with_reducible first
      | assumption | split | refine Kept.set_pnl ?_ (hc := ?_)

theorem execPrev_kept {cv : List Block} {s0 : State} (s : State) (hk0 : Kept cv s0 s)
    (hc : covers [.pnl] cv = true := by exact covers_le (by assumption) rfl) :
    KeptRes cv s0 (execPrev s) := by
  unfold execPrev
  repeat' first
    | exact covers_le hc rfl
    | with_reducible first
      | assumption | apply atPanel_kept | apply touched_kept | apply moveFocus_kept | apply KeptRes.of_next | intro _ | split

theorem execNext_kept {cv : List Block} {s0 : State} (s : State) (hk0 : Kept cv s0 s)
    (hc : covers [.pnl] cv = true := by exact covers_le (by assumption) rfl) :
    KeptRes cv s0 (execNext s) := by
  unfold execNext
  repeat' first
    | exact covers_le hc rfl
    | with_reducible first
      | assumption | apply atPanel_kept | apply touched_kept | apply moveFocus_kept | apply KeptRes.of_next | intro _ | split

theorem identStart_kept {cv : List Block} {s0 : State} (source : Nat) (s : State) (hk0 : Kept cv s0 s)
    (hc : covers [.pnl] cv = true := by exact covers_le (by assumption) rfl) :
    Kept cv s0 (identStart source s) := by
  unfold identStart
  repeat' first
    | exact covers_le hc rfl
    | with_reducible first
      | assumption | refine Kept.set_pnl ?_ (hc := ?_)

theorem identStop_kept {cv : List Block} {s0 : State} (s : State) (hk0 : Kept cv s0 s)
    (hc : covers [.pnl] cv = true := by exact covers_le (by assumption) rfl) :
    Kept cv s0 (identStop s) := by
  unfold identStop
  repeat' first
    | exact covers_le hc rfl
    | with_reducible first
      | assumption | refine Kept.set_pnl ?_ (hc := ?_)

theorem bayStart_kept {cv : List Block} {s0 : State} (bay : Nat) (s : State) (hk0 : Kept cv s0 s)
    (hc : covers [.pnl] cv = true := by exact covers_le (by assumption) rfl) :
    Kept cv s0 (bayStart bay s) := by
  unfold bayStart
  repeat' first
    | exact covers_le hc rfl
    | with_reducible first
      | assumption | refine Kept.set_pnl ?_ (hc := ?_)

theorem execLocate_kept {cv : List Block} {s0 : State} (s : State) (hk0 : Kept cv s0 s)
    (hc : covers [.pnl] cv = true := by exact covers_le (by assumption) rfl) :
    KeptRes cv s0 (execLocate s) := by
  unfold execLocate
  repeat' first
    | exact covers_le hc rfl
    | with_reducible first
      | assumption | apply atPanel_kept | apply touched_kept | apply identStart_kept | apply bayStart_kept | apply KeptRes.of_next
      | intro _ | split

theorem execRemoveKey_kept {cv : List Block} {s0 : State} (s : State) (hk0 : Kept cv s0 s)
    (hc : covers [.hrd, .pnl] cv = true := by exact covers_le (by assumption) rfl) :
    KeptRes cv s0 (execRemoveKey s) := by
  unfold execRemoveKey
  repeat' first
    | exact covers_le hc rfl
    | with_reducible first
      | assumption | apply atPanel_kept | apply touched_kept | apply removalRequest_kept | apply KeptRes.of_next | intro _ | split

theorem execAdoptConfirmation_kept {cv : List Block} {s0 : State} (s : State) (hk0 : Kept cv s0 s)
    (hc : covers [.hrd, .pnl] cv = true := by exact covers_le (by assumption) rfl) :
    KeptRes cv s0 (execAdoptConfirmation s) := by
  unfold execAdoptConfirmation
  repeat' first
    | exact covers_le hc rfl
    | with_reducible first
      | assumption | apply atPanel_kept | apply touched_kept | apply panelLast_kept | apply adoptStart_kept | apply onBay_kept
      | apply KeptRes.of_next | intro _ | split

theorem execConfirm_kept {cv : List Block} {s0 : State} (s : State) (hk0 : Kept cv s0 s)
    (hc : covers [.pnl] cv = true := by exact covers_le (by assumption) rfl) :
    KeptRes cv s0 (execConfirm s) := by
  unfold execConfirm
  repeat' first
    | exact covers_le hc rfl
    | with_reducible first
      | assumption | apply atPanel_kept | apply touched_kept | apply panelLast_kept | apply KeptRes.of_next | intro _ | split
      | refine Kept.set_pnl ?_ (hc := ?_)

theorem execStripRejection_kept {cv : List Block} {s0 : State} (s : State) (hk0 : Kept cv s0 s)
    (hc : covers [.pnl] cv = true := by exact covers_le (by assumption) rfl) :
    KeptRes cv s0 (execStripRejection s) := by
  unfold execStripRejection
  repeat' first
    | exact covers_le hc rfl
    | with_reducible first
      | assumption | apply atPanel_kept | apply KeptRes.of_next | intro _ | refine Kept.set_pnl ?_ (hc := ?_)

theorem execSelect_kept {cv : List Block} {s0 : State} (held : Bool) (s : State) (hk0 : Kept cv s0 s)
    (hc : covers [.pnl] cv = true := by exact covers_le (by assumption) rfl) :
    KeptRes cv s0 (execSelect held s) := by
  unfold execSelect
  repeat' first
    | exact covers_le hc rfl
    | with_reducible first
      | assumption | apply atPanel_kept | apply touched_kept | apply showPage_kept | apply moveFocus_kept | apply KeptRes.of_next
      | intro _ | split

theorem execIdent_kept {cv : List Block} {s0 : State} (s : State) (hk0 : Kept cv s0 s)
    (hc : covers [.pnl] cv = true := by exact covers_le (by assumption) rfl) :
    KeptRes cv s0 (execIdent s) := by
  unfold execIdent
  repeat' first
    | exact covers_le hc rfl
    | with_reducible first
      | assumption | apply atPanel_kept | apply touched_kept | apply panelLast_kept | apply identStop_kept | apply identStart_kept
      | apply KeptRes.of_next | intro _ | split

theorem execLocateExpired_kept {cv : List Block} {s0 : State} (bay : Bool) (s : State) (hk0 : Kept cv s0 s)
    (hc : covers [.pnl] cv = true := by exact covers_le (by assumption) rfl) :
    KeptRes cv s0 (execLocateExpired bay s) := by
  unfold execLocateExpired
  repeat' first
    | exact covers_le hc rfl
    | with_reducible first
      | assumption | apply atPanel_kept | apply identStop_kept | apply KeptRes.of_next | intro _ | split
      | refine Kept.set_pnl ?_ (hc := ?_)

theorem holdDone_kept {cv : List Block} {s0 : State} (action : Nat) (s : State) (hk0 : Kept cv s0 s)
    (hc : covers [.pnl] cv = true := by exact covers_le (by assumption) rfl) :
    Kept cv s0 (holdDone action s) := by
  unfold holdDone
  repeat' first
    | exact covers_le hc rfl
    | with_reducible first
      | assumption | apply panelLast_kept | refine Kept.set_pnl ?_ (hc := ?_)

theorem holdPress_kept {cv : List Block} {s0 : State} (s : State) (hk0 : Kept cv s0 s)
    (hc : covers [.uni, .pwr, .hst, .mbx, .ext, .cdc, .drt, .hrd, .wrn, .eng, .opq, .pnl, .flt, .out, .free] cv = true := by exact covers_le (by assumption) rfl) :
    Kept cv s0 (holdPress s) := by
  unfold holdPress
  repeat' first
    | exact covers_le hc rfl
    | with_reducible first
      | assumption | apply panelLast_kept | apply holdDone_kept | apply moveTo_kept | apply leaveHeld_kept | split
      | refine Kept.set_uni ?_ (hc := ?_) | refine Kept.set_uni_flt ?_ (hc := ?_)

theorem execHold_kept {cv : List Block} {s0 : State} (s : State) (hk0 : Kept cv s0 s)
    (hc : covers [.uni, .pwr, .hst, .mbx, .ext, .cdc, .drt, .hrd, .wrn, .eng, .opq, .pnl, .flt, .out, .free] cv = true := by exact covers_le (by assumption) rfl) :
    KeptRes cv s0 (execHold s) := by
  unfold execHold
  repeat' first
    | exact covers_le hc rfl
    | with_reducible first
      | assumption | apply atPanel_kept | apply touched_kept | apply holdPress_kept | apply KeptRes.of_next | intro _

theorem lockTurn_kept {cv : List Block} {s0 : State} (s : State) (hk0 : Kept cv s0 s)
    (hc : covers [.hrd, .out] cv = true := by exact covers_le (by assumption) rfl) :
    Kept cv s0 (lockTurn s) := by
  unfold lockTurn
  dsimp only
  repeat' first
    | exact covers_le hc rfl
    | with_reducible first
      | assumption | apply latchAgain_kept | apply onBay_kept | apply Kept.foldl | apply Kept.foldl_fst | intro _ | split

theorem leaveService_kept {cv : List Block} {s0 : State} (s : State) (hk0 : Kept cv s0 s)
    (hc : covers [.hrd] cv = true := by exact covers_le (by assumption) rfl) :
    Kept cv s0 (leaveService s) := by
  unfold leaveService
  repeat' first
    | exact covers_le hc rfl
    | with_reducible first
      | assumption | intro _ | refine Kept.set_hrd ?_ (hc := ?_)

theorem execSwitchTurn_kept {cv : List Block} {s0 : State} (position : Nat) (s : State) (hk0 : Kept cv s0 s)
    (hc : covers [.hrd, .pnl, .out] cv = true := by exact covers_le (by assumption) rfl) :
    KeptRes cv s0 (execSwitchTurn position s) := by
  unfold execSwitchTurn
  repeat' first
    | exact covers_le hc rfl
    | with_reducible first
      | assumption | apply leaveService_kept | apply lockTurn_kept | apply KeptRes.of_next | split
      | refine Kept.set_pnl ?_ (hc := ?_)

theorem execCoverOpened_kept {cv : List Block} {s0 : State} (s : State) (hk0 : Kept cv s0 s)
    (hc : covers [.hst, .pnl, .flt, .out] cv = true := by exact covers_le (by assumption) rfl) :
    KeptRes cv s0 (execCoverOpened s) := by
  unfold execCoverOpened
  repeat' first
    | exact covers_le hc rfl
    | with_reducible first
      | assumption | refine note_kept _ _ ?_ (hc := ?_) (hd := by with_unfolding_all rfl) | apply KeptRes.of_next | split
      | refine Kept.set_pnl ?_ (hc := ?_)

theorem execCoverClosed_kept {cv : List Block} {s0 : State} (s : State) (hk0 : Kept cv s0 s)
    (hc : covers [.pnl] cv = true := by exact covers_le (by assumption) rfl) :
    KeptRes cv s0 (execCoverClosed s) := by
  unfold execCoverClosed
  repeat' first
    | exact covers_le hc rfl
    | with_reducible first
      | assumption | apply KeptRes.of_next | refine Kept.set_pnl ?_ (hc := ?_)

theorem pnlCmdField_kept {cv : List Block} {s0 : State} (via : Via) (action : Nat) (s : State) (hk0 : Kept cv s0 s)
    (hc : covers [.pnl] cv = true := by exact covers_le (by assumption) rfl) :
    Kept cv s0 (pnlCmdField via action s) := by
  unfold pnlCmdField
  repeat' first
    | exact covers_le hc rfl
    | with_reducible first
      | assumption | split | refine Kept.set_pnl ?_ (hc := ?_)

theorem identOnCmd_kept {cv : List Block} {s0 : State} (via : Via) (s : State) (hk0 : Kept cv s0 s)
    (hc : covers [.pnl] cv = true := by exact covers_le (by assumption) rfl) :
    Kept cv s0 (identOnCmd via s) := by
  unfold identOnCmd
  repeat' first
    | exact covers_le hc rfl
    | with_reducible first
      | assumption | apply identStart_kept | apply pnlCmdField_kept | split

theorem execIdentOn_kept {cv : List Block} {s0 : State} (via : Via) (s : State) (hk0 : Kept cv s0 s)
    (hc : covers [.pnl] cv = true := by exact covers_le (by assumption) rfl) :
    KeptRes cv s0 (execIdentOn via s) := by
  unfold execIdentOn
  repeat' first
    | exact covers_le hc rfl
    | with_reducible first
      | assumption | apply identOnCmd_kept | apply KeptRes.of_next

theorem identOffCmd_kept {cv : List Block} {s0 : State} (via : Via) (s : State) (hk0 : Kept cv s0 s)
    (hc : covers [.pnl] cv = true := by exact covers_le (by assumption) rfl) :
    Kept cv s0 (identOffCmd via s) := by
  unfold identOffCmd
  repeat' first
    | exact covers_le hc rfl
    | with_reducible first
      | assumption | apply identStop_kept | apply pnlCmdField_kept | split

theorem execIdentOff_kept {cv : List Block} {s0 : State} (via : Via) (s : State) (hk0 : Kept cv s0 s)
    (hc : covers [.pnl] cv = true := by exact covers_le (by assumption) rfl) :
    KeptRes cv s0 (execIdentOff via s) := by
  unfold execIdentOff
  repeat' first
    | exact covers_le hc rfl
    | with_reducible first
      | assumption | apply identOffCmd_kept | apply KeptRes.of_next

theorem bayLocateCmd_kept {cv : List Block} {s0 : State} (bay : Nat) (s : State) (hk0 : Kept cv s0 s)
    (hc : covers [.pnl] cv = true := by exact covers_le (by assumption) rfl) :
    Kept cv s0 (bayLocateCmd bay s) := by
  unfold bayLocateCmd
  repeat' first
    | exact covers_le hc rfl
    | with_reducible first
      | assumption | apply bayStart_kept | split | refine Kept.set_pnl ?_ (hc := ?_)

theorem execBayLocate_kept {cv : List Block} {s0 : State} (bay : Nat) (s : State) (hk0 : Kept cv s0 s)
    (hc : covers [.pnl] cv = true := by exact covers_le (by assumption) rfl) :
    KeptRes cv s0 (execBayLocate bay s) := by
  unfold execBayLocate
  repeat' first
    | exact covers_le hc rfl
    | with_reducible first
      | assumption | apply bayLocateCmd_kept | apply KeptRes.of_next

theorem refreshCmd_kept {cv : List Block} {s0 : State} (s : State) (hk0 : Kept cv s0 s)
    (hc : covers [.pnl] cv = true := by exact covers_le (by assumption) rfl) :
    Kept cv s0 (refreshCmd s) := by
  unfold refreshCmd
  repeat' first
    | exact covers_le hc rfl
    | with_reducible first
      | assumption | apply redraw_kept | apply pnlCmdField_kept | split

theorem execRefresh_kept {cv : List Block} {s0 : State} (s : State) (hk0 : Kept cv s0 s)
    (hc : covers [.pnl] cv = true := by exact covers_le (by assumption) rfl) :
    KeptRes cv s0 (execRefresh s) := by
  unfold execRefresh
  repeat' first
    | exact covers_le hc rfl
    | with_reducible first
      | assumption | apply refreshCmd_kept | apply KeptRes.of_next

end Sys2Proof.Safety
end

