-- ==== Sys2Proof/Laws/KeptRegisters.lean ====
section
/-! SUPPORT. What the definitions of Machine/Registers.lean keep: one lemma per definition, from any earlier state. -/

namespace Sys2Proof.Safety

-- The lemmas of this file are checked one after another, with few threads at a time.
set_option Elab.async false

open Sys2Proof.Machine

theorem stateOf_kept {cv : List Block} {s0 : State} {r : Res} (s : State) (h : KeptRes cv s0 r) (hk0 : Kept cv s0 s) :
    Kept cv s0 (stateOf r s) := by
  unfold stateOf
  split
  · exact h.next _ rfl
  · exact hk0

theorem accessRefused_kept {cv : List Block} {s0 : State} (rq : Requester) (off size : Nat) (isWrite : Bool) (s : State) (hk0 : Kept cv s0 s)
    (hc : covers [.hst, .flt, .out] cv = true := by exact covers_le (by assumption) rfl) :
    Kept cv s0 (accessRefused rq off size isWrite s) := by
  unfold accessRefused
  repeat' first
    | exact covers_le hc rfl
    | with_reducible first
      | assumption | refine note_kept _ _ ?_ (hc := ?_) (hd := by with_unfolding_all rfl)

theorem refuseAccess_kept {cv : List Block} {s0 : State} (rq : Requester) (off size : Nat) (isWrite : Bool) (s : State) (hk0 : Kept cv s0 s)
    (hc : covers [.hst, .flt, .out] cv = true := by exact covers_le (by assumption) rfl) :
    Kept cv s0 (refuseAccess rq off size isWrite s) := by
  unfold refuseAccess
  repeat' first
    | exact covers_le hc rfl
    | with_reducible first
      | assumption | apply accessRefused_kept | apply emit_kept | split

theorem extUndefined_kept {cv : List Block} {s0 : State} (s : State) (hk0 : Kept cv s0 s)
    (hc : covers [.ext] cv = true := by exact covers_le (by assumption) rfl) :
    Kept cv s0 (extUndefined s) := by
  unfold extUndefined
  repeat' first
    | exact covers_le hc rfl
    | with_reducible first
      | assumption | split | refine Kept.set_ext ?_ (hc := ?_)

theorem extWrite_kept {cv : List Block} {s0 : State} (w : Nat) (s : State) (hk0 : Kept cv s0 s)
    (hc : covers [.pwr, .hst, .mbx, .ext, .cdc, .drt, .hrd, .wrn, .eng, .opq, .flt, .out] cv = true := by exact covers_le (by assumption) rfl) :
    Kept cv s0 (extWrite w s) := by
  unfold extWrite
  repeat' first
    | exact covers_le hc rfl
    | with_reducible first
      | assumption | apply releaseAct_kept | apply scrubAct_kept | apply extUndefined_kept | split
      | refine Kept.set_ext ?_ (hc := ?_)

theorem hrdWrite_kept {cv : List Block} {s0 : State} (w : Nat) (s : State) (hk0 : Kept cv s0 s)
    (hc : covers [.hrd] cv = true := by exact covers_le (by assumption) rfl) :
    Kept cv s0 (hrdWrite w s) := by
  unfold hrdWrite
  repeat' first
    | exact covers_le hc rfl
    | with_reducible first
      | assumption | apply hrdCmd_kept | apply adoptAct_kept | apply approveAct_kept | apply evacuateAct_kept | apply hrdDone_kept
      | intro _
      | ((fail_if_no_progress (extract_lets +onlyGivenNames x)); refine Kept.cut (cv := cv) (s := s0) x ?_ (fun hx => ?_) <;> [dsimp -zeta only [x]; clear_value x])
      | ((fail_if_no_progress (extract_lets +onlyGivenNames x)); clear_value x) | dsimp -zeta only | split
      | refine Kept.set_hrd ?_ (hc := ?_)

theorem wrnWrite_kept {cv : List Block} {s0 : State} (w : Nat) (s : State) (hk0 : Kept cv s0 s)
    (hc : covers [.mon, .pwr, .hst, .mbx, .cdc, .drt, .hrd, .wrn, .flt, .out] cv = true := by exact covers_le (by assumption) rfl) :
    Kept cv s0 (wrnWrite w s) := by
  unfold wrnWrite
  repeat' first
    | exact covers_le hc rfl
    | with_reducible first
      | assumption | apply retrainAct_kept | apply disableAct_kept | apply enableAct_kept | split
      | refine Kept.set_wrn ?_ (hc := ?_)

theorem pwrWrite_kept {cv : List Block} {s0 : State} (w : Nat) (s : State) (hk0 : Kept cv s0 s)
    (hc : covers [.uni, .fus, .vq, .mon, .pwr, .hst, .mbx, .ext, .cdc, .drt, .hrd, .wrn, .eng, .opq, .lif, .pnl, .flt, .out, .free] cv = true := by exact covers_le (by assumption) rfl) :
    Kept cv s0 (pwrWrite w s) := by
  unfold pwrWrite
  repeat' first
    | exact covers_le hc rfl
    | with_reducible first
      | assumption | apply drainCmd_kept | apply resumeCmd_kept | apply dormouseCmd_kept | apply wakeCmd_kept
      | apply powerOffCmd_kept | apply startCmd_kept | apply pwrDone_kept | split | refine Kept.set_pwr ?_ (hc := ?_)

theorem lifWrite_kept {cv : List Block} {s0 : State} (w : Nat) (s : State) (hk0 : Kept cv s0 s)
    (hc : covers [.uni, .vq, .mon, .pwr, .hst, .mbx, .ext, .cdc, .drt, .hrd, .wrn, .eng, .opq, .lif, .pnl, .flt, .out, .free] cv = true := by exact covers_le (by assumption) rfl) :
    Kept cv s0 (lifWrite w s) := by
  unfold lifWrite
  repeat' first
    | exact covers_le hc rfl
    | with_reducible first
      | assumption | apply setCalCmd_kept | apply setUtcCmd_kept | apply lifDone_kept | split | refine Kept.set_lif ?_ (hc := ?_)

theorem pnlWrite_kept {cv : List Block} {s0 : State} (w : Nat) (s : State) (hk0 : Kept cv s0 s)
    (hc : covers [.hst, .pnl, .flt, .out] cv = true := by exact covers_le (by assumption) rfl) :
    Kept cv s0 (pnlWrite w s) := by
  unfold pnlWrite
  repeat' first
    | exact covers_le hc rfl
    | with_reducible first
      | assumption | apply identOnCmd_kept | apply identOffCmd_kept | apply bayLocateCmd_kept | apply refreshCmd_kept
      | apply writeIgnored_kept | split | refine Kept.set_pnl ?_ (hc := ?_)

theorem fltWrite_kept {cv : List Block} {s0 : State} (w : Nat) (s : State) (hk0 : Kept cv s0 s)
    (hc : covers [.uni, .vq, .mon, .pwr, .hst, .mbx, .ext, .cdc, .drt, .hrd, .wrn, .eng, .opq, .lif, .pnl, .flt, .out, .free] cv = true := by exact covers_le (by assumption) rfl) :
    Kept cv s0 (fltWrite w s) := by
  unfold fltWrite
  repeat' first
    | exact covers_le hc rfl
    | with_reducible first
      | assumption | apply faultResumeCmd_kept | split | refine Kept.set_flt ?_ (hc := ?_)

theorem policyWrite_kept {cv : List Block} {s0 : State} (w : Nat) (s : State) (hk0 : Kept cv s0 s)
    (hc : covers [.hst, .flt, .out] cv = true := by exact covers_le (by assumption) rfl) :
    Kept cv s0 (policyWrite w s) := by
  unfold policyWrite
  repeat' first
    | exact covers_le hc rfl
    | with_reducible first
      | assumption | apply writeIgnored_kept | split | refine Kept.set_hst ?_ (.of_eq rfl) (hc := ?_)

theorem bar2Reg_kept {cv : List Block} {s0 : State} (off : Nat) (w m : Word) (s : State) (hk0 : Kept cv s0 s)
    (hc : covers [.uni, .fus, .vq, .mon, .pwr, .hst, .mbx, .ext, .cdc, .drt, .hrd, .wrn, .eng, .opq, .lif, .pnl, .flt, .out, .free] cv = true := by exact covers_le (by assumption) rfl) :
    Kept cv s0 (bar2Reg off w m s) := by
  unfold bar2Reg
  repeat' first
    | exact covers_le hc rfl
    | with_reducible first
      | assumption | apply fuseGo_kept | apply loadFields_kept | apply loadGo_kept | apply vqCtl_kept | apply writeIgnored_kept
      | apply monCtl_kept | apply pwrWrite_kept | apply policyWrite_kept | apply extWrite_kept | apply stateOf_kept
      | apply execExtOlogTailWrite_kept | apply execUnfreeze_kept | apply hrdWrite_kept | apply wrnWrite_kept | apply engKat_kept
      | apply draw_kept | apply lifWrite_kept | apply pnlWrite_kept | apply fltWrite_kept | apply Kept.ite
      | refine Kept.set_cdc ?_ (hc := ?_) | refine Kept.set_drt ?_ (.of_eq rfl) (hc := ?_) | refine Kept.set_ext ?_ (hc := ?_)
      | refine Kept.set_fus ?_ (.of_eq rfl rfl) (hc := ?_) | refine Kept.set_lif ?_ (hc := ?_) | refine Kept.set_mon ?_ (hc := ?_)
      | refine Kept.set_pwr ?_ (hc := ?_) | refine Kept.set_uni ?_ (hc := ?_) | refine Kept.set_vq ?_ (.of_eq rfl) (hc := ?_)

theorem bar2Write_kept {cv : List Block} {s0 : State} (off size : Nat) (val : Word) (s : State) (hk0 : Kept cv s0 s)
    (hc : covers [.uni, .fus, .vq, .mon, .pwr, .hst, .mbx, .ext, .cdc, .drt, .hrd, .wrn, .eng, .opq, .lif, .pnl, .flt, .out, .free] cv = true := by exact covers_le (by assumption) rfl) :
    Kept cv s0 (bar2Write off size val s) := by
  unfold bar2Write
  extract_lets bytes r m
  split
  · exact Kept.upd hk0 ⟨fun h => mwrite_wf _ _ h, fun _ _ h => h⟩ (.of_eq rfl) (.of_eq rfl) (.of_eq rfl)
  · split
    · exact Kept.upd hk0 (.refl _) ⟨fun h => mwrite_wf _ _ h⟩ (.of_eq rfl) (.of_eq rfl)
    · exact bar2Reg_kept _ _ _ _ hk0

theorem bar2Get_kept {cv : List Block} {s0 : State} (rq : Requester) (off size : Nat) (s : State) (hk0 : Kept cv s0 s)
    (hc : covers [.mon, .lif, .out] cv = true := by exact covers_le (by assumption) rfl) :
    Kept cv s0 (bar2Get rq off size s) := by
  unfold bar2Get
  repeat' first
    | exact covers_le hc rfl
    | with_reducible first
      | assumption | apply stateOf_kept | apply execMonTimebaseReadLow_kept | apply execLifCalReadLow_kept | apply emit_kept
      | intro _ | split | refine Kept.set_lif ?_ (hc := ?_) | refine Kept.set_mon ?_ (hc := ?_)

theorem bar2Access_kept {cv : List Block} {s0 : State} (off size : Nat) (isWrite : Bool) (val : Word) (s : State) (hk0 : Kept cv s0 s)
    (hc : covers [.uni, .fus, .vq, .mon, .pwr, .hst, .mbx, .ext, .cdc, .drt, .hrd, .wrn, .eng, .opq, .lif, .pnl, .flt, .out, .free] cv = true := by exact covers_le (by assumption) rfl) :
    Kept cv s0 (bar2Access off size isWrite val s) := by
  unfold bar2Access
  repeat' first
    | exact covers_le hc rfl
    | with_reducible first
      | assumption | apply emit_kept | apply refuseAccess_kept | apply bar2Write_kept | apply bar2Get_kept | split

theorem vecWrite_kept {cv : List Block} {s0 : State} (ld v : Nat) (hi : Bool) (w : Word) (s : State) (hk0 : Kept cv s0 s)
    (hc : covers [.hst, .out] cv = true := by exact covers_le (by assumption) rfl) :
    Kept cv s0 (vecWrite ld v hi w s) := by
  unfold vecWrite
  dsimp only
  repeat' first
    | exact covers_le hc rfl
    | with_reducible first
      | assumption | exact fun _ h => h | exact fun _ _ => rfl | apply onLd_kept | apply emit_kept | intro _ | split

theorem contextWrite_kept {cv : List Block} {s0 : State} (ld r n k : Nat) (w m : Word) (s : State) (hk0 : Kept cv s0 s)
    (hc : covers [.hst, .opq, .flt, .out] cv = true := by exact covers_le (by assumption) rfl) :
    Kept cv s0 (contextWrite ld r n k w m s) := by
  unfold contextWrite
  dsimp only
  repeat' first
    | exact covers_le hc rfl
    | with_reducible first
      | assumption | apply writeIgnored_kept | apply onRing_kept | apply stateOf_kept | apply execRingEnable_kept
      | apply execRingDisable_kept | intro _ | split

theorem mailboxWrite_kept {cv : List Block} {s0 : State} (ld k off size : Nat) (val : Word) (s : State) (hk0 : Kept cv s0 s)
    (hc : covers [.hst, .mbx, .flt, .out] cv = true := by exact covers_le (by assumption) rfl) :
    Kept cv s0 (mailboxWrite ld k off size val s) := by
  unfold mailboxWrite
  repeat' first
    | exact covers_le hc rfl
    | with_reducible first
      | assumption | apply mbxRefused_kept | apply onBox_kept | apply postSend_kept | apply stateOf_kept
      | apply execMbxSendHalf_kept | apply execMbxSend_kept | apply execMbxRecvPop_kept | apply execMbxDbClear_kept
      | apply execMbxDbMaskWrite_kept | intro _ | split

theorem bar0Write_kept {cv : List Block} {s0 : State} (ld off size : Nat) (val : Word) (s : State) (hk0 : Kept cv s0 s)
    (hc : covers [.hst, .mbx, .ext, .wrn, .opq, .flt, .out] cv = true := by exact covers_le (by assumption) rfl) :
    Kept cv s0 (bar0Write ld off size val s) := by
  unfold bar0Write
  dsimp only
  repeat' first
    | exact covers_le hc rfl
    | with_reducible first
      | assumption | exact fun _ h => mwrite_wf _ _ h | exact fun _ h => h | exact fun _ _ => rfl | apply stateOf_kept
      | apply execHstLeaseRenew_kept | apply tailWrite_kept | apply onLd_kept | apply vecWrite_kept | apply mailboxWrite_kept
      | apply execSqDoorbell_kept | apply execCqDoorbell_kept | apply contextWrite_kept | intro _ | split

theorem bar0Access_kept {cv : List Block} {s0 : State} (ld off size : Nat) (isWrite : Bool) (val : Word) (s : State) (hk0 : Kept cv s0 s)
    (hc : covers [.hst, .mbx, .ext, .wrn, .opq, .flt, .out] cv = true := by exact covers_le (by assumption) rfl) :
    Kept cv s0 (bar0Access ld off size isWrite val s) := by
  unfold bar0Access
  repeat' first
    | exact covers_le hc rfl
    | with_reducible first
      | assumption | apply bar0Write_kept | apply emit_kept | apply mbxRefused_kept | split

theorem access_kept {cv : List Block} {s0 : State} (rq : Requester) (off size : Nat) (isWrite : Bool) (val : Word) (s : State) (hk0 : Kept cv s0 s)
    (hc : covers [.uni, .fus, .vq, .mon, .pwr, .hst, .mbx, .ext, .cdc, .drt, .hrd, .wrn, .eng, .opq, .lif, .pnl, .flt, .out, .free] cv = true := by exact covers_le (by assumption) rfl) :
    Kept cv s0 (access rq off size isWrite val s) := by
  unfold access
  repeat' first
    | exact covers_le hc rfl
    | with_reducible first
      | assumption | apply refuseAccess_kept | apply bar2Access_kept | apply bar0Access_kept | split

theorem execRegisterWrite_kept {cv : List Block} {s0 : State} (rq : Requester) (off size : Nat) (val : Word) (s : State) (hk0 : Kept cv s0 s)
    (hc : covers [.uni, .fus, .vq, .mon, .pwr, .hst, .mbx, .ext, .cdc, .drt, .hrd, .wrn, .eng, .opq, .lif, .pnl, .flt, .out, .free] cv = true := by exact covers_le (by assumption) rfl) :
    KeptRes cv s0 (execRegisterWrite rq off size val s) := by
  unfold execRegisterWrite
  repeat' first
    | exact covers_le hc rfl
    | with_reducible first
      | assumption | apply access_kept | apply KeptRes.of_next

theorem execRegisterAccessRefused_kept {cv : List Block} {s0 : State} (rq : Requester) (off size : Nat) (isWrite : Bool) (val : Word) (s : State) (hk0 : Kept cv s0 s)
    (hc : covers [.uni, .fus, .vq, .mon, .pwr, .hst, .mbx, .ext, .cdc, .drt, .hrd, .wrn, .eng, .opq, .lif, .pnl, .flt, .out, .free] cv = true := by exact covers_le (by assumption) rfl) :
    KeptRes cv s0 (execRegisterAccessRefused rq off size isWrite val s) := by
  unfold execRegisterAccessRefused
  repeat' first
    | exact covers_le hc rfl
    | with_reducible first
      | assumption | apply access_kept | apply KeptRes.of_next

theorem execIslandOffAccess_kept {cv : List Block} {s0 : State} (off size : Nat) (isWrite : Bool) (val : Word) (s : State) (hk0 : Kept cv s0 s)
    (hc : covers [.uni, .fus, .vq, .mon, .pwr, .hst, .mbx, .ext, .cdc, .drt, .hrd, .wrn, .eng, .opq, .lif, .pnl, .flt, .out, .free] cv = true := by exact covers_le (by assumption) rfl) :
    KeptRes cv s0 (execIslandOffAccess off size isWrite val s) := by
  unfold execIslandOffAccess
  repeat' first
    | exact covers_le hc rfl
    | with_reducible first
      | assumption | apply access_kept | apply KeptRes.of_next

end Sys2Proof.Safety
end

