-- ==== Sys2Proof/WellFormed.lean ====
section
/-! DEFINITION. Which commands are well formed: each operand that the spec gives a range or a width lies in it. The meanings
are total on every operand; a command out of range is one no sender can form. -/

namespace Sys2Proof.WellFormed

/-- Ranges of numbers: two, three, and the widths of message and register fields (Tables 12.5 and 12.6, R5). -/
def twoOk (n : Nat) : Bool := decide (n < 2)
def threeOk (n : Nat) : Bool := decide (n < 3)
def byteOk (n : Nat) : Bool := decide (n < 2 ^ 8)
def word16Ok (n : Nat) : Bool := decide (n < 2 ^ 16)
def word32Ok (n : Nat) : Bool := decide (n < 2 ^ 32)
def word64Ok (n : Nat) : Bool := decide (n < 2 ^ 64)

/-- An LD of the unit: 16 links of 16 LDs (R103). -/
def ldOk (n : Nat) : Bool := decide (n < 256)
/-- An LD an SPDM session runs on: a tenant's LD, or the FM-owned LD of a link (log entry 27). -/
def spdmLdOk (n : Nat) : Bool := decide (n < 272)
/-- A host link, a Drey bay and a Warren port of the unit. -/
def linkOk (n : Nat) : Bool := decide (n < 16)
def bayOk (n : Nat) : Bool := decide (n < 16)
def portOk (n : Nat) : Bool := decide (n < 48)
/-- A unit of the fabric, a tenant, an extent and a ring. -/
def unitOk (n : Nat) : Bool := decide (n < 1024)
def tenantOk (n : Nat) : Bool := decide (n < 256)
def extentOk (n : Nat) : Bool := decide (n < 65536)
def ringOk (n : Nat) : Bool := decide (n < 65536)
/-- An engine, its column, an island, a codec engine with its spare, a logical and a physical Shrew core (chapter 5). -/
def engineOk (n : Nat) : Bool := decide (n < 4)
def islandOk (n : Nat) : Bool := decide (n < 8)
def codecOk (n : Nat) : Bool := decide (n < 9)
def coreOk (n : Nat) : Bool := decide (n < 8)
def physCoreOk (n : Nat) : Bool := decide (n < 10)
def columnsOk (l : List Nat) : Bool := l.all fun n => decide (n < 132)
/-- A sensor, a voltage monitor and a pacer (chapter 2). -/
def sensorOk (n : Nat) : Bool := decide (n < 64)
def monitorOk (n : Nat) : Bool := decide (n < 32)
def pacerOk (n : Nat) : Bool := decide (n < 256)
/-- A PC of the unit, a bank of a PC with its SID, a stack, a SID (chapter 10), and a data-rate state (R216). -/
def pcOk (n : Nat) : Bool := decide (n < 256)
def bankOk (n : Nat) : Bool := decide (n < 64)
def stackOk (n : Nat) : Bool := decide (n < 8)
def sidOk (n : Nat) : Bool := decide (n < 32)
def rateOk (n : Nat) : Bool := decide (n < 4)
/-- A block of a tile and a strip of a block (chapter 9); a line-aligned address in an LD's space. -/
def blockOk (n : Nat) : Bool := decide (n < 8)
def stripOk (n : Nat) : Bool := decide (n < 8)
def lineOk (a : Nat) : Bool := decide (a < 2 ^ 64) && a % 64 == 0
/-- A chunk of a stripe and a code's numbers of data and parity chunks (chapter 11). -/
def chunkOk (n : Nat) : Bool := decide (n < 20)
def dataChunksOk (n : Nat) : Bool := decide (1 ≤ n) && decide (n ≤ 16)
def parityChunksOk (n : Nat) : Bool := decide (n ≤ 4)
/-- A lane of a port, its lanes in service, and a virtual channel (chapter 12). -/
def laneOk (n : Nat) : Bool := decide (n < 4)
def lanesOk (n : Nat) : Bool := decide (n ≤ 4)
def vcOk (n : Nat) : Bool := decide (n < 6)
/-- A start-up phase (Table 5.8), a unit state's code, and a log of an LD (R112). -/
def phaseOk (n : Nat) : Bool := decide (1 ≤ n) && decide (n ≤ 9)
def stateOk (n : Nat) : Bool := decide (n < 8)
def logOk (n : Nat) : Bool := decide (n < 5)
/-- An SRAM bank, and a row of it, spare rows included (R94). -/
def sramBankOk (n : Nat) : Bool := decide (n < 320)
def rowOk (n : Nat) : Bool := decide (n < 4104)
/-- An access of a register is 4 or 8 bytes (R29). -/
def accessOk (n : Nat) : Bool := n == 4 || n == 8
/-- A byte string of a fixed length; a part of an image (R69); vectors of an LD (R111). -/
def bytesOk (n : Nat) (l : List Byte) : Bool := l.length == n
def partBytesOk (l : List Byte) : Bool := decide (l.length ≤ 1024)
def vectorsOk (l : List Nat) : Bool := l.all fun n => decide (n < 64)

/-- The operands that are records. -/
def requesterOk : Requester → Bool
  | .bar0 ld => ldOk ld
  | .bar2 => true
def fuseCmdOk (c : FuseCmd) : Bool :=
  word16Ok c.format && word32Ok c.payloadLen
def partnerOk (p : LinkPartner) : Bool := [1, 2, 4, 8, 16].contains p.width
def helloOk (h : Hello) : Bool :=
  word16Ok h.src && byteOk h.port && byteOk h.lanes && byteOk h.slots && word16Ok h.cr0 && word16Ok h.cr1 && word16Ok h.cr3
    && word16Ok h.cr4 && word16Ok h.cr5 && word64Ok h.gen
def dreyChunkOk (c : DreyChunk) : Bool := word64Ok c.stripe && chunkOk c.idx && dataChunksOk c.k && parityChunksOk c.m && threeOk c.kind
def dreyOk (d : DreyId) : Bool := d.chunks.all dreyChunkOk && word64Ok d.membership && bayOk d.bayLast
def rootOk (r : RootRec) : Bool := unitOk r.writer && word64Ok r.lastSeq
def entryOk (e : RepairEntry) : Bool := decide (e.cls ≤ 12)
def envOk (e : StartEnv) : Bool :=
  e.fails.all entryOk && e.slows.all entryOk && e.retestPass.all entryOk && (e.hellos.all fun h => portOk h.1 && helloOk h.2)
    && (e.dreys.all fun d => bayOk d.1 && dreyOk d.2) && (e.links.all fun l => linkOk l.1 && partnerOk l.2) && e.badSids.all sidOk
    && e.phaseMs.length == 9

end Sys2Proof.WellFormed

namespace Sys2Proof

open Sys2Proof.WellFormed

/-- A command whose operands all lie in their ranges. -/
def wellFormed : Instr → Bool
  | .registerWrite rq _ size _ => requesterOk rq && accessOk size
  | .registerAccessRefused rq _ _ _ _ => requesterOk rq
  | .islandOffAccess _ _ _ _ => true
  | .hostMemRead _ ld dpa _ _ => ldOk ld && lineOk dpa
  | .fillBlockLanded tenant _ blk _ masks _ => tenantOk tenant && blockOk blk && bytesOk 8 masks
  | .hostMemWrite _ ld dpa _ data _ _ _ => ldOk ld && lineOk dpa && bytesOk 64 data
  | .stripWriteback tenant _ strip => tenantOk tenant && stripOk strip
  | .writebackComplete tenant _ => tenantOk tenant
  | .operandTileFetch engine tenant _ => engineOk engine && tenantOk tenant
  | .tempSensorConversion n _ _ => sensorOk n
  | .voltageMonitorConversion n _ _ => monitorOk n
  | .pacerWindow n _ _ => pacerOk n
  | .monTimebaseReadLow rq => requesterOk rq
  | .monCtlWrite _ => true
  | .setOwner c => fuseCmdOk c
  | .programSlot c => fuseCmdOk c
  | .revokeSlot c => fuseCmdOk c
  | .revokeSlotDeferred => true
  | .advanceArb c => fuseCmdOk c
  | .tightenDebug c => fuseCmdOk c
  | .programPolicy c => fuseCmdOk c
  | .fuseSeal c => fuseCmdOk c
  | .retire c => fuseCmdOk c
  | .debugUnlock c => fuseCmdOk c
  | .validate _ _ => true
  | .update _ _ => true
  | .nextStart _ _ => true
  | .loadModeRefused _ _ => true
  | .redfishImageAction _ mode _ => threeOk mode
  | .distributionTimeout => true
  | .imagePart src offset total mode bytes => unitOk src && word32Ok offset && word32Ok total && threeOk mode && partBytesOk bytes
  | .imageVerdict src code => unitOk src && byteOk code
  | .vqCtlAbort _ => true
  | .coldStart env => envOk env
  | .phaseBound phase => phaseOk phase
  | .engineKatTimer engine failed => engineOk engine && columnsOk failed
  | .engKatRun _ _ => true
  | .codecKatTimer phys _ => codecOk phys
  | .sramRowError bank row _ _ => sramBankOk bank && rowOk row
  | .shrewCoreFailure core => physCoreOk core
  | .paceScan _ => true
  | .engineRepairComplete engine => engineOk engine
  | .firmwareRestart => true
  | .firmwareRestartComplete => true
  | .linkUp link p => linkOk link && partnerOk p
  | .linkDown link => linkOk link
  | .linkRateLowering _ => true
  | .getLdInfo link => linkOk link
  | .getLdAllocations link => linkOk link
  | .setLdAllocations link => linkOk link
  | .addDynamicCapacityResponse ld ext _ _ => ldOk ld && extentOk ext
  | .releaseDynamicCapacity ld ext => ldOk ld && extentOk ext
  | .releaseTimeout ld ext => ldOk ld && extentOk ext
  | .hdmDecoderCommit ld idx _ _ _ _ _ _ => ldOk ld && twoOk idx
  | .hstLeaseRenew ld _ _ => ldOk ld
  | .identifyMemoryDevice ld => ldOk ld
  | .getSupportedLogs ld => ldOk ld
  | .getLog ld _ _ _ => ldOk ld
  | .getEventRecords ld log => ldOk ld && logOk log
  | .clearEventRecords ld log _ _ => ldOk ld && logOk log
  | .getEventInterruptPolicy ld => ldOk ld
  | .setEventInterruptPolicy ld msgs => ldOk ld && vectorsOk msgs
  | .getHealthInfo ld => ldOk ld
  | .getPoisonList ld _ _ => ldOk ld
  | .injectPoison ld dpa => ldOk ld && lineOk dpa
  | .clearPoison ld dpa data => ldOk ld && lineOk dpa && bytesOk 64 data
  | .getDynamicCapacityConfiguration ld => ldOk ld
  | .getDynamicCapacityExtentList ld => ldOk ld
  | .getTimestamp ld => ldOk ld
  | .setTimestamp ld _ => ldOk ld
  | .getFwInfo ld => ldOk ld
  | .unsupportedMailboxCommand ld opcode => ldOk ld && word16Ok opcode
  | .spdmRequest ld _ _ => spdmLdOk ld
  | .ideKeyProgramming link _ _ _ => linkOk link
  | .ideCheckFail link _ => linkOk link
  | .deferrableMemoryWrite ld _ _ => ldOk ld
  | .responseWatchdog _ => true
  | .functionLevelReset ld => ldOk ld
  | .hotReset link => linkOk link
  | .mbxSend ld _ _ => ldOk ld
  | .mbxSendHalf ld _ => ldOk ld
  | .mbxDmwrPointer ld _ _ _ => ldOk ld
  | .mbxDmwrWord ld _ _ => ldOk ld
  | .mbxRecvPop ld _ => ldOk ld
  | .mbxDbClear ld _ => ldOk ld
  | .mbxDbMaskWrite ld _ => ldOk ld
  | .ping ld core => ldOk ld && coreOk core
  | .leaseInfo ld core => ldOk ld && coreOk core
  | .extentState ld core => ldOk ld && coreOk core
  | .reserveLevels ld core => ldOk ld && coreOk core
  | .imageReq ld core => ldOk ld && coreOk core
  | .unknownOp ld core => ldOk ld && coreOk core
  | .f2hDeferredEnqueue ld => ldOk ld
  | .mailboxFault ld _ _ => ldOk ld
  | .mbx src tag box _ _ _ _ => unitOk src && word32Ok tag && byteOk box
  | .mbxAns src tag status => unitOk src && word32Ok tag && byteOk status
  | .sealExtent ringUnit ring _ => unitOk ringUnit && ringOk ring
  | .sealComplete ext => extentOk ext
  | .hostBirsp ld _ _ _ => ldOk ld
  | .biConflict ld _ => ldOk ld
  | .leaseRenew src tenant _ => unitOk src && tenantOk tenant
  | .leaseGrantDue tenant => tenantOk tenant
  | .leaseGrant src tenant _ => unitOk src && tenantOk tenant
  | .leaseGuardReached tenant => tenantOk tenant
  | .leaseExpiry tenant => tenantOk tenant
  | .leaseReclaimTimer tenant => tenantOk tenant
  | .leaseReclaim src tenant _ => unitOk src && tenantOk tenant
  | .leaseReport src tenant ext orphans _ _ => unitOk src && tenantOk tenant && extentOk ext && word32Ok orphans
  | .extOlogTailWrite _ => true
  | .release ext => extentOk ext
  | .scrub ext => extentOk ext
  | .scrubComplete ext => extentOk ext
  | .dramAdmission pc _ => pcOk pc
  | .dramUnitComplete _ _ => true
  | .sidRetireComplete => true
  | .poolRemapComplete => true
  | .unfreeze _ => true
  | .refreshDeadline pc bank => pcOk pc && bankOk bank
  | .refreshOpportunity pc => pcOk pc
  | .stackTempRead stack _ => stackOk stack
  | .dramScrub sid _ _ _ => sidOk sid
  | .dataRateChange target => rateOk target
  | .chunkGet src tag _ chunk offset len => unitOk src && word32Ok tag && chunkOk chunk && word32Ok offset && word32Ok len
  | .chunkData src tag status _ => unitOk src && word32Ok tag && byteOk status
  | .chunkPut src tag _ chunk k m kind _ _ => 
      unitOk src && word32Ok tag && chunkOk chunk && dataChunksOk k && parityChunksOk m && threeOk kind
  | .chunkAck src tag status => unitOk src && word32Ok tag && byteOk status
  | .chunkAckTimeout _ chunk => chunkOk chunk
  | .chunkGetTimeout tag => word32Ok tag
  | .commitTimer tenant _ => tenantOk tenant
  | .checkpoint => true
  | .compaction _ => true
  | .flashReclaim bay _ => bayOk bay
  | .weightedAgeTick bay _ => bayOk bay
  | .hoardScrub bay _ chunk _ _ => bayOk bay && chunkOk chunk
  | .flashDieFailure bay _ => bayOk bay
  | .chunkRebuild _ chunk _ => chunkOk chunk
  | .rebuildDelayExpired unit bay => unitOk unit && bayOk bay
  | .dreyInserted bay d => bayOk bay && dreyOk d
  | .dreyMounted bay => bayOk bay
  | .bayButtonPress bay => bayOk bay
  | .approve bay => bayOk bay
  | .approvalTimeout bay => bayOk bay
  | .removalWindowExpired bay => bayOk bay
  | .dreyPulled bay => bayOk bay
  | .dreyForcedOut bay => bayOk bay
  | .evacuate bay => bayOk bay
  | .evacuationComplete bay => bayOk bay
  | .adopt bay => bayOk bay
  | .adoptLapse bay => bayOk bay
  | .adoptionComplete bay => bayOk bay
  | .flitReceived port _ flit => portOk port && bytesOk 256 flit
  | .replayTimeout port => portOk port
  | .laneFailure port lane => portOk port && laneOk lane
  | .read src dst tag hops tenant addr _ ident _ port => 
      unitOk src && unitOk dst && word32Ok tag && word16Ok hops && tenantOk tenant && word64Ok addr && word16Ok ident && portOk port
  | .readData src tag status grant strip form _ masks _ => 
      unitOk src && word32Ok tag && byteOk status && threeOk grant && stripOk strip && twoOk form && bytesOk 8 masks
  | .write src dst tag hops tenant addr _ ident _ _ data port => 
      unitOk src && unitOk dst && word32Ok tag && word16Ok hops
      && tenantOk tenant && word64Ok addr && word16Ok ident && bytesOk 64 data && portOk port
  | .writeDone src tag status => unitOk src && word32Ok tag && byteOk status
  | .bisnp src tag tenant addr _ ld => unitOk src && word32Ok tag && tenantOk tenant && word64Ok addr && ldOk ld
  | .birsp src tag tenant addr _ => unitOk src && word32Ok tag && tenantOk tenant && word64Ok addr
  | .opFwd src tag ring sq tenant desc => unitOk src && word32Ok tag && ringOk ring && word32Ok sq && tenantOk tenant && bytesOk 128 desc
  | .opDone src tag record => unitOk src && word32Ok tag && bytesOk 64 record
  | .opFwdResend tag => word32Ok tag
  | .reserve port src tag len => portOk port && unitOk src && word32Ok tag && word32Ok len
  | .grant port tag _ withdrawn => portOk port && word32Ok tag && word32Ok withdrawn
  | .bulkSlotFreed port _ => portOk port
  | .presenceProbe src st => unitOk src && stateOk st
  | .presenceAnswer src st => unitOk src && stateOk st
  | .presenceProbeTimer peer => unitOk peer
  | .unreachableTimeout peer => unitOk peer
  | .transitTimeout port tag => portOk port && word32Ok tag
  | .requestRetryTimer tag => word32Ok tag
  | .routeRestore dst => unitOk dst
  | .timeSyncTimer => true
  | .delayReqTimer => true
  | .timeSync port src depth _ _ _ => portOk port && unitOk src && byteOk depth
  | .delayReq port src _ _ => portOk port && unitOk src
  | .delayResp port src _ _ => portOk port && unitOk src
  | .portDown port => portOk port
  | .cablePlugged port lanes => portOk port && lanesOk lanes
  | .hello port h => portOk port && helloOk h
  | .credit port vc count => portOk port && vcOk vc && word16Ok count
  | .retrain port => portOk port
  | .disable port => portOk port
  | .enable port => portOk port
  | .engineBlockDispatch engine => engineOk engine
  | .outputBlockDrain engine badColumns => engineOk engine && columnsOk badColumns
  | .ringEnable ld ring _ => ldOk ld && ringOk ring
  | .ringDisable ld ring => ldOk ld && ringOk ring
  | .sqDoorbell ld ring _ _ _ => ldOk ld && ringOk ring
  | .cqDoorbell ld ring _ _ => ldOk ld && ringOk ring
  | .descriptorTake => true
  | .copy ringUnit ring _ => unitOk ringUnit && ringOk ring
  | .prefetch ringUnit ring _ => unitOk ringUnit && ringOk ring
  | .pin ringUnit ring _ => unitOk ringUnit && ringOk ring
  | .unpin ringUnit ring _ => unitOk ringUnit && ringOk ring
  | .migrate ringUnit ring _ => unitOk ringUnit && ringOk ring
  | .gather ringUnit ring _ => unitOk ringUnit && ringOk ring
  | .scatter ringUnit ring _ => unitOk ringUnit && ringOk ring
  | .gemm ringUnit ring _ => unitOk ringUnit && ringOk ring
  | .groupedGemm ringUnit ring _ => unitOk ringUnit && ringOk ring
  | .expertRoute ringUnit ring _ => unitOk ringUnit && ringOk ring
  | .expertFfn ringUnit ring _ => unitOk ringUnit && ringOk ring
  | .reduceExact ringUnit ring _ => unitOk ringUnit && ringOk ring
  | .checksum ringUnit ring _ => unitOk ringUnit && ringOk ring
  | .exportCompressed ringUnit ring _ => unitOk ringUnit && ringOk ring
  | .abort ringUnit ring _ => unitOk ringUnit && ringOk ring
  | .operatorTimeout ringUnit ring _ => unitOk ringUnit && ringOk ring
  | .epochPrepare src epoch _ => unitOk src && word64Ok epoch
  | .epochPrepared src epoch => unitOk src && word64Ok epoch
  | .epochRefused src epoch code => unitOk src && word64Ok epoch && byteOk code
  | .prepareTimeout => true
  | .epochCommit src epoch _ => unitOk src && word64Ok epoch
  | .epochRollback src epoch => unitOk src && word64Ok epoch
  | .epochDone src epoch _ => unitOk src && word64Ok epoch
  | .commitResendTimer => true
  | .preparedResend => true
  | .stagedSwitch => true
  | .migrationSettled => true
  | .powerControlTick _ => true
  | .comparatorTrip => true
  | .regulatorFault island status => islandOk island && word16Ok status
  | .inputLost _ => true
  | .inputRestored _ => true
  | .bothInputsLost => true
  | .standbyPowerApplied _ => true
  | .start _ => true
  | .drain _ => true
  | .drained => true
  | .resume => true
  | .dormouse => true
  | .wake _ => true
  | .powerOff _ => true
  | .drainFaultTimeout => true
  | .calendarCompare => true
  | .calendarTrimUpdate _ => true
  | .setCal _ t => word64Ok t
  | .setUtc s => word64Ok s
  | .ptpMessage _ => true
  | .historySample period _ => threeOk period
  | .poweredHour => true
  | .wearRecordWrite bay => bayOk bay
  | .coinCellRemoved => true
  | .displayRefresh => true
  | .homeTimeout => true
  | .slide _ => true
  | .prev => true
  | .next => true
  | .locate => true
  | .removeKey => true
  | .adoptConfirmation => true
  | .confirm => true
  | .stripRejection => true
  | .select _ => true
  | .ident => true
  | .locateExpired _ => true
  | .hold => true
  | .switchTurn position => threeOk position
  | .coverOpened => true
  | .coverClosed => true
  | .identOn _ => true
  | .identOff _ => true
  | .bayLocate bay => bayOk bay
  | .refresh => true
  | .eventMergeWindow _ _ _ tenant => tenantOk tenant
  | .faultResume => true
  | .fltLdTailWrite ld _ => ldOk ld
  | .dreyReleased bay => bayOk bay
  | .lifCalReadLow rq => requesterOk rq
  | .rootRecord src r => unitOk src && rootOk r

end Sys2Proof
end

