-- ==== Sys2Proof/Tests/Slice0.lean ====
section
/-! SUPPORT. Small checks of the model: ill-formed commands, states that meet the hypotheses of the statements, and single steps
worked out from the spec. -/

open Sys2Proof Sys2Proof.Machine Sys2Proof.Safety

namespace Sys2Proof.Tests

-- A theorem is checked before the next one begins: the checks by evaluation then need few threads at a time.
set_option Elab.async false
set_option maxRecDepth 4000

/-! ### Small states -/

/-- An image with some records, and the records that the tests use. -/
def imgOf (rs : List Record) : Image :=
  { raw := [], rollback := 0, slot := 0, fabric := 0, gen := 0, parent := [], records := rs, digest := [] }
def recOf (typ inst scope : Nat) (body : List Byte) : Record := { typ := typ, version := 1, inst := inst, scope := scope, body := body }
def fabricRec (n gm src : Nat) : Record := recOf 0x01 0 0xFFFF (leBytes 2 n ++ leBytes 2 2000 ++ leBytes 2 gm ++ leBytes 1 src)
def unitRec (u : Nat) (hoard : Bool) : Record := recOf 0x02 0 u (leBytes 16 0 ++ leBytes 1 (b2n hoard))
def tenantRec (t home : Nat) : Record := recOf 0x03 t 0xFFFF (leBytes 2 home ++ leBytes 2 0 ++ leBytes 2 3)
def bindRec (ld t : Nat) : Record := recOf 0x05 ld 0xFFFF (leBytes 1 t ++ leBytes 1 0)
/-- An extent of tenant `t` of one GiB at address 0. -/
def extentRec (x t kind : Nat) : Record :=
  recOf 0x0F x 0xFFFF (leBytes 1 t ++ leBytes 1 kind ++ leBytes 6 0 ++ leBytes 4 0 ++ leBytes 4 1 ++ leBytes 32 0)
def tieringRec (x pinned unit : Nat) : Record := recOf 0x10 x 0xFFFF (leBytes 1 1 ++ leBytes 1 pinned ++ leBytes 6 0 ++ leBytes 2 unit)
/-- Two units, of which this one, unit 0, serves extent 5 of tenant 1, to which LD 0 is bound. -/
def img1 (kind : Nat) : Image :=
  imgOf [fabricRec 2 0 1, unitRec 0 true, unitRec 1 true, tenantRec 1 0, bindRec 0 1, extentRec 5 1 kind, tieringRec 5 0 0]
/-- A SERVING unit with an image in force. -/
def unitIn (st : UnitState) (m : Image) : State :=
  { State.reset with uni := { st := st }, vq := { active := some m, valid := true }, mon := { loaded := true, timebase := 1000000000 } }
def aDrey : DreyId :=
  { serial := 1, copiesOk := 2, owned := true, owner := 0, fabric := 0, wrapped := [], membership := 1, bayLast := 0, clean := false
    lastSeen := 0, formatTime := 0, post := true, failedDies := [], failedSpares := [], wearSeq := 0, wearUpdate := 0, pagesProg := 0
    pagesRead := 0, hoursMounted := 0, insertions := 0, tempHist := [], eraseMean := [], chunks := [], unwraps := true }
/-- A unit that serves extent 5, of the kind given, to LD 0 of tenant 1, which holds its lease. -/
def serving (kind : Nat) : State :=
  { unitIn .serving (img1 kind) with
    hst := { lds := [(0, { accepted := [(5, false)] })], ideRequired := false }
    ext := { exts := [(5, { st := 1 })], leases := [(1, { granted := true, expiry := 2000000000 })] }
    drt := { volatile := [(0, (5, 0))], ways := [(3932160, { key := 2 ^ 35, valid := true })], logical := 24 } }
/-- The same with a write staged in strip 0 of block 0, line 1 of it poisoned. -/
def staging (kind : Nat) : State :=
  { serving kind with cdc := { stg := [{ tenant := 1, block := 0, strips := [{ present := true, dirty := true }], data := List.replicate 128 7, poison := 2, lastUse := 0 }] } }
/-- A SERVING unit with every island on and fuses in SEALED. -/
def sealedUnit : State :=
  { State.reset with uni := { st := .serving }, pwr := { isl := (List.range 8).map fun i => (i, { on := true }) }
                     fus := { words := [(0, ⟨0xDB, .clean⟩)] } }

/-! ### Ill-formed commands -/

def fuseCmd0 : FuseCmd :=
  { format := 1, payloadLen := 0, dieLo := 0, dieHi := 0, nonce := 0, reserved := 0, payload := [], mldsaKey := [], ecKey := [], mldsaSig := [], ecSig := [] }
def partner0 : LinkPartner := { rate := 64, width := 16, flit256 := true, cxl := true, equalised := true, switched := false }
def hello0 : Hello :=
  { src := 1, dieLo := 0, dieHi := 0, port := 0, lanes := 4, slots := 4, cr0 := 1, cr1 := 1, cr3 := 1, cr4 := 1, cr5 := 1, digest := 0, gen := 1 }
def chunk0 : DreyChunk := { stripe := 1, idx := 0, k := 1, m := 0, kind := 0, crc := 0, die := 0, block := 0, page := 0, bytes := [] }
def env0 : StartEnv :=
  { fwOk := true, fails := [], slows := [], retestPass := [], badMonitors := [], fuseCorrected := [], fuseBad := [], badSids := []
    warrenTime := none, ptpTime := none, hellos := [], dreys := [], replayed := [], links := [], phaseMs := List.replicate 9 0 }

/-- The check takes the first command and refuses the second. -/
def tellsApart (good bad : Instr) : Bool := wellFormed good && !wellFormed bad

theorem test_ill_widths : tellsApart (.hdmDecoderCommit 0 1 0 0 1 0 0 true) (.hdmDecoderCommit 0 2 0 0 1 0 0 true) = true ∧
    tellsApart (.switchTurn 2) (.switchTurn 3) = true ∧ tellsApart (.imageVerdict 0 255) (.imageVerdict 0 256) = true ∧
    tellsApart (.unsupportedMailboxCommand 0 0xFFFF) (.unsupportedMailboxCommand 0 0x10000) = true ∧
    tellsApart (.opFwdResend 0xFFFFFFFF) (.opFwdResend 0x100000000) = true ∧
    tellsApart (.setUtc (2 ^ 64 - 1)) (.setUtc (2 ^ 64)) = true := by decide +kernel
theorem test_ill_hosts : tellsApart (.getTimestamp 255) (.getTimestamp 256) = true ∧
    tellsApart (.spdmRequest 271 0x84 []) (.spdmRequest 272 0x84 []) = true ∧ tellsApart (.hotReset 15) (.hotReset 16) = true ∧
    tellsApart (.getEventRecords 0 4) (.getEventRecords 0 5) = true ∧
    tellsApart (.setEventInterruptPolicy 0 [63]) (.setEventInterruptPolicy 0 [63, 64]) = true ∧
    tellsApart (.injectPoison 0 64) (.injectPoison 0 65) = true ∧
    tellsApart (.clearPoison 0 0 (List.replicate 64 0)) (.clearPoison 0 0 (List.replicate 63 0)) = true ∧
    tellsApart (.linkUp 0 partner0) (.linkUp 0 { partner0 with width := 3 }) = true ∧
    tellsApart (.registerWrite .bar2 0 8 0) (.registerWrite .bar2 0 2 0) = true ∧
    tellsApart (.monTimebaseReadLow (.bar0 255)) (.monTimebaseReadLow (.bar0 256)) = true := by decide +kernel
theorem test_ill_unit : tellsApart (.engineRepairComplete 3) (.engineRepairComplete 4) = true ∧
    tellsApart (.outputBlockDrain 0 [131]) (.outputBlockDrain 0 [132]) = true ∧
    tellsApart (.regulatorFault 7 0) (.regulatorFault 8 0) = true ∧ tellsApart (.codecKatTimer 8 true) (.codecKatTimer 9 true) = true ∧
    tellsApart (.ping 0 7) (.ping 0 8) = true ∧ tellsApart (.shrewCoreFailure 9) (.shrewCoreFailure 10) = true ∧
    tellsApart (.tempSensorConversion 63 0 true) (.tempSensorConversion 64 0 true) = true ∧
    tellsApart (.voltageMonitorConversion 31 0 true) (.voltageMonitorConversion 32 0 true) = true ∧
    tellsApart (.pacerWindow 255 0 true) (.pacerWindow 256 0 true) = true ∧
    tellsApart (.sramRowError 319 4103 true true) (.sramRowError 320 0 true true) = true ∧
    tellsApart (.sramRowError 0 4103 true true) (.sramRowError 0 4104 true true) = true ∧
    tellsApart (.programSlot fuseCmd0) (.programSlot { fuseCmd0 with payloadLen := 2 ^ 32 }) = true ∧
    tellsApart (.phaseBound 9) (.phaseBound 0) = true ∧ tellsApart (.presenceProbe 0 7) (.presenceProbe 0 8) = true := by decide +kernel
theorem test_ill_memory : tellsApart (.refreshDeadline 255 63) (.refreshDeadline 256 0) = true ∧
    tellsApart (.refreshDeadline 0 63) (.refreshDeadline 0 64) = true ∧ tellsApart (.stackTempRead 7 0) (.stackTempRead 8 0) = true ∧
    tellsApart (.dramScrub 31 0 0 false) (.dramScrub 32 0 0 false) = true ∧ tellsApart (.dataRateChange 3) (.dataRateChange 4) = true ∧
    tellsApart (.fillBlockLanded 1 0 7 0 (List.replicate 8 0) []) (.fillBlockLanded 1 0 8 0 (List.replicate 8 0) []) = true ∧
    tellsApart (.stripWriteback 1 0 7) (.stripWriteback 1 0 8) = true ∧ tellsApart (.stripWriteback 255 0 0) (.stripWriteback 256 0 0) = true ∧
    tellsApart (.release 65535) (.release 65536) = true := by decide +kernel
theorem test_ill_hoard : tellsApart (.approve 15) (.approve 16) = true ∧
    tellsApart (.chunkGet 1 0 0 19 0 64) (.chunkGet 1 0 0 20 0 64) = true ∧
    tellsApart (.chunkPut 1 0 0 0 16 4 0 0 []) (.chunkPut 1 0 0 0 17 4 0 0 []) = true ∧
    tellsApart (.chunkPut 1 0 0 0 16 4 0 0 []) (.chunkPut 1 0 0 0 16 5 0 0 []) = true ∧
    tellsApart (.imagePart 1 0 1024 0 (List.replicate 1024 0)) (.imagePart 1 0 1024 0 (List.replicate 1025 0)) = true ∧
    tellsApart (.dreyInserted 0 { aDrey with chunks := [chunk0] }) (.dreyInserted 0 { aDrey with chunks := [{ chunk0 with idx := 20 }] }) = true ∧
    tellsApart (.dreyInserted 0 aDrey) (.dreyInserted 0 { aDrey with bayLast := 16 }) = true ∧
    tellsApart (.rootRecord 1 ⟨1023, [], 1⟩) (.rootRecord 1 ⟨1024, [], 1⟩) = true := by decide +kernel
theorem test_ill_warren : tellsApart (.portDown 47) (.portDown 48) = true ∧ tellsApart (.routeRestore 1023) (.routeRestore 1024) = true ∧
    tellsApart (.ringDisable 0 65535) (.ringDisable 0 65536) = true ∧ tellsApart (.laneFailure 0 3) (.laneFailure 0 4) = true ∧
    tellsApart (.cablePlugged 0 4) (.cablePlugged 0 5) = true ∧ tellsApart (.credit 0 5 1) (.credit 0 6 1) = true ∧
    tellsApart (.hello 0 hello0) (.hello 0 { hello0 with gen := 2 ^ 64 }) = true ∧
    tellsApart (.flitReceived 0 true (List.replicate 256 0)) (.flitReceived 0 true []) = true ∧
    tellsApart (.coldStart env0) (.coldStart { env0 with phaseMs := [] }) = true ∧
    tellsApart (.coldStart { env0 with slows := [⟨12, 0, 0⟩] }) (.coldStart { env0 with slows := [⟨13, 0, 0⟩] }) = true := by decide +kernel

/-! ### Worked cases of the spec -/

/-- Chapter 1: a unit with serial CH-2611-10472, firmware 3.2.17 and library 1.4.9. -/
theorem test_product_and_version :
    let s := { State.reset with uni := { serYyww := 0x2611, serSeq := 0x0472, serSeqHi := 1, fwMajor := 3, fwMinor := 2, fwPatch := 17, lib := 0x01040009, hwIssue := 1, media := true } }
    bar2Read s 0 = 0x0472261101010048#64 ∧ bar2Read s 8 = 0x1011020301040009#64 := by decide +kernel
/-- Chapter 3: SEALED with its owner set, slots 0 to 2 programmed, counter 5 and debug bits 0, 5 and 6 blown; and after steps 3 and 5. -/
theorem test_fuse_state :
    let w (n : Nat) (b : BitVec 64) : Nat × FuseWord := (n, ⟨b, .clean⟩)
    let f (rev c : BitVec 64) : Fus := { words := [w 0 (0xDB ||| rev), w 1 c, w 3 0x006100610061, w 8 1, w 18 1, w 24 1, w 30 1] }
    fusState (f 0 0x1F) = 0x000000400184141E ∧ fusState (f 0x02220000 0x3F) = 0x000000400184189E := by decide +kernel
/-- Chapter 5: the entries of a failed engine column and of a failed SRAM row. -/
theorem test_repair_entries : entryVal ⟨1, 2, 0x39⟩ = 0x10020039 ∧ entryVal ⟨5, 0xC8, 0x4D2⟩ = 0x50C804D2 := by decide
/-- Chapter 10: the place of a strip and of its block's record. -/
theorem test_map : mapAddr 31 12 true 0x401235A00 = ⟨15, 18, 5, 564, 18, 0⟩ ∧ mapMeta 31 true 2099482 = ⟨7, 9, 4, 132, 31, 0⟩ ∧
    recByte 0x401235A00 / 64 = 2099482 := by decide +kernel
/-- Chapter 10: an error in symbol 9 of half 0 is corrected; with a second one in that half R disagrees and the line is uncorrectable. -/
theorem test_check_line : checkLine [⟨0, 0, 9, 0x1234⟩] [0, 1] (some 0) = .ok 1 ∧
    (match checkLine [⟨0, 0, 9, 0x1234⟩, ⟨0, 0, 3, 1⟩] [0, 1] (some 0) with | .bad .. => true | .ok _ => false) = true := by decide +kernel
/-- Chapter 12: the `READ` of tag 0x5A01 and the header of its flit. -/
theorem test_read_message :
    let e : Envelope := { dst := 16, src := 3, tag := 0x5A01, hops := 32, tenant := 17, retry := false, msg := .read 0x041030000000 0x00000A3F1C002210 0x1140 .shared }
    encodeEnv e = [0x01, 0x00, 0x30, 0x00, 0x10, 0x00, 0x03, 0x00, 0x01, 0x5A, 0x00, 0x00, 0x20, 0x00, 0x11, 0x00,
      0x00, 0x00, 0x00, 0x30, 0x10, 0x04, 0x00, 0x00, 0x10, 0x22, 0x00, 0x1C, 0x3F, 0x0A, 0x00, 0x00, 0x40, 0x11, 0x01] ++ List.replicate 13 0 ∧
    (flitBytes { kind := 1, vc := 0, seq := 0x1A4, fmo := 0, body := [], env := none } 0x0F7 true false).take 8
      = [0x01, 0xA4, 0x71, 0x0F, 0x01, 0x00, 0x00, 0x00] := by decide +kernel
/-- Chapter 13: 1 + 2^-10 rounded once, and its LONG form. -/
theorem test_exact_sum :
    let l : Int := 2 ^ 300 + 2 ^ 290
    roundEntry 2 0 0 l = { val := 0x3F802000 } ∧ roundEntry 1 0 0 l = { val := 0x3C01 } ∧ roundEntry 3 0 0 l = { val := 0x3FF0040000000000 } ∧
    roundEntry 0 0 0 l = { val := 0x3F80, inexact := true } ∧ roundEntry 0 2 0 l = { val := 0x3F81, inexact := true } ∧
    longBytes (finiteEntry l) = List.replicate 36 0 ++ [0x04, 0x10] ++ List.replicate 40 0 ++ [0x01, 0x00] := by decide +kernel
/-- Chapter 13: the dot product with strong cancellation, term by term. -/
theorem test_dot_product :
    let p (a b : Nat) : Entry := product (inputEl 1 a) (inputEl 1 b)
    addEntry (addEntry (addEntry (p 0x4580 0x4580) (p 0x3F80 0x3F80)) (p 0xC580 0x4580)) (p 0x3D00 0x3D00) = finiteEntry (2 ^ 300 + 2 ^ 290) := by decide +kernel
/-- Chapter 19: the record of a quarantined extent of tenant 17. -/
theorem test_event_bytes :
    let r : EventRec :=
      { cls := 3, disp := 0, code := 0x0702, unit := 3, seq := 76877, time := 0x00000A418C3B96E0, tenant := 17, scopeKind := 2
        scopeIdx := 0x0212, count := 1, addr := 0x040000000000, d0 := 0, d1 := 4, early := false, lost := false }
    (eventBytes r).take 60
      = [0x01, 0x00, 0x03, 0x00, 0x02, 0x07, 0x03, 0x00, 0x4D, 0x2C, 0x01, 0, 0, 0, 0, 0, 0xE0, 0x96, 0x3B, 0x8C, 0x41, 0x0A, 0x00, 0x00,
         0x11, 0x02, 0x12, 0x02, 0x01, 0, 0, 0, 0, 0, 0, 0, 0, 0x04, 0, 0] ++ List.replicate 8 0 ++ [4, 0, 0, 0, 0, 0, 0, 0] ++ List.replicate 4 0 := by decide +kernel
/-- Chapter 18: `PNL_CMD` 0x8000_0000_0000_0093 locates bay 9. -/
theorem test_panel_locate :
    (match exec (.registerWrite .bar2 0x0F000008 8 0x8000000000000093) sealedUnit with
      | .next t => t.pnl.bay == 9 && t.pnl.bayOn
      | _ => false) = true := by decide +kernel
/-- Chapter 21: the state of extent 0x0212 lies at 0x0710_1090 and that of port 20 at 0x0B00_01A0. -/
theorem test_register_places :
    let s := { State.reset with ext := { State.reset.ext with exts := [(0x212, { st := 4 })] }, wrn := { State.reset.wrn with ports := [(20, { st := 3 })] } }
    bits (bar2Read s 0x07101090).toNat 3 0 = 4 ∧ bits (bar2Read s 0x0B0001A0).toNat 3 0 = 3 := by decide +kernel
/-- A command at the front of the queue is taken, the next one stays. -/
theorem test_queue :
    (match step { sealedUnit with pending := [.locate, .next] } with | .next t => t.pending == [.next] | _ => false) = true := by decide +kernel
/-- The queue of the unit at reset is empty: the step lets 1 ns pass. -/
theorem test_tick : (match step { State.reset with mon := { State.reset.mon with loaded := true } } with
    | .next t => t.mon.timebase == 1 | _ => false) = true := by decide +kernel

/-! ### States that meet the hypotheses of the statements -/

theorem test_wit_idle : (State.reset.pending = []) ∧ ({ State.reset with lif := { calValid := true } } : State).lif.calValid = true ∧
    State.reset.lif.calValid = false := by decide

theorem test_wit_memories : memWf State.reset.fus.buf = true ∧ memWf State.reset.vq.buf = true ∧ memWf State.reset.drt.tier = true ∧
    State.reset.hst.lds = [] := by decide

theorem test_wit_restrict : bit (slotsRevoked { words := [(0, ⟨0x1110000, .clean⟩)] }) 0 = true ∧
    bit (debugPolicy { words := [(3, ⟨0x800080008000, .clean⟩)] }) 15 = true := by decide

theorem test_wit_pages : let s : State := { State.reset with uni := { st := .serving }, pnl := { page := 1, focus := 15 } }
    s.uni.st ≠ .off ∧ s.pnl.switch ≠ 2 ∧ s.pnl.page < 7 ∧ s.pnl.page = 1 ∧ now s < s.pnl.lastTouch + 120 * secNs := by decide
theorem test_wit_home : let s : State := { State.reset with uni := { st := .serving, interval := 120000000000 } }
    s.uni.st ≠ .off ∧ s.pnl.lastTouch + 120 * secNs ≤ now s := by decide
theorem test_wit_locate : let s : State := { State.reset with uni := { st := .serving }, pnl := { page := 1, identOn := true, bayUntil := 1, identUntil := 1 } }
    s.uni.st ≠ .off ∧ s.pnl.identOn = true ∧ s.pnl.page = 1 ∧ now s < s.pnl.identUntil ∧ now s < s.pnl.bayUntil := by decide
theorem test_wit_locate_home : let s : State := State.reset
    s.uni.st ≠ .off ∧ s.pnl.identOn = false ∧ s.pnl.page = 0 ∧ s.pnl.identUntil ≤ now s ∧ s.pnl.bayUntil ≤ now s := by decide

theorem test_wit_hold : let s : State := { State.reset with uni := { st := .serving }, pnl := { switch := 1 } }
    (s.uni.st = .serving ∨ s.uni.st = .draining) ∧ s.pnl.switch ≠ 0 ∧ s.pnl.cover = false ∧ s.uni.st ≠ .off ∧ (2 = 1 ∨ 2 = 2) ∧
    2 ≠ s.pnl.switch ∧ s.pnl.switch ≠ 2 := by decide
theorem test_wit_hold_locked : State.reset.uni.st ≠ .off ∧ State.reset.pnl.switch = 0 := by decide
theorem test_wit_hold_start : let s : State := { State.reset with pnl := { switch := 2 } }
    s.uni.st = .starting ∧ s.pnl.switch ≠ 0 ∧ s.pnl.switch = 2 := by decide
theorem test_wit_confirm : let m : Image := { raw := [], rollback := 0, slot := 0, fabric := 0, gen := 0, parent := [], records := [], digest := [] }
    let s : State := { State.reset with uni := { st := .serving }, pnl := { page := 7, switch := 2 }, vq := { bankB := some m, nextMarked := true } }
    s.uni.st = .serving ∧ s.pnl.page = 7 ∧ s.pnl.switch = 2 ∧ otherBank s.vq = some m ∧ s.vq.nextMarked = true := by decide

theorem test_wit_standby : let s : State := { State.reset with uni := { st := .standby } }
    s.uni.st = .standby ∧ s.uni.st ≠ .draining ∧ s.uni.st ≠ .dormouse ∧ s.uni.st ≠ .serving ∧ s.uni.st ≠ .held := by decide
theorem test_wit_off : let s : State := { State.reset with uni := { st := .off } }
    s.uni.st = .off ∧ s.pwr.autoStart = true ∧ s.uni.st ≠ .standby := by decide
theorem test_wit_draining : let s : State := { State.reset with uni := { st := .draining } }
    s.uni.st = .draining ∧ drainedNow s = true ∧ s.hrd.dirtyPages = [] ∧ s.uni.drainFaultDue = none ∧ s.pwr.drained = false := by decide
theorem test_wit_dormouse : let s : State := { State.reset with uni := { st := .dormouse } }
    s.uni.st = .dormouse ∧ startVerdict s s.vq.active = 0 := by decide
theorem test_wit_drain_fault : let s : State := { State.reset with uni := { st := .draining, drainFaultDue := some 0 }, pwr := { drained := true } }
    s.uni.drainFaultDue = some 0 ∧ 0 ≤ now s ∧ s.uni.st = .draining ∧ s.pwr.drained = true := by decide
theorem test_wit_drain_fault_early : let s : State := { State.reset with uni := { st := .serving, drainFaultDue := some 5 } }
    s.uni.drainFaultDue = some 5 ∧ now s < 5 ∧ s.uni.st = .serving := by decide

theorem test_wit_inputs : let s : State := { State.reset with uni := { st := .serving } }
    s.uni.st = .serving ∧ s.pwr.inputA = true ∧ s.pwr.inputB = true ∧ s.uni.st ≠ .off ∧ (94 * 64 : BitVec 16).toInt < 95 * 64 ∧
    s.uni.st ≠ .draining := by decide
theorem test_wit_last_input : let s : State := { State.reset with uni := { st := .serving }, pwr := { inputB := false } }
    s.uni.st ≠ .off ∧ s.pwr.inputA = true ∧ s.pwr.inputB = false := by decide
theorem test_wit_doze : let s : State := { State.reset with uni := { st := .draining }, pwr := { drained := true } }
    s.uni.st = .draining ∧ dormRefusal s = 0 := by decide
theorem test_wit_doze_refused : let s : State := { State.reset with uni := { st := .draining } }
    s.uni.st = .draining ∧ s.pwr.drained = false := by decide

theorem test_wit_tick : let s : State := { State.reset with uni := { st := .serving } }
    s.uni.st = .serving ∧ s.uni.restarting = false := by decide

theorem test_wit_calendar : let s : State := { State.reset with uni := { st := .serving }, mon := { loaded := true, timebase := 5000 }, lif := { cal := 4000 } }
    s.uni.st = .serving ∧ s.mon.loaded = true ∧ ownClock s = false ∧ 1000 ≤ ((now s : Int) - s.lif.cal).natAbs ∧ s.uni.st ≠ .off ∧
    s.lif.calValid = false ∧ s.uni.waiting = none ∧ calInRange 1577836800000000000 = true ∧ calInRange 0 = false := by decide
theorem test_wit_calendar_near : let s : State := { State.reset with uni := { st := .serving }, mon := { loaded := true, timebase := 4999 }, lif := { cal := 4000, calValid := true } }
    s.uni.st = .serving ∧ s.mon.loaded = true ∧ ownClock s = false ∧ ((now s : Int) - s.lif.cal).natAbs < 1000 ∧ s.lif.calValid = true ∧
    s.uni.st ≠ .standby ∧ (-2 ^ 31 ≤ (0 : Int) ∧ (0 : Int) < 2 ^ 31) := by decide
theorem test_wit_coin : ({ State.reset with uni := { st := .off } } : State).uni.st = .off := by decide

theorem test_wit_ptp : let s := unitIn .serving (img1 1)
    s.uni.st = .serving ∧ amGm s = true ∧ fabSource s.vq.active = 1 ∧ s.mon.loaded = true ∧ (-1 : Int).natAbs ≤ 10 * msNs ∧
    10 * msNs < (10000001 : Int).natAbs ∧ s.lif.ptpFar = false := by decide
theorem test_wit_wear : let s := { unitIn .serving (img1 1) with hrd := { bays := [(2, { st := 3, drey := some aDrey })] } }
    2 < 16 ∧ s.uni.st = .serving ∧ (bayOf s.hrd 2).st = 3 ∧ (bayOf s.hrd 2).drey = some aDrey := by decide

theorem test_wit_conversion : let s := unitIn .serving (img1 1)
    s.uni.st = .serving ∧ (tget {} s.mon.ts 63).failed = false ∧ (tget {} s.mon.vm 31).failed = false ∧
    (tget {} s.mon.pc 255).failed = false ∧ (0x100 : Word).setWidth 8 = s.mon.peakEpoch ∧ (1 : Word).setWidth 8 ≠ s.mon.peakEpoch := by decide
theorem test_wit_failed_sensor : let s : State := { State.reset with uni := { st := .serving }, mon := { ts := [(0, { failed := true })] } }
    s.uni.st = .serving ∧ (tget {} s.mon.ts 0).failed = true := by decide
theorem test_wit_unpowered : let s : State := { State.reset with uni := { st := .standby } }
    s.uni.st = .off ∨ s.uni.st = .standby := by decide

/-- A fuse command with keys and signatures of zeros: its keys hash to the owner of `owned`. -/
def fuseCmdOf (p : List Byte) (n : Nat) : FuseCmd :=
  { format := 1, payloadLen := n, dieLo := 0, dieHi := 0, nonce := 0, reserved := 0, payload := p, mldsaKey := List.replicate 1952 0,
    ecKey := List.replicate 104 0, mldsaSig := List.replicate 3312 0, ecSig := List.replicate 96 0 }
/-- The SHA-384 of 2,049 bytes of zeros. -/
def keyHash0 : Nat :=
  9745726036119742464087687703609569342707767596592413705230092299668464047087463882708214334568152397234989782409844
/-- A PROVISIONED unit in HELD at SERVICE, with an owner and signing slot 1. -/
def owned : State :=
  { State.reset with
    uni := { st := .held }
    pnl := { switch := 2 }
    fus := { words := [(0, ⟨0x49, .clean⟩), (6, ⟨0xBE3E800000, .clean⟩)] ++
      (List.range 6).map (fun i => (8 + i, ⟨BitVec.ofNat 64 (keyHash0 / 2 ^ (64 * i)), .clean⟩)) ++ [(24, ⟨1, .clean⟩)] } }
theorem test_owner_hash : fuseKeyHash (fuseCmdOf [] 0) = fuseHash owned.fus 8 := by decide +kernel
theorem owner_ok (code : Nat) (p : List Byte) (n : Nat) (h : code ≠ fcSetOwner) : fuseOwnerOk owned code (fuseCmdOf p n) = true := by
  have : fuseKeyHash (fuseCmdOf p n) = fuseHash owned.fus 8 := test_owner_hash
  have o : ownerSet owned.fus = true := by decide +kernel
  simp [fuseOwnerOk, h, this, o]
theorem test_wit_fuse_owner : fuseReady { State.reset with pnl := { switch := 2 } } 0x0010 (fuseCmdOf [] 0) = true := by decide +kernel
theorem test_wit_fuse_slot : fuseReady owned 0x0011 (fuseCmdOf (List.replicate 56 0) 56) = true := by
  simp only [fuseReady, owner_ok 0x0011 _ _ (by decide)]; decide +kernel
theorem test_wit_fuse_revoke : fuseReady owned 0x0012 (fuseCmdOf (List.replicate 8 0) 1) = true ∧ slotPrepared owned 0 = false := by
  refine ⟨?_, by decide⟩
  simp only [fuseReady, owner_ok 0x0012 _ _ (by decide)]; decide +kernel
theorem test_wit_fuse_counter : fuseReady owned 0x0013 (fuseCmdOf [1, 0, 0, 0, 0, 0, 0, 0] 1) = true := by
  simp only [fuseReady, owner_ok 0x0013 _ _ (by decide)]; decide +kernel
theorem test_wit_fuse_debug : fuseReady owned 0x0014 (fuseCmdOf [2, 0, 0, 0, 0, 0, 0, 0] 2) = true := by
  simp only [fuseReady, owner_ok 0x0014 _ _ (by decide)]; decide +kernel
theorem test_wit_fuse_policy : fuseReady owned 0x0015 (fuseCmdOf [42, 0, 0, 0, 0, 0, 0, 0, 1, 0, 0, 0, 0, 0, 0, 0] 16) = true := by
  simp only [fuseReady, owner_ok 0x0015 _ _ (by decide)]; decide +kernel
theorem test_wit_fuse_seal : fuseReady owned 0x0016 (fuseCmdOf [] 0) = true := by
  simp only [fuseReady, owner_ok 0x0016 _ _ (by decide)]; decide +kernel
theorem test_wit_fuse_retire : fuseReady owned 0x0017 (fuseCmdOf [] 0) = true := by
  simp only [fuseReady, owner_ok 0x0017 _ _ (by decide)]; decide +kernel
theorem test_wit_fuse_unlock : fuseReady owned 0x0018 (fuseCmdOf [2, 0, 0, 0, 0, 0, 0, 0] 2) = true := by
  simp only [fuseReady, owner_ok 0x0018 _ _ (by decide)]; decide +kernel

theorem test_wit_fuse_busy : ({ owned with fus := { owned.fus with busy := true } } : State).fus.busy = true ∧ owned.fus.busy = false := by decide
theorem test_wit_fuse_format : fuseFormatOk 0x0010 { fuseCmdOf [] 0 with format := 2 } = false := by decide +kernel
theorem test_wit_fuse_die : let c := { fuseCmdOf [] 0 with dieLo := 1 }
    fuseFormatOk 0x0010 c = true ∧ c.dieLo ≠ dieLo owned.fus := by decide +kernel
theorem test_wit_fuse_nonce : let c := { fuseCmdOf [] 0 with nonce := 1 }
    fuseFormatOk 0x0010 c = true ∧ c.dieLo = dieLo owned.fus ∧ c.dieHi = dieHi owned.fus ∧ c.nonce ≠ owned.fus.nonce := by decide +kernel
theorem test_wit_fuse_state : fuseStateOk State.reset 0x0017 = false ∧ fuseStateOk owned 0x0017 = true ∧ fuseStateOk owned 0x0010 = true ∧
    fuseOwnerOk owned 0x0010 (fuseCmdOf [] 0) = false ∧ fuseOwnerOk State.reset 0x0017 (fuseCmdOf [] 0) = false := by decide +kernel
/-- The unit of `owned` while an image of slot 0 is prepared, with a revocation of slot 0 waiting. -/
def preparing : State := { owned with vq := { epochState := 1, shadow := some (imgOf []) }, fus := { owned.fus with deferred := some 0 } }
theorem test_wit_fuse_prepared : fuseReady preparing 0x0012 (fuseCmdOf (List.replicate 8 0) 1) = true ∧ slotPrepared preparing 0 = true := by
  refine ⟨?_, by decide⟩
  have : fuseOwnerOk preparing 0x0012 (fuseCmdOf (List.replicate 8 0) 1) = true := owner_ok 0x0012 _ _ (by decide)
  simp only [fuseReady, this]; decide +kernel
theorem test_wit_fuse_deferred : let s := { owned with fus := { owned.fus with deferred := some 0 } }
    s.fus.deferred = some 0 ∧ 0 < 4 ∧ slotPrepared s 0 = false ∧ owned.fus.deferred = none := by decide

theorem test_wit_register : sealedUnit.uni.st ≠ .off ∧ sealedUnit.uni.st ≠ .dormouse ∧ (islOf sealedUnit 0).on = true ∧
    (islOf sealedUnit 7).on = true ∧ 2 ≤ lifecycle sealedUnit.fus ∧ lifecycle { words := [] } < 2 := by decide

theorem test_wit_refused : let s : State := { State.reset with uni := { st := .serving }, pwr := { isl := (List.range 8).map fun i => (i, { on := false }) } }
    s.uni.st ≠ .off ∧ s.uni.st ≠ .dormouse ∧ ((1 ≠ 4 ∧ 1 ≠ 8) ∨ 0 % 1 ≠ 0) ∧ ((12 ≠ 4 ∧ 12 ≠ 8) ∨ 4 % 8 ≠ 0) ∧
    0x1FFFFFF / 2 ^ 24 = 1 ∧ (islOf s 0).on = false ∧ (islOf s 1).on = false ∧ (islOf s 4).on = false ∧ 0xC000000 / 2 ^ 24 = 12 := by decide
theorem test_wit_registers_dormouse : let s : State := { State.reset with uni := { st := .dormouse } }
    s.uni.st = .dormouse ∧ 0x0500000C / 2 ^ 24 ≠ 4 ∧ 0x0500000C % 4 = 0 := by decide

theorem test_wit_windows : (0x01013FF8 % 8 = 0 ∧ 0x01010000 ≤ 0x01013FF8 ∧ 0x01013FF8 < 0x01014000) ∧ (0x02800004 % 4 = 0 ∧ 0x02800004 < 0x02900000) ∧
    sealedUnit.uni.st ≠ .standby ∧ memWf sealedUnit.fus.buf = true ∧ memWf sealedUnit.vq.buf = true ∧ sealedUnit.hst.ideRequired = false ∧
    memWf (ldOf sealedUnit.hst 3).pages = true := by decide

theorem test_wit_taken : (takenAt (serving 3) 0 (2 ^ 50) 5 false).isSome = true ∧ (takenAt (serving 1) 0 0 5 false).isSome = true ∧
    (takenAt (serving 2) 0 (2 ^ 50) 5 true).isSome = true := by decide +kernel
theorem test_wit_line : readLine (serving 3) 1 0 0 0 = .data (List.replicate 64 0) false ∧
    readLine (staging 3) 1 0 0 0 = .data (List.replicate 64 7) false ∧ readLine (staging 3) 1 0 0 1 = .data (List.replicate 64 7) true ∧
    frozenStrips (serving 3) 0 (stripsFor (blockRec (serving 3).drt 0).bmw 0) = false ∧
    (extRec (extView (serving 3)) 5).any (fun e => e.kind != 1) = true := by decide +kernel
theorem test_wit_coherent : sfFind (serving 1).ext 1 0 = none ∧ sfFull (serving 1) = false ∧
    (extRec (extView (serving 1)) 5).any (fun e => e.kind == 1) = true := by decide +kernel
theorem test_wit_unserved : (unitIn .held (img1 1)).uni.st = .held ∧ (unitIn .dormouse (img1 1)).uni.st = .dormouse ∧
    ideOk (unitIn .serving (img1 1)) 0 = true ∧ ldTenant (unitIn .serving (img1 1)) 1 = none := by decide +kernel

theorem test_wit_write : (takenAt (serving 2) 0 (2 ^ 50) 5 true).any (fun p => !kmFull (serving 2) p.1 && !frozenStrips (serving 2) p.2 [0]
      && decide (blockSpot (serving 2) 1 0 = some p)) = true ∧
    stgFind (serving 2).cdc 1 0 = none ∧ readLine (serving 2) 1 0 163208757248 0 = .data (List.replicate 64 0) false ∧
    (serving 2).cdc.stg.length < 3840 - 64 * banksLost (serving 2) 128 192 ∧ (serving 2).ext.snoops = [] := by decide +kernel
theorem test_wit_write_staged : let s := { serving 2 with
      cdc := { stg := [⟨1, 0, [{ present := true }], List.replicate 4096 7, 2, 0⟩] } }
    (stgFind s.cdc 1 0).any (fun y => (stripOf y 0).present && y.data.length == 4096) = true ∧
    readLine s 1 0 163208757248 0 = .data (List.replicate 64 7) false := by decide +kernel

/-- The tile is being filled, and block 3 of it has landed. -/
def filling : State :=
  { serving 2 with drt := { ways := [(3932160, { key := 2 ^ 35, valid := true, filling := true, landed := [3] })], logical := 24 }
                   ext := { exts := [(5, { st := 1 })] } }
theorem test_wit_fill : blockChecks (mkBmw [] 1 0 0) (padTo 8 0 []) (cutStored (mkBmw [] 1 0 0) []) = none ∧
    (extAt (extView filling) 1 0).any (fun p => (fillAddr filling p.1 p.2 0).any (· % 4096 == 0) && !blockLanded filling p.1 p.2 0 0
      && blockLanded filling p.1 p.2 0 3) = true ∧ filling.drt.noCache = false ∧ nothingWaits filling = true := by decide +kernel
theorem test_wit_fill_fault : (blockChecks (mkBmw [17] 1 0 0) (padTo 8 0 []) []).isSome = true := by decide +kernel
theorem test_wit_due : let x : StgEntry := { tenant := 1, block := 0, strips := List.replicate 8 { present := true, dirty := true },
                                             data := List.replicate 4096 7, poison := 0, lastUse := 0 }
    let s := { serving 2 with cdc := { stg := [x] }, drt := { (serving 2).drt with blocks := [(0, { bmw := mkBmw [] 0 0 0, masks := [] })] } }
    stgFind s.cdc 1 0 = some x ∧ stripDue s (stripOf x 0) = true ∧ stripDue { s with mon := { loaded := true, timebase := 5 } } (stripOf x 0) = false ∧
    (blockSpot s 1 0).any (fun p => p.2 % 4096 == 0 && bmwFmt (blockRec s.drt p.2).bmw == p.1.fmt && bmwMode (blockRec s.drt p.2).bmw == 0
      && !p.1.crc && decide (p.1.fmt < 16) && !frozenAt s p.2) = true ∧ stgFind s.cdc 1 1 = none := by decide +kernel

/-- A unit that is home of tenant 1, with the lease given and LD 0 bound. -/
def leased (l : Lease) : State := { serving 1 with ext := { (serving 1).ext with leases := [(1, l)] } }
theorem test_wit_lease : isHome (leased {}) 1 = true ∧ (leased {}).uni.st = .serving ∧ ldTenant (leased {}) 0 = some 1 ∧
    barTaken (leased {}) 0 = true ∧ (leaseOf (leased { window := some 7 }) 1).window = some 7 ∧ me (leased {}) ∈ leaseUnits (leased {}) 1 ∧
    now (leased {}) < 2000000000 ∧ unitServesOrHeld (leased {}) = true := by decide +kernel
theorem test_wit_lease_times : let s := leased { granted := true, st := 1, expiry := 1050000000 }
    leaseGuardAt s 1 ≤ now s ∧ now s < (leaseOf s 1).expiry ∧
    now s < leaseGuardAt (leased { granted := true, st := 1, expiry := 2000000000 }) 1 ∧
    (leaseOf (leased { granted := true, st := 2, expiry := 5 }) 1).expiry ≤ now s := by decide +kernel
/-- The same with the home of tenant 1 at unit 1, which port 0 reaches. -/
def away : State :=
  { serving 1 with
    vq := { active := some (imgOf [fabricRec 2 0 1, unitRec 0 true, unitRec 1 true, tenantRec 1 1, bindRec 0 1, extentRec 5 1 1, tieringRec 5 0 0,
              recOf 0x13 0 0 [0xFF, 0xFF, 0, 0xFF]]), valid := true }
    wrn := { ports := [(0, { st := 3, peerUnit := 1 })] } }
theorem test_wit_away : hasTenant away.vq.active 1 = true ∧ isHome away 1 = false ∧ unreachable away (tenHome away.vq.active 1) = false ∧
    ldTenant away 0 = some 1 ∧ barTaken away 0 = true ∧ tenHome away.vq.active 1 = 1 := by decide +kernel

/-- The home of tenant 1, which serves extent 5, with another unit concerned that port 0 reaches. -/
def reclaims : State :=
  { leased { homeRunning := true, homeE := 5 } with
    vq := { active := some (imgOf [fabricRec 2 0 1, unitRec 0 true, unitRec 1 true, tenantRec 1 0, bindRec 0 1, extentRec 5 1 1, tieringRec 5 0 0,
              { bindRec 0 1 with scope := 1 }, recOf 0x13 0 0 [0xFF, 0xFF, 0, 0xFF]]), valid := true }
    wrn := { ports := [(0, { st := 3, peerUnit := 1 })] } }
theorem test_wit_reclaim : isHome reclaims 1 = true ∧ (leaseOf reclaims 1).homeE + leaseGuard reclaims.vq.active 1 ≤ now reclaims ∧
    1 ∈ leaseUnits reclaims 1 ∧ unreachable reclaims 1 = false ∧ now reclaims < 5 + leaseGuard reclaims.vq.active 1 + 900000000 := by decide +kernel
theorem test_wit_reclaim_heard : pendingWrites away 1 = false ∧ (outPort away 1).isSome = true ∧ away.opq.ops = [] ∧ unitServesOrHeld away = true ∧
    (∀ e ∈ extRecs (extView { away with vq := { active := some (imgOf [fabricRec 2 0 1, tenantRec 1 1]) } }), e.tenant ≠ 1) ∧
    pendingWrites { away with hst := { reqs := [{ newReq 1 0 5 .none with isWrite := true, tenant := 1 }] } } 1 = true := by decide +kernel
theorem test_wit_report : (leaseOf { reclaims with ext := { leases := [(1, { reclaiming := true, awaiting := [0, 1] })] } } 1).awaiting = [0, 1] ∧
    extRec (extView away) 5 ≠ none ∧ (extSt away 5).st = 1 ∧ isHome away 1 = false := by decide +kernel

theorem test_wit_admin : (extRec (extView (serving 1)) 5).isSome = true ∧ (serving 1).ext.busy = false ∧ (extSt (serving 1) 5).st = 1 ∧
    extRec (extView (serving 1)) 6 = none ∧ (extSt { serving 1 with ext := { exts := [(5, { st := 4 })], busy := true } } 5).st = 4 ∧
    (extSt { serving 1 with ext := { exts := [(5, { st := 5 })] } } 5).st = 5 := by decide +kernel
theorem test_wit_tail : let s := { State.reset with ext := { head := 3, tail := 1 } }
    s.ext.head < ologSize ∧ s.ext.tail < ologSize ∧ (3 % ologSize + ologSize - s.ext.tail) % ologSize ≤ (s.ext.head + ologSize - s.ext.tail) % ologSize ∧
    (s.ext.head + ologSize - s.ext.tail) % ologSize < (0 % ologSize + ologSize - s.ext.tail) % ologSize := by decide +kernel

/-- A unit whose LD 0 of tenant 1 holds line 0 exclusively, or another LD of unit 1. -/
def holds (u : Nat) : State :=
  { serving 1 with
    ext := { (serving 1).ext with sf := [{ tenant := 1, addr := 0, ext := 5, excl := true, holders := [(u, 0)], broad := false, created := 0 }] }
    wrn := { reqs := [{ tag := 4, env := ⟨1, 0, 4, 2, 1, false, .bisnp 0 false 0⟩, sentAt := 0, tries := 0 }] } }
/-- The same with an earlier write of LD 0 to the line. -/
def writing : State := { holds 0 with hst := { lds := (holds 0).hst.lds, reqs := [{ newReq 1 0 1 .none with isWrite := true, tenant := 1 }] } }
theorem test_wit_snoop : unitServesOrHeld (holds 0) = true ∧ 1 < fabN (holds 0).vq.active ∧ dupOf (holds 0) 1 9 = none ∧
    linkUsable (linkOf (holds 0).hst 0) = false ∧ linkUsable (linkOf { (holds 0).hst with links := [(0, { st := 2 })] } 0) = true := by decide +kernel
theorem test_wit_answer : ldTenant (holds 0) 0 = some 1 ∧ earlierWrites (holds 0) 0 1 0 5 = false ∧ earlierWrites writing 0 1 0 5 = true ∧
    (sfFind (holds 0).ext 1 0).any (fun f => f.holders == [(me (holds 0), 0)] && !f.broad) = true ∧ (holds 0).hst.reqs = [] ∧
    (holds 0).ext.snoops = [] ∧ (holds 0).ext.seals = [] := by decide +kernel
theorem test_wit_peer_answer : (outReq (holds 1) 4).any (fun o => o.env.msg == .bisnp 0 false 0 && o.env.tenant == 1) = true ∧
    (sfFind (holds 1).ext 1 0).any (fun f => f.holders == [(1, 0)]) = true := by decide +kernel
theorem test_wit_conflict : (holds 0).ext.heldRsp = [] ∧ (holds 0).ext.conflicts = [] ∧
    earlierWrites (holds 0) 0 1 0 (now (holds 0) + 1) = false ∧ earlierWrites writing 0 1 0 (now writing + 1) = true := by decide +kernel

/-- A unit with port 0 in a state, on some lanes. -/
def portIn (st lanes : Nat) : State := { away with wrn := { ports := [(0, { st := st, lanes := lanes, peerUnit := 1 })] } }
theorem test_wit_ports : mayTrain (portIn 1 0) 0 = true ∧ mayTrain { portIn 1 0 with wrn := { ports := [(0, { disabled := true })] } } 0 = false ∧
    (portOf (portIn 2 4).wrn 0).st = 2 ∧ (portOf (portIn 3 4).wrn 0).laneFail.getLsbD 3 = false ∧
    ((topo (portIn 3 4).vq.active 0 0).map fun t => max 2 t.2.2).getD 2 ≤ (portOf (portIn 3 4).wrn 0).lanes - 1 ∧
    (portOf (portIn 3 2).wrn 0).lanes - 1 < ((topo (portIn 3 2).vq.active 0 0).map fun t => max 2 t.2.2).getD 2 ∧
    (portIn 3 4).wrn.busy = false ∧ portForbidden (portIn 3 4).fus 0 = false := by decide +kernel

/-- A port with one flit outstanding. -/
def outstanding (at0 : Ns) : State :=
  { away with wrn := { ports := [(0, { st := 3, lanes := 4, replay := [⟨1, 0, 7, 0, [], none⟩], ackAt := at0 })],
                       transit := [⟨0, at0, none, ⟨1, 5, 9, 2, 0, false, .raw []⟩⟩] } }
theorem test_wit_flits : (portOf (outstanding 5).wrn 0).replay ≠ [] ∧ (portOf (outstanding 5).wrn 0).ackAt + 10000 ≤ now (outstanding 5) ∧
    now (outstanding 999999999) < (portOf (outstanding 999999999).wrn 0).ackAt + 10000 ∧ 2 ≤ (portOf (outstanding 5).wrn 0).st ∧
    away.wrn.transit = [] ∧ (outstanding 5).wrn.transit.length = 1 ∧ 5 ≠ me (outstanding 5) ∧ 5 + 200000 ≤ now (outstanding 5) ∧
    now (outstanding 999999999) < 999999999 + 200000 := by decide +kernel

/-- Port 0 of a unit, with its slots and the peer's queue as given. -/
def bulk (m : Nat) (sl : Tbl Slot) (q : List (Nat × Nat)) : State :=
  { State.reset with vq := { number := m }, wrn := { ports := [(0, { st := 3, lanes := 4, peerUnit := 5, slots := sl, reserveQ := q })],
                                                     transit := [⟨0, 0, some 7, ⟨1, 0, 9, 2, 0, false, .raw []⟩⟩] } }
/-- Four slots, all claimed for sending. -/
def claimed : Tbl Slot := [(0, ⟨1, 7, 64, false⟩), (1, ⟨1, 8, 64, true⟩), (2, ⟨2, 9, 64, true⟩), (3, ⟨2, 9, 64, true⟩)]
theorem test_wit_bulk : portUsable (portOf (bulk 3 [] []).wrn 0) = true ∧ freeBulkSlot (portOf (bulk 3 [] []).wrn 0) = some 0 ∧
    freeBulkSlot (portOf (bulk 3 claimed []).wrn 0) = none ∧
    (youngestClaim (portOf (bulk 3 claimed []).wrn 0) (bulk 3 claimed []).wrn.transit).isSome = true ∧
    youngestClaim (portOf (bulk 3 (claimed.drop 1) []).wrn 0) [] = none ∧
    freeBulkSlot (portOf (bulk 3 ((0, ⟨1, 7, 64, true⟩) :: claimed.drop 1) []).wrn 0) = none ∧ me (bulk 3 [] []) < 5 ∧ 5 ≤ me (bulk 9 [] []) ∧
    (tget ({} : Slot) (portOf (bulk 3 claimed [(1, 64)]).wrn 0).slots 2).use = 2 ∧ (tget ({} : Slot) (portOf (bulk 3 [] []).wrn 0).slots 2).use = 0 ∧
    (bulk 3 [] []).wrn.transit.length = 1 := by decide

/-- A unit that serves extent 5 of tenant 1 to unit 1 too, which port 0 reaches. -/
def serves (kind : Nat) : State :=
  { serving kind with vq := { active := some (imgOf [fabricRec 2 0 1, unitRec 0 true, unitRec 1 true, tenantRec 1 0, bindRec 0 1, extentRec 5 1 kind,
                                tieringRec 5 0 0, recOf 0x13 0 0 [0xFF, 0xFF, 0, 0xFF]]), valid := true }
                      wrn := { ports := [(0, { st := 3, peerUnit := 1 })] } }
/-- A host's request that waits for unit 1. -/
def forwards (wr : Bool) : State :=
  let m : Msg := if wr then .write 0 5 256 false 1 [] else .read 0 5 256 .none
  { serves 2 with
    hst := { reqs := [{ newReq 3 0 5 .none with isWrite := wr, tenant := 1, wait := 1, tag := 4 }] }
    wrn := { ports := [(0, { st := 3, peerUnit := 1 })], reqs := [⟨4, ⟨1, 0, 4, 2, 1, false, m⟩, 0, 0⟩] } }
theorem test_wit_peer : (outPort (serves 3) 1).isSome = true ∧ (peerTakenAt (serves 3) 1 9 1 0 5 false).any (fun p => p.1.kind != 1
      && !frozenStrips (serves 3) p.2 (stripsFor (blockRec (serves 3).drt p.2).bmw 0)
      && readLine (serves 3) 1 0 p.2 0 == .data (List.replicate 64 0) false) = true ∧
    (peerTakenAt (serves 2) 1 9 1 0 5 true).any (fun p => !kmFull (serves 2) p.1 && !frozenStrips (serves 2) p.2 [0]) = true ∧
    (serves 2).ext.heldRsp = [] ∧ (serves 2).ext.conflicts = [] ∧ 1 ≠ me (serves 2) := by decide +kernel
theorem test_wit_response : (outReq (forwards false) 4).isSome = true ∧ (waitingFor (forwards false) 4).any (fun r => r.origin.isNone && !r.answered && !r.again) = true ∧
    decodeStrips (mkBmw [] 1 0 0) (padTo 8 0 []) ((List.replicate 8 ([] : List Byte)).set 0 []) [0] = .ok [(0, List.replicate 512 0)] ∧
    (recPoison { bmw := mkBmw [] 1 0 0, masks := padTo 8 0 [] }).getLsbD 0 = false ∧ (forwards true).hst.reqs.length = 1 ∧
    (outReq (forwards true) 4).any (fun o => o.env.msg == .write 0 5 256 false 1 []) = true := by decide +kernel

theorem test_wit_presence : let s := serves 2
    powered s = true ∧ 1 < fabN s.vq.active ∧ 1 ≠ me s ∧ (outPort s 1).isSome = true ∧ tget 0 s.wrn.heard 1 + 1000000000 ≤ now s ∧
    now { s with wrn := { heard := [(1, 900000000)] } } < tget 0 [(1, 900000000)] 1 + 250000000 := by decide +kernel
theorem test_wit_retry : (outReq (forwards false) 4).any (fun o => decide (o.sentAt + 2000000 ≤ now (forwards false)) && decide (o.tries < 3)
      && (bulkLen o.env.msg).isNone && !standsForever o.env.msg) = true ∧ unreachable (forwards false) 1 = false ∧
    (forwards false).wrn.reqs.length = 1 := by decide +kernel
/-- The destination unit 1 on its alternate while its primary port has been up. -/
def onAlternate (up : Ns) : State := { serves 2 with wrn := { ports := [(0, { st := 3, peerUnit := 1, upSince := some up })], alt := [1] } }
theorem test_wit_restore : (route (onAlternate 0).vq.active (me (onAlternate 0)) 1).any (fun r => (portOf (onAlternate 0).wrn r.1).upSince == some 0) = true ∧
    1 ∈ (onAlternate 0).wrn.alt ∧ portUsable (portOf (onAlternate 0).wrn 0) = true ∧ 0 + 1000000000 ≤ now (onAlternate 0) ∧
    now (onAlternate 5) < 5 + 1000000000 := by decide +kernel

/-- A child of unit 1 on port 0, with the times it last sent at. -/
def child (tx : Ns) : State :=
  { serves 2 with wrn := { ports := [(0, { st := 3, peerUnit := 1 })], hasParent := true, parent := 1, parentPort := 0, syncTx := tx, reqTx := tx, syncT := 7 } }
theorem test_wit_time : powered (child 5) = true ∧ (child 5).mon.loaded = true ∧ (child 5).wrn.syncTx + 1000000 ≤ now (child 5) ∧
    now (child 999999999) < (child 999999999).wrn.syncTx + 1000000 ∧ (child 5).wrn.reqTx + 16000000 ≤ now (child 5) ∧
    portUsable (portOf (child 5).wrn 0) = true ∧ 1 < fabN (child 5).vq.active ∧ nothingOwedTo (child 5) 1 = true ∧
    (child 5).wrn.reqTx ≠ 0 ∧ (child 5).wrn.syncT ≠ 0 ∧ (child 5).lif.noTime = false ∧ (child 5).wrn.parent ≠ 0 := by decide +kernel

/-- A SERVING unit with its memory complex on, and the mailbox of LD 0 as given. -/
def mailbox (b : HostBox) : State :=
  { unitIn .serving (img1 1) with
    pwr := { isl := [(0, { on := true })] }, hst := { ideRequired := false }, mbx := { host := [(0, b)] } }
theorem test_wit_send : ideOk (mailbox {}) (0 / 16) = true ∧ mbxDown (mailbox {}) = false ∧ (boxOf (mailbox {}).mbx 0).h2f.length < 16 ∧
    16 ≤ (boxOf (mailbox { h2f := List.replicate 16 ⟨0, 0, 0⟩ }).mbx 0).h2f.length ∧
    mbxDown { mailbox {} with uni := { st := .dormouse } } = true ∧ ideOk { mailbox {} with hst := { ideRequired := true } } 0 = false := by decide +kernel

theorem test_wit_doorbell : let s := mailbox { f2h := [⟨1, 2, 3⟩], mask := 1, unsent := [⟨4, 5, 6⟩] }
    ideOk s (0 / 16) = true ∧ mbxDown s = false ∧ (dbBits (boxOf s.mbx 0)).getLsbD 0 = true ∧ (boxOf s.mbx 0).mask.getLsbD 0 = true ∧
    (boxOf s.mbx 0).unsent ≠ [] ∧ mbxDown { s with uni := { st := .dormouse } } = true := by decide +kernel

/-- The head of LD 0's queue is a request. -/
def request (pointer : Bool) (p0 p1 : Word) (epoch : Nat) : State :=
  { serving 2 with
    pwr := { isl := [(0, { on := true })] }, mbx := { host := [(0, { h2f := [⟨0, p0, p1⟩], pointer := pointer, epoch := epoch })] }
    ext := { exts := [(5, { st := 1 })], leases := [(1, { granted := true, expiry := 2000000000 })] } }
theorem test_wit_word : fwTakes (request false 0x01AA000000000007 0 0) 0 = true ∧
    (boxOf (request false 0x01AA000000000007 0 0).mbx 0).taken = [] ∧ bits (0x01AA000000000007 : Word).toNat 63 56 = 1 ∧
    stampEpoch 0 = (boxOf (request false 0 0 0).mbx 0).epoch ∧ stampEpoch 0 ≠ (boxOf (request false 0 0 3).mbx 0).epoch ∧
    ldTenant (request false 0 0 0) 0 = some 1 ∧ (extRec (extView (request false 0 0 0)) 5).any (fun e => e.tenant == 1) = true ∧
    now (request false 0 0 0) < (leaseOf (request false 0 0 0) 1).expiry := by decide +kernel
theorem test_wit_notice : let s := request true 0 0x0100000100000010 0
    blockOk s 0 ⟨0, 0, 0x0100000100000010⟩ = true ∧ blockOk s 0 ⟨0, 32, 0x0100000100000010⟩ = false ∧ ldTenant s 0 = some 1 ∧
    (ownExt s 1 0).any (fun p => (landedAddr s p.1 p.2 0 0).any fun a => readLine s 1 0 a 0 == .data (List.replicate 64 0) false) = true ∧
    rangeReady s 1 0 16 true = true ∧ bits (0x0100000100000010 : Word).toNat 63 56 = 1 := by decide +kernel

/-- A message of this unit waits for unit 1's answer. -/
def told : State :=
  { unitIn .serving (img1 1) with
    mbx := { internal := [(17, { outQ := [⟨1, 2, 3⟩], sent := some 4 })] }
    wrn := { ports := [(0, { st := 3, peerUnit := 1 })], reqs := [⟨4, ⟨1, 0, 4, 0, 1, false, .mbx 16 false 1 2 3⟩, 0, 0⟩] } }
theorem test_wit_mbx : 1 < fabN (serves 2).vq.active ∧ dupOf (serves 2) 1 9 = none ∧ (outPort (serves 2) 1).isSome = true ∧
    unitServesOrHeld (serves 2) = true ∧ (intOf (serves 2).mbx 17).inQ.length < 16 ∧ (intOf (serves 2).mbx 17).pointer = false ∧
    16 ≤ (intOf { internal := [(17, { inQ := List.replicate 16 ⟨0, 0, 0⟩ })] } 17).inQ.length ∧
    unitServesOrHeld { serves 2 with uni := { st := .starting } } = false := by decide +kernel
theorem test_wit_mbx_answer : 1 < fabN told.vq.active ∧ (outReq told 4).any (fun o => o.env.msg == .mbx 16 false 1 2 3) = true ∧
    (intOf told.mbx 17).sent = some 4 := by decide +kernel

/-- A serving unit with ring 0 of tenant 1 as given, and a descriptor's bytes at the start of its SQ. -/
def ringed (r : Ring) (intake : Nat) : State :=
  { serving 2 with opq := { rings := [(256, r)], dbIntake := List.replicate intake 0 }, pwr := { isl := [(0, { on := true })] } }
theorem test_wit_ring : let s := ringed { sqLog := 4, cqLog := 4, cqBase := 4096 } 0
    barTaken s 0 = true ∧ ldTenant s 0 = some 1 ∧ localRing s 1 0 = some 256 ∧ localRing s 1 255 = some 511 ∧ localRing s 1 256 = none ∧
    (ringOf s.opq 256).held = [] ∧ ringRangeOk s 1 0 (128 * 2 ^ 4) = true ∧ ringRangeOk s 1 4096 (64 * 2 ^ 4) = true ∧
    ringRangeOk s 1 4097 64 = false ∧ (ringOf (ringed { sqLog := 3 } 0).opq 256).sqLog < 4 ∧ 16 < (ringOf (ringed { sqLog := 17 } 0).opq 256).sqLog := by decide +kernel
theorem test_wit_bell : let s := ringed { sqLog := 4, cqLog := 4, enable := true, cqTail := 2 } 1024
    s.opq.dbIntake.length = 1024 ∧ 2 ^ 4 < ((17 : BitVec 32).toNat + 2 ^ 32 - (ringOf s.opq 256).sqHead) % 2 ^ 32 ∧
    ¬ 2 ^ 4 < ((16 : BitVec 32).toNat + 2 ^ 32 - (ringOf s.opq 256).sqHead) % 2 ^ 32 ∧
    (2 + 2 ^ 32 - 0) % 2 ^ 32 < ((3 : BitVec 32).toNat + 2 ^ 32 - 0) % 2 ^ 32 ∧
    (ringOf (ringed { held := [([], true)] } 0).opq 256).held ≠ [] := by decide +kernel

/-- A PING-free descriptor: `COPY` of 64 bytes on the unit named. -/
def copyDesc (u : Nat) : List Byte := leBytes 1 1 ++ leBytes 1 0 ++ leBytes 2 u ++ leBytes 12 0 ++ leBytes 8 8192 ++ leBytes 8 12288 ++ leBytes 8 64 ++ List.replicate 88 0
/-- Ring 0 with that descriptor in its SQ, of which `tail` are submitted. -/
def submitted (u tail : Nat) (marks : List Nat) : State :=
  { serves 2 with
    pwr := { isl := [(0, { on := true })] }
    opq := { rings := [(0, { sqLog := 4, cqLog := 4, cqBase := 4096, enable := true, tenant := 1, tail := tail, marks := marks })] }
    cdc := { stg := [{ tenant := 1, block := 0, strips := List.replicate 8 { present := true }, data := padTo 4096 0 (copyDesc u), poison := 0, lastUse := 0 }] } }
theorem test_wit_take : let s := submitted 0 1 []
    let p := agentRead 1 0 128 s
    s.uni.st = .serving ∧ s.uni.restarting = false ∧ s.opq.rings.map (·.1) = [0] ∧ (ringOf s.opq 0).tail ≠ (ringOf s.opq 0).sqHead ∧
    (leaseOf s 1).granted = true ∧ (leaseOf s 1).owed = false ∧ now s < leaseGuardAt s 1 ∧ rangeReady s 1 0 128 false = true ∧ p.1 = s ∧
    p.2.1 = copyDesc 0 ∧ p.2.2 = false ∧ descOp p.2.1 = 1 ∧ descUnit (copyDesc 0) = me s ∧ opsCounted s.opq < 2048 ∧
    staticRefusal s 1 (copyDesc 0) = none ∧ unitServing s 0 = true ∧ staticRefusal s 1 (leBytes 128 0x08) = some 1 := by decide +kernel
theorem test_wit_take_far : let s := submitted 1 1 [0]
    descUnit (copyDesc 1) ≠ me s ∧ s.opq.fwd.length < 2048 ∧ unitServing s 1 = true ∧ descFence (copyDesc 1) = false ∧
    (outPort s 1).isSome = true ∧ 0 ∈ (ringOf s.opq 0).marks ∧ unitServing { s with wrn := { peerState := [(1, 6)] } } 1 = false ∧
    (ringOf (submitted 0 0 []).opq 0).tail = 0 := by decide +kernel

/-- An operator of unit 1 here. -/
def anOp (d : List Byte) (sq gate : Nat) (st : Option Ns) : Op :=
  { ringUnit := 1, ring := 256, sqIndex := sq, tenant := 1, desc := d, execUnit := 0, tag := 9, started := st, taken := 0, gate := gate, cause := 0,
    progress := 0, dispatched := 0, irq := false, fence := false }
/-- An ABORT of local ring 0, SQ index 3. -/
def abortDesc : List Byte := leBytes 1 0x7F ++ leBytes 15 0 ++ leBytes 4 0 ++ leBytes 4 0 ++ leBytes 4 3 ++ List.replicate 100 0
theorem test_wit_fwd : let s := serves 2
    1 < fabN s.vq.active ∧ 1 ≠ me s ∧ nothingOwedTo s 1 = true ∧ (outPort s 1).isSome = true ∧ dupOf s 1 9 = none ∧ hasTenant s.vq.active 1 = true ∧
    (copyDesc 0).length = 128 ∧ ringRange s.vq.active 1 1 = (256, 256) ∧ s.uni.st = .serving ∧ staticRefusal s 1 (copyDesc 0) = none ∧
    descOp (copyDesc 0) ≠ 0x7F ∧ opsCounted s.opq < 2048 ∧ (staticRefusal s 1 (List.replicate 128 0)).isSome = true := by decide +kernel
theorem test_wit_abort : let s := { serves 2 with opq := { ops := [anOp (copyDesc 0) 3 0 none, anOp abortDesc 4 0 none] } }
    unitServesOrHeld s = true ∧ sameOp (anOp (copyDesc 0) 3 0 none) (anOp abortDesc 4 0 none) = false ∧
    abortTarget s (anOp abortDesc 4 0 none) = (256, 3) ∧ descOp abortDesc = 0x7F ∧ (outPort s 1).isSome = true := by decide +kernel
theorem test_wit_mark : let o := { anOp abortDesc 0 0 none with ringUnit := 0, ring := 1 }
    let s := { serves 2 with opq := { ops := [o] } }
    (ringOf s.opq (abortTarget s o).1).leaving = false ∧ (abortTarget s o).1 ≠ o.ring ∧ ((abortTarget s o).2 + 2 ^ 32 - (ringOf s.opq (abortTarget s o).1).sqHead) % 2 ^ 32 < 2 ^ 31 ∧ o.ringUnit = me s := by decide +kernel
theorem test_wit_limit : (anOp (copyDesc 0) 3 0 (some 5)).started = some 5 ∧ opLimit (copyDesc 0) = 60000 * 1000000 ∧
    opLimit abortDesc = 1000 * 1000000 ∧ descOp (copyDesc 0) ≤ 7 := by decide +kernel

/-- A SEAL of extent 5. -/
def sealDesc : List Byte := leBytes 1 0x21 ++ leBytes 15 0 ++ leBytes 2 5 ++ List.replicate 110 0
def sealOp : Op := { anOp sealDesc 0 0 (some 6) with checked := true, stamp := some 5 }
/-- Extent 5 in a state, with that operator. -/
def sealing (st : Nat) (done : Bool) : State :=
  { serves 2 with
    opq := { ops := [{ sealOp with gate := if st = 2 then 1 else 0 }] }
    drt := {}
    ext := { leases := [(1, { granted := true, expiry := 2000000000 })], exts := [(5, { st := st })]
             seals := if st = 2 then [⟨5, 1, 5, done, 1, 256, 0, true, []⟩] else [] } }
theorem test_wit_seal : (extRec (extView (sealing 1 false)) 5).isSome = true ∧ opRuns (sealing 1 false) sealOp = true ∧ (extSt (sealing 1 false) 5).st = 1 ∧
    descOp sealDesc = 0x21 ∧ fld sealDesc 16 2 = 5 ∧ (extSt (sealing 2 true) 5).st = 2 ∧ (sealing 2 true).ext.seals.length = 1 ∧
    (extRec (extView (sealing 2 true)) 5).any (extCommitted (sealing 2 true)) = true ∧ (outPort (sealing 2 true) 1).isSome = true ∧
    (sealing 2 true).opq.ops.length = 1 := by decide +kernel

theorem test_wit_ecc : checkLine [⟨0, 0, 9, 5⟩] [0] (some 0) = .ok 1 ∧ checkLine [⟨0, 0, 31, 5⟩] [0, 1] (some 0) = .ok 1 ∧
    checkLine [⟨0, 2, 1, 5⟩] [0, 1] (some 0) = .ok 0 ∧ checkLine [⟨0, 0, 9, 5⟩, ⟨0, 0, 31, 5⟩] [0, 1] (some 0) = .ok 2 ∧
    inlineHalf [⟨0, 4, 17, 5⟩] 31 = (some 0, true) ∧ inlineHalf [⟨0, 5, 0, 5⟩] 15 = (some 0, false) := by decide +kernel
theorem test_ecc_two_bad : (match checkLine [⟨0, 0, 9, 5⟩, ⟨0, 0, 8, 5⟩] [0] (some 0) with
    | .bad _ _ => true
    | .ok _ => false) = true := by decide +kernel

/-- A unit of a requester for PC 0. -/
def aUnit (uid q bank : Nat) (t : Ns) : AUnit :=
  { uid := uid, q := q, addr := 0, len := 64, isWrite := false, data := [], entered := t, pc := 0, sid := 0, bank := bank, row := 0, column := 0 }
/-- Two waiting units, one admitted, and a bank in debt. -/
def queued (debt : Nat) : State :=
  { serving 2 with drt := { queue := [aUnit 1 0 3 999999000, aUnit 2 24 4 0], admitted := [aUnit 3 1 5 0], debt := [(4, debt), (5, 2)], logical := 31 } }
theorem test_wit_admit : headOf (queued 0).drt 0 0 = some (aUnit 1 0 3 999999000) ∧ eligible (queued 0) (aUnit 1 0 3 999999000) = true ∧
    eligible (queued 8) (aUnit 2 24 4 0) = false ∧ urgency (queued 0) (aUnit 2 24 4 0) = 3 ∧ headOf (queued 0).drt 1 0 = none ∧
    (queued 0).drt.admitted.find? (fun x => x.pc == 0) = some (aUnit 3 1 5 0) := by decide +kernel
theorem test_wit_refresh : bankIdle (queued 7).drt 4 = true ∧ bankIdle (queued 7).drt 5 = false ∧ tget 0 (queued 7).drt.debt 4 + 1 = 8 ∧
    tget 0 (queued 8).drt.debt 4 = 8 ∧ tget 0 (queued 0).drt.debt 4 = 0 ∧ refreshPick (queued 7).drt 0 = some 4 ∧ refreshPick (queued 0).drt 0 = none := by decide +kernel
theorem test_wit_rate : bit (dramStates (queued 0).vq.active 0) 2 = true ∧ 60 ≤ islandMax (queued 0) 6 ∧ (queued 0).drt.rate ≠ 2 ∧
    rateAllowed (queued 0) 3 = false := by decide +kernel

/-- A tier of 31 SIDs, SID 31 the spare; stack 0 freezes when `frz` is set. -/
def tiered (frz : Bool) : State :=
  { unitIn .serving (imgOf ([fabricRec 2 0 1, unitRec 0 true, recOf 0x0D 0 0 [7, 10, if frz then 1 else 0, 0, 0, 0, 0, 0]])) with
    drt := { logical := 31, sidmap := [(0, 0)], sids := [(31, { st := 1 })], frozen := if frz then [3, 9] else [] } }
theorem test_wit_lost : 4096 < tierBytes (tiered true) ∧ dramFreeze (tiered true).vq.active 0 0 = true ∧ dramFreeze (tiered false).vq.active 0 0 = false ∧
    (tget ({} : Sid) (tiered false).drt.sids 0).st = 0 ∧ ownerAt (tiered false) 4096 = none ∧ (tget ({} : Sid) (tiered false).drt.sids 31).st = 1 ∧
    (∀ j < 31, (tget ({} : Sid) (tiered false).drt.sids j).st ≠ 1) ∧ ceCount (now (tiered false)) {} = 0 := by decide +kernel
theorem test_wit_poisoned : let s := { serving 2 with drt := { ways := [(0, { key := 2 ^ 35, valid := true, dirty := true })], logical := 24, sidmap := [] } }
    (ownerAt s (cacheBase s)).any (fun o => !cleanBacked s o.1 o.2.1 o.2.2) = true ∧ cacheBase s < tierBytes s ∧ cacheBase s % 64 = 0 ∧
    dramFreeze s.vq.active (me s) 0 = false := by decide +kernel
theorem test_wit_remap : let s := { serving 2 with drt := { ways := [(0, { key := 2 ^ 35, valid := true, dirty := true })], retire := some ⟨0, 0, none⟩ } }
    cacheClean s = false ∧ s.drt.shrinking = false ∧ s.drt.retireQueue = [] ∧ s.hst.reqs = [] ∧ s.ext.owedPoison = [] ∧
    (∀ c ∈ (tiered true).drt.frozen, c < 64) ∧ (tiered true).drt.frzValid = false := by decide +kernel

def aChunk (c : Nat) : Chunk :=
  { stripe := 7, idx := c, k := 2, m := 1, kind := 0, crc := 0, bytes := [1, 2], die := 0, block := 0, page := 0, damaged := false }
/-- One mounted Drey with a chunk, and a stripe of this unit that commits. -/
def hoarding (hrd : Hrd) : State :=
  { serves 2 with hrd := { hrd with bays := [(0, { st := 3, drey := some aDrey, chunks := [aChunk 1] })] } }
def aStripe (acked : List Nat) : Stripe :=
  { code := 0, k := 2, m := 1, st := 1, data := [], tiles := [⟨1, 0, 0, 4096⟩], holders := [0, 1, 1], acked := acked, kind := 0, started := 0 }
theorem test_wit_chunk : let s := hoarding {}
    (findChunk s.hrd 7 1).isSome = true ∧ findChunk s.hrd 7 0 = none ∧ chunksServed s = true ∧ mountedBays s.hrd = [0] ∧
    canTake (bayOf s.hrd 0) = true ∧ (channelDies aDrey 0).length = 16 ∧ chunksServed { s with uni := { st := .faulted } } = false ∧
    mountedBays (serves 2).hrd = [] := by decide +kernel
/-- A stripe of which chunk 0 is out. -/
def acking (acked : List Nat) (at_ : Ns) : State :=
  { hoarding { stripes := [(9, aStripe acked)] } with
    wrn := { ports := [(0, { st := 3, peerUnit := 1 })], reqs := [⟨4, ⟨1, 0, 4, 2, 0, false, .chunkPut 9 0 2 1 0 [1]⟩, at_, 0⟩] } }
theorem test_wit_ack : let s := acking [1, 2] 0
    (outReq s 4).any (fun o => o.env.msg == .chunkPut 9 0 2 1 0 [1] && decide (o.sentAt + 1000000000 ≤ now s)) = true ∧
    tfind s.hrd.stripes 9 = some (aStripe [1, 2]) ∧ 0 ∉ (aStripe [1, 2]).acked ∧ s.hst.reqs = [] ∧ s.hrd.checkpoint = none ∧
    now (acking [1] 5) < 5 + 1000000000 ∧ nextHolder s { aStripe [] with holders := [0] } 0 = some 1 := by decide +kernel
/-- A get for a tile of one chunk or of two. -/
def getting (len : Nat) (sent : Ns) : State :=
  let q (tag c : Nat) : ChunkReq := { tag := tag, stripe := 9, chunk := c, offset := 0, len := 64, tenant := 1, tile := 0, rebuild := false, sent := sent }
  { hoarding { dir := [⟨1, 0, 9, 0, len, false⟩], gets := if len ≤ 16384 then [q 4 0] else [q 4 0, q 5 1] } with
    ext := { exts := [(5, { st := 1 })] }
    wrn := { ports := [(0, { st := 3, peerUnit := 1 })], reqs := [⟨4, ⟨1, 0, 4, 2, 0, false, .chunkGet 9 0 0 64⟩, 0, 0⟩] } }
theorem test_wit_get : (dirFind (getting 20000 0).hrd 1 0).any (fun d => tileChunks d == [0, 1]) = true ∧
    (dirFind (getting 64 0).hrd 1 0).any (fun d => tileChunks d == [0]) = true ∧ nothingWaits (getting 64 0) = true ∧
    (extAt (extView (getting 64 0)) 1 0).isSome = true ∧ stripeGeom (getting 64 0) 9 1 0 = (12, 4) ∧ holderNow (getting 64 0) 9 2 = 1 ∧
    unreachable (getting 64 0) 1 = false ∧ localChunk (getting 64 0) 9 2 = none ∧ (outReq (getting 64 0) 4).isSome = true ∧
    now (getting 64 999999999) < 999999999 + 500000 ∧ unitServesOrHeld (getting 64 0) = true := by decide +kernel

/-- A tile of the cache that was written at time 0, zero or not. -/
def toCommit (zero : Bool) (tl : Ns) : State :=
  { serves 2 with
    mon := { loaded := true, timebase := tl }
    drt := { ways := [(3932160, { key := 2 ^ 35, valid := true, dirty := true })], logical := 24
             blocks := if zero then [] else [(39845888, { bmw := mkBmw [1] 1 0 0, masks := [] })] }
    vq := { active := some (imgOf [fabricRec 2 0 1, unitRec 0 true, unitRec 1 true, tenantRec 1 0, extentRec 5 1 2, tieringRec 5 0 0,
              recOf 0x0E 0 0 [1, 1], recOf 0x13 0 0 [0xFF, 0xFF, 0, 0xFF]]), valid := true }
    hrd := { firstWrite := [(1, 0, 0)], dirtyPages := [(1, 0)] } }
theorem test_wit_commit : let s := toCommit true 30000000000
    (extAt (extView s) 1 0).any (fun p => p.1.kind == 2 && codeServed s p.1.code && (locate s p.1 p.2 0 == .at 163208757248 (some 3932160))) = true ∧
    inLog s.hrd 1 0 = none ∧ s.cdc.stg = [] ∧ (wayOf s.drt 3932160).filling = false ∧ s.hst.reqs = [] ∧ s.ext.owedPoison = [] ∧
    tileZero s.drt 163208757248 = true ∧ tileZero (toCommit false 0).drt 163208757248 = false ∧ now (toCommit true 5) < 0 + 30000000000 := by decide +kernel
theorem test_wit_checkpoint : let s := toCommit true 60000000000
    s.hrd.checkpointAt + 60000000000 ≤ now s ∧ (hoardUnits s.vq.active).contains (me s) = true ∧ (stripeKM s.vq.active 0).getD (12, 4) = (1, 1) ∧
    holderOf s (stripeId (me s) s.hrd.nextSeq) 0 = 1 ∧ (outPort s 1).isSome = true ∧ s.hrd.stripes = [] ∧ s.hrd.checkpoint = none := by decide +kernel
theorem test_wit_compact : let r : Stripe := { aStripe [] with st := 2, tiles := [] }
    let s : State := { serves 2 with hrd := { stripes := [(9, r)], dir := [⟨1, 1, 9, 0, 4096, false⟩] } }
    tfind s.hrd.stripes 9 = some r ∧ 2 * liveBytes s.hrd 9 < r.k * 16384 ∧ (liveTiles s.hrd 9).length = 1 ∧
    (extAt (extView s) 1 32768).any (fun p => (landedAddr s p.1 p.2 1 0).isNone) = true := by decide +kernel

/-- A bay whose die 0 has so many written blocks. -/
def flash (n : Nat) : Bay :=
  { st := 3, drey := some aDrey, chunks := [aChunk 1], blocks := (List.range n).map fun i => { die := 0, block := i, erases := 0, age := 5, written := 2048 } }
theorem test_wit_flash_reclaim : let n := ((flash 4015).blocks.filter fun f => f.die == 0 && decide (0 < f.written)).length
    100 * (4096 - n) < 2 * 4096 ∧ 2 * 4096 ≤ 100 * (4096 - ((flash 9).blocks.filter fun f => f.die == 0 && decide (0 < f.written)).length) := by decide +kernel
theorem test_wit_age : (0x0A00 : BitVec 16).toInt = 64 * ((hoardTref (serves 2).vq.active : Nat) : Int) ∧
    (∀ f ∈ (flash 3).blocks, 0 < f.written → f.age + 1000000 < 85 * hoardRetain (serves 2).vq.active * 24 * 10000) := by decide +kernel
theorem test_wit_scrub : findChunk { bays := [(0, flash 1)] } 7 1 = some (0, aChunk 1) ∧ (flash 1).chunks = [aChunk 1] ∧ physDie aDrey 0 < 128 ∧
    (freeSpares aDrey).head? = some 128 ∧ freeSpares { aDrey with failedSpares := [128, 129, 130, 131] } = [] := by decide +kernel
theorem test_wit_rebuild : (rsRebuild 16384 1 1 0 [(1, [7])]).isSome = true ∧ (∀ p ∈ [((1 : Nat), [(7 : Byte)])], p.1 ≠ 0) ∧
    dreyBack {} 5 = false ∧ dreyBack { bays := [(0, flash 1)] } 1 = true := by decide +kernel

/-- Bay 0 as given, in a SERVING unit whose switch stands at `sw`. -/
def bays (y : Bay) (sw : Nat) : State := { serves 2 with hrd := { bays := [(0, y)] }, pnl := { page := 1, switch := sw } }
theorem test_wit_insert : (bayOf (bays {} 1).hrd 0).st = 0 ∧ aDrey.copiesOk ≠ 0 ∧ aDrey.post = true ∧ aDrey.failedDies = [] ∧ aDrey.owned = true ∧
    knownOf (bays {} 1).hrd 1 = none ∧ (knownOf { known := [⟨1, 1, 0⟩] } 1).isSome = true ∧
    rootKeyOk { words := [] } = true ∧ lifecycle { words := [] } ≠ 3 := by decide +kernel
theorem test_wit_mount : let s := bays { st := 2, drey := some aDrey } 1
    (bayOf s.hrd 0).st = 2 ∧ (bayOf s.hrd 0).cls = 0 ∧ s.hst.reqs = [] ∧ s.ext.owedPoison = [] ∧ aDrey.chunks = [] ∧
    (dreyClass s { aDrey with copiesOk := 0 }) = 3 := by decide +kernel
theorem test_wit_remove : let s := bays { st := 3, drey := some aDrey, chunks := [aChunk 1] } 1
    s.uni.st = .serving ∧ otherRemoval s.hrd 0 = false ∧ rebuildingOnto s 0 = false ∧ degradedBay s 0 = false ∧ s.pnl.page = 1 ∧ s.pnl.focus = 0 ∧
    otherRemoval { bays := [(1, { st := 3, removal := 4 })] } 0 = true ∧
    degradedBay { s with hrd := { s.hrd with lost := [(7, 0)] } } 0 = true := by decide +kernel
theorem test_wit_approve : let s : State := { bays { st := 3, drey := some aDrey, removal := 3 } 1 with
      vq := { active := some (imgOf [fabricRec 2 0 1, recOf 0x19 0 0 [60, 0, 120, 0, 1, 0, 0, 0]]), valid := true } }
    s.hrd.busy = false ∧ (bayOf s.hrd 0).removal = 3 ∧ 0 + 600000000000 ≤ now { s with mon := { loaded := true, timebase := 600000000000 } } ∧
    now s < 0 + 600000000000 := by decide +kernel
theorem test_wit_release : (bayOf (bays { st := 3, removal := 4, before := 3, drey := some aDrey } 1).hrd 0).cut = false ∧
    (bayOf (bays { st := 8, removal := 5, drey := some aDrey } 1).hrd 0).drey.isSome = true ∧
    now (bays {} 1) < 0 + 30000000000 ∧ 0 + 30000000000 ≤ now { bays {} 1 with mon := { loaded := true, timebase := 30000000000 } } := by decide +kernel

theorem test_wit_evacuate : let s := { serves 2 with hrd := { bays := [(0, { st := 3, drey := some aDrey, chunks := [aChunk 1] }), (1, { st := 3, drey := some aDrey })] } }
    s.hrd.busy = false ∧ (bayOf s.hrd 0).st = 3 ∧ (bayOf s.hrd 0).chunks.length ≤ otherFree s.hrd 0 ∧ rebuildingOnto s 0 = false ∧
    otherFree (bays { st := 3, chunks := [aChunk 1] } 1).hrd 0 < 1 ∧
    mountedBays { bays := [(0, { st := 6 }), (1, { st := 3 })] } = [1] ∧ canTake (bayOf s.hrd 1) = true := by decide +kernel
theorem test_wit_adopt : let s := bays { st := 4, drey := some aDrey, adoptAdmin := some 0, adoptPanel := some 5 } 2
    s.uni.st = .serving ∧ s.pnl.page = 1 ∧ s.pnl.switch = 2 ∧ knownRoom s 1 = true ∧ now s ≤ 0 + 900000000000 ∧
    (bayOf (bays { st := 5, drey := some aDrey } 2).hrd 0).st = 5 ∧ (bayOf s.hrd 3).st = 0 := by decide +kernel

/-- An operator of unit 1 that runs here, with the body given at bytes 16 to 63. -/
def running (op : Nat) (body : List Byte) : Op :=
  { anOp (leBytes 1 op ++ zs 15 ++ body ++ zs (112 - body.length)) 3 0 (some 5) with checked := true }
/-- A unit that runs it, with a block of zeros and a block of 7s staged at addresses 0 and 4096 of tenant 1. -/
def operates (o : Op) (kind : Nat) : State :=
  { serves kind with
    opq := { ops := [o] }
    drt := { (serves kind).drt with ways := [(3932160, { key := 2 ^ 35, valid := true })] }
    cdc := { stg := [⟨1, 0, List.replicate 8 { present := true }, zs 4096, 0, 0⟩, ⟨1, 1, List.replicate 8 { present := true }, List.replicate 4096 7, 0, 0⟩] } }
def copyOp : Op := running 0x01 (leBytes 8 4096 ++ leBytes 8 64 ++ leBytes 8 128)
def gatherOp (op : Nat) : Op := { running op (leBytes 8 0 ++ leBytes 8 0 ++ leBytes 8 0 ++ leBytes 4 1 ++ leBytes 4 256) with groups := [{ a := 16, b := 0 }] }
def tileOpOf (op addr : Nat) : Op := running op (leBytes 8 addr ++ leBytes 8 32768)
theorem test_wit_runs : (operates copyOp 2).opq.ops = [copyOp] ∧ copyOp.checked = true ∧ copyOp.gate = 0 ∧ copyOp.writes = [] ∧ opRuns (operates copyOp 2) copyOp = true ∧
    copyOp.ringUnit ≠ me (operates copyOp 2) ∧ (outPort (operates copyOp 2) 1).isSome = true ∧ (operates copyOp 2).wrn.unreachable = [] := by decide +kernel
theorem test_wit_copy : descOp copyOp.desc = 1 ∧ fld copyOp.desc 32 8 = 64 * 2 ∧
    copyable (operates copyOp 2) 1 ((List.range 2).map fun i => (fld copyOp.desc 16 8 + 64 * i, fld copyOp.desc 24 8 + 64 * i)) = true := by decide +kernel
theorem test_wit_gather : let d := (gatherOp 6).desc
    descOp d = 6 ∧ descOp (gatherOp 7).desc = 7 ∧ fld d 40 4 = 1 ∧ fld d 44 4 = 256 ∧
    copyable (operates (gatherOp 6) 2) 1 (List.zip (rowLines (fld d 16 8) 256 16) (rowLines (fld d 24 8) 256 0)) = true := by decide +kernel
theorem test_wit_tile : let s := operates (tileOpOf 2 0) 2
    (ownExt s 1 0).any (fun p => p.1.tenant == 1 && tileHere s p.1 p.2 0) = true ∧ findWay s 1 0 = some 3932160 ∧ (wayOf s.drt 3932160).pinned = false ∧
    pinnedWays s none = 0 ∧ cacheSets s = 1 * cacheSets s ∧ 0 < cacheSets s ∧ (1, 0) ∉ dirtyTiles s ∧ inLog s.hrd 1 0 = none ∧
    fld (tileOpOf 2 0).desc 24 8 = 32768 := by decide +kernel
theorem test_wit_tile_far : let s := { operates (tileOpOf 2 0) 2 with
      vq := { active := some (imgOf [fabricRec 2 0 1, unitRec 0 true, unitRec 1 true, tenantRec 1 0, bindRec 0 1, extentRec 5 1 2, tieringRec 5 0 1, recOf 0x13 0 0 [0xFF, 0xFF, 0, 0xFF]]), valid := true } }
    ownExt s 1 0 = none ∧ servingAt s 1 0 = 1 ∧ servingAt s 1 0 ≠ me s ∧ (outPort s 1).isSome = true := by decide +kernel
theorem test_wit_tile_logged : (inLog { stripes := [(3, { aStripe [] with tiles := [⟨1, 0, 0, 4096⟩] })] } 1 0).isSome = true ∧
    pinnedWays { operates (tileOpOf 3 0) 2 with drt := { ways := (List.range 8).map fun i => (i, { valid := true, pinned := true }) } } (some 0) = 8 := by decide +kernel

/-- The lines of a 128 by 256 band of operand A at tile 0, of B at tile 1, and of the output at tile 2, all staged with zeros. -/
def multiplies : Op := running 0x10 (leBytes 8 0 ++ leBytes 4 1 ++ leBytes 4 1 ++ leBytes 4 1 ++ leBytes 4 0 ++ leBytes 8 0 ++ leBytes 8 32768 ++ leBytes 8 65536)
def computes (o : Op) (blocks : Nat) : State :=
  { operates o 2 with
    drt := { ways := (List.range 3).map (fun i => (3932160 + 16 * i, { key := 2 ^ 35 + i, valid := true })), logical := 24 }
    cdc := { stg := (List.range blocks).map fun b => ⟨1, b, List.replicate 8 { present := true }, zs 4096, 0, 0⟩ }
    eng := { engines := [(0, { block := some (1, 256, 3, 0) })] } }
theorem test_wit_gemm : descOp multiplies.desc = 0x10 ∧ (blockAt (products multiplies) 0 0).any (fun p => p.1.src == [] && p.1.seed == 0 && p.1.out < 4 &&
      p.1.c == 65536 && p.2.1 == 0) = true ∧ opBlocks multiplies = 1 ∧ multiplies.ring = 256 ∧ hasBlock (computes multiplies 0) multiplies = true ∧
    (engOf (computes multiplies 0).eng 0).block = some (1, 256, 3, 0) ∧ (engOf (computes multiplies 0).eng 1).block = none := by decide +kernel
theorem test_wit_gemm_lines : let s := computes multiplies 24
    rangeReady s 1 0 32768 false = true ∧ rangeReady s 1 32768 32768 false = true ∧ rangeReady s 1 65536 32768 true = true ∧
    lineAt s 1 0 = some (zs 64, false) ∧ lineAt s 1 32704 = some (zs 64, false) ∧ lineAt s 1 65472 = some (zs 64, false) ∧
    stagedHere s 1 65536 = true ∧ stagedHere s 1 98240 = true := by decide +kernel
def routes : Op := running 0x12 (leBytes 1 3 ++ leBytes 1 1 ++ leBytes 2 2 ++ leBytes 4 1 ++ leBytes 8 0 ++ leBytes 8 32768 ++ leBytes 8 32832 ++ leBytes 8 32896 ++ leBytes 8 32960)
theorem test_wit_route : let s := computes routes 9
    descOp routes.desc = 0x12 ∧ fld routes.desc 20 4 = 1 ∧ fld routes.desc 17 1 = 1 ∧ fld routes.desc 18 2 = 2 ∧
    ((opRanges routes).reads.all fun w => rangeReady s 1 w.1 w.2 false && (rangeLines w.1 w.2).all fun m => (lineAt s 1 (64 * m)).isSome) = true ∧
    ((opRanges routes).writes.all fun w => rangeReady s 1 w.1 w.2 true && (rangeLines w.1 w.2).all fun m => stagedHere s 1 (64 * m)) = true ∧
    ((opRanges routes).writes.drop 1).all (fun w => 32768 + 64 ≤ w.1) = true := by decide +kernel
def checks (mode : Nat) : Op := running 0x20 (leBytes 8 (if mode = 1 then 5 else 4096) ++ leBytes 8 64 ++ leBytes 1 mode)
theorem test_wit_checksum : let s := operates (checks 0) 2
    descOp (checks 0).desc = 0x20 ∧ fld (checks 0).desc 32 1 = 0 ∧ fld (checks 1).desc 32 1 = 1 ∧ rangeReady s 1 4096 64 false = true ∧
    rangeLines 4096 64 = [64] ∧ lineAt s 1 4096 = some (List.replicate 64 7, false) ∧
    (extRec (extView s) (fld (checks 1).desc 16 2)).any (fun e => e.size == 1 && serverOf s e 0 == me s) = true := by decide +kernel
def exports (cap : Nat) : Op := running 0x30 (leBytes 8 0 ++ leBytes 8 32768 ++ leBytes 8 32768 ++ leBytes 8 cap)
theorem test_wit_export : let s := computes (exports 512) 9
    descOp (exports 512).desc = 0x30 ∧ (extFor s 1 0).isSome = true ∧ rangeReady s 1 0 32768 false = true ∧ rangeReady s 1 32768 512 true = true ∧
    ((rangeLines 32768 512).all fun m => stagedHere s 1 (64 * m)) = true ∧ lineAt s 1 0 = some (zs 64, false) := by decide +kernel
theorem test_wit_export_fits : ((extFor (computes (exports 512) 0) 1 0).any fun p => decide ((exportTile p.1 0 (List.replicate 512 (zs 64, false))).length + 32 ≤ 512)
      && decide (0 < (exportTile p.1 0 []).length)) = true := by decide +kernel
theorem test_wit_sram : let s := computes multiplies 0
    (engOf s.eng 0).sram = [] ∧ (extFor s 1 0).any (fun p => readOk (extSt s p.1.id).st p.2.2 && serverOf s p.1 p.2.1 == me s && (landedAddr s p.1 p.2.1 0 0).isSome) = true ∧
    rangeReady s 1 0 32768 false = true := by decide +kernel

def quietEnv : StartEnv :=
  { fwOk := true, fails := [], slows := [], retestPass := [], badMonitors := [], fuseCorrected := [], fuseBad := [], badSids := [], warrenTime := none
    ptpTime := none, hellos := [], dreys := [], replayed := [], links := [], phaseMs := List.replicate 9 100 }
/-- A unit just powered, SEALED, with an image in its current bank and a valid calendar. -/
def powered1 : State :=
  { State.reset with uni := { st := .starting }, fus := { words := [(0, ⟨0xDB, .clean⟩)] }, vq := { bankA := some (img1 1) }, lif := { calValid := true, cal := 5 } }
theorem test_wit_start : powered1.uni.st = .starting ∧ powered1.vq.restart5 = false ∧ powered1.vq.nextMarked = false ∧ powered1.vq.epochState = 0 ∧
    powered1.vq.coord = none ∧ powered1.mon = {} ∧ powered1.hst = {} ∧ powered1.mbx = {} ∧ powered1.ext = {} ∧ powered1.cdc = {} ∧ powered1.drt = {} := by decide +kernel
theorem test_wit_start2 : powered1.hrd = {} ∧ powered1.wrn = {} ∧ powered1.eng = {} ∧ powered1.opq = {} ∧ powered1.lif.fieldMap = [] ∧
    powered1.uni.holdWanted = false ∧ lifecycle powered1.fus = 2 ∧ badWords powered1.fus = [] ∧ factoryWords powered1.fus = [] ∧
    currentBank powered1.vq = some (img1 1) ∧ (validateImage (readFuses quietEnv 0 powered1.fus) none 0 (img1 1).raw 12).1.code ≠ 0 ∧
    (spareRoom (some (img1 1)) 0 32).isSome = true := by decide +kernel
theorem test_wit_bound : powered1.uni.st = .starting ∧ 0 < 2 ∧ (sealedUnit).uni.st ≠ .starting := by decide +kernel
def broken (st : Nat) : State := { sealedUnit with eng := { engines := [(0, { st := st, cause := 5, failing := [{ cls := 1, grp := 0, elt := 3 }] })] } }
theorem test_wit_engine : unitServesOrHeld (broken 0) = true ∧ (engOf (broken 0).eng 0).block = none ∧ (engOf (broken 2).eng 0).st = 2 ∧ nothingWaits (broken 2) = true ∧
    ((List.range 132).filter fun k => !isOut (broken 2) 1 0 k && !(engOf (broken 2).eng 0).failing.contains { cls := 1, grp := 0, elt := k }).length = 131 ∧
    ((List.range 68).filter fun k => !isOut (broken 2) 2 0 k).length = 68 := by decide +kernel
theorem test_wit_engine_lost : ((List.range 132).filter fun k => !isOut { broken 2 with uni := { st := .serving, outOfService := (List.range 5).map fun k => ⟨1, 0, k⟩ } } 1 0 k).length = 127 := by decide +kernel
def spared : State :=
  { sealedUnit with uni := { st := .serving, coreMap := (List.range 8).map fun i => (i, i) }, cdc := { engMap := (List.range 8).map fun i => (i, i) } }
theorem test_wit_takeover : isOut spared 3 0 2 = false ∧ spared.cdc.engMap.find? (fun q => q.2 == 2) = some (2, 2) ∧
    ((workingOf spared 3 0).filter fun k => k != 2 && !(spared.cdc.engMap.any fun q => q.2 == k)) = [8] ∧
    spared.uni.coreMap.find? (fun q => q.2 == 2) = some (2, 2) ∧
    ((workingOf spared 4 0).filter fun k => k != 2 && !(spared.uni.coreMap.any fun q => q.2 == k)) = [8, 9] := by decide +kernel
theorem test_wit_row : freeSpareRows spared 130 = [0, 1, 2, 3, 4, 5, 6, 7] ∧ nothingWaits spared = true ∧ isOut spared 5 130 7 = false := by decide +kernel
theorem test_wit_pace : let e : RepairEntry := ⟨1, 0, 3⟩
    isOut spared 1 0 3 = false ∧ (servingElements spared e.cls e.grp).contains e.elt = true ∧ groupGreen spared e = true ∧ engineIdle spared e.grp = true ∧
    (servingElements spared 1 0).contains 130 = false := by decide +kernel
theorem test_wit_firmware : let s : State := { serves 2 with opq := { ops := [anOp (copyDesc 0) 3 0 none] } }
    unitServesOrHeld s = true ∧ s.uni.restarting = false ∧ s.vq.coord = none ∧ (outPort s 1).isSome = true ∧
    (validateImage s.fus none s.vq.genFloor (img1 1).raw 12).1.code ≠ 0 ∧ spared.opq.ops = [] ∧ unitServesOrHeld powered1 = false ∧
    nothingWaits { serves 2 with ext := {} } = true := by decide +kernel

/-- A unit of two with a next image in its other bank, in an epoch state, with the shadow set given. -/
def epochs (st : Nat) (shadow : Option Image) (c : Option Coord) : State :=
  { serves 2 with
    vq := { (serves 2).vq with bankA := (serves 2).vq.active, bankB := some (img1 2), epochState := st, preparedEpoch := 7, coordUnit := 1, shadow := shadow
                               coord := c } }
def coordOf (d : Option Bool) (prepared : List Nat) : Coord :=
  { epoch := 7, digest := 0, members := [0, 1], prepared := prepared, refused := [], decision := d, ts := 5, acked := [], settled := [], deadline := 1000000001
    reversal := false }
theorem test_wit_prepare : let s := epochs 0 none none
    epochSrcOk s 1 = true ∧ (outPort s 1).isSome = true ∧ unitServesOrHeld s = true ∧ candidate s 0 = some (img1 2) ∧ candidate s 5 = none ∧
    s.vq.active.isSome = true ∧ shadowBusy s = false ∧ volatileOk s.vq.active (some (img1 2)) = true ∧ fitOk s (img1 2) 0 = true ∧ carryOk s (img1 2) = true ∧ (candidate s 0).isSome = true ∧
    (memberNumber s.fus (img1 2)).getD (me s) = 0 ∧
    s.uni.st ≠ .faulted := by decide +kernel
theorem test_wit_coord : let s := epochs 1 (some (img1 2)) (some (coordOf none [0]))
    unitServesOrHeld s = true ∧ (coordOf none [0]).decision = none ∧ 1 ∈ (coordOf none [0]).members ∧ 1 ∉ insAsc 0 [] ∧ now s < (coordOf none [0]).deadline ∧
    (coordOf none [0]).members.find? (fun u => !(coordOf none [0]).prepared.contains u) = some 1 ∧ s.vq.decided = [] ∧
    (∀ u ∈ (coordOf none [0]).members, u ∈ insAsc 1 (coordOf none [0]).prepared) := by decide +kernel
theorem test_wit_decided : let s := { epochs 0 none none with vq := { (epochs 0 none none).vq with decided := [(7, true, 5)] } }
    s.vq.coord = none ∧ s.vq.decided = [(7, true, 5)] ∧ (coordOf (some true) []).decision = some true ∧ (outPort s 1).isSome = true := by decide +kernel
theorem test_wit_resend : let s := epochs 1 (some (img1 2)) none
    s.vq.switchDue = none ∧ s.vq.coordUnit ≠ me s ∧ unreachable s 1 = false ∧ now s < s.vq.preparedAt + 2 * fabTimeout s.vq.active * 1000000 ∧
    s.vq.preparedAt + 2 * fabTimeout s.vq.active * 1000000 ≤ now { s with mon := { loaded := true, timebase := 4000000000 } } := by decide +kernel
theorem test_wit_abort_ctl : bit (1 : Word).toNat 0 = true ∧ bit (2 : Word).toNat 0 = false ∧ 1 ∈ namedUnits (epochs 2 (some (img1 2)) none).vq.active (some (img1 2)) ∧
    (epochs 2 (some (img1 2)) none).vq.epochState = 2 := by decide +kernel

theorem test_wit_epoch_commit : let s := epochs 1 (some (img1 2)) none
    s.vq.decided.find? (fun d => d.1 == 7) = none ∧ s.vq.preparedEpoch = 7 ∧ now s ≤ 2000000000 ∧ 5 < now s ∧ s.vq.active.isSome = true ∧
    memberNumber s.fus (img1 2) = some 0 ∧ (outPort s 1).isSome = true ∧ s.vq.coord = none := by decide +kernel
theorem test_wit_switch : let s := { epochs 1 (some (img1 2)) none with vq := { (epochs 1 (some (img1 2)) none).vq with switchDue := some 5 } }
    s.vq.switchDue = some 5 ∧ s.vq.epochState = 1 ∧ 5 ≤ now s ∧ s.vq.shadow = some (img1 2) := by decide +kernel
theorem test_wit_settle : let s := { epochs 2 (some (img1 2)) none with ext := {} }
    s.vq.epochState = 2 ∧ s.vq.mig = {} ∧ s.drt.retire = none ∧ s.drt.retireQueue = [] ∧ nothingWaits s = true ∧ (outPort s s.vq.coordUnit).isSome = true ∧
    (coordOf (some false) []).decision = some false ∧ 1 ∈ (coordOf (some true) []).members := by decide +kernel

def loads (busy : Bool) (d : Option Dist) : State := { serves 2 with pwr := { isl := [(0, { on := true })] }, vq := { (serves 2).vq with busy := busy, dist := d } }
theorem test_wit_load : mbxDown (loads false none) = false ∧ (ownVerdict (mread (loads false none).vq.buf 0 8) 0 (loads false none)).1.code ≠ 0 ∧
    1 ∈ namedUnits (loads false none).vq.active none ∧ (outPort (loads false none) 1).isSome = true ∧ fabN (loads false none).vq.active = 2 ∧
    namedUnits (some (imgOf [unitRec 0 true])) (some (imgOf [unitRec 0 true])) = [0] := by decide +kernel
def awaits : Dist := { mode := 0, image := none, asked := [1], verdicts := [(0, 0)], deadline := 1000000000 }
theorem test_wit_dist : (loads true (some awaits)).vq.dist = some awaits ∧ awaits.deadline ≤ now (loads true (some awaits)) ∧ me (loads true none) = 0 ∧
    unitServesOrHeld (loads true (some awaits)) = true ∧ epochSrcOk (loads true none) 1 = true ∧
    now { loads true (some awaits) with mon := { loaded := true, timebase := 999999999 } } < awaits.deadline := by decide +kernel
theorem test_wit_parts : let s := { loads true none with vq := { (loads true none).vq with rx := some (1, 64, 0) }, mon := { loaded := true, timebase := 5000000000 } }
    s.vq.rx.isSome = true ∧ s.vq.rxSince + 5000000000 ≤ now s ∧ (loads false none).vq.rx = none ∧
    ({ loads false none with vq := { (loads false none).vq with staged := some (1, 2, img1 2) } } : State).vq.staged = some (1, 2, img1 2) := by decide +kernel

/-- Link 0 in a state, perhaps behind a switch, with LD 0 present and perhaps a request of it. -/
def linked (st : Nat) (sw : Bool) (rs : List MemReq) : State :=
  { serves 2 with
    pwr := { isl := [(0, { on := true }), (7, { on := true, vset := 800 })] }
    hst := { links := [(0, { st := st, switched := sw })], lds := [(0, { present := true, accepted := [(5, false)], spdm := true }), (256, { spdm := true })]
             ideRequired := false, reqs := rs } }
def partner (w rate : Nat) : LinkPartner := { rate := rate, width := w, flit256 := true, cxl := true, equalised := true, switched := false }
theorem test_wit_link : linkExists (linked 0 false []) 0 = true ∧ linkServed (linked 0 false []) 0 = true ∧ (partner 16 0).width = 16 ∧
    (partner 2 0).width < 4 ∧ (partner 16 0).equalised = true ∧ (tget ({} : Isl) (linked 0 false []).pwr.isl 7).on = true ∧
    80 ≤ islandMax (linked 0 false []) 7 ∧ islandMax { linked 0 false [] with vq := { active := some (imgOf [recOf 0x15 0 0 (List.replicate 36 60)]), valid := true } } 7 < 80 ∧ linkExists (linked 0 false []) 99 = false ∧
    (linkOf (linked 2 true []).hst 0).st = 2 ∧ (linkOf (linked 2 true []).hst 0).switched = true ∧ (linkOf (linked 3 true []).hst 0).st = 3 := by decide +kernel
theorem test_wit_ide : (ldOf (linked 2 true []).hst 256).spdm = true ∧ (ldOf (linked 2 false []).hst 0).spdm = true ∧ (ldOf (linked 2 false []).hst 16).spdm = false ∧
    dmwrTaken (linked 2 false []) 0 0x10008 8 = true ∧ dmwrTaken (linked 2 false []) 0 0x20000 8 = false := by decide +kernel
theorem test_wit_watchdog : let s := linked 2 false [newReq 3 0 0 .none]
    s.hst.reqs = [newReq 3 0 0 .none] ∧ (newReq 3 0 0 .none).origin = none ∧ (newReq 3 0 0 .none).answered = false ∧
    (newReq 3 0 0 .none).stamp + 9000000 ≤ now s ∧ now { s with mon := { loaded := true, timebase := 8999999 } } < (newReq 3 0 0 .none).stamp + 9000000 := by decide +kernel
theorem test_wit_reset : (ldOf (linked 2 false []).hst 0).present = true ∧ (ldOf (linked 2 false []).hst 1).present = false ∧
    mailboxUp (linked 2 false []) 0 = true ∧ mailboxUp (linked 3 false []) 0 = false ∧ hdmDpa (ldOf (linked 2 false []).hst 0) 0 0 = 0 := by decide +kernel

def rec1 : EventRec :=
  { cls := 1, disp := 0, code := 0x0501, unit := 0, seq := 1, time := 0, tenant := 0, scopeKind := 3, scopeIdx := 0, count := 1, addr := 0, d0 := 0, d1 := 0
    early := false, lost := false }
theorem test_wit_mailbox : mailboxUp (linked 2 false []) 0 = true ∧ (5, false) ∈ (ldOf (linked 2 false []).hst 0).accepted ∧
    (7, false) ∉ (ldOf (linked 2 false []).hst 0).offered ∧ (extSt (linked 2 false []) 5).st ≠ 6 ∧
    (5, true) ∈ (ldOf { lds := [(0, { offered := [(5, true)] })] } 0).offered ∧ acceptedAt (linked 2 false []) 0 0 = none := by decide +kernel
theorem test_wit_records : let l : LdLog := { head := 1, recs := [(0, rec1)] }
    (logRecs l (cxlLog 1 0)).map (·.1) = [0] ∧ cxlLog 1 0 < 4 := by decide +kernel
theorem test_wit_inject : let s := { linked 2 false [] with hst := { (linked 2 false []).hst with poisonInject := true } }
    (takenAt s 0 (2 ^ 50) (now s) true).any (fun p => !kmFull s p.1 && !frozenStrips s p.2 [0] && decide (blockSpot s 1 0 = some p)) = true ∧
    (2 ^ 50) % 64 = 0 ∧ stgFind s.cdc 1 0 = none ∧ mailboxUp s 0 = true := by decide +kernel
theorem test_wit_timeout_release : let s := { linked 2 false [] with hst := { lds := [(0, { releasing := [(5, false, 1000000000)], accepted := [(5, false)] })] } }
    (ldOf s.hst 0).releasing.find? (·.1 == 5) = some (5, false, 1000000000) ∧ 1000000000 ≤ now s ∧ (extSt s 5).st ≠ 6 ∧
    now { s with mon := { loaded := true, timebase := 9 } } < 1000000000 := by decide +kernel
theorem test_wit_window : let s := { linked 2 false [] with flt := { opened := [rec1] } }
    s.flt.opened.find? (fun r => r.code == 0x0501 && r.scopeKind == 3 && r.scopeIdx == 0 && r.tenant == 0) = some rec1 ∧ rec1.time + 1000000000 ≤ now s := by decide +kernel
theorem test_wit_resume : let s := { serves 2 with uni := { st := .held }, ext := {}, flt := { byFault := true, causes := [0x000A] } }
    s.flt.causes.any (causePresent s) = false ∧ s.uni.waiting = none ∧ s.drt.retire = none ∧ nothingWaits s = true ∧
    [0x0E04].any (causePresent { s with lif := { noTime := true } }) = true := by decide +kernel
theorem test_wit_event_tail : let s := { serves 2 with flt := { lds := [(0, { head := 5, tail := 2 })] } }
    barTaken s 0 = true ∧ (3 + 2 ^ 32 - 2) % 2 ^ 32 ≤ (5 + 2 ^ 32 - 2) % 2 ^ 32 ∧ (5 + 2 ^ 32 - 2) % 2 ^ 32 < (1 + 2 ^ 32 - 2) % 2 ^ 32 ∧
    barTaken { s with uni := { st := .dormouse } } 0 = false := by decide +kernel

theorem test_wit_arb : let f : Fus := { words := [(1, ⟨9, .clean⟩), (2, ⟨2, .clean⟩)] }
    let g : Fus := { words := [(1, ⟨1, .clean⟩), (2, ⟨2, .clean⟩)] }
    (fuseBits f (1 + 65 / 64)).getLsbD (65 % 64) = true ∧ (∀ j < 128, 65 < j → (fuseBits f (1 + j / 64)).getLsbD (j % 64) = false) ∧
    (∀ j < 128, 65 < j → (fuseBits g (1 + j / 64)).getLsbD (j % 64) = false) ∧ (fuseBits g (1 + 65 / 64)).getLsbD (65 % 64) = true ∧
    (∀ i < 128, (fuseBits { words := [] } (1 + i / 64)).getLsbD (i % 64) = false) ∧ arb f = 66 := by decide +kernel

theorem test_wit_dorm : let s (drained : Bool) (l : Lease) (e : Nat) : State := { serves 2 with
      uni := { st := .draining }, pwr := { drained := drained }, ext := { leases := [(1, l)] }, vq := { (serves 2).vq with epochState := e } }
    dormRefusal (s false {} 0) = 1 ∧ dormRefusal (s true { st := 2 } 0) = 2 ∧ dormRefusal (s true { expiry := 2000000000 } 0) = 3 ∧
    dormRefusal (s true {} 1) = 5 ∧ dormRefusal (s true {} 0) = 0 := by decide +kernel
theorem test_wit_dorm_km : let s : State := { serves 2 with
      uni := { st := .draining }, pwr := { drained := true }, ext := { leases := [(1, { expiry := 2000000000 })] }
      vq := { (serves 2).vq with active := some (imgOf [fabricRec 2 0 1, unitRec 0 true, unitRec 1 true, tenantRec 1 0, bindRec 0 1, extentRec 5 1 2,
                                  tieringRec 5 0 1]) } }
    dormRefusal s = 4 := by decide +kernel

end Sys2Proof.Tests
end

section
/-! Register accesses to the two BARs (R11, R12, R377, R439, R440): which accesses are refused and how, and what a write of
BAR2 does to the register it reaches. -/

namespace Sys2Proof.Proofs

open Sys2Proof.Machine Sys2Proof.Safety Sys2Proof.Laws

/-! ### The three commands are accesses -/

theorem exec_registerWrite (rq : Requester) (off size : Nat) (v : Word) (s : State) :
    exec (.registerWrite rq off size v) s = .next (access rq off size true v s) := rfl

theorem exec_registerAccessRefused (rq : Requester) (off size : Nat) (w : Bool) (v : Word) (s : State) :
    exec (.registerAccessRefused rq off size w v) s = .next (access rq off size w v s) := rfl

theorem exec_islandOffAccess (off size : Nat) (w : Bool) (v : Word) (s : State) :
    exec (.islandOffAccess off size w v) s = .next (access .bar2 off size w v s) := rfl

/-! ### Size and alignment (R12) -/

theorem accessOk_iff (off size : Nat) : accessOk off size = true ↔ (size = 4 ∨ size = 8) ∧ off % size = 0 := by
  simp [accessOk]

theorem accessOk_eq_false_iff (off size : Nat) :
    accessOk off size = false ↔ (size ≠ 4 ∧ size ≠ 8) ∨ off % size ≠ 0 := by
  rw [← Bool.not_eq_true, accessOk_iff, not_and_or, not_or]

/-! ### Which accesses are taken (R12, R377, R440) -/

theorem access_of_off {s : State} (rq : Requester) (off size : Nat) (w : Bool) (v : Word) (hs : s.uni.st = .off) :
    access rq off size w v s = s := if_pos hs

theorem access_of_not_accessOk {s : State} (rq : Requester) {off size : Nat} (w : Bool) (v : Word) (hs : s.uni.st ≠ .off)
    (ha : accessOk off size = false) : access rq off size w v s = refuseAccess rq off size w s := by
  unfold access; rw [if_neg hs, ha]; rfl

theorem access_bar2 {s : State} {off size : Nat} (w : Bool) (v : Word) (hs : s.uni.st ≠ .off) (ha : accessOk off size = true) :
    access .bar2 off size w v s = bar2Access off size w v s := by
  rw [access, if_neg hs, ha]; rfl

theorem bar2Access_of_dormouse {s : State} {off : Nat} (size : Nat) (w : Bool) (v : Word) (hs : s.uni.st = .dormouse)
    (hb : blockOf off ≠ 4) : bar2Access off size w v s = if w then s else emit (.readAbort .bar2 off) s := if_pos ⟨hs, hb⟩

theorem bar2Access_of_blockOff {s : State} {off : Nat} (size : Nat) (w : Bool) (v : Word) (hs : s.uni.st ≠ .dormouse)
    (hb : blockOn s (blockOf off) = false) : bar2Access off size w v s = refuseAccess .bar2 off size w s := by
  rw [bar2Access, if_neg fun h => hs h.1, hb]; rfl

theorem bar2Access_write {s : State} {off : Nat} (size : Nat) (v : Word) (hs : s.uni.st ≠ .dormouse)
    (hb : blockOn s (blockOf off) = true) : bar2Access off size true v s = bar2Write off size v s := by
  rw [bar2Access, if_neg fun h => hs h.1, hb]; rfl

/-- An access to BAR2 outside DORMOUSE is refused while the block's island is off, whatever its size and alignment. -/
theorem access_bar2_of_blockOff {s : State} {off : Nat} (size : Nat) (w : Bool) (v : Word) (hs : s.uni.st ≠ .off)
    (hd : s.uni.st ≠ .dormouse) (hb : blockOn s (blockOf off) = false) :
    access .bar2 off size w v s = refuseAccess .bar2 off size w s := by
  cases ha : accessOk off size with
  | false => exact access_of_not_accessOk .bar2 w v hs ha
  | true => rw [access_bar2 w v hs ha, bar2Access_of_blockOff size w v hd hb]

/-! ### Hosting islands (Table 21.1) -/

/-- The blocks of BAR2 with one hosting island, each with that island. -/
def hostedBlocks : List (Nat × Nat) :=
  [(0, 0), (1, 0), (2, 0), (3, 0), (5, 7), (6, 0), (7, 0), (8, 5), (9, 6), (10, 6), (11, 7), (13, 0), (14, 0), (15, 0), (16, 0)]

theorem blockOn_of_mem_hostedBlocks (s : State) {p : Nat × Nat} (hp : p ∈ hostedBlocks) : blockOn s p.1 = (islOf s p.2).on := by
  revert p; simp [hostedBlocks, blockOn]

/-- ENG is hosted by the four islands of the engines. -/
theorem blockOn_eng (s : State) :
    blockOn s 12 = ((islOf s 1).on || (islOf s 2).on || (islOf s 3).on || (islOf s 4).on) := rfl

/-- Past the last block of Table 21.1 no island decides. -/
theorem blockOn_of_gt (s : State) {blk : Nat} (h : 0x10 < blk) : blockOn s blk = true := by
  have hne : ∀ n ≤ 0x10, blk ≠ n := fun n hn => by omega
  simp [blockOn, hne, h]

/-! ### What a refusal does (R12) -/

/-- A refused write records event 0x000E with the requester as its scope, and changes no block beside the logs, the pending
interrupts and what is sent. -/
theorem accessRefused_dropped (rq : Requester) (off size : Nat) (w : Bool) (s : State) :
    noted (accessRefused rq off size w s) 0x000E 0 (if (rqLd rq).isSome then 1 else 0) ((rqLd rq).getD 0) ∧
    ∀ b : Block, b ∉ [.hst, .flt, .out] → b.same s (accessRefused rq off size w s) :=
  have hclass : (codeRow 0x000E 1).1 < 4 := by decide
  ⟨raise_noted _ s hclass, (accessRefused_kept rq off size w s (.refl _ s) (covers_refl _)).frame⟩

/-! ### A write that reaches a register of BAR2 (R11, R12) -/

theorem full_eq_allOnes : (-1 : Word) = BitVec.allOnes 64 := by decide

theorem getLsbD_full {i : Nat} (h : i < 64) : (-1 : Word).getLsbD i = true := by
  rw [full_eq_allOnes, BitVec.getLsbD_allOnes, decide_eq_true h]

theorem and_full (v : Word) : v &&& -1 = v := by rw [full_eq_allOnes, BitVec.and_allOnes]

theorem merged_full (cur v : Word) : merged cur (-1) v = v := by
  rw [merged, and_full, full_eq_allOnes, BitVec.not_allOnes, BitVec.and_zero, BitVec.zero_or]

/-- The buffers of FUS and VQ, whose writes reach no register (R56, R73). -/
def bufferWindow (off : Nat) : Bool :=
  decide (0x01010000 ≤ off ∧ off < 0x01014000) || decide (0x02800000 ≤ off ∧ off < 0x02900000)

theorem bufferWindow_eq_false_iff (off : Nat) : bufferWindow off = false ↔
    ¬ (0x01010000 ≤ off ∧ off < 0x01014000) ∧ ¬ (0x02800000 ≤ off ∧ off < 0x02900000) := by
  rw [bufferWindow, Bool.or_eq_false_iff, decide_eq_false_iff_not, decide_eq_false_iff_not]

theorem bar2Write_register {off : Nat} (size : Nat) (v : Word) (s : State) (hw : bufferWindow off = false) :
    bar2Write off size v s = bar2Reg (off / 8 * 8)
      (merged (bar2Read s (off / 8 * 8)) (accessMask off size) (accessVal off size v)) (accessMask off size) s := by
  obtain ⟨hfus, hvq⟩ := (bufferWindow_eq_false_iff off).1 hw
  rw [bar2Write, if_neg hfus, if_neg hvq]

/-- A well-formed write of BAR2 outside the buffers, to a block whose island is on, sets the register it addresses to its value
with the written part in place. -/
theorem exec_registerWrite_bar2 {s : State} {off size : Nat} (v : Word) (hs : s.uni.st ≠ .off) (hd : s.uni.st ≠ .dormouse)
    (hb : blockOn s (blockOf off) = true) (ha : accessOk off size = true) (hw : bufferWindow off = false) :
    exec (.registerWrite .bar2 off size v) s = .next (bar2Reg (off / 8 * 8)
      (merged (bar2Read s (off / 8 * 8)) (accessMask off size) (accessVal off size v)) (accessMask off size) s) := by
  rw [exec_registerWrite, access_bar2 true v hs ha, bar2Access_write size v hd hb, bar2Write_register size v s hw]

/-- An 8-byte write gives the register the value written. -/
theorem exec_registerWrite_bar2_full {s t : State} {off : Nat} {v : Word} (hs : s.uni.st ≠ .off) (hd : s.uni.st ≠ .dormouse)
    (hb : blockOn s (blockOf off) = true) (ha : off % 8 = 0) (hw : bufferWindow off = false) (ht : bar2Reg off v (-1) s = t) :
    exec (.registerWrite .bar2 off 8 v) s = .next t := by
  have hok := (accessOk_iff off 8).2 ⟨.inr rfl, ha⟩
  rw [exec_registerWrite_bar2 v hs hd hb hok hw, Nat.div_mul_cancel (Nat.dvd_of_mod_eq_zero ha)]
  change Host.Outcome.next (bar2Reg off (merged _ (-1) v) (-1) s) = .next t
  rw [merged_full, ht]

/-- The merge of a 4-byte write of the upper half keeps the lower half of the register (R12). -/
theorem merged_upper (cur v : Word) : merged cur 0xFFFFFFFF00000000 (v <<< 32) = (cur &&& (0xFFFFFFFF : Word)) ||| (v <<< 32) := by
  have hmask : (0xFFFFFFFF00000000 : Word) = (-1 : Word) <<< 32 := by decide
  have hlow : ~~~(0xFFFFFFFF00000000 : Word) = 0xFFFFFFFF := by decide
  have hkeep : v <<< 32 &&& (0xFFFFFFFF00000000 : Word) = v <<< 32 := by
    rw [hmask, ← BitVec.shiftLeft_and_distrib, and_full]
  rw [merged, hlow, hkeep]

theorem bar2Read_lifArg (s : State) : bar2Read s 0x0E000020 = s.lif.arg :=
  (BitVec.ofNat_toNat 64 s.lif.arg).trans (BitVec.setWidth_eq _)

theorem bits_9_8 (n : Nat) : bits n 9 8 = n / 256 % 4 := congrArg (· % 4) (Nat.shiftRight_eq_div_pow n 8)

/-! ### The registers, by their access codes (R11): `w` is the merged value, `m` the bits written -/

section
variable (w m : Word) (s : State)

theorem bar2Reg_retest : bar2Reg 0x180 w m s = { s with uni := { s.uni with retest := bit w.toNat 0 } } := rfl

theorem bar2Reg_vqStatus :
    bar2Reg 0x02000000 w m s = { s with vq := { s.vq with refused := s.vq.refused && !(w.getLsbD 1 && m.getLsbD 1) } } := rfl

theorem bar2Reg_winPage : bar2Reg 0x02000010 w m s = { s with vq := { s.vq with page := w.toNat % 16 } } := rfl

theorem bar2Reg_monAlert :
    bar2Reg 0x03000D28 w m s = { s with mon := { s.mon with alert := s.mon.alert &&& ~~~ (w &&& m).setWidth 32 } } := rfl

theorem bar2Reg_pwrPolicy : bar2Reg 0x04000018 w m s = { s with pwr := { s.pwr with autoStart := bit w.toNat 0 } } := rfl

theorem bar2Reg_hstPolicy : bar2Reg 0x05000000 w m s = if m.getLsbD 0 then policyWrite w.toNat s else s := rfl

theorem bar2Reg_ologPage : bar2Reg 0x07000030 w m s = { s with ext := { s.ext with page := w.toNat % 64 } } := rfl

theorem bar2Reg_lifArg : bar2Reg 0x0E000020 w m s = { s with lif := { s.lif with arg := w } } := rfl

theorem bar2Reg_histSel :
    bar2Reg 0x0E000060 w m s = { s with lif := { s.lif with qty := w.toNat % 256, ring := bits w.toNat 9 8 } } := rfl

/-- The first FUS register is derived from the fuses. -/
theorem bar2Reg_fuseDerived : bar2Reg 0x01000000 w m s = writeIgnored 0x01000000 none (w &&& m).toNat s := rfl

/-- No register stands past the last block of Table 21.1. -/
theorem bar2Reg_of_ge {off : Nat} (h : 0x11000000 ≤ off) : bar2Reg off w m s = s := by
  have hne : ∀ n < 0x11000000, off ≠ n := fun n hn => by omega
  have hblk : blockOf off ≠ 1 := by unfold blockOf; omega
  simp [bar2Reg, hne, hblk]

end

theorem policyWrite_of_lt (w : Nat) {s : State} (h : lifecycle s.fus < 2) :
    policyWrite w s = { s with hst := { s.hst with ideRequired := bit w 0, poisonInject := bit w 1 } } :=
  if_neg (Nat.not_le.2 h)

theorem policyWrite_of_ge (w : Nat) {s : State} (h : 2 ≤ lifecycle s.fus) :
    policyWrite w s = writeIgnored 0x05000000 none w s := if_pos h

/-! ### A write that is ignored (event 0x000F) -/

theorem writeIgnored_noted (off v : Nat) (s : State) : noted (writeIgnored off none v s) 0x000F 0 0 0 :=
  have hclass : (codeRow 0x000F 1).1 < 4 := by decide
  raise_noted _ s hclass

theorem writeIgnored_eq_record (off : Nat) (bar0 : Option Nat) (v : Nat) (s : State) : ∃ e, writeIgnored off bar0 v s = record e s :=
  have hdisp : (codeRow 0x000F 1).2 = 0 := by decide
  ⟨_, raise_eq_record _ s hdisp⟩

theorem writeIgnored_fus (off : Nat) (bar0 : Option Nat) (v : Nat) (s : State) : (writeIgnored off bar0 v s).fus = s.fus := by
  obtain ⟨e, he⟩ := writeIgnored_eq_record off bar0 v s
  rw [he, record_fus]

theorem writeIgnored_policy (off : Nat) (bar0 : Option Nat) (v : Nat) (s : State) :
    (writeIgnored off bar0 v s).hst.ideRequired = s.hst.ideRequired ∧
    (writeIgnored off bar0 v s).hst.poisonInject = s.hst.poisonInject := by
  obtain ⟨e, he⟩ := writeIgnored_eq_record off bar0 v s
  obtain ⟨-, -, hide, hpoison⟩ := record_hst e s
  rw [he]
  exact ⟨hide, hpoison⟩

/-! ### The statements -/

/-- Settles O19. Each part is a write that reaches the one register named; the register's own equation says what it keeps of the
value. -/
theorem registerWritesTakeEffect : Obligations.RegisterWritesTakeEffect := by
  unfold Obligations.RegisterWritesTakeEffect
  intro s v hs hd h0
  have full {off : Nat} {t : State} (hb : blockOn s (blockOf off) = true) (ha : off % 8 = 0) (hw : bufferWindow off = false)
      (ht : bar2Reg off v (-1) s = t) : exec (.registerWrite .bar2 off 8 v) s = .next t :=
    exec_registerWrite_bar2_full hs hd hb ha hw ht
  have on0 {b : Nat} (hb : (b, 0) ∈ hostedBlocks) : blockOn s b = true := (blockOn_of_mem_hostedBlocks s hb).trans h0
  have on7 (h7 : (islOf s 7).on = true) : blockOn s 5 = true :=
    (blockOn_of_mem_hostedBlocks s (p := (5, 7)) (by decide)).trans h7
  have policy : bar2Reg 0x05000000 v (-1) s = policyWrite v.toNat s := by
    rw [bar2Reg_hstPolicy, if_pos (getLsbD_full (by decide))]
  refine ⟨?retest, ?refused, ?winPage, ?alert, ?pwrPolicy, ?ologPage, ?lifArg, ?histSel, ?hstOpen, ?hstSealed, ?fuseDerived,
    ?noRegister, ?upperHalf⟩
  case retest => exact full (on0 (by decide)) rfl rfl (bar2Reg_retest v _ s)
  case refused => exact full (on0 (by decide)) rfl rfl (by rw [bar2Reg_vqStatus, getLsbD_full (by decide), Bool.and_true])
  case winPage => exact full (on0 (by decide)) rfl rfl (bar2Reg_winPage v _ s)
  case alert => exact full (on0 (by decide)) rfl rfl (by rw [bar2Reg_monAlert, and_full])
  case pwrPolicy => exact full rfl rfl rfl (bar2Reg_pwrPolicy v _ s)
  case ologPage => exact full (on0 (by decide)) rfl rfl (bar2Reg_ologPage v _ s)
  case lifArg => exact full (on0 (by decide)) rfl rfl (bar2Reg_lifArg v _ s)
  case histSel => exact full (on0 (by decide)) rfl rfl (by rw [bar2Reg_histSel, bits_9_8])
  case hstOpen =>
    intro h7 hopen
    exact full (on7 h7) rfl rfl (policy.trans (policyWrite_of_lt _ hopen))
  case hstSealed =>
    intro h7 hsealed
    exact ⟨_, full (on7 h7) rfl rfl (policy.trans (policyWrite_of_ge _ hsealed)), writeIgnored_noted _ _ s,
      writeIgnored_policy _ _ _ s⟩
  case fuseDerived =>
    exact ⟨_, full (on0 (by decide)) rfl rfl (bar2Reg_fuseDerived v _ s), writeIgnored_noted _ _ s, writeIgnored_fus _ _ _ s⟩
  case noRegister =>
    intro off hge hlt ha
    have hb : blockOn s (blockOf off) = true := blockOn_of_gt s (by unfold blockOf; omega)
    have hw : bufferWindow off = false := (bufferWindow_eq_false_iff off).2 (by omega)
    exact full hb ha hw (bar2Reg_of_ge v _ s hge)
  case upperHalf =>
    rw [exec_registerWrite_bar2 v hs hd (on0 (by decide)) rfl rfl]
    change Host.Outcome.next (bar2Reg 0x0E000020 (merged (bar2Read s 0x0E000020) 0xFFFFFFFF00000000 (v <<< 32)) _ s) = _
    rw [bar2Reg_lifArg, bar2Read_lifArg, merged_upper]
    rfl

/-- Settles O20. The first two parts are the refusals of R12 and R440, which `refuseAccess` answers for both; the third is
R377, whose write that changes nothing is the model's reading (the spec names the read alone), and the last is the unit in OFF
(log entry 10). -/
theorem accessesRefused : Obligations.AccessesRefused := by
  unfold Obligations.AccessesRefused
  intro s off size v
  refine ⟨fun rq hoff hbad => ?_, fun hoff hdorm hisl => ?_, fun hdorm hpwr hsize halign => ?_, fun rq w hoff => ?_⟩
  · have ha := (accessOk_eq_false_iff off size).2 hbad
    simp only [Answers, exec_registerAccessRefused, access_of_not_accessOk rq _ v hoff ha]
    cases rq <;> exact ⟨rfl, _, rfl, accessRefused_dropped _ off size true s⟩
  · have hb : blockOn s (blockOf off) = false := by
      rcases hisl with ⟨p, hp, hblk, hon⟩ | ⟨hblk, h1, h2, h3, h4⟩
      · rw [blockOf, hblk, blockOn_of_mem_hostedBlocks s hp, hon]
      · rw [blockOf, hblk, blockOn_eng, h1, h2, h3, h4]; rfl
    simp only [Answers, exec_islandOffAccess, access_bar2_of_blockOff size _ v hoff hdorm hb]
    exact ⟨rfl, _, rfl, accessRefused_dropped .bar2 off size true s⟩
  · have hoff : s.uni.st ≠ .off := by rw [hdorm]; decide
    have ha := (accessOk_iff off size).2 ⟨hsize, halign⟩
    simp only [exec_registerAccessRefused, exec_registerWrite, access_bar2 _ v hoff ha, bar2Access_of_dormouse size _ v hdorm hpwr]
    exact ⟨rfl, rfl⟩
  · rw [exec_registerAccessRefused, exec_registerWrite, access_of_off rq off size w v hoff, access_of_off rq off size true v hoff]
    exact ⟨rfl, rfl⟩

end Sys2Proof.Proofs
end

section
/-! Host reads (R13, R14, R103, R154, R178, R377, R423): the answer of a read that is served at once, its grant in the snoop
filter, and the reads that wait or are refused. -/

namespace Sys2Proof.Proofs

open Sys2Proof.Machine Sys2Proof.Safety Sys2Proof.Laws

theorem exec_hostMemRead (id ld dpa : Nat) (w : Want) (stamp : Ns) (s : State) :
    exec (.hostMemRead id ld dpa w stamp) s = .next (hostRequest (newReq id ld stamp w) dpa s) := rfl

/-! ### The staged strip before DRAM (R13) -/

theorem readLine_of_staged {s : State} {tenant block i : Nat} {x : StgEntry} (a : Nat)
    (hx : stgFind s.cdc tenant block = some x) (hp : (stripOf x (i / 8)).present = true) :
    readLine s tenant block a i = .data (slice x.data (64 * i) 64) (x.poison.getLsbD i) := by
  simp only [readLine, hx, hp, if_true]

/-! ### What a read sends -/

@[simp] theorem enqueueStrips_out (q a : Nat) (ks : List Nat) (w : Bool) (s : State) : (enqueueStrips q a ks w s).out = s.out :=
  (enqueueStrips_kept q a ks w s (.refl [.drt] s) (covers_refl _)).frame .out (by decide)

@[simp] theorem countDec_out (st block n : Nat) (s : State) : (countDec st block n s).out = s.out := rfl

@[simp] theorem touchTile_out (tenant tile : Nat) (s : State) : (touchTile tenant tile s).out = s.out :=
  (touchTile_kept tenant tile s (.refl [.drt] s) (covers_refl _)).frame .out (by decide)

@[simp] theorem holdBlock_out (tenant block a : Nat) (s : State) : (holdBlock tenant block a s).out = s.out :=
  (holdBlock_kept tenant block a s (.refl [.cdc] s) (covers_refl _)).frame .out (by decide)

/-- A request of a host of this unit that has not been answered. -/
structure HostOwn (r : MemReq) : Prop where
  origin : r.origin = none
  answered : r.answered = false

theorem answerData_out {r : MemReq} (h : HostOwn r) (data : List Byte) (p : Bool) (grant : Nat) (s : State) :
    (answerData r data p grant s).out = .memData r.id r.ld (if p then List.replicate 64 0 else data) p grant :: s.out := by
  rw [answerData, h.answered]; rfl

theorem answerPoison_out {r : MemReq} (h : HostOwn r) (s : State) :
    (answerPoison r s).out = .memData r.id r.ld (List.replicate 64 0) true 0 :: s.out := by
  rw [answerPoison, h.origin]
  exact answerData_out h [] true 0 s

/-- A line of a landed block that reads is the answer; a poisoned one is answered as poison without a grant (R178). -/
theorem finishRead_out {e : ExtRec} {r : MemReq} {a : Nat} {s : State} {line : List Byte} {p : Bool} (g grant : Nat)
    (h : HostOwn r) (hf : frozenStrips s a (stripsFor (blockRec s.drt a).bmw (r.addr / 64 % 64 / 8)) = false)
    (hl : readLine s e.tenant (r.addr / 4096) a (r.addr / 64 % 64) = .data line p) :
    (finishRead e g r a grant s).out =
      .memData r.id r.ld (if p then List.replicate 64 0 else line) p (if p then 0 else grant) :: s.out := by
  unfold finishRead
  simp only [hf, Bool.false_and, Bool.false_eq_true, if_false, hl, h.origin]
  cases p
  · simp [answerData_out h, apply_ite State.out]
  · simp [answerPoison_out h, apply_ite State.out]

theorem finishRead_ext (e : ExtRec) (g : Nat) (r : MemReq) (a grant : Nat) (s : State) :
    (finishRead e g r a grant s).ext = s.ext :=
  (finishRead_kept e g r a grant s (.refl [.pwr, .hst, .cdc, .drt, .hrd, .wrn, .flt, .out] s) (covers_refl _)).frame .ext (by decide)

/-! ### The grant (Table 8.3) and its record in the filter (R154) -/

/-- The state in which a read is answered, with its grant recorded in the filter. -/
def granted (e : ExtRec) (r : MemReq) (s : State) : State :=
  let grant := grantFor e.kind (extSt s e.id).st r.want
  if grant = 0 then s else sfGrant e.tenant (r.addr / 64 * 64) e.id (reqHolder s r) (grant == 2) s

/-- A grant touches the filter alone: the tier, the staging buffer and what has been sent stay. -/
theorem granted_frame (e : ExtRec) (r : MemReq) (s : State) : ∀ b, b ∉ [Block.ext] → b.same s (granted e r s) := by
  unfold granted
  dsimp only
  split
  · exact (Kept.refl [.ext] s).frame
  · exact (sfGrant_kept _ _ _ _ _ s (.refl [.ext] s) (covers_refl _)).frame

/-- A read whose block has landed, and for which the filter needs no flow and has room, takes its grant and is answered. -/
theorem serveRead_of_landed {e : ExtRec} {g a : Nat} {r : MemReq} {s : State}
    (hn : e.kind = 1 → sfFind s.ext e.tenant (r.addr / 64 * 64) = none ∧ sfFull s = false)
    (ha : landedAddr s e g (r.addr / 32768) (r.addr / 4096 % 8) = some a) :
    serveRead e g r s = finishRead e g r a (grantFor e.kind (extSt s e.id).st r.want) (granted e r s) := by
  have hneeds (h : Nat × Nat) (x : Bool) :
      (if e.kind = 1 then hostNeeds s e.tenant (r.addr / 64 * 64) h x else none) = none := by
    split
    · next hk => rw [hostNeeds, (hn hk).1]
    · rfl
  have hroom : ¬ (grantFor e.kind (extSt s e.id).st r.want ≠ 0 ∧
      (sfFind s.ext e.tenant (r.addr / 64 * 64)).isNone = true ∧ sfFull s = true) := by
    rintro ⟨hg, -, hfull⟩
    by_cases hk : e.kind = 1
    · rw [(hn hk).2] at hfull; cases hfull
    · exact hg (if_pos hk)
  unfold serveRead granted
  simp only [hneeds, if_neg hroom, ha, Option.isSome_some, if_true]

/-- The answer of such a read: its line and its grant, or poison. -/
theorem serveRead_out {e : ExtRec} {g a : Nat} {r : MemReq} {s : State} {line : List Byte} {p : Bool} (h : HostOwn r)
    (hn : e.kind = 1 → sfFind s.ext e.tenant (r.addr / 64 * 64) = none ∧ sfFull s = false)
    (ha : landedAddr s e g (r.addr / 32768) (r.addr / 4096 % 8) = some a)
    (hf : frozenStrips s a (stripsFor (blockRec s.drt a).bmw (r.addr / 64 % 64 / 8)) = false)
    (hl : readLine s e.tenant (r.addr / 4096) a (r.addr / 64 % 64) = .data line p) :
    (serveRead e g r s).out = .memData r.id r.ld (if p then List.replicate 64 0 else line) p
      (if p then 0 else grantFor e.kind (extSt s e.id).st r.want) :: s.out := by
  have hframe := granted_frame e r s
  have hvq : (granted e r s).vq = s.vq := hframe .vq (by decide)
  have hcdc : (granted e r s).cdc = s.cdc := hframe .cdc (by decide)
  have hdrt : (granted e r s).drt = s.drt := hframe .drt (by decide)
  have hout : (granted e r s).out = s.out := hframe .out (by decide)
  rw [serveRead_of_landed hn ha, finishRead_out g _ h ?_ ?_, hout]
  · simpa only [frozenStrips, frozenAt, placeOf, mapImage, me, hvq, hdrt] using hf
  · simpa only [readLine, hcdc, hdrt] using hl

theorem sfFind_sfPut (e : SfEntry) (x : Ext) : sfFind (sfPut e x) e.tenant e.addr = some e := by
  have hnone : (sfDrop e.tenant e.addr x).sf.find? (fun f => f.tenant == e.tenant && f.addr == e.addr) = none := by
    simp only [List.find?_eq_none, sfDrop, List.mem_filter]
    rintro f ⟨-, hf⟩
    simpa [imp_iff_not_or] using hf
  simp [sfFind, sfPut, List.find?_append, hnone]

/-- The first grant of a line makes its entry (R154). -/
theorem sfFind_sfGrant {s : State} {tenant addr : Nat} (hn : sfFind s.ext tenant addr = none) (ext : Nat) (h : Nat × Nat)
    (excl : Bool) : sfFind (sfGrant tenant addr ext h excl s).ext tenant addr = some
      { tenant := tenant, addr := addr, ext := ext, excl := excl, holders := [h], broad := false, created := now s } := by
  simp only [sfGrant, hn]
  exact sfFind_sfPut _ s.ext

/-! ### From the ingress to the serving unit (Table 1.4 steps 1 and 2) -/

/-- A request of a host that is served at once reaches the read path of this unit, with its extent and its landed block. -/
theorem hostRequest_of_takenAt {s : State} {r : MemReq} {dpa a : Nat} {e : ExtRec} (h : HostOwn r) (hw : r.isWrite = false)
    (ht : takenAt s r.ld dpa r.stamp false = some (e, a)) : ∃ g tenant,
      hostRequest r dpa s = serveRead e g { r with tenant := tenant, addr := dpa % 2 ^ 50 } s ∧
      landedAddr s e g (dpa % 2 ^ 50 / 32768) (dpa % 2 ^ 50 / 4096 % 8) = some a := by
  unfold takenAt at ht
  split at ht
  case isFalse => cases ht
  next hgo =>
  obtain ⟨hst, hide⟩ := hgo
  split at ht
  case h_2 => cases ht
  next tenant e₀ g rd htn hacc =>
  simp only [Bool.false_eq_true, if_false] at ht
  split at ht
  case isFalse => cases ht
  next hok =>
  rw [Bool.and_eq_true] at hok
  obtain ⟨hwin, hread⟩ := hok
  split at ht
  case h_2 => cases ht
  next e₁ hserved =>
  obtain ⟨_, ha, ⟨⟩⟩ := Option.map_eq_some_iff.1 ht
  refine ⟨g, tenant, ?_, ha⟩
  have hroute : routeReq e₀ g rd { r with tenant := tenant, addr := dpa % 2 ^ 50 } s =
      serveRead e g { r with tenant := tenant, addr := dpa % 2 ^ 50 } s := by
    simp [routeReq, hwin, hread, hw, h.origin, hserved]
  rw [← hroute]
  rcases hst with hst | hst <;> simp [hostRequest, hst, hide, htn, hacc]

/-! ### Reads that wait or are refused -/

theorem answerRefused_read {r : MemReq} (hw : r.isWrite = false) (s : State) : answerRefused r s = answerPoison r s := by
  rw [answerRefused, hw]; rfl

/-- A read refused with an event of class C, D or K is answered with poison, and the event is noted. -/
theorem answerRefused_raise {r : MemReq} {ev : Ev} (h : HostOwn r) (hw : r.isWrite = false) (hc : (codeRow ev.code ev.cls).1 < 4)
    (s : State) : noted (answerRefused r (raise ev s)) ev.code ev.tenant ev.sk ev.si ∧
      .memData r.id r.ld (List.replicate 64 0) true 0 ∈ (answerRefused r (raise ev s)).out := by
  rw [answerRefused_read hw]
  refine ⟨?_, by rw [answerPoison_out h]; exact .head _⟩
  have hflt : (answerPoison r (raise ev s)).flt = (raise ev s).flt :=
    (answerPoison_kept r _ (.refl [.wrn, .out] _) (covers_refl _)).frame .flt (by decide)
  rw [noted, hflt]
  exact raise_noted ev s hc

/-- In HELD and FAULTED a request waits (R423). -/
theorem hostRequest_of_held {s : State} (r : MemReq) (dpa : Nat) (hs : s.uni.st = .held ∨ s.uni.st = .faulted) :
    hostRequest r dpa s = park { r with addr := dpa } 3 s := by
  rcases hs with hs | hs <;> simp only [hostRequest, hs]

theorem newReq_own (id ld : Nat) (stamp : Ns) (w : Want) : HostOwn (newReq id ld stamp w) := ⟨rfl, rfl⟩

/-! ### The statement -/

/-- Settles O22. `hostRequest_of_takenAt` and `serveRead_of_landed` reduce a read that is served at once to `finishRead` on this
state with its grant recorded; the filter changes neither the tier nor the staging buffer, so the line reads the same. -/
theorem hostReadsServed : Obligations.HostReadsServed := by
  unfold Obligations.HostReadsServed
  intro s id ld dpa w stamp addr i rd
  have hr : HostOwn (newReq id ld stamp w) := newReq_own id ld stamp w
  refine ⟨?taken, fun t b a x hx hp => readLine_of_staged a hx hp, ?held, ?dormouse, ?unbound⟩
  case taken =>
    intro e a ht hf line p hl
    obtain ⟨g, tenant, hreq, ha⟩ := hostRequest_of_takenAt (r := newReq id ld stamp w) hr rfl ht
    let r : MemReq := { newReq id ld stamp w with tenant := tenant, addr := addr }
    have hr' : HostOwn r := ⟨rfl, rfl⟩
    refine ⟨fun hk => ⟨_, congrArg Host.Outcome.next hreq, ?_⟩, fun hk hnone hfull hp => ⟨_, congrArg Host.Outcome.next hreq, ?_⟩⟩
    · have hout := serveRead_out hr' (fun h => absurd h hk) ha hf hl
      rwa [show grantFor e.kind (extSt s e.id).st _ = 0 from if_pos hk, ite_self] at hout
    · subst hp
      have hn : e.kind = 1 → sfFind s.ext e.tenant (addr / 64 * 64) = none ∧ sfFull s = false := fun _ => ⟨hnone, hfull⟩
      have hout := serveRead_out hr' hn ha hf hl
      rw [hk] at hout
      refine ⟨hout, ?_⟩
      rw [serveRead_of_landed (r := r) hn ha, finishRead_ext, granted, hk]
      split
      · next h0 => exact congrArg State.ext (if_pos h0)
      · next h0 =>
        rw [if_neg (show ¬ grantFor 1 (extSt s e.id).st r.want = 0 from h0)]
        exact sfFind_sfGrant hnone ..
  case held =>
    intro hs
    refine ⟨_, (exec_hostMemRead id ld dpa w stamp s).trans (congrArg _ (hostRequest_of_held _ dpa hs)), rfl, ?_⟩
    exact ⟨_, rfl, rfl, rfl, rfl, rfl, rfl⟩
  case dormouse =>
    intro hs
    have hc : (codeRow 0x0010 1).1 < 4 := by decide
    refine ⟨_, exec_hostMemRead id ld dpa w stamp s, ?_⟩
    simp only [hostRequest, hs]
    exact answerRefused_raise hr rfl hc s
  case unbound =>
    intro hs hide hnone
    have hc : (codeRow 0x0509 1).1 < 4 := by decide
    refine ⟨_, exec_hostMemRead id ld dpa w stamp s, ?_⟩
    have hnone' : ldTenant s (newReq id ld stamp w).ld = none := hnone
    have hide' : ideOk s ((newReq id ld stamp w).ld / 16) = true := hide
    simp only [hostRequest, hs, hide', hnone']
    exact answerRefused_raise hr rfl hc s

end Sys2Proof.Proofs
end

section
/-! States in which a statement of this family fails: what a command leaves, and a unit of two in SERVING whose first extent is
pinned in the tier. -/

namespace Sys2Proof.Proofs

open Sys2Proof.Machine Sys2Proof.Safety Sys2Proof.Laws

/-- The state that a command leaves; the state itself where the command has no next one. -/
def after (i : Instr) (s : State) : State :=
  match exec i s with
  | .next t => t
  | _ => s

theorem after_of_next {i : Instr} {s t : State} (h : exec i s = .next t) : after i s = t := by
  rw [after, h]

theorem after_of_answers {i : Instr} {s : State} {P : State → Prop} (h : Answers i s P) : P (after i s) := by
  obtain ⟨t, hnext, ht⟩ := h
  rwa [after_of_next hnext]

/-- A record of version 1 for every unit. -/
def unitRecord (typ inst : Nat) (body : List Byte) : Record :=
  { typ := typ, version := 1, inst := inst, scope := 0xFFFF, body := body }

/-- An EXTENT record (Table 4.20): one GiB at address 0, PRIVATE-HOST, format 0, LEN. -/
def extentRecord (x tenant : Nat) : Record :=
  unitRecord 0x0F x (leBytes 1 tenant ++ leBytes 1 2 ++ zs 6 ++ leBytes 4 0 ++ leBytes 4 1 ++ zs 32)

/-- A TIERING record (Table 4.21): pinned, and served by one unit. -/
def tieringRecord (x unit : Nat) : Record :=
  unitRecord 0x10 x (leBytes 1 1 ++ leBytes 1 1 ++ zs 6 ++ leBytes 2 unit)

/-- Two units; unit 0 reaches unit 1 by port 0 and serves extent 5 of tenant 1, unit 1 serves extent 6 of tenant 2. -/
def twoUnitImage : Image :=
  { raw := [], rollback := 0, slot := 0, fabric := 0, gen := 0, parent := [], digest := []
    records := [unitRecord 0x01 0 (leBytes 2 2), unitRecord 0x13 0 [0xFF, 0xFF, 0, 0xFF], extentRecord 5 1, tieringRecord 5 0,
      extentRecord 6 2, tieringRecord 6 1] }

/-- Unit 0 in SERVING at 1 s of its timebase, with extent 5 in the first slot of the tier, its lease granted for another second,
and its port to unit 1 up. -/
def servingUnit : State :=
  { State.reset with
    uni := { st := .serving }
    mon := { loaded := true, timebase := 1000000000 }
    vq := { active := some twoUnitImage, valid := true }
    ext := { exts := [(5, { st := 1 })], leases := [(1, { granted := true, expiry := 2000000000 })] }
    drt := { logical := 24, pinned := [(0, (5, 0))] }
    wrn := { ports := [(0, { st := 3, peerUnit := 1 })] } }

/-- Extent 5. -/
def pinnedExtent : ExtRec :=
  { id := 5, tenant := 1, kind := 2, fmt := 0, crc := false, code := 0, base := 0, size := 1, readers := 0, serving := [0]
    pinned := true }

/-- Extent 6 is being sealed, and this unit's part of the seal is not done. -/
def sealingUnit : State :=
  { servingUnit with
    ext := { servingUnit.ext with
      exts := [(5, { st := 1 }), (6, { st := 2 })]
      seals := [{ ext := 6, tenant := 2, point := 0, done := false, ringUnit := 0, ring := 0, sqIndex := 0
                  coordinator := false }] } }

/-- A block of extent 5 that lands a second time. -/
def secondLanding : Instr := .fillBlockLanded 1 0 0 0 [] []

theorem secondLanding_finishes_seal : ((after secondLanding sealingUnit).ext.seals.map fun r => r.done) = [true] := by
  decide +kernel

/-- Refutes O24: landing a block wakes what waits for it, and that includes the seals that run (`sealsGo`), of which
`nothingWaits` says nothing. With extent 6 being sealed, a second landing of a block of extent 5 keeps the block but finishes
this unit's part of the seal, so the state does not stay as it was. -/
theorem not_fillsAndWriteBacks : ¬ Obligations.FillsAndWriteBacks := by
  unfold Obligations.FillsAndWriteBacks
  rintro ⟨hland, -⟩
  have hkept : exec secondLanding sealingUnit = .next sealingUnit :=
    (hland sealingUnit 1 0 0 0 [] [] pinnedExtent 0 0 (by decide +kernel) (by decide +kernel) (by decide +kernel) (by decide +kernel)
      (by decide +kernel)).1 (by decide +kernel)
  have hseal := secondLanding_finishes_seal
  rw [after_of_next hkept] at hseal
  cases hseal

/-! ### A write that must read a block whose stored bytes fail their checks (R185, R186) -/

/-- An entry of the staging buffer for a block of zeros of tenant 1, with its first strip present. -/
def stagedBlock (block : Nat) : StgEntry :=
  { tenant := 1, block := block, strips := { present := true } :: List.replicate 7 {}, data := List.replicate 4096 0
    poison := 0, lastUse := 0 }

/-- The first block of each of the first five tiles is staged. In DRAM the first block of tile 1 is of mode LENCRC with a length
code that no check passes; its tile is clean and committed to the Hoard. -/
def faultyUnit : State :=
  { servingUnit with
    cdc := { stg := [stagedBlock 0, stagedBlock 8, stagedBlock 16, stagedBlock 24, stagedBlock 32] }
    drt := { servingUnit.drt with blocks := [(8, { bmw := 17 * 2 ^ 5 + 2 ^ 44, masks := [] })] }
    hrd := { dir := [{ tenant := 1, tile := 1, stripe := 0, offset := 0, len := 4096, zero := false }] } }

/-- A write of unit 1 to the second strip of that block, with no byte enabled. -/
def forwardedWrite : Instr := .write 1 0 0 0 1 33280 0 0 false 0 [] 0

theorem forwardedWrite_sends_nothing :
    (after forwardedWrite faultyUnit).out = [] ∧ (after forwardedWrite faultyUnit).wrn.transit.isEmpty = true := by
  decide +kernel

theorem not_sentTo_of_silent {t : State} (hout : t.out = []) (htransit : t.wrn.transit.isEmpty = true) (dst : Nat) (m : Msg) :
    ¬ sentTo t dst m := by
  rintro ⟨env, -, -, ⟨n, hn⟩ | ⟨w, hw, -⟩⟩
  · rw [hout] at hn; cases hn
  · rw [List.isEmpty_iff.1 htransit] at hw; cases hw

/-- Refutes O32: a write that is served at once still reads the strips it fills from DRAM (R186), under LENCRC all eight. Where
these fail their checks and the tile is clean and in the Hoard, the tile is filled again (R185) and the write waits for it, so no
WRITE_DONE goes out. -/
theorem not_forwardedAccesses : ¬ Obligations.ForwardedAccesses := by
  unfold Obligations.ForwardedAccesses
  rintro ⟨-, hserved, -⟩
  obtain ⟨-, hwrite⟩ := hserved faultyUnit 1 0 0 1 33280 0 0 pinnedExtent 32768 0 (by decide +kernel)
  have hdone : Answers forwardedWrite faultyUnit _ :=
    hwrite 0 [] (by decide +kernel) (by decide +kernel) (by decide +kernel) rfl rfl
  obtain ⟨hsent, -⟩ := after_of_answers hdone
  obtain ⟨hout, htransit⟩ := forwardedWrite_sends_nothing
  exact not_sentTo_of_silent hout htransit _ _ hsent

/-! ### An operator that writes to such a block -/

/-- EXPERT_ROUTE for one token, one expert and k = 1, with its scores in tile 0 and its outputs in tiles 1 to 4. -/
def routeDesc : List Byte :=
  leBytes 1 0x12 ++ zs 15 ++ leBytes 1 1 ++ leBytes 1 1 ++ leBytes 2 1 ++ leBytes 4 1 ++
    leBytes 8 0 ++ leBytes 8 32768 ++ leBytes 8 65536 ++ leBytes 8 98304 ++ leBytes 8 131072 ++ zs 64

/-- That operator of a ring of unit 1, forwarded to this unit, with its checks made. -/
def routeOp : Op :=
  { ringUnit := 1, ring := 0, sqIndex := 0, tenant := 1, desc := routeDesc, execUnit := 0, tag := 0, started := some 0, taken := 0
    gate := 0, cause := 0, progress := 0, dispatched := 0, irq := false, fence := false, checked := true }

/-- The faulty unit with the operator alone in it, and with no reachable copy of tile 1 in the Hoard. -/
def routingUnit : State :=
  { faultyUnit with
    hrd := { faultyUnit.hrd with unreadable := [(1, 1)] }
    opq := { ops := [routeOp] } }

theorem runsAlone_routeOp : runsAlone routingUnit routeOp :=
  ⟨rfl, rfl, rfl, rfl, rfl, rfl, by decide +kernel, by decide +kernel, by decide +kernel, by decide +kernel⟩

theorem routeOp_poisons_assignment :
    lineAt (after (.expertRoute 1 0 0) routingUnit) 1 32768 = some (List.replicate 64 0, true) := by
  decide +kernel

/-- Refutes O52 in the clause of EXPERT_ROUTE. The line of the assignment is staged, but the write fills the whole block under
LENCRC (R186), and the strips in DRAM fail their checks. The tile is clean and in the Hoard, so its copy is dropped and filled
again (R185); no chunk of it is readable, so it lands as poison (R239), and the line of the assignment reads as poison. -/
theorem not_operatorsComputeAndCheck : ¬ Obligations.OperatorsComputeAndCheck := by
  unfold Obligations.OperatorsComputeAndCheck
  rintro ⟨hops, -⟩
  obtain ⟨-, -, -, hroute, -⟩ := hops routingUnit routeOp runsAlone_routeOp
  have hanswer : Answers (.expertRoute 1 0 0) routingUnit _ :=
    hroute (by decide +kernel) rfl rfl (by decide +kernel) (by decide +kernel) (by decide +kernel) (by decide +kernel)
      (by decide +kernel) (by decide +kernel) (by decide +kernel) (by decide +kernel)
  obtain ⟨-, line, b, hline, -⟩ := after_of_answers hanswer
  have hline' : lineAt (after (.expertRoute 1 0 0) routingUnit) 1 32768 = some (line, false) := hline
  rw [routeOp_poisons_assignment] at hline'
  cases hline'

end Sys2Proof.Proofs
end

section
/-! Idling and the state at reset (R27, R33, R37, R97, R381). -/

namespace Sys2Proof.Proofs

open Sys2Proof.Machine Sys2Proof.Safety

theorem step_of_idle {s : State} (h : s.pending = []) : step s = tick s := by rw [step, h]

/-- Settles O2. `tick` writes three fields of MON, UNI and LIF. -/
theorem idleStepIsOneNanosecond : Obligations.IdleStepIsOneNanosecond := by
  unfold Obligations.IdleStepIsOneNanosecond
  intro s hidle
  refine ⟨_, step_of_idle hidle, rfl, ?interval, ?valid, ?invalid, ?frame, hidle⟩
  case interval => simp
  case valid => intro hv; simp [hv]
  case invalid =>
    intro hv
    have hlif : { s.lif with calValid := false } = s.lif := by rw [← hv]
    simp [hv, hlif]
  case frame =>
    intro b hb
    cases b
    case mon | uni | lif => exact absurd hb (by decide)
    all_goals rfl

/-- A word that the table of fuse words does not list is unblown (log entry 7 lists words 0 and 6 at reset). -/
theorem fuseBits_reset {w : Nat} (h0 : w ≠ 0) (h6 : w ≠ 6) : fuseBits State.reset.fus w = 0 := by
  simp [fuseBits, State.reset, tget, tfind, h0.symm, h6.symm]

theorem memoriesOk_reset : memoriesOk State.reset := ⟨rfl, rfl, rfl, fun _ hp => nomatch hp⟩

/-- Settles O8. The fuse words and the memories are the two parts that are not one field each; no monitor is listed, so each
reads as the default one. -/
theorem resetAsSpecified : Obligations.ResetAsSpecified := by
  unfold Obligations.ResetAsSpecified
  have hmons (n : Nat) : (tget {} State.reset.mon.ts n).valid = false ∧ (tget {} State.reset.mon.vm n).valid = false ∧
      (tget {} State.reset.mon.pc n).valid = false := ⟨rfl, rfl, rfl⟩
  exact ⟨rfl, rfl, rfl, rfl, rfl, rfl, rfl, rfl, rfl, rfl, rfl, hmons, rfl, rfl, rfl, rfl, rfl,
    fun _ h0 h6 => fuseBits_reset h0 h6, rfl, memoriesOk_reset⟩

end Sys2Proof.Proofs
end

section
/-! The control of island voltages (R26, R366 to R370): one control period ends in one step of each island, and a step keeps the
voltage between the island's lowest and its effective maximum. -/

namespace Sys2Proof.Proofs

open Sys2Proof.Machine Sys2Proof.Safety

theorem tfind_map_key {α : Type} (f : Nat → α) {l : List Nat} {k : Nat} (h : k ∈ l) :
    tfind (l.map fun i => (i, f i)) k = some (f k) := by
  induction l with
  | nil => cases h
  | cons j l ih =>
    rw [List.map_cons, tfind]
    by_cases hj : j = k
    · rw [if_pos hj, hj]
    · rw [if_neg hj, ih (List.mem_of_ne_of_mem (Ne.symm hj) h)]

/-! ### One island's step (R368, R369) -/

/-- The pace target leaves a voltage or moves it by 5 mV, and not past its bounds (R369). -/
theorem paceStep_cases {s : State} {i : Nat} {x : Isl} (hcap : x.vset ≤ islandCap s i) :
    ∃ v limiter target, paceStep s i x = { x with vset := v, limiter := limiter, target := target } ∧
      (v = x.vset ∨ v = max (islandLow s i) (x.vset - 5) ∨ v = min (islandCap s i) (x.vset + 5)) := by
  unfold paceStep
  extract_lets low cap down
  have hdown : ∃ v limiter, down = { x with vset := v, limiter := limiter } ∧ (v = x.vset ∨ v = max low (x.vset - 5)) := by
    dsimp only [down]
    split
    · exact ⟨_, _, rfl, .inl rfl⟩
    · split
      · exact ⟨_, _, rfl, .inr (by omega)⟩
      · exact ⟨_, _, rfl, .inr (by omega)⟩
  obtain ⟨v, limiter, hdown, hv⟩ := hdown
  have hv : v = x.vset ∨ v = max low (x.vset - 5) ∨ v = min cap (x.vset + 5) := hv.imp_right .inl
  split
  case h_1 => exact ⟨v, limiter, _, by rw [hdown], hv⟩
  case h_2 p _ =>
    dsimp only
    split
    · exact ⟨_, _, _, rfl, .inl rfl⟩
    · split
      · split
        · exact ⟨_, _, _, rfl, .inl rfl⟩
        · split
          · exact ⟨_, _, _, rfl, .inr (.inr (by omega))⟩
          · exact ⟨_, _, _, rfl, .inr (.inr (by omega))⟩
      · split
        · exact ⟨v, limiter, _, by rw [hdown], hv⟩
        · exact ⟨_, _, _, rfl, .inl rfl⟩

theorem islandLow_le_islandCap (s : State) (i : Nat) : islandLow s i ≤ islandCap s i := Nat.min_le_right ..

theorem islandStep_of_off {s : State} {i : Nat} (cut : List Nat) (h : (islOf s i).on = false) :
    islandStep s cut i = { islOf s i with limiter := 5 } := by simp [islandStep, h]

/-- One step of an island that is on leaves it on, with its voltage within its bounds (R26, R368). -/
theorem islandStep_of_on {s : State} {i : Nat} (cut : List Nat) (h : (islOf s i).on = true) :
    (islandStep s cut i).on = true ∧ islandLow s i ≤ (islandStep s cut i).vset ∧ (islandStep s cut i).vset ≤ islandCap s i := by
  have hle := islandLow_le_islandCap s i
  unfold islandStep
  extract_lets x low
  rw [if_neg (by simp [x, h])]
  split
  case isTrue => exact ⟨h, Nat.le_refl _, hle⟩
  case isFalse hlow =>
    split
    case isTrue => exact ⟨h, hle, Nat.le_refl _⟩
    case isFalse hcap =>
      have hlow : low ≤ x.vset := Nat.le_of_not_lt hlow
      have hcap : x.vset ≤ islandCap s i := Nat.le_of_not_lt hcap
      split
      · split
        · exact ⟨h, Nat.le_refl _, hle⟩
        · exact ⟨h, hlow, hcap⟩
      · split
        · exact ⟨h, Nat.le_max_left .., by dsimp only; omega⟩
        · split
          · exact ⟨h, Nat.le_max_left .., by dsimp only; omega⟩
          · obtain ⟨v, _, _, hpace, hv⟩ := paceStep_cases hcap
            rw [hpace]
            exact ⟨h, by dsimp only; omega, by dsimp only; omega⟩

/-! ### The control period (R367) -/

/-- Where the control runs, a period ends in one step of every island from the state that its readings, the thermal level and
the power limit left. -/
theorem exec_powerControlTick {s : State} (regs : List RegReading) (hs : s.uni.st = .serving) (hr : s.uni.restarting = false) :
    ∃ (u : State) (cut : List Nat), exec (.powerControlTick regs) s =
      .next { u with pwr := { u.pwr with isl := (List.range 8).map fun i => (i, islandStep u cut i) } } := by
  refine ⟨_, _, if_neg ?_⟩
  simp [unitServesOrHeld, unitServes, hs, hr]

theorem islOf_map_range (f : Nat → Isl) (u : State) {i : Nat} (hi : i < 8) :
    islOf { u with pwr := { u.pwr with isl := (List.range 8).map fun i => (i, f i) } } i = f i := by
  simp [islOf, tget, tfind_map_key f (List.mem_range.2 hi)]

/-- The bounds of an island do not depend on the power block. -/
theorem islandLow_set_pwr (u : State) (p : Pwr) (i : Nat) : islandLow { u with pwr := p } i = islandLow u i := rfl
theorem islandCap_set_pwr (u : State) (p : Pwr) (i : Nat) : islandCap { u with pwr := p } i = islandCap u i := rfl

/-- Settles O13. The period ends in one step of each island, and the bounds it keeps are those of the state it leaves, which
differs in the power block alone. -/
theorem voltagesWithinBounds : Obligations.VoltagesWithinBounds := by
  unfold Obligations.VoltagesWithinBounds
  intro s regs hs hr
  obtain ⟨u, cut, hexec⟩ := exec_powerControlTick regs hs hr
  refine ⟨_, hexec, fun i hi => ?_⟩
  rw [islOf_map_range (islandStep u cut) u hi, islandLow_set_pwr, islandCap_set_pwr]
  cases hon : (islOf u i).on with
  | false =>
    rw [islandStep_of_off cut hon]
    exact ⟨fun h => absurd (hon.symm.trans h) (by decide), fun _ => rfl⟩
  | true =>
    obtain ⟨hstays, hbounds⟩ := islandStep_of_on cut hon
    exact ⟨fun _ => hbounds, fun h => absurd (hstays.symm.trans h) (by decide)⟩

end Sys2Proof.Proofs
end

section
/-! Monitors (R29 to R33): a conversion that reads, a monitor that fails, the latched read of the timebase, and the restart of
the extremes. -/

namespace Sys2Proof.Proofs

open Sys2Proof.Machine Sys2Proof.Safety Sys2Proof.Laws

theorem exec_tempSensorConversion (n : Nat) (r : BitVec 16) (b : Bool) (s : State) :
    exec (.tempSensorConversion n r b) s = .next (conversion 0 n r b s) := rfl

theorem exec_voltageMonitorConversion (n : Nat) (r : BitVec 16) (b : Bool) (s : State) :
    exec (.voltageMonitorConversion n r b) s = .next (conversion 1 n r b s) := rfl

theorem exec_pacerWindow (n : Nat) (r : BitVec 16) (b : Bool) (s : State) :
    exec (.pacerWindow n r b) s = .next (conversion 2 n r b s) := rfl

theorem exec_monTimebaseReadLow (rq : Requester) (s : State) :
    exec (.monTimebaseReadLow rq) s = execMonTimebaseReadLow rq s := rfl

theorem exec_monCtlWrite (v : Word) (s : State) : exec (.monCtlWrite v) s = .next (monCtl v s) := rfl

/-! ### One monitor of a kind -/

/-- The monitors that a conversion of monitor `n` of a kind must leave: the others of the kind, and those of the other kinds. -/
structure OthersKept (kind n : Nat) (a b : Mon) : Prop where
  ofKind : ∀ m, m ≠ n → tget {} (monTbl b kind) m = tget {} (monTbl a kind) m
  ts : kind ≠ 0 → b.ts = a.ts
  vm : kind ≠ 1 → b.vm = a.vm
  pc : kind < 2 → b.pc = a.pc

theorem OthersKept.refl (kind n : Nat) (a : Mon) : OthersKept kind n a a :=
  ⟨fun _ _ => rfl, fun _ => rfl, fun _ => rfl, fun _ => rfl⟩

theorem OthersKept.trans {kind n : Nat} {a b c : Mon} (h : OthersKept kind n a b) (g : OthersKept kind n b c) :
    OthersKept kind n a c where
  ofKind m hm := (g.ofKind m hm).trans (h.ofKind m hm)
  ts hk := (g.ts hk).trans (h.ts hk)
  vm hk := (g.vm hk).trans (h.vm hk)
  pc hk := (g.pc hk).trans (h.pc hk)

theorem monSet_others (kind n : Nat) (f : Monitor → Monitor) (a : Mon) : OthersKept kind n a (monSet kind n f a) := by
  match kind with
  | 0 => exact ⟨fun m hm => tget_tmod_other {} {} hm f a.ts, fun h => absurd rfl h, fun _ => rfl, fun _ => rfl⟩
  | 1 => exact ⟨fun m hm => tget_tmod_other {} {} hm f a.vm, fun _ => rfl, fun h => absurd rfl h, fun _ => rfl⟩
  | k + 2 => exact ⟨fun m hm => tget_tmod_other {} {} hm f a.pc, fun _ => rfl, fun _ => rfl, fun h => absurd h (by omega)⟩

@[simp] theorem monTbl_monSet (kind n : Nat) (f : Monitor → Monitor) (a : Mon) :
    tget {} (monTbl (monSet kind n f a) kind) n = f (tget {} (monTbl a kind) n) := by
  match kind with
  | 0 => exact tget_tmod_same {} n f a.ts
  | 1 => exact tget_tmod_same {} n f a.vm
  | _ + 2 => exact tget_tmod_same {} n f a.pc

/-- `MON_ALERT` is no part of a monitor. -/
@[simp] theorem monTbl_set_alert (a : Mon) (v : BitVec 32) (kind : Nat) : monTbl { a with alert := v } kind = monTbl a kind := by
  match kind with
  | 0 => rfl
  | 1 => rfl
  | _ + 2 => rfl

theorem set_alert_others (kind n : Nat) (a : Mon) (v : BitVec 32) : OthersKept kind n a { a with alert := v } :=
  ⟨fun _ _ => by rw [monTbl_set_alert], fun _ => rfl, fun _ => rfl, fun _ => rfl⟩

/-! ### A monitor marked FAILED (R31) -/

theorem raise_mon (e : Ev) (s : State) : (raise e s).mon = s.mon :=
  (raise_kept e s (.refl _ s) (covers_refl _)).frame .mon (by decide)

theorem takeOut_mon (e : RepairEntry) (cause : Nat) (s : State) : (takeOut e cause s).mon = s.mon :=
  (takeOut_kept e cause s (.refl _ s) (covers_refl _)).frame .mon (by decide)

/-- A change of level is a report of its own: a window open for an event stays open (R418). -/
theorem checkLevels_noted {s : State} {c t k i : Nat} (cs : List Nat) (h : noted s c t k i) : noted (checkLevels cs s) c t k i := by
  unfold checkLevels
  induction cs generalizing s with
  | nil => exact h
  | cons x cs ih =>
    rw [List.foldl_cons]
    refine ih ?_
    dsimp only
    split
    · exact h
    · split
      · exact raise_keeps _ h
      · split
        · exact raise_keeps _ h
        · exact h

theorem takeOut_noted {s : State} {c t k i : Nat} (e : RepairEntry) (cause : Nat) (h : noted s c t k i) :
    noted (takeOut e cause s) c t k i := by
  unfold takeOut
  split
  · exact h
  · refine checkLevels_noted _ ?_
    unfold fieldEntry
    dsimp only
    split
    · exact raise_keeps _ (raise_keeps _ h)
    · exact raise_keeps _ h

theorem markFailed_of_failed {kind n : Nat} {s : State} (h : (tget {} (monTbl s.mon kind) n).failed = true) :
    markFailed kind n s = s := if_pos h

/-- A monitor that is marked: its flag, its island's bit of `MON_ALERT`, and event 0x0301 for the island. -/
theorem markFailed_of_working {kind n : Nat} {s : State} (h : (tget {} (monTbl s.mon kind) n).failed = false) :
    (markFailed kind n s).mon = { monSet kind n (fun x => { x with failed := true }) s.mon with
      alert := (monSet kind n (fun x => { x with failed := true }) s.mon).alert ||| (1 <<< (8 * kind + n / monPer kind)) } ∧
    noted (markFailed kind n s) 0x0301 0 6 (n / monPer kind) := by
  have hclass : (codeRow 0x0301 1).1 < 4 := by decide
  unfold markFailed
  extract_lets i before m u v
  rw [if_neg (Bool.eq_false_iff.1 h)]
  have hu : u.mon = { m with alert := m.alert ||| (1 <<< (8 * kind + i)) } := raise_mon _ _
  have hnoted : noted u 0x0301 0 6 i := raise_noted _ _ hclass
  have hv : v.mon = u.mon ∧ noted v 0x0301 0 6 i := by
    dsimp only [v]
    split
    · exact ⟨takeOut_mon _ _ _, takeOut_noted _ _ hnoted⟩
    · exact ⟨rfl, hnoted⟩
  split
  · exact ⟨(raise_mon _ _).trans (hv.1.trans hu), raise_keeps _ hv.2⟩
  · exact ⟨hv.1.trans hu, hv.2⟩

theorem getLsbD_or_bit (v : BitVec 32) {k : Nat} (h : k < 32) : (v ||| (1 <<< k : BitVec 32)).getLsbD k = true := by
  have hbit : (1 <<< k).testBit k = true := by rw [Nat.one_shiftLeft, Nat.testBit_two_pow_self]
  rw [BitVec.getLsbD_or, BitVec.natCast_eq_ofNat, BitVec.getLsbD_ofNat, decide_eq_true h, hbit, Bool.and_self, Bool.or_true]

/-- Marking a monitor leaves it as it was but for the flag, and leaves the others. -/
theorem markFailed_monitor (kind n : Nat) (s : State) :
    tget {} (monTbl (markFailed kind n s).mon kind) n = { tget {} (monTbl s.mon kind) n with failed := true } ∧
    OthersKept kind n s.mon (markFailed kind n s).mon := by
  cases h : (tget {} (monTbl s.mon kind) n).failed with
  | true =>
    have hflag (x : Monitor) (hx : x.failed = true) : x = { x with failed := true } := by rw [← hx]
    rw [markFailed_of_failed h]
    exact ⟨hflag _ h, .refl kind n _⟩
  | false =>
    rw [(markFailed_of_working h).1]
    exact ⟨by rw [monTbl_set_alert, monTbl_monSet], (monSet_others kind n _ _).trans (set_alert_others kind n _ _)⟩

/-! ### A conversion that reads (R30, R33) -/

theorem paceBand_mon (i : Nat) (s : State) : ∃ v, (paceBand i s).mon = { s.mon with alert := v } := by
  unfold paceBand
  dsimp only
  split
  · exact ⟨_, raise_mon _ _⟩
  · exact ⟨s.mon.alert, rfl⟩

/-- What a monitor holds after a reading (Tables 2.8 to 2.10): the value, and the extremes with it taken in. -/
structure TookReading (kind : Nat) (r : BitVec 16) (a b : Monitor) : Prop where
  val : b.val = r
  valid : b.valid = true
  restart : b.restart = false
  restarted : a.restart = true ∨ a.valid = false → b.hi = r ∧ b.lo = r
  extremes : a.restart = false → a.valid = true → monVal kind r ≤ monVal kind b.hi ∧ monVal kind a.hi ≤ monVal kind b.hi ∧
    monVal kind b.lo ≤ monVal kind r ∧ monVal kind b.lo ≤ monVal kind a.lo

theorem takeReading_took (kind : Nat) (r : BitVec 16) (a : Monitor) : TookReading kind r a (takeReading kind r a) := by
  unfold takeReading
  split
  case isTrue h =>
    have h : a.restart = true ∨ a.valid = false := by simpa using h
    refine ⟨rfl, rfl, rfl, fun _ => ⟨rfl, rfl⟩, fun hr hv => ?_⟩
    simp [hr, hv] at h
  case isFalse h =>
    obtain ⟨hr, hv⟩ : a.restart = false ∧ a.valid = true := by simpa using h
    refine ⟨rfl, hv, hr, fun h => by simp [hr, hv] at h, fun _ _ => ?_⟩
    dsimp only
    constructor
    · split <;> omega
    · refine ⟨?_, ?_, ?_⟩ <;> split <;> omega

/-- A conversion with a reading: the monitor takes it in, and the others stay. -/
theorem conversion_took {s : State} (kind n : Nat) (r : BitVec 16) (hs : s.uni.st = .serving) :
    TookReading kind r (tget {} (monTbl s.mon kind) n) (tget {} (monTbl (conversion kind n r true s).mon kind) n) ∧
    OthersKept kind n s.mon (conversion kind n r true s).mon := by
  unfold conversion
  rw [if_neg (by simp [hs]), if_neg (by decide)]
  extract_lets u v
  have hu : TookReading kind r (tget {} (monTbl s.mon kind) n) (tget {} (monTbl u.mon kind) n) ∧ OthersKept kind n s.mon u.mon := by
    refine ⟨?_, monSet_others kind n _ _⟩
    rw [monTbl_monSet]
    exact takeReading_took kind r _
  have hv : TookReading kind r (tget {} (monTbl s.mon kind) n) (tget {} (monTbl v.mon kind) n) ∧ OthersKept kind n s.mon v.mon := by
    dsimp only [v]
    split
    · obtain ⟨hmon, hothers⟩ := markFailed_monitor kind n u
      obtain ⟨hval, hvalid, hrestart, hrestarted, hextremes⟩ := hu.1
      rw [hmon]
      exact ⟨⟨hval, hvalid, hrestart, hrestarted, hextremes⟩, hu.2.trans hothers⟩
    · exact hu
  obtain ⟨alert, hband⟩ := paceBand_mon (n / monPer kind) v
  rw [hband, monTbl_set_alert]
  exact ⟨hv.1, hv.2.trans (set_alert_others kind n _ _)⟩

theorem conversion_unpowered {s : State} (kind n : Nat) (r : BitVec 16) (b : Bool) (h : s.uni.st = .off ∨ s.uni.st = .standby) :
    conversion kind n r b s = s := if_pos h

theorem conversion_failed {s : State} (kind n : Nat) (r : BitVec 16) (hs : s.uni.st = .serving) :
    conversion kind n r false s = markFailed kind n s := by
  rw [conversion, if_neg (by simp [hs]), if_pos (by decide)]

/-- A working monitor that fails to convert, with `i` the number of its island. -/
theorem conversion_fails {s : State} {kind n i : Nat} (r : BitVec 16) (hs : s.uni.st = .serving)
    (h : (tget {} (monTbl s.mon kind) n).failed = false) (hi : n / monPer kind = i) (hbit : 8 * kind + i < 32) :
    (tget {} (monTbl (conversion kind n r false s).mon kind) n).failed = true ∧
    (conversion kind n r false s).mon.alert.getLsbD (8 * kind + i) = true ∧ noted (conversion kind n r false s) 0x0301 0 6 i := by
  subst hi
  obtain ⟨hmon, hnoted⟩ := markFailed_of_working h
  rw [conversion_failed kind n r hs]
  refine ⟨by rw [(markFailed_monitor kind n s).1], ?_, hnoted⟩
  rw [hmon]
  exact getLsbD_or_bit _ hbit

/-! ### The latched upper half of a requester (R29) -/

theorem latchGet_latchSet_same (rq : Requester) (v : BitVec 32) (l : List (Requester × BitVec 32)) :
    latchGet rq (latchSet rq v l) = some v := by simp [latchGet, latchSet]

theorem latchGet_latchSet_other {rq q : Requester} (h : q ≠ rq) (v : BitVec 32) (l : List (Requester × BitVec 32)) :
    latchGet q (latchSet rq v l) = latchGet q l := by
  have hne : ¬ rq = q := fun e => h e.symm
  have hfind : (l.filter fun e => e.1 != rq).find? (fun e => e.1 == q) = l.find? fun e => e.1 == q := by
    rw [List.find?_filter]
    congr 1
    funext e
    by_cases he : e.1 = q <;> simp [he, h]
  simp [latchGet, latchSet, hne, hfind]

theorem lowHalf_ofNat (t : Nat) : (BitVec.ofNat 64 t &&& 0xFFFFFFFF : Word) = BitVec.ofNat 64 (t % 2 ^ 32) := by
  apply BitVec.eq_of_toNat_eq
  have hmask : (0xFFFFFFFF : Word).toNat = 2 ^ 32 - 1 := by decide
  rw [BitVec.toNat_and, hmask, Nat.and_two_pow_sub_one_eq_mod, BitVec.toNat_ofNat, BitVec.toNat_ofNat]
  omega

theorem highHalf_ofNat (t : Nat) : (BitVec.ofNat 64 t >>> 32).setWidth 32 = BitVec.ofNat 32 (t / 2 ^ 32) := by
  apply BitVec.eq_of_toNat_eq
  simp only [BitVec.toNat_setWidth, BitVec.toNat_ushiftRight, BitVec.toNat_ofNat, Nat.shiftRight_eq_div_pow]
  omega

/-! ### The restart of the extremes (R33) -/

/-- Every monitor of a table restarts, those the table does not list among them: a monitor that has read nothing is set to. -/
theorem tget_restarted (t : Tbl Monitor) (n : Nat) :
    (tget ({} : Monitor) (t.map fun p : Nat × Monitor => (p.1, { p.2 with restart := true })) n).restart = true := by
  induction t with
  | nil => rfl
  | cons p t ih =>
    simp only [List.map_cons, tget, tfind]
    split
    · rfl
    · exact ih

theorem monCtl_of_same {v : Word} {s : State} (h : v.setWidth 8 = s.mon.peakEpoch) : monCtl v s = s := if_pos h

theorem monCtl_of_other {v : Word} {s : State} (h : v.setWidth 8 ≠ s.mon.peakEpoch) : monCtl v s =
    { s with mon := { restartPeaks s.mon with peakEpoch := v.setWidth 8 }, pwr := { s.pwr with peak := 0 } } := if_neg h

/-- Settles O16. The three kinds of monitor convert by one function of the kind, so each part about conversions is a lemma for
any kind. -/
theorem monitorsConvertAndFail : Obligations.MonitorsConvertAndFail := by
  unfold Obligations.MonitorsConvertAndFail
  refine ⟨?takes, ?fails, ?unpowered, ?latched, ?restarts⟩
  case takes =>
    intro s n r hs took
    have htook {k : Nat} {a b : Monitor} (h : TookReading k r a b) : took a b k :=
      ⟨h.val, h.valid, h.restart, h.restarted, h.extremes⟩
    refine ⟨⟨_, exec_tempSensorConversion n r true s, ?_⟩, ⟨_, exec_voltageMonitorConversion n r true s, ?_⟩,
      ⟨_, exec_pacerWindow n r true s, ?_⟩⟩
    · obtain ⟨hmon, hothers⟩ := conversion_took 0 n r hs
      exact ⟨htook hmon, hothers.ofKind, hothers.vm (by decide), hothers.pc (by decide)⟩
    · obtain ⟨hmon, hothers⟩ := conversion_took 1 n r hs
      exact ⟨htook hmon, hothers.ofKind, hothers.ts (by decide), hothers.pc (by decide)⟩
    · obtain ⟨hmon, hothers⟩ := conversion_took 2 n r hs
      exact ⟨htook hmon, hothers.ofKind, hothers.ts (by decide), hothers.vm (by decide)⟩
  case fails =>
    intro s n r hs
    refine ⟨fun hn h => ⟨_, exec_tempSensorConversion n r false s, ?_⟩,
      fun hn h => ⟨_, exec_voltageMonitorConversion n r false s, ?_⟩,
      fun hn h => ⟨_, exec_pacerWindow n r false s, ?_⟩, fun h => ?_⟩
    · obtain ⟨hfailed, halert, hnoted⟩ := conversion_fails (kind := 0) (i := n / 8) r hs h rfl (by omega)
      rw [Nat.mul_zero, Nat.zero_add] at halert
      exact ⟨hfailed, halert, hnoted⟩
    · exact conversion_fails (kind := 1) r hs h rfl (by omega)
    · exact conversion_fails (kind := 2) r hs h rfl (by omega)
    · rw [exec_tempSensorConversion, conversion_failed 0 n r hs, markFailed_of_failed (kind := 0) h]
  case unpowered =>
    intro s n r b h
    simp only [exec_tempSensorConversion, exec_voltageMonitorConversion, exec_pacerWindow, conversion_unpowered _ n r b h, and_self]
  case latched =>
    intro s rq
    refine ⟨_, exec_monTimebaseReadLow rq s, ?_, ?_, fun q hq => ?_⟩
    · rw [emit_out, lowHalf_ofNat]
    · rw [emit_mon, latchGet_latchSet_same, highHalf_ofNat]
    · rw [emit_mon, latchGet_latchSet_other hq]
  case restarts =>
    intro s v
    refine ⟨fun h => by rw [exec_monCtlWrite, monCtl_of_same h], fun h => ⟨_, exec_monCtlWrite v s, ?_⟩⟩
    rw [monCtl_of_other h]
    exact ⟨rfl, rfl, fun n => ⟨tget_restarted s.mon.ts n, tget_restarted s.mon.vm n, tget_restarted s.mon.pc n⟩⟩

end Sys2Proof.Proofs
end

section
/-! Time on the Warren (R275 to R277): `SYNC` and `DELAY_REQ` on their timers, the answer to `DELAY_REQ`, and what a child
takes from its parent's messages. -/

namespace Sys2Proof.Proofs

open Sys2Proof.Machine Sys2Proof.Safety Sys2Proof.Laws

theorem exec_timeSyncTimer (s : State) : exec .timeSyncTimer s = execTimeSyncTimer s := rfl

theorem exec_delayReqTimer (s : State) : exec .delayReqTimer s = execDelayReqTimer s := rfl

theorem exec_delayReq (port src : Nat) (t arrival : Ns) (s : State) :
    exec (.delayReq port src t arrival) s = execDelayReq port src t arrival s := rfl

theorem exec_delayResp (port src : Nat) (t1 t4 : Ns) (s : State) :
    exec (.delayResp port src t1 t4) s = execDelayResp port src t1 t4 s := rfl

theorem exec_timeSync (port src depth : Nat) (aligned : Bool) (t arrival : Ns) (s : State) :
    exec (.timeSync port src depth aligned t arrival) s = execTimeSync port src depth aligned t arrival s := rfl

/-! ### Sending by a port -/

/-- From `s` to `t` more was sent or made to wait, and nothing else changed but the state of ports that keep their peers. -/
structure SentOn (s t : State) : Prop where
  out : ∀ o ∈ s.out, o ∈ t.out
  transit : ∀ w ∈ s.wrn.transit, w ∈ t.wrn.transit
  peer : ∀ n, (portOf t.wrn n).peerUnit = (portOf s.wrn n).peerUnit
  mon : t.mon = s.mon
  uni : t.uni = s.uni
  aligned : t.wrn.aligned = s.wrn.aligned
  depth : t.wrn.depth = s.wrn.depth
  syncTx : t.wrn.syncTx = s.wrn.syncTx
  reqTx : t.wrn.reqTx = s.wrn.reqTx

theorem SentOn.refl (s : State) : SentOn s s := ⟨fun _ h => h, fun _ h => h, fun _ => rfl, rfl, rfl, rfl, rfl, rfl, rfl⟩

theorem SentOn.trans {s t u : State} (h : SentOn s t) (g : SentOn t u) : SentOn s u where
  out o ho := g.out o (h.out o ho)
  transit w hw := g.transit w (h.transit w hw)
  peer n := (g.peer n).trans (h.peer n)
  mon := g.mon.trans h.mon
  uni := g.uni.trans h.uni
  aligned := g.aligned.trans h.aligned
  depth := g.depth.trans h.depth
  syncTx := g.syncTx.trans h.syncTx
  reqTx := g.reqTx.trans h.reqTx

theorem SentOn.now {s t : State} (h : SentOn s t) : now t = now s := by rw [Machine.now, Machine.now, h.mon, h.uni]

/-- What is on its way stays on its way. -/
theorem SentOn.sent {s t : State} (h : SentOn s t) {dst : Nat} {m : Msg} (hs : sentTo s dst m) : sentTo t dst m := by
  obtain ⟨e, hdst, hmsg, ⟨n, hn⟩ | ⟨w, hw, he⟩⟩ := hs
  · exact ⟨e, hdst, hmsg, .inl ⟨n, h.out _ hn⟩⟩
  · exact ⟨e, hdst, hmsg, .inr ⟨w, h.transit w hw, he⟩⟩

/-- A change of a port that keeps its peer. -/
theorem onPort_sentOn (n : Nat) {f : Port → Port} (hf : ∀ p, (f p).peerUnit = p.peerUnit) (s : State) : SentOn s (onPort n f s) where
  out _ h := h
  transit _ h := h
  peer k := by
    by_cases hk : k = n
    · rw [hk]; exact (congrArg Port.peerUnit (tget_tmod_same ({} : Port) n f s.wrn.ports)).trans (hf _)
    · exact congrArg Port.peerUnit (tget_tmod_other ({} : Port) {} hk f s.wrn.ports)
  mon := rfl
  uni := rfl
  aligned := rfl
  depth := rfl
  syncTx := rfl
  reqTx := rfl

theorem set_out_sentOn (s : State) {o : List Out} (h : ∀ x ∈ s.out, x ∈ o) : SentOn s { s with out := o } :=
  ⟨h, fun _ h => h, fun _ => rfl, rfl, rfl, rfl, rfl, rfl, rfl⟩

theorem set_nextTag_sentOn (s : State) (tag : Nat) : SentOn s { s with wrn := { s.wrn with nextTag := tag } } :=
  ⟨fun _ h => h, fun _ h => h, fun _ => rfl, rfl, rfl, rfl, rfl, rfl, rfl⟩

theorem waitPort_sentOn (x : Waiting) (s : State) : SentOn s (waitPort x s) :=
  ⟨fun _ h => h, fun _ h => List.mem_append_left _ h, fun _ => rfl, rfl, rfl, rfl, rfl, rfl, rfl⟩

theorem putFlits_sentOn (n : Nat) (fs : List TxFlit) (s : State) : SentOn s (putFlits n fs s) := by
  unfold putFlits
  refine (onPort_sentOn n ?_ s).trans (set_out_sentOn _ fun _ h => List.mem_append_right _ h)
  exact fun _ => rfl

theorem launch_sentOn (n : Nat) (e : Envelope) (s : State) : SentOn s (launch n e s) := by
  unfold launch
  extract_lets b v u
  have hu : SentOn s u := (putFlits_sentOn n _ s).trans (set_out_sentOn _ fun _ h => List.mem_cons_of_mem _ h)
  split
  · exact hu
  · refine hu.trans (onPort_sentOn n ?_ u)
    exact fun _ => rfl

theorem launch_out (n : Nat) (e : Envelope) (s : State) : .warren n e ∈ (launch n e s).out := by
  unfold launch
  dsimp only
  split <;> exact .head _

theorem post_sentOn (n : Nat) (arrived : Ns) (e : Envelope) (s : State) : SentOn s (post n arrived e s) := by
  unfold post
  split
  · exact launch_sentOn n e s
  · exact waitPort_sentOn _ s

/-- A message that is posted is on a link, or waits for its port. -/
theorem post_sent (n : Nat) (arrived : Ns) (e : Envelope) (s : State) : sentTo (post n arrived e s) e.dst e.msg := by
  unfold post
  split
  · exact ⟨e, rfl, rfl, .inl ⟨n, launch_out n e s⟩⟩
  · exact ⟨e, rfl, rfl, .inr ⟨_, List.mem_append_right _ (.head _), rfl⟩⟩

theorem sendTime_sentOn (n : Nat) (m : Msg) (s : State) : SentOn s (sendTime n m s) :=
  (set_nextTag_sentOn s _).trans (post_sentOn n _ _ _)

theorem sendTime_sent (n : Nat) (m : Msg) (s : State) : sentTo (sendTime n m s) (portOf s.wrn n).peerUnit m := post_sent n _ _ _

/-! ### The timers (R276) -/

/-- `SYNC` sent by the ports of a list, each with the time. -/
theorem syncAll_sent (l : List Nat) (s : State) :
    let t := l.foldl (fun s n => sendTime n (.time 0 s.wrn.aligned s.wrn.depth (now s) 0) s) s
    SentOn s t ∧ ∀ n ∈ l, sentTo t (portOf s.wrn n).peerUnit (.time 0 s.wrn.aligned s.wrn.depth (now s) 0) := by
  induction l generalizing s with
  | nil => exact ⟨.refl s, fun _ h => nomatch h⟩
  | cons n l ih =>
    have hfirst := sendTime_sentOn n (.time 0 s.wrn.aligned s.wrn.depth (now s) 0) s
    obtain ⟨hrest, hsent⟩ := ih (sendTime n (.time 0 s.wrn.aligned s.wrn.depth (now s) 0) s)
    rw [hfirst.aligned, hfirst.depth, hfirst.now] at hsent
    refine ⟨hfirst.trans hrest, fun k hk => ?_⟩
    rcases List.mem_cons.1 hk with rfl | hk
    · exact hrest.sent (sendTime_sent k _ s)
    · rw [← hfirst.peer k]; exact hsent k hk

theorem exec_timeSyncTimer_of_early {s : State} (h : now s < s.wrn.syncTx + 1000000) : exec .timeSyncTimer s = .next s :=
  if_pos (by rw [show msNs = 1000000 from rfl, decide_eq_true h, Bool.or_true])

theorem exec_timeSyncTimer_of_due {s : State} (hp : powered s = true) (hl : s.mon.loaded = true)
    (h : s.wrn.syncTx + 1000000 ≤ now s) : exec .timeSyncTimer s =
      .next ((timePorts s).foldl (fun s n => sendTime n (.time 0 s.wrn.aligned s.wrn.depth (now s) 0) s)
        { s with wrn := { s.wrn with syncTx := now s } }) :=
  if_neg (by rw [show msNs = 1000000 from rfl, hp, hl, decide_eq_false (Nat.not_lt.2 h)]; decide)

theorem exec_delayReqTimer_of_early {s : State} (h : now s < s.wrn.reqTx + 16000000) : exec .delayReqTimer s = .next s :=
  if_pos (by rw [show 16 * msNs = 16000000 from rfl, decide_eq_true h, Bool.or_true])

theorem exec_delayReqTimer_of_due {s : State} (hp : powered s = true) (hl : s.mon.loaded = true) (hpar : s.wrn.hasParent = true)
    (h : s.wrn.reqTx + 16000000 ≤ now s) : exec .delayReqTimer s =
      .next (sendTime s.wrn.parentPort (.time 1 s.wrn.aligned s.wrn.depth (now s) 0) { s with wrn := { s.wrn with reqTx := now s } }) :=
  if_neg (by rw [show 16 * msNs = 16000000 from rfl, hp, hl, hpar, decide_eq_false (Nat.not_lt.2 h)]; decide)

theorem mem_timePorts {s : State} {n : Nat} (hn : n < 48) (h : portUsable (portOf s.wrn n) = true) : n ∈ timePorts s :=
  List.mem_filter.2 ⟨List.mem_range.2 hn, h⟩

/-! ### A message of a peer that was reachable and is owed no reclaim -/

/-- Such a message is noted as heard, and no more (R272). -/
theorem heardFrom_of_reachable {s : State} {u : Nat} (hr : u ∉ s.wrn.unreachable) (ho : nothingOwedTo s u = true) :
    heardFrom u s = hear u s := by
  have hnone : (s.ext.leases.filter fun p => p.2.undelivered.contains u) = [] := by
    simpa [nothingOwedTo, List.filter_eq_nil_iff] using ho
  have hdeliver : deliverReclaims u (hear u s) = hear u s := by
    unfold deliverReclaims
    rw [show (hear u s).ext = s.ext from rfl, hnone]
    rfl
  have hfar : s.wrn.unreachable.contains u = false := by simpa using hr
  simp only [heardFrom, hfar, hdeliver, Bool.false_eq_true, if_false]

section
variable {s : State} {src : Nat} (hp : powered s = true) (hsrc : src < fabN s.vq.active) (ho : nothingOwedTo s src = true)
  (hr : src ∉ s.wrn.unreachable)
include hp hsrc ho hr

/-- A `DELAY_REQ` on a usable port is answered with the time of its arrival. -/
theorem exec_delayReq_answered {port : Nat} (t arrival : Ns) (hl : s.mon.loaded = true)
    (hu : portUsable (portOf s.wrn port) = true) : exec (.delayReq port src t arrival) s =
      .next (sendTime port (.time 2 s.wrn.aligned s.wrn.depth t arrival) (hear src s)) := by
  have hok : srcOk s src = true := decide_eq_true hsrc
  have hu' : portUsable (portOf (hear src s).wrn port) = true := hu
  have hl' : (hear src s).mon.loaded = true := hl
  simp only [exec_delayReq, execDelayReq, hp, hok, heardFrom_of_reachable hr ho, hu', hl', Bool.not_true, Bool.and_self,
    Bool.false_eq_true, if_false, if_true]
  rfl

theorem exec_timeSync_of_heard (port depth : Nat) (al : Bool) (t arrival : Ns) (hn : s.lif.noTime = false) :
    exec (.timeSync port src depth al t arrival) s =
      .next (if fromParent s port src then takeOffset (256 * ((arrival : Int) - t) - s.wrn.delay)
          { hear src s with wrn := { (hear src s).wrn with syncT := t, syncRx := arrival, depth := sat 6 (depth + 1) } }
        else hear src s) := by
  have hok : srcOk s src = true := decide_eq_true hsrc
  have hn' : (hear src s).lif.noTime = false := hn
  have hpar : fromParent (hear src s) port src = fromParent s port src := rfl
  simp only [exec_timeSync, execTimeSync, hp, hok, heardFrom_of_reachable hr ho, hn', hpar, Bool.not_true,
    Bool.false_eq_true, if_false]
  split <;> rfl

/-- A `DELAY_RESP` of the parent, after a `SYNC` of it and a `DELAY_REQ` to it. -/
theorem exec_delayResp_of_parent {port : Nat} (t1 t4 : Ns) (hpar : fromParent s port src = true) (hT : s.wrn.syncT ≠ 0)
    (hR : s.wrn.reqTx ≠ 0) :
    let down : Int := (s.wrn.syncRx : Int) - s.wrn.syncT
    let d : Nat := (128 * (down + ((t4 : Int) - s.wrn.reqTx))).toNat
    exec (.delayResp port src t1 t4) s =
      .next (takeOffset (256 * down - d) { hear src s with wrn := { (hear src s).wrn with delay := d } }) := by
  intro down d
  have hok : srcOk s src = true := decide_eq_true hsrc
  have hpar' : fromParent (hear src s) port src = true := hpar
  have hT' : ((hear src s).wrn.syncT != 0) = true := bne_iff_ne.2 hT
  have hR' : ((hear src s).wrn.reqTx != 0) = true := bne_iff_ne.2 hR
  simp only [exec_delayResp, execDelayResp, hp, hok, heardFrom_of_reachable hr ho, hpar', hT', hR', Bool.not_true, Bool.and_self,
    Bool.false_eq_true, if_false, if_true]
  rfl

end

theorem fromParent_iff (s : State) (port src : Nat) : fromParent s port src = true ↔
    s.mon.loaded = true ∧ s.wrn.hasParent = true ∧ s.wrn.parentPort = port ∧ s.wrn.parent = src := by
  simp [fromParent, and_assoc]

/-- A unit that is aligned after it took an offset took one within 2 ns (R277). -/
theorem takeOffset_aligned {off : Int} {s : State} (h : (takeOffset off s).wrn.aligned = true) : off.natAbs ≤ 512 := by
  by_contra hfar
  simp [takeOffset, hfar] at h

/-- Settles O34. What is sent stays on its way while more is sent (`SentOn.sent`), so each port's `SYNC` is there after the last
one; a message of a unit that is reachable and owed no reclaim does nothing before its own effect but to be heard. -/
theorem warrenTime : Obligations.WarrenTime := by
  unfold Obligations.WarrenTime
  intro s hp hl
  refine ⟨exec_timeSyncTimer_of_early, fun hdue => ⟨_, exec_timeSyncTimer_of_due hp hl hdue, ?sync⟩, exec_delayReqTimer_of_early,
    fun hpar hdue => ⟨_, exec_delayReqTimer_of_due hp hl hpar hdue, ?request⟩, fun src hsrc ho hr => ⟨?asked, ?synced, ?answered⟩⟩
  case sync =>
    obtain ⟨hon, hsent⟩ := syncAll_sent (timePorts s) { s with wrn := { s.wrn with syncTx := now s } }
    exact ⟨hon.syncTx, fun n hn hu => hsent n (mem_timePorts hn hu)⟩
  case request => exact ⟨(sendTime_sentOn _ _ _).reqTx, sendTime_sent _ _ _⟩
  case asked =>
    intro port t0 arr hu
    exact ⟨_, exec_delayReq_answered hp hsrc ho hr t0 arr hl hu, sendTime_sent _ _ _⟩
  case synced =>
    intro port depth al t0 arr hn
    have hexec := exec_timeSync_of_heard hp hsrc ho hr port depth al t0 arr hn
    refine ⟨fun hpar hport hsrc => ⟨_, hexec, ?_⟩, fun hother => ⟨_, hexec, ?_⟩⟩
    · rw [if_pos ((fromParent_iff s port src).2 ⟨hl, hpar, hport, hsrc⟩)]
      exact ⟨rfl, rfl, rfl, takeOffset_aligned⟩
    · have hnot : ¬ fromParent s port src = true := fun h =>
        have ⟨_, _, _, hparent⟩ := (fromParent_iff s port src).1 h
        hother hparent
      rw [if_neg hnot]
      exact ⟨rfl, rfl, rfl⟩
  case answered =>
    intro port t1 t4 hpar hport hparent hT hR
    exact ⟨_, exec_delayResp_of_parent hp hsrc ho hr t1 t4 ((fromParent_iff s port src).2 ⟨hl, hpar, hport, hparent⟩) hT hR, rfl, rfl⟩

end Sys2Proof.Proofs
end

section
/-! PTP at the grandmaster (R27, R386), the histories (R389), and the wear record of a mounted Drey (R392). -/

namespace Sys2Proof.Proofs

open Sys2Proof.Machine Sys2Proof.Safety Sys2Proof.Laws

/-! ### PTP at the grandmaster under time source 1 -/

/-- The rate that steers against an offset is within 50 ppm, whatever the free value of its size (R27). -/
theorem steerRate_rate (d : Int) (s : State) :
    (d = 0 → (steerRate d s).mon.ratePpb = s.mon.ratePpb) ∧
    (0 < d → -50000 ≤ (steerRate d s).mon.ratePpb ∧ (steerRate d s).mon.ratePpb ≤ 0) ∧
    (d < 0 → 0 ≤ (steerRate d s).mon.ratePpb ∧ (steerRate d s).mon.ratePpb ≤ 50000) := by
  have hsize : Config.number s.free % 50001 ≤ 50000 := Nat.le_of_lt_succ (Nat.mod_lt _ (by decide))
  unfold steerRate
  extract_lets size
  have hlow : 0 ≤ size := Int.natCast_nonneg _
  have hhigh : size ≤ 50000 := by omega
  simp only [draw_mon]
  refine ⟨fun h => if_pos h, fun h => ?_, fun h => ?_⟩
  · rw [if_neg (by omega), if_pos h]; omega
  · rw [if_neg (by omega), if_neg (by omega)]; omega

theorem steerRate_timebase (d : Int) (s : State) : (steerRate d s).mon.timebase = s.mon.timebase := rfl

section
variable {s : State} (hs : s.uni.st = .serving) (hg : amGm s = true) (hsrc : fabSource s.vq.active = 1)
include hs hg hsrc

/-- The grandmaster in SERVING takes PTP messages. -/
theorem ptp_taken : ¬ (!powered s || !amGm s || fabSource s.vq.active != 1) = true := by
  simp [powered, hs, hg, hsrc]

theorem exec_ptpSync_near {d : Int} (hl : s.mon.loaded = true) (hd : d.natAbs ≤ 10 * msNs) (hf : s.lif.ptpFar = false) :
    exec (.ptpMessage (.sync d)) s = .next (steerRate d { s with lif := { s.lif with ptpLock := true } }) := by
  refine (if_neg (ptp_taken hs hg hsrc)).trans ?_
  simp [hl, hd, hf]

/-- A far offset is reported, and the rate steers by a free value in its place. -/
theorem exec_ptpSync_far {d : Int} (hl : s.mon.loaded = true) (hd : 10 * msNs < d.natAbs) (hf : s.lif.ptpFar = false) :
    exec (.ptpMessage (.sync d)) s = .next (steerRate (Config.number (s.free + 1) % 3 - 1)
      (raiseGen 0x0E 2 { code := 0 } { s with lif := { s.lif with ptpLock := true, ptpFar := true } })) := by
  have hfree (u : State) : (raiseGen 0x0E 2 { code := 0 } u).free = u.free :=
    (raiseGen_kept 0x0E 2 _ u (.refl _ u) (covers_refl _)).frame .free (by decide)
  refine (if_neg (ptp_taken hs hg hsrc)).trans ?_
  simp [hl, Nat.not_le.2 hd, hf, hfree]

theorem exec_ptpAnnounce {n : Nat} (hn : n < 256) :
    exec (.ptpMessage (.announce n)) s = .next { s with lif := { s.lif with taiUtc := n } } := by
  refine (if_neg (ptp_taken hs hg hsrc)).trans ?_
  rw [Nat.mod_eq_of_lt hn]

theorem exec_ptpLost : exec (.ptpMessage .lost) s =
    .next { s with lif := { s.lif with ptpLock := false }, mon := { s.mon with disciplined := false } } :=
  if_neg (ptp_taken hs hg hsrc)

end

/-- The report of a far offset leaves LIF and MON, and its event is noted (log entry 38). -/
theorem raiseGen_lif_mon_noted (e : Ev) (s : State) : (raiseGen 0x0E 2 e s).lif = s.lif ∧ (raiseGen 0x0E 2 e s).mon = s.mon ∧
    noted (raiseGen 0x0E 2 e s) 0x0EFF e.tenant e.sk e.si := by
  have hframe := (raiseGen_kept 0x0E 2 e s (.refl _ s) (covers_refl _)).frame
  have hclass : (codeRow 0x0EFF 2).1 < 4 := by decide
  have hnoted := raise_noted { e with code := 0x0EFF, cls := 2, d0 := 0, d1 := 0 } s hclass
  exact ⟨hframe .lif (by decide), hframe .mon (by decide), hnoted⟩

/-! ### A history sample (R389) -/

theorem ringLen_pos (ring : Nat) : 0 < ringLen ring := by
  unfold ringLen
  split
  · decide
  · split <;> decide

/-- A history's value in a sample of a period, or none. -/
def sampleOf (samples : List (Nat × Nat)) (q : Nat) : Option Nat := (samples.find? fun p => p.1 == q).map fun p => p.2 % 2 ^ 16

/-- One history takes its value at the front. -/
def pushSample (period : Nat) (samples : List (Nat × Nat)) (minute : Nat) (l : Lif) (q : Nat) : Lif :=
  { l with
    hist := tset (64 * period + q) ((sampleOf samples q :: tget [] l.hist (64 * period + q)).take (ringLen period)) l.hist
    newest := tset (64 * period + q) minute l.newest }

/-- A junction sensor's maximum of the minute is counted in its bin (R390). -/
def countSample (samples : List (Nat × Nat)) (l : Lif) (n : Nat) : Lif :=
  match (sampleOf samples (64 + n)).bind tempBin with
  | some b => { l with bins := tinc (32 * n + b) 1 l.bins }
  | none => l

/-- A history's value is checked for drift. -/
def checkSample (samples : List (Nat × Nat)) (s : State) (q : Nat) : State :=
  match sampleOf samples q with
  | some v => driftCheck q v s
  | none => s

/-- HISTORY_SAMPLE on a unit with power: the histories take their values, a minute's maxima are counted, and drift is checked. -/
theorem exec_historySample {s : State} {p : Nat} (samples : List (Nat × Nat)) (hp : p < 3) (hs : s.uni.st ≠ .off) :
    exec (.historySample p samples) s =
      let pushed := (List.range 58).foldl (pushSample p samples (calMinutes s)) s.lif
      let counted := if p = 0 then (List.range 64).foldl (countSample samples) pushed else pushed
      .next ((List.range 58).foldl (checkSample samples) { s with lif := counted }) := by
  have htaken : ¬ (2 < p ∨ s.uni.st = .off) := by
    rintro (h | h)
    · omega
    · exact hs h
  exact if_neg htaken

/-- The newest sample of a history, with its minute. -/
def NewestSample (period q : Nat) (v : Option Nat) (minute : Nat) (l : Lif) : Prop :=
  (tget [] l.hist (64 * period + q)).head? = some v ∧ tget 0 l.newest (64 * period + q) = minute

theorem newestSample_pushSample (period : Nat) (samples : List (Nat × Nat)) (minute : Nat) (l : Lif) (q : Nat) :
    NewestSample period q (sampleOf samples q) minute (pushSample period samples minute l q) := by
  obtain ⟨n, hn⟩ := Nat.exists_eq_succ_of_ne_zero (ringLen_pos period).ne'
  refine ⟨?_, tget_tset_same ..⟩
  dsimp only [pushSample]
  rw [tget_tset_same, hn, List.take_succ_cons, List.head?_cons]

/-- What one history takes leaves the newest sample of another. -/
theorem NewestSample.pushSample_other {period q r : Nat} {v : Option Nat} {minute : Nat} {l : Lif} (samples : List (Nat × Nat))
    (m : Nat) (hne : q ≠ r) (h : NewestSample period q v minute l) :
    NewestSample period q v minute (pushSample period samples m l r) := by
  have hk : 64 * period + q ≠ 64 * period + r := by omega
  obtain ⟨hhist, hnewest⟩ := h
  exact ⟨(congrArg List.head? (tget_tset_other [] hk _ _)).trans hhist, (tget_tset_other 0 hk _ _).trans hnewest⟩

theorem newestSample_pushAll {period q : Nat} (samples : List (Nat × Nat)) (minute : Nat) {qs : List Nat} (hq : q ∈ qs) (l : Lif) :
    NewestSample period q (sampleOf samples q) minute (qs.foldl (pushSample period samples minute) l) := by
  have hkeep (l : Lif) (h : NewestSample period q (sampleOf samples q) minute l) (r : Nat) :
      NewestSample period q (sampleOf samples q) minute (pushSample period samples minute l r) := by
    by_cases hr : q = r
    · subst hr; exact newestSample_pushSample period samples minute l q
    · exact h.pushSample_other samples minute hr
  induction qs generalizing l with
  | nil => cases hq
  | cons r qs ih =>
    rcases List.mem_cons.1 hq with rfl | hq
    · exact List.foldlRecOn qs _ (newestSample_pushSample period samples minute l q) fun l h r _ => hkeep l h r
    · exact ih hq _

theorem countSample_hist (samples : List (Nat × Nat)) (l : Lif) (n : Nat) :
    (countSample samples l n).hist = l.hist ∧ (countSample samples l n).newest = l.newest := by
  unfold countSample
  split <;> exact ⟨rfl, rfl⟩

theorem driftCheck_hist (q v : Nat) (s : State) :
    (driftCheck q v s).lif.hist = s.lif.hist ∧ (driftCheck q v s).lif.newest = s.lif.newest := by
  unfold driftCheck
  split
  · exact ⟨rfl, rfl⟩
  · have hlif (e : Ev) (u : State) : (raiseGen 0x0E 1 e u).lif = u.lif :=
      (raiseGen_kept 0x0E 1 e u (.refl _ u) (covers_refl _)).frame .lif (by decide)
    rw [hlif]
    exact ⟨rfl, rfl⟩

theorem checkSample_hist (samples : List (Nat × Nat)) (s : State) (q : Nat) :
    (checkSample samples s q).lif.hist = s.lif.hist ∧ (checkSample samples s q).lif.newest = s.lif.newest := by
  unfold checkSample
  split
  · exact driftCheck_hist q _ s
  · exact ⟨rfl, rfl⟩

/-- The newest samples are a matter of the histories and their minutes. -/
theorem NewestSample.of_hist {period q : Nat} {v : Option Nat} {minute : Nat} {l m : Lif} (h : NewestSample period q v minute l)
    (hm : m.hist = l.hist ∧ m.newest = l.newest) : NewestSample period q v minute m := by
  rwa [NewestSample, hm.1, hm.2]

/-- After a sample of a period each of its histories has its value, or none, as the newest. -/
theorem exec_historySample_newest {s : State} {p : Nat} (samples : List (Nat × Nat)) (hp : p < 3) (hs : s.uni.st ≠ .off) :
    Answers (.historySample p samples) s fun t => ∀ q < 58,
      NewestSample p q (sampleOf samples q) (calMinutes s) t.lif := by
  refine ⟨_, exec_historySample samples hp hs, fun q hq => ?_⟩
  have hpushed := newestSample_pushAll (period := p) samples (calMinutes s) (List.mem_range.2 hq) s.lif
  refine List.foldlRecOn (motive := fun u : State => NewestSample p q (sampleOf samples q) (calMinutes s) u.lif) _ _ ?_
    fun u hu r _ => hu.of_hist (checkSample_hist samples u r)
  dsimp only
  split
  · exact List.foldlRecOn _ _ hpushed fun l hl n _ => hl.of_hist (countSample_hist samples l n)
  · exact hpushed

/-! ### The wear record (R392) -/

theorem wearWrite_drey (t : Ns) {y : Bay} {d : DreyId} (h : y.drey = some d) : ∃ e, (wearWrite t y).drey = some e ∧
    e.hoursMounted = d.hoursMounted ∧ e.wearSeq = d.wearSeq + 1 ∧ e.wearUpdate = t ∧ e.serial = d.serial := by
  unfold wearWrite
  simp only [h, Option.map_some]
  exact ⟨_, rfl, rfl, rfl, rfl, rfl⟩

/-- A report of wear marks the bay, and leaves its Drey. -/
theorem wearCheck_drey (bay : Nat) (s : State) : (bayOf (wearCheck bay s).hrd bay).drey = (bayOf s.hrd bay).drey := by
  have hraise (e : Ev) (u : State) : (raise e u).hrd = u.hrd :=
    (raise_kept e u (.refl _ u) (covers_refl _)).frame .hrd (by decide)
  have hmark (f : Bay → Bay) (u : State) (hf : ∀ y, (f y).drey = y.drey) :
      (bayOf (onBay bay f u).hrd bay).drey = (bayOf u.hrd bay).drey := by
    rw [bayOf, onBay, tget_tmod_same, hf]; rfl
  unfold wearCheck
  extract_lets y w u
  have hu : (bayOf u.hrd bay).drey = (bayOf s.hrd bay).drey := by
    dsimp only [u]
    split
    · rw [hraise]; exact hmark _ s (by intro; rfl)
    · rfl
  split
  · rw [hraise]; exact (hmark _ u (by intro; rfl)).trans hu
  · exact hu

/-- After an hour of mounting the record is written with the hour counted, and wear is checked. -/
theorem exec_wearRecordWrite_mounted {s : State} {b : Nat} (hb : b < 16) (hs : s.uni.st = .serving) (hy : (bayOf s.hrd b).st = 3) :
    ∃ hour : DreyId → DreyId,
      (∀ d, (hour d).hoursMounted = d.hoursMounted + 1 ∧ (hour d).wearSeq = d.wearSeq ∧ (hour d).serial = d.serial) ∧
      exec (.wearRecordWrite b) s =
        .next (wearCheck b (onBay b (fun y => wearWrite (now s) { y with drey := y.drey.map hour }) s)) := by
  refine ⟨_, ?_, if_neg ?_⟩
  · exact fun d => ⟨rfl, rfl, rfl⟩
  · simp [powered, hs, hy, Nat.not_le.2 hb]

/-- Settles O15. A far offset is the one PTP message that raises an event, which leaves LIF and MON; a sample's newest values
outlive the counts and drift checks after them; the wear record is written before wear is checked, which leaves the Drey. -/
theorem clockDisciplineAndHistories : Obligations.ClockDisciplineAndHistories := by
  unfold Obligations.ClockDisciplineAndHistories
  refine ⟨fun s d hs hg hsrc hl => ⟨fun hd hf => ?near, fun hd hf => ?far, fun n hn => exec_ptpAnnounce hs hg hsrc hn,
    exec_ptpLost hs hg hsrc⟩, fun s p samples hp hs => exec_historySample_newest samples hp hs, fun s b d hb hs hy hd => ?wear⟩
  case near => exact ⟨_, exec_ptpSync_near hs hg hsrc hl hd hf, rfl, rfl, rfl, steerRate_rate d _⟩
  case far =>
    obtain ⟨hlif, hmon, hnoted⟩ :=
      raiseGen_lif_mon_noted { code := 0 } { s with lif := { s.lif with ptpLock := true, ptpFar := true } }
    exact ⟨_, exec_ptpSync_far hs hg hsrc hl hd hf, hlif, hnoted,
      (steerRate_timebase _ _).trans (congrArg Mon.timebase hmon)⟩
  case wear =>
    obtain ⟨hour, hhour, hexec⟩ := exec_wearRecordWrite_mounted hb hs hy
    refine ⟨_, hexec, ?_⟩
    obtain ⟨hhours, hseq, hserial⟩ := hhour d
    obtain ⟨e, he, heHours, heSeq, heTime, heSerial⟩ := wearWrite_drey (now s)
      (y := { bayOf s.hrd b with drey := (bayOf s.hrd b).drey.map hour }) (congrArg (Option.map hour) hd)
    rw [wearCheck_drey, bayOf, onBay, tget_tmod_same]
    exact ⟨e, he, heHours.trans hhours, heSeq.trans (by rw [hseq]), heTime, heSerial.trans hserial⟩

end Sys2Proof.Proofs
end

section
/-! Every step keeps the canonical form of the byte memories and every blown fuse bit (R37, R40, R56, R73, R174): each command by
the law of its meaning, and the idle nanosecond. -/

namespace Sys2Proof.Proofs

open Sys2Proof.Machine Sys2Proof.Safety

/-- What every command keeps: the law of each row's meaning, whose blocks are within the row's footprint. -/
theorem exec_kept (i : Instr) (s : State) : KeptRes (footprint i) s (exec i s) := by
  have hk := Kept.refl (footprint i) s
  have hc := covers_refl (footprint i)
  cases i with
  | registerWrite => exact execRegisterWrite_kept _ _ _ _ s hk
  | registerAccessRefused => exact execRegisterAccessRefused_kept _ _ _ _ _ s hk
  | islandOffAccess => exact execIslandOffAccess_kept _ _ _ _ s hk
  | hostMemRead => exact execHostMemRead_kept _ _ _ _ _ s hk
  | fillBlockLanded => exact execFillBlockLanded_kept _ _ _ _ _ _ s hk
  | hostMemWrite => exact execHostMemWrite_kept _ _ _ _ _ _ _ _ s hk
  | stripWriteback => exact execStripWriteback_kept _ _ _ s hk
  | writebackComplete => exact execWritebackComplete_kept _ _ s hk
  | operandTileFetch => exact execOperandTileFetch_kept _ _ _ s hk
  | tempSensorConversion => exact execTempSensorConversion_kept _ _ _ s hk
  | voltageMonitorConversion => exact execVoltageMonitorConversion_kept _ _ _ s hk
  | pacerWindow => exact execPacerWindow_kept _ _ _ s hk
  | monTimebaseReadLow => exact execMonTimebaseReadLow_kept _ s hk
  | monCtlWrite => exact execMonCtlWrite_kept _ s hk
  | setOwner => exact execSetOwner_kept _ s hk
  | programSlot => exact execProgramSlot_kept _ s hk
  | revokeSlot => exact execRevokeSlot_kept _ s hk
  | revokeSlotDeferred => exact execRevokeSlotDeferred_kept s hk
  | advanceArb => exact execAdvanceArb_kept _ s hk
  | tightenDebug => exact execTightenDebug_kept _ s hk
  | programPolicy => exact execProgramPolicy_kept _ s hk
  | fuseSeal => exact execFuseSeal_kept _ s hk
  | retire => exact execRetire_kept _ s hk
  | debugUnlock => exact execDebugUnlock_kept _ s hk
  | validate => exact execValidate_kept _ _ s hk
  | update => exact execUpdate_kept _ _ s hk
  | nextStart => exact execNextStart_kept _ _ s hk
  | loadModeRefused => exact execLoadModeRefused_kept _ _ s hk
  | redfishImageAction => exact execRedfishImageAction_kept _ _ _ s hk
  | distributionTimeout => exact execDistributionTimeout_kept s hk
  | imagePart => exact execImagePart_kept _ _ _ _ _ s hk
  | imageVerdict => exact execImageVerdict_kept _ _ s hk
  | vqCtlAbort => exact execVqCtlAbort_kept _ s hk
  | coldStart => exact execColdStart_kept _ s hk
  | phaseBound => exact execPhaseBound_kept _ s hk
  | engineKatTimer => exact execEngineKatTimer_kept _ _ s hk
  | engKatRun => exact execEngKatRun_kept _ _ s hk
  | codecKatTimer => exact execCodecKatTimer_kept _ _ s hk
  | sramRowError => exact execSramRowError_kept _ _ _ _ s hk
  | shrewCoreFailure => exact execShrewCoreFailure_kept _ s hk
  | paceScan => exact execPaceScan_kept _ s hk
  | engineRepairComplete => exact execEngineRepairComplete_kept _ s hk
  | firmwareRestart => exact execFirmwareRestart_kept s hk
  | firmwareRestartComplete => exact execFirmwareRestartComplete_kept s hk
  | linkUp => exact execLinkUp_kept _ _ s hk
  | linkDown => exact execLinkDown_kept _ s hk
  | linkRateLowering => exact execLinkRateLowering_kept _ s hk
  | getLdInfo => exact execGetLdInfo_kept _ s hk
  | getLdAllocations => exact execGetLdAllocations_kept _ s hk
  | setLdAllocations => exact execSetLdAllocations_kept _ s hk
  | addDynamicCapacityResponse => exact execAddDynamicCapacityResponse_kept _ _ _ _ s hk
  | releaseDynamicCapacity => exact execReleaseDynamicCapacity_kept _ _ s hk
  | releaseTimeout => exact execReleaseTimeout_kept _ _ s hk
  | hdmDecoderCommit => exact execHdmDecoderCommit_kept _ _ _ _ _ _ _ _ s hk
  | hstLeaseRenew => exact execHstLeaseRenew_kept _ _ _ s hk
  | identifyMemoryDevice => exact execIdentifyMemoryDevice_kept _ s hk
  | getSupportedLogs => exact execGetSupportedLogs_kept _ s hk
  | getLog => exact execGetLog_kept _ _ _ _ s hk
  | getEventRecords => exact execGetEventRecords_kept _ _ s hk
  | clearEventRecords => exact execClearEventRecords_kept _ _ _ _ s hk
  | getEventInterruptPolicy => exact execGetEventInterruptPolicy_kept _ s hk
  | setEventInterruptPolicy => exact execSetEventInterruptPolicy_kept _ _ s hk
  | getHealthInfo => exact execGetHealthInfo_kept _ s hk
  | getPoisonList => exact execGetPoisonList_kept _ _ _ s hk
  | injectPoison => exact execInjectPoison_kept _ _ s hk
  | clearPoison => exact execClearPoison_kept _ _ _ s hk
  | getDynamicCapacityConfiguration => exact execGetDynamicCapacityConfiguration_kept _ s hk
  | getDynamicCapacityExtentList => exact execGetDynamicCapacityExtentList_kept _ s hk
  | getTimestamp => exact execGetTimestamp_kept _ s hk
  | setTimestamp _ t => exact execSetTimestamp_kept _ t s hk
  | getFwInfo => exact execGetFwInfo_kept _ s hk
  | unsupportedMailboxCommand _ opcode => exact execUnsupportedMailboxCommand_kept _ opcode s hk
  | spdmRequest => exact execSpdmRequest_kept _ _ _ s hk
  | ideKeyProgramming => exact execIdeKeyProgramming_kept _ _ _ _ s hk
  | ideCheckFail => exact execIdeCheckFail_kept _ _ s hk
  | deferrableMemoryWrite => exact execDeferrableMemoryWrite_kept _ _ _ s hk
  | responseWatchdog => exact execResponseWatchdog_kept _ s hk
  | functionLevelReset => exact execFunctionLevelReset_kept _ s hk
  | hotReset => exact execHotReset_kept _ s hk
  | mbxSend => exact execMbxSend_kept _ _ _ s hk
  | mbxSendHalf => exact execMbxSendHalf_kept _ _ s hk
  | mbxDmwrPointer => exact execMbxDmwrPointer_kept _ _ _ _ s hk
  | mbxDmwrWord => exact execMbxDmwrWord_kept _ _ _ s hk
  | mbxRecvPop => exact execMbxRecvPop_kept _ _ s hk
  | mbxDbClear => exact execMbxDbClear_kept _ _ s hk
  | mbxDbMaskWrite => exact execMbxDbMaskWrite_kept _ _ s hk
  | ping => exact execPing_kept _ _ s hk
  | leaseInfo => exact execLeaseInfo_kept _ _ s hk
  | extentState => exact execExtentState_kept _ _ s hk
  | reserveLevels => exact execReserveLevels_kept _ _ s hk
  | imageReq => exact execImageReq_kept _ _ s hk
  | unknownOp => exact execUnknownOp_kept _ _ s hk
  | f2hDeferredEnqueue => exact execF2hDeferredEnqueue_kept _ s hk
  | mailboxFault => exact execMailboxFault_kept _ _ _ s hk
  | mbx => exact execMbx_kept _ _ _ _ _ _ _ s hk
  | mbxAns => exact execMbxAns_kept _ _ _ s hk
  | sealExtent => exact execSeal_kept _ _ _ s hk
  | sealComplete => exact execSealComplete_kept _ s hk
  | hostBirsp => exact execHostBirsp_kept _ _ _ _ s hk
  | biConflict => exact execBiConflict_kept _ _ s hk
  | leaseRenew => exact execLeaseRenew_kept _ _ _ s hk
  | leaseGrantDue => exact execLeaseGrantDue_kept _ s hk
  | leaseGrant => exact execLeaseGrant_kept _ _ _ s hk
  | leaseGuardReached => exact execLeaseGuardReached_kept _ s hk
  | leaseExpiry => exact execLeaseExpiry_kept _ s hk
  | leaseReclaimTimer => exact execLeaseReclaimTimer_kept _ s hk
  | leaseReclaim => exact execLeaseReclaim_kept _ _ _ s hk
  | leaseReport => exact execLeaseReport_kept _ _ _ _ _ _ s hk
  | extOlogTailWrite => exact execExtOlogTailWrite_kept _ s hk
  | release => exact execRelease_kept _ s hk
  | scrub => exact execScrub_kept _ s hk
  | scrubComplete => exact execScrubComplete_kept _ s hk
  | dramAdmission => exact execDramAdmission_kept _ _ s hk
  | dramUnitComplete => exact execDramUnitComplete_kept _ _ s hk
  | sidRetireComplete => exact execSidRetireComplete_kept s hk
  | poolRemapComplete => exact execPoolRemapComplete_kept s hk
  | unfreeze => exact execUnfreeze_kept _ s hk
  | refreshDeadline => exact execRefreshDeadline_kept _ _ s hk
  | refreshOpportunity => exact execRefreshOpportunity_kept _ s hk
  | stackTempRead => exact execStackTempRead_kept _ _ s hk
  | dramScrub => exact execDramScrub_kept _ _ _ _ s hk
  | dataRateChange => exact execDataRateChange_kept _ s hk
  | chunkGet => exact execChunkGet_kept _ _ _ _ _ _ s hk
  | chunkData => exact execChunkData_kept _ _ _ _ s hk
  | chunkPut => exact execChunkPut_kept _ _ _ _ _ _ _ _ _ s hk
  | chunkAck => exact execChunkAck_kept _ _ _ s hk
  | chunkAckTimeout => exact execChunkAckTimeout_kept _ _ s hk
  | chunkGetTimeout => exact execChunkGetTimeout_kept _ s hk
  | commitTimer => exact execCommitTimer_kept _ _ s hk
  | checkpoint => exact execCheckpoint_kept s hk
  | compaction => exact execCompaction_kept _ s hk
  | flashReclaim => exact execFlashReclaim_kept _ _ s hk
  | weightedAgeTick => exact execWeightedAgeTick_kept _ _ s hk
  | hoardScrub => exact execHoardScrub_kept _ _ _ _ _ s hk
  | flashDieFailure => exact execFlashDieFailure_kept _ _ s hk
  | chunkRebuild => exact execChunkRebuild_kept _ _ _ s hk
  | rebuildDelayExpired => exact execRebuildDelayExpired_kept _ _ s hk
  | dreyInserted => exact execDreyInserted_kept _ _ s hk
  | dreyMounted => exact execDreyMounted_kept _ s hk
  | bayButtonPress => exact execBayButtonPress_kept _ s hk
  | approve => exact execApprove_kept _ s hk
  | approvalTimeout => exact execApprovalTimeout_kept _ s hk
  | removalWindowExpired => exact execRemovalWindowExpired_kept _ s hk
  | dreyPulled => exact execDreyPulled_kept _ s hk
  | dreyForcedOut => exact execDreyForcedOut_kept _ s hk
  | evacuate => exact execEvacuate_kept _ s hk
  | evacuationComplete => exact execEvacuationComplete_kept _ s hk
  | adopt => exact execAdopt_kept _ s hk
  | adoptLapse => exact execAdoptLapse_kept _ s hk
  | adoptionComplete => exact execAdoptionComplete_kept _ s hk
  | flitReceived => exact execFlitReceived_kept _ _ _ s hk
  | replayTimeout => exact execReplayTimeout_kept _ s hk
  | laneFailure => exact execLaneFailure_kept _ _ s hk
  | read => exact execRead_kept _ _ _ _ _ _ _ _ _ _ s hk
  | readData => exact execReadData_kept _ _ _ _ _ _ _ _ _ s hk
  | write => exact execWrite_kept _ _ _ _ _ _ _ _ _ _ _ _ s hk
  | writeDone => exact execWriteDone_kept _ _ _ s hk
  | bisnp => exact execBisnp_kept _ _ _ _ _ _ s hk
  | birsp => exact execBirsp_kept _ _ _ _ _ s hk
  | opFwd => exact execOpFwd_kept _ _ _ _ _ _ s hk
  | opDone => exact execOpDone_kept _ _ _ s hk
  | opFwdResend => exact execOpFwdResend_kept _ s hk
  | reserve => exact execReserve_kept _ _ _ _ s hk
  | grant => exact execGrant_kept _ _ _ _ s hk
  | bulkSlotFreed => exact execBulkSlotFreed_kept _ _ s hk
  | presenceProbe => exact execPresenceProbe_kept _ _ s hk
  | presenceAnswer => exact execPresenceAnswer_kept _ _ s hk
  | presenceProbeTimer => exact execPresenceProbeTimer_kept _ s hk
  | unreachableTimeout => exact execUnreachableTimeout_kept _ s hk
  | transitTimeout => exact execTransitTimeout_kept _ _ s hk
  | requestRetryTimer => exact execRequestRetryTimer_kept _ s hk
  | routeRestore => exact execRouteRestore_kept _ s hk
  | timeSyncTimer => exact execTimeSyncTimer_kept s hk
  | delayReqTimer => exact execDelayReqTimer_kept s hk
  | timeSync _ _ _ aligned => exact execTimeSync_kept _ _ _ aligned _ _ s hk
  | delayReq => exact execDelayReq_kept _ _ _ _ s hk
  | delayResp _ _ t1 => exact execDelayResp_kept _ _ t1 _ s hk
  | portDown => exact execPortDown_kept _ s hk
  | cablePlugged => exact execCablePlugged_kept _ _ s hk
  | hello => exact execHello_kept _ _ s hk
  | credit => exact execCredit_kept _ _ _ s hk
  | retrain => exact execRetrain_kept _ s hk
  | disable => exact execDisable_kept _ s hk
  | enable => exact execEnable_kept _ s hk
  | engineBlockDispatch => exact execEngineBlockDispatch_kept _ s hk
  | outputBlockDrain => exact execOutputBlockDrain_kept _ _ s hk
  | ringEnable _ _ stamp => exact execRingEnable_kept _ _ stamp s hk
  | ringDisable => exact execRingDisable_kept _ _ s hk
  | sqDoorbell => exact execSqDoorbell_kept _ _ _ _ _ s hk
  | cqDoorbell => exact execCqDoorbell_kept _ _ _ _ s hk
  | descriptorTake => exact execDescriptorTake_kept s hk
  | copy => exact execCopy_kept _ _ _ s hk
  | prefetch => exact execPrefetch_kept _ _ _ s hk
  | pin => exact execPin_kept _ _ _ s hk
  | unpin => exact execUnpin_kept _ _ _ s hk
  | migrate => exact execMigrate_kept _ _ _ s hk
  | gather => exact execGather_kept _ _ _ s hk
  | scatter => exact execScatter_kept _ _ _ s hk
  | gemm => exact execGemm_kept _ _ _ s hk
  | groupedGemm => exact execGroupedGemm_kept _ _ _ s hk
  | expertRoute => exact execExpertRoute_kept _ _ _ s hk
  | expertFfn => exact execExpertFfn_kept _ _ _ s hk
  | reduceExact => exact execReduceExact_kept _ _ _ s hk
  | checksum => exact execChecksum_kept _ _ _ s hk
  | exportCompressed => exact execExportCompressed_kept _ _ _ s hk
  | abort => exact execAbort_kept _ _ _ s hk
  | operatorTimeout => exact execOperatorTimeout_kept _ _ _ s hk
  | epochPrepare => exact execEpochPrepare_kept _ _ _ s hk
  | epochPrepared => exact execEpochPrepared_kept _ _ s hk
  | epochRefused => exact execEpochRefused_kept _ _ _ s hk
  | prepareTimeout => exact execPrepareTimeout_kept s hk
  | epochCommit => exact execEpochCommit_kept _ _ _ s hk
  | epochRollback => exact execEpochRollback_kept _ _ s hk
  | epochDone => exact execEpochDone_kept _ _ _ s hk
  | commitResendTimer => exact execCommitResendTimer_kept s hk
  | preparedResend => exact execPreparedResend_kept s hk
  | stagedSwitch => exact execStagedSwitch_kept s hk
  | migrationSettled => exact execMigrationSettled_kept s hk
  | powerControlTick => exact execPowerControlTick_kept _ s hk
  | comparatorTrip => exact execComparatorTrip_kept s hk
  | regulatorFault => exact execRegulatorFault_kept _ _ s hk
  | inputLost => exact execInputLost_kept _ s hk
  | inputRestored => exact execInputRestored_kept _ s hk
  | bothInputsLost => exact execBothInputsLost_kept s hk
  | standbyPowerApplied => exact execStandbyPowerApplied_kept _ s hk
  | start => exact execStart_kept _ s hk
  | drain => exact execDrain_kept _ s hk
  | drained => exact execDrained_kept s hk
  | resume => exact execResume_kept s hk
  | dormouse => exact execDormouse_kept s hk
  | wake => exact execWake_kept _ s hk
  | powerOff => exact execPowerOff_kept _ s hk
  | drainFaultTimeout => exact execDrainFaultTimeout_kept s hk
  | calendarCompare => exact execCalendarCompare_kept s hk
  | calendarTrimUpdate => exact execCalendarTrimUpdate_kept _ s hk
  | setCal => exact execSetCal_kept _ _ s hk
  | setUtc => exact execSetUtc_kept _ s hk
  | ptpMessage => exact execPtpMessage_kept _ s hk
  | historySample => exact execHistorySample_kept _ _ s hk
  | poweredHour => exact execPoweredHour_kept s hk
  | wearRecordWrite => exact execWearRecordWrite_kept _ s hk
  | coinCellRemoved => exact execCoinCellRemoved_kept s hk
  | displayRefresh => exact execDisplayRefresh_kept s hk
  | homeTimeout => exact execHomeTimeout_kept s hk
  | slide => exact execSlide_kept _ s hk
  | prev => exact execPrev_kept s hk
  | next => exact execNext_kept s hk
  | locate => exact execLocate_kept s hk
  | removeKey => exact execRemoveKey_kept s hk
  | adoptConfirmation => exact execAdoptConfirmation_kept s hk
  | confirm => exact execConfirm_kept s hk
  | stripRejection => exact execStripRejection_kept s hk
  | select => exact execSelect_kept _ s hk
  | ident => exact execIdent_kept s hk
  | locateExpired => exact execLocateExpired_kept _ s hk
  | hold => exact execHold_kept s hk
  | switchTurn => exact execSwitchTurn_kept _ s hk
  | coverOpened => exact execCoverOpened_kept s hk
  | coverClosed => exact execCoverClosed_kept s hk
  | identOn => exact execIdentOn_kept _ s hk
  | identOff => exact execIdentOff_kept _ s hk
  | bayLocate => exact execBayLocate_kept _ s hk
  | refresh => exact execRefresh_kept s hk
  | eventMergeWindow => exact execEventMergeWindow_kept _ _ _ _ s hk
  | faultResume => exact execFaultResume_kept s hk
  | fltLdTailWrite => exact execFltLdTailWrite_kept _ _ s hk
  | dreyReleased => exact execDreyReleased_kept _ s hk
  | lifCalReadLow => exact execLifCalReadLow_kept _ s hk
  | rootRecord => exact execRootRecord_kept _ _ s hk

/-- A step takes the command at the front of the queue, or idles for one nanosecond (R27, log entry 2). -/
theorem step_cases {s t : State} (h : step s = .next t) : (s.pending = [] ∧ tick s = .next t) ∨
    ∃ i rest, s.pending = i :: rest ∧ exec i { s with pending := rest } = .next t := by
  unfold step at h
  split at h
  · next hq => exact .inl ⟨hq, h⟩
  · next i rest hq => exact .inr ⟨i, rest, hq, h⟩

/-- What one step keeps, whether of a command or of time. -/
theorem step_keeps {s t : State} (h : step s = .next t) : (memoriesOk s → memoriesOk t) ∧ fusesKept s.fus t.fus := by
  obtain ⟨-, htick⟩ | ⟨i, rest, -, hexec⟩ := step_cases h
  · cases htick
    exact ⟨id, fun _ _ hblown => hblown⟩
  · have hkept := (exec_kept i { s with pending := rest }).next t hexec
    exact ⟨hkept.memories, hkept.fuses⟩

/-- Settles O5, by the first half of `step_keeps`. -/
theorem memoriesKept : Obligations.MemoriesKept := by
  unfold Obligations.MemoriesKept
  exact fun _ _ hmemories hstep => (step_keeps hstep).1 hmemories

/-- Settles O6, by the second half of `step_keeps`. -/
theorem fusesNeverUnblown : Obligations.FusesNeverUnblown := by
  unfold Obligations.FusesNeverUnblown
  exact fun _ _ hstep => (step_keeps hstep).2

end Sys2Proof.Proofs
end

section
/-! How the fuse fields read (R39): three-copy fields by the majority of their copies, the anti-rollback counter by its highest
blown bit. Blowing further bits moves none of them back (R37, R40, R47, R48). -/

namespace Sys2Proof.Proofs

open Sys2Proof.Machine Sys2Proof.Safety

/-! ### Three copies -/

theorem testBit_bits (v h l i : Nat) : (bits v h l).testBit i = (decide (i < h + 1 - l) && v.testBit (l + i)) := by
  rw [bits, Nat.testBit_mod_two_pow, Nat.testBit_shiftRight]

theorem testBit_maj3 (a b c i : Nat) : (maj3 a b c).testBit i =
    ((a.testBit i && b.testBit i) || (a.testBit i && c.testBit i) || (b.testBit i && c.testBit i)) := by
  simp only [maj3, Nat.testBit_or, Nat.testBit_and]

/-- At least two of three fuses of a word are blown. -/
def TwoBlown (x : BitVec 64) (i j k : Nat) : Prop :=
  (x.getLsbD i = true ∧ x.getLsbD j = true) ∨ (x.getLsbD i = true ∧ x.getLsbD k = true) ∨
    (x.getLsbD j = true ∧ x.getLsbD k = true)

theorem TwoBlown.mono {x y : BitVec 64} {i j k : Nat} (hxy : ∀ n, x.getLsbD n = true → y.getLsbD n = true)
    (h : TwoBlown x i j k) : TwoBlown y i j k :=
  h.imp (.imp (hxy i) (hxy j)) (.imp (.imp (hxy i) (hxy k)) (.imp (hxy j) (hxy k)))

/-- Bit `k` of a three-copy field reads as the majority of its copies. -/
theorem bit_fuseMaj_iff (x : BitVec 64) (lo : Nat) {w k : Nat} (hk : k < w) :
    bit (fuseMaj x.toNat lo w) k = true ↔ TwoBlown x (lo + k) (lo + w + k) (lo + 2 * w + k) := by
  have h1 : k < lo + w - 1 + 1 - lo := by omega
  have h2 : k < lo + 2 * w - 1 + 1 - (lo + w) := by omega
  have h3 : k < lo + 3 * w - 1 + 1 - (lo + 2 * w) := by omega
  simp [bit, fuseMaj, testBit_maj3, testBit_bits, h1, h2, h3, TwoBlown, BitVec.getLsbD, or_assoc]

theorem bits_lt (v : Nat) {h l w : Nat} (hw : h + 1 - l = w) : bits v h l < 2 ^ w := hw ▸ Nat.mod_lt _ (Nat.two_pow_pos _)

/-- A three-copy field of `w` bits reads a value of `w` bits. -/
theorem fuseMaj_lt (v lo : Nat) {w : Nat} (hw : 0 < w) : fuseMaj v lo w < 2 ^ w := by
  have h2 : bits v (lo + 2 * w - 1) (lo + w) < 2 ^ w := bits_lt v (by omega)
  have h3 : bits v (lo + 3 * w - 1) (lo + 2 * w) < 2 ^ w := bits_lt v (by omega)
  exact Nat.or_lt_two_pow (Nat.or_lt_two_pow (Nat.and_lt_two_pow _ h2) (Nat.and_lt_two_pow _ h3)) (Nat.and_lt_two_pow _ h3)

theorem bit_slotsRevoked_iff (f : Fus) {k : Nat} (hk : k < 4) :
    bit (slotsRevoked f) k = true ↔ TwoBlown (fuseBits f 0) (16 + k) (20 + k) (24 + k) := bit_fuseMaj_iff _ 16 hk

theorem bit_debugPolicy_iff (f : Fus) {k : Nat} (hk : k < 16) :
    bit (debugPolicy f) k = true ↔ TwoBlown (fuseBits f 3) k (16 + k) (32 + k) := by
  simpa [debugPolicy] using bit_fuseMaj_iff (fuseBits f 3) 0 hk

/-- Bit `i` of the lifecycle code of word 0. -/
def LifeBit (f : Fus) (i : Nat) : Prop := TwoBlown (fuseBits f 0) i (3 + i) (6 + i)

theorem bit_lifecycle_iff (f : Fus) {i : Nat} (hi : i < 3) :
    bit (fuseMaj (fuseBits f 0).toNat 0 3) i = true ↔ LifeBit f i := by
  simpa [LifeBit] using bit_fuseMaj_iff (fuseBits f 0) 0 hi

/-- The lifecycle reads by its highest bit: it has reached stage `n + 1` where bit `n` or a higher one reads blown. -/
theorem lifecycle_stages (f : Fus) : (3 ≤ lifecycle f ↔ LifeBit f 2) ∧ (2 ≤ lifecycle f ↔ LifeBit f 2 ∨ LifeBit f 1) ∧
    (1 ≤ lifecycle f ↔ LifeBit f 2 ∨ LifeBit f 1 ∨ LifeBit f 0) ∧ lifecycle f ≤ 3 := by
  simp only [← bit_lifecycle_iff f (show 2 < 3 by decide), ← bit_lifecycle_iff f (show 1 < 3 by decide),
    ← bit_lifecycle_iff f (show 0 < 3 by decide), lifecycle]
  generalize bit (fuseMaj (fuseBits f 0).toNat 0 3) 2 = b2, bit (fuseMaj (fuseBits f 0).toNat 0 3) 1 = b1,
    bit (fuseMaj (fuseBits f 0).toNat 0 3) 0 = b0
  revert b2 b1 b0
  decide

/-! ### The anti-rollback counter -/

/-- Bit `i` of the anti-rollback counter of words 1 and 2. -/
def ArbBlown (f : Fus) (i : Nat) : Prop := (fuseBits f (1 + i / 64)).getLsbD (i % 64) = true

/-- The 128 bits of words 1 and 2. -/
def arbWords (f : Fus) : Nat := (fuseBits f 1).toNat + 2 ^ 64 * (fuseBits f 2).toNat

theorem testBit_arbWords {f : Fus} {i : Nat} : (arbWords f).testBit i = true ↔ i < 128 ∧ ArbBlown f i := by
  rw [arbWords, Nat.add_comm, Nat.testBit_two_pow_mul_add _ (fuseBits f 1).isLt, ArbBlown]
  split
  · next hlow =>
    rw [Nat.div_eq_of_lt hlow, Nat.mod_eq_of_lt hlow]
    exact ⟨fun h => ⟨by omega, h⟩, And.right⟩
  · next hlow =>
    by_cases hi : i < 128
    · rw [show i / 64 = 1 by omega, show i % 64 = i - 64 by omega]
      exact ⟨fun h => ⟨hi, h⟩, And.right⟩
    · have hover := (fuseBits f 2).getLsbD_of_ge (i - 64) (by omega)
      exact ⟨fun h => absurd h (by rw [← BitVec.getLsbD, hover]; decide), fun h => absurd h.1 hi⟩

theorem lt_arb_iff_two_pow_le (f : Fus) (i : Nat) : i < arb f ↔ 2 ^ i ≤ arbWords f := by
  change i < (if arbWords f = 0 then 0 else (arbWords f).log2 + 1) ↔ _
  split
  · next h0 => simp [h0]
  · next h0 => rw [← Nat.le_log2 h0]; omega

/-- The counter passes `i` where bit `i` or a higher one is blown. -/
theorem lt_arb_iff (f : Fus) (i : Nat) : i < arb f ↔ ∃ j, i ≤ j ∧ j < 128 ∧ ArbBlown f j := by
  rw [lt_arb_iff_two_pow_le]
  constructor
  · intro h
    obtain ⟨j, hij, hj⟩ := Nat.exists_ge_and_testBit_of_ge_two_pow h
    exact ⟨j, hij, testBit_arbWords.1 hj⟩
  · rintro ⟨j, hij, hj⟩
    exact (Nat.pow_le_pow_right (by decide) hij).trans (Nat.ge_two_pow_of_testBit (testBit_arbWords.2 hj))

theorem arb_eq_of_highest {f : Fus} {i : Nat} (hi : i < 128) (hblown : ArbBlown f i)
    (habove : ∀ j, i < j → j < 128 → ¬ ArbBlown f j) : arb f = i + 1 := by
  have hlow : i < arb f := (lt_arb_iff f i).2 ⟨i, Nat.le_refl i, hi, hblown⟩
  have hhigh : ¬ i + 1 < arb f := fun h =>
    have ⟨j, hij, hj, hjb⟩ := (lt_arb_iff f (i + 1)).1 h
    habove j hij hj hjb
  omega

theorem arb_eq_zero {f : Fus} (hnone : ∀ i < 128, ¬ ArbBlown f i) : arb f = 0 :=
  Nat.eq_zero_of_not_pos fun h =>
    have ⟨j, _, hj, hjb⟩ := (lt_arb_iff f 0).1 h
    hnone j hj hjb

theorem arb_le (f : Fus) : arb f ≤ 128 :=
  Nat.le_of_not_lt fun h =>
    have ⟨_, hge, hlt, _⟩ := (lt_arb_iff f 128).1 h
    absurd hlt (Nat.not_lt.2 hge)

/-- Settles O59. Three-copy fields by `bit_fuseMaj_iff`, the counter by `lt_arb_iff`. -/
theorem fuseFieldsRead : Obligations.FuseFieldsRead := by
  unfold Obligations.FuseFieldsRead
  intro f
  refine ⟨lifecycle_stages f, ⟨fuseMaj_lt _ 16 (by decide), fun k hk => bit_slotsRevoked_iff f hk⟩,
    ⟨fuseMaj_lt _ 0 (by decide), fun k hk => bit_debugPolicy_iff f hk⟩, ?highest, arb_eq_zero, arb_le f, ?same⟩
  case highest => exact fun i ⟨hi, hblown, habove⟩ => arb_eq_of_highest hi hblown habove
  case same =>
    rintro g i ⟨hi, hf, hfa⟩ ⟨-, hg, hga⟩
    rw [arb_eq_of_highest hi hf hfa, arb_eq_of_highest hi hg hga]

/-! ### No field moves back -/

section
variable {f g : Fus} (h : fusesKept f g)
include h

theorem slotsRevoked_mono {k : Nat} (hk : k < 4) (hbit : bit (slotsRevoked f) k = true) : bit (slotsRevoked g) k = true :=
  (bit_slotsRevoked_iff g hk).2 (((bit_slotsRevoked_iff f hk).1 hbit).mono (h 0))

theorem debugPolicy_mono {k : Nat} (hk : k < 16) (hbit : bit (debugPolicy f) k = true) : bit (debugPolicy g) k = true :=
  (bit_debugPolicy_iff g hk).2 (((bit_debugPolicy_iff f hk).1 hbit).mono (h 3))

theorem LifeBit.mono {i : Nat} (hi : LifeBit f i) : LifeBit g i := TwoBlown.mono (h 0) hi

theorem lifecycle_mono : lifecycle f ≤ lifecycle g := by
  obtain ⟨f3, f2, f1, hf⟩ := lifecycle_stages f
  obtain ⟨g3, g2, g1, -⟩ := lifecycle_stages g
  have h3 : 3 ≤ lifecycle f → 3 ≤ lifecycle g := fun l => g3.2 ((f3.1 l).mono h)
  have h2 : 2 ≤ lifecycle f → 2 ≤ lifecycle g := fun l => g2.2 ((f2.1 l).imp (.mono h) (.mono h))
  have h1 : 1 ≤ lifecycle f → 1 ≤ lifecycle g := fun l => g1.2 ((f1.1 l).imp (.mono h) (.imp (.mono h) (.mono h)))
  omega

theorem arb_mono : arb f ≤ arb g :=
  Nat.le_of_not_lt fun hlt =>
    have ⟨j, hij, hj, hjb⟩ := (lt_arb_iff f (arb g)).1 hlt
    absurd ((lt_arb_iff g (arb g)).2 ⟨j, hij, hj, h _ _ hjb⟩) (Nat.lt_irrefl _)

end

/-- Settles O7: a step unblows no fuse, and each of the four fields only grows with the blown fuses. -/
theorem lifecycleAndCounterNeverGoBack : Obligations.LifecycleAndCounterNeverGoBack := by
  unfold Obligations.LifecycleAndCounterNeverGoBack
  intro s t hstep
  have hkept := (step_keeps hstep).2
  exact ⟨lifecycle_mono hkept, arb_mono hkept, fun _ hk => slotsRevoked_mono hkept hk, fun _ hb => debugPolicy_mono hkept hb⟩

end Sys2Proof.Proofs
end

section
/-! Fuse commands (R40 to R49, R51, R58): the first condition of R41 that fails gives the status; a command that is ready programs
what it names and reads it back, or reports PROGRAM_FAIL; a revocation that waits for an epoch takes effect once it may. -/

namespace Sys2Proof.Proofs

open Sys2Proof.Machine Sys2Proof.Safety Sys2Proof.Laws

/-! ### The nine rows -/

/-- The rows of the fuse commands, each with its code (Table 3.5). -/
def fuseRows : List ((FuseCmd → Instr) × Nat) :=
  [(.setOwner, 0x0010), (.programSlot, 0x0011), (.revokeSlot, 0x0012), (.advanceArb, 0x0013), (.tightenDebug, 0x0014),
    (.programPolicy, 0x0015), (.fuseSeal, 0x0016), (.retire, 0x0017), (.debugUnlock, 0x0018)]

theorem exec_fuseRow (c : FuseCmd) (s : State) : ∀ p ∈ fuseRows, exec (p.1 c) s = .next (fuseCommand p.2 c s) := by
  simp only [fuseRows, List.forall_mem_cons]
  exact ⟨rfl, rfl, rfl, rfl, rfl, rfl, rfl, rfl, rfl, nofun⟩

/-! ### The end of a command (R42, R43) -/

theorem raise_fus (e : Ev) (s : State) : (raise e s).fus = s.fus :=
  (raise_kept e s (.refl _ s) (covers_refl _)).frame .fus (by decide)

/-- A refused or failed fuse command is recorded (event 0x0103). -/
theorem fuseRefused_noted (code status : Nat) (s : State) :
    noted (raise { code := 0x0103, d0 := code, d1 := status } s) 0x0103 0 0 0 :=
  have hclass : (codeRow 0x0103 1).1 < 4 := by decide
  raise_noted _ s hclass

theorem fuseFinish_fus (code status : Nat) (s : State) : (fuseFinish code status s).fus =
    { s.fus with busy := false, status := status, nonce := Config.entropy s.free, digest := fuseDigest s.fus } := by
  unfold fuseFinish
  dsimp only
  split
  · rfl
  · rw [raise_fus]

theorem fuseFinish_busy (code status : Nat) (s : State) : (fuseFinish code status s).fus.busy = false := by rw [fuseFinish_fus]

theorem fuseFinish_status (code status : Nat) (s : State) : (fuseFinish code status s).fus.status = status := by
  rw [fuseFinish_fus]

theorem fuseFinish_words (code status : Nat) (s : State) : (fuseFinish code status s).fus.words = s.fus.words := by
  rw [fuseFinish_fus]

/-- The nonce is drawn anew (R42). -/
theorem fuseFinish_nonce (code status : Nat) (s : State) : ∃ n, (fuseFinish code status s).fus.nonce = Config.entropy n :=
  ⟨s.free, by rw [fuseFinish_fus]⟩

theorem fuseFinish_noted (code : Nat) {status : Nat} (h : status ≠ fsOk) (s : State) :
    noted (fuseFinish code status s) 0x0103 0 0 0 := by
  unfold fuseFinish
  dsimp only
  rw [if_neg h]
  exact fuseRefused_noted code status _

/-! ### The conditions of R41 -/

section
variable {s : State} {code : Nat} {c : FuseCmd}

/-- What `fuseReady` says, condition by condition. -/
theorem fuseReady_iff : fuseReady s code c = true ↔ s.fus.busy = false ∧ fuseFormatOk code c = true ∧ c.dieLo = dieLo s.fus ∧
    c.dieHi = dieHi s.fus ∧ c.nonce = s.fus.nonce ∧ fuseStateOk s code = true ∧ fuseOwnerOk s code c = true ∧
    fuseValueStatus s.fus code c = fsOk ∧ (fuseNeedsService code = false ∨ s.pnl.switch = 2) := by
  simp [fuseReady, fsOk, and_assoc]

theorem not_busy_of_ready (h : fuseReady s code c = true) : s.fus.busy = false := (fuseReady_iff.1 h).1

/-- Of a command that is ready only the signatures are left to check. -/
theorem fuseCheck_of_ready (h : fuseReady s code c = true) :
    fuseCheck s code c = if fuseSigOk code c = true then fsOk else fsSig := by
  obtain ⟨-, hformat, hlo, hhi, hnonce, hstate, howner, hvalue, hservice⟩ := fuseReady_iff.1 h
  have hpresent : (fuseNeedsService code && s.pnl.switch != 2) = false := by
    rcases hservice with hservice | hservice <;> simp [hservice]
  cases hsig : fuseSigOk code c <;> simp [fuseCheck, hformat, hlo, hhi, hnonce, hstate, howner, hvalue, hpresent, hsig]

/-! Each condition, where the ones before it hold. -/

theorem fuseCheck_of_format (hformat : fuseFormatOk code c = false) : fuseCheck s code c = fsBadFormat := by
  simp [fuseCheck, hformat]

section
variable (hformat : fuseFormatOk code c = true)
include hformat

theorem fuseCheck_of_die (hlo : c.dieLo ≠ dieLo s.fus) : fuseCheck s code c = fsWrongDie := by
  simp [fuseCheck, hformat, hlo]

variable (hlo : c.dieLo = dieLo s.fus) (hhi : c.dieHi = dieHi s.fus)
include hlo hhi

theorem fuseCheck_of_nonce (hnonce : c.nonce ≠ s.fus.nonce) : fuseCheck s code c = fsStaleNonce := by
  simp [fuseCheck, hformat, hlo, hhi, hnonce]

variable (hnonce : c.nonce = s.fus.nonce)
include hnonce

theorem fuseCheck_of_state (hstate : fuseStateOk s code = false) : fuseCheck s code c = fsState := by
  simp [fuseCheck, hformat, hlo, hhi, hnonce, hstate]

theorem fuseCheck_of_owner (hstate : fuseStateOk s code = true) (howner : fuseOwnerOk s code c = false) :
    fuseCheck s code c = fsOwner := by
  simp [fuseCheck, hformat, hlo, hhi, hnonce, hstate, howner]

end

/-! ### The four ways a command goes -/

theorem fuseCommand_of_busy (h : s.fus.busy = true) : fuseCommand code c s =
    raise { code := 0x0103, d0 := code, d1 := fsBusy }
      { s with fus := { s.fus with status := fsBusy, nonce := Config.entropy s.free }, free := s.free + 1 } := if_pos h

variable (hb : s.fus.busy = false)
include hb

theorem fuseCommand_of_refused {st : Nat} (hst : fuseCheck s code c = st) (h0 : st ≠ fsOk) :
    fuseCommand code c s = fuseFinish code st s := by
  subst hst
  simp [fuseCommand, hb, h0]

theorem fuseCommand_of_ok (hst : fuseCheck s code c = fsOk)
    (hwait : code = fcRevokeSlot → slotPrepared s (fld c.payload 0 1) = false) : fuseCommand code c s = fuseCommit code c s := by
  have hgo : ¬ (code = fcRevokeSlot ∧ slotPrepared s (fld c.payload 0 1) = true) := fun h => by simp [hwait h.1] at h
  simp [fuseCommand, hb, hst, hgo]

theorem fuseCommand_of_prepared (hst : fuseCheck s fcRevokeSlot c = fsOk) (hp : slotPrepared s (fld c.payload 0 1) = true) :
    fuseCommand fcRevokeSlot c s = { s with fus := { s.fus with busy := true, deferred := some (fld c.payload 0 1) } } := by
  simp [fuseCommand, hb, hst, hp]

end

/-! ### Programming (R41 step 9) -/

/-- The state once a command has programmed and read back its fuses. -/
def programmed (code : Nat) (c : FuseCmd) (s : State) : State :=
  (fuseWritten code c).foldl fuseReadBack (draw { s with fus := (fuseProgram s.free code c s.fus).1 })

theorem fuseReadBack_words (s : State) (w : Nat) : (fuseReadBack s w).fus.words = s.fus.words := by
  unfold fuseReadBack
  split
  · rfl
  · rw [raise_fus]
  · rw [raise_fus]

theorem programmed_words (code : Nat) (c : FuseCmd) (s : State) :
    (programmed code c s).fus.words = (fuseProgram s.free code c s.fus).1.words :=
  List.foldlRecOn (motive := fun u : State => u.fus.words = (fuseProgram s.free code c s.fus).1.words) _ _ rfl
    fun u hu w _ => (fuseReadBack_words u w).trans hu

theorem fuseAfter_fus (code : Nat) (s : State) : (fuseAfter code s).fus = s.fus := by
  unfold fuseAfter when'
  repeat' split
  case' isTrue.isTrue => rw [raise_fus]
  all_goals rfl

/-- The state that a command leaves whose fuses read back as asked for. -/
def succeeded (code : Nat) (c : FuseCmd) (s : State) : State := fuseFinish code fsOk (fuseAfter code (programmed code c s))

theorem succeeded_words (code : Nat) (c : FuseCmd) (s : State) :
    (succeeded code c s).fus.words = (fuseProgram s.free code c s.fus).1.words := by
  rw [succeeded, fuseFinish_fus, fuseAfter_fus, programmed_words]

/-- What reads by the fuse words alone reads after the command as it was programmed. -/
theorem succeeded_reads {code : Nat} {c : FuseCmd} {s : State} {P : Fus → Prop} (hP : ∀ f, P f ↔ P { words := f.words }) :
    P (succeeded code c s).fus ↔ P (fuseProgram s.free code c s.fus).1 := by
  rw [hP, succeeded_words, ← hP]

theorem fuseCommit_of_ok {code : Nat} {c : FuseCmd} {s : State} (h : (fuseProgram s.free code c s.fus).2 = true) :
    fuseCommit code c s = succeeded code c s := if_pos h

theorem fuseCommit_of_fail {code : Nat} {c : FuseCmd} {s : State} (h : (fuseProgram s.free code c s.fus).2 = false) :
    fuseCommit code c s = fuseFinish code fsProgramFail (programmed code c s) := if_neg (by rw [h]; decide)

/-- How a command ends that passed its checks: OK with its effect, or PROGRAM_FAIL with the event, under a new nonce. -/
def Ended (effect : State → Prop) (t : State) : Prop :=
  t.fus.busy = false ∧ (∃ n, t.fus.nonce = Config.entropy n) ∧
  (t.fus.status = fsOk ∧ effect t ∨ t.fus.status = fsProgramFail ∧ noted t 0x0103 0 0 0)

theorem fuseCommit_ended {code : Nat} {c : FuseCmd} {s : State} {effect : State → Prop}
    (heffect : (fuseProgram s.free code c s.fus).2 = true → effect (succeeded code c s)) :
    Ended effect (fuseCommit code c s) := by
  cases hread : (fuseProgram s.free code c s.fus).2 with
  | true =>
    rw [fuseCommit_of_ok hread]
    exact ⟨fuseFinish_busy code _ _, fuseFinish_nonce code _ _, .inl ⟨fuseFinish_status code _ _, heffect hread⟩⟩
  | false =>
    rw [fuseCommit_of_fail hread]
    exact ⟨fuseFinish_busy code _ _, fuseFinish_nonce code _ _,
      .inr ⟨fuseFinish_status code _ _, fuseFinish_noted code (by decide) _⟩⟩

section
variable {s : State} {code : Nat} {c : FuseCmd} (hready : fuseReady s code c = true)
  (hwait : code = fcRevokeSlot → slotPrepared s (fld c.payload 0 1) = false)
include hready hwait

/-- A command that is ready ends with SIG, or as its programming does. -/
theorem fuseCommand_done {effect : State → Prop}
    (heffect : (fuseProgram s.free code c s.fus).2 = true → effect (succeeded code c s)) :
    FuseDone s code c effect (fuseCommand code c s) := by
  have hb := not_busy_of_ready hready
  have hcheck := fuseCheck_of_ready hready
  cases hsig : fuseSigOk code c with
  | false =>
    rw [hsig, if_neg (by decide)] at hcheck
    rw [fuseCommand_of_refused hb hcheck (by decide)]
    exact ⟨fuseFinish_busy code _ s, fuseFinish_nonce code _ s,
      fun _ => ⟨fuseFinish_status code _ s, fuseFinish_words code _ s, fuseFinish_noted code (by decide) s⟩,
      fun h => absurd (hsig.symm.trans h) (by decide)⟩
  | true =>
    rw [hsig, if_pos rfl] at hcheck
    rw [fuseCommand_of_ok hb hcheck hwait]
    obtain ⟨hbusy, hnonce, hend⟩ := fuseCommit_ended heffect
    exact ⟨hbusy, hnonce, fun h => absurd (hsig.symm.trans h) (by decide), fun _ => hend⟩

/-- The same for an effect that is a matter of what the fuse words read. -/
theorem fuseCommand_done_reads {P : Fus → Prop} (hP : ∀ f, P f ↔ P { words := f.words })
    (hread : (fuseProgram s.free code c s.fus).2 = true → P (fuseProgram s.free code c s.fus).1) :
    FuseDone s code c (fun t => P t.fus) (fuseCommand code c s) :=
  fuseCommand_done hready hwait fun h => (succeeded_reads hP).2 (hread h)

end

/-! ### What reads back -/

section
variable {n : Nat} {c : FuseCmd} {f : Fus}

theorem setOwner_reads (h : (fuseProgram n 0x0010 c f).2 = true) : fuseHash (fuseProgram n 0x0010 c f).1 8 = fuseKeyHash c :=
  eq_of_beq (Bool.and_eq_true_iff.1 h).2

theorem programSlot_reads (h : (fuseProgram n 0x0011 c f).2 = true) :
    fuseHash (fuseProgram n 0x0011 c f).1 (18 + 6 * fld c.payload 0 1) = slice c.payload 8 48 :=
  eq_of_beq (Bool.and_eq_true_iff.1 h).2

theorem revokeSlot_reads (h : (fuseProgram n 0x0012 c f).2 = true) :
    bit (slotsRevoked (fuseProgram n 0x0012 c f).1) (fld c.payload 0 1) = true := h

theorem advanceArb_reads (h : (fuseProgram n 0x0013 c f).2 = true) : fld c.payload 0 1 ≤ arb (fuseProgram n 0x0013 c f).1 :=
  of_decide_eq_true h

theorem tightenDebug_reads (h : (fuseProgram n 0x0014 c f).2 = true) :
    debugPolicy (fuseProgram n 0x0014 c f).1 &&& fld c.payload 0 2 = fld c.payload 0 2 := eq_of_beq h

theorem programPolicy_reads (h : (fuseProgram n 0x0015 c f).2 = true) :
    fuseBits (fuseProgram n 0x0015 c f).1 (fld c.payload 0 1) = BitVec.ofNat 64 (fld c.payload 8 8) :=
  eq_of_beq (Bool.and_eq_true_iff.1 h).2

theorem seal_reads (h : (fuseProgram n 0x0016 c f).2 = true) :
    lifecycle (fuseProgram n 0x0016 c f).1 = 2 ∧ debugPolicy (fuseProgram n 0x0016 c f).1 &&& 0x41 = 0x41 :=
  have ⟨hlife, hdebug⟩ := Bool.and_eq_true_iff.1 h
  ⟨eq_of_beq hlife, eq_of_beq hdebug⟩

theorem retire_reads (h : (fuseProgram n 0x0017 c f).2 = true) : lifecycle (fuseProgram n 0x0017 c f).1 = 3 := eq_of_beq h

end

/-! ### Effects beyond the fuses -/

/-- SEAL latches the RWL values (R11, Table 3.3). -/
theorem seal_latches (c : FuseCmd) (s : State) :
    (succeeded 0x0016 c s).lif.latched = some (s.hst.ideRequired, s.hst.poisonInject) := rfl

/-- RETIRE leaves no media key that unwraps (Table 3.3). -/
theorem retire_unwraps (c : FuseCmd) (s : State) :
    ∀ b ∈ (succeeded 0x0017 c s).hrd.bays, ∀ d, b.2.drey = some d → d.unwraps = false := by
  intro b hb d hd
  obtain ⟨b₀, -, rfl⟩ := List.mem_map.1 hb
  obtain ⟨d₀, -, rfl⟩ := Option.map_eq_some_iff.1 hd
  rfl

/-- The bits of the mask of lifted debug bits: 0 is bit 1 of the policy, 3 is bit 5 (Table 3.8). -/
theorem liftedMask_bits (b1 b2 b3 b5 : Bool) : let m := BitVec.ofNat 4 (b2n b1 + 2 * b2n b2 + 4 * b2n b3 + 8 * b2n b5)
    m.getLsbD 0 = b1 ∧ m.getLsbD 3 = b5 := by
  revert b1 b2 b3 b5; decide

/-- DEBUG_UNLOCK programs no fuse and lifts the debug bits it names, beside those lifted before (R48). -/
theorem debugUnlock_lifts (c : FuseCmd) (s : State) : let t := succeeded 0x0018 c s
    t.fus.words = s.fus.words ∧ (∀ i, s.fus.lifted.getLsbD i = true → t.fus.lifted.getLsbD i = true) ∧
    (t.fus.lifted.getLsbD 0 = (s.fus.lifted.getLsbD 0 || bit (fld c.payload 0 2) 1)) ∧
    (t.fus.lifted.getLsbD 3 = (s.fus.lifted.getLsbD 3 || bit (fld c.payload 0 2) 5)) := by
  intro t
  have hlifted : t.fus.lifted = s.fus.lifted ||| BitVec.ofNat 4 (b2n (bit (fld c.payload 0 2) 1) +
      2 * b2n (bit (fld c.payload 0 2) 2) + 4 * b2n (bit (fld c.payload 0 2) 3) + 8 * b2n (bit (fld c.payload 0 2) 5)) := by
    rw [show t.fus = _ from fuseFinish_fus _ _ _, fuseAfter_fus]
    rfl
  obtain ⟨h0, h3⟩ := liftedMask_bits (bit (fld c.payload 0 2) 1) (bit (fld c.payload 0 2) 2) (bit (fld c.payload 0 2) 3)
    (bit (fld c.payload 0 2) 5)
  refine ⟨succeeded_words 0x0018 c s, fun i hi => ?_, ?_, ?_⟩
  · rw [hlifted, BitVec.getLsbD_or, hi, Bool.true_or]
  · rw [hlifted, BitVec.getLsbD_or, h0]
  · rw [hlifted, BitVec.getLsbD_or, h3]

/-! ### The statements -/

/-- Settles O17. Every command that is ready goes through `fuseCommand_done`; what it adds is what its own programming reads
back, and for SEAL, RETIRE and DEBUG_UNLOCK the effect beyond the fuse words. -/
theorem fuseCommandsProgram : Obligations.FuseCommandsProgram := by
  unfold Obligations.FuseCommandsProgram
  have other {code : Nat} {p : Prop} (h : code ≠ fcRevokeSlot) : code = fcRevokeSlot → p := fun e => absurd e h
  refine ⟨?owner, ?slot, ?revoke, ?counter, ?debug, ?policy, ?sealed, ?retired, ?unlock⟩
  case owner =>
    exact fun s c h => ⟨_, rfl, fuseCommand_done_reads h (other (by decide)) (P := fun f => fuseHash f 8 = fuseKeyHash c)
      (fun _ => .rfl) setOwner_reads⟩
  case slot =>
    exact fun s c h => ⟨_, rfl, fuseCommand_done_reads h (other (by decide))
      (P := fun f => fuseHash f (18 + 6 * fld c.payload 0 1) = slice c.payload 8 48) (fun _ => .rfl) programSlot_reads⟩
  case revoke =>
    exact fun s c h hp => ⟨_, rfl, fuseCommand_done_reads h (fun _ => hp)
      (P := fun f => bit (slotsRevoked f) (fld c.payload 0 1) = true) (fun _ => .rfl) revokeSlot_reads⟩
  case counter =>
    exact fun s c h => ⟨_, rfl, fuseCommand_done_reads h (other (by decide)) (P := fun f => fld c.payload 0 1 ≤ arb f)
      (fun _ => .rfl) advanceArb_reads⟩
  case debug =>
    exact fun s c h => ⟨_, rfl, fuseCommand_done_reads h (other (by decide))
      (P := fun f => debugPolicy f &&& fld c.payload 0 2 = fld c.payload 0 2) (fun _ => .rfl) tightenDebug_reads⟩
  case policy =>
    exact fun s c h => ⟨_, rfl, fuseCommand_done_reads h (other (by decide))
      (P := fun f => fuseBits f (fld c.payload 0 1) = BitVec.ofNat 64 (fld c.payload 8 8)) (fun _ => .rfl) programPolicy_reads⟩
  case sealed =>
    refine fun s c h => ⟨_, rfl, fuseCommand_done h (other (by decide)) fun hread => ?_⟩
    obtain ⟨hlife, hdebug⟩ := (succeeded_reads (P := fun f => lifecycle f = 2 ∧ debugPolicy f &&& 0x41 = 0x41)
      (fun _ => .rfl)).2 (seal_reads hread)
    exact ⟨hlife, hdebug, seal_latches c s⟩
  case retired =>
    exact fun s c h => ⟨_, rfl, fuseCommand_done h (other (by decide)) fun hread =>
      ⟨(succeeded_reads (P := fun f => lifecycle f = 3) (fun _ => .rfl)).2 (retire_reads hread), retire_unwraps c s⟩⟩
  case unlock =>
    exact fun s c h => ⟨_, rfl, fuseCommand_done h (other (by decide)) fun _ => debugUnlock_lifts c s⟩

/-! ### Refusals and the revocation that waits (R41, R43, R58) -/

/-- How a refused fuse command ends: its status, the event, a new nonce, and the fuses and BUSY as they were. -/
def Refused (s : State) (st : Nat) (t : State) : Prop :=
  t.fus.status = st ∧ t.fus.words = s.fus.words ∧ t.fus.busy = s.fus.busy ∧ (∃ n, t.fus.nonce = Config.entropy n) ∧
  noted t 0x0103 0 0 0

theorem fuseCommand_refused {s : State} {code st : Nat} {c : FuseCmd} (hb : s.fus.busy = false) (hst : fuseCheck s code c = st)
    (h0 : st ≠ fsOk) : Refused s st (fuseCommand code c s) := by
  rw [fuseCommand_of_refused hb hst h0]
  exact ⟨fuseFinish_status code st s, fuseFinish_words code st s, (fuseFinish_busy code st s).trans hb.symm,
    fuseFinish_nonce code st s, fuseFinish_noted code h0 s⟩

theorem fuseCommand_busy {s : State} (code : Nat) (c : FuseCmd) (hb : s.fus.busy = true) :
    Refused s fsBusy (fuseCommand code c s) := by
  rw [fuseCommand_of_busy hb, Refused, raise_fus]
  exact ⟨rfl, rfl, rfl, ⟨_, rfl⟩, fuseRefused_noted _ _ _⟩

theorem fld_byte {k : Nat} (hk : k < 256) (l : List Byte) : fld (BitVec.ofNat 8 k :: l) 0 1 = k := by
  simp [fld, slice, leNat, Nat.mod_eq_of_lt hk]

section
variable {s : State} {k : Nat} (hwaits : s.fus.deferred = some k)
include hwaits

/-- Once no epoch holds its slot, a revocation that waited is programmed as the command would have been. -/
theorem revokeDeferred_of_ended (hk : k < 4) (hended : slotPrepared s k = false) : ∃ c : FuseCmd, fld c.payload 0 1 = k ∧
    revokeDeferred s = fuseCommit fcRevokeSlot c { s with fus := { s.fus with deferred := none } } := by
  simp only [revokeDeferred, hwaits, hended]
  exact ⟨_, fld_byte (show k < 256 by omega) _, rfl⟩

theorem revokeDeferred_of_prepared (hp : slotPrepared s k = true) : revokeDeferred s = s := by
  simp only [revokeDeferred, hwaits, hp, if_true]

end

theorem revokeDeferred_of_none {s : State} (h : s.fus.deferred = none) : revokeDeferred s = s := by
  simp only [revokeDeferred, h]

/-- Programming a revocation leaves what waits. -/
theorem fuseCommit_revoke_deferred (c : FuseCmd) (s : State) :
    (fuseCommit fcRevokeSlot c s).fus.deferred = s.fus.deferred := by
  cases hread : (fuseProgram s.free fcRevokeSlot c s.fus).2 with
  | true => rw [fuseCommit_of_ok hread, succeeded, fuseFinish_fus, fuseAfter_fus]; rfl
  | false => rw [fuseCommit_of_fail hread, fuseFinish_fus]; rfl

/-- Settles O18. The conditions of R41 are read in order by the `fuseCheck_of_` lemmas; a revocation that waited ends as its
programming does. -/
theorem fuseCommandsRefused : Obligations.FuseCommandsRefused := by
  unfold Obligations.FuseCommandsRefused
  refine ⟨fun p hp s c => ?refused, fun s c hready hprep hsig => ?waits, fun s k hwaits hk hended => ?ended,
    fun s k hwaits hprep => congrArg _ (revokeDeferred_of_prepared hwaits hprep),
    fun s hnone => congrArg _ (revokeDeferred_of_none hnone)⟩
  case refused =>
    have ends {st : Nat} (h : Refused s st (fuseCommand p.2 c s)) : Answers (p.1 c) s (Refused s st) :=
      ⟨_, exec_fuseRow c s p hp, h⟩
    refine ⟨fun hb => ends (fuseCommand_busy p.2 c hb), fun hb hf => ?_, fun hb hf hlo => ?_, fun hb hf hlo hhi hn => ?_,
      fun hb hf hlo hhi hn hs => ?_, fun hb hf hlo hhi hn hs ho => ?_⟩
    · exact ends (fuseCommand_refused hb (fuseCheck_of_format hf) (by decide))
    · exact ends (fuseCommand_refused hb (fuseCheck_of_die hf hlo) (by decide))
    · exact ends (fuseCommand_refused hb (fuseCheck_of_nonce hf hlo hhi hn) (by decide))
    · exact ends (fuseCommand_refused hb (fuseCheck_of_state hf hlo hhi hn hs) (by decide))
    · exact ends (fuseCommand_refused hb (fuseCheck_of_owner hf hlo hhi hn hs ho) (by decide))
  case waits =>
    have hcheck : fuseCheck s fcRevokeSlot c = fsOk := (fuseCheck_of_ready hready).trans (if_pos hsig)
    exact congrArg _ (fuseCommand_of_prepared (not_busy_of_ready hready) hcheck hprep)
  case ended =>
    obtain ⟨c, hslot, hcommit⟩ := revokeDeferred_of_ended hwaits hk hended
    refine ⟨_, rfl, ?_⟩
    rw [hcommit]
    have hdone := fuseCommit_ended (code := fcRevokeSlot) (c := c) (s := { s with fus := { s.fus with deferred := none } })
      (effect := fun t => bit (slotsRevoked t.fus) k = true) fun hread =>
        (succeeded_reads (P := fun f => bit (slotsRevoked f) k = true) fun _ => .rfl).2 (hslot ▸ revokeSlot_reads hread)
    obtain ⟨hbusy, -, hend⟩ := hdone
    exact ⟨fuseCommit_revoke_deferred c _, hbusy, hend.imp_right And.left⟩

end Sys2Proof.Proofs
end

section
/-! Writes of the buffer windows (R12, R56, R73): the fuse command buffer, the load window, and the pages of an LD hold the
bytes written, least significant first. -/

namespace Sys2Proof.Proofs

open Sys2Proof.Machine Sys2Proof.Safety

/-! ### A little-endian value in a memory -/

theorem length_leBytes (n v : Nat) : (leBytes n v).length = n := by
  induction n generalizing v with
  | zero => rfl
  | succ n ih => rw [leBytes, List.length_cons, ih]

theorem getD_leBytes {n i : Nat} (v : Nat) (h : i < n) : (leBytes n v).getD i 0 = BitVec.ofNat 8 (v / 2 ^ (8 * i)) := by
  induction n generalizing v i with
  | zero => cases h
  | succ n ih =>
    rw [leBytes]
    cases i with
    | zero => simp
    | succ i =>
      rw [List.getD_cons_succ, ih (v / 256) (by omega), Nat.div_div_eq_div_mul, Nat.mul_succ, Nat.add_comm, Nat.pow_add]

/-- A memory has the `n` bytes of a value from an address on, and every other byte as in the memory before. -/
def Stored (n v : Nat) (a b : Memory) (at0 : Nat) : Prop :=
  (∀ i < n, mget b (at0 + i) = BitVec.ofNat 8 (v / 2 ^ (8 * i))) ∧ ∀ c, c < at0 ∨ at0 + n ≤ c → mget b c = mget a c

theorem stored_mwrite (n v at0 : Nat) {m : Memory} (hm : memWf m = true) : Stored n v m (mwrite at0 (leBytes n v) m) at0 := by
  have hlen := length_leBytes n v
  constructor
  · intro i hi
    rw [mget_mwrite_inside _ at0 i hm (by rwa [hlen]), getD_leBytes v hi]
  · intro c hc
    exact mget_mwrite_other _ at0 c m (by rwa [hlen])

/-! ### The windows -/

theorem bar2Write_fuseBuffer {off : Nat} (size : Nat) (v : Word) (s : State) (hlo : 0x01010000 ≤ off) (hhi : off < 0x01014000) :
    bar2Write off size v s =
      { s with fus := { s.fus with buf := mwrite (off - 0x01010000) (leBytes size v.toNat) s.fus.buf } } := if_pos ⟨hlo, hhi⟩

theorem bar2Write_loadWindow {off : Nat} (size : Nat) (v : Word) (s : State) (hlo : 0x02800000 ≤ off) (hhi : off < 0x02900000) :
    bar2Write off size v s =
      { s with vq := { s.vq with
          buf := mwrite (s.vq.page * 0x100000 + (off - 0x02800000)) (leBytes size v.toNat) s.vq.buf } } := by
  rw [bar2Write, if_neg (by omega), if_pos ⟨hlo, hhi⟩]; rfl

/-- The standard's pages of BAR0 hold what is written (log entry 40). -/
theorem bar0Write_pages {off : Nat} (ld size : Nat) (v : Word) (s : State) (hlo : 0x20000 ≤ off) (hhi : off < 0x40000) :
    bar0Write ld off size v s = onLd ld (fun l => { l with pages := mwrite off (leBytes size v.toNat) l.pages }) s := by
  unfold bar0Write
  rw [if_neg (by omega), if_neg (by omega), if_pos ⟨hlo, hhi⟩]

theorem ldOf_onLd_same (ld : Nat) (f : Ld → Ld) (s : State) : ldOf (onLd ld f s).hst ld = f (ldOf s.hst ld) :=
  tget_tmod_same _ ld f s.hst.lds

theorem ldOf_onLd_other {ld k : Nat} (h : k ≠ ld) (f : Ld → Ld) (s : State) : ldOf (onLd ld f s).hst k = ldOf s.hst k :=
  tget_tmod_other _ _ h f s.hst.lds

theorem onLd_same (ld : Nat) (f : Ld → Ld) (s : State) {b : Block} (hb : b ≠ .hst) : b.same s (onLd ld f s) := by
  cases b
  case hst => exact absurd rfl hb
  all_goals rfl

/-- With no IDE required every unit that is powered and not in DORMOUSE takes writes to BAR0 (R115, R377). -/
theorem barTaken_of_open {s : State} (ld : Nat) (hide : s.hst.ideRequired = false) (hoff : s.uni.st ≠ .off)
    (hstandby : s.uni.st ≠ .standby) (hdorm : s.uni.st ≠ .dormouse) : barTaken s ld = true := by
  simp [barTaken, ideOk, hide, hoff, hstandby, hdorm]

theorem access_bar0_write {s : State} {ld off size : Nat} (v : Word) (hoff : s.uni.st ≠ .off) (ha : accessOk off size = true)
    (ht : barTaken s ld = true) : access (.bar0 ld) off size true v s = bar0Write ld off size v s := by
  rw [access, if_neg hoff, ha]
  change bar0Access ld off size true v s = _
  rw [bar0Access, if_pos rfl, ht]
  rfl

/-- Settles O21. Each window is one `mwrite` of the value's bytes, of which `stored_mwrite` says what it stores. -/
theorem bufferWindowsHoldBytes : Obligations.BufferWindowsHoldBytes := by
  unfold Obligations.BufferWindowsHoldBytes
  intro s off size v hoff hstandby hdorm h0 hsize halign
  have ha := (accessOk_iff off size).2 ⟨hsize, halign⟩
  have hbar2 {b : Nat} (hb : (b, 0) ∈ hostedBlocks) (hblk : blockOf off = b) :
      exec (.registerWrite .bar2 off size v) s = .next (bar2Write off size v s) := by
    have hon : blockOn s (blockOf off) = true := hblk ▸ (blockOn_of_mem_hostedBlocks s hb).trans h0
    rw [exec_registerWrite, access_bar2 true v hoff ha, bar2Access_write size v hdorm hon]
  refine ⟨fun hlo hhi hwf => ?fuses, fun hlo hhi hwf => ?load, fun ld hide hlo hhi hwf => ?pages⟩
  case fuses =>
    refine ⟨_, hbar2 (b := 1) (by decide) (by unfold blockOf; omega), ?_⟩
    rw [bar2Write_fuseBuffer size v s hlo hhi]
    exact ⟨stored_mwrite size v.toNat _ hwf, rfl⟩
  case load =>
    refine ⟨_, hbar2 (b := 2) (by decide) (by unfold blockOf; omega), ?_⟩
    rw [bar2Write_loadWindow size v s hlo hhi]
    exact ⟨stored_mwrite size v.toNat _ hwf, rfl⟩
  case pages =>
    have ht := barTaken_of_open ld hide hoff hstandby hdorm
    refine ⟨_, exec_registerWrite _ _ _ _ s, ?_⟩
    rw [access_bar0_write v hoff ha ht, bar0Write_pages ld size v s hlo hhi]
    dsimp only
    rw [ldOf_onLd_same]
    exact ⟨stored_mwrite size v.toNat off hwf, fun k hk => ldOf_onLd_other hk _ s, fun b hb => onLd_same ld _ s hb⟩

end Sys2Proof.Proofs
end

section
/-! Distribution of an image (R69) to a unit that is unreachable (R272): what the distributing unit sends there. -/

namespace Sys2Proof.Proofs

open Sys2Proof.Machine Sys2Proof.Safety

/-- A UNIT record (Table 4.7): it names a unit, with die identity 0 and no Hoard. -/
def namingRecord (unit : Nat) : Record := { typ := 0x02, version := 1, inst := 0, scope := unit, body := zs 17 }

/-- The image of two units, with the records that name them. -/
def namingImage : Image := { twoUnitImage with records := twoUnitImage.records ++ [namingRecord 0, namingRecord 1] }

/-- Unit 0 in SERVING, with its port to unit 1 up. Nothing from unit 1 has arrived for 1 s: it is unreachable (R272). -/
def deafPeerUnit : State :=
  { servingUnit with
    vq := { servingUnit.vq with active := some namingImage }
    wrn := { servingUnit.wrn with unreachable := [1] } }

/-- A distributed VALIDATE of the first 8 bytes of the load buffer. -/
def distributedLoad : Instr := .validate 8 true

/-- The verdict of the unit itself on these bytes. -/
def loadVerdict : Verdict × Option Image := ownVerdict (mread deafPeerUnit.vq.buf 0 8) 0 deafPeerUnit

theorem deafPeer_named : 1 ∈ namedUnits deafPeerUnit.vq.active loadVerdict.2 := by decide +kernel

theorem deafPeer_outPort : (outPort deafPeerUnit 1).isSome = true := by decide +kernel

theorem distributedLoad_sends_nothing :
    (after distributedLoad deafPeerUnit).out = [] ∧ (after distributedLoad deafPeerUnit).wrn.transit.isEmpty = true := by
  decide +kernel

/-- Refutes O56 in the clause of a distributed load. The clause asks that every other named unit with a usable port on its route
is sent the first part, but a message to an unreachable unit is not sent, and a unit from which nothing has arrived for 1 s is
unreachable while the port to it is usable (R272). -/
theorem not_imagesLoad : ¬ Obligations.ImagesLoad := by
  unfold Obligations.ImagesLoad
  rintro ⟨hload, -⟩
  obtain ⟨-, -, -, hfits⟩ :=
    hload deafPeerUnit 8 0 true distributedLoad (by decide +kernel) (by decide) (.inl ⟨rfl, rfl⟩)
  obtain ⟨-, hdistributed⟩ := hfits loadVerdict.1 loadVerdict.2 rfl (by decide) (by decide) rfl
  have hanswer : Answers distributedLoad deafPeerUnit _ :=
    hdistributed (.inl rfl) (by decide) rfl 1 deafPeer_named (by decide) deafPeer_outPort
  obtain ⟨-, -, -, hsent⟩ := after_of_answers hanswer
  obtain ⟨hout, htransit⟩ := distributedLoad_sends_nothing
  exact not_sentTo_of_silent hout htransit _ _ hsent

end Sys2Proof.Proofs
end

section
/-! The frame of every command (R97, R55, R73, R33, R381, R125, R412): the part of `exec_kept` about the blocks outside a row's
footprint. -/

namespace Sys2Proof.Proofs

open Sys2Proof.Machine Sys2Proof.Safety

/-- Settles O4, by the frame of the law of each row's meaning. -/
theorem commandsChangeOnlyTheirBlocks : Obligations.CommandsChangeOnlyTheirBlocks := by
  unfold Obligations.CommandsChangeOnlyTheirBlocks
  exact fun c s t hexec => ((exec_kept c s).next t hexec).frame

end Sys2Proof.Proofs
end

section
/-! What every operation that goes on with waiting work leaves of three things (R86, R89, R418): the merge windows that are open,
the states of the engines, and the physical codec engines behind the logical ones. One lemma per definition of the model that
could touch one of the three, from any earlier state; a definition that touches none of their blocks is covered by its law
`Kept`. -/

namespace Sys2Proof.Proofs

-- The lemmas of this file are checked one after another, with few threads at a time.
set_option Elab.async false

open Sys2Proof.Machine Sys2Proof.Safety Sys2Proof.Laws

/-- From `s` to `t` every open merge window stays open, every engine keeps its state, and the logical codec engines keep their
physical ones. -/
structure Steady (s t : State) : Prop where
  noted : ∀ {c n k i}, noted s c n k i → noted t c n k i
  engine : ∀ e, (engOf t.eng e).st = (engOf s.eng e).st
  codec : t.cdc.engMap = s.cdc.engMap

theorem Steady.refl (s : State) : Steady s s := ⟨id, fun _ => rfl, rfl⟩

section
variable {s0 s t : State}

theorem Steady.trans (h : Steady s0 s) (g : Steady s t) : Steady s0 t :=
  ⟨fun w => g.noted (h.noted w), fun e => (g.engine e).trans (h.engine e), g.codec.trans h.codec⟩

/-- An update that writes none of the three. -/
theorem Steady.upd (h : Steady s0 s) (hf : t.flt.opened = s.flt.opened := by rfl) (he : t.eng = s.eng := by rfl)
    (hc : t.cdc.engMap = s.cdc.engMap := by rfl) : Steady s0 t where
  noted w := by obtain ⟨x, hx, hcode⟩ := h.noted w; exact ⟨x, hf ▸ hx, hcode⟩
  engine e := by rw [he]; exact h.engine e
  codec := hc.trans h.codec

/-- An operation that leaves FLT, ENG and CDC as they are. -/
theorem Steady.of_kept {cv : List Block} (h : Steady s0 s) (hk : Kept cv s t) (hf : .flt ∉ cv := by decide)
    (he : .eng ∉ cv := by decide) (hc : .cdc ∉ cv := by decide) : Steady s0 t :=
  h.upd (congrArg Flt.opened (hk.frame .flt hf)) (hk.frame .eng he) (congrArg Cdc.engMap (hk.frame .cdc hc))

theorem Steady.ite {a b : State} {p : Prop} [Decidable p] (ha : Steady s0 a) (hb : Steady s0 b) :
    Steady s0 (if p then a else b) := by
  split <;> assumption

theorem Steady.foldl {α : Type} {f : State → α → State} {l : List α} (h : Steady s0 s)
    (hf : ∀ u x, Steady s0 u → Steady s0 (f u x)) : Steady s0 (l.foldl f s) := by
  induction l generalizing s with
  | nil => exact h
  | cons x xs ih => exact ih (hf s x h)

theorem Steady.foldl_fst {α β : Type} {f : State × β → α → State × β} {l : List α} {p : State × β}
    (h : Steady s0 p.1) (hf : ∀ q x, Steady s0 q.1 → Steady s0 (f q x).1) : Steady s0 (l.foldl f p).1 := by
  induction l generalizing p with
  | nil => exact h
  | cons x xs ih => exact ih (hf p x h)

/-! ### Engines and events -/

/-- A change of every engine that leaves its state. -/
theorem tget_map_st {f : Nat × Engine → Nat × Engine} (hk : ∀ p, (f p).1 = p.1) (hf : ∀ p, (f p).2.st = p.2.st)
    (l : Tbl Engine) (e : Nat) : (tget ({} : Engine) (l.map f) e).st = (tget ({} : Engine) l e).st := by
  induction l with
  | nil => rfl
  | cons p l ih =>
    have hcons (q : Nat × Engine) (l : Tbl Engine) : tget ({} : Engine) (q :: l) e = if q.1 = e then q.2 else tget {} l e := by
      rw [tget, tget, tfind]
      split <;> rfl
    rw [List.map_cons, hcons, hcons, hk p]
    split
    · exact hf p
    · exact ih

theorem Steady.engines {f : Nat × Engine → Nat × Engine} (h : Steady s0 s) (he : t.eng.engines = s.eng.engines.map f)
    (hk : ∀ p, (f p).1 = p.1) (hf : ∀ p, (f p).2.st = p.2.st) (hflt : t.flt = s.flt) (hcdc : t.cdc = s.cdc) : Steady s0 t where
  noted w := by obtain ⟨x, hx, hcode⟩ := h.noted w; exact ⟨x, hflt ▸ hx, hcode⟩
  engine e := by rw [engOf, he, tget_map_st hk hf s.eng.engines e]; exact h.engine e
  codec := (congrArg Cdc.engMap hcdc).trans h.codec

theorem record_steady (v : Ev) (h : Steady s0 s) : Steady s0 (record v s) where
  noted w := record_keeps v (h.noted w)
  engine e := by rw [record_eng]; exact h.engine e
  codec := by rw [record_cdc]; exact h.codec

/-- An event without a disposition. -/
theorem note_steady (v : Ev) (h : Steady s0 s) (hd : (codeRow v.code v.cls).2 = 0 := by with_unfolding_all rfl) :
    Steady s0 (raise v s) := by
  rw [raise_eq_record v s hd]
  exact record_steady v h

/-! ### Staging -/

theorem poisonFault_steady {x : ExtRec} {st b a : Nat} {f : DecFault} (h : Steady s0 s) :
    Steady s0 (poisonFault x st b a f s) := by
  have hcodec : (codecFault st x.tenant b f 3 s).cdc.engMap = s.cdc.engMap := by
    simp only [codecFault]
    split <;> split <;> rfl
  exact note_steady _ (h.upd rfl rfl hcodec)

theorem poisonFaults_steady {x : ExtRec} {st b a : Nat} {ks : List Nat} {n : Nat} (h : Steady s0 s) :
    Steady s0 (poisonFaults x st b a ks n s) := by
  induction n generalizing s with
  | zero => exact h
  | succ n ih =>
    unfold poisonFaults
    split
    · exact h
    · exact ih (poisonFault_steady h)

theorem countEnc_steady {st b n : Nat} (h : Steady s0 s) : Steady s0 (countEnc st b n s) := h.upd
theorem countDec_steady {st b n : Nat} (h : Steady s0 s) : Steady s0 (countDec st b n s) := h.upd
theorem markDirty_steady {t b : Nat} (h : Steady s0 s) : Steady s0 (markDirty t b s) :=
  h.of_kept (markDirty_kept t b s (.refl _ s) (covers_refl _))
theorem enqueueStrips_steady {q a : Nat} {ks : List Nat} {w : Bool} (h : Steady s0 s) : Steady s0 (enqueueStrips q a ks w s) :=
  h.of_kept (enqueueStrips_kept q a ks w s (.refl _ s) (covers_refl _))

theorem writeback_steady {t b : Nat} {ks : List Nat} (h : Steady s0 s) : Steady s0 (writeback t b ks s) := by
  unfold writeback
  split
  · extract_lets ws u r x st crc d1 d2 d3 out x2 c1 u1 u2
    have hu : Steady s0 u := poisonFaults_steady h
    have hu1 : Steady s0 u1 := hu.upd
    exact markDirty_steady (enqueueStrips_steady (hu1.foldl fun _ _ h => countEnc_steady h))
  · exact h

theorem flushBlock_steady {t b : Nat} (h : Steady s0 s) : Steady s0 (flushBlock t b s) := by
  unfold flushBlock writebackDone
  split
  · exact h
  · refine Steady.ite h ?_
    split
    · exact writeback_steady h
    · exact (writeback_steady h).upd

theorem flushTile_steady {t tile : Nat} (h : Steady s0 s) : Steady s0 (flushTile t tile s) :=
  h.foldl fun _ _ h => flushBlock_steady h

theorem flushRange_steady {t lo hi : Nat} (h : Steady s0 s) : Steady s0 (flushRange t lo hi s) :=
  h.foldl fun _ _ h => flushBlock_steady h

theorem dropTile_steady {t tile : Nat} (h : Steady s0 s) : Steady s0 (dropTile t tile s) := h.upd

theorem evictOne_steady (h : Steady s0 s) : Steady s0 (evictOne s) := by
  unfold evictOne
  split
  · exact h.upd
  · split
    · exact (flushBlock_steady h).upd
    · exact h

theorem entryFor_steady {t b k : Nat} (h : Steady s0 s) : Steady s0 (entryFor t b k s).1 := by
  unfold entryFor makeRoom
  split
  · exact h
  · exact Steady.ite h (Steady.ite (evictOne_steady h) h)

theorem stageWrite_steady {t l st : Nat} {be : BitVec 64} {data : List Byte} {p : Bool} (h : Steady s0 s) :
    Steady s0 (stageWrite t l st be data p s) := by
  unfold stageWrite dropSram
  have hentry := entryFor_steady (t := t) (b := l / 64) (k := l % 64 / 8) h
  exact markDirty_steady (Steady.engines hentry.upd rfl (fun _ => rfl) (fun _ => rfl) rfl rfl)

/-! ### The Hoard log and fills -/

theorem landBlock_steady {t tile j : Nat} {bmw : BitVec 96} {masks : List Byte} {strips : List (List Byte)} (h : Steady s0 s) :
    Steady s0 (landBlock t tile j bmw masks strips s) :=
  h.of_kept (landBlock_kept _ _ _ _ _ _ s (.refl _ s) (covers_refl _))
theorem landPacked_steady {t tile : Nat} {area : List Byte} (h : Steady s0 s) : Steady s0 (landPacked t tile area s).1 :=
  h.of_kept (landPacked_kept _ _ _ s (.refl _ s) (covers_refl _))
theorem failTile_steady {x : ExtRec} {g tile : Nat} (h : Steady s0 s) : Steady s0 (failTile x g tile s) :=
  h.of_kept (failTile_kept _ _ _ s (.refl _ s) (covers_refl _))
theorem markClean_steady {t tile : Nat} (h : Steady s0 s) : Steady s0 (markClean t tile s) :=
  h.of_kept (markClean_kept _ _ s (.refl _ s) (covers_refl _))
theorem stripeFor_steady {c k n : Nat} (h : Steady s0 s) : Steady s0 (stripeFor c k n s).1 :=
  h.of_kept (stripeFor_kept _ _ _ s (.refl _ s) (covers_refl _))
theorem appendStripe_steady {i : Nat} {b : List Byte} {t : Option (Nat × Nat)} (h : Steady s0 s) :
    Steady s0 (appendStripe i b t s) :=
  h.of_kept (appendStripe_kept _ _ _ s (.refl _ s) (covers_refl _))

theorem logTile_steady {t tile : Nat} (h : Steady s0 s) : Steady s0 (logTile t tile s) := by
  unfold logTile
  split
  · exact h
  · refine Steady.ite h ?_
    have hflush : Steady s0 (flushTile t tile s) := flushTile_steady h
    dsimp only
    split
    · exact hflush
    · refine Steady.ite hflush (Steady.ite ?_ (markClean_steady (appendStripe_steady (stripeFor_steady hflush))))
      have hclean : Steady s0 (markClean t tile { flushTile t tile s with
          hrd := dirSet { tenant := t, tile := tile, stripe := 0, offset := 0, len := 0, zero := true } (flushTile t tile s).hrd }) :=
        markClean_steady hflush.upd
      split
      · exact hclean.of_kept (releaseIfDead_kept _ _ (.refl _ _) (covers_refl _))
      · exact hclean

theorem commitTile_steady {t tile : Nat} (h : Steady s0 s) : Steady s0 (commitTile t tile s) := by
  unfold commitTile
  split
  · exact h
  · refine Steady.ite h (Steady.ite h ?_)
    dsimp only
    split
    · exact (logTile_steady h).of_kept (closeStripe_kept _ _ (.refl _ _) (covers_refl _))
    · exact logTile_steady h

theorem takeWay_steady {t tile : Nat} (h : Steady s0 s) : Steady s0 (takeWay t tile s).1 := by
  unfold takeWay
  split
  · exact h
  · split
    · exact h
    · next i d _ =>
      extract_lets u y vt vk u1 u2
      have hu1 : Steady s0 u1 := Steady.ite (flushTile_steady h.upd) h.upd
      have hu2 : Steady s0 u2 := Steady.ite (commitTile_steady hu1) hu1
      split
      · exact hu2
      · exact Steady.upd (Steady.ite (dropTile_steady hu2) hu2)

theorem tryFill_steady {x : ExtRec} {g : Nat} {d : DirEntry} {n : Nat} (h : Steady s0 s) : Steady s0 (tryFill x g d n s) := by
  induction n generalizing s with
  | zero => exact h
  | succ n ih =>
    unfold tryFill
    extract_lets bad mine held cs area p u _ km
    have hu : Steady s0 u := Steady.foldl (landPacked_steady h) fun u y hu =>
      note_steady _ (hu.of_kept (repairChunk_kept _ _ _ _ u (.refl _ u) (covers_refl _)))
    split
    · split
      · exact Steady.ite (hu.of_kept (fillOver_kept _ _ u (.refl _ u) (covers_refl _))) hu
      · exact Steady.ite (failTile_steady (note_steady _ h)) (ih h.upd)
    · refine Steady.ite h ?_
      extract_lets full
      refine Steady.ite ?_ (Steady.ite (ih (h.of_kept (askRebuild_kept _ _ _ _ s (.refl _ s) (covers_refl _))))
        (Steady.ite h (Steady.ite (failTile_steady (note_steady _ h)) (h.of_kept (cancelFill_kept _ _ s (.refl _ s) (covers_refl _))))))
      split
      · exact ih (h.of_kept (gather_kept _ s (.refl _ s) (covers_refl _)))
      · exact h

theorem startFill_steady {x : ExtRec} {g tile : Nat} (h : Steady s0 s) : Steady s0 (startFill x g tile s) := by
  unfold startFill
  refine Steady.ite h ?_
  extract_lets slotted u zero
  have hu : Steady s0 u := Steady.ite h (takeWay_steady h)
  have hzero (v : State) (hv : Steady s0 v) : Steady s0 (zero v) := hv.foldl fun _ _ h => landBlock_steady h
  refine Steady.ite hu (Steady.ite (failTile_steady hu) ?_)
  split
  · exact landPacked_steady hu
  · split
    · exact Steady.ite hu (hzero u hu)
    · exact Steady.ite (hzero u hu) (tryFill_steady (hu.of_kept (askChunks_kept _ u (.refl _ u) (covers_refl _))))

/-! ### Requests that waited -/

theorem dropCopy_steady {t tile : Nat} (h : Steady s0 s) : Steady s0 (dropCopy t tile s) := by
  unfold dropCopy
  dsimp only
  split <;> exact (dropTile_steady h).upd

theorem recoverFault_steady {x : ExtRec} {g st b a : Nat} {f : DecFault} (h : Steady s0 s) :
    Steady s0 (recoverFault x g st b a f s).1 := by
  have hcodec : (codecFault st x.tenant b f 2 s).cdc.engMap = s.cdc.engMap := by
    simp only [codecFault]
    split <;> split <;> rfl
  unfold recoverFault
  dsimp only
  split
  · exact startFill_steady (dropCopy_steady (note_steady _ (h.upd rfl rfl hcodec)))
  · exact poisonFault_steady h

theorem fillForWrite_steady {x : ExtRec} {g st q b a k : Nat} (h : Steady s0 s) : Steady s0 (fillForWrite x g st q b a k s).1 := by
  unfold fillForWrite
  extract_lets ks counted
  have hcounted (a : Nat) (v : State) (hv : Steady s0 v) : Steady s0 (counted a v) := countDec_steady (enqueueStrips_steady hv)
  split
  · exact hcounted a s h
  · split
    · extract_lets u
      have hu : Steady s0 u := recoverFault_steady h
      split
      · exact hcounted _ _ (poisonFaults_steady hu)
      · exact hu
    · exact hcounted a _ (poisonFaults_steady h)

theorem fillForAgent_steady {x : ExtRec} {g st q b k : Nat} (h : Steady s0 s) : Steady s0 (fillForAgent x g st q b k s) := by
  unfold fillForAgent
  split
  · exact h
  · exact Steady.ite (fillForWrite_steady h) (poisonFaults_steady h)

theorem holdBlock_steady {t b a : Nat} (h : Steady s0 s) : Steady s0 (holdBlock t b a s) := by
  unfold holdBlock
  refine Steady.ite h ?_
  extract_lets room u
  have hu : Steady s0 u := by
    refine Steady.ite ?_ h
    split
    · exact h.upd
    · exact h
  exact Steady.ite hu hu.upd

theorem answerPoison_steady {r : MemReq} (h : Steady s0 s) : Steady s0 (answerPoison r s) :=
  h.of_kept (answerPoison_kept _ s (.refl _ s) (covers_refl _))
theorem answerData_steady {r : MemReq} {l : List Byte} {p : Bool} {g : Nat} (h : Steady s0 s) : Steady s0 (answerData r l p g s) :=
  h.of_kept (answerData_kept _ _ _ _ s (.refl _ s) (covers_refl _))
theorem answerWrite_steady {r : MemReq} {st : Nat} (h : Steady s0 s) : Steady s0 (answerWrite r st s) :=
  h.of_kept (answerWrite_kept _ _ s (.refl _ s) (covers_refl _))
theorem respond_steady {d g n : Nat} {m : Msg} (h : Steady s0 s) : Steady s0 (respond d g n m s) :=
  h.of_kept (respond_kept _ _ _ _ s (.refl _ s) (covers_refl _))
theorem sendReq_steady {d n : Nat} {m : Msg} (h : Steady s0 s) : Steady s0 (sendReq d n m s) :=
  h.of_kept (sendReq_kept _ _ _ s (.refl _ s) (covers_refl _))
theorem park_steady {r : MemReq} {w : Nat} (h : Steady s0 s) : Steady s0 (park r w s) := h.upd
theorem touchTile_steady {t tile : Nat} (h : Steady s0 s) : Steady s0 (touchTile t tile s) :=
  h.of_kept (touchTile_kept _ _ s (.refl _ s) (covers_refl _))
theorem startSnoop_steady {t a : Nat} {d : Bool} {l : List (Nat × Nat)} {c : SnoopCause} (h : Steady s0 s) :
    Steady s0 (startSnoop t a d l c s) :=
  h.of_kept (startSnoop_kept _ _ _ _ _ s (.refl _ s) (covers_refl _))

theorem finishRead_steady {x : ExtRec} {g : Nat} {r : MemReq} {a gr : Nat} (h : Steady s0 s) :
    Steady s0 (finishRead x g r a gr s) := by
  unfold finishRead
  refine Steady.ite (answerPoison_steady h) ?_
  split
  · extract_lets u v w
    have hw : Steady s0 w := touchTile_steady (countDec_steady (Steady.ite h (enqueueStrips_steady h)))
    refine Steady.ite (answerPoison_steady hw) ?_
    split
    · exact answerData_steady (holdBlock_steady hw)
    · exact respond_steady hw
  · next f _ =>
    have hq : Steady s0 (recoverFault x g (reqStream r) (r.addr / 4096) a f s).1 := recoverFault_steady h
    refine Steady.ite ?_ (answerPoison_steady hq)
    split
    · split
      · exact Steady.ite (answerPoison_steady hq) (answerData_steady hq)
      · exact answerPoison_steady hq
    · exact park_steady hq

theorem serveRead_steady {x : ExtRec} {g : Nat} {r : MemReq} (h : Steady s0 s) : Steady s0 (serveRead x g r s) := by
  unfold serveRead
  dsimp only
  split
  · exact park_steady (startSnoop_steady h)
  · refine Steady.ite (park_steady (h.of_kept (sfEvict_kept s (.refl _ s) (covers_refl _)))) ?_
    have hfill : Steady s0 (if (landedAddr s x g (r.addr / 32768) (r.addr / 4096 % 8)).isSome = true then s
        else if s.uni.restarting = true then s else startFill x g (r.addr / 32768) s) :=
      Steady.ite h (Steady.ite h (startFill_steady h))
    split
    · exact finishRead_steady (Steady.ite hfill (hfill.of_kept (sfGrant_kept _ _ _ _ _ _ (.refl _ _) (covers_refl _))))
    · refine Steady.ite (answerPoison_steady (note_steady _ hfill)) ?_
      split
      · exact hfill.of_kept (answerUncached_kept _ _ _ _ _ (.refl _ _) (covers_refl _))
      · exact park_steady hfill

theorem serveWrite_steady {x : ExtRec} {g : Nat} {r : MemReq} (h : Steady s0 s) : Steady s0 (serveWrite x g r s) := by
  unfold serveWrite
  refine Steady.ite (answerWrite_steady (note_steady _ (h.of_kept (onExtent_kept _ _ s (.refl _ s) (covers_refl _)))))
    (Steady.ite (answerWrite_steady (note_steady _ h)) ?_)
  dsimp only
  have hfill : Steady s0 (if (landedAddr s x g (r.addr / 32768) (r.addr / 4096 % 8)).isSome = true then s
      else startFill x g (r.addr / 32768) s) := Steady.ite h (startFill_steady h)
  split
  · exact park_steady hfill
  · exact Steady.ite (answerWrite_steady hfill) (Steady.ite (park_steady (fillForWrite_steady hfill))
      (answerWrite_steady (touchTile_steady (stageWrite_steady (fillForWrite_steady hfill)))))

theorem forwardReq_steady {u : Nat} {r : MemReq} (h : Steady s0 s) : Steady s0 (forwardReq u r s) := by
  unfold forwardReq
  refine Steady.ite ?_ (Steady.ite (park_steady h) (sendReq_steady (park_steady h)))
  exact Steady.ite (answerWrite_steady (note_steady _ (Steady.upd (note_steady _ h) rfl rfl rfl))) (answerPoison_steady (note_steady _ h))

theorem resumeReq_steady {r : MemReq} (h : Steady s0 s) : Steady s0 (resumeReq r s) := by
  unfold resumeReq
  split
  · exact h.of_kept (answerRefused_kept _ s (.refl _ s) (covers_refl _))
  · split
    · exact forwardReq_steady h
    · exact Steady.ite (answerWrite_steady h) (Steady.ite (serveWrite_steady h) (serveRead_steady h))

theorem resumeWhere_steady {p : MemReq → Bool} (h : Steady s0 s) : Steady s0 (resumeWhere p s) :=
  Steady.foldl h.upd fun _ _ h => resumeReq_steady h

theorem applyOrphans_steady (h : Steady s0 s) : Steady s0 (applyOrphans s) := by
  refine h.foldl fun u p hu => ?_
  split
  · exact hu.upd
  · exact Steady.ite hu (stageWrite_steady (fillForAgent_steady hu.upd))

theorem settle_steady (h : Steady s0 s) : Steady s0 (settle s) := by
  refine resumeWhere_steady (Steady.foldl (resumeWhere_steady (applyOrphans_steady h)) fun u r hu => ?_)
  split
  · split
    · exact startFill_steady hu
    · exact hu
  · exact hu

theorem repackTile_steady {t tile : Nat} (h : Steady s0 s) : Steady s0 (repackTile t tile s) := by
  unfold repackTile
  split
  · exact h
  · refine Steady.ite ?_ (startFill_steady h.upd)
    split
    · exact (logTile_steady h).upd
    · exact h

theorem settleSnoops_steady (h : Steady s0 s) : Steady s0 (settleSnoops s) :=
  resumeWhere_steady (h.of_kept (snoopsDone_kept s (.refl _ s) (covers_refl _)))

/-! ### Agents, records and operators -/

theorem bringRange_steady {t a n : Nat} {w : Bool} (h : Steady s0 s) : Steady s0 (bringRange t a n w s) := by
  unfold bringRange
  extract_lets u v
  have hu : Steady s0 u := h.foldl fun _ _ h => startSnoop_steady h
  have hv : Steady s0 v := hu.foldl fun p x hp => by
    split
    · exact startFill_steady hp
    · exact hp
  refine Steady.ite hv (hv.foldl fun p l hp => ?_)
  unfold askLine
  refine Steady.ite hp ?_
  split
  · exact hp
  · exact Steady.ite (Steady.upd (note_steady _ hp) rfl rfl rfl) (sendReq_steady hp.upd)

theorem agentWrite_steady {t a st : Nat} {b : List Byte} (h : Steady s0 s) : Steady s0 (agentWrite t a st b s).1 := by
  refine Steady.foldl_fst h fun q x hq => ?_
  dsimp only
  unfold agentWriteLine
  split
  · exact hq
  · split
    · exact hq
    · split
      · exact stageWrite_steady (fillForAgent_steady hq)
      · exact sendReq_steady hq

theorem sendMsix_steady {ld v : Nat} (h : Steady s0 s) : Steady s0 (sendMsix ld v s) :=
  h.of_kept (sendMsix_kept _ _ s (.refl _ s) (covers_refl _))

theorem writeRecord_steady {n : Nat} {rcd : List Byte} {irq : Bool} (h : Steady s0 s) : Steady s0 (writeRecord n rcd irq s) :=
  Steady.ite (sendMsix_steady (Steady.upd (agentWrite_steady h))) (Steady.upd (agentWrite_steady h))

theorem discardRecords_steady {n k : Nat} (h : Steady s0 s) : Steady s0 (discardRecords n k s) :=
  Steady.ite h (note_steady _ h.upd)

theorem flushRecords_steady (h : Steady s0 s) : Steady s0 (flushRecords s) := by
  unfold flushRecords
  refine Steady.ite h ?_
  refine Steady.of_kept (Steady.foldl_fst h.upd fun p w hp => ?_) (ringsGone_kept _ (.refl _ _) (covers_refl _))
  dsimp only
  split
  · exact hp.upd
  · split
    · exact discardRecords_steady (n := w.1) (k := 1) hp
    · split
      · exact hp.upd
      · split
        · exact writeRecord_steady (bringRange_steady hp)
        · exact Steady.upd (bringRange_steady hp)

theorem retireOp_steady {o : Op} {v : RecVals} (h : Steady s0 s) : Steady s0 (retireOp o v s) := by
  unfold retireOp
  extract_lets rcd _ _ u w z
  have hu : Steady s0 u := by
    refine Steady.engines h rfl (fun _ => rfl) (fun p => ?_) rfl rfl
    dsimp only
    split
    · split <;> rfl
    · rfl
  have hw : Steady s0 w := Steady.ite (note_steady _ hu) hu
  have hz : Steady s0 z := Steady.ite (flushRecords_steady hw.upd) (respond_steady hw)
  exact (hz.of_kept (moveIntake_kept z (.refl _ z) (covers_refl _))).of_kept (releaseFences_kept _ (.refl _ _) (covers_refl _))

theorem endOp_steady {o : Op} {st d : Nat} (h : Steady s0 s) : Steady s0 (endOp o st d s) := retireOp_steady h

theorem noEngines_steady (h : Steady s0 s) : Steady s0 (noEngines s) :=
  Steady.ite h (h.foldl fun _ _ h => endOp_steady h)

theorem abortOps_steady {p : Op → Bool} {c : Nat} (h : Steady s0 s) : Steady s0 (abortOps p c s) :=
  h.foldl fun _ _ h => Steady.ite (retireOp_steady h) h.upd

/-! ### Extents, seals and reclaims -/

theorem ringStop_steady {n e : Nat} (h : Steady s0 s) : Steady s0 (ringStop n e s) :=
  Steady.ite (note_steady _ h.upd) h.upd

theorem dcEvent_steady {ld : Nat} {v : DcEvent} (h : Steady s0 s) : Steady s0 (dcEvent ld v s) :=
  (sendMsix_steady h.upd).of_kept (setDb_kept _ _ _ (.refl _ _) (covers_refl _))

theorem moveExtent_steady {x st : Nat} (h : Steady s0 s) : Steady s0 (moveExtent x st s) := by
  unfold moveExtent
  refine Steady.ite h ?_
  extract_lets ns u v
  have hu : Steady s0 u := Steady.of_kept (s := onExtent x _ s) h.upd (setDbTenant_kept _ _ _ (.refl _ _) (covers_refl _))
  have hv : Steady s0 v := hu.foldl fun _ _ h => ringStop_steady h
  exact Steady.ite (flushRecords_steady (hv.foldl fun _ _ h => h.upd)) hv

theorem offerTenant_steady {t : Nat} {x : ExtRec} {rd : Bool} (h : Steady s0 s) : Steady s0 (offerTenant t x rd s) :=
  h.foldl fun _ _ h => Steady.ite (dcEvent_steady h.upd) h

theorem offersGo_steady (h : Steady s0 s) : Steady s0 (offersGo s) := by
  refine h.foldl fun u ld hu => ?_
  unfold offerAll
  split
  · exact hu
  · exact hu.foldl fun _ _ hv => hv.foldl fun _ _ hw => Steady.ite (dcEvent_steady hw.upd) hw

theorem kmGo_steady (h : Steady s0 s) : Steady s0 (kmGo s) := by
  have hkm : Steady s0 (kmUpdate s) := by
    unfold kmUpdate
    extract_lets below new back _ u
    have hu : Steady s0 u := Steady.foldl h.upd fun _ _ h => note_steady _ h
    exact Steady.ite hu (hu.foldl fun _ _ h => commitTile_steady h)
  exact Steady.ite hkm (offersGo_steady hkm)

theorem offerWithheld_steady (h : Steady s0 s) : Steady s0 (offerWithheld s) := by
  refine h.foldl fun u e hu => hu.foldl fun v t hv => ?_
  refine Steady.ite hv ?_
  split
  · exact note_steady _ hv.upd
  · exact offerTenant_steady hv.upd

theorem sealsGo_steady (h : Steady s0 s) : Steady s0 (sealsGo s) := by
  refine h.foldl fun u r hu => ?_
  unfold sealRest sealStore
  split
  · exact hu
  · extract_lets v left sums
    have hv : Steady s0 v := flushRange_steady hu
    split
    · exact Steady.foldl (Steady.foldl hv.upd fun _ _ h => commitTile_steady h) fun _ _ h => appendStripe_steady (stripeFor_steady h)
    · exact Steady.foldl hv.upd fun _ _ h => startFill_steady h

theorem afterSnoops_steady (h : Steady s0 s) : Steady s0 (afterSnoops s) :=
  flushRecords_steady (sealsGo_steady (settleSnoops_steady h))

theorem rspGo_steady (h : Steady s0 s) : Steady s0 (rspGo s) := by
  refine Steady.foldl (h.foldl fun u r hu => ?_) fun _ _ h => h.upd
  have hafter : Steady s0 (afterSnoops (snoopAnswer r.2.1 r.2.2.1 (me u, r.1) r.2.2.2.1
      { u with ext := { u.ext with heldRsp := u.ext.heldRsp.filter (· != r) } })) := afterSnoops_steady hu.upd
  unfold finalRsp
  dsimp only
  split
  · exact hafter
  · exact respond_steady hafter.upd

theorem rekeyExtent_steady {a b : ExtRec} (h : Steady s0 s) : Steady s0 (rekeyExtent a b s) := by
  unfold rekeyExtent
  extract_lets mine dst u moved v
  have hv : Steady s0 v := Steady.foldl (flushRange_steady h) fun _ _ h => Steady.ite (commitTile_steady h) h
  exact hv.upd

theorem forgetExtent_steady {x : ExtRec} (h : Steady s0 s) : Steady s0 (forgetExtent x s) := by
  unfold forgetExtent
  exact Steady.foldl h.upd fun _ _ h => h.of_kept (releaseIfDead_kept _ _ (.refl _ _) (covers_refl _))

theorem releaseDone_steady {x : Nat} (h : Steady s0 s) : Steady s0 (releaseDone x s) := by
  unfold releaseDone
  refine Steady.ite h ?_
  extract_lets old rs _ u v w
  have hv : Steady s0 v := Steady.foldl h.upd fun _ _ h => ringStop_steady h
  have hw : Steady s0 w := hv.foldl fun _ _ h => Steady.ite h (discardRecords_steady h.upd)
  split
  · extract_lets y z
    have hy : Steady s0 y := Steady.ite hw (rekeyExtent_steady hw)
    exact offerWithheld_steady (offerTenant_steady (moveExtent_steady hy.upd))
  · exact offerWithheld_steady (Steady.upd (forgetExtent_steady hw))
  · exact hw.upd

theorem orphanExtent_steady {x : ExtRec} (h : Steady s0 s) : Steady s0 (orphanExtent x s) := by
  unfold orphanExtent
  extract_lets es u mine
  have hu : Steady s0 u := h.foldl fun v f hv => by
    refine Steady.of_kept ?_ (logOrphan_kept _ _ (.refl _ _) (covers_refl _))
    exact Steady.ite (stageWrite_steady (fillForAgent_steady hv)) (startFill_steady hv.upd)
  exact hu.upd

theorem abandonSeal_steady {x : Nat} (h : Steady s0 s) : Steady s0 (abandonSeal x s) := by
  unfold abandonSeal
  split
  · exact h
  · dsimp only
    split
    · exact retireOp_steady h.upd
    · exact h.upd

theorem forceRemove_steady {ld x : Nat} (h : Steady s0 s) : Steady s0 (forceRemove ld x s) := by
  unfold forceRemove
  split
  · exact note_steady _ (dcEvent_steady h.upd)
  · exact h.upd

theorem onLease_steady {t : Nat} {f : Lease → Lease} (h : Steady s0 s) : Steady s0 (onLease t f s) := h.upd

theorem carryOut_steady {t : Nat} (h : Steady s0 s) : Steady s0 (carryOut t s) := by
  unfold carryOut
  extract_lets u _ v es r
  have hr : Steady s0 r.1 := by
    refine Steady.foldl_fst (Steady.upd (abortOps_steady h) rfl rfl rfl) fun q x hq => ?_
    have habandoned : Steady s0 (abandonSeal x.id q.1) := abandonSeal_steady hq
    dsimp only
    split
    · split
      · exact orphanExtent_steady habandoned
      · exact habandoned
    · split
      · dsimp only
        exact releaseDone_steady (hq.foldl fun _ _ h => Steady.ite (forceRemove_steady h) h)
      · exact hq
  exact (onLease_steady (afterSnoops_steady hr)).of_kept (reportReclaim_kept _ _ _ (.refl _ _) (covers_refl _))

theorem reclaimsGo_steady (h : Steady s0 s) : Steady s0 (reclaimsGo s) :=
  h.foldl fun _ _ h => Steady.ite (carryOut_steady h) h

theorem wake_steady (h : Steady s0 s) : Steady s0 (wake s) :=
  flushRecords_steady (sealsGo_steady (Steady.foldl (Steady.foldl (reclaimsGo_steady (rspGo_steady (settle_steady h)))
    fun _ _ h => releaseDone_steady h) fun _ _ h => repackTile_steady h))

end
end Sys2Proof.Proofs
end

section
/-! Repair in life (R86, R88, R89, R91): what taking an element out of service changes, and the rows of the start-up chapter that
do so. -/

namespace Sys2Proof.Proofs

-- The lemmas of this file are checked one after another, with few threads at a time.
set_option Elab.async false

open Sys2Proof.Machine Sys2Proof.Safety Sys2Proof.Laws

/-! ### The unit state -/

theorem moveTo_uni (st : UnitState) (c d : Nat) (s : State) : (moveTo st c d s).uni = { s.uni with st := st } := by
  unfold moveTo
  split
  · next h => rw [← h]
  · rw [record_uni]

theorem note_uni (v : Ev) (s : State) (hd : (codeRow v.code v.cls).2 = 0 := by with_unfolding_all rfl) : (raise v s).uni = s.uni := by
  rw [raise_eq_record v s hd, record_uni]

/-- An event of disposition 3 makes a unit that starts FAULTED (R425). -/
theorem raise_fatal_uni {v : Ev} (hd : (codeRow v.code v.cls).2 = 3) {s : State} (h : s.uni.st = .starting) :
    (raise v s).uni = { s.uni with drainFaultDue := none, st := .faulted } := by
  have hrec : (record v s).uni.st = .starting := (congrArg Uni.st (record_uni v s)).trans h
  rw [raise, hd, dispose, if_neg (by rw [hrec]; decide), enterFaulted, if_neg (by rw [hrec]; decide)]
  dsimp only
  rw [moveTo_uni, record_uni]

/-- A phase over its bound fails the start, but for the phases that wait for other units (R78). -/
theorem phaseOver_uni {s : State} (h : s.uni.st = .starting) (n : Nat) : (phaseOver n s).uni =
    if n = 7 ∨ n = 9 then { s.uni with failPhase := n }
    else { s.uni with failPhase := n, drainFaultDue := none, st := .faulted } := by
  unfold phaseOver
  dsimp only
  split
  · rfl
  · exact raise_fatal_uni (by rfl) h

theorem exec_phaseBound_of_running {s : State} {n : Nat} (h : s.uni.st = .starting) (h0 : 0 < n) (h9 : n ≤ 9) :
    exec (.phaseBound n) s = .next (phaseOver n s) := if_neg (by simp only [h, ne_eq, not_true, false_or]; omega)

/-! ### Taking an element out of service -/

/-- Reporting a change of level writes no other field of UNI. -/
theorem checkLevels_uni (cs : List Nat) (s : State) : ∃ l, (checkLevels cs s).uni = { s.uni with levels := l } := by
  refine List.foldlRecOn (motive := fun u : State => ∃ l, u.uni = { s.uni with levels := l }) cs _ ⟨_, rfl⟩ ?_
  intro u hu c _
  obtain ⟨l, hl⟩ := hu
  dsimp only
  split
  · exact ⟨l, hl⟩
  · refine ⟨tset c (classLevel u c) u.uni.levels, ?_⟩
    have hset : { u.uni with levels := tset c (classLevel u c) u.uni.levels } =
        { s.uni with levels := tset c (classLevel u c) u.uni.levels } := by rw [hl]
    split
    · exact (note_uni _ _).trans hset
    · split
      · exact (note_uni _ _).trans hset
      · exact hset

theorem fieldEntry_uni (e : RepairEntry) (c : Nat) (s : State) : (fieldEntry e c s).uni = s.uni := by
  unfold fieldEntry
  dsimp only
  split
  · exact (note_uni _ _).trans (note_uni _ _)
  · exact note_uni _ _

/-- Taking an element out of service writes no other field of UNI than the elements out of service and the levels reported. -/
theorem takeOut_uni (e : RepairEntry) (c : Nat) (s : State) : ∃ o l, (takeOut e c s).uni = { s.uni with outOfService := o, levels := l } ∧
    ∀ x, x ∈ o ↔ x ∈ s.uni.outOfService ∨ x = e := by
  unfold takeOut
  split
  · next h => exact ⟨_, _, rfl, fun x => ⟨.inl, fun hx => hx.elim id fun he => he ▸ List.contains_iff_mem.1 h⟩⟩
  · obtain ⟨l, hl⟩ := checkLevels_uni [e.cls]
      { fieldEntry e c s with uni := { (fieldEntry e c s).uni with outOfService := (fieldEntry e c s).uni.outOfService ++ [e] } }
    refine ⟨s.uni.outOfService ++ [e], l, ?_, fun x => by simp⟩
    rw [hl, fieldEntry_uni]

theorem isOut_iff (s : State) (c g e : Nat) : isOut s c g e = true ↔ ({ cls := c, grp := g, elt := e } : RepairEntry) ∈ s.uni.outOfService :=
  List.contains_iff_mem

/-- What is out of service once an element has been taken out. -/
theorem isOut_takeOut (e : RepairEntry) (cause : Nat) (s : State) (c g x : Nat) :
    isOut (takeOut e cause s) c g x = (isOut s c g x || e == { cls := c, grp := g, elt := x }) := by
  obtain ⟨o, l, huni, hmem⟩ := takeOut_uni e cause s
  rw [Bool.eq_iff_iff, isOut_iff, huni, Bool.or_eq_true, isOut_iff, beq_iff_eq, hmem, eq_comm (a := e)]

theorem takeOut_same {b : Block} (e : RepairEntry) (c : Nat) (s : State) (hb : b ∉ [Block.uni, .hst, .lif, .flt, .out]) :
    b.same s (takeOut e c s) := (takeOut_kept e c s (.refl _ s) (covers_refl _)).frame b hb

/-- An element that goes out of service is reported (R86). -/
theorem takeOut_reports {e : RepairEntry} (cause : Nat) {s : State} (h : isOut s e.cls e.grp e.elt = false) :
    noted (takeOut e cause s) 0x0004 0 (entryScope e).1 (entryScope e).2 := by
  have hclass : (codeRow 0x0004 1).1 < 4 := by decide
  have hfield : noted (fieldEntry e cause s) 0x0004 0 (entryScope e).1 (entryScope e).2 := by
    unfold fieldEntry
    dsimp only
    split
    · exact raise_keeps _ (raise_noted _ _ hclass)
    · exact raise_noted _ _ hclass
  unfold takeOut
  rw [if_neg (by rw [Bool.not_eq_true]; exact h)]
  exact checkLevels_noted _ hfield

/-! ### The elements in service -/

theorem insAsc_perm {x : Nat} {l : List Nat} (h : x ∉ l) : (insAsc x l).Perm (x :: l) := by
  induction l with
  | nil => exact .refl _
  | cons y l ih =>
    obtain ⟨hne, hl⟩ := List.ne_and_not_mem_of_not_mem_cons h
    unfold insAsc
    split
    · exact .refl _
    · exact ((ih hl).cons y).trans (.swap x y l)

/-- Sorting the elements of a list that holds none twice leaves their number. -/
theorem foldl_insAsc_perm {l a : List Nat} (hl : (l ++ a).Nodup) : (l.foldl (fun a x => insAsc x a) a).Perm (l ++ a) := by
  induction l generalizing a with
  | nil => exact .refl _
  | cons x l ih =>
    obtain ⟨hx, hla⟩ := List.nodup_cons.1 hl
    have hins : (insAsc x a).Perm (x :: a) := insAsc_perm fun h => hx (List.mem_append_right l h)
    have hperm : (l ++ insAsc x a).Perm (x :: (l ++ a)) := (hins.append_left l).trans List.perm_middle
    exact (ih (hperm.nodup_iff.2 hl)).trans hperm

theorem workingOf_perm (s : State) (c g : Nat) : (workingOf s c g).Perm ((List.range (built c)).filter fun e => !isOut s c g e) := by
  unfold workingOf
  have hsplit := List.filter_append_perm (fun e => !(decide (inServiceCount c ≤ e) && isSlow s c g e))
    ((List.range (built c)).filter fun e => !isOut s c g e)
  simpa only [Bool.not_not] using hsplit

theorem servingElements_length (s : State) (c g : Nat) : (servingElements s c g).length =
    min (inServiceCount c) ((List.range (built c)).filter fun e => !isOut s c g e).length := by
  have hnodup : ((workingOf s c g).take (inServiceCount c) ++ []).Nodup := by
    rw [List.append_nil]
    exact (((workingOf_perm s c g).nodup_iff.2 (List.nodup_range.filter _))).sublist (List.take_sublist _ _)
  rw [servingElements, (foldl_insAsc_perm hnodup).length_eq, List.append_nil, List.length_take, (workingOf_perm s c g).length_eq]

/-! ### Tests of the engines (R88, R310) -/

theorem engOf_onEngine_same (e : Nat) (f : Engine → Engine) (s : State) : engOf (onEngine e f s).eng e = f (engOf s.eng e) :=
  tget_tmod_same _ e f s.eng.engines

theorem engOf_onEngine_other {e k : Nat} (h : k ≠ e) (f : Engine → Engine) (s : State) :
    engOf (onEngine e f s).eng k = engOf s.eng k := tget_tmod_other _ _ h f s.eng.engines

theorem getLsbD_pow {e k : Nat} (he : e < 4) : (BitVec.ofNat 4 (2 ^ e)).getLsbD k = decide (k = e) := by
  rw [BitVec.getLsbD_ofNat, Nat.testBit_two_pow]
  by_cases h : k = e
  · subst h; simp [he]
  · simp [h, Ne.symm h]

theorem engineTest_pass (e : Nat) (s : State) :
    engineTest e [] s = { s with eng := { s.eng with katPass := s.eng.katPass ||| BitVec.ofNat 4 (2 ^ e) } } := rfl

/-- What a failed test changes of its engine: it is under repair, with the columns that failed. -/
theorem engineTest_fail {e c : Nat} (cs : List Nat) (he : e < 4) (s : State) :
    (engineTest e (c :: cs) s).eng.katPass.getLsbD e = false ∧ (engOf (engineTest e (c :: cs) s).eng e).st = 2 ∧
    ({ cls := 1, grp := e, elt := c } : RepairEntry) ∈ (engOf (engineTest e (c :: cs) s).eng e).failing := by
  unfold engineTest
  simp only [List.isEmpty_cons, Bool.false_eq_true, if_false]
  rw [engOf_onEngine_same]
  refine ⟨?_, rfl, List.mem_append_right _ (.head _)⟩
  show (s.eng.katPass &&& ~~~ BitVec.ofNat 4 (2 ^ e)).getLsbD e = false
  rw [BitVec.getLsbD_and, BitVec.getLsbD_not, getLsbD_pow he, decide_eq_true rfl, Bool.not_true, Bool.and_false, Bool.and_false]

/-- The test of one engine leaves the others, their bits and the tests asked for. -/
theorem engineTest_other {e k : Nat} (h : k ≠ e) (he : e < 4) (cols : List Nat) (s : State) :
    engOf (engineTest e cols s).eng k = engOf s.eng k ∧
    (engineTest e cols s).eng.katPass.getLsbD k = s.eng.katPass.getLsbD k := by
  have hbit : (BitVec.ofNat 4 (2 ^ e)).getLsbD k = false := by rw [getLsbD_pow he, decide_eq_false h]
  cases cols with
  | nil => exact ⟨rfl, by rw [engineTest_pass, BitVec.getLsbD_or, hbit, Bool.or_false]⟩
  | cons c cs =>
    refine ⟨engOf_onEngine_other h _ _, ?_⟩
    show (s.eng.katPass &&& ~~~ BitVec.ofNat 4 (2 ^ e)).getLsbD k = _
    rw [BitVec.getLsbD_and, BitVec.getLsbD_not, hbit, Bool.not_false, Bool.and_true]
    by_cases hk : k < 4
    · rw [decide_eq_true hk, Bool.and_true]
    · rw [BitVec.getLsbD_of_ge _ _ (by omega), Bool.false_and]

theorem engineTest_katWanted (e : Nat) (cols : List Nat) (s : State) : (engineTest e cols s).eng.katWanted = s.eng.katWanted := by
  cases cols <;> rfl

/-- The tests that a write of `ENG_KAT.RUN` makes at an engine: the body of the model's loop in `engKat`. -/
def katStep (want pass : BitVec 4) (s : State) (e : Nat) : State :=
  if !want.getLsbD e || !engineIdle s e then s
  else
    let cols := engineColumns s e
    let bad := if pass.getLsbD e then [] else [cols.getD (Config.number s.free % 128) 0]
    let s := engineTest e bad (draw s)
    { s with eng := { s.eng with katWanted := s.eng.katWanted &&& ~~~ (BitVec.ofNat 4 (2 ^ e)) } }

theorem engKat_eq (run pass : BitVec 4) (s : State) : engKat run pass s =
    (List.range 4).foldl (katStep (s.eng.katWanted ||| run) pass) { s with eng := { s.eng with katWanted := s.eng.katWanted ||| run } } := rfl

section
variable {want pass : BitVec 4} {e k : Nat}

/-- The step at one engine leaves the others: their states, their bits, and a test that is no longer wanted. -/
theorem katStep_other (h : k ≠ e) (he : e < 4) (s : State) : engOf (katStep want pass s e).eng k = engOf s.eng k ∧
    (katStep want pass s e).eng.katPass.getLsbD k = s.eng.katPass.getLsbD k ∧
    (s.eng.katWanted.getLsbD k = false → (katStep want pass s e).eng.katWanted.getLsbD k = false) := by
  unfold katStep
  split
  · exact ⟨rfl, rfl, id⟩
  · extract_lets cols bad u
    obtain ⟨heng, hpass⟩ := engineTest_other h he bad (draw s)
    refine ⟨heng, hpass, fun hw => ?_⟩
    show (u.eng.katWanted &&& _).getLsbD k = false
    rw [engineTest_katWanted, BitVec.getLsbD_and, draw_eng, hw, Bool.false_and]

/-- The step at an idle engine whose test is wanted. -/
theorem katStep_tested {s : State} (he : e < 4) (hw : want.getLsbD e = true) (hi : engineIdle s e = true) :
    (katStep want pass s e).eng.katWanted.getLsbD e = false ∧ (katStep want pass s e).eng.katPass.getLsbD e = pass.getLsbD e ∧
    (engOf (katStep want pass s e).eng e).st = if pass.getLsbD e then 0 else 2 := by
  have hst : (engOf s.eng e).st = 0 := by
    simp only [engineIdle, Bool.and_eq_true, beq_iff_eq] at hi
    exact hi.1.2
  unfold katStep
  rw [hw, hi]
  extract_lets cols bad u
  refine ⟨?_, ?_⟩
  · show (u.eng.katWanted &&& ~~~ BitVec.ofNat 4 (2 ^ e)).getLsbD e = false
    rw [BitVec.getLsbD_and, BitVec.getLsbD_not, getLsbD_pow he, decide_eq_true rfl, Bool.not_true, Bool.and_false, Bool.and_false]
  · show u.eng.katPass.getLsbD e = _ ∧ (engOf u.eng e).st = _
    cases hp : pass.getLsbD e with
    | true =>
      have hu : u = engineTest e [] (draw s) := by simp only [u, bad, hp, if_true]
      rw [hu, engineTest_pass, BitVec.getLsbD_or, getLsbD_pow he, decide_eq_true rfl, Bool.or_true]
      exact ⟨rfl, hst⟩
    | false =>
      have hu : u = engineTest e [cols.getD (Config.number s.free % 128) 0] (draw s) := by
        simp only [u, bad, hp, Bool.false_eq_true, if_false]
      obtain ⟨hbit, hrepair, -⟩ := engineTest_fail (c := cols.getD (Config.number s.free % 128) 0) [] he (draw s)
      rw [hu]
      exact ⟨hbit, hrepair⟩

/-- The steps at other engines leave an engine, its bit, and a test that is no longer wanted. -/
theorem foldl_katStep_other {l : List Nat} (hl : ∀ x ∈ l, x < 4) (hk : k ∉ l) (s : State) :
    let t := l.foldl (katStep want pass) s
    engOf t.eng k = engOf s.eng k ∧ t.eng.katPass.getLsbD k = s.eng.katPass.getLsbD k ∧
    (s.eng.katWanted.getLsbD k = false → t.eng.katWanted.getLsbD k = false) := by
  induction l generalizing s with
  | nil => exact ⟨rfl, rfl, id⟩
  | cons x l ih =>
    obtain ⟨hne, hkl⟩ := List.ne_and_not_mem_of_not_mem_cons hk
    obtain ⟨heng, hpass, hwant⟩ := katStep_other (want := want) (pass := pass) hne (hl x (.head _)) s
    obtain ⟨heng', hpass', hwant'⟩ := ih (fun y hy => hl y (.tail _ hy)) hkl (katStep want pass s x)
    exact ⟨heng'.trans heng, hpass'.trans hpass, fun h => hwant' (hwant h)⟩

end

/-- A write of `ENG_KAT.RUN` tests each idle engine it names (R310). -/
theorem engKat_tested {s : State} {e : Nat} (run pass : BitVec 4) (he : e < 4) (hr : run.getLsbD e = true) (hi : engineIdle s e = true) :
    (engKat run pass s).eng.katWanted.getLsbD e = false ∧ (engKat run pass s).eng.katPass.getLsbD e = pass.getLsbD e ∧
    (engOf (engKat run pass s).eng e).st = if pass.getLsbD e then 0 else 2 := by
  have hnodup : (List.range 4).Nodup := List.nodup_range
  have hlt : ∀ x ∈ List.range 4, x < 4 := fun x hx => List.mem_range.1 hx
  obtain ⟨l, r, hlr⟩ := List.append_of_mem (List.mem_range.2 he)
  rw [hlr] at hnodup hlt
  obtain ⟨-, hr', hdisj⟩ := List.nodup_append.1 hnodup
  have hel : e ∉ l := fun h => hdisj e h e (.head _) rfl
  have her : e ∉ r := (List.nodup_cons.1 hr').1
  rw [engKat_eq, hlr, List.foldl_append, List.foldl_cons]
  obtain ⟨heng, -, -⟩ := foldl_katStep_other (want := s.eng.katWanted ||| run) (pass := pass)
    (fun x hx => hlt x (List.mem_append_left _ hx)) hel { s with eng := { s.eng with katWanted := s.eng.katWanted ||| run } }
  generalize l.foldl (katStep (s.eng.katWanted ||| run) pass) _ = u at heng ⊢
  have hidle : engineIdle u e = true := by rw [engineIdle, heng]; exact hi
  have hwant : (s.eng.katWanted ||| run).getLsbD e = true := by rw [BitVec.getLsbD_or, hr, Bool.or_true]
  obtain ⟨hwanted, hpass, hst⟩ := katStep_tested (pass := pass) he hwant hidle
  obtain ⟨heng', hpass', hwanted'⟩ := foldl_katStep_other (want := s.eng.katWanted ||| run) (pass := pass)
    (fun x hx => hlt x (List.mem_append_right _ (.tail _ hx))) her (katStep (s.eng.katWanted ||| run) pass u e)
  exact ⟨hwanted' hwanted, hpass'.trans hpass, (congrArg Engine.st heng').trans hst⟩

theorem exec_engineKatTimer_of_idle {s : State} {e : Nat} (cols : List Nat) (hs : unitServesOrHeld s = true)
    (hi : engineIdle s e = true) : exec (.engineKatTimer e cols) s = .next (engineTest e cols s) :=
  congrArg _ (if_pos (by rw [hi, hs]; rfl))

theorem exec_engineKatTimer_of_busy {s : State} {e : Nat} (cols : List Nat) (hi : engineIdle s e = false) :
    exec (.engineKatTimer e cols) s = .next s :=
  congrArg _ (if_neg (by rw [hi]; exact Bool.false_ne_true))

theorem engineIdle_eq {s : State} {e : Nat} (he : e < 4) (hb : (engOf s.eng e).block = none) :
    engineIdle s e = ((engOf s.eng e).st == 0) := by
  rw [engineIdle, hb, decide_eq_true he, Bool.true_and, Option.isNone_none, Bool.and_true]

/-! ### The end of an engine's repair (R86, R88, R91) -/

theorem isOut_foldl_takeOut (l : List RepairEntry) (cause : Nat) (s : State) (c g x : Nat) :
    isOut (l.foldl (fun s e => takeOut e cause s) s) c g x = (isOut s c g x || l.contains { cls := c, grp := g, elt := x }) := by
  induction l generalizing s with
  | nil => rw [List.foldl_nil, List.contains_nil, Bool.or_false]
  | cons e l ih => rw [List.foldl_cons, ih, isOut_takeOut, List.contains_cons, Bool.or_assoc, Bool.beq_comm]

theorem foldl_takeOut_same {b : Block} (l : List RepairEntry) (cause : Nat) (s : State)
    (hb : b ∉ [Block.uni, .hst, .lif, .flt, .out]) : b.same s (l.foldl (fun s e => takeOut e cause s) s) := by
  induction l generalizing s with
  | nil => cases b <;> rfl
  | cons e l ih => exact Block.same_trans (takeOut_same e cause s hb) (ih _)

/-- The elements of a group that still work once a list of elements has been taken out. -/
def stillWorking (s : State) (l : List RepairEntry) (c g : Nat) : List Nat :=
  (List.range (built c)).filter fun k => !isOut s c g k && !l.contains { cls := c, grp := g, elt := k }

theorem servingElements_foldl_takeOut (l : List RepairEntry) (cause : Nat) (s : State) (c g : Nat) :
    (servingElements (l.foldl (fun s e => takeOut e cause s) s) c g).length = min (inServiceCount c) (stillWorking s l c g).length := by
  simp only [servingElements_length, isOut_foldl_takeOut, Bool.not_or, stillWorking]

/-- A withdrawn engine is out of service for good, with its event. -/
theorem withdrawEngine_withdrawn {s : State} {e : Nat} (cause : Nat) (h : (engOf s.eng e).st ≠ 3) :
    (engOf (withdrawEngine e cause s).eng e).st = 3 ∧ noted (withdrawEngine e cause s) 0x0C02 0 7 e := by
  unfold withdrawEngine
  rw [if_neg h]
  extract_lets u
  have hu : (engOf u.eng e).st = 3 := by
    have heng : u.eng = (onEngine e (fun x => { x with st := 3, failing := [] }) s).eng := takeOut_same (b := .eng) _ _ _ (by decide)
    rw [heng, engOf_onEngine_same]
  have hsteady : Steady _ (noEngines (raise { code := 0x0C02, sk := 7, si := e, d0 := e } u)) := noEngines_steady (Steady.refl _)
  have heng := hsteady.engine e
  rw [raise_eq_record _ u rfl, record_eng] at heng
  exact ⟨heng.trans hu, hsteady.noted (raise_noted _ u (show (codeRow 0x0C02 1).1 < 4 by decide))⟩

section
variable {s : State} {e : Nat} (hst : (engOf s.eng e).st = 2)
include hst

theorem exec_engineRepairComplete_enough (h1 : 128 ≤ (stillWorking s (engOf s.eng e).failing 1 e).length)
    (h2 : 64 ≤ (stillWorking s (engOf s.eng e).failing 2 e).length) : exec (.engineRepairComplete e) s =
    .next (engEpochAdvance e (onEngine e (fun y => { y with st := 0, failing := [], cause := 0 })
      ((engOf s.eng e).failing.foldl (fun t f => takeOut f (engOf s.eng e).cause t) s))) := by
  show execEngineRepairComplete e s = _
  unfold execEngineRepairComplete
  dsimp only
  rw [if_neg (by rw [hst]; decide), if_neg]
  rw [engineColumns, engineDecoders, servingElements_foldl_takeOut, servingElements_foldl_takeOut]
  show ¬ (min 128 _ < 128 ∨ min 64 _ < 64)
  omega

theorem exec_engineRepairComplete_short (h1 : (stillWorking s (engOf s.eng e).failing 1 e).length < 128) :
    exec (.engineRepairComplete e) s = .next (wake (withdrawEngine e (engOf s.eng e).cause
      ((engOf s.eng e).failing.foldl (fun t f => takeOut f (engOf s.eng e).cause t) s))) := by
  show execEngineRepairComplete e s = _
  unfold execEngineRepairComplete
  dsimp only
  rw [if_neg (by rw [hst]; decide), if_pos]
  rw [engineColumns, servingElements_foldl_takeOut]
  show min 128 _ < 128 ∨ _
  omega

theorem engineRepairComplete_serves (h1 : 128 ≤ (stillWorking s (engOf s.eng e).failing 1 e).length)
    (h2 : 64 ≤ (stillWorking s (engOf s.eng e).failing 2 e).length) : Answers (.engineRepairComplete e) s fun t =>
      (engOf t.eng e).st = 0 ∧ (engOf t.eng e).failing = [] ∧ ∀ f ∈ (engOf s.eng e).failing, f ∈ t.uni.outOfService := by
  refine ⟨_, exec_engineRepairComplete_enough hst h1 h2, ?_⟩
  generalize hu : (engOf s.eng e).failing.foldl (fun t f => takeOut f (engOf s.eng e).cause t) s = u
  have hsame {b : Block} (hb : b ∉ [Block.mbx, .out]) : b.same (onEngine e _ u) (engEpochAdvance e (onEngine e _ u)) :=
    (engEpochAdvance_kept e (onEngine e (fun y => { y with st := 0, failing := [], cause := 0 }) u) (.refl _ _) (covers_refl _)).frame b hb
  rw [hsame (b := .eng) (by decide), hsame (b := .uni) (by decide), engOf_onEngine_same]
  refine ⟨rfl, rfl, fun f hf => (isOut_iff u f.cls f.grp f.elt).1 ?_⟩
  rw [← hu, isOut_foldl_takeOut, List.contains_iff_mem.2 hf, Bool.or_true]

theorem engineRepairComplete_withdraws (h1 : (stillWorking s (engOf s.eng e).failing 1 e).length < 128) :
    Answers (.engineRepairComplete e) s fun t => (engOf t.eng e).st = 3 ∧ noted t 0x0C02 0 7 e := by
  refine ⟨_, exec_engineRepairComplete_short hst h1, ?_⟩
  generalize hu : (engOf s.eng e).failing.foldl (fun t f => takeOut f (engOf s.eng e).cause t) s = u
  have heng : u.eng = s.eng := hu ▸ foldl_takeOut_same (b := .eng) _ _ s (by decide)
  obtain ⟨hwithdrawn, hnoted⟩ := withdrawEngine_withdrawn (s := u) (e := e) (engOf s.eng e).cause (by rw [heng, hst]; decide)
  have hwake := wake_steady (Steady.refl (withdrawEngine e (engOf s.eng e).cause u))
  exact ⟨(hwake.engine e).trans hwithdrawn, hwake.noted hnoted⟩

end

/-! ### Spares that take over (R88, R89) -/

theorem isSlow_takeOut (e : RepairEntry) (cause : Nat) (s : State) (c g x : Nat) :
    isSlow (takeOut e cause s) c g x = isSlow s c g x := by
  obtain ⟨o, l, huni, -⟩ := takeOut_uni e cause s
  rw [isSlow, huni, isSlow]

/-- An element that goes out of service leaves the others of its group in their order. -/
theorem workingOf_takeOut (p cause : Nat) (s : State) (c : Nat) :
    workingOf (takeOut { cls := c, grp := 0, elt := p } cause s) c 0 = (workingOf s c 0).filter (· != p) := by
  have hout (k : Nat) : (!isOut (takeOut { cls := c, grp := 0, elt := p } cause s) c 0 k) = (!isOut s c 0 k && k != p) := by
    have hentry : (({ cls := c, grp := 0, elt := p } : RepairEntry) == { cls := c, grp := 0, elt := k }) = (k == p) := by
      rw [Bool.eq_iff_iff, beq_iff_eq, beq_iff_eq, RepairEntry.mk.injEq]
      exact ⟨fun h => h.2.2.symm, fun h => ⟨rfl, rfl, h.symm⟩⟩
    rw [isOut_takeOut, Bool.not_or, hentry, bne]
  simp only [workingOf, hout, isSlow_takeOut, List.filter_filter, List.filter_append, Bool.and_assoc, Bool.and_comm, Bool.and_left_comm]

theorem idleSpares_takeOut (p cause : Nat) (s : State) (c : Nat) (m : Tbl Nat) :
    idleSpares (takeOut { cls := c, grp := 0, elt := p } cause s) c m =
      (workingOf s c 0).filter fun k => k != p && !(m.any fun q => q.2 == k) := by
  simp only [idleSpares, workingOf_takeOut, List.filter_filter, Bool.and_comm]

theorem isOut_takeOut_self (e : RepairEntry) (cause : Nat) (s : State) : isOut (takeOut e cause s) e.cls e.grp e.elt = true := by
  rw [isOut_takeOut, beq_self_eq_true, Bool.or_true]

section
variable {s : State} {p i x : Nat} {r : List Nat}

/-- A codec engine that fails gives its logical role to the lowest spare (R89). -/
theorem codecTakeover_spare (cause : Nat) (hout : isOut s 3 0 p = false)
    (hrole : s.cdc.engMap.find? (fun q => q.2 == p) = some (i, p))
    (hspare : ((workingOf s 3 0).filter fun k => k != p && !(s.cdc.engMap.any fun q => q.2 == k)) = x :: r) :
    tget 99 (codecTakeover p cause s).cdc.engMap i = x ∧ isOut (codecTakeover p cause s) 3 0 p = true ∧
    noted (codecTakeover p cause s) 0x0004 0 0 0 := by
  have hcdc : (takeOut { cls := 3, grp := 0, elt := p } cause s).cdc = s.cdc := takeOut_same (b := .cdc) _ _ _ (by decide)
  unfold codecTakeover
  dsimp only
  simp only [hcdc, hrole, idleSpares_takeOut, hspare]
  exact ⟨tget_tset_same _ _ _ _, isOut_takeOut_self { cls := 3, grp := 0, elt := p } cause s,
    takeOut_reports (e := { cls := 3, grp := 0, elt := p }) cause hout⟩

/-- A core that fails gives its logical role to the lowest spare (R89). -/
theorem coreTakeover_spare (cause : Nat) (hout : isOut s 4 0 p = false)
    (hrole : s.uni.coreMap.find? (fun q => q.2 == p) = some (i, p))
    (hspare : ((workingOf s 4 0).filter fun k => k != p && !(s.uni.coreMap.any fun q => q.2 == k)) = x :: r) :
    tget 99 (coreTakeover p cause s).uni.coreMap i = x ∧ isOut (coreTakeover p cause s) 4 0 p = true ∧
    noted (coreTakeover p cause s) 0x0004 0 0 0 := by
  have hmap : (takeOut { cls := 4, grp := 0, elt := p } cause s).uni.coreMap = s.uni.coreMap := by
    obtain ⟨o, l, huni, -⟩ := takeOut_uni { cls := 4, grp := 0, elt := p } cause s
    rw [huni]
  unfold coreTakeover
  dsimp only
  simp only [hmap, hrole, idleSpares_takeOut, hspare]
  exact ⟨tget_tset_same _ _ _ _, isOut_takeOut_self { cls := 4, grp := 0, elt := p } cause s,
    takeOut_reports (e := { cls := 4, grp := 0, elt := p }) cause hout⟩

theorem exec_codecKatTimer_fail (hs : unitServesOrHeld s = true) (hp : p < 9) (hout : isOut s 3 0 p = false) :
    exec (.codecKatTimer p false) s = .next (codecTakeover p 5 s) :=
  congrArg _ (if_neg (by simp [hs, hout, hp]))

theorem exec_codecKatTimer_pass : exec (.codecKatTimer p true) s = .next s := rfl

theorem exec_shrewCoreFailure (hs : unitServesOrHeld s = true) (hp : p < 10) (hout : isOut s 4 0 p = false) :
    exec (.shrewCoreFailure p) s = .next (coreTakeover p 5 s) :=
  congrArg _ (if_neg (by simp [hs, hout, hp]))

end

/-! ### SRAM rows (R88) -/

/-- Spare rows that replace no row are not affected by a row of the array that goes out of service. -/
theorem freeSpareRows_takeOut {b row : Nat} (hrow : row < 4096) (cause : Nat) (s : State) :
    freeSpareRows (takeOut { cls := 5, grp := b, elt := row } cause s) b = freeSpareRows s b := by
  have hout (k : Nat) : isOut (takeOut { cls := 5, grp := b, elt := row } cause s) 5 b (4096 + k) = isOut s 5 b (4096 + k) := by
    have hne : (({ cls := 5, grp := b, elt := row } : RepairEntry) == { cls := 5, grp := b, elt := 4096 + k }) = false := by
      rw [beq_eq_false_iff_ne, Ne, RepairEntry.mk.injEq]
      omega
    rw [isOut_takeOut, hne, Bool.or_false]
  have hmap : (takeOut { cls := 5, grp := b, elt := row } cause s).uni.rowMap = s.uni.rowMap := by
    obtain ⟨o, l, huni, -⟩ := takeOut_uni { cls := 5, grp := b, elt := row } cause s
    rw [huni]
  simp only [freeSpareRows, hout, hmap, isSlow_takeOut]

/-- The corrected errors of a row that count with one now: those of the last 24 h (R88). -/
def recentErrors (s : State) (b row : Nat) : List Ns :=
  (tget [] s.uni.rowErrors (2 ^ 13 * b + row)).filter fun t => decide (now s < t + dayNs)

theorem entryValid_of_row {b row : Nat} (hb : b < 256) (hrow : row < 4096) : entryValid { cls := 5, grp := b, elt := row } = true := by
  show ((List.range 320).contains b && decide (row < 4104)) = true
  rw [Bool.and_eq_true, List.contains_iff_mem, List.mem_range, decide_eq_true_eq]
  omega

section
variable {s : State} {b row : Nat} (hs : unitServesOrHeld s = true) (hb : b < 256) (hrow : row < 4096)
  (hout : isOut s 5 b row = false)
include hs hb hrow hout

/-- A corrected error that is not the third of its row within 24 h is only counted. -/
theorem exec_sramRowError_counted (hrecent : (recentErrors s b row).length < 2) : exec (.sramRowError b row false true) s =
    .next { s with uni := { s.uni with rowErrors := tset (2 ^ 13 * b + row) (now s :: recentErrors s b row) s.uni.rowErrors } } := by
  have hdue : (false || decide (3 ≤ (now s :: recentErrors s b row).length)) = false := by
    rw [Bool.false_or, decide_eq_false_iff_not, List.length_cons]
    omega
  show execSramRowError b row false true s = _
  unfold execSramRowError
  dsimp only
  rw [if_neg (by simp [entryValid_of_row hb hrow, hout, hs]), ← recentErrors, hdue]
  rfl

/-- An uncorrectable error, or the third corrected one within 24 h, replaces the row by the lowest spare of its bank. -/
theorem sramRowError_replaced {k : Nat} {ks : List Nat} (hspare : freeSpareRows s b = k :: ks) {un : Bool}
    (hun : un = true ∨ 2 ≤ (recentErrors s b row).length) : Answers (.sramRowError b row un true) s fun t =>
      isOut t 5 b row = true ∧ (b, row, k) ∈ t.uni.rowMap := by
  have hdue : (un || decide (3 ≤ (now s :: recentErrors s b row).length)) = true := by
    rw [Bool.or_eq_true, decide_eq_true_eq, List.length_cons]
    exact hun.imp_right (Nat.add_le_add_right · 1)
  refine ⟨_, (?_ : execSramRowError b row un true s = .next (wake (rowContents b un true (replaceRow b row 4
    (takeOut { cls := 5, grp := b, elt := row } 4
      { s with uni := { s.uni with rowErrors := tdel (2 ^ 13 * b + row) s.uni.rowErrors } }))))), ?_⟩
  · unfold execSramRowError
    dsimp only
    rw [if_neg (by simp [entryValid_of_row hb hrow, hout, hs]), ← recentErrors, hdue, if_pos hrow]
    rfl
  · generalize hu : takeOut _ 4 _ = u
    have hfree : freeSpareRows u b = k :: ks := by rw [← hu, freeSpareRows_takeOut hrow]; exact hspare
    have hrowOut : ({ cls := 5, grp := b, elt := row } : RepairEntry) ∈ u.uni.outOfService := by
      rw [← isOut_iff, ← hu]
      exact isOut_takeOut_self { cls := 5, grp := b, elt := row } 4 _
    have hsame (v : State) : (wake (rowContents b un true v)).uni = v.uni :=
      (wake_kept _ (rowContents_kept b un true v (.refl _ v) (covers_refl _)) (covers_refl _)).frame .uni (by decide)
    obtain ⟨l, hl⟩ := checkLevels_uni [5] { u with uni := { u.uni with rowMap := u.uni.rowMap ++ [(b, row, k)] } }
    rw [isOut_iff, hsame, replaceRow, hfree, hl]
    exact ⟨hrowOut, List.mem_append_right _ (.head _)⟩

end

/-! ### The pace scan (R88) -/

theorem mem_addNew {α : Type} [BEq α] [LawfulBEq α] (x : α) (l : List α) : x ∈ addNew x l := by
  unfold addNew
  split
  · next h => exact List.contains_iff_mem.1 h
  · exact List.mem_append_right _ (.head _)

section
variable {s : State} {e : RepairEntry} (hc : e.cls ∈ [1, 2]) (hg : e.grp < 4) (he : e.elt < built e.cls)
  (hout : isOut s e.cls e.grp e.elt = false)
include hc hg he

theorem entryValid_of_engine : entryValid e = true ∧ 1 ≤ e.cls ∧ e.cls ≤ 2 := by
  obtain ⟨c, g, x⟩ := e
  rcases List.mem_pair.1 hc with rfl | rfl
  all_goals exact ⟨by simpa [entryValid, groupsOf, hg] using he, by simp⟩

include hout

/-- The pace scan at one element of a matrix engine. -/
theorem exec_paceScan_single : exec (.paceScan [e]) s =
    .next (if (servingElements s e.cls e.grp).contains e.elt && groupGreen s e && engineIdle s e.grp then
      onEngine e.grp (fun x => { x with st := if x.st = 0 then 2 else x.st, cause := 6, failing := x.failing ++ [e] }) s
    else { s with uni := { s.uni with slow := addNew e s.uni.slow } }) := by
  obtain ⟨hvalid, h1, h2⟩ := entryValid_of_engine hc hg he
  have h5 : ¬ e.cls = 5 := by omega
  have hkind : decide (2 < e.cls) = false := decide_eq_false (by omega)
  have hreplace : paceReplace e s =
      onEngine e.grp (fun x => { x with st := if x.st = 0 then 2 else x.st, cause := 6, failing := x.failing ++ [e] }) s := by
    rcases List.mem_pair.1 hc with h | h <;> simp only [paceReplace, h]
  show execPaceScan [e] s = _
  rw [execPaceScan, List.filter_cons_of_pos (by simp only [hvalid, Bool.true_and, Bool.and_eq_true, decide_eq_true_eq]; omega),
    List.filter_nil, List.foldl_cons, List.foldl_nil]
  dsimp only
  rw [hout, if_neg Bool.false_ne_true, if_neg h5, hkind, Bool.false_or, hreplace]

theorem paceScan_replaces (hserves : (servingElements s e.cls e.grp).contains e.elt = true) (hgreen : groupGreen s e = true)
    (hidle : engineIdle s e.grp = true) : Answers (.paceScan [e]) s fun t =>
      (engOf t.eng e.grp).st = 2 ∧ e ∈ (engOf t.eng e.grp).failing := by
  have hst : (engOf s.eng e.grp).st = 0 := by
    simp only [engineIdle, Bool.and_eq_true, beq_iff_eq] at hidle
    exact hidle.1.2
  refine ⟨_, (exec_paceScan_single hc hg he hout).trans (congrArg _ (if_pos (by rw [hserves, hgreen, hidle]; rfl))), ?_⟩
  show (engOf (onEngine _ _ s).eng e.grp).st = 2 ∧ e ∈ (engOf (onEngine _ _ s).eng e.grp).failing
  rw [engOf_onEngine_same]
  exact ⟨if_pos hst, List.mem_append_right _ (.head _)⟩

theorem paceScan_notes (hnot : ¬ ((servingElements s e.cls e.grp).contains e.elt = true ∧ groupGreen s e = true ∧
    engineIdle s e.grp = true)) : Answers (.paceScan [e]) s fun t => e ∈ t.uni.slow ∧ t.eng = s.eng :=
  ⟨_, (exec_paceScan_single hc hg he hout).trans (congrArg _ (if_neg (by rwa [Bool.and_eq_true, Bool.and_eq_true, and_assoc]))),
    mem_addNew _ _, rfl⟩

end

end Sys2Proof.Proofs
end

section
/-! A restart of the firmware (R42, R48, R96, R137): the operators in flight end, registers take their reset values, and the image
in force is validated again. -/

namespace Sys2Proof.Proofs

-- The lemmas of this file are checked one after another, with few threads at a time.
set_option Elab.async false

open Sys2Proof.Machine Sys2Proof.Safety Sys2Proof.Laws

/-! ### Bells and interrupts -/

/-- From `s` to `t` more was sent; what waits for a port waits still, and the firmware's epoch is the same. -/
structure Rung (s t : State) : Prop where
  out : ∀ o ∈ s.out, o ∈ t.out
  transit : t.wrn.transit = s.wrn.transit
  epoch : t.mbx.fwEpoch = s.mbx.fwEpoch

theorem Rung.refl (s : State) : Rung s s := ⟨fun _ h => h, rfl, rfl⟩

theorem Rung.trans {s t u : State} (h : Rung s t) (g : Rung t u) : Rung s u :=
  ⟨fun o ho => g.out o (h.out o ho), g.transit.trans h.transit, g.epoch.trans h.epoch⟩

theorem Rung.foldl {α : Type} {f : State → α → State} (hf : ∀ s x, Rung s (f s x)) (l : List α) (s : State) :
    Rung s (l.foldl f s) := by
  induction l generalizing s with
  | nil => exact .refl s
  | cons x l ih => exact (hf s x).trans (ih (f s x))

/-- What is on its way stays on its way. -/
theorem Rung.sent {s t : State} (h : Rung s t) {dst : Nat} {m : Msg} (hs : sentTo s dst m) : sentTo t dst m := by
  obtain ⟨e, hdst, hmsg, ⟨n, hn⟩ | ⟨w, hw, he⟩⟩ := hs
  · exact ⟨e, hdst, hmsg, .inl ⟨n, h.out _ hn⟩⟩
  · exact ⟨e, hdst, hmsg, .inr ⟨w, h.transit ▸ hw, he⟩⟩

theorem emit_rung (o : Out) (s : State) : Rung s (emit o s) := ⟨fun _ h => .tail _ h, rfl, rfl⟩

theorem sendMsix_rung (ld v : Nat) (s : State) : Rung s (sendMsix ld v s) := ⟨fun _ h => List.mem_append_right _ h, rfl, rfl⟩

theorem onBox_rung (ld : Nat) (f : HostBox → HostBox) (s : State) : Rung s (onBox ld f s) := ⟨fun _ h => h, rfl, rfl⟩

theorem onInt_rung (j : Nat) (f : IntBox → IntBox) (s : State) : Rung s (onInt j f s) := ⟨fun _ h => h, rfl, rfl⟩

theorem onBoxBell_rung (ld : Nat) (f : HostBox → HostBox) (s : State) : Rung s (onBoxBell ld f s) := by
  unfold onBoxBell ringBell
  split
  · exact (onBox_rung ld f s).trans (sendMsix_rung ..)
  · exact onBox_rung ld f s

theorem intBells_rung (j : Nat) (l : List Nat) (s : State) : Rung s (intBells j l s) :=
  Rung.foldl (fun u _ => (onInt_rung j _ u).trans (emit_rung _ _)) l s

theorem maskWrite_rung (ld : Nat) (v : BitVec 32) (s : State) : Rung s (maskWrite ld v s) := by
  unfold maskWrite
  dsimp only
  split
  · exact (onBox_rung ld _ s).trans (sendMsix_rung ..)
  · exact onBox_rung ld _ s

/-! ### What a restart resets (R48, R137) -/

/-- The queues that the firmware writes are purged of its new epoch (R137). -/
theorem fwEpochAdvance_rung (s : State) :
    Rung { s with mbx := { s.mbx with fwEpoch := (s.mbx.fwEpoch + 1) % 16 } } (fwEpochAdvance s) := by
  unfold fwEpochAdvance
  dsimp only
  refine Rung.trans ?_ (Rung.foldl (fun v ld => onBoxBell_rung ld _ v) _ _)
  refine Rung.foldl (fun v j => ?_) _ _
  refine Rung.trans ?_ (intBells_rung j _ _)
  exact onInt_rung j _ v

theorem rwReset_rung (s : State) : Rung s (rwReset s) := by
  unfold rwReset
  refine Rung.trans ?_ (Rung.foldl (fun v p => ?_) _ _)
  · exact ⟨fun _ h => h, rfl, rfl⟩
  · exact maskWrite_rung p.1 _ v

/-- What the reset of the registers of class RW writes of FUS and LIF, and what it leaves. -/
theorem rwReset_fields (s : State) : (rwReset s).fus = { s.fus with len := 0 } ∧ (rwReset s).vq.loadLen = 0 ∧
    (rwReset s).vq.coord = s.vq.coord ∧ (rwReset s).lif.fwRestarts = s.lif.fwRestarts ∧ (rwReset s).opq = s.opq := by
  obtain ⟨u, hk, hfus, hload, hcoord, hcount, hopq⟩ : ∃ u, Kept [.hst, .mbx, .out] u (rwReset s) ∧ u.fus = { s.fus with len := 0 } ∧
      u.vq.loadLen = 0 ∧ u.vq.coord = s.vq.coord ∧ u.lif.fwRestarts = s.lif.fwRestarts ∧ u.opq = s.opq :=
    ⟨_, Kept.foldl (.refl _ _) fun v p h => maskWrite_kept p.1 _ v h (covers_refl _), rfl, rfl, rfl, rfl, rfl⟩
  have hvq : (rwReset s).vq = u.vq := hk.frame .vq (by decide)
  have hlif : (rwReset s).lif = u.lif := hk.frame .lif (by decide)
  rw [hvq, hlif]
  exact ⟨(hk.frame .fus (by decide)).trans hfus, hload, hcoord, hcount, (hk.frame .opq (by decide)).trans hopq⟩

theorem coordRestart_of_none {s : State} (h : s.vq.coord = none) : coordRestart s = s := by
  unfold coordRestart
  rw [h]

theorem flushRecords_of_restarting {s : State} (h : s.uni.restarting = true) : flushRecords s = s := by
  rw [flushRecords, h, Bool.true_or, if_pos rfl]

/-- How a restart begins when no epoch is decided here: nothing is rolled back, and no record is written. -/
theorem restartBegins_fields {s : State} (h : s.vq.coord = none) : ∃ u : State, restartBegins s = u ∧
    u.uni = { s.uni with restarting := true } ∧ u.fus.nonce = Config.entropy s.free ∧ u.fus.lifted = 0 ∧ u.fus.len = s.fus.len ∧
    u.vq.buf = [] ∧ u.vq.loadLen = s.vq.loadLen ∧ u.lif.fwRestarts = sat 16 (s.lif.fwRestarts + 1) ∧ u.mbx = s.mbx ∧
    u.opq = s.opq ∧ u.wrn = s.wrn ∧ u.out = s.out := by
  unfold restartBegins
  extract_lets _ f _ _ _ u
  rw [coordRestart_of_none (s := u) h, flushRecords_of_restarting rfl]
  exact ⟨u, rfl, rfl, rfl, rfl, rfl, rfl, rfl, rfl, rfl, rfl, rfl, rfl⟩

theorem exec_firmwareRestart_of_running {s : State} (hs : unitServesOrHeld s = true) (hr : s.uni.restarting = false) :
    exec .firmwareRestart s = .next (restartBegins (restartLosses s)) :=
  congrArg _ (if_neg (by rw [hs, hr]; decide))

theorem exec_firmwareRestart_other {s : State} (h : unitServesOrHeld s = false ∨ s.uni.restarting = true) :
    exec .firmwareRestart s = .next s :=
  congrArg _ (if_pos (by rcases h with h | h <;> rw [h] <;> simp))

theorem restartLosses_coord (s : State) : (restartLosses s).vq.coord = s.vq.coord := by
  have hvq := (fwEpochAdvance_kept _ (.refl _ (rwReset (abortOps (fun _ => true) 3 s))) (covers_refl _)).frame .vq (by decide)
  have habort : (abortOps (fun _ => true) 3 s).vq = s.vq := (abortOps_kept _ _ _ (.refl _ s) (covers_refl _)).frame .vq (by decide)
  obtain ⟨-, -, hcoord, -⟩ := rwReset_fields (abortOps (fun _ => true) 3 s)
  rw [restartLosses, hvq, hcoord, habort]

section
variable {s : State} (hs : unitServesOrHeld s = true) (hr : s.uni.restarting = false) (hcoord : s.vq.coord = none)
include hs hr hcoord

/-- A restart draws a new nonce, empties the load buffer, is counted, and advances the firmware's epoch (R42, R48, R137). -/
theorem firmwareRestart_resets (hops : s.opq.ops = []) (hin : s.opq.intake = []) : Answers .firmwareRestart s fun t =>
    t.uni.restarting = true ∧ (∃ n, t.fus.nonce = Config.entropy n) ∧ t.fus.lifted = 0 ∧ t.vq.buf = [] ∧ t.fus.len = 0 ∧
    t.vq.loadLen = 0 ∧ t.lif.fwRestarts = min (s.lif.fwRestarts + 1) 65535 ∧ t.mbx.fwEpoch = (s.mbx.fwEpoch + 1) % 16 ∧
    t.uni.st = s.uni.st := by
  have habort : abortOps (fun _ => true) 3 s = s := by rw [abortOps, hops, hin]; rfl
  have hlosses : restartLosses s = fwEpochAdvance (rwReset s) := by rw [restartLosses, habort]
  have hk := fwEpochAdvance_kept _ (.refl _ (rwReset s)) (covers_refl _)
  obtain ⟨hfus, hload, -, hcount, -⟩ := rwReset_fields s
  have hepoch := (fwEpochAdvance_rung (rwReset s)).epoch
  have huni : (rwReset s).uni = s.uni := (rwReset_kept _ (.refl _ s) (covers_refl _)).frame .uni (by decide)
  refine ⟨_, exec_firmwareRestart_of_running hs hr, ?_⟩
  obtain ⟨u, hu, huni', hnonce, hlifted, hlen, hbuf, hload', hcount', hmbx, -, -, -⟩ :=
    restartBegins_fields ((restartLosses_coord s).trans hcoord)
  rw [hu, huni', hlifted, hlen, hbuf, hload', hcount', hmbx, hlosses, hk.frame .fus (by decide), hk.frame .vq (by decide),
    hk.frame .lif (by decide), hk.frame .uni (by decide), hfus, hload, hcount, hepoch, huni]
  refine ⟨rfl, ⟨_, hnonce⟩, rfl, rfl, rfl, rfl, rfl, ?_, rfl⟩
  show ((rwReset s).mbx.fwEpoch + 1) % 16 = _
  rw [(rwReset_rung s).epoch]

end

/-! ### The operator that a restart ends (R338) -/

theorem leNat_leBytes (n v : Nat) : leNat (leBytes n v) = v % 2 ^ (8 * n) := by
  induction n generalizing v with
  | zero => rw [leBytes, leNat, Nat.mul_zero, Nat.pow_zero, Nat.mod_one]
  | succ n ih =>
    rw [leBytes, leNat, ih, BitVec.toNat_ofNat, Nat.mul_succ, Nat.add_comm (8 * n), Nat.pow_add]
    exact (Nat.mod_mul (b := 2 ^ (8 * n))).symm

theorem leNat_lt (l : List Byte) : leNat l < 2 ^ (8 * l.length) := by
  induction l with
  | nil => exact Nat.one_pos
  | cons b l ih =>
    rw [leNat, List.length_cons, Nat.mul_succ, Nat.pow_add]
    have hb : b.toNat < 256 := b.isLt
    omega

theorem fld_lt (l : List Byte) (o n : Nat) : fld l o n < 2 ^ (8 * n) :=
  (leNat_lt _).trans_le (Nat.pow_le_pow_right Nat.two_pos (Nat.mul_le_mul_left 8 (List.length_take_le _ _)))

/-- A field that begins after the first part of a list. -/
theorem fld_append_of_le {a b : List Byte} {o : Nat} (n : Nat) (h : a.length ≤ o) : fld (a ++ b) o n = fld b (o - a.length) n := by
  rw [fld, slice, List.drop_append, List.drop_eq_nil_of_le h, List.nil_append, fld, slice]

/-- A field that is the first part of a list. -/
theorem fld_leBytes_append (n v : Nat) (b : List Byte) : fld (leBytes n v ++ b) 0 n = v % 2 ^ (8 * n) := by
  rw [fld, slice, List.drop_zero, List.take_append_of_le_length (length_leBytes n v).ge,
    List.take_of_length_le (length_leBytes n v).le, leNat_leBytes]

/-- The fields of a completion record (Table 14.3). -/
theorem recordOf_fields (s : State) (o : Op) (v : RecVals) : (recordOf s o v).length = 64 ∧
    fld (recordOf s o v) 0 4 = descTag o.desc ∧ fld (recordOf s o v) 8 1 = descOp o.desc ∧
    fld (recordOf s o v) 9 1 = v.status % 256 ∧ fld (recordOf s o v) 10 1 = v.detail % 256 ∧
    fld (recordOf s o v) 16 8 = v.r0 % 2 ^ 64 ∧ fld (recordOf s o v) 24 8 = v.r1 % 2 ^ 64 := by
  have htag : descTag o.desc % 4294967296 = descTag o.desc := Nat.mod_eq_of_lt (fld_lt _ _ 4)
  have hop : descOp o.desc % 256 = descOp o.desc := Nat.mod_eq_of_lt (fld_lt _ _ 1)
  refine ⟨?_, ?_⟩
  · simp only [recordOf, provenance, padTo, List.length_append, length_leBytes, List.length_take, List.length_replicate]
    omega
  · simp only [recordOf, List.append_assoc, fld_leBytes_append, fld_append_of_le, length_leBytes, htag, hop, Nat.reduceLeDiff,
      Nat.reduceSub, Nat.reduceMul, Nat.reducePow, and_self]

theorem sameOp_self (o : Op) : sameOp o o = true := by
  simp only [sameOp, beq_self_eq_true, Bool.and_self]

theorem releaseFences_of_noFwd {s : State} (h : s.opq.fwd = []) : releaseFences s = s := by
  rw [releaseFences, h]
  rfl

theorem moveIntake_of_empty {s : State} (h : s.opq.intake = []) : moveIntake s = s := by
  rw [moveIntake, h]

/-- A message that is not bulk, to a unit that can be reached, is on its way. -/
theorem sendMsg_sent {dst tag tenant : Nat} {m : Msg} {s : State} (hbulk : bulkLen m = none) (hport : (outPort s dst).isSome = true)
    (hreach : dst ∉ s.wrn.unreachable) : sentTo (sendMsg dst tag tenant m s) dst m := by
  obtain ⟨n, hn⟩ := Option.isSome_iff_exists.1 hport
  rw [sendMsg, sendEnv, if_neg (by rwa [List.contains_iff_mem])]
  dsimp only
  rw [hn]
  dsimp only
  rw [sendBy, hbulk]
  exact post_sent n _ _ s

section
variable {s : State} {o : Op} (hops : s.opq.ops = [o]) (hin : s.opq.intake = []) (hfwd : s.opq.fwd = [])
  (hunit : o.ringUnit ≠ me s) (hport : (outPort s o.ringUnit).isSome = true) (hreach : o.ringUnit ∉ s.wrn.unreachable)
include hops hin hfwd hunit hport hreach

/-- The record of the only operator here, when it is aborted, goes to the unit of its ring. -/
theorem retireOp_single {v : RecVals} (hstatus : v.status = 1) (hdetail : v.detail = 3) : (retireOp o v s).opq.ops = [] ∧
    sentTo (retireOp o v s) o.ringUnit (.opDone (recordOf s o v)) := by
  obtain ⟨u, hu, hwrn, hport', hopq⟩ : ∃ u : State, retireOp o v s =
      releaseFences (moveIntake (respond o.ringUnit o.tag o.tenant (.opDone (recordOf s o v)) u)) ∧ u.wrn = s.wrn ∧
      (∀ d, outPort u d = outPort s d) ∧ u.opq.ops = [] ∧ u.opq.intake = [] ∧ u.opq.fwd = [] := by
    unfold retireOp
    dsimp only
    split
    · next h => rw [hstatus, hdetail] at h; exact absurd h (by decide)
    · split
      · next h => exact absurd h hunit
      · exact ⟨_, rfl, rfl, fun _ => rfl, by simp [countRecord, hstatus, hdetail, hops, hin, hfwd, sameOp_self]⟩
  have hsame : (respond o.ringUnit o.tag o.tenant (.opDone (recordOf s o v)) u).opq = u.opq :=
    (respond_kept _ _ _ _ _ (.refl _ u) (covers_refl _)).frame .opq (by decide)
  have hsent : sentTo (respond o.ringUnit o.tag o.tenant (.opDone (recordOf s o v)) u) o.ringUnit (.opDone (recordOf s o v)) :=
    sendMsg_sent rfl ((congrArg _ (hport' o.ringUnit)).trans hport) (by show _ ∉ u.wrn.unreachable; rwa [hwrn])
  obtain ⟨hops', hin', hfwd'⟩ := hopq
  rw [hu, moveIntake_of_empty (by rw [hsame, hin']), releaseFences_of_noFwd (by rw [hsame, hfwd']), hsame]
  exact ⟨hops', hsent⟩

end

/-- A restart ends the operator in flight with its progress, and its record goes to the unit of its ring (R96, R338). -/
theorem firmwareRestart_ends {s : State} {o : Op} (hs : unitServesOrHeld s = true) (hr : s.uni.restarting = false)
    (hcoord : s.vq.coord = none) (hops : s.opq.ops = [o]) (hin : s.opq.intake = []) (hfwd : s.opq.fwd = []) (hgate : o.gate = 0)
    (hunit : o.ringUnit ≠ me s) (hport : (outPort s o.ringUnit).isSome = true) (hreach : o.ringUnit ∉ s.wrn.unreachable) :
    Answers .firmwareRestart s fun t => ended t o 1 3 o.progress 0 := by
  let v : RecVals := { status := 1, detail := 3, flags11 := o.flags11, flags14 := o.flags14, r0 := o.progress }
  have habort : abortOps (fun _ => true) 3 s = retireOp o v s := by
    rw [abortOps, hops, hin]
    exact if_pos hgate
  obtain ⟨hnone, hsent⟩ := retireOp_single hops hin hfwd hunit hport hreach (v := v) rfl rfl
  obtain ⟨u, hu, -, -, -, -, -, -, -, -, hopq, hwrn, hout⟩ := restartBegins_fields ((restartLosses_coord s).trans hcoord)
  obtain ⟨-, -, -, -, hreset⟩ := rwReset_fields (retireOp o v s)
  have hadvance : (fwEpochAdvance (rwReset (retireOp o v s))).opq = (rwReset (retireOp o v s)).opq :=
    (fwEpochAdvance_kept _ (.refl _ _) (covers_refl _)).frame .opq (by decide)
  have hrung := (fwEpochAdvance_rung (rwReset (retireOp o v s))).sent ((rwReset_rung _).sent hsent)
  rw [restartLosses, habort] at hopq hwrn hout
  refine ⟨u, (exec_firmwareRestart_of_running hs hr).trans (congrArg _ hu), ?_, recordOf s o v, ?_, recordOf_fields s o v⟩
  · rw [hopq, hadvance, hreset, hnone]
  · unfold sentTo
    rw [hwrn, hout]
    exact hrung

/-! ### The end of a restart (R96) -/

theorem moveTo_causes (st : UnitState) (c d : Nat) (s : State) : (moveTo st c d s).flt.causes = s.flt.causes := by
  unfold moveTo
  split
  · rfl
  · rw [record_causes]

/-- Entering HELD for a fault notes its cause (R374). -/
theorem enterHeldFault_held {s : State} (cause : Nat)
    (h : s.uni.st = .starting ∨ s.uni.st = .serving ∨ s.uni.st = .draining ∨ s.uni.st = .held) :
    (∃ b, (enterHeldFault cause s).uni = { s.uni with st := .held, beforeHold := b }) ∧ cause ∈ (enterHeldFault cause s).flt.causes := by
  unfold enterHeldFault
  split
  · next hheld => exact ⟨⟨s.uni.beforeHold, by rw [← hheld]⟩, mem_addNew _ _⟩
  · exact ⟨⟨s.uni.st, by rw [moveTo_uni]⟩, by rw [moveTo_causes]; exact .head _⟩
  · exact ⟨⟨s.uni.st, by rw [moveTo_uni]⟩, by rw [moveTo_causes]; exact .head _⟩
  · exact ⟨⟨s.uni.st, by rw [moveTo_uni]⟩, by rw [moveTo_causes]; exact .head _⟩
  · next h1 h2 h3 h4 => exact (h.elim h2 (·.elim h3 (·.elim h4 h1))).elim

/-- An event of disposition 1 makes a unit that starts, serves, drains or is HELD stand HELD, with the event as a cause (R425). -/
theorem raise_holds {v : Ev} {s : State} (hrow : (codeRow v.code v.cls).2 = 1)
    (h : s.uni.st = .starting ∨ s.uni.st = .serving ∨ s.uni.st = .draining ∨ s.uni.st = .held) :
    (∃ b, (raise v s).uni = { s.uni with st := .held, beforeHold := b }) ∧ v.code ∈ (raise v s).flt.causes ∧
    (raise v s).vq = s.vq ∧ (raise v s).lif = s.lif := by
  have hraise : raise v s = enterHeldFault v.code (record v s) := by rw [raise, hrow, dispose]
  obtain ⟨⟨b, hheld⟩, hcause⟩ := enterHeldFault_held v.code (s := record v s) (by rwa [record_uni])
  have hk := enterHeldFault_kept v.code _ (.refl _ (record v s)) (covers_refl _)
  rw [hraise]
  exact ⟨⟨b, by rw [hheld, record_uni]⟩, hcause, (hk.frame .vq (by decide)).trans (record_vq v s),
    (hk.frame .lif (by decide)).trans (record_lif v s)⟩

/-- A unit that starts, serves, drains or is HELD and loses its image is HELD without one (R96). -/
theorem imageGone_held {s : State} (c : Nat) (h : s.uni.st = .starting ∨ s.uni.st = .serving ∨ s.uni.st = .draining ∨ s.uni.st = .held) :
    (∃ b, (imageGone c s).uni = { s.uni with st := .held, beforeHold := b }) ∧ 0x000A ∈ (imageGone c s).flt.causes ∧
    (imageGone c s).vq = { s.vq with active := none, number := 0, valid := false, live := none } := by
  obtain ⟨huni, hcause, hvq, -⟩ := raise_holds (v := { code := 0x000A, d0 := c }) (by with_unfolding_all rfl)
    (s := { s with vq := { s.vq with active := none, number := 0, valid := false, live := none } }) h
  exact ⟨huni, hcause, hvq⟩

theorem wake_same {b : Block} (s : State)
    (hb : b ∉ [Block.pwr, .hst, .mbx, .ext, .cdc, .drt, .hrd, .wrn, .eng, .opq, .flt, .out, .free]) : b.same s (wake s) :=
  (wake_kept s (.refl _ s) (covers_refl _)).frame b hb

theorem flushRecords_same {b : Block} (s : State)
    (hb : b ∉ [Block.pwr, .hst, .ext, .cdc, .drt, .hrd, .wrn, .eng, .opq, .flt, .out]) : b.same s (flushRecords s) :=
  (flushRecords_kept s (.refl _ s) (covers_refl _)).frame b hb

section
variable {s : State}

theorem exec_firmwareRestartComplete_other (hr : s.uni.restarting = false) : exec .firmwareRestartComplete s = .next s :=
  if_pos (by rw [hr]; rfl)

variable {m : Image} (hr : s.uni.restarting = true) (hm : s.vq.active = some m)
include hr hm

/-- A restart ends with the image in force when it still passes (R96). -/
theorem firmwareRestartComplete_passes (hcode : (validateImage s.fus none s.vq.genFloor m.raw 12).1.code = 0) :
    Answers .firmwareRestartComplete s fun t => t.uni.restarting = false ∧ t.vq.active = some m ∧ t.uni.cause = 1 := by
  let u : State := { s with uni := { s.uni with restarting := false, cause := 1 } }
  have huni : (wake (flushRecords u)).uni = u.uni := (wake_same (b := .uni) _ (by decide)).trans (flushRecords_same (b := .uni) _ (by decide))
  have hvq : (wake (flushRecords u)).vq = u.vq := (wake_same (b := .vq) _ (by decide)).trans (flushRecords_same (b := .vq) _ (by decide))
  refine ⟨wake (flushRecords u), ?_, ?_⟩
  · show execFirmwareRestartComplete s = _
    unfold execFirmwareRestartComplete
    dsimp only
    rw [if_neg (by rw [hr]; decide), hm, startVerdict, hcode, if_neg (by simp)]
  · dsimp only
    rw [huni, hvq]
    exact ⟨rfl, hm, rfl⟩

/-- A restart ends HELD without an image when the one in force passes no more (R96). -/
theorem firmwareRestartComplete_fails (hcode : (validateImage s.fus none s.vq.genFloor m.raw 12).1.code ≠ 0)
    (hst : s.uni.st = .serving ∨ s.uni.st = .draining ∨ s.uni.st = .held) : Answers .firmwareRestartComplete s fun t =>
      t.uni.restarting = false ∧ t.vq.active = none ∧ t.uni.st = .held ∧ 0x000A ∈ t.flt.causes := by
  let u : State := { s with uni := { s.uni with restarting := false, cause := 1 } }
  obtain ⟨⟨b, huni⟩, hcause, hvq⟩ := imageGone_held (s := u) (validateImage s.fus none s.vq.genFloor m.raw 12).1.code (.inr hst)
  refine ⟨imageGone (validateImage s.fus none s.vq.genFloor m.raw 12).1.code u, ?_, ?_⟩
  · show execFirmwareRestartComplete s = _
    unfold execFirmwareRestartComplete
    dsimp only
    rw [if_neg (by rw [hr]; decide), hm, startVerdict, if_pos ⟨rfl, hcode⟩]
  · dsimp only
    rw [huni, hvq]
    exact ⟨rfl, rfl, rfl, hcause⟩

end

end Sys2Proof.Proofs
end

section
/-! A cold start that finds nothing faulty (R77 to R93): its phases in order, what each leaves for the next, and its two ends. -/

namespace Sys2Proof.Proofs

-- The lemmas of this file are checked one after another, with few threads at a time.
set_option Elab.async false

open Sys2Proof.Machine Sys2Proof.Safety Sys2Proof.Laws

/-- What a start finds when nothing is faulty, no other unit is heard, and no link, port or bay has anything attached. -/
def quietEnv (ms : List Nat) : StartEnv :=
  { fwOk := true, fails := [], slows := [], retestPass := [], badMonitors := [], fuseCorrected := [], fuseBad := [], badSids := []
    warrenTime := none, ptpTime := none, hellos := [], dreys := [], replayed := [], links := [], phaseMs := ms }

/-- The unit runs a phase. -/
def enterPhase (n ms : Nat) (s : State) : State := { s with uni := { s.uni with phase := n, phaseMs := tset n ms s.uni.phaseMs } }

/-- What holds of a unit that runs the phases of a clean start, from the state `s0`, with the fuses `f` and the image state `v`. -/
structure Clean (s0 : State) (f : Fus) (v : Vq) (s : State) : Prop where
  st : s.uni.st = .starting
  hold : s.uni.holdWanted = false
  fus : s.fus = f
  vq : s.vq = v
  calValid : s.lif.calValid = true
  cal : s0.lif.cal ≤ s.lif.cal
  counted : s.lif.coldStarts = min (s0.lif.coldStarts + 1) 65535

section
variable {s0 s t : State} {f : Fus} {v : Vq}

/-- A step that leaves the fuses, the image and the clock, and the fields of UNI that a start depends on. -/
theorem Clean.of_same (h : Clean s0 f v s) (hst : t.uni.st = s.uni.st) (hhold : t.uni.holdWanted = s.uni.holdWanted)
    (hfus : t.fus = s.fus) (hvq : t.vq = s.vq) (hlif : t.lif = s.lif) : Clean s0 f v t where
  st := hst.trans h.st
  hold := hhold.trans h.hold
  fus := hfus.trans h.fus
  vq := hvq.trans h.vq
  calValid := hlif ▸ h.calValid
  cal := hlif ▸ h.cal
  counted := hlif ▸ h.counted

/-- A step by its law: it touches none of UNI, FUS, VQ and LIF. -/
theorem Clean.of_kept {cv : List Block} (h : Clean s0 f v s) (hk : Kept cv s t) (hu : .uni ∉ cv := by decide) (hf : .fus ∉ cv := by decide)
    (hv : .vq ∉ cv := by decide) (hl : .lif ∉ cv := by decide) : Clean s0 f v t :=
  h.of_same (congrArg Uni.st (hk.frame .uni hu)) (congrArg Uni.holdWanted (hk.frame .uni hu)) (hk.frame .fus hf) (hk.frame .vq hv)
    (hk.frame .lif hl)

theorem Clean.enter (h : Clean s0 f v s) (n ms : Nat) : Clean s0 f v (enterPhase n ms s) := h.of_same rfl rfl rfl rfl rfl

theorem Clean.pass (h : Clean s0 f v s) (ns : Ns) : Clean s0 f v (pass ns s) where
  st := h.st
  hold := h.hold
  fus := h.fus
  vq := h.vq
  calValid := h.calValid
  cal := by
    show _ ≤ if s.lif.calValid then s.lif.cal + ns else s.lif.cal
    rw [if_pos h.calValid]
    exact h.cal.trans (Nat.le_add_right _ _)
  counted := h.counted

theorem pass_outOfService (ns : Ns) (s : State) : (pass ns s).uni.outOfService = s.uni.outOfService := rfl

theorem pass_cdc (ns : Ns) (s : State) : (pass ns s).cdc = s.cdc := rfl

theorem pass_unloaded (h : s.mon = {}) (ns : Ns) : (pass ns s).mon = {} := by
  show { s.mon with timebase := if s.mon.loaded then s.mon.timebase + ns else s.mon.timebase } = ({} : Mon)
  rw [h]
  rfl

end

section
variable {n : Nat} {ms : List Nat} {g : State → State} {s : State}

/-- A phase within its bound runs, and takes its time. -/
theorem inPhase_of_starting (h : s.uni.st = .starting) (hms : ms.getD (n - 1) 0 ≤ phaseLimit n) (hn : n ≠ 7 := by decide) :
    inPhase n (quietEnv ms) g s = pass (ms.getD (n - 1) 0 * msNs) (g (enterPhase n (ms.getD (n - 1) 0) s)) := by
  unfold inPhase
  dsimp only
  rw [if_neg (fun hne => hne h), if_neg (by show ¬ (_ < ms.getD (n - 1) 0 ∧ _); omega), if_neg hn]
  rfl

/-- Phase 7 passes its time itself. -/
theorem inPhase_seven (h : s.uni.st = .starting) (hms : ms.getD 6 0 ≤ phaseLimit 7) :
    inPhase 7 (quietEnv ms) g s = g (enterPhase 7 (ms.getD 6 0) s) := by
  unfold inPhase
  dsimp only
  rw [if_neg (fun hne => hne h), if_neg (by show ¬ (_ < ms.getD 6 0 ∧ _); omega), if_pos rfl]
  rfl

theorem inPhase_of_ended (h : s.uni.st ≠ .starting) (env : StartEnv) : inPhase n env g s = s := if_pos h

end

/-! ### Phases 1 to 4: the fuses and the mappings (R77, R84) -/

theorem badWords_of_words {f g : Fus} (h : f.words = g.words) : badWords f = badWords g := by
  simp only [badWords, fuseBad, h]

theorem fuseBits_of_words {f g : Fus} (h : f.words = g.words) : fuseBits f = fuseBits g := by
  funext w
  simp only [fuseBits, h]

/-- A start that reads every fuse word well leaves the words. -/
theorem readFuses_words (ms : List Nat) (n : Nat) (f : Fus) : (readFuses (quietEnv ms) n f).words = f.words := rfl

theorem phaseRoot_clean {ms : List Nat} {s : State} (hbad : badWords s.fus = []) (hretired : lifecycle s.fus ≠ 3) :
    phaseRoot (quietEnv ms) s = draw { s with fus := readFuses (quietEnv ms) s.free s.fus } := by
  have hwords := readFuses_words ms s.free s.fus
  have hbad' : badWords (readFuses (quietEnv ms) s.free s.fus) = [] := (badWords_of_words hwords).trans hbad
  have hlife : lifecycle (readFuses (quietEnv ms) s.free s.fus) ≠ 3 := by rwa [lifecycle, fuseBits_of_words hwords]
  have hfus : (draw { s with fus := readFuses (quietEnv ms) s.free s.fus }).fus = readFuses (quietEnv ms) s.free s.fus := rfl
  unfold phaseRoot
  dsimp only
  rw [hfus, hbad']
  exact (if_neg Bool.false_ne_true).trans ((if_neg hlife).trans (if_pos rfl))

/-- No trim lies in a word that reads uncorrectable (Table 3.1). -/
theorem untrimmed_of_noBad {f : Fus} (h : badWords f = []) : untrimmed f = [] := by
  have hword {w : Nat} (h0 : 77 ≤ w) (h1 : w ≤ 98) : fuseBad f w = false := by
    have hw := List.filter_eq_nil_iff.1 h w (List.mem_range.2 (by omega))
    have hecc : eccWord w = true := by
      simp only [eccWord, Bool.and_eq_true, decide_eq_true_eq, bne_iff_ne]
      omega
    rwa [hecc, Bool.true_and, Bool.not_eq_true] at hw
  rw [untrimmed, List.append_eq_nil_iff, List.map_eq_nil_iff, List.map_eq_nil_iff, List.filter_eq_nil_iff, List.filter_eq_nil_iff]
  refine ⟨fun n hn => ?_, fun n hn => ?_⟩
  · rw [List.mem_range] at hn
    rw [hword (by omega) (by omega)]
    exact Bool.false_ne_true
  · rw [List.mem_range] at hn
    rw [hword (by omega) (by omega), hword (by omega) (by omega)]
    exact Bool.false_ne_true

section
variable {s : State} (hout : s.uni.outOfService = [])
include hout

theorem isOut_of_none (c g e : Nat) : isOut s c g e = false := by
  rw [isOut, hout]
  rfl

theorem servingElements_full_length (c g : Nat) : (servingElements s c g).length = min (inServiceCount c) (built c) := by
  rw [servingElements_length, List.filter_eq_self.2 fun e _ => by rw [isOut_of_none hout]; rfl, List.length_range]

/-- With nothing out of service and nothing slow, the elements in service are the first ones. -/
theorem servingElements_full (hslow : s.uni.slow = []) (c g : Nat) :
    servingElements s c g = ((List.range (built c)).take (inServiceCount c)).foldl (fun l e => insAsc e l) [] := by
  have hnot (k : Nat) : isSlow s c g k = false := by
    rw [isSlow, hslow]
    rfl
  simp only [servingElements, workingOf, isOut_of_none hout, hnot, Bool.and_false, Bool.not_false, List.filter_true, List.filter_false,
    List.append_nil]

end

/-- No monitor counts as failed before any has been marked so. -/
theorem regulated_of_none (i : Nat) : unregulated {} i = false := by
  have hall (k : Nat) : unfailed {} k i = monPer k := by
    have hgood (x : Nat × Monitor) (hx : x ∈ islandMons {} k i) : (!x.2.failed) = true := by
      obtain ⟨j, -, rfl⟩ := List.mem_map.1 hx
      have hnone : monTbl {} k = [] := by unfold monTbl; split <;> rfl
      rw [hnone]
      rfl
    rw [unfailed, List.filter_eq_self.2 hgood, islandMons, List.length_map, List.length_range]
  rw [unregulated, hall, hall, hall]
  rfl

/-- An engine with its columns, its decoders and its monitors keeps its place at a start. -/
theorem engine_kept_of_none {s : State} (hout : s.uni.outOfService = []) (hmon : s.mon = {}) (e : Nat) :
    (if isOut s 9 e 0 then onEngine e (fun x => { x with st := 3 }) s
    else if (engineColumns s e).length < 128 ∨ (engineDecoders s e).length < 64 ∨ unregulated s.mon (e + 1) = true then
      withdrawEngine e 1 s
    else s) = s := by
  rw [isOut_of_none hout, if_neg Bool.false_ne_true, engineColumns, engineDecoders, servingElements_full_length hout,
    servingElements_full_length hout, hmon, regulated_of_none, if_neg (by decide)]

/-- Phase 4 of a start that finds nothing faulty: every element is in service in its place. -/
theorem phaseRepair_clean {ms : List Nat} {s : State} (hbad : badWords s.fus = []) (hfactory : factoryWords s.fus = [])
    (hfield : s.lif.fieldMap = []) (hmon : s.mon = {}) : ∃ u, phaseRepair (quietEnv ms) s = checkLevels [1, 2, 3, 4, 5, 6, 8, 9] u ∧
      u.uni.st = s.uni.st ∧ u.uni.holdWanted = s.uni.holdWanted ∧ u.fus = s.fus ∧ u.vq = s.vq ∧ u.mon = s.mon ∧
      u.lif = s.lif ∧ u.uni.outOfService = [] ∧ u.cdc.engMap = (List.range 8).map fun i => (i, i) := by
  unfold phaseRepair
  extract_lets words u1 clear fm field first rest _ _ u2 u3 u4 u5 u6 tests u7 u8 _ _ u9 u10 u11
  have hwords : words = [] := hfactory
  have hu1 : u1 = s := by simp only [u1, hwords, List.filter_nil, List.foldl_nil]
  clear_value u1 words
  have hfm : fm = [] := by simp only [fm, hu1, hfield, List.map_nil]
  have hfirst : first = [] := by
    simp only [first, field, hwords, hfm, List.filter_nil, List.map_nil, List.append_nil, List.foldl_nil]
  clear_value fm first
  have hu5 : u5 = u2 := by
    have hfus : u1.fus = s.fus := congrArg State.fus hu1
    simp only [u5, u4, u3, u2, hfirst, List.filter_nil, List.foldl_nil, hfus, untrimmed_of_noBad hbad]
  have hu7 : u7 = u2 := by
    simp only [u7, tests, u6, hu5, quietEnv, List.append_nil, List.filter_nil, List.map_nil, List.foldl_nil]
  clear_value u7
  have hout : u2.uni.outOfService = [] := by
    simp only [u2, rest, hfirst, hfm, List.filter_nil, List.map_nil, List.foldl_nil]
  have hmon2 : u2.mon = {} := (congrArg State.mon hu1).trans hmon
  have hu8 : u8 = u2 := by
    show (List.range 4).foldl _ u7 = u2
    rw [hu7]
    exact List.foldl_fixed' (engine_kept_of_none hout hmon2) _
  clear_value u8
  have hout9 : u9.uni.outOfService = [] := (congrArg (fun t : State => t.uni.outOfService) hu8).trans hout
  have hslow8 : u8.uni.slow = [] := congrArg (fun t : State => t.uni.slow) hu8
  have hu10 : u10 = u9 := if_neg (by rw [servingElements_full_length hout9]; decide)
  have hmon11 : u11.mon = {} :=
    ((checkLevels_kept _ _ (.refl _ u10) (covers_refl _)).frame .mon (by decide)).trans
      ((congrArg State.mon hu10).trans ((congrArg State.mon hu8).trans hmon2))
  refine ⟨u10, ?_, ?_⟩
  · have hfind : [0, 5, 6, 7].find? (fun i => unregulated u11.mon i) = none := by
      simp only [hmon11, regulated_of_none, List.find?_cons, List.find?_nil]
    rw [hfind]
  · have hmap : u9.cdc.engMap = (List.range 8).map fun i => (i, i) := by
      simp only [u9, servingElements_full (hu8 ▸ hout) hslow8]
      decide
    have hlif : u2.lif = s.lif := by
      have hsame : fm = u1.lif.fieldMap := by rw [hfm, hu1, hfield]
      show { u1.lif with fieldMap := fm } = s.lif
      rw [hsame, hu1]
    rw [hu10]
    subst hu8 hu1
    exact ⟨rfl, rfl, rfl, rfl, rfl, hlif, hout9, hmap⟩

/-! ### What the later phases leave -/

/-- From `s` to `t` the unit's state, its fuses, its image, its time and its codec mapping stay as they are. -/
structure Still (s t : State) : Prop where
  uni : t.uni = s.uni
  fus : t.fus = s.fus
  vq : t.vq = s.vq
  mon : t.mon = s.mon
  lif : t.lif = s.lif
  codec : t.cdc.engMap = s.cdc.engMap

theorem Still.refl (s : State) : Still s s := ⟨rfl, rfl, rfl, rfl, rfl, rfl⟩

theorem Still.trans {s t u : State} (h : Still s t) (g : Still t u) : Still s u :=
  ⟨g.uni.trans h.uni, g.fus.trans h.fus, g.vq.trans h.vq, g.mon.trans h.mon, g.lif.trans h.lif, g.codec.trans h.codec⟩

/-- An operation by its law and by what it leaves of the codec mapping. -/
theorem Still.of_kept {cv : List Block} {s t : State} (hk : Kept cv s t) (hs : Steady s t) (hu : .uni ∉ cv := by decide)
    (hf : .fus ∉ cv := by decide) (hv : .vq ∉ cv := by decide) (hm : .mon ∉ cv := by decide) (hl : .lif ∉ cv := by decide) : Still s t :=
  ⟨hk.frame .uni hu, hk.frame .fus hf, hk.frame .vq hv, hk.frame .mon hm, hk.frame .lif hl, hs.codec⟩

theorem Still.foldl {α : Type} {g : State → α → State} {l : List α} {s : State} (hg : ∀ u x, Still u (g u x)) : Still s (l.foldl g s) := by
  induction l generalizing s with
  | nil => exact .refl s
  | cons x l ih => exact (hg s x).trans ih

theorem Clean.still {s0 s t : State} {f : Fus} {v : Vq} (h : Clean s0 f v s) (g : Still s t) : Clean s0 f v t :=
  h.of_same (congrArg Uni.st g.uni) (congrArg Uni.holdWanted g.uni) g.fus g.vq g.lif

theorem checkLevels_clean {s0 s : State} {f : Fus} {v : Vq} (cs : List Nat) (h : Clean s0 f v s) : Clean s0 f v (checkLevels cs s) := by
  have hk := checkLevels_kept cs s (.refl _ s) (covers_refl _)
  obtain ⟨l, huni⟩ := checkLevels_uni cs s
  exact h.of_same (by rw [huni]) (by rw [huni]) (hk.frame .fus (by decide)) (hk.frame .vq (by decide)) (hk.frame .lif (by decide))

/-- Reporting levels leaves the time, the elements out of service and the codec mapping. -/
theorem checkLevels_leaves (cs : List Nat) (s : State) : (checkLevels cs s).mon = s.mon ∧ (checkLevels cs s).cdc = s.cdc ∧
    (checkLevels cs s).uni.outOfService = s.uni.outOfService := by
  have hk := checkLevels_kept cs s (.refl _ s) (covers_refl _)
  obtain ⟨l, huni⟩ := checkLevels_uni cs s
  exact ⟨hk.frame .mon (by decide), hk.frame .cdc (by decide), by rw [huni]⟩

/-! ### Phase 5: the image (R93) -/

section
variable {ms : List Nat} {s : State} {m : Image} (hnext : s.vq.nextMarked = false) (hbank : currentBank s.vq = some m)
include hnext hbank

/-- The current image, when it passes, comes into force. -/
theorem phaseImage_adopts (hcode : (validateImage s.fus none s.vq.genFloor m.raw 12).1.code = 0) :
    phaseImage (quietEnv ms) s = mailboxStart (adopt m 2 s) := by
  unfold phaseImage
  simp only [hnext, startVerdict, hbank, hcode, Bool.false_eq_true, if_false, if_true, ne_eq, not_true, bne_self_eq_false, Bool.or_self]

/-- Without an image that passes the unit is HELD. -/
theorem phaseImage_rejects (hst : s.uni.st = .starting) (hcode : (validateImage s.fus none s.vq.genFloor m.raw 12).1.code ≠ 0) :
    ∃ t, phaseImage (quietEnv ms) s = t ∧ t.uni.st = .held ∧ t.vq.active = none ∧ t.vq.valid = false ∧ t.lif = s.lif ∧
      0x000A ∈ t.flt.causes := by
  obtain ⟨u, v, himage, hrow, hv, hu, hvq, hlif⟩ : ∃ (u : State) (v : Ev), phaseImage (quietEnv ms) s = raise v u ∧
      (codeRow v.code v.cls).2 = 1 ∧ v.code = 0x000A ∧ u.uni.st = .starting ∧ (u.vq.active = none ∧ u.vq.valid = false) ∧ u.lif = s.lif := by
    unfold phaseImage
    simp only [hnext, startVerdict, hbank, hcode, noImage, quietEnv, Bool.false_eq_true, if_false, ne_eq, not_true, bne_self_eq_false,
      Bool.or_self, List.find?_nil]
    exact ⟨_, _, rfl, by with_unfolding_all rfl, rfl, hst, ⟨rfl, rfl⟩, rfl⟩
  obtain ⟨⟨b, hheld⟩, hcause, hvq', hlif'⟩ := raise_holds hrow (.inl hu)
  exact ⟨_, himage, by rw [hheld], by rw [hvq', hvq.1], by rw [hvq', hvq.2], by rw [hlif', hlif], hv ▸ hcause⟩

end

/-! ### Phase 6: DRAM (R92, R200) -/

/-- Phase 6 of a unit whose 32 SIDs all work and hold the pools. -/
theorem phaseDram_clean {ms : List Nat} {s : State} (hout : s.uni.outOfService = [])
    (hroom : (spareRoom s.vq.active (me s) 32).isSome = true) : ∃ u, phaseDram (quietEnv ms) s = checkLevels [7] u ∧ Still s u := by
  have hworking : ((List.range 32).filter fun i => !isOut s 7 0 i).length = 32 := by
    rw [List.filter_eq_self.2 fun i _ => by rw [isOut_of_none hout]; rfl, List.length_range]
  obtain ⟨c, hc⟩ := Option.isSome_iff_exists.1 hroom
  unfold phaseDram
  extract_lets out u1 working
  have hw : spareRoom u1.vq.active (me u1) working.length = some c := by
    show spareRoom s.vq.active (me s) ((List.range 32).filter fun i => !isOut s 7 0 i).length = some c
    rw [hworking, hc]
  rw [hw]
  dsimp only
  refine ⟨_, rfl, ?_⟩
  split
  · rw [raise_eq_record _ _ rfl]
    exact ⟨record_uni .., record_fus .., record_vq .., record_mon .., record_lif .., congrArg Cdc.engMap (record_cdc ..)⟩
  · exact ⟨rfl, rfl, rfl, rfl, rfl, rfl⟩

/-! ### Phase 7: the time (R80, R395) -/

/-- A unit with a valid calendar that hears of no other time takes its own. -/
theorem timeSource_own {ms : List Nat} {s : State} (h : s.lif.calValid = true) :
    timeSource (quietEnv ms) s = some (s.lif.cal, true) := by
  unfold timeSource
  dsimp only
  rw [if_pos h]
  split
  · split <;> rfl
  · rfl

theorem setParent_time (s : State) : (setParent s).mon.loaded = s.mon.loaded ∧ (setParent s).mon.timebase = s.mon.timebase := by
  unfold setParent
  dsimp only
  repeat' split
  all_goals exact ⟨rfl, rfl⟩

theorem setParent_steady (s : State) : Steady s (setParent s) :=
  (Steady.refl s).of_kept (setParent_kept s (.refl _ s) (covers_refl _))

/-- What may change when the reachable units are found anew leaves the time and the codec mapping. -/
theorem reachUpdate_leaves (s : State) : (reachUpdate s).mon.loaded = s.mon.loaded ∧
    (reachUpdate s).mon.timebase = s.mon.timebase ∧ (reachUpdate s).cdc.engMap = s.cdc.engMap := by
  obtain ⟨u, hu, hmon, hcodec⟩ : ∃ u, reachUpdate s = kmGo u ∧ u.mon = (setParent s).mon ∧ u.cdc = (setParent s).cdc := by
    unfold reachUpdate
    dsimp only
    refine ⟨_, rfl, ?_⟩
    split
    · rw [raise_eq_record _ _ rfl]
      exact ⟨record_mon .., record_cdc ..⟩
    · exact ⟨rfl, rfl⟩
  have hkm : (kmGo u).mon = u.mon := (kmGo_kept u (.refl _ u) (covers_refl _)).frame .mon (by decide)
  have hmap : (kmGo u).cdc.engMap = u.cdc.engMap := (kmGo_steady (Steady.refl u)).codec
  obtain ⟨hloaded, htime⟩ := setParent_time s
  rw [hu, hkm, hmap, hmon, hcodec, (setParent_steady s).codec]
  exact ⟨hloaded, htime, rfl⟩

/-- What phase 7 leaves for the rest of a clean start: the time is loaded and not behind the calendar of the state `s0`, and each
logical codec engine has its own physical one. -/
structure Timed (s0 s : State) : Prop where
  loaded : s.mon.loaded = true
  time : s0.lif.cal ≤ s.mon.timebase
  codec : s.cdc.engMap = (List.range 8).map fun i => (i, i)

theorem Timed.still {s0 s t : State} (h : Timed s0 s) (g : Still s t) : Timed s0 t :=
  ⟨g.mon ▸ h.loaded, g.mon ▸ h.time, g.codec.trans h.codec⟩

theorem Timed.of_same {s0 s t : State} (h : Timed s0 s) (hm : t.mon = s.mon) (hc : t.cdc = s.cdc) : Timed s0 t :=
  ⟨hm ▸ h.loaded, hm ▸ h.time, (congrArg Cdc.engMap hc).trans h.codec⟩

theorem Timed.pass {s0 s : State} (h : Timed s0 s) (ns : Ns) : Timed s0 (pass ns s) where
  loaded := h.loaded
  time := by
    show _ ≤ if s.mon.loaded then s.mon.timebase + ns else s.mon.timebase
    rw [if_pos h.loaded]
    exact h.time.trans (Nat.le_add_right _ _)
  codec := h.codec

theorem Timed.enter {s0 s : State} (h : Timed s0 s) (n ms : Nat) : Timed s0 (enterPhase n ms s) := h.of_same rfl rfl

theorem phaseWarren_clean {ms : List Nat} {s0 s : State} {f : Fus} {v : Vq} (h : Clean s0 f v s) (hmon : s.mon = {})
    (hcodec : s.cdc.engMap = (List.range 8).map fun i => (i, i)) :
    Clean s0 f v (phaseWarren (quietEnv ms) s) ∧ Timed s0 (phaseWarren (quietEnv ms) s) := by
  let u := Machine.pass (ms.getD 6 0 * msNs) s
  have hu : Clean s0 f v u := h.pass _
  have hload : phaseWarren (quietEnv ms) s = reachUpdate (loadTime u.lif.cal true u) := by
    have hunloaded : u.mon.loaded = false := by rw [pass_unloaded hmon]
    unfold phaseWarren
    show (if u.mon.loaded then _ else match timeSource (quietEnv ms) u with | some (t, own) => _ | none => _) = _
    rw [hunloaded, if_neg Bool.false_ne_true, timeSource_own hu.calValid]
    rfl
  have hclean : Clean s0 f v (loadTime u.lif.cal true u) := hu.of_same rfl rfl rfl rfl rfl
  obtain ⟨hloaded, htime, hmap⟩ := reachUpdate_leaves (loadTime u.lif.cal true u)
  rw [hload]
  exact ⟨hclean.of_kept (reachUpdate_kept _ (.refl _ _) (covers_refl _)), hloaded, htime ▸ hu.cal, hmap.trans hcodec⟩

/-! ### Phases 8 and 9, and the end (R77, R164) -/

theorem takeSlots_still (im : Option Image) (s : State) : Still s (takeSlots im s) :=
  .of_kept (takeSlots_kept im s (.refl _ s) (covers_refl _)) ((Steady.refl s).of_kept (takeSlots_kept im s (.refl _ s) (covers_refl _)))

theorem fillPinned_still (s : State) : Still s (fillPinned s) := by
  refine .of_kept (fillPinned_kept s (.refl _ s) (covers_refl _)) (Steady.foldl (.refl s) fun u t h => ?_)
  split
  · exact .ite (startFill_steady h) h
  · exact h

theorem onExtent_still (x : Nat) (g : ExtSt → ExtSt) (s : State) : Still s (onExtent x g s) := ⟨rfl, rfl, rfl, rfl, rfl, rfl⟩

theorem moveExtent_still (x st : Nat) (s : State) : Still s (moveExtent x st s) :=
  .of_kept (moveExtent_kept x st s (.refl _ s) (covers_refl _)) (moveExtent_steady (.refl s))

theorem phaseHoard_clean (ms : List Nat) (s : State) : ∃ u, phaseHoard (quietEnv ms) s = checkLevels [11, 12] u ∧ Still s u := by
  unfold phaseHoard
  extract_lets _ u1 entry st seqs _ u2 u3 u4 u5 es _ u6 u7
  have hu1 : Still s u1 := by
    show Still s (if _ then _ else _)
    split <;> exact ⟨rfl, rfl, rfl, rfl, rfl, rfl⟩
  have hu6 : Still u1 u6 := ⟨rfl, rfl, rfl, rfl, rfl, rfl⟩
  have hu7 : Still u6 u7 := Still.foldl fun u e => (onExtent_still e.id _ u).trans (moveExtent_still e.id 1 _)
  exact ⟨_, rfl, hu1.trans (hu6.trans (hu7.trans ((takeSlots_still _ _).trans (fillPinned_still _))))⟩

theorem homeInit_still (t : Nat) (at_ : Ns) (s : State) : Still s (homeInit t at_ s) := ⟨rfl, rfl, rfl, rfl, rfl, rfl⟩

/-- What goes on at the end of a start. -/
theorem goesOn_still (s : State) : Still s (wake (offersGo (kmGo s))) := by
  have hkm : Still s (kmGo s) := .of_kept (kmGo_kept s (.refl _ s) (covers_refl _)) (kmGo_steady (.refl s))
  have hoffers (u : State) : Still u (offersGo u) := .of_kept (offersGo_kept u (.refl _ u) (covers_refl _)) (offersGo_steady (.refl u))
  have hwake (u : State) : Still u (wake u) := .of_kept (wake_kept u (.refl _ u) (covers_refl _)) (wake_steady (.refl u))
  exact hkm.trans ((hoffers _).trans (hwake _))

theorem moveTo_leaves (st : UnitState) (c d : Nat) (s : State) : (moveTo st c d s).vq = s.vq ∧ (moveTo st c d s).fus = s.fus ∧
    (moveTo st c d s).lif = s.lif ∧ (moveTo st c d s).mon = s.mon ∧ (moveTo st c d s).cdc = s.cdc := by
  have hk := moveTo_kept st c d s (.refl _ s) (covers_refl _)
  exact ⟨hk.frame .vq (by decide), hk.frame .fus (by decide), hk.frame .lif (by decide), hk.frame .mon (by decide),
    hk.frame .cdc (by decide)⟩

/-- How a clean start from the state `s0`, with the fuses `f` and the image state `v`, ends. -/
structure Served (s0 : State) (f : Fus) (v : Vq) (s : State) : Prop extends Timed s0 s where
  st : s.uni.st = .serving
  phase : s.uni.phase = 0
  fus : s.fus = f
  vq : s.vq = v
  counted : s.lif.coldStarts = min (s0.lif.coldStarts + 1) 65535

/-- A clean start ends SERVING (R77). -/
theorem startEnd_serves {s0 s : State} {f : Fus} {v : Vq} (h : Clean s0 f v s) (ht : Timed s0 s) (hcoord : v.coord = none) :
    Served s0 f v (startEnd s) := by
  let w : State := { s with uni := { s.uni with phase := 0, durationMs := startMs s.uni } }
  obtain ⟨hvq, hfus, hlif, hmon, hcdc⟩ := moveTo_leaves .serving 0 0 w
  have huni := moveTo_uni .serving 0 0 w
  obtain ⟨u, hend, hstill⟩ : ∃ u, startEnd s = u ∧ Still (moveTo .serving 0 0 w) u := by
    unfold startEnd
    rw [if_neg (fun hne => hne h.st)]
    extract_lets _ u1 _ _ u2 u3
    have hu2 : u2 = moveTo .serving 0 0 w := if_neg (by show ¬ s.uni.holdWanted = true; rw [h.hold]; decide)
    have hu3 : Still u2 u3 := Still.foldl fun u t => homeInit_still t _ u
    have hnone : u3.vq.coord = none := by rw [hu3.vq, hu2, hvq]; exact h.vq ▸ hcoord
    exact ⟨_, rfl, by rw [coordRestart_of_none hnone, ← hu2]; exact hu3.trans (goesOn_still u3)⟩
  have htimed : Timed s0 u := Timed.still (ht.of_same hmon hcdc) hstill
  rw [hend]
  refine { toTimed := htimed, st := ?_, phase := ?_, fus := ?_, vq := ?_, counted := ?_ }
  · rw [hstill.uni, huni]
  · rw [hstill.uni, huni]
  · rw [hstill.fus, hfus]; exact h.fus
  · rw [hstill.vq, hvq]; exact h.vq
  · rw [hstill.lif, hlif]; exact h.counted

/-- A start that has ended in another state clears its phase. -/
theorem startEnd_of_ended {s : State} (h : s.uni.st ≠ .starting) :
    startEnd s = { s with uni := { s.uni with phase := 0, durationMs := startMs s.uni } } := if_pos h

/-! ### The whole start -/

/-- Phases 6 to 9 do nothing once the unit has left STARTING. -/
theorem startSix_of_ended {s : State} (h : s.uni.st ≠ .starting) (env : StartEnv) : startSix env s = startEnd s := by
  unfold startSix startTail
  extract_lets six u1 _ u2 u3 u4 u5
  have hu1 : u1 = s := inPhase_of_ended h six
  have hu2 : u2 = s := by
    show { u1 with uni := { u1.uni with phaseMs := if u1.uni.st = .starting then _ else u1.uni.phaseMs } } = s
    rw [hu1, if_neg h]
  have hu3 : u3 = s := (if_neg fun hb => h (hu2 ▸ hb.2)).trans hu2
  have hu4 : u4 = s := by
    show inPhase 7 env _ u3 = s
    rw [hu3, inPhase_of_ended h]
  have hu5 : u5 = s := (if_neg fun hb => h (hu4 ▸ hb)).trans hu4
  rw [hu5, inPhase_of_ended h, inPhase_of_ended h]

/-- The bounds of the phases (Table 5.1) hold. -/
def withinBounds (ms : List Nat) : Prop := ∀ n ∈ [1, 2, 3, 4, 5, 6, 7, 8, 9], ms.getD (n - 1) 0 ≤ phaseLimit n

section
variable {ms : List Nat} (hms : withinBounds ms) {s0 s : State} {f : Fus} {v : Vq} (h : Clean s0 f v s)
include hms h

/-- Phases 8 and 9 and the end of a clean start. -/
theorem startTail_serves (ht : Timed s0 s) (hcoord : v.coord = none) : Served s0 f v (startTail (quietEnv ms) s) := by
  obtain ⟨u, hu, hstill⟩ := phaseHoard_clean ms (enterPhase 8 (ms.getD 7 0) s)
  obtain ⟨hmon, hcdc, -⟩ := checkLevels_leaves [11, 12] u
  have hclean : Clean s0 f v (checkLevels [11, 12] u) := checkLevels_clean _ ((h.enter _ _).still hstill)
  have htimed : Timed s0 (checkLevels [11, 12] u) := ((ht.enter _ _).still hstill).of_same hmon hcdc
  have h8 : inPhase 8 (quietEnv ms) (phaseHoard (quietEnv ms)) s = pass (ms.getD 7 0 * msNs) (checkLevels [11, 12] u) := by
    rw [inPhase_of_starting h.st (hms 8 (by decide))]
    exact congrArg (pass _) hu
  have h9 : inPhase 9 (quietEnv ms) (phaseHost (quietEnv ms)) (pass (ms.getD 7 0 * msNs) (checkLevels [11, 12] u)) =
      pass (ms.getD 8 0 * msNs) (enterPhase 9 (ms.getD 8 0) (pass (ms.getD 7 0 * msNs) (checkLevels [11, 12] u))) :=
    inPhase_of_starting (hclean.pass _).st (hms 9 (by decide))
  rw [startTail, h8, h9]
  exact startEnd_serves (((hclean.pass _).enter 9 _).pass _)
    (((htimed.pass _).enter 9 _).pass _) hcoord

/-- Phases 6 to 9 of a start whose image is in force and whose pools fit. -/
theorem startSix_serves (hmon : s.mon = {}) (hout : s.uni.outOfService = []) (hcodec : s.cdc.engMap = (List.range 8).map fun i => (i, i))
    (hroom : (spareRoom v.active v.number 32).isSome = true) (hcoord : v.coord = none) :
    Served s0 f v (startSix (quietEnv ms) s) := by
  unfold startSix
  extract_lets six u1 _ u2 u3 u4 u5
  have hzero : (ms.set 5 0).getD 5 0 ≤ phaseLimit 6 := by
    rw [List.getD_eq_getElem?_getD, List.getElem?_set_self']
    cases ms[5]? <;> exact Nat.zero_le _
  obtain ⟨w, hw, hstill⟩ := phaseDram_clean (ms := ms) (s := enterPhase 6 ((ms.set 5 0).getD 5 0) s) hout
    (by show (spareRoom s.vq.active s.vq.number 32).isSome = true; rw [h.vq]; exact hroom)
  obtain ⟨hmonw, hcdcw, -⟩ := checkLevels_leaves [7] w
  have hu1 : u1 = pass ((ms.set 5 0).getD 5 0 * msNs) (checkLevels [7] w) := by
    refine (inPhase_of_starting (ms := ms.set 5 0) h.st hzero).trans ?_
    exact congrArg (pass _) hw
  have hclean1 : Clean s0 f v u1 := hu1 ▸ (checkLevels_clean _ ((h.enter _ _).still hstill)).pass _
  have hmon1 : u1.mon = {} := by rw [hu1, pass_unloaded (hmonw.trans (hstill.mon.trans hmon))]
  have hcodec1 : u1.cdc.engMap = (List.range 8).map fun i => (i, i) := by
    rw [hu1]
    exact (congrArg Cdc.engMap hcdcw).trans (hstill.codec.trans hcodec)
  clear_value u1
  have hu3 : u3 = u2 := if_neg fun hb => absurd hb.1 (Nat.not_lt.2 (hms 6 (by decide)))
  have hclean3 : Clean s0 f v u3 := hu3 ▸ hclean1.of_same rfl rfl rfl rfl rfl
  have hu4 : u4 = phaseWarren (quietEnv ms) (enterPhase 7 (ms.getD 6 0) u3) := inPhase_seven hclean3.st (hms 7 (by decide))
  obtain ⟨hclean4, htimed4⟩ := phaseWarren_clean (ms := ms) (hclean3.enter 7 (ms.getD 6 0))
    (by rw [hu3]; exact hmon1) (by rw [hu3]; exact hcodec1)
  rw [← hu4] at hclean4 htimed4
  have hu5 : u5 = pass ((ms.getD 5 0 - ms.getD 6 0) * msNs) u4 := if_pos hclean4.st
  have hclean5 : Clean s0 f v u5 := hu5 ▸ hclean4.pass _
  have htimed5 : Timed s0 u5 := hu5 ▸ htimed4.pass _
  exact startTail_serves hms hclean5 htimed5 hcoord

end

theorem adopt_clean {s0 s : State} {f : Fus} {v : Vq} (h : Clean s0 f v s) (m : Image) (n : Nat) :
    Clean s0 f (adopt m n s).vq (adopt m n s) := ⟨h.st, h.hold, h.fus, rfl, h.calValid, h.cal, h.counted⟩

/-- The pools fit when the 32 SIDs hold them. -/
theorem poolsAtStart_fits {s : State} (hout : s.uni.outOfService = []) (hroom : (spareRoom s.vq.active (me s) 32).isSome = true)
    (env : StartEnv) : poolsAtStart env s = s := by
  have hworking : ((List.range 32).filter fun i => !isOut s 7 0 i).length = 32 := by
    rw [List.filter_eq_self.2 fun i _ => by rw [isOut_of_none hout]; rfl, List.length_range]
  unfold poolsAtStart
  rw [hworking]
  exact if_pos hroom

theorem codecShort_of_full {s : State} (h : s.cdc.engMap = (List.range 8).map fun i => (i, i)) : codecShort s = s :=
  if_neg (by rw [h]; decide)

section
variable {ms : List Nat} (hms : withinBounds ms) {s0 s : State} {f : Fus} {v : Vq} {m : Image} (h : Clean s0 f v s)
  (hnext : v.nextMarked = false) (hbank : currentBank v = some m)
include hms h hnext hbank

/-- From phase 5 on with an image that passes: the unit serves with it (R93). -/
theorem startFrom_serves (hmon : s.mon = {}) (hout : s.uni.outOfService = [])
    (hcodec : s.cdc.engMap = (List.range 8).map fun i => (i, i)) (hcoord : v.coord = none)
    (hcode : (validateImage f none v.genFloor m.raw 12).1.code = 0)
    (hroom : (spareRoom (some m) ((memberNumber f m).getD 0) 32).isSome = true) :
    ∃ w, Served s0 f w (startFrom (quietEnv ms) s) ∧ w.active = some m ∧ w.valid = true := by
  obtain ⟨e, he⟩ : ∃ e, e = enterPhase 5 (ms.getD 4 0) s := ⟨_, rfl⟩
  have hclean : Clean s0 f v e := he ▸ h.enter _ _
  let u := adopt m 2 e
  have hu : Clean s0 f u.vq u := adopt_clean hclean m 2
  have hk := mailboxStart_kept u (.refl _ u) (covers_refl _)
  obtain ⟨x, hx⟩ : ∃ x, x = pass (ms.getD 4 0 * msNs) (mailboxStart u) := ⟨_, rfl⟩
  have hrun : inPhase 5 (quietEnv ms) (phaseImage (quietEnv ms)) s = x := by
    have himage : phaseImage (quietEnv ms) e = mailboxStart u :=
      phaseImage_adopts (hclean.vq ▸ hnext) (hclean.vq ▸ hbank) (by rw [hclean.fus, hclean.vq]; exact hcode)
    rw [inPhase_of_starting h.st (hms 5 (by decide)), hx, ← himage, he]
  have hcleanx : Clean s0 f u.vq x := hx ▸ (hu.of_kept hk).pass _
  have hmonu : (mailboxStart u).mon = e.mon := hk.frame .mon (by decide)
  have huni : (mailboxStart u).uni = u.uni := hk.frame .uni (by decide)
  have hcdc : (mailboxStart u).cdc = e.cdc := hk.frame .cdc (by decide)
  have hmonx : x.mon = {} := by rw [hx, pass_unloaded (by rw [hmonu, he]; exact hmon)]
  have houtx : x.uni.outOfService = [] := by
    have hsame : u.uni.outOfService = e.uni.outOfService := rfl
    rw [hx, pass_outOfService, huni, hsame, he]
    exact hout
  have hcodecx : x.cdc.engMap = (List.range 8).map fun i => (i, i) := by
    rw [hx, pass_cdc, hcdc, he]
    exact hcodec
  have hroomx : (spareRoom x.vq.active x.vq.number 32).isSome = true := by
    rw [hcleanx.vq]
    show (spareRoom (some m) ((memberNumber e.fus m).getD 0) 32).isSome = true
    rw [hclean.fus]; exact hroom
  refine ⟨u.vq, ?_, rfl, rfl⟩
  unfold startFrom
  dsimp only
  rw [hrun, if_pos hcleanx.st, poolsAtStart_fits houtx hroomx, codecShort_of_full hcodecx]
  refine startSix_serves hms hcleanx hmonx houtx hcodecx (hcleanx.vq ▸ hroomx) ?_
  show e.vq.coord = none
  rw [hclean.vq]; exact hcoord

/-- From phase 5 on with an image that does not pass: the unit is HELD without one (R93). -/
theorem startFrom_holds (hcode : (validateImage f none v.genFloor m.raw 12).1.code ≠ 0) :
    ∃ t, startFrom (quietEnv ms) s = t ∧ t.uni.st = .held ∧ t.vq.active = none ∧ t.vq.valid = false ∧ t.uni.phase = 0 ∧
      t.lif.coldStarts = min (s0.lif.coldStarts + 1) 65535 ∧ 0x000A ∈ t.flt.causes := by
  obtain ⟨e, he⟩ : ∃ e, e = enterPhase 5 (ms.getD 4 0) s := ⟨_, rfl⟩
  have hclean : Clean s0 f v e := he ▸ h.enter _ _
  obtain ⟨u, himage, hheld, hactive, hvalid, hlif, hcause⟩ := phaseImage_rejects (ms := ms) (hclean.vq ▸ hnext) (hclean.vq ▸ hbank)
    hclean.st (by rw [hclean.fus, hclean.vq]; exact hcode)
  have hrun : inPhase 5 (quietEnv ms) (phaseImage (quietEnv ms)) s = pass (ms.getD 4 0 * msNs) u := by
    rw [inPhase_of_starting h.st (hms 5 (by decide)), ← himage, he]
  have hended : (pass (ms.getD 4 0 * msNs) u).uni.st ≠ .starting := by
    show u.uni.st ≠ _
    rw [hheld]; decide
  have hcount : (pass (ms.getD 4 0 * msNs) u).lif.coldStarts = min (s0.lif.coldStarts + 1) 65535 := by
    show u.lif.coldStarts = _
    rw [hlif]; exact hclean.counted
  refine ⟨startFrom (quietEnv ms) s, rfl, ?_⟩
  unfold startFrom
  dsimp only
  rw [hrun, if_neg hended, startSix_of_ended hended, startEnd_of_ended hended]
  exact ⟨hheld, hactive, hvalid, rfl, hcount, hcause⟩

end

/-- What holds besides in the phases before the time is loaded, with no element repaired in the field. -/
structure Early (s0 : State) (f : Fus) (v : Vq) (s : State) : Prop extends Clean s0 f v s where
  mon : s.mon = {}
  field : s.lif.fieldMap = []

theorem Early.enter {s0 s : State} {f : Fus} {v : Vq} (h : Early s0 f v s) (n ms : Nat) : Early s0 f v (enterPhase n ms s) :=
  ⟨h.toClean.enter n ms, h.mon, h.field⟩

theorem Early.pass {s0 s : State} {f : Fus} {v : Vq} (h : Early s0 f v s) (ns : Ns) : Early s0 f v (pass ns s) :=
  ⟨h.toClean.pass ns, pass_unloaded h.mon ns, h.field⟩

theorem phaseRails_early {s0 s : State} {f : Fus} {v : Vq} (h : Early s0 f v s) : Early s0 f v (phaseRails s) :=
  ⟨h.toClean.of_same rfl rfl rfl rfl rfl, h.mon, h.field⟩

theorem phaseRoot_early {ms : List Nat} {s0 s : State} {f : Fus} {v : Vq} (h : Early s0 f v s) (hbad : badWords f = [])
    (hretired : lifecycle f ≠ 3) : Early s0 (readFuses (quietEnv ms) s.free f) v (phaseRoot (quietEnv ms) s) := by
  have hfus := h.fus
  rw [phaseRoot_clean (by rwa [hfus]) (by rwa [hfus]), hfus]
  exact ⟨⟨h.st, h.hold, rfl, h.vq, h.calValid, h.cal, h.counted⟩, h.mon, h.field⟩

theorem phaseRepair_early {ms : List Nat} {s0 s : State} {f : Fus} {v : Vq} (h : Early s0 f v s) (hbad : badWords f = [])
    (hfactory : factoryWords f = []) : Early s0 f v (phaseRepair (quietEnv ms) s) ∧
      (phaseRepair (quietEnv ms) s).uni.outOfService = [] ∧
      (phaseRepair (quietEnv ms) s).cdc.engMap = (List.range 8).map fun i => (i, i) := by
  have hfus := h.fus
  obtain ⟨u, hu, hst, hhold, hf, hv, hmon, hlif, hout, hcodec⟩ := phaseRepair_clean (ms := ms) (by rwa [hfus]) (by rwa [hfus]) h.field h.mon
  obtain ⟨hmon', hcdc', hout'⟩ := checkLevels_leaves [1, 2, 3, 4, 5, 6, 8, 9] u
  have hclean : Clean s0 f v (checkLevels [1, 2, 3, 4, 5, 6, 8, 9] u) := checkLevels_clean _ (h.toClean.of_same hst hhold hf hv hlif)
  have hlif' : (checkLevels [1, 2, 3, 4, 5, 6, 8, 9] u).lif = u.lif :=
    (checkLevels_kept _ u (.refl _ u) (covers_refl _)).frame .lif (by decide)
  rw [hu]
  exact ⟨⟨hclean, hmon'.trans (hmon.trans h.mon), by rw [hlif', hlif]; exact h.field⟩, hout'.trans hout,
    (congrArg Cdc.engMap hcdc').trans hcodec⟩

/-- A unit just powered that has nothing to repair, with phases that take the times `ms`. -/
structure CleanStart (ms : List Nat) (s : State) : Prop where
  bounds : withinBounds ms
  st : s.uni.st = .starting
  restart : s.vq.restart5 = false
  mon : s.mon = {}
  field : s.lif.fieldMap = []
  hold : s.uni.holdWanted = false
  calValid : s.lif.calValid = true
  notBlank : lifecycle s.fus ≠ 0
  notRetired : lifecycle s.fus ≠ 3
  words : badWords s.fus = []
  factory : factoryWords s.fus = []

/-- Phases 1 to 4 of a clean start: the fuses have been read and every element stands in its place. -/
theorem exec_coldStart_clean {ms : List Nat} {s : State} (h : CleanStart ms s) : ∃ u, exec (.coldStart (quietEnv ms)) s = .next (startFrom (quietEnv ms) u) ∧
    Clean s (readFuses (quietEnv ms) s.free s.fus) s.vq u ∧ u.mon = {} ∧ u.uni.outOfService = [] ∧
    u.cdc.engMap = (List.range 8).map fun i => (i, i) := by
  have hms := h.bounds
  obtain ⟨f, hf⟩ : ∃ f, f = readFuses (quietEnv ms) s.free s.fus := ⟨_, rfl⟩
  have hwords : f.words = s.fus.words := hf ▸ readFuses_words ms s.free s.fus
  have hbad' : badWords f = [] := (badWords_of_words hwords).trans h.words
  have hfactory' : factoryWords f = [] := by
    rw [factoryWords, fuseBits_of_words hwords]
    exact h.factory
  show ∃ u, execColdStart (quietEnv ms) s = _ ∧ _
  unfold execColdStart
  rw [if_neg (fun hne => hne h.st), h.restart, if_neg Bool.false_ne_true]
  extract_lets _ u1 lv _ u2 u3 u4 u5 u6
  have h2 : Early s s.fus s.vq u2 := ⟨⟨h.st, h.hold, rfl, rfl, h.calValid, le_rfl, rfl⟩, h.mon, h.field⟩
  have hu3 : u3 = pass (ms.getD 0 0 * msNs) (phaseRails (enterPhase 1 (ms.getD 0 0) u2)) := inPhase_of_starting h2.st (hms 1 (by decide))
  have h3 : Early s s.fus s.vq u3 := hu3 ▸ (phaseRails_early (h2.enter _ _)).pass _
  have hfree : u3.free = s.free := by rw [hu3]; rfl
  clear_value u3
  have hu4 : u4 = pass (ms.getD 1 0 * msNs) (phaseRoot (quietEnv ms) (enterPhase 2 (ms.getD 1 0) u3)) :=
    inPhase_of_starting h3.st (hms 2 (by decide))
  have h4 : Early s f s.vq u4 := by
    have hroot := (phaseRoot_early (ms := ms) (h3.enter 2 (ms.getD 1 0)) h.words h.notRetired).pass (ms.getD 1 0 * msNs)
    have hdraw : (enterPhase 2 (ms.getD 1 0) u3).free = s.free := hfree
    rwa [hdraw, ← hf, ← hu4] at hroot
  clear_value u4
  have hu5 : u5 = pass (ms.getD 2 0 * msNs) (enterPhase 3 (ms.getD 2 0) u4) := inPhase_of_starting h4.st (hms 3 (by decide))
  have h5 : Early s f s.vq u5 := hu5 ▸ (h4.enter _ _).pass _
  clear_value u5
  have hu6 : u6 = pass (ms.getD 3 0 * msNs) (phaseRepair (quietEnv ms) (enterPhase 4 (ms.getD 3 0) u5)) :=
    inPhase_of_starting h5.st (hms 4 (by decide))
  obtain ⟨h6, hout, hcodec⟩ := phaseRepair_early (ms := ms) (h5.enter 4 (ms.getD 3 0)) hbad' hfactory'
  have hstop : ¬ (blankStop u4 ∨ u4.uni.st ≠ .starting) := by
    rintro (hstop | hne)
    · rw [blankStop, h4.fus, lifecycle, fuseBits_of_words hwords, beq_iff_eq] at hstop
      exact h.notBlank hstop
    · exact hne h4.st
  rw [← hf, if_neg hstop]
  have h6' := h6.pass (ms.getD 3 0 * msNs)
  rw [← hu6] at h6'
  exact ⟨u6, rfl, h6'.toClean, h6'.mon, by rw [hu6, pass_outOfService, hout], by rw [hu6, pass_cdc, hcodec]⟩

end Sys2Proof.Proofs
end

section
/-! Start-up and self-repair: the obligation, from the lemmas about its clauses. -/

namespace Sys2Proof.Proofs

open Sys2Proof.Machine Sys2Proof.Safety Sys2Proof.Laws

/-- The cold start of a unit where nothing is faulty: HELD without an image that passes, else SERVING with it (R77, R93). -/
theorem coldStart_ends {s : State} {ms : List Nat} {m : Image} (h : CleanStart ms s) (hnext : s.vq.nextMarked = false)
    (hcoord : s.vq.coord = none) (hbank : currentBank s.vq = some m) :
    let f := readFuses (quietEnv ms) s.free s.fus
    let code := (validateImage f none s.vq.genFloor m.raw 12).1.code
    (code ≠ 0 → Answers (.coldStart (quietEnv ms)) s fun t => t.uni.st = .held ∧ t.vq.active = none ∧ t.vq.valid = false ∧
      t.uni.phase = 0 ∧ t.lif.coldStarts = min (s.lif.coldStarts + 1) 65535 ∧ 0x000A ∈ t.flt.causes) ∧
    (code = 0 → (spareRoom (some m) ((memberNumber f m).getD 0) 32).isSome = true → Answers (.coldStart (quietEnv ms)) s fun t =>
      t.uni.st = .serving ∧ t.vq.active = some m ∧ t.vq.valid = true ∧ t.uni.phase = 0 ∧ t.mon.loaded = true ∧
      s.lif.cal ≤ t.mon.timebase ∧ t.lif.coldStarts = min (s.lif.coldStarts + 1) 65535 ∧
      t.cdc.engMap = (List.range 8).map (fun i => (i, i)) ∧ t.fus.lifted = 0) := by
  obtain ⟨u, hexec, hclean, hmon, hout, hcodec⟩ := exec_coldStart_clean h
  refine ⟨fun hcode => ?_, fun hcode hroom => ?_⟩
  · obtain ⟨t, ht, hends⟩ := startFrom_holds h.bounds hclean hnext hbank hcode
    exact ⟨t, hexec.trans (congrArg _ ht), hends⟩
  · obtain ⟨w, hserved, hactive, hvalid⟩ := startFrom_serves h.bounds hclean hnext hbank hmon hout hcodec hcoord hcode hroom
    refine ⟨_, hexec, hserved.st, ?_, ?_, hserved.phase, hserved.loaded, hserved.time, hserved.counted, hserved.codec, ?_⟩
    · rw [hserved.vq, hactive]
    · rw [hserved.vq, hvalid]
    · rw [hserved.fus]
      rfl

/-- A phase over its bound (R78). -/
theorem phaseBound_answers {s : State} {n : Nat} (hst : s.uni.st = .starting) (h0 : 0 < n) (h9 : n ≤ 9) :
    Answers (.phaseBound n) s fun t => t.uni.failPhase = n ∧ t.uni.st = (if n = 7 ∨ n = 9 then .starting else .faulted) := by
  refine ⟨_, exec_phaseBound_of_running hst h0 h9, ?_⟩
  dsimp only
  rw [phaseOver_uni hst]
  split
  · exact ⟨rfl, hst⟩
  · exact ⟨rfl, rfl⟩

/-- The known-answer tests of an idle engine (R88, R310). -/
theorem engineTests_answer {s : State} {e : Nat} (c : Nat) (cs : List Nat) (hs : unitServesOrHeld s = true) (he : e < 4)
    (hblock : (engOf s.eng e).block = none) (hst : (engOf s.eng e).st = 0) :
    (Answers (.engineKatTimer e []) s fun t => t.eng.katPass = s.eng.katPass ||| BitVec.ofNat 4 (2 ^ e) ∧ engOf t.eng e = engOf s.eng e) ∧
    (Answers (.engineKatTimer e (c :: cs)) s fun t => t.eng.katPass.getLsbD e = false ∧ (engOf t.eng e).st = 2 ∧
      ({ cls := 1, grp := e, elt := c } : RepairEntry) ∈ (engOf t.eng e).failing) ∧
    (∀ run pass : BitVec 4, run.getLsbD e = true → Answers (.engKatRun run pass) s fun t => t.eng.katWanted.getLsbD e = false ∧
      t.eng.katPass.getLsbD e = pass.getLsbD e ∧ (engOf t.eng e).st = (if pass.getLsbD e then 0 else 2)) := by
  have hidle : engineIdle s e = true := by rw [engineIdle_eq he hblock, hst]; rfl
  exact ⟨⟨_, exec_engineKatTimer_of_idle [] hs hidle, rfl, rfl⟩,
    ⟨_, exec_engineKatTimer_of_idle (c :: cs) hs hidle, engineTest_fail cs he s⟩,
    fun run pass hrun => ⟨_, rfl, engKat_tested run pass he hrun hidle⟩⟩

theorem exec_engineRepairComplete_other {s : State} {e : Nat} (h1 : (engOf s.eng e).st ≠ 1) (h2 : (engOf s.eng e).st ≠ 2) :
    exec (.engineRepairComplete e) s = .next s := if_pos ⟨h1, h2⟩

/-- Settles O53: each row of the start-up chapter by the lemma about it. -/
theorem coldStartAndSelfRepair : Obligations.ColdStartAndSelfRepair := by
  unfold Obligations.ColdStartAndSelfRepair
  refine ⟨?start, ?bound, ?tests, ?repair, ?spares, ?rows, ?pace, ?restart⟩
  case start =>
    intro s env m hst hrestart hnext _ hcoord hmon _ _ _ _ _ _ _ _ _ hfield hhold hcal henv hms hblank hretired hbad hfactory hbank
    rw [henv]
    exact coldStart_ends ⟨hms, hst, hrestart, hmon, hfield, hhold, hcal, hblank, hretired, hbad, hfactory⟩ hnext hcoord hbank
  case bound =>
    intro s n
    exact ⟨fun h => if_pos h, phaseBound_answers⟩
  case tests =>
    intro s e c cs hs he hblock
    refine ⟨fun hst => exec_engineKatTimer_of_busy cs ?_, engineTests_answer c cs hs he hblock⟩
    rw [engineIdle_eq he hblock, beq_eq_false_iff_ne]
    exact hst
  case repair =>
    intro s e x
    refine ⟨exec_engineRepairComplete_other, fun _ hst _ _ => ?_⟩
    intro left
    constructor
    · exact engineRepairComplete_serves hst
    · exact engineRepairComplete_withdraws hst
  case spares =>
    intro s p i x r hs
    refine ⟨fun hout hp => ⟨exec_codecKatTimer_pass, fun hrole hspare => ?_⟩, fun hout hp hrole hspare => ?_⟩
    · exact ⟨_, exec_codecKatTimer_fail hs hp hout, codecTakeover_spare 5 hout hrole hspare⟩
    · exact ⟨_, exec_shrewCoreFailure hs hp hout, coreTakeover_spare 5 hout hrole hspare⟩
  case rows =>
    intro s b row k ks hs hb hrow hout _ recent
    refine ⟨fun hfew => ?_, fun hspare un hun => sramRowError_replaced hs hb hrow hout hspare hun⟩
    exact ⟨_, exec_sramRowError_counted hs hb hrow hout hfew, hout, rfl, tget_tset_same _ _ _ _⟩
  case pace =>
    intro s e hc hg he hout good
    exact ⟨fun ⟨hserves, hgreen, hidle⟩ => paceScan_replaces hc hg he hout hserves hgreen hidle, paceScan_notes hc hg he hout⟩
  case restart =>
    intro s
    refine ⟨exec_firmwareRestart_other, fun hs hr hin _ hops hcoord => firmwareRestart_resets hs hr hcoord hops hin,
      fun o hs hr hin hfwd hops hgate hcoord => firmwareRestart_ends hs hr hcoord hops hin hfwd hgate,
      exec_firmwareRestartComplete_other, fun m hr hm _ => ?_⟩
    intro code
    constructor
    · exact firmwareRestartComplete_passes hr hm
    · exact firmwareRestartComplete_fails hr hm

end Sys2Proof.Proofs
end

section
/-! A mailbox command that poisons a line (R112, R186): a unit in which it must read a block whose stored bytes fail their checks. -/

namespace Sys2Proof.Proofs

open Sys2Proof.Machine Sys2Proof.Safety Sys2Proof.Laws

/-- The faulty unit with a host: LD 0 of link 0 is bound to tenant 1 and has accepted extent 5, and `POISON_INJECT` is set. -/
def faultyHostUnit : State :=
  { faultyUnit with
    vq := { active := some { twoUnitImage with records := unitRecord 0x05 0 [1, 0] :: twoUnitImage.records }, valid := true }
    hst := { poisonInject := true, links := [(0, { st := 2 })], lds := [(0, { present := true, accepted := [(5, false)] })] } }

/-- INJECT_POISON of LD 0 for a line of the second strip of that block: address 33280 of region 1. -/
def faultyInjection : Instr := .injectPoison 0 (2 ^ 50 + 33280)

theorem faultyHostUnit_staged : stgFind faultyHostUnit.cdc 1 8 = some (stagedBlock 8) := rfl

theorem faultyInjection_stages_nothing : stgFind (after faultyInjection faultyHostUnit).cdc 1 8 = none := by
  decide +kernel

/-- Refutes O58 in the clause of INJECT_POISON. The line of an accepted extent whose block stands in DRAM becomes poison by a write,
and a write reads the strips it fills first (R186), under LENCRC all eight. Where these fail their checks and the tile is clean and
in the Hoard, the tile is filled again (R185) and the write waits for it, so no staged entry holds the poison. -/
theorem not_primaryMailboxAndEvents : ¬ Obligations.PrimaryMailboxAndEvents := by
  unfold Obligations.PrimaryMailboxAndEvents
  rintro ⟨-, hmailbox, -⟩
  obtain ⟨-, -, -, -, -, -, -, -, -, -, -, -, -, -, -, -, -, -, -, hpoison⟩ := hmailbox faultyHostUnit 0 (by decide +kernel)
  obtain ⟨-, -, htaken⟩ := hpoison (2 ^ 50 + 33280) []
  obtain ⟨hinject, -⟩ := htaken pinnedExtent 32768 rfl (by decide +kernel) (by decide +kernel) (by decide +kernel)
    (by decide +kernel) (by decide +kernel) fun y hy => by
      rw [← Option.some.inj (faultyHostUnit_staged.symm.trans hy)]
      exact List.length_replicate
  obtain ⟨-, y, hy, -⟩ := after_of_answers hinject
  have hstaged : stgFind (after faultyInjection faultyHostUnit).cdc 1 8 = some y := hy
  rw [faultyInjection_stages_nothing] at hstaged
  cases hstaged

end Sys2Proof.Proofs
end

section
/-! What the unit's own work leaves as hosts find it (R104, R111, R133): the requests in service, all of an LD but the extents it is
offered and its pending interrupts, and the masks of the doorbells. One lemma per definition of the model that goes on with work
when an extent is released or offered, from any earlier state; a definition that touches neither HST nor MBX is covered by its law
`Kept`. -/

namespace Sys2Proof.Proofs

-- The lemmas of this file are checked one after another, with few threads at a time.
set_option Elab.async false

open Sys2Proof.Machine Sys2Proof.Safety Sys2Proof.Laws

/-- An LD without the extents offered to it and its pending interrupts. -/
def ldCore (l : Ld) : Ld := { l with offered := [], pba := 0 }

/-- From `s` to `t` the requests in service, the LDs' cores and the doorbell masks stay as they are. -/
structure HostsKept (s t : State) : Prop where
  reqs : t.hst.reqs = s.hst.reqs
  ld : ∀ x, ldCore (ldOf t.hst x) = ldCore (ldOf s.hst x)
  mask : ∀ x, (boxOf t.mbx x).mask = (boxOf s.mbx x).mask

theorem HostsKept.refl (s : State) : HostsKept s s := ⟨rfl, fun _ => rfl, fun _ => rfl⟩

section
variable {s0 s t : State}

theorem HostsKept.trans (h : HostsKept s0 s) (g : HostsKept s t) : HostsKept s0 t :=
  ⟨g.reqs.trans h.reqs, fun x => (g.ld x).trans (h.ld x), fun x => (g.mask x).trans (h.mask x)⟩

/-- An update that writes none of the three. -/
theorem HostsKept.upd (h : HostsKept s0 s) (hr : t.hst.reqs = s.hst.reqs := by rfl) (hl : t.hst.lds = s.hst.lds := by rfl)
    (hm : t.mbx = s.mbx := by rfl) : HostsKept s0 t :=
  h.trans ⟨hr, fun x => by rw [ldOf, hl]; rfl, fun x => by rw [hm]⟩

/-- An operation that leaves HST and MBX as they are. -/
theorem HostsKept.of_kept {cv : List Block} (h : HostsKept s0 s) (hk : Kept cv s t) (hh : .hst ∉ cv := by decide)
    (hm : .mbx ∉ cv := by decide) : HostsKept s0 t :=
  h.upd (congrArg Hst.reqs (hk.frame .hst hh)) (congrArg Hst.lds (hk.frame .hst hh)) (hk.frame .mbx hm)

theorem HostsKept.ite {a b : State} {p : Prop} [Decidable p] (ha : HostsKept s0 a) (hb : HostsKept s0 b) :
    HostsKept s0 (if p then a else b) := by
  split <;> assumption

theorem HostsKept.foldl {α : Type} {f : State → α → State} {l : List α} (h : HostsKept s0 s)
    (hf : ∀ u x, HostsKept s0 u → HostsKept s0 (f u x)) : HostsKept s0 (l.foldl f s) := by
  induction l generalizing s with
  | nil => exact h
  | cons x xs ih => exact ih (hf s x h)

theorem HostsKept.foldl_fst {α β : Type} {f : State × β → α → State × β} {l : List α} {p : State × β}
    (h : HostsKept s0 p.1) (hf : ∀ q x, HostsKept s0 q.1 → HostsKept s0 (f q x).1) : HostsKept s0 (l.foldl f p).1 := by
  induction l generalizing p with
  | nil => exact h
  | cons x xs ih => exact ih (hf p x h)

/-! ### Events, interrupts and doorbells -/

/-- A change of one LD of a table that leaves the core of each. -/
theorem ldCore_tmod {f : Ld → Ld} (ld x : Nat) (h : Hst) (hf : ∀ l, ldCore (f l) = ldCore l) :
    ldCore (ldOf { h with lds := tmod {} ld f h.lds } x) = ldCore (ldOf h x) := by
  by_cases e : x = ld
  · subst e
    exact (congrArg ldCore (tget_tmod_same {} x f h.lds)).trans (hf _)
  · exact congrArg ldCore (tget_tmod_other _ _ e f h.lds)

theorem ldCore_msixHst (h : Hst) (ld v x : Nat) : ldCore (ldOf (msixHst h ld v) x) = ldCore (ldOf h x) := by
  unfold msixHst
  split
  · exact ldCore_tmod ld x h fun _ => rfl
  · rfl

theorem msixHst_reqs (h : Hst) (ld v : Nat) : (msixHst h ld v).reqs = h.reqs := by
  unfold msixHst
  split <;> rfl

theorem sendMsix_hosts {ld v : Nat} (h : HostsKept s0 s) : HostsKept s0 (sendMsix ld v s) :=
  h.trans ⟨msixHst_reqs .., fun x => ldCore_msixHst s.hst ld v x, fun _ => rfl⟩

/-- The interrupts of a record change pending bits alone. -/
theorem ldCore_foldl_msixHst (g : Hst → Nat → Nat) (l : List Nat) (h : Hst) (x : Nat) :
    ldCore (ldOf (l.foldl (fun h ld => msixHst h ld (g h ld)) h) x) = ldCore (ldOf h x) := by
  induction l generalizing h with
  | nil => rfl
  | cons ld l ih => exact (ih _).trans (ldCore_msixHst h ld _ x)

theorem record_ldCore (e : Ev) (s : State) (x : Nat) : ldCore (ldOf (record e s).hst x) = ldCore (ldOf s.hst x) := by
  unfold record
  dsimp only
  split
  · exact ldCore_foldl_msixHst _ _ s.hst x
  · split
    · split
      · rfl
      · exact ldCore_foldl_msixHst _ _ s.hst x
    · rfl

theorem record_hosts (e : Ev) (h : HostsKept s0 s) : HostsKept s0 (record e s) :=
  h.trans ⟨record_reqs e s, record_ldCore e s, fun x => by rw [record_mbx]⟩

/-- An event without a disposition. -/
theorem note_hosts (v : Ev) (h : HostsKept s0 s) (hd : (codeRow v.code v.cls).2 = 0 := by with_unfolding_all rfl) :
    HostsKept s0 (raise v s) := by
  rw [raise_eq_record v s hd]
  exact record_hosts v h

theorem boxOf_onBox_same (ld : Nat) (f : HostBox → HostBox) (s : State) : boxOf (onBox ld f s).mbx ld = f (boxOf s.mbx ld) :=
  tget_tmod_same _ ld f s.mbx.host

theorem boxOf_onBox_other {ld k : Nat} (h : k ≠ ld) (f : HostBox → HostBox) (s : State) :
    boxOf (onBox ld f s).mbx k = boxOf s.mbx k :=
  tget_tmod_other _ _ h f s.mbx.host

/-- A change of a mailbox that leaves its mask. -/
theorem onBox_hosts {ld : Nat} {f : HostBox → HostBox} (hf : ∀ b, (f b).mask = b.mask) (h : HostsKept s0 s) :
    HostsKept s0 (onBox ld f s) := by
  refine h.trans ⟨rfl, fun _ => rfl, fun x => ?_⟩
  by_cases e : x = ld
  · subst e
    rw [boxOf_onBox_same, hf]
  · rw [boxOf_onBox_other e]

theorem onBoxBell_hosts {ld : Nat} {f : HostBox → HostBox} (hf : ∀ b, (f b).mask = b.mask) (h : HostsKept s0 s) :
    HostsKept s0 (onBoxBell ld f s) :=
  HostsKept.ite (sendMsix_hosts (onBox_hosts hf h)) (onBox_hosts hf h)

theorem setDb_hosts {ld b : Nat} (h : HostsKept s0 s) : HostsKept s0 (setDb ld b s) := onBoxBell_hosts (fun _ => rfl) h

theorem setDbTenant_hosts {n b : Nat} (h : HostsKept s0 s) : HostsKept s0 (setDbTenant n b s) :=
  h.foldl fun _ _ h => setDb_hosts h

theorem hostEpoch_hosts {ld : Nat} (h : HostsKept s0 s) : HostsKept s0 (hostEpoch ld s) := onBoxBell_hosts (fun _ => rfl) h

theorem dcEvent_hosts {ld : Nat} {v : DcEvent} (h : HostsKept s0 s) : HostsKept s0 (dcEvent ld v s) :=
  setDb_hosts (sendMsix_hosts h.upd)

/-! ### Offers -/

theorem offerLd_hosts {ld : Nat} {e : ExtRec} {rd : Bool} (h : HostsKept s0 s) : HostsKept s0 (offerLd ld e rd s) :=
  dcEvent_hosts (h.trans ⟨rfl, fun x => ldCore_tmod ld x s.hst fun _ => rfl, fun _ => rfl⟩)

theorem offerTenant_hosts {n : Nat} {e : ExtRec} {rd : Bool} (h : HostsKept s0 s) : HostsKept s0 (offerTenant n e rd s) :=
  h.foldl fun _ _ h => HostsKept.ite (offerLd_hosts h) h

theorem offerAll_hosts {ld : Nat} {again : Bool} (h : HostsKept s0 s) : HostsKept s0 (offerAll ld again s) := by
  unfold offerAll
  split
  · exact h
  · exact h.foldl fun _ _ h => h.foldl fun _ _ h => HostsKept.ite (offerLd_hosts h) h

theorem offerWithheld_hosts (h : HostsKept s0 s) : HostsKept s0 (offerWithheld s) := by
  refine h.foldl fun u e hu => hu.foldl fun v n hv => ?_
  refine HostsKept.ite hv ?_
  split
  · exact note_hosts _ hv.upd
  · exact offerTenant_hosts hv.upd

/-! ### Staging and the Hoard log -/

theorem poisonFault_hosts {x : ExtRec} {st b a : Nat} {f : DecFault} (h : HostsKept s0 s) :
    HostsKept s0 (poisonFault x st b a f s) :=
  note_hosts _ h.upd

theorem poisonFaults_hosts {x : ExtRec} {st b a : Nat} {ks : List Nat} {n : Nat} (h : HostsKept s0 s) :
    HostsKept s0 (poisonFaults x st b a ks n s) := by
  induction n generalizing s with
  | zero => exact h
  | succ n ih =>
    unfold poisonFaults
    split
    · exact h
    · exact ih (poisonFault_hosts h)

theorem markDirty_hosts {n b : Nat} (h : HostsKept s0 s) : HostsKept s0 (markDirty n b s) :=
  h.of_kept (markDirty_kept n b s (.refl _ s) (covers_refl _))

theorem writeback_hosts {n b : Nat} {ks : List Nat} (h : HostsKept s0 s) : HostsKept s0 (writeback n b ks s) := by
  unfold writeback
  split
  · extract_lets ws u r x st crc d1 d2 d3 out x2 c1 u1 u2
    have hu : HostsKept s0 u := poisonFaults_hosts h
    have hu2 : HostsKept s0 u2 := HostsKept.foldl (s := u1) hu.upd fun _ _ h => h.upd
    exact markDirty_hosts (hu2.of_kept (enqueueStrips_kept _ _ _ _ u2 (.refl _ u2) (covers_refl _)))
  · exact h

theorem flushBlock_hosts {n b : Nat} (h : HostsKept s0 s) : HostsKept s0 (flushBlock n b s) := by
  unfold flushBlock writebackDone
  split
  · exact h
  · refine HostsKept.ite h ?_
    split
    · exact writeback_hosts h
    · exact (writeback_hosts h).upd

theorem flushTile_hosts {n tile : Nat} (h : HostsKept s0 s) : HostsKept s0 (flushTile n tile s) :=
  h.foldl fun _ _ h => flushBlock_hosts h

theorem flushRange_hosts {n lo hi : Nat} (h : HostsKept s0 s) : HostsKept s0 (flushRange n lo hi s) :=
  h.foldl fun _ _ h => flushBlock_hosts h

theorem evictOne_hosts (h : HostsKept s0 s) : HostsKept s0 (evictOne s) := by
  unfold evictOne
  split
  · exact h.upd
  · split
    · exact (flushBlock_hosts h).upd
    · exact h

theorem entryFor_hosts {n b k : Nat} (h : HostsKept s0 s) : HostsKept s0 (entryFor n b k s).1 := by
  unfold entryFor makeRoom
  split
  · exact h
  · exact HostsKept.ite h (HostsKept.ite (evictOne_hosts h) h)

theorem stageWrite_hosts {n l st : Nat} {be : BitVec 64} {data : List Byte} {p : Bool} (h : HostsKept s0 s) :
    HostsKept s0 (stageWrite n l st be data p s) := by
  unfold stageWrite
  exact markDirty_hosts (HostsKept.upd (entryFor_hosts h))

theorem markClean_hosts {n tile : Nat} (h : HostsKept s0 s) : HostsKept s0 (markClean n tile s) :=
  h.of_kept (markClean_kept _ _ s (.refl _ s) (covers_refl _))

theorem logTile_hosts {n tile : Nat} (h : HostsKept s0 s) : HostsKept s0 (logTile n tile s) := by
  unfold logTile
  split
  · exact h
  · refine HostsKept.ite h ?_
    have hflush : HostsKept s0 (flushTile n tile s) := flushTile_hosts h
    dsimp only
    split
    · exact hflush
    · refine HostsKept.ite hflush (HostsKept.ite ?_ ?_)
      · have hclean : HostsKept s0 (markClean n tile { flushTile n tile s with
            hrd := dirSet { tenant := n, tile := tile, stripe := 0, offset := 0, len := 0, zero := true } (flushTile n tile s).hrd }) :=
          markClean_hosts hflush.upd
        split
        · exact hclean.of_kept (releaseIfDead_kept _ _ (.refl _ _) (covers_refl _))
        · exact hclean
      · exact markClean_hosts ((hflush.of_kept (stripeFor_kept _ _ _ _ (.refl _ _) (covers_refl _))).of_kept
          (appendStripe_kept _ _ _ _ (.refl _ _) (covers_refl _)))

theorem commitTile_hosts {n tile : Nat} (h : HostsKept s0 s) : HostsKept s0 (commitTile n tile s) := by
  unfold commitTile
  split
  · exact h
  · refine HostsKept.ite h (HostsKept.ite h ?_)
    dsimp only
    split
    · exact (logTile_hosts h).of_kept (closeStripe_kept _ _ (.refl _ _) (covers_refl _))
    · exact logTile_hosts h

/-! ### Fills -/

theorem failTile_hosts {x : ExtRec} {g tile : Nat} (h : HostsKept s0 s) : HostsKept s0 (failTile x g tile s) :=
  h.of_kept (failTile_kept _ _ _ s (.refl _ s) (covers_refl _))
theorem landPacked_hosts {n tile : Nat} {area : List Byte} (h : HostsKept s0 s) : HostsKept s0 (landPacked n tile area s).1 :=
  h.of_kept (landPacked_kept _ _ _ s (.refl _ s) (covers_refl _))

theorem takeWay_hosts {n tile : Nat} (h : HostsKept s0 s) : HostsKept s0 (takeWay n tile s).1 := by
  unfold takeWay
  split
  · exact h
  · split
    · exact h
    · next i d _ =>
      extract_lets u y vt vk u1 u2
      have hu1 : HostsKept s0 u1 := HostsKept.ite (flushTile_hosts h.upd) h.upd
      have hu2 : HostsKept s0 u2 := HostsKept.ite (commitTile_hosts hu1) hu1
      split
      · exact hu2
      · have hdrop : HostsKept s0 (dropTile vt vk u2) := hu2.upd
        exact HostsKept.upd (HostsKept.ite hdrop hu2)

theorem tryFill_hosts {x : ExtRec} {g : Nat} {d : DirEntry} {n : Nat} (h : HostsKept s0 s) : HostsKept s0 (tryFill x g d n s) := by
  induction n generalizing s with
  | zero => exact h
  | succ n ih =>
    unfold tryFill
    extract_lets bad mine held cs area p u _ km
    have hu : HostsKept s0 u := HostsKept.foldl (landPacked_hosts h) fun u y hu =>
      note_hosts _ (hu.of_kept (repairChunk_kept _ _ _ _ u (.refl _ u) (covers_refl _)))
    split
    · split
      · exact HostsKept.ite (hu.of_kept (fillOver_kept _ _ u (.refl _ u) (covers_refl _))) hu
      · exact HostsKept.ite (failTile_hosts (note_hosts _ h)) (ih h.upd)
    · refine HostsKept.ite h ?_
      extract_lets full
      refine HostsKept.ite ?_ (HostsKept.ite (ih (h.of_kept (askRebuild_kept _ _ _ _ s (.refl _ s) (covers_refl _))))
        (HostsKept.ite h (HostsKept.ite (failTile_hosts (note_hosts _ h))
          (h.of_kept (cancelFill_kept _ _ s (.refl _ s) (covers_refl _))))))
      split
      · exact ih (h.of_kept (gather_kept _ s (.refl _ s) (covers_refl _)))
      · exact h

theorem startFill_hosts {x : ExtRec} {g tile : Nat} (h : HostsKept s0 s) : HostsKept s0 (startFill x g tile s) := by
  unfold startFill
  refine HostsKept.ite h ?_
  extract_lets slotted u zero
  have hu : HostsKept s0 u := HostsKept.ite h (takeWay_hosts h)
  have hzero : HostsKept s0 (zero u) :=
    hu.foldl fun v _ h => h.of_kept (landBlock_kept _ _ _ _ _ _ v (.refl _ v) (covers_refl _))
  refine HostsKept.ite hu (HostsKept.ite (failTile_hosts hu) ?_)
  split
  · exact landPacked_hosts hu
  · split
    · exact HostsKept.ite hu hzero
    · exact HostsKept.ite hzero (tryFill_hosts (hu.of_kept (askChunks_kept _ u (.refl _ u) (covers_refl _))))

/-! ### Agents and records -/

theorem recoverFault_hosts {x : ExtRec} {g st b a : Nat} {f : DecFault} (h : HostsKept s0 s) :
    HostsKept s0 (recoverFault x g st b a f s).1 := by
  unfold recoverFault
  dsimp only
  split
  · exact startFill_hosts (HostsKept.of_kept (note_hosts _ (HostsKept.upd h)) (dropCopy_kept _ _ _ (.refl _ _) (covers_refl _)))
  · exact poisonFault_hosts h

theorem fillForWrite_hosts {x : ExtRec} {g st q b a k : Nat} (h : HostsKept s0 s) :
    HostsKept s0 (fillForWrite x g st q b a k s).1 := by
  unfold fillForWrite
  extract_lets ks counted
  have hcounted (a : Nat) (v : State) (hv : HostsKept s0 v) : HostsKept s0 (counted a v) :=
    HostsKept.upd (hv.of_kept (enqueueStrips_kept _ _ _ _ v (.refl _ v) (covers_refl _)))
  split
  · exact hcounted a s h
  · split
    · extract_lets u
      have hu : HostsKept s0 u := recoverFault_hosts h
      split
      · exact hcounted _ _ (poisonFaults_hosts hu)
      · exact hu
    · exact hcounted a _ (poisonFaults_hosts h)

theorem fillForAgent_hosts {x : ExtRec} {g st q b k : Nat} (h : HostsKept s0 s) :
    HostsKept s0 (fillForAgent x g st q b k s) := by
  unfold fillForAgent
  split
  · exact h
  · exact HostsKept.ite (fillForWrite_hosts h) (poisonFaults_hosts h)

theorem sendReq_hosts {d n : Nat} {m : Msg} (h : HostsKept s0 s) : HostsKept s0 (sendReq d n m s) :=
  h.of_kept (sendReq_kept _ _ _ s (.refl _ s) (covers_refl _))

/-- A Back-Invalidate waits at its link, and changes no LD and no request. -/
theorem startSnoop_hosts {n a : Nat} {d : Bool} {l : List (Nat × Nat)} {c : SnoopCause} (h : HostsKept s0 s) :
    HostsKept s0 (startSnoop n a d l c s) := by
  refine HostsKept.ite h (HostsKept.foldl h.upd fun u x hu => ?_)
  unfold sendSnoop
  split
  · exact HostsKept.ite hu.upd hu.upd
  · exact sendReq_hosts hu

theorem bringRange_hosts {n a len : Nat} {w : Bool} (h : HostsKept s0 s) : HostsKept s0 (bringRange n a len w s) := by
  unfold bringRange
  extract_lets u v
  have hu : HostsKept s0 u := h.foldl fun _ _ h => startSnoop_hosts h
  have hv : HostsKept s0 v := hu.foldl fun p x hp => by
    split
    · exact startFill_hosts hp
    · exact hp
  refine HostsKept.ite hv (hv.foldl fun p l hp => ?_)
  unfold askLine
  refine HostsKept.ite hp ?_
  split
  · exact hp
  · exact HostsKept.ite (HostsKept.upd (note_hosts _ hp) rfl rfl rfl) (sendReq_hosts hp.upd)

theorem agentWrite_hosts {n a st : Nat} {b : List Byte} (h : HostsKept s0 s) : HostsKept s0 (agentWrite n a st b s).1 := by
  refine HostsKept.foldl_fst h fun q x hq => ?_
  dsimp only
  unfold agentWriteLine
  split
  · exact hq
  · split
    · exact hq
    · split
      · exact stageWrite_hosts (fillForAgent_hosts hq)
      · exact sendReq_hosts hq

theorem writeRecord_hosts {n : Nat} {rcd : List Byte} {irq : Bool} (h : HostsKept s0 s) :
    HostsKept s0 (writeRecord n rcd irq s) :=
  HostsKept.ite (sendMsix_hosts (HostsKept.upd (agentWrite_hosts h))) (HostsKept.upd (agentWrite_hosts h))

theorem discardRecords_hosts {n k : Nat} (h : HostsKept s0 s) : HostsKept s0 (discardRecords n k s) :=
  HostsKept.ite h (note_hosts _ h.upd)

theorem flushRecords_hosts (h : HostsKept s0 s) : HostsKept s0 (flushRecords s) := by
  unfold flushRecords
  refine HostsKept.ite h ?_
  refine HostsKept.of_kept (HostsKept.foldl_fst h.upd fun p w hp => ?_) (ringsGone_kept _ (.refl _ _) (covers_refl _))
  dsimp only
  split
  · exact hp.upd
  · split
    · exact discardRecords_hosts (n := w.1) (k := 1) hp
    · split
      · exact hp.upd
      · split
        · exact writeRecord_hosts (bringRange_hosts hp)
        · exact HostsKept.upd (bringRange_hosts hp)

/-! ### The release of an extent -/

theorem ringStop_hosts {n e : Nat} (h : HostsKept s0 s) : HostsKept s0 (ringStop n e s) :=
  HostsKept.ite (note_hosts _ h.upd) h.upd

theorem moveExtent_hosts {x st : Nat} (h : HostsKept s0 s) : HostsKept s0 (moveExtent x st s) := by
  unfold moveExtent
  refine HostsKept.ite h ?_
  extract_lets ns u v
  have hu : HostsKept s0 u := setDbTenant_hosts (s := onExtent x _ s) h.upd
  have hv : HostsKept s0 v := hu.foldl fun _ _ h => ringStop_hosts h
  exact HostsKept.ite (flushRecords_hosts (hv.foldl fun _ _ h => h.upd)) hv

theorem rekeyExtent_hosts {a b : ExtRec} (h : HostsKept s0 s) : HostsKept s0 (rekeyExtent a b s) := by
  unfold rekeyExtent
  extract_lets mine dst u moved v
  have hv : HostsKept s0 v := HostsKept.foldl (flushRange_hosts h) fun _ _ h => HostsKept.ite (commitTile_hosts h) h
  exact hv.upd

theorem releaseDone_hosts {x : Nat} (h : HostsKept s0 s) : HostsKept s0 (releaseDone x s) := by
  unfold releaseDone
  refine HostsKept.ite h ?_
  extract_lets old rs _ u v w
  have hv : HostsKept s0 v := HostsKept.foldl h.upd fun _ _ h => ringStop_hosts h
  have hw : HostsKept s0 w := hv.foldl fun _ _ h => HostsKept.ite h (discardRecords_hosts h.upd)
  split
  · extract_lets y z
    have hy : HostsKept s0 y := HostsKept.ite hw (rekeyExtent_hosts hw)
    exact offerWithheld_hosts (offerTenant_hosts (moveExtent_hosts hy.upd))
  · exact offerWithheld_hosts (HostsKept.upd (hw.of_kept (forgetExtent_kept _ w (.refl _ w) (covers_refl _))))
  · exact hw.upd

end
end Sys2Proof.Proofs
end

section
/-! Host links (R98 to R102, R122, R124): a link trains or fails to, falls, and changes its rate. -/

namespace Sys2Proof.Proofs

open Sys2Proof.Machine Sys2Proof.Safety Sys2Proof.Laws

/-- A field that each step of a fold leaves. -/
theorem foldl_same {α β : Type} (q : State → β) {f : State → α → State} (hf : ∀ u x, q (f u x) = q u) (l : List α) (s : State) :
    q (l.foldl f s) = q s := by
  induction l generalizing s with
  | nil => rfl
  | cons x l ih => exact (ih (f s x)).trans (hf s x)

/-! ### One link, and one LD after another -/

theorem linkOf_onLink_same (l : Nat) (f : Link → Link) (s : State) : linkOf (onLink l f s).hst l = f (linkOf s.hst l) :=
  tget_tmod_same _ l f s.hst.links

theorem linkOf_onLink_other {l k : Nat} (h : k ≠ l) (f : Link → Link) (s : State) :
    linkOf (onLink l f s).hst k = linkOf s.hst k :=
  tget_tmod_other _ _ h f s.hst.links

theorem linkOf_of_links {h g : Hst} (e : h.links = g.links) (l : Nat) : linkOf h l = linkOf g l := by
  rw [linkOf, linkOf, e]

/-- The first `n` links that meet a condition are changed, each once. -/
theorem linkOf_foldl_onLink (c : Link → Bool) (f : Link → Link) (n : Nat) (s : State) (i : Nat) :
    linkOf ((List.range n).foldl (fun s l => if c (linkOf s.hst l) then onLink l f s else s) s).hst i =
      if i < n ∧ c (linkOf s.hst i) = true then f (linkOf s.hst i) else linkOf s.hst i := by
  induction n with
  | zero => simp
  | succ n ih =>
    rw [List.range_succ, List.foldl_append]
    generalize hu : (List.range n).foldl (fun s l => if c (linkOf s.hst l) then onLink l f s else s) s = u at ih
    rw [List.foldl_cons, List.foldl_nil]
    have hother (hne : i ≠ n) : linkOf (if c (linkOf u.hst n) then onLink n f u else u).hst i = linkOf u.hst i := by
      split
      · exact linkOf_onLink_other hne f u
      · rfl
    by_cases hi : i = n
    · subst hi
      rw [if_neg (by omega)] at ih
      rw [← ih]
      by_cases hc : c (linkOf u.hst i) = true
      · rw [if_pos hc, if_pos ⟨by omega, hc⟩, linkOf_onLink_same]
      · rw [if_neg hc, if_neg (fun h => hc h.2)]
    · rw [hother hi, ih]
      exact if_congr (and_congr_left' (by omega)) rfl rfl

/-- The first `n` LDs of a link are changed, each by its own function. -/
theorem ldOf_foldl_onLd (b : Nat) (g : Nat → Ld → Ld) (n : Nat) (s : State) (x : Nat) :
    ldOf ((List.range n).foldl (fun s i => onLd (b + i) (g i) s) s).hst x =
      if b ≤ x ∧ x < b + n then g (x - b) (ldOf s.hst x) else ldOf s.hst x := by
  induction n with
  | zero => rw [if_neg (by omega)]; rfl
  | succ n ih =>
    rw [List.range_succ, List.foldl_append, List.foldl_cons, List.foldl_nil]
    by_cases hx : x = b + n
    · subst hx
      rw [ldOf_onLd_same, ih, if_neg (by omega), if_pos (by omega), Nat.add_sub_cancel_left]
    · rw [ldOf_onLd_other hx, ih]
      exact if_congr (by omega) rfl rfl

/-! ### What offers and events leave of the links -/

theorem sendMsix_links (ld v : Nat) (s : State) : (sendMsix ld v s).hst.links = s.hst.links := by
  show (msixHst s.hst ld v).links = _
  unfold msixHst
  split <;> rfl

theorem onBoxBell_links (ld : Nat) (f : HostBox → HostBox) (s : State) : (onBoxBell ld f s).hst.links = s.hst.links := by
  unfold onBoxBell ringBell
  split
  · exact sendMsix_links ..
  · rfl

theorem hostEpoch_links (ld : Nat) (s : State) : (hostEpoch ld s).hst.links = s.hst.links := onBoxBell_links ..

theorem dcEvent_links (ld : Nat) (v : DcEvent) (s : State) : (dcEvent ld v s).hst.links = s.hst.links := by
  rw [dcEvent, setDb, onBoxBell_links, sendMsix_links]

theorem offerLd_links (ld : Nat) (e : ExtRec) (rd : Bool) (s : State) : (offerLd ld e rd s).hst.links = s.hst.links := by
  rw [offerLd, dcEvent_links]

theorem offerAll_links (ld : Nat) (again : Bool) (s : State) : (offerAll ld again s).hst.links = s.hst.links := by
  unfold offerAll
  split
  · rfl
  · refine foldl_same (fun u => u.hst.links) (fun u e => foldl_same (fun u => u.hst.links) (fun v rd => ?_) _ u) _ s
    dsimp only
    split
    · exact offerLd_links ..
    · rfl

theorem note_links (e : Ev) (s : State) (hd : (codeRow e.code e.cls).2 = 0 := by with_unfolding_all rfl) :
    (raise e s).hst.links = s.hst.links := by
  rw [raise_eq_record e s hd, record_links]

/-! ### Training (R98 to R102, R124) -/

/-- A link that can train: it exists, its stream is served, and main power and VI7 are on. -/
def linkTrains (s : State) (l : Nat) : Prop :=
  linkExists s l = true ∧ linkServed s l = true ∧ s.uni.st ≠ .off ∧ s.uni.st ≠ .standby ∧ (tget ({} : Isl) s.pwr.isl 7).on = true

theorem linkTrains_iff (s : State) (l : Nat) : linkTrains s l ↔
    ¬ (!linkExists s l || !linkServed s l || s.uni.st == .off || s.uni.st == .standby || !vi7On s) = true := by
  simp [linkTrains, vi7On, and_assoc]

theorem trainFail_eq (p : LinkPartner) : trainFail p = if p.width < 4 then 1 else if p.flit256 = false then 2
    else if p.cxl = false then 3 else if p.equalised = false ∨ 2 < p.rate then 4 else 0 := by
  simp [trainFail]

theorem linkUp_of_not_trains {s : State} {l : Nat} (p : LinkPartner) (h : ¬ linkTrains s l) : linkUp l p s = s :=
  if_pos (not_not.1 (mt (linkTrains_iff s l).2 h))

theorem linkUp_of_fail {s : State} {l : Nat} {p : LinkPartner} (h : linkTrains s l) (hf : trainFail p ≠ 0) :
    linkUp l p s = raise { code := 0x0501, sk := 3, si := l, d0 := trainFail p }
      (onLink l (fun k => { k with st := 4, failCause := trainFail p }) s) := by
  rw [linkUp, if_neg ((linkTrains_iff s l).1 h), if_pos hf]

/-- The rate a link trains at: the slowest of the rates, and 64 GT/s only where VI7 holds it and no rate is lowered (R101). -/
def trainedRate (p : LinkPartner) (s : State) : Nat :=
  let fast := max p.rate (portMaxRate s.vq.active (me s))
  if vi7Allows s && !s.pwr.linksLow then fast else max fast 1

theorem trainedRate_eq (p : LinkPartner) (s : State) : trainedRate p s =
    if 80 ≤ islandMax s 7 ∧ s.pwr.linksLow = false then max p.rate (portMaxRate s.vq.active (me s))
    else max (max p.rate (portMaxRate s.vq.active (me s))) 1 := by
  simp [trainedRate, vi7Allows]

/-- A link as training leaves it. -/
def trainedLink (l : Nat) (p : LinkPartner) (s : State) (k : Link) : Link :=
  { k with
    st := 2, width := widthCode (min p.width (if portSplit s.vq.active (me s) (l / 2) then 8 else 16)), rate := trainedRate p s
    ideMem := false, ideIo := false, skid := false, insecure := false, switched := p.switched, failCause := 0, waiting := []
    lowered := decide (max p.rate (portMaxRate s.vq.active (me s)) < trainedRate p s) }

/-- A link is UP with its partner, before its LDs are offered anything: the first stage of `linkUp`. -/
def linkTrained (l : Nat) (p : LinkPartner) (s : State) : State :=
  let u := if (linkOf s.hst l).st == 3 then linkEpochs l s else s
  onLink l (trainedLink l p s) (if trainedRate p s = 0 then raiseVi7 u else u)

/-- LD 0 of a link is present, or behind a switch every LD. -/
def ldsPresent (l : Nat) (switched : Bool) (s : State) : State :=
  (List.range 16).foldl (fun s i => onLd (16 * l + i) (fun x => { x with present := switched || i == 0 }) s) s

/-- The bound LDs that are absent are reported, and those that are present are offered their extents. -/
def ldsOffered (l : Nat) (switched : Bool) (s : State) : State :=
  let absent := (List.range 16).filter fun i => i != 0 && !switched && (ldTenant s (16 * l + i)).isSome
  (List.range 16).foldl (fun s i => if switched ∨ i = 0 then offerAll (16 * l + i) true s else s)
    (if absent.isEmpty then s
      else raise { code := 0x0507, sk := 3, si := l, d0 := l, d1 := (absent.map fun i => 2 ^ i).sum } s)

/-- `linkUp` by its stages, for a link whose partner fits. -/
theorem linkUp_eq_stages {s : State} {l : Nat} {p : LinkPartner} (h : linkTrains s l) (hf : trainFail p = 0) :
    linkUp l p s = (linkOf s.hst l).waiting.foldl (fun s w => emit (.bisnp w.1 w.2.1 w.2.2) s)
      (ldsOffered l p.switched (ldsPresent l p.switched (linkTrained l p s))) := by
  rw [linkUp, if_neg ((linkTrains_iff s l).1 h), if_neg (not_not.2 hf)]
  rfl

theorem linkOf_linkTrained (l : Nat) (p : LinkPartner) (s : State) :
    ∃ k, linkOf (linkTrained l p s).hst l = trainedLink l p s k :=
  ⟨_, linkOf_onLink_same l _ _⟩

theorem raiseVi7_vset (s : State) : 660 ≤ (tget ({} : Isl) (raiseVi7 s).pwr.isl 7).vset := by
  unfold raiseVi7
  split
  · rw [tget_tmod_same]
  · next hlow => simpa [vi7Low] using hlow

theorem linkTrained_vset {l : Nat} {p : LinkPartner} {s : State} (h : trainedRate p s = 0) :
    660 ≤ (tget ({} : Isl) (linkTrained l p s).pwr.isl 7).vset := by
  unfold linkTrained
  extract_lets u
  rw [if_pos h]
  exact raiseVi7_vset u

theorem ldsPresent_links (l : Nat) (sw : Bool) (s : State) : (ldsPresent l sw s).hst.links = s.hst.links :=
  foldl_same (fun u => u.hst.links) (by intros; rfl) (List.range 16) s

theorem ldsPresent_pwr (l : Nat) (sw : Bool) (s : State) : (ldsPresent l sw s).pwr = s.pwr :=
  foldl_same State.pwr (by intros; rfl) (List.range 16) s

theorem ldsPresent_present {l i : Nat} (hi : i < 16) (sw : Bool) (s : State) :
    (ldOf (ldsPresent l sw s).hst (16 * l + i)).present = (sw || i == 0) := by
  rw [ldsPresent, ldOf_foldl_onLd (16 * l) (fun i x => { x with present := sw || i == 0 }), if_pos (by omega),
    Nat.add_sub_cancel_left]

theorem ldsOffered_links (l : Nat) (sw : Bool) (s : State) : (ldsOffered l sw s).hst.links = s.hst.links := by
  unfold ldsOffered
  extract_lets absent
  generalize List.range 16 = is
  refine (foldl_same (fun u => u.hst.links) (fun u i => ?_) is _).trans ?_
  · split
    · exact offerAll_links ..
    · rfl
  · split
    · rfl
    · exact note_links _ s

theorem ldsOffered_pwr (l : Nat) (sw : Bool) (s : State) : (ldsOffered l sw s).pwr = s.pwr := by
  unfold ldsOffered
  extract_lets absent
  generalize List.range 16 = is
  refine (foldl_same State.pwr (fun u i => ?_) is _).trans ?_
  · split
    · exact (offerAll_kept _ _ u (.refl _ u) (covers_refl _)).frame .pwr (by decide)
    · rfl
  · split
    · rfl
    · exact (note_kept _ s (.refl _ s) (covers_refl _) (by with_unfolding_all rfl)).frame .pwr (by decide)

theorem ldsOffered_hosts (l : Nat) (sw : Bool) (s : State) : HostsKept s (ldsOffered l sw s) :=
  HostsKept.foldl (HostsKept.ite (.refl s) (note_hosts _ (.refl s))) fun _ _ h => HostsKept.ite (offerAll_hosts h) h

theorem HostsKept.present {s t : State} (h : HostsKept s t) (x : Nat) : (ldOf t.hst x).present = (ldOf s.hst x).present :=
  (congrArg Ld.present (h.ld x) :)

/-- What a list of answers leaves of the state, and that each is sent. -/
theorem foldl_emit {α : Type} (f : α → Out) (l : List α) (s : State) :
    (l.foldl (fun s w => emit (f w) s) s).hst = s.hst ∧ (l.foldl (fun s w => emit (f w) s) s).pwr = s.pwr ∧
    (l.foldl (fun s w => emit (f w) s) s).out = (l.map f).reverse ++ s.out := by
  induction l generalizing s with
  | nil => exact ⟨rfl, rfl, rfl⟩
  | cons w l ih =>
    obtain ⟨hhst, hpwr, hout⟩ := ih (emit (f w) s)
    exact ⟨hhst, hpwr, by simp [hout]⟩

/-- A link whose partner fits is UP, at the rate of R101, with its LDs present and its Back-Invalidates sent. -/
theorem linkUp_up {s : State} {l : Nat} {p : LinkPartner} (h : linkTrains s l) (hf : trainFail p = 0) :
    Answers (.linkUp l p) s fun t => (linkOf t.hst l).st = 2 ∧ (linkOf t.hst l).failCause = 0 ∧ (linkOf t.hst l).waiting = [] ∧
      (linkOf t.hst l).rate = trainedRate p s ∧ ((linkOf t.hst l).rate = 0 → 660 ≤ (tget ({} : Isl) t.pwr.isl 7).vset) ∧
      (linkOf t.hst l).switched = p.switched ∧ (linkOf t.hst l).ideMem = false ∧ (linkOf t.hst l).insecure = false ∧
      (∀ i < 16, (ldOf t.hst (16 * l + i)).present = (p.switched || i == 0)) ∧
      ∀ w ∈ (linkOf s.hst l).waiting, .bisnp w.1 w.2.1 w.2.2 ∈ t.out := by
  refine ⟨_, congrArg Host.Outcome.next (linkUp_eq_stages h hf), ?_⟩
  obtain ⟨hhst, hpwr, hout⟩ := foldl_emit (fun w : Nat × Nat × Bool => .bisnp w.1 w.2.1 w.2.2) (linkOf s.hst l).waiting
    (ldsOffered l p.switched (ldsPresent l p.switched (linkTrained l p s)))
  obtain ⟨k, hk⟩ := linkOf_linkTrained l p s
  have hlink : linkOf (ldsOffered l p.switched (ldsPresent l p.switched (linkTrained l p s))).hst l = trainedLink l p s k :=
    (linkOf_of_links ((ldsOffered_links ..).trans (ldsPresent_links ..)) l).trans hk
  rw [hhst, hpwr, hout, hlink, ldsOffered_pwr, ldsPresent_pwr]
  refine ⟨rfl, rfl, rfl, rfl, fun hr => linkTrained_vset hr, rfl, rfl, rfl, fun i hi => ?_, fun w hw => ?_⟩
  · rw [(ldsOffered_hosts ..).present, ldsPresent_present hi]
  · exact List.mem_append_left _ (List.mem_reverse.2 (List.mem_map_of_mem hw))

end Sys2Proof.Proofs
end

section
/-! Host links (R101, R115, R122): how a link fails to train, falls, and changes its rate, and the requests that a loss or a reset
discards. -/

namespace Sys2Proof.Proofs

open Sys2Proof.Machine Sys2Proof.Safety Sys2Proof.Laws

theorem answers_of_next {i : Instr} {s t : State} {P : State → Prop} (h : exec i s = .next t) (ht : P t) : Answers i s P :=
  ⟨t, h, ht⟩

theorem note_reqs (e : Ev) (s : State) (hd : (codeRow e.code e.cls).2 = 0 := by with_unfolding_all rfl) :
    (raise e s).hst.reqs = s.hst.reqs := by
  rw [raise_eq_record e s hd, record_reqs]

/-- An event of class C, D or K is noted. -/
theorem note_noted (e : Ev) (s : State) (h : (codeRow e.code e.cls).1 < 4 := by simp [codeRow]) :
    noted (raise e s) e.code e.tenant e.sk e.si :=
  raise_noted e s h

/-- A link whose partner does not fit has FAILED with the cause, and is reported. -/
theorem linkUp_fails {s : State} {l : Nat} {p : LinkPartner} (h : linkTrains s l) (hf : trainFail p ≠ 0) :
    Answers (.linkUp l p) s fun t => (linkOf t.hst l).st = 4 ∧ (linkOf t.hst l).failCause = trainFail p ∧ noted t 0x0501 0 3 l := by
  refine answers_of_next (congrArg Host.Outcome.next (linkUp_of_fail h hf)) ?_
  rw [linkOf_of_links (note_links _ _) l, linkOf_onLink_same]
  exact ⟨rfl, rfl, note_noted _ _⟩

/-! ### Discarded responses (Table 6.8, R122) -/

/-- Of the requests of the LDs discarded, only writes are left, and they are answered. -/
theorem mem_dropResponses {p : Nat → Bool} {h : Hst} {r : MemReq} (hr : r ∈ (dropResponses p h).reqs) (hp : p r.ld = true)
    (ho : r.origin = none) : r.isWrite = true ∧ r.answered = true := by
  obtain ⟨q, hq, rfl⟩ := List.mem_map.1 hr
  obtain ⟨-, hkeep⟩ := List.mem_filter.1 hq
  dsimp only at hp ho hkeep ⊢
  by_cases hmine : (p q.ld && q.origin.isNone) = true
  · rw [if_pos hmine]
    rw [hmine] at hkeep
    exact ⟨by simpa using hkeep, rfl⟩
  · rw [if_neg hmine] at hp ho
    exact absurd (by rw [hp, ho]; rfl) hmine

/-- A discard leaves a request either as it is or answered. -/
theorem mem_dropResponses_of {p : Nat → Bool} {h : Hst} {r : MemReq} (hr : r ∈ (dropResponses p h).reqs) :
    ∃ q ∈ h.reqs, r = q ∨ r = { q with answered := true } := by
  obtain ⟨q, hq, rfl⟩ := List.mem_map.1 hr
  refine ⟨q, List.mem_of_mem_filter hq, ?_⟩
  split
  · exact .inr rfl
  · exact .inl rfl

/-! ### Loss of a link (R122) -/

theorem linkDown_of_not_up {s : State} {l : Nat} (h2 : (linkOf s.hst l).st ≠ 2) (h5 : (linkOf s.hst l).st ≠ 5) :
    exec (.linkDown l) s = .next s :=
  congrArg Host.Outcome.next (if_pos ⟨h2, h5⟩)

theorem linkDown_of_up {s : State} {l : Nat} (h : (linkOf s.hst l).st = 2 ∨ (linkOf s.hst l).st = 5) :
    Answers (.linkDown l) s fun t => (linkOf t.hst l).st = 3 ∧ (linkOf t.hst l).downs = min ((linkOf s.hst l).downs + 1) 65535 ∧
      (linkOf t.hst l).ideMem = false ∧ (linkOf t.hst l).ideIo = false ∧ noted t 0x0501 0 3 l ∧
      (∀ r ∈ t.hst.reqs, r.ld / 16 = l → r.origin = none → r.isWrite = true ∧ r.answered = true) := by
  refine answers_of_next (congrArg Host.Outcome.next (if_neg (by omega))) ?_
  rw [linkOf_of_links (note_links _ _) l, linkOf_onLink_same, note_reqs _ _]
  exact ⟨rfl, rfl, rfl, rfl, note_noted _ _, fun r hr hl ho =>
    mem_dropResponses (p := fun ld => ld / 16 == l) (h := s.hst) hr (beq_iff_eq.2 hl) ho⟩

/-! ### A change of the rate (R101) -/

theorem raiseVi7_hst (s : State) : (raiseVi7 s).hst = s.hst := by
  unfold raiseVi7
  split <;> rfl

/-- The sixteen links that meet a condition are changed, in ascending order. -/
def linksWhere (c : Link → Bool) (f : Link → Link) (s : State) : State :=
  (List.range 16).foldl (fun s l => if c (linkOf s.hst l) then onLink l f s else s) s

theorem linkOf_linksWhere {i : Nat} (hi : i < 16) (c : Link → Bool) (f : Link → Link) (s : State) :
    linkOf (linksWhere c f s).hst i = if c (linkOf s.hst i) = true then f (linkOf s.hst i) else linkOf s.hst i := by
  rw [linksWhere, linkOf_foldl_onLink]
  exact if_congr (by simp [hi]) rfl rfl

theorem linksWhere_pwr (c : Link → Bool) (f : Link → Link) (s : State) : (linksWhere c f s).pwr = s.pwr := by
  unfold linksWhere
  generalize List.range 16 = ls
  exact foldl_same State.pwr (by intros; split <;> rfl) ls s

theorem linkRates_true (s : State) : linkRates true s =
    linksWhere (fun k => k.st == 2 && k.rate == 0) (fun k => { k with rate := 1, lowered := true })
      { s with pwr := { s.pwr with linksLow := true } } :=
  rfl

theorem linkRates_false {s : State} (h : 80 ≤ islandMax s 7) : linkRates false s =
    linksWhere (fun k => k.st == 2 && k.lowered) (fun k => { k with rate := 0, lowered := false })
      (raiseVi7 { s with pwr := { s.pwr with linksLow := false } }) := by
  rw [linkRates, if_neg Bool.false_ne_true, if_neg (by simp [vi7Allows, h])]
  rfl

theorem linkRates_lowers {s : State} {i : Nat} (hi : i < 16) : Answers (.linkRateLowering true) s fun t => linkOf t.hst i =
    (if (linkOf s.hst i).st = 2 ∧ (linkOf s.hst i).rate = 0 then { linkOf s.hst i with rate := 1, lowered := true }
      else linkOf s.hst i) := by
  refine answers_of_next (congrArg Host.Outcome.next (linkRates_true s)) ?_
  rw [linkOf_linksWhere hi]
  exact if_congr (by simp) rfl rfl

theorem linkRates_of_low {s : State} (h : islandMax s 7 < 80) : exec (.linkRateLowering false) s = .next s := by
  have hlow : linkRates false s = s := by
    rw [linkRates, if_neg Bool.false_ne_true, if_pos (by simp [vi7Allows, h])]
  exact congrArg Host.Outcome.next hlow

theorem linkRates_raises {s : State} {i : Nat} (hi : i < 16) (h : 80 ≤ islandMax s 7) :
    Answers (.linkRateLowering false) s fun t => 660 ≤ (tget ({} : Isl) t.pwr.isl 7).vset ∧ linkOf t.hst i =
      (if (linkOf s.hst i).st = 2 ∧ (linkOf s.hst i).lowered = true then { linkOf s.hst i with rate := 0, lowered := false }
        else linkOf s.hst i) := by
  refine answers_of_next (congrArg Host.Outcome.next (linkRates_false h)) ⟨?_, ?_⟩
  · rw [linksWhere_pwr]
    exact raiseVi7_vset _
  · rw [linkOf_linksWhere hi, raiseVi7_hst]
    exact if_congr (by simp) rfl rfl

end Sys2Proof.Proofs
end

section
/-! The FM-owned LD, SPDM and IDE (R102, R113 to R115), the response watchdog (R119) and the commit of a decoder (R108). -/

namespace Sys2Proof.Proofs

open Sys2Proof.Machine Sys2Proof.Safety Sys2Proof.Laws

/-! ### The FM-owned LD (R102) -/

theorem fmUp_iff (s : State) (l : Nat) :
    fmUp s l = true ↔ (linkOf s.hst l).st = 2 ∧ (linkOf s.hst l).switched = true := by
  simp [fmUp]

theorem fm_silent {s : State} {l : Nat} (h : ¬ ((linkOf s.hst l).st = 2 ∧ (linkOf s.hst l).switched = true)) :
    exec (.getLdInfo l) s = .next s ∧ exec (.getLdAllocations l) s = .next s ∧ exec (.setLdAllocations l) s = .next s := by
  have hdown : ¬ fmUp s l = true := fun hup => h ((fmUp_iff s l).1 hup)
  exact ⟨congrArg _ (if_neg hdown), congrArg _ (if_neg hdown), congrArg _ (if_neg hdown)⟩

theorem fm_answers {s : State} {l : Nat} (h : (linkOf s.hst l).st = 2 ∧ (linkOf s.hst l).switched = true) :
    (Answers (.getLdInfo l) s fun t => ∃ x, t = emit (.fmReply l 0 (16 :: x)) s) ∧
    exec (.getLdAllocations l) s =
      .next (emit (.fmReply l 0 ((List.range 16).map fun i => if (ldTenant s (16 * l + i)).isSome then 1 else 0)) s) ∧
    exec (.setLdAllocations l) s = .next (emit (.fmReply l 3 []) s) := by
  have hup := (fmUp_iff s l).2 h
  exact ⟨⟨_, congrArg Host.Outcome.next (if_pos hup), _, rfl⟩, congrArg _ (if_pos hup), congrArg _ (if_pos hup)⟩

/-! ### SPDM and IDE (R113 to R115) -/

/-- The link that an SPDM request comes by: LD 256 + l is the FM-owned LD of link l (log entry 27). -/
def spdmLink (s : State) (ld : Nat) : Link := linkOf s.hst (if 256 ≤ ld then ld - 256 else ld / 16)

theorem spdmRequest_silent {s : State} {ld : Nat} (code : Nat) (msg : List Byte) (h : (spdmLink s ld).st ≠ 2) :
    exec (.spdmRequest ld code msg) s = .next s :=
  if_pos (by simpa [linkUsable, spdmLink] using h)

theorem spdmRequest_answers {s : State} {ld : Nat} (code : Nat) (msg : List Byte) (h : (spdmLink s ld).st = 2) :
    Answers (.spdmRequest ld code msg) s fun t =>
      (∃ b, t.out = .doeReply ld code b :: s.out ∧ (code = 0xE0 → b = measurements s)) ∧
      (code = 0xEC → (ldOf t.hst ld).spdm = false) ∧ (code ≠ 0xE5 → code ≠ 0xEC → t.hst = s.hst) := by
  have hopen : ¬ (!linkUsable (spdmLink s ld)) = true := by simp [linkUsable, h]
  have hexec : exec (.spdmRequest ld code msg) s = _ := if_neg hopen
  by_cases hfinish : code = 0xE5
  · rw [if_pos hfinish] at hexec
    refine answers_of_next hexec ⟨⟨_, rfl, fun hcode => if_pos hcode⟩, fun hcode => ?_, fun hne => absurd hfinish hne⟩
    omega
  · rw [if_neg hfinish] at hexec
    by_cases hend : code = 0xEC
    · rw [if_pos hend] at hexec
      refine answers_of_next hexec ⟨⟨_, rfl, fun hcode => if_pos hcode⟩, fun _ => ?_, fun _ hne => absurd hend hne⟩
      rw [ldOf_onLd_same]
    · rw [if_neg hend] at hexec
      exact answers_of_next hexec ⟨⟨_, rfl, fun hcode => if_pos hcode⟩, fun hcode => absurd hcode hend, fun _ _ => rfl⟩

/-- The DOE endpoint of a link: the FM-owned LD behind a switch, else LD 0. -/
def doeLd (s : State) (l : Nat) : Nat := if (linkOf s.hst l).switched then 256 + l else 16 * l

theorem ideKeyProgramming_refused {s : State} {l : Nat} (a b skid : Bool)
    (h : ¬ ((linkOf s.hst l).st = 2 ∧ (ldOf s.hst (doeLd s l)).spdm = true)) :
    exec (.ideKeyProgramming l a b skid) s = .next s :=
  if_pos (by simpa [linkUsable, doeLd, imp_iff_not_or] using h)

theorem ideKeyProgramming_taken {s : State} {l : Nat} (a b skid : Bool)
    (h : (linkOf s.hst l).st = 2 ∧ (ldOf s.hst (doeLd s l)).spdm = true) :
    Answers (.ideKeyProgramming l a b skid) s fun t => linkOf t.hst l =
      { linkOf s.hst l with ideMem := (linkOf s.hst l).ideMem || a, ideIo := (linkOf s.hst l).ideIo || b, skid := skid
                            insecure := (linkOf s.hst l).insecure && !(a && b) } := by
  obtain ⟨hup, hsession⟩ := h
  have hopen : ¬ (!linkUsable (linkOf s.hst l) || !(ldOf s.hst (doeLd s l)).spdm) = true := by simp [linkUsable, hup, hsession]
  exact answers_of_next (if_neg hopen) (linkOf_onLink_same l _ s)

/-- A check that fails ends its stream, and leaves the link's other stream. -/
theorem ideCheckFail_ends (s : State) (l : Nat) (a : Bool) : Answers (.ideCheckFail l a) s fun t =>
    (linkOf t.hst l).insecure = true ∧ noted t 0x0503 0 3 l ∧
    (if a then (linkOf t.hst l).ideMem = false ∧ (linkOf t.hst l).ideIo = (linkOf s.hst l).ideIo
      else (linkOf t.hst l).ideIo = false ∧ (linkOf t.hst l).ideMem = (linkOf s.hst l).ideMem) := by
  refine answers_of_next rfl ?_
  rw [linkOf_of_links (note_links _ _) l, linkOf_onLink_same]
  refine ⟨rfl, note_noted _ _, ?_⟩
  cases a
  · exact ⟨Bool.and_false _, Bool.and_true _⟩
  · exact ⟨Bool.and_false _, Bool.and_true _⟩

theorem deferrableMemoryWrite_taken {s : State} {ld off size : Nat} (h : dmwrTaken s ld off size = true) :
    exec (.deferrableMemoryWrite ld off size) s = .next s :=
  congrArg Host.Outcome.next (if_pos h)

theorem deferrableMemoryWrite_unsupported {s : State} {ld off size : Nat} (h : dmwrTaken s ld off size = false) :
    exec (.deferrableMemoryWrite ld off size) s = .next (emit (.dmwrUnsupported ld) s) :=
  congrArg Host.Outcome.next (if_neg (by rw [h]; exact Bool.false_ne_true))

/-! ### Decoders (R108) -/

theorem hdmDecoderCommit_ignored {s : State} {ld idx : Nat} (base size ways gran skip : Nat) (bi : Bool)
    (h : 2 ≤ idx ∨ mailboxUp s ld = false) : exec (.hdmDecoderCommit ld idx base size ways gran skip bi) s = .next s :=
  if_pos h

/-- What R108 asks of a decoder that begins at DPA `d`: ways and granularity of the standard, and one region only. -/
def hdmFits (d size ways gran : Nat) : Prop :=
  ways ∈ [1, 2, 4, 8, 16] ∧ gran ∈ [256, 512, 1024, 2048, 4096, 8192, 16384] ∧
    (size / ways = 0 ∨ d / 2 ^ 50 = (d + size / ways - 1) / 2 ^ 50)

theorem hdmFits_iff (d size ways gran : Nat) : hdmFits d size ways gran ↔
    ([1, 2, 4, 8, 16].contains ways && [256, 512, 1024, 2048, 4096, 8192, 16384].contains gran
      && (size / max 1 ways == 0 || d / 2 ^ 50 == (d + size / max 1 ways - 1) / 2 ^ 50)) = true := by
  rcases Nat.eq_zero_or_pos ways with h0 | hpos
  · subst h0
    simp [hdmFits]
  · rw [Nat.max_eq_right hpos]
    simp only [hdmFits, Bool.and_eq_true, Bool.or_eq_true, beq_iff_eq, List.contains_iff_mem, and_assoc]

theorem hdmDecoderCommit_commits {s : State} {ld idx : Nat} (base size ways gran skip : Nat) (bi : Bool) (hidx : idx < 2)
    (hup : mailboxUp s ld = true) : Answers (.hdmDecoderCommit ld idx base size ways gran skip bi) s fun t =>
      let h := tget ({} : Hdm) (ldOf t.hst ld).hdm idx
      h.base = base ∧ h.size = size ∧ h.ways = ways ∧ h.gran = gran ∧ h.skip = skip ∧ h.bi = bi ∧
      (hdmFits (hdmDpa (ldOf s.hst ld) idx skip) size ways gran → h.committed = true ∧ h.error = false) ∧
      (¬ hdmFits (hdmDpa (ldOf s.hst ld) idx skip) size ways gran → h.committed = false ∧ h.error = true) := by
  refine answers_of_next (if_neg (by rw [hup]; simp; omega)) ?_
  rw [ldOf_onLd_same, tget_tset_same]
  refine ⟨rfl, rfl, rfl, rfl, rfl, rfl, fun hfits => ?_, fun hfits => ?_⟩
  · have hok := (hdmFits_iff _ _ _ _).1 hfits
    exact ⟨hok, by rw [hok]; rfl⟩
  · have hbad := Bool.eq_false_iff.2 (mt (hdmFits_iff _ _ _ _).2 hfits)
    exact ⟨hbad, by rw [hbad]; rfl⟩

end Sys2Proof.Proofs
end

section
/-! The response watchdog (R119, R423, R424) and the resets of an LD and of a link (R121, Table 6.8). -/

namespace Sys2Proof.Proofs

open Sys2Proof.Machine Sys2Proof.Safety Sys2Proof.Laws

/-! ### The response watchdog -/

theorem mem_out_record {o : Out} {s : State} (e : Ev) (h : o ∈ s.out) : o ∈ (record e s).out := by
  unfold record
  dsimp only
  split
  · exact List.mem_append_right _ h
  · split
    · split
      · exact h
      · exact List.mem_append_right _ h
    · exact h

/-- The answer that a late request of a local host gets: completion, or poison. -/
def lateAnswer (r : MemReq) : Out :=
  if r.isWrite then .memDone r.id r.ld else .memData r.id r.ld (List.replicate 64 0) true 0

theorem answer_late {r : MemReq} (ho : r.origin = none) (ha : r.answered = false) (s : State) :
    (if r.isWrite then answerWrite r 0 s else answerPoison r s) = emit (lateAnswer r) s := by
  cases hw : r.isWrite <;> simp [answerWrite, answerPoison, answerData, lateAnswer, ho, ha, hw]

/-- What is left once a late request has been answered: `q` is what stays of the requests. -/
theorem late_raised (e : Ev) (r : MemReq) (q : List MemReq) (s : State) (hd : (codeRow e.code e.cls).2 = 0)
    (hc : (codeRow e.code e.cls).1 < 4) {t : State}
    (ht : raise e (onLd r.ld (fun l => { l with wd := sat 16 (l.wd + 1) })
      { emit (lateAnswer r) s with hst := { s.hst with reqs := q } }) = t) :
    (ldOf t.hst r.ld).wd = min ((ldOf s.hst r.ld).wd + 1) 65535 ∧ noted t e.code e.tenant e.sk e.si ∧ t.hst.reqs = q ∧
    lateAnswer r ∈ t.out := by
  subst ht
  refine ⟨?_, note_noted _ _ hc, note_reqs _ _ hd, ?_⟩
  · rw [raise_eq_record _ _ hd]
    refine (congrArg Ld.wd (record_ldCore e _ r.ld) :).trans ?_
    exact congrArg Ld.wd (ldOf_onLd_same r.ld _ _)
  · rw [raise_eq_record _ _ hd]
    exact mem_out_record e (.head _)

section
variable {s : State} {r : MemReq} (hr : s.hst.reqs = [r]) (ho : r.origin = none) (ha : r.answered = false)
include hr ho ha

theorem find_watched : s.hst.reqs.find? (fun q => q.id == r.id && q.origin.isNone && !q.answered) = some r := by
  rw [hr]
  exact List.find?_cons_of_pos (by simp [ho, ha])

theorem responseWatchdog_early (h : now s < r.stamp + 9000000) : exec (.responseWatchdog r.id) s = .next s := by
  show execResponseWatchdog r.id s = _
  unfold execResponseWatchdog
  rw [find_watched hr ho ha]
  exact if_pos h

theorem responseWatchdog_due (h : r.stamp + 9000000 ≤ now s) : Answers (.responseWatchdog r.id) s fun t =>
    (ldOf t.hst r.ld).wd = min ((ldOf s.hst r.ld).wd + 1) 65535 ∧
    (if s.uni.st = .faulted then noted t 0x0010 ((ldTenant s r.ld).getD 0) 1 r.ld ∧ t.hst.reqs = []
      else noted t 0x0504 ((ldTenant s r.ld).getD 0) 1 r.ld ∧
        t.hst.reqs = (if r.isWrite then [{ r with answered := true }] else [])) ∧
    (if r.isWrite then .memDone r.id r.ld ∈ t.out else ∃ d, .memData r.id r.ld d true 0 ∈ t.out) := by
  have hexec : exec (.responseWatchdog r.id) s = execResponseWatchdog r.id s := rfl
  unfold execResponseWatchdog at hexec
  rw [find_watched hr ho ha] at hexec
  dsimp only at hexec
  rw [if_neg (show ¬ now s < r.stamp + watchdogNs from Nat.not_lt.2 h), answer_late ho ha] at hexec
  have hanswer {t : State} (h : lateAnswer r ∈ t.out) :
      if r.isWrite then .memDone r.id r.ld ∈ t.out else ∃ d, .memData r.id r.ld d true 0 ∈ t.out := by
    cases hw : r.isWrite with
    | true => simpa [lateAnswer, hw] using h
    | false => exact ⟨List.replicate 64 0, by simpa [lateAnswer, hw] using h⟩
  by_cases hf : s.uni.st = .faulted
  · rw [if_pos (beq_iff_eq.2 hf)] at hexec
    refine answers_of_next hexec ?_
    obtain ⟨hwd, hnoted, hreqs, hout⟩ := late_raised
      { code := 0x0010, tenant := (ldTenant s r.ld).getD 0, sk := 1, si := r.ld, addr := r.addr, d0 := 7, d1 := b2n r.isWrite }
      r _ s (by with_unfolding_all rfl) (by simp [codeRow]) rfl
    refine ⟨hwd, ?_, hanswer hout⟩
    rw [if_pos hf]
    exact ⟨hnoted, hreqs.trans (by simp [hr, ho, ha, hf])⟩
  · rw [if_neg (mt beq_iff_eq.1 hf)] at hexec
    refine answers_of_next hexec ?_
    obtain ⟨hwd, hnoted, hreqs, hout⟩ := late_raised
      { code := 0x0504, tenant := (ldTenant s r.ld).getD 0, sk := 1, si := r.ld, addr := r.addr, d0 := r.stamp }
      r _ s (by with_unfolding_all rfl) (by simp [codeRow]) rfl
    refine ⟨hwd, ?_, hanswer hout⟩
    rw [if_neg hf]
    exact ⟨hnoted, hreqs.trans (by cases hw : r.isWrite <;> simp [hr, ho, ha, hf, hw])⟩

end
end Sys2Proof.Proofs
end

section
/-! The resets of one LD and of a link (R121, Table 6.8): what a reset LD is left with, and that the reset of another LD keeps it. -/

namespace Sys2Proof.Proofs

open Sys2Proof.Machine Sys2Proof.Safety Sys2Proof.Laws

/-- LD `x` is as a reset leaves it, with `m` its doorbell mask: no extent, no decoder, the default interrupt policy, and of its
requests only answered writes. -/
def ldBlank (m : BitVec 32) (x : Nat) (t : State) : Prop :=
  (ldOf t.hst x).accepted = [] ∧ (ldOf t.hst x).hdm = [] ∧ (ldOf t.hst x).evPolicy = [1, 1, 1, 1, 1] ∧
  (ldOf t.hst x).inReset = false ∧ (boxOf t.mbx x).mask = m ∧
  ∀ r ∈ t.hst.reqs, r.ld = x → r.origin = none → r.isWrite = true ∧ r.answered = true

theorem HostsKept.blank {s t : State} {m : BitVec 32} {x : Nat} (h : HostsKept s t) (hb : ldBlank m x s) : ldBlank m x t := by
  obtain ⟨hacc, hhdm, hpol, hin, hmask, hreqs⟩ := hb
  refine ⟨?_, ?_, ?_, ?_, (h.mask x).trans hmask, h.reqs ▸ hreqs⟩
  · exact (congrArg Ld.accepted (h.ld x)).trans hacc
  · exact (congrArg Ld.hdm (h.ld x)).trans hhdm
  · exact (congrArg Ld.evPolicy (h.ld x)).trans hpol
  · exact (congrArg Ld.inReset (h.ld x)).trans hin

/-- Closing an LD's SPDM session keeps every LD blank. -/
theorem ldBlank_endSession {m : BitVec 32} {x : Nat} {s : State} (ld : Nat) (hb : ldBlank m x s) :
    ldBlank m x (onLd ld (fun l => { l with spdm := false }) s) := by
  by_cases e : x = ld
  · subst e
    unfold ldBlank
    rw [ldOf_onLd_same]
    exact hb
  · unfold ldBlank
    rw [ldOf_onLd_other e]
    exact hb

/-! ### The reset of one LD -/

/-- An LD's registers as its reset leaves them. -/
def ldCleared (l : Ld) : Ld :=
  { l with
    inReset := false, accepted := [], offered := [], releasing := [], hdm := [], vecs := [], pba := 0
    evPolicy := [1, 1, 1, 1, 1], pages := [] }

/-- A mailbox as the reset of its LD leaves it, with `m` its doorbell mask. -/
def boxCleared (m : BitVec 32) (b : HostBox) : HostBox := { b with db := 0, mask := m, low := none, ptr := 0 }

/-- An LD's registers, requests and mailbox are cleared: the first stage of `ldReset`. -/
def ldEmptied (ld : Nat) (s : State) : State :=
  onBox ld (boxCleared (doorbellMask (liveView s) (me s) ld)) (onLd ld ldCleared { s with hst := dropResponses (· == ld) s.hst })

/-- The notices of a reset change no LD's core: the epoch's doorbell, the release of the extents held, and the offers. -/
theorem ldReset_hosts (ld : Nat) (s : State) : HostsKept (ldEmptied ld s) (ldReset ld s) := by
  have hepoch : HostsKept (ldEmptied ld s) (hostEpoch ld (ldEmptied ld s)) := hostEpoch_hosts (.refl _)
  exact offerAll_hosts (HostsKept.foldl (HostsKept.ite (sendMsix_hosts hepoch) hepoch) fun _ _ h => releaseDone_hosts h)

theorem ldEmptied_blank (ld : Nat) (s : State) : ldBlank (doorbellMask (liveView s) (me s) ld) ld (ldEmptied ld s) := by
  unfold ldBlank ldEmptied
  rw [boxOf_onBox_same]
  show (ldOf (onLd ld ldCleared _).hst ld).accepted = [] ∧ (ldOf (onLd ld ldCleared _).hst ld).hdm = [] ∧
    (ldOf (onLd ld ldCleared _).hst ld).evPolicy = _ ∧ (ldOf (onLd ld ldCleared _).hst ld).inReset = false ∧ _
  rw [ldOf_onLd_same]
  exact ⟨rfl, rfl, rfl, rfl, rfl, fun r hr hx ho => mem_dropResponses (p := (· == ld)) (h := s.hst) hr (beq_iff_eq.2 hx) ho⟩

/-- A discard keeps that of an LD's requests only answered writes are left. -/
theorem dropResponses_answered {p : Nat → Bool} {h : Hst} {x : Nat}
    (hx : ∀ r ∈ h.reqs, r.ld = x → r.origin = none → r.isWrite = true ∧ r.answered = true) :
    ∀ r ∈ (dropResponses p h).reqs, r.ld = x → r.origin = none → r.isWrite = true ∧ r.answered = true := by
  intro r hr hld ho
  obtain ⟨q, hq, rfl | rfl⟩ := mem_dropResponses_of hr
  · exact hx _ hq hld ho
  · exact ⟨(hx q hq hld ho).1, rfl⟩

theorem ldEmptied_blank_other {m : BitVec 32} {ld x : Nat} {s : State} (hne : x ≠ ld) (hb : ldBlank m x s) :
    ldBlank m x (ldEmptied ld s) := by
  obtain ⟨hacc, hhdm, hpol, hin, hmask, hreqs⟩ := hb
  have hld : ldOf (ldEmptied ld s).hst x = ldOf s.hst x := ldOf_onLd_other hne ldCleared { s with hst := dropResponses (· == ld) s.hst }
  unfold ldBlank
  rw [hld]
  exact ⟨hacc, hhdm, hpol, hin, (congrArg HostBox.mask (boxOf_onBox_other hne _ _)).trans hmask,
    dropResponses_answered (p := (· == ld)) (h := s.hst) hreqs⟩

theorem ldEmptied_present (ld x : Nat) (s : State) : (ldOf (ldEmptied ld s).hst x).present = (ldOf s.hst x).present := by
  show (ldOf (onLd ld ldCleared { s with hst := dropResponses (· == ld) s.hst }).hst x).present = _
  by_cases e : x = ld
  · subst e
    rw [ldOf_onLd_same]
    rfl
  · rw [ldOf_onLd_other e]
    rfl

theorem ldReset_blank (ld : Nat) (s : State) : ldBlank (doorbellMask (liveView s) (me s) ld) ld (ldReset ld s) :=
  (ldReset_hosts ld s).blank (ldEmptied_blank ld s)

theorem ldReset_vq (ld : Nat) (s : State) : (ldReset ld s).vq = s.vq :=
  (ldReset_kept ld s (.refl _ s) (covers_refl _)).frame .vq (by decide)

theorem ldReset_blank_other {m : BitVec 32} {ld x : Nat} {s : State} (hne : x ≠ ld) (hb : ldBlank m x s) :
    ldBlank m x (ldReset ld s) :=
  (ldReset_hosts ld s).blank (ldEmptied_blank_other hne hb)

theorem ldReset_present (ld x : Nat) (s : State) : (ldOf (ldReset ld s).hst x).present = (ldOf s.hst x).present :=
  ((ldReset_hosts ld s).present x).trans (ldEmptied_present ld x s)

theorem functionLevelReset_absent {s : State} {ld : Nat} (h : (ldOf s.hst ld).present = false) :
    exec (.functionLevelReset ld) s = .next s :=
  congrArg Host.Outcome.next (if_neg (by rw [h]; exact Bool.false_ne_true))

theorem functionLevelReset_blanks {s : State} {ld : Nat} (h : (ldOf s.hst ld).present = true) :
    Answers (.functionLevelReset ld) s (ldBlank (doorbellMask (liveView s) (me s) ld) ld) :=
  answers_of_next (congrArg Host.Outcome.next (if_pos h)) (ldReset_blank ld s)

/-! ### The reset of a link -/

/-- The reset of an LD that is present. -/
def ldResetIf (ld : Nat) (s : State) : State := if (ldOf s.hst ld).present then ldReset ld s else s

theorem ldResetIf_vq (ld : Nat) (s : State) : (ldResetIf ld s).vq = s.vq := by
  unfold ldResetIf
  split
  · exact ldReset_vq ld s
  · rfl

theorem ldResetIf_present (ld x : Nat) (s : State) : (ldOf (ldResetIf ld s).hst x).present = (ldOf s.hst x).present := by
  unfold ldResetIf
  split
  · exact ldReset_present ld x s
  · rfl

theorem ldResetIf_blank_other {m : BitVec 32} {ld x : Nat} {s : State} (hne : x ≠ ld) (hb : ldBlank m x s) :
    ldBlank m x (ldResetIf ld s) := by
  unfold ldResetIf
  split
  · exact ldReset_blank_other hne hb
  · exact hb

theorem ldResetIf_blank {ld : Nat} {s : State} (h : (ldOf s.hst ld).present = true) :
    ldBlank (doorbellMask (liveView s) (me s) ld) ld (ldResetIf ld s) := by
  rw [ldResetIf, if_pos h]
  exact ldReset_blank ld s

/-- The first `n` LDs from `b` on are reset, one after another. -/
def ldResets (b n : Nat) (s : State) : State := (List.range n).foldl (fun s i => ldResetIf (b + i) s) s

theorem ldResets_succ (b n : Nat) (s : State) : ldResets b (n + 1) s = ldResetIf (b + n) (ldResets b n s) := by
  rw [ldResets, List.range_succ, List.foldl_append]
  rfl

theorem ldResets_vq (b n : Nat) (s : State) : (ldResets b n s).vq = s.vq :=
  foldl_same State.vq (fun u i => ldResetIf_vq (b + i) u) _ s

theorem ldResets_present (b n x : Nat) (s : State) : (ldOf (ldResets b n s).hst x).present = (ldOf s.hst x).present :=
  foldl_same (fun u => (ldOf u.hst x).present) (fun u i => ldResetIf_present (b + i) x u) _ s

/-- Each LD reset that was present is blank: a reset after its own keeps it. -/
theorem ldResets_blank {b n i : Nat} {s : State} (hi : i < n) (h : (ldOf s.hst (b + i)).present = true) :
    ldBlank (doorbellMask (liveView s) (me s) (b + i)) (b + i) (ldResets b n s) := by
  induction n with
  | zero => omega
  | succ n ih =>
    rw [ldResets_succ]
    by_cases hin : i = n
    · subst hin
      have hb := ldResetIf_blank ((ldResets_present b i (b + i) s).trans h)
      rwa [liveView, me, ldResets_vq] at hb
    · exact ldResetIf_blank_other (by omega) (ih (by omega))

/-- The SPDM sessions of a link's sixteen LDs are closed. -/
def sessionsClosed (l : Nat) (s : State) : State :=
  (List.range 16).foldl (fun s i => onLd (16 * l + i) (fun x => { x with spdm := false }) s) s

theorem sessionsClosed_blank {m : BitVec 32} {l x : Nat} {s : State} (hb : ldBlank m x s) : ldBlank m x (sessionsClosed l s) := by
  unfold sessionsClosed
  generalize List.range 16 = is
  induction is generalizing s with
  | nil => exact hb
  | cons i is ih => exact ih (ldBlank_endSession _ hb)

theorem sessionsClosed_spdm {l i : Nat} (hi : i < 16) (s : State) : (ldOf (sessionsClosed l s).hst (16 * l + i)).spdm = false := by
  rw [sessionsClosed, ldOf_foldl_onLd (16 * l) (fun _ x => { x with spdm := false }), if_pos (by omega)]

/-- `execHotReset` by its stages: the LDs, their sessions, the link's IDE streams and the session of the FM-owned LD. -/
theorem hotReset_eq_stages (l : Nat) (s : State) : exec (.hotReset l) s = .next
    (onLd (256 + l) (fun x => { x with spdm := false })
      (onLink l (fun k => { k with ideMem := false, ideIo := false, insecure := false }) (sessionsClosed l (ldResets (16 * l) 16 s)))) :=
  rfl

theorem linkOf_onLd (ld : Nat) (f : Ld → Ld) (s : State) (l : Nat) : linkOf (onLd ld f s).hst l = linkOf s.hst l := rfl

theorem hotReset_clears (l : Nat) (s : State) : Answers (.hotReset l) s fun t =>
    (linkOf t.hst l).ideMem = false ∧ (linkOf t.hst l).ideIo = false ∧ (linkOf t.hst l).insecure = false ∧
    ∀ i < 16, (ldOf t.hst (16 * l + i)).spdm = false ∧ ((ldOf s.hst (16 * l + i)).present = true →
      ldBlank (doorbellMask (liveView s) (me s) (16 * l + i)) (16 * l + i) t) := by
  refine answers_of_next (hotReset_eq_stages l s) ?_
  generalize hu : sessionsClosed l (ldResets (16 * l) 16 s) = u
  rw [linkOf_onLd, linkOf_onLink_same]
  refine ⟨rfl, rfl, rfl, fun i hi => ⟨?_, fun hpresent => ?_⟩⟩
  · by_cases e : 16 * l + i = 256 + l
    · rw [e, ldOf_onLd_same]
    · rw [ldOf_onLd_other e, ← sessionsClosed_spdm hi (ldResets (16 * l) 16 s), hu]
      rfl
  · have hb : ldBlank (doorbellMask (liveView s) (me s) (16 * l + i)) (16 * l + i) u :=
      hu ▸ sessionsClosed_blank (ldResets_blank hi hpresent)
    exact ldBlank_endSession _ hb

end Sys2Proof.Proofs
end

section
/-! What a host link and its resets owe (R99 to R102, R108, R113 to R115, R119, R121, R122, R124). -/

namespace Sys2Proof.Proofs

open Sys2Proof.Machine Sys2Proof.Safety Sys2Proof.Laws

/-- Settles O57: the rules of training, loss and rate of a link, of its FM-owned LD, SPDM and IDE, of the watchdog, of the resets
and of the decoders, one after another. -/
theorem hostLinksAndResets : Obligations.HostLinksAndResets := by
  unfold Obligations.HostLinksAndResets
  refine ⟨fun s l p => ?_, fun s l => ?_, fun s l => ⟨fm_silent, fm_answers⟩, fun s ld code msg => ?_, fun s l a b skid => ?_,
    fun s ld off size => ⟨deferrableMemoryWrite_taken, deferrableMemoryWrite_unsupported⟩, fun s r hr ho ha => ?_,
    fun s ld => ⟨functionLevelReset_absent, functionLevelReset_blanks, fun l => hotReset_clears l s⟩,
    fun s ld idx base size ways gran skip bi => ?_⟩
  · intro served fast cause
    have hcause : trainFail p = cause := trainFail_eq p
    have hrate : trainedRate p s = _ := trainedRate_eq p s
    refine ⟨fun h => congrArg Host.Outcome.next (linkUp_of_not_trains p h), fun h hf => ?_, fun h hf => ?_⟩
    · exact hcause ▸ linkUp_fails h (hcause ▸ hf)
    · exact hrate ▸ linkUp_up h (hcause.trans hf)
  · exact ⟨linkDown_of_not_up, linkDown_of_up, fun _ hi => linkRates_lowers hi, linkRates_of_low, fun _ hi h => linkRates_raises hi h⟩
  · exact ⟨spdmRequest_silent code msg, spdmRequest_answers code msg⟩
  · exact ⟨ideKeyProgramming_refused a b skid, ideKeyProgramming_taken a b skid, ideCheckFail_ends s l a⟩
  · exact ⟨responseWatchdog_early hr ho ha, responseWatchdog_due hr ho ha⟩
  · exact ⟨hdmDecoderCommit_ignored base size ways gran skip bi, hdmDecoderCommit_commits base size ways gran skip bi⟩

end Sys2Proof.Proofs
end

section
/-! The rules of the mailboxes (R128 to R135): what a change of a host mailbox or of an internal one leaves, what an access to a
domain that is down leaves, and how vector 0 goes out. -/

namespace Sys2Proof.Proofs

open Sys2Proof.Machine Sys2Proof.Safety Sys2Proof.Laws

/-! ### A host mailbox and its doorbell -/

/-- A change of a host mailbox, whether or not a message goes out for it: beside the mailbox, interrupts alone. -/
theorem onBoxBell_eq (ld : Nat) (f : HostBox → HostBox) (s : State) :
    ∃ h o, onBoxBell ld f s = { s with mbx := (onBox ld f s).mbx, hst := h, out := o } := by
  unfold onBoxBell ringBell
  split
  · exact ⟨_, _, rfl⟩
  · exact ⟨s.hst, s.out, rfl⟩

@[simp] theorem onBoxBell_mbx (ld : Nat) (f : HostBox → HostBox) (s : State) : (onBoxBell ld f s).mbx = (onBox ld f s).mbx := by
  obtain ⟨_, _, h⟩ := onBoxBell_eq ld f s
  rw [h]

theorem boxOf_onBoxBell_same (ld : Nat) (f : HostBox → HostBox) (s : State) :
    boxOf (onBoxBell ld f s).mbx ld = f (boxOf s.mbx ld) := by
  rw [onBoxBell_mbx, boxOf_onBox_same]

/-- What an LD has accepted is not touched by its doorbell. -/
theorem onBoxBell_accepted {ld : Nat} {f : HostBox → HostBox} (hf : ∀ b, (f b).mask = b.mask) (s : State) (x : Nat) :
    (ldOf (onBoxBell ld f s).hst x).accepted = (ldOf s.hst x).accepted :=
  (congrArg Ld.accepted ((onBoxBell_hosts hf (.refl s)).ld x) :)

/-! ### An internal mailbox -/

theorem intOf_onInt_same (j : Nat) (f : IntBox → IntBox) (s : State) : intOf (onInt j f s).mbx j = f (intOf s.mbx j) :=
  tget_tmod_same _ j f s.mbx.internal

/-! ### Vector 0 (R111, R133) -/

theorem sendMsix_masked {ld v : Nat} {s : State} (hv : v < 64) (h : (tget {} (ldOf s.hst ld).vecs v).masked = true) :
    (ldOf (sendMsix ld v s).hst ld).pba.getLsbD v = true := by
  have hpba : (ldOf (sendMsix ld v s).hst ld).pba = (ldOf s.hst ld).pba ||| BitVec.ofNat 64 (1 <<< v) := by
    rw [sendMsix, msixHst, if_pos h]
    exact congrArg Ld.pba (tget_tmod_same {} ld (fun l => { l with pba := l.pba ||| BitVec.ofNat 64 (1 <<< v) }) s.hst.lds)
  rw [hpba, BitVec.getLsbD_or, BitVec.getLsbD_ofNat, Nat.one_shiftLeft, Nat.testBit_two_pow_self, decide_eq_true hv]
  exact Bool.or_true _

theorem sendMsix_unmasked {ld v : Nat} {s : State} (h : (tget {} (ldOf s.hst ld).vecs v).masked = false) :
    (sendMsix ld v s).out = .msix ld v :: s.out := by
  rw [sendMsix, msixOut, h]
  rfl

/-! ### A domain that is down (R135, Table 7.6) -/

@[simp] theorem mbxRefused_mbx (box situation : Nat) (ld : Option Nat) (s : State) : (mbxRefused box situation ld s).mbx = s.mbx := by
  rw [mbxRefused, raise_eq_record _ _ (by with_unfolding_all rfl), record_mbx]

@[simp] theorem mbxRefused_wrn (box situation : Nat) (ld : Option Nat) (s : State) : (mbxRefused box situation ld s).wrn = s.wrn := by
  rw [mbxRefused, raise_eq_record _ _ (by with_unfolding_all rfl), record_wrn]

theorem mbxRefused_noted (box situation : Nat) (ld : Option Nat) (s : State) :
    noted (mbxRefused box situation ld s) 0x0601 0 (if ld.isSome then 1 else 0) (ld.getD 0) :=
  note_noted _ s

end Sys2Proof.Proofs
end

section
/-! A host's sends (R128, R130, R134, R135): what a posted send and a Deferrable Memory Write do with a message. -/

namespace Sys2Proof.Proofs

open Sys2Proof.Machine Sys2Proof.Safety Sys2Proof.Laws

/-- The word that a write to `MBX_SEND` enqueues: the one written, or its upper half joined to the half that is held (R130). -/
def joinedWord (low : Option (BitVec 32)) (v : Word) : Word :=
  match low with
  | some l => (v >>> 32) <<< 32 ||| l.setWidth 64
  | none => v

section
variable {s : State} {ld : Nat} (hide : ideOk s (ld / 16) = true)
include hide

theorem exec_mbxSend (v : Word) (stamp : Ns) :
    exec (.mbxSend ld v stamp) s = .next (postSend ld (joinedWord (boxOf s.mbx ld).low v) stamp s) := by
  show execMbxSend ld v stamp s = _
  rw [execMbxSend, hide]
  cases (boxOf s.mbx ld).low <;> rfl

theorem exec_mbxSendHalf (v : BitVec 32) : exec (.mbxSendHalf ld v) s =
    .next (if mbxDown s then mbxRefused ld 1 (some ld) s else onBox ld (fun b => { b with low := some v }) s) := by
  show execMbxSendHalf ld v s = _
  rw [execMbxSendHalf, hide]
  rfl

theorem exec_mbxDmwrWord (v : Word) (stamp : Ns) :
    exec (.mbxDmwrWord ld v stamp) s = .next (dmwrSend ld (hostMsg s ld v stamp) s) := by
  show execMbxDmwrWord ld v stamp s = _
  rw [execMbxDmwrWord, hide]
  rfl

/-- In POINTER mode a 16-byte Deferrable Memory Write sends its notice. -/
theorem exec_mbxDmwrPointer_notice (ptr v : Word) (stamp : Ns) (hp : (boxOf s.mbx ld).pointer = true) :
    exec (.mbxDmwrPointer ld ptr v stamp) s = .next (dmwrSend ld ⟨hostStamp s ld stamp, ptr, v⟩ s) := by
  show execMbxDmwrPointer ld ptr v stamp s = _
  rw [execMbxDmwrPointer, hide, hp]
  rfl

/-- In WORD mode it is an Unsupported Request. -/
theorem exec_mbxDmwrPointer_word (ptr v : Word) (stamp : Ns) (hp : (boxOf s.mbx ld).pointer = false) (hup : mbxDown s = false) :
    exec (.mbxDmwrPointer ld ptr v stamp) s = .next (emit (.dmwrUnsupported ld) s) := by
  show execMbxDmwrPointer ld ptr v stamp s = _
  rw [execMbxDmwrPointer, hide, hp, hup]
  rfl

/-- While the domain is down it is aborted in either mode. -/
theorem exec_mbxDmwrPointer_down (ptr v : Word) (stamp : Ns) (hdown : mbxDown s = true) :
    exec (.mbxDmwrPointer ld ptr v stamp) s = .next (emit (.dmwrAbort ld) (mbxRefused ld 1 (some ld) s)) := by
  show execMbxDmwrPointer ld ptr v stamp s = _
  rw [execMbxDmwrPointer, hide, dmwrSend, hdown]
  cases (boxOf s.mbx ld).pointer <;> rfl

end

/-- A link without the IDE that is required sends nothing (R115). -/
theorem exec_sends_off_link {s : State} {ld : Nat} (h : ideOk s (ld / 16) = false) (v : Word) (stamp : Ns) :
    exec (.mbxSend ld v stamp) s = .next s ∧ (∀ x, exec (.mbxSendHalf ld x) s = .next s) ∧
    exec (.mbxDmwrWord ld v stamp) s = .next s ∧ ∀ ptr, exec (.mbxDmwrPointer ld ptr v stamp) s = .next s :=
  have hno : (!ideOk s (ld / 16)) = true := by rw [h]; rfl
  ⟨if_pos hno, fun _ => if_pos hno, if_pos hno, fun _ => if_pos hno⟩

/-! ### Posted writes -/

section
variable {s : State} {ld : Nat} (hup : mbxDown s = false)
include hup

theorem postSend_enqueues (x : Word) (stamp : Ns) (hfree : (boxOf s.mbx ld).h2f.length < 16) :
    boxOf (postSend ld x stamp s).mbx ld =
      { boxOf s.mbx ld with h2f := (boxOf s.mbx ld).h2f ++ [hostMsg s ld x stamp], low := none } := by
  have hfree' : (boxOf s.mbx ld).h2f.length < queueCap := hfree
  simp only [postSend, hup, Bool.false_eq_true, if_false, boxOf_onBoxBell_same, if_pos hfree']

theorem postSend_overruns (x : Word) (stamp : Ns) (hfull : 16 ≤ (boxOf s.mbx ld).h2f.length) :
    boxOf (postSend ld x stamp s).mbx ld =
      { boxOf s.mbx ld with
        low := none, ovr := true, overruns := min ((boxOf s.mbx ld).overruns + 1) 65535, db := (boxOf s.mbx ld).db ||| 16
        spaceOwed := true } := by
  have hfull' : ¬ (boxOf s.mbx ld).h2f.length < queueCap := Nat.not_lt.2 hfull
  simp only [postSend, hup, Bool.false_eq_true, if_false, boxOf_onBoxBell_same, if_neg hfull']
  rfl

/-- A Deferrable Memory Write into a queue of the domain that is up completes, or is retried (Table 7.5). -/
theorem dmwrSend_up (m : MbxMsg) :
    if (boxOf s.mbx ld).h2f.length < 16 then
      (dmwrSend ld m s).out = .dmwrSuccess ld :: s.out ∧
        boxOf (dmwrSend ld m s).mbx ld = { boxOf s.mbx ld with h2f := (boxOf s.mbx ld).h2f ++ [m] }
    else
      (dmwrSend ld m s).out = .dmwrRetry ld :: s.out ∧
        boxOf (dmwrSend ld m s).mbx ld = { boxOf s.mbx ld with spaceOwed := true } := by
  split
  case isTrue hfree =>
    have hsend : dmwrSend ld m s = emit (.dmwrSuccess ld) (onBox ld (fun b => { b with h2f := b.h2f ++ [m] }) s) :=
      (if_neg (by rw [hup]; decide)).trans (if_pos hfree)
    rw [hsend]
    exact ⟨rfl, boxOf_onBox_same ..⟩
  case isFalse hfull =>
    have hsend : dmwrSend ld m s = emit (.dmwrRetry ld) (onBox ld (fun b => { b with spaceOwed := true }) s) :=
      (if_neg (by rw [hup]; decide)).trans (if_neg hfull)
    rw [hsend]
    exact ⟨rfl, boxOf_onBox_same ..⟩

end

theorem postSend_down {s : State} (ld : Nat) (x : Word) (stamp : Ns) (hdown : mbxDown s = true) :
    postSend ld x stamp s = mbxRefused ld 1 (some ld) s :=
  if_pos hdown

theorem dmwrSend_down {s : State} (ld : Nat) (m : MbxMsg) (hdown : mbxDown s = true) :
    dmwrSend ld m s = emit (.dmwrAbort ld) (mbxRefused ld 1 (some ld) s) :=
  if_pos hdown

/-- What an access of an LD to a domain that is down leaves: the mailboxes, and its event (R135). -/
theorem mbxRefused_ld (ld : Nat) (s : State) :
    (mbxRefused ld 1 (some ld) s).mbx = s.mbx ∧ noted (mbxRefused ld 1 (some ld) s) 0x0601 0 1 ld :=
  ⟨mbxRefused_mbx .., mbxRefused_noted ld 1 (some ld) s⟩

/-- A Deferrable Memory Write that is aborted. -/
theorem mbxRefused_aborted (ld : Nat) (s : State) : let t := emit (.dmwrAbort ld) (mbxRefused ld 1 (some ld) s)
    t.mbx = s.mbx ∧ noted t 0x0601 0 1 ld ∧ .dmwrAbort ld ∈ t.out :=
  have ⟨hmbx, hnoted⟩ := mbxRefused_ld ld s
  ⟨hmbx, hnoted, .head _⟩

/-- Settles O35: first the sends into a domain that is up, then those into one that is down, then those off a link that may send. -/
theorem mailboxSends : Obligations.MailboxSends := by
  unfold Obligations.MailboxSends
  intro s ld v stamp hide b word msg sent
  have hsent : hostMsg s ld (joinedWord b.low v) stamp = sent := by
    show hostMsg s ld (joinedWord (boxOf s.mbx ld).low v) stamp = _
    cases h : (boxOf s.mbx ld).low <;> simp only [sent, b, h] <;> rfl
  refine ⟨fun hup => ⟨fun hfree => ?_, fun hfull => ?_, ?_, ?_, fun ptr => ?_⟩, fun hdown => ⟨?_, fun h => ?_, ?_, fun ptr => ?_⟩,
    fun s' hoff => exec_sends_off_link hoff v stamp⟩
  · refine answers_of_next (exec_mbxSend hide v stamp) ?_
    rw [postSend_enqueues hup _ stamp hfree, hsent]
    exact ⟨rfl, rfl, rfl⟩
  · refine answers_of_next (exec_mbxSend hide v stamp) ?_
    rw [postSend_overruns hup _ stamp hfull]
    exact ⟨rfl, rfl, rfl, rfl, rfl⟩
  · refine answers_of_next (exec_mbxSendHalf hide _) ?_
    rw [hup, if_neg (by decide)]
    exact ⟨boxOf_onBox_same .., rfl⟩
  · exact answers_of_next (exec_mbxDmwrWord hide v stamp) (dmwrSend_up hup _)
  · by_cases hp : b.pointer = false
    · refine answers_of_next (exec_mbxDmwrPointer_word hide ptr v stamp hp hup) ?_
      rw [if_pos hp]
      rfl
    · refine answers_of_next (exec_mbxDmwrPointer_notice hide ptr v stamp (Bool.eq_true_of_not_eq_false hp)) ?_
      rw [if_neg hp]
      exact dmwrSend_up hup _
  · exact answers_of_next (exec_mbxSend hide v stamp) (postSend_down ld _ stamp hdown ▸ mbxRefused_ld ld s)
  · exact answers_of_next ((exec_mbxSendHalf hide h).trans (congrArg _ (if_pos hdown))) (mbxRefused_ld ld s)
  · exact answers_of_next (exec_mbxDmwrWord hide v stamp) (dmwrSend_down ld _ hdown ▸ mbxRefused_aborted ld s)
  · exact answers_of_next (exec_mbxDmwrPointer_down hide ptr v stamp hdown) (mbxRefused_aborted ld s)

end Sys2Proof.Proofs
end

section
/-! A host's doorbells and the moves of its queues (R131 to R135, R144). -/

namespace Sys2Proof.Proofs

open Sys2Proof.Machine Sys2Proof.Safety Sys2Proof.Laws

/-! ### The rows, by what they do -/

section
variable {s : State} {ld : Nat} (hide : ideOk s (ld / 16) = true)
include hide

theorem exec_mbxRecvPop (v : Word) : exec (.mbxRecvPop ld v) s =
    .next (if mbxDown s then mbxRefused ld 1 (some ld) s else if v.getLsbD 0 then popF2h ld s else s) := by
  show execMbxRecvPop ld v s = _
  rw [execMbxRecvPop, hide]
  cases mbxDown s <;> rfl

theorem exec_mbxDbClear (v : Word) : exec (.mbxDbClear ld v) s =
    .next (if mbxDown s then mbxRefused ld 1 (some ld) s else onBox ld (fun b => { b with db := b.db &&& ~~~ (v.setWidth 32) }) s) := by
  show execMbxDbClear ld v s = _
  rw [execMbxDbClear, hide]
  cases mbxDown s <;> rfl

theorem exec_mbxDbMaskWrite (v : Word) : exec (.mbxDbMaskWrite ld v) s =
    .next (if mbxDown s then mbxRefused ld 1 (some ld) s else maskWrite ld (v.setWidth 32) s) := by
  show execMbxDbMaskWrite ld v s = _
  rw [execMbxDbMaskWrite, hide]
  rfl

/-- A host's access to its queue or its doorbells while the domain is down is refused (R135). -/
theorem hostAccess_down (v : Word) (hdown : mbxDown s = true) (w : Instr)
    (hw : w = .mbxRecvPop ld v ∨ w = .mbxDbClear ld v ∨ w = .mbxDbMaskWrite ld v) :
    Answers w s fun t => t.mbx = s.mbx ∧ noted t 0x0601 0 1 ld := by
  have hrefused : exec w s = .next (mbxRefused ld 1 (some ld) s) := by
    rcases hw with rfl | rfl | rfl
    · exact (exec_mbxRecvPop hide v).trans (congrArg _ (if_pos hdown))
    · exact (exec_mbxDbClear hide v).trans (congrArg _ (if_pos hdown))
    · exact (exec_mbxDbMaskWrite hide v).trans (congrArg _ (if_pos hdown))
  exact answers_of_next hrefused (mbxRefused_ld ld s)

end

/-! ### Doorbell bits (R132) -/

/-- Bit 0 is level-held. -/
theorem dbBits_recv_iff (b : HostBox) : (dbBits b).getLsbD 0 = true ↔ b.f2h ≠ [] := by
  cases h : b.f2h <;> simp [dbBits, h]

/-- A mask write uncovers a bit that is set and was masked. -/
theorem uncovered_iff (d m v : BitVec 32) :
    ((d &&& m &&& ~~~ v) != 0) = true ↔ ∃ i < 32, d.getLsbD i = true ∧ m.getLsbD i = true ∧ v.getLsbD i = false := by
  have hbit (i : Nat) (hi : i < 32) : (d &&& m &&& ~~~ v).getLsbD i = (d.getLsbD i && m.getLsbD i && !v.getLsbD i) := by
    simp [hi]
  rw [bne_iff_ne]
  constructor
  · intro hne
    by_contra hnone
    refine hne (BitVec.eq_of_getLsbD_eq fun i hi => ?_)
    refine (hbit i hi).trans ?_
    rw [show (0 : BitVec 32).getLsbD i = false from BitVec.getLsbD_zero]
    rw [Bool.eq_false_iff]
    intro hall
    simp only [Bool.and_eq_true, Bool.not_eq_true'] at hall
    obtain ⟨⟨hd, hm⟩, hv⟩ := hall
    exact hnone ⟨i, hi, hd, hm, hv⟩
  · rintro ⟨i, hi, hd, hm, hv⟩ hzero
    have hset := hbit i hi
    rw [hzero, hd, hm, hv] at hset
    simp at hset

/-! ### Mask writes (R133) -/

theorem boxOf_maskWrite (ld : Nat) (m : BitVec 32) (s : State) :
    boxOf (maskWrite ld m s).mbx ld = { boxOf s.mbx ld with mask := m } := by
  have hbox : (maskWrite ld m s).mbx = (onBox ld (fun b => { b with mask := m }) s).mbx := by
    unfold maskWrite
    dsimp only
    split <;> rfl
  rw [hbox, boxOf_onBox_same]

theorem maskWrite_of_uncovers {ld : Nat} {m : BitVec 32} {s : State}
    (h : (dbBits (boxOf s.mbx ld) &&& (boxOf s.mbx ld).mask &&& ~~~ m) != 0) :
    maskWrite ld m s = sendMsix ld 0 (onBox ld (fun b => { b with mask := m }) s) :=
  if_pos h

theorem maskWrite_of_covers {ld : Nat} {m : BitVec 32} {s : State}
    (h : ¬ (dbBits (boxOf s.mbx ld) &&& (boxOf s.mbx ld).mask &&& ~~~ m) != 0) :
    maskWrite ld m s = onBox ld (fun b => { b with mask := m }) s :=
  if_neg h

/-- Vector 0 goes out, or is pending, where a mask write uncovers a set bit. -/
theorem maskWrite_uncovers {ld : Nat} {m : BitVec 32} {s : State}
    (h : (dbBits (boxOf s.mbx ld) &&& (boxOf s.mbx ld).mask &&& ~~~ m) != 0) :
    if (tget {} (ldOf s.hst ld).vecs 0).masked then (ldOf (maskWrite ld m s).hst ld).pba.getLsbD 0 = true
      else (maskWrite ld m s).out = .msix ld 0 :: s.out := by
  rw [maskWrite_of_uncovers h]
  split
  case isTrue hm => exact sendMsix_masked (s := onBox ld _ s) (by decide) hm
  case isFalse hm => exact sendMsix_unmasked (s := onBox ld _ s) (Bool.eq_false_iff.2 hm)

/-! ### Queues -/

/-- Held messages move up in order while entries are free (R134). -/
theorem boxOf_drainUnsent (ld : Nat) (s : State) :
    boxOf (drainUnsent ld s).mbx ld =
      { boxOf s.mbx ld with
        f2h := (boxOf s.mbx ld).f2h ++ (boxOf s.mbx ld).unsent.take (16 - (boxOf s.mbx ld).f2h.length)
        unsent := (boxOf s.mbx ld).unsent.drop (16 - (boxOf s.mbx ld).f2h.length) } :=
  boxOf_onBoxBell_same ..

/-- A host queue whose hardware faults (R144). -/
theorem mailboxFault_host (s : State) (ld : Nat) (h2f : Bool) : Answers (.mailboxFault ld false h2f) s fun t =>
    boxOf t.mbx ld =
      if h2f then
        { boxOf s.mbx ld with
          h2f := [], discarded := min ((boxOf s.mbx ld).discarded + (boxOf s.mbx ld).h2f.length) 65535
          db := (boxOf s.mbx ld).db ||| 4 }
      else
        { boxOf s.mbx ld with
          f2h := [], repliesDiscarded := min ((boxOf s.mbx ld).repliesDiscarded + (boxOf s.mbx ld).f2h.length) 65535
          db := (boxOf s.mbx ld).db ||| 4 } :=
  answers_of_next rfl (boxOf_onBoxBell_same ..)

/-- An internal queue whose hardware faults (R144). -/
theorem mailboxFault_internal (s : State) (j : Nat) (h2f : Bool) : Answers (.mailboxFault j true h2f) s fun t =>
    t.mbx.host = s.mbx.host ∧
    intOf t.mbx j =
      { intOf s.mbx j with
        inQ := if h2f then [] else (intOf s.mbx j).inQ
        outQ := if h2f then (intOf s.mbx j).outQ else []
        db := (intOf s.mbx j).db ||| 4 } := by
  refine answers_of_next rfl ⟨rfl, (intOf_onInt_same ..).trans ?_⟩
  rw [intOf_onInt_same]
  cases h2f <;> rfl

/-- Settles O36: what a host does to its doorbells and its queue with the domain up, then with it down, then the moves and faults of
the queues. -/
theorem hostMailboxMoves : Obligations.HostMailboxMoves := by
  unfold Obligations.HostMailboxMoves
  intro s ld v b
  refine ⟨fun hide hup => ⟨?_, ?_, ?_⟩, fun hide hdown => hostAccess_down hide v hdown, ?_, ?_, ?_, fun h2f => ?_⟩
  · refine answers_of_next ((exec_mbxRecvPop hide v).trans (congrArg _ (if_neg (by rw [hup]; decide)))) ?_
    split
    · exact boxOf_onBoxBell_same ..
    · rfl
  · refine answers_of_next ((exec_mbxDbClear hide v).trans (congrArg _ (if_neg (by rw [hup]; decide)))) ?_
    rw [boxOf_onBox_same]
    exact ⟨rfl, dbBits_recv_iff _⟩
  · refine answers_of_next ((exec_mbxDbMaskWrite hide v).trans (congrArg _ (if_neg (by rw [hup]; decide)))) ?_
    have hlow (i : Nat) (hi : i < 32) : (v.setWidth 32).getLsbD i = v.getLsbD i := by simp [hi]
    refine ⟨boxOf_maskWrite .., fun ⟨i, hi, hd, hm, hv⟩ => ?_, fun hcovered => ?_⟩
    · exact maskWrite_uncovers ((uncovered_iff _ _ _).2 ⟨i, hi, hd, hm, (hlow i hi).trans hv⟩)
    · rw [maskWrite_of_covers fun h => ?_]
      · exact ⟨rfl, rfl⟩
      · obtain ⟨i, hi, hd, hm, hv⟩ := (uncovered_iff _ _ _).1 h
        rw [hlow i hi, hcovered i hi hd hm] at hv
        exact Bool.noConfusion hv
  · refine answers_of_next (show exec (.f2hDeferredEnqueue ld) s = .next (drainUnsent ld s) from rfl) ?_
    rw [boxOf_drainUnsent]
    exact ⟨rfl, rfl⟩
  · obtain ⟨t, ht, hbox⟩ := mailboxFault_host s ld true
    refine answers_of_next ht ?_
    rw [hbox]
    exact ⟨rfl, rfl, rfl, rfl⟩
  · obtain ⟨t, ht, hbox⟩ := mailboxFault_host s ld false
    refine answers_of_next ht ?_
    rw [hbox]
    exact ⟨rfl, rfl, rfl, rfl⟩
  · obtain ⟨t, ht, hhost, hbox⟩ := mailboxFault_internal s ld h2f
    refine answers_of_next ht ?_
    rw [hbox]
    exact ⟨hhost, rfl, rfl, rfl⟩

end Sys2Proof.Proofs
end

section
/-! The mailbox channel of the Warren (R133 to R135, R269, R273, R444): a peer's `MBX` and the `MBX_ANS` to this unit's. -/

namespace Sys2Proof.Proofs

open Sys2Proof.Machine Sys2Proof.Safety Sys2Proof.Laws

/-! ### Answers to a peer -/

theorem not_mem_hear_unreachable (u : Nat) (s : State) : u ∉ (hear u s).wrn.unreachable := by
  simp [hear]

theorem respond_mbx (d tag tenant : Nat) (m : Msg) (s : State) : (respond d tag tenant m s).mbx = s.mbx :=
  (respond_kept d tag tenant m s (.refl _ s) (covers_refl _)).frame .mbx (by decide)

/-- What was sent before a message that is not bulk stays sent. -/
theorem sendMsg_sentOn {dst tag tenant : Nat} {m : Msg} (hbulk : bulkLen m = none) (s : State) : SentOn s (sendMsg dst tag tenant m s) := by
  unfold sendMsg sendEnv
  split
  · exact .refl s
  · split
    · exact .refl s
    · rw [sendBy, hbulk]
      exact post_sentOn _ _ _ s

theorem mem_out_respond {d tag tenant : Nat} {m : Msg} {s : State} (hbulk : bulkLen m = none) {o : Out} (ho : o ∈ s.out) :
    o ∈ (respond d tag tenant m s).out :=
  (sendMsg_sentOn hbulk _).out o ho

/-- An answer that is not bulk, to a unit that has been heard and that a port leads to, is on its way. -/
theorem respond_sent {u tag tenant : Nat} {m : Msg} {s t : State} (hbulk : bulkLen m = none) (hport : (outPort s u).isSome = true)
    (hroutes : ∀ d, outPort t d = outPort s d) (hreach : u ∉ t.wrn.unreachable) : sentTo (respond u tag tenant m t) u m :=
  sendMsg_sent hbulk ((congrArg Option.isSome (hroutes u)).trans hport) hreach

/-! ### `MBX` (R133 to R135) -/

/-- The mailbox of a message is the peer's own, and its mode the mailbox's. -/
def mbxFits (s : State) (src box : Nat) (p : Bool) : Bool := box == peerBox src && p == (intOf s.mbx (peerBox src)).pointer

theorem mbxFits_iff {s : State} {src box : Nat} {p : Bool} :
    mbxFits s src box p = true ↔ box = peerBox src ∧ p = (intOf s.mbx (peerBox src)).pointer := by
  rw [mbxFits, Bool.and_eq_true, beq_iff_eq, beq_iff_eq]

section
variable {s : State} {src tag box : Nat} {p : Bool} (hsrc : src < fabN s.vq.active) (hdup : dupOf s src tag = none) (w p0 p1 : Word)
include hsrc hdup

/-- A request that is no duplicate: refused for its fields, answered ABSENT for the unit's state, or applied. -/
theorem peerRequest_of_new (tenant : Nat) (fields served : Bool) (refused absent : Msg) (k : State → State) :
    peerRequest src tag tenant fields served refused absent k s =
      if fields = false then respond src tag tenant refused (hear src s)
      else if served = false then respond src tag tenant absent (hear src s)
      else k (dupOpen src tag (hear src s)) := by
  have hok : srcOk (hear src s) src = true := decide_eq_true hsrc
  have hnew : dupOf (hear src s) src tag = none := hdup
  simp only [peerRequest, hnew, hok]
  cases fields <;> cases served <;> rfl

/-- An `MBX` that is no duplicate is enqueued and answered OK, or answered FULL, REFUSED or ABSENT. -/
theorem exec_mbx_of_new : exec (.mbx src tag box p w p0 p1) s = .next (
    if mbxFits s src box p = false then respond src tag 0 (.mbxAns 3) (hear src s)
    else if unitServesOrHeld s = false then respond src tag 0 (.mbxAns 2) (hear src s)
    else if (intOf s.mbx (peerBox src)).inQ.length < queueCap then
      respond src tag 0 (.mbxAns 0) (intEnqueue (peerBox src) ⟨w, p0, if p then p1 else 0⟩ (dupOpen src tag (hear src s)))
    else respond src tag 0 (.mbxAns 4) (dupOpen src tag (hear src s))) :=
  congrArg _ (peerRequest_of_new hsrc hdup ..)

variable (hport : (outPort s src).isSome = true)
include hport

theorem mbx_enqueued (hfits : mbxFits s src box p = true) (hserves : unitServesOrHeld s = true)
    (hfree : (intOf s.mbx (peerBox src)).inQ.length < queueCap) : Answers (.mbx src tag box p w p0 p1) s fun t =>
      (intOf t.mbx (peerBox src)).inQ = (intOf s.mbx (peerBox src)).inQ ++ [⟨w, p0, if p then p1 else 0⟩] ∧
      .coreInterrupt (peerBox src) 0 ∈ t.out ∧ sentTo t src (.mbxAns 0) := by
  have hnext := exec_mbx_of_new (box := box) (p := p) hsrc hdup w p0 p1
  rw [hfits, hserves, if_neg (by decide), if_neg (by decide), if_pos hfree] at hnext
  refine answers_of_next hnext ⟨?_, mem_out_respond rfl (.head _), respond_sent rfl hport (fun _ => rfl) (not_mem_hear_unreachable src s)⟩
  rw [respond_mbx]
  exact congrArg IntBox.inQ (intOf_onInt_same (peerBox src) _ (dupOpen src tag (hear src s)))

theorem mbx_full (hfits : mbxFits s src box p = true) (hserves : unitServesOrHeld s = true)
    (hfull : ¬ (intOf s.mbx (peerBox src)).inQ.length < queueCap) : Answers (.mbx src tag box p w p0 p1) s fun t =>
      t.mbx = s.mbx ∧ sentTo t src (.mbxAns 4) := by
  have hnext := exec_mbx_of_new (box := box) (p := p) hsrc hdup w p0 p1
  rw [hfits, hserves, if_neg (by decide), if_neg (by decide), if_neg hfull] at hnext
  exact answers_of_next hnext ⟨respond_mbx .., respond_sent rfl hport (fun _ => rfl) (not_mem_hear_unreachable src s)⟩

theorem mbx_refused (hfits : mbxFits s src box p = false) : Answers (.mbx src tag box p w p0 p1) s fun t =>
    t.mbx = s.mbx ∧ sentTo t src (.mbxAns 3) := by
  have hnext := exec_mbx_of_new (box := box) (p := p) hsrc hdup w p0 p1
  rw [if_pos hfits] at hnext
  exact answers_of_next hnext ⟨respond_mbx .., respond_sent rfl hport (fun _ => rfl) (not_mem_hear_unreachable src s)⟩

theorem mbx_absent (hfits : mbxFits s src box p = true) (hserves : unitServesOrHeld s = false) :
    Answers (.mbx src tag box p w p0 p1) s fun t => t.mbx = s.mbx ∧ sentTo t src (.mbxAns 2) := by
  have hnext := exec_mbx_of_new (box := box) (p := p) hsrc hdup w p0 p1
  rw [hfits, if_neg (by decide), if_pos hserves] at hnext
  exact answers_of_next hnext ⟨respond_mbx .., respond_sent rfl hport (fun _ => rfl) (not_mem_hear_unreachable src s)⟩

end

/-! ### `MBX_ANS` (R134, R269) -/

/-- What an answer does to the mailbox of the message that waits for it (Table 7.5). -/
def mbxAnswered (j status : Nat) (s : State) : State :=
  if status = 0 then onInt j (fun b => { b with outQ := b.outQ.drop 1, sent := none }) s
  else if status = 4 then onInt j (fun b => { b with sent := none, full := sat 16 (b.full + 1) }) s
  else mbxRefused (256 + j) 3 none (onInt j (fun b => { b with outQ := b.outQ.drop 1, sent := none, absent := sat 16 (b.absent + 1) }) s)

theorem mbxAnswered_wrn (j status : Nat) (s : State) : (mbxAnswered j status s).wrn = s.wrn := by
  unfold mbxAnswered
  split
  · rfl
  · split
    · rfl
    · exact mbxRefused_wrn ..

theorem outReq_dropReq_same (tag : Nat) (s : State) : outReq (dropReq tag s) tag = none := by
  simp [outReq, dropReq, List.find?_eq_none]

section
variable {s : State} {src tag : Nat} {o : Outst} {bx : Nat} {p : Bool} {w p0 p1 : Word} (hsrc : src < fabN s.vq.active)
  (hreq : outReq s tag = some o) (hmsg : o.env.msg = .mbx bx p w p0 p1) (hsent : (intOf s.mbx (peerBox src)).sent = some tag)
include hsrc hreq hmsg hsent

/-- An answer with a status of the channel to the message that waits: the request is over, and the mailbox takes the answer. -/
theorem exec_mbxAns_of_waiting {status : Nat} (hstatus : status = 0 ∨ status = 2 ∨ status = 3 ∨ status = 4) :
    exec (.mbxAns src tag status) s = .next (mbxAnswered (peerBox src) status (dropReq tag (hear src s))) := by
  have hfields : (status == 0 || status == 2 || status == 3 || status == 4) = true := by
    rcases hstatus with rfl | rfl | rfl | rfl <;> rfl
  have hok : srcOk (hear src s) src = true := decide_eq_true hsrc
  have hreq' : outReq (hear src s) tag = some o := hreq
  have hwaits : (intOf (dropReq tag (hear src s)).mbx (peerBox src)).sent = some tag := hsent
  show execMbxAns src tag status s = _
  simp only [execMbxAns, peerResponse, hfields, hok, hreq', hmsg, hwaits, mbxAnswered, Bool.not_true, Bool.or_self,
    Bool.false_eq_true, if_false, ne_eq, not_true_eq_false]

/-- The request is over, whatever the answer. -/
theorem mbxAns_over {status : Nat} (hstatus : status = 0 ∨ status = 2 ∨ status = 3 ∨ status = 4) :
    Answers (.mbxAns src tag status) s fun t =>
      t = mbxAnswered (peerBox src) status (dropReq tag (hear src s)) ∧ outReq t tag = none := by
  refine answers_of_next (exec_mbxAns_of_waiting hsrc hreq hmsg hsent hstatus) ⟨rfl, ?_⟩
  rw [outReq, mbxAnswered_wrn]
  exact outReq_dropReq_same tag (hear src s)

end

/-- Settles O38: the answers to a peer's message, then the answers to this unit's. -/
theorem peerMailboxes : Obligations.PeerMailboxes := by
  unfold Obligations.PeerMailboxes
  refine ⟨fun s src tag box p w p0 p1 hsrc hdup hport => ?_, fun s src tag o bx p w p0 p1 hsrc hreq hmsg => ?_⟩
  · intro j fits
    have hfits : fits ↔ mbxFits s src box p = true := mbxFits_iff.symm
    exact ⟨fun h hserves hfree => mbx_enqueued hsrc hdup w p0 p1 hport (hfits.1 h) hserves hfree,
      fun h hserves hfull => mbx_full hsrc hdup w p0 p1 hport (hfits.1 h) hserves (Nat.not_lt.2 hfull),
      fun h => mbx_refused hsrc hdup w p0 p1 hport (Bool.eq_false_iff.2 (mt hfits.2 h)),
      fun h hserves => mbx_absent hsrc hdup w p0 p1 hport (hfits.1 h) hserves⟩
  · intro j b hsent
    refine ⟨?_, ?_, ?_⟩
    · obtain ⟨_, hnext, rfl, hover⟩ := mbxAns_over hsrc hreq hmsg hsent (status := 0) (by decide)
      exact answers_of_next hnext ⟨intOf_onInt_same .., hover⟩
    · obtain ⟨_, hnext, rfl, hover⟩ := mbxAns_over hsrc hreq hmsg hsent (status := 4) (by decide)
      exact answers_of_next hnext ⟨intOf_onInt_same .., hover⟩
    · obtain ⟨_, hnext, rfl, hover⟩ := mbxAns_over hsrc hreq hmsg hsent (status := 2) (by decide)
      refine answers_of_next hnext ⟨?_, hover, mbxRefused_noted (256 + j) 3 none _⟩
      show intOf (mbxRefused (256 + j) 3 none _).mbx j = _
      rw [mbxRefused_mbx]
      exact intOf_onInt_same ..

end Sys2Proof.Proofs
end

section
/-! Fields of words, and the replies of the firmware (R140, R141, Table 7.7). -/

namespace Sys2Proof.Proofs

open Sys2Proof.Machine Sys2Proof.Safety Sys2Proof.Laws

/-! ### Fields -/

theorem bits_eq_div_mod (v h l : Nat) : bits v h l = v / 2 ^ l % 2 ^ (h + 1 - l) := by
  rw [bits, Nat.shiftRight_eq_div_pow]

/-- A field that lies below bit `n` is that of the low `n` bits. -/
theorem bits_mod_two_pow {v h l n : Nat} (hn : h < n) : bits (v % 2 ^ n) h l = bits v h l := by
  refine Nat.eq_of_testBit_eq fun i => ?_
  rw [testBit_bits, testBit_bits, Nat.testBit_mod_two_pow]
  by_cases hi : i < h + 1 - l
  · rw [decide_eq_true (show l + i < n by omega), Bool.true_and]
  · rw [decide_eq_false hi, Bool.false_and, Bool.false_and]

/-- Two-bit fields laid side by side from bit 0. -/
theorem bits_sum_pairs {d : Nat → Nat} (hd : ∀ i, d i < 4) {n k : Nat} (hk : k < n) :
    bits ((List.range n).map fun i => d i * 2 ^ (2 * i)).sum (2 * k + 1) (2 * k) = d k := by
  induction n generalizing d k with
  | zero => exact absurd hk (Nat.not_lt_zero k)
  | succ n ih =>
    have hsum : ((List.range (n + 1)).map fun i => d i * 2 ^ (2 * i)).sum =
        d 0 + 4 * ((List.range n).map fun i => d (i + 1) * 2 ^ (2 * i)).sum := by
      rw [List.range_succ_eq_map, List.map_cons, List.map_map, List.sum_cons, ← List.sum_map_mul_left]
      refine congrArg₂ (· + ·) (Nat.mul_one _) (congrArg List.sum (List.map_congr_left fun i _ => ?_))
      show d (i + 1) * 2 ^ (2 * (i + 1)) = _
      rw [Nat.mul_add, Nat.pow_add]
      ring
    have h0 := hd 0
    rw [hsum, bits_eq_div_mod, show 2 * k + 1 + 1 - 2 * k = 2 by omega]
    cases k with
    | zero => omega
    | succ k =>
      have hk' := ih (d := fun i => d (i + 1)) (fun i => hd (i + 1)) (Nat.lt_of_succ_lt_succ hk)
      rw [bits_eq_div_mod, show 2 * k + 1 + 1 - 2 * k = 2 by omega] at hk'
      have hdiv (x : Nat) : (d 0 + 4 * x) / 2 ^ 2 = x := by omega
      rw [show 2 * (k + 1) = 2 + 2 * k by omega, Nat.pow_add, ← Nat.div_div_eq_div_mul, hdiv]
      exact hk'

/-! ### Replies -/

theorem wordReply_fields (s : State) (core p op : Nat) {a : Nat × Nat} (ha : a.1 < 256) :
    let q := (wordReply s core p op a).p0.toNat
    bits q 63 56 = (op + 128) % 256 ∧ bits q 55 48 = bits p 55 48 ∧ bits q 47 40 = a.1 ∧ bits q 39 0 = a.2 % 2 ^ 40 := by
  have htag : bits p 55 48 < 2 ^ 8 := bits_lt p rfl
  generalize hb : bits p 55 48 = b at htag
  intro q
  have hq : q = (op + 128) % 256 * 2 ^ 56 + b * 2 ^ 48 + a.1 * 2 ^ 40 + a.2 % 2 ^ 40 := by
    show (BitVec.ofNat 64 _).toNat = _
    rw [BitVec.toNat_ofNat, hb]
    omega
  simp only [bits_eq_div_mod]
  omega

theorem pointerReply_fields (s : State) (core : Nat) (m : MbxMsg) (op : Nat) {status : Nat} (hs : status < 256) :
    let q := (pointerReply s core m op status).p1.toNat
    bits q 31 0 = bits m.p1.toNat 31 0 ∧ bits q 63 56 = (op + 128) % 256 ∧ bits q 55 48 = status ∧
      bits q 47 32 = bits m.p1.toNat 47 32 := by
  have hlen : bits m.p1.toNat 31 0 < 2 ^ 32 := bits_lt _ rfl
  have hreq : bits m.p1.toNat 47 32 < 2 ^ 16 := bits_lt _ rfl
  intro q
  have hq : q = bits m.p1.toNat 31 0 + ((op + 128) % 256 * 2 ^ 24 + status * 2 ^ 16 + bits m.p1.toNat 47 32) * 2 ^ 32 := by
    show (BitVec.ofNat 64 _).toNat = _
    rw [BitVec.toNat_ofNat]
    omega
  generalize bits m.p1.toNat 31 0 = n at *
  generalize bits m.p1.toNat 47 32 = r at *
  simp only [bits_eq_div_mod]
  omega

/-! ### Results (Table 7.7) -/

theorem tenHome_lt (im : Option Image) (t : Nat) : tenHome im t < 2 ^ 16 := by
  unfold tenHome lookFld
  split
  · exact fld_lt _ _ 2
  · decide

theorem fwAnswer_of_unknown (s : State) (ld arg : Nat) {op : Nat} (h : op = 0 ∨ 5 < op) : fwAnswer s ld op arg = (1, 0) := by
  match op, h with
  | 0, _ => rfl
  | _ + 6, _ => rfl

theorem fwAnswer_of_badArg (s : State) (ld : Nat) {op arg : Nat} (hop : op = 2 ∨ op = 4 ∨ op = 5) (harg : arg ≠ 0) :
    fwAnswer s ld op arg = (2, 0) := by
  rcases hop with rfl | rfl | rfl <;> exact if_pos harg

theorem fwAnswer_leaseInfo {s : State} {ld tn : Nat} (htn : ldTenant s ld = some tn) :
    fwAnswer s ld 2 0 = (0, tenHome s.vq.active tn +
      (if (leaseOf s tn).granted = true ∧ now s < (leaseOf s tn).expiry then ((leaseOf s tn).expiry - now s) / 1000000 % 2 ^ 24 else 0)
        * 2 ^ 16) := by
  simp only [fwAnswer, htn, ne_eq, not_true_eq_false, if_false, Bool.and_eq_true, decide_eq_true_eq, msNs]
  split <;> rfl

theorem fwAnswer_extentState {s : State} {ld arg tn : Nat} {e : ExtRec} (htn : ldTenant s ld = some tn)
    (he : extRec (extView s) (arg % 65536) = some e) :
    fwAnswer s ld 3 arg = if e.tenant = tn ∨ (extSt s (arg % 65536)).st = 3 ∧ bit e.readers tn = true
      then (0, (extSt s (arg % 65536)).st) else (3, 0) := by
  simp only [fwAnswer, htn, show (2 : Nat) ^ 16 = 65536 from rfl, he]

/-- The levels of RESERVE, by class. -/
theorem bits_reserve (s : State) (ld : Nat) {c : Nat} (h1 : 1 ≤ c) (h12 : c ≤ 12) :
    bits (fwAnswer s ld 4 0).2 (2 * c - 1) (2 * c - 2) = classLevel s c % 4 := by
  obtain ⟨k, rfl⟩ : ∃ k, c = k + 1 := ⟨c - 1, by omega⟩
  exact bits_sum_pairs (d := fun i => classLevel s (i + 1) % 4) (fun i => Nat.mod_lt _ (by decide)) (n := 12) (by omega)

theorem fwAnswer_status_le (s : State) (ld op arg : Nat) : (fwAnswer s ld op arg).1 ≤ 3 := by
  unfold fwAnswer
  dsimp only
  repeat' split
  all_goals simp

end Sys2Proof.Proofs
end

section
/-! An agent's access to the first line of a block that is at hand (R141, R329): nothing is brought, and the line is read as it is. -/

namespace Sys2Proof.Proofs

open Sys2Proof.Machine Sys2Proof.Safety Sys2Proof.Laws

/-! ### What a range needs -/

theorem mem_rangeTiles {addr len t : Nat} : t ∈ rangeTiles addr len ↔ 0 < len ∧ addr / 32768 ≤ t ∧ t ≤ (addr + len - 1) / 32768 := by
  unfold rangeTiles
  split
  case isTrue h => simp [h]
  case isFalse h =>
    simp only [List.mem_map, List.mem_range]
    constructor
    · rintro ⟨i, hi, rfl⟩
      omega
    · rintro ⟨-, hlo, hhi⟩
      exact ⟨t - addr / 32768, by omega, by omega⟩

theorem rangeReady_write_iff (s : State) (tn addr len : Nat) : rangeReady s tn addr len true = true ↔
    rangeSnoops s tn addr len true = [] ∧ missingTiles s tn addr len = [] := by
  simp [rangeReady]

theorem rangeReady_read {s : State} {tn addr len : Nat} (hsnoops : rangeSnoops s tn addr len false = [])
    (htiles : missingTiles s tn addr len = []) (hlines : remoteLines s tn addr len = []) : rangeReady s tn addr len false = true := by
  rw [rangeReady, hsnoops, htiles, hlines]
  rfl

/-- A range for which nothing is missing is not brought. -/
theorem bringRange_of_nothing {s : State} {tn addr len : Nat} {w : Bool} (hsnoops : rangeSnoops s tn addr len w = [])
    (htiles : missingTiles s tn addr len = []) (hlines : w = true ∨ remoteLines s tn addr len = []) : bringRange tn addr len w s = s := by
  simp only [bringRange, hsnoops, List.foldl_nil, htiles]
  rcases hlines with rfl | hlines
  · rfl
  · rw [hlines]
    exact ite_self s

/-- What a write of a range need not snoop, a read of its start need not. -/
theorem rangeSnoops_read_of_write {s : State} {tn addr k n : Nat} (hk : k ≤ n) (h : rangeSnoops s tn addr n true = []) :
    rangeSnoops s tn addr k false = [] := by
  simp only [rangeSnoops, List.filter_eq_nil_iff, Bool.and_eq_true, beq_iff_eq, decide_eq_true_eq] at h ⊢
  rintro e he ⟨⟨⟨htn, hlo⟩, hhi⟩, -⟩
  exact h e he ⟨⟨⟨htn, hlo⟩, by omega⟩, rfl⟩

theorem missingTiles_of_le {s : State} {tn addr k n : Nat} (hk : k ≤ n) (h : missingTiles s tn addr n = []) :
    missingTiles s tn addr k = [] := by
  simp only [missingTiles, List.filter_eq_nil_iff, mem_rangeTiles] at h ⊢
  rintro t ⟨hpos, hlo, hhi⟩ hmissing
  have hlast : (addr + k - 1) / 32768 ≤ (addr + n - 1) / 32768 := Nat.div_le_div_right (by omega)
  refine h t ⟨by omega, hlo, by omega⟩ ?_
  revert hmissing
  split
  · exact id
  · simp only [List.any_eq_true, Bool.and_eq_true, decide_eq_true_eq]
    rintro ⟨j, hj, ⟨hfrom, hto⟩, hnone⟩
    exact ⟨j, hj, ⟨hfrom, by omega⟩, hnone⟩

theorem extFor_of_granule {s : State} {tn a b : Nat} (h : a / gib = b / gib) : extFor s tn a = extFor s tn b := by
  simp only [extFor, extAt, h]

theorem extFor_of_ownExt {s : State} {tn addr : Nat} {e : ExtRec} {g : Nat} (h : ownExt s tn addr = some (e, g)) :
    ∃ rd, extFor s tn addr = some (e, g, rd) ∧ serverOf s e g = me s := by
  unfold ownExt at h
  split at h
  next e' g' rd hext =>
    split at h
    next hme =>
      cases h
      exact ⟨rd, hext, hme⟩
    next => cases h
  next => cases h

/-- The lines of a line's own unit are not another unit's. -/
theorem remoteLines_of_own {s : State} {tn addr k : Nat} {e : ExtRec} {g : Nat} (hown : ownExt s tn addr = some (e, g))
    (halign : addr % 64 = 0) (hk : k ≤ 64) : remoteLines s tn addr k = [] := by
  obtain ⟨rd, hext, hme⟩ := extFor_of_ownExt hown
  rw [remoteLines, List.flatMap_eq_nil_iff]
  intro t ht
  obtain ⟨ht, hremote⟩ := List.mem_filter.1 ht
  obtain ⟨hpos, hlo, hhi⟩ := mem_rangeTiles.1 ht
  have hsame : extFor s tn (t * 32768) = extFor s tn addr := extFor_of_granule (by rw [show gib = 1073741824 from rfl]; omega)
  rw [hsame, hext] at hremote
  simp [hme] at hremote

/-! ### Reading a line -/

theorem rangeLines_of_aligned {addr k : Nat} (halign : addr % 64 = 0) (hpos : 0 < k) (hk : k ≤ 64) : rangeLines addr k = [addr / 64] := by
  rw [rangeLines, if_neg (by omega), show (addr + k - 1) / 64 + 1 - addr / 64 = 1 by omega]
  rfl

/-- The first line of a block is at hand: this unit serves it, nothing need be brought to write it, it has landed, and it reads
without a repair. -/
def LineHere (s : State) (tn addr : Nat) : Prop :=
  ∃ e g a d, ownExt s tn addr = some (e, g) ∧ rangeReady s tn addr 16 true = true ∧
    landedAddr s e g (addr / 32768) (addr / 4096 % 8) = some a ∧
    readLine s e.tenant (addr / 4096) a (addr / 64 % 64) = .data d false

section
variable {s : State} {tn addr : Nat} (h : LineHere s tn addr) (halign : addr % 64 = 0)
include h halign

omit halign in
theorem LineHere.bring_write : bringRange tn addr 16 true s = s := by
  obtain ⟨e, g, a, d, hown, hready, hlanded, hread⟩ := h
  obtain ⟨hsnoops, htiles⟩ := (rangeReady_write_iff ..).1 hready
  exact bringRange_of_nothing hsnoops htiles (.inl rfl)

theorem LineHere.read_needs : rangeSnoops s tn addr 8 false = [] ∧ missingTiles s tn addr 8 = [] ∧ remoteLines s tn addr 8 = [] := by
  obtain ⟨e, g, a, d, hown, hready, hlanded, hread⟩ := h
  obtain ⟨hsnoops, htiles⟩ := (rangeReady_write_iff ..).1 hready
  exact ⟨rangeSnoops_read_of_write (by decide) hsnoops, missingTiles_of_le (by decide) htiles,
    remoteLines_of_own hown halign (by decide)⟩

theorem LineHere.bring_read : bringRange tn addr 8 false s = s :=
  have ⟨hsnoops, htiles, hlines⟩ := h.read_needs halign
  bringRange_of_nothing hsnoops htiles (.inr hlines)

theorem LineHere.ready : (rangeReady s tn addr 16 true && rangeReady s tn addr 8 false) = true := by
  obtain ⟨hsnoops, htiles, hlines⟩ := h.read_needs halign
  obtain ⟨e, g, a, d, hown, hready, hlanded, hread⟩ := h
  rw [hready, rangeReady_read hsnoops htiles hlines]
  rfl

/-- Reading the line changes nothing but what was held of it. -/
theorem LineHere.agentRead_state : (agentRead tn addr 8 s).1 = dropLines tn addr 8 s := by
  obtain ⟨e, g, a, d, hown, hready, hlanded, hread⟩ := h
  have hline : agentLine tn (addr / 64) s = (s, d, false) := by
    unfold agentLine
    rw [Nat.div_mul_cancel (Nat.dvd_of_mod_eq_zero halign), hown]
    simp only [Nat.div_div_eq_div_mul, hlanded, hread, Nat.reduceMul]
    rfl
  rw [agentRead, rangeLines_of_aligned halign (by decide) (by decide), List.foldl_cons, List.foldl_nil, hline]

end

end Sys2Proof.Proofs
end

section
/-! The firmware takes the head of a host's queue and answers it (R134, R139 to R141). -/

namespace Sys2Proof.Proofs

open Sys2Proof.Machine Sys2Proof.Safety Sys2Proof.Laws

/-! ### The head of a host's queue is taken -/

/-- The state in which the head of a host's queue has been taken (Table 7.4, SPACE). -/
def headTaken (ld : Nat) (s : State) : State := onBoxBell ld freeH2f s

theorem headTaken_eq (ld : Nat) (s : State) :
    ∃ h o, headTaken ld s = { s with mbx := (onBox ld freeH2f s).mbx, hst := h, out := o } :=
  onBoxBell_eq ld freeH2f s

theorem boxOf_headTaken (ld : Nat) (s : State) : boxOf (headTaken ld s).mbx ld = freeH2f (boxOf s.mbx ld) :=
  boxOf_onBoxBell_same ..

section
variable (ld : Nat) (s : State)

theorem fwAnswer_headTaken (x op arg : Nat) : fwAnswer (headTaken ld s) x op arg = fwAnswer s x op arg := by
  obtain ⟨_, _, h⟩ := headTaken_eq ld s
  rw [h]
  rfl

theorem wordReply_headTaken (core p op : Nat) (a : Nat × Nat) : wordReply (headTaken ld s) core p op a = wordReply s core p op a := by
  obtain ⟨_, _, h⟩ := headTaken_eq ld s
  rw [h]
  rfl

theorem pointerReply_headTaken (core : Nat) (m : MbxMsg) (op status : Nat) :
    pointerReply (headTaken ld s) core m op status = pointerReply s core m op status := by
  obtain ⟨_, _, h⟩ := headTaken_eq ld s
  rw [h]
  rfl

theorem ldTenant_headTaken (x : Nat) : ldTenant (headTaken ld s) x = ldTenant s x := by
  obtain ⟨_, _, h⟩ := headTaken_eq ld s
  rw [h]
  rfl

theorem headTaken_memory : (headTaken ld s).cdc = s.cdc ∧ (headTaken ld s).drt = s.drt := by
  obtain ⟨_, _, h⟩ := headTaken_eq ld s
  rw [h]
  exact ⟨rfl, rfl⟩

theorem lineHere_headTaken {s : State} {tn addr : Nat} (h : LineHere s tn addr) : LineHere (headTaken ld s) tn addr := by
  obtain ⟨_, _, htaken⟩ := headTaken_eq ld s
  rw [htaken]
  exact h

/-- The checks of a notice (R141) do not see the queue. -/
theorem blockOk_headTaken (x : Nat) (m : MbxMsg) : blockOk (headTaken ld s) x m = blockOk s x m := by
  have haccepted : (ldOf (headTaken ld s).hst x).accepted = (ldOf s.hst x).accepted := 
    onBoxBell_accepted (ld := ld) (f := freeH2f) (fun _ => rfl) s x
  obtain ⟨_, _, h⟩ := headTaken_eq ld s
  rw [h] at haccepted ⊢
  unfold blockOk
  rw [haccepted]
  rfl

end

theorem blockOk_aligned {s : State} {ld : Nat} {m : MbxMsg} (h : blockOk s ld m = true) : m.p0.toNat % 64 = 0 := by
  unfold blockOk at h
  dsimp only at h
  split at h
  next => cases h
  next =>
    split at h
    next => cases h
    next =>
      simp only [Bool.and_eq_true, decide_eq_true_eq] at h
      obtain ⟨⟨⟨⟨⟨-, -⟩, halign⟩, -⟩, -⟩, -⟩ := h
      exact halign

/-! ### A reply in its queue (R134) -/

/-- The head is gone, and a reply with the firmware's stamp word is enqueued, or held while the queue is full. -/
def Replied (s : State) (ld core : Nat) (rest : List MbxMsg) (r : MbxMsg) (t : State) : Prop :=
  (boxOf t.mbx ld).h2f = rest ∧ r.stamp = stampWord (core % 16) s.mbx.fwEpoch 1 (now s) ∧
    if (boxOf s.mbx ld).f2h.length < 16 ∧ (boxOf s.mbx ld).unsent = [] then (boxOf t.mbx ld).f2h = (boxOf s.mbx ld).f2h ++ [r]
    else (boxOf t.mbx ld).unsent = (boxOf s.mbx ld).unsent ++ [r]

theorem boxOf_fwSend (ld : Nat) (r : MbxMsg) (u : State) : boxOf (fwSend ld r u).mbx ld =
    if (boxOf u.mbx ld).f2h.length < queueCap ∧ (boxOf u.mbx ld).unsent = [] then
      { boxOf u.mbx ld with f2h := (boxOf u.mbx ld).f2h ++ [r] }
    else { boxOf u.mbx ld with unsent := (boxOf u.mbx ld).unsent ++ [r] } :=
  boxOf_onBoxBell_same ..

/-- A mailbox that has lost its head, and whose queue to the host is as it was. -/
def QueuesKept (s : State) (ld : Nat) (rest : List MbxMsg) (u : State) : Prop :=
  (boxOf u.mbx ld).h2f = rest ∧ (boxOf u.mbx ld).f2h = (boxOf s.mbx ld).f2h ∧ (boxOf u.mbx ld).unsent = (boxOf s.mbx ld).unsent

theorem headTaken_queues {s : State} {ld : Nat} {m : MbxMsg} {rest : List MbxMsg} (hhead : (boxOf s.mbx ld).h2f = m :: rest) :
    QueuesKept s ld rest (headTaken ld s) := by
  rw [QueuesKept, boxOf_headTaken]
  exact ⟨congrArg (List.drop 1) hhead, rfl, rfl⟩

/-- A reply sent from a state in which the head has been taken. -/
theorem fwSend_replied {s u : State} {ld core : Nat} {rest : List MbxMsg} {r : MbxMsg} (hu : QueuesKept s ld rest u)
    (hstamp : r.stamp = fwStamp s core) : Replied s ld core rest r (fwSend ld r u) := by
  obtain ⟨hh2f, hf2h, hunsent⟩ := hu
  rw [Replied, boxOf_fwSend, hf2h, hunsent, show queueCap = 16 from rfl]
  by_cases hfree : (boxOf s.mbx ld).f2h.length < 16 ∧ (boxOf s.mbx ld).unsent = []
  · rw [if_pos hfree, if_pos hfree]
    exact ⟨hh2f, hstamp, rfl⟩
  · rw [if_neg hfree, if_neg hfree]
    exact ⟨hh2f, hstamp, rfl⟩

theorem fwSend_memory (ld : Nat) (r : MbxMsg) (u : State) : (fwSend ld r u).cdc = u.cdc ∧ (fwSend ld r u).drt = u.drt :=
  have hkept := fwSend_kept ld r u (.refl _ u) (covers_refl _)
  ⟨hkept.frame .cdc (by decide), hkept.frame .drt (by decide)⟩

/-! ### A notice whose line is at hand (R141) -/

/-- The notice is answered at once, with the status of its opcode, from a state that has the mailbox but for the requests taken. -/
theorem pointerGo_of_here {u : State} {ld tn op status : Nat} {m : MbxMsg} (core : Nat) (htn : ldTenant u ld = some tn)
    (hline : LineHere u tn m.p0.toNat) (halign : m.p0.toNat % 64 = 0) (hstatus : ∀ v arg, (fwAnswer v ld op arg).1 = status) :
    ∃ v, pointerGo ld core m op u = fwSend ld (pointerReply u core m op status) v ∧
      boxOf v.mbx ld = { boxOf u.mbx ld with taken := (boxOf u.mbx ld).taken.filter (· != m) } := by
  have hgo : pointerGo ld core m op u = pointerFinish ld core m op u := by
    simp only [pointerGo, htn, Option.getD_some, hline.bring_write, hline.bring_read halign, hline.ready halign, if_true]
  let w := onBox ld (fun b => { b with taken := b.taken.filter (· != m) }) (dropLines tn m.p0.toNat 8 u)
  let a := fwAnswer (dropLines tn m.p0.toNat 8 u) ld op (fld (agentRead tn m.p0.toNat 8 u).2.1 0 8 % 2 ^ 48)
  have hfinish : pointerFinish ld core m op u =
      fwSend ld (pointerReply w core m op a.1) (agentWrite tn (m.p0.toNat + 8) 0x20 (leBytes 8 a.2) w).1 := by
    rw [pointerFinish, htn]
    dsimp only
    rw [hline.agentRead_state halign]
  refine ⟨_, hgo.trans (hfinish.trans (congrArg (fun x => fwSend ld (pointerReply u core m op x) _) (hstatus ..))), ?_⟩
  rw [(agentWrite_kept _ _ _ _ w (.refl _ w) (covers_refl _)).frame .mbx (by decide)]
  exact boxOf_onBox_same ..

/-! ### The head of a queue (R139 to R141) -/

/-- The rows of Table 7.7, each with the opcodes that it takes. -/
def fwRows (ld core : Nat) : List (Instr × (Nat → Bool)) :=
  [(.ping ld core, (· == 1)), (.leaseInfo ld core, (· == 2)), (.extentState ld core, (· == 3)), (.reserveLevels ld core, (· == 4)),
    (.imageReq ld core, (· == 5)), (.unknownOp ld core, fun op => op == 0 || decide (5 < op))]

theorem exec_fwRow {ld core : Nat} {x : Instr × (Nat → Bool)} (hx : x ∈ fwRows ld core) (s : State) :
    exec x.1 s = .next (fwRequest x.2 ld core s) := by
  simp only [fwRows, List.mem_cons, List.not_mem_nil, or_false] at hx
  rcases hx with rfl | rfl | rfl | rfl | rfl | rfl <;> rfl

section
variable {s : State} {ld core : Nat} {m : MbxMsg} {rest : List MbxMsg} {p : Nat → Bool} (htakes : fwTakes s ld = true)
  (htaken : (boxOf s.mbx ld).taken = []) (hhead : (boxOf s.mbx ld).h2f = m :: rest)
include htakes htaken hhead

/-- The head of a queue from which the firmware takes: left, discarded, or taken and answered. -/
theorem fwRequest_of_head : fwRequest p ld core s =
    if p (msgOp (boxOf s.mbx ld).pointer m) = false then s
    else if stampEpoch m.stamp ≠ (boxOf s.mbx ld).epoch then discardHead ld s
    else if (boxOf s.mbx ld).pointer then
      if blockOk (headTaken ld s) ld m then pointerGo ld core m (msgOp (boxOf s.mbx ld).pointer m) (headTaken ld s)
      else fwSend ld (pointerReply (headTaken ld s) core m (msgOp (boxOf s.mbx ld).pointer m) 2) (headTaken ld s)
    else fwSend ld (wordReply (headTaken ld s) core m.p0.toNat (msgOp (boxOf s.mbx ld).pointer m)
      (fwAnswer (headTaken ld s) ld (msgOp (boxOf s.mbx ld).pointer m) (m.p0.toNat % 2 ^ 48))) (headTaken ld s) := by
  simp only [fwRequest, htakes, htaken, hhead, List.find?_nil]
  cases p (msgOp (boxOf s.mbx ld).pointer m) <;> rfl

theorem fwRequest_other (hop : p (msgOp (boxOf s.mbx ld).pointer m) = false) : fwRequest p ld core s = s :=
  (fwRequest_of_head htakes htaken hhead).trans (if_pos hop)

variable (hop : p (msgOp (boxOf s.mbx ld).pointer m) = true)
include hop

/-- A request of an ended epoch is discarded and counted (R139). -/
theorem fwRequest_stale (hstale : stampEpoch m.stamp ≠ (boxOf s.mbx ld).epoch) : let t := fwRequest p ld core s
    (boxOf t.mbx ld).h2f = rest ∧ (boxOf t.mbx ld).f2h = (boxOf s.mbx ld).f2h ∧
    (boxOf t.mbx ld).discarded = min ((boxOf s.mbx ld).discarded + 1) 65535 ∧ (boxOf t.mbx ld).db.getLsbD 2 = true := by
  have hbox : boxOf (fwRequest p ld core s).mbx ld =
      { freeH2f (boxOf s.mbx ld) with
        discarded := sat 16 ((boxOf s.mbx ld).discarded + 1), db := (freeH2f (boxOf s.mbx ld)).db ||| 4 } := by
    rw [fwRequest_of_head htakes htaken hhead, hop, if_neg (by decide), if_pos hstale]
    exact boxOf_onBoxBell_same ..
  intro t
  rw [hbox]
  refine ⟨congrArg (List.drop 1) hhead, rfl, rfl, ?_⟩
  rw [BitVec.getLsbD_or, show (4 : BitVec 32).getLsbD 2 = true by decide, Bool.or_true]

variable (hfresh : stampEpoch m.stamp = (boxOf s.mbx ld).epoch)
include hfresh

/-- A WORD request is answered with its result (R140). -/
theorem fwRequest_word (hmode : (boxOf s.mbx ld).pointer = false) :
    Replied s ld core rest (wordReply s core m.p0.toNat (msgOp false m) (fwAnswer s ld (msgOp false m) (m.p0.toNat % 2 ^ 48)))
      (fwRequest p ld core s) := by
  rw [fwRequest_of_head htakes htaken hhead, hop, if_neg (by decide), if_neg (not_not_intro hfresh), hmode, if_neg (by decide),
    fwAnswer_headTaken, wordReply_headTaken]
  exact fwSend_replied (headTaken_queues hhead) rfl

variable (hmode : (boxOf s.mbx ld).pointer = true)
include hmode

/-- A notice whose block fails the checks of R141 is answered with status 2, and the memory is as it was. -/
theorem fwRequest_badBlock (hbad : blockOk s ld m = false) :
    Replied s ld core rest (pointerReply s core m (msgOp true m) 2) (fwRequest p ld core s) ∧
      (fwRequest p ld core s).cdc = s.cdc ∧ (fwRequest p ld core s).drt = s.drt := by
  rw [fwRequest_of_head htakes htaken hhead, hop, if_neg (by decide), if_neg (not_not_intro hfresh), if_pos hmode,
    blockOk_headTaken, hbad, if_neg (by decide), hmode, pointerReply_headTaken]
  obtain ⟨hcdc, hdrt⟩ := headTaken_memory ld s
  obtain ⟨hcdc', hdrt'⟩ := fwSend_memory ld (pointerReply s core m (msgOp true m) 2) (headTaken ld s)
  exact ⟨fwSend_replied (headTaken_queues hhead) rfl, hcdc'.trans hcdc, hdrt'.trans hdrt⟩

/-- A notice whose line is at hand is answered at once, with the status of its opcode. -/
theorem fwRequest_notice {tn status : Nat} (hok : blockOk s ld m = true) (htn : ldTenant s ld = some tn)
    (hline : LineHere s tn m.p0.toNat) (hstatus : ∀ v arg, (fwAnswer v ld (msgOp true m) arg).1 = status) :
    Replied s ld core rest (pointerReply s core m (msgOp true m) status) (fwRequest p ld core s) := by
  obtain ⟨v, hgo, hbox⟩ := pointerGo_of_here core ((ldTenant_headTaken ld s ld).trans htn) (lineHere_headTaken ld hline) (blockOk_aligned hok) hstatus
  rw [fwRequest_of_head htakes htaken hhead, hop, if_neg (by decide), if_neg (not_not_intro hfresh), if_pos hmode,
    blockOk_headTaken, if_pos hok, hmode, hgo, pointerReply_headTaken]
  refine fwSend_replied ?_ rfl
  rw [QueuesKept, hbox]
  exact headTaken_queues hhead

end

/-! ### The results of a WORD request -/

/-- A WORD request's reply, by its opcode (Table 7.7). -/
theorem wordReply_answers (s : State) (ld core : Nat) (m : MbxMsg) :
    let op := msgOp false m
    let p := (wordReply s core m.p0.toNat op (fwAnswer s ld op (m.p0.toNat % 2 ^ 48))).p0.toNat
    let arg := m.p0.toNat % 2 ^ 48
    let is (status res : Nat) : Prop := bits p 47 40 = status ∧ bits p 39 0 = res
    bits p 63 56 = (op + 128) % 256 ∧ bits p 55 48 = bits m.p0.toNat 55 48 ∧
    (op = 1 → is 0 (arg % 2 ^ 40)) ∧ ((op = 2 ∨ op = 4 ∨ op = 5) → arg ≠ 0 → is 2 0) ∧
    (op = 2 → arg = 0 → ∀ tn, ldTenant s ld = some tn →
      bits p 47 40 = 0 ∧ bits p 15 0 = tenHome s.vq.active tn % 2 ^ 16 ∧
      bits p 39 16 = if (leaseOf s tn).granted = true ∧ now s < (leaseOf s tn).expiry
        then ((leaseOf s tn).expiry - now s) / 1000000 % 2 ^ 24 else 0) ∧
    (op = 3 → ∀ tn e, ldTenant s ld = some tn → extRec (extView s) (arg % 65536) = some e →
      if e.tenant = tn ∨ (extSt s (arg % 65536)).st = 3 ∧ bit e.readers tn = true then is 0 ((extSt s (arg % 65536)).st % 2 ^ 40) else is 3 0) ∧
    (op = 4 → arg = 0 → bits p 47 40 = 0 ∧ ∀ c, 1 ≤ c → c ≤ 12 → bits p (2 * c - 1) (2 * c - 2) = classLevel s c % 4) ∧
    (op = 5 → arg = 0 → is 0 (((s.vq.active.map (·.gen)).getD 0) % 2 ^ 40)) ∧ (op = 0 ∨ 5 < op → is 1 0) := by
  intro op p arg is
  have hle : (fwAnswer s ld op arg).1 ≤ 3 := fwAnswer_status_le s ld op arg
  obtain ⟨hcode, htag, hst, hres⟩ := wordReply_fields s core m.p0.toNat op (a := fwAnswer s ld op arg) (by omega)
  change bits p 47 40 = _ at hst
  change bits p 39 0 = _ at hres
  have hfld {h l : Nat} (hh : h < 40) : bits p h l = bits (fwAnswer s ld op arg).2 h l := by
    rw [← bits_mod_two_pow hh, ← bits_mod_two_pow (v := (fwAnswer s ld op arg).2) hh, ← hres]
    rfl
  have his {status res : Nat} (h : fwAnswer s ld op arg = (status, res)) : is status (res % 2 ^ 40) := by
    rw [h] at hst hres
    exact ⟨hst, hres⟩
  refine ⟨hcode, htag, fun h => ?_, fun h harg => his (fwAnswer_of_badArg s ld h harg), fun h harg tn htn => ?_,
    fun h tn e htn he => ?_, fun h harg => ?_, fun h harg => ?_, fun h => his (fwAnswer_of_unknown s ld arg h)⟩
  · have hping := his (res := arg % 2 ^ 40) (by rw [h]; rfl)
    rwa [Nat.mod_mod] at hping
  · rw [h, harg, fwAnswer_leaseInfo htn] at hst
    have hhome := tenHome_lt s.vq.active tn
    have hlease : fwAnswer s ld op arg = fwAnswer s ld 2 0 := by rw [h, harg]
    have hanswer := congrArg Prod.snd (hlease.trans (fwAnswer_leaseInfo htn))
    dsimp only at hanswer
    refine ⟨hst, ?_, ?_⟩
    · rw [hfld (by decide), hanswer, bits_eq_div_mod]
      omega
    · rw [hfld (by decide), hanswer, bits_eq_div_mod]
      split <;> omega
  · have hextent := (congrArg (fwAnswer s ld · arg) h).trans (fwAnswer_extentState htn he)
    split
    case isTrue hsees => exact his (hextent.trans (if_pos hsees))
    case isFalse hsees => exact his (hextent.trans (if_neg hsees))
  · rw [h, harg] at hst
    refine ⟨hst, fun c h1 h12 => ?_⟩
    rw [hfld (by omega), h, harg]
    exact bits_reserve s ld h1 h12
  · have himage := his (res := ((s.vq.active.map (·.gen)).getD 0) % 2 ^ 40) (by rw [h, harg]; rfl)
    rwa [Nat.mod_mod] at himage

/-- Settles O37: another row, a request of an ended epoch, a WORD request, and a POINTER notice whose block fails its checks or
whose line is at hand. -/
theorem firmwareAnswersRequests : Obligations.FirmwareAnswersRequests := by
  unfold Obligations.FirmwareAnswersRequests
  intro s ld core m rest b htakes htaken hhead rows op replied x hx
  have hnext := exec_fwRow (ld := ld) (core := core) hx s
  refine ⟨fun hop => ?_, fun hop hstale => ?_, fun hop hfresh hmode => ?_, fun hop hfresh hmode => ?_⟩
  · rw [hnext, fwRequest_other htakes htaken hhead hop]
  · exact answers_of_next hnext (fwRequest_stale htakes htaken hhead hop hstale)
  · refine answers_of_next hnext ⟨_, fwRequest_word htakes htaken hhead hop hfresh hmode, ?_⟩
    have hopcode : op = msgOp false m := by rw [← hmode]; rfl
    obtain ⟨hcode, htag, hresults⟩ := wordReply_answers s ld core m
    rw [hopcode]
    exact ⟨hcode, htag, rfl, hresults⟩
  · intro answer
    have hopcode : op = msgOp true m := by rw [← hmode]; rfl
    have hanswer {status : Nat} {t : State} (hs : status < 256)
        (h : Replied s ld core rest (pointerReply s core m (msgOp true m) status) t) : answer status t := by
      rw [← hopcode] at h
      have hpointer : (pointerReply s core m op status).p0 = m.p0 := by rw [pointerReply]
      exact ⟨_, h, hpointer, pointerReply_fields s core m op hs⟩
    refine ⟨fun hbad => ?_, fun tn e g a d hok htn hown hready hlanded hread => ?_⟩
    · obtain ⟨hreplied, hmemory⟩ := fwRequest_badBlock htakes htaken hhead hop hfresh hmode hbad
      exact answers_of_next hnext ⟨hanswer (by decide) hreplied, hmemory⟩
    · have hline : LineHere s tn m.p0.toNat := ⟨e, g, a, d, hown, hready, hlanded, hread⟩
      refine ⟨fun h1 => ?_, fun hunknown => ?_⟩
      · refine answers_of_next hnext (hanswer (by decide) (fwRequest_notice htakes htaken hhead hop hfresh hmode hok htn hline fun v arg => ?_))
        rw [← hopcode, h1]
        rfl
      · refine answers_of_next hnext (hanswer (by decide) (fwRequest_notice htakes htaken hhead hop hfresh hmode hok htn hline fun v arg => ?_))
        rw [← hopcode, fwAnswer_of_unknown v ld arg hunknown]

end Sys2Proof.Proofs
end

section
/-! A SCRUB that ends while completion records are held for its extent (R170, R315): what the records leave in its pinned slot. -/

namespace Sys2Proof.Proofs

open Sys2Proof.Machine Sys2Proof.Safety Sys2Proof.Laws

/-- Extent 5 is SCRUBBING, and two records of a ring whose completion queue it holds wait for it to be ACTIVE again. The second
lies in the next block. Every bank of the staging buffer is withdrawn (R91), so that the buffer keeps one block at most. -/
def scrubbingUnit : State :=
  { servingUnit with
    uni := { servingUnit.uni with banksOut := (List.range 64).map (128 + ·) }
    ext := { servingUnit.ext with exts := [(5, { st := 5 })] }
    opq := { rings := [(0, { tenant := 1, cqLog := 7, cqTail := 63
                             held := [(List.replicate 64 1, false), (List.replicate 64 1, false)] })] } }

theorem scrubComplete_stores_record : mget (after (.scrubComplete 5) scrubbingUnit).drt.tier 4032 = 1 := by
  decide +kernel

/-- Refutes O27 in the clause of the end of a SCRUB: once the extent is ACTIVE again the records held for it are written into its
completion queue (R315), in the same command. Here the second record takes the only place in the staging buffer, the first
record's block is written back to the tier (R187, R188), and byte 4032 of the extent's pinned slot reads 1. -/
theorem not_extentAdministration : ¬ Obligations.ExtentAdministration := by
  unfold Obligations.ExtentAdministration
  rintro ⟨-, hscrub, -⟩
  obtain ⟨-, hend⟩ := hscrub scrubbingUnit 5 pinnedExtent (by decide +kernel)
  obtain ⟨-, -, -, hzero⟩ := after_of_answers (hend (by decide +kernel))
  have hread := hzero (0, (5, 0)) (.head _) rfl 4032 (by decide) (by decide)
  rw [scrubComplete_stores_record] at hread
  exact absurd hread (by decide)

end Sys2Proof.Proofs
end

section
/-! What every operation that goes on with waiting work leaves of what is on its way to other units (R165, R166, R271 to R273): one
lemma per definition of the model that sends or raises an event, from any earlier state; a definition that touches none of OUT,
WRN and EXT is covered by its law `Kept`. -/

namespace Sys2Proof.Proofs

-- The lemmas of this file are checked one after another, with few threads at a time.
set_option Elab.async false

open Sys2Proof.Machine Sys2Proof.Safety Sys2Proof.Laws

/-- From `s` to `t` nothing that is on its way is lost, the routes to other units hold, and every lease is as it was. -/
structure Onward (s t : State) : Prop where
  out : ∀ o ∈ s.out, o ∈ t.out
  transit : ∀ w ∈ s.wrn.transit, w ∈ t.wrn.transit
  port : ∀ n, (portOf t.wrn n).st = (portOf s.wrn n).st
  alt : t.wrn.alt = s.wrn.alt
  unreachable : t.wrn.unreachable = s.wrn.unreachable
  leases : t.ext.leases = s.ext.leases

theorem Onward.refl (s : State) : Onward s s := ⟨fun _ h => h, fun _ h => h, fun _ => rfl, rfl, rfl, rfl⟩

section
variable {s0 s t : State}

theorem Onward.trans (h : Onward s0 s) (g : Onward s t) : Onward s0 t where
  out o ho := g.out o (h.out o ho)
  transit w hw := g.transit w (h.transit w hw)
  port n := (g.port n).trans (h.port n)
  alt := g.alt.trans h.alt
  unreachable := g.unreachable.trans h.unreachable
  leases := g.leases.trans h.leases

/-- What is on its way stays on its way. -/
theorem Onward.sent (h : Onward s t) {dst : Nat} {m : Msg} (hs : sentTo s dst m) : sentTo t dst m := by
  obtain ⟨e, hdst, hmsg, ⟨n, hn⟩ | ⟨w, hw, he⟩⟩ := hs
  · exact ⟨e, hdst, hmsg, .inl ⟨n, h.out _ hn⟩⟩
  · exact ⟨e, hdst, hmsg, .inr ⟨w, h.transit w hw, he⟩⟩

/-- Under the same image every unit is reached by the port it was reached by. -/
theorem Onward.outPort (h : Onward s t) (hvq : t.vq = s.vq) (d : Nat) : outPort t d = outPort s d := by
  unfold Machine.outPort
  simp only [me, hvq, h.alt, portUsable, h.port]
  rfl

theorem Onward.leaseOf (h : Onward s t) (n : Nat) : leaseOf t n = leaseOf s n := by
  rw [Machine.leaseOf, h.leases, ← Machine.leaseOf]

/-- An update of none of the six. -/
theorem Onward.upd (h : Onward s0 s)
    (ht : (t.out, t.wrn.transit, t.wrn.ports, t.wrn.alt, t.wrn.unreachable, t.ext.leases) =
      (s.out, s.wrn.transit, s.wrn.ports, s.wrn.alt, s.wrn.unreachable, s.ext.leases) := by rfl) : Onward s0 t := by
  simp only [Prod.mk.injEq] at ht
  obtain ⟨hout, htransit, hports, halt, hreach, hleases⟩ := ht
  exact h.trans ⟨fun _ h => hout ▸ h, fun _ h => htransit ▸ h, fun n => by rw [portOf, hports, ← portOf], halt, hreach, hleases⟩

/-- An operation that leaves OUT, WRN and EXT as they are. -/
theorem Onward.of_kept {cv : List Block} (h : Onward s0 s) (hk : Kept cv s t) (ho : .out ∉ cv := by decide)
    (hw : .wrn ∉ cv := by decide) (he : .ext ∉ cv := by decide) : Onward s0 t :=
  h.upd (by rw [hk.frame .out ho, hk.frame .wrn hw, hk.frame .ext he])

theorem Onward.ite {a b : State} {p : Prop} [Decidable p] (ha : Onward s0 a) (hb : Onward s0 b) :
    Onward s0 (if p then a else b) := by
  split <;> assumption

theorem Onward.foldl {α : Type} {f : State → α → State} {l : List α} (h : Onward s0 s)
    (hf : ∀ u x, Onward s0 u → Onward s0 (f u x)) : Onward s0 (l.foldl f s) := by
  induction l generalizing s with
  | nil => exact h
  | cons x xs ih => exact ih (hf s x h)

theorem Onward.foldl_fst {α β : Type} {f : State × β → α → State × β} {l : List α} {p : State × β}
    (h : Onward s0 p.1) (hf : ∀ q x, Onward s0 q.1 → Onward s0 (f q x).1) : Onward s0 (l.foldl f p).1 := by
  induction l generalizing p with
  | nil => exact h
  | cons x xs ih => exact ih (hf p x h)

/-! ### Events and messages -/

theorem set_out_onward {o : List Out} (h : Onward s0 s) (ho : ∀ x ∈ s.out, x ∈ o) : Onward s0 { s with out := o } :=
  h.trans ⟨ho, fun _ h => h, fun _ => rfl, rfl, rfl, rfl⟩

theorem emit_onward {o : Out} (h : Onward s0 s) : Onward s0 (emit o s) := set_out_onward h fun _ hx => List.mem_cons_of_mem _ hx

/-- An event without a disposition. -/
theorem note_onward (v : Ev) (h : Onward s0 s) (hd : (codeRow v.code v.cls).2 = 0 := by with_unfolding_all rfl) :
    Onward s0 (raise v s) := by
  have hk := record_kept v s (.refl _ s) (covers_refl _)
  have hwrn := hk.frame .wrn (by decide)
  rw [raise_eq_record v s hd]
  exact h.trans ⟨fun _ ho => mem_out_record v ho, fun _ hw => by rwa [hwrn], fun _ => by rw [hwrn],
    congrArg Wrn.alt hwrn, congrArg Wrn.unreachable hwrn, congrArg Ext.leases (hk.frame .ext (by decide))⟩

/-- A change of a port that leaves its state. -/
theorem onPort_onward {n : Nat} {f : Port → Port} (h : Onward s0 s) (hf : ∀ p, (f p).st = p.st) : Onward s0 (onPort n f s) := by
  refine h.trans ⟨fun _ h => h, fun _ h => h, fun k => ?_, rfl, rfl, rfl⟩
  by_cases hk : k = n
  · rw [hk]
    exact (congrArg Port.st (tget_tmod_same ({} : Port) n f s.wrn.ports)).trans (hf _)
  · exact congrArg Port.st (tget_tmod_other ({} : Port) {} hk f s.wrn.ports)

theorem waitPort_onward {x : Waiting} (h : Onward s0 s) : Onward s0 (waitPort x s) :=
  h.trans ⟨fun _ h => h, fun _ h => List.mem_append_left _ h, fun _ => rfl, rfl, rfl, rfl⟩

theorem launch_onward {n : Nat} {e : Envelope} (h : Onward s0 s) : Onward s0 (launch n e s) := by
  unfold launch
  extract_lets b v u
  have hput : Onward s0 (putFlits n (cutFlits 1 v (portOf s.wrn n).txSeq b (some e)) s) :=
    set_out_onward (onPort_onward h fun _ => rfl) fun _ hx => List.mem_append_right _ hx
  exact Onward.ite (emit_onward hput) (onPort_onward (emit_onward hput) fun _ => rfl)

theorem post_onward {n : Nat} {arrived : Ns} {e : Envelope} (h : Onward s0 s) : Onward s0 (post n arrived e s) :=
  Onward.ite (launch_onward h) (waitPort_onward h)

theorem sendBy_onward {n : Nat} {arrived : Ns} {e : Envelope} (h : Onward s0 s) : Onward s0 (sendBy n arrived e s) := by
  unfold sendBy reserveFor
  split
  · exact post_onward h
  · split
    · exact waitPort_onward h
    · exact post_onward (onPort_onward
        (h.trans ⟨fun _ h => h, fun _ h => List.mem_append_left _ h, fun _ => rfl, rfl, rfl, rfl⟩) fun _ => rfl)

theorem sendEnv_onward {e : Envelope} (h : Onward s0 s) : Onward s0 (sendEnv e s) := by
  unfold sendEnv
  refine Onward.ite h ?_
  split
  · exact h
  · exact sendBy_onward h

theorem sendMsg_onward {d g n : Nat} {m : Msg} (h : Onward s0 s) : Onward s0 (sendMsg d g n m s) := sendEnv_onward h
theorem sendReq_onward {d n : Nat} {m : Msg} (h : Onward s0 s) : Onward s0 (sendReq d n m s) := sendEnv_onward h.upd
theorem respond_onward {d g n : Nat} {m : Msg} (h : Onward s0 s) : Onward s0 (respond d g n m s) := sendMsg_onward h.upd
theorem sendAll_onward {l : List Nat} {n : Nat} {m : Msg} (h : Onward s0 s) : Onward s0 (sendAll l n m s) :=
  h.foldl fun _ _ h => sendMsg_onward h.upd

theorem sendMsix_onward {ld v : Nat} (h : Onward s0 s) : Onward s0 (sendMsix ld v s) :=
  set_out_onward (s := { s with hst := msixHst s.hst ld v }) h.upd fun _ hx => List.mem_append_right _ hx

theorem setDb_onward {ld b : Nat} (h : Onward s0 s) : Onward s0 (setDb ld b s) :=
  Onward.ite (sendMsix_onward h.upd) h.upd

theorem setDbTenant_onward {t b : Nat} (h : Onward s0 s) : Onward s0 (setDbTenant t b s) := h.foldl fun _ _ h => setDb_onward h

/-! ### Staging -/

theorem poisonFault_onward {x : ExtRec} {st b a : Nat} {f : DecFault} (h : Onward s0 s) : Onward s0 (poisonFault x st b a f s) :=
  note_onward _ h.upd

theorem poisonFaults_onward {x : ExtRec} {st b a : Nat} {ks : List Nat} {n : Nat} (h : Onward s0 s) :
    Onward s0 (poisonFaults x st b a ks n s) := by
  induction n generalizing s with
  | zero => exact h
  | succ n ih =>
    unfold poisonFaults
    split
    · exact h
    · exact ih (poisonFault_onward h)

theorem countDec_onward {st b n : Nat} (h : Onward s0 s) : Onward s0 (countDec st b n s) := h.upd
theorem markDirty_onward {t b : Nat} (h : Onward s0 s) : Onward s0 (markDirty t b s) :=
  h.of_kept (markDirty_kept t b s (.refl _ s) (covers_refl _))
theorem enqueueStrips_onward {q a : Nat} {ks : List Nat} {w : Bool} (h : Onward s0 s) : Onward s0 (enqueueStrips q a ks w s) :=
  h.of_kept (enqueueStrips_kept q a ks w s (.refl _ s) (covers_refl _))

theorem writeback_onward {t b : Nat} {ks : List Nat} (h : Onward s0 s) : Onward s0 (writeback t b ks s) := by
  unfold writeback
  split
  · extract_lets ws u r x st crc d1 d2 d3 out x2 c1 u1 u2
    have hu : Onward s0 u := poisonFaults_onward h
    have hu1 : Onward s0 u1 := hu.upd
    exact markDirty_onward (enqueueStrips_onward (hu1.foldl fun _ _ h => h.upd))
  · exact h

theorem flushBlock_onward {t b : Nat} (h : Onward s0 s) : Onward s0 (flushBlock t b s) := by
  unfold flushBlock
  split
  · exact h
  · exact Onward.ite h ((writeback_onward h).of_kept (writebackDone_kept _ _ _ (.refl _ _) (covers_refl _)))

theorem flushTile_onward {t tile : Nat} (h : Onward s0 s) : Onward s0 (flushTile t tile s) :=
  h.foldl fun _ _ h => flushBlock_onward h

theorem flushRange_onward {t lo hi : Nat} (h : Onward s0 s) : Onward s0 (flushRange t lo hi s) :=
  h.foldl fun _ _ h => flushBlock_onward h

theorem entryFor_onward {t b k : Nat} (h : Onward s0 s) : Onward s0 (entryFor t b k s).1 := by
  have hevict : Onward s0 (evictOne s) := by
    unfold evictOne
    split
    · exact h.upd
    · split
      · exact (flushBlock_onward h).upd
      · exact h
  unfold entryFor makeRoom
  split
  · exact h
  · exact Onward.ite h (Onward.ite hevict h)

theorem stageWrite_onward {t l st : Nat} {be : BitVec 64} {data : List Byte} {p : Bool} (h : Onward s0 s) :
    Onward s0 (stageWrite t l st be data p s) :=
  markDirty_onward (Onward.upd (entryFor_onward (t := t) (b := l / 64) (k := l % 64 / 8) h))

/-! ### The Hoard log and fills -/

theorem releaseIfDead_onward {i : Nat} (h : Onward s0 s) : Onward s0 (releaseIfDead i s) := by
  unfold releaseIfDead releaseStripe
  split
  · refine Onward.ite ?_ h
    split
    · exact h
    · extract_lets u
      have hu : Onward s0 u := h.foldl fun _ _ h => Onward.ite h.upd (sendReq_onward h)
      exact hu.upd
  · exact h

theorem ackChunk_onward {i c : Nat} (h : Onward s0 s) : Onward s0 (ackChunk i c s) := by
  unfold ackChunk commitStripe
  split
  · exact h
  · refine Onward.ite h (Onward.ite ?_ h.upd)
    split
    · exact h.upd
    · exact Onward.foldl h.upd fun _ _ h => Onward.ite h (releaseIfDead_onward h)

theorem closeStripe_onward {i : Nat} (h : Onward s0 s) : Onward s0 (closeStripe i s) := by
  unfold closeStripe
  split
  · exact h
  · refine Onward.ite h (Onward.foldl h.upd fun u c hu => ?_)
    unfold sendChunk
    split
    · exact hu
    · have hstored {i c k m n : Nat} {v : BitVec 32} {b : List Byte} {w : State} (h : Onward s0 w) :
          Onward s0 (storeChunk i c k m n v b w).1 := h.of_kept (storeChunk_kept _ _ _ _ _ _ _ w (.refl _ w) (covers_refl _))
      exact Onward.ite (Onward.ite (ackChunk_onward (hstored hu.upd)) (hstored hu.upd)) (sendReq_onward hu.upd)

theorem openStripe_onward {c k : Nat} (h : Onward s0 s) : Onward s0 (openStripe c k s).1 :=
  h.of_kept (openStripe_kept _ _ s (.refl _ s) (covers_refl _))

theorem stripeFor_onward {c k n : Nat} (h : Onward s0 s) : Onward s0 (stripeFor c k n s).1 := by
  unfold stripeFor
  dsimp only
  split
  · exact openStripe_onward h
  · split
    · exact openStripe_onward (closeStripe_onward (openStripe_onward h))
    · exact openStripe_onward h

theorem appendStripe_onward {i : Nat} {b : List Byte} {t : Option (Nat × Nat)} (h : Onward s0 s) :
    Onward s0 (appendStripe i b t s) :=
  h.of_kept (appendStripe_kept _ _ _ s (.refl _ s) (covers_refl _))

theorem set_hrd_onward (h : Onward s0 s) (d : Hrd) : Onward s0 { s with hrd := d } := h.upd

theorem markClean_onward {t tile : Nat} (h : Onward s0 s) : Onward s0 (markClean t tile s) :=
  h.of_kept (markClean_kept _ _ s (.refl _ s) (covers_refl _))

theorem logTile_onward {t tile : Nat} (h : Onward s0 s) : Onward s0 (logTile t tile s) := by
  unfold logTile
  split
  · exact h
  · refine Onward.ite h ?_
    have hflush : Onward s0 (flushTile t tile s) := flushTile_onward h
    dsimp only
    split
    · exact hflush
    · refine Onward.ite hflush (Onward.ite ?_ (markClean_onward (appendStripe_onward (stripeFor_onward hflush))))
      split
      · exact releaseIfDead_onward (markClean_onward (set_hrd_onward hflush _))
      · exact markClean_onward (set_hrd_onward hflush _)

theorem commitTile_onward {t tile : Nat} (h : Onward s0 s) : Onward s0 (commitTile t tile s) := by
  unfold commitTile
  split
  · exact h
  · refine Onward.ite h (Onward.ite h ?_)
    dsimp only
    split
    · exact closeStripe_onward (logTile_onward h)
    · exact logTile_onward h

theorem dropTile_onward {t tile : Nat} (h : Onward s0 s) : Onward s0 (dropTile t tile s) := h.upd

theorem takeWay_onward {t tile : Nat} (h : Onward s0 s) : Onward s0 (takeWay t tile s).1 := by
  unfold takeWay
  split
  · exact h
  · split
    · exact h
    · extract_lets u y vt vk u1 u2
      have hu1 : Onward s0 u1 := Onward.ite (flushTile_onward h.upd) h.upd
      have hu2 : Onward s0 u2 := Onward.ite (commitTile_onward hu1) hu1
      split
      · exact hu2
      · exact Onward.upd (Onward.ite (dropTile_onward hu2) hu2)

theorem getChunk_onward {a b c d e f g : Nat} {r : Bool} (h : Onward s0 s) : Onward s0 (getChunk a b c d e f g r s) :=
  sendReq_onward h.upd

theorem gatherLocal_onward {x : Gathered} {i c : Nat} (h : Onward s0 s) : Onward s0 (gather x (chunkRead i c s)) :=
  Onward.upd (h.of_kept (chunkRead_kept i c s (.refl _ s) (covers_refl _)))

theorem askRebuild_onward {i c t tile : Nat} (h : Onward s0 s) : Onward s0 (askRebuild i c t tile s) := by
  unfold askRebuild
  refine Onward.ite h (Onward.foldl h.upd fun u c hu => Onward.ite hu ?_)
  split
  · exact gatherLocal_onward hu
  · exact Onward.ite hu (getChunk_onward hu)

theorem askChunks_onward {d : DirEntry} (h : Onward s0 s) : Onward s0 (askChunks d s) := by
  refine h.foldl fun u c hu => ?_
  dsimp only
  split
  · exact gatherLocal_onward hu
  · exact Onward.ite (askRebuild_onward hu) (getChunk_onward hu)

theorem repairChunk_onward {i c t tile : Nat} (h : Onward s0 s) : Onward s0 (repairChunk i c t tile s) := by
  unfold repairChunk
  split
  · exact h.of_kept (markDamaged_kept _ _ s (.refl _ s) (covers_refl _))
  · dsimp only
    split
    · exact h
    · exact Onward.ite h (sendReq_onward h)

theorem landBlock_onward {t tile j : Nat} {bmw : BitVec 96} {masks : List Byte} {strips : List (List Byte)} (h : Onward s0 s) :
    Onward s0 (landBlock t tile j bmw masks strips s) :=
  h.of_kept (landBlock_kept _ _ _ _ _ _ s (.refl _ s) (covers_refl _))
theorem landPacked_onward {t tile : Nat} {area : List Byte} (h : Onward s0 s) : Onward s0 (landPacked t tile area s).1 :=
  h.of_kept (landPacked_kept _ _ _ s (.refl _ s) (covers_refl _))
theorem failTile_onward {x : ExtRec} {g tile : Nat} (h : Onward s0 s) : Onward s0 (failTile x g tile s) :=
  h.of_kept (failTile_kept _ _ _ s (.refl _ s) (covers_refl _))

theorem tryFill_onward {x : ExtRec} {g : Nat} {d : DirEntry} {n : Nat} (h : Onward s0 s) : Onward s0 (tryFill x g d n s) := by
  induction n generalizing s with
  | zero => exact h
  | succ n ih =>
    unfold tryFill
    extract_lets bad mine held cs area p u _ km
    have hu : Onward s0 u := Onward.foldl (landPacked_onward h) fun u y hu => note_onward _ (repairChunk_onward hu)
    split
    · split
      · exact Onward.ite hu.upd hu
      · exact Onward.ite (failTile_onward (note_onward _ h)) (ih h.upd)
    · refine Onward.ite h ?_
      extract_lets full
      refine Onward.ite ?_ (Onward.ite (ih (askRebuild_onward h))
        (Onward.ite h (Onward.ite (failTile_onward (note_onward _ h)) (h.of_kept (cancelFill_kept _ _ s (.refl _ s) (covers_refl _))))))
      split
      · exact ih h.upd
      · exact h

theorem startFill_onward {x : ExtRec} {g tile : Nat} (h : Onward s0 s) : Onward s0 (startFill x g tile s) := by
  unfold startFill
  refine Onward.ite h ?_
  extract_lets slotted u zero
  have hu : Onward s0 u := Onward.ite h (takeWay_onward h)
  have hzero (v : State) (hv : Onward s0 v) : Onward s0 (zero v) := hv.foldl fun _ _ h => landBlock_onward h
  refine Onward.ite hu (Onward.ite (failTile_onward hu) ?_)
  split
  · exact landPacked_onward hu
  · split
    · exact Onward.ite hu (hzero u hu)
    · exact Onward.ite (hzero u hu) (tryFill_onward (askChunks_onward hu))

/-! ### Requests that waited -/

theorem recoverFault_onward {x : ExtRec} {g st b a : Nat} {f : DecFault} (h : Onward s0 s) :
    Onward s0 (recoverFault x g st b a f s).1 := by
  unfold recoverFault
  dsimp only
  split
  · exact startFill_onward ((note_onward _ h.upd).of_kept (dropCopy_kept _ _ _ (.refl _ _) (covers_refl _)))
  · exact poisonFault_onward h

theorem fillForWrite_onward {x : ExtRec} {g st q b a k : Nat} (h : Onward s0 s) : Onward s0 (fillForWrite x g st q b a k s).1 := by
  unfold fillForWrite
  extract_lets ks counted
  have hcounted (a : Nat) (v : State) (hv : Onward s0 v) : Onward s0 (counted a v) := countDec_onward (enqueueStrips_onward hv)
  split
  · exact hcounted a s h
  · split
    · extract_lets u
      have hu : Onward s0 u := recoverFault_onward h
      split
      · exact hcounted _ _ (poisonFaults_onward hu)
      · exact hu
    · exact hcounted a _ (poisonFaults_onward h)

theorem fillForAgent_onward {x : ExtRec} {g st q b k : Nat} (h : Onward s0 s) : Onward s0 (fillForAgent x g st q b k s) := by
  unfold fillForAgent
  split
  · exact h
  · exact Onward.ite (fillForWrite_onward h) (poisonFaults_onward h)

theorem answerData_onward {r : MemReq} {l : List Byte} {p : Bool} {g : Nat} (h : Onward s0 s) : Onward s0 (answerData r l p g s) :=
  Onward.ite h (emit_onward h)

theorem answerPoison_onward {r : MemReq} (h : Onward s0 s) : Onward s0 (answerPoison r s) := by
  unfold answerPoison
  split
  · exact answerData_onward h
  · exact respond_onward h

theorem answerWrite_onward {r : MemReq} {st : Nat} (h : Onward s0 s) : Onward s0 (answerWrite r st s) := by
  unfold answerWrite
  split
  · exact Onward.ite h (emit_onward h)
  · exact respond_onward h

theorem answerUncached_onward {r : MemReq} {bmw : BitVec 96} {masks : List Byte} {strips : List (List Byte)} (h : Onward s0 s) :
    Onward s0 (answerUncached r bmw masks strips s) := by
  unfold answerUncached
  split
  · exact answerPoison_onward h
  · refine Onward.ite (answerPoison_onward h) ?_
    split
    · exact answerData_onward h
    · exact respond_onward h

theorem touchTile_onward {t tile : Nat} (h : Onward s0 s) : Onward s0 (touchTile t tile s) :=
  h.of_kept (touchTile_kept _ _ s (.refl _ s) (covers_refl _))

theorem startSnoop_onward {t a : Nat} {d : Bool} {l : List (Nat × Nat)} {c : SnoopCause} (h : Onward s0 s) :
    Onward s0 (startSnoop t a d l c s) := by
  refine Onward.ite h (Onward.foldl h.upd fun u x hu => ?_)
  exact Onward.ite (Onward.ite (emit_onward hu) hu.upd) (sendReq_onward hu)

theorem finishRead_onward {x : ExtRec} {g : Nat} {r : MemReq} {a gr : Nat} (h : Onward s0 s) :
    Onward s0 (finishRead x g r a gr s) := by
  unfold finishRead
  refine Onward.ite (answerPoison_onward h) ?_
  split
  · extract_lets u v w
    have hw : Onward s0 w := touchTile_onward (countDec_onward (Onward.ite h (enqueueStrips_onward h)))
    refine Onward.ite (answerPoison_onward hw) ?_
    split
    · exact answerData_onward (hw.of_kept (holdBlock_kept _ _ _ w (.refl _ w) (covers_refl _)))
    · exact respond_onward hw
  · next f _ =>
    have hq : Onward s0 (recoverFault x g (reqStream r) (r.addr / 4096) a f s).1 := recoverFault_onward h
    refine Onward.ite ?_ (answerPoison_onward hq)
    split
    · split
      · exact Onward.ite (answerPoison_onward hq) (answerData_onward hq)
      · exact answerPoison_onward hq
    · exact hq.upd

theorem serveRead_onward {x : ExtRec} {g : Nat} {r : MemReq} (h : Onward s0 s) : Onward s0 (serveRead x g r s) := by
  have hevict : Onward s0 (sfEvict s) := by
    unfold sfEvict
    split
    · exact h
    · exact startSnoop_onward h.upd
  unfold serveRead
  dsimp only
  split
  · exact Onward.upd (startSnoop_onward h)
  · refine Onward.ite hevict.upd ?_
    have hfill : Onward s0 (if (landedAddr s x g (r.addr / 32768) (r.addr / 4096 % 8)).isSome = true then s
        else if s.uni.restarting = true then s else startFill x g (r.addr / 32768) s) :=
      Onward.ite h (Onward.ite h (startFill_onward h))
    split
    · exact finishRead_onward (Onward.ite hfill hfill.upd)
    · refine Onward.ite (answerPoison_onward (note_onward _ hfill)) ?_
      split
      · exact answerUncached_onward hfill
      · exact hfill.upd

theorem serveWrite_onward {x : ExtRec} {g : Nat} {r : MemReq} (h : Onward s0 s) : Onward s0 (serveWrite x g r s) := by
  unfold serveWrite
  refine Onward.ite (answerWrite_onward (note_onward _ h.upd)) (Onward.ite (answerWrite_onward (note_onward _ h)) ?_)
  dsimp only
  have hfill : Onward s0 (if (landedAddr s x g (r.addr / 32768) (r.addr / 4096 % 8)).isSome = true then s
      else startFill x g (r.addr / 32768) s) := Onward.ite h (startFill_onward h)
  split
  · exact hfill.upd
  · exact Onward.ite (answerWrite_onward hfill) (Onward.ite (Onward.upd (fillForWrite_onward hfill))
      (answerWrite_onward (touchTile_onward (stageWrite_onward (fillForWrite_onward hfill)))))

theorem forwardReq_onward {u : Nat} {r : MemReq} (h : Onward s0 s) : Onward s0 (forwardReq u r s) := by
  unfold forwardReq
  refine Onward.ite ?_ (Onward.ite h.upd (sendReq_onward h.upd))
  exact Onward.ite (answerWrite_onward (note_onward _ (Onward.upd (note_onward _ h) rfl))) (answerPoison_onward (note_onward _ h))

theorem resumeReq_onward {r : MemReq} (h : Onward s0 s) : Onward s0 (resumeReq r s) := by
  unfold resumeReq
  split
  · exact Onward.ite (answerWrite_onward h) (answerPoison_onward h)
  · split
    · exact forwardReq_onward h
    · exact Onward.ite (answerWrite_onward h) (Onward.ite (serveWrite_onward h) (serveRead_onward h))

theorem resumeWhere_onward {p : MemReq → Bool} (h : Onward s0 s) : Onward s0 (resumeWhere p s) :=
  Onward.foldl h.upd fun _ _ h => resumeReq_onward h

theorem foldl_leases {α : Type} {f : Ext → α → Ext} (hf : ∀ x n, (f x n).leases = x.leases) (l : List α) (x : Ext) :
    (l.foldl f x).leases = x.leases := by
  induction l generalizing x with
  | nil => rfl
  | cons n l ih => rw [List.foldl_cons, ih, hf]

theorem snoopsDone_onward (h : Onward s0 s) : Onward s0 (snoopsDone s) := by
  have hleases : (snoopsDone s).ext.leases = s.ext.leases := by
    unfold snoopsDone
    refine foldl_leases (fun x n => ?_) _ s.ext
    split
    · rfl
    · split <;> rfl
  exact h.upd (by rw [hleases]; rfl)

theorem settleSnoops_onward (h : Onward s0 s) : Onward s0 (settleSnoops s) := resumeWhere_onward (snoopsDone_onward h)

/-! ### Agents, records and operators -/

theorem bringRange_onward {t a n : Nat} {w : Bool} (h : Onward s0 s) : Onward s0 (bringRange t a n w s) := by
  unfold bringRange
  extract_lets u v
  have hu : Onward s0 u := h.foldl fun _ _ h => startSnoop_onward h
  have hv : Onward s0 v := hu.foldl fun p x hp => by
    split
    · exact startFill_onward hp
    · exact hp
  refine Onward.ite hv (hv.foldl fun p l hp => ?_)
  unfold askLine
  refine Onward.ite hp ?_
  split
  · exact hp
  · exact Onward.ite (Onward.upd (note_onward _ hp) rfl) (sendReq_onward hp.upd)

theorem agentWrite_onward {t a st : Nat} {b : List Byte} (h : Onward s0 s) : Onward s0 (agentWrite t a st b s).1 := by
  refine Onward.foldl_fst h fun q x hq => ?_
  dsimp only
  unfold agentWriteLine
  split
  · exact hq
  · split
    · exact hq
    · split
      · exact stageWrite_onward (fillForAgent_onward hq)
      · exact sendReq_onward hq

theorem writeRecord_onward {n : Nat} {rcd : List Byte} {irq : Bool} (h : Onward s0 s) : Onward s0 (writeRecord n rcd irq s) :=
  Onward.ite (sendMsix_onward (Onward.upd (agentWrite_onward h))) (Onward.upd (agentWrite_onward h))

theorem discardRecords_onward {n k : Nat} (h : Onward s0 s) : Onward s0 (discardRecords n k s) :=
  Onward.ite h (note_onward _ h.upd)

theorem flushRecords_onward (h : Onward s0 s) : Onward s0 (flushRecords s) := by
  unfold flushRecords
  refine Onward.ite h (Onward.of_kept (Onward.foldl_fst h.upd fun p w hp => ?_) (ringsGone_kept _ (.refl _ _) (covers_refl _)))
  dsimp only
  split
  · exact hp.upd
  · split
    · exact discardRecords_onward (n := w.1) (k := 1) hp
    · split
      · exact hp.upd
      · split
        · exact writeRecord_onward (bringRange_onward hp)
        · exact Onward.upd (bringRange_onward hp)

theorem moveIntake_onward (h : Onward s0 s) : Onward s0 (moveIntake s) :=
  h.of_kept (moveIntake_kept s (.refl _ s) (covers_refl _))

theorem releaseFences_onward (h : Onward s0 s) : Onward s0 (releaseFences s) := h.foldl fun _ _ h => sendReq_onward h.upd

theorem retireOp_onward {o : Op} {v : RecVals} (h : Onward s0 s) : Onward s0 (retireOp o v s) := by
  unfold retireOp
  extract_lets rcd _ _ u w z
  have hw : Onward s0 w := Onward.ite (note_onward _ h.upd) h.upd
  have hz : Onward s0 z := Onward.ite (flushRecords_onward hw.upd) (respond_onward hw)
  exact releaseFences_onward (moveIntake_onward hz)

theorem abortOps_onward {p : Op → Bool} {c : Nat} (h : Onward s0 s) : Onward s0 (abortOps p c s) :=
  h.foldl fun _ _ h => Onward.ite (retireOp_onward h) h.upd

/-! ### Extents, seals and reclaims -/

theorem ringStop_onward {n e : Nat} (h : Onward s0 s) : Onward s0 (ringStop n e s) :=
  Onward.ite (note_onward _ h.upd) h.upd

theorem dcEvent_onward {ld : Nat} {v : DcEvent} (h : Onward s0 s) : Onward s0 (dcEvent ld v s) :=
  setDb_onward (sendMsix_onward h.upd)

theorem moveExtent_onward {x st : Nat} (h : Onward s0 s) : Onward s0 (moveExtent x st s) := by
  unfold moveExtent
  refine Onward.ite h ?_
  extract_lets ns u v
  have hu : Onward s0 u := setDbTenant_onward h.upd
  have hv : Onward s0 v := hu.foldl fun _ _ h => ringStop_onward h
  exact Onward.ite (flushRecords_onward (hv.foldl fun _ _ h => h.upd)) hv

theorem offerTenant_onward {t : Nat} {x : ExtRec} {rd : Bool} (h : Onward s0 s) : Onward s0 (offerTenant t x rd s) :=
  h.foldl fun _ _ h => Onward.ite (dcEvent_onward h.upd) h

theorem offerReaders_onward {e : ExtRec} (h : Onward s0 s) : Onward s0 (offerReaders e s) := by
  refine h.foldl fun v t hv => Onward.ite hv ?_
  split
  · exact note_onward _ hv.upd
  · exact offerTenant_onward hv.upd

theorem offerWithheld_onward (h : Onward s0 s) : Onward s0 (offerWithheld s) := h.foldl fun _ _ h => offerReaders_onward h

theorem sealsGo_onward (h : Onward s0 s) : Onward s0 (sealsGo s) := by
  refine h.foldl fun u r hu => ?_
  unfold sealRest sealStore
  split
  · exact hu
  · extract_lets v left sums
    have hv : Onward s0 v := flushRange_onward hu
    split
    · exact Onward.foldl (Onward.foldl hv.upd fun _ _ h => commitTile_onward h) fun _ _ h => appendStripe_onward (stripeFor_onward h)
    · exact Onward.foldl hv.upd fun _ _ h => startFill_onward h

theorem afterSnoops_onward (h : Onward s0 s) : Onward s0 (afterSnoops s) :=
  flushRecords_onward (sealsGo_onward (settleSnoops_onward h))

theorem rekeyExtent_onward {a b : ExtRec} (h : Onward s0 s) : Onward s0 (rekeyExtent a b s) := by
  unfold rekeyExtent
  extract_lets mine dst u moved v
  have hv : Onward s0 v := Onward.foldl (flushRange_onward h) fun _ _ h => Onward.ite (commitTile_onward h) h
  exact hv.upd

theorem forgetExtent_onward {x : ExtRec} (h : Onward s0 s) : Onward s0 (forgetExtent x s) := by
  unfold forgetExtent
  exact Onward.foldl h.upd fun _ _ h => releaseIfDead_onward h

theorem releaseDone_onward {x : Nat} (h : Onward s0 s) : Onward s0 (releaseDone x s) := by
  unfold releaseDone
  refine Onward.ite h ?_
  extract_lets old rs _ u v w
  have hv : Onward s0 v := Onward.foldl h.upd fun _ _ h => ringStop_onward h
  have hw : Onward s0 w := hv.foldl fun _ _ h => Onward.ite h (discardRecords_onward h.upd)
  split
  · extract_lets y z
    have hy : Onward s0 y := Onward.ite hw (rekeyExtent_onward hw)
    exact offerWithheld_onward (offerTenant_onward (moveExtent_onward hy.upd))
  · exact offerWithheld_onward (Onward.upd (forgetExtent_onward hw))
  · exact hw.upd

theorem orphanExtent_onward {x : ExtRec} (h : Onward s0 s) : Onward s0 (orphanExtent x s) := by
  unfold orphanExtent
  extract_lets es u mine
  have hu : Onward s0 u := h.foldl fun v f hv => by
    have hpoison : Onward s0 (poisonLine x f.addr v) :=
      Onward.ite (stageWrite_onward (fillForAgent_onward hv)) (startFill_onward hv.upd)
    exact Onward.ite hpoison.upd hpoison.upd
  exact hu.upd

theorem abandonSeal_onward {x : Nat} (h : Onward s0 s) : Onward s0 (abandonSeal x s) := by
  unfold abandonSeal
  split
  · exact h
  · dsimp only
    split
    · exact retireOp_onward h.upd
    · exact h.upd

theorem forceRemove_onward {ld x : Nat} (h : Onward s0 s) : Onward s0 (forceRemove ld x s) := by
  unfold forceRemove
  split
  · exact note_onward _ (dcEvent_onward h.upd)
  · exact h.upd

end
end Sys2Proof.Proofs
end

section
/-! The lease windows (R110, R161 to R164, R172): renewals at the home unit and elsewhere, the grant that ends a merging window, and
the passing of E - g and of E on every unit. -/

namespace Sys2Proof.Proofs

open Sys2Proof.Machine Sys2Proof.Safety Sys2Proof.Laws

/-! ### Messages to several units, and doorbells -/

section
variable {s t : State}

theorem Onward.reaches (h : Onward s t) (hvq : t.vq = s.vq) (d : Nat) : Machine.unreachable t d = Machine.unreachable s d := by
  rw [Machine.unreachable, h.unreachable, h.outPort hvq, ← Machine.unreachable]

theorem reachable_iff (d : Nat) : Machine.unreachable s d = false ↔ d ∉ s.wrn.unreachable ∧ (outPort s d).isSome = true := by
  rw [Machine.unreachable, Bool.or_eq_false_iff, ← Bool.not_eq_true, List.contains_iff_mem, Option.isNone_eq_false_iff]

/-- A message that is not bulk, to a unit that is not unreachable, is on its way. -/
theorem sendMsg_sent_of_reach {d tag n : Nat} {m : Msg} (hbulk : bulkLen m = none) (hreach : Machine.unreachable s d = false) :
    sentTo (sendMsg d tag n m s) d m :=
  have ⟨hmem, hport⟩ := (reachable_iff d).1 hreach
  sendMsg_sent hbulk hport hmem

theorem sendMsg_vq (d tag n : Nat) (m : Msg) (s : State) : (sendMsg d tag n m s).vq = s.vq :=
  (sendMsg_kept d tag n m s (.refl _ s) (covers_refl _)).frame .vq (by decide)

/-- A message that is not bulk goes to every other unit of a list that can be reached. -/
theorem sendAll_sent {l : List Nat} {n u : Nat} {m : Msg} (hbulk : bulkLen m = none) (hu : u ∈ l) (hother : u ≠ me s)
    (hreach : Machine.unreachable s u = false) : sentTo (sendAll l n m s) u m := by
  have hl : u ∈ l.filter (· != me s) := List.mem_filter.2 ⟨hu, bne_iff_ne.2 hother⟩
  unfold sendAll
  generalize l.filter (· != me s) = l at hl
  clear hu hother
  induction l generalizing s with
  | nil => cases hl
  | cons d l ih =>
    let w : State := { s with wrn := { s.wrn with nextTag := (s.wrn.nextTag + 1) % 2 ^ 32 } }
    have hw : Onward s w := (Onward.refl s).upd
    rcases List.mem_cons.1 hl with rfl | hl
    · have hsent : sentTo (sendMsg u s.wrn.nextTag n m w) u m := sendMsg_sent_of_reach hbulk ((hw.reaches rfl u).trans hreach)
      rw [List.foldl_cons]
      exact Onward.sent (Onward.foldl (.refl (sendMsg u s.wrn.nextTag n m w)) fun _ _ h => sendMsg_onward h.upd) hsent
    · exact ih (((sendMsg_onward hw).reaches (sendMsg_vq _ _ _ _ w) u).trans hreach) hl

theorem sendAll_same {b : Block} (l : List Nat) (n : Nat) (m : Msg) (s : State) (hb : b ∉ [.wrn, .out] := by decide) :
    b.same s (sendAll l n m s) :=
  (sendAll_kept l n m s (.refl _ s) (covers_refl _)).frame b hb

theorem setDbTenant_ext (n b : Nat) (s : State) : (setDbTenant n b s).ext = s.ext :=
  (setDbTenant_kept n b s (.refl _ s) (covers_refl _)).frame .ext (by decide)

/-- A doorbell bit of an LD, once set, stays set while others are. -/
theorem setDb_keeps {ld x b k : Nat} (h : (boxOf s.mbx ld).db.getLsbD k = true) : (boxOf (setDb x b s).mbx ld).db.getLsbD k = true := by
  rw [setDb, onBoxBell_mbx]
  by_cases hx : ld = x
  · rw [hx, boxOf_onBox_same, BitVec.getLsbD_or, ← hx, h, Bool.true_or]
  · rwa [boxOf_onBox_other hx]

theorem setDb_sets (ld : Nat) {b : Nat} (hb : b < 32) : (boxOf (setDb ld b s).mbx ld).db.getLsbD b = true := by
  rw [setDb, boxOf_onBoxBell_same, BitVec.getLsbD_or, BitVec.getLsbD_ofNat, decide_eq_true hb, Nat.testBit_two_pow_self, Bool.and_self,
    Bool.or_true]

/-- A doorbell bit of a tenant is set on each of its LDs here (Table 7.4). -/
theorem setDbTenant_sets {n b ld : Nat} (hb : b < 32) (hld : ld < 256) (hn : ldTenant s ld = some n) :
    (boxOf (setDbTenant n b s).mbx ld).db.getLsbD b = true := by
  have hmem : ld ∈ ldsOf s n := List.mem_filter.2 ⟨List.mem_range.2 hld, beq_iff_eq.2 hn⟩
  unfold setDbTenant
  generalize ldsOf s n = l at hmem
  clear hn hld
  have hkeep (l : List Nat) (u : State) (h : (boxOf u.mbx ld).db.getLsbD b = true) :
      (boxOf (l.foldl (fun s ld => setDb ld b s) u).mbx ld).db.getLsbD b = true := by
    induction l generalizing u with
    | nil => exact h
    | cons x l ih => exact ih _ (setDb_keeps h)
  induction l generalizing s with
  | nil => cases hmem
  | cons x l ih =>
    rcases List.mem_cons.1 hmem with rfl | hmem
    · exact hkeep l _ (setDb_sets ld hb)
    · exact ih hmem

end

/-! ### Renewals (R110, R161, R172) -/

theorem leaseOf_onLease (n : Nat) (f : Lease → Lease) (s : State) : leaseOf (onLease n f s) n = f (leaseOf s n) :=
  tget_tmod_same ({} : Lease) n f s.ext.leases

/-- The leases do not depend on the other blocks. -/
theorem leaseOf_of_ext {s t : State} (h : t.ext = s.ext) (n : Nat) : leaseOf t n = leaseOf s n := by
  rw [leaseOf, h, ← leaseOf]

theorem hasTenant_of_isHome {s : State} {n : Nat} (h : isHome s n = true) : hasTenant s.vq.active n = true :=
  (Bool.and_eq_true_iff.1 h).1

/-- The home unit's record of a lease after a renewal in time. -/
def renewedLease (s : State) (n : Nat) (stamp : Ns) : Lease :=
  { leaseOf s n with
    homeE := max (if (leaseOf s n).homeRunning then (leaseOf s n).homeE else 0) (stamp + leaseExpiryNs s.vq.active n)
    homeRunning := true
    window := some ((leaseOf s n).window.getD (now s + 1000000)) }

section
variable {s : State} {n : Nat} {stamp : Ns}

theorem renewAtHome_renews (hs : s.uni.st = .serving) (hr : (leaseOf s n).reclaiming = false)
    (htime : (leaseOf s n).homeRunning = true → stamp < (leaseOf s n).homeE + leaseGuard s.vq.active n) :
    leaseOf (renewAtHome n stamp s) n = renewedLease s n stamp := by
  have hserves : ¬ (s.uni.st == .draining && !((leaseOf s n).homeRunning &&
      decide (stamp < (leaseOf s n).homeE + leaseGuard s.vq.active n))) = true := by
    rw [hs]
    exact Bool.false_ne_true
  have hopen : ¬ ((leaseOf s n).reclaiming || ((leaseOf s n).homeRunning &&
      decide ((leaseOf s n).homeE + leaseGuard s.vq.active n ≤ stamp))) = true := by
    rw [hr, Bool.false_or, Bool.and_eq_true, decide_eq_true_iff]
    exact fun ⟨hrun, hlate⟩ => absurd (htime hrun) (Nat.not_lt.2 hlate)
  rw [renewAtHome, if_neg hserves, if_neg hopen, leaseOf_onLease]
  rfl

theorem unitServesOrHeld_of_serving (hs : s.uni.st = .serving) : unitServesOrHeld s = true := by
  rw [unitServesOrHeld, unitServes, hs]
  rfl

/-- A peer's renewal at the home unit. -/
theorem leaseRenew_renews {src : Nat} (hsrc : src < fabN s.vq.active) (hhome : isHome s n = true) (hs : s.uni.st = .serving)
    (hr : (leaseOf s n).reclaiming = false)
    (htime : (leaseOf s n).homeRunning = true → stamp < (leaseOf s n).homeE + leaseGuard s.vq.active n) :
    Answers (.leaseRenew src n stamp) s fun t => leaseOf t n = renewedLease s n stamp := by
  have hknown : ¬ (!srcOk (hear src s) src || !isHome (hear src s) n) = true := by
    rw [show srcOk (hear src s) src = true from decide_eq_true hsrc, show isHome (hear src s) n = true from hhome]
    exact Bool.false_ne_true
  have hserves : ¬ (!unitServesOrHeld (hear src s)) = true := by
    rw [show unitServesOrHeld (hear src s) = true from unitServesOrHeld_of_serving hs]
    exact Bool.false_ne_true
  have hexec : exec (.leaseRenew src n stamp) s = .next (renewAtHome n stamp (hear src s)) := by
    show execLeaseRenew src n stamp s = _
    rw [execLeaseRenew, if_neg hknown, if_neg hserves]
  exact answers_of_next hexec (renewAtHome_renews (s := hear src s) hs hr htime)

/-- A host's register asks for a renewal. -/
theorem exec_hstLeaseRenew_taken {ld : Nat} {v : Word} (htn : ldTenant s ld = some n) (hv : v.getLsbD 0 = true)
    (ht : barTaken s ld = true) : exec (.hstLeaseRenew ld v stamp) s = .next (renew n stamp s) := by
  show execHstLeaseRenew ld v stamp s = _
  rw [execHstLeaseRenew, htn]
  exact congrArg _ (if_pos (by rw [hv, ht]; rfl))

theorem renew_at_home (hhome : isHome s n = true) : renew n stamp s = renewAtHome n stamp s := by
  rw [renew, hasTenant_of_isHome hhome, hhome]
  rfl

/-- Elsewhere a renewal goes to the home unit. -/
theorem renew_away (hn : hasTenant s.vq.active n = true) (hhome : isHome s n = false)
    (hreach : unreachable s (tenHome s.vq.active n) = false) :
    sentTo (renew n stamp s) (tenHome s.vq.active n) (.lease 0 stamp 0 0) := by
  rw [renew, hn, hhome]
  exact sendMsg_sent_of_reach rfl hreach

end

/-! ### Grants (R161) -/

section
variable {s : State} {n : Nat}

/-- The local lease after a grant of `e`, with the lease state of the time (R162). -/
def grantedLease (s : State) (n : Nat) (e : Ns) : Lease :=
  { leaseOf s n with
    expiry := e, granted := true, st := if now s + leaseGuard s.vq.active n < e then 1 else if now s < e then 2 else 3 }

theorem takeGrant_grants (n : Nat) (e : Ns) (s : State) : leaseOf (takeGrant n e s) n = grantedLease s n e := by
  unfold takeGrant
  extract_lets st bell u
  have hu : leaseOf u n = grantedLease s n e := leaseOf_onLease ..
  split
  · exact (leaseOf_of_ext (setDbTenant_ext ..) n).trans hu
  · exact hu

theorem takeGrant_sent {e : Ns} {d : Nat} {m : Msg} (hs : sentTo s d m) : sentTo (takeGrant n e s) d m := by
  unfold takeGrant
  extract_lets st bell u
  have hu : sentTo u d m := hs
  split
  · exact (setDbTenant_onward (.refl u)).sent hu
  · exact hu

/-- A grant of the home unit. -/
theorem leaseGrant_grants {src : Nat} {e : Ns} (hsrc : src < fabN s.vq.active) (hn : hasTenant s.vq.active n = true)
    (hhome : tenHome s.vq.active n = src) (hserves : unitServesOrHeld s = true) :
    Answers (.leaseGrant src n e) s fun t => leaseOf t n = grantedLease s n e := by
  have hknown : ¬ (!srcOk (hear src s) src || !hasTenant (hear src s).vq.active n || tenHome (hear src s).vq.active n != src) = true := by
    rw [show srcOk (hear src s) src = true from decide_eq_true hsrc, show hasTenant (hear src s).vq.active n = true from hn,
      show tenHome (hear src s).vq.active n = src from hhome, bne_self_eq_false]
    exact Bool.false_ne_true
  have htaken : (unitServesOrHeld (hear src s) || (hear src s).uni.st == .starting) = true := by
    rw [show unitServesOrHeld (hear src s) = true from hserves, Bool.true_or]
  have hexec : exec (.leaseGrant src n e) s = .next (takeGrant n e (hear src s)) := by
    show execLeaseGrant src n e s = _
    rw [execLeaseGrant, if_neg hknown, if_pos htaken]
  exact answers_of_next hexec (takeGrant_grants n e (hear src s))

theorem exec_leaseGrantDue_early {w : Ns} (hw : (leaseOf s n).window = some w) (h : now s < w) :
    exec (.leaseGrantDue n) s = .next s := by
  show execLeaseGrantDue n s = _
  rw [execLeaseGrantDue, hw]
  exact if_pos (.inl h)

/-- The grant at the end of the merging window. -/
theorem leaseGrantDue_grants {w : Ns} (hw : (leaseOf s n).window = some w) (hdue : w ≤ now s) (hhome : isHome s n = true) :
    Answers (.leaseGrantDue n) s fun t => (leaseOf t n).window = none ∧
      (∀ u ∈ leaseUnits s n, u ≠ me s → unreachable s u = false → sentTo t u (.lease 1 (leaseOf s n).homeE 0 0)) ∧
      (me s ∈ leaseUnits s n → (leaseOf t n).expiry = (leaseOf s n).homeE ∧ (leaseOf t n).granted = true) := by
  let v := onLease n (fun l => { l with window := none }) s
  let u := sendAll (leaseUnits s n) n (.lease 1 (leaseOf s n).homeE 0 0) v
  have hexec : exec (.leaseGrantDue n) s =
      .next (if (leaseUnits s n).contains (me u) then takeGrant n (leaseOf s n).homeE u else u) := by
    show execLeaseGrantDue n s = _
    rw [execLeaseGrantDue, hw]
    exact if_neg (by rw [hhome]; simp [Nat.not_lt.2 hdue])
  have hme : me u = me s := congrArg Vq.number (sendAll_same (b := .vq) _ _ _ v)
  have hwindow : (leaseOf u n).window = none :=
    congrArg Lease.window ((leaseOf_of_ext (sendAll_same (b := .ext) _ _ _ v) n).trans (leaseOf_onLease ..))
  have hsent (d : Nat) (hd : d ∈ leaseUnits s n) (hother : d ≠ me s) (hreach : unreachable s d = false) :
      sentTo u d (.lease 1 (leaseOf s n).homeE 0 0) := sendAll_sent (s := v) rfl hd hother hreach
  refine answers_of_next hexec ?_
  rw [hme]
  split
  · rw [takeGrant_grants]
    exact ⟨hwindow, fun d hd hother hreach => takeGrant_sent (hsent d hd hother hreach), fun _ => ⟨rfl, rfl⟩⟩
  · next habsent => exact ⟨hwindow, hsent, fun hmem => absurd (List.contains_iff_mem.2 hmem) habsent⟩

/-! ### The passing of E - g and of E (R162, R163) -/

/-- The state of a lease changes, and the doorbells of its tenant ring. -/
def leaseMoved (n st : Nat) (s : State) : State := setDbTenant n 6 (onLease n (fun l => { l with st := st }) s)

theorem leaseOf_leaseMoved (n st : Nat) (s : State) : leaseOf (leaseMoved n st s) n = { leaseOf s n with st := st } :=
  (leaseOf_of_ext (setDbTenant_ext ..) n).trans (leaseOf_onLease ..)

theorem exec_leaseGuardReached (hg : (leaseOf s n).granted = true) (hst : (leaseOf s n).st = 1) :
    exec (.leaseGuardReached n) s = .next (if leaseGuardAt s n ≤ now s then leaseMoved n 2 s else s) := by
  show execLeaseGuardReached n s = _
  simp only [execLeaseGuardReached, hg, hst, BEq.rfl, Bool.true_and, decide_eq_true_eq]
  split <;> rfl

theorem exec_leaseExpiry (hg : (leaseOf s n).granted = true) (hst : (leaseOf s n).st ≠ 3) :
    exec (.leaseExpiry n) s = .next (if (leaseOf s n).expiry ≤ now s then leaseMoved n 3 s else s) := by
  show execLeaseExpiry n s = _
  simp only [execLeaseExpiry, hg, bne_iff_ne.2 hst, Bool.true_and, decide_eq_true_eq]
  split <;> rfl

end

/-- Settles O25: renewals at the home unit and elsewhere, the end of a merging window, a grant of the home unit, and the passing of
E - g and of E. -/
theorem leaseWindows : Obligations.LeaseWindows := by
  unfold Obligations.LeaseWindows
  intro s n l renewed
  refine ⟨fun src stamp hsrc hhome hs hr htime => leaseRenew_renews hsrc hhome hs hr htime,
    fun ld v stamp htn hv ht => ?_, fun w hw => ?_, fun src e hsrc hn hhome hserves => leaseGrant_grants hsrc hn hhome hserves,
    fun hg hst => ?_, fun hg hst => ?_⟩
  case refine_1 =>
    have hexec := exec_hstLeaseRenew_taken (stamp := stamp) htn hv ht
    refine ⟨fun hhome hs hr htime => answers_of_next hexec ?_, fun hn hhome hreach => answers_of_next hexec (renew_away hn hhome hreach)⟩
    rw [renew_at_home hhome]
    exact renewAtHome_renews hs hr htime
  case refine_2 => exact ⟨exec_leaseGrantDue_early hw, fun hdue hhome => leaseGrantDue_grants hw hdue hhome⟩
  case refine_3 =>
    refine ⟨fun hdue => answers_of_next (exec_leaseGuardReached hg hst) ?_, fun hearly => ?_⟩
    · rw [if_pos hdue]
      exact ⟨leaseOf_leaseMoved n 2 s, fun ld hld htn => setDbTenant_sets (by decide) hld htn⟩
    · rw [exec_leaseGuardReached hg hst, if_neg (Nat.not_le.2 hearly)]
  case refine_4 =>
    refine ⟨fun hdue => answers_of_next (exec_leaseExpiry hg hst) ?_, fun hearly => ?_⟩
    · rw [if_pos hdue]
      exact leaseOf_leaseMoved n 3 s
    · rw [exec_leaseExpiry hg hst, if_neg (Nat.not_le.2 hearly)]
end Sys2Proof.Proofs
end

section
/-! What writing records, ending operators and going on with seals leave of the EXT block (R150, R156, R315, R318): the extents, the
snoop filter and the leases. Only the flows of Back-Invalidates, the progress of the seals and the manifests move on. -/

namespace Sys2Proof.Proofs

-- The lemmas of this file are checked one after another, with few threads at a time.
set_option Elab.async false

open Sys2Proof.Machine Sys2Proof.Safety Sys2Proof.Laws

/-- What names a seal: its extent, whether this unit coordinates it, and its operator. -/
def sealName (r : SealRun) : Nat × Bool × Nat × Nat × Nat := (r.ext, r.coordinator, r.ringUnit, r.ring, r.sqIndex)

/-- From `s` to `t` the EXT block is as it was but for the flows of Back-Invalidates, the manifests and the progress of the seals. -/
structure FlowsOnly (s t : State) : Prop where
  ext : t.ext = { s.ext with snoops := t.ext.snoops, seals := t.ext.seals, manifests := t.ext.manifests }
  seals : t.ext.seals.map sealName = s.ext.seals.map sealName

theorem FlowsOnly.refl (s : State) : FlowsOnly s s := ⟨rfl, rfl⟩

section
variable {s0 s t : State}

theorem FlowsOnly.trans (h : FlowsOnly s0 s) (g : FlowsOnly s t) : FlowsOnly s0 t where
  ext := by rw [g.ext, h.ext]
  seals := g.seals.trans h.seals

theorem FlowsOnly.exts (h : FlowsOnly s t) : t.ext.exts = s.ext.exts := by rw [h.ext]
theorem FlowsOnly.sf (h : FlowsOnly s t) : t.ext.sf = s.ext.sf := by rw [h.ext]
theorem FlowsOnly.leaving (h : FlowsOnly s t) : t.ext.leaving = s.ext.leaving := by rw [h.ext]

/-- An update of none of EXT. -/
theorem FlowsOnly.upd (h : FlowsOnly s0 s) (ht : t.ext = s.ext := by rfl) : FlowsOnly s0 t :=
  h.trans ⟨by rw [ht], by rw [ht]⟩

/-- An operation that leaves EXT as it is. -/
theorem FlowsOnly.of_kept {cv : List Block} (h : FlowsOnly s0 s) (hk : Kept cv s t) (he : .ext ∉ cv := by decide) : FlowsOnly s0 t :=
  h.upd (hk.frame .ext he)

theorem FlowsOnly.ite {a b : State} {p : Prop} [Decidable p] (ha : FlowsOnly s0 a) (hb : FlowsOnly s0 b) :
    FlowsOnly s0 (if p then a else b) := by
  split <;> assumption

theorem FlowsOnly.foldl {α : Type} {f : State → α → State} {l : List α} (h : FlowsOnly s0 s)
    (hf : ∀ u x, FlowsOnly s0 u → FlowsOnly s0 (f u x)) : FlowsOnly s0 (l.foldl f s) := by
  induction l generalizing s with
  | nil => exact h
  | cons x xs ih => exact ih (hf s x h)

theorem FlowsOnly.foldl_fst {α β : Type} {f : State × β → α → State × β} {l : List α} {p : State × β}
    (h : FlowsOnly s0 p.1) (hf : ∀ q x, FlowsOnly s0 q.1 → FlowsOnly s0 (f q x).1) : FlowsOnly s0 (l.foldl f p).1 := by
  induction l generalizing p with
  | nil => exact h
  | cons x xs ih => exact ih (hf p x h)

/-! ### Flows and records -/

theorem sendSnoop_ext (n a : Nat) (d : Bool) (h : Nat × Nat) (s : State) : (sendSnoop n a d h s).ext = s.ext :=
  (sendSnoop_kept n a d h s (.refl _ s) (covers_refl _)).frame .ext (by decide)

theorem startSnoop_flows {n a : Nat} {d : Bool} {l : List (Nat × Nat)} {c : SnoopCause} (h : FlowsOnly s0 s) :
    FlowsOnly s0 (startSnoop n a d l c s) :=
  FlowsOnly.ite h (FlowsOnly.foldl (h.trans ⟨rfl, rfl⟩) fun _ _ h => h.upd (sendSnoop_ext ..))

theorem startFill_flows {x : ExtRec} {g tile : Nat} (h : FlowsOnly s0 s) : FlowsOnly s0 (startFill x g tile s) :=
  h.of_kept (startFill_kept x g tile s (.refl _ s) (covers_refl _))

theorem bringRange_flows {n a len : Nat} {w : Bool} (h : FlowsOnly s0 s) : FlowsOnly s0 (bringRange n a len w s) := by
  unfold bringRange
  extract_lets u v
  have hu : FlowsOnly s0 u := h.foldl fun _ _ h => startSnoop_flows h
  have hv : FlowsOnly s0 v := hu.foldl fun p x hp => by
    split
    · exact startFill_flows hp
    · exact hp
  exact FlowsOnly.ite hv (hv.foldl fun p l hp => hp.of_kept (askLine_kept n l p (.refl _ p) (covers_refl _)))

theorem flushRecords_flows (h : FlowsOnly s0 s) : FlowsOnly s0 (flushRecords s) := by
  unfold flushRecords
  refine FlowsOnly.ite h (FlowsOnly.of_kept (FlowsOnly.foldl_fst h.upd fun p w hp => ?_) (ringsGone_kept _ (.refl _ _) (covers_refl _)))
  dsimp only
  split
  · exact hp.upd
  · split
    · exact hp.of_kept (discardRecords_kept w.1 1 p.1 (.refl _ p.1) (covers_refl _))
    · split
      · exact hp.upd
      · split
        · exact (bringRange_flows hp).of_kept (writeRecord_kept w.1 w.2.1 w.2.2 _ (.refl _ _) (covers_refl _))
        · exact (bringRange_flows hp).upd

/-! ### Operators -/

theorem retireOp_flows {o : Op} {v : RecVals} (h : FlowsOnly s0 s) : FlowsOnly s0 (retireOp o v s) := by
  unfold retireOp
  extract_lets rcd _ _ u w z
  have hw : FlowsOnly s0 w := FlowsOnly.ite (FlowsOnly.of_kept h.upd (raise_kept _ _ (.refl _ _) (covers_refl _))) h.upd
  have hz : FlowsOnly s0 z :=
    FlowsOnly.ite (flushRecords_flows hw.upd) (hw.of_kept (respond_kept _ _ _ _ w (.refl _ w) (covers_refl _)))
  exact (hz.of_kept (moveIntake_kept z (.refl _ z) (covers_refl _))).of_kept (releaseFences_kept _ (.refl _ _) (covers_refl _))

theorem abortOps_flows {p : Op → Bool} {c : Nat} (h : FlowsOnly s0 s) : FlowsOnly s0 (abortOps p c s) :=
  h.foldl fun _ _ h => FlowsOnly.ite (retireOp_flows h) h.upd

/-! ### Rings of an extent, and seals -/

theorem releaseHeld_flows {x : Nat} (h : FlowsOnly s0 s) : FlowsOnly s0 (releaseHeld x s) :=
  flushRecords_flows (h.foldl fun _ _ h => h.upd)

/-- A change of seals that leaves what names them. -/
theorem map_sealName {f : SealRun → SealRun} (hf : ∀ r, sealName (f r) = sealName r) (l : List SealRun) :
    (l.map f).map sealName = l.map sealName := by
  rw [List.map_map]
  exact List.map_congr_left fun r _ => hf r

theorem sealStore_flows {r : SealRun} {x : ExtRec} {m : Tbl (BitVec 32)} (h : FlowsOnly s0 s) : FlowsOnly s0 (sealStore r x m s) := by
  unfold sealStore
  extract_lets _ u v
  have hu : FlowsOnly s0 u :=
    h.trans ⟨rfl, map_sealName (f := fun y => if y.ext = r.ext then { y with done := true } else y) (fun y => by split <;> rfl) _⟩
  have hv : FlowsOnly s0 v := hu.foldl fun y p h => h.of_kept (commitTile_kept p.1 p.2 y (.refl _ y) (covers_refl _))
  exact hv.foldl fun y i h => FlowsOnly.of_kept (h.of_kept (stripeFor_kept _ _ _ y (.refl _ y) (covers_refl _)))
    (appendStripe_kept _ _ _ _ (.refl _ _) (covers_refl _))

theorem sealRest_flows {r : SealRun} (h : FlowsOnly s0 s) : FlowsOnly s0 (sealRest r s) := by
  unfold sealRest
  split
  · exact h
  · next x _ =>
    extract_lets u left sums
    have hu : FlowsOnly s0 u := h.of_kept (flushRange_kept _ _ _ s (.refl _ s) (covers_refl _))
    split
    · exact sealStore_flows hu
    · have hv : FlowsOnly s0 { u with ext := { u.ext with
          seals := u.ext.seals.map fun x => if x.ext = r.ext then { x with sums := sums } else x } } :=
        hu.trans ⟨rfl, map_sealName (f := fun y => if y.ext = r.ext then { y with sums := sums } else y) (fun y => by split <;> rfl) _⟩
      exact hv.foldl fun _ _ h => startFill_flows h

theorem sealsGo_flows (h : FlowsOnly s0 s) : FlowsOnly s0 (sealsGo s) := h.foldl fun _ _ h => sealRest_flows h

end
end Sys2Proof.Proofs
end

section
/-! Back-Invalidates for an LD here and their answers (R123, R154, R156, R159, R274): the hold that ends in the snoop filter, and the
BIConflicts. -/

namespace Sys2Proof.Proofs

open Sys2Proof.Machine Sys2Proof.Safety Sys2Proof.Laws

/-! ### Units that are heard -/

section
variable {s : State} {src : Nat}

theorem servedHere_of_serves (h : unitServesOrHeld s = true) (k : State → State) : servedHere src k s = k s := if_pos h

theorem srcOk_hear_of_lt (h : src < fabN s.vq.active) : srcOk (hear src s) src = true := decide_eq_true h

/-- A peer's answer to a request of this unit is taken up with its request. -/
theorem peerResponse_of_outReq {tag op : Nat} {o : Outst} (hsrc : src < fabN s.vq.active) (ho : outReq s tag = some o)
    (k : Outst → State → State) : peerResponse src tag op true k s = k o (hear src s) := by
  have hknown : ¬ (!srcOk (hear src s) src || !true) = true := by simp [srcOk_hear_of_lt hsrc]
  rw [peerResponse, if_neg hknown, show outReq (hear src s) tag = some o from ho]

end

/-! ### `BISNP` for an LD here (R123, R274) -/

/-- A Back-Invalidate of a peer that is kept until its LD answers. -/
def passOn (p : Passed) (s : State) : State :=
  dupOpen p.src p.tag { hear p.src s with ext := { s.ext with passed := s.ext.passed ++ [p] } }

theorem exec_bisnp {s : State} {src tag tn addr ld : Nat} {data : Bool} (hserves : unitServesOrHeld s = true)
    (hsrc : src < fabN s.vq.active) (hld : ld < 256) (hdup : dupOf s src tag = none) :
    let u := passOn { src := src, tag := tag, tenant := tn, addr := addr, data := data, ld := ld } s
    exec (.bisnp src tag tn addr data ld) s = .next (if linkUsable (linkOf s.hst (ld / 16)) then emit (.bisnp ld addr data) u
      else onLink (ld / 16) (fun k => { k with waiting := k.waiting ++ [(ld, addr, data)] }) u) := by
  have hknown : ¬ (!srcOk (hear src s) src || decide (256 ≤ ld)) = true := by
    rw [srcOk_hear_of_lt hsrc, decide_eq_false (Nat.not_le.2 hld)]
    exact Bool.false_ne_true
  show execBisnp src tag tn addr data ld s = _
  rw [execBisnp, servedHere_of_serves hserves]
  dsimp only
  rw [if_neg hknown, show dupOf (hear src s) src tag = none from hdup]
  rfl

/-! ### The hold of an LD on a line (R154, R156) -/

section
variable {x : Machine.Ext} {n a : Nat} {f : SfEntry}

theorem key_of_sfFind (h : sfFind x n a = some f) : f.tenant = n ∧ f.addr = a := by
  simpa using List.find?_some h

theorem sfFind_eq_none_iff : sfFind x n a = none ↔ ∀ e ∈ x.sf, ¬ (e.tenant = n ∧ e.addr = a) := by
  simp [sfFind, List.find?_eq_none]

theorem sfFind_sfDrop_same (n a : Nat) (x : Machine.Ext) : sfFind (sfDrop n a x) n a = none := by
  rw [sfFind_eq_none_iff]
  intro e he
  simpa [sfDrop, imp_iff_not_or] using (List.mem_filter.1 he).2

theorem sfFind_of_sf {y : Machine.Ext} (h : y.sf = x.sf) (n a : Nat) : sfFind y n a = sfFind x n a := by
  rw [sfFind, h, ← sfFind]

end

section
variable {s : State} {n a : Nat}

/-- The answer of the only holder of a line frees its entry. -/
theorem sfFind_snoopAnswer_invalid {f : SfEntry} {h : Nat × Nat} (hf : sfFind s.ext n a = some f) (hh : f.holders = [h])
    (hb : f.broad = false) : sfFind (snoopAnswer n a h .invalid s).ext n a = none := by
  have hlast : ((f.holders.filter (· != h)).isEmpty && !f.broad) = true := by simp [hh, hb]
  unfold snoopAnswer
  dsimp only
  rw [hf]
  dsimp only
  rw [if_pos hlast]
  exact sfFind_sfDrop_same n a s.ext

/-- The answer of a holder that keeps the line shared makes its entry S. -/
theorem sfFind_snoopAnswer_shared {f : SfEntry} (h : Nat × Nat) (hf : sfFind s.ext n a = some f) :
    sfFind (snoopAnswer n a h .shared s).ext n a = some { f with excl := false } := by
  obtain ⟨rfl, rfl⟩ := key_of_sfFind hf
  unfold snoopAnswer
  dsimp only
  rw [hf]
  exact sfFind_sfPut { f with excl := false } s.ext

theorem snoopAnswer_no_snoops (h : Nat × Nat) (ans : SnoopAns) (hs : s.ext.snoops = []) :
    (snoopAnswer n a h ans s).ext.snoops = [] := by
  unfold snoopAnswer
  dsimp only
  rw [List.map_eq_nil_iff]
  split
  · exact hs
  · split
    · split <;> exact hs
    · exact hs

/-! ### What follows an answer (R156, R315) -/

theorem sf_foldl_subset {α : Type} {f : Machine.Ext → α → Machine.Ext} (hf : ∀ x n, (f x n).sf ⊆ x.sf) (l : List α)
    (x : Machine.Ext) : (l.foldl f x).sf ⊆ x.sf := by
  induction l generalizing x with
  | nil => exact List.Subset.refl _
  | cons n l ih => exact List.Subset.trans (ih _) (hf x n)

/-- The end of flows only takes entries out of the filter. -/
theorem sf_snoopsDone_subset (s : State) : (snoopsDone s).ext.sf ⊆ s.ext.sf := by
  refine sf_foldl_subset (fun x n => ?_) (s.ext.snoops.filter fun n => n.waiting.isEmpty) s.ext
  split
  · exact List.Subset.refl _
  · split
    · exact List.Subset.refl _
    · exact List.filter_subset_self _

theorem settleSnoops_of_no_reqs (h : s.hst.reqs = []) : (settleSnoops s).ext = (snoopsDone s).ext := by
  rw [settleSnoops, resumeWhere, show (snoopsDone s).hst.reqs = [] from h]
  rfl

/-- With no request waiting, what follows an answer takes no more from the filter than the flows that are over. -/
theorem sf_afterSnoops (h : s.hst.reqs = []) : (afterSnoops s).ext.sf = (snoopsDone s).ext.sf := by
  rw [afterSnoops, (flushRecords_flows (sealsGo_flows (.refl (settleSnoops s)))).sf, settleSnoops_of_no_reqs h]

theorem sfFind_afterSnoops_none (h : s.hst.reqs = []) (hn : sfFind s.ext n a = none) : sfFind (afterSnoops s).ext n a = none := by
  rw [sfFind_of_sf (sf_afterSnoops h)]
  exact sfFind_eq_none_iff.2 fun e he => sfFind_eq_none_iff.1 hn e (sf_snoopsDone_subset s he)

/-- Without flows the filter stays as the answer left it. -/
theorem sf_afterSnoops_of_no_snoops (h : s.hst.reqs = []) (hs : s.ext.snoops = []) : (afterSnoops s).ext.sf = s.ext.sf := by
  rw [sf_afterSnoops h, snoopsDone, hs]
  rfl

theorem respond_ext (d tag n : Nat) (m : Msg) (s : State) : (respond d tag n m s).ext = s.ext :=
  (respond_kept d tag n m s (.refl _ s) (covers_refl _)).frame .ext (by decide)

/-- An answer that is final leaves the filter as its own part and what follows it leave it. -/
theorem sf_finalRsp (ld n a : Nat) (ans : SnoopAns) (s : State) :
    (finalRsp ld n a ans s).ext.sf = (afterSnoops (snoopAnswer n a (me s, ld) ans s)).ext.sf := by
  unfold finalRsp
  extract_lets u
  split
  · rfl
  · rw [respond_ext]

end

/-! ### The answers of hosts and of peers, and BIConflicts (R159) -/

section
variable {s : State} {ld addr n : Nat}

theorem exec_hostBirsp_held {ans : SnoopAns} {stamp : Ns} (hn : ldTenant s ld = some n)
    (hw : earlierWrites s ld n (addr / 64 * 64) stamp = true) : exec (.hostBirsp ld addr ans stamp) s =
      .next { s with ext := { s.ext with heldRsp := s.ext.heldRsp ++ [(ld, n, addr / 64 * 64, ans, stamp)] } } := by
  show execHostBirsp ld addr ans stamp s = _
  rw [execHostBirsp, hn]
  exact if_pos hw

theorem exec_hostBirsp_final {ans : SnoopAns} {stamp : Ns} (hn : ldTenant s ld = some n)
    (hw : earlierWrites s ld n (addr / 64 * 64) stamp = false) :
    exec (.hostBirsp ld addr ans stamp) s = .next (finalRsp ld n (addr / 64 * 64) ans s) := by
  show execHostBirsp ld addr ans stamp s = _
  rw [execHostBirsp, hn]
  exact if_neg (Bool.eq_false_iff.1 hw)

theorem exec_birsp {src tag a : Nat} {ans : SnoopAns} {o : Outst} {data : Bool} (hserves : unitServesOrHeld s = true)
    (hsrc : src < fabN s.vq.active) (ho : outReq s tag = some o) (hm : o.env.msg = .bisnp a data ld) (hn : o.env.tenant = n) :
    exec (.birsp src tag n a ans) s = .next (afterSnoops (snoopAnswer n a (src, ld) ans (dropReq tag (hear src s)))) := by
  show execBirsp src tag n a ans s = _
  rw [execBirsp, servedHere_of_serves hserves, peerResponse_of_outReq hsrc ho, hm]
  exact congrArg _ (if_pos ⟨rfl, hn⟩)

/-- A BIConflict that waits for the crossing write. -/
def conflictWaits (c : Nat × Nat × Nat) (s : State) : State := { s with ext := { s.ext with conflicts := [c] } }

theorem rspGo_conflictWaits {c : Nat × Nat × Nat} (hheld : s.ext.heldRsp = []) (hnone : s.ext.conflicts = []) :
    rspGo (conflictWaits c s) =
      if earlierWrites s c.1 c.2.1 c.2.2 (now s + 1) then conflictWaits c s else emit (.biConflictAck c.1 c.2.2) s := by
  have hwrites : earlierWrites (conflictWaits c s) c.1 c.2.1 c.2.2 (now (conflictWaits c s) + 1) =
      earlierWrites s c.1 c.2.1 c.2.2 (now s + 1) := rfl
  have hext : { s.ext with conflicts := [] } = s.ext := by rw [← hnone]
  rw [rspGo, show (conflictWaits c s).ext.heldRsp = [] from hheld, List.filter_nil, List.foldl_nil,
    show (conflictWaits c s).ext.conflicts = [c] from rfl, List.filter_singleton, hwrites]
  cases earlierWrites s c.1 c.2.1 c.2.2 (now s + 1) with
  | true => rfl
  | false =>
    show emit (.biConflictAck c.1 c.2.2) { s with ext := { s.ext with conflicts := [c].filter (· != c) } } = _
    rw [List.filter_singleton, bne_self_eq_false]
    exact congrArg (fun e => emit (.biConflictAck c.1 c.2.2) { s with ext := e }) hext

theorem exec_biConflict (hn : ldTenant s ld = some n) (hnone : s.ext.conflicts = []) :
    exec (.biConflict ld addr) s = .next (rspGo (conflictWaits (ld, n, addr / 64 * 64) s)) := by
  show execBiConflict ld addr s = _
  rw [execBiConflict, hn]
  show Host.Outcome.next (rspGo { s with ext := { s.ext with conflicts := addNew (ld, n, addr / 64 * 64) s.ext.conflicts } }) = _
  rw [hnone]
  rfl

/-- With nothing else waiting, a BIConflict is acknowledged at once. -/
theorem exec_biConflict_acked (hn : ldTenant s ld = some n) (hheld : s.ext.heldRsp = []) (hnone : s.ext.conflicts = [])
    (hw : earlierWrites s ld n (addr / 64 * 64) (now s + 1) = false) :
    exec (.biConflict ld addr) s = .next { s with out := .biConflictAck ld (addr / 64 * 64) :: s.out } := by
  rw [exec_biConflict hn hnone, rspGo_conflictWaits hheld hnone]
  exact congrArg _ (if_neg (Bool.eq_false_iff.1 hw))

theorem exec_biConflict_waits (hn : ldTenant s ld = some n) (hheld : s.ext.heldRsp = []) (hnone : s.ext.conflicts = [])
    (hw : earlierWrites s ld n (addr / 64 * 64) (now s + 1) = true) : exec (.biConflict ld addr) s =
      .next { s with ext := { s.ext with conflicts := [(ld, n, addr / 64 * 64)] } } := by
  rw [exec_biConflict hn hnone, rspGo_conflictWaits hheld hnone]
  exact congrArg _ (if_pos hw)

end

/-- Settles O28: a Back-Invalidate passed to an LD here, the answers of hosts and of peers, and BIConflicts. -/
theorem backInvalidateAnswers : Obligations.BackInvalidateAnswers := by
  unfold Obligations.BackInvalidateAnswers
  refine ⟨fun s src tag tn addr data ld hserves hsrc hld hdup => ?_, fun s ld addr tn ans stamp f htn => ?_,
    fun s src tag tn a o data ld f hserves hsrc ho hm hn hf hh hb hreqs => ?_, fun s ld addr tn htn hheld hnone => ?_⟩
  case refine_1 =>
    refine answers_of_next (exec_bisnp hserves hsrc hld hdup) ?_
    split
    · next hup =>
      exact ⟨List.mem_append_right _ (.head _), fun _ => rfl, fun hdown => absurd hup (Bool.eq_false_iff.1 hdown)⟩
    · next hdown =>
      refine ⟨List.mem_append_right _ (.head _), fun hup => absurd hup hdown, fun _ => ⟨rfl, ?_⟩⟩
      rw [linkOf_onLink_same]
      exact List.mem_append_right _ (.head _)
  case refine_2 =>
    refine ⟨fun hw => exec_hostBirsp_held htn hw, fun hw hf hh hb hreqs => ⟨answers_of_next (exec_hostBirsp_final htn hw) ?_,
      fun hsnoops hseals => answers_of_next (exec_hostBirsp_final htn hw) ?_⟩⟩
    · rw [sfFind_of_sf (sf_finalRsp ..)]
      exact sfFind_afterSnoops_none hreqs (sfFind_snoopAnswer_invalid hf hh hb)
    · rw [sfFind_of_sf (sf_finalRsp ..), sfFind_of_sf (sf_afterSnoops_of_no_snoops ?_ ?_)]
      · exact sfFind_snoopAnswer_shared _ hf
      · exact hreqs
      · exact snoopAnswer_no_snoops _ _ hsnoops
  case refine_3 =>
    refine answers_of_next (exec_birsp hserves hsrc ho hm hn) (sfFind_afterSnoops_none hreqs ?_)
    exact sfFind_snoopAnswer_invalid (s := dropReq tag (hear src s)) hf hh hb
  case refine_4 => exact ⟨exec_biConflict_acked htn hheld hnone, exec_biConflict_waits htn hheld hnone⟩

end Sys2Proof.Proofs
end

section
/-! The reclaim of a lease (R163, R165, R166, R172, Table 8.6): what the home unit sends at E + g, what a unit does that hears of it, its
reports, and the states that the extents take. -/

namespace Sys2Proof.Proofs

open Sys2Proof.Machine Sys2Proof.Safety Sys2Proof.Laws

/-! ### A unit's own part (R166 steps 2 to 4) -/

/-- The lease of a tenant once this unit has done its part of a reclaim. -/
def leaseEnded (l : Lease) : Lease := { l with owed := false, granted := false, st := 3 }

theorem extView_of_vq_leaving {s t : State} (hvq : t.vq = s.vq) (hl : t.ext.leaving = s.ext.leaving) : extView t = extView s := by
  rw [extView, hvq, hl, oldTiering, hvq]
  rfl

section
variable {s : State} {n : Nat}

theorem abortOps_vq (p : Op → Bool) (c : Nat) (s : State) : (abortOps p c s).vq = s.vq :=
  (abortOps_kept p c s (.refl _ s) (covers_refl _)).frame .vq (by decide)

theorem afterSnoops_vq (s : State) : (afterSnoops s).vq = s.vq :=
  (afterSnoops_kept s (.refl _ s) (covers_refl _)).frame .vq (by decide)

theorem carryOut_vq (n : Nat) (s : State) : (carryOut n s).vq = s.vq :=
  (carryOut_kept n s (.refl _ s) (covers_refl _)).frame .vq (by decide)

theorem reportReclaim_vq (n : Nat) (counts : List (Nat × Nat × Bool)) (s : State) : (reportReclaim n counts s).vq = s.vq :=
  (reportReclaim_kept n counts s (.refl _ s) (covers_refl _)).frame .vq (by decide)

theorem carryOut_ends (n : Nat) (s : State) : ∃ u counts, Onward s u ∧
    ((∀ e ∈ extRecs (extView s), e.tenant ≠ n) → counts = []) ∧ carryOut n s = reportReclaim n counts (onLease n leaseEnded u) := by
  unfold carryOut
  extract_lets u _ v es r
  have hu : Onward s u := abortOps_onward (.refl s)
  have hflows : FlowsOnly s u := abortOps_flows (.refl s)
  have hvq : u.vq = s.vq := abortOps_vq _ _ s
  have hr : Onward s r.1 := by
    refine Onward.foldl_fst hu.upd fun p e hp => ?_
    dsimp only
    split
    · split
      · exact orphanExtent_onward (abandonSeal_onward hp)
      · exact abandonSeal_onward hp
    · split
      · dsimp only
        exact releaseDone_onward (Onward.foldl hp fun _ _ h => Onward.ite (forceRemove_onward h) h)
      · exact hp
  have hview : extView v = extView s := extView_of_vq_leaving (t := v) hvq hflows.leaving
  refine ⟨afterSnoops r.1, r.2, afterSnoops_onward hr, fun hnone => ?_, rfl⟩
  have hes : es = [] := by
    refine List.filter_eq_nil_iff.2 fun e he => ?_
    rw [hview] at he
    simp [hnone e he]
  exact congrArg (fun l => (List.foldl _ (v, []) l).2) hes

/-- A unit's part of a reclaim ends with the end of its lease and its report, of nothing where the tenant has no extent. -/
theorem carryOut_reports (n : Nat) (s : State) : ∃ u counts, Onward s u ∧ u.vq = s.vq ∧
    ((∀ e ∈ extRecs (extView s), e.tenant ≠ n) → counts = []) ∧ carryOut n s = reportReclaim n counts (onLease n leaseEnded u) := by
  obtain ⟨u, counts, hu, hcounts, hcarry⟩ := carryOut_ends n s
  have hvq := carryOut_vq n s
  rw [hcarry, reportReclaim_vq] at hvq
  exact ⟨u, counts, hu, hvq, hcounts, hcarry⟩

/-- Elsewhere than at the home unit the report of no extent is one message. -/
theorem reportReclaim_away (hhome : isHome s n = false) : reportReclaim n [] s =
    sendMsg (tenHome s.vq.active n) s.wrn.nextTag n (.lease 3 (leaseOf s n).reclaimAt 0xFFFF 0)
      { s with wrn := { s.wrn with nextTag := (s.wrn.nextTag + 1) % 2 ^ 32 } } :=
  if_neg (Bool.eq_false_iff.1 hhome)

/-- The home unit's own report. -/
theorem reportReclaim_home (hhome : isHome s n = true) (counts : List (Nat × Nat × Bool)) : reportReclaim n counts s =
    onLease n (fun l => { l with
      awaiting := l.awaiting.filter (· != me s)
      orphans := counts.foldl (fun o c => tinc c.1 c.2.1 o) l.orphans
      abandoned := (counts.filter (·.2.2)).foldl (fun a c => addNew c.1 a) l.abandoned }) s :=
  if_pos hhome

/-- While a unit is awaited, a reclaim does not end. -/
theorem concludeReclaim_of_awaited {u : Nat} (hu : u ∈ (leaseOf s n).awaiting) : concludeReclaim n s = s := by
  unfold concludeReclaim
  extract_lets l
  exact if_pos (by simp [l, List.ne_nil_of_mem hu])

end

/-! ### E + g at the home unit -/

/-- From `s` to `t` the reclaim of a tenant goes on: every other unit that was awaited still is, and what is on its way stays so. -/
structure ReclaimRuns (n : Nat) (s t : State) : Prop where
  reclaiming : (leaseOf t n).reclaiming = (leaseOf s n).reclaiming
  reclaimAt : (leaseOf t n).reclaimAt = (leaseOf s n).reclaimAt
  window : (leaseOf t n).window = (leaseOf s n).window
  undelivered : (leaseOf t n).undelivered = (leaseOf s n).undelivered
  awaiting : ∀ u ∈ (leaseOf s n).awaiting, u ≠ me s → u ∈ (leaseOf t n).awaiting
  sent : ∀ d m, sentTo s d m → sentTo t d m

theorem reclaimTry_runs {s : State} {n : Nat} (hhome : isHome s n = true) : ReclaimRuns n s (reclaimTry n s) := by
  unfold reclaimTry
  split
  · obtain ⟨u, counts, hu, hvq, -, hcarry⟩ := carryOut_reports n s
    have hhome' : isHome (onLease n leaseEnded u) n = true := by
      simpa only [isHome, me, onLease, hvq] using hhome
    have hended : leaseOf (onLease n leaseEnded u) n = leaseEnded (leaseOf s n) := by rw [leaseOf_onLease, hu.leaseOf]
    have hme : me (onLease n leaseEnded u) = me s := congrArg Vq.number hvq
    rw [hcarry, reportReclaim_home hhome']
    constructor
    case awaiting =>
      intro d hd hother
      rw [leaseOf_onLease, hended, hme]
      exact List.mem_filter.2 ⟨hd, bne_iff_ne.2 hother⟩
    case sent => exact fun d m hs => hu.sent hs
    all_goals
      rw [leaseOf_onLease, hended]
      rfl
  · exact ⟨rfl, rfl, rfl, rfl, fun _ hu _ => hu, fun _ _ hs => hs⟩

section
variable {s : State} {n : Nat}

/-- The home unit's record of a lease whose reclaim begins. -/
def reclaimBegun (s : State) (n : Nat) : Lease :=
  { leaseOf s n with
    reclaiming := true
    awaiting := (leaseUnits s n).filter fun u => u == me s || !unreachable s u
    undelivered := (leaseUnits s n).filter fun u => u != me s && unreachable s u
    reclaimAt := (leaseOf s n).homeE + leaseGuard s.vq.active n
    orphans := [], abandoned := [], window := none
    owed := ((leaseUnits s n).filter fun u => u == me s || !unreachable s u).contains (me s) }

/-- The reclaim begins: every unit that can be reached is told. -/
def tellReclaim (n : Nat) (s : State) : State :=
  sendAll ((leaseUnits s n).filter fun u => u == me s || !unreachable s u) n (.lease 2 ((leaseOf s n).homeE + leaseGuard s.vq.active n) 0 0)
    (onLease n (fun _ => reclaimBegun s n) s)

theorem exec_leaseReclaimTimer_early (h : now s < (leaseOf s n).homeE + leaseGuard s.vq.active n) :
    exec (.leaseReclaimTimer n) s = .next s :=
  if_pos (by rw [decide_eq_true h, Bool.or_true])

theorem exec_leaseReclaimTimer_due (hhome : isHome s n = true) (hrun : (leaseOf s n).homeRunning = true)
    (hr : (leaseOf s n).reclaiming = false) (hdue : (leaseOf s n).homeE + leaseGuard s.vq.active n ≤ now s) :
    exec (.leaseReclaimTimer n) s = .next (concludeReclaim n (reclaimTry n (tellReclaim n s))) := by
  have hgo : ¬ (!isHome s n || !(leaseOf s n).homeRunning || (leaseOf s n).reclaiming ||
      decide (now s < (leaseOf s n).homeE + leaseGuard s.vq.active n)) = true := by
    rw [hhome, hrun, hr, decide_eq_false (Nat.not_lt.2 hdue)]
    exact Bool.false_ne_true
  exact if_neg hgo

theorem leaseOf_tellReclaim (n : Nat) (s : State) : leaseOf (tellReclaim n s) n = reclaimBegun s n :=
  (leaseOf_of_ext (sendAll_same (b := .ext) _ _ _ _) n).trans (leaseOf_onLease n _ s)

/-- At E + g every unit concerned is told and awaited, or kept as one to be told. -/
theorem leaseReclaimTimer_tells (hhome : isHome s n = true) (hrun : (leaseOf s n).homeRunning = true)
    (hr : (leaseOf s n).reclaiming = false) (hdue : (leaseOf s n).homeE + leaseGuard s.vq.active n ≤ now s)
    (hother : ∃ u ∈ leaseUnits s n, u ≠ me s ∧ unreachable s u = false) :
    Answers (.leaseReclaimTimer n) s fun t => (leaseOf t n).reclaiming = true ∧
      (leaseOf t n).reclaimAt = (leaseOf s n).homeE + leaseGuard s.vq.active n ∧ (leaseOf t n).window = none ∧
      ∀ u ∈ leaseUnits s n, u ≠ me s →
        if unreachable s u then u ∈ (leaseOf t n).undelivered
        else u ∈ (leaseOf t n).awaiting ∧ sentTo t u (.lease 2 ((leaseOf s n).homeE + leaseGuard s.vq.active n) 0 0) := by
  have hvq : (tellReclaim n s).vq = s.vq := sendAll_same (b := .vq) _ _ _ _
  have hruns : ReclaimRuns n (tellReclaim n s) (reclaimTry n (tellReclaim n s)) :=
    reclaimTry_runs (by simpa only [isHome, me, hvq] using hhome)
  have hnear {u : Nat} (hu : u ∈ leaseUnits s n) (hreach : unreachable s u = false) :
      u ∈ (leaseUnits s n).filter fun u => u == me s || !unreachable s u := List.mem_filter.2 ⟨hu, by simp [hreach]⟩
  have hawaited {u : Nat} (hu : u ∈ leaseUnits s n) (hne : u ≠ me s) (hreach : unreachable s u = false) :
      u ∈ (leaseOf (reclaimTry n (tellReclaim n s)) n).awaiting := by
    refine hruns.awaiting u ?_ (by rwa [me, hvq])
    rw [leaseOf_tellReclaim]
    exact hnear hu hreach
  obtain ⟨v, hv, hvne, hvreach⟩ := hother
  refine answers_of_next (exec_leaseReclaimTimer_due hhome hrun hr hdue) ?_
  rw [concludeReclaim_of_awaited (hawaited hv hvne hvreach), hruns.reclaiming, hruns.reclaimAt, hruns.window, hruns.undelivered,
    leaseOf_tellReclaim]
  refine ⟨rfl, rfl, rfl, fun u hu hne => ?_⟩
  split
  · next hfar => exact List.mem_filter.2 ⟨hu, by simp [hne, hfar]⟩
  · next hreach =>
    rw [Bool.not_eq_true] at hreach
    have htold : sentTo (tellReclaim n s) u (.lease 2 ((leaseOf s n).homeE + leaseGuard s.vq.active n) 0 0) :=
      sendAll_sent (s := onLease n (fun _ => reclaimBegun s n) s) rfl (hnear hu hreach) hne hreach
    exact ⟨hawaited hu hne hreach, hruns.sent _ _ htold⟩

/-! ### A unit that hears the reclaim (R165) -/

/-- The lease of a tenant at a unit that has heard the reclaim. -/
def reclaimHeard (src n : Nat) (t : Ns) (s : State) : State := onLease n (fun l => { l with owed := true, reclaimAt := t }) (hear src s)

theorem exec_leaseReclaim {src : Nat} {t : Ns} (hsrc : src < fabN s.vq.active) (hn : hasTenant s.vq.active n = true)
    (hhome : tenHome s.vq.active n = src) (hserves : unitServesOrHeld s = true) :
    exec (.leaseReclaim src n t) s = .next (reclaimTry n (reclaimHeard src n t s)) := by
  have hknown : ¬ (!srcOk (hear src s) src || !hasTenant (hear src s).vq.active n || tenHome (hear src s).vq.active n != src) = true := by
    rw [srcOk_hear_of_lt hsrc, show hasTenant (hear src s).vq.active n = true from hn,
      show tenHome (hear src s).vq.active n = src from hhome, bne_self_eq_false]
    exact Bool.false_ne_true
  have htaken : (unitServesOrHeld (hear src s) || (hear src s).uni.st == .starting) = true := by
    rw [show unitServesOrHeld (hear src s) = true from hserves, Bool.true_or]
  show execLeaseReclaim src n t s = _
  rw [execLeaseReclaim, if_neg hknown, if_pos htaken]
  rfl

theorem leaseOf_reclaimHeard (src : Nat) (t : Ns) :
    leaseOf (reclaimHeard src n t s) n = { leaseOf s n with owed := true, reclaimAt := t } :=
  leaseOf_onLease n _ (hear src s)

theorem reclaimTry_owed (ho : (leaseOf s n).owed = true) : reclaimTry n s = if pendingWrites s n then s else carryOut n s := by
  rw [reclaimTry, ho]
  cases pendingWrites s n <;> rfl

/-- With an accepted write of the tenant left the reclaim is owed. -/
theorem reclaimTry_heard_owed {src : Nat} {t : Ns} (hw : pendingWrites s n = true) :
    reclaimTry n (reclaimHeard src n t s) = reclaimHeard src n t s := by
  rw [reclaimTry_owed (congrArg Lease.owed (leaseOf_reclaimHeard src t))]
  exact if_pos hw

/-- Without one, and with no extent of the tenant, the lease is over and the home unit has its report. -/
theorem reclaimTry_heard_reports {src : Nat} {t : Ns} (hw : pendingWrites s n = false) (hnone : ∀ e ∈ extRecs (extView s), e.tenant ≠ n)
    (hhome : tenHome s.vq.active n = src) (hother : src ≠ me s) (hport : (outPort s src).isSome = true) :
    leaseOf (reclaimTry n (reclaimHeard src n t s)) n = { leaseOf s n with owed := false, granted := false, st := 3, reclaimAt := t } ∧
      sentTo (reclaimTry n (reclaimHeard src n t s)) src (.lease 3 t 0xFFFF 0) := by
  rw [reclaimTry_owed (congrArg Lease.owed (leaseOf_reclaimHeard src t)),
    if_neg (show ¬ pendingWrites (reclaimHeard src n t s) n = true from Bool.eq_false_iff.1 hw)]
  obtain ⟨u, counts, hu, hvq, hcounts, hcarry⟩ := carryOut_reports n (reclaimHeard src n t s)
  have hnone' : counts = [] := hcounts hnone
  have hvq' : u.vq = s.vq := hvq
  have haway : isHome (onLease n leaseEnded u) n = false := by
    simp only [isHome, me, onLease, hvq', hhome, Bool.and_eq_false_imp, beq_eq_false_iff_ne]
    exact fun _ => hother
  have hended : leaseOf (onLease n leaseEnded u) n = { leaseOf s n with owed := false, granted := false, st := 3, reclaimAt := t } := by
    rw [leaseOf_onLease, hu.leaseOf, leaseOf_reclaimHeard]
    rfl
  rw [hcarry, hnone', reportReclaim_away haway, hended]
  have hdst : tenHome (onLease n leaseEnded u).vq.active n = src := by
    show tenHome u.vq.active n = src
    rw [hvq', hhome]
  rw [hdst]
  refine ⟨(leaseOf_of_ext ?_ n).trans hended, sendMsg_sent rfl ?_ ?_⟩
  · exact (sendMsg_kept _ _ _ _ _ (.refl _ _) (covers_refl _)).frame .ext (by decide)
  · exact (congrArg Option.isSome (hu.outPort hvq src)).trans hport
  · show src ∉ u.wrn.unreachable
    rw [hu.unreachable]
    exact not_mem_hear_unreachable src s

/-! ### Reports (R166) -/

section
variable {src x k : Nat}

/-- At the home unit a report of a unit that is awaited is counted. -/
theorem exec_leaseReport_home {last ab : Bool} (hsrc : src < fabN s.vq.active) (hserves : unitServesOrHeld s = true)
    (hhome : isHome s n = true) (hr : (leaseOf s n).reclaiming = true) (hawaited : src ∈ (leaseOf s n).awaiting) :
    exec (.leaseReport src n x k last ab) s = .next (concludeReclaim n (onLease n (fun l => { l with
      orphans := tinc x k l.orphans
      abandoned := if ab then addNew x l.abandoned else l.abandoned
      awaiting := if last then l.awaiting.filter (· != src) else l.awaiting }) (hear src s))) := by
  have hknown : ¬ (!srcOk (hear src s) src || !hasTenant (hear src s).vq.active n) = true := by
    rw [srcOk_hear_of_lt hsrc, show hasTenant (hear src s).vq.active n = true from hasTenant_of_isHome hhome]
    exact Bool.false_ne_true
  have hup : ¬ (!unitServesOrHeld (hear src s)) = true := by
    rw [show unitServesOrHeld (hear src s) = true from hserves]
    exact Bool.false_ne_true
  have hopen : ¬ (!(leaseOf (hear src s) n).reclaiming || !(leaseOf (hear src s) n).awaiting.contains src) = true := by
    rw [show (leaseOf (hear src s) n).reclaiming = true from hr,
      show (leaseOf (hear src s) n).awaiting.contains src = true from List.contains_iff_mem.2 hawaited]
    exact Bool.false_ne_true
  show execLeaseReport src n x k last ab s = _
  rw [execLeaseReport, if_neg hknown, if_neg hup, if_pos (show isHome (hear src s) n = true from hhome), if_neg hopen]

/-- Elsewhere the home unit's report gives the extent its state. -/
theorem exec_leaseReport_away {last ab : Bool} (hsrc : src < fabN s.vq.active) (hserves : unitServesOrHeld s = true)
    (haway : isHome s n = false) (hn : hasTenant s.vq.active n = true) (hhome : tenHome s.vq.active n = src) :
    exec (.leaseReport src n x k last ab) s = .next (reclaimState x k ab (hear src s)) := by
  have hknown : ¬ (!srcOk (hear src s) src || !hasTenant (hear src s).vq.active n) = true := by
    rw [srcOk_hear_of_lt hsrc, show hasTenant (hear src s).vq.active n = true from hn]
    exact Bool.false_ne_true
  have hup : ¬ (!unitServesOrHeld (hear src s)) = true := by
    rw [show unitServesOrHeld (hear src s) = true from hserves]
    exact Bool.false_ne_true
  show execLeaseReport src n x k last ab s = _
  rw [execLeaseReport, if_neg hknown, if_neg hup,
    if_neg (show ¬ isHome (hear src s) n = true from Bool.eq_false_iff.1 haway)]
  exact if_pos hhome

theorem leaseReport_taken {ab : Bool} (hsrc : src < fabN s.vq.active) (hserves : unitServesOrHeld s = true)
    (hhome : isHome s n = true) (hr : (leaseOf s n).reclaiming = true) (hawaited : src ∈ (leaseOf s n).awaiting)
    (hothers : ∃ u ∈ (leaseOf s n).awaiting, u ≠ src) : Answers (.leaseReport src n x k true ab) s fun t => leaseOf t n =
      { leaseOf s n with
        orphans := tinc x k (leaseOf s n).orphans
        abandoned := if ab then addNew x (leaseOf s n).abandoned else (leaseOf s n).abandoned
        awaiting := (leaseOf s n).awaiting.filter (· != src) } := by
  obtain ⟨u, hu, hne⟩ := hothers
  refine answers_of_next (exec_leaseReport_home hsrc hserves hhome hr hawaited) ?_
  rw [concludeReclaim_of_awaited (u := u), leaseOf_onLease]
  · rfl
  · rw [leaseOf_onLease]
    exact List.mem_filter.2 ⟨hu, bne_iff_ne.2 hne⟩

end

/-! ### The state that a reclaim leaves an extent in (Table 8.6) -/

section
variable {x : Nat}

theorem extSt_onExtent (x : Nat) (f : ExtSt → ExtSt) (s : State) : extSt (onExtent x f s) x = f (extSt s x) :=
  tget_tmod_same ({} : ExtSt) x f s.ext.exts

theorem FlowsOnly.extSt {s t : State} (h : FlowsOnly s t) (x : Nat) : extSt t x = extSt s x := by
  rw [Machine.extSt, h.exts, ← Machine.extSt]

/-- A move to another state rings doorbells and stops rings; of EXT it changes the state of its extent. -/
theorem moveExtent_flows {st : Nat} (h : (extSt s x).st ≠ st) :
    FlowsOnly (onExtent x (fun y => { y with st := st }) s) (moveExtent x st s) := by
  unfold moveExtent
  extract_lets y ns u v
  rw [if_neg h]
  have hu : FlowsOnly (onExtent x (fun y => { y with st := st }) s) u := (FlowsOnly.refl _).upd (setDbTenant_ext ..)
  have hv : FlowsOnly (onExtent x (fun y => { y with st := st }) s) v :=
    hu.foldl fun y n hy => hy.of_kept (ringStop_kept n 5 y (.refl _ y) (covers_refl _))
  exact FlowsOnly.ite (releaseHeld_flows hv) hv

theorem moveExtent_st (x st : Nat) (s : State) : (extSt (moveExtent x st s) x).st = st := by
  by_cases h : (extSt s x).st = st
  · rw [moveExtent]
    exact (congrArg (fun t => (extSt t x).st) (if_pos h)).trans h
  · rw [(moveExtent_flows h).extSt, extSt_onExtent]

theorem note_ext (v : Ev) (s : State) (hd : (codeRow v.code v.cls).2 = 0 := by with_unfolding_all rfl) : (raise v s).ext = s.ext := by
  rw [raise_eq_record v s hd, record_ext]

section
variable {e : ExtRec} (he : extRec (extView s) x = some e) (hkind : e.kind = 1) (hst : (extSt s x).st = 1)
include he hkind hst

/-- A PRIVATE-COHERENT extent that was ACTIVE and has no abandoned seal: QUARANTINED where it has orphans, ACTIVE without them. -/
theorem reclaimState_of_active (k : Nat) : reclaimState x k false s =
    if k ≠ 0 then
      raise { code := 0x0702, tenant := e.tenant, sk := 2, si := x, addr := e.base * gib, d0 := (extSt s x).orphans, d1 := k }
        (moveExtent x 4 (onExtent x (fun z => { z with unknown := false }) s))
    else s := by
  have hnot2 : ¬ (extSt s x).st = 2 := by rw [hst]; decide
  unfold reclaimState
  rw [he]
  dsimp only
  rw [if_neg hnot2, if_pos ⟨hkind, .inl hst⟩]
  by_cases hk : k = 0
  · rw [if_neg (by simp [hk]), if_neg (not_not.2 hk)]
    exact if_pos hst
  · rw [if_pos (.inl hk), if_pos hk]
    rfl

theorem reclaimState_quarantines {k : Nat} (hk : k ≠ 0) :
    (extSt (reclaimState x k false s) x).st = 4 ∧ noted (reclaimState x k false s) 0x0702 e.tenant 2 x := by
  rw [reclaimState_of_active he hkind hst, if_pos hk]
  refine ⟨?_, note_noted _ _⟩
  refine Eq.trans ?_ (moveExtent_st x 4 (onExtent x (fun z => { z with unknown := false }) s))
  rw [extSt, note_ext _ _, ← extSt]

end
end

end

/-- Settles O26: the reclaim at E + g, a unit that hears it, the reports that the home unit takes, and the home unit's outcome at
another unit. -/
theorem leaseReclaims : Obligations.LeaseReclaims := by
  unfold Obligations.LeaseReclaims
  intro s n l due
  refine ⟨fun hhome hrun hr => ⟨exec_leaseReclaimTimer_early, fun hdue hother => leaseReclaimTimer_tells hhome hrun hr hdue hother⟩,
    fun src tm hsrc hn hhome hother hserves => ?_,
    fun src x k ab hsrc hserves hhome hr hawaited hothers => leaseReport_taken hsrc hserves hhome hr hawaited hothers,
    fun src x k e hsrc hserves haway hn hhome he hkind hst => ?_⟩
  case refine_1 =>
    have hexec := exec_leaseReclaim (t := tm) hsrc hn hhome hserves
    refine ⟨fun hw => answers_of_next hexec ?_, fun hw hnone _ hport => answers_of_next hexec ?_⟩
    · rw [reclaimTry_heard_owed hw]
      exact leaseOf_reclaimHeard src tm
    · exact reclaimTry_heard_reports hw hnone hhome hother hport
  case refine_2 =>
    refine ⟨fun hk => answers_of_next (exec_leaseReport_away hsrc hserves haway hn hhome)
        (reclaimState_quarantines (s := hear src s) he hkind hst hk),
      answers_of_next (exec_leaseReport_away hsrc hserves haway hn hhome) ?_⟩
    rw [reclaimState_of_active (s := hear src s) he hkind hst]
    exact hst

end Sys2Proof.Proofs
end

section
/-! Seals (R148 to R152, R168, Table 8.3): the seal point of SEAL, and the completion of a seal whose parts are done and committed. -/

namespace Sys2Proof.Proofs

open Sys2Proof.Machine Sys2Proof.Safety Sys2Proof.Laws

/-! ### What a move of an extent and the offers of a seal leave -/

section
variable {s : State} {x st : Nat}

/-- Of the operators' block a stop changes its ring. -/
theorem ringStop_opq (n err : Nat) (s : State) : ∃ rings, (ringStop n err s).opq = { s.opq with rings := rings } := by
  unfold ringStop
  extract_lets r u
  split
  · rw [raise_eq_record _ u (by with_unfolding_all rfl), record_opq]
    exact ⟨_, rfl⟩
  · exact ⟨_, rfl⟩

theorem ringStops_opq (l : List Nat) (s : State) :
    ∃ rings, (l.foldl (fun s n => ringStop n 5 s) s).opq = { s.opq with rings := rings } := by
  induction l generalizing s with
  | nil => exact ⟨_, rfl⟩
  | cons n l ih =>
    obtain ⟨r, hr⟩ := ringStop_opq n 5 s
    obtain ⟨q, hq⟩ := ih (ringStop n 5 s)
    exact ⟨q, by rw [List.foldl_cons, hq, hr]⟩

/-- A move to a state that is not ACTIVE leaves the operators as they are. -/
theorem moveExtent_opq (h : st ≠ 1) : ∃ rings, (moveExtent x st s).opq = { s.opq with rings := rings } := by
  unfold moveExtent
  extract_lets y ns u v
  rw [if_neg h]
  split
  · exact ⟨_, rfl⟩
  · obtain ⟨rings, hv⟩ := ringStops_opq ns u
    have hu : u.opq = s.opq := (setDbTenant_kept _ _ _ (.refl _ _) (covers_refl _)).frame .opq (by decide)
    exact ⟨rings, by rw [hv, hu]⟩

/-- What an extent's readers are offered touches neither the state of an extent nor the seals. -/
def stAndSeals (x : Nat) (e : Machine.Ext) : Nat × List SealRun := ((tget ({} : ExtSt) e.exts x).st, e.seals)

theorem stAndSeals_onExtent {k : Nat} {f : ExtSt → ExtSt} (hf : ∀ y, (f y).st = y.st) (s : State) :
    stAndSeals x (onExtent k f s).ext = stAndSeals x s.ext := by
  refine congrArg (·, s.ext.seals) ?_
  by_cases hx : x = k
  · rw [hx]
    exact (congrArg ExtSt.st (tget_tmod_same ({} : ExtSt) k f s.ext.exts)).trans (hf _)
  · exact congrArg ExtSt.st (tget_tmod_other ({} : ExtSt) {} hx f s.ext.exts)

theorem FlowsOnly.stAndSeals_of_no_seals {t : State} (h : FlowsOnly s t) (hs : stAndSeals x s.ext = (st, [])) :
    stAndSeals x t.ext = (st, []) := by
  obtain ⟨hst, hnone⟩ := Prod.ext_iff.1 hs
  have hnames : t.ext.seals.map sealName = s.ext.seals.map sealName := h.seals
  rw [show s.ext.seals = [] from hnone, List.map_nil, List.map_eq_nil_iff] at hnames
  exact Prod.ext ((congrArg ExtSt.st (h.extSt x)).trans hst) hnames

theorem offerReaders_stAndSeals (e : ExtRec) (s : State) : stAndSeals x (offerReaders e s).ext = stAndSeals x s.ext := by
  refine foldl_same (fun s => stAndSeals x s.ext) (fun u n => ?_) _ s
  split
  · rfl
  · split
    · rw [note_ext _ _]
      exact stAndSeals_onExtent (fun _ => by rfl) u
    · rw [show (offerTenant n e true _).ext = _ from (offerTenant_kept n e true _ (.refl _ _) (covers_refl _)).frame .ext (by decide)]
      exact stAndSeals_onExtent (fun _ => by rfl) u

end

/-! ### The end of an operator whose ring is on another unit (R318) -/

theorem sendReq_opq (d n : Nat) (m : Msg) (s : State) : (sendReq d n m s).opq = s.opq :=
  (sendReq_kept d n m s (.refl _ s) (covers_refl _)).frame .opq (by decide)

theorem respond_opq (d tag n : Nat) (m : Msg) (s : State) : (respond d tag n m s).opq = s.opq :=
  (respond_kept d tag n m s (.refl _ s) (covers_refl _)).frame .opq (by decide)

/-- Operators that are forwarded once their fence is clear are none of those that run here. -/
theorem releaseFences_ops (s : State) : (releaseFences s).opq.ops = s.opq.ops := by
  refine foldl_same (fun s => s.opq.ops) (fun u o => ?_) _ s
  rw [sendFwd, sendReq_opq]

/-- The record of the only operator here, when it neither fails nor is aborted, goes to the unit of its ring. -/
theorem retireOp_completes {s : State} {o : Op} {v : RecVals} (hops : s.opq.ops = [o]) (hin : s.opq.intake = [])
    (hunit : o.ringUnit ≠ me s) (hport : (outPort s o.ringUnit).isSome = true) (hreach : o.ringUnit ∉ s.wrn.unreachable)
    (hv : v.status = 0) : (retireOp o v s).opq.ops = [] ∧ sentTo (retireOp o v s) o.ringUnit (.opDone (recordOf s o v)) := by
  obtain ⟨u, hu, hwrn, hport', hops', hin'⟩ : ∃ u : State, retireOp o v s =
      releaseFences (moveIntake (respond o.ringUnit o.tag o.tenant (.opDone (recordOf s o v)) u)) ∧ u.wrn = s.wrn ∧
      (outPort u o.ringUnit).isSome = true ∧ u.opq.ops = [] ∧ u.opq.intake = [] := by
    unfold retireOp
    dsimp only
    split
    · next h => simp [hv] at h
    · split
      · next h => exact absurd h hunit
      · exact ⟨_, rfl, rfl, hport, by simp [countRecord, hv, hops, sameOp_self], by simp [countRecord, hv, hin]⟩
  have hsent : sentTo (respond o.ringUnit o.tag o.tenant (.opDone (recordOf s o v)) u) o.ringUnit (.opDone (recordOf s o v)) :=
    sendMsg_sent rfl hport' (by show _ ∉ u.wrn.unreachable; rwa [hwrn])
  rw [hu, moveIntake_of_empty (by rw [respond_opq, hin']), releaseFences_ops, respond_opq]
  exact ⟨hops', (releaseFences_onward (.refl _)).sent hsent⟩

/-! ### The completion of a seal (R150, R152) -/

/-- The seal of an extent is over. -/
def sealGone (x : Nat) (s : State) : State := { s with ext := { s.ext with seals := s.ext.seals.filter (·.ext != x) } }

/-- The extent is SEALED, and its readers and the other units are told. -/
def sealDone (x : Nat) (e : ExtRec) (s : State) : State :=
  tellExtent x (offerReaders e (moveExtent x 3 (sealGone x s)))

/-- What the record of SEAL says at its completion (Table 14.3). -/
def sealVals (o : Op) (e : ExtRec) (r : SealRun) : RecVals :=
  { status := 0, flags11 := o.flags11, flags14 := o.flags14, r0 := e.size * 32768, r1 := r.point }

section
variable {s : State} {x : Nat} {e : ExtRec} {r : SealRun}

theorem exec_sealComplete_of_not_sealing (he : extRec (extView s) x = some e) (hst : (extSt s x).st ≠ 2) :
    exec (.sealComplete x) s = .next s := by
  show execSealComplete x s = _
  rw [execSealComplete, he]
  exact if_pos hst

theorem exec_sealComplete (he : extRec (extView s) x = some e) (hst : (extSt s x).st = 2) (hseals : s.ext.seals = [r])
    (hr : r.ext = x) : exec (.sealComplete x) s = if !r.done || !extCommitted s e then .next s
      else match findOp (sealDone x e s).opq r.ringUnit r.ring r.sqIndex with
        | none => .next (sealDone x e s)
        | some o => .next (retireOp o (sealVals o e r) (sealDone x e s)) := by
  have hfind : s.ext.seals.find? (·.ext == x) = some r := by rw [hseals, List.find?_singleton, hr, BEq.rfl]; rfl
  show execSealComplete x s = _
  rw [execSealComplete, he]
  dsimp only
  rw [if_neg (not_not.2 hst), hfind]
  rfl

theorem tellExtent_same {b : Block} (x : Nat) (s : State) (hb : b ∉ [.wrn, .out] := by decide) : b.same s (tellExtent x s) :=
  (tellExtent_kept x s (.refl _ s) (covers_refl _)).frame b hb

theorem offerReaders_same {b : Block} (e : ExtRec) (s : State) (hb : b ∉ [.hst, .mbx, .ext, .flt, .out] := by decide) :
    b.same s (offerReaders e s) :=
  (offerReaders_kept e s (.refl _ s) (covers_refl _)).frame b hb

/-- The extent of a seal that is done is SEALED, and its seal is gone. -/
theorem stAndSeals_sealDone (e : ExtRec) (hst : (extSt s x).st = 2) (hseals : s.ext.seals = [r]) (hr : r.ext = x) :
    stAndSeals x (sealDone x e s).ext = (3, []) := by
  have hgone : (sealGone x s).ext.seals = [] := by simp [sealGone, hseals, hr]
  have hmove := moveExtent_flows (s := sealGone x s) (x := x) (st := 3) (by rw [show (extSt (sealGone x s) x).st = 2 from hst]; decide)
  have hnone : (moveExtent x 3 (sealGone x s)).ext.seals = [] := by
    have hnames : (moveExtent x 3 (sealGone x s)).ext.seals.map sealName = (sealGone x s).ext.seals.map sealName := hmove.seals
    rwa [hgone, List.map_nil, List.map_eq_nil_iff] at hnames
  rw [sealDone, show (tellExtent x _).ext = _ from tellExtent_same (b := .ext) x _, offerReaders_stAndSeals]
  exact Prod.ext (moveExtent_st x 3 (sealGone x s)) hnone

theorem sealDone_opq (x : Nat) (e : ExtRec) (s : State) : ∃ rings, (sealDone x e s).opq = { s.opq with rings := rings } := by
  obtain ⟨rings, hmove⟩ := moveExtent_opq (s := sealGone x s) (x := x) (show 3 ≠ 1 by decide)
  exact ⟨rings, ((tellExtent_same (b := .opq) x _).trans (offerReaders_same (b := .opq) e _)).trans hmove⟩

theorem sealDone_vq (x : Nat) (e : ExtRec) (s : State) : (sealDone x e s).vq = s.vq :=
  ((tellExtent_same (b := .vq) x _).trans (offerReaders_same (b := .vq) e _)).trans
    ((moveExtent_kept x 3 (sealGone x s) (.refl _ _) (covers_refl _)).frame .vq (by decide))

theorem tellExtent_onward {s0 : State} (h : Onward s0 s) : Onward s0 (tellExtent x s) := by
  unfold tellExtent
  split
  · exact h
  · exact sendAll_onward h

theorem sealDone_onward (x : Nat) (e : ExtRec) (s : State) : Onward s (sealDone x e s) :=
  tellExtent_onward (offerReaders_onward (moveExtent_onward (Onward.upd (.refl s))))

/-- A seal that is done and committed is over, and SEAL's record says so. -/
theorem sealComplete_seals (he : extRec (extView s) x = some e) (hst : (extSt s x).st = 2) (hseals : s.ext.seals = [r])
    (hr : r.ext = x) (hdone : r.done = true) (hc : extCommitted s e = true) :
    Answers (.sealComplete x) s fun t => stAndSeals x t.ext = (3, []) ∧
      ∀ o, s.opq.ops = [o] → s.opq.intake = [] → o.ringUnit = r.ringUnit → o.ring = r.ring → o.sqIndex = r.sqIndex →
        o.ringUnit ≠ me s → (outPort s o.ringUnit).isSome = true → o.ringUnit ∉ s.wrn.unreachable →
          t.opq.ops = [] ∧ sentTo t o.ringUnit (.opDone (recordOf (sealDone x e s) o (sealVals o e r))) := by
  have hexec := exec_sealComplete he hst hseals hr
  rw [hdone, hc] at hexec
  have hover := stAndSeals_sealDone e hst hseals hr
  obtain ⟨rings, hopq⟩ := sealDone_opq x e s
  have hfind (o : Op) (hops : s.opq.ops = [o]) (hu : o.ringUnit = r.ringUnit) (hn : o.ring = r.ring) (hq : o.sqIndex = r.sqIndex) :
      findOp (sealDone x e s).opq r.ringUnit r.ring r.sqIndex = some o := by
    rw [findOp, hopq]
    simp [hops, hu, hn, hq]
  cases hop : findOp (sealDone x e s).opq r.ringUnit r.ring r.sqIndex with
  | none =>
    rw [hop] at hexec
    refine answers_of_next hexec ⟨hover, fun o hops _ hu hn hq => ?_⟩
    rw [hfind o hops hu hn hq] at hop
    cases hop
  | some p =>
    rw [hop] at hexec
    have hflows : FlowsOnly (sealDone x e s) (retireOp p (sealVals p e r) (sealDone x e s)) := retireOp_flows (.refl _)
    refine answers_of_next hexec ⟨?_, fun o hops hin hu hn hq hunit hport hreach => ?_⟩
    · exact hflows.stAndSeals_of_no_seals hover
    · obtain rfl : o = p := Option.some.inj ((hfind o hops hu hn hq).symm.trans hop)
      have hon := sealDone_onward x e s
      refine retireOp_completes (by rw [hopq]; exact hops) (by rw [hopq]; exact hin) ?_ ?_ ?_ rfl
      · rwa [me, sealDone_vq]
      · rwa [hon.outPort (sealDone_vq x e s)]
      · rwa [hon.unreachable]

end

/-! ### The seal point (R148, R149) -/

section
variable {s : State} {o : Op}

/-- An operator that has started goes on as long as operators run. -/
theorem startOp_of_checked (hc : o.checked = true) (hr : opRuns s o = true) : startOp o s = (s, some o) := by
  rw [startOp, if_pos hc, if_pos hr]

/-- The row of the only operator here, which has started. -/
theorem opRow_of_checked {code : Nat} (hops : s.opq.ops = [o]) (hcode : descOp o.desc = code) (hc : o.checked = true)
    (hr : opRuns s o = true) (k : Op → State → State) : opRow code o.ringUnit o.ring o.sqIndex s k = .next (k o s) := by
  have hfind : findOp s.opq o.ringUnit o.ring o.sqIndex = some o := by simp [findOp, hops]
  rw [opRow, hfind]
  dsimp only
  rw [if_neg (not_not.2 hcode), startOp_of_checked hc hr]

/-- The seal that SEAL of `o` begins, coordinated by this unit. -/
def newSeal (o : Op) (s : State) : SealRun :=
  { ext := fld o.desc 16 2, tenant := o.tenant, point := o.stamp.getD (Config.number s.free), done := false,
    ringUnit := o.ringUnit, ring := o.ring, sqIndex := o.sqIndex, coordinator := true }

/-- SEAL is past its gate, with the seal point as its result, and its seal begins. -/
def sealPointReached (o : Op) (s : State) : State :=
  { onOp o (fun y => { y with gate := 1, r1 := o.stamp.getD (Config.number s.free) }) (draw s) with
    ext := { s.ext with seals := s.ext.seals ++ [newSeal o s] } }

/-- The holders of the E lines of an extent that is sealed are asked. -/
def snoopSealing (x : Nat) (s : State) : State :=
  (s.ext.sf.filter fun f => f.ext == x && f.excl).foldl
    (fun s f => startSnoop f.tenant f.addr false (snoopTargets s f) (.sealing x) s) s

theorem exec_sealExtent {e : ExtRec} (hops : s.opq.ops = [o]) (hcode : descOp o.desc = 0x21) (hc : o.checked = true)
    (hr : opRuns s o = true) (hgate : o.gate = 0) (he : extRec (extView s) (fld o.desc 16 2) = some e) :
    exec (.sealExtent o.ringUnit o.ring o.sqIndex) s =
      .next (sealsGo (tellExtent e.id (snoopSealing (fld o.desc 16 2) (moveExtent (fld o.desc 16 2) 2 (sealPointReached o s))))) := by
  show execSeal o.ringUnit o.ring o.sqIndex s = _
  rw [execSeal, opRow_of_checked hops hcode hc hr]
  dsimp only
  rw [if_neg (not_not.2 hgate), he]
  rfl

theorem snoopSealing_flows {s0 : State} {x : Nat} (h : FlowsOnly s0 s) : FlowsOnly s0 (snoopSealing x s) :=
  h.foldl fun _ _ h => startSnoop_flows h

theorem snoopSealing_opq (x : Nat) (s : State) : (snoopSealing x s).opq = s.opq :=
  foldl_same (fun s => s.opq) (fun u _ => (startSnoop_kept _ _ _ _ _ u (.refl _ u) (covers_refl _)).frame .opq (by decide)) _ s

theorem sealExtent_begins {e : ExtRec} (hops : s.opq.ops = [o]) (hcode : descOp o.desc = 0x21) (hc : o.checked = true)
    (hr : opRuns s o = true) (hgate : o.gate = 0) (he : extRec (extView s) (fld o.desc 16 2) = some e)
    (hst : (extSt s (fld o.desc 16 2)).st = 1) (hseals : s.ext.seals = []) :
    Answers (.sealExtent o.ringUnit o.ring o.sqIndex) s fun t => (extSt t (fld o.desc 16 2)).st = 2 ∧
      t.opq.ops = [{ o with gate := 1, r1 := o.stamp.getD (Config.number s.free) }] ∧
      t.ext.seals.map sealName = [sealName (newSeal o s)] := by
  generalize hx : fld o.desc 16 2 = x at he hst ⊢
  let w := moveExtent x 2 (sealPointReached o s)
  have hw : FlowsOnly (onExtent x (fun y => { y with st := 2 }) (sealPointReached o s)) w :=
    moveExtent_flows (by rw [show (extSt (sealPointReached o s) x).st = 1 from hst]; decide)
  have ht : FlowsOnly w (sealsGo (tellExtent e.id (snoopSealing x w))) :=
    sealsGo_flows ((snoopSealing_flows (.refl w)).upd (tellExtent_same (b := .ext) e.id _))
  have hopq : (sealsGo (tellExtent e.id (snoopSealing x w))).opq = w.opq :=
    ((sealsGo_kept _ (.refl _ _) (covers_refl _)).frame .opq (by decide)).trans
      ((tellExtent_same (b := .opq) e.id _).trans (snoopSealing_opq x w))
  obtain ⟨rings, hmove⟩ := moveExtent_opq (s := sealPointReached o s) (x := x) (show 2 ≠ 1 by decide)
  have hexec := exec_sealExtent hops hcode hc hr hgate (hx ▸ he)
  rw [hx] at hexec
  refine answers_of_next hexec ⟨?_, ?_, ?_⟩
  · rw [ht.extSt]
    exact moveExtent_st x 2 _
  · rw [hopq, hmove]
    simp [sealPointReached, onOp, draw, hops, sameOp_self]
  · rw [ht.seals, hw.seals]
    simp [sealPointReached, onExtent, hseals]

end

/-- Settles O42: SEAL at its gate, and the completion of a seal before and after its parts are done and committed. -/
theorem sealsBeginAndComplete : Obligations.SealsBeginAndComplete := by
  unfold Obligations.SealsBeginAndComplete
  refine ⟨fun s x e he => ⟨exec_sealComplete_of_not_sealing he, fun hst r hseals hr => ⟨fun hwait => ?_, fun hdone hc => ?_⟩⟩,
    fun s o e st hops hcode _ hchecked hgate hr _ he hst hseals => ?_⟩
  case refine_1 =>
    rw [exec_sealComplete he hst hseals hr]
    exact if_pos (by rcases hwait with h | h <;> simp [h])
  case refine_2 =>
    obtain ⟨t, ht, hover, hrecord⟩ := sealComplete_seals he hst hseals hr hdone hc
    obtain ⟨hsealed, hnone⟩ := Prod.ext_iff.1 hover
    refine ⟨t, ht, hsealed, hnone, fun o hops hin hu hn hq hunit hport hreach => ?_⟩
    obtain ⟨hgone, hsent⟩ := hrecord o hops hin hu hn hq hunit hport hreach
    obtain ⟨-, -, -, hstatus, -, htiles, hpoint⟩ := recordOf_fields (sealDone x e s) o (sealVals o e r)
    exact ⟨hgone, _, hsent, hstatus, htiles, hpoint⟩
  case refine_3 =>
    obtain ⟨t, ht, hsealing, hops', hseal⟩ := sealExtent_begins hops hcode hchecked hr hgate he hst hseals
    have hpast : { o with gate := 1, r1 := o.stamp.getD (Config.number s.free) } ∈ t.opq.ops := by
      rw [hops']
      exact List.mem_singleton_self _
    refine ⟨t, ht, hsealing, ⟨_, hpast, by simp [sameOp], rfl, fun p hp => by rw [hp]; rfl⟩, ?_⟩
    obtain ⟨r, hr, hname⟩ := List.mem_map.1 (hseal ▸ List.mem_singleton_self _)
    simp only [sealName, newSeal, Prod.mk.injEq] at hname
    obtain ⟨hext, hcoord, -, -, hq⟩ := hname
    exact ⟨r, hr, hext, hcoord, hq⟩

end Sys2Proof.Proofs
end

section
/-! A host write to a staged strip (R185, R186): in the faulty unit its block is of mode LENCRC, so the write must read the strips
that are not staged, and their stored bytes fail their checks. -/

namespace Sys2Proof.Proofs

open Sys2Proof.Machine Sys2Proof.Safety Sys2Proof.Laws

/-- A write by LD 0 of all 64 bytes of the first line of that block: address 32768 of region 1, whose strip is staged. -/
def faultyHostWrite : Instr := .hostMemWrite 0 0 (2 ^ 50 + 32768) (BitVec.allOnes 64) [] false false 0

theorem faultyHostWrite_waits :
    (after faultyHostWrite faultyHostUnit).out = [] ∧ (after faultyHostWrite faultyHostUnit).hst.reqs.length = 1 := by
  decide +kernel

/-- Refutes O23 in the clause of a write of all 64 bytes. The write is served at once and its own strip is staged, but a block under
LENCRC is filled whole (R186). Where a strip that is not staged fails its checks and the tile is clean and in the Hoard, the tile is
filled again (R185) and the write waits for it, so it is not completed. -/
theorem not_hostWritesStaged : ¬ Obligations.HostWritesStaged := by
  unfold Obligations.HostWritesStaged
  intro h
  obtain ⟨-, hwhole, -⟩ := h faultyHostUnit 0 0 (2 ^ 50 + 32768) 0 [] 0 pinnedExtent 32768 (by decide +kernel) (by decide +kernel)
    (by decide +kernel) (by decide +kernel) fun y hy => by
      rw [← Option.some.inj (faultyHostUnit_staged.symm.trans hy)]
      exact List.length_replicate
  have hwritten : Answers faultyHostWrite faultyHostUnit _ := hwhole false
  obtain ⟨hdone, -⟩ := after_of_answers hwritten
  obtain ⟨hsilent, -⟩ := faultyHostWrite_waits
  rw [hsilent] at hdone
  cases hdone

end Sys2Proof.Proofs
end

section
/-! The field of the inline ECC (R197): GF(2^16) as the polynomials over GF(2) modulo x^16 + x^12 + x^3 + x + 1. A symbol stands for
the polynomial of its bits; the model's product is the product there, and its α is the class of x. -/

namespace Sys2Proof.Proofs

open Sys2Proof.Machine Polynomial

/-! ### Symbols as polynomials -/

/-- The polynomial of the low `w` bits of a number. -/
noncomputable def bitPoly (w n : Nat) : (ZMod 2)[X] := ∑ i ∈ Finset.range w, C ((n.testBit i).toNat : ZMod 2) * X ^ i

theorem bitPoly_top (w n : Nat) : bitPoly (w + 1) n = bitPoly w n + C ((n.testBit w).toNat : ZMod 2) * X ^ w :=
  Finset.sum_range_succ _ w

theorem bitPoly_low (w n : Nat) : bitPoly (w + 1) n = C ((n.testBit 0).toNat : ZMod 2) + X * bitPoly w (n / 2) := by
  rw [bitPoly, Finset.sum_range_succ', bitPoly, Finset.mul_sum, add_comm, pow_zero, mul_one]
  refine congrArg _ (Finset.sum_congr rfl fun i _ => ?_)
  rw [Nat.testBit_succ, pow_succ]
  ring

theorem bitPoly_xor (w a b : Nat) : bitPoly w (a ^^^ b) = bitPoly w a + bitPoly w b := by
  have hbit : ∀ p q : Bool, ((p ^^ q).toNat : ZMod 2) = p.toNat + q.toNat := by decide
  simp only [bitPoly, Nat.testBit_xor, hbit, C_add, add_mul, Finset.sum_add_distrib]

theorem bitPoly_mod (w a : Nat) : bitPoly w (a % 2 ^ w) = bitPoly w a :=
  Finset.sum_congr rfl fun i hi => by rw [Nat.testBit_mod_two_pow, decide_eq_true (Finset.mem_range.1 hi), Bool.true_and]

theorem coeff_bitPoly {w i : Nat} (n : Nat) (hi : i < w) : (bitPoly w n).coeff i = ((n.testBit i).toNat : ZMod 2) := by
  simp [bitPoly, hi]

theorem degree_bitPoly_lt (w n : Nat) : (bitPoly w n).degree < w := by
  rw [bitPoly, Finset.sum_range]
  exact degree_sum_fin_lt fun i : Fin w => ((n.testBit i).toNat : ZMod 2)

/-! ### The field -/

/-- The polynomial of R197. -/
noncomputable def eccPoly : (ZMod 2)[X] := X ^ 16 + X ^ 12 + X ^ 3 + X + 1

/-- GF(2^16) as R197 takes it. -/
abbrev EccField : Type := AdjoinRoot eccPoly

/-- α, the class of x. -/
noncomputable def eccRoot : EccField := AdjoinRoot.root eccPoly

/-- The element that a symbol stands for. -/
noncomputable def symVal (n : Nat) : EccField := AdjoinRoot.mk eccPoly (bitPoly 16 n)

theorem eccPoly_degree : eccPoly.degree = 16 := by
  unfold eccPoly
  compute_degree!

theorem ecc_two : (2 : EccField) = 0 := by
  have h : (2 : ZMod 2) = 0 := rfl
  rw [← map_ofNat (algebraMap (ZMod 2) EccField) 2, h, map_zero]

theorem ecc_add_self (a : EccField) : a + a = 0 := by
  linear_combination a * ecc_two

theorem eccRoot_pow : eccRoot ^ 16 = eccRoot ^ 12 + eccRoot ^ 3 + eccRoot + 1 := by
  have h : eccRoot ^ 16 + eccRoot ^ 12 + eccRoot ^ 3 + eccRoot + 1 = 0 := by
    have hmk : AdjoinRoot.mk eccPoly (X ^ 16 + X ^ 12 + X ^ 3 + X + 1) = 0 := AdjoinRoot.mk_self
    simp only [map_add, map_pow, map_one, AdjoinRoot.mk_X] at hmk
    exact hmk
  linear_combination h - (eccRoot ^ 12 + eccRoot ^ 3 + eccRoot + 1) * ecc_two

@[simp] theorem symVal_zero : symVal 0 = 0 := by
  simp [symVal, bitPoly]

theorem symVal_xor (a b : Nat) : symVal (a ^^^ b) = symVal a + symVal b := by
  rw [symVal, bitPoly_xor, map_add]
  rfl

/-- A symbol that stands for zero is zero: its polynomial has a lower degree than the one it is a multiple of. -/
theorem symVal_toNat_eq_zero {e : BitVec 16} (h : symVal e.toNat = 0) : e = 0 := by
  have hpoly : bitPoly 16 e.toNat = 0 :=
    eq_zero_of_dvd_of_degree_lt (AdjoinRoot.mk_eq_zero.1 h) (by rw [eccPoly_degree]; exact degree_bitPoly_lt 16 e.toNat)
  have hbool : ∀ b : Bool, (b.toNat : ZMod 2) = 0 → b = false := by decide
  refine BitVec.eq_of_getElem_eq fun i hi => ?_
  have hbit := hbool (e.toNat.testBit i) (by rw [← coeff_bitPoly e.toNat hi, hpoly, coeff_zero])
  simpa [BitVec.testBit_toNat, BitVec.getLsbD_eq_getElem hi] using hbit

/-! ### The product -/

/-- One step of the model's product: the symbol times x. -/
def timesX (a : Nat) : Nat := if (2 * a).testBit 16 then ((2 * a) % 2 ^ 16) ^^^ 0x100B else 2 * a

theorem symVal_double (a : Nat) : symVal (2 * a) + ((a.testBit 15).toNat : ZMod 2) • eccRoot ^ 16 = eccRoot * symVal a := by
  have h : bitPoly 16 (2 * a) + C ((a.testBit 15).toNat : ZMod 2) * X ^ 16 = X * bitPoly 16 a := by
    rw [bitPoly_low, bitPoly_top 15 a]
    simp
    ring
  have := congrArg (AdjoinRoot.mk eccPoly) h
  simpa [symVal, eccRoot, Algebra.smul_def] using this

theorem symVal_reduction : symVal 0x100B = eccRoot ^ 12 + eccRoot ^ 3 + eccRoot + 1 := by
  simp [symVal, bitPoly, Finset.sum_range_succ, eccRoot, Nat.testBit]
  ring

theorem symVal_timesX (a : Nat) : symVal (timesX a) = eccRoot * symVal a := by
  have hdouble := symVal_double a
  have htop : (2 * a).testBit 16 = a.testBit 15 := by
    rw [Nat.testBit_succ, Nat.mul_div_cancel_left a (by decide)]
  have hmod : symVal ((2 * a) % 2 ^ 16) = symVal (2 * a) := congrArg (AdjoinRoot.mk eccPoly) (bitPoly_mod 16 (2 * a))
  unfold timesX
  rw [htop]
  by_cases hbit : a.testBit 15 = true
  · rw [if_pos hbit, symVal_xor, hmod, symVal_reduction, ← eccRoot_pow, ← hdouble, hbit]
    simp
  · rw [if_neg hbit, ← hdouble, Bool.eq_false_iff.2 hbit]
    simp

theorem symVal_gfMulAux (n a b acc : Nat) :
    symVal (gfMulAux 16 0x100B n a b acc) = symVal acc + symVal a * AdjoinRoot.mk eccPoly (bitPoly n b) := by
  induction n generalizing a b acc with
  | zero => simp [gfMulAux, bitPoly]
  | succ n ih =>
    have hlow : symVal (if b % 2 = 1 then acc ^^^ a else acc) = symVal acc + symVal a * ((b.testBit 0).toNat : EccField) := by
      rw [Nat.testBit_zero]
      by_cases hb : b % 2 = 1 <;> simp [hb, symVal_xor]
    have hstep := ih (timesX a) (b / 2) (if b % 2 = 1 then acc ^^^ a else acc)
    rw [hlow, symVal_timesX] at hstep
    rw [gfMulAux, ← timesX, hstep, bitPoly_low]
    simp [eccRoot]
    ring

/-- The model's product is the product of the field. -/
@[simp] theorem symVal_gf16Mul (a b : Nat) : symVal (gf16Mul a b) = symVal a * symVal b := by
  rw [gf16Mul, symVal_gfMulAux, symVal_zero, zero_add, symVal]
  rfl

theorem symVal_one : symVal 1 = 1 := by
  simp [symVal, bitPoly, Finset.sum_range_succ, Nat.testBit]

theorem symVal_two : symVal 2 = eccRoot := by
  simp [symVal, bitPoly, Finset.sum_range_succ, Nat.testBit, eccRoot]

@[simp] theorem symVal_alpha (n : Nat) : symVal (alpha n) = eccRoot ^ n := by
  induction n with
  | zero => exact symVal_one
  | succ n ih => rw [alpha, gfPow, ← alpha, symVal_gf16Mul, symVal_two, ih, pow_succ']

/-! ### Differences of powers of α -/

/-- a^(2^(n + 1) - 2), a product of squares: for n = 15 the inverse of `a`, by Fermat. -/
def eccFermat : Nat → Nat → Nat
  | 0, _ => 1
  | n + 1, a => gf16Mul (gf16Mul a a) (eccFermat n (gf16Mul a a))

theorem alpha_differences_invert : ∀ d < 31,
    gf16Mul (alpha (d + 1) ^^^ 1) (eccFermat 15 (alpha (d + 1) ^^^ 1)) = 1 := by
  decide +kernel

theorem alpha_inverts : gf16Mul 2 (eccFermat 15 2) = 1 := by
  decide +kernel

theorem isUnit_eccRoot : IsUnit eccRoot :=
  IsUnit.of_mul_eq_one (symVal (eccFermat 15 2)) (by rw [← symVal_two, ← symVal_gf16Mul, alpha_inverts, symVal_one])

theorem isUnit_eccRoot_pow_add_one {d : Nat} (hd : d < 31) : IsUnit (eccRoot ^ (d + 1) + 1) :=
  IsUnit.of_mul_eq_one (symVal (eccFermat 15 (alpha (d + 1) ^^^ 1))) (by
    rw [← symVal_alpha, ← symVal_one, ← symVal_xor, ← symVal_gf16Mul, alpha_differences_invert d hd])

theorem isUnit_eccRoot_pow_add_of_lt {i j : Nat} (hij : i < j) (hj : j < 32) : IsUnit (eccRoot ^ i + eccRoot ^ j) := by
  obtain ⟨d, rfl⟩ := Nat.exists_eq_add_of_lt hij
  have h : eccRoot ^ i + eccRoot ^ (i + d + 1) = eccRoot ^ i * (eccRoot ^ (d + 1) + 1) := by ring
  rw [h]
  exact (isUnit_eccRoot.pow i).mul (isUnit_eccRoot_pow_add_one (by omega))

theorem isUnit_eccRoot_pow_add {i j : Nat} (hij : i ≠ j) (hi : i < 32) (hj : j < 32) : IsUnit (eccRoot ^ i + eccRoot ^ j) := by
  rcases Nat.lt_or_gt_of_ne hij with h | h
  · exact isUnit_eccRoot_pow_add_of_lt h hj
  · rw [add_comm]
    exact isUnit_eccRoot_pow_add_of_lt h hi

end Sys2Proof.Proofs
end

section
/-! The code of R197 as columns: what a wrong symbol adds to the syndromes sP_h, sQ_h and sR is its error times a column. -/

namespace Sys2Proof.Proofs

open Sys2Proof.Machine

/-- The columns of the code. A data symbol i has the point α^i and a symbol P the point 0; a symbol Q and the inline symbol R have a
column of their own. -/
inductive EccColumn where
  | point (t : EccField)
  | q
  | r

/-- What an error of 1 in a column adds to sP_h, sQ_h and sR. -/
noncomputable def EccColumn.syndromes : EccColumn → EccField × EccField × EccField
  | .point t => (1, t, t ^ 2)
  | .q => (0, 1, 0)
  | .r => (0, 0, 1)

/-- The points that the code uses: 0, and the powers of α that are places of data symbols. -/
def EccColumn.used : EccColumn → Prop
  | .point t => t = 0 ∨ ∃ i < 32, t = eccRoot ^ i
  | .q | .r => True

theorem eq_zero_of_mul_eccRoot_pow {e : EccField} {i : Nat} (h : e * eccRoot ^ i = 0) : e = 0 :=
  (isUnit_eccRoot.pow i).mul_left_eq_zero.1 h

/-- Points that differ can be divided by their difference. -/
theorem eq_zero_of_mul_points {e t u : EccField} (ht : (EccColumn.point t).used) (hu : (EccColumn.point u).used) (hne : t ≠ u)
    (h : e * (t + u) = 0) : e = 0 := by
  obtain rfl | ⟨i, hi, rfl⟩ := ht <;> obtain rfl | ⟨j, hj, rfl⟩ := hu
  · exact absurd rfl hne
  · exact eq_zero_of_mul_eccRoot_pow (by rwa [zero_add] at h)
  · exact eq_zero_of_mul_eccRoot_pow (by rwa [add_zero] at h)
  · exact (isUnit_eccRoot_pow_add (fun hij => hne (congrArg (eccRoot ^ ·) hij)) hi hj).mul_left_eq_zero.1 h

theorem eq_zero_of_mul_points_sq {e t u : EccField} (ht : (EccColumn.point t).used) (hu : (EccColumn.point u).used) (hne : t ≠ u)
    (h : e * t ^ 2 = e * u ^ 2) : e = 0 := by
  refine eq_zero_of_mul_points ht hu hne (eq_zero_of_mul_points ht hu hne ?_)
  linear_combination h + e * (u ^ 2 + t * u) * ecc_two

/-! ### No two wrong symbols pass for one -/

theorem syndromes_sum_iff {v w z : EccColumn} {e f c : EccField} : e • v.syndromes + f • w.syndromes = c • z.syndromes ↔
    e * v.syndromes.1 + f * w.syndromes.1 = c * z.syndromes.1 ∧
    e * v.syndromes.2.1 + f * w.syndromes.2.1 = c * z.syndromes.2.1 ∧
    e * v.syndromes.2.2 + f * w.syndromes.2.2 = c * z.syndromes.2.2 := by
  simp [Prod.ext_iff]

theorem two_points_not_one {t u e f c : EccField} {z : EccColumn} (ht : (EccColumn.point t).used) (hu : (EccColumn.point u).used)
    (hz : z.used) (hne : t ≠ u) (h : e • (EccColumn.point t).syndromes + f • (EccColumn.point u).syndromes = c • z.syndromes) :
    e = 0 ∨ f = 0 := by
  obtain ⟨hp, hq, hr⟩ := syndromes_sum_iff.1 h
  cases z <;> simp only [EccColumn.syndromes, mul_one, mul_zero] at hp hq hr
  case point w =>
    have he : e * (t + w) = 0 := eq_zero_of_mul_points ht hu hne (by
      linear_combination hr - (u + w) * hq + u * w * hp + e * t * (u + w) * ecc_two)
    have hf : f * (u + w) = 0 := eq_zero_of_mul_points hu ht hne.symm (by
      linear_combination hr - (t + w) * hq + t * w * hp + f * u * (t + w) * ecc_two)
    by_cases htw : t = w
    · exact .inr (eq_zero_of_mul_points hu hz (htw ▸ hne.symm) hf)
    · exact .inl (eq_zero_of_mul_points ht hz htw he)
  case q => exact .inl (eq_zero_of_mul_points_sq ht hu hne (by linear_combination hr - u ^ 2 * hp))
  case r => exact .inl (eq_zero_of_mul_points ht hu hne (by linear_combination hq - u * hp + e * u * ecc_two))

theorem point_and_q_not_one {t e f c : EccField} {z : EccColumn} (ht : (EccColumn.point t).used) (hz : z.used)
    (h : e • (EccColumn.point t).syndromes + f • EccColumn.q.syndromes = c • z.syndromes) : e = 0 ∨ f = 0 := by
  obtain ⟨hp, hq, hr⟩ := syndromes_sum_iff.1 h
  cases z <;> simp only [EccColumn.syndromes, mul_one, mul_zero, add_zero] at hp hq hr
  case point w =>
    by_cases htw : t = w
    · exact .inr (by subst htw; linear_combination hq - t * hp)
    · exact .inl (eq_zero_of_mul_points_sq ht hz htw (by linear_combination hr - w ^ 2 * hp))
  case q => exact .inl hp
  case r => exact .inl hp

theorem point_and_r_not_one {t e f c : EccField} {z : EccColumn} (ht : (EccColumn.point t).used) (hz : z.used)
    (h : e • (EccColumn.point t).syndromes + f • EccColumn.r.syndromes = c • z.syndromes) : e = 0 ∨ f = 0 := by
  obtain ⟨hp, hq, hr⟩ := syndromes_sum_iff.1 h
  cases z <;> simp only [EccColumn.syndromes, mul_one, mul_zero, add_zero] at hp hq hr
  case point w =>
    by_cases htw : t = w
    · exact .inr (by subst htw; linear_combination hr - t ^ 2 * hp)
    · exact .inl (eq_zero_of_mul_points ht hz htw (by linear_combination hq - w * hp + e * w * ecc_two))
  case q => exact .inl hp
  case r => exact .inl hp

theorem q_and_r_not_one {e f c : EccField} {z : EccColumn}
    (h : e • EccColumn.q.syndromes + f • EccColumn.r.syndromes = c • z.syndromes) : e = 0 ∨ f = 0 := by
  obtain ⟨hp, hq, hr⟩ := syndromes_sum_iff.1 h
  cases z <;> simp only [EccColumn.syndromes, mul_one, mul_zero, add_zero, zero_add] at hp hq hr
  case point w => exact .inl (by linear_combination hq - w * hp)
  case q => exact .inr hr
  case r => exact .inl hq

/-- Wrong symbols in two columns of the code do not have the syndromes of one wrong symbol: any three columns are independent. -/
theorem two_columns_not_one {v w z : EccColumn} {e f c : EccField} (hv : v.used) (hw : w.used) (hz : z.used) (hne : v ≠ w)
    (h : e • v.syndromes + f • w.syndromes = c • z.syndromes) : e = 0 ∨ f = 0 := by
  have hswap : f • w.syndromes + e • v.syndromes = c • z.syndromes := (add_comm _ _).trans h
  match v, w with
  | .point t, .point u => exact two_points_not_one hv hw hz (fun htu => hne (htu ▸ rfl)) h
  | .point t, .q => exact point_and_q_not_one hv hz h
  | .point t, .r => exact point_and_r_not_one hv hz h
  | .q, .point u => exact (point_and_q_not_one hw hz hswap).symm
  | .r, .point u => exact (point_and_r_not_one hw hz hswap).symm
  | .q, .r => exact q_and_r_not_one h
  | .r, .q => exact (q_and_r_not_one hswap).symm
  | .q, .q | .r, .r => exact absurd rfl hne

end Sys2Proof.Proofs
end

section
/-! The decision of R199 on a line by its syndromes: when it delivers, and what one wrong symbol does to the syndromes. -/

namespace Sys2Proof.Proofs

open Sys2Proof.Machine

/-! ### The syndromes of a line -/

/-- sP_h of the symbols of a lane with the check lanes that follow it: lane 0 for data, lane 4 for the inline column. -/
def halfP (lane : Nat) (errs : List SymErr) (h : Nat) : Nat := syndrome errs lane 0 (inHalf h) ^^^ checkErr errs (lane + 1) h

/-- sQ_h. -/
def halfQ (lane : Nat) (errs : List SymErr) (h : Nat) : Nat := syndrome errs lane 1 (inHalf h) ^^^ checkErr errs (lane + 2) h

/-- sR of a line whose inline symbol is right. -/
def lineR (errs : List SymErr) (halves : List Nat) : Nat :=
  syndrome errs 0 2 (fun i => halves.contains (i / 16)) ^^^ checkErr errs 3 0

theorem xor_foldl {α : Type} (f : α → Nat) (l : List α) (n : Nat) :
    l.foldl (fun x e => x ^^^ f e) n = n ^^^ l.foldl (fun x e => x ^^^ f e) 0 := by
  induction l generalizing n with
  | nil => simp
  | cons a l ih => rw [List.foldl_cons, List.foldl_cons, ih, ih (0 ^^^ f a), Nat.zero_xor, Nat.xor_assoc]

theorem syndrome_cons (x : SymErr) (l : List SymErr) (lane d : Nat) (p : Nat → Bool) : syndrome (x :: l) lane d p =
    (if x.lane = lane ∧ p x.idx = true then gf16Mul x.err.toNat (alpha (d * x.idx)) else 0) ^^^ syndrome l lane d p := by
  by_cases hx : x.lane = lane ∧ p x.idx = true
  · rw [if_pos hx, syndrome, List.filter_cons_of_pos (by simpa using hx), List.foldl_cons, xor_foldl, Nat.zero_xor]
    rfl
  · rw [if_neg hx, syndrome, List.filter_cons_of_neg (by simpa using hx), Nat.zero_xor]
    rfl

theorem checkErr_cons (x : SymErr) (l : List SymErr) (lane i : Nat) : checkErr (x :: l) lane i =
    (if x.lane = lane ∧ x.idx = i then x.err.toNat else 0) ^^^ checkErr l lane i := by
  by_cases hx : x.lane = lane ∧ x.idx = i
  · rw [if_pos hx, checkErr, List.filter_cons_of_pos (by simpa using hx), List.foldl_cons, xor_foldl, Nat.zero_xor]
    rfl
  · rw [if_neg hx, checkErr, List.filter_cons_of_neg (by simpa using hx), Nat.zero_xor]
    rfl

@[simp] theorem syndrome_nil (lane d : Nat) (p : Nat → Bool) : syndrome [] lane d p = 0 := rfl

@[simp] theorem checkErr_nil (lane i : Nat) : checkErr [] lane i = 0 := rfl

theorem halfP_cons (lane : Nat) (x : SymErr) (l : List SymErr) (h : Nat) :
    halfP lane (x :: l) h = halfP lane [x] h ^^^ halfP lane l h := by
  simp only [halfP, syndrome_cons x, checkErr_cons x, syndrome_nil, checkErr_nil, Nat.xor_zero]
  ac_rfl

theorem halfQ_cons (lane : Nat) (x : SymErr) (l : List SymErr) (h : Nat) :
    halfQ lane (x :: l) h = halfQ lane [x] h ^^^ halfQ lane l h := by
  simp only [halfQ, syndrome_cons x, checkErr_cons x, syndrome_nil, checkErr_nil, Nat.xor_zero]
  ac_rfl

theorem lineR_cons (x : SymErr) (l : List SymErr) (halves : List Nat) : lineR (x :: l) halves = lineR [x] halves ^^^ lineR l halves := by
  simp only [lineR, syndrome_cons x, checkErr_cons x, syndrome_nil, checkErr_nil, Nat.xor_zero]
  ac_rfl

/-! ### One wrong symbol -/

theorem gf16Mul_one (a : Nat) : gf16Mul a 1 = a := by
  simp [gf16Mul, gfMulAux]

theorem halfP_single (lane : Nat) (x : SymErr) (h : Nat) : halfP lane [x] h =
    if x.lane = lane ∧ x.idx / 16 = h ∨ x.lane = lane + 1 ∧ x.idx = h then x.err.toNat else 0 := by
  rw [halfP, syndrome_cons, checkErr_cons, Nat.zero_mul, show alpha 0 = 1 from rfl, gf16Mul_one]
  by_cases hlane : x.lane = lane <;> simp [hlane, inHalf]

theorem halfQ_single (lane : Nat) (x : SymErr) (h : Nat) : halfQ lane [x] h =
    if x.lane = lane ∧ x.idx / 16 = h then gf16Mul x.err.toNat (alpha x.idx)
    else if x.lane = lane + 2 ∧ x.idx = h then x.err.toNat else 0 := by
  rw [halfQ, syndrome_cons, checkErr_cons, Nat.one_mul]
  by_cases hlane : x.lane = lane <;> simp [hlane, inHalf]

theorem lineR_single (x : SymErr) (halves : List Nat) : lineR [x] halves =
    if x.lane = 0 ∧ x.idx / 16 ∈ halves then gf16Mul x.err.toNat (alpha (2 * x.idx))
    else if x.lane = 3 ∧ x.idx = 0 then x.err.toNat else 0 := by
  rw [lineR, syndrome_cons, checkErr_cons]
  by_cases hlane : x.lane = 0 <;> simp [hlane]

/-! ### Which symbol the syndromes of a half name -/

theorem err_toNat_ne_zero {e : BitVec 16} (he : e ≠ 0) : e.toNat ≠ 0 :=
  fun h => he (BitVec.eq_of_toNat_eq h)

theorem symVal_err_ne_zero {e : BitVec 16} (he : e ≠ 0) : symVal e.toNat ≠ 0 :=
  fun h => he (symVal_toNat_eq_zero h)

theorem ecc_one_ne_zero : (1 : EccField) ≠ 0 := by
  have h : symVal (1#16).toNat ≠ 0 := symVal_err_ne_zero (by decide)
  exact symVal_one ▸ h

theorem eccRoot_pow_ne_zero (i : Nat) : eccRoot ^ i ≠ 0 := fun h =>
  ecc_one_ne_zero (eq_zero_of_mul_eccRoot_pow (i := i) ((one_mul _).trans h))

theorem eq_of_mul_eccRoot_pow {e : EccField} (he : e ≠ 0) {i j : Nat} (hi : i < 32) (hj : j < 32)
    (h : e * eccRoot ^ i = e * eccRoot ^ j) : i = j := by
  by_contra hij
  refine he ((isUnit_eccRoot_pow_add hij hi hj).mul_left_eq_zero.1 ?_)
  rw [mul_add, h, ecc_add_self]

theorem eccRoot_pow_injective {i j : Nat} (hi : i < 32) (hj : j < 32) (h : eccRoot ^ i = eccRoot ^ j) : i = j :=
  eq_of_mul_eccRoot_pow ecc_one_ne_zero hi hj (congrArg (1 * ·) h)

theorem gf16Mul_alpha_ne_zero {e : BitVec 16} (he : e ≠ 0) (i : Nat) : gf16Mul e.toNat (alpha i) ≠ 0 := fun h =>
  symVal_err_ne_zero he (eq_zero_of_mul_eccRoot_pow (i := i) (by rw [← symVal_alpha, ← symVal_gf16Mul, h, symVal_zero]))

theorem alpha_injective_of_err {e : BitVec 16} (he : e ≠ 0) {i j : Nat} (hi : i < 32) (hj : j < 32)
    (h : gf16Mul e.toNat (alpha i) = gf16Mul e.toNat (alpha j)) : i = j :=
  eq_of_mul_eccRoot_pow (symVal_err_ne_zero he) hi hj (by simpa using congrArg symVal h)

theorem mem_half_iff {h i : Nat} : i ∈ (List.range 16).map (16 * h + ·) ↔ i / 16 = h := by
  simp only [List.mem_map, List.mem_range]
  exact ⟨fun ⟨a, ha, hi⟩ => by omega, fun hi => ⟨i % 16, by omega⟩⟩

theorem locateSym_spec {h sp sq i : Nat} (hi : locateSym h sp sq = some i) : i / 16 = h ∧ gf16Mul sp (alpha i) = sq :=
  ⟨mem_half_iff.1 (List.mem_of_find?_eq_some hi), by simpa using List.find?_some hi⟩

/-- A wrong data symbol is the one that its half's syndromes name. -/
theorem locateSym_of_err {e : BitVec 16} (he : e ≠ 0) {h i : Nat} (hi : i / 16 = h) (hh : h < 2) :
    locateSym h e.toNat (gf16Mul e.toNat (alpha i)) = some i := by
  cases hloc : locateSym h e.toNat (gf16Mul e.toNat (alpha i)) with
  | none => simpa using List.find?_eq_none.1 hloc i (mem_half_iff.2 hi)
  | some j =>
    obtain ⟨hj, heq⟩ := locateSym_spec hloc
    rw [alpha_injective_of_err he (by omega) (by omega) heq]

/-! ### When a line is delivered -/

/-- A half has a syndrome that is not zero. -/
def halfHit (errs : List SymErr) (h : Nat) : Bool := halfP 0 errs h != 0 || halfQ 0 errs h != 0

theorem halfHit_iff (errs : List SymErr) (h : Nat) : halfHit errs h = true ↔ halfP 0 errs h ≠ 0 ∨ halfQ 0 errs h ≠ 0 := by
  simp [halfHit]

/-- The syndromes of a line that are not zero. -/
def wrongSyndromes (errs : List SymErr) (halves : List Nat) : Nat :=
  (halves.map fun h => b2n (halfP 0 errs h != 0) + b2n (halfQ 0 errs h != 0)).sum + b2n (lineR errs halves != 0)

/-- The symbol of a half that R199 corrects. -/
def halfFix (errs : List SymErr) (h : Nat) : Option Nat :=
  if halfP 0 errs h = 0 ∨ halfQ 0 errs h = 0 then none else locateSym h (halfP 0 errs h) (halfQ 0 errs h)

/-- The halves with a syndrome that is not zero, each with its correction. -/
def lineFixes (errs : List SymErr) (halves : List Nat) : List (Nat × Option Nat) :=
  (halves.filter (halfHit errs)).map fun h => (h, halfFix errs h)

/-- The sum of sP_h · α^(2i) over the corrections. -/
def fixSum (errs : List SymErr) (halves : List Nat) : Nat :=
  (lineFixes errs halves).foldl (fun x p => x ^^^ gf16Mul (halfP 0 errs p.1) (alpha (2 * p.2.getD 0))) 0

/-- The half whose syndromes an uncorrectable line reports when its corrections do not add up. -/
def worstHalf (errs : List SymErr) (halves : List Nat) : Nat := (halves.find? (halfHit errs)).getD 0

/-- The decision of R199 by the syndromes, where R is known and right. -/
theorem checkLine_eq (errs : List SymErr) (halves : List Nat) : checkLine errs halves (some 0) =
    if wrongSyndromes errs halves ≤ 1 then .ok 0
    else ((lineFixes errs halves).find? fun p => p.2.isNone).elim
      (if fixSum errs halves = lineR errs halves then .ok (halves.filter (halfHit errs)).length
        else .bad (halfP 0 errs (worstHalf errs halves)) (halfQ 0 errs (worstHalf errs halves)))
      fun p => .bad (halfP 0 errs p.1) (halfQ 0 errs p.1) := by
  simp only [checkLine, Nat.xor_zero]
  refine if_congr Iff.rfl rfl ?_
  split <;> next hfind =>
    rw [show (lineFixes errs halves).find? (fun p => p.2.isNone) = _ from hfind]
    rfl

theorem checkLine_of_few {errs : List SymErr} {halves : List Nat} (h : wrongSyndromes errs halves ≤ 1) :
    checkLine errs halves (some 0) = .ok 0 := by
  rw [checkLine_eq, if_pos h]

theorem lineFixes_find_eq_none_iff (errs : List SymErr) (halves : List Nat) :
    ((lineFixes errs halves).find? fun p => p.2.isNone) = none ↔ ∀ h ∈ halves, halfHit errs h = true → (halfFix errs h).isSome = true := by
  simp [lineFixes, Option.isSome_iff_ne_none]

theorem checkLine_of_fixes {errs : List SymErr} {halves : List Nat} (hmany : ¬ wrongSyndromes errs halves ≤ 1)
    (hfix : ∀ h ∈ halves, halfHit errs h = true → (halfFix errs h).isSome = true) (hsum : fixSum errs halves = lineR errs halves) :
    checkLine errs halves (some 0) = .ok (halves.filter (halfHit errs)).length := by
  rw [checkLine_eq, if_neg hmany, (lineFixes_find_eq_none_iff errs halves).2 hfix, Option.elim_none, if_pos hsum]

/-- A line is delivered as it is, or with the corrections of the halves that need one. -/
theorem checkLine_ok {errs : List SymErr} {halves : List Nat} {n : Nat} (hok : checkLine errs halves (some 0) = .ok n) :
    wrongSyndromes errs halves ≤ 1 ∨
      (∀ h ∈ halves, halfHit errs h = true → (halfFix errs h).isSome = true) ∧ fixSum errs halves = lineR errs halves ∧
        n = (halves.filter (halfHit errs)).length := by
  refine or_iff_not_imp_left.2 fun hmany => ?_
  rw [checkLine_eq, if_neg hmany] at hok
  cases hfind : (lineFixes errs halves).find? fun p => p.2.isNone with
  | some p =>
    rw [hfind] at hok
    cases hok
  | none =>
    rw [hfind, Option.elim_none] at hok
    split at hok
    · next hsum => exact ⟨(lineFixes_find_eq_none_iff errs halves).1 hfind, hsum, (LineCheck.ok.inj hok).symm⟩
    · cases hok

theorem halfFix_spec {errs : List SymErr} {h : Nat} (hfix : (halfFix errs h).isSome) :
    halfP 0 errs h ≠ 0 ∧ halfQ 0 errs h ≠ 0 ∧ ∃ i, halfFix errs h = some i ∧ i / 16 = h ∧ gf16Mul (halfP 0 errs h) (alpha i) = halfQ 0 errs h := by
  unfold halfFix at hfix ⊢
  split at hfix
  · cases hfix
  · next hnz =>
    obtain ⟨i, hi⟩ := Option.isSome_iff_exists.1 hfix
    rw [if_neg hnz]
    exact ⟨fun h => hnz (.inl h), fun h => hnz (.inr h), i, hi, locateSym_spec hi⟩

end Sys2Proof.Proofs
end

section
/-! One wrong symbol of a line is corrected, two are corrected or detected (R197 to R199). -/

namespace Sys2Proof.Proofs

open Sys2Proof.Machine

/-! ### A wrong symbol as a column of the code -/

/-- A symbol of half `h`, of its side-band, or the inline symbol. -/
def placedIn (h : Nat) (x : SymErr) : Prop :=
  x.lane = 0 ∧ x.idx / 16 = h ∨ (x.lane = 1 ∨ x.lane = 2) ∧ x.idx = h ∨ x.lane = 3 ∧ x.idx = 0

/-- The column of the code that a symbol of a line has. -/
noncomputable def symColumn (x : SymErr) : EccColumn :=
  match x.lane with
  | 0 => .point (eccRoot ^ x.idx)
  | 1 => .point 0
  | 2 => .q
  | _ => .r

/-- sP_h, sQ_h and sR as elements of the field. -/
noncomputable def halfSyndromes (errs : List SymErr) (halves : List Nat) (h : Nat) : EccField × EccField × EccField :=
  (symVal (halfP 0 errs h), symVal (halfQ 0 errs h), symVal (lineR errs halves))

theorem halfSyndromes_pair (x y : SymErr) (halves : List Nat) (h : Nat) :
    halfSyndromes [x, y] halves h = halfSyndromes [x] halves h + halfSyndromes [y] halves h := by
  simp only [halfSyndromes, halfP_cons 0 x [y], halfQ_cons 0 x [y], lineR_cons x [y], symVal_xor, Prod.mk_add_mk]

theorem halfSyndromes_single {h : Nat} {halves : List Nat} {x : SymErr} (hx : placedIn h x) (hh : h ∈ halves) :
    halfSyndromes [x] halves h = symVal x.err.toNat • (symColumn x).syndromes := by
  rw [halfSyndromes, halfP_single, halfQ_single, lineR_single]
  obtain ⟨hl, rfl⟩ | ⟨hl | hl, rfl⟩ | ⟨hl, hi⟩ := hx
  · simp [hl, hh, symColumn, EccColumn.syndromes, pow_two, ← pow_add, two_mul]
  · simp [hl, symColumn, EccColumn.syndromes]
  · simp [hl, symColumn, EccColumn.syndromes]
  · simp [hl, hi, symColumn, EccColumn.syndromes]

/-- A symbol leaves the syndromes of the other half as they are. -/
theorem half_other_eq_zero {h j : Nat} {x : SymErr} (hx : placedIn h x) (hj : j ≠ h) : halfP 0 [x] j = 0 ∧ halfQ 0 [x] j = 0 := by
  rw [halfP_single, halfQ_single]
  obtain ⟨hl, rfl⟩ | ⟨hl | hl, rfl⟩ | ⟨hl, hi⟩ := hx <;> simp [hl, hj.symm]

theorem symColumn_used {h : Nat} {x : SymErr} (hx : placedIn h x) (hh : h < 2) : (symColumn x).used := by
  unfold symColumn
  obtain ⟨hl, rfl⟩ | ⟨hl | hl, rfl⟩ | ⟨hl, hi⟩ := hx <;> rw [hl]
  · exact .inr ⟨x.idx, by omega, rfl⟩
  · exact .inl rfl
  · trivial
  · trivial

/-- Symbols of one half at different places have different columns. -/
theorem symColumn_ne {h : Nat} {x y : SymErr} (hx : placedIn h x) (hy : placedIn h y) (hh : h < 2)
    (hne : (x.lane, x.idx) ≠ (y.lane, y.idx)) : symColumn x ≠ symColumn y := by
  intro heq
  unfold symColumn at heq
  obtain ⟨hl, hi⟩ | ⟨hl | hl, hi⟩ | ⟨hl, hi⟩ := hx <;> obtain ⟨hm, hj⟩ | ⟨hm | hm, hj⟩ | ⟨hm, hj⟩ := hy <;>
    simp only [hl, hm, EccColumn.point.injEq, reduceCtorEq] at heq hne
  · exact hne (congrArg _ (eccRoot_pow_injective (by omega) (by omega) heq))
  · exact eccRoot_pow_ne_zero _ heq
  · exact eccRoot_pow_ne_zero _ heq.symm
  all_goals exact hne (congrArg _ (hi.trans hj.symm))

theorem b2n_of_ne {n : Nat} (h : n ≠ 0) : b2n (n != 0) = 1 := by
  simp [b2n, h]

/-! ### Lines where only one half is hit -/

section
variable {errs : List SymErr} {halves : List Nat} {h : Nat} (hnd : halves.Nodup) (hh : h ∈ halves)
  (hother : ∀ j ∈ halves, j ≠ h → halfP 0 errs j = 0 ∧ halfQ 0 errs j = 0)
include hnd hh hother

theorem wrongSyndromes_of_one_half : wrongSyndromes errs halves =
    b2n (halfP 0 errs h != 0) + b2n (halfQ 0 errs h != 0) + b2n (lineR errs halves != 0) := by
  rw [wrongSyndromes, List.sum_map_eq_nsmul_single h, List.count_eq_one_of_mem hnd hh, one_smul]
  intro j hne hj
  obtain ⟨hp, hq⟩ := hother j hj hne
  rw [hp, hq]
  rfl

theorem hits_of_one_half (hhit : halfHit errs h = true) : halves.filter (halfHit errs) = [h] := by
  have honly : ∀ j ∈ halves, halfHit errs j = (j == h) := fun j hj => by
    by_cases hjh : j = h
    · simp [hjh, hhit]
    · obtain ⟨hp, hq⟩ := hother j hj hjh
      simp [halfHit, hp, hq, hjh]
  rw [List.filter_congr honly, List.filter_beq, List.count_eq_one_of_mem hnd hh]
  rfl

theorem fixSum_of_one_half {i : Nat} (hhit : halfHit errs h = true) (hi : halfFix errs h = some i) :
    fixSum errs halves = gf16Mul (halfP 0 errs h) (alpha (2 * i)) := by
  rw [fixSum, lineFixes, hits_of_one_half hnd hh hother hhit, List.map_singleton, hi]
  exact Nat.zero_xor _

/-- A line that is delivered with at most one half hit has the syndromes of one symbol. -/
theorem delivered_one_half {n : Nat} (hh2 : h < 2) (hok : checkLine errs halves (some 0) = .ok n) :
    ∃ (z : EccColumn) (c : EccField), z.used ∧ halfSyndromes errs halves h = c • z.syndromes := by
  by_cases hhit : halfHit errs h = true
  case neg =>
    have hzero := mt (halfHit_iff errs h).2 hhit
    push Not at hzero
    exact ⟨.r, symVal (lineR errs halves), trivial, by simp [halfSyndromes, EccColumn.syndromes, hzero]⟩
  rcases checkLine_ok hok with hfew | ⟨hfix, hsum, -⟩
  case inl =>
    rw [wrongSyndromes_of_one_half hnd hh hother] at hfew
    have hr : lineR errs halves = 0 := by
      by_contra hr
      rw [b2n_of_ne hr] at hfew
      rcases (halfHit_iff errs h).1 hhit with hp | hq
      · rw [b2n_of_ne hp] at hfew
        omega
      · rw [b2n_of_ne hq] at hfew
        omega
    by_cases hp : halfP 0 errs h = 0
    · exact ⟨.q, symVal (halfQ 0 errs h), trivial, by simp [halfSyndromes, EccColumn.syndromes, hp, hr]⟩
    · have hq : halfQ 0 errs h = 0 := by
        by_contra hq
        rw [b2n_of_ne hp, b2n_of_ne hq] at hfew
        omega
      exact ⟨.point 0, symVal (halfP 0 errs h), .inl rfl, by simp [halfSyndromes, EccColumn.syndromes, hq, hr]⟩
  case inr =>
    obtain ⟨-, -, i, hi, hhalf, hq⟩ := halfFix_spec (hfix h hh hhit)
    rw [fixSum_of_one_half hnd hh hother hhit hi] at hsum
    refine ⟨.point (eccRoot ^ i), symVal (halfP 0 errs h), .inr ⟨i, by omega, rfl⟩, ?_⟩
    simp [halfSyndromes, EccColumn.syndromes, ← hq, ← hsum, mul_comm 2 i, pow_mul]

end

/-! ### One wrong symbol -/

/-- The halves of a line that are read: one or both. -/
def readHalves (halves : List Nat) : Prop := halves = [0] ∨ halves = [1] ∨ halves = [0, 1]

theorem readHalves_nodup {halves : List Nat} (hr : readHalves halves) : halves.Nodup := by
  rcases hr with rfl | rfl | rfl <;> decide

theorem readHalves_lt {halves : List Nat} {h : Nat} (hr : readHalves halves) (hh : h ∈ halves) : h < 2 := by
  rcases hr with rfl | rfl | rfl <;> simp at hh <;> omega

theorem checkLine_one {halves : List Nat} {h : Nat} {x : SymErr} (hr : readHalves halves) (hh : h ∈ halves) (hx : placedIn h x)
    (he : x.err ≠ 0) : checkLine [x] halves (some 0) = .ok (if x.lane = 0 then 1 else 0) := by
  have hnd := readHalves_nodup hr
  have hother : ∀ j ∈ halves, j ≠ h → halfP 0 [x] j = 0 ∧ halfQ 0 [x] j = 0 := fun j _ hj => half_other_eq_zero hx hj
  have hwrong := wrongSyndromes_of_one_half hnd hh hother
  obtain ⟨hl, hi⟩ | ⟨hl | hl, hi⟩ | ⟨hl, hi⟩ := hx
  · have hp : halfP 0 [x] h = x.err.toNat := by simp [halfP_single, hl, hi]
    have hq : halfQ 0 [x] h = gf16Mul x.err.toNat (alpha x.idx) := by simp [halfQ_single, hl, hi]
    have hs : lineR [x] halves = gf16Mul x.err.toNat (alpha (2 * x.idx)) := by simp [lineR_single, hl, hi, hh]
    have hpne := err_toNat_ne_zero he
    have hqne := gf16Mul_alpha_ne_zero he x.idx
    have hhit : halfHit [x] h = true := (halfHit_iff _ _).2 (.inl (hp ▸ hpne))
    have hfix : halfFix [x] h = some x.idx := by
      rw [halfFix, hp, hq, if_neg (not_or.2 ⟨hpne, hqne⟩), locateSym_of_err he hi (readHalves_lt hr hh)]
    have hhits := hits_of_one_half hnd hh hother hhit
    rw [hp, hq, b2n_of_ne hpne, b2n_of_ne hqne] at hwrong
    rw [if_pos hl, checkLine_of_fixes (by omega), hhits, List.length_singleton]
    · intro j hj hjhit
      have hmem : j ∈ [h] := hhits ▸ List.mem_filter.2 ⟨hj, hjhit⟩
      rw [List.mem_singleton.1 hmem, hfix]
      rfl
    · rw [fixSum_of_one_half hnd hh hother hhit hfix, hp, hs]
  all_goals
    rw [halfP_single, halfQ_single, lineR_single] at hwrong
    have hfew : wrongSyndromes [x] halves ≤ 1 := by simp [hwrong, hl, hi, b2n, err_toNat_ne_zero he]
    rw [checkLine_of_few hfew, hl]
    rfl

/-! ### Two wrong symbols -/

theorem two_of_one_half_not_ok {halves : List Nat} {h n : Nat} {x y : SymErr} (hr : readHalves halves) (hh : h ∈ halves) (hx : placedIn h x)
    (hy : placedIn h y) (hex : x.err ≠ 0) (hey : y.err ≠ 0) (hne : (x.lane, x.idx) ≠ (y.lane, y.idx)) :
    checkLine [x, y] halves (some 0) ≠ .ok n := by
  intro hok
  have hh2 := readHalves_lt hr hh
  have hother : ∀ j ∈ halves, j ≠ h → halfP 0 [x, y] j = 0 ∧ halfQ 0 [x, y] j = 0 := fun j _ hj => by
    obtain ⟨hpx, hqx⟩ := half_other_eq_zero hx hj
    obtain ⟨hpy, hqy⟩ := half_other_eq_zero hy hj
    rw [halfP_cons, halfQ_cons, hpx, hqx, hpy, hqy]
    decide
  obtain ⟨z, c, hz, hsynd⟩ := delivered_one_half (readHalves_nodup hr) hh hother hh2 hok
  rw [halfSyndromes_pair, halfSyndromes_single hx hh, halfSyndromes_single hy hh] at hsynd
  rcases two_columns_not_one (symColumn_used hx hh2) (symColumn_used hy hh2) hz (symColumn_ne hx hy hh2 hne) hsynd with h0 | h0
  · exact symVal_err_ne_zero hex h0
  · exact symVal_err_ne_zero hey h0

theorem halfHit_single {h : Nat} {x : SymErr} (hx : placedIn h x) (hl : x.lane ≠ 3) (he : x.err ≠ 0) : halfHit [x] h = true := by
  rw [halfHit_iff, halfP_single, halfQ_single]
  obtain ⟨hl, hi⟩ | ⟨hl | hl, hi⟩ | ⟨hl, hi⟩ := hx
  · exact .inl (by simp [hl, hi, err_toNat_ne_zero he])
  · exact .inl (by simp [hl, hi, err_toNat_ne_zero he])
  · exact .inr (by simp [hl, hi, err_toNat_ne_zero he])
  · contradiction

/-- A half whose syndromes are both not zero, for one wrong symbol, holds a wrong data symbol. -/
theorem lane_of_syndromes {h : Nat} {x : SymErr} (hp : halfP 0 [x] h ≠ 0) (hq : halfQ 0 [x] h ≠ 0) : x.lane = 0 ∧ x.idx / 16 = h := by
  rw [halfP_single] at hp
  rw [halfQ_single] at hq
  obtain ⟨hdata | ⟨hl, -⟩, -⟩ := ite_ne_right_iff.1 hp
  · exact hdata
  · simp [hl] at hq

theorem wrongSyndromes_of_both_halves {errs : List SymErr} (h0 : halfHit errs 0 = true) (h1 : halfHit errs 1 = true) :
    2 ≤ wrongSyndromes errs [0, 1] := by
  have hone : ∀ h, halfHit errs h = true → 1 ≤ b2n (halfP 0 errs h != 0) + b2n (halfQ 0 errs h != 0) := fun h hh => by
    rcases (halfHit_iff errs h).1 hh with hp | hq
    · rw [b2n_of_ne hp]
      omega
    · rw [b2n_of_ne hq]
      omega
  have hsum : wrongSyndromes errs [0, 1] = b2n (halfP 0 errs 0 != 0) + b2n (halfQ 0 errs 0 != 0) +
    (b2n (halfP 0 errs 1 != 0) + b2n (halfQ 0 errs 1 != 0) + 0) + b2n (lineR errs [0, 1] != 0) := rfl
  have := hone 0 h0
  have := hone 1 h1
  omega

/-- A line of which both halves are hit is delivered only with a correction in each. -/
theorem delivered_both_halves {errs : List SymErr} {n : Nat} (hhit : ∀ h ∈ [0, 1], halfHit errs h = true)
    (hok : checkLine errs [0, 1] (some 0) = .ok n) : n = 2 ∧ ∀ h ∈ [0, 1], halfP 0 errs h ≠ 0 ∧ halfQ 0 errs h ≠ 0 := by
  have hwrong := wrongSyndromes_of_both_halves (hhit 0 (by decide)) (hhit 1 (by decide))
  rcases checkLine_ok hok with hfew | ⟨hfix, -, hn⟩
  · omega
  · rw [List.filter_eq_self.2 hhit] at hn
    refine ⟨hn, fun h hh => ?_⟩
    obtain ⟨hp, hq, -⟩ := halfFix_spec (hfix h hh (hhit h hh))
    exact ⟨hp, hq⟩

/-- Beside a wrong symbol of the other half, a half has the syndromes of its own wrong symbol. -/
theorem half_of_pair {h j : Nat} {x y : SymErr} (hy : placedIn j y) (hne : h ≠ j) :
    (halfP 0 [x, y] h = halfP 0 [x] h ∧ halfQ 0 [x, y] h = halfQ 0 [x] h) ∧
      halfP 0 [y, x] h = halfP 0 [x] h ∧ halfQ 0 [y, x] h = halfQ 0 [x] h := by
  obtain ⟨hp, hq⟩ := half_other_eq_zero hy hne
  simp only [halfP_cons 0 _ [_], halfQ_cons 0 _ [_], hp, hq, Nat.xor_zero, Nat.zero_xor, and_self]

/-- Two wrong symbols of different halves are delivered only as two data symbols that are both corrected. -/
theorem two_of_two_halves {halves : List Nat} {h j n : Nat} {x y : SymErr} (hr : readHalves halves) (hh : h ∈ halves) (hj : j ∈ halves)
    (hne : h ≠ j) (hx : placedIn h x) (hy : placedIn j y) (hlx : x.lane ≠ 3) (hly : y.lane ≠ 3) (hex : x.err ≠ 0) (hey : y.err ≠ 0)
    (hok : checkLine [x, y] halves (some 0) = .ok n) : n = 2 ∧ (x.lane = 0 ∧ x.idx / 16 = h) ∧ y.lane = 0 ∧ y.idx / 16 = j := by
  obtain rfl | rfl | rfl := hr
  · exact absurd ((List.mem_singleton.1 hh).trans (List.mem_singleton.1 hj).symm) hne
  · exact absurd ((List.mem_singleton.1 hh).trans (List.mem_singleton.1 hj).symm) hne
  obtain ⟨⟨hpx, hqx⟩, -⟩ := half_of_pair (x := x) hy hne
  obtain ⟨-, hpy, hqy⟩ := half_of_pair (x := y) hx hne.symm
  have hhitx : halfHit [x, y] h = true := by rw [halfHit, hpx, hqx]; exact halfHit_single hx hlx hex
  have hhity : halfHit [x, y] j = true := by rw [halfHit, hpy, hqy]; exact halfHit_single hy hly hey
  have hhit : ∀ i ∈ [0, 1], halfHit [x, y] i = true := fun i hi => by
    have hij : i = h ∨ i = j := by simp at hh hj hi; omega
    rcases hij with rfl | rfl <;> assumption
  obtain ⟨hn, hnz⟩ := delivered_both_halves hhit hok
  obtain ⟨hp, hq⟩ := hnz h hh
  obtain ⟨hp', hq'⟩ := hnz j hj
  exact ⟨hn, lane_of_syndromes (hpx ▸ hp) (hqx ▸ hq), lane_of_syndromes (hpy ▸ hp') (hqy ▸ hq')⟩

theorem checkLine_two {halves : List Nat} {h j n : Nat} {x y : SymErr} (hr : readHalves halves) (hh : h ∈ halves) (hj : j ∈ halves)
    (hx : placedIn h x) (hy : placedIn j y) (hex : x.err ≠ 0) (hey : y.err ≠ 0) (hne : (x.lane, x.idx) ≠ (y.lane, y.idx))
    (hok : checkLine [x, y] halves (some 0) = .ok n) : n = 2 ∧ x.lane = 0 ∧ y.lane = 0 ∧ x.idx / 16 ≠ y.idx / 16 := by
  have inline_anywhere : ∀ {z : SymErr} {a : Nat} (b : Nat), placedIn a z → z.lane = 3 → placedIn b z := by
    rintro z a b (⟨hl, -⟩ | ⟨hl | hl, -⟩ | hz) hl3
    · omega
    · omega
    · omega
    · exact .inr (.inr hz)
  by_cases hlx : x.lane = 3
  · exact absurd hok (two_of_one_half_not_ok hr hj (inline_anywhere j hx hlx) hy hex hey hne)
  by_cases hly : y.lane = 3
  · exact absurd hok (two_of_one_half_not_ok hr hh hx (inline_anywhere h hy hly) hex hey hne)
  by_cases hhj : h = j
  · exact absurd hok (two_of_one_half_not_ok hr hh hx (hhj ▸ hy) hex hey hne)
  obtain ⟨hn, ⟨hx0, rfl⟩, hy0, rfl⟩ := two_of_two_halves hr hh hj hhj hx hy hlx hly hex hey hok
  exact ⟨hn, hx0, hy0, hhj⟩

/-! ### The inline column -/

theorem inlineHalf_eq (errs : List SymErr) (col : Nat) : inlineHalf errs col =
    if halfP 4 errs (col / 16) = 0 ∨ halfQ 4 errs (col / 16) = 0 then (some (checkErr errs 4 col), false)
    else (locateSym (col / 16) (halfP 4 errs (col / 16)) (halfQ 4 errs (col / 16))).elim (none, false) fun i =>
      (some (if i = col then checkErr errs 4 col ^^^ halfP 4 errs (col / 16) else checkErr errs 4 col), true) := by
  unfold inlineHalf
  refine if_congr Iff.rfl rfl ?_
  split <;> next hloc =>
    rw [show locateSym (col / 16) (halfP 4 errs (col / 16)) (halfQ 4 errs (col / 16)) = _ from hloc]
    rfl

theorem inlineHalf_symbol {col : Nat} {x : SymErr} (hcol : col < 32) (he : x.err ≠ 0) (hl : x.lane = 4) (hi : x.idx / 16 = col / 16) :
    inlineHalf [x] col = (some 0, true) := by
  have hp : halfP 4 [x] (col / 16) = x.err.toNat := by simp [halfP_single, hl, hi]
  have hq : halfQ 4 [x] (col / 16) = gf16Mul x.err.toNat (alpha x.idx) := by simp [halfQ_single, hl, hi]
  have hr : checkErr [x] 4 col = if x.idx = col then x.err.toNat else 0 := by simp [checkErr_cons, hl]
  rw [inlineHalf_eq, hp, hq, hr, if_neg (not_or.2 ⟨err_toNat_ne_zero he, gf16Mul_alpha_ne_zero he _⟩),
    locateSym_of_err he hi (by omega), Option.elim_some]
  by_cases hcol : x.idx = col <;> simp [hcol]

theorem inlineHalf_sideBand {col : Nat} {x : SymErr} (hl : x.lane = 5 ∨ x.lane = 6) : inlineHalf [x] col = (some 0, false) := by
  have hr : checkErr [x] 4 col = 0 := by rcases hl with hl | hl <;> simp [checkErr_cons, hl]
  rw [inlineHalf_eq, if_pos, hr]
  rcases hl with hl | hl
  · exact .inr (by simp [halfQ_single, hl])
  · exact .inl (by simp [halfP_single, hl])

/-! ### O43 -/

/-- Settles O43: no two wrong symbols of a half and the inline symbol have the syndromes of one, and in different halves each half
is decided by its own. -/
theorem eccCorrectsOneDetectsTwo : Obligations.EccCorrectsOneDetectsTwo := by
  unfold Obligations.EccCorrectsOneDetectsTwo
  refine ⟨fun halves hr => ?_, fun col x hcol _ he =>
    ⟨fun hl hi => inlineHalf_symbol hcol he hl hi, fun hl _ => inlineHalf_sideBand hl⟩⟩
  intro place
  have hplace : ∀ x, place x → x.err ≠ 0 ∧ ∃ h ∈ halves, placedIn h x := by
    rintro x ⟨he, ⟨hl, -, hi⟩ | ⟨hl, hi⟩ | hx⟩
    · exact ⟨he, _, hi, .inl ⟨hl, rfl⟩⟩
    · exact ⟨he, _, hi, .inr (.inl ⟨hl, rfl⟩)⟩
    · obtain ⟨h, hh⟩ : ∃ h, h ∈ halves := by rcases hr with rfl | rfl | rfl <;> exact ⟨_, List.mem_cons_self⟩
      exact ⟨he, h, hh, .inr (.inr hx)⟩
  refine ⟨fun x hx => ?_, fun x y hx hy hne => ?_⟩
  · obtain ⟨he, h, hh, hx⟩ := hplace x hx
    exact checkLine_one hr hh hx he
  · obtain ⟨hex, h, hh, hx⟩ := hplace x hx
    obtain ⟨hey, j, hj, hy⟩ := hplace y hy
    cases hline : checkLine [x, y] halves (some 0) with
    | bad p q => exact .inl ⟨p, q, rfl⟩
    | ok n =>
      obtain ⟨rfl, hlanes⟩ := checkLine_two hr hh hj hx hy hex hey hne hline
      exact .inr ⟨rfl, hlanes⟩

end Sys2Proof.Proofs
end

section
/-! Admission to a pseudo-channel (R207, R208, R214): the unit that is admitted is the first of the most urgent eligible heads. -/

namespace Sys2Proof.Proofs

open Sys2Proof.Machine Sys2Proof.Safety Sys2Proof.Laws

/-! ### The first of the greatest -/

/-- Of a list whose keys rise, `argmax` takes the element with the lowest key among those of the greatest value. -/
theorem argmax_spec {α : Type} [DecidableEq α] {f key : α → Nat} {l : List α} (hkey : l.Pairwise fun a b => key a < key b) {m : α}
    (hm : l.argmax f = some m) : m ∈ l ∧ ∀ a ∈ l, f a ≤ f m ∧ (f a = f m → key m ≤ key a) := by
  obtain ⟨hmem, hmax, hfirst⟩ := List.argmax_eq_some_iff.1 hm
  refine ⟨hmem, fun a ha => ⟨hmax a ha, fun heq => ?_⟩⟩
  rcases (hfirst a ha heq.ge).lt_or_eq with hlt | heq
  · have hrise := List.pairwise_iff_getElem.1 hkey _ _ (List.idxOf_lt_length_of_mem hmem) (List.idxOf_lt_length_of_mem ha) hlt
    simpa using hrise.le
  · rw [(List.idxOf_inj hmem).1 heq]

/-! ### Heads -/

/-- The requesters of a pseudo-channel in their turn, and how far a requester is behind the pointer. -/
def turnOf (s : State) (pc q : Nat) : Nat := (q + 32 - tget 0 s.drt.pointer pc % 32) % 32

/-- The eligible heads of a pseudo-channel, in the order of their turn. -/
def eligibleHeads (s : State) (pc : Nat) : List AUnit :=
  ((List.range 32).map fun i => (tget 0 s.drt.pointer pc + i) % 32).filterMap fun q =>
    (headOf s.drt pc q).bind fun u => if eligible s u then some u else none

theorem admitPick_eq (s : State) (pc : Nat) : admitPick s pc = (eligibleHeads s pc).argmax (urgency s) := by
  rw [admitPick, List.argmax]
  refine congrArg (List.foldl · none (eligibleHeads s pc)) (funext₂ fun b u => ?_)
  cases b <;> rfl

theorem headOf_q {d : Drt} {pc q : Nat} {u : AUnit} (h : headOf d pc q = some u) : u.q = q := by
  have hfound : u.pc = pc ∧ u.q = q := by simpa using List.find?_some h
  exact hfound.2

theorem mem_eligibleHeads {s : State} {pc : Nat} {u : AUnit} :
    u ∈ eligibleHeads s pc ↔ ∃ q < 32, headOf s.drt pc q = some u ∧ eligible s u = true := by
  have hturn : ∀ q, q ∈ ((List.range 32).map fun i => (tget 0 s.drt.pointer pc + i) % 32) ↔ q < 32 := fun q => by
    simp only [List.mem_map, List.mem_range]
    exact ⟨fun ⟨i, _, hi⟩ => by omega, fun hq => ⟨turnOf s pc q, by unfold turnOf; omega, by unfold turnOf; omega⟩⟩
  simp only [eligibleHeads, List.mem_filterMap, hturn, Option.bind_eq_some_iff, Option.ite_none_right_eq_some, Option.some.injEq]
  exact ⟨fun ⟨q, hq, _, hu, he, hx⟩ => ⟨q, hq, hx ▸ hu, hx ▸ he⟩, fun ⟨q, hq, hu, he⟩ => ⟨q, hq, u, hu, he, rfl⟩⟩

theorem eligibleHeads_in_turn (s : State) (pc : Nat) :
    (eligibleHeads s pc).Pairwise fun u v => turnOf s pc u.q < turnOf s pc v.q := by
  have hq : ∀ {q u}, (headOf s.drt pc q).bind (fun u => if eligible s u then some u else none) = some u → u.q = q := fun h => by
    obtain ⟨v, hv, hsome⟩ := Option.bind_eq_some_iff.1 h
    obtain ⟨-, heq⟩ := Option.ite_none_right_eq_some.1 hsome
    exact Option.some.inj heq ▸ headOf_q hv
  refine List.pairwise_filterMap.2 (List.pairwise_map.2 (List.pairwise_lt_range.imp_of_mem fun ha hb hab u hu v hv => ?_))
  rw [hq hu, hq hv]
  simp only [List.mem_range] at ha hb
  unfold turnOf
  omega

theorem admitPick_none_iff {s : State} {pc : Nat} :
    admitPick s pc = none ↔ ∀ q u, ¬ (q < 32 ∧ headOf s.drt pc q = some u ∧ eligible s u = true) := by
  rw [admitPick_eq, List.argmax_eq_none, List.eq_nil_iff_forall_not_mem]
  simp only [mem_eligibleHeads]
  exact ⟨fun h q u hu => h u ⟨q, hu⟩, fun h u ⟨q, hu⟩ => h q u hu⟩

/-- What the eligible head that a pseudo-channel takes is to the others (R208). -/
theorem admitPick_spec {s : State} {pc : Nat} {v : AUnit} (h : admitPick s pc = some v) :
    (v.q < 32 ∧ headOf s.drt pc v.q = some v ∧ eligible s v = true) ∧
      ∀ q u, q < 32 → headOf s.drt pc q = some u → eligible s u = true →
        urgency s u ≤ urgency s v ∧ (urgency s u = urgency s v → turnOf s pc v.q ≤ turnOf s pc q) := by
  obtain ⟨hv, hbest⟩ := argmax_spec (eligibleHeads_in_turn s pc) (admitPick_eq s pc ▸ h)
  obtain ⟨q, hq, hhead, he⟩ := mem_eligibleHeads.1 hv
  obtain rfl := headOf_q hhead
  refine ⟨⟨hq, hhead, he⟩, fun q u hq hu he => ?_⟩
  obtain rfl := headOf_q hu
  exact hbest u (mem_eligibleHeads.2 ⟨_, hq, hu, he⟩)

theorem bankHeld_iff (d : Drt) (k : Nat) : bankHeld d k = true ↔ 8 ≤ tget 0 d.debt k := decide_eq_true_iff

theorem eligible_iff (s : State) (u : AUnit) : eligible s u = true ↔
    (s.drt.admitted.filter (fun x => x.pc == u.pc)).length < 4 ∧ tget 0 s.drt.debt (64 * u.pc + 16 * (u.sid % 4) + u.bank) < 8 ∧
      ¬ (s.drt.switching = true ∧ s.drt.stack = u.pc / 32) ∧ u.pc / 4 ∉ s.drt.frozen ∧ (u.q = 27 → 0 < creditNow s (u.pc / 32)) := by
  have hheld : (!bankHeld s.drt (unitBank u)) = true ↔ tget 0 s.drt.debt (64 * u.pc + 16 * (u.sid % 4) + u.bank) < 8 := by
    rw [Bool.not_eq_true', Bool.eq_false_iff, ne_eq, bankHeld_iff, not_le]
    rfl
  simp [eligible, and_assoc, hheld, imp_iff_not_or]

/-! ### DRAM_ADMISSION -/

theorem dramAdmission_none {s : State} {pc : Nat} (rfm : Bool) (h : admitPick s pc = none) :
    exec (.dramAdmission pc rfm) s = .next s := by
  change execDramAdmission pc rfm s = _
  rw [execDramAdmission, h]

/-- What the admission of a unit leaves (R207, R208, R214). -/
def admits (pc : Nat) (rfm : Bool) (s : State) (u : AUnit) (t : State) : Prop :=
  t.drt.admitted = s.drt.admitted ++ [u] ∧ t.drt.queue = s.drt.queue.filter (fun x => x.uid != u.uid) ∧
    tget 0 t.drt.pointer pc = (u.q + 1) % 32 ∧ (rfm = true → .dramCommand pc (u.sid % 4) u.bank 1 ∈ t.out ∧
      (tget {} t.drt.stks (pc / 32)).rfm = min ((tget {} s.drt.stks (pc / 32)).rfm + 1) 4294967295)

theorem dramAdmission_admits {s : State} {pc : Nat} {u : AUnit} (rfm : Bool) (h : admitPick s pc = some u) :
    Answers (.dramAdmission pc rfm) s (admits pc rfm s u) := by
  unfold Answers
  change ∃ t, execDramAdmission pc rfm s = .next t ∧ _
  rw [execDramAdmission, h]
  refine ⟨_, rfl, rfl, rfl, tget_tset_same .., fun hr => ?_⟩
  subst hr
  exact ⟨List.mem_cons_self, congrArg Stk.rfm
    (tget_tmod_same {} (pc / 32) (fun x : Stk => { x with rfm := sat 32 (x.rfm + 1) }) s.drt.stks)⟩

end Sys2Proof.Proofs
end

section
/-! Refresh of a pseudo-channel (R211 to R213): the bank that a deadline or an opportunity refreshes. -/

namespace Sys2Proof.Proofs

open Sys2Proof.Machine Sys2Proof.Safety Sys2Proof.Laws

/-! ### One refresh -/

theorem refreshBank_debt (k : Nat) (s : State) : tget 0 (refreshBank k s).drt.debt k = tget 0 s.drt.debt k - 1 :=
  tget_tmod_same 0 k (· - 1) s.drt.debt

theorem refreshBank_debt_other {j k : Nat} (h : j ≠ k) (s : State) : tget 0 (refreshBank k s).drt.debt j = tget 0 s.drt.debt j :=
  tget_tmod_other 0 0 h (· - 1) s.drt.debt

theorem refreshBank_out {pc k : Nat} (hk : 64 * pc ≤ k ∧ k < 64 * pc + 64) (s : State) :
    (refreshBank k s).out = .dramCommand pc (k % 64 / 16) (k % 16) 0 :: s.out := by
  rw [show pc = k / 64 by omega]
  rfl

theorem refreshBank_forced {k : Nat} {s : State} (h : bankHeld s.drt k = true) :
    (tget {} (refreshBank k s).drt.stks (k / 2048)).forced = min ((tget {} s.drt.stks (k / 2048)).forced + 1) 4294967295 := by
  rw [refreshBank, if_pos h, tget_tmod_same]
  rfl

theorem forcedRefresh_debt_other {j k : Nat} (h : j ≠ k) (s : State) :
    tget 0 (forcedRefresh k s).drt.debt j = tget 0 s.drt.debt j := by
  unfold forcedRefresh
  split
  · exact refreshBank_debt_other h s
  · rfl

/-- What a forced refresh leaves of the tier. -/
theorem forcedRefresh_keeps (k : Nat) (s : State) : (forcedRefresh k s).drt.admitted = s.drt.admitted ∧
    (forcedRefresh k s).drt.sids = s.drt.sids ∧ (forcedRefresh k s).drt.badLines = s.drt.badLines := by
  unfold forcedRefresh
  split <;> exact ⟨rfl, rfl, rfl⟩

/-! ### A deadline (R212, R213) -/

/-- A bank's debt is one more. -/
def oweRefresh (k : Nat) (s : State) : State := { s with drt := { s.drt with debt := tmod 0 k (· + 1) s.drt.debt } }

theorem exec_refreshDeadline {pc bank : Nat} (h : bank < 64) (s : State) :
    exec (.refreshDeadline pc bank) s = .next (forcedRefresh (64 * pc + bank) (oweRefresh (64 * pc + bank) s)) := by
  change execRefreshDeadline pc bank s = _
  rw [execRefreshDeadline, Nat.mod_eq_of_lt h]
  rfl

theorem oweRefresh_debt (k : Nat) (s : State) : tget 0 (oweRefresh k s).drt.debt k = tget 0 s.drt.debt k + 1 :=
  tget_tmod_same 0 k (· + 1) s.drt.debt

theorem oweRefresh_debt_other {j k : Nat} (h : j ≠ k) (s : State) : tget 0 (oweRefresh k s).drt.debt j = tget 0 s.drt.debt j :=
  tget_tmod_other 0 0 h (· + 1) s.drt.debt

theorem oweRefresh_held_iff (k : Nat) (s : State) : bankHeld (oweRefresh k s).drt k = true ↔ 8 ≤ tget 0 s.drt.debt k + 1 := by
  rw [bankHeld_iff, oweRefresh_debt]

theorem refreshDeadline_postpones {pc bank : Nat} {s : State} (hb : bank < 64)
    (h : tget 0 s.drt.debt (64 * pc + bank) + 1 < 8 ∨ bankIdle s.drt (64 * pc + bank) = false) :
    exec (.refreshDeadline pc bank) s = .next (oweRefresh (64 * pc + bank) s) := by
  rw [exec_refreshDeadline hb, forcedRefresh, if_neg]
  rw [Bool.and_eq_true, oweRefresh_held_iff]
  rintro ⟨hheld, hidle⟩
  rcases h with hlow | hbusy
  · omega
  · exact Bool.false_ne_true (hbusy.symm.trans hidle)

theorem refreshDeadline_forces {pc bank : Nat} {s : State} (hb : bank < 64) (hdue : 8 ≤ tget 0 s.drt.debt (64 * pc + bank) + 1)
    (hidle : bankIdle s.drt (64 * pc + bank) = true) :
    exec (.refreshDeadline pc bank) s = .next (refreshBank (64 * pc + bank) (oweRefresh (64 * pc + bank) s)) := by
  rw [exec_refreshDeadline hb, forcedRefresh, if_pos]
  rw [Bool.and_eq_true, oweRefresh_held_iff]
  exact ⟨hdue, hidle⟩

/-! ### An opportunity (R212, R213) -/

/-- The banks of a pseudo-channel, lowest first. -/
def pcBanks (pc : Nat) : List Nat := (List.range 64).map (64 * pc + ·)

theorem mem_pcBanks {pc k : Nat} : k ∈ pcBanks pc ↔ 64 * pc ≤ k ∧ k < 64 * pc + 64 := by
  simp only [pcBanks, List.mem_map, List.mem_range]
  exact ⟨fun ⟨i, hi, hk⟩ => by omega, fun hk => ⟨k - 64 * pc, by omega, by omega⟩⟩

theorem pcBanks_rise (pc : Nat) : (pcBanks pc).Pairwise (· < ·) :=
  List.pairwise_map.2 (List.pairwise_lt_range.imp fun h => Nat.add_lt_add_left h _)

/-- The idle banks of a pseudo-channel that are in debt. -/
def idleInDebt (d : Drt) (pc : Nat) : List Nat := (pcBanks pc).filter fun k => bankIdle d k && decide (0 < tget 0 d.debt k)

theorem mem_idleInDebt {d : Drt} {pc k : Nat} :
    k ∈ idleInDebt d pc ↔ (64 * pc ≤ k ∧ k < 64 * pc + 64) ∧ bankIdle d k = true ∧ 0 < tget 0 d.debt k := by
  rw [idleInDebt, List.mem_filter, mem_pcBanks, Bool.and_eq_true, decide_eq_true_iff]

theorem refreshPick_of_held {d : Drt} {pc k : Nat} (hfind : (pcBanks pc).find? (bankHeld d) = some k) :
    refreshPick d pc = if bankIdle d k then some k else none := by
  unfold pcBanks at hfind
  rw [refreshPick, hfind]

theorem refreshPick_of_none_held {d : Drt} {pc : Nat} (hfind : (pcBanks pc).find? (bankHeld d) = none) :
    refreshPick d pc = (idleInDebt d pc).argmax (tget 0 d.debt) := by
  unfold pcBanks at hfind
  rw [refreshPick, hfind, List.argmax]
  refine congrArg (List.foldl · none (idleInDebt d pc)) (funext₂ fun b k => ?_)
  cases b <;> rfl

/-- The first held bank is the lowest. -/
theorem find_held_of_lowest {d : Drt} {pc k : Nat} (hk : k ∈ pcBanks pc) (hheld : 8 ≤ tget 0 d.debt k)
    (hlow : ∀ j ∈ pcBanks pc, 8 ≤ tget 0 d.debt j → k ≤ j) : (pcBanks pc).find? (bankHeld d) = some k := by
  rw [mem_pcBanks] at hk
  have hfirst : (List.range 64).find? (bankHeld d ∘ (64 * pc + ·)) = some (k - 64 * pc) := by
    refine List.find?_range_eq_some.2 ⟨?_, List.mem_range.2 (by omega), fun j hj => ?_⟩
    · rw [Function.comp_apply, show 64 * pc + (k - 64 * pc) = k by omega, bankHeld_iff]
      exact hheld
    · rw [Function.comp_apply, Bool.not_eq_true', Bool.eq_false_iff, ne_eq, bankHeld_iff]
      intro hjheld
      have := hlow _ (mem_pcBanks.2 (by omega)) hjheld
      omega
  rw [pcBanks, List.find?_map, hfirst, Option.map_some, show 64 * pc + (k - 64 * pc) = k by omega]

theorem find_held_none {d : Drt} {pc : Nat} (h : ∀ j ∈ pcBanks pc, tget 0 d.debt j < 8) :
    (pcBanks pc).find? (bankHeld d) = none :=
  List.find?_eq_none.2 fun j hj => by
    rw [bankHeld_iff, not_le]
    exact h j hj

/-- With no bank held, the lowest idle bank of the greatest debt is refreshed. -/
theorem refreshPick_greatest {d : Drt} {pc k : Nat} (hnone : ∀ j ∈ pcBanks pc, tget 0 d.debt j < 8) (hk : k ∈ idleInDebt d pc)
    (hbest : ∀ j ∈ pcBanks pc, bankIdle d j = true → tget 0 d.debt j ≤ tget 0 d.debt k ∧ (tget 0 d.debt j = tget 0 d.debt k → k ≤ j)) :
    refreshPick d pc = some k := by
  rw [refreshPick_of_none_held (find_held_none hnone)]
  cases hpick : (idleInDebt d pc).argmax (tget 0 d.debt) with
  | none => exact absurd hk (List.argmax_eq_none.1 hpick ▸ List.not_mem_nil)
  | some m =>
    obtain ⟨hm, hfirst⟩ := argmax_spec (key := id) ((pcBanks_rise pc).filter _) hpick
    obtain ⟨hmine, hidle, -⟩ := mem_idleInDebt.1 hm
    obtain ⟨hle, hkm⟩ := hbest m (mem_pcBanks.2 hmine) hidle
    obtain ⟨hge, hmk⟩ := hfirst k hk
    have heq := le_antisymm hle hge
    exact congrArg some (le_antisymm (hmk heq.symm) (hkm heq))

theorem refreshPick_nothing {d : Drt} {pc : Nat} (hnone : ∀ j ∈ pcBanks pc, tget 0 d.debt j < 8)
    (hbusy : ∀ j ∈ pcBanks pc, tget 0 d.debt j = 0 ∨ bankIdle d j = false) : refreshPick d pc = none := by
  rw [refreshPick_of_none_held (find_held_none hnone), List.argmax_eq_none, List.eq_nil_iff_forall_not_mem]
  intro k hk
  obtain ⟨hmine, hidle, hdebt⟩ := mem_idleInDebt.1 hk
  rcases hbusy k (mem_pcBanks.2 hmine) with h0 | hb
  · omega
  · exact Bool.false_ne_true (hb.symm.trans hidle)

theorem refreshOpportunity_none {s : State} {pc : Nat} (h : refreshPick s.drt pc = none) :
    exec (.refreshOpportunity pc) s = .next s := by
  change execRefreshOpportunity pc s = _
  rw [execRefreshOpportunity, h]

theorem refreshOpportunity_some {s : State} {pc k : Nat} (h : refreshPick s.drt pc = some k) :
    exec (.refreshOpportunity pc) s = .next (refreshBank k s) := by
  change execRefreshOpportunity pc s = _
  rw [execRefreshOpportunity, h]

end Sys2Proof.Proofs
end

section
/-! The end of an admitted unit (R199, R207, R209) and the change of the data rate (R216, Table 10.4). -/

namespace Sys2Proof.Proofs

open Sys2Proof.Machine Sys2Proof.Safety Sys2Proof.Laws

/-! ### A unit without errors -/

theorem checkLine_nil (halves : List Nat) : checkLine [] halves (some 0) = .ok 0 := by
  have hzero : wrongSyndromes [] halves = 0 := by
    simp [wrongSyndromes, halfP, halfQ, lineR, b2n]
  exact checkLine_of_few (hzero ▸ Nat.zero_le 1)

theorem inlineHalf_nil (col : Nat) : inlineHalf [] col = (some 0, false) := by
  rw [inlineHalf_eq, if_pos (.inl (by simp [halfP])), checkErr_nil]

theorem checkUnit_nil (u : AUnit) : checkUnit u [] = (0, []) := by
  simp [checkUnit, inlineHalf_nil, checkLine_nil]

theorem dramUnitComplete_waits {s : State} {u : AUnit} (errs : List SymErr)
    (hu : s.drt.admitted.find? (fun x => x.uid == u.uid) = some u) (hyoung : s.drt.admitted.find? (fun x => x.pc == u.pc) ≠ some u) :
    exec (.dramUnitComplete u.uid errs) s = .next s := by
  change execDramUnitComplete u.uid errs s = _
  rw [execDramUnitComplete, hu]
  exact if_pos (bne_iff_ne.2 hyoung)

/-- The unit has left the pseudo-channel. -/
def unitDone (uid : Nat) (s : State) : State := { s with drt := { s.drt with admitted := s.drt.admitted.filter (fun x => x.uid != uid) } }

theorem dramUnitComplete_ends {s : State} {u : AUnit} (hu : s.drt.admitted.find? (fun x => x.uid == u.uid) = some u)
    (hold : s.drt.admitted.find? (fun x => x.pc == u.pc) = some u) :
    exec (.dramUnitComplete u.uid []) s = .next (forcedRefresh (unitBank u) (unitDone u.uid s)) := by
  change execDramUnitComplete u.uid [] s = _
  have hnone : (if u.isWrite then (0, []) else checkUnit u []) = (0, []) := by rw [checkUnit_nil, ite_self]
  rw [execDramUnitComplete, hu]
  simp only [hold, bne_self_eq_false, Bool.false_eq_true, if_false, hnone]
  rfl

/-! ### The data rate -/

theorem vi6Floor_eq (r : Nat) : vi6Floor r = if r = 0 then 90 else if r = 1 then 70 else 60 := by
  unfold vi6Floor
  split <;> simp_all

theorem rateAllowed_iff (s : State) (r : Nat) : rateAllowed s r = true ↔
    r < 3 ∧ bit (dramStates s.vq.active (me s)) r = true ∧ (if r = 0 then 90 else if r = 1 then 70 else 60) ≤ islandMax s 6 := by
  rw [rateAllowed, Bool.and_eq_true, Bool.and_eq_true, decide_eq_true_iff, decide_eq_true_iff, vi6Floor_eq, and_assoc]

theorem dataRateChange_refused {s : State} {r : Nat} (h : ¬ rateAllowed s r = true ∨ s.drt.rate = r) :
    exec (.dataRateChange r) s = .next s :=
  congrArg Host.Outcome.next (if_pos (by simpa using h))

theorem dataRateChange_done {s : State} {r : Nat} (h : rateAllowed s r = true) (hr : s.drt.rate ≠ r) :
    exec (.dataRateChange r) s = .next { s with drt := { s.drt with
      rate := r, nextRate := r, switching := false, stack := 0, admitted := [], debt := [] } } :=
  congrArg Host.Outcome.next (if_neg (by simp [h, hr]))

/-! ### O44 -/

/-- Settles O44: admission by `admitPick_spec`, refresh by the lemmas about `refreshPick`, the end of a unit and the change of the
data rate. -/
theorem admissionAndRefresh : Obligations.AdmissionAndRefresh := by
  unfold Obligations.AdmissionAndRefresh
  refine ⟨fun s pc rfm => ?_, fun s pc bank hb => ?_, fun s pc => ?_, fun s u hu => ⟨fun hyoung errs => ?_, fun hold => ?_⟩,
    fun s r => ?_⟩
  case refine_1 =>
    intro d fit level heads turn
    have hheads : ∀ q u, heads q u ↔ q < 32 ∧ headOf s.drt pc q = some u ∧ eligible s u = true := fun q u =>
      and_congr_right' (and_congr_right' (eligible_iff s u).symm)
    refine ⟨fun hnone => dramAdmission_none rfm (admitPick_none_iff.2 fun q u => (hheads q u).not.1 (hnone q u)), fun q u hqu => ?_⟩
    cases hpick : admitPick s pc with
    | none => exact absurd ((hheads q u).1 hqu) (admitPick_none_iff.1 hpick q u)
    | some v =>
      obtain ⟨hq, hu, he⟩ := (hheads q u).1 hqu
      obtain ⟨hv, hbest⟩ := admitPick_spec hpick
      obtain ⟨hlevel, hturn⟩ := hbest q u hq hu he
      obtain ⟨t, ht, hadmits⟩ := dramAdmission_admits rfm hpick
      exact ⟨t, ht, v.q, v, (hheads v.q v).2 hv, hlevel, hturn, hadmits⟩
  case refine_2 =>
    intro k debt
    have hk : 64 * pc ≤ k ∧ k < 64 * pc + 64 := by omega
    refine ⟨fun h => ⟨_, refreshDeadline_postpones hb h, oweRefresh_debt k s, rfl⟩, fun hdue hidle => ?_, fun j hj => ?_⟩
    · refine ⟨_, refreshDeadline_forces hb hdue hidle, ?_, ?_, ?_⟩
      · rw [refreshBank_debt, oweRefresh_debt, Nat.add_sub_cancel]
      · rw [refreshBank_out hk, show k % 64 / 16 = bank / 16 by omega, show k % 16 = bank % 16 by omega]
        rfl
      · rw [show pc / 32 = k / 2048 by omega, refreshBank_forced ((oweRefresh_held_iff k s).2 hdue)]
        rfl
    · exact ⟨_, exec_refreshDeadline hb s, (forcedRefresh_debt_other hj _).trans (oweRefresh_debt_other hj s)⟩
  case refine_3 =>
    intro mine debt pays
    have hpays : ∀ k, mine k → refreshPick s.drt pc = some k → pays k := fun k hk hpick =>
      ⟨_, refreshOpportunity_some hpick, refreshBank_debt k s, refreshBank_out hk s⟩
    refine ⟨fun k hk hheld hlow => ?_, fun k hk hnone hdebt hidle hbest => ?_, fun h => ?_⟩
    · have hpick := refreshPick_of_held
        (find_held_of_lowest (mem_pcBanks.2 hk) hheld fun j hj => hlow j (mem_pcBanks.1 hj))
      by_cases hidle : bankIdle s.drt k = true
      · rw [if_pos hidle] at hpick ⊢
        exact hpays k hk hpick
      · rw [if_neg hidle] at hpick ⊢
        exact refreshOpportunity_none hpick
    · exact hpays k hk (refreshPick_greatest (fun j hj => hnone j (mem_pcBanks.1 hj)) (mem_idleInDebt.2 ⟨hk, hidle, hdebt⟩)
        fun j hj => hbest j (mem_pcBanks.1 hj))
    · exact refreshOpportunity_none (refreshPick_nothing (fun j hj => (h j (mem_pcBanks.1 hj)).1)
        fun j hj => (h j (mem_pcBanks.1 hj)).2)
  case refine_4 => exact dramUnitComplete_waits errs hu hyoung
  case refine_5 =>
    exact ⟨_, dramUnitComplete_ends hu hold, forcedRefresh_keeps (unitBank u) (unitDone u.uid s)⟩
  case refine_6 =>
    intro floor allowed
    have hallowed : rateAllowed s r = true ↔ allowed := rateAllowed_iff s r
    rw [← hallowed]
    exact ⟨dataRateChange_refused, dataRateChange_done⟩

end Sys2Proof.Proofs
end
